-- ==== Sys2Proof/Word.lean ====
section
/-! DEFINITION. The word types of the Acnatric 9200 and their plainest arithmetic (00_scope.md R2). -/

namespace Sys2Proof

abbrev Byte := BitVec 8
abbrev W16 := BitVec 16
abbrev W32 := BitVec 32
abbrev W64 := BitVec 64
abbrev W128 := BitVec 128

/-- A general register number g0 to g63 (04_helm.md R97). -/
abbrev GReg := BitVec 6

/-- The field `x[hi:lo]` as a natural number; both ends included (R2). -/
def bitsOf (x hi lo : Nat) : Nat := x / 2 ^ lo % 2 ^ (hi + 1 - lo)

/-- Bit `i` of a natural number (R2). -/
def bitOf (x i : Nat) : Bool := x / 2 ^ i % 2 == 1

/-- The natural `x` of `n` bits read as two's complement. -/
def signedOf (n x : Nat) : Int :=
  let y := x % 2 ^ n
  if 2 * y < 2 ^ n then (y : Int) else (y : Int) - (2 ^ n : Nat)

/-- The low `n` bits of an integer, as a natural number. -/
def wrapOf (n : Nat) (x : Int) : Nat := (x % ((2 ^ n : Nat) : Int)).toNat

/-- `Bool` as 0 or 1. -/
def b2n (b : Bool) : Nat := if b then 1 else 0

end Sys2Proof
end

