-- ==== Sys2Proof/Syntax.lean ====
section
/-! DEFINITION. The steps of the Acnatric 9200 as syntax: every row of spec/opcode_table.json is one constructor of `Instr`. -/

namespace Sys2Proof

/-- The fields of `q.push` and `q.split` beside gd and ga (06_queues.md R159, R161). -/
structure PushFields where
  /-- fn8: 0x00 to 0x1F one group, 0xFF every group. -/
  gsel : BitVec 8
  block : W16
  lay : BitVec 4
  lfix : Bool
  rel : Bool
  rscope : BitVec 3
deriving DecidableEq, Repr

/-- The extension of a long strand word, without xop and bit 31 (02_encoding.md R51). -/
structure SExt where
  imm : W16
  ubase : BitVec 4
  vc : BitVec 7
  seg : BitVec 4
  fmt : BitVec 4
  sh : BitVec 3
  acc : BitVec 3
deriving DecidableEq, Repr

/-- The operand fields of a strand word (R48); `ext` is present in a long word (R50). `b` is [47:41]. -/
structure SW where
  tok : BitVec 4
  rep : BitVec 5
  step : BitVec 7
  msk : BitVec 3
  vd : BitVec 7
  va : BitVec 7
  b : BitVec 7
  ext : Option SExt
deriving DecidableEq, Repr

/-- The three engines of a lane group; a C engine is named by its path slot 0 to 3 (R25, R176). -/
inductive Eng where
  | l
  | s
  | c (slot : Nat)
deriving DecidableEq, Repr

/-- Who holds the write token of a 4 KiB block (11_writesets.md R322). -/
inductive TokenHolder where
  | bay (n : Nat)
  | bridge
deriving DecidableEq, Repr

/-- What bring-up finds (17_outside.md R433, R434): the results of its tests, which the spec leaves to the module. -/
structure BringUp where
  /-- Step 1 passes. -/
  selfTest : Bool
  /-- Step 2: both signature schemes. -/
  rsaOk : Bool
  slhOk : Bool
  /-- Dies whose SRAM test passes and whose SE and bridge work. -/
  dies : List Bool
  /-- Per die and mesh stop of a bay 0 to 51: good quadrants 0 to 4, 0 where helm, scratchpad or lanes fail. -/
  quads : List (List Nat)
  /-- Of each of the eight stacks, the mask of its 32 channels that step 4 retires. -/
  chans : List Nat
  /-- Die-to-die edges 0 to 3 that pass. -/
  edges : List Bool
  /-- Rhumb links 0 to 15 that are up, but for their lanes; and of each the mask of its nine lanes that fail the lane test. -/
  links : List Bool
  lanes : List Nat
  /-- SECFG of each die (R328). -/
  secfg : List W64
deriving DecidableEq, Repr

/-- One entry of the health log (R436). -/
structure HealthEntry where
  eold : BitVec 24
  conf : Byte
  value : W32
  kind : Byte
  site : BitVec 4
  unit : BitVec 12
  time : BitVec 40
deriving DecidableEq, Repr

/-- The unit that a threshold crossing repairs, or another trigger of R437. -/
inductive RepairUnit where
  /-- A bay retires (delay or minimum-voltage drift). -/
  | bay (n : Nat)
  /-- A quadrant of a bay is fused out (05_shapes.md R140). -/
  | quadrant (bay : Nat)
  /-- An HBM channel retires: stack 0 to 7 and channel. -/
  | channel (stack ch : Nat)
  /-- A Rhumb lane is switched to its spare (R432). -/
  | lane (link lane : Nat)
  /-- A bay fails a test in service: it retires, and no reading is logged (R437). -/
  | failedTest (bay : Nat)
  /-- An HBM channel gives an uncorrectable error: it retires, and no reading is logged (R437). -/
  | uncorrectable (stack ch : Nat)
  /-- Nothing is repaired: the reading is only logged. -/
  | none
deriving DecidableEq, Repr

/-- One constructor per row of spec/opcode_table.json, in its order: helm words, strand words, then the steps of the machine
that no word encodes (95_what_each_step_holds.md). The docstring of each is its row's mnemonic and governing rule. -/
inductive Instr where
  /-- ADD (R105). -/
  | add (d a b : GReg)
  /-- SUB (R105). -/
  | sub (d a b : GReg)
  /-- AND (R105). -/
  | and_ (d a b : GReg)
  /-- OR (R105). -/
  | or_ (d a b : GReg)
  /-- XOR (R105). -/
  | xor (d a b : GReg)
  /-- SHL (R105). -/
  | shl (d a b : GReg)
  /-- SHR (R105). -/
  | shr (d a b : GReg)
  /-- SHA (R105). -/
  | sha (d a b : GReg)
  /-- MUL (R105). -/
  | mul (d a b : GReg)
  /-- MULH (R105). -/
  | mulh (d a b : GReg)
  /-- MULHU (R105). -/
  | mulhu (d a b : GReg)
  /-- DIV (R106). -/
  | div (d a b : GReg)
  /-- DIVU (R106). -/
  | divu (d a b : GReg)
  /-- REM (R106). -/
  | rem (d a b : GReg)
  /-- REMU (R106). -/
  | remu (d a b : GReg)
  /-- MIN (R105). -/
  | min (d a b : GReg)
  /-- MINU (R105). -/
  | minu (d a b : GReg)
  /-- MAX (R105). -/
  | max (d a b : GReg)
  /-- MAXU (R105). -/
  | maxu (d a b : GReg)
  /-- SLT (R105). -/
  | slt (d a b : GReg)
  /-- SLTU (R105). -/
  | sltu (d a b : GReg)
  /-- CLZ (R105). -/
  | clz (d a : GReg)
  /-- POPC (R105). -/
  | popc (d a : GReg)
  /-- BEXT (R107). -/
  | bext (d a b : GReg)
  /-- BINS (R107). -/
  | bins (d a b : GReg)
  /-- ADDI (R108). -/
  | addi (d a : GReg) (imm : BitVec 12)
  /-- ANDI (R108). -/
  | andi (d a : GReg) (imm : BitVec 12)
  /-- ORI (R108). -/
  | ori (d a : GReg) (imm : BitVec 12)
  /-- XORI (R108). -/
  | xori (d a : GReg) (imm : BitVec 12)
  /-- SLTI (R108). -/
  | slti (d a : GReg) (imm : BitVec 12)
  /-- SHLI (R108). -/
  | shli (d a : GReg) (n : BitVec 6)
  /-- SHRI (R108). -/
  | shri (d a : GReg) (n : BitVec 6)
  /-- SHAI (R108). -/
  | shai (d a : GReg) (n : BitVec 6)
  /-- FADD (R110). -/
  | fadd (p : Bool) (d a b : GReg)
  /-- FSUB (R110). -/
  | fsub (p : Bool) (d a b : GReg)
  /-- FMUL (R110). -/
  | fmul (p : Bool) (d a b : GReg)
  /-- FDIV (R110). -/
  | fdiv (p : Bool) (d a b : GReg)
  /-- FSQRT (R110). -/
  | fsqrt (p : Bool) (d a : GReg)
  /-- FMIN (R111). -/
  | fmin (p : Bool) (d a b : GReg)
  /-- FMAX (R111). -/
  | fmax (p : Bool) (d a b : GReg)
  /-- FCLASS (R112). -/
  | fclass (p : Bool) (d a : GReg)
  /-- FCMP_EQ (R112). -/
  | fcmpEq (p : Bool) (d a b : GReg)
  /-- FCMP_LT (R112). -/
  | fcmpLt (p : Bool) (d a b : GReg)
  /-- FCMP_LE (R112). -/
  | fcmpLe (p : Bool) (d a b : GReg)
  /-- FCMP_UN (R112). -/
  | fcmpUn (p : Bool) (d a b : GReg)
  /-- FCVT_L_P (R113). -/
  | fcvtLP (p : Bool) (rnd : BitVec 3) (d a : GReg)
  /-- FCVT_N_P (R113). -/
  | fcvtNP (p : Bool) (rnd : BitVec 3) (d a : GReg)
  /-- FCVT_P_L (R113). -/
  | fcvtPL (p : Bool) (rnd : BitVec 3) (d a : GReg)
  /-- FCVT_P_N (R113). -/
  | fcvtPN (p : Bool) (rnd : BitVec 3) (d a : GReg)
  /-- FCVT_S_D (R113). -/
  | fcvtSD (rnd : BitVec 3) (d a : GReg)
  /-- FCVT_D_S (R113). -/
  | fcvtDS (rnd : BitVec 3) (d a : GReg)
  /-- B_EQ (R122). -/
  | bEq (a b : GReg) (off : BitVec 12)
  /-- B_NE (R122). -/
  | bNe (a b : GReg) (off : BitVec 12)
  /-- B_LT (R122). -/
  | bLt (a b : GReg) (off : BitVec 12)
  /-- B_GE (R122). -/
  | bGe (a b : GReg) (off : BitVec 12)
  /-- B_LTU (R122). -/
  | bLtu (a b : GReg) (off : BitVec 12)
  /-- B_GEU (R122). -/
  | bGeu (a b : GReg) (off : BitVec 12)
  /-- J (R123). -/
  | j (off : BitVec 18)
  /-- CALL (R123). -/
  | call (d : GReg) (off : BitVec 18)
  /-- CALLR (R124). -/
  | callr (d a : GReg)
  /-- RET (R125). -/
  | ret (a : GReg)
  /-- HLOOP (R129). -/
  | hloop (a : GReg) (off : BitVec 12)
  /-- LD (R119). -/
  | ld (d a : GReg) (size : BitVec 3) (imm : BitVec 9)
  /-- ST (R119). -/
  | st (g a : GReg) (size : BitVec 3) (imm : BitVec 9)
  /-- LD_ACQ (R120). -/
  | ldAcq (d a : GReg) (size scope : BitVec 3)
  /-- ST_REL (R120). -/
  | stRel (g a : GReg) (size scope : BitVec 3)
  /-- Q_POPR (R168). -/
  | qPopr (d : GReg)
  /-- Q_PEEK (R168). -/
  | qPeek (d : GReg)
  /-- Q_OCC_CQ (R168). -/
  | qOccCq (d : GReg)
  /-- Q_OCC_RQ (R168). -/
  | qOccRq (d : GReg)
  /-- Q_JOIN (R163). -/
  | qJoin (a : GReg)
  /-- Q_MARK (R164). -/
  | qMark (d a : GReg)
  /-- SHP_GET (R143). -/
  | shpGet (d : GReg) (sh : BitVec 3) (item : BitVec 4)
  /-- SHP_TAIL (R144). -/
  | shpTail (d a : GReg) (sh : BitVec 3)
  /-- RG_CLAIM (R239). -/
  | rgClaim (d : GReg) (ring : BitVec 4) (scope : BitVec 3)
  /-- RG_COMMIT (R239). -/
  | rgCommit (a : GReg) (ring : BitVec 4) (scope : BitVec 3)
  /-- RG_WFILL (R239). -/
  | rgWfill (d : GReg) (ring : BitVec 4) (scope : BitVec 3)
  /-- RG_RELEASE (R239). -/
  | rgRelease (a : GReg) (ring : BitVec 4) (scope : BitVec 3)
  /-- RG_EOS (R239). -/
  | rgEos (ring : BitVec 4) (scope : BitVec 3)
  /-- RG_ABORT (R239). -/
  | rgAbort (ring : BitVec 4)
  /-- RG_STAT (R240). -/
  | rgStat (d : GReg) (ring : BitVec 4)
  /-- WP_ARRIVE (R337). -/
  | wpArrive (d a : GReg) (ord : BitVec 2) (scope : BitVec 3)
  /-- WP_EXPECT (R337). -/
  | wpExpect (d a : GReg)
  /-- WP_WAIT (R337). -/
  | wpWait (d a : GReg) (ord : BitVec 2) (scope : BitVec 3)
  /-- WP_TEST (R337). -/
  | wpTest (d a : GReg) (ord : BitVec 2) (scope : BitVec 3)
  /-- WP_STAT (R339). -/
  | wpStat (d a : GReg)
  /-- AT_ADD (R344). -/
  | atAdd (d a : GReg) (dbl : Bool) (ord : BitVec 2) (scope : BitVec 3)
  /-- AT_AND (R344). -/
  | atAnd (d a : GReg) (dbl : Bool) (ord : BitVec 2) (scope : BitVec 3)
  /-- AT_OR (R344). -/
  | atOr (d a : GReg) (dbl : Bool) (ord : BitVec 2) (scope : BitVec 3)
  /-- AT_XOR (R344). -/
  | atXor (d a : GReg) (dbl : Bool) (ord : BitVec 2) (scope : BitVec 3)
  /-- AT_MIN (R344). -/
  | atMin (d a : GReg) (dbl : Bool) (ord : BitVec 2) (scope : BitVec 3)
  /-- AT_MAX (R344). -/
  | atMax (d a : GReg) (dbl : Bool) (ord : BitVec 2) (scope : BitVec 3)
  /-- AT_MINU (R344). -/
  | atMinu (d a : GReg) (dbl : Bool) (ord : BitVec 2) (scope : BitVec 3)
  /-- AT_MAXU (R344). -/
  | atMaxu (d a : GReg) (dbl : Bool) (ord : BitVec 2) (scope : BitVec 3)
  /-- AT_XCHG (R344). -/
  | atXchg (d a : GReg) (dbl : Bool) (ord : BitVec 2) (scope : BitVec 3)
  /-- AT_CAS (R344). -/
  | atCas (d a : GReg) (dbl : Bool) (ord : BitVec 2) (scope : BitVec 3)
  /-- AT_RED (R344). -/
  | atRed (op : BitVec 3) (natural : Bool) (d a : GReg) (dbl : Bool) (ord : BitVec 2) (scope : BitVec 3)
  /-- FENCE (R347). -/
  | fence (ord : BitVec 2) (scope : BitVec 3)
  /-- FENCE_SC (R348). -/
  | fenceSc
  /-- RB_SURR (R393). -/
  | rbSurr (a : GReg) (mask : BitVec 7)
  /-- RB_CLAIM (R393). -/
  | rbClaim (a : GReg) (mask : BitVec 7)
  /-- YIELD (R390). -/
  | yield
  /-- TEAM_EXIT (R391). -/
  | teamExit
  /-- TEAM_INFO (R392). -/
  | teamInfo (d : GReg) (item : BitVec 4)
  /-- JOIN (R388). -/
  | join (d : GReg)
  /-- SYS_RD (R401). -/
  | sysRd (d : GReg) (num : BitVec 8)
  /-- SYS_WR (R102). -/
  | sysWr (a : GReg) (num : BitVec 8)
  /-- TRAP (R402). -/
  | trap (n : BitVec 8)
  /-- ERET (R403). -/
  | eret
  /-- BRK (R402). -/
  | brk (n : BitVec 8)
  /-- HALT (R404). -/
  | halt (a : GReg)
  /-- TLB_INV (R363). -/
  | tlbInv (a : GReg)
  /-- TLB_INV_ALL (R363). -/
  | tlbInvAll
  /-- PG_PROBE (R364). -/
  | pgProbe (d a : GReg)
  /-- LI (R115). -/
  | li (d : GReg) (imm : W32)
  /-- LI_HI (R115). -/
  | liHi (d : GReg) (imm : W32)
  /-- LEA (R116). -/
  | lea (d a : GReg) (seg : BitVec 4) (imm : W32)
  /-- LDS (R119). -/
  | lds (d a : GReg) (seg : BitVec 4) (size : BitVec 3) (imm : W32)
  /-- STS (R119). -/
  | sts (g a : GReg) (seg : BitVec 4) (size : BitVec 3) (imm : W32)
  /-- FMA (R114). -/
  | fma (p : Bool) (rnd : BitVec 3) (d a b c : GReg)
  /-- FMS (R114). -/
  | fms (p : Bool) (rnd : BitVec 3) (d a b c : GReg)
  /-- FNMA (R114). -/
  | fnma (p : Bool) (rnd : BitVec 3) (d a b c : GReg)
  /-- FNMS (R114). -/
  | fnms (p : Bool) (rnd : BitVec 3) (d a b c : GReg)
  /-- Q_PUSH (R160). -/
  | qPush (d a : GReg) (f : PushFields)
  /-- Q_PUSH_EOS (R160). -/
  | qPushEos (d a : GReg) (f : PushFields)
  /-- Q_PUSH_NOP (R160). -/
  | qPushNop (d a : GReg) (f : PushFields)
  /-- Q_SPLIT (R161). -/
  | qSplit (d a : GReg) (f : PushFields)
  /-- Q_WIN (R165). -/
  | qWin (n : W32)
  /-- Q_WIN_REG (R165). -/
  | qWinReg (a : GReg)
  /-- SHP_REQ (R142). -/
  | shpReq (d a : GReg) (sh : BitVec 3) (pol td : BitVec 2) (fmt : BitVec 5)
  /-- SHP_REQ_V (R142). -/
  | shpReqV (d a : GReg) (sh : BitVec 3) (pol td : BitVec 2) (fmt : BitVec 5)
  /-- SHP_SET_COPY (R150). -/
  | shpSetCopy (dst src : BitVec 3)
  /-- SHP_SET_CLR (R150). -/
  | shpSetClr (dst : BitVec 3)
  /-- SHP_SET_LD (R150). -/
  | shpSetLd (dst : BitVec 3) (a : GReg)
  /-- SHP_SET_TAIL (R150). -/
  | shpSetTail (dst : BitVec 3) (imm : W32)
  /-- CP_COPY (R290). -/
  | cpCopy (d a : GReg) (ch ord : BitVec 2) (seg : BitVec 4) (imm : W32)
  /-- CP_GATH (R290). -/
  | cpGath (d a : GReg) (ch ord : BitVec 2) (seg : BitVec 4) (imm : W32)
  /-- CP_SCAT (R290). -/
  | cpScat (d a : GReg) (ch ord : BitVec 2) (seg : BitVec 4) (imm : W32)
  /-- CP_FILL (R290). -/
  | cpFill (d a : GReg) (ch ord : BitVec 2) (seg : BitVec 4) (imm : W32)
  /-- CP_SCALE (R291). -/
  | cpScale (d a : GReg) (ch ord : BitVec 2) (seg : BitVec 4) (imm : W32)
  /-- CP_COLL (R293). -/
  | cpColl (d a : GReg) (ch ord : BitVec 2) (seg : BitVec 4) (imm : W32)
  /-- CP_DISP (R295). -/
  | cpDisp (d a : GReg) (ch ord : BitVec 2) (seg : BitVec 4) (imm : W32)
  /-- CP_REPLAY (R298). -/
  | cpReplay (d a : GReg)
  /-- CP_REPLAY_DISCARD (R298). -/
  | cpReplayDiscard (d a : GReg)
  /-- CP_STAT (R299). -/
  | cpStat (d a : GReg) (ch : BitVec 2)
  /-- NEST_LAUNCH (R378). -/
  | nestLaunch (d a : GReg) (flag : Bool) (queue : BitVec 6) (seg : BitVec 4) (imm : W32)
  /-- FORK (R387). -/
  | fork (d a : GReg) (flag : Bool) (queue : BitVec 6) (seg : BitVec 4) (imm : W32)
  /-- FMT_SET (R272). -/
  | fmtSet (a : GReg) (n : BitVec 4)
  /-- RG_INIT (R237). -/
  | rgInit (a : GReg) (ring : BitVec 4) (space : BitVec 2) (seg : BitVec 4) (base : W32)
  /-- WP_INIT_ALLOC (R335). -/
  | wpInitAlloc (d a : GReg) (life : BitVec 4) (aexp : W16) (die : BitVec 2) (here : Bool)
  /-- WP_INIT_RESET (R335). -/
  | wpInitReset (d a : GReg) (aexp : W16)
  /-- WP_INIT_FREE (R335). -/
  | wpInitFree (d : GReg)
  /-- SEG_BIND_LD (R357). -/
  | segBindLd (n : BitVec 4) (a : GReg)
  /-- SEG_BIND_NARROW (R357). -/
  | segBindNarrow (n src : BitVec 4) (a : GReg) (keep : BitVec 3)
  /-- PG_MAP (R365). -/
  | pgMap (d a : GReg) (dmask : BitVec 4) (large : Bool)
  /-- CALLX (R126). -/
  | callx (d : GReg) (idx : W32)
  /-- LNK_SET (R420). -/
  | lnkSet (a : GReg) (idx : W32)
  /-- FENCE_MK (R349). -/
  | fenceMk (cq ce mx done : Bool) (scope : BitVec 3)
  /-- L_LD (R229). -/
  | lLd (w : SW)
  /-- L_LDG (R230). -/
  | lLdg (w : SW)
  /-- L_GATH (R229). -/
  | lGath (w : SW)
  /-- L_ICW (R233). -/
  | lIcw (w : SW)
  /-- L_RG_WFILL (R243). -/
  | lRgWfill (w : SW)
  /-- L_RG_RELEASE (R243). -/
  | lRgRelease (w : SW)
  /-- L_RG_STAT (R243). -/
  | lRgStat (w : SW)
  /-- S_ST (R229). -/
  | sSt (w : SW)
  /-- S_STG (R230). -/
  | sStg (w : SW)
  /-- S_SCAT (R229). -/
  | sScat (w : SW)
  /-- S_ICW (R233). -/
  | sIcw (w : SW)
  /-- S_RG_CLAIM (R243). -/
  | sRgClaim (w : SW)
  /-- S_RG_COMMIT (R243). -/
  | sRgCommit (w : SW)
  /-- S_RG_RELEASE (R243). -/
  | sRgRelease (w : SW)
  /-- S_RG_EOS (R243). -/
  | sRgEos (w : SW)
  /-- S_RG_ABORT (R243). -/
  | sRgAbort (w : SW)
  /-- S_RG_STAT (R243). -/
  | sRgStat (w : SW)
  /-- VADD (R196). -/
  | vadd (w : SW)
  /-- VSUB (R196). -/
  | vsub (w : SW)
  /-- VMUL (R196). -/
  | vmul (w : SW)
  /-- VMULH (R196). -/
  | vmulh (w : SW)
  /-- VMAD (R196). -/
  | vmad (w : SW)
  /-- VAND (R196). -/
  | vand (w : SW)
  /-- VOR (R196). -/
  | vor (w : SW)
  /-- VXOR (R196). -/
  | vxor (w : SW)
  /-- VSHL (R196). -/
  | vshl (w : SW)
  /-- VSHR (R196). -/
  | vshr (w : SW)
  /-- VSHA (R196). -/
  | vsha (w : SW)
  /-- VMIN (R196). -/
  | vmin (w : SW)
  /-- VMAX (R196). -/
  | vmax (w : SW)
  /-- VSEL (R207). -/
  | vsel (w : SW)
  /-- VMOV (R198). -/
  | vmov (w : SW)
  /-- VMOV_I (R198). -/
  | vmovI (w : SW)
  /-- VMOV_H (R198). -/
  | vmovH (w : SW)
  /-- VMOV_L (R198). -/
  | vmovL (w : SW)
  /-- VICMP (R197). -/
  | vicmp (w : SW)
  /-- VFADD (R199). -/
  | vfadd (w : SW)
  /-- VFSUB (R199). -/
  | vfsub (w : SW)
  /-- VFMUL (R199). -/
  | vfmul (w : SW)
  /-- VFMA (R199). -/
  | vfma (w : SW)
  /-- VFMIN (R200). -/
  | vfmin (w : SW)
  /-- VFMAX (R200). -/
  | vfmax (w : SW)
  /-- VFRCP (R201). -/
  | vfrcp (w : SW)
  /-- VFRSQ (R201). -/
  | vfrsq (w : SW)
  /-- VFEXP2 (R201). -/
  | vfexp2 (w : SW)
  /-- VFLOG2 (R201). -/
  | vflog2 (w : SW)
  /-- VFCMP (R202). -/
  | vfcmp (w : SW)
  /-- VCVT (R205). -/
  | vcvt (w : SW)
  /-- VCVT_LONG (R204). -/
  | vcvtLong (w : SW)
  /-- VPACK (R206). -/
  | vpack (w : SW)
  /-- VUNPK (R206). -/
  | vunpk (w : SW)
  /-- VSHUF (R209). -/
  | vshuf (w : SW)
  /-- VSHUF_XOR (R209). -/
  | vshufXor (w : SW)
  /-- VSHUF_ROT (R209). -/
  | vshufRot (w : SW)
  /-- VBCAST (R208). -/
  | vbcast (w : SW)
  /-- VBCAST_Y (R208). -/
  | vbcastY (w : SW)
  /-- VRED (R211). -/
  | vred (w : SW)
  /-- VSCAN (R212). -/
  | vscan (w : SW)
  /-- VBALLOT (R213). -/
  | vballot (w : SW)
  /-- VKEY (R214). -/
  | vkey (w : SW)
  /-- MOP (R215). -/
  | mop (w : SW)
  /-- C_PSEND (R167). -/
  | cPsend (w : SW)
  /-- MX_GANG (R251). -/
  | mxGang (w : SW)
  /-- MX_LDB (R266). -/
  | mxLdb (w : SW)
  /-- MX_MMA (R267). -/
  | mxMma (w : SW)
  /-- MX_MMAS (R268). -/
  | mxMmas (w : SW)
  /-- MX_GMMA (R269). -/
  | mxGmma (w : SW)
  /-- MX_ZERO (R270). -/
  | mxZero (w : SW)
  /-- MX_LDACC (R271). -/
  | mxLdacc (w : SW)
  /-- MX_STACC (R271). -/
  | mxStacc (w : SW)
  /-- MX_RSTEP (R273). -/
  | mxRstep (w : SW)
  /-- MX_RSAVE (R275). -/
  | mxRsave (w : SW)
  /-- MX_RLOAD (R275). -/
  | mxRload (w : SW)
  /-- X_NOP (R174). -/
  | xNop (w : SW)
  /-- X_SYNC (R174). -/
  | xSync (w : SW)
  /-- X_END (R155). -/
  | xEnd (w : SW)
  /-- X_WPARR (R341). -/
  | xWparr (w : SW)
  /-- X_WPWAIT (R341). -/
  | xWpwait (w : SW)
  /-- UNASSIGNED_HELM_WORD (R44). -/
  | unassignedHelmWord
  /-- UNASSIGNED_STRAND_WORD (R54). -/
  | unassignedStrandWord (beyond : Bool)
  /-- CQ_ENTRY_START (R155). -/
  | cqEntryStart (team grp : Nat) (eng : Eng)
  /-- CQ_ENTRY_RETIRE (R152). -/
  | cqEntryRetire (team : Nat)
  /-- EOS_POST (R160). -/
  | eosPost (team grp : Nat)
  /-- MARK_POST (R164). -/
  | markPost (team grp : Nat)
  /-- SPLIT_CLOSE (R163). -/
  | splitClose (team grp : Nat)
  /-- GROUP_DEADLOCK (R175). -/
  | groupDeadlock (team grp : Nat)
  /-- ENGINE_HALT (R179). -/
  | engineHalt (team grp : Nat) (eng : Eng)
  /-- VECTOR_ENTRY (R395). -/
  | vectorEntry (team : Nat)
  /-- COPY_COMMAND_START (R277). -/
  | copyCommandStart (bay ch : Nat)
  /-- COPY_SECTOR_COMPLETE (R285). -/
  | copySectorComplete (bay ch sector : Nat)
  /-- EXPERT_COUNT_HALVING (R296). -/
  | expertCountHalving (die : Nat)
  /-- COPY_COMMAND_END (R287). -/
  | copyCommandEnd (bay ch : Nat)
  /-- COLL_PHASE_WAIT_END (R293). -/
  | collPhaseWaitEnd (bay ch : Nat)
  /-- GANG_RENDEZVOUS (R252). -/
  | gangRendezvous (team grp : Nat)
  /-- MATRIX_OP_START (R249). -/
  | matrixOpStart (bay : Nat)
  /-- MATRIX_OP_COMPLETE (R257). -/
  | matrixOpComplete (bay : Nat)
  /-- WAYPOINT_ARRIVAL (R331). -/
  | waypointArrival (n : Nat)
  /-- WAITER_RETEST (R332). -/
  | waiterRetest (die : Nat)
  /-- WRITE_TOKEN_TRANSFER (R322). -/
  | writeTokenTransfer (block : Nat) (holder : TokenHolder)
  /-- FENCE_SC_GRANT (R348). -/
  | fenceScGrant (team : Nat)
  /-- POOL_FILL (R366). -/
  | poolFill (n : Nat)
  /-- TLB_PREFETCH (R361). -/
  | tlbPrefetch (die dctx va : Nat)
  /-- NEST_DISPATCH (R380). -/
  | nestDispatch (queue : Nat)
  /-- TEAM_PLACEMENT (R381). -/
  | teamPlacement
  /-- TEAM_DESCHEDULE (R383). -/
  | teamDeschedule (team : Nat)
  /-- TEAM_RESUME (R149). -/
  | teamResume (team : Nat)
  /-- PREEMPTION_REQUEST (R386). -/
  | preemptionRequest (team : Nat)
  /-- NODE_SWAP_OUT (R385). -/
  | nodeSwapOut (team : Nat)
  /-- PREEMPTION_DEADLINE (R386). -/
  | preemptionDeadline (team : Nat)
  /-- NEST_COMPLETION (R374). -/
  | nestCompletion (nid : Nat)
  /-- BAY_RETIREMENT (R19). -/
  | bayRetirement (bay : Nat)
  /-- FAULT_RECORD_POST (R429). -/
  | faultRecordPost
  /-- STATUS (R428). -/
  | mboxStatus
  /-- RETEST (R435), with what the tests of steps 3 to 6 find. -/
  | mboxRetest (r : BringUp)
  /-- ROUTE_SET (R431). -/
  | mboxRouteSet
  /-- ROUTE_GET (R428). -/
  | mboxRouteGet
  /-- TEAM_END (R428). -/
  | mboxTeamEnd
  /-- RELDB_WRITE (R427). -/
  | reldbWrite (dctx : Nat) (tid : W64)
  /-- POOLPUSH_WRITE (R427). -/
  | poolpushWrite (die : Nat) (pa : W64)
  /-- FQCONS_WRITE (R429). -/
  | fqconsWrite (v : W64)
  /-- LQPRI_WRITE (R427). -/
  | lqpriWrite (queue : Nat) (v : W64)
  /-- DCTBASE_WRITE (R427). -/
  | dctbaseWrite (v : W64)
  /-- SECFG_WRITE (R328). -/
  | secfgWrite (firmware : Bool) (die : Nat) (v : W64)
  /-- REGISTER_WRITE (R427). -/
  | registerWrite (host : Bool) (off : Nat) (v : W64)
  /-- MODULE_RESET (R433). -/
  | moduleReset (r : BringUp)
  /-- HOST_CXL_MEM_ACCESS (R325): a host access to device HBM of as many bytes as `data` has; with `sync` a release write or an
  acquiring read at system scope. -/
  | hostCxlMemAccess (write sync : Bool) (pa : Nat) (data : List Byte)
  /-- CXL_CACHE_SNOOP (R325): the snoop that a host access to its own memory makes, with that access. -/
  | cxlCacheSnoop (write sync : Bool) (pa : Nat) (data : List Byte)
  /-- PEER_REQUEST (R431). -/
  | peerRequest (node : Nat) (write : Bool) (pa : Nat) (data : List Byte)
  /-- RHUMB_FLIT_RECEIVE (R430). -/
  | rhumbFlitReceive (link : Nat) (flit : List Byte)
  /-- LINK_DOWN (R430). -/
  | linkDown (link : Nat)
  /-- LANE_SPARE_SWITCH (R432). -/
  | laneSpareSwitch (link lane : Nat)
  /-- LINK_RETRAIN_COMPLETE (R432). -/
  | linkRetrainComplete (link : Nat)
  /-- PEER_RESPONSE_TIMEOUT (R431). -/
  | peerResponseTimeout (node : Nat)
  /-- MONITOR_REPORT (R436). -/
  | monitorReport (e : HealthEntry)
  /-- THRESHOLD_CROSSING (R436). -/
  | thresholdCrossing (e : HealthEntry) (unit : RepairUnit)
  /-- DIE_DEGRADE_OUT (R438). -/
  | dieDegradeOut (die : Nat)
  /-- DIE_EDGE_FAILURE (R10). -/
  | dieEdgeFailure (edge : Nat)
  /-- THERMAL_CLOCK_STEP (R439). -/
  | thermalClockStep (bay temp : Nat)
  /-- THERMAL_STOP (R439). -/
  | thermalStop
  /-- ACCESS_PERFORMED (R232). -/
  | accessPerformed (team grp : Nat) (path : BitVec 2) (lanes : W64)
  /-- CONTEXT_DESTRUCTION (R333). -/
  | contextDestruction (dctx : Nat)
  /-- DOE_SPDM_REQUEST (R426). -/
  | doeSpdmRequest (msg : List Byte)
  /-- JUNCTION_COOLING (R439). -/
  | junctionCooling (bay temp : Nat)
deriving DecidableEq, Repr

/-- What moves next: the helm of a context, an engine of a group, or a step that no word encodes. -/
inductive Move where
  | helm (bay ctx : Nat)
  | engine (team grp : Nat) (eng : Eng)
  | event (i : Instr)
deriving DecidableEq, Repr, Inhabited

end Sys2Proof
end

