-- ==== Sys2Proof/WellFormed.lean ====
section
/-! DEFINITION. Well-formed instructions: the checks of 02_encoding.md (R29 to R54) and of the governing chapters that depend
on the word alone. Checks that need the machine's state (unmapped blocks, the group width, tiles held) are made by the meanings. -/

namespace Sys2Proof

/-- Why a word is not an instruction: R44 for helm words, R49 to R54 for strand words. -/
inductive DecodeError where
  /-- A major opcode, or a strand opcode, that is not assigned. -/
  | opcode
  /-- An fn, sub, fn8, selector or operation code that is not assigned. -/
  | function
  /-- A field that must be 0 is not. -/
  | reserved
  /-- A size code that the form does not accept (R32, R224). -/
  | size
  /-- A rounding code of 5 to 7 (R33). -/
  | rounding
  /-- An ordering code that the word does not accept (R34, R41). -/
  | ordering
  /-- A scope code of 6 or 7, or a scope where it must be 0 (R34). -/
  | scope
  /-- A register operand that the word does not accept. -/
  | operand
  /-- An unassigned system register number (R101). -/
  | systemRegister
  /-- A v register that the field may not name (R49, R170, R193). -/
  | laneRegister
  /-- Token bits that the tag does not accept (R172), or that an X word carries (R53). -/
  | tokens
  /-- A space code of 4 to 7 or a uniform-base code of 9 to 15 (R48). -/
  | space
  /-- A short word whose opcode is long only, or a long word whose opcode is short only (R52). -/
  | form
  /-- The bytes end inside the word. -/
  | truncated
deriving DecidableEq, Repr

/-- `none` where the condition holds, the error where it does not. -/
def need (ok : Bool) (e : DecodeError) : Option DecodeError := if ok then none else some e

def roundingLegal (rnd : BitVec 3) : Bool := decide (rnd.toNat ≤ 4)

def scopeLegal (scope : BitVec 3) : Bool := decide (scope.toNat ≤ 5)

/-- The numbers that R101 assigns. -/
def sysRegAssigned (num : BitVec 8) : Bool :=
  [0x00, 0x01, 0x02, 0x03, 0x04, 0x08, 0x09, 0x0A, 0x0C, 0x10, 0x11, 0x12, 0x13, 0x14, 0x18].contains num.toNat

/-- The checks that `q.push` and `q.split` share (R159). -/
def pushIllFormed (f : PushFields) : Option DecodeError :=
  ((need (decide (f.gsel.toNat ≤ 0x1F) || f.gsel == 0xFF) .operand).or
    (need (scopeLegal f.rscope) .scope)).or (need (f.rel || f.rscope == 0) .reserved)

/-! ### Strand words -/

/-- Repetitions of a word (R48). -/
def SW.count (w : SW) : Nat := w.rep.toNat + 1

/-- The register advance that a two-bit code names: 0, 1, 2 or 4 (R48). -/
def advanceOf (code : Nat) : Nat := if code = 3 then 4 else code

def SW.sat (w : SW) : Bool := w.step.getLsbD 6
def SW.advD (w : SW) : Nat := advanceOf (bitsOf w.step.toNat 5 4)
def SW.advA (w : SW) : Nat := advanceOf (bitsOf w.step.toNat 3 2)
def SW.advB (w : SW) : Nat := advanceOf (bitsOf w.step.toNat 1 0)
/-- Token bits (R48). -/
def SW.pushN (w : SW) : Bool := w.tok.getLsbD 0
def SW.waitP (w : SW) : Bool := w.tok.getLsbD 1
def SW.pushP (w : SW) : Bool := w.tok.getLsbD 2
def SW.waitN (w : SW) : Bool := w.tok.getLsbD 3
/-- imm16 of a word: 0 in a short word (R194, R224). -/
def SW.imm (w : SW) : W16 := match w.ext with | some x => x.imm | none => 0
def SW.ubase (w : SW) : Nat := match w.ext with | some x => x.ubase.toNat | none => 0
def SW.vc (w : SW) : Nat := match w.ext with | some x => x.vc.toNat | none => 0
def SW.segNo (w : SW) : Nat := match w.ext with | some x => x.seg.toNat | none => 0
def SW.fmtNo (w : SW) : Nat := match w.ext with | some x => x.fmt.toNat | none => 0
def SW.shNo (w : SW) : Nat := match w.ext with | some x => x.sh.toNat | none => 0
def SW.accNo (w : SW) : Nat := match w.ext with | some x => x.acc.toNat | none => 0
/-- The lane modifier of R194. -/
def SW.bu (w : SW) : Bool := w.imm.getLsbD 15
def SW.useVc (w : SW) : Bool := w.imm.getLsbD 14
def SW.ms (w : SW) : Bool := w.imm.getLsbD 13
def SW.rnd (w : SW) : BitVec 3 := BitVec.ofNat 3 (bitsOf w.imm.toNat 10 8)
def SW.dbl (w : SW) : Bool := w.imm.getLsbD 7
def SW.unsigned (w : SW) : Bool := w.imm.getLsbD 6
def SW.k (w : SW) : Nat := bitsOf w.imm.toNat 5 0

/-- A register read by a C word at every repetition: v0 to v111 with its advance, or v112 and v114 to v116 without one
(R49, R170, R193). `span` registers are read together. -/
def srcReg (r adv n span : Nat) : Option DecodeError :=
  need (if r < 112 then decide (r + (n - 1) * adv + (span - 1) < 112)
        else (r == 112 || r == 114 || r == 115 || r == 116) && adv == 0 && span == 1) .laneRegister

/-- A register written by a C word: v0 to v111 with its advance, or v113 without one (R49, R170, R193). -/
def dstReg (r adv n span : Nat) : Option DecodeError :=
  need (if r < 112 then decide (r + (n - 1) * adv + (span - 1) < 112) else r == 113 && adv == 0 && span == 1) .laneRegister

/-- The extension fields that no lane word uses, and ubase2 and vc where the word does not use them (R194). -/
def laneExtIllFormed (bu third : Bool) (w : SW) : Option DecodeError :=
  match w.ext with
  | none => none
  | some x => need (x.seg == 0 && x.fmt == 0 && x.sh == 0 && x.acc == 0 && (third || x.vc == 0) &&
      (if bu then decide (x.ubase.toNat ≤ 7) else x.ubase == 0)) .reserved

/-- The fields that a lane operation with two sources accepts (R195). -/
structure LaneShape where
  sat : Bool := false
  bu : Bool := false
  third : Bool := false
  sel : Bool := false
  rnd : Bool := false
  dbl : Bool := false
  u : Bool := false
  /-- A mask-writing word (M of R195). -/
  mask : Bool := false
  /-- Number of condition codes of a compare. -/
  conds : Nat := 0
  /-- One source only: [47:41] is no register. -/
  unary : Bool := false

/-- The checks of R193 to R195 on a word with the lane modifier. -/
def laneIllFormed (h : LaneShape) (w : SW) : Option DecodeError :=
  let n := w.count
  (((((((need (h.sat || !w.sat) .reserved).or
    (need ((h.bu || !w.bu) && (h.third || !w.useVc) && (h.sel || !w.ms) && bitsOf w.imm.toNat 12 11 == 0 &&
      (h.dbl || !w.dbl) && (h.u || !w.unsigned)) .reserved)).or
    (need (if h.rnd then roundingLegal w.rnd else w.rnd == 0) .rounding)).or
    (need (if w.ms then !w.useVc && decide (w.k ≤ 7) else w.k == 0) .reserved)).or
    (laneExtIllFormed w.bu w.useVc w)).or
    (if w.bu then (need (w.b == 0 && w.advB == 0) .reserved).or (need (!(w.dbl && w.ubase == 7)) .operand)
     else if h.unary then need (w.advB == 0) .reserved
     else srcReg w.b.toNat w.advB n 1)).or
    ((srcReg w.va.toNat w.advA n 1).or
      (if w.useVc then srcReg w.vc w.advD n 1 else none))).or
    (if h.mask then need (n == 1 && w.advD == 0 && w.advA == 0 && w.advB == 0 && bitsOf w.vd.toNat 2 0 != 0 &&
        decide (bitsOf w.vd.toNat 6 3 < h.conds)) .operand
     else (dstReg w.vd.toNat w.advD n 1).or
       -- without VC, a word with a third operand reads vd (R193, R207), and v113 is no source (R49)
       (if h.third && !w.useVc && !w.ms then need (w.vd != 113) .laneRegister else none))

/-- `vmov` and its constant forms (R198); `sel` is the selector in [47:41]. -/
def vmovIllFormed (sel : Nat) (w : SW) : Option DecodeError :=
  (((need (w.b.toNat == sel) .function).or (need (!w.sat && w.advB == 0) .reserved)).or
    (laneExtIllFormed false false w)).or
    ((need (sel != 0 || w.imm == 0) .reserved).or
    ((if sel == 1 || sel == 2 then need (w.va == 0 && w.advA == 0) .reserved else srcReg w.va.toNat w.advA w.count 1).or
      (dstReg w.vd.toNat w.advD w.count 1)))

def vcvtShortIllFormed (w : SW) : Option DecodeError :=
  ((need (w.ext.isNone && decide (w.b.toNat ≤ 11)) .function).or (need (w.advB == 0) .reserved)).or
    ((srcReg w.va.toNat w.advA w.count 1).or (dstReg w.vd.toNat w.advD w.count 1))

/-- The long `vcvt` (R205); its format codes are checked when the word runs (R66). -/
def vcvtLongIllFormed (w : SW) : Option DecodeError :=
  ((((need w.ext.isSome .form).or (need (w.b == 0 && w.advB == 0 && bitsOf w.imm.toNat 15 13 == 0) .reserved)).or
    (need (decide (bitsOf w.imm.toNat 12 10 ≤ 4)) .rounding)).or (laneExtIllFormed false false w)).or
    ((srcReg w.va.toNat w.advA w.count 1).or (dstReg w.vd.toNat w.advD w.count 1))

/-- `vpack` (pack true) and `vunpk` (R206). -/
def vpackIllFormed (pack : Bool) (w : SW) : Option DecodeError :=
  let span := match bitsOf w.b.toNat 1 0 with | 0 => 2 | 1 => 4 | _ => 8
  (((need (bitsOf w.b.toNat 1 0 != 3 && bitsOf w.b.toNat 6 3 == 0 && (!pack || !w.b.getLsbD 2)) .function).or
    (need (!w.sat && w.advB == 0 && w.imm == 0) .reserved)).or (laneExtIllFormed false false w)).or
    (if pack then (need (decide (w.va.toNat < 112)) .laneRegister).or ((srcReg w.va.toNat w.advA w.count span).or (dstReg w.vd.toNat w.advD w.count 1))
     else (srcReg w.va.toNat w.advA w.count 1).or ((need (decide (w.vd.toNat < 112)) .laneRegister).or (dstReg w.vd.toNat w.advD w.count span)))

/-- `vshuf` and its xor and rot forms (R209). -/
def vshufIllFormed (form : Nat) (w : SW) : Option DecodeError :=
  (((need (bitsOf w.imm.toNat 7 6 == form) .function).or
    (need (!w.sat && bitsOf w.imm.toNat 15 8 == 0 && (form != 0 || w.k == 0)) .reserved)).or (laneExtIllFormed false false w)).or
    (((if form == 0 then srcReg w.b.toNat w.advB w.count 1 else need (w.b == 0 && w.advB == 0) .reserved).or
      (srcReg w.va.toNat w.advA w.count 1)).or (dstReg w.vd.toNat w.advD w.count 1))

/-- `vbcast` of a lane and of a y register (R208). -/
def vbcastIllFormed (y : Bool) (w : SW) : Option DecodeError :=
  (((need (if y then decide (64 ≤ w.b.toNat) && decide (w.b.toNat ≤ 71) else decide (w.b.toNat ≤ 63)) .function).or
    (need (!w.sat && w.advB == 0 && w.imm == 0) .reserved)).or (laneExtIllFormed false false w)).or
    ((if y then need (w.va == 0 && w.advA == 0) .reserved else srcReg w.va.toNat w.advA w.count 1).or (dstReg w.vd.toNat w.advD w.count 1))

/-- `vred` and `vscan` (R210 to R212). -/
def vredIllFormed (scan : Bool) (w : SW) : Option DecodeError :=
  let op := bitsOf w.b.toNat 3 0
  ((((need (decide (op ≤ 10) && bitsOf w.b.toNat 6 5 == 0 && (scan || !w.b.getLsbD 4)) .function).or
    (need ((op == 1 || !w.sat) && w.advB == 0 && (w.imm &&& 0xF8FF#16) == 0) .reserved)).or
    (need (if op == 1 then roundingLegal w.rnd else w.rnd == 0) .rounding)).or (laneExtIllFormed false false w)).or
    ((srcReg w.va.toNat w.advA w.count 1).or
      (if scan then dstReg w.vd.toNat w.advD w.count 1 else need (decide (4 ≤ w.vd.toNat) && decide (w.vd.toNat ≤ 7) && w.advD == 0) .operand))

def vballotIllFormed (w : SW) : Option DecodeError :=
  (((need (w.count == 1 && w.step == 0 && bitsOf w.vd.toNat 2 0 != 0 && bitsOf w.vd.toNat 6 5 == 0 && !w.b.getLsbD 6) .operand).or
    (need (w.imm == 0) .reserved)).or (laneExtIllFormed false false w)).or (srcReg w.va.toNat 0 1 1)

/-- `vkey` (R214). -/
def vkeyIllFormed (w : SW) : Option DecodeError :=
  let n := bitsOf w.imm.toNat 4 0
  (((need (decide (n ≤ 16) && bitsOf w.imm.toNat 6 5 != 3) .function).or
    (need (!w.sat && bitsOf w.imm.toNat 15 8 == 0) .reserved)).or (laneExtIllFormed false false w)).or
    (((if n == 0 then need (w.b == 0 && w.advB == 0) .reserved else srcReg w.b.toNat w.advB w.count 1).or
      (srcReg w.va.toNat w.advA w.count 1)).or (dstReg w.vd.toNat w.advD w.count 1))

/-- `mop` (R215). -/
def mopIllFormed (w : SW) : Option DecodeError :=
  let op := bitsOf w.vd.toNat 6 3
  (((need (decide (op ≤ 7)) .function).or
    (need (w.count == 1 && w.step == 0 && bitsOf w.vd.toNat 2 0 != 0 && bitsOf w.va.toNat 6 3 == 0 && bitsOf w.b.toNat 6 3 == 0) .operand)).or
    (need (w.imm == 0 && (!(op == 0 || op == 1 || op == 7) || w.b == 0) && (op != 6 || w.va == 0)) .reserved)).or (laneExtIllFormed false false w)

/-- `c.psend` (R167). -/
def psendIllFormed (w : SW) : Option DecodeError :=
  ((need (w.rep == 0 && w.step == 0 && w.vd == 0 && w.b == 0 && w.imm == 0) .reserved).or (laneExtIllFormed false false w)).or (srcReg w.va.toNat 0 1 1)

/-- Token bits that an L word (store false) or an S word may carry (R172). -/
def dataTokens (store : Bool) (w : SW) : Option DecodeError :=
  need (if store then !w.pushN && !w.waitN else !w.waitP && !w.pushP) .tokens

/-- The six data words (R224 to R228). -/
def dataIllFormed (store gath : Bool) (w : SW) : Option DecodeError :=
  let n := w.count
  let space := bitsOf w.b.toNat 2 0
  (((((dataTokens store w).or (need (decide (space ≤ 3) && decide (bitsOf w.b.toNat 6 3 ≤ 8)) .space)).or
    (need (!gath || w.step == 0) .reserved)).or
    (match w.ext with
     | none => none
     | some x => (need (if store then x.fmt == 0 || x.fmt == 1 || x.fmt == 3 else decide (x.fmt.toNat ≤ 4)) .size).or
        (need (x.acc == 0 && x.sh == 0 && x.vc == 0 && x.ubase == 0 && (space == 3 || x.seg == 0)) .reserved))).or
    -- the address register: advanced by the repetition in the gath form
    (need (if w.va.toNat < 112 then decide (w.va.toNat + (if gath then n - 1 else 0) < 112)
           else if w.va.toNat == 112 then store
           else decide (114 ≤ w.va.toNat) && decide (w.va.toNat ≤ 116) && (!gath || n == 1)) .laneRegister)).or
    (need (if w.vd.toNat < 112 then decide (w.vd.toNat + (n - 1) < 112)
           else if store then w.vd.toNat == 112 || (decide (114 ≤ w.vd.toNat) && decide (w.vd.toNat ≤ 116) && n == 1)
           else w.vd.toNat == 113) .laneRegister)

/-- `l.icw` and `s.icw` (R233). -/
def icwIllFormed (store : Bool) (w : SW) : Option DecodeError :=
  (((need w.ext.isNone .form).or (dataTokens store w)).or (need (decide (bitsOf w.b.toNat 2 0 ≤ 3) && decide (bitsOf w.b.toNat 6 3 ≤ 8)) .space)).or
    (need (w.rep == 0 && w.step == 0 && w.msk == 0 && w.vd == 0 && w.va == 0) .reserved)

/-- The strand ring words (R243): which of the scope, N and IF the word uses. -/
def ringIllFormed (store useScope useN useIf : Bool) (w : SW) : Option DecodeError :=
  let scope := bitsOf w.va.toNat 6 4
  let ifBit := w.vd.getLsbD 3
  (((need w.ext.isNone .form).or (dataTokens store w)).or (need (if useScope then decide (scope ≤ 5) else scope == 0) .scope)).or
    (need (w.rep == 0 && w.step == 0 && w.msk == 0 && w.b == 0 && bitsOf w.vd.toNat 6 4 == 0 && (useIf || !ifBit) &&
      (useN || ifBit || bitsOf w.vd.toNat 2 0 == 0)) .reserved)

/-- The kinds of matrix word by the fields they use (R254). -/
inductive MxShape where
  | ldb | mma | gmma | zero | copy | rstep | rsave | rload
deriving DecidableEq, Repr

/-- The head of a matrix word (R254). -/
def mxHeadIllFormed (w : SW) : Option DecodeError :=
  need (w.rep == 0 && w.step == 0 && w.msk == 0 && w.vd == 0 && w.b == 0) .reserved

/-- `mx.gang` (R251). -/
def mxGangIllFormed (w : SW) : Option DecodeError :=
  match w.ext with
  | none => some .form
  | some x => ((mxHeadIllFormed w).or (need (w.va == 0 && x.imm == 0 && x.vc == 0 && x.seg == 0 && x.fmt == 0 && x.sh == 0 && x.acc == 0) .reserved)).or
      (need (decide (x.ubase.toNat ≤ 7) && x.ubase.toNat % 2 == 0) .operand)

/-- The other matrix words (R254). -/
def mxIllFormed (h : MxShape) (w : SW) : Option DecodeError :=
  match w.ext with
  | none => some .form
  | some x =>
    let imm := x.imm.toNat
    let product := h == .mma || h == .gmma || h == .rstep
    let pb := bitOf imm 1
    (((mxHeadIllFormed w).or (need (x.seg == 0 && x.vc == 0 && decide (x.ubase.toNat ≤ 7)) .reserved)).or
      (need (decide (w.va.toNat ≤ 116) && w.va.toNat != 113) .laneRegister)).or
      (need (match h with
        | .ldb => x.acc == 0 && x.ubase == 0 && imm == 0
        | .zero => w.va == 0 && x.ubase == 0 && imm / 2 == 0
        | .copy => w.va == 0 && !pb
        | .rsave | .rload => w.va == 0 && bitsOf imm 15 10 == 0 && !pb && (bitOf imm 9 || bitsOf imm 8 6 == 0) &&
            (bitOf imm 5 || bitsOf imm 4 2 == 0) && (h == .rsave || bitsOf imm 9 6 == 0)
        | .mma | .gmma | .rstep => product && bitsOf imm 15 12 == 0 && (h == .gmma || bitsOf imm 11 6 == 0) &&
            (bitOf imm 5 || bitsOf imm 4 2 == 0) && (!pb || w.va == 0) && (h != .rstep || (w.va == 0 && !pb))) .reserved)

/-- What every X word must leave 0 (R53); only `x.nop` may repeat. A long X word has a zero extension. -/
def xIllFormed (repeats : Bool) (w : SW) : Option DecodeError :=
  ((need (w.tok == 0) .tokens).or (need (w.msk == 0 && w.step == 0 && (repeats || w.rep == 0)) .reserved)).or
    (match w.ext with
     | none => none
     | some x => need (x.imm == 0 && x.ubase == 0 && x.vc == 0 && x.seg == 0 && x.fmt == 0 && x.sh == 0 && x.acc == 0) .reserved)

/-- `x.wparr` (arrive true) and `x.wpwait` (R340). -/
def xWaypointIllFormed (arrive : Bool) (w : SW) : Option DecodeError :=
  let ord := bitsOf w.b.toNat 3 2
  (((xIllFormed false w).or (need (ord == 0 || (if arrive then ord == 2 else ord == 1)) .ordering)).or
    (need (decide (bitsOf w.b.toNat 6 4 ≤ 5)) .scope)).or
    (need (bitsOf w.b.toNat 1 0 != 3 && bitsOf w.va.toNat 6 3 == 0 && bitsOf w.vd.toNat 6 4 == 0 && (arrive || !w.vd.getLsbD 3)) .reserved)

/-- The first check that a term of `Instr` fails, if any: R44 and R54 in the encodings' own fields. -/
def Instr.illFormed : Instr → Option DecodeError
  | .add _ _ _ => none
  | .sub _ _ _ => none
  | .and_ _ _ _ => none
  | .or_ _ _ _ => none
  | .xor _ _ _ => none
  | .shl _ _ _ => none
  | .shr _ _ _ => none
  | .sha _ _ _ => none
  | .mul _ _ _ => none
  | .mulh _ _ _ => none
  | .mulhu _ _ _ => none
  | .div _ _ _ => none
  | .divu _ _ _ => none
  | .rem _ _ _ => none
  | .remu _ _ _ => none
  | .min _ _ _ => none
  | .minu _ _ _ => none
  | .max _ _ _ => none
  | .maxu _ _ _ => none
  | .slt _ _ _ => none
  | .sltu _ _ _ => none
  | .clz _ _ => none
  | .popc _ _ => none
  | .bext _ _ _ => none
  | .bins _ _ _ => none
  | .addi _ _ _ => none
  | .andi _ _ _ => none
  | .ori _ _ _ => none
  | .xori _ _ _ => none
  | .slti _ _ _ => none
  | .shli _ _ _ => none
  | .shri _ _ _ => none
  | .shai _ _ _ => none
  | .fadd _ _ _ _ => none
  | .fsub _ _ _ _ => none
  | .fmul _ _ _ _ => none
  | .fdiv _ _ _ _ => none
  | .fsqrt _ _ _ => none
  | .fmin _ _ _ _ => none
  | .fmax _ _ _ _ => none
  | .fclass _ _ _ => none
  | .fcmpEq _ _ _ _ => none
  | .fcmpLt _ _ _ _ => none
  | .fcmpLe _ _ _ _ => none
  | .fcmpUn _ _ _ _ => none
  | .fcvtLP _ rnd _ _ => need (roundingLegal rnd) .rounding
  | .fcvtNP _ rnd _ _ => need (roundingLegal rnd) .rounding
  | .fcvtPL _ rnd _ _ => need (roundingLegal rnd) .rounding
  | .fcvtPN _ rnd _ _ => need (roundingLegal rnd) .rounding
  | .fcvtSD rnd _ _ => need (roundingLegal rnd) .rounding
  | .fcvtDS rnd _ _ => need (roundingLegal rnd) .rounding
  | .bEq _ _ _ => none
  | .bNe _ _ _ => none
  | .bLt _ _ _ => none
  | .bGe _ _ _ => none
  | .bLtu _ _ _ => none
  | .bGeu _ _ _ => none
  | .j _ => none
  | .call d _ => need (d != 0) .operand
  | .callr _ _ => none
  | .ret _ => none
  | .hloop _ off => need (decide (2 ≤ off.toInt)) .operand
  | .ld _ _ size _ => need (size != 7) .size
  | .st _ _ size _ => need (decide (size.toNat ≤ 3)) .size
  | .ldAcq _ _ size scope => (need (size != 7) .size).or (need (scopeLegal scope) .scope)
  | .stRel _ _ size scope => (need (decide (size.toNat ≤ 3)) .size).or (need (scopeLegal scope) .scope)
  | .qPopr d => need (decide (1 ≤ d.toNat) && decide (d.toNat ≤ 62)) .operand
  | .qPeek d => need (decide (1 ≤ d.toNat) && decide (d.toNat ≤ 62)) .operand
  | .qOccCq _ => none
  | .qOccRq _ => none
  | .qJoin _ => none
  | .qMark _ _ => none
  | .shpGet _ _ item => need (decide (item.toNat ≤ 6)) .function
  | .shpTail d _ _ => need (decide (1 ≤ d.toNat) && decide (d.toNat ≤ 61)) .operand
  | .rgClaim _ _ scope => need (scopeLegal scope) .scope
  | .rgCommit _ _ scope => need (scopeLegal scope) .scope
  | .rgWfill _ _ scope => need (scopeLegal scope) .scope
  | .rgRelease _ _ scope => need (scopeLegal scope) .scope
  | .rgEos _ scope => need (scopeLegal scope) .scope
  | .rgAbort _ => none
  | .rgStat _ _ => none
  | .wpArrive _ _ ord scope => (need (ord == 0 || ord == 2) .ordering).or (need (scopeLegal scope) .scope)
  | .wpExpect _ _ => none
  | .wpWait _ _ ord scope => (need (ord == 0 || ord == 1) .ordering).or (need (scopeLegal scope) .scope)
  | .wpTest _ _ ord scope => (need (ord == 0 || ord == 1) .ordering).or (need (scopeLegal scope) .scope)
  | .wpStat d _ => need (d != 0 && d != 63) .operand
  | .atAdd _ _ _ _ scope => need (scopeLegal scope) .scope
  | .atAnd _ _ _ _ scope => need (scopeLegal scope) .scope
  | .atOr _ _ _ _ scope => need (scopeLegal scope) .scope
  | .atXor _ _ _ _ scope => need (scopeLegal scope) .scope
  | .atMin _ _ _ _ scope => need (scopeLegal scope) .scope
  | .atMax _ _ _ _ scope => need (scopeLegal scope) .scope
  | .atMinu _ _ _ _ scope => need (scopeLegal scope) .scope
  | .atMaxu _ _ _ _ scope => need (scopeLegal scope) .scope
  | .atXchg _ _ _ _ scope => need (scopeLegal scope) .scope
  | .atCas d _ _ _ scope => (need (scopeLegal scope) .scope).or (need (d != 0 && d != 63) .operand)
  | .atRed op natural _ _ _ _ scope => ((need (scopeLegal scope) .scope).or (need (decide (op.toNat ≤ 5)) .function)).or (need (!natural || op == 4 || op == 5) .reserved)
  | .fence ord scope => (need (ord != 0) .ordering).or (need (scopeLegal scope) .scope)
  | .fenceSc => none
  | .rbSurr _ mask => need (mask != 0) .operand
  | .rbClaim _ mask => need (mask != 0) .operand
  | .yield => none
  | .teamExit => none
  | .teamInfo _ item => need (decide (item.toNat ≤ 7)) .function
  | .join _ => none
  | .sysRd _ num => need (sysRegAssigned num) .systemRegister
  | .sysWr _ num => need (sysRegAssigned num) .systemRegister
  | .trap _ => none
  | .eret => none
  | .brk _ => none
  | .halt _ => none
  | .tlbInv _ => none
  | .tlbInvAll => none
  | .pgProbe _ _ => none
  | .li _ _ => none
  | .liHi _ _ => none
  | .lea _ _ _ _ => none
  | .lds _ _ _ size _ => need (size != 7) .size
  | .sts _ _ _ size _ => need (decide (size.toNat ≤ 3)) .size
  | .fma _ rnd _ _ _ _ => need (roundingLegal rnd) .rounding
  | .fms _ rnd _ _ _ _ => need (roundingLegal rnd) .rounding
  | .fnma _ rnd _ _ _ _ => need (roundingLegal rnd) .rounding
  | .fnms _ rnd _ _ _ _ => need (roundingLegal rnd) .rounding
  | .qPush d _ f => (pushIllFormed f).or (need (d != 62 && d != 63) .operand)
  | .qPushEos d _ f => (pushIllFormed f).or (need (d != 62 && d != 63) .operand)
  | .qPushNop d _ f => (pushIllFormed f).or (need (d != 62 && d != 63) .operand)
  | .qSplit d _ f => (pushIllFormed f).or (need (decide (1 ≤ d.toNat) && decide (d.toNat ≤ 61)) .operand)
  | .qWin n => need (decide (1 ≤ n.toNat) && decide (n.toNat ≤ 64)) .operand
  | .qWinReg _ => none
  | .shpReq _ _ _ pol td _ => need (pol != 3 && td != 3) .function
  | .shpReqV _ _ _ pol td _ => need (pol != 3 && td == 0) .function
  | .shpSetCopy _ _ => none
  | .shpSetClr _ => none
  | .shpSetLd _ a => need (a != 0 && a != 63) .operand
  | .shpSetTail _ _ => none
  | .cpCopy _ a _ _ seg imm => (need (a != 0 && decide (a.toNat ≤ 60)) .operand).or (need (seg != 0 || imm == 0) .reserved)
  | .cpGath _ a _ _ seg _ => (need (a != 0 && decide (a.toNat ≤ 60)) .operand).or (need (seg != 0) .operand)
  | .cpScat _ a _ _ seg _ => (need (a != 0 && decide (a.toNat ≤ 60)) .operand).or (need (seg != 0) .operand)
  | .cpFill _ a _ _ seg imm => (need (a != 0 && decide (a.toNat ≤ 60)) .operand).or (need (seg != 0 || imm == 0) .reserved)
  | .cpScale _ a _ _ seg _ => (need (a != 0 && decide (a.toNat ≤ 60)) .operand).or (need (seg != 0) .operand)
  | .cpColl _ a _ _ seg _ => (need (a != 0 && decide (a.toNat ≤ 60)) .operand).or (need (seg != 0) .operand)
  | .cpDisp _ a _ _ seg _ => (need (a != 0 && decide (a.toNat ≤ 60)) .operand).or (need (seg != 0) .operand)
  | .cpReplay _ _ => none
  | .cpReplayDiscard _ _ => none
  | .cpStat _ _ _ => none
  | .nestLaunch _ _ _ _ seg _ => need (seg != 0) .operand
  | .fork _ _ _ _ seg _ => need (seg != 0) .operand
  | .fmtSet _ _ => none
  | .rgInit _ _ space seg _ => need (seg == 0 || space == 3) .reserved
  | .wpInitAlloc _ _ life _ die here => (need (decide (life.toNat ≤ 2)) .function).or (need (!here || die == 0) .reserved)
  | .wpInitReset _ _ _ => none
  | .wpInitFree _ => none
  | .segBindLd n a => need (n != 0 && n != 1 && a != 0 && a != 63) .operand
  | .segBindNarrow n _ a _ => need (n != 0 && n != 1 && a != 0 && a != 63) .operand
  | .pgMap _ a dmask _ => need (dmask != 0 && a != 0 && a != 63) .operand
  | .callx _ _ => none
  | .lnkSet a _ => need (a != 0 && a != 63) .operand
  | .fenceMk cq ce mx done scope => (need (cq || ce || mx) .function).or (need (if done then scopeLegal scope else scope == 0) .scope)
  | .lLd w => dataIllFormed false false w
  | .lLdg w => dataIllFormed false false w
  | .lGath w => dataIllFormed false true w
  | .lIcw w => icwIllFormed false w
  | .lRgWfill w => ringIllFormed false true true false w
  | .lRgRelease w => ringIllFormed false true true false w
  | .lRgStat w => ringIllFormed false false true false w
  | .sSt w => dataIllFormed true false w
  | .sStg w => dataIllFormed true false w
  | .sScat w => dataIllFormed true true w
  | .sIcw w => icwIllFormed true w
  | .sRgClaim w => ringIllFormed true true true false w
  | .sRgCommit w => ringIllFormed true true true false w
  | .sRgRelease w => ringIllFormed true true true false w
  | .sRgEos w => ringIllFormed true true false true w
  | .sRgAbort w => ringIllFormed true false false false w
  | .sRgStat w => ringIllFormed true false true false w
  | .vadd w => laneIllFormed { sat := true, bu := true, u := true } w
  | .vsub w => laneIllFormed { sat := true, bu := true, u := true } w
  | .vmul w => laneIllFormed { sat := true, bu := true, u := true } w
  | .vmulh w => laneIllFormed { bu := true, u := true } w
  | .vmad w => laneIllFormed { sat := true, bu := true, third := true, u := true } w
  | .vand w => laneIllFormed { bu := true } w
  | .vor w => laneIllFormed { bu := true } w
  | .vxor w => laneIllFormed { bu := true } w
  | .vshl w => laneIllFormed { bu := true } w
  | .vshr w => laneIllFormed { bu := true } w
  | .vsha w => laneIllFormed { bu := true } w
  | .vmin w => laneIllFormed { bu := true, u := true } w
  | .vmax w => laneIllFormed { bu := true, u := true } w
  | .vsel w => laneIllFormed { bu := true, third := true, sel := true } w
  | .vmov w => vmovIllFormed 0 w
  | .vmovI w => vmovIllFormed 1 w
  | .vmovH w => vmovIllFormed 2 w
  | .vmovL w => vmovIllFormed 3 w
  | .vicmp w => laneIllFormed { bu := true, mask := true, conds := 10 } w
  | .vfadd w => laneIllFormed { sat := true, bu := true, rnd := true, dbl := true } w
  | .vfsub w => laneIllFormed { sat := true, bu := true, rnd := true, dbl := true } w
  | .vfmul w => laneIllFormed { sat := true, bu := true, rnd := true, dbl := true } w
  | .vfma w => laneIllFormed { sat := true, bu := true, third := true, rnd := true, dbl := true } w
  | .vfmin w => laneIllFormed { bu := true, dbl := true } w
  | .vfmax w => laneIllFormed { bu := true, dbl := true } w
  | .vfrcp w => (laneIllFormed { sat := true, rnd := true, unary := true } w).or (need (w.b == 0) .reserved)
  | .vfrsq w => (laneIllFormed { sat := true, rnd := true, unary := true } w).or (need (w.b == 0) .reserved)
  | .vfexp2 w => (laneIllFormed { sat := true, rnd := true, unary := true } w).or (need (w.b == 0) .reserved)
  | .vflog2 w => (laneIllFormed { sat := true, rnd := true, unary := true } w).or (need (w.b == 0) .reserved)
  | .vfcmp w => laneIllFormed { bu := true, dbl := true, mask := true, conds := 8 } w
  | .vcvt w => vcvtShortIllFormed w
  | .vcvtLong w => vcvtLongIllFormed w
  | .vpack w => vpackIllFormed true w
  | .vunpk w => vpackIllFormed false w
  | .vshuf w => vshufIllFormed 0 w
  | .vshufXor w => vshufIllFormed 1 w
  | .vshufRot w => vshufIllFormed 2 w
  | .vbcast w => vbcastIllFormed false w
  | .vbcastY w => vbcastIllFormed true w
  | .vred w => vredIllFormed false w
  | .vscan w => vredIllFormed true w
  | .vballot w => vballotIllFormed w
  | .vkey w => vkeyIllFormed w
  | .mop w => mopIllFormed w
  | .cPsend w => psendIllFormed w
  | .mxGang w => mxGangIllFormed w
  | .mxLdb w => mxIllFormed .ldb w
  | .mxMma w => mxIllFormed .mma w
  | .mxMmas w => mxIllFormed .mma w
  | .mxGmma w => mxIllFormed .gmma w
  | .mxZero w => mxIllFormed .zero w
  | .mxLdacc w => mxIllFormed .copy w
  | .mxStacc w => mxIllFormed .copy w
  | .mxRstep w => mxIllFormed .rstep w
  | .mxRsave w => mxIllFormed .rsave w
  | .mxRload w => mxIllFormed .rload w
  | .xNop w => xIllFormed true w
  | .xSync w => (xIllFormed false w).or (need (w.vd == 0 && w.va == 0 && w.b == 0) .reserved)
  | .xEnd w => (xIllFormed false w).or (need (w.vd == 0 && w.va == 0 && w.b == 0) .reserved)
  | .xWparr w => xWaypointIllFormed true w
  | .xWpwait w => xWaypointIllFormed false w
  | .cqEntryStart _ _ _ => none
  | .cqEntryRetire _ => none
  | .eosPost _ _ => none
  | .markPost _ _ => none
  | .splitClose _ _ => none
  | .groupDeadlock _ _ => none
  | .engineHalt _ _ _ => none
  | .vectorEntry _ => none
  | .copyCommandStart _ _ => none
  | .copySectorComplete _ _ _ => none
  | .expertCountHalving _ => none
  | .copyCommandEnd _ _ => none
  | .collPhaseWaitEnd _ _ => none
  | .gangRendezvous _ _ => none
  | .matrixOpStart _ => none
  | .matrixOpComplete _ => none
  | .waypointArrival _ => none
  | .waiterRetest _ => none
  | .writeTokenTransfer _ _ => none
  | .fenceScGrant _ => none
  | .poolFill _ => none
  | .tlbPrefetch _ _ _ => none
  | .nestDispatch _ => none
  | .teamPlacement => none
  | .teamDeschedule _ => none
  | .teamResume _ => none
  | .preemptionRequest _ => none
  | .nodeSwapOut _ => none
  | .preemptionDeadline _ => none
  | .nestCompletion _ => none
  | .bayRetirement _ => none
  | .faultRecordPost => none
  | .mboxStatus => none
  | .mboxRetest _ => none
  | .mboxRouteSet => none
  | .mboxRouteGet => none
  | .mboxTeamEnd => none
  | .reldbWrite _ _ => none
  | .poolpushWrite _ _ => none
  | .fqconsWrite _ => none
  | .lqpriWrite _ _ => none
  | .dctbaseWrite _ => none
  | .secfgWrite _ _ _ => none
  | .registerWrite _ _ _ => none
  | .moduleReset _ => none
  | .hostCxlMemAccess _ _ _ _ => none
  | .cxlCacheSnoop _ _ _ _ => none
  | .peerRequest _ _ _ _ => none
  | .rhumbFlitReceive _ _ => none
  | .linkDown _ => none
  | .laneSpareSwitch _ _ => none
  | .linkRetrainComplete _ => none
  | .peerResponseTimeout _ => none
  | .monitorReport _ => none
  | .thresholdCrossing _ _ => none
  | .dieDegradeOut _ => none
  | .dieEdgeFailure _ => none
  | .thermalClockStep _ _ => none
  | .thermalStop => none
  | .accessPerformed _ _ _ _ => none
  | .unassignedHelmWord => none
  | .unassignedStrandWord _ => none
  | .contextDestruction _ => none
  | .doeSpdmRequest _ => none
  | .junctionCooling _ _ => none

/-- A well-formed instruction: every field holds a value that the encoding chapter assigns. -/
def Instr.wellFormed (i : Instr) : Bool := i.illFormed.isNone

end Sys2Proof
end

