-- ==== Sys2Proof/Decode.lean ====
section
/-! DEFINITION. The decoder of helm and strand words (02_encoding.md R29 to R54), total on any bytes and rejecting by name, and
the encoder written from the same tables. -/

namespace Sys2Proof

/-! ### Fields and formats of helm words -/

/-- [7:1], the major opcode (R30, R31). -/
def wMajor (w : Nat) : Nat := bitsOf w 7 1
/-- [13:8]. -/
def wD (w : Nat) : GReg := BitVec.ofNat 6 (bitsOf w 13 8)
/-- [19:14]. -/
def wA (w : Nat) : GReg := BitVec.ofNat 6 (bitsOf w 19 14)
/-- [25:20] of an HR word. -/
def wB (w : Nat) : GReg := BitVec.ofNat 6 (bitsOf w 25 20)
/-- [31:26] of an HR word. -/
def wFn (w : Nat) : Nat := bitsOf w 31 26
/-- [23:20]: sub of an HS word, seg of a long word. -/
def wSub (w : Nat) : Nat := bitsOf w 23 20
/-- [31:24]: x of an HS word, fn8 of a long word. -/
def wX (w : Nat) : Nat := bitsOf w 31 24
/-- [63:32] of a long word. -/
def wImm (w : Nat) : Nat := bitsOf w 63 32

/-- An HR word (R30). -/
def packHR (major fn b a d : Nat) : Nat := major * 2 + d * 2 ^ 8 + a * 2 ^ 14 + b * 2 ^ 20 + fn * 2 ^ 26
/-- An HI word (R30); an HB word has ga at the place of gd and gb at the place of ga. -/
def packHI (major imm a d : Nat) : Nat := major * 2 + d * 2 ^ 8 + a * 2 ^ 14 + imm * 2 ^ 20
/-- An HJ word (R30). -/
def packHJ (major off d : Nat) : Nat := major * 2 + d * 2 ^ 8 + off * 2 ^ 14
/-- An HM word (R30). -/
def packHM (major imm size a d : Nat) : Nat := major * 2 + d * 2 ^ 8 + a * 2 ^ 14 + size * 2 ^ 20 + imm * 2 ^ 23
/-- An HS word (R30). -/
def packHS (major x sub a d : Nat) : Nat := major * 2 + d * 2 ^ 8 + a * 2 ^ 14 + sub * 2 ^ 20 + x * 2 ^ 24
/-- A long word (R31). -/
def packL (major imm fn8 seg a d : Nat) : Nat :=
  1 + major * 2 + d * 2 ^ 8 + a * 2 ^ 14 + seg * 2 ^ 20 + fn8 * 2 ^ 24 + imm * 2 ^ 32

/-- A decoded candidate, kept where it is well formed (R44, R54). -/
def checked (i : Instr) : Except DecodeError Instr :=
  match i.illFormed with
  | none => .ok i
  | some e => .error e

/-- A candidate whose must-be-zero fields are 0 (R44). -/
def zeroThen (ok : Bool) (i : Instr) : Except DecodeError Instr := if ok then checked i else .error .reserved

/-- Major 0x01, fn 0x00 to 0x14 (R36). -/
def integerOps : List (GReg → GReg → GReg → Instr) :=
  [.add, .sub, .and_, .or_, .xor, .shl, .shr, .sha, .mul, .mulh, .mulhu, .div, .divu, .rem, .remu, .min, .minu, .max, .maxu, .slt, .sltu]
/-- Major 0x01 (R36). -/
def decodeInteger (w : Nat) : Except DecodeError Instr :=
  match wFn w with
  | 0x15 => zeroThen (wB w == 0) (.clz (wD w) (wA w))
  | 0x16 => zeroThen (wB w == 0) (.popc (wD w) (wA w))
  | 0x17 => checked (.bext (wD w) (wA w) (wB w))
  | 0x18 => checked (.bins (wD w) (wA w) (wB w))
  | fn => match integerOps[fn]? with
    | some f => checked (f (wD w) (wA w) (wB w))
    | none => .error .function

/-- Major 0x08 (R37): fn[4:0] by its value, p from fn[5]. -/
def decodeFloat (w : Nat) : Except DecodeError Instr :=
  let p := bitOf w 31
  let rnd := BitVec.ofNat 3 (bitsOf w 22 20)
  let high := bitsOf w 25 23 == 0
  match bitsOf w 30 26 with
  | 0x00 => checked (.fadd p (wD w) (wA w) (wB w))
  | 0x01 => checked (.fsub p (wD w) (wA w) (wB w))
  | 0x02 => checked (.fmul p (wD w) (wA w) (wB w))
  | 0x03 => checked (.fdiv p (wD w) (wA w) (wB w))
  | 0x04 => zeroThen (wB w == 0) (.fsqrt p (wD w) (wA w))
  | 0x05 => checked (.fmin p (wD w) (wA w) (wB w))
  | 0x06 => checked (.fmax p (wD w) (wA w) (wB w))
  | 0x07 => zeroThen (wB w == 0) (.fclass p (wD w) (wA w))
  | 0x08 => checked (.fcmpEq p (wD w) (wA w) (wB w))
  | 0x09 => checked (.fcmpLt p (wD w) (wA w) (wB w))
  | 0x0A => checked (.fcmpLe p (wD w) (wA w) (wB w))
  | 0x0B => checked (.fcmpUn p (wD w) (wA w) (wB w))
  | 0x10 => zeroThen high (.fcvtLP p rnd (wD w) (wA w))
  | 0x11 => zeroThen high (.fcvtNP p rnd (wD w) (wA w))
  | 0x12 => zeroThen high (.fcvtPL p rnd (wD w) (wA w))
  | 0x13 => zeroThen high (.fcvtPN p rnd (wD w) (wA w))
  | 0x14 => zeroThen high (if p then .fcvtDS rnd (wD w) (wA w) else .fcvtSD rnd (wD w) (wA w))
  | _ => .error .function

/-- Major 0x06 (R38). -/
def decodeShift (w : Nat) : Except DecodeError Instr :=
  let n := BitVec.ofNat 6 (bitsOf w 25 20)
  if bitsOf w 31 28 == 0 then
    match bitsOf w 27 26 with
    | 0 => checked (.shli (wD w) (wA w) n)
    | 1 => checked (.shri (wD w) (wA w) n)
    | 2 => checked (.shai (wD w) (wA w) n)
    | _ => .error .function
  else .error .reserved

/-- Major 0x37, the helm ring words (R41). -/
def decodeRing (w : Nat) : Except DecodeError Instr :=
  let ring := BitVec.ofNat 4 (bitsOf w 27 24)
  let scope := BitVec.ofNat 3 (bitsOf w 30 28)
  if bitOf w 31 then .error .reserved else
  match wSub w with
  | 0 => zeroThen (wA w == 0) (.rgClaim (wD w) ring scope)
  | 1 => zeroThen (wD w == 0) (.rgCommit (wA w) ring scope)
  | 2 => zeroThen (wA w == 0) (.rgWfill (wD w) ring scope)
  | 3 => zeroThen (wD w == 0) (.rgRelease (wA w) ring scope)
  | 4 => zeroThen (wA w == 0 && wD w == 0) (.rgEos ring scope)
  | 5 => zeroThen (wA w == 0 && wD w == 0 && scope == 0) (.rgAbort ring)
  | 6 => zeroThen (wA w == 0 && scope == 0) (.rgStat (wD w) ring)
  | _ => .error .function

/-- Major 0x38, the helm waypoint words (R41). -/
def decodeWaypoint (w : Nat) : Except DecodeError Instr :=
  let ord := BitVec.ofNat 2 (bitsOf w 25 24)
  let scope := BitVec.ofNat 3 (bitsOf w 28 26)
  if bitsOf w 31 29 != 0 then .error .reserved else
  match wSub w with
  | 0 => checked (.wpArrive (wD w) (wA w) ord scope)
  | 1 => zeroThen (ord == 0 && scope == 0) (.wpExpect (wD w) (wA w))
  | 2 => checked (.wpWait (wD w) (wA w) ord scope)
  | 3 => checked (.wpTest (wD w) (wA w) ord scope)
  | 4 => zeroThen (ord == 0 && scope == 0) (.wpStat (wD w) (wA w))
  | _ => .error .function

/-- Major 0x39, the atomics (R42). -/
def decodeAtomic (w : Nat) : Except DecodeError Instr :=
  let ord := BitVec.ofNat 2 (bitsOf w 25 24)
  let scope := BitVec.ofNat 3 (bitsOf w 28 26)
  let dbl := bitOf w 23
  let natural := bitOf w 30
  if bitOf w 31 then .error .reserved
  else if bitOf w 29 then checked (.atRed (BitVec.ofNat 3 (bitsOf w 22 20)) natural (wD w) (wA w) dbl ord scope)
  else match bitsOf w 22 20 with
  | 0 => zeroThen (!natural) (.atAdd (wD w) (wA w) dbl ord scope)
  | 1 => zeroThen (!natural) (.atAnd (wD w) (wA w) dbl ord scope)
  | 2 => zeroThen (!natural) (.atOr (wD w) (wA w) dbl ord scope)
  | 3 => zeroThen (!natural) (.atXor (wD w) (wA w) dbl ord scope)
  | 4 => checked (if natural then .atMinu (wD w) (wA w) dbl ord scope else .atMin (wD w) (wA w) dbl ord scope)
  | 5 => checked (if natural then .atMaxu (wD w) (wA w) dbl ord scope else .atMax (wD w) (wA w) dbl ord scope)
  | 6 => zeroThen (!natural) (.atXchg (wD w) (wA w) dbl ord scope)
  | _ => zeroThen (!natural) (.atCas (wD w) (wA w) dbl ord scope)

/-- Majors 0x30 to 0x36 and 0x3A to 0x3E (R41). -/
def decodeSelector (w : Nat) : Except DecodeError Instr :=
  let x := wX w
  let noX := x == 0
  let noA := wA w == 0
  let noD := wD w == 0
  match wMajor w, wSub w with
  | 0x30, 0 => zeroThen (noX && noA) (.qPopr (wD w))
  | 0x31, 0 => zeroThen (noX && noA) (.qPeek (wD w))
  | 0x32, 0 => zeroThen (noX && noA) (.qOccCq (wD w))
  | 0x32, 1 => zeroThen (noX && noA) (.qOccRq (wD w))
  | 0x33, 0 => zeroThen (noX && noD) (.qJoin (wA w))
  | 0x34, 0 => zeroThen noX (.qMark (wD w) (wA w))
  | 0x35, item => zeroThen (bitsOf x 7 3 == 0 && noA) (.shpGet (wD w) (BitVec.ofNat 3 (bitsOf x 2 0)) (BitVec.ofNat 4 item))
  | 0x36, 0 => zeroThen (bitsOf x 7 3 == 0) (.shpTail (wD w) (wA w) (BitVec.ofNat 3 (bitsOf x 2 0)))
  | 0x3A, 0 => zeroThen (bitsOf x 7 5 == 0 && noA && noD) (.fence (BitVec.ofNat 2 (bitsOf x 1 0)) (BitVec.ofNat 3 (bitsOf x 4 2)))
  | 0x3A, 1 => if x == 0x17 then zeroThen (noA && noD) .fenceSc else .error (if bitsOf x 7 5 != 0 then .reserved else if bitsOf x 1 0 != 3 then .ordering else .scope)
  | 0x3B, 0 => zeroThen (x < 128 && noD) (.rbSurr (wA w) (BitVec.ofNat 7 (bitsOf x 6 0)))
  | 0x3B, 1 => zeroThen (x < 128 && noD) (.rbClaim (wA w) (BitVec.ofNat 7 (bitsOf x 6 0)))
  | 0x3C, 0 => zeroThen (noX && noA && noD) .yield
  | 0x3C, 1 => zeroThen (noX && noA && noD) .teamExit
  | 0x3C, 2 => zeroThen (x < 16 && noA) (.teamInfo (wD w) (BitVec.ofNat 4 (bitsOf x 3 0)))
  | 0x3C, 3 => zeroThen (noX && noA) (.join (wD w))
  | 0x3D, 0 => zeroThen noA (.sysRd (wD w) (BitVec.ofNat 8 x))
  | 0x3D, 1 => zeroThen noD (.sysWr (wA w) (BitVec.ofNat 8 x))
  | 0x3D, 2 => zeroThen (noA && noD) (.trap (BitVec.ofNat 8 x))
  | 0x3D, 3 => zeroThen (noX && noA && noD) .eret
  | 0x3D, 4 => zeroThen (noA && noD) (.brk (BitVec.ofNat 8 x))
  | 0x3D, 5 => zeroThen (noX && noD) (.halt (wA w))
  | 0x3E, 0 => if bitsOf x 7 1 != 0 then .error .reserved
      else if x == 0 then zeroThen noD (.tlbInv (wA w)) else zeroThen (noA && noD) .tlbInvAll
  | 0x3E, 1 => zeroThen noX (.pgProbe (wD w) (wA w))
  | _, _ => .error .function

/-- A short word (R30, R35 to R42). -/
def decodeShort (w : Nat) : Except DecodeError Instr :=
  let off := BitVec.ofNat 12 (bitsOf w 31 20)
  let off18 := BitVec.ofNat 18 (bitsOf w 31 14)
  let size := BitVec.ofNat 3 (bitsOf w 22 20)
  let imm9 := BitVec.ofNat 9 (bitsOf w 31 23)
  let scope := BitVec.ofNat 3 (bitsOf w 25 23)
  match wMajor w with
  | 0x01 => decodeInteger w
  | 0x02 => checked (.addi (wD w) (wA w) off)
  | 0x03 => checked (.andi (wD w) (wA w) off)
  | 0x04 => checked (.ori (wD w) (wA w) off)
  | 0x05 => checked (.xori (wD w) (wA w) off)
  | 0x06 => decodeShift w
  | 0x07 => checked (.slti (wD w) (wA w) off)
  | 0x08 => decodeFloat w
  | 0x10 => checked (.bEq (wD w) (wA w) off)
  | 0x11 => checked (.bNe (wD w) (wA w) off)
  | 0x12 => checked (.bLt (wD w) (wA w) off)
  | 0x13 => checked (.bGe (wD w) (wA w) off)
  | 0x14 => checked (.bLtu (wD w) (wA w) off)
  | 0x15 => checked (.bGeu (wD w) (wA w) off)
  | 0x18 => zeroThen (wD w == 0) (.j off18)
  | 0x19 => checked (.call (wD w) off18)
  | 0x1A => match wFn w with
    | 0 => zeroThen (wB w == 0) (.callr (wD w) (wA w))
    | 1 => zeroThen (wB w == 0 && wD w == 0) (.ret (wA w))
    | _ => .error .function
  | 0x1B => zeroThen (wA w == 0) (.hloop (wD w) off)
  | 0x20 => checked (.ld (wD w) (wA w) size imm9)
  | 0x21 => checked (.st (wD w) (wA w) size imm9)
  | 0x22 => zeroThen (bitsOf w 31 26 == 0) (.ldAcq (wD w) (wA w) size scope)
  | 0x23 => zeroThen (bitsOf w 31 26 == 0) (.stRel (wD w) (wA w) size scope)
  | 0x37 => decodeRing w
  | 0x38 => decodeWaypoint w
  | 0x39 => decodeAtomic w
  | m => if (0x30 ≤ m ∧ m ≤ 0x36) ∨ (0x3A ≤ m ∧ m ≤ 0x3E) then decodeSelector w else .error .opcode

/-- imm32 of `q.push` and `q.split` with fn8 (R159). -/
def pushFieldsOf (fn8 imm : Nat) : PushFields :=
  { gsel := BitVec.ofNat 8 fn8, block := BitVec.ofNat 16 (bitsOf imm 15 0), lay := BitVec.ofNat 4 (bitsOf imm 19 16),
    lfix := bitOf imm 20, rel := bitOf imm 21, rscope := BitVec.ofNat 3 (bitsOf imm 24 22) }

def packPush (kind : Nat) (f : PushFields) : Nat :=
  f.block.toNat + f.lay.toNat * 2 ^ 16 + b2n f.lfix * 2 ^ 20 + b2n f.rel * 2 ^ 21 + f.rscope.toNat * 2 ^ 22 + kind * 2 ^ 25

/-- Major 0x0B (R280). -/
def decodeCopy (w : Nat) : Except DecodeError Instr :=
  let ch := BitVec.ofNat 2 (bitsOf w 31 30)
  let ord := BitVec.ofNat 2 (bitsOf w 29 28)
  let seg := BitVec.ofNat 4 (wSub w)
  let imm := BitVec.ofNat 32 (wImm w)
  let plain := wSub w == 0 && wImm w == 0 && ord == 0
  match bitsOf w 27 24 with
  | 0 => checked (.cpCopy (wD w) (wA w) ch ord seg imm)
  | 1 => checked (.cpGath (wD w) (wA w) ch ord seg imm)
  | 2 => checked (.cpScat (wD w) (wA w) ch ord seg imm)
  | 3 => checked (.cpFill (wD w) (wA w) ch ord seg imm)
  | 4 => checked (.cpScale (wD w) (wA w) ch ord seg imm)
  | 5 => checked (.cpColl (wD w) (wA w) ch ord seg imm)
  | 6 => checked (.cpDisp (wD w) (wA w) ch ord seg imm)
  | 7 => zeroThen (plain && !bitOf w 31) (if bitOf w 30 then .cpReplayDiscard (wD w) (wA w) else .cpReplay (wD w) (wA w))
  | 8 => zeroThen plain (.cpStat (wD w) (wA w) ch)
  | _ => .error .function

/-- A long word (R31, R43). -/
def decodeLong (w : Nat) : Except DecodeError Instr :=
  let d := wD w
  let a := wA w
  let seg := BitVec.ofNat 4 (wSub w)
  let fn8 := wX w
  let immN := wImm w
  let imm := BitVec.ofNat 32 immN
  let noD := d == 0
  let noA := a == 0
  let noS := wSub w == 0
  match wMajor w with
  | 0x01 => match fn8 with
    | 0 => zeroThen (noA && noS) (.li d imm)
    | 1 => zeroThen (noA && noS) (.liHi d imm)
    | _ => .error .function
  | 0x02 => zeroThen (fn8 == 0) (.lea d a seg imm)
  | 0x03 => zeroThen (fn8 < 8) (.lds d a seg (BitVec.ofNat 3 (bitsOf fn8 2 0)) imm)
  | 0x04 => zeroThen (fn8 < 8) (.sts d a seg (BitVec.ofNat 3 (bitsOf fn8 2 0)) imm)
  | 0x05 =>
    let p := bitOf immN 15
    let rnd := BitVec.ofNat 3 (bitsOf immN 14 12)
    let b := BitVec.ofNat 6 (bitsOf immN 5 0)
    let c := BitVec.ofNat 6 (bitsOf immN 11 6)
    zeroThen (noS && fn8 == 0 && bitsOf immN 31 18 == 0)
      (match bitsOf immN 17 16 with
       | 0 => .fma p rnd d a b c
       | 1 => .fms p rnd d a b c
       | 2 => .fnma p rnd d a b c
       | _ => .fnms p rnd d a b c)
  | 0x06 => if bitsOf immN 31 27 == 0 && noS then
      match bitsOf immN 26 25 with
      | 0 => checked (.qPush d a (pushFieldsOf fn8 immN))
      | 1 => checked (.qPushEos d a (pushFieldsOf fn8 immN))
      | 2 => checked (.qPushNop d a (pushFieldsOf fn8 immN))
      | _ => .error .function
    else .error .reserved
  | 0x07 => zeroThen (bitsOf immN 31 25 == 0 && noS) (.qSplit d a (pushFieldsOf fn8 immN))
  | 0x08 => match fn8 with
    | 0 => zeroThen (noD && noS && noA) (.qWin imm)
    | 1 => zeroThen (noD && noS && immN == 0) (.qWinReg a)
    | _ => .error .function
  | 0x09 =>
    let sh := BitVec.ofNat 3 (bitsOf fn8 2 0)
    let pol := BitVec.ofNat 2 (bitsOf fn8 4 3)
    let td := BitVec.ofNat 2 (bitsOf fn8 7 6)
    let fmt := BitVec.ofNat 5 (bitsOf immN 4 0)
    zeroThen (noS && bitsOf immN 31 5 == 0) (if bitOf fn8 5 then .shpReqV d a sh pol td fmt else .shpReq d a sh pol td fmt)
  | 0x0A =>
    let dst := BitVec.ofNat 3 (bitsOf fn8 2 0)
    let src := BitVec.ofNat 3 (bitsOf fn8 5 3)
    match bitsOf fn8 7 6 with
    | 0 => zeroThen (noD && noS && noA && immN == 0) (.shpSetCopy dst src)
    | 1 => zeroThen (noD && noS && noA && immN == 0 && src == 0) (.shpSetClr dst)
    | 2 => zeroThen (noD && noS && immN == 0 && src == 0) (.shpSetLd dst a)
    | _ => zeroThen (noD && noS && noA && src == 0) (.shpSetTail dst imm)
  | 0x0B => decodeCopy w
  | 0x0C => zeroThen (!bitOf fn8 7) (.nestLaunch d a (bitOf fn8 6) (BitVec.ofNat 6 (bitsOf fn8 5 0)) seg imm)
  | 0x0D => zeroThen (!bitOf fn8 6) (.fork d a (bitOf fn8 7) (BitVec.ofNat 6 (bitsOf fn8 5 0)) seg imm)
  | 0x0E => zeroThen (noD && noS && immN == 0 && fn8 < 16) (.fmtSet a (BitVec.ofNat 4 (bitsOf fn8 3 0)))
  | 0x0F => zeroThen (noD && fn8 < 64) (.rgInit a (BitVec.ofNat 4 (bitsOf fn8 3 0)) (BitVec.ofNat 2 (bitsOf fn8 5 4)) seg imm)
  | 0x10 =>
    let aexp := BitVec.ofNat 16 (bitsOf immN 15 0)
    match fn8 with
    | 0 => zeroThen (bitsOf immN 31 19 == 0) (.wpInitAlloc d a seg aexp (BitVec.ofNat 2 (bitsOf immN 17 16)) (bitOf immN 18))
    | 1 => zeroThen (bitsOf immN 31 16 == 0 && noS) (.wpInitReset d a aexp)
    | 2 => zeroThen (immN == 0 && noS && noA) (.wpInitFree d)
    | _ => .error .function
  | 0x11 =>
    let src := BitVec.ofNat 4 (bitsOf fn8 5 2)
    if bitsOf fn8 7 6 != 0 then .error .reserved else
    match bitsOf fn8 1 0 with
    | 0 => zeroThen (noD && src == 0 && immN == 0) (.segBindLd seg a)
    | 1 => zeroThen (noD && bitsOf immN 31 3 == 0) (.segBindNarrow seg src a (BitVec.ofNat 3 (bitsOf immN 2 0)))
    | _ => .error .function
  | 0x12 => zeroThen (noS && immN == 0 && fn8 < 32) (.pgMap d a (BitVec.ofNat 4 (bitsOf fn8 3 0)) (bitOf fn8 4))
  | 0x13 => zeroThen (noA && noS && fn8 == 0) (.callx d imm)
  | 0x14 => zeroThen (noD && noS && fn8 == 0) (.lnkSet a imm)
  | 0x15 => zeroThen (noD && noA && noS && immN == 0 && !bitOf fn8 7)
      (.fenceMk (bitOf fn8 0) (bitOf fn8 1) (bitOf fn8 2) (bitOf fn8 3) (BitVec.ofNat 3 (bitsOf fn8 6 4)))
  | _ => .error .opcode

/-- A helm word as a number: its low unit in bits [31:0] and, where bit 0 is 1, its high unit in [63:32] (R29). -/
def decodeHelmWord (w : Nat) : Except DecodeError Instr := if bitOf w 0 then decodeLong w else decodeShort w

/-- The bytes that a helm word occupies, from its first unit (R29). -/
def helmBytes (w : Nat) : Nat := if bitOf w 0 then 8 else 4

/-! ### Strand words -/

/-- The operand fields of the head of a strand word (R48), with its extension (R51). -/
def swOf (w : Nat) (ext : Option SExt) : SW :=
  { tok := BitVec.ofNat 4 (bitsOf w 5 2), rep := BitVec.ofNat 5 (bitsOf w 16 12), step := BitVec.ofNat 7 (bitsOf w 23 17),
    msk := BitVec.ofNat 3 (bitsOf w 26 24), vd := BitVec.ofNat 7 (bitsOf w 33 27), va := BitVec.ofNat 7 (bitsOf w 40 34),
    b := BitVec.ofNat 7 (bitsOf w 47 41), ext := ext }

def extOf (x : Nat) : SExt :=
  { imm := BitVec.ofNat 16 (bitsOf x 47 32), ubase := BitVec.ofNat 4 (bitsOf x 30 27), vc := BitVec.ofNat 7 (bitsOf x 26 20),
    seg := BitVec.ofNat 4 (bitsOf x 19 16), fmt := BitVec.ofNat 4 (bitsOf x 15 12), sh := BitVec.ofNat 3 (bitsOf x 11 9),
    acc := BitVec.ofNat 3 (bitsOf x 8 6) }

/-- The constructor that a tag and an opcode name (R52), and for the opcodes with forms, the operand fields. -/
def strandOp (tag op : Nat) (w : SW) : Except DecodeError Instr :=
  match tag, op with
  | 0, 0x01 => checked (.lLd w)
  | 0, 0x02 => checked (.lLdg w)
  | 0, 0x03 => checked (.lGath w)
  | 0, 0x08 => checked (.lIcw w)
  | 0, 0x10 => checked (.lRgWfill w)
  | 0, 0x11 => checked (.lRgRelease w)
  | 0, 0x12 => checked (.lRgStat w)
  | 1, 0x00 => checked (.vadd w)
  | 1, 0x01 => checked (.vsub w)
  | 1, 0x02 => checked (.vmul w)
  | 1, 0x03 => checked (.vmulh w)
  | 1, 0x04 => checked (.vmad w)
  | 1, 0x05 => checked (.vand w)
  | 1, 0x06 => checked (.vor w)
  | 1, 0x07 => checked (.vxor w)
  | 1, 0x08 => checked (.vshl w)
  | 1, 0x09 => checked (.vshr w)
  | 1, 0x0A => checked (.vsha w)
  | 1, 0x0B => checked (.vmin w)
  | 1, 0x0C => checked (.vmax w)
  | 1, 0x0D => checked (.vsel w)
  | 1, 0x0E => match w.b.toNat with | 0 => checked (.vmov w) | 1 => checked (.vmovI w) | 2 => checked (.vmovH w) | 3 => checked (.vmovL w) | _ => .error .function
  | 1, 0x0F => checked (.vicmp w)
  | 1, 0x10 => checked (.vfadd w)
  | 1, 0x11 => checked (.vfsub w)
  | 1, 0x12 => checked (.vfmul w)
  | 1, 0x13 => checked (.vfma w)
  | 1, 0x14 => checked (.vfmin w)
  | 1, 0x15 => checked (.vfmax w)
  | 1, 0x16 => checked (.vfrcp w)
  | 1, 0x17 => checked (.vfrsq w)
  | 1, 0x18 => checked (.vfexp2 w)
  | 1, 0x19 => checked (.vflog2 w)
  | 1, 0x1A => checked (.vfcmp w)
  | 1, 0x1B => if w.ext.isSome then checked (.vcvtLong w) else checked (.vcvt w)
  | 1, 0x1C => checked (.vpack w)
  | 1, 0x1D => checked (.vunpk w)
  | 1, 0x1E => match bitsOf w.imm.toNat 7 6 with | 0 => checked (.vshuf w) | 1 => checked (.vshufXor w) | 2 => checked (.vshufRot w) | _ => .error .function
  | 1, 0x1F => if w.b.toNat ≤ 63 then checked (.vbcast w) else checked (.vbcastY w)
  | 1, 0x20 => checked (.vred w)
  | 1, 0x21 => checked (.vscan w)
  | 1, 0x22 => checked (.vballot w)
  | 1, 0x23 => checked (.vkey w)
  | 1, 0x24 => checked (.mop w)
  | 1, 0x28 => checked (.cPsend w)
  | 1, 0x30 => checked (.mxGang w)
  | 1, 0x31 => checked (.mxLdb w)
  | 1, 0x32 => checked (.mxMma w)
  | 1, 0x33 => checked (.mxMmas w)
  | 1, 0x34 => checked (.mxGmma w)
  | 1, 0x35 => checked (.mxZero w)
  | 1, 0x36 => checked (.mxLdacc w)
  | 1, 0x37 => checked (.mxStacc w)
  | 1, 0x38 => checked (.mxRstep w)
  | 1, 0x39 => checked (.mxRsave w)
  | 1, 0x3A => checked (.mxRload w)
  | 2, 0x01 => checked (.sSt w)
  | 2, 0x02 => checked (.sStg w)
  | 2, 0x03 => checked (.sScat w)
  | 2, 0x08 => checked (.sIcw w)
  | 2, 0x10 => checked (.sRgClaim w)
  | 2, 0x11 => checked (.sRgCommit w)
  | 2, 0x12 => checked (.sRgRelease w)
  | 2, 0x13 => checked (.sRgEos w)
  | 2, 0x14 => checked (.sRgAbort w)
  | 2, 0x15 => checked (.sRgStat w)
  | 3, 0x00 => checked (.xNop w)
  | 3, 0x01 => checked (.xSync w)
  | 3, 0x02 => checked (.xEnd w)
  | 3, 0x03 => checked (.xWparr w)
  | 3, 0x04 => checked (.xWpwait w)
  | _, _ => .error .opcode

/-- A strand word as a number: its first six bytes in bits [47:0] and, after a head of opcode 0x3F, its extension in [95:48]
(R47 to R52). -/
def decodeStrandWord (w : Nat) : Except DecodeError Instr :=
  let tag := bitsOf w 1 0
  if bitsOf w 11 6 = 0x3F then
    let x := bitsOf w 95 48
    if bitOf x 31 then .error .reserved
    else if bitsOf x 5 0 = 0x3F then .error .opcode
    else strandOp tag (bitsOf x 5 0) (swOf w (some (extOf x)))
  else strandOp tag (bitsOf w 11 6) (swOf w none)

/-- The bytes that a strand word occupies (R47, R50). -/
def strandBytes (w : Nat) : Nat := if bitsOf w 11 6 = 0x3F then 12 else 6

/-! ### Bytes -/

/-- `n` bytes of `w`, least significant first (R2). -/
def leBytes : Nat → Nat → List Byte
  | 0, _ => []
  | n + 1, w => BitVec.ofNat 8 w :: leBytes n (w / 256)

/-- The number that bytes hold, least significant first (R2). -/
def leNat : List Byte → Nat
  | [] => 0
  | b :: bs => b.toNat + 256 * leNat bs

/-- The helm word at the head of the bytes, with the bytes after it (R29). -/
def decodeHelm (bs : List Byte) : Except DecodeError (Instr × List Byte) :=
  let n := helmBytes (leNat (bs.take 4))
  if bs.length < 4 ∨ bs.length < n then .error .truncated
  else (decodeHelmWord (leNat (bs.take n))).map fun i => (i, bs.drop n)

/-- The strand word at the head of the bytes, with the bytes after it (R47). -/
def decodeStrand (bs : List Byte) : Except DecodeError (Instr × List Byte) :=
  let n := strandBytes (leNat (bs.take 6))
  if bs.length < 6 ∨ bs.length < n then .error .truncated
  else (decodeStrandWord (leNat (bs.take n))).map fun i => (i, bs.drop n)

/-- The instruction of a word whose bits are numbered as spec/opcode_table.json numbers them; the table gives bits to helm words
only, and a strand word is asked for by its length of 48 or 96 bits. -/
def decodeTableWord (nbits w : Nat) : Option Instr :=
  let r := if nbits = 48 ∨ nbits = 96 then decodeStrand (leBytes 12 (w % 2 ^ nbits)) else decodeHelm (leBytes 8 (w % 2 ^ nbits))
  match r with
  | .ok (i, _) => some i
  | .error _ => none

/-! ### The encoder -/

/-- The fields of a strand word with its tag and opcode (R48, R51). -/
def packStrand (tag op : Nat) (w : SW) : Nat :=
  let head (o : Nat) : Nat := tag + w.tok.toNat * 2 ^ 2 + o * 2 ^ 6 + w.rep.toNat * 2 ^ 12 + w.step.toNat * 2 ^ 17 +
    w.msk.toNat * 2 ^ 24 + w.vd.toNat * 2 ^ 27 + w.va.toNat * 2 ^ 34 + w.b.toNat * 2 ^ 41
  match w.ext with
  | none => head op
  | some x => head 0x3F + (op + x.acc.toNat * 2 ^ 6 + x.sh.toNat * 2 ^ 9 + x.fmt.toNat * 2 ^ 12 + x.seg.toNat * 2 ^ 16 +
      x.vc.toNat * 2 ^ 20 + x.ubase.toNat * 2 ^ 27 + x.imm.toNat * 2 ^ 32) * 2 ^ 48

/-- The number of a helm instruction's word; `none` for what is no helm word (R29 to R43). -/
def helmWord : Instr → Option Nat
  | .add d a b => some (packHR 0x01 0x00 b.toNat a.toNat d.toNat)
  | .sub d a b => some (packHR 0x01 0x01 b.toNat a.toNat d.toNat)
  | .and_ d a b => some (packHR 0x01 0x02 b.toNat a.toNat d.toNat)
  | .or_ d a b => some (packHR 0x01 0x03 b.toNat a.toNat d.toNat)
  | .xor d a b => some (packHR 0x01 0x04 b.toNat a.toNat d.toNat)
  | .shl d a b => some (packHR 0x01 0x05 b.toNat a.toNat d.toNat)
  | .shr d a b => some (packHR 0x01 0x06 b.toNat a.toNat d.toNat)
  | .sha d a b => some (packHR 0x01 0x07 b.toNat a.toNat d.toNat)
  | .mul d a b => some (packHR 0x01 0x08 b.toNat a.toNat d.toNat)
  | .mulh d a b => some (packHR 0x01 0x09 b.toNat a.toNat d.toNat)
  | .mulhu d a b => some (packHR 0x01 0x0A b.toNat a.toNat d.toNat)
  | .div d a b => some (packHR 0x01 0x0B b.toNat a.toNat d.toNat)
  | .divu d a b => some (packHR 0x01 0x0C b.toNat a.toNat d.toNat)
  | .rem d a b => some (packHR 0x01 0x0D b.toNat a.toNat d.toNat)
  | .remu d a b => some (packHR 0x01 0x0E b.toNat a.toNat d.toNat)
  | .min d a b => some (packHR 0x01 0x0F b.toNat a.toNat d.toNat)
  | .minu d a b => some (packHR 0x01 0x10 b.toNat a.toNat d.toNat)
  | .max d a b => some (packHR 0x01 0x11 b.toNat a.toNat d.toNat)
  | .maxu d a b => some (packHR 0x01 0x12 b.toNat a.toNat d.toNat)
  | .slt d a b => some (packHR 0x01 0x13 b.toNat a.toNat d.toNat)
  | .sltu d a b => some (packHR 0x01 0x14 b.toNat a.toNat d.toNat)
  | .clz d a => some (packHR 0x01 0x15 0 a.toNat d.toNat)
  | .popc d a => some (packHR 0x01 0x16 0 a.toNat d.toNat)
  | .bext d a b => some (packHR 0x01 0x17 b.toNat a.toNat d.toNat)
  | .bins d a b => some (packHR 0x01 0x18 b.toNat a.toNat d.toNat)
  | .addi d a imm => some (packHI 0x02 imm.toNat a.toNat d.toNat)
  | .andi d a imm => some (packHI 0x03 imm.toNat a.toNat d.toNat)
  | .ori d a imm => some (packHI 0x04 imm.toNat a.toNat d.toNat)
  | .xori d a imm => some (packHI 0x05 imm.toNat a.toNat d.toNat)
  | .slti d a imm => some (packHI 0x07 imm.toNat a.toNat d.toNat)
  | .shli d a n => some (packHI 0x06 (n.toNat + 0 * 2 ^ 6) a.toNat d.toNat)
  | .shri d a n => some (packHI 0x06 (n.toNat + 1 * 2 ^ 6) a.toNat d.toNat)
  | .shai d a n => some (packHI 0x06 (n.toNat + 2 * 2 ^ 6) a.toNat d.toNat)
  | .fadd p d a b => some (packHR 0x08 (0x00 + b2n p * 2 ^ 5) b.toNat a.toNat d.toNat)
  | .fsub p d a b => some (packHR 0x08 (0x01 + b2n p * 2 ^ 5) b.toNat a.toNat d.toNat)
  | .fmul p d a b => some (packHR 0x08 (0x02 + b2n p * 2 ^ 5) b.toNat a.toNat d.toNat)
  | .fdiv p d a b => some (packHR 0x08 (0x03 + b2n p * 2 ^ 5) b.toNat a.toNat d.toNat)
  | .fsqrt p d a => some (packHR 0x08 (0x04 + b2n p * 2 ^ 5) 0 a.toNat d.toNat)
  | .fmin p d a b => some (packHR 0x08 (0x05 + b2n p * 2 ^ 5) b.toNat a.toNat d.toNat)
  | .fmax p d a b => some (packHR 0x08 (0x06 + b2n p * 2 ^ 5) b.toNat a.toNat d.toNat)
  | .fclass p d a => some (packHR 0x08 (0x07 + b2n p * 2 ^ 5) 0 a.toNat d.toNat)
  | .fcmpEq p d a b => some (packHR 0x08 (0x08 + b2n p * 2 ^ 5) b.toNat a.toNat d.toNat)
  | .fcmpLt p d a b => some (packHR 0x08 (0x09 + b2n p * 2 ^ 5) b.toNat a.toNat d.toNat)
  | .fcmpLe p d a b => some (packHR 0x08 (0x0A + b2n p * 2 ^ 5) b.toNat a.toNat d.toNat)
  | .fcmpUn p d a b => some (packHR 0x08 (0x0B + b2n p * 2 ^ 5) b.toNat a.toNat d.toNat)
  | .fcvtLP p rnd d a => some (packHR 0x08 (0x10 + b2n p * 2 ^ 5) rnd.toNat a.toNat d.toNat)
  | .fcvtNP p rnd d a => some (packHR 0x08 (0x11 + b2n p * 2 ^ 5) rnd.toNat a.toNat d.toNat)
  | .fcvtPL p rnd d a => some (packHR 0x08 (0x12 + b2n p * 2 ^ 5) rnd.toNat a.toNat d.toNat)
  | .fcvtPN p rnd d a => some (packHR 0x08 (0x13 + b2n p * 2 ^ 5) rnd.toNat a.toNat d.toNat)
  | .fcvtSD rnd d a => some (packHR 0x08 0x14 rnd.toNat a.toNat d.toNat)
  | .fcvtDS rnd d a => some (packHR 0x08 0x34 rnd.toNat a.toNat d.toNat)
  | .bEq a b off => some (packHI 0x10 off.toNat b.toNat a.toNat)
  | .bNe a b off => some (packHI 0x11 off.toNat b.toNat a.toNat)
  | .bLt a b off => some (packHI 0x12 off.toNat b.toNat a.toNat)
  | .bGe a b off => some (packHI 0x13 off.toNat b.toNat a.toNat)
  | .bLtu a b off => some (packHI 0x14 off.toNat b.toNat a.toNat)
  | .bGeu a b off => some (packHI 0x15 off.toNat b.toNat a.toNat)
  | .j off => some (packHJ 0x18 off.toNat 0)
  | .call d off => some (packHJ 0x19 off.toNat d.toNat)
  | .callr d a => some (packHR 0x1A 0 0 a.toNat d.toNat)
  | .ret a => some (packHR 0x1A 1 0 a.toNat 0)
  | .hloop a off => some (packHI 0x1B off.toNat 0 a.toNat)
  | .ld d a size imm => some (packHM 0x20 imm.toNat size.toNat a.toNat d.toNat)
  | .st g a size imm => some (packHM 0x21 imm.toNat size.toNat a.toNat g.toNat)
  | .ldAcq d a size scope => some (packHM 0x22 scope.toNat size.toNat a.toNat d.toNat)
  | .stRel g a size scope => some (packHM 0x23 scope.toNat size.toNat a.toNat g.toNat)
  | .qPopr d => some (packHS 0x30 0 0 0 d.toNat)
  | .qPeek d => some (packHS 0x31 0 0 0 d.toNat)
  | .qOccCq d => some (packHS 0x32 0 0 0 d.toNat)
  | .qOccRq d => some (packHS 0x32 0 1 0 d.toNat)
  | .qJoin a => some (packHS 0x33 0 0 a.toNat 0)
  | .qMark d a => some (packHS 0x34 0 0 a.toNat d.toNat)
  | .shpGet d sh item => some (packHS 0x35 sh.toNat item.toNat 0 d.toNat)
  | .shpTail d a sh => some (packHS 0x36 sh.toNat 0 a.toNat d.toNat)
  | .rgClaim d ring scope => some (packHS 0x37 (ring.toNat + scope.toNat * 2 ^ 4) 0 0 d.toNat)
  | .rgCommit a ring scope => some (packHS 0x37 (ring.toNat + scope.toNat * 2 ^ 4) 1 a.toNat 0)
  | .rgWfill d ring scope => some (packHS 0x37 (ring.toNat + scope.toNat * 2 ^ 4) 2 0 d.toNat)
  | .rgRelease a ring scope => some (packHS 0x37 (ring.toNat + scope.toNat * 2 ^ 4) 3 a.toNat 0)
  | .rgEos ring scope => some (packHS 0x37 (ring.toNat + scope.toNat * 2 ^ 4) 4 0 0)
  | .rgAbort ring => some (packHS 0x37 ring.toNat 5 0 0)
  | .rgStat d ring => some (packHS 0x37 ring.toNat 6 0 d.toNat)
  | .wpArrive d a ord scope => some (packHS 0x38 (ord.toNat + scope.toNat * 2 ^ 2) 0 a.toNat d.toNat)
  | .wpExpect d a => some (packHS 0x38 0 1 a.toNat d.toNat)
  | .wpWait d a ord scope => some (packHS 0x38 (ord.toNat + scope.toNat * 2 ^ 2) 2 a.toNat d.toNat)
  | .wpTest d a ord scope => some (packHS 0x38 (ord.toNat + scope.toNat * 2 ^ 2) 3 a.toNat d.toNat)
  | .wpStat d a => some (packHS 0x38 0 4 a.toNat d.toNat)
  | .atAdd d a dbl ord scope => some (packHS 0x39 (ord.toNat + scope.toNat * 2 ^ 2 + 0 * 2 ^ 6) (0 + b2n dbl * 2 ^ 3) a.toNat d.toNat)
  | .atAnd d a dbl ord scope => some (packHS 0x39 (ord.toNat + scope.toNat * 2 ^ 2 + 0 * 2 ^ 6) (1 + b2n dbl * 2 ^ 3) a.toNat d.toNat)
  | .atOr d a dbl ord scope => some (packHS 0x39 (ord.toNat + scope.toNat * 2 ^ 2 + 0 * 2 ^ 6) (2 + b2n dbl * 2 ^ 3) a.toNat d.toNat)
  | .atXor d a dbl ord scope => some (packHS 0x39 (ord.toNat + scope.toNat * 2 ^ 2 + 0 * 2 ^ 6) (3 + b2n dbl * 2 ^ 3) a.toNat d.toNat)
  | .atMin d a dbl ord scope => some (packHS 0x39 (ord.toNat + scope.toNat * 2 ^ 2 + 0 * 2 ^ 6) (4 + b2n dbl * 2 ^ 3) a.toNat d.toNat)
  | .atMax d a dbl ord scope => some (packHS 0x39 (ord.toNat + scope.toNat * 2 ^ 2 + 0 * 2 ^ 6) (5 + b2n dbl * 2 ^ 3) a.toNat d.toNat)
  | .atMinu d a dbl ord scope => some (packHS 0x39 (ord.toNat + scope.toNat * 2 ^ 2 + 1 * 2 ^ 6) (4 + b2n dbl * 2 ^ 3) a.toNat d.toNat)
  | .atMaxu d a dbl ord scope => some (packHS 0x39 (ord.toNat + scope.toNat * 2 ^ 2 + 1 * 2 ^ 6) (5 + b2n dbl * 2 ^ 3) a.toNat d.toNat)
  | .atXchg d a dbl ord scope => some (packHS 0x39 (ord.toNat + scope.toNat * 2 ^ 2 + 0 * 2 ^ 6) (6 + b2n dbl * 2 ^ 3) a.toNat d.toNat)
  | .atCas d a dbl ord scope => some (packHS 0x39 (ord.toNat + scope.toNat * 2 ^ 2 + 0 * 2 ^ 6) (7 + b2n dbl * 2 ^ 3) a.toNat d.toNat)
  | .atRed op natural d a dbl ord scope => some (packHS 0x39 (ord.toNat + scope.toNat * 2 ^ 2 + 2 ^ 5 + b2n natural * 2 ^ 6) (op.toNat + b2n dbl * 2 ^ 3) a.toNat d.toNat)
  | .fence ord scope => some (packHS 0x3A (ord.toNat + scope.toNat * 2 ^ 2) 0 0 0)
  | .fenceSc => some (packHS 0x3A 0x17 1 0 0)
  | .rbSurr a mask => some (packHS 0x3B mask.toNat 0 a.toNat 0)
  | .rbClaim a mask => some (packHS 0x3B mask.toNat 1 a.toNat 0)
  | .yield => some (packHS 0x3C 0 0 0 0)
  | .teamExit => some (packHS 0x3C 0 1 0 0)
  | .teamInfo d item => some (packHS 0x3C item.toNat 2 0 d.toNat)
  | .join d => some (packHS 0x3C 0 3 0 d.toNat)
  | .sysRd d num => some (packHS 0x3D num.toNat 0 0 d.toNat)
  | .sysWr a num => some (packHS 0x3D num.toNat 1 a.toNat 0)
  | .trap n => some (packHS 0x3D n.toNat 2 0 0)
  | .eret => some (packHS 0x3D 0 3 0 0)
  | .brk n => some (packHS 0x3D n.toNat 4 0 0)
  | .halt a => some (packHS 0x3D 0 5 a.toNat 0)
  | .tlbInv a => some (packHS 0x3E 0 0 a.toNat 0)
  | .tlbInvAll => some (packHS 0x3E 1 0 0 0)
  | .pgProbe d a => some (packHS 0x3E 0 1 a.toNat d.toNat)
  | .li d imm => some (packL 0x01 imm.toNat 0 0 0 d.toNat)
  | .liHi d imm => some (packL 0x01 imm.toNat 1 0 0 d.toNat)
  | .lea d a seg imm => some (packL 0x02 imm.toNat 0 seg.toNat a.toNat d.toNat)
  | .lds d a seg size imm => some (packL 0x03 imm.toNat size.toNat seg.toNat a.toNat d.toNat)
  | .sts g a seg size imm => some (packL 0x04 imm.toNat size.toNat seg.toNat a.toNat g.toNat)
  | .fma p rnd d a b c => some (packL 0x05 (b.toNat + c.toNat * 2 ^ 6 + rnd.toNat * 2 ^ 12 + b2n p * 2 ^ 15 + 0 * 2 ^ 16) 0 0 a.toNat d.toNat)
  | .fms p rnd d a b c => some (packL 0x05 (b.toNat + c.toNat * 2 ^ 6 + rnd.toNat * 2 ^ 12 + b2n p * 2 ^ 15 + 1 * 2 ^ 16) 0 0 a.toNat d.toNat)
  | .fnma p rnd d a b c => some (packL 0x05 (b.toNat + c.toNat * 2 ^ 6 + rnd.toNat * 2 ^ 12 + b2n p * 2 ^ 15 + 2 * 2 ^ 16) 0 0 a.toNat d.toNat)
  | .fnms p rnd d a b c => some (packL 0x05 (b.toNat + c.toNat * 2 ^ 6 + rnd.toNat * 2 ^ 12 + b2n p * 2 ^ 15 + 3 * 2 ^ 16) 0 0 a.toNat d.toNat)
  | .qPush d a f => some (packL 0x06 (packPush 0 f) f.gsel.toNat 0 a.toNat d.toNat)
  | .qPushEos d a f => some (packL 0x06 (packPush 1 f) f.gsel.toNat 0 a.toNat d.toNat)
  | .qPushNop d a f => some (packL 0x06 (packPush 2 f) f.gsel.toNat 0 a.toNat d.toNat)
  | .qSplit d a f => some (packL 0x07 (packPush 0 f) f.gsel.toNat 0 a.toNat d.toNat)
  | .qWin n => some (packL 0x08 n.toNat 0 0 0 0)
  | .qWinReg a => some (packL 0x08 0 1 0 a.toNat 0)
  | .shpReq d a sh pol td fmt => some (packL 0x09 fmt.toNat (sh.toNat + pol.toNat * 2 ^ 3 + 0 * 2 ^ 5 + td.toNat * 2 ^ 6) 0 a.toNat d.toNat)
  | .shpReqV d a sh pol td fmt => some (packL 0x09 fmt.toNat (sh.toNat + pol.toNat * 2 ^ 3 + 1 * 2 ^ 5 + td.toNat * 2 ^ 6) 0 a.toNat d.toNat)
  | .shpSetCopy dst src => some (packL 0x0A 0 (dst.toNat + src.toNat * 2 ^ 3) 0 0 0)
  | .shpSetClr dst => some (packL 0x0A 0 (dst.toNat + 1 * 2 ^ 6) 0 0 0)
  | .shpSetLd dst a => some (packL 0x0A 0 (dst.toNat + 2 * 2 ^ 6) 0 a.toNat 0)
  | .shpSetTail dst imm => some (packL 0x0A imm.toNat (dst.toNat + 3 * 2 ^ 6) 0 0 0)
  | .cpCopy d a ch ord seg imm => some (packL 0x0B imm.toNat (0 + ord.toNat * 2 ^ 4 + ch.toNat * 2 ^ 6) seg.toNat a.toNat d.toNat)
  | .cpGath d a ch ord seg imm => some (packL 0x0B imm.toNat (1 + ord.toNat * 2 ^ 4 + ch.toNat * 2 ^ 6) seg.toNat a.toNat d.toNat)
  | .cpScat d a ch ord seg imm => some (packL 0x0B imm.toNat (2 + ord.toNat * 2 ^ 4 + ch.toNat * 2 ^ 6) seg.toNat a.toNat d.toNat)
  | .cpFill d a ch ord seg imm => some (packL 0x0B imm.toNat (3 + ord.toNat * 2 ^ 4 + ch.toNat * 2 ^ 6) seg.toNat a.toNat d.toNat)
  | .cpScale d a ch ord seg imm => some (packL 0x0B imm.toNat (4 + ord.toNat * 2 ^ 4 + ch.toNat * 2 ^ 6) seg.toNat a.toNat d.toNat)
  | .cpColl d a ch ord seg imm => some (packL 0x0B imm.toNat (5 + ord.toNat * 2 ^ 4 + ch.toNat * 2 ^ 6) seg.toNat a.toNat d.toNat)
  | .cpDisp d a ch ord seg imm => some (packL 0x0B imm.toNat (6 + ord.toNat * 2 ^ 4 + ch.toNat * 2 ^ 6) seg.toNat a.toNat d.toNat)
  | .cpReplay d a => some (packL 0x0B 0 7 0 a.toNat d.toNat)
  | .cpReplayDiscard d a => some (packL 0x0B 0 0x47 0 a.toNat d.toNat)
  | .cpStat d a ch => some (packL 0x0B 0 (8 + ch.toNat * 2 ^ 6) 0 a.toNat d.toNat)
  | .nestLaunch d a flag queue seg imm => some (packL 0x0C imm.toNat (queue.toNat + b2n flag * 2 ^ 6) seg.toNat a.toNat d.toNat)
  | .fork d a flag queue seg imm => some (packL 0x0D imm.toNat (queue.toNat + b2n flag * 2 ^ 7) seg.toNat a.toNat d.toNat)
  | .fmtSet a n => some (packL 0x0E 0 n.toNat 0 a.toNat 0)
  | .rgInit a ring space seg base => some (packL 0x0F base.toNat (ring.toNat + space.toNat * 2 ^ 4) seg.toNat a.toNat 0)
  | .wpInitAlloc d a life aexp die here => some (packL 0x10 (aexp.toNat + die.toNat * 2 ^ 16 + b2n here * 2 ^ 18) 0 life.toNat a.toNat d.toNat)
  | .wpInitReset d a aexp => some (packL 0x10 aexp.toNat 1 0 a.toNat d.toNat)
  | .wpInitFree d => some (packL 0x10 0 2 0 0 d.toNat)
  | .segBindLd n a => some (packL 0x11 0 0 n.toNat a.toNat 0)
  | .segBindNarrow n src a keep => some (packL 0x11 keep.toNat (1 + src.toNat * 2 ^ 2) n.toNat a.toNat 0)
  | .pgMap d a dmask large => some (packL 0x12 0 (dmask.toNat + b2n large * 2 ^ 4) 0 a.toNat d.toNat)
  | .callx d idx => some (packL 0x13 idx.toNat 0 0 0 d.toNat)
  | .lnkSet a idx => some (packL 0x14 idx.toNat 0 0 a.toNat 0)
  | .fenceMk cq ce mx done scope => some (packL 0x15 0 (b2n cq + b2n ce * 2 + b2n mx * 2 ^ 2 + b2n done * 2 ^ 3 + scope.toNat * 2 ^ 4) 0 0 0)
  | .lLd _ => none
  | .lLdg _ => none
  | .lGath _ => none
  | .lIcw _ => none
  | .lRgWfill _ => none
  | .lRgRelease _ => none
  | .lRgStat _ => none
  | .sSt _ => none
  | .sStg _ => none
  | .sScat _ => none
  | .sIcw _ => none
  | .sRgClaim _ => none
  | .sRgCommit _ => none
  | .sRgRelease _ => none
  | .sRgEos _ => none
  | .sRgAbort _ => none
  | .sRgStat _ => none
  | .vadd _ => none
  | .vsub _ => none
  | .vmul _ => none
  | .vmulh _ => none
  | .vmad _ => none
  | .vand _ => none
  | .vor _ => none
  | .vxor _ => none
  | .vshl _ => none
  | .vshr _ => none
  | .vsha _ => none
  | .vmin _ => none
  | .vmax _ => none
  | .vsel _ => none
  | .vmov _ => none
  | .vmovI _ => none
  | .vmovH _ => none
  | .vmovL _ => none
  | .vicmp _ => none
  | .vfadd _ => none
  | .vfsub _ => none
  | .vfmul _ => none
  | .vfma _ => none
  | .vfmin _ => none
  | .vfmax _ => none
  | .vfrcp _ => none
  | .vfrsq _ => none
  | .vfexp2 _ => none
  | .vflog2 _ => none
  | .vfcmp _ => none
  | .vcvt _ => none
  | .vcvtLong _ => none
  | .vpack _ => none
  | .vunpk _ => none
  | .vshuf _ => none
  | .vshufXor _ => none
  | .vshufRot _ => none
  | .vbcast _ => none
  | .vbcastY _ => none
  | .vred _ => none
  | .vscan _ => none
  | .vballot _ => none
  | .vkey _ => none
  | .mop _ => none
  | .cPsend _ => none
  | .mxGang _ => none
  | .mxLdb _ => none
  | .mxMma _ => none
  | .mxMmas _ => none
  | .mxGmma _ => none
  | .mxZero _ => none
  | .mxLdacc _ => none
  | .mxStacc _ => none
  | .mxRstep _ => none
  | .mxRsave _ => none
  | .mxRload _ => none
  | .xNop _ => none
  | .xSync _ => none
  | .xEnd _ => none
  | .xWparr _ => none
  | .xWpwait _ => none
  | .cqEntryStart _ _ _ => none
  | .cqEntryRetire _ => none
  | .eosPost _ _ => none
  | .markPost _ _ => none
  | .splitClose _ _ => none
  | .groupDeadlock _ _ => none
  | .engineHalt _ _ _ => none
  | .vectorEntry _ => none
  | .copyCommandStart _ _ => none
  | .copySectorComplete _ _ _ => none
  | .expertCountHalving _ => none
  | .copyCommandEnd _ _ => none
  | .collPhaseWaitEnd _ _ => none
  | .gangRendezvous _ _ => none
  | .matrixOpStart _ => none
  | .matrixOpComplete _ => none
  | .waypointArrival _ => none
  | .waiterRetest _ => none
  | .writeTokenTransfer _ _ => none
  | .fenceScGrant _ => none
  | .poolFill _ => none
  | .tlbPrefetch _ _ _ => none
  | .nestDispatch _ => none
  | .teamPlacement => none
  | .teamDeschedule _ => none
  | .teamResume _ => none
  | .preemptionRequest _ => none
  | .nodeSwapOut _ => none
  | .preemptionDeadline _ => none
  | .nestCompletion _ => none
  | .bayRetirement _ => none
  | .faultRecordPost => none
  | .mboxStatus => none
  | .mboxRetest _ => none
  | .mboxRouteSet => none
  | .mboxRouteGet => none
  | .mboxTeamEnd => none
  | .reldbWrite _ _ => none
  | .poolpushWrite _ _ => none
  | .fqconsWrite _ => none
  | .lqpriWrite _ _ => none
  | .dctbaseWrite _ => none
  | .secfgWrite _ _ _ => none
  | .registerWrite _ _ _ => none
  | .moduleReset _ => none
  | .hostCxlMemAccess _ _ _ _ => none
  | .cxlCacheSnoop _ _ _ _ => none
  | .peerRequest _ _ _ _ => none
  | .rhumbFlitReceive _ _ => none
  | .linkDown _ => none
  | .laneSpareSwitch _ _ => none
  | .linkRetrainComplete _ => none
  | .peerResponseTimeout _ => none
  | .monitorReport _ => none
  | .thresholdCrossing _ _ => none
  | .dieDegradeOut _ => none
  | .dieEdgeFailure _ => none
  | .thermalClockStep _ _ => none
  | .thermalStop => none
  | .accessPerformed _ _ _ _ => none
  | .unassignedHelmWord => none
  | .unassignedStrandWord _ => none
  | .contextDestruction _ => none
  | .doeSpdmRequest _ => none
  | .junctionCooling _ _ => none

/-- The number of a strand instruction's word; `none` for what is no strand word (R47 to R53). -/
def strandWord : Instr → Option Nat
  | .add _ _ _ => none
  | .sub _ _ _ => none
  | .and_ _ _ _ => none
  | .or_ _ _ _ => none
  | .xor _ _ _ => none
  | .shl _ _ _ => none
  | .shr _ _ _ => none
  | .sha _ _ _ => none
  | .mul _ _ _ => none
  | .mulh _ _ _ => none
  | .mulhu _ _ _ => none
  | .div _ _ _ => none
  | .divu _ _ _ => none
  | .rem _ _ _ => none
  | .remu _ _ _ => none
  | .min _ _ _ => none
  | .minu _ _ _ => none
  | .max _ _ _ => none
  | .maxu _ _ _ => none
  | .slt _ _ _ => none
  | .sltu _ _ _ => none
  | .clz _ _ => none
  | .popc _ _ => none
  | .bext _ _ _ => none
  | .bins _ _ _ => none
  | .addi _ _ _ => none
  | .andi _ _ _ => none
  | .ori _ _ _ => none
  | .xori _ _ _ => none
  | .slti _ _ _ => none
  | .shli _ _ _ => none
  | .shri _ _ _ => none
  | .shai _ _ _ => none
  | .fadd _ _ _ _ => none
  | .fsub _ _ _ _ => none
  | .fmul _ _ _ _ => none
  | .fdiv _ _ _ _ => none
  | .fsqrt _ _ _ => none
  | .fmin _ _ _ _ => none
  | .fmax _ _ _ _ => none
  | .fclass _ _ _ => none
  | .fcmpEq _ _ _ _ => none
  | .fcmpLt _ _ _ _ => none
  | .fcmpLe _ _ _ _ => none
  | .fcmpUn _ _ _ _ => none
  | .fcvtLP _ _ _ _ => none
  | .fcvtNP _ _ _ _ => none
  | .fcvtPL _ _ _ _ => none
  | .fcvtPN _ _ _ _ => none
  | .fcvtSD _ _ _ => none
  | .fcvtDS _ _ _ => none
  | .bEq _ _ _ => none
  | .bNe _ _ _ => none
  | .bLt _ _ _ => none
  | .bGe _ _ _ => none
  | .bLtu _ _ _ => none
  | .bGeu _ _ _ => none
  | .j _ => none
  | .call _ _ => none
  | .callr _ _ => none
  | .ret _ => none
  | .hloop _ _ => none
  | .ld _ _ _ _ => none
  | .st _ _ _ _ => none
  | .ldAcq _ _ _ _ => none
  | .stRel _ _ _ _ => none
  | .qPopr _ => none
  | .qPeek _ => none
  | .qOccCq _ => none
  | .qOccRq _ => none
  | .qJoin _ => none
  | .qMark _ _ => none
  | .shpGet _ _ _ => none
  | .shpTail _ _ _ => none
  | .rgClaim _ _ _ => none
  | .rgCommit _ _ _ => none
  | .rgWfill _ _ _ => none
  | .rgRelease _ _ _ => none
  | .rgEos _ _ => none
  | .rgAbort _ => none
  | .rgStat _ _ => none
  | .wpArrive _ _ _ _ => none
  | .wpExpect _ _ => none
  | .wpWait _ _ _ _ => none
  | .wpTest _ _ _ _ => none
  | .wpStat _ _ => none
  | .atAdd _ _ _ _ _ => none
  | .atAnd _ _ _ _ _ => none
  | .atOr _ _ _ _ _ => none
  | .atXor _ _ _ _ _ => none
  | .atMin _ _ _ _ _ => none
  | .atMax _ _ _ _ _ => none
  | .atMinu _ _ _ _ _ => none
  | .atMaxu _ _ _ _ _ => none
  | .atXchg _ _ _ _ _ => none
  | .atCas _ _ _ _ _ => none
  | .atRed _ _ _ _ _ _ _ => none
  | .fence _ _ => none
  | .fenceSc => none
  | .rbSurr _ _ => none
  | .rbClaim _ _ => none
  | .yield => none
  | .teamExit => none
  | .teamInfo _ _ => none
  | .join _ => none
  | .sysRd _ _ => none
  | .sysWr _ _ => none
  | .trap _ => none
  | .eret => none
  | .brk _ => none
  | .halt _ => none
  | .tlbInv _ => none
  | .tlbInvAll => none
  | .pgProbe _ _ => none
  | .li _ _ => none
  | .liHi _ _ => none
  | .lea _ _ _ _ => none
  | .lds _ _ _ _ _ => none
  | .sts _ _ _ _ _ => none
  | .fma _ _ _ _ _ _ => none
  | .fms _ _ _ _ _ _ => none
  | .fnma _ _ _ _ _ _ => none
  | .fnms _ _ _ _ _ _ => none
  | .qPush _ _ _ => none
  | .qPushEos _ _ _ => none
  | .qPushNop _ _ _ => none
  | .qSplit _ _ _ => none
  | .qWin _ => none
  | .qWinReg _ => none
  | .shpReq _ _ _ _ _ _ => none
  | .shpReqV _ _ _ _ _ _ => none
  | .shpSetCopy _ _ => none
  | .shpSetClr _ => none
  | .shpSetLd _ _ => none
  | .shpSetTail _ _ => none
  | .cpCopy _ _ _ _ _ _ => none
  | .cpGath _ _ _ _ _ _ => none
  | .cpScat _ _ _ _ _ _ => none
  | .cpFill _ _ _ _ _ _ => none
  | .cpScale _ _ _ _ _ _ => none
  | .cpColl _ _ _ _ _ _ => none
  | .cpDisp _ _ _ _ _ _ => none
  | .cpReplay _ _ => none
  | .cpReplayDiscard _ _ => none
  | .cpStat _ _ _ => none
  | .nestLaunch _ _ _ _ _ _ => none
  | .fork _ _ _ _ _ _ => none
  | .fmtSet _ _ => none
  | .rgInit _ _ _ _ _ => none
  | .wpInitAlloc _ _ _ _ _ _ => none
  | .wpInitReset _ _ _ => none
  | .wpInitFree _ => none
  | .segBindLd _ _ => none
  | .segBindNarrow _ _ _ _ => none
  | .pgMap _ _ _ _ => none
  | .callx _ _ => none
  | .lnkSet _ _ => none
  | .fenceMk _ _ _ _ _ => none
  | .lLd w => some (packStrand 0 0x01 w)
  | .lLdg w => some (packStrand 0 0x02 w)
  | .lGath w => some (packStrand 0 0x03 w)
  | .lIcw w => some (packStrand 0 0x08 w)
  | .lRgWfill w => some (packStrand 0 0x10 w)
  | .lRgRelease w => some (packStrand 0 0x11 w)
  | .lRgStat w => some (packStrand 0 0x12 w)
  | .sSt w => some (packStrand 2 0x01 w)
  | .sStg w => some (packStrand 2 0x02 w)
  | .sScat w => some (packStrand 2 0x03 w)
  | .sIcw w => some (packStrand 2 0x08 w)
  | .sRgClaim w => some (packStrand 2 0x10 w)
  | .sRgCommit w => some (packStrand 2 0x11 w)
  | .sRgRelease w => some (packStrand 2 0x12 w)
  | .sRgEos w => some (packStrand 2 0x13 w)
  | .sRgAbort w => some (packStrand 2 0x14 w)
  | .sRgStat w => some (packStrand 2 0x15 w)
  | .vadd w => some (packStrand 1 0x00 w)
  | .vsub w => some (packStrand 1 0x01 w)
  | .vmul w => some (packStrand 1 0x02 w)
  | .vmulh w => some (packStrand 1 0x03 w)
  | .vmad w => some (packStrand 1 0x04 w)
  | .vand w => some (packStrand 1 0x05 w)
  | .vor w => some (packStrand 1 0x06 w)
  | .vxor w => some (packStrand 1 0x07 w)
  | .vshl w => some (packStrand 1 0x08 w)
  | .vshr w => some (packStrand 1 0x09 w)
  | .vsha w => some (packStrand 1 0x0A w)
  | .vmin w => some (packStrand 1 0x0B w)
  | .vmax w => some (packStrand 1 0x0C w)
  | .vsel w => some (packStrand 1 0x0D w)
  | .vmov w => some (packStrand 1 0x0E w)
  | .vmovI w => some (packStrand 1 0x0E w)
  | .vmovH w => some (packStrand 1 0x0E w)
  | .vmovL w => some (packStrand 1 0x0E w)
  | .vicmp w => some (packStrand 1 0x0F w)
  | .vfadd w => some (packStrand 1 0x10 w)
  | .vfsub w => some (packStrand 1 0x11 w)
  | .vfmul w => some (packStrand 1 0x12 w)
  | .vfma w => some (packStrand 1 0x13 w)
  | .vfmin w => some (packStrand 1 0x14 w)
  | .vfmax w => some (packStrand 1 0x15 w)
  | .vfrcp w => some (packStrand 1 0x16 w)
  | .vfrsq w => some (packStrand 1 0x17 w)
  | .vfexp2 w => some (packStrand 1 0x18 w)
  | .vflog2 w => some (packStrand 1 0x19 w)
  | .vfcmp w => some (packStrand 1 0x1A w)
  | .vcvt w => some (packStrand 1 0x1B w)
  | .vcvtLong w => some (packStrand 1 0x1B w)
  | .vpack w => some (packStrand 1 0x1C w)
  | .vunpk w => some (packStrand 1 0x1D w)
  | .vshuf w => some (packStrand 1 0x1E w)
  | .vshufXor w => some (packStrand 1 0x1E w)
  | .vshufRot w => some (packStrand 1 0x1E w)
  | .vbcast w => some (packStrand 1 0x1F w)
  | .vbcastY w => some (packStrand 1 0x1F w)
  | .vred w => some (packStrand 1 0x20 w)
  | .vscan w => some (packStrand 1 0x21 w)
  | .vballot w => some (packStrand 1 0x22 w)
  | .vkey w => some (packStrand 1 0x23 w)
  | .mop w => some (packStrand 1 0x24 w)
  | .cPsend w => some (packStrand 1 0x28 w)
  | .mxGang w => some (packStrand 1 0x30 w)
  | .mxLdb w => some (packStrand 1 0x31 w)
  | .mxMma w => some (packStrand 1 0x32 w)
  | .mxMmas w => some (packStrand 1 0x33 w)
  | .mxGmma w => some (packStrand 1 0x34 w)
  | .mxZero w => some (packStrand 1 0x35 w)
  | .mxLdacc w => some (packStrand 1 0x36 w)
  | .mxStacc w => some (packStrand 1 0x37 w)
  | .mxRstep w => some (packStrand 1 0x38 w)
  | .mxRsave w => some (packStrand 1 0x39 w)
  | .mxRload w => some (packStrand 1 0x3A w)
  | .xNop w => some (packStrand 3 0x00 w)
  | .xSync w => some (packStrand 3 0x01 w)
  | .xEnd w => some (packStrand 3 0x02 w)
  | .xWparr w => some (packStrand 3 0x03 w)
  | .xWpwait w => some (packStrand 3 0x04 w)
  | .cqEntryStart _ _ _ => none
  | .cqEntryRetire _ => none
  | .eosPost _ _ => none
  | .markPost _ _ => none
  | .splitClose _ _ => none
  | .groupDeadlock _ _ => none
  | .engineHalt _ _ _ => none
  | .vectorEntry _ => none
  | .copyCommandStart _ _ => none
  | .copySectorComplete _ _ _ => none
  | .expertCountHalving _ => none
  | .copyCommandEnd _ _ => none
  | .collPhaseWaitEnd _ _ => none
  | .gangRendezvous _ _ => none
  | .matrixOpStart _ => none
  | .matrixOpComplete _ => none
  | .waypointArrival _ => none
  | .waiterRetest _ => none
  | .writeTokenTransfer _ _ => none
  | .fenceScGrant _ => none
  | .poolFill _ => none
  | .tlbPrefetch _ _ _ => none
  | .nestDispatch _ => none
  | .teamPlacement => none
  | .teamDeschedule _ => none
  | .teamResume _ => none
  | .preemptionRequest _ => none
  | .nodeSwapOut _ => none
  | .preemptionDeadline _ => none
  | .nestCompletion _ => none
  | .bayRetirement _ => none
  | .faultRecordPost => none
  | .mboxStatus => none
  | .mboxRetest _ => none
  | .mboxRouteSet => none
  | .mboxRouteGet => none
  | .mboxTeamEnd => none
  | .reldbWrite _ _ => none
  | .poolpushWrite _ _ => none
  | .fqconsWrite _ => none
  | .lqpriWrite _ _ => none
  | .dctbaseWrite _ => none
  | .secfgWrite _ _ _ => none
  | .registerWrite _ _ _ => none
  | .moduleReset _ => none
  | .hostCxlMemAccess _ _ _ _ => none
  | .cxlCacheSnoop _ _ _ _ => none
  | .peerRequest _ _ _ _ => none
  | .rhumbFlitReceive _ _ => none
  | .linkDown _ => none
  | .laneSpareSwitch _ _ => none
  | .linkRetrainComplete _ => none
  | .peerResponseTimeout _ => none
  | .monitorReport _ => none
  | .thresholdCrossing _ _ => none
  | .dieDegradeOut _ => none
  | .dieEdgeFailure _ => none
  | .thermalClockStep _ _ => none
  | .thermalStop => none
  | .accessPerformed _ _ _ _ => none
  | .unassignedHelmWord => none
  | .unassignedStrandWord _ => none
  | .contextDestruction _ => none
  | .doeSpdmRequest _ => none
  | .junctionCooling _ _ => none

/-- The bytes of an instruction's word; none for an instruction that no word encodes. -/
def encode (i : Instr) : List Byte :=
  match helmWord i, strandWord i with
  | some w, _ => leBytes (helmBytes w) w
  | none, some w => leBytes (strandBytes w) w
  | none, none => []

end Sys2Proof
end

