-- ==== Sys2Proof/Config.lean ====
section
/-! DEFINITION. The free values of the model: constants with no body, one for each point the spec leaves open. No statement
can rest on a value of one (notes/assumptions names the entry of each). -/

namespace Sys2Proof.Config

/-- Which of `n` allowed outcomes happens at a free choice; applied to the counter `tick` (log 2, log 7). -/
opaque pick : Nat → Nat → Nat

/-- The move made when none is laid down; applied to the counter `tick` (log 2). -/
opaque nextMove : Nat → Move

/-- The bay clocks that have passed since sys.clock was last read (R104; log 4). -/
opaque clockAdvance : Nat → Nat

/-- CRC-64 of the 248 bytes of a Rhumb flit: the spec gives no polynomial (R430; log 20). -/
opaque crc64 : List Byte → W64

/-- The payload of a flit that the part sends: the spec gives its size, not its layout (R430; log 20). -/
opaque flitPayload : Nat → List Byte

/-- The answer to a CMA/SPDM message: the spec gives no message layout (R426; log 21). -/
opaque spdmAnswer : Nat → Nat → List Byte → List Byte

/-- CONF, VALUE and UNIT of a health-log entry that the part writes for a repair, harbour entry or rejected frame (R436; log 36). -/
opaque healthReading : Nat → Byte × W32 × BitVec 12

/-- The seconds that have passed since the last health-log entry (R436; log 36). -/
opaque secondsPassed : Nat → Nat

/-- The bytes of device HBM after a module reset (R433; log 37). -/
opaque hbmAfterReset : Nat → List (Nat × Byte)

/-- The word's field of a lane operation of Zwibel text that neither its modifier nor an operand gives; applied to its OPC and its index in the
block (R423; log 86). -/
opaque zwibelField : Nat → Nat → Nat

/-- What the part writes from offset 0 of a team block: the spec gives no layout (R382, R385; log 31). -/
opaque blockImage : Nat → List Byte

/-- The resolved operands of a queued matrix operation in a dump image: the spec gives no layout (R411; log 33). -/
opaque operandImage : Nat → List Byte

/-- Base and limit of seg15 in a device context (R354, R382; log 32). -/
opaque linkBase : Nat → Nat
opaque linkLimit : Nat → Nat

end Sys2Proof.Config
end

