-- ==== Sys2Proof/Machine/Float.lean ====
section
/-! DEFINITION. Number formats, rounding and conversion (03_formats.md R65 to R92), over exact arithmetic on natural numbers and
integers. A real that is not a binary fraction is held as a truncated magnitude with a sticky mark. -/

namespace Sys2Proof.Machine

/-! ### Formats -/

/-- A binary floating-point format (R67): exponent and fraction bits, infinities, NaNs. -/
structure Fp where
  expBits : Nat
  fracBits : Nat
  hasInf : Bool
  hasNaN : Bool
deriving DecidableEq, Repr

def fp32 : Fp := { expBits := 8, fracBits := 23, hasInf := true, hasNaN := true }
def fp64 : Fp := { expBits := 11, fracBits := 52, hasInf := true, hasNaN := true }
def fp16 : Fp := { expBits := 5, fracBits := 10, hasInf := true, hasNaN := true }
def fpBf16 : Fp := { expBits := 8, fracBits := 7, hasInf := true, hasNaN := true }
def fpE4m3 : Fp := { expBits := 4, fracBits := 3, hasInf := false, hasNaN := true }
def fpE5m2 : Fp := { expBits := 5, fracBits := 2, hasInf := true, hasNaN := true }
def fpE2m1 : Fp := { expBits := 2, fracBits := 1, hasInf := false, hasNaN := false }
def fpE3m2 : Fp := { expBits := 3, fracBits := 2, hasInf := false, hasNaN := false }
def fpE2m3 : Fp := { expBits := 2, fracBits := 3, hasInf := false, hasNaN := false }

def Fp.bits (f : Fp) : Nat := 1 + f.expBits + f.fracBits
def Fp.bias (f : Fp) : Nat := 2 ^ (f.expBits - 1) - 1
def Fp.expMax (f : Fp) : Nat := 2 ^ f.expBits - 1
def Fp.signBit (f : Fp) : Nat := 2 ^ (f.expBits + f.fracBits)
/-- The quiet bit of a NaN (R68). -/
def Fp.quietBit (f : Fp) : Nat := 2 ^ (f.fracBits - 1)
/-- The code of +∞. -/
def Fp.infCode (f : Fp) : Nat := f.expMax * 2 ^ f.fracBits
/-- The code of the largest finite value (R67, R68). -/
def Fp.maxCode (f : Fp) : Nat :=
  if f.hasInf then f.infCode - 1 else if f.hasNaN then f.signBit - 2 else f.signBit - 1
def Fp.signed (f : Fp) (neg : Bool) (code : Nat) : Nat := if neg then f.signBit + code else code
/-- The canonical NaN (R86); for f32 and f64 the NaN of R85 that carries no origin. -/
def Fp.canonicalNaN (f : Fp) : Nat := if f.hasInf then f.infCode + f.quietBit else f.signBit - 1

/-- The kind of a format code (R65). -/
inductive FmtKind where
  | float (f : Fp)
  /-- A substituted format, widened to e4m3; `bit` is its bit of sys.subst (R76, R77). -/
  | subst (f : Fp) (bit : Nat)
  | signed (bits : Nat)
  | natural (bits : Nat)
  | ai (bits : Nat)
  | h4
  /-- Unassigned or reserved. -/
  | none
deriving DecidableEq, Repr

def fmtKind (code : Nat) : FmtKind :=
  match code with
  | 0x00 => .float fp32
  | 0x01 => .float fp64
  | 0x02 => .float fp16
  | 0x03 => .float fpBf16
  | 0x04 => .float fpE4m3
  | 0x05 => .float fpE5m2
  | 0x06 => .signed 8
  | 0x07 => .ai 8
  | 0x08 => .signed 4
  | 0x09 => .ai 4
  | 0x0A => .h4
  | 0x0B => .signed 32
  | 0x0C => .natural 8
  | 0x0D => .natural 16
  | 0x0E => .natural 32
  | 0x10 => .subst fpE2m1 0
  | 0x11 => .subst fpE3m2 1
  | 0x12 => .subst fpE2m3 2
  | _ => .none

/-- Element bits of a format code (R65); 0 for a code that names no format. -/
def fmtBits (code : Nat) : Nat :=
  match fmtKind code with
  | .float f | .subst f _ => f.bits
  | .signed n | .natural n | .ai n => n
  | .h4 => 4
  | .none => 0

/-! ### Values -/

/-- An exact binary fraction `num · 2^exp`. -/
structure Dy where
  num : Int
  exp : Int
deriving DecidableEq, Repr

/-- Both numerators at the smaller exponent. -/
def Dy.align (a b : Dy) : Int × Int × Int :=
  let e := if a.exp ≤ b.exp then a.exp else b.exp
  (a.num * (2 ^ (a.exp - e).toNat : Nat), b.num * (2 ^ (b.exp - e).toNat : Nat), e)
def Dy.add (a b : Dy) : Dy := let (x, y, e) := a.align b; { num := x + y, exp := e }
def Dy.mul (a b : Dy) : Dy := { num := a.num * b.num, exp := a.exp + b.exp }
def Dy.neg (a : Dy) : Dy := { num := -a.num, exp := a.exp }
def Dy.lt (a b : Dy) : Bool := let (x, y, _) := a.align b; decide (x < y)
def Dy.eq (a b : Dy) : Bool := let (x, y, _) := a.align b; decide (x = y)
def Dy.ofInt (n : Int) : Dy := { num := n, exp := 0 }

/-- What a code of a floating format holds (R68). A finite value keeps the sign of its zero. -/
inductive FVal where
  | nan
  | inf (neg : Bool)
  | fin (neg : Bool) (num : Nat) (exp : Int)
deriving DecidableEq, Repr

def unpackFp (f : Fp) (code : Nat) : FVal :=
  let c := code % 2 ^ f.bits
  let neg := decide (f.signBit ≤ c)
  let e := c / 2 ^ f.fracBits % 2 ^ f.expBits
  let fr := c % 2 ^ f.fracBits
  let ulp : Int := 1 - (f.bias : Int) - (f.fracBits : Int)
  if f.hasInf && e == f.expMax then (if fr == 0 then .inf neg else .nan)
  else if f.hasNaN && !f.hasInf && c % f.signBit == f.signBit - 1 then .nan
  else if e == 0 then .fin neg fr ulp
  else .fin neg (2 ^ f.fracBits + fr) (ulp + (e : Int) - 1)

def isNaN (f : Fp) (code : Nat) : Bool := unpackFp f code == .nan
/-- A NaN operand as R85 propagates it. -/
def quieted (f : Fp) (code : Nat) : Nat :=
  if f.hasInf then Nat.lor (code % 2 ^ f.bits) f.quietBit else code % 2 ^ f.bits
def FVal.dy : FVal → Dy
  | .fin neg n e => { num := if neg then -(n : Int) else (n : Int), exp := e }
  | _ => { num := 0, exp := 0 }
def FVal.negative : FVal → Bool
  | .nan => false
  | .inf neg | .fin neg _ _ => neg
def FVal.isZero : FVal → Bool
  | .fin _ n _ => n == 0
  | _ => false
def FVal.isInf : FVal → Bool
  | .inf _ => true
  | _ => false

/-! ### RoundTo -/

/-- Does the mode step away from the truncated magnitude: `odd` its last bit, `half` -1, 0 or 1 as the discarded part is below, at
or above one half, `inexact` whether anything is discarded (R79, R33)? -/
def roundsUp (mode : Nat) (neg odd : Bool) (half : Int) (inexact : Bool) : Bool :=
  match mode with
  | 0 => decide (half > 0) || (half == 0 && odd)
  | 1 => false
  | 2 => inexact && !neg
  | 3 => inexact && neg
  | _ => decide (half ≥ 0)

/-- A magnitude `num · 2^exp`, a little more where `sticky`, as an integer count of `2^q` rounded by the mode. -/
def roundAt (mode : Nat) (neg : Bool) (num : Nat) (exp q : Int) (sticky : Bool) : Nat :=
  if q ≤ exp then num * 2 ^ (exp - q).toNat
  else
    let sh := (q - exp).toNat
    let t := num / 2 ^ sh
    let r := num % 2 ^ sh
    let h := 2 ^ (sh - 1)
    let half : Int := if r < h then -1 else if r == h && !sticky then 0 else 1
    if roundsUp mode neg (t % 2 == 1) half (r != 0 || sticky) then t + 1 else t

/-- The overflow result (R80). -/
def overflowCode (f : Fp) (mode : Nat) (sat neg : Bool) : Nat :=
  let toInf := match mode with
    | 0 | 4 => true
    | 1 => false
    | 2 => !neg
    | _ => neg
  f.signed neg (if sat || !toInf then f.maxCode else if f.hasInf then f.infCode else f.signBit - 1)

/-- RoundTo(fmt, mode, x) for a real of sign `neg` and magnitude `num · 2^exp`, a little more where `sticky` (R79, R80). -/
def roundTo (f : Fp) (mode : Nat) (sat neg : Bool) (num : Nat) (exp : Int) (sticky : Bool) : Nat :=
  if num == 0 then f.signed neg (if sticky && roundsUp mode neg false (-1) true then 1 else 0)
  else
    let emin : Int := 1 - (f.bias : Int)
    let e : Int := exp + (Nat.log2 num : Int)
    let q : Int := (if e < emin then emin else e) - (f.fracBits : Int)
    let n := roundAt mode neg num exp q sticky
    -- the code of n · 2^q: fraction and hidden bit add into the exponent field
    let code : Int := (q + (f.fracBits : Int) + (f.bias : Int) - 1) * (2 ^ f.fracBits : Nat) + (n : Int)
    if code ≤ (f.maxCode : Int) then f.signed neg code.toNat else overflowCode f mode sat neg

/-- RoundTo of an exact binary fraction, whose zero has the sign `zeroNeg`. -/
def roundDy (f : Fp) (mode : Nat) (sat zeroNeg : Bool) (x : Dy) : Nat :=
  roundTo f mode sat (if x.num = 0 then zeroNeg else decide (x.num < 0)) x.num.natAbs x.exp false

/-- An infinity as the result of a conversion (R80). -/
def convertInf (f : Fp) (sat neg : Bool) : Nat :=
  f.signed neg (if sat then f.maxCode else if f.hasInf then f.infCode else f.signBit - 1)

/-- The sign of an exactly zero sum: that of its terms where they agree, else +0, or -0 toward -∞ (R69). -/
def zeroSumSign (mode : Nat) (signs : List Bool) : Bool :=
  if signs.all id then !signs.isEmpty else if signs.all not then false else mode == 3

/-! ### Arithmetic. `origin` is the code of the origin NaN of the word (R83). -/

def originHash (obj off : Nat) : Nat :=
  let x := bitsOf obj 15 0
  let h := Nat.xor (Nat.xor (Nat.xor (bitsOf off 15 0) (bitsOf off 31 16)) (bitsOf off 47 32)) x
  let h := Nat.xor h (h * 128 % 65536)
  Nat.xor h (h / 512)

/-- R83 for f32. -/
def originNaN32 (lane hash : Nat) : Nat := 0x7FC00000 + lane % 64 * 2 ^ 16 + hash % 65536
/-- R83 for f64. -/
def originNaN64 (helm : Bool) (lane hash : Nat) : Nat :=
  0x7FF8000000000000 + b2n helm * 2 ^ 50 + lane % 64 * 2 ^ 40 + hash % 65536

/-- The first NaN among the operands, quieted (R85). -/
def firstNaN (f : Fp) (cs : List Nat) : Option Nat := (cs.find? (isNaN f)).map (quieted f)

/-- The code of an infinity. -/
def infOf (f : Fp) (neg : Bool) : Nat := f.signed neg f.infCode

/-- The exact product of two values that are no NaNs; `none` for 0 · ∞ (R110). -/
def mulVal (a b : FVal) : Option FVal :=
  let s := a.negative != b.negative
  match a, b with
  | .fin _ m e, .fin _ n g => some (.fin s (m * n) (e + g))
  | .inf _, b => if b.isZero then none else some (.inf s)
  | a, .inf _ => if a.isZero then none else some (.inf s)
  | _, _ => none

/-- The sum of two values that are no NaNs, rounded once (R69, R110). -/
def addVal (f : Fp) (mode : Nat) (sat : Bool) (origin : Nat) (a b : FVal) : Nat :=
  match a, b with
  | .inf s, .inf t => if s == t then infOf f s else origin
  | .inf s, _ => infOf f s
  | _, .inf t => infOf f t
  | a, b => roundDy f mode sat (zeroSumSign mode [a.negative, b.negative]) (a.dy.add b.dy)

def FVal.negate : FVal → FVal
  | .nan => .nan
  | .inf s => .inf (!s)
  | .fin s n e => .fin (!s) n e

/-- A product or other single value, rounded once. -/
def roundVal (f : Fp) (mode : Nat) (sat : Bool) (origin : Nat) : Option FVal → Nat
  | none | some .nan => origin
  | some (.inf s) => infOf f s
  | some (.fin s n e) => roundTo f mode sat s n e false

def fAdd (f : Fp) (mode : Nat) (sat : Bool) (origin a b : Nat) : Nat :=
  match firstNaN f [a, b] with
  | some n => n
  | none => addVal f mode sat origin (unpackFp f a) (unpackFp f b)

def fSub (f : Fp) (mode : Nat) (sat : Bool) (origin a b : Nat) : Nat :=
  match firstNaN f [a, b] with
  | some n => n
  | none => addVal f mode sat origin (unpackFp f a) (unpackFp f b).negate

def fMul (f : Fp) (mode : Nat) (sat : Bool) (origin a b : Nat) : Nat :=
  match firstNaN f [a, b] with
  | some n => n
  | none => roundVal f mode sat origin (mulVal (unpackFp f a) (unpackFp f b))

/-- Bits kept below the quotient, root or function value before rounding: more than any format needs. -/
def guardBits : Nat := 160

def fDiv (f : Fp) (mode : Nat) (sat : Bool) (origin a b : Nat) : Nat :=
  match firstNaN f [a, b] with
  | some n => n
  | none =>
    let x := unpackFp f a
    let y := unpackFp f b
    let s := x.negative != y.negative
    match x, y with
    | .inf _, .inf _ => origin
    | .inf _, _ => infOf f s
    | _, .inf _ => f.signed s 0
    | .fin _ m e, .fin _ n g =>
      if n == 0 then (if m == 0 then origin else infOf f s)
      else roundTo f mode sat s (m * 2 ^ guardBits / n) (e - g - guardBits) (m * 2 ^ guardBits % n != 0)
    | _, _ => origin

/-- Digits of the integer square root, from bit `k` down. -/
def sqrtDigits (n : Nat) : Nat → Nat → Nat
  | 0, r => r
  | k + 1, r => let t := r + 2 ^ k; sqrtDigits n k (if t * t ≤ n then t else r)

/-- The integer square root. -/
def natSqrt (n : Nat) : Nat := sqrtDigits n (Nat.log2 n / 2 + 1) 0

def fSqrt (f : Fp) (mode : Nat) (sat : Bool) (origin a : Nat) : Nat :=
  match firstNaN f [a] with
  | some n => n
  | none =>
    match unpackFp f a with
    | .nan => origin
    | .inf s => if s then origin else infOf f false
    | .fin s m e =>
      if m == 0 then f.signed s 0
      else if s then origin
      else
        let odd := e % 2 != 0
        let n := m * 2 ^ (2 * guardBits) * (if odd then 2 else 1)
        let e := if odd then e - 1 else e
        let r := natSqrt n
        roundTo f mode sat false r (e / 2 - guardBits) (r * r != n)

/-- `neg · (a · b) ± c` with one rounding (R114): `np` negates the product, `nc` the addend. -/
def fFma (f : Fp) (mode : Nat) (sat np nc : Bool) (origin a b c : Nat) : Nat :=
  match firstNaN f [a, b, c] with
  | some n => n
  | none =>
    match mulVal (unpackFp f a) (unpackFp f b) with
    | none => origin
    | some p =>
      let z := unpackFp f c
      addVal f mode sat origin (if np then p.negate else p) (if nc then z.negate else z)

/-- The order in which −0 lies below +0, as a key; both operands are no NaN (R111). -/
def fLess (f : Fp) (a b : Nat) : Bool :=
  match unpackFp f a, unpackFp f b with
  | .inf s, .inf t => s && !t
  | .inf s, _ => s
  | _, .inf t => !t
  | x, y => x.dy.lt y.dy || (x.isZero && y.isZero && x.negative && !y.negative)

/-- `fmin` (less) and `fmax` (R111). -/
def fMinMax (f : Fp) (less : Bool) (a b : Nat) : Nat :=
  match isNaN f a, isNaN f b with
  | true, true => quieted f a
  | true, false => b % 2 ^ f.bits
  | false, true => a % 2 ^ f.bits
  | false, false => if (if less then fLess f b a else fLess f a b) then b % 2 ^ f.bits else a % 2 ^ f.bits

/-- −1, 0 or 1 as a is below, equal to or above b; `none` when unordered (R112). -/
def fCompare (f : Fp) (a b : Nat) : Option Int :=
  match unpackFp f a, unpackFp f b with
  | .nan, _ => none
  | _, .nan => none
  | .inf s, .inf t => some (if s == t then 0 else if s then -1 else 1)
  | .inf s, _ => some (if s then -1 else 1)
  | _, .inf t => some (if t then 1 else -1)
  | x, y => some (if x.dy.lt y.dy then -1 else if x.dy.eq y.dy then 0 else 1)

/-- The class bit number of a code (R112). -/
def fClassBit (f : Fp) (a : Nat) : Nat :=
  let c := a % 2 ^ f.bits
  match unpackFp f c with
  | .nan => if Nat.land c f.quietBit == 0 then 8 else 9
  | .inf s => if s then 0 else 7
  | .fin s m _ =>
    if m == 0 then (if s then 3 else 4)
    else if m < 2 ^ f.fracBits then (if s then 2 else 5)
    else (if s then 1 else 6)

/-! ### Conversions -/

/-- A real rounded to an integer by the mode (R81). -/
def roundInt (mode : Nat) (neg : Bool) (num : Nat) (exp : Int) : Int :=
  let n := roundAt mode neg num exp 0 false
  if neg then -(n : Int) else (n : Int)

def clampInt (lo hi x : Int) : Int := if x < lo then lo else if hi < x then hi else x

/-- The range of a two's complement or natural format (R70). -/
def intRange (isSigned : Bool) (bits : Nat) : Int × Int :=
  if isSigned then (-(2 ^ (bits - 1) : Nat), (2 ^ (bits - 1) : Nat) - 1) else (0, (2 ^ bits : Nat) - 1)

/-- A floating value as an integer of the format, as a `bits`-bit code (R81). -/
def toIntCode (isSigned : Bool) (bits mode : Nat) (v : FVal) : Nat :=
  let (lo, hi) := intRange isSigned bits
  wrapOf bits (match v with
    | .nan => 0
    | .inf s => if s then lo else hi
    | .fin s n e => clampInt lo hi (roundInt mode s n e))

def intOfCode (isSigned : Bool) (bits code : Nat) : Int :=
  if isSigned then signedOf bits code else (code % 2 ^ bits : Nat)

/-- An origin offered to sys.nanorigin (R86, R87), but for the group, which the unit adds. -/
structure NanOffer where
  fmt : Nat
  helm : Bool
  lane : Nat
  hash : Nat
deriving DecidableEq, Repr

/-- The substituted code widened to the e4m3 code of the same value (R76). -/
def widenCode (f : Fp) (code : Nat) : Nat :=
  match unpackFp f code with
  | .fin s n e => roundTo fpE4m3 0 false s n e false
  | _ => 0

/-- A NaN of the source format as a value of the destination format (R85, R86), with the offer that a narrow result makes. -/
def convertNaN (src dst code : Nat) (d : Fp) : Nat × Option NanOffer :=
  let neg := b2n (bitOf code (if src == 1 then 63 else 31))
  if src == 0 && dst == 1 then (neg * 2 ^ 63 + 0x7FF8000000000000 + bitsOf code 21 16 * 2 ^ 40 + bitsOf code 15 0, none)
  else if src == 1 && dst == 0 then (neg * 2 ^ 31 + 0x7FC00000 + bitsOf code 45 40 * 2 ^ 16 + bitsOf code 15 0, none)
  else if dst ≤ 1 then (d.canonicalNaN, none)
  else if src == 0 then (d.canonicalNaN, some { fmt := dst, helm := false, lane := bitsOf code 21 16, hash := bitsOf code 15 0 })
  else if src == 1 then (d.canonicalNaN, some { fmt := dst, helm := bitOf code 50, lane := bitsOf code 45 40, hash := bitsOf code 15 0 })
  else (d.canonicalNaN, none)

/-- A source code converted to the destination format (R204): result code and offer. Both formats are accepted ones. -/
def convertFmt (src dst mode : Nat) (sat : Bool) (code : Nat) : Nat × Option NanOffer :=
  if src == dst then (code % 2 ^ fmtBits src, none) else
  let fromFloat (f : Fp) (srcCode c : Nat) : Nat × Option NanOffer :=
    match fmtKind dst with
    | .float d => match unpackFp f c with
      | .nan => convertNaN srcCode dst c d
      | .inf s => (convertInf d sat s, none)
      | .fin s n e => (roundTo d mode sat s n e false, none)
    | .signed b => (toIntCode true b mode (unpackFp f c), none)
    | .natural b => (toIntCode false b mode (unpackFp f c), none)
    | _ => (0, none)
  let fromInt (x : Int) : Nat × Option NanOffer :=
    let toInt (isSigned : Bool) (b : Nat) : Nat :=
      let (lo, hi) := intRange isSigned b
      wrapOf b (if sat then clampInt lo hi x else x)
    match fmtKind dst with
    | .float d => (roundDy d mode sat false (Dy.ofInt x), none)
    | .signed b => (toInt true b, none)
    | .natural b => (toInt false b, none)
    | _ => (0, none)
  match fmtKind src with
  | .float f => fromFloat f src code
  | .subst f _ => if dst == 4 then (widenCode f code, none) else fromFloat fpE4m3 4 (widenCode f code)
  | .signed b => fromInt (intOfCode true b code)
  | .natural b => fromInt (intOfCode false b code)
  | _ => (0, none)

/-! ### Functions of R201: the exact value rounded once. A fixed-point value has `fixBits` fraction bits, of which the low ones
absorb the truncations; `guardBits` of them are kept, with a sticky mark (log 8). -/

def fixBits : Nat := 320

/-- ⌊ln 2 · 2^320⌋. -/
def ln2Fix : Nat :=
  0xB17217F7D1CF79ABC9E3B39803F2F6AF40F343267298B62D8A0D175B8BAAFA2BE7B876206DEBAC98

/-- The sum of the terms t, t·x/1, t·x²/(1·2), …: exp(x) · t in fixed point. -/
def expTerms (x : Nat) : Nat → Nat → Nat → Nat
  | 0, _, _ => 0
  | k + 1, j, t => t + expTerms x k (j + 1) (t * x / 2 ^ fixBits / (j + 1))

/-- 2^y for a fixed-point 0 ≤ y < 1. -/
def exp2Fix (y : Nat) : Nat := expTerms (y * ln2Fix / 2 ^ fixBits) 80 0 (2 ^ fixBits)

/-- The sum z + z³/3 + z⁵/5 + … in fixed point; `p` the present power. -/
def atanhTerms (z2 : Nat) : Nat → Nat → Nat → Nat
  | 0, _, _ => 0
  | k + 1, j, p => p / (2 * j + 1) + atanhTerms z2 k (j + 1) (p * z2 / 2 ^ fixBits)

/-- log₂ of a fixed-point 1 ≤ m < 2. -/
def log2Fix (m : Nat) : Nat :=
  let one := 2 ^ fixBits
  let z := (m - one) * one / (m + one)
  2 * atanhTerms (z * z / one) 110 0 z * one / ln2Fix

def fExp2 (f : Fp) (mode : Nat) (sat : Bool) (a : Nat) : Nat :=
  match unpackFp f a with
  | .nan => quieted f a
  | .inf s => if s then 0 else infOf f false
  | .fin s n e =>
    if n == 0 then f.bias * 2 ^ f.fracBits
    else if 9 < e + (Nat.log2 n : Int) then
      -- |a| ≥ 2^10: beyond every finite value, or below every nonzero one
      (if s then roundTo f mode sat false 1 (-2048) true else overflowCode f mode sat false)
    else
      -- a in fixed point is exact: f32 has no bit below 2^-149
      let x := n * 2 ^ ((fixBits : Int) + e).toNat
      let x : Int := if s then -(x : Int) else (x : Int)
      let i := x / ((2 ^ fixBits : Nat) : Int)
      let y := (x % ((2 ^ fixBits : Nat) : Int)).toNat
      if y == 0 then roundTo f mode sat false 1 i false
      else roundTo f mode sat false (exp2Fix y / 2 ^ (fixBits - guardBits)) (i - guardBits) true

def fLog2 (f : Fp) (mode : Nat) (sat : Bool) (origin a : Nat) : Nat :=
  match unpackFp f a with
  | .nan => quieted f a
  | .inf s => if s then origin else infOf f false
  | .fin s n e =>
    if n == 0 then infOf f true
    else if s then origin
    else
      let k := Nat.log2 n
      let i : Int := e + (k : Int)
      let one : Int := ((2 ^ guardBits : Nat) : Int)
      if n == 2 ^ k then roundDy f mode sat false (Dy.ofInt i)
      else
        let y := log2Fix (n * 2 ^ fixBits / 2 ^ k) / 2 ^ (fixBits - guardBits)
        let v := i * one + (y : Int)
        -- the exact value lies strictly between v and v + 1, in units of 2^-guardBits
        if 0 ≤ v then roundTo f mode sat false v.toNat (-guardBits) true
        else roundTo f mode sat true (-(v + 1)).toNat (-guardBits) true

def fRcp (f : Fp) (mode : Nat) (sat : Bool) (a : Nat) : Nat :=
  fDiv f mode sat 0 (f.bias * 2 ^ f.fracBits) a

def fRsq (f : Fp) (mode : Nat) (sat : Bool) (origin a : Nat) : Nat :=
  match unpackFp f a with
  | .nan => quieted f a
  | .inf s => if s then origin else 0
  | .fin s n e =>
    if n == 0 then infOf f s
    else if s then origin
    else
      let odd := e % 2 != 0
      let m := if odd then 2 * n else n
      let e := if odd then e - 1 else e
      let big := 2 ^ (4 * guardBits)
      let r := natSqrt (big / m)
      roundTo f mode sat false r (-(e / 2) - 2 * guardBits) (r * r * m != big)

/-! ### Sums of many terms (R210, matrix sums) -/

/-- The exact state of a sum: the finite part, which infinities and signs were met, the first NaN (R210, R211). -/
structure FloatSum where
  sum : Dy
  posInf : Bool
  negInf : Bool
  nan : Option Nat
  /-- A term of negative sign, of positive sign, was met. -/
  sawNeg : Bool
  sawPos : Bool
deriving DecidableEq, Repr

def FloatSum.empty : FloatSum :=
  { sum := { num := 0, exp := 0 }, posInf := false, negInf := false, nan := none, sawNeg := false, sawPos := false }

/-- One more term; `code` is its code where it is a NaN. -/
def FloatSum.push (s : FloatSum) (f : Fp) (v : FVal) (code : Nat) : FloatSum :=
  match v with
  | .nan => { s with nan := s.nan.or (some (quieted f code)) }
  | .inf neg => if neg then { s with negInf := true } else { s with posInf := true }
  | .fin neg _ _ => { s with sum := s.sum.add v.dy, sawNeg := s.sawNeg || neg, sawPos := s.sawPos || !neg }

/-- The rounded sum; an invalid sum is `none`, and a NaN term prevails. -/
def FloatSum.round (s : FloatSum) (f : Fp) (mode : Nat) (sat : Bool) : Option Nat :=
  match s.nan with
  | some n => some n
  | none =>
    if s.posInf && s.negInf then none
    else if s.posInf then some (infOf f false)
    else if s.negInf then some (infOf f true)
    else some (roundDy f mode sat (if !s.sawPos then s.sawNeg else if !s.sawNeg then false else mode == 3) s.sum)

/-! ### The format table (R89, R90) -/

def fmtAF (x : Nat) : Nat := bitsOf x 31 27
def fmtBF (x : Nat) : Nat := bitsOf x 36 32
def fmtACCF (x : Nat) : Nat := bitsOf x 41 37
def fmtOUTF (x : Nat) : Nat := bitsOf x 46 42
def fmtGSIZE (x : Nat) : Nat := bitsOf x 48 47
def fmtSCL (x : Nat) : Bool := bitOf x 49
def fmtZP (x : Nat) : Bool := bitOf x 50
def fmtRND (x : Nat) : Nat := bitsOf x 53 51
def fmtSAT (x : Nat) : Bool := bitOf x 54
def fmtCOMP (x : Nat) : Bool := bitOf x 55

/-- Is a format-table entry in the table of R90, with its other fields legal? -/
def fmtEntryValid (x : Nat) : Bool :=
  let a := fmtAF x
  let b := fmtBF x
  let acc := fmtACCF x
  let out := fmtOUTF x
  let plain := !fmtSCL x && !fmtZP x
  let small := [0x04, 0x05, 0x10, 0x11, 0x12]
  bitsOf x 63 56 == 0 && bitsOf x 26 0 == 0 && decide (fmtRND x ≤ 4) && decide (fmtGSIZE x ≤ 2) &&
  (fmtSCL x || fmtGSIZE x == 0) &&
  (if small.contains a then small.contains b && acc == 0 && [0x00, 0x02, 0x03, 0x04, 0x05].contains out && plain
   else if a == 0x02 then b == 0x02 && acc == 0 && [0x00, 0x02].contains out && plain
   else if a == 0x03 then b == 0x03 && acc == 0 && [0x00, 0x03].contains out && plain
   else if a == 0x00 then b == 0x00 && acc == 0 && [0x00, 0x03].contains out && plain
   else if a == 0x01 then b == 0x01 && acc == 1 && [0x00, 0x01].contains out && plain && !fmtCOMP x
   else if a == 0x06 || a == 0x08 then (b == 0x06 || b == 0x08) && acc == 0x0B && [0x0B, 0x06].contains out && plain && !fmtCOMP x
   else if a == 0x07 || a == 0x09 then (b == 0x06 || b == 0x08) && acc == 0 && [0x00, 0x02, 0x03].contains out && fmtSCL x && fmtZP x
   else if a == 0x0A then (b == 0x06 || b == 0x08) && acc == 0 && [0x00, 0x02, 0x03].contains out && fmtSCL x && !fmtZP x
   else false)

end Sys2Proof.Machine
end

