-- ==== Sys2Proof/Machine/State.lean ====
section
/-! DEFINITION. The state of the Acnatric 9200 as plain data, the reasons to stop, and the state after reset. -/

namespace Sys2Proof.Machine

/-- The three engine kinds of a lane group (R25). -/
inductive EngKind where
  | l | s | c
deriving DecidableEq, Repr

/-! ### Parties and memory (11_writesets.md) -/

/-- A party of R302. A team is named by its key: device context · 2^16 + TID (14_scheduling.md R382). -/
inductive Party where
  | helm (team : Nat)
  | engine (team grp path : Nat) (eng : EngKind)
  /-- One run of a copy command: its number in the order of starts. -/
  | copy (run : Nat)
  /-- The synchronisation engine, page sequencer and nest walker of a die. -/
  | se (die : Nat)
  | host
  | peer (node : Nat)
deriving DecidableEq, Repr

/-- Where a party stands, for the scopes of R309: its team, group, bays and die as they were at the event. -/
structure Place where
  party : Party
  team : Nat
  grp : Nat
  /-- The bay it acts on, and every bay of its team. -/
  bay : Nat
  bays : List Nat
  die : Nat
  /-- Which start of a team that bore the key: a later team of the same key is another team. -/
  inst : Nat
deriving DecidableEq, Repr

/-- What a release carries to its acquirers (R304, R310, R314): the releaser, its scope, the writes that happen before it, and
those that would if R310 were lifted (R311). -/
structure Release where
  place : Place
  scope : Nat
  known : List Nat
  lifted : List Nat
deriving DecidableEq, Repr

/-- One write of a write set (R301). `known` and `lifted` are the writes that happen before it, with and without R310. -/
structure Write where
  id : Nat
  /-- The first location. -/
  loc : Nat
  bytes : List Byte
  place : Place
  /-- The initial write, which happens before every access (R301). -/
  bottom : Bool
  atomic : Bool
  known : List Nat
  lifted : List Nat
  /-- For each byte, the releases whose release sequence holds this write (R314). -/
  heads : List (List Release)
deriving DecidableEq, Repr

/-- A page of a context's address space (R301): the location and size of its bytes, and the write identifiers from which on the writes come
after its entry. -/
structure Entered where
  dctx : Nat
  loc : Nat
  size : Nat
  mark : Nat
deriving DecidableEq, Repr

/-- A write that a read returned at a location, with the domain of the region it was read in (R310, R314, R315). -/
structure Seen where
  id : Nat
  loc : Nat
  domain : Nat
deriving DecidableEq, Repr

/-- What a party knows (R306, R311), which writes its reads have returned at which bytes, and its release fences (R314). -/
structure Knowledge where
  party : Party
  known : List Nat
  lifted : List Nat
  seen : List Seen
  fences : List Release
deriving DecidableEq, Repr

/-- The private caches that keep version counters (R317). -/
inductive CacheId where
  | helm (bay : Nat)
  | landing (bay : Nat)
  | load (team grp : Nat)
deriving DecidableEq, Repr

/-- VC[team] to VC[system] of a cache (R317). -/
structure CacheCounters where
  cache : CacheId
  vc : List Nat
deriving DecidableEq, Repr

/-- One entry of a loaded region table (R319). -/
structure Region where
  base : Nat
  size : Nat
  domain : Nat
deriving DecidableEq, Repr

/-- The holder of the write token of a 4 KiB block of HBM (R322). -/
structure Token where
  block : Nat
  holder : TokenHolder
deriving DecidableEq, Repr

/-- A leaf held in a TLB (13_addresses.md R361): of the helm of a bay, or of a stream engine of a bay. -/
structure TlbEntry where
  bay : Nat
  helm : Bool
  aspace : Nat
  /-- VA[56:16], or VA[56:21] where large. -/
  page : Nat
  large : Bool
  leaf : Nat
deriving DecidableEq, Repr

/-! ### Queues and lane groups (06_queues.md, 07_lanes.md, 08_local.md) -/

/-- A shape register as fields of its 128-bit image (05_shapes.md R134). -/
structure Shape where
  reqm : Nat
  reqn : Nat
  reqk : Nat
  grm : Nat
  grn : Nat
  grk : Nat
  tailc : Nat
  chg : Bool
  valid : Bool
  td : Nat
  vector : Bool
  policy : Nat
  fmt : Nat
deriving DecidableEq, Repr

def Shape.zero : Shape :=
  { reqm := 0, reqn := 0, reqk := 0, grm := 0, grn := 0, grk := 0, tailc := 0, chg := false, valid := false, td := 0, vector := false,
    policy := 0, fmt := 0 }

/-- What a cq entry carries of the helm's state at its push: shapes, formats, segments, block views, realisation (R91, R146,
R152, R316, R355). -/
structure View where
  shapes : List Shape
  fmts : List W64
  segs : List W128
  mode : Bool
  regions : List Region
  /-- The REL edge: what the push releases (R158). -/
  release : Option Release
  /-- The object whose block table and strand text the entry runs: the kernel's, or for a service entry the pushing word's (R151,
  R368): its index, seg0 descriptor, BLKOFF and NBLK; and whether it is a service entry. -/
  obj : Nat
  text : W128
  blkOff : Nat
  nblk : Nat
  service : Bool
deriving DecidableEq, Repr

inductive EntryKind where
  | run | splitA | splitB | join | mark | eos | nop
deriving DecidableEq, Repr

/-- A cq entry (R151). `n` is the push number from team start, of which SEQ is the low 16 bits. -/
structure CqEntry where
  n : Nat
  kind : EntryKind
  block : Nat
  gsel : Nat
  trips : Nat
  tmask : W64
  arg0 : W32
  arg1 : W32
  layer : Nat
  rel : Bool
  rscope : Nat
  win : Nat
  tag : Nat
  view : View
deriving DecidableEq, Repr

/-- An rq entry (R166). -/
structure RqEntry where
  flags : Nat
  predv : W64
  block : Nat
  grp : Nat
  seq : Nat
  /-- The release of `c.psend` (R167). -/
  release : Option Release
deriving DecidableEq, Repr

/-- What a waiting engine, context or command waits for; recorded for R169, R175, R178 to R180 and the scheduler (R383). -/
inductive WaitFor where
  /-- A filled slot of lq or of sq, a free slot, or the path's slot limit. -/
  | slots
  /-- A token counter. -/
  | token
  /-- `x.sync`. -/
  | sync
  /-- At `x.end`: the other paths of a miss split (R177). -/
  | meet
  /-- At `c.psend`: earlier words of L and S (R167). -/
  | strand
  /-- The slip window. -/
  | slip
  /-- A path that the group must first open, run or close. -/
  | path
  /-- Accesses of the group itself to be performed, or an in-flight counter. -/
  | accesses
  /-- A full rq. -/
  | rqFull
  /-- A full cq. -/
  | cqFull
  /-- An empty rq. -/
  | rqEmpty
  /-- A ring slot of a descriptor: to claim, or to take. -/
  | ring (bay desc : Nat) (claim : Bool)
  /-- A waypoint phase, by handle. -/
  | waypoint (handle : Nat) (phase : Nat)
  /-- A page being filled. -/
  | poolFill
  /-- The markers of `fence.mk`. -/
  | fenceMk
  /-- A place in the order of `fence.sc`. -/
  | fenceSc
  /-- A copy channel that is full, or a held slot. -/
  | copyQueue
  /-- A launch queue of 1,024 launches. -/
  | launchQueue (queue : Nat)
  /-- cq entries, matrix operations or copy commands of the team that must finish first. -/
  | drain
  /-- Live children (R388). -/
  | children
  /-- Register blocks of the pool, or earlier entries of a surrender. -/
  | blocks
  /-- The matrix queue, a tile or a gang. -/
  | matrix
  /-- A full host fault queue. -/
  | faultQueue
  /-- A service entry not yet finished. -/
  | service
  /-- Accesses through an invalidated page. -/
  | invalidation
deriving DecidableEq, Repr

/-- A token pushed and not yet taken, with what its push releases at lane-group scope (R172, R190). -/
structure Tok where
  known : List Nat
  lifted : List Nat
  vc : List Nat
deriving DecidableEq, Repr

/-- What happens before the end of work whose accesses are performed: the writes known at those accesses, and their own (R349). -/
structure Past where
  known : List Nat
  lifted : List Nat
deriving DecidableEq, Repr

def Past.none : Past := { known := [], lifted := [] }

/-- What a word has done before its first repetition: its mask E and uniform base as read once (R191), and the tokens it took, each
with its counter (0 L→C, 1 C→L, 2 C→S, 3 S→C). -/
structure Latch where
  mask : W64
  base : Option W32
  toks : List (Nat × Tok)
deriving DecidableEq, Repr

/-- What the completion of a phase answers to a wait registered on it (R331, R332, R337): the handle, the phase waited for, the
record's phase after the completion, and the releases met. -/
structure Grant where
  handle : Nat
  waited : Nat
  phase : Nat
  releases : List Release
deriving DecidableEq, Repr

/-- One engine of a group (R155, R156, R173). For the L and S engines `path` is the path slot it serves. -/
structure Engine where
  /-- Push number of the entry in progress, or of the next entry it looks at. -/
  entry : Nat
  running : Bool
  off : Nat
  trip : Nat
  rep : Nat
  /-- Words passed since team start. -/
  passed : Nat
  path : Nat
  y : List W32
  latch : Option Latch
  /-- All repetitions of the word are issued; its token pushes remain. -/
  issued : Bool
  /-- Arrived at an x.sync and not yet past it. -/
  arrived : Bool
  halted : Bool
  waitFor : Option WaitFor
  /-- The watch exemption of a resumed word (R408). -/
  exempt : Bool
  /-- Tokens that waits took since the engine last had no access in flight, oldest first, each with its counter (R180). -/
  spent : List (Nat × Tok)
  /-- The engine's own number in the group's clocks, one for each path that it has served, and its orderings (R190). -/
  clk : Nat
  vc : List Nat
  /-- Of L and S under an open cq split: the orderings at the split while path A is served, and those that path A left while path B is. -/
  aside : List Nat
  /-- A registered wait that its phase's completion has ended (R331, R337). -/
  granted : Option Grant
  /-- Of a C engine: the copy runs whose release arrivals completed waits that it has passed, for the scale images they wrote (R291). -/
  imaged : List Nat
deriving DecidableEq, Repr

def Engine.fresh : Engine :=
  { entry := 0, running := false, off := 0, trip := 0, rep := 0, passed := 0, path := 0, y := [0, 0, 0, 0], latch := none,
    issued := false, arrived := false, halted := false, waitFor := none, exempt := false, spent := [], clk := 0, vc := [], aside := [], granted := none, imaged := [] }

/-- The partial result of a `vred` (R211). -/
structure Fold where
  /-- The operation is fadd, whose state is `sum`; of any other it is `run`. -/
  add : Bool
  sum : FloatSum
  run : Nat
deriving DecidableEq, Repr

/-- A `vred` between two repetitions (R211): its operation, the fold that a restored image brought, and the elements folded since, each
with its lane, in the order of repetitions and lanes. -/
structure Partial where
  op : Nat
  base : Option Fold
  elems : List (Nat × W32)
deriving DecidableEq, Repr

/-- A path slot (R176). `root` is the slot of the cq path a miss split came from (R177). -/
structure Path where
  live : Bool
  root : Nat
  c : Engine
  m0 : W64
  /-- The four token counters L→C, C→L, C→S, S→C, as the tokens they count, oldest first (R172). -/
  lc : List Tok
  cl : List Tok
  cs : List Tok
  sc : List Tok
  /-- Since the miss split (R177): waits on L→C and S→C taken and pushes to C→L and C→S made by this path; and, in the root path,
  the tokens that the first taker took, and the pushes that not every path has made. -/
  tookL : Nat
  tookS : Nat
  gaveL : Nat
  gaveS : Nat
  takenL : List Tok
  takenS : List Tok
  partL : List Tok
  partS : List Tok
  /-- Waypoint words of the engine passed since the miss split; and, in the root path, what the paths release at those that not every
  path has passed (R341). -/
  gaveX : Nat
  partX : List Tok
  fold : Option Partial
deriving DecidableEq, Repr

def Path.fresh : Path :=
  { live := false, root := 0, c := Engine.fresh, m0 := 0, lc := [], cl := [], cs := [], sc := [], tookL := 0, tookS := 0, gaveL := 0,
    gaveS := 0, takenL := [], takenS := [], partL := [], partS := [], gaveX := 0, partX := [], fold := none }

/-- A slot of lq or sq (R170, R171, R177). -/
structure Slot where
  id : Nat
  path : Nat
  elems : List W32
  /-- Lanes whose access has not returned; a slot is filled when none is left. -/
  pending : W64
  /-- Filled lane by lane by an `l.ldg` (R230). -/
  ldg : Bool
  /-- Paths that have popped an lq slot, or pushed into an sq slot. -/
  done : List Nat
deriving DecidableEq, Repr

/-- An `x.end` of a trip that engines have reached: which of them, and what they had done before it (R190, R231). -/
structure Ending where
  entry : Nat
  trip : Nat
  arrived : List EngKind
  known : List Nat
  lifted : List Nat
  vc : List Nat
deriving DecidableEq, Repr

/-- One lane's access of an issued repetition. -/
structure LaneAccess where
  lane : Nat
  loc : Nat
  addr : Nat
  value : W32
deriving DecidableEq, Repr

/-- Where a load repetition delivers. -/
inductive LoadDest where
  | reg (r : Nat)
  | lq (slot : Nat)
deriving DecidableEq, Repr

/-- An issued repetition, until its in-flight counter is lowered for it (R232); `done` once it is performed. One without a lane, of space
code 4, has no access to make and stands behind earlier ones of its engine. -/
structure Access where
  done : Bool
  eng : EngKind
  path : Nat
  /-- The word number E of its word (R173). -/
  word : Nat
  space : Nat
  store : Bool
  /-- Size code of R224. -/
  size : Nat
  /-- Lanes of an `l.ldg` slot may return one by one (R230). -/
  ldg : Bool
  dest : Option LoadDest
  lanes : List LaneAccess
  /-- What happened before the repetition at its issue. -/
  known : List Nat
  lifted : List Nat
  vc : List Nat
  /-- DOMAIN widening applies: the entry runs under MODE = 1. -/
  regions : List Region
  /-- Leaves it was translated through, for R363: address space, VA[56:16], and whether the leaf is of 2 MiB. -/
  pages : List (Nat × Nat × Bool)
  die : Nat
  /-- The engine at the repetition's issue, and the sq slot that the repetition popped: where the engine stands again if the
  repetition faults while it is in flight (R179, R182). -/
  origin : Engine
  popped : Option Slot
deriving DecidableEq, Repr

/-- One write to lane registers, masks or shared uniform registers: `reg` is 0 to 111 for v, 128 + k for mk, 136 + N for yN; a
mask or uniform register has its bits or its value at lane numbers (R190). -/
structure RegWrite where
  reg : Nat
  lanes : List (Nat × W32)
  eng : Nat
  vc : List Nat
deriving DecidableEq, Repr

/-- What an L or S engine knew when it passed a word of C that may be a `c.psend`, for the release of that word (R167): the engine, the
path slot it served, and the word's position. -/
structure PassMark where
  kind : EngKind
  path : Nat
  entry : Nat
  trip : Nat
  off : Nat
  known : List Nat
  lifted : List Nat
deriving DecidableEq, Repr

/-- The view of the block map that entries from a push number on see (R188). -/
structure BlockView where
  start : Nat
  map : BitVec 7
deriving DecidableEq, Repr

/-- What a matrix word does (R254). -/
inductive MatrixKind where
  | ldb | mma | mmas | gmma | zero | ldacc | stacc | rstep | rsave | rload
deriving DecidableEq, Repr

/-- A lane group (R183, R184). -/
structure Group where
  /-- Group number within the team (v115), and the bay it is on. -/
  num : Nat
  bay : Nat
  /-- Values before every write of `rlog`: (register · 64 + lane, value), rising keys, no zero values. -/
  base : List (Nat × W32)
  rlog : List RegWrite
  blocks : List BlockView
  l : Engine
  s : Engine
  paths : List Path
  lq : List Slot
  sq : List Slot
  nextSlot : Nat
  passMarks : List PassMark
  /-- The next number of the group's clocks. -/
  nextClk : Nat
  flight : List Access
  /-- The accesses that the L and S engines have performed. -/
  past : Past
  gang : W64
  ganged : Nat
  /-- The ganged word at whose rendezvous the group's C engine waits (R252). -/
  meet : Option (MatrixKind × SW)
  /-- Token pushes of completed matrix operations that found their counter full: path slot, counter, token (R172, R257). -/
  owed : List (Nat × Nat × Tok)
  /-- An open cq split: path slots of A and of B, and its JOIN still due (R161 to R163). -/
  split : Option (Nat × Nat)
  /-- Path A of the open split where it was not opened (R162): the slot and the path that follow the JOIN. -/
  parked : Option (Nat × Path)
  /-- Of repetitions that the L engine is to make again, in their order: the path slot, and the paths that have popped the lq slot (R182). -/
  redo : List (Nat × List Nat)
  /-- Trips of entries whose `x.end` some engine has reached, and not all. -/
  endings : List Ending
  /-- A push of `q.split` has retired and its `q.join` has not (R154). -/
  pushSplit : Bool
  /-- The L and S engines as frozen, while a service entry runs in path slot 4 (R368). -/
  savedL : Option Engine
  savedS : Option Engine
deriving DecidableEq, Repr

/-! ### Launches, nests and teams (14_scheduling.md, 15_traps.md) -/

/-- A loop-nest record as read at the launch (R375), with the extension table. -/
structure NestRecord where
  counts : List Nat
  code : W64
  argBase : Nat
  argLen : Nat
  stkBase : Nat
  stkSlots : Nat
  stack : Nat
  ext : Option (List W128 × List W32)
  live : Nat
  cntOff : Nat
  cwp : Nat
  bwp : Nat
  bph : Nat
  memMask : Nat
  depth : Nat
  bscope : Nat
  duplex : Bool
  ngrp : Nat
deriving DecidableEq, Repr

/-- An entry of the device context table as the part read it at one of the points of R372. -/
structure Dct where
  valid : Bool
  /-- A must-be-0 bit is 1. -/
  bad : Bool
  aspace : Nat
  nteam : Nat
  qmask : Nat
  roots : List Nat
  vector : W64
  deadline : Nat
  otBase : Nat
  tbBase : Nat
  saveBase : Nat
  saveStride : Nat
  mgmtBase : Nat
deriving DecidableEq, Repr

/-- A nest: a launch that has been pushed and has not completed (R371, R373, R374). -/
structure Nest where
  nid : Nat
  queue : Nat
  dctx : Nat
  record : NestRecord
  launchWord : W64
  order : Bool
  /-- The team that launched it, and where; its seg2; the realisation it launched under. -/
  launcher : Place
  seg2 : W128
  regions : Option (List Region)
  release : Release
  /-- The forking team, for a fork not yet joined (R387). -/
  parent : Option Nat
  /-- Counts are read and the launch is dispatched (R380). -/
  dispatched : Bool
  /-- Its first team has been placed. -/
  started : Bool
  total : Nat
  nextOrd : Nat
  /-- Address-space number of its context, and the entry of its context as the launch read it (R372). -/
  aspace : Nat
  dct : Dct
  /-- Keys of its live teams, and the releases of its exited teams, which the completion carries. -/
  teams : List Nat
  done : List Release
  /-- Every team has exited; completion held by ORDER. -/
  finished : Bool
  /-- Cellar allotment of each die: (die, storage tag). -/
  cellar : List (Nat × Nat)
  /-- Stack slots in use. -/
  stackUsed : List Nat
deriving DecidableEq, Repr

/-- A code object's object-table entry as the part reads it (16_code.md R417). -/
structure KernelInfo where
  obj : Nat
  width : Nat
  blocks : Nat
  scratch : Nat
  landing : Nat
  cellar : Nat
  tiles : Nat
  text : W128
  blkOff : Nat
  nblk : Nat
deriving DecidableEq, Repr

/-- What an object file records beside its object-table entry (R62, R90, R134, R385): the offsets of `.node`, the `.shape` requests
(shape register, policy, request word, format) and the `.fmt` entries. It comes with the object's load (log 1). -/
structure CodeRecord where
  dctx : Nat
  obj : Nat
  nodes : List Nat
  shapes : List (Nat × Nat × W64 × Nat)
  fmts : List (Nat × W64)
  /-- The seg0 offset at which strand text ends (R55). -/
  strandEnd : Nat
deriving DecidableEq, Repr

/-- What one single step still has to run (R406): the helm, then C engines by slot, then L, then S. -/
inductive StepItem where
  | helm
  | engine (eng : Eng)
deriving DecidableEq, Repr

/-- The markers of `fence.mk` in the join slot of a context (12_sync.md R349): what each named queue held at the issue. -/
structure FenceMarks where
  /-- Push number that cq entries must be below. -/
  cq : Option Nat
  /-- Commands of the team: (bay, channel, SEQ). -/
  ce : List (Nat × Nat × Nat)
  /-- Queued matrix operations, by their numbers. -/
  mx : List Nat
deriving DecidableEq, Repr

/-- A surrendered block not yet in the pool (R188): group, block, push number below which entries must be finished. -/
structure Surrender where
  grp : Nat
  block : Nat
  below : Nat
deriving DecidableEq, Repr

/-- The trap that freezes a team (R178, R179). -/
structure Trap where
  cause : Nat
  fva : W64
  info : Nat
  /-- 0 L, 1 C, 2 S, 3 helm (R396). -/
  eng : Nat
  grp : Nat
  path : Nat
  word : Nat
  rep : Nat
  /-- The faulters' mask of a lane access (R367). -/
  mask : W64
  lane : Bool
  /-- The access was a write, a fetch (R370). -/
  write : Bool
  fetch : Bool
deriving DecidableEq, Repr

/-- Where a team stands in its life. -/
inductive Phase where
  /-- Runs in its context. -/
  | running
  /-- Performs the one step that an `eret` armed (R406). -/
  | stepping
  /-- A trap is taken and engines still stop or commands drain (R178, R179). -/
  | freezing
  /-- Frozen, with its supervisor in the vector (R395). -/
  | vector
  /-- In a vector or at vector entry, stopped by DOUBLE until the host releases it (R395, R398). -/
  | stopped
deriving DecidableEq, Repr

/-- What a descheduled team needs before it is a ready team (R383, R388, R390). -/
inductive Ready where
  | now
  | waits (w : WaitFor)
  | children
  /-- Parked by its supervisor's `yield` until the host releases it (R390). -/
  | release
  /-- No bay of its frozen class is left (R148). -/
  | noClass
deriving DecidableEq, Repr

/-- A watch entry in force (R407). -/
structure Watch where
  index : Nat
  base : Nat
  len : Nat
  x : Bool
  w : Bool
  r : Bool
deriving DecidableEq, Repr

/-- A ring descriptor (R234); `gen` counts its returns to the bay (R236), with the releases that its operations carry (R241). -/
structure Ring where
  bay : Nat
  desc : Nat
  gen : Nat
  valid : Bool
  team : Nat
  base : Nat
  cntm1 : Nat
  szc : Nat
  seg : Nat
  space : Nat
  eos : Bool
  abort : Bool
  head : Nat
  tail : Nat
  taken : Nat
  claimed : Nat
  /-- 0 EMPTY, 1 CLAIMED, 2 FULL, 3 TAKEN, per slot. -/
  slots : List Nat
  /-- Parties that wait, in order of arrival, and whether each waits to claim. -/
  waiters : List (Party × Bool)
  /-- Waiters whose wait has ended without a slot, by an abort or else by an eos, and who have not gone on. -/
  ended : List (Party × Bool)
  /-- Per slot, the release of its last commit and of its last release word; the commits up to HEAD; the eos. -/
  commits : List (Option Release)
  frees : List (Option Release)
  headReleases : List Release
  eosRelease : Option Release
deriving DecidableEq, Repr

/-- A ring-map entry (R235). -/
structure RingRef where
  bay : Nat
  desc : Nat
  /-- How often the descriptor had returned to its bay when the entry was made; a later return leaves the entry stale (R236). -/
  gen : Nat
deriving DecidableEq, Repr

/-- The five loop registers (R128). -/
structure LoopRegs where
  lc : W64
  lcnt : W64
  lbeg : W64
  lend : W64
  lobj : W64
deriving DecidableEq, Repr

/-- A team: everything of context scope, whether it is on a bay or off it. -/
structure Team where
  key : Nat
  dctx : Nat
  tid : Nat
  nid : Nat
  ordinal : Nat
  queue : Nat
  stackSlot : Nat
  resumes : Nat
  phase : Phase
  ready : Ready
  /-- Placement (R103): meaningful while the team is resident. -/
  bay : Nat
  ctx : Nat
  /-- The team slot that a duplex team holds on its partner bay (R93). -/
  partnerCtx : Nat
  duplex : Bool
  resident : Bool
  /-- Presented class of the last placement (R140). -/
  cls : Nat
  /-- The number of the team's start, in one sequence with the writes: those of a higher number come after it. -/
  born : Nat
  /-- What its nest's launch released, which comes before its every access (R379). -/
  launch : Release
  /-- The device context's entry as read at the last placement, resume or vector entry (R372). -/
  dct : Dct
  /-- What a single step still has to run; and, from the start of the word that an engine steps, its group and the rq before it. -/
  plan : List StepItem
  stepBase : Option (Group × List RqEntry)
  kernel : KernelInfo
  /-- The vector descriptor's area addresses come from the team block at this seg4 address (R382). -/
  block : Nat
  g : List W64
  /-- The seg0 offset of the next word. R121 gives an offset 32 bits; only a continue at sys.lbeg can leave one above them (R130). -/
  pc : W64
  curObj : Nat
  /-- BLKOFF and NBLK of the current object. -/
  curBlkOff : Nat
  curNblk : Nat
  super : Bool
  inVector : Bool
  step : Bool
  shapeChanged : Bool
  cause : W64
  epc : W64
  faultva : W64
  stepmask : W64
  mmcfg : W64
  regions : List Region
  nanorigin : W64
  subst : W64
  win : Nat
  loop : LoopRegs
  segs : List W128
  shapes : List Shape
  fmts : List W64
  rings : List (Option RingRef)
  cq : List CqEntry
  nextPush : Nat
  rq : List RqEntry
  service : Option CqEntry
  groups : List Group
  pool : Nat
  poolPartner : Nat
  surrenders : List Surrender
  marks : Option FenceMarks
  /-- The complete sectors of the team's copy commands on its lead bay, and its completed matrix operations (R349). -/
  cePast : Past
  mxPast : Past
  /-- A registered wait that its phase's completion has ended (R331, R337). -/
  granted : Option Grant
  /-- Storage tags of pad on the lead and partner bay, of landing half 0 and 1; 0 where none is held. -/
  pad : Nat
  padPartner : Nat
  lnd : Nat
  lndPartner : Nat
  /-- First accumulator tile and scale slot on each bay are the team's own: see `Tile`. -/
  waitFor : Option WaitFor
  /-- Arrived at fence.sc and not granted; granted. -/
  scWait : Bool
  scGrant : Bool
  trap : Option Trap
  frozenClass : Option Nat
  watches : List Watch
  exempt : Bool
  /-- Dies lost while the helm's present word may have had its access in flight to them (R438). -/
  late : List Nat
  /-- Children not completed, completed and not joined, and what they release (R388). -/
  children : Nat
  joined : Nat
  childRelease : Release
  /-- Pre-emption is requested (R386). -/
  preempt : Bool
  /-- Frozen by a full save that failed (R412). -/
  overdue : Bool
  /-- The pin list (R418). -/
  pins : List Nat
  /-- A `join`, or the join of `fork.wait`, has found uncompleted children (R388). -/
  joining : Bool
  /-- Address of the full-save image that the team is to be restored from; 0 for none (R409). -/
  image : Nat
  /-- The ring descriptors that a full save keeps, with the map entry of each (R236). -/
  keptRings : List (Nat × Ring)
deriving DecidableEq, Repr

/-! ### Synchronisation engine (12_sync.md) and rings (08_local.md R234) -/

/-- A waypoint record (R330), with the releases of its arrivals (R342) and the registered waits on it. -/
structure Waypoint where
  die : Nat
  index : Nat
  valid : Bool
  gen : Nat
  life : Nat
  owner : Nat
  aspace : Nat
  dctx : Nat
  phase : Nat
  acnt : Nat
  aexp : Nat
  bcnt : Nat
  bexp : Nat
  ainit : Nat
  binit : Nat
  lost : Nat
  plost : Nat
  fault : Bool
  overBit : Bool
  pover : Bool
  /-- Releases of arrivals, each with the phase it counted towards. -/
  releases : List (Nat × Release)
  /-- The parties with a waiter entry, and the phase that each waits for (R332). -/
  waiting : List (Party × Nat)
deriving DecidableEq, Repr

/-- An arrival sent and not yet performed at the home SE (R341, R374). -/
structure Arrival where
  handle : Nat
  aspace : Nat
  arrivals : Nat
  bytes : Nat
  lost : Nat
  fault : Bool
  release : Option Release
  /-- The team whose copy command sent it. -/
  command : Option Nat
deriving DecidableEq, Repr

/-- A die: what bring-up left of it, and its engines' state. -/
structure Die where
  num : Nat
  inService : Bool
  secfg : W64
  pool : List Nat
  /-- POOLPUSH as last written (R427). -/
  push : W64
  /-- Lookups of the expert residency table since it was last halved (10_copy.md R296). -/
  lookups : Nat
  /-- Good quadrants of each mesh stop 0 to 51; 0 where the stop serves no bay (01_resources.md R18, R19). -/
  stops : List Nat
deriving DecidableEq, Repr

/-! ### Matrix engine (09_matrix.md) -/

/-- One accumulator tile of a team on a bay (R246, R248): elements as rising (row · 128 + column, value) pairs with no zero value,
and its step count. -/
structure Tile where
  bay : Nat
  team : Nat
  acc : Nat
  elems : List (Nat × W32)
  steps : W32
deriving DecidableEq, Repr

/-- A byte of a scale image that a run of `cp.scale` has written (R291). -/
structure ScaleWrite where
  off : Nat
  byte : Byte
  run : Nat
deriving DecidableEq, Repr

/-- A team's scale part and pinned B on a bay (R247, R249). -/
structure MatrixSlot where
  bay : Nat
  team : Nat
  /-- Bytes of the scale part: rising (offset, byte) pairs, no zero byte; and the writes made over them since, in their order. -/
  scale : List (Nat × Byte)
  images : List ScaleWrite
  pinned : Bool
  grk : Nat
  grn : Nat
  bf : Nat
  /-- Pinned B, element (k, c) at k + c · GRK, as raw codes. -/
  b : List Nat
deriving DecidableEq, Repr

/-- A byte range leased by a queued operation (R259). -/
structure Lease where
  loc : Nat
  len : Nat
deriving DecidableEq, Repr

/-- A member's token pushes of an operation: group, path slot, counters, and what they release (R257). -/
structure OpTokens where
  grp : Nat
  path : Nat
  counters : List Nat
  tok : Tok
deriving DecidableEq, Repr

/-- A matrix operation in a bay's queue, with the operands resolved at its meeting (R249, R252, R258). -/
structure MatrixOp where
  num : Nat
  /-- The anchor: bay, team, group, path slot, and its place. -/
  bay : Nat
  team : Nat
  grp : Nat
  path : Nat
  place : Place
  kind : MatrixKind
  /-- E count of the anchor's word, seg0 offset of its head and its object, TAG of its entry (R258). -/
  word : Nat
  head : Nat
  obj : Nat
  tag : Nat
  acc : Nat
  fmt : W64
  grk : Nat
  grn : Nat
  me : Nat
  ne : Nat
  ke : Nat
  /-- B elements as raw codes, element (k, c) at k + c · GRK; none where the pinned B is used. -/
  b : Option (List Nat)
  /-- Memory operand: in lnd, at an offset, at a row stride; ALL of `mx.zero`; it has accesses that a counter counts. -/
  lnd : Bool
  offset : Nat
  stride : Nat
  all : Bool
  counted : Bool
  /-- (A row, tile row) pairs in their order, of the products (R267 to R269). -/
  jobs : List (Nat × Nat)
  /-- Scale image with its record and first group index, or decay vector, in the scale part (R264, R273). -/
  su : Option Nat
  scaleRec : Nat
  g0 : Nat
  /-- Window, stream identifier, and the step count that an image brings (R275). -/
  row0 : Nat
  col0 : Nat
  imgRows : Nat
  imgCols : Nat
  sid : Nat
  steps : W32
  leases : List Lease
  begun : Bool
  /-- As its anchor's C engine has it (R291). -/
  imaged : List Nat
  known : List Nat
  lifted : List Nat
  toks : List OpTokens
deriving DecidableEq, Repr

/-! ### Copy engines (10_copy.md) -/

inductive CopyState where
  | queued | running
  /-- Arrived with sectors missing, its record not yet posted: the channel's poster waits (R370, R429). -/
  | posting
  | held
deriving DecidableEq, Repr

/-- Where a `cp.coll` stands in R293. -/
inductive CollStep where
  /-- Not a collective, or a replay, or all waits passed. -/
  | go
  /-- Waits for the phase of the first or the second arrival at CWPH. -/
  | wait (second : Bool) (phase : Nat)
deriving DecidableEq, Repr

/-- A copy command that a channel tracks, from its push until it is complete (R277, R284). The commands of a channel stand in queue
order. -/
structure CopyCmd where
  bay : Nat
  ch : Nat
  seq : Nat
  team : Nat
  state : CopyState
  /-- Command code (R43), ordering field, TAG, and object of the issuing word. -/
  cmd : Nat
  ord : Nat
  tag : Nat
  obj : Nat
  /-- The command word, g(ga) to g(ga + 3), the record if one is named, and the segments, as read at the issue. -/
  word : W64
  ops : List W64
  record : Option Nat
  segs : List W128
  count : Nat
  scope : Nat
  ft : Bool
  wv : Bool
  handle : Nat
  /-- Pushed at supervisor privilege; pushed in the vector that the team is in. -/
  super : Bool
  vector : Bool
  nsec : Nat
  /-- Sectors complete (the engine's own bitmap); those of them from earlier runs; sectors attempted in this run; missing ones with the
  first failing access: sector, cause, virtual address. -/
  complete : List Nat
  prior : List Nat
  tried : List Nat
  failed : List (Nat × Nat × Nat)
  doneBytes : Nat
  /-- Bytes of the sectors that this run completed; its run number. -/
  runBytes : Nat
  run : Nat
  replay : Bool
  coll : CollStep
  granted : Option Grant
  /-- The second part of an all-reduce is under way; sectors that the first part attempted (R293). -/
  second : Bool
  /-- Each with its writes. -/
  first : List (Nat × List Nat)
  /-- The complete sectors of every run: their writes, with what happens before them; and every write that the runs have made (R278,
  R286). -/
  past : Past
  made : List Nat
  /-- The push side of its acquire (R286). -/
  pushed : Option Release
  place : Place
  /-- What happens before every access of the run. -/
  known : List Nat
  lifted : List Nat
  regions : List Region
  /-- List entries, peer entries and route entries read in this run. -/
  entries : List (Nat × Nat)
  /-- Rows lost, each with its die (R297). -/
  lost : List (Nat × Nat)
  /-- Held slot, while held; its bitmap could not be written whole. -/
  slot : Nat
  bmerr : Bool
  /-- Waits for a held slot (R279). -/
  stalled : Bool
deriving DecidableEq, Repr

/-- The counters of a channel (R278), and the accesses that the next command started on it is ordered after. -/
structure Channel where
  bay : Nat
  ch : Nat
  nextSeq : Nat
  after : List Nat
  afterLifted : List Nat
deriving DecidableEq, Repr

/-- One slot of a die's expert residency table (R296). -/
structure ExpertEntry where
  die : Nat
  slot : Nat
  id : Nat
  gen : Nat
  base : W64
  home : Nat
  count : Nat
deriving DecidableEq, Repr

/-! ### Bays and the module (01_resources.md, 17_outside.md) -/

/-- A bay with a logical index (R13, R17 to R19, R140, R439). -/
structure Bay where
  num : Nat
  /-- Mesh stop that bears the bay. -/
  stop : Nat
  /-- Good quadrants, 2 to 4. -/
  quads : Nat
  /-- Presented class: 0 A, 1 B, 2 C. -/
  presented : Nat
  retiring : Bool
  /-- The spare stop that is to take its index (R18). -/
  spare : Option Nat
  inService : Bool
  /-- Bay clocks counted so far, as last read (R104). -/
  clock : Nat
  /-- Junction temperature in degrees and clock in MHz. -/
  temp : Nat
  mhz : Nat
deriving DecidableEq, Repr

/-- An HBM channel out of full service: 1 retiring, 2 retired (R437). -/
structure ChannelHealth where
  stack : Nat
  ch : Nat
  retired : Bool
deriving DecidableEq, Repr

/-- A Rhumb link (R430, R432): the sequence numbers of the next flit sent and received, the sender's replay buffer of (sequence, flit),
the flits held while the link retrains, retries of the oldest flit sent and of the flit to be received, and lanes that failed. -/
structure Link where
  num : Nat
  up : Bool
  failedLanes : List Nat
  retraining : Bool
  txSeq : Nat
  rxSeq : Nat
  replay : List (Nat × List Byte)
  held : List (Nat × List Byte)
  /-- The flit that was last put on the lanes. -/
  sent : Option (List Byte)
  txRetries : Nat
  rxRetries : Nat
deriving DecidableEq, Repr

/-- A route to a peer module (R428, R431). -/
structure Route where
  node : Nat
  mask : Nat
deriving DecidableEq, Repr

/-- A record on its way to the host fault queue (R370, R429): its 512 bits and what its poster releases. -/
structure Post where
  record : Nat
  release : Release
deriving DecidableEq, Repr

/-- A first-touch page whose fill is under way (R366). -/
structure Fill where
  dctx : Nat
  aspace : Nat
  va : Nat
  home : Nat
  leaf : Nat
  /-- The roots of the dies' trees, as the access has them (R372). -/
  roots : List Nat
deriving DecidableEq, Repr

/-- An invalidation made on a die (R362, R363): of a 64 KiB page number or of the whole address space, and the write identifiers that
come after it. -/
structure Invalidation where
  die : Nat
  aspace : Nat
  page : Option Nat
  /-- The page is of 2 MiB: it names all 32 numbers that share the upper bits. -/
  large : Bool
  mark : Nat
deriving DecidableEq, Repr

/-- The read-write management registers and the log (R427 to R429, R436). -/
structure Mgmt where
  /-- 0 bring-up, 1 running, 2 harbour, 3 degraded. -/
  state : Nat
  harbour : Nat
  mboxCmd : W64
  mboxData : List Byte
  fqBase : W64
  fqProd : Nat
  fqCons : Nat
  hlProd : Nat
  dctBase : W64
  /-- Last value written to each release doorbell that has been written. -/
  reldb : List (Nat × W64)
  hlog : List (Nat × W128)
  lqpri : List (Nat × Nat)
  seconds : Nat
  /-- MSI-X vectors raised, oldest first (R426). -/
  msix : List Nat
  /-- Answers given to DOE messages (R426). -/
  doe : List (List Byte)
  /-- The DOE messages served, which set the IDE keys (R426). -/
  spdm : List (List Byte)
  /-- Image measurements that attestation covers: signature schemes that verified (R433, R435). -/
  rsaOk : Bool
  slhOk : Bool
  /-- Stopped by R439: the next module reset enters harbour state with code 0x60. -/
  thermal : Bool
deriving DecidableEq, Repr

/-- A local allotment: its storage tag and its size in bytes (R217, R221, R222). -/
structure Allotment where
  tag : Nat
  size : Nat
deriving DecidableEq, Repr

/-- The machine's state: everything the spec names, as plain data. The fields `agenda`, `cur`, `tick`, `nextWrite`, `nextStore`,
`nextGen` are the model's own (log 2). -/
structure State where
  agenda : List Move
  cur : Option Party
  tick : Nat
  nextWrite : Nat
  nextStore : Nat
  nextGen : Nat
  mem : List Host.Cell
  writes : List Write
  home : List Nat
  entered : List Entered
  know : List Knowledge
  scKnown : List Nat
  scLifted : List Nat
  tokens : List Token
  caches : List CacheCounters
  tlb : List TlbEntry
  invals : List Invalidation
  fills : List Fill
  allots : List Allotment
  teams : List Team
  nests : List Nest
  launched : List (Nat × Nat)
  /-- For each priority, the queue that the walkers last chose among ready teams, and the one among new iterations (R381). -/
  lastQueues : List Nat
  bays : List Bay
  dies : List Die
  edges : List Bool
  health : List ChannelHealth
  waypoints : List Waypoint
  arrivals : List Arrival
  rings : List Ring
  tiles : List Tile
  slots : List MatrixSlot
  mqueue : List MatrixOp
  nextMx : Nat
  channels : List Channel
  cmds : List CopyCmd
  nextRun : Nat
  experts : List ExpertEntry
  posts : List Post
  links : List Link
  routes : List Route
  timeouts : List Nat
  records : List CodeRecord
  mgmt : Mgmt
deriving DecidableEq, Repr

/-- Why the model stops. -/
inductive Fault where
  /-- An instruction executed when the party that acts (`State.cur`) is not one that executes it: a helm word by an engine, or for
  a team that does not exist. `step` never does so. Raised by every helm and strand meaning; safe. -/
  | wrongParty
deriving DecidableEq, Repr

/-- Why the model has no meaning. -/
inductive Refusal where
  /-- An instruction without a meaning yet, by its mnemonic; raised by `exec`'s refused arms only; safe. -/
  | notModelled (mnemonic : String)
deriving DecidableEq, Repr

def Mgmt.reset : Mgmt :=
  { state := 0, harbour := 0, mboxCmd := 0, mboxData := List.replicate 256 0, fqBase := 0, fqProd := 0, fqCons := 0, hlProd := 0,
    dctBase := 0, reldb := [], hlog := [], lqpri := [], seconds := 0, msix := [], doe := [], spdm := [], rsaOk := false, slhOk := false,
    thermal := false }

/-- A die before bring-up, or one that does not come up. -/
def Die.down (n : Nat) : Die := { num := n, inService := false, secfg := 0, pool := [], push := 0, lookups := 0, stops := [] }

/-- Right after reset: bring-up has not run (R433), so no die is in service and no bay, team or nest is there, and every register reads its reset
value (R101, R427). -/
def State.reset : State :=
  { agenda := [], cur := none, tick := 0, nextWrite := 1, nextStore := 0x1000, nextGen := 1,
    mem := [], writes := [], home := [], entered := [], know := [], scKnown := [], scLifted := [], tokens := [], caches := [], tlb := [], invals := [],
    fills := [], allots := [], teams := [], nests := [], launched := [], lastQueues := List.replicate 16 63, bays := [], dies := (List.range 4).map Die.down,
    edges := [], health := [], waypoints := [], arrivals := [], rings := [], tiles := [], slots := [],
    mqueue := [], nextMx := 0, channels := [], cmds := [], nextRun := 0, experts := [], posts := [],
    links := [], routes := [], timeouts := [], records := [], mgmt := Mgmt.reset }

def Dct.zero : Dct :=
  { valid := false, bad := false, aspace := 0, nteam := 0, qmask := 0, roots := [0, 0, 0, 0], vector := 0, deadline := 0,
    otBase := 0, tbBase := 0, saveBase := 0, saveStride := 0, mgmtBase := 0 }

def KernelInfo.zero : KernelInfo :=
  { obj := 0, width := 16, blocks := 0, scratch := 0, landing := 0, cellar := 0, tiles := 0, text := 0, blkOff := 0, nblk := 0 }

def Release.none : Release :=
  { place := { party := .host, team := 0, grp := 0, bay := 0, bays := [], die := 0, inst := 0 }, scope := 0, known := [], lifted := [] }

/-- A team at its start with every register at its reset value (R97, R100, R101). -/
def Team.fresh (key dctx tid : Nat) : Team :=
  { key := key, dctx := dctx, tid := tid, nid := 0, ordinal := 0, queue := 0, stackSlot := 0, resumes := 0, phase := .running,
    ready := .now, bay := 0, ctx := 0, partnerCtx := 0, duplex := false, resident := false, cls := 0, born := 0, launch := Release.none, dct := Dct.zero, plan := [], stepBase := Option.none, kernel := KernelInfo.zero,
    block := 0, g := List.replicate 64 0, pc := 0, curObj := 0, curBlkOff := 0, curNblk := 0, super := false, inVector := false, step := false,
    shapeChanged := false, cause := 0, epc := 0, faultva := 0, stepmask := 0, mmcfg := 0, regions := [], nanorigin := 0, subst := 0,
    win := 32, loop := { lc := 0, lcnt := 0, lbeg := 0, lend := 0, lobj := 0 }, segs := List.replicate 16 0,
    shapes := List.replicate 8 Shape.zero, fmts := List.replicate 16 0, rings := List.replicate 16 Option.none, cq := [], nextPush := 0,
    rq := [], service := Option.none, groups := [], pool := 0, poolPartner := 0, surrenders := [], marks := Option.none, cePast := Past.none, mxPast := Past.none, granted := Option.none,
    pad := 0, padPartner := 0, lnd := 0, lndPartner := 0, waitFor := Option.none, scWait := false, scGrant := false,
    trap := Option.none, frozenClass := Option.none, watches := [], exempt := false, late := [], children := 0, joined := 0,
    childRelease := Release.none, preempt := false, overdue := false, pins := [], joining := false, image := 0, keptRings := [] }

end Sys2Proof.Machine
end

