-- ==== Sys2Proof/Machine/Mem.lean ====
section
/-! DEFINITION. Memory as locations with write sets (11_writesets.md): storages, the canonical list of bytes, candidates, units,
scopes, releases and acquires, home order. -/

namespace Sys2Proof.Machine

/-! ### Locations -/

/-- Bytes of one storage: a location is `storage · 2^64 + offset` (R300). -/
def storageSize : Nat := 2 ^ 64

def locOf (storage off : Nat) : Nat := storage * storageSize + off
def storageOf (loc : Nat) : Nat := loc / storageSize
def offsetOf (loc : Nat) : Nat := loc % storageSize

/-- Device HBM, host memory, peer memory of a node, the lock table of a die; local allotments take tags from 0x1000. -/
def hbmTag : Nat := 0
def hostTag : Nat := 1
def peerTag (node : Nat) : Nat := 2 + node
def lockTag (die : Nat) : Nat := 0x200 + die
/-- The management register block, as supervisor code reaches it: its registers are not bytes of memory. -/
def mgmtTag : Nat := 0x300
def firstLocalTag : Nat := 0x1000

/-- The die that holds an HBM physical address: PA[38:37] (R359). -/
def dieOfPa (pa : Nat) : Nat := bitsOf pa 38 37
def dieOfBay (bay : Nat) : Nat := bay / 48

/-! ### The canonical list of bytes: rising locations, no byte 0, which is what an unlisted location reads as (log 3) -/

def memGet : List Host.Cell → Nat → Byte
  | [], _ => 0
  | (k, v) :: m, a => if k = a then v else if a < k then 0 else memGet m a

def memSet : List Host.Cell → Nat → Byte → List Host.Cell
  | [], a, v => if v = 0 then [] else [(a, v)]
  | (k, w) :: m, a, v =>
    if a < k then (if v = 0 then (k, w) :: m else (a, v) :: (k, w) :: m)
    else if k = a then (if v = 0 then m else (a, v) :: m)
    else (k, w) :: memSet m a v

/-- Every location of the list lies above `b`, rising, with no byte 0. -/
def Memory.above : Option Nat → List Host.Cell → Bool
  | _, [] => true
  | b, (k, v) :: m => (match b with | none => true | some x => decide (x < k)) && v != 0 && Memory.above (some k) m

/-- The canonical form. -/
def Memory.wf (m : List Host.Cell) : Bool := Memory.above none m

def memSetList (m : List Host.Cell) (a : Nat) : List Byte → List Host.Cell
  | [] => m
  | v :: vs => memSetList (memSet m a v) (a + 1) vs

/-- `n` bytes from a location on. -/
def memGetList (m : List Host.Cell) (a : Nat) : Nat → List Byte
  | 0 => []
  | n + 1 => memGet m a :: memGetList m (a + 1) n

/-- The byte last written to a location, in the order of the model's steps. -/
def State.byteAt (s : State) (a : Nat) : Byte := memGet s.mem a

/-! ### Write sets -/

def Write.covers (w : Write) (a : Nat) : Bool := decide (w.loc ≤ a) && decide (a < w.loc + w.bytes.length)
def Write.byteOf (w : Write) (a : Nat) : Byte := w.bytes.getD (a - w.loc) 0
def Write.headsAt (w : Write) (a : Nat) : List Release := w.heads.getD (a - w.loc) []

/-- Happens-before between two writes (R303). -/
def Write.before (w x : Write) : Bool := (w.bottom && !x.bottom) || x.known.contains w.id

/-- `w` lies in the known set of a reader that knows `known` (R306). -/
def Write.inKnown (w : Write) (known : List Nat) : Bool := w.bottom || known.contains w.id

/-- The candidate set at a byte (R306). -/
def candidates (ws : List Write) (known : List Nat) (a : Nat) : List Write :=
  let c := ws.filter (·.covers a)
  c.filter fun w => !(c.any fun x => x.inKnown known && w.before x)

/-- A scope race under R311's first part: a write that would be known if R310 were lifted. -/
def scopeRace (ws : List Write) (known lifted : List Nat) (a : Nat) : Bool :=
  ws.any fun w => w.covers a && !w.inKnown known && lifted.contains w.id

/-! ### Scopes (R309, R310) -/

/-- The same party: of a team, of the same start of it. -/
def Place.same (p q : Place) : Bool := p.party == q.party && p.inst == q.inst

/-- Does the scope, taken from `p`, contain `q`? A party of an SE that acts for a team (R380) is one of the team's. -/
def Place.contains (p : Place) (scope : Nat) (q : Place) : Bool :=
  let modular (x : Party) : Bool := match x with | .host => false | .peer _ => false | _ => true
  let sameTeam := p.team == q.team && p.inst == q.inst && p.team != 0
  p.same q ||
  match scope with
  | 0 => match p.party, q.party with
    | .engine t g _ _, .engine u h _ _ => t == u && g == h && p.inst == q.inst
    | _, _ => false
  | 1 => modular p.party && modular q.party && sameTeam
  | 2 => modular p.party && modular q.party && q.team != 0 && p.bays.any fun b => q.bays.any fun c => b / 2 == c / 2
  | 3 => modular p.party && modular q.party && p.die == q.die
  | 4 => modular p.party && modular q.party
  | _ => true

/-- The region of a seg4 address (R319): the lowest-numbered valid entry that holds it. -/
def domainOf (regions : List Region) (va : Nat) : Option Nat :=
  (regions.find? fun r => decide (r.base ≤ va) && decide (va < r.base + r.size)).map (·.domain)

/-- A scope widened to the DOMAIN of the region of the synchronising location (R310); `regions` is empty under MODE = 0. -/
def widen (regions : List Region) (scope : Nat) (va : Option Nat) : Nat :=
  match va with
  | none => scope
  | some a =>
    if regions.isEmpty then scope
    else match domainOf regions a with
      | some d => if scope < d then d else scope
      | none => 5

/-- Does a release synchronise with an acquire by `q` at `scope` (R310)? -/
def Release.reaches (r : Release) (q : Place) (scope : Nat) : Bool := r.place.contains r.scope q && q.contains scope r.place

/-- The union of two sets. -/
def unionIds {α : Type} [BEq α] (a b : List α) : List α := a ++ b.filter fun x => !a.contains x

/-- The domain that widens the scopes of a synchronising location (R310); 0 widens nothing. -/
def widening (regions : List Region) (va : Option Nat) : Nat := widen regions 0 va

/-! ### Knowledge of a party -/

def Knowledge.empty (p : Party) : Knowledge := { party := p, known := [], lifted := [], seen := [], fences := [] }

def State.knowOf (s : State) (p : Party) : Knowledge := (s.know.find? (·.party == p)).getD (Knowledge.empty p)

def State.setKnow (s : State) (k : Knowledge) : State :=
  { s with know := k :: s.know.filter (·.party != k.party) }

/-- What a release by the place at the scope carries. -/
def State.releaseOf (s : State) (p : Place) (scope : Nat) : Release :=
  let k := s.knowOf p.party
  { place := p, scope := scope, known := k.known, lifted := k.lifted }

/-- An acquire by `p` at `scope` of the releases it meets: those that R310 admits join its known set, all join the lifted one. -/
def State.acquire (s : State) (p : Place) (scope : Nat) (rs : List Release) : State :=
  let k := s.knowOf p.party
  s.setKnow { k with
    known := rs.foldl (fun acc r => if r.reaches p scope then unionIds acc r.known else acc) k.known
    lifted := rs.foldl (fun acc r => unionIds acc (unionIds r.known r.lifted)) k.lifted }

/-- Program order from one party to another that continues it (R302): a path opened by a split, a meeting of paths. -/
def State.inherit (s : State) (src dst : Party) : State :=
  let a := s.knowOf src
  let b := s.knowOf dst
  s.setKnow { b with
    known := unionIds b.known a.known, lifted := unionIds b.lifted a.lifted
    seen := unionIds b.seen a.seen, fences := b.fences ++ a.fences.filter fun f => !b.fences.contains f }

/-- A party that begins where another stands: a path just opened (R302). -/
def State.restart (s : State) (src dst : Party) : State := s.setKnow { s.knowOf src with party := dst }

/-! ### Reads -/

/-- A choice among `n` outcomes: outcome 0 where there is only one. -/
def pickOf (n tick : Nat) : Nat := if n ≤ 1 then 0 else Config.pick n tick % n

/-- R307 between two bytes of one read unit: write `w` chosen at `a` and `x` at `b`. -/
def unitCompatible (w : Write) (a : Nat) (x : Write) (b : Nat) : Bool :=
  w.id == x.id ||
  ((!w.covers b || (!x.before w && !x.covers a)) && (!x.covers a || (!w.before x && !w.covers b)))

/-- One byte chosen of a read unit: its location, its value, and the write it came from where the location has write records. -/
structure ByteRead where
  loc : Nat
  value : Byte
  src : Option Write
deriving DecidableEq, Repr

/-- Where the page of a location entered the context of a party. -/
def State.enteredAt (s : State) (p : Place) (a : Nat) : Option Entered :=
  s.entered.find? fun e => p.team != 0 && e.dctx == p.team / 2 ^ 16 && decide (e.loc ≤ a) && decide (a < e.loc + e.size)

/-- The writes as a party's context has them at a byte (R301): of those made before the page entered it, the last in home order is the
initial write, and those that had not reached their home stay. -/
def State.writesFor (s : State) (p : Place) (a : Nat) : List Write :=
  match s.enteredAt p a with
  | none => s.writes
  | some e =>
    let ws := s.writes.filter (·.covers a)
    let old (w : Write) : Bool := decide (w.id < e.mark) && (w.bottom || s.home.contains w.id)
    let base := (s.home.reverse.findSome? fun i => ws.find? fun w => old w && !w.bottom && w.id == i) <|> ws.find? old
    (base.map fun w => { w with loc := a, bytes := [w.byteOf a], bottom := true, heads := [] }).toList ++ ws.filter fun w => !old w

/-- Is a byte of a region a scope race for a reader outside the domain taken from a candidate's writer (R311)? -/
def regionRace (ws : List Write) (p : Place) (known : List Nat) (regions : List Region) (va : Option Nat) (a : Nat) : Bool :=
  match va with
  | none => false
  | some v => match domainOf regions v with
    | none => false
    | some d => (candidates ws known a).any fun w => !w.bottom && !w.place.contains d p

/-- The writes that a read may return at each byte of a unit taken alone (R306, R311): at a scope race, every write that covers it. -/
def unitOptions (s : State) (p : Place) (known lifted : List Nat) (regions : List Region) (va : Option Nat) (a : Nat) :
    Nat → List (Nat × List Write)
  | 0 => []
  | n + 1 =>
    let ws := s.writesFor p a
    (a, if regionRace ws p known regions va a || scopeRace ws known lifted a then ws.filter (·.covers a)
        else candidates ws known a) :: unitOptions s p known lifted regions (va.map (· + 1)) (a + 1) n

/-- Does `w` at `a` go with the writes chosen at other bytes of the unit (R307)? -/
def goesWith (chosen : List ByteRead) (w : Write) (a : Nat) : Bool :=
  chosen.all fun c => match c.src with | none => true | some x => unitCompatible x c.loc w a

/-- Can the bytes that are left be chosen too (R307)? -/
def completable : List (Nat × List Write) → List ByteRead → Bool
  | [], _ => true
  | (a, ws) :: rest, chosen =>
    if ws.isEmpty then completable rest chosen
    else ws.any fun w => goesWith chosen w a && completable rest (chosen ++ [{ loc := a, value := w.byteOf a, src := some w }])

/-- The bytes of one read unit, each of them one that leaves the others a choice (R306, R307, R311). A byte that no write covers is as
memory holds it. -/
def readUnitBytes (s : State) : List (Nat × List Write) → List ByteRead → Nat → List ByteRead × Nat
  | [], chosen, tick => (chosen, tick)
  | (a, ws) :: rest, chosen, tick =>
    let read (w : Write) : ByteRead := { loc := a, value := w.byteOf a, src := some w }
    let ok := ws.filter fun w => goesWith chosen w a && completable rest (chosen ++ [read w])
    match ok[pickOf ok.length tick]? with
    | some w => readUnitBytes s rest (chosen ++ [read w]) (if ok.length ≤ 1 then tick else tick + 1)
    | none => readUnitBytes s rest (chosen ++ [{ loc := a, value := memGet s.mem a, src := none }]) tick

/-- One read unit of `n` bytes at a location with the knowledge given (R306, R307); the choices advance the counter. -/
def State.readWith (s : State) (p : Place) (known lifted : List Nat) (regions : List Region) (va : Option Nat) (loc n : Nat) :
    List ByteRead × State :=
  let (bs, tick) := readUnitBytes s (unitOptions s p known lifted regions va loc n) [] s.tick
  (bs, { s with tick := tick })

def readValue (bs : List ByteRead) : Nat := leNat (bs.map (·.value))

/-- The writes that a read returned, byte by byte; an initial write is no other's. -/
def readSources (bs : List ByteRead) (domain : Nat) : List Seen :=
  bs.filterMap fun b => (b.src.filter fun w => !w.bottom).map fun w => { id := w.id, loc := b.loc, domain := domain }

/-- The releases that an acquire of these bytes meets (R314). -/
def readHeads (bs : List ByteRead) : List Release :=
  (bs.map fun b => match b.src with | none => [] | some w => w.headsAt b.loc).flatten

/-- A read by a party in its program order, which its fences remember (R314, R315). -/
def State.readAs (s : State) (p : Place) (regions : List Region) (va : Option Nat) (loc n : Nat) : List ByteRead × State :=
  let k := s.knowOf p.party
  let (bs, s) := s.readWith p k.known k.lifted regions va loc n
  (bs, s.setKnow { k with seen := unionIds k.seen (readSources bs (widening regions va)) })

/-! ### Writes -/

/-- The initial writes of the bytes that no write yet covers (R301), kept when they are first overwritten. -/
def bottomsFor (s : State) (loc : Nat) : Nat → List Write
  | 0 => []
  | n + 1 =>
    let a := loc + n
    if s.writes.any (·.covers a) then bottomsFor s loc n
    else { id := s.nextWrite + n, loc := a, bytes := [memGet s.mem a],
           place := { party := .host, team := 0, grp := 0, bay := 0, bays := [], die := 0, inst := 0 }, bottom := true,
           atomic := false, known := [], lifted := [], heads := [[]] } :: bottomsFor s loc n

/-- Adds a write to the write sets, with the knowledge given; its identifier is the state's `nextWrite + bytes`. -/
def State.addWrite (s : State) (p : Place) (known lifted : List Nat) (atomic : Bool) (heads : List (List Release)) (loc : Nat)
    (bytes : List Byte) : Nat × State :=
  let n := bytes.length
  let id := s.nextWrite + n
  let w : Write := { id := id, loc := loc, bytes := bytes, place := p, bottom := false, atomic := atomic, known := known,
                     lifted := lifted, heads := heads }
  (id, { s with
    writes := s.writes ++ bottomsFor s loc n ++ [w]
    mem := memSetList s.mem loc bytes
    nextWrite := id + 1 })

/-- Writes of a line that are not yet in home order and satisfy `f`, in the order of the steps. -/
def State.undrained (s : State) (f : Write → Bool) : List Nat :=
  (s.writes.filter fun w => !w.bottom && !s.home.contains w.id && f w).map (·.id)

/-- Enters writes into home order (R312, R322). -/
def State.drain (s : State) (f : Write → Bool) : State := { s with home := s.home ++ s.undrained f }

def Write.inBlock (w : Write) (block : Nat) : Bool := storageOf w.loc == hbmTag && offsetOf w.loc / 4096 == block

/-- The 64-byte lines of two ranges meet. -/
def Write.sameLine (w : Write) (loc n : Nat) : Bool :=
  decide (w.loc / 64 ≤ (loc + n - 1) / 64) && decide (loc / 64 ≤ (w.loc + w.bytes.length - 1) / 64)

/-- The write token of the block goes to the writer (R322): the former holder's writes to the block are drained first. -/
def State.takeToken (s : State) (p : Place) (loc : Nat) : State :=
  if storageOf loc != hbmTag then s
  else
    let block := offsetOf loc / 4096
    let holder : TokenHolder := match p.party with
      | .host => .bridge
      | .peer _ => .bridge
      | _ => if dieOfPa (offsetOf loc) == p.die then .bay p.bay else .bridge
    match s.tokens.find? (·.block == block) with
    | some t => if t.holder == holder then s
      else
        let s := s.drain (·.inBlock block)
        { s with tokens := { block := block, holder := holder } :: s.tokens.filter (·.block != block) }
    | none => { s with tokens := { block := block, holder := holder } :: s.tokens }

/-- A plain write, as captured at its issue: `known` and `lifted` are what happened before it (R301, R303). It enters home order at
once where its storage is local, host or peer memory, and when its token passes in HBM (R312, R317). -/
def State.writeWith (s : State) (p : Place) (known lifted : List Nat) (heads : List Release) (loc : Nat) (bytes : List Byte) :
    Nat × State :=
  let s := s.takeToken p loc
  let (id, s) := s.addWrite p known lifted false (List.replicate bytes.length heads) loc bytes
  (id, if storageOf loc == hbmTag then s else { s with home := s.home ++ [id] })

/-- A party learns its own write (R302). -/
def State.learn (s : State) (p : Party) (id : Nat) : State :=
  let k := s.knowOf p
  s.setKnow { k with known := unionIds k.known [id], lifted := unionIds k.lifted [id] }

/-- The releases that a write of the party heads: its own at the scope `rel`, and its release fences (R314), at scopes widened for
the location. -/
def headsOf (k : Knowledge) (p : Place) (wide : Nat) (rel : Option Nat) (id : Nat) : List Release :=
  (match rel with
   | none => []
   | some scope => [{ place := p, scope := Nat.max scope wide, known := unionIds k.known [id], lifted := unionIds k.lifted [id] }]) ++
  k.fences.map fun f => { f with scope := Nat.max f.scope wide }

/-- A plain write in the party's program order. `rel` is the scope of a release store; regions and address as for `widen`. -/
def State.writeIn (s : State) (p : Place) (regions : List Region) (va : Option Nat) (rel : Option Nat) (loc : Nat) (bytes : List Byte) :
    State :=
  let k := s.knowOf p.party
  let id := (s.takeToken p loc).nextWrite + bytes.length
  let (id, s) := s.writeWith p k.known k.lifted (headsOf k p (widening regions va) rel id) loc bytes
  s.learn p.party id

/-- The same outside every region. -/
def State.writeAs (s : State) (p : Place) (rel : Option Nat) (loc : Nat) (bytes : List Byte) : State :=
  s.writeIn p [] none rel loc bytes

/-! ### Atomics at the home (R312, R313) -/

/-- What an atomic reads at a byte: the last write before it in home order that covers the byte. -/
def State.homeByte (s : State) (a : Nat) : ByteRead :=
  let ids := s.home.reverse
  let ws := s.writes.filter fun w => w.covers a && !w.bottom
  match ids.findSome? fun i => ws.find? (·.id == i) with
  | some w => { loc := a, value := w.byteOf a, src := some w }
  | none => match s.writes.find? fun w => w.covers a && w.bottom with
    | some w => { loc := a, value := w.byteOf a, src := some w }
    | none => { loc := a, value := memGet s.mem a, src := none }

def State.homeBytes (s : State) (a : Nat) : Nat → List ByteRead
  | 0 => []
  | n + 1 => s.homeByte a :: s.homeBytes (a + 1) n

/-- Before an atomic of the party, every write of the line that happens before it reaches the home (R312 rule 2). -/
def State.drainKnown (s : State) (p : Place) (loc n : Nat) : State :=
  let k := s.knowOf p.party
  s.drain fun w => w.sameLine loc n && k.known.contains w.id

/-- The atomic's read: its bytes, recorded as returned. -/
def State.atomicReadIn (s : State) (p : Place) (regions : List Region) (va : Option Nat) (loc n : Nat) : List ByteRead × State :=
  let s := s.drainKnown p loc n
  let bs := s.homeBytes loc n
  let k := s.knowOf p.party
  (bs, s.setKnow { k with seen := unionIds k.seen (readSources bs (widening regions va)) })

def State.atomicRead (s : State) (p : Place) (loc n : Nat) : List ByteRead × State := s.atomicReadIn p [] none loc n

/-- The atomic's write, next in home order, in the release sequences of the writes it replaces (R314). -/
def State.atomicWriteIn (s : State) (p : Place) (regions : List Region) (va : Option Nat) (rel : Option Nat) (old : List ByteRead)
    (loc : Nat) (bytes : List Byte) : State :=
  let k := s.knowOf p.party
  let id := s.nextWrite + bytes.length
  let own := headsOf k p (widening regions va) rel id
  let heads := old.map fun b => own ++ (match b.src with | none => [] | some w => w.headsAt b.loc)
  let (id, s) := s.addWrite p k.known k.lifted true heads loc bytes
  let s := { s with home := s.home ++ [id] }
  s.learn p.party id

def State.atomicWrite (s : State) (p : Place) (rel : Option Nat) (old : List ByteRead) (loc : Nat) (bytes : List Byte) : State :=
  s.atomicWriteIn p [] none rel old loc bytes

/-! ### Fences (R314, R315, R347, R348) -/

/-- Everything of the party is performed at its homes. -/
def State.drainParty (s : State) (p : Party) : State :=
  let k := s.knowOf p
  s.drain fun w => k.known.contains w.id

/-- The acquire side of a fence: the releases that head the writes which earlier reads returned, at the bytes returned (R314). -/
def State.fenceAcquire (s : State) (p : Place) (scope : Nat) : State :=
  (s.knowOf p.party).seen.foldl (fun s x => match s.writes.find? fun w => w.id == x.id && w.covers x.loc with
    | some w => s.acquire p (Nat.max scope x.domain) (w.headsAt x.loc)
    | none => s) s

/-- The release side of a fence: later writes of the party head release sequences with what it knows now. -/
def State.fenceRelease (s : State) (p : Place) (scope : Nat) : State :=
  let s := s.drainParty p.party
  let k := s.knowOf p.party
  let r := s.releaseOf p scope
  s.setKnow { k with fences := r :: k.fences.filter (·.scope != scope) }

/-- What happens before a `fence.sc` (R315): the fences before it in the module's order, and every write that an earlier read of the
party returned, with what happens before that. -/
def State.fenceScJoin (s : State) (p : Place) : State :=
  let k := s.knowOf p.party
  let ws := s.writes.filter fun w => !w.bottom && k.seen.any (·.id == w.id)
  s.setKnow { k with
    known := ws.foldl (fun acc w => unionIds acc (w.id :: w.known)) (unionIds k.known s.scKnown)
    lifted := ws.foldl (fun acc w => unionIds acc (w.id :: w.lifted)) (unionIds k.lifted s.scLifted) }

/-- The fence takes its place in that order: later ones know what it knows. -/
def State.fenceScLeave (s : State) (p : Place) : State :=
  let k := s.knowOf p.party
  { s with scKnown := unionIds s.scKnown k.known, scLifted := unionIds s.scLifted k.lifted }

/-! ### Version counters (R317, R318) -/

/-- An acquire at a scope, team to system, increments the counter of the cache that serves the party; the answer is whether a wrap
sweep ran. -/
def State.bumpCounter (s : State) (c : CacheId) (scope : Nat) : Bool × State :=
  if scope = 0 then (false, s)
  else
    let cur := match s.caches.find? (·.cache == c) with | some x => x.vc | none => [0, 0, 0, 0, 0]
    let v := cur.getD (scope - 1) 0
    let vc := cur.set (scope - 1) ((v + 1) % 64)
    (v == 63, { s with caches := { cache := c, vc := vc } :: s.caches.filter (·.cache != c) })

end Sys2Proof.Machine
end

