-- ==== Sys2Proof/Machine/Ops.lean ====
section
/-! DEFINITION. The operations that the meanings share: the monad of a meaning, teams, the pages and segments, accesses, objects,
and taking a trap (04_helm.md, 13_addresses.md, 15_traps.md). -/

namespace Sys2Proof.Machine

/-! ### Meanings -/

/-- A trap as a word raises it: code and faultva (R394), INFO (R396), and the kind of a failing access (R370). -/
structure Cause where
  code : Nat
  fva : Nat
  info : Nat
  write : Bool
  fetch : Bool
  /-- Of a lane access: the faulters' mask (R367). -/
  mask : Option W64
deriving DecidableEq, Repr

/-- Why a meaning stops: a trap, after which nothing it did stands (R6); a wait, which keeps the state given; a fault. -/
inductive Stop where
  | trap (c : Cause)
  | wait (w : WaitFor) (s : State)
  | fault (f : Fault)

abbrev M (α : Type) := StateT State (Except Stop) α

abbrev Out := Host.Outcome State Fault Refusal

def raise {α : Type} (code : Nat) (fva : Nat := 0) (info : Nat := 0) (write : Bool := false) (fetch : Bool := false) : M α :=
  fun _ => .error (.trap { code := code, fva := fva % 2 ^ 64, info := info, write := write, fetch := fetch, mask := none })

def waitOn {α : Type} (w : WaitFor) : M α := fun s => .error (.wait w s)

/-- Done whole or, where it waits, not at all. -/
def whole {α : Type} (m : M α) : M α := fun s => match m s with | .error (.wait w _) => .error (.wait w s) | r => r

/-- Trap unless the condition holds. -/
def need (b : Bool) (code : Nat) (fva : Nat := 0) : M Unit := fun s => if b then .ok ((), s) else raise code fva 0 false false s

def cILLEGAL : Nat := 0x01
def cSTRAND_ILLEGAL : Nat := 0x02
def cPRIV : Nat := 0x03
def cSEG_LIMIT : Nat := 0x04
def cSEG_PERM : Nat := 0x05
def cPAGE_NOT_PRESENT : Nat := 0x06
def cPAGE_PERM : Nat := 0x07
def cMISALIGN : Nat := 0x08
def cQUEUE_PROTOCOL : Nat := 0x09
def cSHAPE_FAIL : Nat := 0x0A
def cATOMIC_EMULATE : Nat := 0x0B
def cECC_UNCORR : Nat := 0x0C
def cBREAK : Nat := 0x0D
def cWATCH : Nat := 0x0E
def cSVC : Nat := 0x0F
def cRING_PROTOCOL : Nat := 0x10
def cWAYPOINT_PROTOCOL : Nat := 0x11
def cCOPY_FAULT : Nat := 0x12
def cDOUBLE : Nat := 0x13
def cFORMAT : Nat := 0x14

/-- An outcome allowed among `n` at a free point. -/
def choose (n : Nat) : M Nat := fun s => .ok (pickOf n s.tick, if n ≤ 1 then s else { s with tick := s.tick + 1 })

/-! ### Teams -/

def State.team? (s : State) (key : Nat) : Option Team := s.teams.find? fun t => t.key == key

/-- Applies `f` to the team of the key, leaving its key. -/
def State.mapTeam (s : State) (key : Nat) (f : Team → Team) : State :=
  { s with teams := s.teams.map fun t => if t.key == key then f t else t }

def State.dropTeam (s : State) (key : Nat) : State := { s with teams := s.teams.filter fun t => t.key != key }

def teamOf (key : Nat) : M Team := fun s =>
  match s.team? key with
  | some t => .ok (t, s)
  | none => .error (.fault .wrongParty)

def mapTeamM (key : Nat) (f : Team → Team) : M Unit := modify fun s => s.mapTeam key f

/-- The bays of a team: its lead bay, and the partner of a duplex team (R13). -/
def Team.bays (t : Team) : List Nat := if t.duplex then [t.bay, t.bay + 1] else [t.bay]

def Team.die (t : Team) : Nat := dieOfBay t.bay

/-- The helm of the team as a party (R302, R309). -/
def Team.place (t : Team) : Place :=
  { party := .helm t.key, team := t.key, grp := 0, bay := t.bay, bays := t.bays, die := t.die, inst := t.born }

/-- The synchronisation engine, sequencer and walker of a die as a party (R302). -/
def sePlace (die : Nat) : Place := { party := .se die, team := 0, grp := 0, bay := 0, bays := [], die := die, inst := 0 }

def hostPlace : Place := { party := .host, team := 0, grp := 0, bay := 0, bays := [], die := 4, inst := 0 }

/-- g(n), with g0 reading 0 (R97). -/
def Team.reg (t : Team) (n : GReg) : W64 := if n = 0 then 0 else t.g.getD n.toNat 0

/-- The register array with g(n) written; writes to g0 are discarded (R97, R98). -/
def Team.setReg (t : Team) (n : GReg) (v : W64) : Team := if n = 0 then t else { t with g := t.g.set n.toNat v }

def isKReg (n : GReg) : Bool := decide (56 ≤ n.toNat) && decide (n.toNat ≤ 61)

/-- Writes g(d) at the retirement of a helm word (R97 to R99). -/
def setG (key : Nat) (d : GReg) (v : W64) : M Unit := do
  let t ← teamOf key
  need (t.super || !isKReg d) cPRIV
  mapTeamM key (·.setReg d v)

/-- sys.status.CLASS shows the presented class of the bay (R103, R140). -/
def State.bay? (s : State) (n : Nat) : Option Bay := s.bays.find? fun b => b.num == n

def State.mapBay (s : State) (n : Nat) (f : Bay → Bay) : State :=
  { s with bays := s.bays.map fun b => if b.num == n then f b else b }

def State.classOf (s : State) (bay : Nat) : Nat := match s.bay? bay with | some b => b.presented | none => 0

/-- The presented class of a team's lattice: of a duplex, the lower class, the one of the higher code (R136). -/
def State.teamClass (s : State) (t : Team) : Nat := t.bays.foldl (fun c b => Nat.max c (s.classOf b)) 0

def State.die? (s : State) (n : Nat) : Option Die := s.dies.find? fun d => d.num == n
def State.dieUp (s : State) (n : Nat) : Bool := match s.die? n with | some d => d.inService | none => false
def State.mapDie (s : State) (n : Nat) (f : Die → Die) : State :=
  { s with dies := s.dies.map fun d => if d.num == n then f d else d }

/-- The lowest-numbered die in service, which holds the page and fence sequencers (R365, R348, R438). -/
def State.lowestDie (s : State) : Nat := ((List.range 4).find? fun d => s.dieUp d).getD 0

/-! ### The device context table (R372) -/

/-- The `n` 64-bit values from a location on, each one relaxed unit (R6). -/
def readUnits (p : Place) (loc : Nat) : Nat → M (List Nat)
  | 0 => pure []
  | n + 1 => do
    let bs ← (fun s => .ok (s.readAs p [] none loc 8) : M (List ByteRead))
    let rest ← readUnits p (loc + 8) n
    pure (readValue bs :: rest)

/-- Reads an entry; `p` is the party that reads. -/
def readDct (p : Place) (c : Nat) : M Dct := do
  let s ← get
  let u ← readUnits p (locOf hbmTag ((s.mgmt.dctBase.toNat + 256 * c) % 2 ^ 64)) 32
  let w (i : Nat) : Nat := u.getD i 0
  pure { valid := bitOf (w 0) 0
         bad := bitsOf (w 0) 7 1 != 0 || bitsOf (w 0) 63 48 != 0 || ((u.drop 13).any fun x => x != 0)
         aspace := bitsOf (w 0) 31 8, nteam := bitsOf (w 0) 47 32, qmask := w 1
         roots := [w 2, w 3, w 4, w 5], vector := BitVec.ofNat 64 (w 6), deadline := w 7, otBase := w 8, tbBase := w 9
         saveBase := w 10, saveStride := w 11, mgmtBase := w 12 }

/-- The seg4 address of a team's block (R382). -/
def Dct.blockOf (d : Dct) (tid : Nat) : Nat := (d.tbBase + (tid - 1) * 0x30000) % 2 ^ 64

def State.record? (s : State) (dctx obj : Nat) : Option CodeRecord := s.records.find? fun r => r.dctx == dctx && r.obj == obj

/-! ### Pages (13_addresses.md) -/

inductive AccessKind where
  | read | write | atomic | fetch
deriving DecidableEq, Repr

def leafV (l : Nat) : Bool := bitOf l 63
def leafTgt (l : Nat) : Nat := bitsOf l 62 61
def leafMode (l : Nat) : Nat := bitsOf l 59 58
def leafR (l : Nat) : Bool := bitOf l 57
def leafW (l : Nat) : Bool := bitOf l 56
def leafX (l : Nat) : Bool := bitOf l 55
def leafSup (l : Nat) : Bool := bitOf l 54
def leafHome (l : Nat) : Nat := bitsOf l 53 52
def leafFrame (l : Nat) : Nat := bitsOf l 51 16
def leafNode (l : Nat) : Nat := bitsOf l 15 8

def leafPermits (l : Nat) (k : AccessKind) : Bool :=
  match k with
  | .read => leafR l
  | .write => leafW l
  | .atomic => leafR l && leafW l
  | .fetch => leafX l

/-- A leaf that R359 calls malformed at a level. -/
def leafMalformed (level l : Nat) : Bool :=
  !bitOf l 60 || leafTgt l == 3 || leafMode l == 3 || bitsOf l 7 0 != 0 || decide (level > 1) ||
  (level == 1 && (bitsOf l 20 16 != 0 || leafMode l == 2)) ||
  (leafTgt l == 0 && bitsOf l 51 39 != 0) ||
  (leafMode l == 2 && (leafFrame l != 0 || !leafW l || leafTgt l != 0)) ||
  (leafMode l == 1 && leafW l) || (leafHome l != 0 && leafMode l != 2) || (leafNode l != 0 && leafTgt l != 2)

/-- A table entry with V = 1 and every must-be-0 bit 0 (R358, R359). -/
def tableValid (e : Nat) : Bool := bitOf e 63 && bitsOf e 62 52 == 0 && bitsOf e 7 0 == 0

/-- The index of a level in the address (R358). -/
def levelIndex (level va : Nat) : Nat :=
  match level with
  | 3 => bitsOf va 56 43
  | 2 => bitsOf va 42 30
  | 1 => bitsOf va 29 21
  | _ => bitsOf va 20 16

def entryLoc (table level va : Nat) : Nat := locOf hbmTag ((table + 8 * levelIndex level va) % 2 ^ 64)

def State.entryAt (s : State) (loc : Nat) : Nat := leNat (memGetList s.mem loc 8)

/-- Where a walk ends: the level, the entry's location, and the valid leaf found. -/
structure Walk where
  level : Nat
  loc : Nat
  leaf : Option Nat
deriving DecidableEq, Repr

/-- The walk of a tree for an address, down to `bottom` (R358, R360). -/
def State.walkFrom (s : State) (va bottom : Nat) : Nat → Nat → Walk
  | 0, table =>
    let loc := entryLoc table 0 va
    let e := s.entryAt loc
    { level := 0, loc := loc, leaf := if leafV e && !leafMalformed 0 e then some e else none }
  | level + 1, table =>
    let loc := entryLoc table (level + 1) va
    let e := s.entryAt loc
    if level + 1 = bottom then { level := level + 1, loc := loc, leaf := if leafV e && !leafMalformed (level + 1) e then some e else none }
    else if level = 0 && leafV e && bitOf e 60 then
      { level := 1, loc := loc, leaf := if leafMalformed 1 e then none else some e }
    else if tableValid e then s.walkFrom va bottom level (bitsOf e 51 8 * 256)
    else { level := level + 1, loc := loc, leaf := none }

def State.walk (s : State) (root va : Nat) : Walk := s.walkFrom va 0 3 root

def Walk.large (w : Walk) : Bool := w.level == 1 && w.leaf.isSome

/-- The 8 bytes at a location at the write identifier `floor` and after each later write, in the order of the steps. -/
def State.entryHistory (s : State) (loc floor : Nat) : List Nat :=
  let locs := List.range 8 |>.map fun i => loc + i
  let ws := s.writes.filter fun w => !w.bottom && locs.any w.covers
  let start := locs.map fun a =>
    if ws.any fun w => w.covers a then ((s.writes.find? fun w => w.bottom && w.covers a).map fun w => w.byteOf a).getD 0 else memGet s.mem a
  let put (v : List Byte) (w : Write) : List Byte := (v.zip locs).map fun (x, a) => if w.covers a then w.byteOf a else x
  let (v, seen) := ws.foldl (fun (v, seen) w =>
    (put v w, if decide (floor ≤ w.id) then (if seen.isEmpty then [leNat v] else seen) ++ [leNat (put v w)] else seen)) (start, [])
  if seen.isEmpty then [leNat v] else seen

/-- The write identifier after the last invalidation that names the page, or with `near` any page of its 2 MiB, on a die (R362). -/
def State.invalFloor (s : State) (die aspace va : Nat) (near : Bool) : Nat :=
  ((s.invals.filter fun v => v.die == die && v.aspace == aspace && (match v.page with
    | none => true
    | some p => p == va / 2 ^ 16 || ((near || v.large) && p / 32 == va / 2 ^ 21))).map (·.mark)).foldl Nat.max 0

/-- The walks that the entries' values since the last invalidation of the page allow: each entry read is a relaxed read (R360), and a
leaf or table rewritten by plain stores may be seen old or new until then (R362). `exact` and `near` are the floors of the page and of
its 2 MiB. -/
def State.walksFrom (s : State) (va exact near : Nat) : Nat → Nat → List Walk
  | 0, table =>
    let loc := entryLoc table 0 va
    (s.entryHistory loc exact).map fun e => { level := 0, loc := loc, leaf := if leafV e && !leafMalformed 0 e then some e else none }
  | level + 1, table =>
    let loc := entryLoc table (level + 1) va
    let isLeaf (e : Nat) : Bool := level == 0 && leafV e && bitOf e 60
    ((if level = 0 then (s.entryHistory loc near).filter isLeaf else []).map fun e =>
      { level := 1, loc := loc, leaf := if leafMalformed 1 e then none else some e }) ++
    ((s.entryHistory loc exact).filter fun e => !isLeaf e).flatMap fun e =>
      if tableValid e then s.walksFrom va exact near level (bitsOf e 51 8 * 256) else [{ level := level + 1, loc := loc, leaf := none }]

/-- The walks of a die's tree that a translation for an address may make (R360, R362), the one over the present entries first. -/
def State.walks (s : State) (root aspace die va : Nat) : List Walk :=
  let now := s.walk root va
  now :: ((s.walksFrom va (s.invalFloor die aspace va false) (s.invalFloor die aspace va true) 3 root).filter fun w => w != now).eraseDups

/-- The leaves that a translation by a helm or a stream engine of a bay may use (R362): those that such walks find, and those that its
TLB holds. -/
def State.leavesFor (s : State) (root aspace bay : Nat) (helm : Bool) (va : Nat) : List (Option (Bool × Nat)) :=
  let held := (s.tlb.filter fun e => e.bay == bay && e.helm == helm && e.aspace == aspace &&
    e.page == (if e.large then va / 2 ^ 21 else va / 2 ^ 16)).map fun e => some (e.large, e.leaf)
  (((s.walks root aspace (dieOfBay bay) va).map fun w => w.leaf.map fun l => (w.large, l)) ++ held).eraseDups

/-- Keeps a leaf in a helm TLB of 64 and 1,024 entries (R361); the oldest leaves first (log 11). -/
def State.fillTlb (s : State) (bay : Nat) (helm : Bool) (aspace va : Nat) (large : Bool) (leaf : Nat) : State :=
  let e : TlbEntry := { bay := bay, helm := helm, aspace := aspace, page := if large then va / 2 ^ 21 else va / 2 ^ 16,
                        large := large, leaf := leaf }
  if s.tlb.contains e then s
  else
    let mine := s.tlb.filter fun x => x.bay == bay && x.helm == helm
    let rest := s.tlb.filter fun x => !(x.bay == bay && x.helm == helm)
    { s with tlb := e :: mine.take 1087 ++ rest }

/-- Invalidates a page, of 64 KiB or with `large` of 2 MiB, or the whole address space, on a die (R363). -/
def State.invalidate (s : State) (die aspace : Nat) (va : Option Nat) (large : Bool) : State :=
  let page := va.map fun a => a / 2 ^ 16
  let inside (p : Nat) : Bool := match page with | none => true | some q => p == q || (large && p / 32 == q / 32)
  { s with
    invals := { die := die, aspace := aspace, page := page, large := large, mark := s.nextWrite } ::
      s.invals.filter fun v => !(v.die == die && v.aspace == aspace && (page.isNone || (match v.page with
        | none => false
        | some p => inside p && (large || !v.large))))
    tlb := s.tlb.filter fun e => !(dieOfBay e.bay == die && e.aspace == aspace &&
      (match page with
       | none => true
       | some q => if e.large then e.page == q / 32 else inside e.page)) }

/-- The location of an address under a leaf (R359, R360). -/
def leafLoc (large : Bool) (leaf va : Nat) : Nat :=
  let pa := if large then bitsOf leaf 51 21 * 2 ^ 21 + va % 2 ^ 21 else leafFrame leaf * 2 ^ 16 + va % 2 ^ 16
  match leafTgt leaf with
  | 0 => locOf hbmTag pa
  | 1 => locOf hostTag pa
  | _ => locOf (peerTag (leafNode leaf)) pa

/-- The HBM channel of a physical address: stack and channel of 2 GiB (R9, R437; log 12). -/
def channelOf (pa : Nat) : Nat × Nat := (pa / 2 ^ 36 % 8, pa / 2 ^ 31 % 32)

/-- A response of the peer can come: a link of its route is up, and no time-out is pending (R431). -/
def State.peerUp (s : State) (node : Nat) : Bool :=
  (match s.routes.find? fun r => r.node == node with
   | some r => s.links.any fun l => l.up && bitOf r.mask l.num
   | none => false) && !s.timeouts.contains node

/-- The node of a location in peer memory. -/
def peerOf (loc : Nat) : Option Nat :=
  if 2 ≤ storageOf loc ∧ storageOf loc < 0x102 then some (storageOf loc - 2) else none

/-- A flit of the link: header, payload, CRC (R430). Types are 0 request, 1 response, 2 credit, 3 retry (log 20). -/
def flitOf (seq type node tick : Nat) : List Byte :=
  let p := Config.flitPayload tick
  let body := leBytes 2 seq ++ leBytes 1 type ++ leBytes 1 node ++ leBytes 4 0 ++ (p.take 240 ++ List.replicate (240 - p.length) 0)
  body ++ leBytes 8 (Config.crc64 body).toNat

/-- A link sends a flit: it enters the replay buffer of 64 flits, or while the link retrains it is held (R430, R432). -/
def Link.send (l : Link) (type node tick : Nat) : Link :=
  let f := (l.txSeq, flitOf l.txSeq type node tick)
  let l := { l with txSeq := (l.txSeq + 1) % 2 ^ 16 }
  if l.retraining then { l with held := l.held ++ [f] } else { l with replay := (l.replay ++ [f]).drop (l.replay.length - 63), sent := some f.2 }

/-- A flit for a node, over any link of its route that is up (R431). -/
def State.sendFlit (s : State) (type node : Nat) : State :=
  let mask := ((s.routes.find? fun r => r.node == node).map (·.mask)).getD 0
  let on := s.links.filter fun l => l.up && bitOf mask l.num
  match on[pickOf on.length s.tick]? with
  | none => s
  | some l => { s with tick := s.tick + 1, links := s.links.map fun x => if x.num == l.num then x.send type node s.tick else x }

/-- An access to a location whose data cannot be had (R431, R437): a retired channel, a peer without a route or an answer. A channel
that retires leaves both outcomes open. An access to a peer sends a request. -/
def checkHealth (loc fva : Nat) (write : Bool) : M Unit := do
  let s ← get
  if storageOf loc = hbmTag then
    let (st, ch) := channelOf (offsetOf loc)
    match s.health.find? fun h => h.stack == st && h.ch == ch with
    | some h =>
      if write then pure ()
      else if h.retired then raise cECC_UNCORR fva
      else do
        let bad ← choose 2
        need (bad == 0) cECC_UNCORR fva
    | none => pure ()
  else match peerOf loc with
    | some node => do
      if !s.peerUp node then raise cECC_UNCORR fva 0 write
      modify fun s => s.sendFlit 0 node
    | none => pure ()

/-- The result of a translation. -/
structure Located where
  loc : Nat
  /-- The seg4 address, of a global access. -/
  va : Option Nat
  /-- Its leaf is of 2 MiB. -/
  large : Bool
deriving DecidableEq, Repr

/-- The locations of the entries on the present walk of a tree. -/
def State.pathLocs (s : State) (va : Nat) : Nat → Nat → List Nat
  | 0, table => [entryLoc table 0 va]
  | level + 1, table =>
    let loc := entryLoc table (level + 1) va
    let e := s.entryAt loc
    if level = 0 && leafV e && bitOf e 60 then [loc] else loc :: s.pathLocs va level (bitsOf e 51 8 * 256)

/-- The newest write to some bytes. -/
def State.newestWrite (s : State) (loc n : Nat) : Nat :=
  ((s.writes.filter fun w => !w.bottom && decide (w.loc < loc + n) && decide (loc < w.loc + w.bytes.length)).map (·.id)).foldl Nat.max 0

/-- A page that an access of a context uses, where it is not yet known to have entered the context: it did when the last of the entries
that name it was written, those of its tree and the context's own (R301; log 84). -/
def State.enterUse (s : State) (root dctx va : Nat) (large : Bool) (leaf : Nat) : State :=
  let n := if large then 2 ^ 21 else 2 ^ 16
  let loc := leafLoc large leaf (va / n * n)
  if (s.entered.any fun e => e.dctx == dctx && e.loc == loc && e.size == n) || (s.walk root va).leaf != some leaf then s
  else
    let mark := (s.pathLocs va 3 root).foldl (fun m a => Nat.max m (s.newestWrite a 8))
      (s.newestWrite (locOf hbmTag ((s.mgmt.dctBase.toNat + 256 * dctx) % 2 ^ 64)) 256)
    if mark = 0 then s else { s with entered := { dctx := dctx, loc := loc, size := n, mark := mark + 1 } :: s.entered }

/-- The helm that makes the step may have had the access of its word in flight to the die when it was lost (R438). -/
def State.inFlightTo (s : State) (die : Nat) : Bool :=
  match s.cur with
  | some (.helm key) => (s.team? key).any fun t => t.late.contains die
  | _ => false

/-- The leaf that an access takes of those it may use, with its checks (R360, R359). A first-touch page waits for its fill (R366). -/
def chooseLeaf (roots : List Nat) (aspace dctx die : Nat) (super : Bool) (k : AccessKind) (va : Nat) (opts : List (Option (Bool × Nat))) :
    M (Bool × Nat) := do
  let wr := k == .write || k == .atomic
  let i ← choose opts.length
  match (opts[i]?).join with
  | none => raise cPAGE_NOT_PRESENT va 0 wr (k == .fetch)
  | some (large, leaf) => do
    let s ← get
    if leafMode leaf = 2 then
      let f : Fill := { dctx := dctx, aspace := aspace, va := va / 2 ^ 16 * 2 ^ 16, home := leafHome leaf, leaf := leaf, roots := roots }
      if s.fills.any fun g => g.aspace == aspace && g.va == f.va then waitOn .poolFill
      else if (match s.die? (leafHome leaf) with | some d => d.inService && !d.pool.isEmpty | none => false) then
        fun s => .error (.wait .poolFill { s with fills := s.fills ++ [f] })
      else raise cPAGE_NOT_PRESENT va 0 wr (k == .fetch)
    let die' := dieOfPa (offsetOf (leafLoc large leaf va))
    if leafTgt leaf = 0 && !s.dieUp die' then do
      let i ← if s.inFlightTo die' then choose 2 else pure 0
      raise (if i = 1 then cECC_UNCORR else cPAGE_NOT_PRESENT) va 0 wr (k == .fetch)
    if (leafSup leaf && !super) || !leafPermits leaf k then
      raise cPAGE_PERM va 0 wr (k == .fetch)
    modify fun s => s.enterUse (roots.getD die 0) dctx va large leaf
    pure (large, leaf)

/-- The location under a leaf, where its data can be had (R431, R437). Of peer memory an atomic makes no access (R345). -/
def reachLeaf (k : AccessKind) (va : Nat) (large : Bool) (leaf : Nat) : M Nat := do
  let loc := leafLoc large leaf va
  if !(k == .atomic && (peerOf loc).isSome) then checkHealth loc va (k == .write)
  pure loc

/-- Translation of a global address (R360): its location, and whether the leaf is of 2 MiB. No address beyond the address space comes
here, by R350. -/
def translate (roots : List Nat) (aspace dctx bay : Nat) (helm super : Bool) (k : AccessKind) (va : Nat) : M (Nat × Bool) := do
  if va ≥ 2 ^ 57 then raise cSEG_LIMIT va 0 (k == .write || k == .atomic) (k == .fetch)
  let s ← get
  let (large, leaf) ← chooseLeaf roots aspace dctx (dieOfBay bay) super k va (s.leavesFor (roots.getD (dieOfBay bay) 0) aspace bay helm va)
  if helm then modify fun s => s.fillTlb bay true aspace va large leaf
  let loc ← reachLeaf k va large leaf
  pure (loc, large)

/-! ### The pool fill (R366) -/

/-- A frame as its first owner finds it: every byte 0, with no write but the initial one. -/
def State.zeroFrame (s : State) (pa n : Nat) : State :=
  let a := locOf hbmTag pa
  { s with mem := s.mem.filter fun c => !(decide (a ≤ c.1) && decide (c.1 < a + n))
           writes := s.writes.filter fun w => !(decide (a ≤ w.loc) && decide (w.loc < a + n)) }

/-- Every wait for a pool fill of the address space looks again. -/
def State.wakeFills (s : State) : State :=
  let clear (w : Option WaitFor) : Option WaitFor := if w = some .poolFill then none else w
  { s with teams := s.teams.map fun t =>
      { t with waitFor := clear t.waitFor, groups := t.groups.map fun g =>
        { g with l := { g.l with waitFor := clear g.l.waitFor }, s := { g.s with waitFor := clear g.s.waitFor }
                 paths := g.paths.map fun p => { p with c := { p.c with waitFor := clear p.c.waitFor } } } } }

/-- The page sequencer serves a fill: the frame's leaf in every tree that has the path, then the page's invalidation. A pool found empty
ends the fill, and the access finds it so. -/
def State.fillPage (s : State) (f : Fill) : State :=
  let s := { s with fills := s.fills.erase f }.wakeFills
  let walks := ((List.range 4).filter fun d => s.dieUp d).map fun d => (d, s.walk (f.roots.getD d 0) f.va)
  let paths := walks.filter fun x => x.2.level == 0
  match (s.die? f.home).bind (·.pool.head?) with
  | none => s
  | some pa =>
    if !(paths.any fun x => x.2.leaf == some f.leaf) then s
    else
      let s := (s.mapDie f.home fun d => { d with pool := d.pool.tail }).zeroFrame pa (2 ^ 16)
      let leaf := f.leaf - 2 ^ 59 - leafHome f.leaf * 2 ^ 52 + pa / 2 ^ 16 % 2 ^ 36 * 2 ^ 16
      let s := paths.foldl (fun s x =>
        let (bs, s) := s.atomicRead (sePlace s.lowestDie) x.2.loc 8
        s.atomicWrite (sePlace s.lowestDie) none bs x.2.loc (leBytes 8 leaf)) s
      (List.range 4).foldl (fun s d => s.invalidate d f.aspace (some f.va) false) s

/-! ### The part's own accesses through a context (R360; log 17) -/

/-- The translation of such an access: at supervisor privilege, on the die of the team's lead bay, with no segment test and no TLB. -/
def partTranslate (t : Team) (va : Nat) (k : AccessKind) : M Nat := do
  if va ≥ 2 ^ 57 then raise cSEG_LIMIT va 0 (k == .write) (k == .fetch)
  let s ← get
  let opts := ((s.walks (t.dct.roots.getD t.die 0) t.dct.aspace t.die va).map fun w => w.leaf.map fun l => (w.large, l)).eraseDups
  let (large, leaf) ← chooseLeaf t.dct.roots t.dct.aspace t.dctx t.die true k va opts
  reachLeaf k va large leaf

/-- The location of such an access, or its failing cause. A page fill that it waits for is served meanwhile. -/
def State.partAddr (s : State) (t : Team) (va : Nat) (k : AccessKind := .read) : Except Cause (Nat × State) :=
  let served := match partTranslate t va k s with
    | .error (.wait _ u) => match u.fills.find? fun (f : Fill) => f.aspace == t.dct.aspace && f.va == va / 2 ^ 16 * 2 ^ 16 with
      | some f => partTranslate t va k (u.fillPage f)
      | none => .error (.wait .poolFill u)
    | r => r
  match served with
  | .ok x => .ok x
  | .error (.trap c) => .error c
  | .error _ => .error { code := cPAGE_NOT_PRESENT, fva := va, info := 0, write := k == .write, fetch := k == .fetch, mask := none }

/-! ### Segments (R352, R353) -/

def segSpace (d : W128) : Nat := bitsOf d.toNat 124 122
def segLimit (d : W128) : Nat := bitsOf d.toNat 121 64
def segCache (d : W128) : Nat := bitsOf d.toNat 63 62
def segX (d : W128) : Bool := bitOf d.toNat 59
def segW (d : W128) : Bool := bitOf d.toNat 58
def segR (d : W128) : Bool := bitOf d.toNat 57
def segBase (d : W128) : Nat := bitsOf d.toNat 56 0

/-- A descriptor from its fields. -/
def mkSeg (space limit cache : Nat) (x w r : Bool) (base : Nat) : W128 :=
  BitVec.ofNat 128 (space % 8 * 2 ^ 122 + limit % 2 ^ 58 * 2 ^ 64 + cache % 4 * 2 ^ 62 + b2n x * 2 ^ 59 + b2n w * 2 ^ 58 +
    b2n r * 2 ^ 57 + base % 2 ^ 57)

def segPermits (d : W128) (k : AccessKind) : Bool :=
  match k with
  | .read => segR d
  | .write => segW d
  | .atomic => segR d && segW d
  | .fetch => segX d

def Team.seg (t : Team) (n : Nat) : W128 := t.segs.getD n 0

/-- Bytes of a local allotment by its storage tag (R217, R222). -/
def State.allotSize (s : State) (tag : Nat) : Nat :=
  match s.allots.find? fun a => a.tag == tag with | some a => a.size | none => 0

/-- The cellar allotment of the team's nest on a die (R222); 0 for none. -/
def State.cellarTag (s : State) (nid die : Nat) : Nat :=
  match s.nests.find? fun n => n.nid == nid with
  | some n => (((n.cellar.find? fun c => c.1 == die).map (·.2))).getD 0
  | none => 0

/-- The location of `n` bytes at an offset of a local space, seen from a bay of the team; none beyond the limit (R217, R218, R227). -/
def State.localLoc (s : State) (t : Team) (bay space o n : Nat) : Option Nat :=
  let within (tag off : Nat) : Option Nat := if tag ≠ 0 && decide (off + n ≤ s.allotSize tag) then some (locOf tag off) else none
  match space with
  | 1 => within (if bay = t.bay then t.pad else t.padPartner) o
  | 2 => if o < 2 ^ 21 then within (if bitOf o 20 then t.lndPartner else t.lnd) (o % 2 ^ 20) else none
  | _ => within (s.cellarTag t.nid (dieOfBay bay)) o

/-- A global address in the management window of the context (R372, R427); a MGMTBASE of 0 gives none (log 42). -/
def Team.inWindow (t : Team) (a : Nat) : Bool :=
  t.dct.mgmtBase != 0 && decide (t.dct.mgmtBase ≤ a) && decide (a < t.dct.mgmtBase + 2 ^ 20)

/-- Address(N, o, n, kind) of R118 and the access rules of R353, for a segment value and the bay that accesses. `off` is the offset;
global addresses are translated. -/
def address (t : Team) (bay : Nat) (helm super : Bool) (sg : W128) (off : Int) (n : Nat) (k : AccessKind) : M Located := do
  let wr := k == .write || k == .atomic
  let fva := wrapOf 64 ((segBase sg : Int) + off)
  if off < 0 || off + n > segLimit sg then raise cSEG_LIMIT fva 0 wr (k == .fetch)
  if !segPermits sg k then raise cSEG_PERM fva 0 wr (k == .fetch)
  if segSpace sg = 4 && !super then raise cSEG_PERM fva 0 wr
  if off % n != 0 then raise cMISALIGN fva 0 wr (k == .fetch)
  let a := segBase sg + off.toNat
  let s ← get
  match segSpace sg with
  | 0 =>
    if helm && super && t.inWindow a && (k == .read || k == .write) then
      pure { loc := locOf mgmtTag (a - t.dct.mgmtBase), va := some a, large := false }
    else do
    let (loc, large) ← translate t.dct.roots t.dct.aspace t.dctx bay helm super k a
    pure { loc := loc, va := some a, large := large }
  | 4 =>
    if s.dieUp (a / 0x8000) then pure { loc := locOf (lockTag (a / 0x8000)) (a % 0x8000), va := none, large := false }
    else raise cSEG_PERM fva 0 wr
  | sp => match s.localLoc t bay sp a n with
    | some loc => pure { loc := loc, va := none, large := false }
    | none => raise cSEG_LIMIT fva 0 wr

/-! ### Watches (R407, R408) -/

/-- The lowest watch entry that matches an access, or execution. -/
def Team.watchHit (t : Team) (r w x : Bool) (a n : Nat) : Option Nat :=
  if t.inVector || t.exempt then none
  else (t.watches.find? fun e => ((r && e.r) || (w && e.w) || (x && e.x)) && e.len != 0 && decide (a < e.base + e.len) && decide (e.base < a + n)).map
    (·.index)

def watchAccess (t : Team) (l : Located) (n : Nat) (r w : Bool) : M Unit :=
  match l.va with
  | none => pure ()
  | some a => match t.watchHit r w false a n with
    | some i => raise cWATCH a i w
    | none => pure ()

/-! ### Accesses by the helm (R119) -/

/-- The regions in force: none under MODE = 0; under MODE = 1 the table, and domain system elsewhere (R316, R319). -/
def Team.regionsNow (t : Team) : List Region :=
  if bitOf t.mmcfg.toNat 0 then t.regions ++ [{ base := 0, size := 2 ^ 57, domain := 5 }] else []

/-- The acquire side of a word of the helm that meets releases: edges at the scope (R310, R314), and under MODE = 0 the increment of
the data cache's counter, whose wrap sets SWEPT (R317, R318). `va` is the synchronising location. -/
def helmAcquire (t : Team) (scope : Nat) (va : Option Nat) (heads : List Release) : M Unit := do
  modify fun s => s.acquire t.place (widen t.regionsNow scope va) heads
  if !bitOf t.mmcfg.toNat 0 then do
    let s ← get
    let (swept, s) := s.bumpCounter (.helm t.bay) scope
    set s
    if swept then mapTeamM t.key fun t => { t with mmcfg := t.mmcfg ||| 4 }

/-- A helm access to a segment: the address, with its watch test. -/
def helmAddress (t : Team) (sg : W128) (off : Int) (n : Nat) (k : AccessKind) : M Located := do
  let l ← address t t.bay true t.super sg off n k
  watchAccess t l n (k != .write) (k != .read)
  pure l

def readSpace (p : Place) (regions : List Region) (l : Located) (n : Nat) : M (List ByteRead) :=
  fun s => .ok (s.readAs p regions l.va l.loc n)

/-- A read with what the place's party knows that is none of its program order: text that an engine walks. -/
def readText (p : Place) (l : Located) (n : Nat) : M (List ByteRead) := fun s =>
  let k := s.knowOf p.party
  .ok (s.readWith p k.known k.lifted [] l.va l.loc n)

def writeSpace (p : Place) (regions : List Region) (rel : Option Nat) (l : Located) (bytes : List Byte) : M Unit :=
  modify fun s => s.writeIn p regions l.va rel l.loc bytes

/-- Bytes that an operation of the team's matrix engine still has to read: a store to them waits (R259). -/
def State.leased (s : State) (key loc n : Nat) : Bool :=
  s.mqueue.any fun m => m.team == key && m.leases.any fun x => decide (loc < x.loc + x.len) && decide (x.loc < loc + n)

/-- The same, of an operation that has not begun, whose lease a freeze keeps (R258). -/
def State.leasedQueued (s : State) (key loc n : Nat) : Bool := { s with mqueue := s.mqueue.filter fun m => !m.begun }.leased key loc n

/-! ### Object-table entries (R124, R417, R418) -/

/-- A 64-byte entry as its value. -/
def entryState (e : Nat) : Nat := bitsOf e 1 0

def kernelInfoOf (obj e : Nat) : KernelInfo :=
  { obj := obj, width := 16 * 2 ^ (bitsOf e 121 120), blocks := bitsOf e 124 122, scratch := bitsOf e 119 112,
    landing := bitsOf e 111 107, cellar := bitsOf e 106 98, tiles := bitsOf e 97 94,
    text := BitVec.ofNat 128 (bitsOf e 511 384), blkOff := bitsOf e 159 128, nblk := bitsOf e 175 160 }

/-- Adds `d` to REFS of the entry at a location, one atomic at its home; of an entry left at 0 while retiring the same step makes STATE 0
(R418). -/
def State.addRefs (s : State) (p : Place) (loc : Nat) (d : Int) : State :=
  let (rs, s) := s.atomicRead p (loc + 28) 4
  let refs := wrapOf 32 ((readValue rs : Int) + d)
  let s := s.atomicWrite p none rs (loc + 28) (leBytes 4 refs)
  let now := readValue (s.homeBytes loc 4)
  if refs = 0 && entryState now == 3 then
    let (bs, s) := s.atomicRead p loc 4
    s.atomicWrite p none bs loc (leBytes 4 (now - 3))
  else s

/-- The location of entry `obj`, if its table is mapped. -/
def State.objLoc (s : State) (t : Team) (obj : Nat) : Option (Nat × State) := (s.partAddr t (t.dct.otBase + 64 * obj)).toOption

/-- A write of the part through the team's context, where the page can be had. -/
def State.partWrite (s : State) (t : Team) (va : Nat) (bytes : List Byte) : State :=
  match s.partAddr t va .write with
  | .ok (loc, s) => s.writeAs t.place none loc bytes
  | .error _ => s

/-- The object switch to entry `obj` (R124, R417, R418): one acquire at system scope that reads the entry, pins the object where it is
not yet pinned, binds seg0 and seg1 and loads lk. `desc` is the descriptor for sys.faultva. -/
def switchObject (key : Nat) (desc : W64) (obj : Nat) : M Unit := do
  let t ← teamOf key
  let s ← get
  match (if obj = 0 then none else s.objLoc t obj) with
  | none => raise cSEG_PERM desc.toNat
  | some (loc, s) => do
    set s
    let bs ← (fun s => .ok (s.atomicRead t.place loc 64) : M (List ByteRead))
    let e := readValue bs
    need (decide (2 ≤ entryState e)) cSEG_PERM desc.toNat
    helmAcquire t 5 none (readHeads bs)
    if !t.pins.contains obj then do
      need (decide (t.pins.length < 32)) cSEG_PERM desc.toNat
      modify fun s => s.addRefs t.place loc 1
      mapTeamM key fun t => { t with pins := t.pins ++ [obj] }
      -- the pin list of the team block (log 13)
      modify fun s => s.partWrite t (t.block + 0xD000 + 2 * t.pins.length) (leBytes 2 obj)
    mapTeamM key fun t =>
      { t with curObj := obj
               curBlkOff := bitsOf e 159 128
               curNblk := bitsOf e 175 160
               segs := (t.segs.set 0 (BitVec.ofNat 128 (bitsOf e 511 384))).set 1 (BitVec.ofNat 128 (bitsOf e 383 256))
               g := t.g.set 63 (BitVec.ofNat 64 (bitsOf e 223 192)) }

/-! ### Fault records (R288, R370, R399, R404) -/

structure RecordFields where
  bmva : Nat
  fva : Nat
  tag : Nat
  seq : Nat
  doneb : Nat
  fsec : Nat
  miss : Nat
  nsec : Nat
  wph : Nat
  bay : Nat
  ctx : Nat
  ch : Nat
  cmd : Nat
  cause : Nat
  flags : Nat
  src : Nat
  dst : Nat
deriving DecidableEq, Repr

def RecordFields.zero : RecordFields :=
  { bmva := 0, fva := 0, tag := 0, seq := 0, doneb := 0, fsec := 0, miss := 0, nsec := 0, wph := 0, bay := 0, ctx := 0, ch := 0,
    cmd := 0, cause := 0, flags := 0, src := 0, dst := 0 }

/-- The 512 bits of R288. -/
def RecordFields.image (r : RecordFields) : Nat :=
  r.bmva % 2 ^ 64 * 2 ^ 448 + r.fva % 2 ^ 64 * 2 ^ 384 + r.tag % 2 ^ 32 * 2 ^ 352 + r.seq % 2 ^ 32 * 2 ^ 320 +
  r.doneb % 2 ^ 40 * 2 ^ 280 + r.fsec % 2 ^ 24 * 2 ^ 256 + r.miss % 2 ^ 24 * 2 ^ 232 + r.nsec % 2 ^ 24 * 2 ^ 208 +
  r.wph % 2 ^ 32 * 2 ^ 176 + r.bay % 2 ^ 8 * 2 ^ 152 + r.ctx % 4 * 2 ^ 150 + r.ch % 4 * 2 ^ 148 + r.cmd % 16 * 2 ^ 144 +
  r.cause % 2 ^ 8 * 2 ^ 136 + r.flags % 2 ^ 8 * 2 ^ 128 + r.src % 2 ^ 64 * 2 ^ 64 + r.dst % 2 ^ 64

/-! ### Registered waits (R332) -/

/-- A party of the team. -/
def Party.ofTeam (p : Party) (key : Nat) : Bool := match p with | .helm t => t == key | .engine t _ _ _ => t == key | _ => false

/-- The parties give their waiter entries back: they wait no more, or stop before their words. -/
def State.unregister (s : State) (f : Party → Bool) : State :=
  { s with waypoints := s.waypoints.map fun w => { w with waiting := w.waiting.filter fun x => !f x.1 } }

/-- FQPROD - FQCONS, the records being posted counted in, is 4,096: the next poster waits (R370, R429). -/
def State.queueFull (s : State) : Bool :=
  decide ((s.mgmt.fqProd + 2 ^ 32 - s.mgmt.fqCons % 2 ^ 32) % 2 ^ 32 + s.posts.length ≥ 4096)

/-- Hands a record to the poster (R429), with what the place releases at system scope. -/
def State.post (s : State) (p : Place) (r : RecordFields) : State :=
  let s := s.drainParty p.party
  { s with posts := s.posts ++ [{ record := r.image, release := s.releaseOf p 5 }] }

/-- The team's parties no longer wait on any ring (R244). -/
def State.leaveRings (s : State) (key : Nat) : State :=
  { s with rings := s.rings.map fun r => { r with waiters := r.waiters.filter (fun w => !w.1.ofTeam key), ended := r.ended.filter fun w => !w.1.ofTeam key } }

/-- A failing access of this cause spends the pending time-outs (R431). -/
def State.answered (s : State) (cause : Nat) : State := { s with timeouts := if cause = cECC_UNCORR then [] else s.timeouts }

/-! ### Traps (R178, R394 to R398, R405, R406) -/

/-- A DOUBLE (R398, R399): the context stops before the word and a record is posted. `sec` is the dump section, `src` its
destination. -/
def State.double (s : State) (key : Nat) (c : Cause) (sec : Nat := 0xFF) (src : Nat := 0) : State :=
  match s.team? key with
  | none => s
  | some t =>
    let s := (((s.answered c.code).unregister (· == .helm key)).leaveRings key).mapTeam key fun t => { t with phase := .stopped, waitFor := none, granted := none }
    s.post t.place { RecordFields.zero with
      fva := c.fva, tag := t.pc.toNat, seq := 0xFFFFFFFF, fsec := c.code + sec * 256, bay := t.bay, ctx := t.ctx, cmd := 0xC,
      cause := cDOUBLE, flags := b2n c.write + 2 * b2n c.fetch, src := src, dst := t.curObj * 2 ^ 48 }

/-- The freeze of a team by a trap (R178): the first trap gives the cause, any other raises nothing. -/
def State.freeze (s : State) (key : Nat) (tr : Trap) : State :=
  let stepping := (s.team? key).any fun t => t.phase == .stepping
  let s := s.unregister fun p => p == .helm key || (stepping && p.ofTeam key)
  (s.answered tr.cause).mapTeam key fun (t : Team) =>
    let t : Team := { t with late := [] }
    let t : Team := if t.phase = Phase.running || t.phase = Phase.stepping then
      { t with scWait := false, scGrant := false, marks := none, granted := none } else t
    match t.phase with
    | .running => { t with phase := .freezing, trap := some tr, waitFor := none }
    | .stepping => { t with phase := .freezing, trap := some tr, waitFor := none, plan := [], stepBase := none
                            stepmask := t.stepmask &&& ~~~(0x100 : W64) }
    | _ => t

def Cause.helmTrap (c : Cause) : Trap :=
  { cause := c.code, fva := BitVec.ofNat 64 c.fva, info := c.info, eng := 3, grp := 0, path := 0, word := 0, rep := 0, mask := 0,
    lane := false, write := c.write, fetch := c.fetch }

/-- A trap that the helm's oldest unretired word raises: DOUBLE in a vector, else the freeze of its team. -/
def State.helmTrap (s : State) (key : Nat) (c : Cause) : State :=
  match s.team? key with
  | none => s
  | some t => if t.inVector then s.double key c else s.freeze key c.helmTrap

/-- The end of a single step (R406). -/
def stepEndTrap : Trap :=
  { cause := cBREAK, fva := 0, info := 0x100, eng := 3, grp := 0, path := 0, word := 0, rep := 0, mask := 0, lane := false,
    write := false, fetch := false }

/-- Takes the first item off a single step's plan; with none left the step ends. `adv` is the ADV bit of the word performed. -/
def State.stepDone (s : State) (key : Nat) (adv : W64) : State :=
  match s.team? key with
  | some t =>
    if t.phase = .stepping then
      let s := s.mapTeam key fun t => { t with plan := t.plan.tail, stepBase := none, stepmask := t.stepmask ||| adv }
      if t.plan.length ≤ 1 then s.freeze key stepEndTrap else s
    else s
  | none => s

/-! ### The helm's retirement (R96, R128, R130) -/

/-- How a helm word goes on. -/
inductive Next where
  /-- The word after. -/
  | seq
  /-- As `seq`, after a `sys.wr` to the loop register of this number (R128). -/
  | seqLoop (num : Nat)
  /-- A taken `b`, `j` or `ret`, to an offset of the object current after it. -/
  | jump (off : Nat)
  /-- A taken `call`, `callr`, `callx` or `hloop`. -/
  | far (off : Nat)
  /-- The word has left the context as it is to go on: `eret`, `halt`, `team.exit`, a swap-out. -/
  | gone
deriving DecidableEq, Repr

/-- pc and loop registers after a word of `len` bytes: `t` before it, `u` after its effect (R130). -/
def nextPc (t u : Team) (len : Nat) (n : Next) : W64 × LoopRegs :=
  let pc := t.pc.toNat
  let active := t.loop.lcnt != 0 && t.loop.lobj.toNat == t.curObj
  let atEnd := active && (pc + len == t.loop.lend.toNat)
  match n with
  | .jump off =>
    let inside (o : Nat) : Bool := decide (t.loop.lbeg.toNat ≤ o) && decide (o < t.loop.lend.toNat)
    let leaves := active && inside pc && !(u.curObj == t.curObj && inside off)
    (BitVec.ofNat 64 off, if leaves then { u.loop with lcnt := 0 } else u.loop)
  | .far off => (BitVec.ofNat 64 off, u.loop)
  | .gone => (u.pc, u.loop)
  | n =>
    if atEnd then
      let lc := t.loop.lc + 1
      let more := decide (lc.toNat < t.loop.lcnt.toNat)
      let kept (num : Nat) : Bool := match n with | .seqLoop m => m == num | _ => false
      (if more then t.loop.lbeg else t.loop.lend,
       { u.loop with lc := if kept 0x10 then u.loop.lc else lc
                     lcnt := if kept 0x11 then u.loop.lcnt else if more then u.loop.lcnt else 0 })
    else (BitVec.ofNat 64 (pc + len), u.loop)

/-- The team at its next word: pc and loop registers, and the watch exemption spent (R408). -/
def Team.goOn (u : Team) (x : W64 × LoopRegs) : Team := { u with pc := x.1, loop := x.2, exempt := false, waitFor := none, granted := none, late := [] }

/-- Retirement of a word of `t` of `len` bytes. -/
def State.retire (s : State) (t : Team) (len : Nat) (n : Next) : State :=
  match n with
  | .gone => s
  | n =>
    let u := (s.team? t.key).getD t
    (s.mapTeam t.key (·.goOn (nextPc t u len n))).stepDone t.key 0

/-- The helm of the team may retire a word: it runs, is in its vector, or its step is due (R406). -/
def Team.helmMayRun (t : Team) : Bool :=
  t.resident && match t.phase with
    | .running => true
    | .vector => true
    | .stepping => t.plan.head? == some .helm
    | _ => false

/-- A wait of the helm: nothing retires. In a single step the item is passed over (R406). -/
def State.helmWait (s : State) (key : Nat) (w : WaitFor) : State :=
  (s.mapTeam key fun t => { t with waitFor := some w }).stepDone key 0

/-- The machine in which every peer answers. -/
def State.answering (s : State) : State :=
  { s with
    timeouts := [], routes := (List.range 256).map fun n => { node := n, mask := 1 }
    links := [{ num := 0, up := true, failedLanes := [], retraining := false, txSeq := 0, rxSeq := 0, replay := [], held := [], sent := none, txRetries := 0, rxRetries := 0 }] }

/-- The machine with the memory of another. -/
def State.withMemory (s v : State) : State :=
  { s with mem := v.mem, writes := v.writes, home := v.home, know := v.know, tokens := v.tokens, nextWrite := v.nextWrite, tick := v.tick }

/-- A write that fails for want of a peer's answer may have been performed there: `land` performs it (R431; log 52). -/
def State.mayLand (s : State) (c : Cause) (land : State → State) : State :=
  if c.code = cECC_UNCORR ∧ c.write = true then
    let u := { s with tick := s.tick + 1 }
    if pickOf 2 s.tick = 0 then u else land u
  else s

/-- What a word writes, where every peer answers, has landed. -/
def State.landed {α : Type} (m : M α) (s : State) : State := match m s.answering with | .ok (_, v) => s.withMemory v | .error _ => s

/-- Runs a helm word of `len` bytes for the helm that makes the step. -/
def runHelm (len : Nat) (body : Team → M Next) (s : State) : Out :=
  match s.cur with
  | some (.helm key) =>
    match s.team? key with
    | none => .fault .wrongParty
    | some t =>
      if t.helmMayRun then
        match body t s with
        | .ok (n, s') => .next (s'.retire t len n)
        | .error (.trap c) => .next ((s.mayLand c (State.landed (body t))).helmTrap key c)
        | .error (.wait w s') => .next (s'.helmWait key w)
        | .error (.fault f) => .fault f
      else .fault .wrongParty
  | _ => .fault .wrongParty

/-- A word that computes g(d) from the team and reads nothing else. -/
def helmValue (len : Nat) (d : GReg) (f : Team → W64) (s : State) : Out :=
  runHelm len (fun t => do setG t.key d (f t); pure .seq) s

/-- A step of the machine that no word encodes: nothing happens unless its guard holds. -/
def runEvent (f : State → Option State) (s : State) : Out := .next ((f s).getD s)

/-! ### The vector (R395, R403) -/

/-- sys.cause (R396). -/
def causeImage (tr : Trap) : Nat :=
  (if tr.eng = 3 then 0 else tr.word % 2 ^ 32 * 2 ^ 32) + tr.info % 512 * 2 ^ 23 + tr.path % 4 * 2 ^ 21 + tr.grp % 32 * 2 ^ 16 +
  tr.eng % 4 * 2 ^ 14 + tr.cause % 256

/-- k0 of a lane access (R367). -/
def k0Image (tr : Trap) : Nat :=
  tr.grp % 32 + tr.path % 4 * 2 ^ 5 + tr.eng % 4 * 2 ^ 7 + tr.rep % 32 * 2 ^ 9 + tr.cause % 256 * 2 ^ 16

/-- The descriptor of the helm's stop point (R397), whose OFF is 32 bits wide (R121; log 88). -/
def Team.stopPoint (t : Team) : W64 := BitVec.ofNat 64 (t.curObj * 2 ^ 48 + t.pc.toNat % 2 ^ 32)

def saveBytes (t : Team) : List Byte :=
  (t.segs.map fun d => leBytes 16 d.toNat).flatten ++ leBytes 8 t.curObj ++ leBytes 8 t.loop.lc.toNat ++ leBytes 8 t.loop.lcnt.toNat ++
  leBytes 8 t.loop.lbeg.toNat ++ leBytes 8 t.loop.lend.toNat ++ leBytes 8 t.loop.lobj.toNat

/-- A write of the part that fails for want of a peer's answer may have been performed there (R431; log 52). -/
def State.partLands (s : State) (t : Team) (va : Nat) (c : Cause) (bytes : List Byte) : State :=
  s.mayLand c fun u => match u.answering.partAddr t va .write with | .ok (loc, _) => u.writeAs t.place none loc bytes | .error _ => u

/-- Steps 2 to 4 of R395; the save area is one write (log 73). A failing write, and a vector descriptor that R124 rejects, stop the entry with a DOUBLE record. -/
def State.enterVectorFrom2 (s : State) (key : Nat) : State :=
  match s.team? key with
  | none => s
  | some t =>
    let fail (s : State) (fva code : Nat) : State :=
      ((s.answered code).mapTeam key fun t => { t with phase := .stopped, inVector := false }).post t.place { RecordFields.zero with
        fva := fva, tag := t.epc.toNat % 2 ^ 32, seq := 0xFFFFFFFF, fsec := code + 0xFF * 256, bay := t.bay, ctx := t.ctx, cmd := 0xC,
        cause := cDOUBLE, flags := 1, dst := t.epc.toNat / 2 ^ 48 * 2 ^ 48 }
    match s.partAddr t (t.block + 0xE000) .write with
    | .error c => fail (s.partLands t (t.block + 0xE000) c (saveBytes t)) (t.block + 0xE000) c.code
    | .ok (loc, u) =>
      let s1 := u.writeAs t.place none loc (saveBytes t)
      let s2 := s1.mapTeam key fun t => { t with loop := { t.loop with lcnt := 0 }, super := true, inVector := true, phase := .vector }
      let go : M Unit := do
        need (t.dct.vector.toNat % 4 == 0) cMISALIGN t.dct.vector.toNat
        switchObject key t.dct.vector (t.dct.vector.toNat / 2 ^ 48)
        mapTeamM key fun t => { t with pc := (t.dct.vector.setWidth 32).setWidth 64 }
      match go s2 with
      | .ok (_, s3) => s3
      | .error (.trap c) => fail s c.fva c.code
      | .error _ => s

/-- Vector entry (R395): sys.cause, sys.epc, sys.faultva, and k0 and k1 for a lane access; then steps 2 to 4. -/
def State.enterVector (s : State) (key : Nat) : State :=
  match s.team? key with
  | none => s
  | some t =>
    match t.trap with
    | none => s
    | some tr =>
      match (readDct t.place t.dctx) s with
      | .error _ => s
      | .ok (d, s) =>
        (s.leaveRings key |>.mapTeam key fun t =>
          let t := { t with dct := d, cause := BitVec.ofNat 64 (causeImage tr), epc := t.stopPoint, faultva := tr.fva, trap := none }
          if tr.lane then { t with g := (t.g.set 56 (BitVec.ofNat 64 (k0Image tr))).set 57 tr.mask } else t).enterVectorFrom2 key

/-- The watch table of the team block, read anew (R407). -/
def readWatches (t : Team) : M (List Watch) := do
  let s ← get
  match s.partAddr t (t.block + 0xF000) with
  | .error _ => pure []
  | .ok (loc, s) => do
    set s
    let one (i : Nat) : M (Option Watch) := do
      let bs ← (fun s => .ok (s.readAs t.place [] none (loc + 16 * i) 16) : M (List ByteRead))
      let v := readValue bs
      if bitsOf v 31 8 != 0 || bitsOf v 3 0 != 0 || !bitOf v 7 then pure none
      else pure (some { index := i, base := bitsOf v 127 64, len := bitsOf v 63 32, x := bitOf v 6, w := bitOf v 5, r := bitOf v 4 })
    let a ← one 0
    let b ← one 1
    let c ← one 2
    let d ← one 3
    pure ([a, b, c, d].filterMap id)

/-- The region table of 64 entries of 16 bytes at RTADDR (R319, R320) is loaded by `loadRegions` in Sync.lean. -/
def regionCount : Nat := 64

end Sys2Proof.Machine
end

