-- ==== Sys2Proof/Machine/Operands.lean ====
section
/-! DEFINITION. The operand forms of the helm's words (02_encoding.md R32, R38 to R40; 04_helm.md R107, R109, R117). -/

namespace Sys2Proof.Machine

/-- Bytes of a size code (R32). -/
def sizeBytes (code : BitVec 3) : Nat := 2 ^ (code.toNat % 4)

/-- A loaded value widened to 64 bits (R32). -/
def widenLoad (code : BitVec 3) (v : Nat) : W64 :=
  if code.toNat < 4 then BitVec.ofNat 64 v else BitVec.ofInt 64 (signedOf (8 * sizeBytes code) v)

/-- A sign-extended immediate of 12 bits (R38). -/
def imm12 (i : BitVec 12) : W64 := i.signExtend 64

/-- The offset of a branch or jump target: `units` of 4 bytes from the word (R39), in the 32 bits of a seg0 offset (R121). -/
def branchTarget (pc : W64) (units : Int) : Nat := wrapOf 32 ((pc.toNat : Int) + 4 * units)

/-- The mask F and low bit of a field descriptor (R107). -/
def fieldMask (b : W64) : W64 :=
  let lo := b.toNat % 64
  let w := b.toNat / 64 % 64 + 1
  BitVec.ofNat 64 ((2 ^ w - 1) * 2 ^ lo)

/-- The format of a `.s` or `.d` operand (R109). -/
def fpOf (p : Bool) : Fp := if p then fp64 else fp32

/-- A float operand: bits [31:0] under `.s` (R109). -/
def fpArg (p : Bool) (v : W64) : Nat := if p then v.toNat else v.toNat % 2 ^ 32

/-- The origin NaN of a helm word (R83, R110). -/
def helmOrigin (p : Bool) (t : Team) : Nat :=
  if p then originNaN64 true 0 (originHash t.curObj t.pc.toNat) else originNaN32 0 (originHash t.curObj t.pc.toNat)

/-- The offset of an `ld` or `st`: g(ga) signed, plus imm9 scaled (R40, R117). -/
def shortOffset (t : Team) (a : GReg) (size : BitVec 3) (imm : BitVec 9) : Int := (t.reg a).toInt + imm.toInt * (sizeBytes size : Int)

/-- The offset of an `lds` or `sts`. -/
def longOffset (t : Team) (a : GReg) (imm : W32) : Int := (t.reg a).toInt + imm.toInt

/-- The 128-bit value of a register pair ga, ga + 1. -/
def Team.pair (t : Team) (a : GReg) : W128 := BitVec.ofNat 128 ((t.reg a).toNat + (t.reg (a + 1)).toNat * 2 ^ 64)

end Sys2Proof.Machine
end

