-- ==== Sys2Proof/Machine/Flags.lean ====
section
/-! DEFINITION. What the part computes as flags: relations, field-access codes and sticky records (00_scope.md R4, 03_formats.md
R77, R87, R88, 04_helm.md R112, R122, R128). The machine has no condition-code register. -/

namespace Sys2Proof.Machine

/-- The six relations of the branches, by number eq, ne, lt, ge, ltu, geu (R122). -/
def relation (cc : Nat) (a b : W64) : Bool :=
  match cc with
  | 0 => a == b
  | 1 => a != b
  | 2 => a.slt b
  | 3 => !a.slt b
  | 4 => a.ult b
  | _ => !a.ult b

def boolWord (b : Bool) : W64 := if b then 1 else 0

/-- `fcmp` by number eq, lt, le, un (R112). -/
def floatRelation (f : Fp) (cc a b : Nat) : Bool :=
  match fCompare f a b with
  | none => cc == 3
  | some c => match cc with
    | 0 => c == 0
    | 1 => decide (c < 0)
    | 2 => decide (c ≤ 0)
    | _ => false

/-- Each 1 written clears the bit (W1C of R4), within a mask. -/
def clearOnes (old mask v : W64) : W64 := old &&& ~~~(mask &&& v)

/-- An origin offered to sys.nanorigin, recorded while VALID is 0 (R87, R88). -/
def Team.offerOrigin (t : Team) (fmt : Nat) (helm : Bool) (lane grp hash : Nat) : Team :=
  if bitOf t.nanorigin.toNat 63 then t
  else { t with nanorigin := BitVec.ofNat 64 (2 ^ 63 + fmt % 32 * 2 ^ 51 + b2n helm * 2 ^ 50 + lane % 256 * 2 ^ 40 +
      grp % 256 * 2 ^ 32 + hash % 65536) }

/-- The sticky bit of sys.subst that a widened source format sets (R77, R78). -/
def substBit (fmt : Nat) : W64 := if fmt = 0x10 then 1 else if fmt = 0x11 then 2 else if fmt = 0x12 then 4 else 0

/-- The bits of sys.status, with the class that the lead bay presents (R103, R140). -/
def statusOf (s : State) (t : Team) : W64 :=
  BitVec.ofNat 64 (t.bay % 256 * 2 ^ 16 + s.classOf t.bay % 4 * 2 ^ 14 + t.ctx % 4 * 2 ^ 12 + b2n t.duplex * 2 ^ 11 +
    b2n t.duplex * 2 ^ 10 + b2n t.shapeChanged * 8 + b2n t.step * 4 + b2n t.super)

end Sys2Proof.Machine
end

