-- ==== Sys2Proof/Machine/HelmMem.lean ====
section
/-! DEFINITION. The helm's branches, calls and the hardware loop (04_helm.md R122 to R130). -/

namespace Sys2Proof.Machine

/-- A store to leased bytes waits (R259). -/
def waitLease (t : Team) (l : Located) (n : Nat) : M Unit := do
  let s ← get
  if s.leased t.key l.loc n then waitOn .matrix

/-! ### Branches and jumps (R122, R123) -/

/-- The branch of relation number `cc`. -/
def branch (cc : Nat) (a b : GReg) (off : BitVec 12) (s : State) : Out :=
  runHelm 4 (fun t => pure (if relation cc (t.reg a) (t.reg b) then .jump (branchTarget t.pc off.toInt) else .seq)) s

def execBEq (a b : GReg) (off : BitVec 12) (s : State) : Out := branch 0 a b off s
def execBNe (a b : GReg) (off : BitVec 12) (s : State) : Out := branch 1 a b off s
def execBLt (a b : GReg) (off : BitVec 12) (s : State) : Out := branch 2 a b off s
def execBGe (a b : GReg) (off : BitVec 12) (s : State) : Out := branch 3 a b off s
def execBLtu (a b : GReg) (off : BitVec 12) (s : State) : Out := branch 4 a b off s
def execBGeu (a b : GReg) (off : BitVec 12) (s : State) : Out := branch 5 a b off s

def execJ (off : BitVec 18) (s : State) : Out := runHelm 4 (fun t => pure (.jump (branchTarget t.pc off.toInt))) s

/-- The descriptor of the word after one of `len` bytes (R121, R123). -/
def linkOf (t : Team) (len : Nat) : W64 := BitVec.ofNat 64 (t.curObj * 2 ^ 48 + (t.pc.toNat + len) % 2 ^ 32)

def execCall (d : GReg) (off : BitVec 18) (s : State) : Out :=
  runHelm 4 (fun t => do
    setG t.key d (linkOf t 4)
    pure (.far (branchTarget t.pc off.toInt))) s

/-- The transfer of `callr` by a descriptor (R124, R46). -/
def callBy (t : Team) (len : Nat) (d : GReg) (desc : W64) : M Next := do
  switchObject t.key desc (desc.toNat / 2 ^ 48)
  need (desc.toNat % 4 == 0) cMISALIGN desc.toNat
  setG t.key d (linkOf t len)
  pure (.far (desc.toNat % 2 ^ 32))

def execCallr (d a : GReg) (s : State) : Out := runHelm 4 (fun t => callBy t 4 d (t.reg a)) s

/-- R126: the link-table entry, read as one unit of 16 bytes. -/
def execCallx (d : GReg) (idx : W32) (s : State) : Out :=
  runHelm 8 (fun t => do
    let l ← helmAddress t (t.seg 15) ((t.reg 63).toInt + 16 * (idx.toNat : Int)) 16 .read
    let bs ← readSpace t.place t.regionsNow l 16
    callBy t 8 d (BitVec.ofNat 64 (readValue bs))) s

/-- R129. -/
def execHloop (a : GReg) (off : BitVec 12) (s : State) : Out :=
  runHelm 4 (fun t => do
    need (t.loop.lcnt == 0) cILLEGAL
    if t.reg a = 0 then pure (.far (branchTarget t.pc off.toInt))
    else do
      mapTeamM t.key fun u => { u with loop :=
        { lc := 0, lcnt := t.reg a, lbeg := BitVec.ofNat 64 (branchTarget t.pc 1)
          lend := BitVec.ofNat 64 (branchTarget t.pc off.toInt), lobj := BitVec.ofNat 64 t.curObj } }
      pure (.far (branchTarget t.pc 1))) s

end Sys2Proof.Machine
end

