-- ==== Sys2Proof/Machine/Fetch.lean ====
section
/-! DEFINITION. Which party moves next, and the word it fetches (04_helm.md R96, R127; 02_encoding.md R29, R44 to R46). -/

namespace Sys2Proof.Machine

/-- An X watch that names the word at an offset of an object (R408). -/
def Team.watchWord (t : Team) (obj off : Nat) : Option Nat :=
  if t.inVector || t.exempt then none
  else (t.watches.find? fun e => e.x && e.base / 2 ^ 48 == obj && decide (e.base % 2 ^ 32 ≤ off) &&
    decide (off < e.base % 2 ^ 32 + e.len)).map (·.index)

/-- One 4-byte unit of helm text at a seg0 offset (R353). -/
def fetchUnit (t : Team) (off : Nat) : M (List Byte) := do
  need (segSpace (t.seg 0) == 0) cSEG_PERM (wrapOf 64 ((segBase (t.seg 0) + off : Nat) : Int))
  let l ← address t t.bay true t.super (t.seg 0) off 4 .fetch
  let bs ← readSpace t.place t.regionsNow l 4
  pure (bs.map (·.value))

/-- The word at the team's pc; a word that no instruction has is `unassignedHelmWord` (R44). -/
def fetchHelm (t : Team) : M Instr := do
  let a ← fetchUnit t t.pc.toNat
  let b ← (if bitOf (leNat a) 0 then fetchUnit t (t.pc.toNat + 4) else pure [])
  match decodeHelm (a ++ b) with
  | .ok (i, _) => pure i
  | .error _ => pure .unassignedHelmWord

/-- A word that an X watch matches, before it takes effect (R408): the team, the entry's index, the lane group and engine of a strand
word, and the state in which WATCH is raised for that entry. -/
structure WatchTrial where
  key : Nat
  index : Nat
  engine : Option (Nat × Eng)
  trapped : State

/-- What a move comes to: an instruction to execute, a step that executes none, or an instruction that a watch meets. -/
inductive Picked where
  | run (i : Instr) (s : State)
  | idle (s : State)
  | watched (i : Instr) (s : State) (w : WatchTrial)

/-- The team is frozen by WATCH for an entry below one. -/
def State.watchBelow (s : State) (key index : Nat) : Bool :=
  match (s.team? key).bind (·.trap) with
  | some tr => tr.cause == cWATCH && decide (tr.info < index)
  | none => false

def State.teamAt (s : State) (bay ctx : Nat) : Option Team := s.teams.find? fun t => t.resident && t.bay == bay && t.ctx == ctx

/-- The next helm word lies at an offset that the object records by `.node` (R385). -/
def State.atNode (s : State) (t : Team) : Bool :=
  match s.record? t.dctx t.curObj with | some r => r.nodes.contains t.pc.toNat | none => false

/-- The move of a helm context. A team that is to be pre-empted goes no further than its next node boundary (R386). -/
def pickHelm (bay ctx : Nat) (s : State) : Picked :=
  match s.teamAt bay ctx with
  | none => .idle s
  | some t =>
    if t.preempt && t.phase == .running && s.atNode t then .idle s
    else if t.helmMayRun then
      match fetchHelm t { s with cur := some (.helm t.key) } with
      | .ok (i, s') => match t.watchWord t.curObj t.pc.toNat with
        | some x =>
          let c : Cause := { code := cWATCH, fva := t.pc.toNat, info := x, write := false, fetch := false, mask := none }
          .watched i s' { key := t.key, index := x, engine := none, trapped := s'.helmTrap t.key c }
        | none => .run i s'
      | .error (.trap c) => .idle (s.helmTrap t.key c)
      | .error (.wait w s') => .idle (s'.helmWait t.key w)
      | .error (.fault _) => .idle s
    else .idle s

end Sys2Proof.Machine
end

