-- ==== Sys2Proof/Machine/Strand.lean ====
section
/-! DEFINITION. How an engine of a lane group runs strand text: engines and paths, registers, tokens, lq and sq, traps, repetitions
(06_queues.md R155 to R182, 07_lanes.md R183 to R191, 02_encoding.md R54, R55). -/

namespace Sys2Proof.Machine

/-! ### Groups and engines -/

def Team.group? (t : Team) (n : Nat) : Option Group := t.groups.find? fun g => g.num == n

def State.mapGroup (s : State) (key grp : Nat) (f : Group → Group) : State :=
  s.mapTeam key fun t => { t with groups := t.groups.map fun g => if g.num == grp then f g else g }

def mapGroupM (key grp : Nat) (f : Group → Group) : M Unit := modify fun s => s.mapGroup key grp f

def Group.pathAt (g : Group) (p : Nat) : Path := g.paths.getD p Path.fresh

def Group.eng (g : Group) (who : Eng) : Engine := match who with | .l => g.l | .s => g.s | .c p => (g.pathAt p).c

def Group.setPath (g : Group) (p : Nat) (x : Path) : Group := { g with paths := g.paths.set p x }

def Group.mapPath (g : Group) (p : Nat) (f : Path → Path) : Group := g.setPath p (f (g.pathAt p))

def Group.setEng (g : Group) (who : Eng) (e : Engine) : Group :=
  match who with
  | .l => { g with l := e }
  | .s => { g with s := e }
  | .c p => g.mapPath p fun x => { x with c := e }

def Group.mapEng (g : Group) (who : Eng) (f : Engine → Engine) : Group := g.setEng who (f (g.eng who))

/-- The trap code of an engine's kind (R396). -/
def engCode (who : Eng) : Nat := match who with | .l => 0 | .c _ => 1 | .s => 2

def engKind (who : Eng) : EngKind := match who with | .l => .l | .s => .s | .c _ => .c

/-- The path slot in which the engine works: for L and S the slot of the cq path they serve. -/
def Group.slotOf (g : Group) (who : Eng) : Nat := match who with | .c p => p | .l => g.l.path | .s => g.s.path

/-- The key of an engine's waiter entry. -/
def waiterOf (key grp : Nat) (who : Eng) : Party := .engine key grp (match who with | .c p => p | _ => 0) (engKind who)

def enginePlace (t : Team) (g : Group) (who : Eng) : Place :=
  { party := .engine t.key g.num (g.slotOf who) (engKind who), team := t.key, grp := g.num, bay := g.bay, bays := t.bays
    die := dieOfBay g.bay, inst := t.born }

/-- Issued accesses not yet performed. -/
def Group.inFlight (g : Group) : List Access := g.flight.filter fun a => !a.done

/-- The group has no access in flight, matrix operations included (R174, R175, R257). -/
def State.groupQuiet (s : State) (key : Nat) (g : Group) : Bool :=
  g.inFlight.isEmpty && !(s.mqueue.any fun m => m.team == key && m.grp == g.num)

def Group.liveSlots (g : Group) : List Nat := (List.range g.paths.length).filter fun p => (g.pathAt p).live

/-- The lowest free path slot (R176). A path that a split has not opened holds none. -/
def Group.freeSlot (g : Group) : Option Nat := (List.range 4).find? fun p => !(g.pathAt p).live

/-- Live paths of one cq path (R177). -/
def Group.siblings (g : Group) (root : Nat) : List Nat := g.liveSlots.filter fun p => (g.pathAt p).root == root

/-- Every engine that runs in the group. -/
def Group.engines (g : Group) : List Eng := [.l, .s] ++ g.liveSlots.map .c

def CqEntry.selects (e : CqEntry) (grp : Nat) : Bool := e.gsel == 0xFF || e.gsel == grp

/-- The group has passed entry `n` with every engine (R152). -/
def Group.passed (g : Group) (n : Nat) : Bool := g.engines.all fun w => decide (n < (g.eng w).entry)

/-- The entry that an engine runs or looks at. -/
def Team.entryAt (t : Team) (n : Nat) : Option CqEntry :=
  match t.service with
  | some e => if e.n = n then some e else t.cq.find? fun e => e.n == n
  | none => t.cq.find? fun e => e.n == n

/-- The next entry for an engine of the group (R152). -/
def Team.nextEntry (t : Team) (grp : Nat) (e : Engine) : Option CqEntry :=
  t.cq.find? fun x => decide (e.entry ≤ x.n) && x.selects grp

/-- A group is idle when no engine runs and no entry selects it (R153). -/
def Group.idle (t : Team) (g : Group) : Bool :=
  g.engines.all fun w => !(g.eng w).running && (t.nextEntry g.num (g.eng w)).isNone

/-- A repetition of an L or S engine comes in strand order before what the engine does in a path slot after it: it is of that slot or, of
path B of an open cq split, of path A's slot and from before the split (R302). -/
def Group.inStrand (t : Team) (g : Group) (a : Access) (slot : Nat) : Bool :=
  a.path == slot || (match g.split with
    | some (x, y) => slot == y && a.path == x && (t.entryAt a.origin.entry).all fun e => e.kind != .splitA
    | none => false)

/-- A queued matrix operation of the group comes in strand order before the words of a C path: its group has no second live path when it
is queued (R302). The service path comes after none (R368). -/
def MatrixOp.inStrand (m : MatrixOp) (key grp slot : Nat) : Bool :=
  m.team == key && m.grp == grp && (m.path == 4) == (slot == 4)

/-- W low bits set (R157). -/
def fullMask (w : Nat) : W64 := BitVec.ofNat 64 (2 ^ (if w ≥ 64 then 64 else w) - 1)

/-- m0 of a trip (R157); of a service entry, TMASK in every trip (R368). -/
def CqEntry.m0 (e : CqEntry) (width trip : Nat) : W64 :=
  match e.kind with
  | .splitA => fullMask width &&& e.tmask
  | .splitB => fullMask width &&& e.tmask
  | _ => if trip + 1 = e.trips || e.view.service then fullMask width &&& e.tmask else fullMask width

/-- y0 to y3 of a trip (R156). -/
def CqEntry.uniforms (e : CqEntry) (trip : Nat) : List W32 := [BitVec.ofNat 32 trip, e.arg0, e.arg1, BitVec.ofNat 32 (e.n % 2 ^ 16)]

/-- Progress of an engine: what waits in the group looks again. -/
def Group.stirred (g : Group) : Group :=
  { g with l := { g.l with waitFor := none }, s := { g.s with waitFor := none }
           paths := g.paths.map fun p => { p with c := { p.c with waitFor := none } } }

/-! ### Strand text (R47, R55) -/

/-- The seg0 offset at which the strand text of an entry's object ends. -/
def State.strandLimit (s : State) (dctx : Nat) (v : View) : Nat :=
  match s.record? dctx v.obj with
  | some r => if r.strandEnd = 0 then segLimit v.text else Nat.min r.strandEnd (segLimit v.text)
  | none => segLimit v.text

/-- Bytes of an object's text, fetched by a stream engine of a bay. Where they lie in two pages and the second fails, the failing address is that
of the last byte (log 104). -/
def fetchText (t : Team) (bay : Nat) (v : View) (off n : Nat) : M (List Byte) := do
  let sg := v.text
  let fva := segBase sg + off
  if decide (off + n > segLimit sg) then raise cSEG_LIMIT fva 0 false true
  if segSpace sg != 0 || !segX sg then raise cSEG_PERM fva 0 false true
  let (loc, big) ← translate t.dct.roots t.dct.aspace t.dctx bay false v.service .fetch fva
  let (loc2, _) ← (if fva / 2 ^ 16 = (fva + n - 1) / 2 ^ 16 then pure (loc + (n - 1), big)
    else translate t.dct.roots t.dct.aspace t.dctx bay false v.service .fetch (fva + n - 1))
  let first := if fva / 2 ^ 16 = (fva + n - 1) / 2 ^ 16 then n else 2 ^ 16 - fva % 2 ^ 16
  let a ← readText t.place { loc := loc, va := some fva, large := big } first
  let b ← readText t.place { loc := loc2 - (n - first - 1), va := some (fva + first), large := big } (n - first)
  pure ((a ++ b).map (·.value))

/-- The seg0 offset of a block's first word and its SPLIT flag (R414). -/
def blockEntry (t : Team) (bay : Nat) (v : View) (block : Nat) : M (Nat × Bool) := do
  let bs ← fetchText t bay v (v.blkOff + 8 * block) 8
  pure (leNat bs % 2 ^ 32, bitOf (leNat bs) 32)

/-! ### Lane registers (R190) -/

/-- The write is ordered before one with clock `vc`. -/
def RegWrite.inClock (w : RegWrite) (vc : List Nat) : Bool := decide (w.vc.getD w.eng 0 ≤ vc.getD w.eng 0)

def regV (r : Nat) : Nat := r
def regM (k : Nat) : Nat := 128 + k
def regY (n : Nat) : Nat := 136 + n

/-- The values that a read of a lane of a register may return. -/
def Group.regOptions (g : Group) (reg lane : Nat) (vc : List Nat) : List W32 :=
  let ws := g.rlog.filter fun w => w.reg == reg && w.lanes.any fun x => x.1 == lane
  let val (w : RegWrite) : W32 := ((w.lanes.find? fun x => x.1 == lane).map (·.2)).getD 0
  let known := ws.filter fun w => w.inClock vc
  let free := ws.filter fun w => !(known.any fun x => x != w && w.inClock x.vc)
  let base : W32 := ((g.base.find? fun x => x.1 == reg * 64 + lane).map (·.2)).getD 0
  (if known.isEmpty then base :: free.map val else free.map val).eraseDups

/-- One lane of a register as an engine reads it. -/
def readLane (g : Group) (reg lane : Nat) (vc : List Nat) : M W32 := do
  let o := g.regOptions reg lane vc
  let i ← choose o.length
  pure (o.getD i 0)

/-- The lanes 0 to `n` − 1 of a register. -/
def readLanes (g : Group) (reg : Nat) (vc : List Nat) : Nat → M (List W32)
  | 0 => pure []
  | n + 1 => do
    let rest ← readLanes g reg vc n
    let x ← readLane g reg n vc
    pure (rest ++ [x])

/-- A mask register as bits. -/
def maskOfLanes (xs : List W32) : W64 :=
  BitVec.ofNat 64 ((xs.zipIdx.map fun (x, i) => if x = 0 then 0 else 2 ^ i).foldl (· + ·) 0)

/-- Advances an engine's own clock for a write (R189). A clock beyond the list stands at 0. -/
def tickClock : List Nat → Nat → List Nat
  | [], 0 => [1]
  | [], i + 1 => 0 :: tickClock [] i
  | x :: vc, 0 => (x + 1) :: vc
  | x :: vc, i + 1 => x :: tickClock vc i

def joinClock : List Nat → List Nat → List Nat
  | [], b => b
  | a, [] => a
  | x :: a, y :: b => Nat.max x y :: joinClock a b

/-- A write of lanes of a register by an engine, after everything it has done. -/
def Group.writeReg (g : Group) (who : Eng) (reg : Nat) (lanes : List (Nat × W32)) : Group :=
  let e := g.eng who
  let vc := tickClock e.vc e.clk
  (if lanes.isEmpty then g else { g with rlog := g.rlog ++ [{ reg := reg, lanes := lanes, eng := e.clk, vc := vc }] }).setEng who
    { e with vc := vc }

/-! ### The block map (R186, R188) -/

/-- The map that entries from push number `n` on see. -/
def Group.mapAt (g : Group) (n : Nat) : BitVec 7 :=
  ((g.blocks.filter fun b => decide (b.start ≤ n)).getLast?.map (·.map)).getD 0

/-- A register field of a word: its number, its advance, and how many registers it spans. -/
structure VField where
  reg : Nat
  adv : Nat
  span : Nat
deriving DecidableEq, Repr

/-- Every general register that a field reaches lies in a mapped block (R186). -/
def Group.fieldMapped (g : Group) (n count : Nat) (f : VField) : Bool :=
  decide (f.reg ≥ 112) ||
  (List.range count).all fun r => (List.range f.span).all fun j => (g.mapAt n).getLsbD ((f.reg + r * f.adv + j) / 16)

/-! ### The word in progress -/

/-- What a meaning of a strand word works with. -/
structure Ln where
  t : Team
  g : Group
  who : Eng
  e : Engine
  entry : CqEntry
  place : Place
  width : Nat
  /-- m0 of the engine's trip and path. -/
  m0 : W64
  /-- E: m0 AND mk (R191), once latched. -/
  mask : W64

def Ln.active (l : Ln) (i : Nat) : Bool := l.mask.getLsbD i
def Ln.lanes (l : Ln) : List Nat := List.range l.width
def Ln.activeLanes (l : Ln) : List Nat := l.lanes.filter l.active

/-- Rereads the group after a change. -/
def groupOf (key grp : Nat) : M Group := do
  let t ← teamOf key
  match t.group? grp with
  | some g => pure g
  | none => fun _ => .error (.fault .wrongParty)

def Ln.group (l : Ln) : M Group := groupOf l.t.key l.g.num

def Ln.mapGroup (l : Ln) (f : Group → Group) : M Unit := mapGroupM l.t.key l.g.num f

def Ln.mapEng (l : Ln) (f : Engine → Engine) : M Unit := l.mapGroup fun g => g.mapEng l.who f

/-- y0 to y3 of the engine, y4 to y7 of the group (R156). -/
def Ln.uniform (l : Ln) (n : Nat) : M W32 := do
  let g ← l.group
  if n < 4 then pure ((g.eng l.who).y.getD n 0) else readLane g (regY n) 0 (g.eng l.who).vc

/-- Writes y0 to y7. -/
def Ln.setUniform (l : Ln) (n : Nat) (v : W32) : M Unit :=
  if n < 4 then l.mapEng fun e => { e with y := e.y.set n v } else l.mapGroup fun g => g.writeReg l.who (regY n) [(0, v)]

/-- All lanes of a register v(r), special registers included (R185); lq and sq are popped elsewhere. -/
def Ln.vector (l : Ln) (r : Nat) : M (List W32) := do
  let g ← l.group
  if r < 112 then readLanes g (regV r) (g.eng l.who).vc l.width
  else if r = 114 then pure (l.lanes.map fun i => BitVec.ofNat 32 i)
  else if r = 115 then pure (l.lanes.map fun _ => BitVec.ofNat 32 l.g.num)
  else pure (l.lanes.map fun _ => 0)

/-- m(k) for k from 1 to 7. -/
def Ln.maskReg (l : Ln) (k : Nat) : M W64 := do
  let g ← l.group
  let xs ← readLanes g (regM k) (g.eng l.who).vc l.width
  pure (maskOfLanes xs)

/-- Writes the lanes of E that `f` gives a value. -/
def Ln.setVector (l : Ln) (r : Nat) (xs : List W32) : M Unit :=
  l.mapGroup fun g => g.writeReg l.who (regV r) (l.activeLanes.map fun i => (i, xs.getD i 0))

def Ln.setMask (l : Ln) (k : Nat) (lanes : List Nat) (m : W64) : M Unit :=
  l.mapGroup fun g => g.writeReg l.who (regM k) (lanes.map fun i => (i, if m.getLsbD i then 1 else 0))

/-! ### lq and sq (R170, R171, R176, R177) -/

/-- The root path slot of the engine's path. -/
def Ln.root (l : Ln) : Nat := match l.who with | .c p => (l.g.pathAt p).root | _ => l.g.slotOf l.who

def pathLimit (g : Group) : Nat := 8 / Nat.max 1 (g.liveSlots.filter (· < 4)).length

/-- Reserves a slot of a path in a queue; waits at the queue's or the path's limit. -/
def roomFor (g : Group) (root : Nat) (q : List Slot) : Bool :=
  decide (q.length < 8) && decide ((q.filter fun x => x.path == root).length < pathLimit g)

/-- Frees the lq slots that every live path of their cq path has popped. -/
def Group.freeLq (g : Group) : Group :=
  { g with lq := g.lq.filter fun x => !((g.siblings x.path).all fun p => x.done.contains p) || (g.siblings x.path).isEmpty }

/-- A C engine pops its path's oldest lq slot. -/
def Ln.popLq (l : Ln) : M (List W32) := do
  let g ← l.group
  let p := l.g.slotOf l.who
  match g.lq.find? fun x => x.path == l.root && !x.done.contains p with
  | none => waitOn .slots
  | some x =>
    -- under a miss split, lanes outside the path's m0 belong to a sibling (R177)
    let owed := if (g.siblings l.root).length > 1 then x.pending &&& l.m0 else x.pending
    if owed != 0 || g.inFlight.any (fun a => a.dest == some (.lq x.id) && a.lanes.isEmpty) then waitOn .slots
    else do
      l.mapGroup fun g =>
        Group.freeLq { g with lq := g.lq.map fun (y : Slot) => if y.id == x.id then { y with done := y.done ++ [p] } else y }
      pure x.elems

/-- A C engine pushes a slot of sq: lanes outside E hold 0. -/
def Ln.pushSq (l : Ln) (xs : List W32) : M Unit := do
  let g ← l.group
  let p := l.g.slotOf l.who
  let vals := l.lanes.map fun i => if l.active i then xs.getD i 0 else 0
  match g.sq.find? fun x => x.path == l.root && !x.done.contains p with
  | some x => l.mapGroup fun g => { g with sq := g.sq.map fun y => if y.id == x.id then
      { y with done := y.done ++ [p], elems := l.lanes.map fun i => if l.active i then xs.getD i 0 else y.elems.getD i 0 } else y }
  | none =>
    if roomFor g l.root g.sq then
      l.mapGroup fun g => { g with nextSlot := g.nextSlot + 1, sq := g.sq ++
        [{ id := g.nextSlot, path := l.root, elems := vals, pending := 0, ldg := false, done := [p] }] }
    else waitOn .slots

/-- The S engine pops its path's oldest sq slot, once every path of the cq path has filled it. -/
def Ln.popSq (l : Ln) : M (List W32) := do
  let g ← l.group
  match g.sq.find? fun x => x.path == l.root with
  | none => waitOn .slots
  | some x =>
    if (g.siblings l.root).all fun p => x.done.contains p then do
      l.mapGroup fun g => { g with sq := g.sq.filter fun y => y.id != x.id }
      pure x.elems
    else waitOn .slots

/-- A source v(r) of a C word: v112 pops lq, once per repetition, whose elements `popped` then holds. -/
def Ln.source (l : Ln) (r : Nat) (popped : List W32) : M (List W32) := if r = 112 then pure popped else l.vector r

/-- A destination v(r) of a C word: v113 pushes sq. -/
def Ln.deliver (l : Ln) (r : Nat) (xs : List W32) : M Unit := if r = 113 then l.pushSq xs else l.setVector r xs

/-! ### Tokens (R172, R177) -/

/-- What an engine releases at lane-group scope: its memory knowledge and its register clock. -/
def Ln.token (l : Ln) : M Tok := do
  let s ← get
  let g ← l.group
  let k := s.knowOf l.place.party
  pure { known := k.known, lifted := k.lifted, vc := (g.eng l.who).vc }

def Tok.join (a b : Tok) : Tok :=
  { known := unionIds a.known b.known, lifted := unionIds a.lifted b.lifted, vc := joinClock a.vc b.vc }

/-- The acquire of a token. -/
def Ln.takeTok (l : Ln) (k : Tok) : M Unit := do
  modify fun s =>
    let w := s.knowOf l.place.party
    s.setKnow { w with known := unionIds w.known k.known, lifted := unionIds w.lifted k.lifted }
  l.mapEng fun e => { e with vc := joinClock e.vc k.vc }

def Path.counter (p : Path) (c : Nat) : List Tok := match c with | 0 => p.lc | 1 => p.cl | 2 => p.cs | _ => p.sc
def Path.setCounter (p : Path) (c : Nat) (x : List Tok) : Path :=
  match c with
  | 0 => { p with lc := x }
  | 1 => { p with cl := x }
  | 2 => { p with cs := x }
  | _ => { p with sc := x }

/-- Makes the pushes of completed matrix operations for which their counters have room (R172, R257). -/
def Group.payOwed (g : Group) : Group :=
  g.owed.foldl (fun g x =>
    if decide (((g.pathAt x.1).counter x.2.1).length ≥ 15) then { g with owed := g.owed ++ [x] }
    else g.mapPath x.1 fun p => p.setCounter x.2.1 (p.counter x.2.1 ++ [x.2.2])) { g with owed := [] }

/-- Takes a token from counter `c` of a path; a path of a miss split whose sibling was first takes the same one (R177). The answer
is the token taken off the counter, if one was. -/
def Ln.waitToken (l : Ln) (c : Nat) : M (List (Nat × Tok)) := do
  let g ← l.group
  let r := g.pathAt l.root
  let p := l.g.slotOf l.who
  let isC := match l.who with | .c _ => true | _ => false
  let took := if c = 0 then (g.pathAt p).tookL else (g.pathAt p).tookS
  let taken := if c = 0 then r.takenL else r.takenS
  let split := isC && decide ((g.siblings l.root).length > 1)
  let bump : M Unit := if split then
      l.mapGroup fun g => g.mapPath p fun x => if c = 0 then { x with tookL := x.tookL + 1 } else { x with tookS := x.tookS + 1 }
    else pure ()
  if split && decide (took < taken.length) then do
    bump
    l.takeTok (taken.getD took { known := [], lifted := [], vc := [] })
    pure []
  else match r.counter c with
    | [] => waitOn .token
    | k :: rest => do
      l.mapGroup fun g => g.mapPath l.root fun x =>
        let x := x.setCounter c rest
        if split then (if c = 0 then { x with takenL := x.takenL ++ [k] } else { x with takenS := x.takenS ++ [k] }) else x
      l.mapGroup Group.payOwed
      bump
      l.takeTok k
      pure (if split then [] else [(c, k)])

/-- Adds a token to counter `c` of the path; under a miss split, when the last path has performed the word. -/
def Ln.pushToken (l : Ln) (c : Nat) : M Unit := do
  let k ← l.token
  let g ← l.group
  let p := l.g.slotOf l.who
  let isC := match l.who with | .c _ => true | _ => false
  let sib := g.siblings l.root
  if isC && decide (sib.length > 1) then do
    let gave (q : Nat) : Nat := if c = 1 then (g.pathAt q).gaveL else (g.pathAt q).gaveS
    let low := (sib.map gave).foldl Nat.min (gave p)
    let part := if c = 1 then (g.pathAt l.root).partL else (g.pathAt l.root).partS
    let i := gave p - low
    let part := if i < part.length then part.set i ((part.getD i k).join k) else part ++ [k]
    let lastOne := i == 0 && (sib.all fun q => q == p || decide (low < gave q))
    if lastOne && decide (((g.pathAt l.root).counter c).length ≥ 15) then waitOn .token
    l.mapGroup fun g => g.mapPath p fun x => if c = 1 then { x with gaveL := x.gaveL + 1 } else { x with gaveS := x.gaveS + 1 }
    l.mapGroup fun g => g.mapPath l.root fun x =>
      let x := if lastOne then x.setCounter c (x.counter c ++ part.take 1) else x
      let part := if lastOne then part.drop 1 else part
      if c = 1 then { x with partL := part } else { x with partS := part }
  else if ((g.pathAt l.root).counter c).length ≥ 15 then waitOn .token
  else l.mapGroup fun g => g.mapPath l.root fun x => x.setCounter c (x.counter c ++ [k])

/-- The counters that a word's wait and push bits name (R172). -/
def waitCounters (who : Eng) (w : SW) : List Nat :=
  match who with
  | .l => if w.waitN then [1] else []
  | .c _ => (if w.waitP then [0] else []) ++ (if w.waitN then [3] else [])
  | .s => if w.waitP then [2] else []

def pushCounters (who : Eng) (w : SW) : List Nat :=
  match who with
  | .l => if w.pushN then [0] else []
  | .c _ => (if w.pushN then [2] else []) ++ (if w.pushP then [1] else [])
  | .s => if w.pushP then [3] else []

def Ln.eachToken (l : Ln) (f : Nat → M (List (Nat × Tok))) : List Nat → M (List (Nat × Tok))
  | [] => pure []
  | c :: cs => do
    let a ← f c
    let b ← l.eachToken f cs
    pure (a ++ b)

/-! ### Entries and words passed -/

/-- The engine passes its word (R173). -/
def Engine.pass (e : Engine) (len : Nat) : Engine :=
  { e with off := e.off + len, passed := e.passed + 1, rep := 0, latch := none, issued := false, arrived := false, waitFor := none
           exempt := false, granted := none }

/-- Bytes of a strand word. -/
def swBytes (w : SW) : Nat := if w.ext.isSome then 12 else 6

/-- The word count does not advance under a service entry (R368). -/
def Ln.pass (l : Ln) (len : Nat) : M Unit :=
  l.mapGroup fun g => (g.stirred).mapEng l.who fun e =>
    { e.pass len with passed := if l.entry.view.service then e.passed else e.passed + 1 }

/-- The ADV bit of a word performed at a step (R405). -/
def advBit (who : Eng) : W64 :=
  match who with
  | .l => BitVec.ofNat 64 (2 ^ 27)
  | .s => BitVec.ofNat 64 (2 ^ 26)
  | .c p => BitVec.ofNat 64 (2 ^ (28 + p))

/-! ### Traps and waits of an engine (R178, R179) -/

/-- The engine stands before its word: the token counters get back what the word took (R178, R179). -/
def Group.unlatch (g : Group) (who : Eng) (root : Nat) : Group :=
  match (g.eng who).latch with
  | none => g
  | some la => if la.toks.isEmpty then g else (la.toks.foldl (fun g x => g.mapPath root fun p => p.setCounter x.1 (x.2 :: p.counter x.1)) g).mapEng who fun e =>
      { e with latch := none, spent := e.spent.take (e.spent.length - la.toks.length) }

/-- A trap of an engine: DOUBLE in a service block; after the halt it raises nothing and the engine stops. The word takes no effect; a
repetition that faults leaves the waits of its word taken, at repetition 0 too (R180, R441). -/
def State.laneTrap (s : State) (key grp : Nat) (who : Eng) (service : Bool) (c : Cause) : State :=
  match s.team? key with
  | none => s
  | some t => match t.group? grp with
    | none => s
    | some g =>
      let e := g.eng who
      let root := match who with | .c p => (g.pathAt p).root | _ => g.slotOf who
      let s := if e.rep = 0 && c.mask.isNone then s.mapGroup key grp fun g => g.unlatch who root else s
      let s := (s.unregister (· == waiterOf key grp who)).mapGroup key grp fun g => g.mapEng who fun e => { e with granted := none }
      if service then s.double key c
      else if t.phase = .freezing then s.mapGroup key grp fun g => g.mapEng who fun e => { e with halted := true, waitFor := none }
      else
        let tr : Trap :=
          { cause := c.code, fva := BitVec.ofNat 64 c.fva, info := c.info, eng := engCode who, grp := grp, path := g.slotOf who, word := e.off
            rep := e.rep, mask := c.mask.getD 0, lane := c.mask.isSome, write := c.write, fetch := c.fetch }
        (s.mapGroup key grp fun g => g.mapEng who fun e => { e with halted := true }).freeze key tr

/-- In a single step only the accesses of the stepped word are performed, its stores once all its repetitions have issued (R406). -/
def Team.accessDue (t : Team) (g : Group) (a : Access) : Bool :=
  match t.stepBase, t.plan.head? with
  | some _, some (.engine e) => engKind e == a.eng && (!a.store || (g.eng e).issued)
  | some _, _ => false
  | none, _ => true

/-- A word that the engine has passed stands, also where the word that it steps would wait (R406). -/
def State.unbase (s : State) (key grp : Nat) (who : Eng) (before : Engine) : State :=
  match (s.team? key).bind (·.group? grp) with
  | some g =>
    let e := g.eng who
    if e.off == before.off && e.trip == before.trip && e.entry == before.entry then s else s.mapTeam key fun t => { t with stepBase := none }
  | none => s

/-- A wait of an engine. In a single step the engine stays before the word and the item is over, but for the accesses of the word
itself, which are still to be performed (R406). -/
def State.laneWait (s : State) (key grp : Nat) (who : Eng) (w : WaitFor) : State :=
  let waiting (s : State) : State := s.mapGroup key grp fun g => g.mapEng who fun e => { e with waitFor := some w }
  match s.team? key with
  | none => s
  | some t =>
    if t.phase != .stepping then waiting s
    else if w = .accesses && (t.group? grp).any (fun g => (g.eng who).issued || g.inFlight.any (t.accessDue g)) then waiting s
    else match t.stepBase with
      | some (g, rq) => (waiting ((s.mapTeam key fun t => { t with rq := rq }).mapGroup key grp fun _ => g)).stepDone key 0
      | none => (waiting s).stepDone key 0

/-- The engine that makes the step, with its context. -/
def engineOf (s : State) : Option (Team × Group × Eng × CqEntry) :=
  match s.cur with
  | some (.engine key grp path kind) =>
    let who : Eng := match kind with | .l => .l | .s => .s | .c => .c path
    (s.team? key).bind fun t => (t.group? grp).bind fun g => (t.entryAt (g.eng who).entry).bind fun e =>
      if (g.eng who).running then some (t, g, who, e) else none
  | _ => none

def lnOf (t : Team) (g : Group) (who : Eng) (entry : CqEntry) : Ln :=
  let e := g.eng who
  let width := t.kernel.width
  { t := t, g := g, who := who, e := e, entry := entry, place := enginePlace t g who, width := width
    m0 := (match who with | .c p => (g.pathAt p).m0 | _ => entry.m0 width e.trip)
    mask := match e.latch with | some la => la.mask | none => 0 }

/-- Bytes of a size code of R224. -/
def laneBytes (size : Nat) : Nat := if size = 0 then 4 else if size ≤ 2 then 2 else 1

/-- The place of the engine that issued an access. -/
def accessPlace (t : Team) (g : Group) (a : Access) : Place :=
  { enginePlace t g .l with party := .engine t.key g.num a.path a.eng }

/-- The writes of lanes, a lower lane's before a higher one's; every earlier write of the engine happens before them. The answer gives
their identifiers. -/
def writeAccess (p : Place) (a : Access) : List LaneAccess → State → List Nat × State
  | [], s => ([], s)
  | x :: rest, s =>
    let n := laneBytes a.size
    let own := (s.writes.filter fun w => w.place.same p).map (·.id)
    let (id, s) := s.writeWith p (unionIds a.known own) (unionIds a.lifted own) [] x.loc (leBytes n (x.value.toNat % 2 ^ (8 * n)))
    let (ids, s) := writeAccess p a rest (s.learn p.party id)
    (id :: ids, s)

/-- The lanes of the engine's newest store in `v` that go to a peer which does not answer, as performed there (R431). -/
def State.landLanes (s v : State) (t : Team) (g : Group) : State :=
  match (((v.team? t.key).bind (·.group? g.num)).bind (·.flight.getLast?)) with
  | none => s
  | some a =>
    let lost := a.lanes.filter fun x => match peerOf x.loc with | some n => !s.peerUp n | none => false
    if a.store then (writeAccess (accessPlace t g a) a lost s).2 else s

/-- What an engine's word writes, where every peer answers, has landed. -/
def State.landedLanes {α : Type} (m : M α) (t : Team) (g : Group) (s : State) : State :=
  match m s.answering with | .ok (_, v) => s.landLanes v t g | .error _ => s

/-- Runs a body for the engine that makes the step; the word it performs is over when the body answers true. -/
def runEngine (body : Ln → M Bool) (s : State) : Out :=
  match engineOf s with
  | none => .fault .wrongParty
  | some (t, g, who, entry) =>
    match body (lnOf t g who entry) s with
    | .ok (true, s') => .next (s'.stepDone t.key (advBit who))
    | .ok (false, s') => .next (s'.unbase t.key g.num who (g.eng who))
    | .error (.trap c) => .next ((s.mayLand c (State.landedLanes (body (lnOf t g who entry)) t g)).laneTrap t.key g.num who entry.view.service c)
    | .error (.wait w s') => .next (s'.laneWait t.key g.num who w)
    | .error (.fault f) => .fault f

/-- A fresh lq slot of a path begins with the pops of the slot that it replaces, of a repetition that faulted (R182). -/
def Group.redone (g : Group) (root : Nat) : List Nat × Group :=
  match g.redo.find? fun d => d.1 == root with
  | some d => (d.2, { g with redo := g.redo.erase d })
  | none => ([], g)

/-! ### A repetition that is not performed after its issue (R179, R182; log 38) -/

/-- The repetition stands before the word of a pass mark, in strand order. -/
def Access.beforeMark (t : Team) (g : Group) (a : Access) (m : PassMark) : Bool :=
  a.eng == m.kind && g.inStrand t a m.path && (decide (a.origin.entry < m.entry) || (a.origin.entry == m.entry &&
    (decide (a.origin.trip < m.trip) || (a.origin.trip == m.trip && decide (a.origin.off < m.off)))))

/-- The group with the engine of an issued repetition at that repetition, as its stop point: the engine's later repetitions are gone, their lq
slots emptied, the sq slots and the tokens that they took put back. An lq slot that paths have popped stays popped by them. -/
def Group.backTo (t : Team) (g : Group) (a : Access) : Group :=
  let who : Eng := match a.eng with | .l => .l | .s => .s | .c => .c a.path
  let e := g.eng who
  let i := g.flight.findIdx fun x => x == a
  let gone : List Access := (g.flight.drop i).filter fun x => x.eng == a.eng && !x.done
  let root := g.pathAt a.path |>.root
  let vc := (g.rlog.filter fun w => w.eng == a.origin.clk).foldl (fun v w => joinClock v w.vc) (joinClock a.origin.vc e.vc)
  let back := e.spent.drop a.origin.spent.length
  let g := back.foldr (fun x g => g.mapPath root fun p => p.setCounter x.1 (x.2 :: p.counter x.1)) g
  let slots := gone.filterMap fun x => match x.dest with | some (.lq n) => g.lq.find? fun (y : Slot) => y.id == n | _ => none
  { g with
    flight := g.flight.filter fun x => !gone.contains x
    redo := slots.map (fun (y : Slot) => (y.path, y.done)) ++ g.redo
    lq := g.lq.filter fun x => !slots.contains x
    sq := gone.filterMap (fun x : Access => x.popped) ++ g.sq
    passMarks := g.passMarks.filter fun m => !a.beforeMark t g m }.setEng who { a.origin with vc := vc, halted := e.halted, granted := none }

/-! ### The miss split (R177) -/

/-- The block of the entry has its split flag set. -/
def blockSplits (l : Ln) : M Bool := do
  let (_, f) ← blockEntry l.t l.g.bay l.entry.view l.entry.block
  pure f

/-- Makes a miss split where one is due; answers whether it did. Both paths go on from the word's repetition: of a `vred`'s partial fold
each keeps the elements of its own lanes, so that its result is the fold over its E (R211; log 24). -/
def Ln.missSplit (l : Ln) : M Bool := do
  let g ← l.group
  let p := l.g.slotOf l.who
  match g.lq.find? fun x => x.path == l.root && !x.done.contains p with
  | none => pure false
  | some x =>
    let missing := x.pending &&& l.m0
    if !x.ldg || missing &&& l.mask = 0 || l.mask &&& ~~~missing = 0 then pure false
    else match g.freeSlot with
      | none => pure false
      | some q => do
        let f ← blockSplits l
        if !f then pure false
        else do
          let narrow (m : W64) (x : Path) : Path :=
            { x with m0 := m, c := { x.c with latch := x.c.latch.map fun la => { la with mask := la.mask &&& m, toks := [] } }
                     fold := x.fold.map fun f => { f with elems := f.elems.filter fun y => m.getLsbD y.1 } }
          l.mapGroup fun g =>
            let child := narrow missing (g.pathAt p)
            let slot := g.pathAt q
            let g := (g.mapPath p (narrow (l.m0 &&& ~~~missing))).setPath q
              { child with live := true, c := { child.c with clk := g.nextClk }, takenL := [], takenS := [], partL := [], partS := [], partX := []
                           lc := slot.lc, cl := slot.cl, cs := slot.cs, sc := slot.sc }
            { g with
              nextClk := g.nextClk + 1
              lq := g.lq.map fun y => if y.done.contains p then { y with done := y.done ++ [q] } else y
              sq := g.sq.map fun y => if y.done.contains p then { y with done := y.done ++ [q] } else y }
          modify fun s => s.restart l.place.party (.engine l.t.key l.g.num q .c)
          pure true

/-- Two path slots change places, with all that they hold. -/
def Group.swapSlots (g : Group) (i j : Nat) : Group :=
  let f (p : Nat) : Nat := if p = i then j else if p = j then i else p
  let slot (y : Slot) : Slot := { y with path := f y.path, done := y.done.map f }
  let access (a : Access) : Access :=
    { a with path := f a.path, origin := { a.origin with path := f a.origin.path }, popped := a.popped.map slot }
  let h := (g.setPath i (g.pathAt j)).setPath j (g.pathAt i)
  { h with
    paths := h.paths.map fun p => { p with root := f p.root }
    l := { g.l with path := f g.l.path }, s := { g.s with path := f g.s.path }
    lq := g.lq.map slot, sq := g.sq.map slot, redo := g.redo.map fun d => (f d.1, d.2.map f)
    flight := g.flight.map access
    passMarks := g.passMarks.map fun m => { m with path := f m.path }
    owed := g.owed.map fun x => (f x.1, x.2)
    split := g.split.map fun x => (f x.1, f x.2) }

/-- Closes the miss splits of a cq path into its lowest live slot, which then holds the m0 of the trip (R177). The path's holdings, its
counters among them, go to that slot with it; none is reset (R172). -/
def Group.closeMiss (g : Group) (root : Nat) (m0 : W64) : Group :=
  let sib := g.siblings root
  match sib with
  | [] => g
  | low :: rest =>
    let c := (g.pathAt low).c
    let vc := sib.foldl (fun v p => joinClock v (g.pathAt p).c.vc) c.vc
    let imaged := sib.foldl (fun v p => unionIds v (g.pathAt p).c.imaged) c.imaged
    let g := (low :: rest).foldl (fun g p => g.mapPath p fun x => { x with live := false }) g
    let g := g.mapPath root fun x =>
      { x with live := true, m0 := m0, c := { c with vc := vc, imaged := imaged }, fold := (g.pathAt low).fold
               tookL := 0, tookS := 0, gaveL := 0, gaveS := 0, takenL := [], takenS := [], partL := [], partS := [], gaveX := 0, partX := [] }
    let settle (y : Slot) : Slot := if y.path == root then { y with done := if y.done.contains low then [root] else [] } else y
    let g := { g with lq := g.lq.map settle, sq := g.sq.map settle, redo := g.redo.map fun d => if d.1 == root then (d.1, []) else d }
    if low = root then g else g.swapSlots root low

/-! ### Repetitions (R155, R172, R189, R191) -/

/-- What a strand word of an engine's own tag does before its first repetition: register fields are mapped, tokens are taken, mask and
base are read. `base` is the uniform base code, 8 for none. -/
def Ln.begin (l : Ln) (w : SW) (fields : List VField) (base : Nat) : M Unit := do
  need (fields.all fun f => l.g.fieldMapped l.entry.n w.count f) cSTRAND_ILLEGAL
  need (!l.entry.view.service || (w.tok == 0 && !(fields.any fun f => f.reg == 112 || f.reg == 113))) cSTRAND_ILLEGAL
  if l.t.phase = .stepping then do
    -- a step performs the word whole or not at all (R406)
    if (pushCounters l.who w).any fun c => decide (((l.g.pathAt l.root).counter c).length ≥ 15) then waitOn .token
  let toks ← whole (l.eachToken l.waitToken (waitCounters l.who w))
  let mk ← (if w.msk.toNat = 0 then pure (fullMask l.width) else l.maskReg w.msk.toNat)
  let u ← (if base < 8 then do let u ← l.uniform base; pure (some u) else pure none)
  let quiet := !(l.g.inFlight.any fun a => a.eng == engKind l.who)
  l.mapEng fun e => { e with latch := some { mask := l.m0 &&& mk, base := u, toks := toks }, spent := (if quiet then [] else e.spent) ++ toks }

/-- The word's accesses and those before it in its engine and path are performed, those from before a split, and the
accesses of matrix operations that the C engine anchors, among them (R257, R302). A matrix operation makes its pushes itself. -/
def Ln.performed (l : Ln) : M Bool := do
  let g ← l.group
  let s ← get
  pure (!(g.inFlight.any fun a => a.eng == engKind l.who && g.inStrand l.t a (l.g.slotOf l.who)) &&
    !(engKind l.who == .c && s.mqueue.any fun m => m.inStrand l.t.key l.g.num (l.g.slotOf l.who) && m.counted))

/-- The end of a word: its pushes, then the word is passed. -/
def Ln.finish (l : Ln) (w : SW) : M Unit := do
  let cs := pushCounters l.who w
  if !cs.isEmpty then do
    let ok ← l.performed
    if !ok then waitOn .accesses
    let _ ← whole (l.eachToken (fun c => do l.pushToken c; pure []) cs)
  l.pass (swBytes w)

/-- A strand word of repetitions: one move begins it, each further move performs one, and the last passes it. -/
def runWord (w : SW) (fields : List VField) (base : Nat) (check : Ln → M Unit) (rep : Ln → Nat → M Unit) (s : State) : Out :=
  runEngine (fun l => do
    if l.e.issued then do
      l.finish w
      pure true
    else if l.e.latch.isNone then do
      check l
      l.begin w fields base
      pure false
    else do
      let popsLq := (match l.who with | .c _ => true | _ => false) && fields.any fun f => f.reg == 112
      let split ← (if popsLq then l.missSplit else pure false)
      if split then do
        l.mapGroup Group.stirred
        pure false
      else do
        rep l l.e.rep
        l.mapGroup Group.stirred
        if l.e.rep + 1 < w.count then do
          l.mapEng fun e => { e with rep := e.rep + 1, waitFor := none }
          pure false
        else if (pushCounters l.who w).isEmpty then do
          l.finish w
          pure true
        else do
          l.mapEng fun e => { e with issued := true, waitFor := none }
          pure false) s

/-! ### Which word an engine comes to -/

/-- The engine may move (R178, R179, R368, R406). -/
def Team.engineMayRun (t : Team) (g : Group) (who : Eng) : Bool :=
  t.resident && (match who with | .c p => (g.pathAt p).live | _ => true) && match t.phase with
    | .running => true
    | .freezing => !(g.eng who).halted
    | .stepping => t.plan.head? == some (.engine who) && bitsOf t.stepmask.toNat 20 16 == g.num
    | .vector => g.savedL.isSome && (match who with | .c p => p == 4 | _ => true)
    | _ => false

/-- The slip window holds the engine (R173). -/
def Group.slips (g : Group) (who : Eng) (win : Nat) : Bool :=
  match who with
  | .l => decide (g.l.passed ≥ g.s.passed + win)
  | .s => decide (g.s.passed ≥ g.l.passed + win)
  | .c _ => false

/-- An engine between entries finds nothing that it could start by itself. -/
def Team.startWaits (t : Team) (g : Group) (who : Eng) : Bool :=
  match t.nextEntry g.num (g.eng who) with
  | none => true
  | some x => match x.kind, who with
    | .run, _ => false
    | .nop, _ => false
    | .splitA, .c _ => g.split.isSome
    | .splitA, _ => g.split.isNone
    | .splitB, .c _ => true
    | .splitB, _ => g.split.isNone
    | _, _ => true

/-- The head of the word at an engine's position, as the engine looks at it. -/
def headAt (t : Team) (g : Group) (entry : CqEntry) (e : Engine) : M Nat := do
  let bs ← fetchText t g.bay entry.view e.off 6
  pure (leNat bs)

/-- The tag bits of the words that an engine executes (R47). -/
def ownTag (who : Eng) : Nat := match who with | .l => 0 | .c _ => 1 | .s => 2

/-- The head may be that of a `c.psend` (R167). -/
def mayPost (head : Nat) : Bool := head % 4 == 1 && (bitsOf head 11 6 == 0x28 || bitsOf head 11 6 == 0x3F)

/-- The engine passes a word that it does not execute; at one that may post, L and S leave what they know (R167). It reads the head alone, and
moves by the length that the head gives, also where the extension lies beyond the end of the text (R55; log 103). -/
def State.passWord (s : State) (team grp : Nat) (who : Eng) (entry : CqEntry) (head : Nat) : State :=
  s.mapGroup team grp fun g =>
    let e := g.eng who
    let k := s.knowOf (.engine team grp (g.slotOf who) (engKind who))
    { g.stirred.mapEng who fun e =>
        { e.pass (strandBytes head) with passed := if entry.view.service then e.passed else e.passed + 1 } with
      passMarks := g.passMarks ++ if mayPost head && engKind who != .c then
        [{ kind := engKind who, path := g.slotOf who, entry := e.entry, trip := e.trip, off := e.off, known := k.known, lifted := k.lifted }]
        else [] }

/-- A C engine has passed the words of other tags as soon as it comes to them: nothing holds it there (R155, R173). -/
def State.passForeign (team grp : Nat) (who : Eng) : Nat → State → State
  | 0, s => s
  | n + 1, s =>
    match (s.team? team).bind fun t => (t.group? grp).bind fun g => (t.entryAt (g.eng who).entry).map fun x => (t, g, x) with
    | none => s
    | some (t, g, x) =>
      let e := g.eng who
      if !e.running || e.latch.isSome || e.issued || e.arrived || decide (e.off + 6 > s.strandLimit t.dctx x.view) then s
      else match headAt t g x e s with
        | .error _ => s
        | .ok (head, s') =>
          if head % 4 = ownTag who ∨ head % 4 = 3 then s
          else State.passForeign team grp who n (s'.passWord team grp who x head)

/-- The move of an engine: a word of another tag is passed, its own or an X word is executed (R54, R155). -/
def pickEngine (team grp : Nat) (who : Eng) (s : State) : Picked :=
  match s.team? team with
  | none => .idle s
  | some t => match t.group? grp with
    | none => .idle s
    | some g =>
      let e := g.eng who
      if t.engineMayRun g who && !e.running && t.phase == .stepping && t.startWaits g who then .idle (s.stepDone team 0)
      else match t.entryAt e.entry with
      | none => .idle s
      | some entry =>
        if !(t.engineMayRun g who && e.running) then .idle s
        else
          let first := e.rep == 0 && e.latch.isNone && !e.issued && !e.arrived
          if first && !entry.view.service && g.slips who entry.win then .idle (s.laneWait team grp who .slip)
          else
            let s1 := { s with cur := some (.engine team grp (g.slotOf who) (engKind who)) }
            let limit := s.strandLimit t.dctx entry.view
            -- what a step's word must leave as it is where it would wait (R406)
            let based (s : State) : State := s.mapTeam team fun t =>
              { t with stepBase := if t.phase == .stepping && t.stepBase.isNone then some (g, t.rq) else t.stepBase }
            if e.off + 6 > limit then .run (.unassignedStrandWord true) (based s1)
            else match headAt t g entry e s1 with
              | .error (.trap c) => .idle (s.laneTrap team grp who entry.view.service c)
              | .error (.wait w s') => .idle (s'.laneWait team grp who w)
              | .error (.fault _) => .idle s
              | .ok (head, s2) =>
                let tag := head % 4
                let len := strandBytes head
                let watch := if first && !e.exempt && !t.inVector then
                    t.watches.find? fun x => x.x && x.base / 2 ^ 48 == entry.view.obj && decide (x.base % 2 ^ 32 ≤ e.off) &&
                      decide (e.off < x.base % 2 ^ 32 + x.len)
                  else none
                let run (i : Instr) (s : State) : Picked :=
                  match watch with
                  | none => .run i (based s)
                  | some x =>
                    let c : Cause := { code := cWATCH, fva := e.off, info := x.index, write := false, fetch := false, mask := none }
                    .watched i (based s) { key := team, index := x.index, engine := some (grp, who)
                                           trapped := s.laneTrap team grp who entry.view.service c }
                let pass : Picked := .idle (s2.passWord team grp who entry head)
                let bad : Picked := if tag = 3 && ownTag who != 1 then pass else run (.unassignedStrandWord false) s2
                if tag != ownTag who && tag != 3 then pass
                else if len = 12 && decide (e.off + 12 > limit) then bad
                else match fetchText t g.bay entry.view e.off len s1 with
                  | .error (.trap c) => .idle (s.laneTrap team grp who entry.view.service c)
                  | .error (.wait w s') => .idle (s'.laneWait team grp who w)
                  | .error (.fault _) => .idle s
                  | .ok (bs, s3) => match decodeStrand bs with
                    | .ok (i, _) => run i s3
                    | .error _ => bad

/-- The engine has begun its word and performed no repetition of it. -/
def Engine.begun (e f : Engine) : Bool := f.latch.isSome && f.rep == 0 && !f.issued && f.entry == e.entry && f.trip == e.trip && f.off == e.off

/-- A word that an X watch meets (R408): the word raises WATCH, for the R or W entry that the word's own access meets where that one is
the lower. `run` gives what the word would do: a helm word whole, a strand word to the end of its first repetition. -/
def WatchTrial.settle (w : WatchTrial) (run : Instr → State → Out) (i : Instr) (s : State) : State :=
  match run i s with
  | .next u =>
    if u.watchBelow w.key w.index then u
    else
      let engOf (s : State) : Option Engine :=
        w.engine.bind fun x => (s.team? w.key).bind fun t => (t.group? x.1).map fun g => g.eng x.2
      match engOf s, engOf u with
      | some e, some f =>
        if e.begun f then match run i u with
          | .next v => if v.watchBelow w.key w.index then v else w.trapped
          | _ => w.trapped
        else w.trapped
      | _, _ => w.trapped
  | _ => w.trapped

end Sys2Proof.Machine
end

