-- ==== Sys2Proof/Machine/Entries.lean ====
section
/-! DEFINITION. How a group takes, finishes and closes cq entries; X words; the freeze of engines and the entry of the vector
(06_queues.md R152 to R164, R174 to R180; 15_traps.md R395). -/

namespace Sys2Proof.Machine

/-! ### Acquires of a group -/

/-- An acquire of an engine at team scope or wider also moves its load cache's counter (R317, R318), under an entry whose realisation is
version-tagged (R316): `mode` is MODE as the entry was pushed. -/
def laneAcquire (t : Team) (mode : Bool) (p : Place) (scope : Nat) (heads : List Release) : M Unit := do
  modify fun s => s.acquire p scope heads
  if !mode then do
    let s ← get
    let (swept, s) := s.bumpCounter (.load t.key p.grp) scope
    set s
    if swept then mapTeamM t.key fun t => { t with mmcfg := t.mmcfg ||| 4 }

/-- The REL edge of an entry (R158). -/
def acquireEntry (t : Team) (g : Group) (who : Eng) (e : CqEntry) : M Unit :=
  match e.view.release with
  | none => pure ()
  | some r => laneAcquire t e.view.mode (enginePlace t g who) e.rscope [r]

/-! ### Starting an entry (R155, R156, R162) -/

/-- An engine at the first word of a trip. -/
def Engine.atTrip (e : Engine) (x : CqEntry) (trip off : Nat) : Engine :=
  { e with entry := x.n, running := true, off := off, trip := trip, rep := 0, y := x.uniforms trip, latch := none, issued := false
           arrived := false, waitFor := none, exempt := false, granted := none }

/-- An engine that has nothing to run in an entry goes on to entry `n`. -/
def Engine.skipTo (e : Engine) (n : Nat) : Engine := { e with entry := n, running := false, waitFor := none }

/-- No word runs under the entry (R155, R162). -/
def CqEntry.empty (e : CqEntry) (width : Nat) : Bool :=
  e.trips == 0 || (match e.kind with
    | .splitA => e.m0 width 0 == 0
    | .splitB => e.m0 width 0 == 0
    | _ => false)

/-- A block of an entry's object. -/
def startOff (t : Team) (g : Group) (x : CqEntry) : M Nat := do
  let (off, _) ← blockEntry t g.bay x.view x.block
  pure off

/-- Starts an entry in one engine at the slot it serves, or skips it. `next` is where the engine goes on when it is empty. -/
def startIn (t : Team) (g : Group) (who : Eng) (x : CqEntry) (next : Nat) : M Unit := do
  acquireEntry t g who x
  if x.empty t.kernel.width then mapGroupM t.key g.num fun g => g.stirred.mapEng who fun e => e.skipTo next
  else do
    let off ← startOff t g x
    mapGroupM t.key g.num fun g =>
      let g := g.stirred.mapEng who fun e => e.atTrip x 0 off
      match who with
      | .c p => g.mapPath p fun q => { q with m0 := x.m0 t.kernel.width 0, fold := none }
      | _ => g

/-- A path slot as path B of a split takes it: its token counters stand as they are (R172). -/
def Path.opened (p : Path) (b m0 : Nat) (live : Bool) (c : Engine) : Path :=
  { Path.fresh with live := live, root := b, m0 := BitVec.ofNat 64 m0, c := c, lc := p.lc, cl := p.cl, cs := p.cs, sc := p.sc }

/-- The C engine opens the paths of a split (R162, R176). A path whose m0 is 0 is not opened, and its entry is finished; it holds no
slot, and what follows the JOIN is kept beside. A path with lanes and no trip is open, and runs no word. -/
def openSplit (t : Team) (g : Group) (a : Nat) (x : CqEntry) : M Unit := do
  match t.entryAt (x.n + 1) with
  | none => fun _ => .error (.fault .wrongParty)
  | some y => match g.freeSlot with
    | none => waitOn .path
    | some b => do
      let w := t.kernel.width
      let ea := (g.pathAt a).c
      let liveA := x.m0 w 0 != 0
      let liveB := y.m0 w 0 != 0
      mapGroupM t.key g.num fun g =>
        { (g.setPath b ((g.pathAt b).opened b (y.m0 w 0).toNat liveB
            { Engine.fresh with entry := y.n, passed := ea.passed, clk := g.nextClk, vc := ea.vc, imaged := ea.imaged })).mapPath a fun p =>
            { p with live := liveA } with split := some (a, b), nextClk := g.nextClk + 1 }
      modify fun s => s.restart (enginePlace t g (.c a)).party (.engine t.key g.num b .c)
      startIn t g (.c a) x (x.n + 2)
      if !liveA then mapGroupM t.key g.num fun g => { g with parked := some (a, g.pathAt a) }
      if liveB then do
        let g ← groupOf t.key g.num
        startIn t g (.c b) y (y.n + 1)

/-- CQ_ENTRY_START: an engine that runs no entry takes the next one that selects its group. -/
def entryStart (team grp : Nat) (who : Eng) : M Unit := do
  let t ← teamOf team
  let g ← groupOf team grp
  match t.nextEntry grp (g.eng who) with
  | none => pure ()
  | some x => match x.kind with
    | .run => startIn t g who x (x.n + 1)
    | .nop => do
      acquireEntry t g who x
      mapGroupM team grp fun g => g.stirred.mapEng who fun e => e.skipTo (x.n + 1)
    | .splitA => match who, g.split with
      | .c p, none => openSplit t g p x
      | .c _, some _ => pure ()
      | _, none => pure ()
      | w, some (a, b) => do
        mapGroupM team grp fun g => g.mapEng w fun e => { e with path := a, aside := e.vc }
        modify fun s => s.restart (.engine team grp a (engKind w)) (.engine team grp b (engKind w))
        let g ← groupOf team grp
        startIn t g w x (x.n + 1)
    | .splitB => match who, g.split with
      | .c _, _ => pure ()
      | _, none => pure ()
      | w, some (_, b) => do
        -- path B's words come after what was before the split, not after path A's (R189, R190)
        mapGroupM team grp fun g => if (g.eng w).path = b then g else
          { g.mapEng w fun e => { e with path := b, clk := g.nextClk, vc := e.aside, aside := e.vc } with nextClk := g.nextClk + 1 }
        let g ← groupOf team grp
        startIn t g w x (x.n + 1)
    | _ => pure ()

def execCqEntryStart (team grp : Nat) (eng : Eng) (s : State) : Out :=
  runEvent (fun s => do
    let t ← s.team? team
    let g ← t.group? grp
    if !(t.engineMayRun g eng && !(g.eng eng).running && t.phase != .vector && t.phase != .freezing) then none
    else if (t.nextEntry grp (g.eng eng)).isNone then none
    else match entryStart team grp eng s with
      | .ok (_, s') => some s'
      | .error (.trap c) => some (s.laneTrap team grp eng false c)
      | .error (.wait w s') => some (s'.laneWait team grp eng w)
      | .error (.fault _) => none) s

/-! ### Retirement, markers, joins -/

/-- Surrendered blocks whose entries have finished enter the pool (R188). -/
def Team.settle (t : Team) : Team :=
  t.surrenders.foldl (fun t x => match t.group? x.grp with
    | some g =>
      if (t.cq.any fun e => decide (e.n < x.below) && e.selects x.grp && !g.passed e.n) then t
      else { t with surrenders := t.surrenders.erase x
                    pool := if g.bay = t.bay then t.pool + 1 else t.pool
                    poolPartner := if g.bay = t.bay then t.poolPartner else t.poolPartner + 1 }
    | none => t) t

/-- CQ_ENTRY_RETIRE: the oldest entry leaves once every group it selects has finished it (R152), and no access made under it can still
become an engine's stop point (R179). -/
def execCqEntryRetire (team : Nat) (s : State) : Out :=
  runEvent (fun s => do
    let t ← s.team? team
    match t.cq with
    | [] => none
    | e :: rest =>
      if t.groups.all fun g => !e.selects g.num || (g.passed e.n && !(g.inFlight.any fun a => a.origin.entry == e.n)) then
        some (s.mapTeam team fun t => { t.settle with
          groups := t.groups.map fun g => { g with passMarks := g.passMarks.filter (fun m => m.entry != e.n)
                                                   endings := g.endings.filter fun m => m.entry != e.n }
          cq := rest, waitFor := if t.waitFor = some .cqFull then none else t.waitFor })
      else none) s

/-- Every engine of the group looks at the entry. -/
def Group.allAt (t : Team) (g : Group) (n : Nat) : Bool :=
  g.engines.all fun w => !(g.eng w).running && (match t.nextEntry g.num (g.eng w) with | some e => e.n == n | none => false)

def Group.allTo (g : Group) (n : Nat) : Group := g.engines.foldl (fun g w => g.mapEng w fun e => e.skipTo n) g.stirred

/-- The REL edge of an entry in every engine of the group (R158). -/
def acquireAll (t : Team) (g : Group) (e : CqEntry) : List Eng → M Unit
  | [] => pure ()
  | w :: ws => do
    acquireEntry t g w e
    acquireAll t g e ws

/-- Posts a marker's rq entry when every earlier entry of the group is finished (R160, R164). -/
def postMarker (kind : EntryKind) (flags team grp : Nat) (s : State) : Option State := do
  let t ← s.team? team
  let g ← t.group? grp
  let e ← t.nextEntry grp g.l
  if e.kind = kind && g.allAt t e.n && g.inFlight.isEmpty && decide (t.rq.length < 16) && (t.phase == .running) then
    let s := match acquireAll t g e g.engines s with | .ok (_, s') => s' | .error _ => s
    some ((s.mapTeam team fun t => { t with rq := t.rq ++
      [{ flags := flags, predv := 0, block := e.block, grp := grp, seq := e.n % 2 ^ 16, release := none }] }).mapGroup team grp
        fun g => g.allTo (e.n + 1))
  else none

def execEosPost (team grp : Nat) (s : State) : Out := runEvent (postMarker .eos 4 team grp) s
def execMarkPost (team grp : Nat) (s : State) : Out := runEvent (postMarker .mark 2 team grp) s

/-- SPLIT_CLOSE: both SPLIT entries are finished, and the JOIN closes the paths (R163); what follows runs in path A's slot, ordered after
both paths. DESIGN CHOICE (log 24): slots of lq and sq that path B leaves stay in their queues, for the next path in its slot. -/
def execSplitClose (team grp : Nat) (s : State) : Out :=
  runEvent (fun s => do
    let t ← s.team? team
    let g ← t.group? grp
    let (a, b) ← g.split
    let e ← t.nextEntry grp g.l
    if e.kind = .join && g.allAt t e.n && g.inFlight.isEmpty && t.phase == .running then
      -- path A where it was not opened, in the slot that it would have held
      let g := match g.parked with | some (_, p) => g.setPath a p | none => g
      let vc := joinClock (g.pathAt a).c.vc (g.pathAt b).c.vc
      let imaged := unionIds (g.pathAt a).c.imaged (g.pathAt b).c.imaged
      let s := [EngKind.l, EngKind.s, EngKind.c].foldl (fun s k => s.inherit (.engine team grp b k) (.engine team grp a k)) s
      let back (e : Engine) : Engine := { e with path := a, vc := joinClock e.vc e.aside, aside := [] }
      some (s.mapGroup team grp fun _ =>
        let g := (g.mapPath b fun x => { x with live := false }).mapPath a fun x => { x with live := true, c := { x.c with vc := vc, imaged := imaged } }
        let g := g.allTo (e.n + 1)
        let h := { g with split := none, parked := none, l := back g.l, s := back g.s }
        match g.parked with | some (a0, _) => if a0 = a then h else h.swapSlots a a0 | none => h)
    else none) s

/-! ### X words (R155, R174) -/

/-- `x.nop` counts as one word. -/
def execXNop (w : SW) (s : State) : Out :=
  runEngine (fun l => do
    l.pass (swBytes w)
    pure false) s

/-- An engine of an entry stands at the word of a trip, has gone past it, or has finished the entry. A frozen engine stands at the
word that it was recorded at. -/
def Engine.reached (e : Engine) (frozen : Bool) (n trip off : Nat) : Bool :=
  decide (n < e.entry) || (e.entry == n && e.running && (decide (trip < e.trip) || (e.trip == trip && (decide (off < e.off) ||
    (e.off == off && (e.arrived || frozen))))))

/-- Every other engine of the entry's paths has reached the word that `who` stands at. -/
def Group.met (g : Group) (frozen : Bool) (who : Eng) : Bool :=
  let e := g.eng who
  let ok (w : Eng) : Bool := w == who || (g.eng w).reached frozen e.entry e.trip e.off
  ok .l && ok .s && ((g.siblings (g.pathAt (g.slotOf who)).root).all fun p => ok (.c p))

/-- The engines that stand at the word with `who`. -/
def Group.meeting (g : Group) (frozen : Bool) (who : Eng) : List Eng :=
  let e := g.eng who
  g.engines.filter fun w => w == who || ((g.eng w).entry == e.entry && (g.eng w).running && (g.eng w).trip == e.trip &&
    (g.eng w).off == e.off && ((g.eng w).arrived || frozen))

/-- A slot that closes in a single step is no live path any more that the step could move (R406). -/
def Team.trimPlan (t : Team) (grp : Nat) : Team :=
  match t.plan, t.group? grp with
  | x :: rest, some g => { t with plan := x :: rest.filter fun i => match i with | .engine (.c p) => (g.pathAt p).live | _ => true }
  | _, _ => t

/-- Closes the miss splits of a cq path, with the program order of the paths that meet (R177, R302). -/
def State.closeMiss (s : State) (key grp root : Nat) (m0 : W64) : State :=
  match (s.team? key).bind (·.group? grp) with
  | none => s
  | some g => match g.siblings root with
    | [] => s
    | low :: rest =>
      let s := rest.foldl (fun s p => s.inherit (.engine key grp p .c) (.engine key grp low .c)) s
      let s := if low = root then s
        else [EngKind.l, EngKind.s].foldl (fun s k => s.inherit (.engine key grp root k) (.engine key grp low k)) s
      let f (p : Nat) : Nat := if p = root then low else if p = low then root else p
      let op (m : MatrixOp) : MatrixOp := if m.team == key then
          { m with path := if m.grp == grp then f m.path else m.path
                   toks := m.toks.map fun x => if x.grp == grp then { x with path := f x.path } else x } else m
      ({ s with mqueue := s.mqueue.map op }.mapGroup key grp fun g => g.closeMiss root m0).mapTeam key fun t => t.trimPlan grp

/-- `x.sync`: the engines of the entry meet, with every access of the group performed, and pass together (R174). In a single step the
engine passes alone, with the paths of its miss split (R406); the meeting's orderings hold for all that stand there. -/
def execXSync (w : SW) (s : State) : Out :=
  runEngine (fun l => do
    let g ← l.group
    let alone := l.t.phase == .stepping
    if !g.met alone l.who then do
      if !alone then l.mapEng fun e => { e with arrived := true }
      waitOn .sync
    else if !(← get).groupQuiet l.t.key g then waitOn .accesses
    else do
      let all := g.meeting alone l.who
      let mine := if alone then all.filter fun x => x == l.who || (match x, l.who with
        | .c p, .c q => (g.pathAt p).root == (g.pathAt q).root
        | _, _ => false) else all
      let vc := all.foldl (fun v x => joinClock v (g.eng x).vc) (g.eng l.who).vc
      let party (x : Eng) : Party := (enginePlace l.t g x).party
      modify fun s => all.foldl (fun s p => all.foldl (fun s q => if p == q then s else s.inherit (party q) (party p)) s) s
      l.mapGroup fun g => all.foldl (fun g x => g.mapEng x fun e => { e with vc := vc }) g.stirred
      l.mapGroup fun g => mine.foldl (fun g x => g.mapEng x fun e =>
        { e.pass (swBytes w) with passed := if l.entry.view.service then e.passed else e.passed + 1 }) g
      let roots := (mine.filterMap fun x => match x with | .c p => some (g.pathAt p).root | _ => none).eraseDups
      modify fun s => roots.foldl (fun s r => s.closeMiss l.t.key l.g.num r (l.entry.m0 l.width l.e.trip)) s
      pure true) s

/-- The service entry is over: L and S stand again where they were frozen (R368), with the service's own writes in every engine's past and
nothing else that they did not have (log 98). -/
def endService (l : Ln) : M Unit := do
  let g ← l.group
  match g.savedL, g.savedS with
  | some a, some b =>
    if !g.l.running && !g.s.running && !(g.pathAt 4).c.running then do
      let mine := [g.l, g.s, (g.pathAt 4).c]
      let at_ (e : Engine) : List Nat := List.replicate e.clk 0 ++ [e.vc.getD e.clk 0]
      let vc := mine.foldl (fun v e => joinClock v (at_ e)) []
      l.mapGroup fun g =>
        let g := { g.mapPath 4 (fun x => { x with live := false }) with
          l := { a with vc := joinClock a.vc vc }, s := { b with vc := joinClock b.vc vc }, savedL := none, savedS := none }
        { g with paths := g.paths.map fun p => { p with c := { p.c with vc := joinClock p.c.vc vc } } }
      mapTeamM l.t.key fun t => { t with service := none }
  | _, _ => pure ()

/-- Takes the engine to its next trip, or out of the entry (R155). -/
def endTrip (l : Ln) : M Unit := do
  let g ← l.group
  let e := g.eng l.who
  let x := l.entry
  if e.trip + 1 < x.trips then do
    let off ← startOff l.t l.g x
    l.mapGroup fun g =>
      let g := g.mapEng l.who fun e => e.atTrip x (e.trip + 1) off
      match l.who with
      | .c p => g.mapPath p fun q => { q with m0 := x.m0 l.width (e.trip + 1) }
      | _ => g
  else do
    let next := match l.who, x.kind with
      | .c _, .splitA => x.n + 2
      | _, _ => x.n + 1
    l.mapEng fun e => { e.skipTo next with exempt := false }
    if x.view.service then endService l

/-- The engines of an `x.end`'s cq path in group order: L, S and the live C paths. -/
def Group.pathEngines (g : Group) (root : Nat) : List Eng := [.l, .s] ++ (g.siblings root).map .c

/-- An engine reaches an `x.end` (R190, R231; log 99): what it did before comes before what the engines of its cq path do after the same
`x.end`, and what those that have reached it did before comes before what it does after. None waits. -/
def meetEnd (l : Ln) (root : Nat) : M Unit := do
  let k ← l.token
  let g ← l.group
  let here (x : Ending) : Bool := x.entry == l.entry.n && x.trip == l.e.trip
  let kind := engKind l.who
  let old := (g.endings.find? here).getD { entry := l.entry.n, trip := l.e.trip, arrived := [], known := [], lifted := [], vc := [] }
  l.takeTok { known := old.known, lifted := old.lifted, vc := old.vc }
  let behind := (g.pathEngines root).filter fun w => old.arrived.contains (engKind w) && engKind w != kind
  modify fun s => behind.foldl (fun s w =>
    let o := s.knowOf (enginePlace l.t g w).party
    s.setKnow { o with known := unionIds o.known k.known, lifted := unionIds o.lifted k.lifted }) s
  let new : Ending := { old with arrived := kind :: old.arrived.filter (· != kind), known := unionIds old.known k.known, lifted := unionIds old.lifted k.lifted
                                 vc := joinClock old.vc k.vc }
  l.mapGroup fun g =>
    let g := behind.foldl (fun g w => g.mapEng w fun e => { e with vc := joinClock e.vc k.vc }) g
    { g with endings := (if new.arrived.length < 3 then [new] else []) ++ g.endings.filter fun x => !here x }

/-- `x.end` (R155, R177). -/
def execXEnd (w : SW) (s : State) : Out :=
  runEngine (fun l => do
    match l.who with
    | .c p => do
      let g ← l.group
      let sib := g.siblings (g.pathAt p).root
      let stepping := l.t.phase == .stepping
      if !(sib.all fun q => q == p || (((g.pathAt q).c.arrived || stepping) && (g.pathAt q).c.off == l.e.off)) then do
        if !stepping then l.mapEng fun e => { e with arrived := true }
        waitOn .meet
      else do
        modify fun s => s.closeMiss l.t.key l.g.num (g.pathAt p).root (l.entry.m0 l.width l.e.trip)
        let low := sib.headD p
        let g ← l.group
        let l' := { lnOf l.t g (.c low) l.entry with t := l.t }
        meetEnd l' low
        l'.pass (swBytes w)
        endTrip l'
        pure true
    | _ => do
      -- a service entry is over with its accesses (R368)
      if l.entry.view.service && !(← l.group).inFlight.isEmpty then waitOn .accesses
      meetEnd l l.root
      l.pass (swBytes w)
      endTrip l
      pure true) s

/-! ### Words that are no instruction -/

/-- R44, R45. -/
def execUnassignedHelmWord (s : State) : Out := runHelm 4 (fun _ => raise cILLEGAL) s

/-- R54; beyond the strand text, SEG_LIMIT at the first word beyond it (R55). -/
def execUnassignedStrandWord (beyond : Bool) (s : State) : Out :=
  runEngine (fun l => if beyond then raise cSEG_LIMIT (segBase l.entry.view.text + l.e.off) 0 false true
    else raise cSTRAND_ILLEGAL) s

/-! ### Deadlock and freeze (R175, R178 to R180, R395) -/

/-- GROUP_DEADLOCK: every engine waits for the group itself. -/
def execGroupDeadlock (team grp : Nat) (s : State) : Out :=
  runEvent (fun s => do
    let t ← s.team? team
    let g ← t.group? grp
    let inner (e : Engine) : Bool := e.running && (match e.waitFor with
      | some .slots => true
      | some .token => true
      | some .sync => true
      | some .slip => true
      | _ => false)
    let p ← g.liveSlots.head?
    if t.phase == .running && s.groupQuiet team g && g.engines.all fun w => inner (g.eng w) then
      some (s.laneTrap team grp (.c p) false
        { code := cQUEUE_PROTOCOL, fva := 0, info := 0, write := false, fetch := false, mask := none })
    else none) s

/-- A repetition of S whose stores the lease of a queued operation holds, so that S waits before it (R259). -/
def State.heldStore (s : State) (t : Team) (g : Group) (eng : Eng) : Option Access :=
  if eng != .s then none
  else g.inFlight.find? fun a => a.eng == .s && a.store && a.lanes.any fun x => s.leasedQueued t.key x.loc (laneBytes a.size)

/-- An engine stops where it stands (R179): C past words of other tags, S before the repetition that a lease holds; a word that has not begun
its repetitions has taken no token. -/
def State.stopEngine (s : State) (t : Team) (g : Group) (eng : Eng) : State :=
  let s := match eng with
    | .c _ => s.passForeign t.key g.num eng (segLimit t.kernel.text / 6 + 1)
    | _ => match s.heldStore t g eng with
      | some a => s.mapGroup t.key g.num fun g => g.backTo t a
      | none => s
  let e := (((s.team? t.key).bind (·.group? g.num)).getD g).eng eng
  let root := match eng with | .c p => (g.pathAt p).root | _ => g.slotOf eng
  (s.unregister (· == waiterOf t.key g.num eng)).mapGroup t.key g.num fun g =>
    let g := if e.rep = 0 && !e.issued then g.unlatch eng root else g
    let g := match eng with | .c _ => { g with meet := none } | _ => g
    g.mapEng eng fun e => { e with halted := true, arrived := false, granted := none }

/-- ENGINE_HALT: the halt reaches an engine, which issues no further repetition (R178, R179). -/
def execEngineHalt (team grp : Nat) (eng : Eng) (s : State) : Out :=
  runEvent (fun s => do
    let t ← s.team? team
    let g ← t.group? grp
    if t.phase = .freezing && g.engines.contains eng && !(g.eng eng).halted then some (s.stopEngine t g eng) else none) s

/-- Every engine has stopped and every started access and command is done, the commands' arrivals with them (R179, R180, R395, R450, R457); a
command that waits for a held slot has nothing left to do (R279). -/
def State.drained (s : State) (t : Team) : Bool :=
  (t.groups.all fun g => g.inFlight.isEmpty && g.engines.all fun w => (g.eng w).halted) &&
  !(s.cmds.any fun c => c.team == t.key && c.state == .running && !c.stalled) && !(s.mqueue.any fun m => m.team == t.key && m.begun) &&
  !(s.arrivals.any fun a => a.command == some t.key)

/-- VECTOR_ENTRY. -/
def execVectorEntry (team : Nat) (s : State) : Out :=
  runEvent (fun s => do
    let t ← s.team? team
    if t.phase = .freezing && t.resident && s.drained t then some (s.enterVector team) else none) s

end Sys2Proof.Machine
end

