-- ==== Sys2Proof/Machine/Shapes.lean ====
section
/-! DEFINITION. Shape registers (05_shapes.md). -/

namespace Sys2Proof.Machine

/-! ### Images and grants (R134 to R138) -/

def Shape.image (h : Shape) : Nat :=
  h.reqm % 2 ^ 24 * 2 ^ 104 + h.reqn % 2 ^ 24 * 2 ^ 80 + h.reqk % 2 ^ 16 * 2 ^ 64 + h.grm % 2 ^ 8 * 2 ^ 56 + h.grn % 2 ^ 8 * 2 ^ 48 +
  h.grk % 2 ^ 9 * 2 ^ 39 + h.tailc % 2 ^ 9 * 2 ^ 30 + b2n h.chg * 2 ^ 15 + b2n h.valid * 2 ^ 14 + h.td % 4 * 2 ^ 12 +
  b2n h.vector * 2 ^ 11 + h.policy % 4 * 2 ^ 9 + h.fmt % 32

def Shape.ofImage (x : Nat) : Shape :=
  { reqm := bitsOf x 127 104, reqn := bitsOf x 103 80, reqk := bitsOf x 79 64, grm := bitsOf x 63 56, grn := bitsOf x 55 48
    grk := bitsOf x 47 39, tailc := bitsOf x 38 30, chg := bitOf x 15, valid := bitOf x 14, td := bitsOf x 13 12, vector := bitOf x 11
    policy := bitsOf x 10 9, fmt := bitsOf x 4 0 }

/-- M and N extents by presented class (R136). -/
def latticeMN (cls : Nat) : List Nat := if cls = 0 then [16, 32, 64, 128] else if cls = 1 then [16, 32, 64] else [16, 32]

/-- Element bits of a tile format, substituted formats as widened; 0 where no tile has it (R137). -/
def tileBits (fmt : Nat) : Nat :=
  if fmt = 1 then 64 else if fmt = 0 then 32 else if fmt = 2 ∨ fmt = 3 then 16
  else if (4 ≤ fmt ∧ fmt ≤ 7) ∨ (0x10 ≤ fmt ∧ fmt ≤ 0x12) then 8 else if 8 ≤ fmt ∧ fmt ≤ 10 then 4 else 0

/-- K extents in elements (R137). -/
def latticeK (fmt : Nat) : List Nat := [32, 64, 128].map fun b => b * 8 / tileBits fmt

/-- A code that R65 assigns. -/
def fmtAssigned (fmt : Nat) : Bool := decide (fmt ≤ 0x0E) || (decide (0x10 ≤ fmt) && decide (fmt ≤ 0x12))

/-- A format that a request accepts (R137, R142). -/
def requestFormat (vector : Bool) (fmt : Nat) : Bool := if vector then fmtAssigned fmt else tileBits fmt != 0

/-- Grant(q, P, S) of R138, over a rising lattice. -/
def grantOf (q policy : Nat) (lat : List Nat) : Nat :=
  if q = 0 then 0
  else match policy with
    | 0 => if lat.contains q then q else 0
    | 1 => ((lat.filter (· ≤ q)).getLast?).getD (lat.headD 0)
    | _ => (lat.find? (q ≤ ·)).getD (lat.getLastD 0)

/-- The register that a request leaves (R138, R142). -/
def shapeRequest (cls width reqm reqn reqk policy td fmt : Nat) (vector : Bool) : Shape :=
  let m := grantOf reqm policy (if vector then [width] else latticeMN cls)
  let n := if vector then 1 else grantOf reqn policy (latticeMN cls)
  let k := if vector then 1 else grantOf reqk policy (latticeK fmt)
  let ok := m != 0 && n != 0 && k != 0
  let none := policy == 0 && !ok
  { reqm := reqm, reqn := reqn, reqk := reqk, grm := if none then 0 else m, grn := if none then 0 else n, grk := if none then 0 else k
    tailc := 0, chg := false, valid := ok, td := td, vector := vector, policy := policy, fmt := fmt }

/-- The granted extent of the tail dimension (R144). -/
def Shape.extent (h : Shape) : Nat := if h.vector then h.grm else match h.td with | 0 => h.grm | 1 => h.grn | _ => h.grk

/-- Re-grant of a register on a new lattice (R149). -/
def Shape.regrant (h : Shape) (cls width : Nat) : Shape :=
  if !h.valid then h
  else
    let n := shapeRequest cls width h.reqm h.reqn h.reqk h.policy h.td h.fmt h.vector
    if n.grm = h.grm && n.grn = h.grn && n.grk = h.grk && n.valid = h.valid then { h with chg := false }
    else { n with chg := true, tailc := 0 }

def Team.shape (t : Team) (n : BitVec 3) : Shape := t.shapes.getD n.toNat Shape.zero
def Team.setShape (t : Team) (n : BitVec 3) (h : Shape) : Team := { t with shapes := t.shapes.set n.toNat h }

/-- The word could write g(d) at its privilege (R99). -/
def needWritable (t : Team) (d : GReg) : M Unit := need (t.super || !isKReg d) cPRIV

/-! ### Words -/

/-- R142. Its pseudocode stores q[47:24] and q[63:48] into REQN and REQK without a condition, while R141 says that of a vector request
only q[23:0] is read. DESIGN CHOICE (log 89): they are stored for a vector request too, where no grant depends on them. -/
def requestShape (d a : GReg) (sh : BitVec 3) (pol td : BitVec 2) (fmt : BitVec 5) (vector : Bool) (s : State) : Out :=
  runHelm 8 (fun t => do
    needWritable t d
    need (requestFormat vector fmt.toNat) cFORMAT
    let q := (t.reg a).toNat
    let st ← get
    let h := shapeRequest (st.teamClass t) t.kernel.width (bitsOf q 23 0) (bitsOf q 47 24) (bitsOf q 63 48) pol.toNat td.toNat
      fmt.toNat vector
    mapTeamM t.key fun t => t.setShape sh h
    setG t.key d (if h.valid then BitVec.ofNat 64 (h.grk * 2 ^ 48 + h.grn * 2 ^ 24 + h.grm) else 0)
    pure .seq) s

def execShpReq (d a : GReg) (sh : BitVec 3) (pol td : BitVec 2) (fmt : BitVec 5) (s : State) : Out :=
  requestShape d a sh pol td fmt false s

def execShpReqV (d a : GReg) (sh : BitVec 3) (pol td : BitVec 2) (fmt : BitVec 5) (s : State) : Out :=
  requestShape d a sh pol td fmt true s

/-- R143. -/
def execShpGet (d : GReg) (sh : BitVec 3) (item : BitVec 4) (s : State) : Out :=
  helmValue 4 d (fun t =>
    let h := t.shape sh
    BitVec.ofNat 64 (match item.toNat with
      | 0 => h.grm
      | 1 => h.grn
      | 2 => h.grk
      | 3 => h.reqm
      | 4 => h.reqn
      | 5 => h.reqk
      | _ => h.image % 2 ^ 16 + h.tailc * 2 ^ 16)) s

/-- Trips and last tail of a length (R144). -/
def tripsOf (l g : Nat) : Nat × Nat := if l = 0 ∨ g = 0 then (0, 0) else ((l + g - 1) / g, l - ((l + g - 1) / g - 1) * g)

/-- R144. -/
def execShpTail (d a : GReg) (sh : BitVec 3) (s : State) : Out :=
  runHelm 4 (fun t => do
    needWritable t d
    needWritable t (d + 1)
    needWritable t (d + 2)
    let h := t.shape sh
    need h.valid cSHAPE_FAIL
    let (trips, tail) := tripsOf (t.reg a).toNat h.extent
    mapTeamM t.key fun t => t.setShape sh { h with tailc := tail }
    setG t.key d (BitVec.ofNat 64 trips)
    setG t.key (d + 1) (BitVec.ofNat 64 (2 ^ (if tail ≥ 64 then 64 else tail) - 1))
    setG t.key (d + 2) (BitVec.ofNat 64 tail)
    pure .seq) s

/-- A form of `shp.set` that leaves a register as `f` computes it (R150). -/
def setShapeWord (dst : BitVec 3) (f : State → Team → M Shape) (s : State) : Out :=
  runHelm 8 (fun t => do
    let st ← get
    let h ← f st t
    mapTeamM t.key fun t => t.setShape dst h
    pure .seq) s

def execShpSetCopy (dst src : BitVec 3) (s : State) : Out := setShapeWord dst (fun _ t => pure (t.shape src)) s

def execShpSetClr (dst : BitVec 3) (s : State) : Out :=
  setShapeWord dst (fun _ t => pure { t.shape dst with grm := 0, grn := 0, grk := 0, tailc := 0, chg := false, valid := false }) s

/-- A granted extent of a valid register lies in the lattice (R150). -/
def Shape.inLattice (h : Shape) (cls width : Nat) : Bool :=
  if h.vector then h.grm == width && h.grn == 1 && h.grk == 1
  else (latticeMN cls).contains h.grm && (latticeMN cls).contains h.grn && (latticeK h.fmt).contains h.grk

def execShpSetLd (dst : BitVec 3) (a : GReg) (s : State) : Out :=
  setShapeWord dst (fun st t => do
    need t.super cPRIV
    let x := (t.pair a).toNat
    let h := Shape.ofImage x
    need (bitsOf x 29 16 == 0 && bitsOf x 8 5 == 0 && h.policy != 3 && h.td != 3 && !(h.vector && h.td != 0)) cILLEGAL
    need (requestFormat h.vector h.fmt) cFORMAT
    need ((if h.valid then h.inLattice (st.teamClass t) t.kernel.width else h.grm == 0 && h.grn == 0 && h.grk == 0) &&
      decide (h.tailc ≤ h.extent)) cSHAPE_FAIL
    pure h) s

def execShpSetTail (dst : BitVec 3) (imm : W32) (s : State) : Out :=
  setShapeWord dst (fun _ t => do
    let h := t.shape dst
    need (h.valid && decide (imm.toNat ≤ h.extent)) cSHAPE_FAIL
    pure { h with tailc := imm.toNat }) s

end Sys2Proof.Machine
end

