-- ==== Sys2Proof/Machine/Queues.lean ====
section
/-! DEFINITION. The helm's queue words and `c.psend` (06_queues.md R151 to R169; 13_addresses.md R368). -/

namespace Sys2Proof.Machine

/-! ### Pushing (R154, R158, R160) -/

/-- Occupancy of the cq (R152). -/
def Team.cqOccupancy (t : Team) : Nat :=
  match t.cq with
  | [] => 0
  | e :: _ => t.nextPush - e.n

/-- A group that is blocked posting to the rq (R154): at a marker with every engine, or a live path's C engine waits for the rq, and no
engine of the group is still in an entry older than the one that waits to post, which alone could still retire. -/
def Group.blockedPosting (t : Team) (g : Group) : Bool :=
  let posting := (g.liveSlots.map fun p => (g.pathAt p).c).filter fun e => e.running && e.waitFor == some .rqFull
  let oldest := posting.foldl (fun n e => Nat.min n e.entry) ((posting.head?.map (·.entry)).getD 0)
  (!posting.isEmpty && g.engines.all fun w => decide (oldest ≤ (g.eng w).entry)) ||
  (match t.nextEntry g.num g.l with
   | some e => (e.kind == .mark || e.kind == .eos) && g.allAt t e.n
   | none => false)

/-- A group that can free no rq entry and no cq slot (R154). -/
def Group.stuckPosting (t : Team) (g : Group) : Bool := g.idle t || g.blockedPosting t

/-- The oldest entry is finished and is yet to retire (R152). -/
def Team.retiresNext (t : Team) : Bool :=
  match t.cq with
  | [] => false
  | e :: _ => t.groups.all fun g => !e.selects g.num || g.passed e.n

/-- Waits while fewer than `n` slots are free; a push at a full cq that could never be made raises QUEUE_PROTOCOL (R153, R154). -/
def waitCq (t : Team) (n : Nat) : M Unit :=
  if t.cqOccupancy + n ≤ 64 then pure ()
  else if decide (t.cqOccupancy ≥ 64) && decide (t.rq.length ≥ 16) && !t.retiresNext && t.groups.all (fun g => g.stuckPosting t) then raise cQUEUE_PROTOCOL
  else waitOn .cqFull

def Team.selected (t : Team) (gsel : Nat) : List Group := if gsel = 0xFF then t.groups else t.groups.filter fun g => g.num == gsel

/-- The selected groups exist. -/
def needGroups (t : Team) (gsel : Nat) : M Unit := need (gsel == 0xFF || !(t.selected gsel).isEmpty) cQUEUE_PROTOCOL

/-- What an entry carries of the helm's state at its push (R146, R158, R316, R355). -/
def viewOf (s : State) (t : Team) (rel : Option Nat) : View :=
  { shapes := t.shapes, fmts := t.fmts, segs := t.segs, mode := bitOf t.mmcfg.toNat 0, regions := t.regionsNow
    release := rel.map fun sc => s.releaseOf t.place sc
    obj := t.kernel.obj, text := t.kernel.text, blkOff := t.kernel.blkOff, nblk := t.kernel.nblk, service := false }

/-- The layer of an entry (R160). -/
def layerOf (t : Team) (f : PushFields) : Nat := if f.lfix then f.lay.toNat else t.loop.lc.toNat % 16

/-- The fields of an entry that a push word makes. -/
def mkEntry (s : State) (t : Team) (n : Nat) (kind : EntryKind) (block gsel trips : Nat) (tmask : W64) (a0 a1 : W32) (layer : Nat)
    (rel : Option Nat) : CqEntry :=
  { n := n, kind := kind, block := block, gsel := gsel, trips := trips, tmask := tmask, arg0 := a0, arg1 := a1, layer := layer
    rel := rel.isSome, rscope := rel.getD 0, win := t.win, tag := t.pc.toNat, view := viewOf s t rel }

def relOf (f : PushFields) : Option Nat := if f.rel then some f.rscope.toNat else none

/-- A release push drains the helm's writes to their homes first (R317). -/
def pushDrain (t : Team) (f : PushFields) : M Unit :=
  if f.rel then modify fun s => s.drainParty t.place.party else pure ()

/-- The three operand registers of a push: tail mask and arguments (R160). -/
def pushArgs (t : Team) (d : GReg) : W64 × W32 × W32 :=
  if d = 0 then (BitVec.allOnes 64, 0, 0) else (t.reg d, (t.reg (d + 1)).setWidth 32, (t.reg (d + 2)).setWidth 32)

/-- A service entry (R368): the faulting group runs it in path slot 4, with m0 as pushed, at supervisor privilege. -/
def pushService (t : Team) (d a : GReg) (f : PushFields) : M Unit := do
  if t.service.isSome then waitOn .service
  let grp := bitsOf t.cause.toNat 20 16
  need (f.gsel.toNat == grp && (t.group? grp).isSome) cQUEUE_PROTOCOL
  need (decide (f.block.toNat < t.curNblk)) cQUEUE_PROTOCOL
  pushDrain t f
  let s ← get
  let (mask, a0, a1) := pushArgs t d
  let e := mkEntry s t t.nextPush .run f.block.toNat f.gsel.toNat ((t.reg a).toNat % 2 ^ 24) mask a0 a1 (layerOf t f) (relOf f)
  let e := { e with view := { e.view with obj := t.curObj, text := t.seg 0, blkOff := t.curBlkOff, nblk := t.curNblk, service := true } }
  let g ← groupOf t.key grp
  if e.trips = 0 then pure ()
  else do
    let off ← startOff t g e
    let vc := g.engines.foldl (fun v w => joinClock v (g.eng w).vc) []
    let fresh (clk : Nat) : Engine := { Engine.fresh with path := 4, clk := clk, vc := vc }.atTrip e 0 off
    mapGroupM t.key grp fun g =>
      { g.setPath 4 { Path.fresh with live := true, root := 4, m0 := e.m0 t.kernel.width 0, c := fresh g.nextClk } with
        savedL := some g.l, savedS := some g.s, l := fresh (g.nextClk + 1), s := fresh (g.nextClk + 2), nextClk := g.nextClk + 3 }
    mapTeamM t.key fun t => { t with service := some e }
    let g ← groupOf t.key grp
    -- every access of the team before the freeze is in the program order of what serves it
    modify fun s => [Eng.l, Eng.s, Eng.c 4].foldl (fun s w =>
      let s := g.liveSlots.foldl (fun s p => [EngKind.l, EngKind.s, EngKind.c].foldl (fun s k =>
        s.inherit (.engine t.key grp p k) (enginePlace t g w).party) s) s
      s.inherit t.place.party (enginePlace t g w).party) s

/-- `q.push` of a kind (R160). -/
def pushWord (kind : EntryKind) (d a : GReg) (f : PushFields) (s : State) : Out :=
  runHelm 8 (fun t => do
    if t.inVector then do
      need (kind == .run) cQUEUE_PROTOCOL
      pushService t d a f
      pure .seq
    else do
      waitCq t 1
      needGroups t f.gsel.toNat
      let gs := t.selected f.gsel.toNat
      need (kind == .nop || !(gs.any fun g => g.pushSplit)) cQUEUE_PROTOCOL
      need (kind != .run || decide (f.block.toNat < t.kernel.nblk)) cQUEUE_PROTOCOL
      pushDrain t f
      let s ← get
      let (mask, a0, a1) := pushArgs t d
      let e := mkEntry s t t.nextPush kind f.block.toNat f.gsel.toNat ((t.reg a).toNat % 2 ^ 24) mask a0 a1 (layerOf t f) (relOf f)
      mapTeamM t.key fun t => { t with cq := t.cq ++ [e], nextPush := t.nextPush + 1 }
      pure .seq) s

def execQPush (d a : GReg) (f : PushFields) (s : State) : Out := pushWord .run d a f s
def execQPushEos (d a : GReg) (f : PushFields) (s : State) : Out := pushWord .eos d a f s
def execQPushNop (d a : GReg) (f : PushFields) (s : State) : Out := pushWord .nop d a f s

/-- R161. -/
def execQSplit (d a : GReg) (f : PushFields) (s : State) : Out :=
  runHelm 8 (fun t => do
    need (!t.inVector) cQUEUE_PROTOCOL
    waitCq t 2
    needGroups t f.gsel.toNat
    let x := (t.reg a).toNat
    need (!((t.selected f.gsel.toNat).any fun g => g.pushSplit)) cQUEUE_PROTOCOL
    need (decide (f.block.toNat < t.kernel.nblk) && decide (bitsOf x 63 48 < t.kernel.nblk)) cQUEUE_PROTOCOL
    pushDrain t f
    let s ← get
    let (mask, a0, a1) := pushArgs t d
    let e1 := mkEntry s t t.nextPush .splitA f.block.toNat f.gsel.toNat (bitsOf x 23 0) mask a0 a1 (layerOf t f) (relOf f)
    let e2 := mkEntry s t (t.nextPush + 1) .splitB (bitsOf x 63 48) f.gsel.toNat (bitsOf x 47 24) (~~~mask) a0 a1 (layerOf t f) (relOf f)
    mapTeamM t.key fun t =>
      { t with cq := t.cq ++ [e1, e2], nextPush := t.nextPush + 2
               groups := t.groups.map fun g => if e1.selects g.num then { g with pushSplit := true } else g }
    pure .seq) s

/-- A JOIN or MARK entry (R163, R164). -/
def pushMarker (t : Team) (kind : EntryKind) (gsel : Nat) : M Unit := do
  let s ← get
  let e := mkEntry s t t.nextPush kind 0 gsel 0 0 0 0 (t.loop.lc.toNat % 16) none
  mapTeamM t.key fun t => { t with cq := t.cq ++ [e], nextPush := t.nextPush + 1 }

/-- A group select in a register (R163). -/
def needSelect (t : Team) (gsel : Nat) : M Unit := do
  need (decide (gsel < 0x20) || gsel == 0xFF) cQUEUE_PROTOCOL
  needGroups t gsel

def execQJoin (a : GReg) (s : State) : Out :=
  runHelm 4 (fun t => do
    need (!t.inVector) cQUEUE_PROTOCOL
    waitCq t 1
    let gsel := (t.reg a).toNat % 256
    needSelect t gsel
    need ((t.selected gsel).all fun g => g.pushSplit) cQUEUE_PROTOCOL
    pushMarker t .join gsel
    mapTeamM t.key fun t =>
      { t with groups := t.groups.map fun g => if gsel = 0xFF || g.num == gsel then { g with pushSplit := false } else g }
    pure .seq) s

def execQMark (d a : GReg) (s : State) : Out :=
  runHelm 4 (fun t => do
    needWritable t d
    need (!t.inVector) cQUEUE_PROTOCOL
    waitCq t 1
    let gsel := (t.reg a).toNat % 256
    needSelect t gsel
    pushMarker t .mark gsel
    setG t.key d (BitVec.ofNat 64 (t.nextPush % 2 ^ 16))
    pure .seq) s

/-! ### sys.win (R165) -/

/-- What a write leaves in WIN. -/
def winOf (v : Nat) : Nat := if v = 0 then 1 else if v > 64 then 64 else v

def execQWin (n : W32) (s : State) : Out :=
  runHelm 8 (fun t => do
    mapTeamM t.key fun t => { t with win := winOf n.toNat }
    pure .seq) s

def execQWinReg (a : GReg) (s : State) : Out :=
  runHelm 8 (fun t => do
    mapTeamM t.key fun u => { u with win := winOf ((t.reg a).toNat % 128) }
    pure .seq) s

/-! ### The rq (R166 to R169) -/

/-- Words of a block from an offset on, up to its `x.end`, that can post: `c.psend`. -/
def scanPosts (t : Team) (bay : Nat) (v : View) (limit : Nat) : Nat → Nat → M Bool
  | 0, _ => pure false
  | fuel + 1, off =>
    if off + 6 > limit then pure false
    else do
      let w := leNat (← fetchText t bay v off 6)
      let len := strandBytes w
      if len = 12 && decide (off + 12 > limit) then pure false
      else do
        let x ← (if len = 12 then do pure (leNat (← fetchText t bay v (off + 6) 6)) else pure 0)
        let op := if len = 12 then x % 64 else bitsOf w 11 6
        if w % 4 = 3 && op = 2 then pure false
        else if w % 4 = 1 && op = 0x28 then pure true
        else scanPosts t bay v limit fuel (off + len)

/-- The group has a word left that can post an rq entry (R169). A word that cannot be looked at, since its page is absent, is taken for
one that may. A posted `c.psend` that still waits for its pushes has posted. -/
def Group.canPost (s : State) (t : Team) (g : Group) : Bool :=
  let scan (e : CqEntry) (off : Nat) : Bool :=
    let limit := s.strandLimit t.dctx e.view
    match scanPosts t g.bay e.view limit (limit / 6 + 1) off s with | .ok (b, _) => b | .error _ => true
  let whole (e : CqEntry) : Bool :=
    match startOff t g e s with | .ok (off, _) => scan e off | .error _ => true
  let onward (x : CqEntry) (e : Engine) : Bool :=
    if e.issued then
      match headAt t g x e s with | .ok (head, _) => scan x (e.off + strandBytes head) | .error _ => true
    else scan x e.off
  -- the C engines that an entry still awaits: path A's or path B's of an open split, else the group's; all, beyond the split's JOIN
  let awaits (x : CqEntry) : Bool :=
    (g.split.isSome && t.cq.any fun j => j.kind == .join && j.selects g.num && decide (j.n < x.n) && decide (g.l.entry ≤ j.n)) ||
    (g.liveSlots.filter fun p => match g.split, x.kind with
      | some (a, _), .splitA => (g.pathAt p).root == a
      | some (_, b), .splitB => (g.pathAt p).root == b
      | _, _ => true).any fun p =>
        let e := (g.pathAt p).c
        decide (e.entry ≤ x.n) && !(e.running && e.entry == x.n)
  let runs (e : CqEntry) : Bool := (e.kind == .run || e.kind == .splitA || e.kind == .splitB) && !e.empty t.kernel.width
  (g.liveSlots.any fun p =>
    let e := (g.pathAt p).c
    e.running && (match t.entryAt e.entry with
      | some x => onward x e || (decide (e.trip + 1 < x.trips) && whole x)
      | none => false)) ||
  t.cq.any fun x => x.selects g.num && runs x && awaits x && whole x

/-- The second register of `q.popr` and `q.peek` (R168). -/
def rqWord (e : RqEntry) : W64 := BitVec.ofNat 64 (2 ^ 63 + e.flags % 256 * 2 ^ 48 + e.block % 2 ^ 16 * 2 ^ 24 + e.grp % 256 * 2 ^ 16 + e.seq % 2 ^ 16)

def execQPopr (d : GReg) (s : State) : Out :=
  runHelm 4 (fun t => do
    needWritable t d
    needWritable t (d + 1)
    match t.rq with
    | e :: rest => do
      mapTeamM t.key fun t => { t with rq := rest }
      helmAcquire t 1 none e.release.toList
      setG t.key d e.predv
      setG t.key (d + 1) (rqWord e)
      pure .seq
    | [] => do
      let s ← get
      if !(t.groups.any fun g => g.canPost s t) && !(t.cq.any fun e => e.kind == .mark || e.kind == .eos) then raise cQUEUE_PROTOCOL
      waitOn .rqEmpty) s

def execQPeek (d : GReg) (s : State) : Out :=
  runHelm 4 (fun t => do
    setG t.key d (match t.rq with | e :: _ => e.predv | [] => 0)
    setG t.key (d + 1) (match t.rq with | e :: _ => rqWord e | [] => 0)
    pure .seq) s

def execQOccCq (d : GReg) (s : State) : Out :=
  helmValue 4 d (fun t => BitVec.ofNat 64 (t.cqOccupancy + (match t.cq with | e :: _ => e.n | [] => t.nextPush) % 2 ^ 16 * 2 ^ 16 +
    t.nextPush % 2 ^ 16 * 2 ^ 32)) s

def execQOccRq (d : GReg) (s : State) : Out := helmValue 4 d (fun t => BitVec.ofNat 64 t.rq.length) s

/-- The L or S engine has passed every word of the path before the C engine's (R167). -/
def Engine.caughtUp (x c : Engine) : Bool :=
  decide (c.entry < x.entry) || (x.entry == c.entry && x.running && (decide (c.trip < x.trip) || (x.trip == c.trip && decide (c.off ≤ x.off))))

/-- An issued repetition that comes before a position of its path in strand order (R167). -/
def Access.precedes (a : Access) (c : Engine) : Bool :=
  decide (a.origin.entry < c.entry) || (a.origin.entry == c.entry && (decide (a.origin.trip < c.trip) || (a.origin.trip == c.trip &&
    decide (a.origin.off < c.off))))

/-- What the L or S engine of the path releases at a word of C: what it knew when it passed the word, or what it knows where it has not
gone past it. -/
def Group.knownAt (g : Group) (s : State) (key root : Nat) (kind : EngKind) (c : Engine) : List Nat × List Nat :=
  match g.passMarks.find? fun m => m.kind == kind && m.path == root && m.entry == c.entry && m.trip == c.trip && m.off == c.off with
  | some m => (m.known, m.lifted)
  | none =>
    let k := s.knowOf (.engine key g.num root kind)
    (k.known, k.lifted)

/-- `c.psend` (R167): a release at team scope of what precedes it in strand order, once that is performed. DESIGN CHOICE (log 24): under
a miss split each path that executes the word posts an entry of its own lanes. -/
def execCPsend (w : SW) (s : State) : Out :=
  runWord w [{ reg := w.va.toNat, adv := 0, span := 1 }] 8 (fun _ => pure ()) (fun l _ => do
    let g ← l.group
    if !(g.l.caughtUp l.e && g.s.caughtUp l.e) then waitOn .strand
    if (g.inFlight.any fun a => g.inStrand l.t a l.root && a.precedes l.e) ||
      ((← get).mqueue.any fun m => m.inStrand l.t.key g.num (l.g.slotOf l.who) && m.counted) then waitOn .accesses
    if l.t.rq.length ≥ 16 then waitOn .rqFull
    let popped ← (if w.va.toNat = 112 then l.popLq else pure [])
    let xs ← l.source w.va.toNat popped
    let s ← get
    let own := s.releaseOf l.place 1
    let r := [EngKind.l, EngKind.s].foldl (fun (r : Release) k =>
      let (known, lifted) := g.knownAt s l.t.key l.root k l.e
      { r with known := unionIds r.known known, lifted := unionIds r.lifted lifted }) own
    modify fun s => s.drain fun w => r.known.contains w.id
    mapTeamM l.t.key fun t => { t with rq := t.rq ++
      [{ flags := 1, predv := BitVec.ofNat 64 ((l.activeLanes.map fun i => if xs.getD i 0 = 0 then 0 else 2 ^ i).foldl (· + ·) 0)
         block := l.entry.block, grp := l.g.num, seq := l.entry.n % 2 ^ 16, release := some r }] }) s

end Sys2Proof.Machine
end

