-- ==== Sys2Proof/Machine/Sync.lean ====
section
/-! DEFINITION. Waypoints, atomics and fences (12_sync.md), and the region table of 11_writesets.md. -/

namespace Sys2Proof.Machine

/-! ### Waypoint records (R328 to R334) -/

def Waypoint.handle (w : Waypoint) : Nat := w.die * 2 ^ 30 + w.gen * 2 ^ 24 + w.index

/-- Number of waypoint indices of a die (R328). -/
def State.wpCount (s : State) (die : Nat) : Nat :=
  match s.die? die with | some d => 65536 * (bitsOf d.secfg.toNat 55 48 + 1) | none => 0

/-- The record that a handle names for a party of an address space, if the handle is valid (R329). -/
def State.waypoint? (s : State) (handle aspace : Nat) : Option Waypoint :=
  let die := bitsOf handle 31 30
  if s.dieUp die && decide (handle % 2 ^ 24 < s.wpCount die) then
    s.waypoints.find? fun w => w.die == die && w.index == handle % 2 ^ 24 && w.valid && w.gen == bitsOf handle 29 24 && w.aspace == aspace
  else none

/-- Phase `p` has completed (R337). -/
def Waypoint.done (w : Waypoint) (p : Nat) : Bool :=
  let d := (w.phase + 2 ^ 32 - p % 2 ^ 32) % 2 ^ 32
  decide (1 ≤ d) && decide (d ≤ 2 ^ 31)

/-- The releases that a completed wait on phase `p` meets: those of phases up to `p` (R342). -/
def Waypoint.releasesTo (w : Waypoint) (p : Nat) : List Release :=
  (w.releases.filter fun x => decide ((p + 2 ^ 32 - x.1) % 2 ^ 32 < 2 ^ 31)).map (·.2)

def WaitFor.onHandle (w : Option WaitFor) (handle : Nat) : Bool := match w with | some (.waypoint h _) => h == handle | _ => false

/-- The registered waiters on a record: helm contexts, engines and copy channels (R330, R332). -/
def Waypoint.waiters (w : Waypoint) : Nat := w.waiting.length

/-- The 512 bits of R330. -/
def Waypoint.image (w : Waypoint) : Nat :=
  w.owner % 2 ^ 32 * 2 ^ 480 + w.gen % 64 * 2 ^ 474 + w.life % 4 * 2 ^ 472 + b2n w.valid * 2 ^ 467 + b2n w.fault * 2 ^ 466 +
  b2n w.overBit * 2 ^ 465 + b2n w.pover * 2 ^ 464 + w.waiters % 2 ^ 16 * 2 ^ 448 + w.aspace % 2 ^ 24 * 2 ^ 424 + w.binit % 2 ^ 40 * 2 ^ 384 +
  w.ainit % 2 ^ 16 * 2 ^ 368 + w.plost % 2 ^ 16 * 2 ^ 352 + w.lost % 2 ^ 16 * 2 ^ 336 + w.bcnt % 2 ^ 40 * 2 ^ 296 +
  w.bexp % 2 ^ 40 * 2 ^ 256 + w.acnt % 2 ^ 16 * 2 ^ 240 + w.aexp % 2 ^ 16 * 2 ^ 224 + w.phase % 2 ^ 32 * 2 ^ 192

/-- Where the record of an overflow index lies in the HBM of its die (R328); none of a resident record. -/
def State.overflowLoc (s : State) (w : Waypoint) : Option Nat :=
  if w.index < 65536 then none
  else (s.die? w.die).map fun d => locOf hbmTag (bitsOf d.secfg.toNat 38 16 * 2 ^ 16 + 64 * (w.index - 65536))

/-- The overflow area shows the record as it stands (R328; log 90). -/
def State.spill (s : State) (die index : Nat) : State :=
  match s.waypoints.find? fun w => w.die == die && w.index == index with
  | none => s
  | some w => match s.overflowLoc w with
    | none => s
    | some loc => s.writeAs (sePlace die) none loc (leBytes 64 w.image)

def State.mapWaypoint (s : State) (w : Waypoint) (f : Waypoint → Waypoint) : State :=
  { s with waypoints := s.waypoints.map fun (x : Waypoint) => if x.die == w.die && x.index == w.index then f x else x }.spill w.die w.index

/-- A new waiter on the record finds a waiter entry of its die free and, where the index is an overflow index, a place for the record in
the overflow record cache (R327, R332). -/
def State.waiterRoom (s : State) (w : Waypoint) : Bool :=
  let mine := s.waypoints.filter fun x => x.die == w.die
  decide ((mine.map (·.waiters)).foldl (· + ·) 0 < 65536) &&
  (decide (w.index < 65536) || w.waiters != 0 || decide ((mine.filter fun x => decide (65536 ≤ x.index) && x.waiters != 0).length < 2048))

/-- A wait of a party for phase `p` (R332): registered, or where no waiter entry is free a wait that tests the phase again. -/
def register (w : Waypoint) (who : Party) (p : Nat) : M Unit := modify fun s =>
  if w.waiting.any (·.1 == who) || !s.waiterRoom w then s
  else s.mapWaypoint w fun w => { w with waiting := w.waiting ++ [(who, p)] }

/-- A team that was descheduled at a wait on the handle is a ready team (R338). -/
def Team.wake (t : Team) (handle : Nat) : Team :=
  { t with waitFor := if WaitFor.onHandle t.waitFor handle then none else t.waitFor
           ready := match t.ready with | .waits w => if WaitFor.onHandle (some w) handle then .now else t.ready | r => r }

/-- What a party does on the end of its registered wait: it goes on with the grant, or without one finds its handle invalid. -/
def State.endWait (s : State) (who : Party) (handle : Nat) (g : Option Grant) : State :=
  match who with
  | .helm k => s.mapTeam k fun t => { t.wake handle with granted := g }
  | .engine k grp path kind =>
    let e : Eng := match kind with | .l => .l | .s => .s | .c => .c path
    s.mapGroup k grp fun x => x.mapEng e fun e => { e with granted := g, waitFor := none }
  | .copy run => { s with cmds := s.cmds.map fun c => if c.run == run && c.state == .running then { c with granted := g } else c }
  | _ => s

/-- The completion of a phase ends every registered wait for a completed phase (R331); one for a later phase stays (R337). -/
def State.endWaits (s : State) (w : Waypoint) : State :=
  (w.waiting.filter fun x => w.done x.2).foldl (fun s x =>
    s.endWait x.1 w.handle (some { handle := w.handle, waited := x.2, phase := w.phase, releases := w.releasesTo x.2 }))
    (s.mapWaypoint w fun w => { w with waiting := w.waiting.filter fun x => !w.done x.2 })

/-- The counts complete the phase (R331). -/
def Waypoint.completes (w : Waypoint) : Bool := decide (w.aexp ≤ w.acnt) && decide (w.bexp ≤ w.bcnt)

/-- The record at the start of its next phase (R331). -/
def Waypoint.advance (w : Waypoint) : Waypoint :=
  { w with pover := w.overBit || decide (w.aexp < w.acnt) || decide (w.bexp < w.bcnt), plost := w.lost, phase := (w.phase + 1) % 2 ^ 32
           acnt := 0, bcnt := 0, lost := 0, fault := false, overBit := false, aexp := w.ainit, bexp := w.binit }

/-- The test of R331 after an arrival or an expectation. -/
def State.testWaypoint (s : State) (w : Waypoint) (arrival : Bool) : State :=
  match s.waypoints.find? fun x => x.die == w.die && x.index == w.index with
  | none => s
  | some x =>
    if x.completes then (s.mapWaypoint w fun _ => x.advance).endWaits x.advance
    else if arrival && (decide (x.aexp < x.acnt) || decide (x.bexp < x.bcnt)) then s.mapWaypoint w fun x => { x with overBit := true }
    else s

/-- Arrivals at a record (R331, R337, R297): counts saturate, and a release is kept with the phase it counts towards (R342). -/
def State.arrive (s : State) (w : Waypoint) (n bytes lost : Nat) (fault : Bool) (rel : Option Release) : State :=
  (s.mapWaypoint w fun w =>
    { w with acnt := Nat.min (w.acnt + n) 65535, bcnt := Nat.min (w.bcnt + bytes) (2 ^ 40 - 1), lost := Nat.min (w.lost + lost) 65535
             fault := w.fault || fault, overBit := w.overBit || decide (w.acnt + n > 65535) || decide (w.bcnt + bytes > 2 ^ 40 - 1)
             releases := w.releases ++ (rel.map fun r => (w.phase, r)).toList }).testWaypoint w true

/-- Reclaims the records that `f` names; each registered wait finds its handle invalid (R333). -/
def State.reclaim (s : State) (f : Waypoint → Bool) : State :=
  (s.waypoints.filter fun w => w.valid && f w).foldl (fun s w =>
    (s.mapWaypoint w fun w => { w with valid := false, releases := [], waiting := [] }) |> fun s =>
      w.waiting.foldl (fun s x => s.endWait x.1 w.handle none) s) s

/-! ### wp.init (R335) -/

/-- The team may reset or free the record (R333). -/
def Team.mayReclaim (t : Team) (w : Waypoint) : Bool :=
  match w.life with
  | 0 => w.owner == t.tid && w.dctx == t.dctx
  | 1 => w.owner == t.nid
  | _ => true

/-- The lowest free index of a die. -/
def State.freeIndex (s : State) (die : Nat) : Option Nat :=
  let used := (s.waypoints.filter fun w => w.die == die && w.valid).map (·.index)
  ((List.range (used.length + 1)).find? fun i => !used.contains i).filter fun i => decide (i < s.wpCount die)

def execWpInitAlloc (d a : GReg) (life : BitVec 4) (aexp : W16) (die : BitVec 2) (here : Bool) (s : State) : Out :=
  runHelm 8 (fun t => do
    needWritable t d
    let b := (t.reg a).toNat
    need (decide (b < 2 ^ 40) && !(aexp == 0 && b == 0)) cWAYPOINT_PROTOCOL
    let dd := if here then t.die else die.toNat
    let s ← get
    match (if s.dieUp dd then s.freeIndex dd else none) with
    | none => setG t.key d 0
    | some i => do
      let old := s.waypoints.find? fun w => w.die == dd && w.index == i
      let gen := match old with | some w => if w.gen ≥ 63 then 1 else w.gen + 1 | none => 1
      let w : Waypoint :=
        { die := dd, index := i, valid := true, gen := gen, life := life.toNat
          owner := if life = 0 then t.tid else if life = 1 then t.nid else 0
          aspace := t.dct.aspace, dctx := t.dctx, phase := 0, acnt := 0, aexp := aexp.toNat, bcnt := 0, bexp := b, ainit := aexp.toNat
          binit := b, lost := 0, plost := 0, fault := false, overBit := false, pover := false, releases := [], waiting := [] }
      set ({ s with waypoints := w :: s.waypoints.filter fun x => !(x.die == dd && x.index == i) }.spill dd i)
      setG t.key d (BitVec.ofNat 64 w.handle)
    pure .seq) s

/-- The valid record of a helm word's handle. -/
def needWaypoint (t : Team) (handle : Nat) : M Waypoint := do
  let s ← get
  match s.waypoint? handle t.dct.aspace with
  | some w => pure w
  | none => raise cWAYPOINT_PROTOCOL

def execWpInitReset (d a : GReg) (aexp : W16) (s : State) : Out :=
  runHelm 8 (fun t => do
    let b := (t.reg a).toNat
    need (decide (b < 2 ^ 40) && !(aexp == 0 && b == 0)) cWAYPOINT_PROTOCOL
    let w ← needWaypoint t ((t.reg d).toNat % 2 ^ 32)
    need (t.mayReclaim w) cWAYPOINT_PROTOCOL
    modify fun s => s.mapWaypoint w fun w =>
      { w with ainit := aexp.toNat, binit := b, aexp := aexp.toNat, bexp := b, acnt := 0, bcnt := 0, lost := 0, fault := false, overBit := false
               releases := w.releases.filter fun x => x.1 != w.phase }
    pure .seq) s

def execWpInitFree (d : GReg) (s : State) : Out :=
  runHelm 8 (fun t => do
    let w ← needWaypoint t ((t.reg d).toNat % 2 ^ 32)
    need (t.mayReclaim w) cWAYPOINT_PROTOCOL
    need (w.waiters == 0) cWAYPOINT_PROTOCOL
    modify fun s => s.reclaim fun x => x.die == w.die && x.index == w.index
    pure .seq) s

/-! ### Helm words (R336 to R339) -/

def wpHandle (t : Team) (a : GReg) : Nat := (t.reg a).toNat % 2 ^ 32
def wpHigh (t : Team) (a : GReg) : Nat := (t.reg a).toNat / 2 ^ 32

def execWpArrive (d a : GReg) (ord : BitVec 2) (scope : BitVec 3) (s : State) : Out :=
  runHelm 4 (fun t => do
    needWritable t d
    let w ← needWaypoint t (wpHandle t a)
    let rel ← (if ord = 2 then do
        modify fun s => s.drainParty t.place.party
        let s ← get
        pure (some (s.releaseOf t.place scope.toNat))
      else pure none)
    modify fun s => s.arrive w 1 (wpHigh t a) 0 false rel
    setG t.key d (BitVec.ofNat 64 w.phase)
    pure .seq) s

def execWpExpect (d a : GReg) (s : State) : Out :=
  runHelm 4 (fun t => do
    let x := (t.reg d).toNat
    need (wpHigh t a == 0 && decide (x < 2 ^ 56)) cWAYPOINT_PROTOCOL
    let w ← needWaypoint t (wpHandle t a)
    need (decide (w.aexp + bitsOf x 15 0 ≤ 65535) && decide (w.bexp + bitsOf x 55 16 < 2 ^ 40)) cWAYPOINT_PROTOCOL
    modify fun s => (s.mapWaypoint w fun w => { w with aexp := w.aexp + bitsOf x 15 0, bexp := w.bexp + bitsOf x 55 16 }).testWaypoint w false
    pure .seq) s

/-- The acquire of a wait or test that finds phase `p` completed (R342). -/
def waypointAcquire (t : Team) (w : Waypoint) (p : Nat) (ord : BitVec 2) (scope : BitVec 3) : M Unit :=
  if ord = 1 then helmAcquire t scope.toNat none (w.releasesTo p) else pure ()

/-- A wait whose registration the completion of its phase has ended (R331). -/
def endedWait (g : Option Grant) (handle p : Nat) : Option Grant := g.filter fun g => g.handle == handle && g.waited == p

def execWpWait (d a : GReg) (ord : BitVec 2) (scope : BitVec 3) (s : State) : Out :=
  runHelm 4 (fun t => do
    needWritable t d
    let p := wpHigh t a
    match endedWait t.granted (wpHandle t a) p with
    | some g => do
      if ord = 1 then helmAcquire t scope.toNat none g.releases
      setG t.key d (BitVec.ofNat 64 g.phase)
    | none => do
      let w ← needWaypoint t (wpHandle t a)
      if !w.done p then do
        register w t.place.party p
        waitOn (.waypoint w.handle p)
      waypointAcquire t w p ord scope
      setG t.key d (BitVec.ofNat 64 w.phase)
    pure .seq) s

def execWpTest (d a : GReg) (ord : BitVec 2) (scope : BitVec 3) (s : State) : Out :=
  runHelm 4 (fun t => do
    needWritable t d
    let w ← needWaypoint t (wpHandle t a)
    let p := wpHigh t a
    if w.done p then waypointAcquire t w p ord scope
    setG t.key d (BitVec.ofNat 64 (w.phase * 2 ^ 32 + b2n (w.done p)))
    pure .seq) s

def execWpStat (d a : GReg) (s : State) : Out :=
  runHelm 4 (fun t => do
    needWritable t d
    needWritable t (d + 1)
    need (wpHigh t a == 0) cWAYPOINT_PROTOCOL
    let w ← needWaypoint t (wpHandle t a)
    setG t.key d (BitVec.ofNat 64 (w.lost * 2 ^ 48 + w.acnt * 2 ^ 32 + w.phase))
    setG t.key (d + 1) (BitVec.ofNat 64 (b2n w.pover * 2 ^ 58 + b2n w.overBit * 2 ^ 57 + b2n w.fault * 2 ^ 56 + w.plost * 2 ^ 40 + w.bcnt))
    pure .seq) s

/-! ### Strand words (R340, R341) -/

def xEngine (w : SW) : Nat := w.b.toNat % 4
def xOrd (w : SW) : Nat := w.b.toNat / 4 % 4
def xScope (w : SW) : Nat := w.b.toNat / 16

/-- The X word names this engine. -/
def Ln.named (l : Ln) (w : SW) : Bool := engCode l.who == xEngine w

/-- In a miss split the word takes effect once, when the last path passes it, as a token push does (R341, R177): whether this path is the
last, what the paths release there, and how the group notes that the path has passed. -/
def Ln.sharing (l : Ln) : M (Bool × Tok × (Group → Group)) := do
  let k ← l.token
  let g ← l.group
  match l.who with
  | .c p => do
    let sib := g.siblings l.root
    if sib.length ≤ 1 then pure (true, k, id)
    else do
      let low := (sib.map fun q => (g.pathAt q).gaveX).foldl Nat.min (g.pathAt p).gaveX
      let part := (g.pathAt l.root).partX
      let i := (g.pathAt p).gaveX - low
      let k := if i < part.length then (part.getD i k).join k else k
      let last := i == 0 && (sib.all fun q => q == p || decide (low < (g.pathAt q).gaveX))
      let part := if i < part.length then part.set i k else part ++ [k]
      pure (last, k, fun g => (g.mapPath p fun x => { x with gaveX := x.gaveX + 1 }).mapPath l.root fun x =>
        { x with partX := if last then part.drop 1 else part })
  | _ => pure (true, k, id)

def execXWparr (w : SW) (s : State) : Out :=
  runEngine (fun l => do
    if !l.named w then do
      l.pass (swBytes w)
      pure false
    else do
      let h ← l.uniform (w.va.toNat % 8)
      let (last, k, note) ← l.sharing
      let s ← get
      need (!last || (s.waypoint? h.toNat l.t.dct.aspace).isSome) cWAYPOINT_PROTOCOL
      let bytes ← (if w.vd.getLsbD 3 then do let v ← l.uniform (w.vd.toNat % 8); pure v.toNat else pure 0)
      let rel := xOrd w == 2
      if rel then do
        let ok ← l.performed
        if !ok then waitOn .accesses
        modify fun s => s.drainParty l.place.party
      l.mapGroup note
      let s ← get
      if last then
        let r : Option Release := if rel then some { place := l.place, scope := xScope w, known := k.known, lifted := k.lifted } else none
        let a : Arrival := { handle := h.toNat, aspace := l.t.dct.aspace, arrivals := 1, bytes := bytes, lost := 0, fault := false, release := r, command := none }
        set { s with arrivals := s.arrivals ++ [a] }
      l.pass (swBytes w)
      pure true) s

/-- The engine has passed a wait that these releases completed: of the copy runs among them it sees the scale images (R291). -/
def Engine.noteImages (e : Engine) (rs : List Release) : Engine :=
  { e with imaged := unionIds e.imaged (rs.filterMap fun r => match r.place.party with | .copy run => some run | _ => none) }

def execXWpwait (w : SW) (s : State) : Out :=
  runEngine (fun l => do
    if !l.named w then do
      l.pass (swBytes w)
      pure false
    else do
      let h ← l.uniform (w.va.toNat % 8)
      let p ← l.uniform (w.vd.toNat % 8)
      let (last, _, note) ← l.sharing
      if last then
        match endedWait l.e.granted h.toNat p.toNat with
        | some g => do
          if xOrd w == 1 then laneAcquire l.t l.entry.view.mode l.place (xScope w) g.releases
          l.mapEng fun e => e.noteImages g.releases
        | none => do
          let s ← get
          match s.waypoint? h.toNat l.t.dct.aspace with
          | none => raise cWAYPOINT_PROTOCOL
          | some x => do
            if !x.done p.toNat then do
              register x (waiterOf l.t.key l.g.num l.who) p.toNat
              waitOn (.waypoint h.toNat p.toNat)
            if xOrd w == 1 then laneAcquire l.t l.entry.view.mode l.place (xScope w) (x.releasesTo p.toNat)
            l.mapEng fun e => e.noteImages (x.releasesTo p.toNat)
      l.mapGroup note
      l.pass (swBytes w)
      pure true) s

/-- WAYPOINT_ARRIVAL: an arrival in transit is performed at its home; at an invalid handle it is discarded (R331, R334). -/
def execWaypointArrival (n : Nat) (s : State) : Out :=
  runEvent (fun s => do
    let a ← s.arrivals[n]?
    let s := { s with arrivals := s.arrivals.eraseIdx n }
    match s.waypoint? a.handle a.aspace with
    | some w => some (s.arrive w a.arrivals a.bytes a.lost a.fault a.release)
    | none => some s) s

/-- WAITER_RETEST: a waiter for which no entry of a die was free tests its phase again (R332); the team of a helm that was descheduled
there is ready where the phase has completed or the handle has gone. -/
def execWaiterRetest (die : Nat) (s : State) : Out :=
  runEvent (fun s => some { s with teams := s.teams.map fun t =>
    match t.ready with
    | .waits (.waypoint h p) =>
      let again : Bool := match s.waypoint? h t.dct.aspace with
        | none => true
        | some w => w.done p && !(w.waiting.any fun x => x.1 == .helm t.key)
      if bitsOf h 31 30 == die && again then t.wake h else t
    | _ => t }) s

/-! ### Atomics (R343 to R345) -/

/-- The new value of an operation of R344 by its number add, and, or, xor, min, max, xchg, cas; `none` writes nothing. -/
def atomicNew (op : Nat) (natural : Bool) (n : Nat) (old v e : Nat) : Option Nat :=
  let lt (x y : Nat) : Bool := if natural then decide (x < y) else decide (signedOf (8 * n) x < signedOf (8 * n) y)
  match op with
  | 0 => some ((old + v) % 2 ^ (8 * n))
  | 1 => some (Nat.land old v)
  | 2 => some (Nat.lor old v)
  | 3 => some (Nat.xor old v)
  | 4 => some (if lt v old then v else old)
  | 5 => some (if lt old v then v else old)
  | 6 => some v
  | _ => if old = e then some v else none

/-- Whether a location is emulated under the lock table: host and peer memory (R345). -/
def emulated (loc : Nat) : Bool := storageOf loc == hostTag || (decide (2 ≤ storageOf loc) && decide (storageOf loc < 0x102))

/-- R344. `ret` gives g(gd) the old value. -/
def atomicWord (op : Nat) (natural ret : Bool) (d a : GReg) (dbl : Bool) (ord : BitVec 2) (scope : BitVec 3) (s : State) : Out :=
  runHelm 4 (fun t => do
    if ret then needWritable t d
    let n := if dbl then 8 else 4
    let l ← helmAddress t (t.seg 4) (t.reg a).toInt n .atomic
    if emulated l.loc then raise cATOMIC_EMULATE (l.va.getD 0) 0 true
    waitLease t l n
    let v := (t.reg d).toNat % 2 ^ (8 * n)
    let e := (t.reg (d + 1)).toNat % 2 ^ (8 * n)
    let rel := ord.getLsbD 1
    if rel then modify fun s => s.drainParty t.place.party
    let bs ← (fun s => .ok (s.atomicReadIn t.place t.regionsNow l.va l.loc n) : M (List ByteRead))
    let old := readValue bs
    if ord.getLsbD 0 then helmAcquire t scope.toNat l.va (readHeads bs)
    match atomicNew op natural n old v e with
    | some x => modify fun s => s.atomicWriteIn t.place t.regionsNow l.va (if rel then some scope.toNat else none) bs l.loc (leBytes n x)
    | none => pure ()
    if ret then setG t.key d (if (op = 4 ∨ op = 5) ∧ ¬ natural then BitVec.ofInt 64 (signedOf (8 * n) old) else BitVec.ofNat 64 old)
    pure .seq) s

def execAtAdd (d a : GReg) (dbl : Bool) (ord : BitVec 2) (scope : BitVec 3) (s : State) : Out := atomicWord 0 false true d a dbl ord scope s
def execAtAnd (d a : GReg) (dbl : Bool) (ord : BitVec 2) (scope : BitVec 3) (s : State) : Out := atomicWord 1 false true d a dbl ord scope s
def execAtOr (d a : GReg) (dbl : Bool) (ord : BitVec 2) (scope : BitVec 3) (s : State) : Out := atomicWord 2 false true d a dbl ord scope s
def execAtXor (d a : GReg) (dbl : Bool) (ord : BitVec 2) (scope : BitVec 3) (s : State) : Out := atomicWord 3 false true d a dbl ord scope s
def execAtMin (d a : GReg) (dbl : Bool) (ord : BitVec 2) (scope : BitVec 3) (s : State) : Out := atomicWord 4 false true d a dbl ord scope s
def execAtMax (d a : GReg) (dbl : Bool) (ord : BitVec 2) (scope : BitVec 3) (s : State) : Out := atomicWord 5 false true d a dbl ord scope s
def execAtMinu (d a : GReg) (dbl : Bool) (ord : BitVec 2) (scope : BitVec 3) (s : State) : Out := atomicWord 4 true true d a dbl ord scope s
def execAtMaxu (d a : GReg) (dbl : Bool) (ord : BitVec 2) (scope : BitVec 3) (s : State) : Out := atomicWord 5 true true d a dbl ord scope s
def execAtXchg (d a : GReg) (dbl : Bool) (ord : BitVec 2) (scope : BitVec 3) (s : State) : Out := atomicWord 6 false true d a dbl ord scope s
def execAtCas (d a : GReg) (dbl : Bool) (ord : BitVec 2) (scope : BitVec 3) (s : State) : Out := atomicWord 7 false true d a dbl ord scope s
def execAtRed (op : BitVec 3) (natural : Bool) (d a : GReg) (dbl : Bool) (ord : BitVec 2) (scope : BitVec 3) (s : State) : Out :=
  atomicWord op.toNat natural false d a dbl ord scope s

/-! ### Fences (R347 to R349) -/

/-- The acquire and release sides of a fence of the helm. -/
def fenceHelm (t : Team) (acq rel : Bool) (scope : Nat) : M Unit := do
  if acq then do
    modify fun s => s.fenceAcquire t.place scope
    helmAcquire t scope none []
  if rel then modify fun s => s.fenceRelease t.place scope

def execFence (ord : BitVec 2) (scope : BitVec 3) (s : State) : Out :=
  runHelm 4 (fun t => do
    fenceHelm t (ord.getLsbD 0) (ord.getLsbD 1) scope.toNat
    pure .seq) s

/-- R348: the word asks for its place in the module's order, and goes on when it is granted. -/
def execFenceSc (s : State) : Out :=
  runHelm 4 (fun t => do
    if t.scGrant then do
      modify fun s => s.drainParty t.place.party
      modify fun s => s.fenceScJoin t.place
      fenceHelm t true true 5
      modify fun s => s.fenceScLeave t.place
      mapTeamM t.key fun t => { t with scWait := false, scGrant := false }
      pure .seq
    else do
      mapTeamM t.key fun t => { t with scWait := true }
      waitOn .fenceSc) s

/-- FENCE_SC_GRANT. -/
def execFenceScGrant (team : Nat) (s : State) : Out :=
  runEvent (fun s => do
    let t ← s.team? team
    if t.scWait && !t.scGrant then some (s.mapTeam team fun t => { t with scGrant := true, waitFor := none }) else none) s

/-- Commands of the team on its lead bay's channels (R349). -/
def State.leadCmds (s : State) (t : Team) : List CopyCmd := s.cmds.filter fun c => c.team == t.key && c.bay == t.bay

/-- The markers of a `fence.mk`, as placed. -/
def marksOf (s : State) (t : Team) (cq ce mx : Bool) : FenceMarks :=
  { cq := if cq then some t.nextPush else none
    ce := if ce then (s.leadCmds t).map fun c => (c.bay, c.ch, c.seq) else []
    mx := if mx then (s.mqueue.filter fun m => m.team == t.key).map (·.num) else [] }

/-- The group has started an entry: a C engine has, or every engine (log 27; R441 and R450 call an entry not started in which S alone
stands). -/
def Group.started (g : Group) (n : Nat) : Bool :=
  let has (w : Eng) : Bool := decide (n < (g.eng w).entry) || ((g.eng w).entry == n && (g.eng w).running)
  (g.liveSlots.any fun p => has (.c p)) || g.engines.all has

/-- A matrix operation of the team still has accesses to make (R257). -/
def State.matrixBusy (s : State) (t : Team) : Bool := s.mqueue.any fun o => o.team == t.key && o.counted

def cqSatisfied (s : State) (t : Team) (m : FenceMarks) (done : Bool) : Bool :=
  match m.cq with
  | none => true
  | some n =>
    t.service.isNone &&
    if done then !(t.cq.any fun e => decide (e.n < n)) && (t.groups.all fun g => g.inFlight.isEmpty) && !s.matrixBusy t
    else t.cq.all fun e => decide (n ≤ e.n) || t.groups.all fun g => !e.selects g.num || g.started e.n

/-- A group that has not finished every entry before the marker. -/
def Group.behind (t : Team) (g : Group) (m : FenceMarks) : Bool :=
  match m.cq with
  | none => false
  | some n => t.cq.any fun e => decide (e.n < n) && e.selects g.num && !g.passed e.n

def ceSatisfied (s : State) (m : FenceMarks) (done : Bool) : Bool :=
  m.ce.all fun x => match s.cmds.find? fun c => (c.bay, c.ch, c.seq) == x with
    | none => true
    | some c => if done then c.state == .held else c.state != .queued

def mxSatisfied (s : State) (m : FenceMarks) (done : Bool) : Bool :=
  m.mx.all fun n => match s.mqueue.find? fun o => o.num == n with
    | none => true
    | some o => !done && o.begun

/-- What performed work releases from a place, at a scope (R349). -/
def Past.releaseAt (p : Past) (at_ : Place) (scope : Nat) : Release :=
  { place := at_, scope := scope, known := p.known, lifted := p.lifted }

/-- What the retirement of a `fence.mk.done` acquires: the accesses of the team's groups, its matrix operations among them, its matrix
operations, the complete sectors of its copy commands. -/
def doneReleases (t : Team) (scope : Nat) (cq ce mx : Bool) : List Release :=
  (if cq then t.groups.map fun g => g.past.releaseAt (enginePlace t g .l) scope else []) ++
  (if cq || mx then [t.mxPast.releaseAt { t.place with party := .engine t.key 0 0 .c } scope] else []) ++
  (if ce then [t.cePast.releaseAt { t.place with party := .copy 0 } scope] else [])

def execFenceMk (cq ce mx done : Bool) (scope : BitVec 3) (s : State) : Out :=
  runHelm 8 (fun t => do
    let s ← get
    let m := t.marks.getD (marksOf s t cq ce mx)
    mapTeamM t.key fun t => { t with marks := some m }
    let cqOk := cqSatisfied s t m done
    let late := t.groups.filter fun g => g.behind t m
    if !cqOk && decide (t.rq.length ≥ 16) && !late.isEmpty && late.all (fun g => g.blockedPosting t) then raise cQUEUE_PROTOCOL
    if !(cqOk && ceSatisfied s m done && mxSatisfied s m done) then waitOn .fenceMk
    if done then helmAcquire t scope.toNat none (doneReleases t scope.toNat cq ce mx)
    mapTeamM t.key fun t => { t with marks := none }
    pure .seq) s

/-! ### The region table (R319, R320) -/

/-- One entry of the table: valid, ignored as malformed, or not in use. -/
def regionOf (v : Nat) : Option (Option Region) :=
  if !bitOf v 127 then some none
  else
    let r : Region := { base := bitsOf v 63 0, size := bitsOf v 111 64, domain := bitsOf v 126 124 }
    if bitsOf v 123 112 != 0 || decide (r.domain > 5) || r.size == 0 || r.size % 64 != 0 || r.base % 64 != 0 ||
      decide (r.base + r.size > 2 ^ 57) then none
    else some (some r)

/-- Reads the entries from number `i` on. -/
def readRegions (p : Place) (loc : Nat) : Nat → M (List Region × Bool)
  | 0 => pure ([], false)
  | n + 1 => do
    let (rs, err) ← readRegions p loc n
    let bs ← (fun s => .ok (s.readAs p [] none (loc + 16 * n) 16) : M (List ByteRead))
    match regionOf (readValue bs) with
    | none => pure (rs, true)
    | some none => pure (rs, err)
    | some (some r) => pure (rs ++ [r], err)

/-- Loads the region table of a team whose sys.mmcfg has MODE = 1, setting RTERR where an entry is ignored (R320). An unmapped table is
a failing access. -/
def loadRegions (key : Nat) : M Unit := do
  let t ← teamOf key
  if bitOf t.mmcfg.toNat 0 then do
    let s ← get
    let a := bitsOf t.mmcfg.toNat 56 10 * 1024
    match s.partAddr t a with
    | .error c => raise c.code a
    | .ok (loc, s) => do
      set s
      let (rs, err) ← readRegions t.place loc regionCount
      mapTeamM key fun t => { t with regions := rs, mmcfg := if err then t.mmcfg ||| 8 else t.mmcfg }

end Sys2Proof.Machine
end

