-- ==== Sys2Proof/Machine/System.lean ====
section
/-! DEFINITION. System registers, `trap`, `brk` and `eret` (04_helm.md R101 to R104; 15_traps.md R400 to R406). -/

namespace Sys2Proof.Machine

/-! ### System registers -/

/-- Bits of a register that hold fields marked SV (R101, R102, R103, R316, R396, R405). -/
def svMask (num : Nat) : W64 :=
  match num with
  | 0x00 => 0x4
  | 0x01 => 0xFFFFFFFFFFFFC0FF
  | 0x02 => BitVec.allOnes 64
  | 0x03 => BitVec.allOnes 64
  | 0x04 => 0x1F013F
  | 0x08 => 0x01FFFFFFFFFFFC01
  | _ => 0

/-- Bits of a register that its fields can hold: reserved ones read 0 (R4, R87, R316, R396, R405). -/
def heldBits (num : Nat) : W64 :=
  match num with
  | 0x01 => svMask 1
  | 0x04 => svMask 4 ||| 0xFC000000
  | 0x08 => svMask 8 ||| 0xC
  | 0x09 => 0x80FCFFFF0000FFFF
  | 0x0A => 7
  | 0x12 => ~~~3
  | 0x13 => ~~~3
  | _ => BitVec.allOnes 64

/-- What `sys.rd` reads; sys.clock is read by `readClock`. -/
def Team.sysValue (t : Team) (s : State) (num : Nat) : W64 :=
  match num with
  | 0x00 => statusOf s t
  | 0x01 => t.cause
  | 0x02 => t.epc
  | 0x03 => t.faultva
  | 0x04 => t.stepmask
  | 0x08 => t.mmcfg
  | 0x09 => t.nanorigin
  | 0x0A => t.subst
  | 0x0C => BitVec.ofNat 64 t.win
  | 0x10 => t.loop.lc
  | 0x11 => t.loop.lcnt
  | 0x12 => t.loop.lbeg
  | 0x13 => t.loop.lend
  | 0x14 => t.loop.lobj
  | _ => 0

/-- sys.clock of the bay: the clocks counted since it was last read are free (R104, log 4). -/
def readClock (bay : Nat) : M W64 := do
  let s ← get
  let now := (match s.bay? bay with | some b => b.clock | none => 0) + Config.clockAdvance s.tick
  set { s.mapBay bay fun b => { b with clock := now } with tick := s.tick + 1 }
  pure (BitVec.ofNat 64 now)

/-- R401. -/
def execSysRd (d : GReg) (num : BitVec 8) (s : State) : Out :=
  runHelm 4 (fun t => do
    let s ← get
    let v ← (if num = 0x18 then readClock t.bay else pure (t.sysValue s num.toNat))
    setG t.key d v
    pure .seq) s

/-- The old value with the bits of `mask` taken from `v`. -/
def mergeBits (old mask v : W64) : W64 := (old &&& ~~~mask) ||| (v &&& mask)

/-- A write to a register, each field under its own access code (R102). -/
def Team.setSys (t : Team) (num : Nat) (v : W64) : Team :=
  match num with
  | 0x00 => { t with step := v.getLsbD 2, shapeChanged := t.shapeChanged && !v.getLsbD 3 }
  | 0x01 => { t with cause := mergeBits t.cause (svMask 1) v }
  | 0x02 => { t with epc := v }
  | 0x03 => { t with faultva := v }
  | 0x04 => { t with stepmask := mergeBits t.stepmask (svMask 4) v }
  | 0x08 => { t with mmcfg := mergeBits (clearOnes t.mmcfg 0xC v) (svMask 8) v }
  | 0x09 => { t with nanorigin := clearOnes t.nanorigin 0x8000000000000000 v }
  | 0x0A => { t with subst := clearOnes t.subst 7 v }
  | 0x0C => { t with win := winOf (v.toNat % 128) }
  | 0x10 => { t with loop := { t.loop with lc := v } }
  | 0x11 => { t with loop := { t.loop with lcnt := v } }
  | 0x12 => { t with loop := { t.loop with lbeg := v &&& ~~~3 } }
  | 0x13 => { t with loop := { t.loop with lend := v &&& ~~~3 } }
  | 0x14 => { t with loop := { t.loop with lobj := v } }
  | _ => t

/-- R102, R401, R128. -/
def execSysWr (a : GReg) (num : BitVec 8) (s : State) : Out :=
  runHelm 4 (fun t => do
    let s ← get
    let v := t.reg a
    need (t.super || (v ^^^ t.sysValue s num.toNat) &&& svMask num.toNat == 0) cPRIV
    mapTeamM t.key fun t => t.setSys num.toNat v
    if num = 0x08 then loadRegions t.key
    pure (.seqLoop num.toNat)) s

/-! ### trap and brk (R402) -/

def execTrap (n : BitVec 8) (s : State) : Out := runHelm 4 (fun _ => raise cSVC 0 n.toNat) s

def execBrk (n : BitVec 8) (s : State) : Out := runHelm 4 (fun _ => raise cBREAK 0 n.toNat) s

/-! ### eret (R403, R405, R406) -/

/-- The words of the vector save area: sixteen descriptors, the object and the loop registers (log 5). -/
def saveUnits : Nat := 38

/-- The save area as the team's segments, object and loop registers. -/
def Team.restoreArea (t : Team) (u : List Nat) : Team :=
  let w (i : Nat) : W64 := BitVec.ofNat 64 (u.getD i 0)
  { t with
    segs := (List.range 16).map fun i => BitVec.ofNat 128 (u.getD (2 * i) 0 + u.getD (2 * i + 1) 0 * 2 ^ 64)
    curObj := u.getD 32 0 % 2 ^ 16
    loop := { lc := w 33, lcnt := w 34, lbeg := w 35 &&& ~~~3, lend := w 36 &&& ~~~3, lobj := w 37 } }

/-- What an armed step runs (R406). -/
def Team.stepPlan (t : Team) : List StepItem :=
  (if t.step then [.helm] else []) ++
  (if t.stepmask.getLsbD 8 then
    match t.group? (bitsOf t.stepmask.toNat 20 16) with
    | none => []
    | some g =>
      (g.liveSlots.filter fun p => decide (p < 4) && t.stepmask.getLsbD p).map (fun p => StepItem.engine (.c p)) ++
      (if t.stepmask.getLsbD 5 then [.engine .l] else []) ++ (if t.stepmask.getLsbD 4 then [.engine .s] else [])
   else [])

/-- An engine that a resume releases from its recorded position, exempt from watches once (R181, R408). -/
def Engine.released (e : Engine) : Engine := { e with halted := false, exempt := true, waitFor := none }

def Team.release (t : Team) : Team :=
  { t with phase := .running, groups := t.groups.map fun g =>
      { g with l := g.l.released, s := g.s.released, paths := g.paths.map fun p => { p with c := p.c.released } } }

/-- The team arms the step: the engines stay halted but for those stepped, in turn. -/
def Team.armStep (t : Team) : Team :=
  { t with phase := .stepping, plan := t.stepPlan, stepBase := none, stepmask := t.stepmask &&& ~~~0xFC000000
           groups := t.groups.map fun g =>
      { g with l := { g.l with exempt := true, waitFor := none }, s := { g.s with exempt := true, waitFor := none }
               paths := g.paths.map fun p => { p with c := { p.c with exempt := true, waitFor := none } } } }

def execEret (s : State) : Out :=
  runHelm 4 (fun t => do
    need t.super cPRIV
    need t.inVector cILLEGAL
    if t.service.isSome then waitOn .service
    let s ← get
    match s.partAddr t (t.block + 0xE000) with
    | .error c => raise c.code (t.block + 0xE000)
    | .ok (loc, s) => do
      set s
      let u ← readUnits t.place loc saveUnits
      let group := (t.group? (bitsOf t.stepmask.toNat 20 16)).isSome
      need (!t.stepmask.getLsbD 8 || group) cDOUBLE
      mapTeamM t.key fun t => t.restoreArea u
      let obj := t.epc.toNat / 2 ^ 48
      let r ← teamOf t.key
      if obj != r.curObj then switchObject t.key t.epc obj
      else need (obj != 0) cSEG_PERM t.epc.toNat
      need (t.epc.toNat % 4 == 0) cMISALIGN t.epc.toNat
      let ws ← readWatches t
      mapTeamM t.key fun t => { t with super := false, inVector := false, pc := (t.epc.setWidth 32).setWidth 64, watches := ws, exempt := true, waitFor := none }
      modify fun s => { s with cmds := s.cmds.map fun c => if c.team == t.key then { c with vector := false } else c }
      if t.step || t.stepmask.getLsbD 8 then do
        mapTeamM t.key Team.armStep
        let r ← teamOf t.key
        if r.plan.isEmpty then modify fun s => s.freeze t.key stepEndTrap
      else mapTeamM t.key Team.release
      pure .gone) s

end Sys2Proof.Machine
end

