-- ==== Sys2Proof/Machine/Pages.lean ====
section
/-! DEFINITION. Segment, page and link words, the pool fill and the prefetching translation (13_addresses.md R356 to R366,
16_code.md R420). -/

namespace Sys2Proof.Machine

/-! ### seg.bind (R356, R357) -/

/-- The size of a class's space (R352). -/
def spaceSize (space : Nat) : Nat := if space = 4 then 0x20000 else 2 ^ 57

/-- The checks of a descriptor by FORM 0 (R357): the cause it raises, if any. -/
def descriptorFault (d : W128) : Option Nat :=
  if bitsOf d.toNat 127 125 != 0 || bitsOf d.toNat 61 60 != 0 || decide (segSpace d ≥ 5) || segCache d == 3 then some cILLEGAL
  else if segBase d + segLimit d > spaceSize (segSpace d) then some cSEG_LIMIT
  else none

def Team.setSeg (t : Team) (n : Nat) (d : W128) : Team := { t with segs := t.segs.set n d }

def execSegBindLd (n : BitVec 4) (a : GReg) (s : State) : Out :=
  runHelm 8 (fun t => do
    need t.super cPRIV
    let d := t.pair a
    match descriptorFault d with
    | some c => raise c (if c = cSEG_LIMIT then segBase d else 0)
    | none => do
      mapTeamM t.key fun t => t.setSeg n.toNat d
      pure .seq) s

def execSegBindNarrow (n src : BitVec 4) (a : GReg) (keep : BitVec 3) (s : State) : Out :=
  runHelm 8 (fun t => do
    need (t.super || (decide (5 ≤ n.toNat) && decide (n.toNat ≤ 14))) cPRIV
    let d := t.seg src.toNat
    let o := (t.reg a).toNat
    let len := (t.reg (a + 1)).toNat
    need (decide (o + len ≤ segLimit d)) cSEG_LIMIT (segBase d + o + len)
    mapTeamM t.key fun t => t.setSeg n.toNat (mkSeg (segSpace d) len (segCache d) (segX d && keep.getLsbD 2) (segW d && keep.getLsbD 1)
      (segR d && keep.getLsbD 0) (segBase d + o))
    pure .seq) s

/-! ### tlb.inv and pg.probe (R363, R364) -/

/-- Accesses in flight through a page, of 64 KiB or with `large` of 2 MiB, or through any page, of an address space on a die. An access
through a 2 MiB leaf is one through each of its parts. -/
def State.flightThrough (s : State) (die aspace : Nat) (page : Option Nat) (large : Bool) : Bool :=
  s.teams.any fun t => t.groups.any fun g => g.inFlight.any fun a => a.die == die &&
    a.pages.any fun (sp, q, lg) => sp == aspace && (match page with
      | none => true
      | some p => p == q || ((large || lg) && p / 32 == q / 32))

/-- The word retires when no access through what it invalidates is in flight. -/
def invalidateWord (va : Team → Option Nat) (s : State) : Out :=
  runHelm 4 (fun t => do
    need t.super cPRIV
    let s ← get
    if s.flightThrough t.die t.dct.aspace ((va t).map fun a => a / 2 ^ 16) false then waitOn .invalidation
    modify fun s => s.invalidate t.die t.dct.aspace (va t) false
    pure .seq) s

def execTlbInv (a : GReg) (s : State) : Out := invalidateWord (fun t => some (t.reg a).toNat) s

def execTlbInvAll (s : State) : Out := invalidateWord (fun _ => none) s

/-- The result of `pg.probe` for a walk. -/
def State.probe (s : State) (t : Team) (va : Nat) (w : Walk) : Nat :=
  let cached := s.tlb.any fun e => e.bay == t.bay && e.helm && e.aspace == t.dct.aspace &&
    e.page == (if e.large then va / 2 ^ 21 else va / 2 ^ 16)
  let leaf := w.leaf.getD 0
  let shown := if t.super then leaf / 2 ^ 8 * 2 ^ 8 else bitsOf leaf 63 52 * 2 ^ 52
  shown + b2n cached * 16 + w.level * 4 + b2n w.large * 2 + b2n w.leaf.isSome

/-- The walk is one that R360 allows. -/
def execPgProbe (d a : GReg) (s : State) : Out :=
  runHelm 4 (fun t => do
    let va := (t.reg a).toNat
    if va ≥ 2 ^ 57 then setG t.key d 0
    else do
      let s ← get
      let ws := s.walks (t.dct.roots.getD t.die 0) t.dct.aspace t.die va
      let i ← choose ws.length
      setG t.key d (BitVec.ofNat 64 (s.probe t va (ws.getD i { level := 3, loc := 0, leaf := none })))
    pure .seq) s

/-! ### pg.map (R365) -/

/-- The write tokens of a range of HBM are recalled: its writes reach their homes (R322). -/
def State.recallTokens (s : State) (pa n : Nat) : State :=
  let inside (w : Write) : Bool := storageOf w.loc == hbmTag && decide (pa ≤ offsetOf w.loc) && decide (offsetOf w.loc < pa + n)
  let s := s.drain inside
  { s with tokens := s.tokens.filter fun k => !(decide (pa ≤ k.block * 4096) && decide (k.block * 4096 < pa + n)) }

/-- The entries that the word writes: each die in service of DMASK, in ascending order, and the entry's location; none where a walk
ends above the level. -/
def State.mapTargets (s : State) (t : Team) (va level : Nat) : List Nat → Option (List (Nat × Nat))
  | [] => some []
  | d :: ds =>
    let w := s.walkFrom va level 3 (t.dct.roots.getD d 0)
    if w.level != level || decide (va ≥ 2 ^ 57) then none
    else (s.mapTargets t va level ds).map fun r => (d, w.loc) :: r

/-- The entries of a table that hold a byte other than 0. -/
def State.tableEntries (s : State) (table size : Nat) : List Nat :=
  let a := locOf hbmTag table
  ((((s.mem.filter fun c => decide (a ≤ c.1) && decide (c.1 < a + size)).map fun c => (c.1 - a) / 8).eraseDups).map fun i => s.entryAt (a + 8 * i))

/-- Bytes of a table of a level (R358). -/
def tableBytes (level : Nat) : Nat := match level with | 0 => 256 | 1 => 4096 | 2 => 65536 | _ => 131072

/-- A valid leaf beneath a table that names locations of a range. -/
def State.treeNames (s : State) (loc n : Nat) : Nat → Nat → Bool
  | 0, table => (s.tableEntries table (tableBytes 0)).any fun e => leafV e && !leafMalformed 0 e && names e (2 ^ 16)
  | level + 1, table => (s.tableEntries table (tableBytes (level + 1))).any fun e =>
    if level = 0 && leafV e && bitOf e 60 then !leafMalformed 1 e && names e (2 ^ 21)
    else tableValid e && s.treeNames loc n level (bitsOf e 51 8 * 256)
where
  names (e size : Nat) : Bool := leafMode e != 2 &&
    decide (loc < leafLoc (size == 2 ^ 21) e 0 + size) && decide (leafLoc (size == 2 ^ 21) e 0 < loc + n)

/-- A frame lies in the address space of a context: a tree of a die in service names it. -/
def State.names (s : State) (d : Dct) (loc n : Nat) : Bool :=
  (List.range 4).any fun i => s.dieUp i && s.treeNames loc n 3 (d.roots.getD i 0)

/-- The bytes of a frame that writes cover. -/
def State.written (s : State) (a n : Nat) : List Nat :=
  ((s.writes.filter fun w => decide (a ≤ w.loc) && decide (w.loc < a + n)).flatMap fun w => (List.range w.bytes.length).map (w.loc + ·)).eraseDups

/-- What the frame holds, the last write of each byte in home order, becomes its initial content (R301; log 84). -/
def State.settleFrame (s : State) (pa n : Nat) : State :=
  let s := s.recallTokens pa n
  let a := locOf hbmTag pa
  { s with mem := (s.written a n).foldl (fun m b => memSet m b (s.homeByte b).value) s.mem
           writes := s.writes.filter fun w => !(decide (a ≤ w.loc) && decide (w.loc < a + n)) }

/-- A replica holds at each byte the last write of its page in home order (R324): the records of those writes stand at its bytes too. A
byte of the frame that holds another value keeps it. -/
def State.replicate (s : State) (src pa n : Nat) : State :=
  let s := s.settleFrame pa n
  let a := locOf hbmTag pa
  { s with writes := s.writes ++ (s.written src n).filterMap fun b =>
      let r := s.homeByte b
      match r.src with
      | some w => if !w.bottom && memGet s.mem (a + (b - src)) == r.value then
          some { w with loc := a + (b - src), bytes := [r.value], heads := [w.headsAt b] }
        else none
      | none => none }

/-- Before a leaf is mapped at an address: a replica of the page that another tree maps there takes its content (R324), and a page that no
tree of the context yet names enters its address space with what its bytes hold (R301; log 84). -/
def State.enterFrame (s : State) (t : Team) (va new : Nat) (large : Bool) : State :=
  let n := if large then 2 ^ 21 else 2 ^ 16
  let pa := leafFrame new * 2 ^ 16
  let base := va / n * n
  let loc := leafLoc large new base
  if !leafV new || leafMode new == 2 then s
  else
    let leaves := ((List.range 4).filter fun d => s.dieUp d).filterMap fun d =>
      let w := s.walk (t.dct.roots.getD d 0) va
      w.leaf.filter (fun l => leafMode l != 2 && leafLoc w.large l base != loc) |>.map fun l => (leafMode l, leafLoc w.large l base)
    match if leafMode new = 1 && leafTgt new == 0 then (leaves.find? fun x => x.1 == 0) <|> leaves.head? else none with
    | some x => s.replicate x.2 pa n
    | none =>
      if s.names t.dct loc n then s
      else
        let s := if leafTgt new = 0 then s.recallTokens pa n else s
        { s with entered := { dctx := t.dctx, loc := loc, size := n, mark := s.nextWrite } ::
            s.entered.filter fun e => !(e.dctx == t.dctx && decide (e.loc < loc + n) && decide (loc < e.loc + e.size)) }

def execPgMap (d a : GReg) (dmask : BitVec 4) (large : Bool) (s : State) : Out :=
  runHelm 8 (fun t => do
    need t.super cPRIV
    let va := (t.reg a).toNat
    let new := (t.reg (a + 1)).toNat
    let level := if large then 1 else 0
    need (!leafV new || !leafMalformed level new) cILLEGAL
    let s ← get
    match s.mapTargets t va level ((List.range 4).filter fun i => dmask.getLsbD i && s.dieUp i) with
    | none => raise cPAGE_NOT_PRESENT va
    | some targets => do
      if targets.any fun x => s.flightThrough x.1 t.dct.aspace (some (va / 2 ^ 16)) large then waitOn .invalidation
      let old := match targets with | x :: _ => s.entryAt x.2 | [] => 0
      let recalled := leafV old && bitOf old 60 && leafMode old == 0 && leafTgt old == 0 &&
        ((leafW old && !(leafV new && leafW new)) || leafFrame old != leafFrame new)
      if recalled then modify fun s => s.recallTokens (leafFrame old * 2 ^ 16) (if large then 2 ^ 21 else 2 ^ 16)
      modify fun s => s.enterFrame t va new large
      modify fun s => targets.foldl (fun s x =>
        let (bs, s) := s.atomicRead t.place x.2 8
        (s.atomicWrite t.place none bs x.2 (leBytes 8 new)).invalidate x.1 t.dct.aspace (some va) large) s
      setG t.key d (BitVec.ofNat 64 old)
      pure .seq) s

/-! ### POOL_FILL and TLB_PREFETCH (R361, R366) -/

/-- POOL_FILL: the page sequencer serves the fill of this number. -/
def execPoolFill (n : Nat) (s : State) : Out := runEvent (fun s => (s.fills[n]?).map s.fillPage) s

/-- TLB_PREFETCH: stream engines of a device context on a die keep the leaf of a page, if it has a valid one. -/
def execTlbPrefetch (die dctx va : Nat) (s : State) : Out :=
  runEvent (fun s => do
    let t ← s.teams.find? fun t => t.resident && t.dctx == dctx && t.die == die
    let w := s.walk (t.dct.roots.getD die 0) va
    let leaf ← w.leaf
    some ((s.bays.filter fun b => b.inService && dieOfBay b.num == die).foldl (fun s b => s.fillTlb b.num false t.dct.aspace va w.large leaf)
      s)) s

/-! ### lnk.set (R420) -/

def execLnkSet (a : GReg) (idx : W32) (s : State) : Out :=
  runHelm 8 (fun t => do
    need t.super cPRIV
    -- W of seg15 is not required
    let l ← helmAddress t (t.seg 15 ||| BitVec.ofNat 128 (2 ^ 58)) ((t.reg 63).toInt + 16 * (idx.toNat : Int)) 16 .atomic
    if (peerOf l.loc).isSome then checkHealth l.loc (l.va.getD 0) true
    waitLease t l 16
    let d := (t.reg a) &&& ~~~0x0000FFFF00000000
    let obj := d.toNat / 2 ^ 48
    let s ← get
    let entry := if obj = 0 then none else s.objLoc t obj
    if d != 0 then do
      match entry with
      | none => raise cSEG_PERM d.toNat
      | some (o, s) => do
        set s
        let bs ← (fun s => .ok (s.atomicRead t.place o 64) : M (List ByteRead))
        need (decide (2 ≤ entryState (readValue bs))) cSEG_PERM d.toNat
    need (d.toNat % 4 == 0) cMISALIGN d.toNat
    match entry with
    | some (o, _) => modify fun s => s.addRefs t.place o 1
    | none => pure ()
    modify fun s => s.drainParty t.place.party
    let bs ← (fun s => .ok (s.atomicReadIn t.place t.regionsNow l.va l.loc 16) : M (List ByteRead))
    modify fun s => s.atomicWriteIn t.place t.regionsNow l.va (some 5) bs l.loc (leBytes 8 d.toNat ++ leBytes 8 (t.reg (a + 1)).toNat)
    let old := bitsOf (readValue bs) 63 48
    let s ← get
    match (if old = 0 then none else s.objLoc t old) with
    | some (o, s) => set (s.addRefs t.place o (-1))
    | none => pure ()
    pure .seq) s

end Sys2Proof.Machine
end

