-- ==== Sys2Proof/Machine/Data.lean ====
section
/-! DEFINITION. The data words of the L and S engines and the in-flight counters (08_local.md R217 to R233; 13_addresses.md R367). -/

namespace Sys2Proof.Machine

/-! ### Accesses of lanes (R225 to R227) -/

/-- A loaded element of a size code. -/
def laneExtend (size v : Nat) : W32 :=
  match size with
  | 2 => BitVec.ofInt 32 (signedOf 16 v)
  | 4 => BitVec.ofInt 32 (signedOf 8 v)
  | _ => BitVec.ofNat 32 v

/-- Space code of an L or S word (R48). -/
def dataSpace (w : SW) : Nat := w.b.toNat % 8
/-- Uniform-base code; 8 for none. -/
def dataBase (w : SW) : Nat := w.b.toNat / 8

/-- The offset of lane `i` in repetition `r`, `a` its element of the address register (R225). -/
def laneOffset (gath : Bool) (w : SW) (width r : Nat) (u : Nat) (a : W32) : Int :=
  let n : Int := laneBytes w.fmtNo
  if gath then (u : Int) + w.imm.toInt + a.toInt * n
  else (u : Int) + a.toInt + w.imm.toInt + (r : Int) * w.step.toInt * (width : Int) * n

/-- A trap as a value: the rest of the lanes are still checked. -/
def attempt {α : Type} (f : M α) : M (Except Cause α) := fun s =>
  match f s with
  | .ok (x, s') => .ok (.ok x, s')
  | .error (.trap c) => .ok (.error c, s)
  | .error e => .error e

/-- The checks of one lane's access, and where it goes (R227, R408). -/
def laneAddress (l : Ln) (w : SW) (store : Bool) (o : Int) : M Located := do
  let n := laneBytes w.fmtNo
  let k : AccessKind := if store then .write else .read
  if dataSpace w = 3 then do
    let sg := l.entry.view.segs.getD (if w.segNo = 0 then 4 else w.segNo) 0
    let x ← address l.t l.g.bay false l.entry.view.service sg o n k
    if !l.entry.view.service then watchAccess { l.t with exempt := l.e.exempt } x n (!store) store
    pure x
  else do
    let fva := wrapOf 64 o
    if o < 0 then raise cSEG_LIMIT fva 0 store
    let s ← get
    match s.localLoc l.t l.g.bay (dataSpace w + 1) o.toNat n with
    | none => raise cSEG_LIMIT fva 0 store
    | some loc => do
      if o % (n : Int) != 0 then raise cMISALIGN fva 0 store
      pure { loc := loc, va := none, large := false }

/-- The accesses of the lanes given with their address elements and data; the lowest failing lane raises its trap, with the lanes that
fail on a page as the faulters' mask (R227, R367). -/
def laneAccesses (l : Ln) (w : SW) (store gath : Bool) (r u : Nat) (addrs vals : List W32) :
    List Nat → M (List (LaneAccess × Option (Nat × Bool)) × Option Cause × W64)
  | [] => pure ([], none, 0)
  | i :: rest => do
    let x ← attempt (laneAddress l w store (laneOffset gath w l.width r u (addrs.getD i 0)))
    let (as, c, m) ← laneAccesses l w store gath r u addrs vals rest
    match x with
    | .ok p => pure (({ lane := i, loc := p.loc, addr := p.va.getD 0, value := vals.getD i 0 }, p.va.map fun v => (v, p.large)) :: as, c, m)
    | .error e =>
      let page := e.code == cPAGE_NOT_PRESENT || e.code == cPAGE_PERM
      pure (as, some e, if page then m ||| BitVec.ofNat 64 (2 ^ i) else m)

/-! ### Issuing a repetition (R170, R171, R226, R229, R232) -/

/-- The value of a group's in-flight counter of a path (R232, R257). -/
def State.pathCount (s : State) (key : Nat) (g : Group) (space : Nat) : Nat :=
  (g.flight.filter fun a => a.space == space).length +
  (s.mqueue.filter fun m => m.team == key && m.grp == g.num && m.counted && space == (if m.lnd then 1 else 0)).length

/-- A register of the engine that a load in flight still has to write. -/
def Ln.loading (l : Ln) (g : Group) (r : Nat) : Bool :=
  g.inFlight.any fun a => a.eng == engKind l.who && a.path == l.g.slotOf l.who && a.dest == some (.reg r)

/-- The oldest filled sq slot of the S engine's path, not yet popped. -/
def Ln.peekSq (l : Ln) : M (List W32) := do
  let g ← l.group
  match g.sq.find? fun x => x.path == l.root with
  | none => waitOn .slots
  | some x => if (g.siblings l.root).all fun p => x.done.contains p then pure x.elems else waitOn .slots

/-- One repetition of a data word. -/
def dataRep (store gath ldg : Bool) (w : SW) (l : Ln) (r : Nat) : M Unit := do
  let g ← l.group
  let s ← get
  let va := if w.va.toNat < 112 && gath then w.va.toNat + r else w.va.toNat
  let vd := if w.vd.toNat < 112 then w.vd.toNat + r else w.vd.toNat
  if l.loading g va then waitOn .accesses
  let u := match l.e.latch with | some { base := some b, .. } => b.toNat | _ => 0
  let null := decide (dataBase w < 8) && u == 0xFFFFFFFF
  let lanes := if null then [] else l.activeLanes
  let toLq := !store && w.vd.toNat == 113
  if toLq && !roomFor g l.root g.lq then waitOn .slots
  let pops := store && (w.vd.toNat == 112 || w.va.toNat == 112)
  let popped ← (if pops then l.peekSq else pure [])
  if !lanes.isEmpty && decide (s.pathCount l.t.key g (dataSpace w) ≥ 63) then waitOn .accesses
  let addrs ← (if w.va.toNat = 112 then pure popped else l.vector va)
  let vals ← (if !store then pure [] else if w.vd.toNat = 112 then pure popped else l.vector vd)
  let (as, c, m) ← laneAccesses l w store gath r u addrs vals lanes
  match c with
  | some c => fun _ => .error (.trap { c with mask := some m })
  | none => do
    -- a step performs no word that would wait
    if store && l.t.phase == .stepping && as.any fun x => s.leased l.t.key x.1.loc (laneBytes w.fmtNo) then waitOn .matrix
    let zeros : List W32 := List.replicate l.width 0
    let slot := if pops then g.sq.find? fun x => x.path == l.root else none
    if pops then do
      let _ ← l.popSq
    let dest : Option LoadDest := if store then none else if toLq then some (.lq g.nextSlot) else some (.reg vd)
    if toLq then
      l.mapGroup fun g =>
        let (done, g) := g.redone l.root
        { g with nextSlot := g.nextSlot + 1, lq := g.lq ++
          [{ id := g.nextSlot, path := l.root, elems := zeros, ldg := ldg, done := done
             pending := BitVec.ofNat 64 ((as.map fun x => 2 ^ x.1.lane).foldl (· + ·) 0) }] }
    let behind := g.inFlight.any fun a => a.eng == engKind l.who
    if as.isEmpty && !store && !toLq then l.mapGroup fun g => g.writeReg l.who (regV vd) (l.lanes.map fun i => (i, 0))
    else if as.isEmpty && !(behind && (toLq || pops)) then pure ()
    else do
      -- the register write of a load stands at its issue in the engine's order
      l.mapEng fun e => { e with vc := tickClock e.vc e.clk }
      let e := g.eng l.who
      let g ← l.group
      let s ← get
      let k := s.knowOf l.place.party
      let a : Access :=
        { done := false, eng := engKind l.who, path := l.g.slotOf l.who, word := l.e.passed, space := if as.isEmpty then 4 else dataSpace w
          store := store, size := w.fmtNo, ldg := ldg, dest := dest, lanes := as.map (·.1), known := k.known, lifted := k.lifted
          vc := (g.eng l.who).vc, regions := if l.entry.view.mode then l.entry.view.regions else []
          pages := (as.filterMap fun x => x.2.map fun v => (l.t.dct.aspace, v.1 / 2 ^ 16, v.2)).eraseDups, die := dieOfBay l.g.bay
          origin := e, popped := slot }
      l.mapGroup fun g => { g with flight := g.flight ++ [a] }

/-- A data word (R228, R229). -/
def dataWord (store gath ldg : Bool) (w : SW) (s : State) : Out :=
  runWord w [{ reg := w.vd.toNat, adv := 1, span := 1 }, { reg := w.va.toNat, adv := if gath then 1 else 0, span := 1 }] (dataBase w)
    (fun _ => pure ()) (dataRep store gath ldg w) s

def execLLd (w : SW) (s : State) : Out := dataWord false false false w s
def execLLdg (w : SW) (s : State) : Out := dataWord false false true w s
def execLGath (w : SW) (s : State) : Out := dataWord false true false w s
def execSSt (w : SW) (s : State) : Out := dataWord true false false w s
def execSStg (w : SW) (s : State) : Out := dataWord true false false w s
def execSScat (w : SW) (s : State) : Out := dataWord true true false w s

/-! ### l.icw and s.icw (R233) -/

def icwWord (w : SW) (s : State) : Out :=
  runWord w [] (dataBase w) (fun _ => pure ()) (fun l _ => do
    let g ← l.group
    let s ← get
    let t := match l.e.latch with | some { base := some b, .. } => b.toNat | _ => 0
    if s.pathCount l.t.key g (dataSpace w) > t then waitOn .accesses) s

def execLIcw (w : SW) (s : State) : Out := icwWord w s
def execSIcw (w : SW) (s : State) : Out := icwWord w s

/-! ### ACCESS_PERFORMED (R232, R230) -/

/-- Lowers the counters in issue order: performed accesses leave once every earlier one of their path has been performed. -/
def lowered : List Nat → List Access → List Access
  | _, [] => []
  | held, a :: rest =>
    if a.done && !held.contains a.space then lowered held rest
    else a :: lowered (a.space :: held) rest

/-- The reads of lanes, each one unit. -/
def readAccess (p : Place) (a : Access) : List LaneAccess → State → List (Nat × W32) × State
  | [], s => ([], s)
  | x :: rest, s =>
    let n := laneBytes a.size
    let (bs, s) := s.readWith p a.known a.lifted a.regions (if a.space = 3 then some x.addr else none) x.loc n
    let (vs, s) := readAccess p a rest s
    ((x.lane, laneExtend a.size (readValue bs)) :: vs, s)

/-- The accesses that may perform next in a space: an engine's are performed in strand order (R179, R231), a store to leased bytes waits
(R259), and in a single step only those of the stepped word are (R406). -/
def performable (s : State) (t : Team) (g : Group) (space : Nat) : List Access :=
  let first := g.inFlight.filter fun a => a.space == space && (g.inFlight.find? fun b => b.eng == a.eng) == some a
  first.filter fun a => t.accessDue g a && (!a.store || !(a.lanes.any fun x => s.leased t.key x.loc (laneBytes a.size)))

/-- Puts the returned elements where the load delivers them. -/
def Group.deliverLoad (g : Group) (a : Access) (width : Nat) (vs : List (Nat × W32)) (part : W64) : Group :=
  match a.dest with
  | none => g
  | some (.reg r) =>
    let val (i : Nat) : W32 := ((vs.find? fun x => x.1 == i).map (·.2)).getD 0
    { g with rlog := g.rlog ++ [{ reg := regV r, lanes := (List.range width).map fun i => (i, val i)
                                  eng := a.origin.clk, vc := a.vc }] }
  | some (.lq id) =>
    { g with lq := g.lq.map fun x => if x.id == id then
        { x with pending := x.pending &&& ~~~part
                 elems := (List.range width).map fun i => match vs.find? fun y => y.1 == i with
                   | some y => y.2
                   | none => x.elems.getD i 0 } else x }

/-- Repetitions without a lane are over once no earlier access of their engine is in flight. -/
def passEmpty : List EngKind → List Access → List Access
  | _, [] => []
  | busy, a :: rest =>
    if a.done then a :: passEmpty busy rest
    else if a.lanes.isEmpty && !busy.contains a.eng then passEmpty busy rest
    else a :: passEmpty (a.eng :: busy) rest

/-- A group in which an access has been performed, with the writes that it made: what later releases and fences cover of it (R167, R349),
and repetitions issued in path B of a split that it comes before (R302). -/
def Group.notePast (t : Team) (g : Group) (a : Access) (ids : List Nat) : Group :=
  { g with
    flight := g.flight.map fun x => if x.eng == a.eng && x.path != a.path && g.inStrand t a x.path then
      { x with known := unionIds x.known ids, lifted := unionIds x.lifted ids } else x
    past := { known := unionIds g.past.known (unionIds a.known ids), lifted := unionIds g.past.lifted (unionIds a.lifted ids) }
    passMarks := g.passMarks.map fun m => if a.beforeMark t g m then
      { m with known := unionIds m.known ids, lifted := unionIds m.lifted ids } else m }

/-- The writes of a performed access become known to the engine's party in path B of a split that it comes before (R302). -/
def State.learnPast (s : State) (t : Team) (g : Group) (a : Access) (ids : List Nat) : State :=
  match g.split with
  | some (_, y) => if y != a.path && g.inStrand t a y then ids.foldl (fun s i => s.learn (.engine t.key g.num y a.eng) i) s else s
  | none => s

/-- ACCESS_PERFORMED: a repetition of the path in a space is performed; of an `l.ldg` to lq, the lanes given may return alone. -/
def execAccessPerformed (team grp : Nat) (path : BitVec 2) (lanes : W64) (s : State) : Out :=
  runEvent (fun s => do
    let t ← s.team? team
    let g ← t.group? grp
    let cands := performable s t g path.toNat
    if cands.isEmpty then none
    else
      let i := pickOf cands.length s.tick
      let s := { s with tick := s.tick + 1 }
      let a ← cands[i]?
      let p := accessPlace t g a
      let some0 := a.lanes.filter fun x => lanes.getLsbD x.lane
      let part := match a.dest with
        | some (.lq _) => if a.ldg && !some0.isEmpty then some0 else a.lanes
        | _ => a.lanes
      let rest := a.lanes.filter fun x => !part.contains x
      let mask := BitVec.ofNat 64 ((part.map fun x => 2 ^ x.lane).foldl (· + ·) 0)
      let (vs, ids, s) := if a.store then let (ids, s) := writeAccess p a part s; ([], ids, s)
        else let (vs, s) := readAccess p a part s; (vs, [], s)
      let s := s.learnPast t g a ids
      let a' := { a with lanes := rest, done := rest.isEmpty }
      some (s.mapGroup team grp fun g =>
        let at_ := g.flight.findIdx fun x => x == a
        let g := { (g.deliverLoad a t.kernel.width vs mask) with flight := g.flight.set at_ a' }.notePast t a ids
        { g with flight := passEmpty [] (lowered [] g.flight) }.stirred)) s

/-! ### A repetition that faults while it is in flight (R179, R182; log 38) -/

/-- The repetition faults: it becomes its engine's stop point, and its trap freezes the team where nothing has yet. `lanes` are the
faulters. -/
def State.faultInFlight (s : State) (key grp : Nat) (a : Access) (fva : Nat) (lanes : W64) : State :=
  let who : Eng := match a.eng with | .l => .l | .s => .s | .c => .c a.path
  let service := match s.team? key with | some t => (t.service.map (·.n)) == some a.origin.entry | none => false
  (s.mapGroup key grp fun g => (match s.team? key with | some t => g.backTo t a | none => g).stirred).laneTrap key grp who service
    { code := cECC_UNCORR, fva := fva, info := 0, write := a.store, fetch := false, mask := some lanes }

end Sys2Proof.Machine
end

