-- ==== Sys2Proof/Machine/Lanes.lean ====
section
/-! DEFINITION. The lane words of the C engines (07_lanes.md R192 to R215). -/

namespace Sys2Proof.Machine

/-! ### Registers of a repetition (R193) -/

def stepReg (reg adv r : Nat) : Nat := if reg < 112 then reg + r * adv else reg

def SW.dAt (w : SW) (r : Nat) : Nat := stepReg w.vd.toNat w.advD r
def SW.aAt (w : SW) (r : Nat) : Nat := stepReg w.va.toNat w.advA r
def SW.bAt (w : SW) (r : Nat) : Nat := stepReg w.b.toNat w.advB r
/-- The third operand: vc, or vd where VC is 0. -/
def SW.cAt (w : SW) (r : Nat) : Nat := if w.useVc then stepReg w.vc w.advD r else SW.dAt w r

def fieldD (w : SW) : VField := { reg := w.vd.toNat, adv := w.advD, span := 1 }
def fieldA (w : SW) : VField := { reg := w.va.toNat, adv := w.advA, span := 1 }
def fieldB (w : SW) : VField := { reg := w.b.toNat, adv := w.advB, span := 1 }
def fieldC (w : SW) : VField := { reg := w.vc, adv := w.advD, span := 1 }

/-- Waits while sq cannot take the slot of a repetition (R171). -/
def Ln.sqReady (l : Ln) : M Unit := do
  let g ← l.group
  let p := l.g.slotOf l.who
  if (g.sq.find? fun x => x.path == l.root && !x.done.contains p).isNone && !roomFor g l.root g.sq then waitOn .slots

/-- The sources of a repetition, with lq popped once where one of them names it, and with room for its destination. -/
def Ln.sources (l : Ln) (dest : Option Nat) (rs : List Nat) : M (List (List W32)) := do
  if dest == some 113 then l.sqReady
  let popped ← (if rs.contains 112 then l.popLq else pure [])
  let rec go : List Nat → M (List (List W32))
    | [] => pure []
    | r :: rest => do
      let x ← l.source r popped
      let xs ← go rest
      pure (x :: xs)
  go rs

/-- Operand b under BU: a uniform register in every lane, or a pair of them under D (R194, R203). -/
def Ln.uniformB (l : Ln) (w : SW) : M (List W32) := do
  let y ← l.uniform w.ubase
  let z ← (if w.dbl then l.uniform (w.ubase + 1) else pure y)
  pure (l.lanes.map fun i => if i % 2 = 0 then y else z)

/-- Operands a and b of a repetition, and c where the word has a third one. -/
def Ln.operands (l : Ln) (w : SW) (r : Nat) (dest : Option Nat) (binary third : Bool) : M (List W32 × List W32 × List W32) := do
  let useB := binary && !w.bu
  let xs ← l.sources dest (SW.aAt w r :: ((if useB then [SW.bAt w r] else []) ++ (if third then [SW.cAt w r] else [])))
  let b ← (if binary && w.bu then l.uniformB w else pure (xs.getD 1 []))
  pure (xs.getD 0 [], if binary then b else [], if third then xs.getLastD [] else [])

/-- The register fields of a word with the lane modifier. -/
def laneFields (mask binary : Bool) (w : SW) : List VField :=
  (if mask then [] else [fieldD w]) ++ [fieldA w] ++ (if binary && !w.bu then [fieldB w] else []) ++ (if w.useVc then [fieldC w] else [])

/-- The hash of the word's origin (R84). -/
def Ln.hash (l : Ln) : Nat := originHash l.entry.view.obj l.e.off

/-- A word of one result a lane. -/
def laneWord (binary third : Bool) (f : Ln → Nat → W32 → W32 → W32 → W32) (w : SW) (s : State) : Out :=
  runWord w (laneFields false binary w) 8 (fun _ => pure ()) (fun l r => do
    let (a, b, c) ← l.operands w r (some (SW.dAt w r)) binary third
    l.deliver (SW.dAt w r) (l.lanes.map fun i => f l i (a.getD i 0) (b.getD i 0) (c.getD i 0))) s

/-! ### Integers (R196, R197) -/

/-- An element read as two's complement or natural (R196). -/
def elemInt (u : Bool) (x : W32) : Int := if u then (x.toNat : Int) else x.toInt

/-- A result modulo 2^32, or clamped under sat. -/
def intResult (u sat : Bool) (x : Int) : W32 :=
  if sat then (let (lo, hi) := intRange (!u) 32; BitVec.ofInt 32 (clampInt lo hi x)) else BitVec.ofInt 32 x

def intWord (third : Bool) (f : Int → Int → Int → Int) (w : SW) (s : State) : Out :=
  laneWord true third (fun _ _ a b c => intResult w.unsigned w.sat (f (elemInt w.unsigned a) (elemInt w.unsigned b) (elemInt w.unsigned c))) w s

def execVadd (w : SW) (s : State) : Out := intWord false (fun a b _ => a + b) w s
def execVsub (w : SW) (s : State) : Out := intWord false (fun a b _ => a - b) w s
def execVmul (w : SW) (s : State) : Out := intWord false (fun a b _ => a * b) w s
def execVmulh (w : SW) (s : State) : Out := intWord false (fun a b _ => a * b / (2 ^ 32 : Nat)) w s
def execVmad (w : SW) (s : State) : Out := intWord true (fun a b c => a * b + c) w s
def execVmin (w : SW) (s : State) : Out := intWord false (fun a b _ => if a < b then a else b) w s
def execVmax (w : SW) (s : State) : Out := intWord false (fun a b _ => if a < b then b else a) w s
def execVand (w : SW) (s : State) : Out := laneWord true false (fun _ _ a b _ => a &&& b) w s
def execVor (w : SW) (s : State) : Out := laneWord true false (fun _ _ a b _ => a ||| b) w s
def execVxor (w : SW) (s : State) : Out := laneWord true false (fun _ _ a b _ => a ^^^ b) w s
def execVshl (w : SW) (s : State) : Out := laneWord true false (fun _ _ a b _ => a <<< (b.toNat % 32)) w s
def execVshr (w : SW) (s : State) : Out := laneWord true false (fun _ _ a b _ => a >>> (b.toNat % 32)) w s
def execVsha (w : SW) (s : State) : Out := laneWord true false (fun _ _ a b _ => a.sshiftRight (b.toNat % 32)) w s

/-- The ten conditions of R197. -/
def intCondition (cc : Nat) (a b : W32) : Bool :=
  match cc with
  | 0 => a == b
  | 1 => a != b
  | 2 => a.slt b
  | 3 => a.sle b
  | 4 => b.slt a
  | 5 => b.sle a
  | 6 => a.ult b
  | 7 => a.ule b
  | 8 => b.ult a
  | _ => b.ule a

/-- Bits as a mask. -/
def maskBits (width : Nat) (f : Nat → Bool) : W64 :=
  BitVec.ofNat 64 (((List.range width).map fun i => if f i then 2 ^ i else 0).foldl (· + ·) 0)

/-- A word that writes mask bits. -/
def maskWord (f : Ln → Nat → List W32 → List W32 → Bool) (narrow : W64 → W64) (w : SW) (s : State) : Out :=
  runWord w (laneFields true true w) 8 (fun _ => pure ()) (fun l r => do
    let (a, b, _) ← l.operands w r none true false
    let l' := { l with mask := narrow l.mask }
    l.setMask (bitsOf w.vd.toNat 2 0) l'.activeLanes (maskBits l.width fun i => f l i a b)) s

/-- R197 -/
def execVicmp (w : SW) (s : State) : Out :=
  maskWord (fun _ i a b => intCondition (bitsOf w.vd.toNat 6 3) (a.getD i 0) (b.getD i 0)) id w s

/-! ### Moves and selection (R198, R207 to R209) -/

/-- m0 to m7 as a word names them (R207, R215). -/
def Ln.maskNo (l : Ln) (k : Nat) : M W64 := if k = 0 then pure l.m0 else l.maskReg k

/-- R207 -/
def execVsel (w : SW) (s : State) : Out :=
  runWord w (laneFields false true w) 8 (fun _ => pure ()) (fun l r => do
    let (a, b, c) ← l.operands w r (some (SW.dAt w r)) true (!w.ms)
    let m ← (if w.ms then l.maskNo (w.k % 8) else pure 0)
    l.deliver (SW.dAt w r) (l.lanes.map fun i =>
      if (if w.ms then m.getLsbD i else c.getD i 0 != 0) then a.getD i 0 else b.getD i 0)) s

/-- A word of one source register and a destination. -/
def unaryWord (f : Ln → List W32 → Nat → W32) (w : SW) (s : State) : Out :=
  runWord w [fieldD w, fieldA w] 8 (fun _ => pure ()) (fun l r => do
    let xs ← l.sources (some (SW.dAt w r)) [SW.aAt w r]
    l.deliver (SW.dAt w r) (l.lanes.map fun i => f l (xs.getD 0 []) i)) s

/-- A word whose result needs no lane register. -/
def constWord (f : Ln → M W32) (w : SW) (s : State) : Out :=
  runWord w [fieldD w] 8 (fun _ => pure ()) (fun l r => do
    if SW.dAt w r = 113 then l.sqReady
    let x ← f l
    l.deliver (SW.dAt w r) (l.lanes.map fun _ => x)) s

def execVmov (w : SW) (s : State) : Out := unaryWord (fun _ a i => a.getD i 0) w s
def execVmovI (w : SW) (s : State) : Out := constWord (fun _ => pure (w.imm.signExtend 32)) w s
def execVmovH (w : SW) (s : State) : Out := constWord (fun _ => pure (BitVec.ofNat 32 (w.imm.toNat * 2 ^ 16))) w s
def execVmovL (w : SW) (s : State) : Out :=
  unaryWord (fun _ a i => (a.getD i 0 &&& 0xFFFF0000) ||| w.imm.zeroExtend 32) w s

/-- R208: the lane must exist in the group. -/
def execVbcast (w : SW) (s : State) : Out :=
  runWord w [fieldD w, fieldA w] 8 (fun l => need (decide (w.b.toNat < l.width)) cSTRAND_ILLEGAL) (fun l r => do
    let xs ← l.sources (some (SW.dAt w r)) [SW.aAt w r]
    l.deliver (SW.dAt w r) (l.lanes.map fun _ => (xs.getD 0 []).getD w.b.toNat 0)) s

def execVbcastY (w : SW) (s : State) : Out := constWord (fun l => l.uniform (w.b.toNat - 64)) w s

/-- R209 -/
def execVshuf (w : SW) (s : State) : Out :=
  runWord w [fieldD w, fieldA w, fieldB w] 8 (fun _ => pure ()) (fun l r => do
    let xs ← l.sources (some (SW.dAt w r)) [SW.aAt w r, SW.bAt w r]
    l.deliver (SW.dAt w r) (l.lanes.map fun i => (xs.getD 0 []).getD ((xs.getD 1 []).getD i 0).toNat 0)) s

def execVshufXor (w : SW) (s : State) : Out := unaryWord (fun _ a i => a.getD (Nat.xor i (bitsOf w.imm.toNat 5 0)) 0) w s
def execVshufRot (w : SW) (s : State) : Out :=
  unaryWord (fun l a i => a.getD (((i : Int) - (bitsOf w.imm.toNat 5 0 : Int)) % (l.width : Int)).toNat 0) w s

/-! ### Floating point (R199 to R203) -/

/-- The lanes whose pair lies whole in the mask (R203). -/
def pairMask (m : W64) : W64 := maskBits 64 fun i => m.getLsbD (i / 2 * 2) && m.getLsbD (i / 2 * 2 + 1)

/-- Element `j` of 64 bits of lanes 2j and 2j + 1, given the number 2j. -/
def pairAt (xs : List W32) (i : Nat) : Nat := (xs.getD i 0).toNat + (xs.getD (i + 1) 0).toNat * 2 ^ 32

/-- The half of a 64-bit result that belongs to a lane. -/
def pairHalf (i x : Nat) : W32 := BitVec.ofNat 32 (if i % 2 = 0 then x else x / 2 ^ 32)

/-- An operation in f32, or in f64 on pairs under D: the format, the origin NaN, and the operands' codes. DESIGN CHOICE (log 24): where
the destination is sq, a lane of E whose pair is not whole pushes 0. -/
def floatWord (binary third : Bool) (f : Fp → Nat → Nat → Nat → Nat → Nat) (w : SW) (s : State) : Out :=
  runWord w (laneFields false binary w) 8 (fun _ => pure ()) (fun l r => do
    let (a, b, c) ← l.operands w r (some (SW.dAt w r)) binary third
    if w.dbl then
      let lp : Ln := { l with mask := pairMask l.mask }
      lp.deliver (SW.dAt w r) (l.lanes.map fun i =>
        let j := i / 2 * 2
        pairHalf i (f fp64 (originNaN64 false j l.hash) (pairAt a j) (pairAt b j) (pairAt c j)))
    else
      l.deliver (SW.dAt w r) (l.lanes.map fun i =>
        BitVec.ofNat 32 (f fp32 (originNaN32 i l.hash) (a.getD i 0).toNat (b.getD i 0).toNat (c.getD i 0).toNat))) s

def execVfadd (w : SW) (s : State) : Out := floatWord true false (fun f o a b _ => fAdd f w.rnd.toNat w.sat o a b) w s
def execVfsub (w : SW) (s : State) : Out := floatWord true false (fun f o a b _ => fSub f w.rnd.toNat w.sat o a b) w s
def execVfmul (w : SW) (s : State) : Out := floatWord true false (fun f o a b _ => fMul f w.rnd.toNat w.sat o a b) w s
def execVfma (w : SW) (s : State) : Out := floatWord true true (fun f o a b c => fFma f w.rnd.toNat w.sat false false o a b c) w s
def execVfmin (w : SW) (s : State) : Out := floatWord true false (fun f _ a b _ => fMinMax f true a b) w s
def execVfmax (w : SW) (s : State) : Out := floatWord true false (fun f _ a b _ => fMinMax f false a b) w s
def execVfrcp (w : SW) (s : State) : Out := floatWord false false (fun f _ a _ _ => fRcp f w.rnd.toNat w.sat a) w s
def execVfrsq (w : SW) (s : State) : Out := floatWord false false (fun f o a _ _ => fRsq f w.rnd.toNat w.sat o a) w s
def execVfexp2 (w : SW) (s : State) : Out := floatWord false false (fun f _ a _ _ => fExp2 f w.rnd.toNat w.sat a) w s
def execVflog2 (w : SW) (s : State) : Out := floatWord false false (fun f o a _ _ => fLog2 f w.rnd.toNat w.sat o a) w s

/-- The eight conditions of R202. -/
def floatCondition (f : Fp) (cc a b : Nat) : Bool :=
  match fCompare f a b with
  | none => cc == 1 || cc == 6
  | some c => match cc with
    | 0 => c == 0
    | 1 => c != 0
    | 2 => decide (c < 0)
    | 3 => decide (c ≤ 0)
    | 4 => decide (0 < c)
    | 5 => decide (0 ≤ c)
    | 6 => false
    | _ => true

def execVfcmp (w : SW) (s : State) : Out :=
  maskWord (fun _ i a b =>
    let cc := bitsOf w.vd.toNat 6 3
    if w.dbl then floatCondition fp64 cc (pairAt a (i / 2 * 2)) (pairAt b (i / 2 * 2))
    else floatCondition fp32 cc (a.getD i 0).toNat (b.getD i 0).toNat) (if w.dbl then pairMask else id) w s

/-! ### Conversion (R204, R205) -/

/-- A format that `vcvt` accepts. -/
def convertible (dest : Bool) (code : Nat) : Bool :=
  match fmtKind code with
  | .none => false
  | .ai _ => false
  | .h4 => false
  | .subst _ _ => !dest
  | _ => true

/-- The lanes of a conversion, lower ones first, with the origins they offer. -/
def convertLanes (src dst mode : Nat) (sat pair : Bool) (a : List W32) (active : Nat → Bool) : Nat → List (Nat × NanOffer)
  | 0 => []
  | n + 1 =>
    convertLanes src dst mode sat pair a active n ++
      (if active n && (!pair || n % 2 == 0) then
        match (convertFmt src dst mode sat (if pair && src == 1 then pairAt a n else (a.getD n 0).toNat)).2 with
        | some o => [(n, o)]
        | none => []
      else [])

def convertWord (src dst mode : Nat) (w : SW) (s : State) : Out :=
  runWord w [fieldD w, fieldA w] 8 (fun l => do
    need ([fieldD w, fieldA w].all fun f => l.g.fieldMapped l.entry.n w.count f) cSTRAND_ILLEGAL
    need (convertible false src && convertible true dst) cFORMAT) (fun l r => do
    let pair := src == 1 || dst == 1
    let l := if pair then { l with mask := pairMask l.mask } else l
    let xs ← l.sources (some (SW.dAt w r)) [SW.aAt w r]
    let a := xs.getD 0 []
    l.deliver (SW.dAt w r) (l.lanes.map fun i =>
      let j := if pair then i / 2 * 2 else i
      let v := (convertFmt src dst mode w.sat (if pair && src == 1 then pairAt a j else (a.getD j 0).toNat)).1
      if pair then pairHalf i v else BitVec.ofNat 32 v)
    let offers := convertLanes src dst mode w.sat pair a l.active l.width
    mapTeamM l.t.key fun t =>
      let t := { t with subst := t.subst ||| substBit src }
      offers.foldl (fun t o => t.offerOrigin o.2.fmt o.2.helm o.2.lane l.g.num o.2.hash) t) s

/-- Source and destination of a short code (R205). -/
def shortConversion (code : Nat) : Nat × Nat :=
  match code with
  | 0 => (0x00, 0x0B)
  | 1 => (0x00, 0x0E)
  | 2 => (0x0B, 0x00)
  | 3 => (0x0E, 0x00)
  | 4 => (0x00, 0x02)
  | 5 => (0x02, 0x00)
  | 6 => (0x00, 0x03)
  | 7 => (0x03, 0x00)
  | 8 => (0x00, 0x04)
  | 9 => (0x04, 0x00)
  | 10 => (0x00, 0x05)
  | _ => (0x05, 0x00)

def execVcvt (w : SW) (s : State) : Out :=
  convertWord (shortConversion w.b.toNat).1 (shortConversion w.b.toNat).2 0 w s
def execVcvtLong (w : SW) (s : State) : Out :=
  convertWord (bitsOf w.imm.toNat 4 0) (bitsOf w.imm.toNat 9 5) (bitsOf w.imm.toNat 12 10) w s

/-! ### vpack and vunpk (R206) -/

/-- Bits of an element. -/
def packBits (w : SW) : Nat := 16 / 2 ^ (bitsOf w.b.toNat 1 0)

def execVpack (w : SW) (s : State) : Out :=
  let k := 32 / packBits w
  runWord w [fieldD w, { fieldA w with span := k }] 8 (fun _ => pure ()) (fun l r => do
    let xs ← l.sources (some (SW.dAt w r)) ((List.range k).map fun j => SW.aAt w r + j)
    l.deliver (SW.dAt w r) (l.lanes.map fun i =>
      BitVec.ofNat 32 (((List.range k).map fun j =>
        ((xs.getD j []).getD i 0).toNat % 2 ^ packBits w * 2 ^ (packBits w * j)).foldl (· + ·) 0))) s

/-- Writes registers from `d` on. -/
def Ln.deliverAll (l : Ln) (d : Nat) : List (List W32) → M Unit
  | [] => pure ()
  | x :: rest => do
    l.setVector d x
    l.deliverAll (d + 1) rest

def execVunpk (w : SW) (s : State) : Out :=
  let n := packBits w
  runWord w [{ fieldD w with span := 32 / n }, fieldA w] 8 (fun _ => pure ()) (fun l r => do
    let xs ← l.sources none [SW.aAt w r]
    l.deliverAll (SW.dAt w r) ((List.range (32 / n)).map fun j => l.lanes.map fun i =>
      let e := ((xs.getD 0 []).getD i 0).toNat / 2 ^ (n * j) % 2 ^ n
      if w.b.getLsbD 2 then BitVec.ofInt 32 (signedOf n e) else BitVec.ofNat 32 e)) s

/-! ### Folds (R210 to R212) -/

/-- The identity of an operation. -/
def foldIdentity (op : Nat) : Nat :=
  match op with
  | 2 => 0x7FFFFFFF
  | 3 => 0xFFFFFFFF
  | 4 => 0x80000000
  | 6 => 0x7F800000
  | 7 => 0xFF800000
  | 8 => 0xFFFFFFFF
  | _ => 0

/-- Two elements under an operation other than fadd. -/
def foldTwo (op : Nat) (a b : W32) : W32 :=
  match op with
  | 0 => a + b
  | 2 => if b.slt a then b else a
  | 3 => if b.ult a then b else a
  | 4 => if a.slt b then b else a
  | 5 => if a.ult b then b else a
  | 6 => BitVec.ofNat 32 (fMinMax fp32 true a.toNat b.toNat)
  | 7 => BitVec.ofNat 32 (fMinMax fp32 false a.toNat b.toNat)
  | 8 => a &&& b
  | 9 => a ||| b
  | _ => a ^^^ b

/-- One more element in a fold; `none` is a fold of no element. -/
def foldPush (op : Nat) (f : Option Fold) (x : W32) : Option Fold :=
  some (match f with
  | none => { add := op == 1, sum := FloatSum.empty.push fp32 (unpackFp fp32 x.toNat) x.toNat, run := x.toNat }
  | some f =>
    if op = 1 then { f with sum := f.sum.push fp32 (unpackFp fp32 x.toNat) x.toNat }
    else { f with run := (foldTwo op (BitVec.ofNat 32 f.run) x).toNat })

/-- The result of a fold. -/
def foldResult (op mode : Nat) (sat : Bool) (origin : Nat) (f : Option Fold) : W32 :=
  match f with
  | none => BitVec.ofNat 32 (foldIdentity op)
  | some f => BitVec.ofNat 32 (if op = 1 then (f.sum.round fp32 mode sat).getD origin else f.run)

/-- The fold of a `vred` so far. -/
def Partial.fold (p : Partial) : Option Fold := p.elems.foldl (fun f x => foldPush p.op f x.2) p.base

def execVred (w : SW) (s : State) : Out :=
  runWord w [fieldA w] 8 (fun _ => pure ()) (fun l r => do
    let op := bitsOf w.b.toNat 3 0
    let xs ← l.sources none [SW.aAt w r]
    let g ← l.group
    let p := l.g.slotOf l.who
    let before := if r = 0 then none else (g.pathAt p).fold
    let part : Partial :=
      { op := op, base := before.bind (·.base)
        elems := (before.map (·.elems)).getD [] ++ l.activeLanes.map fun i => (i, (xs.getD 0 []).getD i 0) }
    let last := decide (r + 1 = w.count)
    l.mapGroup fun g => g.mapPath p fun x => { x with fold := if last then none else some part }
    if last then l.setUniform w.vd.toNat (foldResult op w.rnd.toNat w.sat (originNaN32 (l.activeLanes.headD 0) l.hash) part.fold)) s

/-- The prefixes of a scan at the lanes given. -/
def scanLanes (op : Nat) (excl : Bool) (a : List W32) : Option Fold → List Nat → List (Nat × Option Fold)
  | _, [] => []
  | f, i :: rest =>
    let g := foldPush op f (a.getD i 0)
    (i, if excl then f else g) :: scanLanes op excl a g rest

def execVscan (w : SW) (s : State) : Out :=
  runWord w [fieldD w, fieldA w] 8 (fun _ => pure ()) (fun l r => do
    let op := bitsOf w.b.toNat 3 0
    let xs ← l.sources (some (SW.dAt w r)) [SW.aAt w r]
    let ps := scanLanes op (w.b.getLsbD 4) (xs.getD 0 []) none l.activeLanes
    l.deliver (SW.dAt w r) (l.lanes.map fun i => match ps.find? fun p => p.1 == i with
      | some (_, f) => foldResult op w.rnd.toNat w.sat (originNaN32 i l.hash) f
      | none => 0)) s

/-! ### Ballots, keys, masks (R213 to R215) -/

def execVballot (w : SW) (s : State) : Out :=
  runWord w [{ reg := w.va.toNat, adv := 0, span := 1 }] 8 (fun _ => pure ()) (fun l _ => do
    let xs ← l.sources none [w.va.toNat]
    let bit (i : Nat) : Bool := ((xs.getD 0 []).getD i 0).getLsbD (bitsOf w.b.toNat 4 0) != w.b.getLsbD 5
    l.setMask (bitsOf w.vd.toNat 2 0) l.activeLanes (maskBits l.width bit)
    l.setUniform (4 + bitsOf w.vd.toNat 4 3) (BitVec.ofNat 32 (l.activeLanes.filter bit).length)) s

def execVkey (w : SW) (s : State) : Out :=
  let n := bitsOf w.imm.toNat 4 0
  let kind := bitsOf w.imm.toNat 6 5
  runWord w ([fieldD w, fieldA w] ++ if n = 0 then [] else [fieldB w]) 8 (fun _ => pure ()) (fun l r => do
    let xs ← l.sources (some (SW.dAt w r)) (SW.aAt w r :: if n = 0 then [] else [SW.bAt w r])
    l.deliver (SW.dAt w r) (l.lanes.map fun i =>
      let a := (xs.getD 0 []).getD i 0
      let b := (xs.getD 1 []).getD i 0
      let k : W32 := if kind = 0 then (if a.getLsbD 31 then ~~~a else a ^^^ 0x80000000) else if kind = 1 then a ^^^ 0x80000000 else a
      let x := if w.imm.getLsbD 7 then ~~~b else b
      if n = 0 then k else BitVec.ofNat 32 (k.toNat / 2 ^ n * 2 ^ n + x.toNat % 2 ^ n))) s

def execMop (w : SW) (s : State) : Out :=
  runWord w [] 8 (fun _ => pure ()) (fun l _ => do
    let op := bitsOf w.vd.toNat 6 3
    let a ← l.maskNo (bitsOf w.va.toNat 2 0)
    let b ← (if op = 6 then pure 0 else l.maskNo (bitsOf w.b.toNat 2 0))
    let y ← (if op = 6 then l.uniform (bitsOf w.b.toNat 2 0) else pure 0)
    let low := l.activeLanes.find? fun i => a.getLsbD i
    let bit (i : Nat) : Bool :=
      match op with
      | 0 => a.getLsbD i
      | 1 => !a.getLsbD i
      | 2 => a.getLsbD i && b.getLsbD i
      | 3 => a.getLsbD i || b.getLsbD i
      | 4 => a.getLsbD i != b.getLsbD i
      | 5 => a.getLsbD i && !b.getLsbD i
      | 6 => decide (i < y.toNat)
      | _ => low == some i
    l.setMask (bitsOf w.vd.toNat 2 0) l.activeLanes (maskBits l.width bit)) s

end Sys2Proof.Machine
end

