-- ==== Sys2Proof/Machine/Matrix.lean ====
section
/-! DEFINITION. The matrix engine: gangs, rendezvous, the matrix queue, accumulation and the carried state (09_matrix.md R245 to R276;
scale records R74, R75). -/

namespace Sys2Proof.Machine

/-! ### Tiles and slots (R247, R248) -/

/-- An element of a sparse list of rising keys without zero values. -/
def sparseGet : List (Nat × W32) → Nat → W32
  | [], _ => 0
  | (k, v) :: m, a => if k = a then v else if a < k then 0 else sparseGet m a

def sparseSet : List (Nat × W32) → Nat → W32 → List (Nat × W32)
  | [], a, v => if v = 0 then [] else [(a, v)]
  | (k, w) :: m, a, v =>
    if a < k then (if v = 0 then (k, w) :: m else (a, v) :: (k, w) :: m)
    else if k = a then (if v = 0 then m else (a, v) :: m)
    else (k, w) :: sparseSet m a v

def State.tile? (s : State) (bay team acc : Nat) : Option Tile := s.tiles.find? fun x => x.bay == bay && x.team == team && x.acc == acc

/-- Element (r, c) of a tile of a team. -/
def State.tileGet (s : State) (bay team acc r c : Nat) : W32 :=
  match s.tile? bay team acc with | some x => sparseGet x.elems (r * 128 + c) | none => 0

def State.mapTile (s : State) (bay team acc : Nat) (f : Tile → Tile) : State :=
  { s with tiles := s.tiles.map fun x => if x.bay == bay && x.team == team && x.acc == acc then f x else x }

def State.tileSet (s : State) (bay team acc r c : Nat) (v : W32) : State :=
  s.mapTile bay team acc fun x => { x with elems := sparseSet x.elems (r * 128 + c) v }

def State.matrixSlot? (s : State) (bay team : Nat) : Option MatrixSlot := s.slots.find? fun x => x.bay == bay && x.team == team

/-- The bytes that a read of a scale offset may return (R291): the last write whose image the engine has waited for, and each write made
after it. -/
def MatrixSlot.scaleOptions (x : MatrixSlot) (imaged : List Nat) (off : Nat) : List Byte :=
  let base : Byte := ((x.scale.find? fun y => y.1 == off).map (·.2)).getD 0
  ((x.images.filter fun w => w.off == off).foldl (fun acc w => if imaged.contains w.run then [w.byte] else acc ++ [w.byte]) [base]).eraseDups

/-- The byte last written. -/
def MatrixSlot.scaleNow (x : MatrixSlot) (off : Nat) : Byte :=
  match (x.images.filter fun w => w.off == off).getLast? with
  | some w => w.byte
  | none => ((x.scale.find? fun y => y.1 == off).map (·.2)).getD 0

/-- `n` bytes of a team's scale part as a matrix word reads them, each old or new by itself (R291). -/
def State.scaleBytes (s : State) (x : MatrixSlot) (imaged : List Nat) (off : Nat) : Nat → List Byte × State
  | 0 => ([], s)
  | n + 1 =>
    let o := x.scaleOptions imaged off
    let b := o.getD (pickOf o.length s.tick) 0
    let (bs, s) := { s with tick := if o.length ≤ 1 then s.tick else s.tick + 1 }.scaleBytes x imaged (off + 1) n
    (b :: bs, s)

/-- Their value. -/
def State.scaleRead (s : State) (bay team : Nat) (imaged : List Nat) (off n : Nat) : Nat × State :=
  match s.matrixSlot? bay team with
  | none => (0, s)
  | some x =>
    let (bs, s) := s.scaleBytes x imaged off n
    (leNat bs, s)

/-- A team's scale part with bytes written by a run of `cp.scale`. -/
def MatrixSlot.putImage (x : MatrixSlot) (run off : Nat) (bytes : List Byte) : MatrixSlot :=
  { x with images := x.images ++ bytes.zipIdx.map fun b => { off := off + b.2, byte := b.1, run := run } }

/-- A team's scale part with bytes as a restore loads them. -/
def MatrixSlot.putScale (x : MatrixSlot) (off : Nat) (bytes : List Byte) : MatrixSlot :=
  let mem := (memSetList (x.scale.map fun y => ((y.1, y.2) : Host.Cell)) off bytes)
  { x with scale := mem.map fun y => (y.1, y.2) }

/-- Bytes of a scale part (R245). -/
def scalePart : Nat := 0x10000

/-! ### The scale layout record (R74, R75) -/

def recFmt (x : Nat) : Nat := bitsOf x 4 0
def recZp (x : Nat) : Bool := bitOf x 8
def recGsize (x : Nat) : Nat := bitsOf x 10 9
def recGroups (x : Nat) : Nat := bitsOf x 47 32
def recRows (x : Nat) : Nat := bitsOf x 63 48
def recSstride (x : Nat) : Nat := bitsOf x 79 64
def recZstride (x : Nat) : Nat := bitsOf x 95 80
def recZoff (x : Nat) : Nat := bitsOf x 127 96

def scaleRecordValid (x : Nat) : Bool :=
  (recFmt x == 0x07 || recFmt x == 0x09 || recFmt x == 0x0A) && bitsOf x 7 5 == 0 && bitsOf x 31 11 == 0 && recGsize x != 3 &&
  recGroups x != 0 && recRows x != 0 && recSstride x % 2 == 0 && decide (2 * recGroups x ≤ recSstride x) &&
  (recZp x == (recFmt x != 0x0A)) &&
  (if recZp x then decide (recGroups x ≤ recZstride x) && recZoff x % 64 == 0 else recZstride x == 0 && recZoff x == 0)

/-! ### Fields of a matrix word (R254) -/

def mxLnd (w : SW) : Bool := w.imm.getLsbD 0
def mxPb (w : SW) : Bool := w.imm.getLsbD 1
/-- SU or WU: the y register, where it is present. -/
def mxSu (w : SW) : Option Nat := if w.imm.getLsbD 5 then some (bitsOf w.imm.toNat 4 2) else none
def mxIu (w : SW) : Option Nat := if w.imm.getLsbD 9 then some (bitsOf w.imm.toNat 8 6) else none
def mxRl (w : SW) : Nat := bitsOf w.imm.toNat 8 6
def mxTl (w : SW) : Nat := bitsOf w.imm.toNat 11 9
def mxStride (w : SW) : Nat := 4 * bitsOf w.imm.toNat 15 2

def MatrixKind.ganged (k : MatrixKind) : Bool := k == .ldb || k == .mma || k == .mmas || k == .gmma
/-- Words that read A and B. -/
def MatrixKind.product (k : MatrixKind) : Bool := k == .mma || k == .mmas || k == .gmma || k == .rstep
/-- The pinned B is used. -/
def MatrixKind.pinned (k : MatrixKind) (w : SW) : Bool := k == .rstep || ((k == .mma || k == .mmas || k == .gmma) && mxPb w)

/-- The entry and shape register in force for the engine (R89, R91, R146). -/
def Ln.mxFmt (l : Ln) (w : SW) : W64 := l.entry.view.fmts.getD (if w.fmtNo = 15 then l.entry.layer else w.fmtNo) 0
def Ln.mxShape (l : Ln) (w : SW) : Shape := l.entry.view.shapes.getD w.shNo Shape.zero

/-- A pair of tiles holds the element (R248). -/
def mxPaired (f : Nat) : Bool := fmtACCF f == 1 || fmtCOMP f

/-- Me, Ne and Ke (R145). -/
def Ln.extents (l : Ln) (h : Shape) : Nat × Nat × Nat :=
  let tail := if l.e.trip + 1 = l.entry.trips && h.tailc != 0 then h.tailc else h.extent
  let m := if h.td = 0 then tail else Nat.min h.reqm h.grm
  let n := if h.td = 1 then tail else Nat.min h.reqn h.grn
  let k := if h.td = 2 then tail else Nat.min h.reqk h.grk
  (Nat.min m 128, Nat.min n 128, k)

/-- ai8, ai4 and h4, whose elements come in groups (R72, R73). -/
def scaledFmt (af : Nat) : Bool := match fmtKind af with | .ai _ => true | .h4 => true | _ => false

/-- Elements of a group of a scaled format. -/
def groupSize (f : Nat) : Nat := 32 * 2 ^ fmtGSIZE f

/-- Bytes of `n` elements of a packed format (R71). -/
def packedBytes (bits n : Nat) : Nat := if bits = 6 then (n + 3) / 4 * 3 else (n * bits + 7) / 8

/-! ### Gangs (R250, R251) -/

def gangCount (v : W64) : Nat := bitsOf v.toNat 62 60
def gangMember (v : W64) (i : Nat) : Nat := bitsOf v.toNat (10 * i + 9) (10 * i)
/-- Members with the quarters they supply; the solo gang is the group itself. -/
def gangMembers (v : W64) (self : Nat) : List (Nat × Nat) :=
  if gangCount v = 0 then [(self, 15)]
  else (List.range (gangCount v)).map fun i => (gangMember v i % 32, bitsOf (gangMember v i) 8 5)

/-- The conditions of R251 for a group of the team. -/
def gangValid (t : Team) (g : Group) (v : W64) : Bool :=
  let n := gangCount v
  let ms := gangMembers v g.num
  if n = 0 then v == 0
  else
    !bitOf v.toNat 63 && n != 1 && n != 7 &&
    ((List.range 6).all fun i => if i < n then !bitOf (gangMember v i) 9 else gangMember v i == 0) &&
    (ms.map (·.1)).eraseDups.length == n && (ms.any fun m => m.1 == g.num) && (ms.all fun m => (t.group? m.1).isSome) &&
    (List.range 4).all (fun q => (ms.filter fun m => bitOf m.2 q).length == 1) &&
    (match ms.head? with
     | none => false
     | some a => match t.group? a.1 with
       | none => false
       | some ga => decide ((ms.filter fun m => match t.group? m.1 with | some x => x.bay != ga.bay | none => false).length ≤ 2))

def execMxGang (w : SW) (s : State) : Out :=
  runWord w [] 8 (fun _ => pure ()) (fun l _ => do
    let g ← l.group
    need (decide (g.liveSlots.length ≤ 1)) cSTRAND_ILLEGAL
    let lo ← l.uniform w.ubase
    let hi ← l.uniform (w.ubase + 1)
    let v : W64 := BitVec.ofNat 64 (hi.toNat * 2 ^ 32 + lo.toNat)
    need (gangValid l.t g v) cSTRAND_ILLEGAL
    l.mapGroup fun g => { g with gang := v, ganged := 0 }) s

/-! ### B (R253) -/

/-- Registers of one quarter. -/
def quarterRegs (grn kb width : Nat) : Nat := (grn * kb + 16 * width - 1) / (16 * width)

/-- The registers from `r` on of a group, as its C engine sees them, as one stream of bytes. -/
def readStream (g : Group) (vc : List Nat) (width r : Nat) : Nat → M (List Byte)
  | 0 => pure []
  | n + 1 => do
    let xs ← readLanes g (regV r) vc width
    let rest ← readStream g vc width (r + 1) n
    pure ((xs.map fun x => leBytes 4 x.toNat).flatten ++ rest)

/-- A member of a rendezvous: its group, path slot, word and quarters. -/
structure Member where
  g : Group
  path : Nat
  w : SW
  quarters : Nat

def Member.vc (m : Member) : List Nat := (m.g.eng (.c m.path)).vc

/-- The byte streams of the four quarters. -/
def readQuarters (ms : List Member) (width nr : Nat) : Nat → M (List (List Byte))
  | 0 => pure []
  | q + 1 => do
    let rest ← readQuarters ms width nr q
    match ms.find? fun m => bitOf m.quarters q with
    | none => pure (rest ++ [[]])
    | some m => do
      let i := ((List.range q).filter fun j => bitOf m.quarters j).length
      let x ← readStream m.g m.vc width (m.w.va.toNat + i * nr) nr
      pure (rest ++ [x])

/-- A code of `bits` bits at bit `b` of a byte stream. -/
def streamCode (xs : List Byte) (b bits : Nat) : Nat := leNat ((xs.drop (b / 8)).take ((b % 8 + bits + 7) / 8)) / 2 ^ (b % 8) % 2 ^ bits

/-- The snapshot; elements beyond the effective K and N are zero. -/
def snapshotB (qs : List (List Byte)) (bits grk grn ke ne : Nat) : List Nat :=
  let kb := packedBytes bits grk
  let per := grn / 4
  (List.range (grk * grn)).map fun i =>
    let k := i % grk
    let c := i / grk
    if k < ke && c < ne then streamCode (qs.getD (c / per) []) (8 * (c % per * kb) + k * bits) bits else 0

/-! ### The checks at a meeting (R252, R256, R264, R266, R269, R273, R275) -/

/-- The limit of a range in pad or lnd: SEG_LIMIT with the first failing byte. -/
def Ln.mxLimit (l : Ln) (lnd write : Bool) (off n : Nat) : M Unit := do
  let s ← get
  let sp := if lnd then 2 else 1
  if n != 0 && (s.localLoc l.t l.g.bay sp off n).isNone then
    let bad := ((List.range n).find? fun i => (s.localLoc l.t l.g.bay sp (off + i) 1).isNone).getD (2 ^ 20 - off % 2 ^ 20)
    raise cSEG_LIMIT (off + bad) 0 write

def Ln.mxLimits (l : Ln) (lnd write : Bool) : List (Nat × Nat) → M Unit
  | [] => pure ()
  | (o, n) :: rest => do
    l.mxLimit lnd write o n
    l.mxLimits lnd write rest

/-- Reads at the meeting come after the writes of the engine's earlier matrix words, which the queue may still hold (R257). -/
def Ln.afterOwnWrites (l : Ln) : M Unit := do
  let s ← get
  if s.mqueue.any fun m => m.place.same l.place && (m.kind == .stacc || m.kind == .rsave) then waitOn .accesses

/-- Bytes from an offset on, each one unit. -/
def Ln.mxBytes (l : Ln) (lnd : Bool) (off : Nat) : Nat → M (List Byte)
  | 0 => pure []
  | n + 1 => do
    let s ← get
    let loc := (s.localLoc l.t l.g.bay (if lnd then 2 else 1) off 1).getD 0
    let b ← readSpace l.place [] { loc := loc, va := none, large := false } 1
    let rest ← l.mxBytes lnd (off + 1) n
    pure (b.map (·.value) ++ rest)

/-- The 16-bit entries of an index list (R269). -/
def Ln.mxList (l : Ln) (lnd : Bool) (off : Nat) : Nat → M (List Nat)
  | 0 => pure []
  | n + 1 => do
    let s ← get
    let loc := (s.localLoc l.t l.g.bay (if lnd then 2 else 1) off 2).getD 0
    let b ← readSpace l.place [] { loc := loc, va := none, large := false } 2
    let rest ← l.mxList lnd (off + 2) n
    pure (readValue b :: rest)

/-- The ranges that an A row takes: in 2:4 form its values and its metadata, of the K groups that meet Ke (R267, R268). -/
def rowRanges (kind : MatrixKind) (bits grk ke ya a : Nat) : List (Nat × Nat) :=
  let rb := packedBytes bits grk
  if kind = .mmas then
    let n := (ke + 3) / 4
    let o := ya + a * (rb / 2 + grk / 8)
    [(o, packedBytes bits (2 * n)), (o + rb / 2, (n + 1) / 2)]
  else [(ya + a * rb, (ke * bits + 7) / 8)]

/-- Bytes of the window of an image, row by row, with the header (R274). -/
def imageRanges (comp : Bool) (ya row0 col0 cols me ne : Nat) : List (Nat × Nat) :=
  let e := if comp then 8 else 4
  (ya, 64) :: (List.range me).map fun r => (ya + 64 + ((row0 + r) * cols + col0) * e, ne * e)

/-- Rows of an element region (R271). -/
def regionRanges (ya stride me n : Nat) : List (Nat × Nat) := (List.range me).map fun r => (ya + r * stride, n)

/-- Row and target entries checked in order (R256, R269). -/
def Ln.mxJobs (l : Ln) (w : SW) (kind : MatrixKind) (bits grk ke ya yt : Nat) : Nat → List (Nat × Nat) → M Unit
  | _, [] => pure ()
  | j, (a, t) :: rest => do
    if a != 0xFFFF && t != 0xFFFF then do
      if t ≥ 128 then raise cSEG_LIMIT (yt + 2 * j)
      l.mxLimits (mxLnd w) false (rowRanges kind bits grk ke ya a)
    l.mxJobs w kind bits grk ke ya yt (j + 1) rest

/-- The reads of scales and zero points of a row that the operation makes (R264). -/
def scaleRanges (lay : Nat) (img g0 groups a : Nat) : List (Nat × Nat) :=
  (List.range groups).flatMap fun g =>
    (img + 64 + a * recSstride lay + 2 * (g0 + g), 2) ::
      (if recZp lay then [(img + recZoff lay + a * recZstride lay + (g0 + g), 1)] else [])

/-- A read of the scale part; beyond it SEG_LIMIT (R247). -/
def scaleLimit : List (Nat × Nat) → M Unit
  | [] => pure ()
  | (o, n) :: rest => do
    if o + n > scalePart then raise cSEG_LIMIT (Nat.max o scalePart)
    scaleLimit rest

/-- The pinned B as the operations queued before leave it (R249, R266): GRK, GRN and BF. -/
def State.pinnedShape (s : State) (bay team : Nat) : Option (Nat × Nat × Nat) :=
  match (s.mqueue.filter fun m => m.bay == bay && m.team == team && m.kind == .ldb).getLast? with
  | some m => some (m.grk, m.grn, fmtBF m.fmt.toNat)
  | none => match s.matrixSlot? bay team with
    | some x => if x.pinned then some (x.grk, x.grn, x.bf) else none
    | none => none

/-- The scale operand of a product of a scaled format: image offset, record, first group (R264). A record that does not lie within the part
has no FORMAT check: its SEG_LIMIT comes in the order of R256. -/
def Ln.mxScale (l : Ln) (w : SW) (f grk me : Nat) (gather : Bool) : M (Option Nat × Nat × Nat) := do
  need (fmtSCL f == (mxSu w).isSome) cFORMAT
  match mxSu w with
  | none => pure (none, 0, 0)
  | some y => do
    let v ← l.uniform y
    let o := v.toNat % 2 ^ 16
    let g0 := v.toNat / 2 ^ 16
    let s ← get
    let (lay, s) := s.scaleRead l.g.bay l.t.key (l.g.eng l.who).imaged o 16
    set s
    need (decide (o + 16 > scalePart) || (scaleRecordValid lay && recFmt lay == fmtAF f && recGsize lay == fmtGSIZE f && recZp lay == fmtZP f &&
      (gather || decide (me ≤ recRows lay)) && decide (g0 + grk / groupSize f ≤ recGroups lay))) cFORMAT
    pure (some o, lay, g0)

/-- What the checks of a word leave for its operation. -/
structure Operands where
  offset : Nat := 0
  stride : Nat := 0
  jobs : List (Nat × Nat) := []
  su : Option Nat := none
  scaleRec : Nat := 0
  g0 : Nat := 0
  row0 : Nat := 0
  col0 : Nat := 0
  imgRows : Nat := 0
  imgCols : Nat := 0
  sid : Nat := 0
  steps : W32 := 0
  /-- Ranges in the operand's space that the operation reads, and that it leases. -/
  ranges : List (Nat × Nat) := []

/-- The memory checks of a product (R256). -/
def Ln.productOperands (l : Ln) (kind : MatrixKind) (w : SW) (f grk me ne ke : Nat) : M Operands := do
  let bits := fmtBits (fmtAF f)
  let y ← l.uniform w.ubase
  let ya := y.toNat
  let gather := kind == .gmma
  let (su, lay, g0) ← (if kind = .rstep then
      (match mxSu w with
       | none => pure (none, 0, 0)
       | some n => do
         let v ← l.uniform n
         pure (some (v.toNat % 2 ^ 16), 0, 0))
    else l.mxScale w f grk me gather)
  let yr ← (if gather then l.uniform (mxRl w) else pure 0)
  let yt ← (if gather then l.uniform (mxTl w) else pure 0)
  let jobs ← (if gather then do
      l.mxLimit (mxLnd w) false yr.toNat (2 * me)
      need (yr.toNat % 2 == 0) cMISALIGN yr.toNat
      l.mxLimit (mxLnd w) false yt.toNat (2 * me)
      need (yt.toNat % 2 == 0) cMISALIGN yt.toNat
      l.afterOwnWrites
      let rows ← l.mxList (mxLnd w) yr.toNat me
      let tos ← l.mxList (mxLnd w) yt.toNat me
      pure (rows.zip tos)
    else pure ((List.range me).map fun r => (r, r)))
  let used := jobs.filter fun j => j.1 != 0xFFFF && j.2 != 0xFFFF
  let groups := (ke + groupSize f - 1) / groupSize f
  match su with
  | none => pure ()
  | some o => do
    if kind != .rstep then
      need (decide (o + 16 > scalePart) || used.all fun j => decide (j.1 < recRows lay)) cFORMAT
    scaleLimit (if kind = .rstep then [(o, 4 * ne)] else (o, 16) :: used.flatMap fun j => scaleRanges lay o g0 groups j.1)
    need (o % 64 == 0) cMISALIGN o
  l.mxJobs w kind bits grk ke ya yt.toNat 0 jobs
  need (ya % 16 == 0) cMISALIGN ya
  pure { offset := ya, jobs := used, su := su, scaleRec := lay, g0 := g0
         ranges := (if gather then [(yr.toNat, 2 * me), (yt.toNat, 2 * me)] else []) ++
           (used.flatMap fun j => rowRanges kind bits grk ke ya j.1).eraseDups }

/-- The window of an image word, and its memory checks (R275). -/
def Ln.imageOperands (l : Ln) (kind : MatrixKind) (w : SW) (f me ne : Nat) : M Operands := do
  let win ← (match mxSu w with
    | some n => do
      let v ← l.uniform n
      pure (v.toNat % 256, bitsOf v.toNat 15 8, bitsOf v.toNat 23 16 + 1, bitsOf v.toNat 31 24 + 1)
    | none => pure (0, 0, me, ne))
  let (row0, col0, rows, cols) := win
  need (decide (row0 + me ≤ rows) && decide (col0 + ne ≤ cols)) cSHAPE_FAIL
  need (fmtEntryValid f) cFORMAT
  need (!(mxPaired f && w.accNo % 2 == 1)) cFORMAT
  need (fmtACCF f == 0) cFORMAT
  let sid ← (match mxIu w with
    | some n => l.uniform n
    | none => pure 0)
  let y ← l.uniform w.ubase
  let ya := y.toNat
  let rs := imageRanges (fmtCOMP f) ya row0 col0 cols me ne
  l.mxLimits (mxLnd w) (kind == .rsave) rs
  need (ya % 64 == 0) cMISALIGN ya
  let steps ← (if kind = .rload then do
      l.afterOwnWrites
      let bs ← l.mxBytes (mxLnd w) ya 64
      let h := leNat bs
      need (bitsOf h 511 128 == 0 && bitsOf h 47 9 == 0 && bitsOf h 7 5 == 0 && bitsOf h 4 0 == 0 && bitOf h 8 == fmtCOMP f) cFORMAT
      need (bitsOf h 55 48 + 1 == rows && bitsOf h 63 56 + 1 == cols) cSHAPE_FAIL
      pure (BitVec.ofNat 32 (bitsOf h 127 96))
    else pure 0)
  pure { offset := ya, row0 := row0, col0 := col0, imgRows := rows, imgCols := cols, sid := sid.toNat, steps := steps
         ranges := if kind = .rload then rs else [] }

/-- The element region of `mx.ldacc` and `mx.stacc` (R271). -/
def Ln.regionOperands (l : Ln) (kind : MatrixKind) (w : SW) (f me ne : Nat) : M Operands := do
  let e := if kind = .ldacc then (if fmtACCF f = 1 then 8 else 4) else fmtBits (fmtOUTF f) / 8
  let stride := if mxStride w = 0 then (ne * e + 3) / 4 * 4 else mxStride w
  let y ← l.uniform w.ubase
  let ya := y.toNat
  let rs := regionRanges ya stride me (ne * e)
  l.mxLimits (mxLnd w) (kind == .stacc) rs
  need (ya % e == 0) cMISALIGN ya (b2n (kind == .stacc))
  pure { offset := ya, stride := stride, ranges := if kind = .ldacc then rs else [] }
where
  /-- MISALIGN with the kind of the access. -/
  need (b : Bool) (code fva write : Nat) : M Unit := if b then pure () else raise code fva 0 (write == 1)

/-- Every member's registers of B are there, in the map that the member's own entry sees (R252, R186, R188). -/
def bMapped (ms : List Member) (nr : Nat) : Bool :=
  ms.all fun m =>
    let k := ((List.range 4).filter fun q => bitOf m.quarters q).length * nr
    k == 0 || (decide (m.w.va.toNat + k ≤ 112) && (List.range k).all fun j => (m.g.mapAt (m.g.eng (.c m.path)).entry).getLsbD ((m.w.va.toNat + j) / 16))

/-- What the members' token pushes will release. -/
def Ln.memberTokens (l : Ln) : List Member → M (List OpTokens)
  | [] => pure []
  | m :: rest => do
    let lm : Ln := { l with g := m.g, who := .c m.path, place := enginePlace l.t m.g (.c m.path) }
    let k ← lm.token
    let ks ← l.memberTokens rest
    pure ({ grp := m.g.num, path := m.path, counters := pushCounters (.c m.path) m.w, tok := k } :: ks)

/-- The meeting: the anchor's checks in the order of R252; then the operation is queued, and every member passes its word. -/
def mxMeet (l : Ln) (kind : MatrixKind) (w : SW) (ms : List Member) : M Unit := do
  let h := l.mxShape w
  let f := (l.mxFmt w).toNat
  let bits := fmtBits (fmtBF f)
  let usesB := kind.ganged && !kind.pinned w
  let nr := quarterRegs h.grn (packedBytes bits h.grk) l.width
  need (ms.all fun m => m.g.gang == l.g.gang && m.w.accNo == w.accNo && m.w.shNo == w.shNo && m.w.fmtNo == w.fmtNo && m.w.imm == w.imm &&
    (match m.g.meet with | some (k, _) => k == kind | none => true)) cSTRAND_ILLEGAL
  need (kind == .ldb || decide (w.accNo < l.t.kernel.tiles)) cSTRAND_ILLEGAL
  need (!(usesB && h.valid && bits != 0) || bMapped ms nr) cSTRAND_ILLEGAL
  -- SHAPE_FAIL; a format without element bytes in R137 has no K lattice, and fails in FORMAT below (log 105)
  need h.valid cSHAPE_FAIL
  let af := fmtAF f
  need (tileBits af == 0 || [32, 64, 128].any fun b => h.grk * tileBits af == 8 * b) cSHAPE_FAIL
  need (!(kind.product && scaledFmt af && fmtGSIZE f != 3) || h.grk % groupSize f == 0) cSHAPE_FAIL
  let s ← get
  let pin := s.pinnedShape l.g.bay l.t.key
  if kind.pinned w then
    need (match pin with | some (a, b, _) => a == h.grk && b == h.grn | none => false) cSHAPE_FAIL
  let (me, ne, ke) := l.extents h
  -- FORMAT, and the addresses
  let image := kind == .rsave || kind == .rload
  let o ← (if image then l.imageOperands kind w f me ne
    else do
      need (fmtEntryValid f) cFORMAT
      need (!(mxPaired f && w.accNo % 2 == 1 && kind != .ldb)) cFORMAT
      if kind.pinned w then need (match pin with | some (_, _, b) => b == fmtBF f | none => false) cFORMAT
      need (!(kind == .mmas && decide (af ≤ 1))) cFORMAT
      need (!(kind == .rstep && (fmtACCF f != 0 || fmtSCL f))) cFORMAT
      if kind.product then l.productOperands kind w f h.grk me ne ke
      else if kind == .ldacc || kind == .stacc then l.regionOperands kind w f me ne
      else pure {})
  let counted := kind.product || image || kind == .ldacc || kind == .stacc
  if counted && decide (s.pathCount l.t.key l.g (if mxLnd w then 1 else 0) ≥ 63) then waitOn .accesses
  if decide ((s.mqueue.filter fun m => m.bay == l.g.bay).length ≥ 4) then waitOn .matrix
  let b ← (if usesB then do
      let qs ← readQuarters ms l.width nr 4
      pure (some (snapshotB qs bits h.grk h.grn ke ne))
    else pure none)
  let know := (← get).knowOf l.place.party
  let toks ← l.memberTokens ms
  let loc (x : Nat × Nat) : Lease := { loc := (s.localLoc l.t l.g.bay (if mxLnd w then 2 else 1) x.1 x.2).getD 0, len := x.2 }
  let op : MatrixOp :=
    { num := s.nextMx, bay := l.g.bay, team := l.t.key, grp := l.g.num, path := l.g.slotOf l.who, place := l.place, kind := kind
      word := l.e.passed, head := l.e.off, obj := l.entry.view.obj, tag := l.entry.tag, acc := w.accNo, fmt := BitVec.ofNat 64 f
      grk := h.grk, grn := h.grn, me := me, ne := ne, ke := ke, b := b, lnd := mxLnd w, offset := o.offset, stride := o.stride
      all := kind == .zero && w.imm.getLsbD 0, counted := counted, jobs := o.jobs, su := o.su, scaleRec := o.scaleRec, g0 := o.g0
      row0 := o.row0, col0 := o.col0, imgRows := o.imgRows, imgCols := o.imgCols, sid := o.sid, steps := o.steps
      leases := o.ranges.map loc, begun := false, imaged := (l.g.eng l.who).imaged, known := know.known, lifted := know.lifted
      toks := toks.filter fun x => !x.counters.isEmpty }
  modify fun s => { s with nextMx := s.nextMx + 1, mqueue := s.mqueue ++ [op] }
  if kind.product || kind == .ldb then mapTeamM l.t.key fun t =>
    { t with subst := t.subst ||| (if kind == .ldb then 0 else substBit (fmtAF f)) ||| substBit (fmtBF f) }
  modify fun s => ms.foldl (fun s m => s.mapGroup l.t.key m.g.num fun g => { (g.stirred.mapEng (.c m.path) fun e =>
        { e.pass (swBytes m.w) with passed := if l.entry.view.service then e.passed else e.passed + 1 }) with
      ganged := if kind.ganged then g.ganged + 1 else g.ganged, meet := none }) s

/-- A matrix word: its token waits, then its meeting, which a solo gang and a word that is not ganged make at once. -/
def mxWord (kind : MatrixKind) (w : SW) (s : State) : Out :=
  runEngine (fun l => do
    if l.e.latch.isNone then do
      l.begin w [] 8
      pure false
    else do
      let g ← l.group
      need (decide (g.liveSlots.length ≤ 1)) cSTRAND_ILLEGAL
      if kind.ganged && g.gang != 0 then do
        if l.t.phase != .stepping then
          l.mapGroup fun g => { (g.mapEng l.who fun e => { e with arrived := true }) with meet := some (kind, w) }
        waitOn .matrix
      else do
        mxMeet l kind w [{ g := g, path := l.g.slotOf l.who, w := w, quarters := 15 }]
        pure true) s

def execMxLdb (w : SW) (s : State) : Out := mxWord .ldb w s
def execMxMma (w : SW) (s : State) : Out := mxWord .mma w s
def execMxMmas (w : SW) (s : State) : Out := mxWord .mmas w s
def execMxGmma (w : SW) (s : State) : Out := mxWord .gmma w s
def execMxZero (w : SW) (s : State) : Out := mxWord .zero w s
def execMxLdacc (w : SW) (s : State) : Out := mxWord .ldacc w s
def execMxStacc (w : SW) (s : State) : Out := mxWord .stacc w s
def execMxRstep (w : SW) (s : State) : Out := mxWord .rstep w s
def execMxRsave (w : SW) (s : State) : Out := mxWord .rsave w s
def execMxRload (w : SW) (s : State) : Out := mxWord .rload w s

/-- The members of a gang that have come to the rendezvous of an anchor. -/
def gangMeeting (t : Team) (g : Group) : Option (List Member) :=
  ((gangMembers g.gang g.num).map fun m => do
    let x ← t.group? m.1
    let (_, w) ← x.meet
    let p ← x.liveSlots.head?
    if (x.pathAt p).c.arrived && x.ganged == g.ganged then some { g := x, path := p, w := w, quarters := m.2 } else none).foldr
      (fun a b => match a, b with | some x, some xs => some (x :: xs) | _, _ => none) (some [])

/-- GANG_RENDEZVOUS: every member of the anchor's gang stands at its ganged word with the same count (R252). -/
def execGangRendezvous (team grp : Nat) (s : State) : Out :=
  runEvent (fun s => do
    let t ← s.team? team
    let g ← t.group? grp
    let (kind, w) ← g.meet
    let ms ← gangMeeting t g
    let p ← g.liveSlots.head?
    let entry ← t.entryAt (g.eng (.c p)).entry
    if t.phase == .running && g.gang != 0 && gangMember g.gang 0 % 32 == grp then
      match mxMeet (lnOf t g (.c p) entry) kind w ms s with
      | .ok (_, s') => some s'
      | .error (.trap c) => some (s.laneTrap team grp (.c p) false c)
      | .error _ => none
    else none) s

/-! ### Accumulation (R260 to R265, R273) -/

/-- An operand of a product: its value, and the NaN that it gives. -/
abbrev MxElem := FVal × Nat

/-- An element as the update reads it (R76, R262). -/
def mxElem (fmt : Nat) (acc : Fp) (code : Nat) : MxElem :=
  match fmtKind fmt with
  | .float f => (unpackFp f code, if f = acc then quieted f code else 0x7FC00000)
  | .subst f _ => (unpackFp fpE4m3 (widenCode f code), 0x7FC00000)
  | _ =>
    let x := signedOf (fmtBits fmt) code
    (.fin (decide (x < 0)) x.natAbs 0, 0)

/-- The first NaN among a_k, b_k over rising k. -/
def prodNaN : List (MxElem × MxElem) → Option Nat
  | [] => none
  | (a, b) :: rest => if a.1 == .nan then some a.2 else if b.1 == .nan then some b.2 else prodNaN rest

def sumDy (vs : List FVal) : Dy := vs.foldl (fun x v => x.add v.dy) { num := 0, exp := 0 }

/-- One rounding of an element: `accs` is its code, or its hi and lo under COMP; `d` the decay; the products enter one by one (fused),
or as the exact sum of their chunk. -/
def mxStep (f : Fp) (comp fused : Bool) (origin : Nat) (accs : List Nat) (d : Option Nat) (ps : List (MxElem × MxElem)) : List Nat :=
  let out (x : Nat) : List Nat := if comp then [x, 0] else [x]
  match (((accs ++ d.toList).find? (isNaN f)).map (quieted f)).or (prodNaN ps) with
  | some n => out n
  | none =>
    let av := accs.map fun c => match d with | none => some (unpackFp f c) | some x => mulVal (unpackFp f x) (unpackFp f c)
    let pv := ps.map fun p => mulVal p.1.1 p.2.1
    if (av ++ pv).any (·.isNone) then out origin
    else
      let av := av.filterMap id
      let pv := pv.filterMap id
      let infs := (av ++ pv).filter FVal.isInf
      if infs.any FVal.negative && infs.any fun v => !v.negative then out origin
      else match infs.head? with
        | some v => out (infOf f v.negative)
        | none =>
          let t := sumDy pv
          let x := (sumDy av).add t
          let signs := if fused then pv.map FVal.negative else [decide (t.num < 0)]
          let hi := roundDy f 0 false (zeroSumSign 0 (av.map FVal.negative ++ signs)) x
          if !comp then [hi]
          else if (unpackFp f hi).isInf then [hi, 0]
          else [hi, roundDy f 0 false false (x.add (unpackFp f hi).dy.neg)]

/-- The steps of an element over the products by k, in chunks; a missing product is an expanded zero (R268). -/
def mxChunks (f : Fp) (comp fused : Bool) (origin size : Nat) : Nat → List Nat → Option Nat → List (Option (MxElem × MxElem)) → List Nat
  | 0, accs, _, _ => accs
  | _ + 1, accs, _, [] => accs
  | fuel + 1, accs, d, ps =>
    mxChunks f comp fused origin size fuel (mxStep f comp fused origin accs d ((ps.take size).filterMap id)) none (ps.drop size)

/-! ### Running an operation (R257) -/

/-- A code of an operand in pad or lnd at a bit of a row, read as one unit. -/
def State.opCode (s : State) (t : Team) (m : MatrixOp) (off bit bits : Nat) : Nat × State :=
  let o := off + bit / 8
  let n := (bit % 8 + bits + 7) / 8
  match s.localLoc t m.bay (if m.lnd then 2 else 1) o n with
  | none => (0, s)
  | some loc =>
    let (bs, s) := s.readWith m.place m.known m.lifted [] none loc n
    (readValue bs / 2 ^ (bit % 8) % 2 ^ bits, s)

/-- `n` codes from element `k` on. -/
def State.opCodes (s : State) (t : Team) (m : MatrixOp) (off bits k : Nat) : Nat → List Nat × State
  | 0 => ([], s)
  | n + 1 =>
    let (x, s) := s.opCode t m off (k * bits) bits
    let (xs, s) := s.opCodes t m off bits (k + 1) n
    (x :: xs, s)

/-- An A row; the expanded zeros of a 2:4 row are none (R267, R268). -/
def State.opRow (s : State) (t : Team) (m : MatrixOp) (a : Nat) : List (Option Nat) × State :=
  let bits := fmtBits (fmtAF m.fmt.toNat)
  let rb := packedBytes bits m.grk
  if m.kind = .mmas then
    let n := (m.ke + 3) / 4
    let o := m.offset + a * (rb / 2 + m.grk / 8)
    let (vs, s) := s.opCodes t m o bits 0 (2 * n)
    let (ns, s) := s.opCodes t m (o + rb / 2) 4 0 n
    let quad (i : Nat) : List (Option Nat) :=
      let p := ns.getD i 0
      let z : List (Option Nat) := [none, none, none, none]
      (z.set (p % 4) (some (vs.getD (2 * i) 0))).set (p / 4) (some (vs.getD (2 * i + 1) 0))
    (((List.range n).flatMap quad).take m.ke, s)
  else
    let (vs, s) := s.opCodes t m (m.offset + a * rb) bits 0 m.ke
    (vs.map some, s)

/-- The codes of an element of a tile or a pair, with COMP as hi and lo (R248). -/
def State.accCodes (s : State) (m : MatrixOp) (r c : Nat) : List Nat :=
  let x := (s.tileGet m.bay m.team m.acc r c).toNat
  let y := (s.tileGet m.bay m.team (m.acc + 1) r c).toNat
  if fmtACCF m.fmt.toNat = 1 then [x + y * 2 ^ 32] else if fmtCOMP m.fmt.toNat then [x, y] else [x]

def State.putAcc (s : State) (m : MatrixOp) (r c : Nat) (v : List Nat) : State :=
  if fmtACCF m.fmt.toNat = 1 then
    (s.tileSet m.bay m.team m.acc r c (BitVec.ofNat 32 (v.headD 0))).tileSet m.bay m.team (m.acc + 1) r c
      (BitVec.ofNat 32 (v.headD 0 / 2 ^ 32))
  else
    let s := s.tileSet m.bay m.team m.acc r c (BitVec.ofNat 32 (v.headD 0))
    if fmtCOMP m.fmt.toNat then s.tileSet m.bay m.team (m.acc + 1) r c (BitVec.ofNat 32 (v.getD 1 0)) else s

/-- The origin NaN of an element (R83, R262). -/
def MatrixOp.origin (m : MatrixOp) (c : Nat) : Nat :=
  let h := originHash m.obj m.head
  if fmtACCF m.fmt.toNat = 1 then originNaN64 false (c % 64) h else originNaN32 (c % 64) h

/-- The scale and the zero point of each group of a row, read once for the row (R263, R264). -/
def State.rowScales (s : State) (m : MatrixOp) (a : Nat) : Nat → List (Nat × Int) × State
  | 0 => ([], s)
  | g + 1 =>
    let (xs, s) := s.rowScales m a g
    let img := m.su.getD 0
    let (sc, s) := s.scaleRead m.bay m.team m.imaged (img + 64 + a * recSstride m.scaleRec + 2 * (m.g0 + g)) 2
    let (z, s) := if recZp m.scaleRec then s.scaleRead m.bay m.team m.imaged (img + recZoff m.scaleRec + a * recZstride m.scaleRec + (m.g0 + g)) 1
      else (0, s)
    (xs ++ [(sc, signedOf 8 z)], s)

/-- The decay vector, element by element (R273); none where the word names none. -/
def State.decays (s : State) (m : MatrixOp) : Nat → List (Option Nat) × State
  | 0 => ([], s)
  | c + 1 =>
    let (xs, s) := s.decays m c
    match m.su with
    | none => (xs ++ [none], s)
    | some o =>
      let (d, s) := s.scaleRead m.bay m.team m.imaged (o + 4 * c) 4
      (xs ++ [some d], s)

/-- A group of a scaled format as one product s · T (R263). -/
def scaledGroup (m : MatrixOp) (sz : Nat × Int) (g : Nat) (row : List (Option Nat)) (col : List Nat) : MxElem × MxElem :=
  let f := m.fmt.toNat
  let size := groupSize f
  let bits := fmtBits (fmtAF f)
  let h4 := fmtAF f == 0x0A
  let term (k : Nat) : Int :=
    match row.getD k none with
    | none => 0
    | some q => (if h4 then 2 * signedOf bits q + 1 else signedOf bits q - sz.2) * signedOf (fmtBits (fmtBF f)) (col.getD k 0)
  let tt := (((List.range size).map fun i => g * size + i).filter fun k => decide (k < m.ke)).foldl (fun x k => x + term k) 0
  (mxElem 0x02 fp32 sz.1, (.fin (decide (tt < 0)) tt.natAbs (if h4 then -1 else 0), 0))

/-- Groups of the effective K (R263). -/
def MatrixOp.groups (m : MatrixOp) : Nat := (m.ke + groupSize m.fmt.toNat - 1) / groupSize m.fmt.toNat

/-- The new codes of an element under a product (R260, R261, R263, R265, R273): `scales` of the A row, `d` the column's decay. -/
def updateElem (m : MatrixOp) (scales : List (Nat × Int)) (d : Option Nat) (row : List (Option Nat)) (col : List Nat) (c : Nat)
    (accs : List Nat) : List Nat :=
  let f := m.fmt.toNat
  if fmtACCF f = 0x0B then
    let t := (row.zip col).foldl (fun (x : Int) p => match p.1 with
      | none => x
      | some q => x + signedOf (fmtBits (fmtAF f)) q * signedOf (fmtBits (fmtBF f)) p.2) 0
    [wrapOf 32 ((accs.headD 0 : Int) + t)]
  else
    let acc := if fmtACCF f = 1 then fp64 else fp32
    if fmtSCL f then
      mxChunks acc (fmtCOMP f) true (m.origin c) 1 m.groups accs d
        ((List.range m.groups).map fun g => some (scaledGroup m (scales.getD g (0, 0)) g row col))
    else
      let fused := decide (fmtAF f ≤ 1)
      mxChunks acc (fmtCOMP f) fused (m.origin c) (if fused then 1 else 32) m.ke accs d ((row.zip col).map fun p =>
        p.1.map fun q => (mxElem (fmtAF f) acc q, mxElem (fmtBF f) acc p.2))

/-- B as the operation uses it: its snapshot, or the pinned B. -/
def State.opB (s : State) (m : MatrixOp) : List Nat :=
  match m.b with
  | some b => b
  | none => match s.matrixSlot? m.bay m.team with | some x => x.b | none => []

/-- The products of an operation, job by job. -/
def State.runJobs (s : State) (t : Team) (m : MatrixOp) (decay : List (Option Nat)) (cols : List (List Nat)) : List (Nat × Nat) → State
  | [] => s
  | (a, r) :: rest =>
    let (row, s) := s.opRow t m a
    let (scales, s) := if fmtSCL m.fmt.toNat then s.rowScales m a m.groups else ([], s)
    let s := (List.range m.ne).foldl (fun s c =>
      s.putAcc m r c (updateElem m scales (decay.getD c none) row (cols.getD c []) c (s.accCodes m r c))) s
    s.runJobs t m decay cols rest

/-- The writes that the operation's engine and the other paths' C engines of its group have made: those of earlier matrix words, all of
which happen before its accesses (R257, R302). -/
def State.madeBy (s : State) (p : Place) : List Nat :=
  (s.writes.filter fun w => w.place.same p || (w.place.inst == p.inst && w.place.team == p.team && w.place.grp == p.grp &&
    (match w.place.party with | .engine _ _ _ .c => true | _ => false))).map (·.id)

/-- A write of the operation, in the place of its anchor. -/
def State.opWrite (s : State) (t : Team) (m : MatrixOp) (off : Nat) (bytes : List Byte) : State :=
  match s.localLoc t m.bay (if m.lnd then 2 else 1) off bytes.length with
  | none => s
  | some loc =>
    let own := s.madeBy m.place
    let (id, s) := s.writeWith m.place (unionIds m.known own) (unionIds m.lifted own) [] loc bytes
    s.learn m.place.party id

/-- The value that `mx.stacc` writes, and the origin that it offers (R271): of a pair, hi + lo taken exactly, whose NaNs and invalid sum
follow R83, R85 and R86. -/
def storedElem (f origin : Nat) (accs : List Nat) : Nat × Option NanOffer :=
  let out := fmtOUTF f
  let convert (c : Nat) : Nat × Option NanOffer := convertFmt (fmtACCF f) out (fmtRND f) (fmtSAT f) c
  let hi := accs.headD 0
  let lo := accs.getD 1 0
  if !fmtCOMP f then convert hi
  else match firstNaN fp32 [hi, lo] with
    | some n => convert n
    | none =>
      let x := unpackFp fp32 hi
      let y := unpackFp fp32 lo
      match [x, y].filter FVal.isInf, fmtKind out with
      | [], .float d => (roundDy d (fmtRND f) (fmtSAT f) (zeroSumSign (fmtRND f) [x.negative, y.negative]) (x.dy.add y.dy), none)
      | [], _ => (0, none)
      | v :: vs, .float d => if vs.all fun u => u.negative == v.negative then (convertInf d (fmtSAT f) v.negative, none) else convert origin
      | _, _ => (0, none)

/-- Elements (r, c) of a region in rising r, then c. -/
def regionElems (me ne : Nat) : List (Nat × Nat) := (List.range me).flatMap fun r => (List.range ne).map fun c => (r, c)

def State.setSteps (s : State) (m : MatrixOp) (v : W32) : State := s.mapTile m.bay m.team m.acc fun x => { x with steps := v }

/-- What an operation does. -/
def State.runOp (s : State) (t : Team) (m : MatrixOp) : State :=
  let f := m.fmt.toNat
  let comp := fmtCOMP f
  match m.kind with
  | .ldb => { s with slots := s.slots.map fun x => if x.bay == m.bay && x.team == m.team then
      { x with pinned := true, grk := m.grk, grn := m.grn, bf := fmtBF f, b := m.b.getD [] } else x }
  | .zero =>
    let es := if m.all then regionElems 128 128 else regionElems m.me m.ne
    (es.foldl (fun s x => s.putAcc m x.1 x.2 [0, 0]) s).setSteps m 0
  | .ldacc =>
    let e := if fmtACCF f = 1 then 8 else 4
    ((regionElems m.me m.ne).foldl (fun s x =>
      let (v, s) := s.opCode t m (m.offset + x.1 * m.stride + x.2 * e) 0 (8 * e)
      s.putAcc m x.1 x.2 [v, 0]) s).setSteps m 0
  | .stacc =>
    let e := fmtBits (fmtOUTF f) / 8
    (regionElems m.me m.ne).foldl (fun s x =>
      let (v, offer) := storedElem f (m.origin x.2) (s.accCodes m x.1 x.2)
      let s := s.opWrite t m (m.offset + x.1 * m.stride + x.2 * e) (leBytes e v)
      match offer with
      | some o => s.mapTeam m.team fun t => t.offerOrigin o.fmt o.helm o.lane m.grp o.hash
      | none => s) s
  | .rsave =>
    let e := if comp then 8 else 4
    let steps := match s.tile? m.bay m.team m.acc with | some x => x.steps.toNat | none => 0
    let head := steps * 2 ^ 96 + m.sid % 2 ^ 32 * 2 ^ 64 + (m.imgCols - 1) * 2 ^ 56 + (m.imgRows - 1) * 2 ^ 48 + b2n comp * 2 ^ 8
    let s := (leBytes 64 head).zipIdx.foldl (fun s x => s.opWrite t m (m.offset + x.2) [x.1]) s
    (regionElems m.me m.ne).foldl (fun s x =>
      let o := m.offset + 64 + ((m.row0 + x.1) * m.imgCols + m.col0 + x.2) * e
      let v := s.accCodes m x.1 x.2
      let s := s.opWrite t m o (leBytes 4 (v.headD 0))
      if comp then s.opWrite t m (o + 4) (leBytes 4 (v.getD 1 0)) else s) s
  | .rload =>
    let e := if comp then 8 else 4
    ((regionElems m.me m.ne).foldl (fun s x =>
      let o := m.offset + 64 + ((m.row0 + x.1) * m.imgCols + m.col0 + x.2) * e
      let (v, s) := s.opCode t m o 0 32
      let (u, s) := if comp then s.opCode t m (o + 4) 0 32 else (0, s)
      s.putAcc m x.1 x.2 [v, u]) s).setSteps m m.steps
  | k =>
    let b := s.opB m
    let cols := (List.range m.ne).map fun c => (List.range m.ke).map fun i => b.getD (i + c * m.grk) 0
    let (decay, s) := if k = .rstep then s.decays m m.ne else ([], s)
    let s := s.runJobs t m decay cols m.jobs
    if k = .rstep then
      s.mapTile m.bay m.team m.acc fun x => { x with steps := x.steps + 1 }
    else s

/-! ### MATRIX_OP_START, MATRIX_OP_COMPLETE (R249, R257, R258) -/

/-- The array takes the oldest operation when it runs none. An operation of a frozen team stays in its slot, and those behind it wait. -/
def execMatrixOpStart (bay : Nat) (s : State) : Out :=
  runEvent (fun s => do
    let mine := s.mqueue.filter fun m => m.bay == bay
    let m ← mine.head?
    let t ← s.team? m.team
    if (mine.any fun m => m.begun) || !(t.resident && t.phase == .running) then none
    else some { s with mqueue := s.mqueue.map fun x => if x.num == m.num then { x with begun := true } else x }) s

def execMatrixOpComplete (bay : Nat) (s : State) : Out :=
  runEvent (fun s => do
    let m ← s.mqueue.find? fun m => m.bay == bay && m.begun
    let t ← s.team? m.team
    let before := s.nextWrite
    let own := s.madeBy m.place
    let m := { m with known := unionIds m.known own, lifted := unionIds m.lifted own }
    let s := s.runOp t m
    let made := (s.writes.filter fun w => decide (before ≤ w.id) && !w.bottom).map (·.id)
    let s := { s with mqueue := s.mqueue.filter fun x => x.num != m.num }
    -- every C path of the group comes after the operation (R302)
    let s := match t.group? m.grp with
      | some g => (g.liveSlots.filter fun p => m.inStrand t.key g.num p).foldl (fun s p =>
          made.foldl (fun (s : State) i => s.learn (.engine t.key g.num p .c) i) s) s
      | none => s
    let s := if m.counted then s.mapTeam m.team fun t =>
        { t with mxPast := { known := unionIds t.mxPast.known (unionIds m.known made), lifted := unionIds t.mxPast.lifted (unionIds m.lifted made) } }
      else s
    let s := m.toks.foldl (fun s x => s.mapGroup m.team x.grp fun g =>
      let k := { x.tok with known := unionIds x.tok.known made, lifted := unionIds x.tok.lifted made }
      Group.payOwed { g with owed := g.owed ++ x.counters.map fun c => (x.path, c, k) }) s
    -- whatever waits on the queue, a lease or a counter looks again
    some { s with teams := s.teams.map fun t => { t with groups := t.groups.map Group.stirred
                                                         waitFor := if t.waitFor = some .matrix then none else t.waitFor } }) s

/-! ### fmt.set (R272) -/

def execFmtSet (a : GReg) (n : BitVec 4) (s : State) : Out :=
  runHelm 8 (fun t => do
    mapTeamM t.key fun u => { u with fmts := u.fmts.set n.toNat (t.reg a) }
    pure .seq) s

end Sys2Proof.Machine
end

