-- ==== Sys2Proof/Machine/Rings.lean ====
section
/-! DEFINITION. Rings (08_local.md R234 to R244). -/

namespace Sys2Proof.Machine

/-! ### Descriptors and maps (R234 to R236) -/

def Ring.count (r : Ring) : Nat := r.cntm1 + 1
def Ring.size (r : Ring) : Nat := 64 * 2 ^ r.szc

/-- The difference of two counts of 32 bits (R234). -/
def countDiff (a b : Nat) : Nat := (a + 2 ^ 32 - b) % 2 ^ 32

/-- A count after one more slot. -/
def countNext (a : Nat) : Nat := (a + 1) % 2 ^ 32

def State.ringAt (s : State) (bay desc : Nat) : Option Ring := s.rings.find? fun r => r.bay == bay && r.desc == desc

/-- How often a descriptor has returned to its bay. -/
def State.ringGen (s : State) (bay desc : Nat) : Nat := match s.ringAt bay desc with | some r => r.gen | none => 0

/-- The valid ring that a map entry names. -/
def State.ringOf (s : State) (t : Team) (k : Nat) : Option Ring :=
  match (t.rings[k]?).join with
  | none => none
  | some m => (s.ringAt m.bay m.desc).filter fun r => r.valid && r.gen == m.gen

def State.setRing (s : State) (r : Ring) : State :=
  { s with rings := r :: s.rings.filter fun x => !(x.bay == r.bay && x.desc == r.desc) }

/-- The descriptors of a team return to their bays (R236). -/
def State.returnRings (s : State) (key : Nat) : State :=
  { s with rings := s.rings.map fun r => if r.valid && r.team == key then { r with valid := false, gen := r.gen + 1, waiters := [], ended := [] } else r }

/-- The waiting parties of a ring look again. -/
def State.wakeRing (s : State) (r : Ring) : State :=
  r.waiters.foldl (fun s w => match w.1 with
    | .helm k => s.mapTeam k fun t => { t with waitFor := none }
    | .engine k g p e => s.mapGroup k g fun g => g.mapEng (match e with | .l => .l | .s => .s | .c => .c p) fun e => { e with waitFor := none }
    | _ => s) s

/-! ### rg.init (R237) -/

/-- The limit of a space for a range from an offset on fails (R227). -/
def State.ringBeyond (s : State) (t : Team) (space seg base n : Nat) : Bool :=
  if space = 3 then decide (base + n > segLimit (t.seg (if seg = 0 then 4 else seg)))
  else (s.localLoc t t.bay (space + 1) base n).isNone

def execRgInit (a : GReg) (ring : BitVec 4) (space : BitVec 2) (seg : BitVec 4) (base : W32) (s : State) : Out :=
  runHelm 8 (fun t => do
    let x := (t.reg a).toNat
    let szc := x % 16
    let cnt := bitsOf x 11 4
    let s ← get
    let cur := s.ringOf t ring.toNat
    let free := (List.range 16).filter fun d => match s.ringAt t.bay d with | some r => !r.valid | none => true
    need (decide (szc ≤ 10) && cnt != 0 && x / 2 ^ 12 == 0 && base.toNat % 64 == 0) cRING_PROTOCOL
    match cur with
    | some r => need (r.team == t.key && r.waiters.isEmpty) cRING_PROTOCOL
    | none => need (!free.isEmpty) cRING_PROTOCOL
    let n := (cnt + 1) * (64 * 2 ^ szc)
    if s.ringBeyond t space.toNat seg.toNat base.toNat n then
      raise cSEG_LIMIT (if space = 3 then segBase (t.seg (if seg = 0 then 4 else seg.toNat)) + base.toNat else base.toNat) 0 true
    let i ← (match cur with | some _ => pure 0 | none => choose free.length)
    let (bay, desc) := match cur with | some r => (r.bay, r.desc) | none => (t.bay, free.getD i 0)
    let gen := s.ringGen bay desc
    modify fun s => s.setRing
      { bay := bay, desc := desc, gen := gen, valid := true, team := t.key, base := base.toNat, cntm1 := cnt, szc := szc
        seg := if space = 3 && seg == 0 then 4 else seg.toNat, space := space.toNat, eos := false, abort := false, head := 0, tail := 0, taken := 0, claimed := 0
        slots := List.replicate (cnt + 1) 0, waiters := [], ended := (cur.map (·.ended)).getD [], commits := List.replicate (cnt + 1) none
        frees := List.replicate (cnt + 1) none, headReleases := [], eosRelease := none }
    mapTeamM t.key fun t => { t with rings := t.rings.set ring.toNat (some { bay := bay, desc := desc, gen := gen }) }
    pure .seq) s

/-! ### The operations (R238 to R241) -/

/-- A ticket: of a slot, or NULL with ABORT or EOS. -/
inductive Ticket where
  | slot (n : Nat)
  | aborted
  | ended
deriving DecidableEq, Repr

/-- The 32 bits that a ticket word writes: a slot's address, modulo 2^32 (log 107), or all ones. -/
def Ticket.address (r : Ring) (k : Ticket) : Nat := match k with | .slot n => (r.base + n * r.size) % 2 ^ 32 | _ => 0xFFFFFFFF

def Ticket.helm (r : Ring) (k : Ticket) : W64 :=
  BitVec.ofNat 64 (k.address r + match k with
    | .slot n => n * 2 ^ 32
    | .aborted => 2 ^ 63 + 2 ^ 61 + 0xFFFF * 2 ^ 32
    | .ended => 2 ^ 62 + 2 ^ 61 + 0xFFFF * 2 ^ 32)

/-- The valid ring of an index; a stale or invalid entry traps. -/
def needRing (t : Team) (k : Nat) : M Ring := do
  let s ← get
  match s.ringOf t k with
  | some r => pure r
  | none => raise cRING_PROTOCOL

def setRingM (r : Ring) : M Unit := modify fun s => s.setRing r

/-- No other party of the kind has waited longer. -/
def Ring.myTurn (r : Ring) (p : Party) (claim : Bool) : Bool :=
  match r.waiters.find? fun w => w.2 == claim with
  | none => true
  | some w => w.1 == p

def Ring.leave (r : Ring) (p : Party) : Ring :=
  { r with waiters := r.waiters.filter (fun w => w.1 != p), ended := r.ended.filter fun w => w.1 != p }

/-- The party joins the waiters, in order of arrival. -/
def ringWait {α : Type} (r : Ring) (p : Party) (claim : Bool) : M α := do
  setRingM (if r.waiters.contains (p, claim) then r else { r with waiters := r.waiters ++ [(p, claim)] })
  waitOn (.ring r.bay r.desc claim)

/-- How a wait of the party on the ring was ended: by an abort, or else by an eos. -/
def Ring.endedFor (r : Ring) (p : Party) : Option Bool := (r.ended.find? fun w => w.1 == p).map (·.2)

/-- Claim: the ticket, and the releases that it meets. -/
def ringClaim (p : Party) (r : Ring) : M (Ticket × List Release) := do
  if r.endedFor p == some true || (r.endedFor p).isNone && r.abort then do
    setRingM (r.leave p)
    pure (.aborted, [])
  else do
    need (!r.eos && (r.endedFor p).isNone) cRING_PROTOCOL
    if !(decide (countDiff r.claimed r.tail < r.count) && r.myTurn p true) then ringWait r p true
    let n := r.claimed % r.count
    let r := r.leave p
    setRingM { r with slots := r.slots.set n 1, claimed := countNext r.claimed }
    modify fun s => s.wakeRing r
    pure (.slot n, ((r.frees[n]?).join).toList)

/-- The releases of the commits up to the slot that is taken next, in HEAD order (R241). -/
def Ring.taking (r : Ring) : List Release := r.headReleases.take (r.headReleases.length + 1 - countDiff r.head r.taken)

/-- Wait-fill. -/
def ringWfill (p : Party) (r : Ring) : M (Ticket × List Release) := do
  if (r.endedFor p).isSome || r.abort then do
    setRingM (r.leave p)
    pure (.aborted, [])
  else if decide (r.taken != r.head) && r.myTurn p false then do
    let n := r.taken % r.count
    let r' := r.leave p
    setRingM { r' with slots := r.slots.set n 3, taken := countNext r.taken }
    modify fun s => s.wakeRing r'
    pure (.slot n, r.taking)
  else if r.eos && r.taken == r.head && r.head == r.claimed then do
    setRingM (r.leave p)
    pure (.ended, r.eosRelease.toList)
  else ringWait r p false

/-- The slot that a ticket address names (R238). -/
def Ring.slotOf (r : Ring) (v : Nat) : Option Nat := (List.range r.count).find? fun n => Ticket.address r (.slot n) == v

/-- Advances HEAD over contiguous full slots. -/
def Ring.advanceHead : Nat → Ring → Ring
  | 0, r => r
  | n + 1, r =>
    let i := r.head % r.count
    if r.head != r.claimed && r.slots.getD i 0 == 2 then
      Ring.advanceHead n { r with head := countNext r.head, headReleases := r.headReleases ++ ((r.commits[i]?).join).toList }
    else r

/-- Advances TAIL over contiguous empty slots. -/
def Ring.advanceTail : Nat → Ring → Ring
  | 0, r => r
  | n + 1, r => if r.tail != r.taken && r.slots.getD (r.tail % r.count) 0 == 0 then Ring.advanceTail n { r with tail := countNext r.tail } else r

def ringCommit (r : Ring) (v : Nat) (rel : Release) : M Unit :=
  if v = 0xFFFFFFFF ∨ r.abort then pure ()
  else match (r.slotOf v).filter fun n => r.slots.getD n 0 == 1 with
    | none => raise cRING_PROTOCOL
    | some n => do
      let r := Ring.advanceHead 256 { r with slots := r.slots.set n 2, commits := r.commits.set n (some rel) }
      setRingM r
      modify fun s => s.wakeRing r

def ringRelease (r : Ring) (v : Nat) (rel : Release) : M Unit :=
  if v = 0xFFFFFFFF ∨ r.abort then pure ()
  else match (r.slotOf v).filter fun n => r.slots.getD n 0 == 3 with
    | none => raise cRING_PROTOCOL
    | some n => do
      let r := Ring.advanceTail 256 { r with slots := r.slots.set n 0, frees := r.frees.set n (some rel) }
      setRingM r
      modify fun s => s.wakeRing r

/-- An eos ends the waits of claims, which then trap. -/
def ringEos (r : Ring) (rel : Release) : M Unit := do
  let claims := (r.waiters.filter (·.2)).map fun w => (w.1, false)
  setRingM { r with eos := true, eosRelease := some rel, waiters := r.waiters.filter (fun w => !w.2), ended := r.ended ++ claims }
  modify fun s => s.wakeRing r

/-- An abort ends every wait on the ring: an `rg.init` may follow at once. -/
def ringAbort (r : Ring) : M Unit := do
  setRingM { r with abort := true, waiters := [], ended := (r.ended ++ r.waiters).map fun w => (w.1, true) }
  modify fun s => s.wakeRing r

/-- STAT (R240). -/
def Ring.stat (r : Ring) : Nat :=
  countDiff r.head r.taken % 2 ^ 9 + countDiff (r.tail + r.count) r.claimed % 2 ^ 9 * 2 ^ 9 + b2n r.eos * 2 ^ 18 + b2n r.abort * 2 ^ 19 + b2n r.valid * 2 ^ 20

/-! ### Helm forms (R242) -/

/-- A release of the helm for a ring word. -/
def helmRelease (t : Team) (scope : Nat) : M Release := do
  modify fun s => s.drainParty t.place.party
  let s ← get
  pure (s.releaseOf t.place scope)

/-- `rg.claim` and `rg.wfill`. DESIGN CHOICE (log 53): PRIV for gd comes before the ring's own checks and waits. -/
def helmTicket (op : Party → Ring → M (Ticket × List Release)) (d : GReg) (ring : BitVec 4) (scope : BitVec 3) (s : State) : Out :=
  runHelm 4 (fun t => do
    needWritable t d
    let r ← needRing t ring.toNat
    let (k, rels) ← op t.place.party r
    match k with
    | .aborted => pure ()
    | _ => helmAcquire t scope.toNat none rels
    setG t.key d (k.helm r)
    pure .seq) s

def execRgClaim (d : GReg) (ring : BitVec 4) (scope : BitVec 3) (s : State) : Out := helmTicket ringClaim d ring scope s
def execRgWfill (d : GReg) (ring : BitVec 4) (scope : BitVec 3) (s : State) : Out := helmTicket ringWfill d ring scope s

/-- `rg.commit`, `rg.release` and `rg.eos`. -/
def helmRingRelease (op : Team → Ring → Release → M Unit) (ring : BitVec 4) (scope : BitVec 3) (s : State) : Out :=
  runHelm 4 (fun t => do
    let r ← needRing t ring.toNat
    let rel ← helmRelease t scope.toNat
    op t r rel
    pure .seq) s

def execRgCommit (a : GReg) (ring : BitVec 4) (scope : BitVec 3) (s : State) : Out :=
  helmRingRelease (fun t r rel => ringCommit r ((t.reg a).toNat % 2 ^ 32) rel) ring scope s

def execRgRelease (a : GReg) (ring : BitVec 4) (scope : BitVec 3) (s : State) : Out :=
  helmRingRelease (fun t r rel => ringRelease r ((t.reg a).toNat % 2 ^ 32) rel) ring scope s

def execRgEos (ring : BitVec 4) (scope : BitVec 3) (s : State) : Out := helmRingRelease (fun _ r rel => ringEos r rel) ring scope s

def execRgAbort (ring : BitVec 4) (s : State) : Out :=
  runHelm 4 (fun t => do
    let r ← needRing t ring.toNat
    ringAbort r
    pure .seq) s

def execRgStat (d : GReg) (ring : BitVec 4) (s : State) : Out :=
  runHelm 4 (fun t => do
    let r ← needRing t ring.toNat
    setG t.key d (BitVec.ofNat 64 r.stat)
    pure .seq) s

/-! ### Strand forms (R243, R244) -/

def ringIndex (w : SW) : Nat := w.va.toNat % 16
def ringScope (w : SW) : Nat := w.va.toNat / 16
def ringReg (w : SW) : Nat := w.vd.toNat % 8

/-- A strand ring word: its effect on the ring that it names. The map entry is looked up before the ticket (R236; log 106). -/
def strandRing (w : SW) (body : Ln → Ring → M Unit) (s : State) : Out :=
  runWord w [] 8 (fun _ => pure ()) (fun l _ => do
    let r ← needRing l.t (ringIndex w)
    body l r) s

/-- `s.rg.claim` and `l.rg.wfill`. -/
def strandTicket (op : Party → Ring → M (Ticket × List Release)) (w : SW) (s : State) : Out :=
  strandRing w (fun l r => do
    let (k, rels) ← op (waiterOf l.t.key l.g.num l.who) r
    match k with
    | .aborted => pure ()
    | _ => laneAcquire l.t l.entry.view.mode l.place (ringScope w) rels
    l.setUniform (ringReg w) (BitVec.ofNat 32 (k.address r))) s

def execLRgWfill (w : SW) (s : State) : Out := strandTicket ringWfill w s
def execSRgClaim (w : SW) (s : State) : Out := strandTicket ringClaim w s

/-- A commit, release or eos: every access of the engine's earlier words is performed first. -/
def strandRelease (w : SW) (op : Ln → Ring → Release → M Unit) (s : State) : Out :=
  strandRing w (fun l r => do
    let ok ← l.performed
    if !ok then waitOn .accesses
    modify fun s => s.drainParty l.place.party
    let s ← get
    op l r (s.releaseOf l.place (ringScope w))) s

def execSRgCommit (w : SW) (s : State) : Out :=
  strandRelease w (fun l r rel => do
    let v ← l.uniform (ringReg w)
    ringCommit r v.toNat rel) s

def releaseSlot (w : SW) (s : State) : Out :=
  strandRelease w (fun l r rel => do
    let v ← l.uniform (ringReg w)
    ringRelease r v.toNat rel) s

def execLRgRelease (w : SW) (s : State) : Out := releaseSlot w s
def execSRgRelease (w : SW) (s : State) : Out := releaseSlot w s

def execSRgEos (w : SW) (s : State) : Out :=
  strandRelease w (fun l r rel => do
    let v ← (if w.vd.getLsbD 3 then l.uniform (ringReg w) else pure 0xFFFFFFFF)
    if v = 0xFFFFFFFF then ringEos r rel) s

def execSRgAbort (w : SW) (s : State) : Out := strandRing w (fun _ r => ringAbort r) s

def statWord (w : SW) (s : State) : Out := strandRing w (fun l r => l.setUniform (ringReg w) (BitVec.ofNat 32 r.stat)) s

def execLRgStat (w : SW) (s : State) : Out := statWord w s
def execSRgStat (w : SW) (s : State) : Out := statWord w s

end Sys2Proof.Machine
end

