-- ==== Sys2Proof/Machine/Copy.lean ====
section
/-! DEFINITION. The copy engines: commands, sectors, faults, collectives, dispatch (10_copy.md R277 to R299). -/

namespace Sys2Proof.Machine

/-! ### Commands and channels (R277, R278) -/

def State.channel (s : State) (bay ch : Nat) : Channel :=
  (s.channels.find? fun c => c.bay == bay && c.ch == ch).getD { bay := bay, ch := ch, nextSeq := 0, after := [], afterLifted := [] }

def State.setChannel (s : State) (c : Channel) : State :=
  { s with channels := c :: s.channels.filter fun x => !(x.bay == c.bay && x.ch == c.ch) }

/-- The commands in a channel's queue: queued ones and the running one. -/
def State.chanQueue (s : State) (bay ch : Nat) : List CopyCmd :=
  s.cmds.filter fun c => c.bay == bay && c.ch == ch && c.state != .held

def State.runningCmd (s : State) (bay ch : Nat) : Option CopyCmd :=
  s.cmds.find? fun c => c.bay == bay && c.ch == ch && c.state == .running

def State.mapCmd (s : State) (bay ch seq : Nat) (f : CopyCmd → CopyCmd) : State :=
  { s with cmds := s.cmds.map fun c => if c.bay == bay && c.ch == ch && c.seq == seq then f c else c }

def State.dropCmd (s : State) (bay ch seq : Nat) : State :=
  { s with cmds := s.cmds.filter fun c => !(c.bay == bay && c.ch == ch && c.seq == seq) }

/-- The command that a channel still runs, or whose record it posts. -/
def State.headCmd (s : State) (bay ch : Nat) : Option CopyCmd :=
  s.cmds.find? fun c => c.bay == bay && c.ch == ch && (c.state == .running || c.state == .posting)

/-- Held slots of a team in use (R279). -/
def State.heldSlots (s : State) (key : Nat) : List Nat :=
  (s.cmds.filter fun c => c.team == key && (c.state == .held || c.state == .posting)).map (·.slot)

/-- Waiting pushes and words look again. -/
def State.wakeCopies (s : State) : State :=
  { s with teams := s.teams.map fun t => { t with waitFor := if t.waitFor = some .copyQueue then none else t.waitFor } }

/-! ### Operands (R282, R283, R292, R294) -/

/-- An address operand: segment number and offset. -/
def opSeg (a : Nat) : Nat := a / 2 ^ 60 % 16
def opOff (a : Nat) : Int := ((a % 2 ^ 48 : Nat) : Int)
def opLegal (a : Nat) : Bool := bitsOf a 59 48 == 0

def CopyCmd.op (c : CopyCmd) (i : Nat) : Nat := (c.ops.getD i 0).toNat
def CopyCmd.rcd (c : CopyCmd) : Nat := c.record.getD 0
def CopyCmd.seg (c : CopyCmd) (a : Nat) : W128 := c.segs.getD (opSeg a) 0

/-- Counts N0 to N3. -/
def CopyCmd.n (c : CopyCmd) (i : Nat) : Nat :=
  match c.record with
  | none => if i = 0 then c.count else 1
  | some r => bitsOf r (32 * i + 31) (32 * i)
/-- Source and destination strides of dimensions 1 to 3. -/
def CopyCmd.sstr (c : CopyCmd) (i : Nat) : Int :=
  match c.record with | none => 0 | some r => signedOf 64 (bitsOf r (64 * i + 127) (64 * i + 64))
def CopyCmd.dstr (c : CopyCmd) (i : Nat) : Int :=
  match c.record with | none => 0 | some r => signedOf 64 (bitsOf r (64 * i + 319) (64 * i + 256))
def CopyCmd.list (c : CopyCmd) : Nat := bitsOf c.rcd 511 448

def CopyCmd.gathers (c : CopyCmd) : Bool := c.cmd == 1
def CopyCmd.scatters (c : CopyCmd) : Bool := c.cmd == 2

/-- Collective record. -/
def CopyCmd.elems (c : CopyCmd) : Nat := bitsOf c.rcd 415 384
def CopyCmd.ranks (c : CopyCmd) : Nat := bitsOf c.rcd 383 376
def CopyCmd.rank (c : CopyCmd) : Nat := bitsOf c.rcd 375 368
def CopyCmd.collFmt (c : CopyCmd) : Nat := bitsOf c.rcd 367 363
def CopyCmd.collOp (c : CopyCmd) : Nat := bitsOf c.rcd 362 360
def CopyCmd.elemBytes (c : CopyCmd) : Nat := if c.collFmt = 3 then 2 else 4
def CopyCmd.chunk (c : CopyCmd) : Nat := c.elems * c.elemBytes
def CopyCmd.cwph (c : CopyCmd) : Nat := bitsOf c.rcd 447 416

/-- Dispatch record. -/
def CopyCmd.rows (c : CopyCmd) : Nat := bitsOf c.rcd 255 232
def CopyCmd.nexp (c : CopyCmd) : Nat := bitsOf c.rcd 231 216
def CopyCmd.gen (c : CopyCmd) : Nat := bitsOf c.rcd 215 200
def CopyCmd.rowBytes (c : CopyCmd) : Nat := bitsOf c.rcd 199 184 + 1
def CopyCmd.pitch (c : CopyCmd) : Nat := bitsOf c.rcd 319 256

/-- Size of the scale image (R291), and its zero-point offset. -/
def imageZoff (r : Nat) : Nat := if recZp r then 64 + 64 * ((2 * recRows r * recGroups r + 63) / 64) else 0
def imageSize (r : Nat) : Nat := if recZp r then imageZoff r + recRows r * recGroups r else 64 + 2 * recRows r * recGroups r
/-- The record that the image holds. -/
def imageRecord (r : Nat) : Nat :=
  imageZoff r * 2 ^ 96 + (if recZp r then recGroups r else 0) * 2 ^ 80 + 2 * recGroups r * 2 ^ 64 + r % 2 ^ 64

/-! ### The issue (R284) -/

/-- A record field, a register field or a COUNT outside its range (step 3). A FMT of a collective record other than f32 and bf16 is such a
field, also an unassigned code (R284, not R66; log 101). -/
def CopyCmd.illegal (c : CopyCmd) : Bool :=
  let r := c.rcd
  bitsOf (c.op 2) 63 44 != 0 || bitsOf (c.op 3) 62 32 != 0 || decide (5 < c.scope) || (decide (2 ≤ c.ord) && !c.wv) ||
  !((c.cmd == 3 || opLegal (c.op 0)) && (c.cmd == 4 || opLegal (c.op 1))) || decide (2 ^ 28 < c.count) ||
  (match c.cmd with
   | 4 => c.count != imageSize r
   | 5 =>
     bitsOf r 359 0 != 0 || decide (2 < c.collOp) || !(c.collFmt == 0 || c.collFmt == 3) || decide (c.ranks ≤ c.rank) ||
     decide (c.ranks < 2) || decide (64 < c.ranks) || c.elems == 0 || decide (2 ^ 24 < c.elems) || !opLegal (bitsOf r 511 448) ||
     c.count != (if c.collOp = 0 then c.chunk else c.ranks * c.chunk)
   | 6 =>
     bitsOf r 183 0 != 0 || c.rows == 0 || c.nexp == 0 || c.rowBytes % 4 != 0 || c.op 1 != 0 || c.count != 0 ||
     !(opLegal (bitsOf r 511 448) && opLegal (bitsOf r 447 384) && opLegal (bitsOf r 383 320))
   | k =>
     c.count == 0 || ((List.range 4).any fun i => c.n i == 0) || c.count != c.n 0 * c.n 1 * c.n 2 * c.n 3 ||
     (k == 3 && ((List.range 3).any fun i => c.sstr (i + 1) != 0)) ||
     ((k == 1 || k == 2) && (c.n 2 != 1 || c.n 3 != 1 || c.sstr 2 != 0 || c.sstr 3 != 0 || c.dstr 2 != 0 || c.list % 4 != 0 ||
       !opLegal c.list)))

/-- The cause with which an access of one byte through a segment fails in its limit or permission (R118). -/
def byteFault (s : State) (t : Team) (bay : Nat) (sg : W128) (o : Int) (write : Bool) : Option Nat :=
  if o < 0 || o ≥ segLimit sg then some cSEG_LIMIT
  else if !(if write then segW sg else segR sg) then some cSEG_PERM
  else if segSpace sg = 0 then none
  else if segSpace sg = 4 then (if t.super && s.dieUp ((segBase sg + o.toNat) / 0x8000) then none else some cSEG_PERM)
  else if (s.localLoc t bay (segSpace sg) (segBase sg + o.toNat) 1).isNone then some cSEG_LIMIT
  else none

/-- A run of bytes through an address operand: offset and length. -/
abbrev Run := Int × Nat

/-- The failing byte of lowest address among runs: its offset and cause. -/
def runsFault (s : State) (t : Team) (bay : Nat) (sg : W128) (write : Bool) (rs : List Run) : Option (Int × Nat) :=
  rs.foldl (fun best r =>
    match (List.range r.2).find? fun (i : Nat) => (byteFault s t bay sg (r.1 + (i : Int)) write).isSome with
    | none => best
    | some i =>
      let o := r.1 + (i : Int)
      match best, byteFault s t bay sg o write with
      | some (p, c), some d => if o < p then some (o, d) else some (p, c)
      | none, some d => some (o, d)
      | b, none => b) none

/-- The rows of a layout: index i1, i2, i3 in stream order. -/
def CopyCmd.index (c : CopyCmd) (row i : Nat) : Nat :=
  match i with
  | 1 => row % c.n 1
  | 2 => row / c.n 1 % c.n 2
  | _ => row / (c.n 1 * c.n 2)
def CopyCmd.rowCount (c : CopyCmd) : Nat := c.n 1 * c.n 2 * c.n 3
def CopyCmd.sourceOff (c : CopyCmd) (row : Nat) : Int :=
  opOff (c.op 0) + c.index row 1 * c.sstr 1 + c.index row 2 * c.sstr 2 + c.index row 3 * c.sstr 3
def CopyCmd.destOff (c : CopyCmd) (row : Nat) : Int :=
  opOff (c.op 1) + c.index row 1 * c.dstr 1 + c.index row 2 * c.dstr 2 + (if c.gathers || c.scatters then 0 else c.index row 3 * c.dstr 3)

/-- The runs that the record and COUNT fix on each side: source, index list, destination, each with its address operand. -/
def CopyCmd.sides (c : CopyCmd) : List (Nat × Bool × List Run) :=
  let rows (f : Nat → Int) : List Run := (List.range c.rowCount).map fun i => (f i, c.n 0)
  match c.cmd with
  | 0 => [(c.op 0, false, rows c.sourceOff), (c.op 1, true, rows c.destOff)]
  | 1 => [(c.list, false, [(opOff c.list, 4 * c.n 1)]), (c.op 1, true, rows c.destOff)]
  | 2 => [(c.op 0, false, rows c.sourceOff), (c.list, false, [(opOff c.list, 4 * c.n 1)])]
  | 3 => [(c.op 1, true, rows c.destOff)]
  | 4 =>
    let r := c.rcd
    [(c.op 0, false, (List.range (recRows r)).map (fun i => (opOff (c.op 0) + ((i * recSstride r : Nat) : Int), 2 * recGroups r)) ++
      (if recZp r then (List.range (recRows r)).map fun i => (opOff (c.op 0) + ((recZoff r + i * recZstride r : Nat) : Int), recGroups r)
       else []))]
  | 5 =>
    let own : Int := ((c.rank * c.chunk : Nat) : Int)
    [(c.op 0, false, [if c.collOp = 1 then (opOff (c.op 0), c.chunk) else (opOff (c.op 0) + own, c.chunk)]),
     (c.op 1, true, [(opOff (c.op 1), c.count)])]
  | _ => [(c.op 0, false, (List.range c.rows).map fun i => (opOff (c.op 0) + ((i * c.pitch : Nat) : Int), c.rowBytes))]

/-- Step 4, side by side. -/
def checkSides (t : Team) (c : CopyCmd) : List (Nat × Bool × List Run) → M Unit
  | [] => pure ()
  | (a, w, rs) :: rest => do
    let s ← get
    match runsFault s t t.bay (c.seg a) w rs with
    | some (o, code) => raise code (wrapOf 64 ((segBase (c.seg a) : Int) + o)) 0 w
    | none => checkSides t c rest

/-- A 64-byte record of the program, in units of 8 bytes (R284). -/
def readRecord (t : Team) (sg : W128) (off : Int) : M Nat := do
  let l ← helmAddress t sg off 64 .read
  let rec go (i : Nat) : Nat → M (List Nat)
    | 0 => pure []
    | n + 1 => do
      let bs ← readSpace t.place t.regionsNow { l with loc := l.loc + i, va := l.va.map (· + i) } 8
      let rest ← go (i + 8) n
      pure (readValue bs :: rest)
  let us ← go 0 8
  pure (us.foldr (fun x y => x + y * 2 ^ 64) 0)

/-- Puts a command at the tail of its channel with the next SEQ, which it answers (R278). -/
def pushCmd (c : CopyCmd) : M Nat := do
  let s ← get
  let ch := s.channel c.bay c.ch
  if decide ((s.chanQueue c.bay c.ch).length ≥ 16) then waitOn .copyQueue
  modify fun s => { (s.setChannel { ch with nextSeq := (ch.nextSeq + 1) % 2 ^ 32 }) with cmds := s.cmds ++ [{ c with seq := ch.nextSeq, state := .queued }] }
  pure ch.nextSeq

/-- The seven data commands (R280 to R284). -/
def copyIssue (cmd : Nat) (d a : GReg) (ch ord : BitVec 2) (seg : BitVec 4) (imm : W32) (s : State) : Out :=
  runHelm 8 (fun t => do
    needWritable t d
    let record ← (if seg = 0 then pure none else do
      let r ← readRecord t (t.seg seg.toNat) imm.toNat
      pure (some r))
    need (cmd != 4 || scaleRecordValid (record.getD 0)) cFORMAT
    let ops := [t.reg a, t.reg (a + 1), t.reg (a + 2), t.reg (a + 3)]
    let ctl := (t.reg (a + 2)).toNat
    let wp := (t.reg (a + 3)).toNat
    let count := bitsOf ctl 39 0
    let s ← get
    let scope := bitsOf ctl 42 40
    let c : CopyCmd :=
      { bay := t.bay, ch := ch.toNat, seq := 0, team := t.key, state := .queued, cmd := cmd, ord := ord.toNat, tag := t.pc.toNat
        obj := t.curObj
        word := BitVec.ofNat 64 (packL 0x0B imm.toNat (cmd + ord.toNat * 2 ^ 4 + ch.toNat * 2 ^ 6) seg.toNat a.toNat d.toNat)
        ops := ops, record := record, segs := t.segs, count := count, scope := scope, ft := bitOf ctl 43, wv := bitOf wp 63
        handle := bitsOf wp 31 0, super := t.super, vector := t.inVector
        nsec := if cmd = 6 then (bitsOf (record.getD 0) 255 232 + 63) / 64 else (count + 1023) / 1024
        complete := [], prior := [], tried := [], failed := [], doneBytes := 0, runBytes := 0, run := 0, replay := false, coll := .go
        granted := none, second := false, first := [], past := Past.none, made := []
        pushed := if ord.getLsbD 0 then some (s.releaseOf t.place scope) else none
        place := t.place, known := [], lifted := [], regions := t.regionsNow, entries := [], lost := [], slot := 0, bmerr := false
        stalled := false }
    need (!c.illegal) cCOPY_FAULT
    checkSides t c c.sides
    if cmd = 4 then do
      let o := bitsOf (c.op 1) 15 0
      if o + imageSize c.rcd > scalePart then raise cSEG_LIMIT (Nat.max o scalePart) 0 true
      need (o % 64 == 0) cMISALIGN o
    if ord.getLsbD 0 then modify fun s => s.drainParty t.place.party
    let q ← pushCmd c
    setG t.key d (BitVec.ofNat 64 (q + ch.toNat * 2 ^ 32))
    pure .seq) s

def execCpCopy (d a : GReg) (ch ord : BitVec 2) (seg : BitVec 4) (imm : W32) (s : State) : Out := copyIssue 0 d a ch ord seg imm s
def execCpGath (d a : GReg) (ch ord : BitVec 2) (seg : BitVec 4) (imm : W32) (s : State) : Out := copyIssue 1 d a ch ord seg imm s
def execCpScat (d a : GReg) (ch ord : BitVec 2) (seg : BitVec 4) (imm : W32) (s : State) : Out := copyIssue 2 d a ch ord seg imm s
def execCpFill (d a : GReg) (ch ord : BitVec 2) (seg : BitVec 4) (imm : W32) (s : State) : Out := copyIssue 3 d a ch ord seg imm s
def execCpScale (d a : GReg) (ch ord : BitVec 2) (seg : BitVec 4) (imm : W32) (s : State) : Out := copyIssue 4 d a ch ord seg imm s
def execCpColl (d a : GReg) (ch ord : BitVec 2) (seg : BitVec 4) (imm : W32) (s : State) : Out := copyIssue 5 d a ch ord seg imm s
def execCpDisp (d a : GReg) (ch ord : BitVec 2) (seg : BitVec 4) (imm : W32) (s : State) : Out := copyIssue 6 d a ch ord seg imm s

/-! ### Starting (R277, R286, R293) -/

/-- What a release of the command covers: the writes of its complete sectors, in every run, and what happens before them (R286). -/
def CopyCmd.covers (c : CopyCmd) : Release :=
  { place := c.place, scope := c.scope, known := unionIds c.known c.past.known, lifted := unionIds c.lifted c.past.lifted }

/-- An arrival of a command at its waypoint, sent to the home (R286, R287, R297). -/
def State.cmdArrive (s : State) (c : CopyCmd) (aspace n bytes lost : Nat) (fault : Bool) (release : Bool) : State :=
  if !c.wv then s
  else
    let rel := release && decide (2 ≤ c.ord)
    let s := if rel then s.drain fun w => c.covers.known.contains w.id else s
    { s with arrivals := s.arrivals ++ [{ handle := c.handle, aspace := aspace, arrivals := n, bytes := bytes % 2 ^ 40, lost := lost, fault := fault, command := some c.team
                                          release := if rel then some c.covers else none }] }

/-- An acquire of a command: its edges, and under MODE = 0 the increment of its bay's landing cache, whose wrap sets SWEPT in the issuing
team's sys.mmcfg (R317, R318; log 91). -/
def State.copyAcquire (s : State) (c : CopyCmd) (place : Place) (rs : List Release) : State :=
  let s := s.acquire place c.scope rs
  if c.regions.isEmpty then
    let (swept, s) := s.bumpCounter (.landing c.bay) c.scope
    if swept then s.mapTeam c.team fun t => { t with mmcfg := t.mmcfg ||| 4 } else s
  else s

/-- The sectors not yet attempted are missing, for an invalid CWPH (R334). -/
def CopyCmd.failRest (c : CopyCmd) : CopyCmd :=
  let rest := (List.range c.nsec).filter fun i => !c.complete.contains i && !c.tried.contains i
  { c with tried := c.tried ++ rest, failed := c.failed ++ rest.map (fun i => (i, cWAYPOINT_PROTOCOL, 0)), coll := .go, second := true }

/-- The arrival at CWPH, and the wait for its phase, at which the channel takes a waiter entry where there is one (R293, R332). -/
def State.collArrive (s : State) (c : CopyCmd) (aspace : Nat) (second : Bool) : CopyCmd × State :=
  match s.waypoint? c.cwph aspace with
  | none => (c.failRest, s)
  | some w =>
    let s := s.drainParty c.place.party
    let s := s.arrive w 1 0 0 false (some (s.releaseOf c.place c.scope))
    let c := { c with coll := .wait second w.phase, granted := none }
    match s.waypoint? c.cwph aspace with
    | none => (c, s)
    | some x => (c, if x.done w.phase || !s.waiterRoom x then s
        else s.mapWaypoint x fun x => { x with waiting := x.waiting ++ [(c.place.party, w.phase)] })

/-- A queued command of the team may start: the team is not frozen, or it is the supervisor's own. -/
def CopyCmd.startable (c : CopyCmd) (t : Team) : Bool := t.resident && (t.phase == .running || (t.phase == .vector && c.vector))

/-- The command that a channel starts next: the first in its queue, whichever team pushed it, which a freeze of its team holds there (R277,
R180, R279). -/
def State.nextStart (s : State) (bay ch : Nat) : Option CopyCmd :=
  let first := (s.chanQueue bay ch).find? fun c => c.state == .queued
  first.filter fun c => match s.team? c.team with | some t => c.startable t | none => false

/-- COPY_COMMAND_START. A command that was saved while it waited for a held slot has no run to make again: it waits on. -/
def execCopyCommandStart (bay ch : Nat) (s : State) : Out :=
  runEvent (fun s => do
    let c ← s.nextStart bay ch
    let t ← s.team? c.team
    if (s.headCmd bay ch).isSome then none
    else if c.stalled then some ((s.mapCmd bay ch c.seq fun c => { c with state := .running }).wakeCopies)
    else
      let run := s.nextRun
      let place := { t.place with party := .copy run }
      let h := s.channel bay ch
      let s := { s with nextRun := run + 1 }
      let s := match c.pushed with | some r => s.copyAcquire c place [r] | none => s
      let k := s.knowOf place.party
      let known := unionIds (unionIds k.known t.launch.known) h.after
      let lifted := unionIds (unionIds k.lifted t.launch.lifted) h.afterLifted
      let s := (s.setKnow { k with known := known, lifted := lifted }).setChannel { h with after := [], afterLifted := [] }
      -- the image bytes of earlier runs are the command's own still (R291)
      let s := if c.replay then { s with slots := s.slots.map fun x =>
          if x.bay == bay && x.team == c.team then { x with images := x.images.map fun w => if w.run == c.run then { w with run := run } else w } else x }
        else s
      let c := { c with state := .running, run := run, place := place, known := known, lifted := lifted, prior := c.complete, tried := []
                        failed := [], runBytes := 0, entries := [], first := [], second := false, coll := .go, granted := none }
      let (c, s) := if c.cmd = 5 && !c.replay then s.collArrive c t.dct.aspace false else (c, s)
      some ((s.mapCmd bay ch c.seq fun _ => c).wakeCopies)) s

/-- COLL_PHASE_WAIT_END: the phase has completed, or the handle names no record any more. -/
def execCollPhaseWaitEnd (bay ch : Nat) (s : State) : Out :=
  runEvent (fun s => do
    let c ← s.runningCmd bay ch
    let t ← s.team? c.team
    match c.coll with
    | .go => none
    | .wait second p =>
      let pass (rs : List Release) : State :=
        let s := s.copyAcquire c c.place rs
        let k := s.knowOf c.place.party
        s.mapCmd bay ch c.seq fun c => { c with coll := .go, second := second, granted := none, known := unionIds c.known k.known
                                                lifted := unionIds c.lifted k.lifted }
      match endedWait c.granted c.cwph p with
      | some g => some (pass g.releases)
      | none => match s.waypoint? c.cwph t.dct.aspace with
        | none => some (s.mapCmd bay ch c.seq CopyCmd.failRest)
        | some w => if w.done p then some (pass (w.releasesTo p)) else none) s

/-! ### The accesses of a sector (R285, R287, R290) -/

/-- Where a command's access of `n` bytes goes: limit and permission, then translation; its alignment is free. -/
def copyLoc (t : Team) (c : CopyCmd) (sg : W128) (o : Int) (n : Nat) (write : Bool) : M Located := do
  let s ← get
  let tc := { t with super := c.super }
  match (List.range n).find? fun (i : Nat) => (byteFault s tc c.bay sg (o + (i : Int)) write).isSome with
  | some i => raise ((byteFault s tc c.bay sg (o + (i : Int)) write).getD 0) (wrapOf 64 ((segBase sg : Int) + o + Int.ofNat i)) 0 write
  | none =>
    let a := segBase sg + o.toNat
    match segSpace sg with
    | 0 => do
      let (loc, big) ← translate t.dct.roots t.dct.aspace t.dctx c.bay false c.super (if write then .write else .read) a
      pure { loc := loc, va := some a, large := big }
    | 4 => pure { loc := locOf (lockTag (a / 0x8000)) (a % 0x8000), va := none, large := false }
    | sp => pure { loc := (s.localLoc t c.bay sp a n).getD 0, va := none, large := false }

def copyRead (c : CopyCmd) (l : Located) (n : Nat) : M (List ByteRead) :=
  fun s => .ok (s.readWith c.place c.known c.lifted c.regions l.va l.loc n)

/-- A list, peer, route or directory entry of `n` bytes: R285 names no granule of it, so each byte is read on its own (R307). -/
def copyValue (t : Team) (c : CopyCmd) (sg : W128) (o : Int) : Nat → M Nat
  | 0 => pure 0
  | k + 1 => do
    let l ← copyLoc t c sg o 1 false
    let bs ← copyRead c l 1
    let rest ← copyValue t c sg (o + 1) k
    pure (readValue bs + 256 * rest)

/-- An entry that the engine reads once in a run. -/
def entryOnce (c : CopyCmd) (key : Nat) (read : M Nat) : M Nat := do
  let s ← get
  match (s.cmds.find? fun x => x.run == c.run && x.state == .running).bind fun x => x.entries.find? fun e => e.1 == key with
  | some e => pure e.2
  | none => do
    let v ← read
    modify fun s => s.mapCmd c.bay c.ch c.seq fun x => { x with entries := x.entries ++ [(key, v)] }
    pure v

/-- Where bytes come from. -/
inductive GranSrc where
  | bytes (b : List Byte)
  | read (l : Located) (n : Nat)
  /-- Rank order reduction of `len` bytes of whole elements: for each rank, how many bytes its reads begin before them, and the reads; of the
  result the `n` bytes from `first` on (R293). -/
  | reduce (ls : List (Nat × List (Located × Nat))) (len first n : Nat)
  /-- A byte with further bits set (R297). -/
  | orBits (l : Located) (b : Byte)

inductive Spot where
  | mem (l : Located)
  | scale (off : Nat)

/-- A destination: bytes of the unit, from `first` on, by one write. -/
structure GranDst where
  spot : Spot
  first : Nat
  len : Nat

/-- A unit of the transfer: read, and written to each destination. Where accesses to destinations fail, `fails` are their causes, and `maybe`
those that a failing write may have reached (R431). -/
structure Gran where
  src : GranSrc
  dsts : List GranDst
  fails : List Cause
  maybe : List GranDst

/-- The destination of `n` bytes of a unit, from `first` on. -/
def granDst (t : Team) (c : CopyCmd) (sg : W128) (o : Int) (first n : Nat) : M (Except (Cause × Option GranDst) GranDst) := do
  match ← attempt (copyLoc t c sg o n true) with
  | .ok l => pure (.ok { spot := .mem l, first := first, len := n })
  | .error x => do
    let s ← get
    let lands := match copyLoc t c sg o n true s.answering with
      | .ok (l, _) => if x.code = cECC_UNCORR then some { spot := .mem l, first := first, len := n } else none
      | .error _ => none
    pure (.error (x, lands))

def mkGran (src : GranSrc) (ds : List (Except (Cause × Option GranDst) GranDst)) : Gran :=
  { src := src
    dsts := ds.filterMap fun d => match d with | .ok d => some d | .error _ => none
    fails := ds.filterMap fun d => match d with | .ok _ => none | .error x => some x.1
    maybe := ds.filterMap fun d => match d with | .ok _ => none | .error x => x.2 }

/-- Index entry `j` of `cp.gath` and `cp.scat` (R290). -/
def listEntry (t : Team) (c : CopyCmd) (j : Nat) : M Nat :=
  entryOnce c j (copyValue t c (c.seg c.list) (opOff c.list + ((4 * j : Nat) : Int)) 4)

/-- Source and destination of a row of the four plain forms; no source for a fill and for zeros, no destination for a skipped row. -/
def rowEnds (t : Team) (c : CopyCmd) (row : Nat) : M (Option Int × Option Int) := do
  match c.cmd with
  | 1 => do
    let j ← listEntry t c (c.index row 1)
    pure (if j = 0xFFFFFFFF then none else some (opOff (c.op 0) + (j : Int) * c.sstr 1), some (c.destOff row))
  | 2 => do
    let j ← listEntry t c (c.index row 1)
    if j = 0xFFFFFFFF then pure (none, none)
    else pure (some (c.sourceOff row), some (opOff (c.op 1) + (j : Int) * c.dstr 1))
  | 3 => pure (none, some (c.destOff row))
  | _ => pure (some (c.sourceOff row), some (c.destOff row))

/-- The whole granule that holds offset `i` of a run of `n` bytes (R285): its first offset in the run, whose sources and destination have their
first bytes at the addresses given. -/
def granuleAt (srcs : List Int) (dst : Int) (i n : Nat) : Option Nat :=
  let b := ((dst + (i : Int)) % 4).toNat
  if !srcs.isEmpty && (srcs.all fun s => (s - dst) % 4 == 0) && decide (b ≤ i) && decide (i - b + 4 ≤ n) then some (i - b) else none

/-- Which bytes of a collective are moved now: its own chunk by reduction, the others by copy. -/
inductive CollPart where
  | own | others | all
deriving DecidableEq, Repr

/-- The granules of a sector have been moved, in this part of the command. -/
def CopyCmd.moved (c : CopyCmd) (part : CollPart) (i : Nat) : Bool :=
  c.complete.contains i || (part == .own && (c.first.any fun x => x.1 == i) && !(c.failed.any fun x => x.1 == i))

/-- A unit at stream byte `p` that reaches out of sector `i` belongs to two sectors: it is moved once, with the one that is first moved whole;
where an earlier run moved that one, it may be moved again or not (log 92). -/
def unitDue (c : CopyCmd) (part : CollPart) (i p n : Nat) : M Bool := do
  let other := if p / 1024 = i then (p + n - 1) / 1024 else p / 1024
  if other = i || !c.moved part other then pure true
  else if c.prior.contains other then do
    let k ← choose 2
    pure (k == 0)
  else pure false

/-- The stream bytes from `p` to `e` of sector `i` of a plain form, as granules. -/
def plainGrans (t : Team) (c : CopyCmd) (i : Nat) : Nat → Nat → Nat → M (List (Except Cause Gran))
  | 0, _, _ => pure []
  | fuel + 1, p, e =>
    if p ≥ e then pure []
    else do
      let i0 := p % c.n 0
      let left := Nat.min (e - p) (c.n 0 - i0)
      match ← attempt (rowEnds t c (p / c.n 0)) with
      | .error x => do
        let rest ← plainGrans t c i fuel (p + left) e
        pure (.error x :: rest)
      | .ok (_, none) => plainGrans t c i fuel (p + left) e
      | .ok (src, some dst) => do
        let ss := c.seg (c.op 0)
        let ds := c.seg (c.op 1)
        let (q, n) := match granuleAt (src.map fun (o : Int) => o + (segBase ss : Int)).toList (dst + segBase ds) i0 (c.n 0) with
          | some q => (q, 4)
          | none => (i0, 1)
        let first := p - (i0 - q)
        let due ← unitDue c .all i first n
        let g ← (if due then do
            let g ← attempt (do
              let from_ ← (match src with
                | some o => do
                  let l ← copyLoc t c ss (o + (q : Int)) n false
                  pure (GranSrc.read l n)
                | none => pure (GranSrc.bytes [if c.cmd = 3 then BitVec.ofNat 8 (c.op 0 / 2 ^ (8 * (p % 8))) else 0]))
              let d ← granDst t c ds (dst + (q : Int)) 0 n
              pure (mkGran from_ [d]))
            pure [g]
          else pure [])
        let rest ← plainGrans t c i fuel (first + n) e
        pure (g ++ rest)

/-! ### cp.scale (R291) -/

/-- Byte `p` of the image: a constant, or the source offset that it comes from. -/
def imageByte (r p : Nat) : Byte ⊕ Nat :=
  let n := recRows r * recGroups r
  if p < 64 then .inl (BitVec.ofNat 8 (if p < 16 then imageRecord r / 2 ^ (8 * p) else 0))
  else if p < 64 + 2 * n then
    let i := (p - 64) / 2
    .inr (i / recGroups r * recSstride r + 2 * (i % recGroups r) + (p - 64) % 2)
  else if recZp r && decide (imageZoff r ≤ p) then
    let i := p - imageZoff r
    .inr (recZoff r + i / recGroups r * recZstride r + i % recGroups r)
  else .inl 0

def scaleGrans (t : Team) (c : CopyCmd) : Nat → Nat → M (List (Except Cause Gran))
  | 0, _ => pure []
  | n + 1, p => do
    let g ← attempt (do
      let from_ ← (match imageByte c.rcd p with
        | .inl b => pure (GranSrc.bytes [b])
        | .inr o => do
          let l ← copyLoc t c (c.seg (c.op 0)) (opOff (c.op 0) + (o : Int)) 1 false
          pure (GranSrc.read l 1))
      pure (mkGran from_ [.ok { spot := .scale (bitsOf (c.op 1) 15 0 + p), first := 0, len := 1 }]))
    let rest ← scaleGrans t c n (p + 1)
    pure (g :: rest)

/-! ### cp.coll (R292, R293) -/

/-- Rank j's source (part 0) or output (part 1). -/
def rankBuffer (t : Team) (c : CopyCmd) (j part : Nat) : M Nat :=
  if j = c.rank then pure (c.op part)
  else
    let a := bitsOf c.rcd 511 448
    entryOnce c (2 * j + part) (copyValue t c (c.seg a) (opOff a + ((16 * j + 8 * part : Nat) : Int)) 8)

/-- The source of every rank from `j` on: its operand. -/
def rankSources (t : Team) (c : CopyCmd) : Nat → Nat → M (List Nat)
  | 0, _ => pure []
  | n + 1, j => do
    let a ← rankBuffer t c j 0
    let rest ← rankSources t c n (j + 1)
    pure (a :: rest)

/-- The reads of the bytes from `x` to `hi` of a rank's source of the reduced chunk, whose first byte is at `o` and whose destination is at
`d`: whole granules where the two are congruent, else single bytes (R285, R307). -/
def rankPieces (t : Team) (c : CopyCmd) (sg : W128) (o d : Int) (hi : Nat) : Nat → Nat → M (List (Located × Nat))
  | 0, _ => pure []
  | fuel + 1, x =>
    if x ≥ hi then pure []
    else do
      let (q, n) := match granuleAt [o + (segBase sg : Int)] d x c.chunk with | some q => (q, 4) | none => (x, 1)
      let l ← copyLoc t c sg (o + (q : Int)) n false
      let rest ← rankPieces t c sg o d hi fuel (q + n)
      pure ((l, n) :: rest)

/-- The reads of the bytes from `lo` to `hi` of the reduced chunk, of every rank's source. -/
def rankReads (t : Team) (c : CopyCmd) (d : Int) (lo hi : Nat) : List Nat → M (List (Nat × List (Located × Nat)))
  | [] => pure []
  | a :: as => do
    let sg := c.seg a
    let o := opOff a + ((c.rank * c.chunk : Nat) : Int)
    let ls ← rankPieces t c sg o d hi (hi - lo) lo
    let rest ← rankReads t c d lo hi as
    pure ((lo - (granuleAt [o + (segBase sg : Int)] d lo c.chunk).getD lo, ls) :: rest)

/-- The output bytes from `p` to `e` of sector `i` of a collective, as granules. A byte of the reduced chunk is the byte of its element, which
may lie in two granules; the elements of a unit are read with it, in one sector each granule once (log 92). -/
def collGrans (t : Team) (c : CopyCmd) (part : CollPart) (i : Nat) : Nat → Nat → Nat → M (List (Except Cause Gran))
  | 0, _, _ => pure []
  | fuel + 1, p, e =>
    if p ≥ e then pure []
    else
      let ds := c.seg (c.op 1)
      let j := if c.collOp = 0 then 0 else p / c.chunk
      let own := c.collOp == 0 || (c.collOp == 2 && j == c.rank)
      let i0 := p - j * c.chunk
      let d0 := opOff (c.op 1) + ((j * c.chunk : Nat) : Int)
      let dst := d0 + segBase ds
      if own then do
        if part = .others then collGrans t c part i fuel (p + c.elemBytes) e
        else
          match ← attempt (rankSources t c c.ranks 0) with
          | .error x => do
            let rest ← collGrans t c part i fuel (Nat.min e ((j + 1) * c.chunk)) e
            pure (.error x :: rest)
          | .ok as => do
            let (q, n) := match granuleAt (as.map fun a => opOff a + ((c.rank * c.chunk : Nat) : Int) + (segBase (c.seg a) : Int)) dst i0 c.chunk with
              | some q => (q, 4)
              | none => (i0, 1)
            let first := p - (i0 - q)
            let due ← unitDue c part i first n
            let g ← (if due then do
                let lo := q / c.elemBytes * c.elemBytes
                let hi := (q + n + c.elemBytes - 1) / c.elemBytes * c.elemBytes
                let g ← attempt (do
                  let ls ← rankReads t c dst lo hi as
                  let d ← granDst t c ds (d0 + (q : Int)) 0 n
                  pure (mkGran (.reduce ls (hi - lo) (q - lo) n) [d]))
                pure [g]
              else pure [])
            let rest ← collGrans t c part i fuel (first + n) e
            pure (g ++ rest)
      else if part = .own then collGrans t c part i fuel (Nat.min e ((j + 1) * c.chunk)) e
      else do
        match ← attempt (rankBuffer t c j (if c.collOp = 1 then 0 else 1)) with
        | .error x => do
          let rest ← collGrans t c part i fuel (Nat.min e ((j + 1) * c.chunk)) e
          pure (.error x :: rest)
        | .ok a => do
          let so := opOff a + ((if c.collOp = 1 then 0 else j * c.chunk : Nat) : Int)
          let (q, n) := match granuleAt [so + segBase (c.seg a)] dst i0 c.chunk with | some q => (q, 4) | none => (i0, 1)
          let first := p - (i0 - q)
          let due ← unitDue c part i first n
          let g ← (if due then do
              let g ← attempt (do
                let l ← copyLoc t c (c.seg a) (so + (q : Int)) n false
                let d ← granDst t c ds (d0 + (q : Int)) 0 n
                pure (mkGran (.read l n) [d]))
              pure [g]
            else pure [])
          let rest ← collGrans t c part i fuel (first + n) e
          pure (g ++ rest)

/-- Red over the ranks' codes, in rank order, with the origin that a narrow NaN offers: a bf16 result is converted from the f32 accumulator,
so a NaN among bf16 inputs offers too (R293, R86; log 67). -/
def reduceCodes (fmt origin : Nat) (xs : List Nat) : Nat × Option NanOffer :=
  let wide := xs.map fun x => if fmt = 3 then (convertFmt 3 0 0 false x).1 else x
  let acc := (wide.drop 1).foldl (fun a x => fAdd fp32 0 false origin a x) (wide.headD 0)
  if fmt = 3 then convertFmt 0 3 0 false acc else (acc, none)

/-! ### cp.disp (R294 to R297) -/

/-- The expert ids of a row. -/
def routeIds (v : Nat) : List Nat := ((List.range 4).map fun i => v / 2 ^ (16 * i) % 2 ^ 16).filter fun x => x != 0xFFFF

def routeEntry (t : Team) (c : CopyCmd) (row : Nat) : M Nat :=
  let a := bitsOf c.rcd 511 448
  entryOnce c row (copyValue t c (c.seg a) (opOff a + ((8 * row : Nat) : Int)) 8)

/-- The listings of rows below `row`. -/
def idsBelow (t : Team) (c : CopyCmd) : Nat → M (List Nat)
  | 0 => pure []
  | n + 1 => do
    let xs ← idsBelow t c n
    let v ← routeEntry t c n
    pure (xs ++ routeIds v)

/-- DIR[x]: BASE and DIE. -/
def dirEntry (t : Team) (c : CopyCmd) (x : Nat) : M (Nat × Nat) := do
  let a := bitsOf c.rcd 447 384
  let base ← copyValue t c (c.seg a) (opOff a + ((16 * x : Nat) : Int)) 8
  let hi ← copyValue t c (c.seg a) (opOff a + ((16 * x + 8 : Nat) : Int)) 8
  pure (base, hi % 4)

/-- The slot that a new entry takes: the lowest free one, else the one of lowest count. -/
def freeSlot (es : List ExpertEntry) : Nat :=
  match (List.range 32).find? fun i => !(es.any fun e => e.slot == i) with
  | some i => i
  | none =>
    let low := es.foldl (fun m e => Nat.min m e.count) 65535
    ((List.range 32).find? fun i => es.any fun e => e.slot == i && e.count == low).getD 0

/-- Looks a listing up in the residency table of the issuing die (R296): BASE and DIE. A hit may use the old entry or the present one. -/
def expertLookup (t : Team) (c : CopyCmd) (x : Nat) : M (Nat × Nat) := do
  let die := dieOfBay c.bay
  modify fun s => s.mapDie die fun d => { d with lookups := d.lookups + 1 }
  let s ← get
  match s.experts.find? fun e => e.die == die && e.id == x && e.gen == c.gen with
  | some e => do
    modify fun s => { s with experts := s.experts.map fun y => if y == e then { y with count := Nat.min (y.count + 1) 65535 } else y }
    match ← attempt (dirEntry t c x) with
    | .error _ => pure (e.base.toNat, e.home)
    | .ok (b, h) =>
      if b = e.base.toNat && h = e.home then pure (b, h)
      else do
        let i ← choose 2
        pure (if i = 0 then (e.base.toNat, e.home) else (b, h))
  | none => do
    let (b, h) ← dirEntry t c x
    modify fun s =>
      let mine := s.experts.filter fun e => e.die == die
      let slot := freeSlot mine
      { s with experts := s.experts.filter (fun e => !(e.die == die && e.slot == slot)) ++
          [{ die := die, slot := slot, id := x, gen := c.gen, base := BitVec.ofNat 64 b, home := h, count := 0 }] }
    pure (b, h)

/-- The listings of a row: BASE, DIE, and the row number at the expert. -/
def rowListings (t : Team) (c : CopyCmd) (below : List Nat) : List Nat → M (List (Nat × Nat × Nat))
  | [] => pure []
  | x :: rest => do
    let a := bitsOf c.rcd 447 384
    if c.nexp ≤ x then raise cSEG_LIMIT (segBase (c.seg a) + (opOff a).toNat + 16 * x)
    let (b, h) ← expertLookup t c x
    let more ← rowListings t c (below ++ [x]) rest
    pure ((b, h, (below.filter fun y => y == x).length) :: more)

/-- One row's bytes, to every destination of a die in service: the row is read once, by granules where one of the destinations takes them
whole, and each destination takes a granule by one write where it is congruent, else byte by byte (R285, R295). -/
def rowGrans (t : Team) (c : CopyCmd) (so : Int) (ds : List (Nat × Int)) : Nat → Nat → M (List (Except Cause Gran))
  | 0, _ => pure []
  | fuel + 1, q =>
    if q ≥ c.rowBytes || ds.isEmpty then pure []
    else do
      let ss := c.seg (c.op 0)
      let o := so + (q : Int)
      let congruent (d : Nat × Int) : Bool := (d.2 + segBase (c.seg d.1) - (so + segBase ss)) % 4 == 0
      let n := if (o + segBase ss) % 4 == 0 && decide (q + 4 ≤ c.rowBytes) && ds.any congruent then 4 else 1
      let g ← attempt (do
        let l ← copyLoc t c ss o n false
        let rec outs : List ((Nat × Int) × Nat × Nat) → M (List (Except (Cause × Option GranDst) GranDst))
          | [] => pure []
          | (d, i, k) :: more => do
            let x ← granDst t c (c.seg d.1) (d.2 + ((q + i : Nat) : Int)) i k
            let xs ← outs more
            pure (x :: xs)
        let os ← outs (ds.flatMap fun d => if n = 4 && congruent d then [(d, 0, 4)] else (List.range n).map fun i => (d, i, 1))
        pure (mkGran (.read l n) os))
      let rest ← rowGrans t c so ds fuel (q + n)
      pure (g :: rest)

/-- The rows from `row` on of a dispatch. -/
def dispGrans (t : Team) (c : CopyCmd) : Nat → Nat → M (List (Except Cause Gran))
  | 0, _ => pure []
  | n + 1, row => do
    let ls ← attempt (do
      let below ← idsBelow t c row
      let v ← routeEntry t c row
      rowListings t c below (routeIds v))
    match ls with
    | .error x => do
      let rest ← dispGrans t c n (row + 1)
      pure (.error x :: rest)
    | .ok ls => do
      let s ← get
      let up := ls.filter fun l => s.dieUp l.2.1
      let lost := ((ls.filter fun l => !s.dieUp l.2.1).map (·.2.1)).eraseDups
      let dies := (up.map (·.2.1)).eraseDups
      let ordered := dies.flatMap fun d => up.filter fun l => l.2.1 == d
      let gs ← rowGrans t c (opOff (c.op 0) + ((row * c.pitch : Nat) : Int))
        (ordered.map fun l => (l.1, opOff l.1 + ((l.2.2 * c.rowBytes : Nat) : Int))) c.rowBytes 0
      let marks ← (if lost.isEmpty then pure [] else do
        modify fun s => s.mapCmd c.bay c.ch c.seq fun x => { x with lost := unionIds x.lost (lost.map fun d => (row, d)) }
        let s ← get
        let all := ((s.cmds.find? fun x => x.run == c.run && x.state == .running).map (·.lost)).getD []
        let a := bitsOf c.rcd 383 320
        let bits := ((List.range 8).map fun i => if all.any fun x => x.1 == row / 8 * 8 + i then 2 ^ i else 0).foldl (· + ·) 0
        let g ← attempt (do
          let d ← granDst t c (c.seg a) (opOff a + ((row / 8 : Nat) : Int)) 0 1
          pure (match d with
            | .ok { spot := .mem l, .. } => mkGran (.orBits l (BitVec.ofNat 8 bits)) [d]
            | .error (_, some { spot := .mem l, .. }) => mkGran (.orBits l (BitVec.ofNat 8 bits)) [d]
            | _ => mkGran (.bytes []) [d]))
        pure [g])
      let rest ← dispGrans t c n (row + 1)
      pure (gs ++ marks ++ rest)

/-! ### Performing a sector -/

/-- A code of `n` bytes at place `k` of a list of bytes. -/
def codeAt (bs : List Byte) (n k : Nat) : Nat := leNat ((bs.drop (n * k)).take n)

/-- What a sector has read for its reductions: rank, location and length of each read, and its bytes. -/
abbrev ReadCache := List ((Nat × Nat × Nat) × List Byte)

/-- How far the performing of a sector has come. -/
structure Performed where
  ids : List Nat
  cache : ReadCache
  state : State

def CopyCmd.readOne (c : CopyCmd) (s : State) (l : Located) (n : Nat) : List Byte × State :=
  let (bs, s) := s.readWith c.place c.known c.lifted c.regions l.va l.loc n
  (bs.map (·.value), s)

/-- A read of a rank's source, made once in a sector. -/
def Performed.rankRead (w : Performed) (c : CopyCmd) (rank : Nat) (l : Located) (n : Nat) : List Byte × Performed :=
  match w.cache.find? fun x => x.1 == (rank, l.loc, n) with
  | some x => (x.2, w)
  | none =>
    let (bs, s) := c.readOne w.state l n
    (bs, { w with cache := ((rank, l.loc, n), bs) :: w.cache, state := s })

/-- The bytes of a unit, and the origins that its reductions offer. -/
def granValue (c : CopyCmd) (src : GranSrc) (w : Performed) : List Byte × List NanOffer × Performed :=
  match src with
  | .bytes b => (b, [], w)
  | .read l n =>
    let (bs, s) := c.readOne w.state l n
    (bs, [], { w with state := s })
  | .orBits l b =>
    let (bs, s) := c.readOne w.state l 1
    ([BitVec.ofNat 8 (Nat.lor (leNat bs) b.toNat)], [], { w with state := s })
  | .reduce ls len first n =>
    let (xs, w) := ls.zipIdx.foldl (fun (acc : List (List Byte) × Performed) r =>
      let (bs, w) := r.1.2.foldl (fun (a : List Byte × Performed) l =>
        let (b, w) := a.2.rankRead c r.2 l.1 l.2
        (a.1 ++ b, w)) ([], acc.2)
      (acc.1 ++ [bs.drop r.1.1], w)) ([], w)
    let rs := (List.range (len / c.elemBytes)).map fun k =>
      reduceCodes c.collFmt (originNaN32 0 (originHash c.obj c.tag)) (xs.map fun bs => codeAt bs c.elemBytes k)
    (((rs.flatMap fun r => leBytes c.elemBytes r.1).drop first).take n, rs.filterMap (·.2), w)

/-- A write of the command, after the sector's earlier writes. In a duplex, `cp.scale` writes the part on the command's own bay, the lead bay
(R291; log 100). -/
def writeUnit (c : CopyCmd) (d : Spot) (bs : List Byte) (w : Performed) : Performed :=
  match d with
  | .scale o =>
    { w with state := { w.state with slots := w.state.slots.map fun x => if x.bay == c.bay && x.team == c.team then x.putImage c.run o bs else x } }
  | .mem l =>
    let (id, s) := w.state.writeWith c.place (unionIds c.known w.ids) (unionIds c.lifted w.ids) [] l.loc bs
    { w with ids := w.ids ++ [id], state := s }

/-- Writes the bytes of a unit to its destinations. -/
def writeGran (c : CopyCmd) (bs : List Byte) (ds : List GranDst) (w : Performed) : Performed :=
  ds.foldl (fun w d => writeUnit c d.spot ((bs.drop d.first).take d.len) w) w

/-- One byte of a destination. -/
def Spot.byteAt (d : Spot) (i : Nat) : Spot :=
  match d with
  | .mem l => .mem { l with loc := l.loc + i, va := l.va.map (· + i) }
  | .scale o => .scale (o + i)

/-- In a missing sector each destination byte takes its new value or not, by itself (R287). -/
def writeSome (c : CopyCmd) (bs : List Byte) (ds : List GranDst) (w : Performed) : Performed :=
  (ds.flatMap fun d => (List.range d.len).map fun k => (d.spot.byteAt k, (bs.drop (d.first + k)).take 1)).foldl (fun w x =>
    let u := if pickOf 2 w.state.tick == 0 then w else writeUnit c x.1 x.2 w
    { u with state := { u.state with tick := u.state.tick + 1 } }) w

/-- Performs the units: whole, or where the sector is missing each byte or not. -/
def performGrans (c : CopyCmd) (whole : Bool) (gs : List (Except Cause Gran)) (s : State) : List Nat × State :=
  let w := gs.foldl (fun (w : Performed) g => match g with
    | .error _ => w
    | .ok g =>
      let (bs, offers, w) := granValue c g.src w
      let w := { w with state := offers.foldl (fun s o => s.mapTeam c.team fun t => t.offerOrigin o.fmt o.helm o.lane 0 o.hash) w.state }
      if whole then writeGran c bs g.dsts w else writeSome c bs (g.dsts ++ g.maybe) w) { ids := [], cache := [], state := s }
  (w.ids, w.state)

/-- The stream bytes of a sector (R285). -/
def sectorRange (c : CopyCmd) (i : Nat) : Nat × Nat := (1024 * i, Nat.min (1024 * (i + 1)) c.count)

/-- The granules of a sector, or of the part of it that is due. -/
def sectorGrans (t : Team) (c : CopyCmd) (part : CollPart) (i : Nat) : M (List (Except Cause Gran)) :=
  let (p, e) := sectorRange c i
  match c.cmd with
  | 4 => scaleGrans t c (e - p) p
  | 5 => collGrans t c part i (e - p) p e
  | 6 => dispGrans t c (Nat.min 64 (c.rows - 64 * i)) (64 * i)
  | _ => plainGrans t c i (e - p) p e

/-- Bytes of a sector that the arrival counts (R287, R295). -/
def sectorBytes (c : CopyCmd) (i : Nat) : Nat :=
  if c.cmd = 6 then
    (((List.range 64).map fun j => 64 * i + j).map fun row =>
      if row < c.rows then (match c.entries.find? fun e => e.1 == row with | some e => (routeIds e.2).length | none => 0) * c.rowBytes else 0).foldl
        (· + ·) 0
  else (sectorRange c i).2 - (sectorRange c i).1

/-- The sector holds bytes of the rank's own chunk, only such bytes. -/
def CopyCmd.ownIn (c : CopyCmd) (i : Nat) : Bool :=
  let (p, e) := sectorRange c i
  decide (p < (c.rank + 1) * c.chunk) && decide (c.rank * c.chunk < e)
def CopyCmd.ownOnly (c : CopyCmd) (i : Nat) : Bool :=
  let (p, e) := sectorRange c i
  decide (c.rank * c.chunk ≤ p) && decide (e ≤ (c.rank + 1) * c.chunk)

/-- The first part of an all-reduce is under way (R293). -/
def CopyCmd.firstPart (c : CopyCmd) : Bool := c.cmd == 5 && c.collOp == 2 && !c.replay && !c.second

/-- The location is a frame of the die's HBM, or lies in its lock table. -/
def lostLoc (die loc : Nat) : Bool := (storageOf loc == hbmTag && dieOfPa (offsetOf loc) == die) || storageOf loc == lockTag die

/-- The unit as the loss of a die leaves it while it is in flight: its accesses to the die fail with ECC_UNCORR (R438). -/
def Gran.lose (die : Nat) (g : Gran) : Except Cause Gran :=
  let cause (l : Located) (write : Bool) : Cause :=
    { code := cECC_UNCORR, fva := l.va.getD (offsetOf l.loc), info := 0, write := write, fetch := false, mask := none }
  let reads : List Located := match g.src with
    | .bytes _ => []
    | .read l _ => [l]
    | .orBits l _ => [l]
    | .reduce ls _ _ _ => ls.flatMap fun r => r.2.map (·.1)
  match reads.find? fun l => lostLoc die l.loc with
  | some l => .error (cause l false)
  | none =>
    let lost (d : GranDst) : Option Located := match d.spot with | .mem l => if lostLoc die l.loc then some l else none | .scale _ => none
    .ok { g with dsts := g.dsts.filter fun d => (lost d).isNone, fails := g.fails ++ (g.dsts.filterMap lost).map fun l => cause l true }

/-- The sector is still to be moved in this part of the running command. -/
def CopyCmd.due (c : CopyCmd) (sector : Nat) : Bool :=
  c.coll == .go && decide (sector < c.nsec) && !c.complete.contains sector && !c.tried.contains sector &&
    (!c.firstPart || (c.ownIn sector && !(c.first.any fun x => x.1 == sector)))

/-- A sector of the running command is attempted; with `lost`, a die that is lost while the sector is in flight: where the sector does not
reach the die nothing is done. -/
def State.attemptSector (s : State) (t : Team) (c : CopyCmd) (i : Nat) (lost : Option Nat := none) : State :=
  let part := if c.cmd = 5 && c.collOp = 2 && !c.replay then (if c.second then CollPart.others else .own) else .all
  match sectorGrans t c part i s with
  | .error (.wait _ s') => s'
  | .error _ => s
  | .ok (gs, u) =>
    let hit : Bool := match lost with
      | none => true
      | some d => gs.any fun g => match g with | .error _ => false | .ok g => match g.lose d with | .error _ => true | .ok h => h.fails != g.fails
    if !hit then s else
    let s := u
    let gs := match lost with
      | none => gs
      | some d => gs.map fun g => match g with | .error x => .error x | .ok g => g.lose d
    let bad := gs.flatMap fun g => match g with | .error x => [x] | .ok g => g.fails
    let (ids, s) := performGrans c bad.isEmpty gs s
    let s := if bad.isEmpty then ids.foldl (fun s id => s.learn c.place.party id) s else s
    let own := unionIds ids ((c.first.filter fun x => x.1 == i).flatMap (·.2))
    let add (p : Past) : Past := { known := unionIds p.known (unionIds c.known own), lifted := unionIds p.lifted (unionIds c.lifted own) }
    let whole := bad.isEmpty && (!c.firstPart || c.ownOnly i)
    let s := s.mapCmd c.bay c.ch c.seq fun c =>
      let c := { c with made := c.made ++ ids, first := if c.firstPart then c.first ++ [(i, if bad.isEmpty then ids else [])] else c.first }
      match bad.head? with
      | some x => { c with tried := c.tried ++ [i], failed := c.failed ++ [(i, x.code, x.fva)] }
      | none =>
        if !whole then c
        else
          let n := sectorBytes c i
          { c with tried := c.tried ++ [i], complete := c.complete ++ [i], runBytes := c.runBytes + n, doneBytes := c.doneBytes + n
                   past := add c.past }
    let s := if whole then s.mapTeam c.team fun t => { t with cePast := add t.cePast } else s
    let s := if lost.isNone && bad.any fun x => x.code == cECC_UNCORR then { s with timeouts := [] } else s
    -- the last sector of the first part: the second arrival
    match s.runningCmd c.bay c.ch with
    | none => s
    | some c =>
      if c.firstPart && (List.range c.nsec).all fun j => !c.ownIn j || c.first.any (·.1 == j) then
        let (c', s) := s.collArrive c t.dct.aspace true
        s.mapCmd c.bay c.ch c.seq fun _ => c'
      else s

/-- COPY_SECTOR_COMPLETE. -/
def execCopySectorComplete (bay ch sector : Nat) (s : State) : Out :=
  runEvent (fun s => do
    let c ← s.runningCmd bay ch
    let t ← s.team? c.team
    if c.due sector then some (s.attemptSector t c sector) else none) s

/-! ### Completion, holding, and the fault record (R287 to R289) -/

/-- The completion bitmap at BMVA, 8 bytes at a time (log 73); answers whether all of it was written. -/
def State.writeBitmap (s : State) (t : Team) (c : CopyCmd) (va : Nat) : Nat → State × Bool
  | 0 => (s, true)
  | n + 1 =>
    let (s, ok) := s.writeBitmap t c va n
    let v := ((List.range 64).map fun b => if c.complete.contains (64 * n + b) then 2 ^ b else 0).foldl (· + ·) 0
    match s.partAddr t (va + 8 * n) .write with
    | .ok (loc, s) => (s.writeAs c.place none loc (leBytes 8 v), ok)
    | .error x => ((s.partLands t (va + 8 * n) x (leBytes 8 v)).answered x.code, false)

/-- The bitmap area of a held slot (R382). -/
def bitmapVa (t : Team) (slot : Nat) : Nat := t.block + 0x10000 + slot * 0x8000

/-- The record of R288. -/
def CopyCmd.faultRecord (c : CopyCmd) (t : Team) (bmva : Nat) : RecordFields :=
  let low := c.failed.foldl (fun m x => Nat.min m x.1) c.nsec
  let f := (c.failed.find? fun x => x.1 == low).getD (0, 0, 0)
  { RecordFields.zero with
    bmva := bmva, fva := f.2.2, tag := c.tag, seq := c.seq, doneb := c.doneBytes, fsec := low, miss := c.failed.length, nsec := c.nsec
    wph := c.handle, bay := c.bay, ctx := t.ctx, ch := c.ch, cmd := c.cmd, cause := f.2.1
    flags := b2n c.ft + 2 * b2n c.wv + 4 * (c.ord % 4) + 16 * (c.scope % 8) + 128 * b2n c.bmerr, src := c.op 0, dst := c.op 1 }

/-- Rows lost in the sectors of this run (R297). -/
def CopyCmd.lostNow (c : CopyCmd) : Nat :=
  (c.lost.filter fun x => c.complete.contains (x.1 / 64) && !c.prior.contains (x.1 / 64)).length

/-- The accesses of a completed command, in every run, come before those of the channel's next one (R278). -/
def State.orderChannel (s : State) (c : CopyCmd) : State :=
  let h := s.channel c.bay c.ch
  s.setChannel { h with after := unionIds c.covers.known c.made, afterLifted := unionIds c.covers.lifted c.made }

/-- The poster of a channel puts the record of its command in the queue once there is room; the command then leaves the channel, and FT
raises COPY_FAULT (R287, R289, R370, R429). -/
def State.postHeld (s : State) (t : Team) (c : CopyCmd) : State :=
  if s.queueFull then s
  else
    let r := c.faultRecord t (bitmapVa t c.slot)
    let s := (s.mapCmd c.bay c.ch c.seq fun c => { c with state := .held }).post c.place r
    (if c.ft then s.helmTrap c.team { code := cCOPY_FAULT, fva := r.fva, info := 0, write := false, fetch := false, mask := none } else s).wakeCopies

/-- COPY_COMMAND_END: every sector has been attempted; or the record of a command that waits for the queue can be posted. -/
def execCopyCommandEnd (bay ch : Nat) (s : State) : Out :=
  runEvent (fun s => do
    let c ← s.headCmd bay ch
    let t ← s.team? c.team
    if c.state == .posting then (if s.queueFull then none else some (s.postHeld t c))
    else if !(c.coll == .go && (List.range c.nsec).all fun i => c.complete.contains i || c.tried.contains i) then none
    else if c.failed.isEmpty then
      let s := s.cmdArrive c t.dct.aspace 1 c.runBytes c.lostNow false true
      some ((s.orderChannel c).dropCmd bay ch c.seq).wakeCopies
    else match (List.range 4).find? fun k => !(s.heldSlots c.team).contains k with
      | none => some (s.mapCmd bay ch c.seq fun c => { c with stalled := true })
      | some slot =>
        let s := s.cmdArrive c t.dct.aspace 0 c.runBytes c.lostNow true true
        let (s, ok) := s.writeBitmap t c (bitmapVa t slot) ((c.nsec + 511) / 512 * 8)
        let c := { c with state := .posting, slot := slot, bmerr := !ok, stalled := false }
        some ((s.mapCmd bay ch c.seq fun _ => c).postHeld t c)) s

/-! ### cp.replay and cp.stat (R298, R299) -/

/-- The arrival of a discarded command: relaxed, 1 arrival and the bytes not moved; the fault flag stays as it is. For a dispatch that has
moved bytes, whose COUNT is 0, the number is open (log 30). -/
def State.discardCmd (s : State) (c : CopyCmd) (aspace : Nat) : State :=
  let bytes := if c.count < c.doneBytes then pickOf (2 ^ 40) s.tick else c.count - c.doneBytes
  (({ s with tick := s.tick + 1 }.cmdArrive c aspace 1 bytes 0 false false).dropCmd c.bay c.ch c.seq).wakeCopies

/-- The held command that a fault record names, with its team. -/
def findHeld (t : Team) (a : GReg) : M (CopyCmd × Team) := do
  let r ← readRecord t (t.seg 4) (t.reg a).toInt
  let bay := bitsOf r 159 152
  let ctx := bitsOf r 151 150
  need (t.super || (bay == t.bay && ctx == t.ctx)) cPRIV
  let s ← get
  match s.cmds.find? fun c => c.state == .held && c.bay == bay && c.ch == bitsOf r 149 148 && c.seq == bitsOf r 351 320 &&
      (match s.team? c.team with | some u => u.ctx == ctx | none => false) with
  | none => raise cCOPY_FAULT
  | some c => do
    let u ← teamOf c.team
    pure (c, u)

def execCpReplay (d a : GReg) (s : State) : Out :=
  runHelm 8 (fun t => do
    needWritable t d
    let (c, _) ← findHeld t a
    if decide (((← get).chanQueue c.bay c.ch).length ≥ 16) then waitOn .copyQueue
    modify fun s => s.dropCmd c.bay c.ch c.seq
    let q ← pushCmd { c with replay := true, vector := t.inVector, slot := 0 }
    modify State.wakeCopies
    setG t.key d (BitVec.ofNat 64 (q + c.ch * 2 ^ 32))
    pure .seq) s

/-- A discard makes no new command, so g(gd) is checked and keeps its value (R298; log 108). -/
def execCpReplayDiscard (d a : GReg) (s : State) : Out :=
  runHelm 8 (fun t => do
    needWritable t d
    let (c, u) ← findHeld t a
    modify fun s => s.discardCmd c u.dct.aspace
    pure .seq) s

def execCpStat (d a : GReg) (ch : BitVec 2) (s : State) : Out :=
  runHelm 8 (fun t => do
    let s ← get
    let seq := (t.reg a).toNat % 2 ^ 32
    let c := s.cmds.find? fun c => c.bay == t.bay && c.ch == ch.toNat && c.seq == seq
    let st := match c with | none => 0 | some c => match c.state with | .queued => 1 | .running => 2 | .posting => 2 | .held => 3
    let done := match c with | none => 0 | some c => c.complete.length
    setG t.key d (BitVec.ofNat 64 (st + (s.chanQueue t.bay ch.toNat).length * 2 ^ 8 + (s.heldSlots t.key).length * 2 ^ 13 + done % 2 ^ 24 * 2 ^ 16))
    pure .seq) s

/-- EXPERT_COUNT_HALVING (R296). -/
def execExpertCountHalving (die : Nat) (s : State) : Out :=
  runEvent (fun s => do
    let d ← s.die? die
    if decide (65536 ≤ d.lookups) then
      some { (s.mapDie die fun d => { d with lookups := d.lookups - 65536 }) with
        experts := s.experts.map fun e => if e.die == die then { e with count := e.count / 2 } else e }
    else none) s

end Sys2Proof.Machine
end

