-- ==== Sys2Proof/Machine/Helm.lean ====
section
/-! DEFINITION. The helm's integer, immediate, constant and floating-point words (04_helm.md R105 to R116). -/

namespace Sys2Proof.Machine

/-- Quotient rounded toward zero, with the fixed results of R106. -/
def divSigned (a b : W64) : W64 := if b = 0 then BitVec.allOnes 64 else BitVec.ofInt 64 (a.toInt.tdiv b.toInt)
def remSigned (a b : W64) : W64 := if b = 0 then a else BitVec.ofInt 64 (a.toInt.tmod b.toInt)
def divNatural (a b : W64) : W64 := if b = 0 then BitVec.allOnes 64 else a / b
def remNatural (a b : W64) : W64 := if b = 0 then a else a % b

/-- The high 64 bits of a 128-bit product (R105). -/
def highProduct (x : Int) : W64 := BitVec.ofInt 64 (x / (2 ^ 64 : Nat))

/-- Number of leading zero bits (R105). -/
def leadingZeros (a : W64) : Nat := if a = 0 then 64 else 63 - Nat.log2 a.toNat

/-- Number of 1 bits among the low `n`. -/
def countOnes (a : Nat) : Nat → Nat
  | 0 => 0
  | n + 1 => a / 2 ^ n % 2 + countOnes a n

/-- R105 -/
def execAdd (d a b : GReg) (s : State) : Out := helmValue 4 d (fun t => t.reg a + t.reg b) s
/-- R105 -/
def execSub (d a b : GReg) (s : State) : Out := helmValue 4 d (fun t => t.reg a - t.reg b) s
/-- R105 -/
def execAnd (d a b : GReg) (s : State) : Out := helmValue 4 d (fun t => t.reg a &&& t.reg b) s
/-- R105 -/
def execOr (d a b : GReg) (s : State) : Out := helmValue 4 d (fun t => t.reg a ||| t.reg b) s
/-- R105 -/
def execXor (d a b : GReg) (s : State) : Out := helmValue 4 d (fun t => t.reg a ^^^ t.reg b) s
/-- R105 -/
def execShl (d a b : GReg) (s : State) : Out := helmValue 4 d (fun t => t.reg a <<< ((t.reg b).toNat % 64)) s
/-- R105 -/
def execShr (d a b : GReg) (s : State) : Out := helmValue 4 d (fun t => t.reg a >>> ((t.reg b).toNat % 64)) s
/-- R105 -/
def execSha (d a b : GReg) (s : State) : Out := helmValue 4 d (fun t => (t.reg a).sshiftRight ((t.reg b).toNat % 64)) s
/-- R105 -/
def execMul (d a b : GReg) (s : State) : Out := helmValue 4 d (fun t => t.reg a * t.reg b) s
/-- R105 -/
def execMulh (d a b : GReg) (s : State) : Out := helmValue 4 d (fun t => highProduct ((t.reg a).toInt * (t.reg b).toInt)) s
/-- R105 -/
def execMulhu (d a b : GReg) (s : State) : Out := helmValue 4 d (fun t => highProduct (((t.reg a).toNat * (t.reg b).toNat : Nat) : Int)) s
/-- R105, R106 -/
def execDiv (d a b : GReg) (s : State) : Out := helmValue 4 d (fun t => divSigned (t.reg a) (t.reg b)) s
/-- R105, R106 -/
def execDivu (d a b : GReg) (s : State) : Out := helmValue 4 d (fun t => divNatural (t.reg a) (t.reg b)) s
/-- R105, R106 -/
def execRem (d a b : GReg) (s : State) : Out := helmValue 4 d (fun t => remSigned (t.reg a) (t.reg b)) s
/-- R105, R106 -/
def execRemu (d a b : GReg) (s : State) : Out := helmValue 4 d (fun t => remNatural (t.reg a) (t.reg b)) s
/-- R105 -/
def execMin (d a b : GReg) (s : State) : Out := helmValue 4 d (fun t => if (t.reg a).slt (t.reg b) then t.reg a else t.reg b) s
/-- R105 -/
def execMinu (d a b : GReg) (s : State) : Out := helmValue 4 d (fun t => if (t.reg a).ult (t.reg b) then t.reg a else t.reg b) s
/-- R105 -/
def execMax (d a b : GReg) (s : State) : Out := helmValue 4 d (fun t => if (t.reg a).slt (t.reg b) then t.reg b else t.reg a) s
/-- R105 -/
def execMaxu (d a b : GReg) (s : State) : Out := helmValue 4 d (fun t => if (t.reg a).ult (t.reg b) then t.reg b else t.reg a) s
/-- R105 -/
def execSlt (d a b : GReg) (s : State) : Out := helmValue 4 d (fun t => boolWord ((t.reg a).slt (t.reg b))) s
/-- R105 -/
def execSltu (d a b : GReg) (s : State) : Out := helmValue 4 d (fun t => boolWord ((t.reg a).ult (t.reg b))) s
/-- R105 -/
def execClz (d a : GReg) (s : State) : Out := helmValue 4 d (fun t => BitVec.ofNat 64 (leadingZeros (t.reg a))) s
/-- R105 -/
def execPopc (d a : GReg) (s : State) : Out := helmValue 4 d (fun t => BitVec.ofNat 64 (countOnes (t.reg a).toNat 64)) s
/-- R107 -/
def execBext (d a b : GReg) (s : State) : Out := helmValue 4 d (fun t => (t.reg a &&& fieldMask (t.reg b)) >>> ((t.reg b).toNat % 64)) s
/-- R107 -/
def execBins (d a b : GReg) (s : State) : Out := helmValue 4 d (fun t => (t.reg d &&& ~~~(fieldMask (t.reg b))) ||| ((t.reg a <<< ((t.reg b).toNat % 64)) &&& fieldMask (t.reg b))) s
/-- R108 -/
def execAddi (d a : GReg) (imm : BitVec 12) (s : State) : Out := helmValue 4 d (fun t => t.reg a + imm12 imm) s
/-- R108 -/
def execAndi (d a : GReg) (imm : BitVec 12) (s : State) : Out := helmValue 4 d (fun t => t.reg a &&& imm12 imm) s
/-- R108 -/
def execOri (d a : GReg) (imm : BitVec 12) (s : State) : Out := helmValue 4 d (fun t => t.reg a ||| imm12 imm) s
/-- R108 -/
def execXori (d a : GReg) (imm : BitVec 12) (s : State) : Out := helmValue 4 d (fun t => t.reg a ^^^ imm12 imm) s
/-- R108 -/
def execSlti (d a : GReg) (imm : BitVec 12) (s : State) : Out := helmValue 4 d (fun t => boolWord ((t.reg a).slt (imm12 imm))) s
/-- R108 -/
def execShli (d a : GReg) (n : BitVec 6) (s : State) : Out := helmValue 4 d (fun t => t.reg a <<< n.toNat) s
/-- R108 -/
def execShri (d a : GReg) (n : BitVec 6) (s : State) : Out := helmValue 4 d (fun t => t.reg a >>> n.toNat) s
/-- R108 -/
def execShai (d a : GReg) (n : BitVec 6) (s : State) : Out := helmValue 4 d (fun t => (t.reg a).sshiftRight n.toNat) s
/-- R109, R110 -/
def execFadd (p : Bool) (d a b : GReg) (s : State) : Out := helmValue 4 d (fun t => BitVec.ofNat 64 (fAdd (fpOf p) 0 false (helmOrigin p t) (fpArg p (t.reg a)) (fpArg p (t.reg b)))) s
/-- R109, R110 -/
def execFsub (p : Bool) (d a b : GReg) (s : State) : Out := helmValue 4 d (fun t => BitVec.ofNat 64 (fSub (fpOf p) 0 false (helmOrigin p t) (fpArg p (t.reg a)) (fpArg p (t.reg b)))) s
/-- R109, R110 -/
def execFmul (p : Bool) (d a b : GReg) (s : State) : Out := helmValue 4 d (fun t => BitVec.ofNat 64 (fMul (fpOf p) 0 false (helmOrigin p t) (fpArg p (t.reg a)) (fpArg p (t.reg b)))) s
/-- R109, R110 -/
def execFdiv (p : Bool) (d a b : GReg) (s : State) : Out := helmValue 4 d (fun t => BitVec.ofNat 64 (fDiv (fpOf p) 0 false (helmOrigin p t) (fpArg p (t.reg a)) (fpArg p (t.reg b)))) s
/-- R109, R110 -/
def execFsqrt (p : Bool) (d a : GReg) (s : State) : Out := helmValue 4 d (fun t => BitVec.ofNat 64 (fSqrt (fpOf p) 0 false (helmOrigin p t) (fpArg p (t.reg a)))) s
/-- R111 -/
def execFmin (p : Bool) (d a b : GReg) (s : State) : Out := helmValue 4 d (fun t => BitVec.ofNat 64 (fMinMax (fpOf p) true (fpArg p (t.reg a)) (fpArg p (t.reg b)))) s
/-- R111 -/
def execFmax (p : Bool) (d a b : GReg) (s : State) : Out := helmValue 4 d (fun t => BitVec.ofNat 64 (fMinMax (fpOf p) false (fpArg p (t.reg a)) (fpArg p (t.reg b)))) s
/-- R112 -/
def execFclass (p : Bool) (d a : GReg) (s : State) : Out := helmValue 4 d (fun t => BitVec.ofNat 64 (2 ^ fClassBit (fpOf p) (fpArg p (t.reg a)))) s
/-- R112 -/
def execFcmpEq (p : Bool) (d a b : GReg) (s : State) : Out := helmValue 4 d (fun t => boolWord (floatRelation (fpOf p) 0 (fpArg p (t.reg a)) (fpArg p (t.reg b)))) s
/-- R112 -/
def execFcmpLt (p : Bool) (d a b : GReg) (s : State) : Out := helmValue 4 d (fun t => boolWord (floatRelation (fpOf p) 1 (fpArg p (t.reg a)) (fpArg p (t.reg b)))) s
/-- R112 -/
def execFcmpLe (p : Bool) (d a b : GReg) (s : State) : Out := helmValue 4 d (fun t => boolWord (floatRelation (fpOf p) 2 (fpArg p (t.reg a)) (fpArg p (t.reg b)))) s
/-- R112 -/
def execFcmpUn (p : Bool) (d a b : GReg) (s : State) : Out := helmValue 4 d (fun t => boolWord (floatRelation (fpOf p) 3 (fpArg p (t.reg a)) (fpArg p (t.reg b)))) s
/-- R113 -/
def execFcvtLP (p : Bool) (rnd : BitVec 3) (d a : GReg) (s : State) : Out := helmValue 4 d (fun t => BitVec.ofNat 64 (toIntCode true 64 rnd.toNat (unpackFp (fpOf p) (fpArg p (t.reg a))))) s
/-- R113 -/
def execFcvtNP (p : Bool) (rnd : BitVec 3) (d a : GReg) (s : State) : Out := helmValue 4 d (fun t => BitVec.ofNat 64 (toIntCode false 64 rnd.toNat (unpackFp (fpOf p) (fpArg p (t.reg a))))) s
/-- R113 -/
def execFcvtPL (p : Bool) (rnd : BitVec 3) (d a : GReg) (s : State) : Out := helmValue 4 d (fun t => BitVec.ofNat 64 (roundDy (fpOf p) rnd.toNat false false (Dy.ofInt (t.reg a).toInt))) s
/-- R113 -/
def execFcvtPN (p : Bool) (rnd : BitVec 3) (d a : GReg) (s : State) : Out := helmValue 4 d (fun t => BitVec.ofNat 64 (roundDy (fpOf p) rnd.toNat false false (Dy.ofInt (t.reg a).toNat))) s
/-- R113 -/
def execFcvtSD (rnd : BitVec 3) (d a : GReg) (s : State) : Out := helmValue 4 d (fun t => BitVec.ofNat 64 (convertFmt 1 0 rnd.toNat false (t.reg a).toNat).1) s
/-- R113 -/
def execFcvtDS (rnd : BitVec 3) (d a : GReg) (s : State) : Out := helmValue 4 d (fun t => BitVec.ofNat 64 (convertFmt 0 1 rnd.toNat false ((t.reg a).toNat % 2 ^ 32)).1) s
/-- R114 -/
def execFma (p : Bool) (rnd : BitVec 3) (d a b c : GReg) (s : State) : Out :=
  helmValue 8 d (fun t => BitVec.ofNat 64 (fFma (fpOf p) rnd.toNat false false false (helmOrigin p t) (fpArg p (t.reg a)) (fpArg p (t.reg b)) (fpArg p (t.reg c)))) s
/-- R114 -/
def execFms (p : Bool) (rnd : BitVec 3) (d a b c : GReg) (s : State) : Out :=
  helmValue 8 d (fun t => BitVec.ofNat 64 (fFma (fpOf p) rnd.toNat false false true (helmOrigin p t) (fpArg p (t.reg a)) (fpArg p (t.reg b)) (fpArg p (t.reg c)))) s
/-- R114 -/
def execFnma (p : Bool) (rnd : BitVec 3) (d a b c : GReg) (s : State) : Out :=
  helmValue 8 d (fun t => BitVec.ofNat 64 (fFma (fpOf p) rnd.toNat false true false (helmOrigin p t) (fpArg p (t.reg a)) (fpArg p (t.reg b)) (fpArg p (t.reg c)))) s
/-- R114 -/
def execFnms (p : Bool) (rnd : BitVec 3) (d a b c : GReg) (s : State) : Out :=
  helmValue 8 d (fun t => BitVec.ofNat 64 (fFma (fpOf p) rnd.toNat false true true (helmOrigin p t) (fpArg p (t.reg a)) (fpArg p (t.reg b)) (fpArg p (t.reg c)))) s
/-- R115 -/
def execLi (d : GReg) (imm : W32) (s : State) : Out := helmValue 8 d (fun _ => imm.signExtend 64) s
/-- R115 -/
def execLiHi (d : GReg) (imm : W32) (s : State) : Out :=
  helmValue 8 d (fun t => BitVec.ofNat 64 ((t.reg d).toNat % 2 ^ 32 + imm.toNat * 2 ^ 32)) s
/-- R116 -/
def execLea (d a : GReg) (seg : BitVec 4) (imm : W32) (s : State) : Out :=
  helmValue 8 d (fun t => BitVec.ofNat 64 (segBase (t.seg seg.toNat)) + t.reg a + imm.signExtend 64) s

end Sys2Proof.Machine
end

