-- ==== Sys2Proof/Machine/Nests.lean ====
section
/-! DEFINITION. Launches and nests: `nest.launch`, `fork`, the walkers' dispatch, completion (14_scheduling.md R371 to R380, R387). -/

namespace Sys2Proof.Machine

/-! ### The loop-nest record (R375) -/

/-- COUNTd of the record image. -/
def recordCount (r d : Nat) : Nat := bitsOf r (32 * d + 799) (32 * d + 768)

/-- The record's fields. -/
def nestRecordOf (r : Nat) (ext : Option (List W128 × List W32)) : NestRecord :=
  { counts := (List.range 8).map (recordCount r), code := BitVec.ofNat 64 (bitsOf r 767 704), argBase := bitsOf r 703 640
    argLen := bitsOf r 447 416, stkBase := bitsOf r 639 576, stkSlots := bitsOf r 463 448, stack := bitsOf r 415 384, ext := ext
    live := bitsOf r 511 464, cntOff := bitsOf r 383 352, cwp := bitsOf r 351 320, bwp := bitsOf r 319 288, bph := bitsOf r 287 256
    memMask := bitsOf r 255 248, depth := bitsOf r 247 244 + 1, bscope := bitsOf r 243 241, duplex := bitOf r 240, ngrp := bitsOf r 239 236 + 1 }

/-- The natural product of the counts that `f` selects among the record's dimensions. -/
def NestRecord.product (r : NestRecord) (f : Nat → Bool) : Nat :=
  ((List.range r.depth).map fun d => if f d then r.counts.getD d 0 else 1).foldl (· * ·) 1

/-- A ring-map entry of the extension table with a nonzero must-be-0 bit. -/
def ringEntryBad (e : Nat) : Bool := bitsOf e 30 20 != 0 || bitsOf e 11 4 != 0

/-- The extension descriptor is one that a launch refuses (R378). -/
def extDescriptorBad (d : W128) : Bool := (descriptorFault d).isSome || segSpace d != 0

/-- The checks of R378 step 3; `entry` is the object-table entry of CODE.OBJ, if it can be read. -/
def nestRecordBad (image : Nat) (r : NestRecord) (entry : Option Nat) : Bool :=
  bitsOf image 235 0 != 0 ||
  (match entry with
   | none => true
   | some e => decide (entryState e < 2) || bitsOf e 121 120 == 3 || decide (r.ngrp > 256 / (16 * 2 ^ bitsOf e 121 120))) ||
  decide (r.depth > 8) ||
  (List.range 8).any (fun d => decide (r.depth ≤ d) && (r.counts.getD d 0 != 0 || bitOf r.memMask d)) ||
  r.stack == 0 || r.stack % 16 != 0 || r.stkSlots == 0 || decide (r.bscope > 5) ||
  decide (r.product (fun d => !bitOf r.memMask d) > 2 ^ 48 - 1) ||
  (match r.ext with
   | none => false
   | some (ds, es) => ds.any extDescriptorBad || es.any fun e => ringEntryBad e.toNat)

/-! ### nest.launch and fork (R377 to R379, R387) -/

/-- An entry of the device context table under which no launch is made (R372). -/
def Dct.refuses (d : Dct) : Bool :=
  !d.valid || d.bad || d.saveStride == 0 || d.saveStride % 4096 != 0 || d.nteam == 0

/-- `8 n` bytes of a record of the program, in units of 8 bytes. -/
def readRecordUnits (t : Team) (l : Located) : Nat → M (List Nat)
  | 0 => pure []
  | n + 1 => do
    let us ← readRecordUnits t l n
    let bs ← readSpace t.place t.regionsNow { l with loc := l.loc + 8 * n, va := l.va.map (· + 8 * n) } 8
    pure (us ++ [readValue bs])

/-- The location of a record of `n` bytes in lines of 64: its limit is that of the whole, its alignment 64 (R378). -/
def recordLoc (t : Team) (sg : W128) (off : Int) : Nat → M (List Nat)
  | 0 => pure []
  | n + 1 => do
    let us ← recordLoc t sg off n
    let l ← helmAddress t sg (off + 64 * n) 64 .read
    let vs ← readRecordUnits t l 8
    pure (us ++ vs)

/-- The value of 8-byte units in ascending order. -/
def unitsValue (us : List Nat) : Nat := us.foldr (fun x y => x + y * 2 ^ 64) 0

/-- The extension table, read through seg4: ten descriptors and sixteen ring-map entries. -/
def readExtension (t : Team) (a : Nat) : M (List W128 × List W32) := do
  let us ← recordLoc t (t.seg 4) a 3
  let l ← helmAddress t (t.seg 4) (a + 192 : Nat) 32 .read
  let vs ← readRecordUnits t l 4
  let v := unitsValue (us ++ vs)
  pure ((List.range 10).map (fun i => BitVec.ofNat 128 (v / 2 ^ (128 * i))), (List.range 16).map fun i => BitVec.ofNat 32 (v / 2 ^ (1280 + 32 * i)))

/-- The next launch count of a queue: from 1, modulo 2^26, 0 skipped (R377). -/
def State.nextCount (s : State) (q : Nat) : Nat :=
  let c := ((s.launched.find? fun x => x.1 == q).map (·.2)).getD 0
  if c + 1 ≥ 2 ^ 26 then 1 else c + 1

def State.queueOf (s : State) (q : Nat) : List Nest := s.nests.filter fun n => n.queue == q

/-- Puts a fork ahead of every launch of its queue that is not dispatched (R387). -/
def insertFork (n : Nest) : List Nest → List Nest
  | [] => [n]
  | m :: ms => if m.queue = n.queue && !m.started then n :: m :: ms else m :: insertFork n ms

/-- The checks and the push of R378; answers the NID. `fork` forks a child nest. -/
def launchNest (t : Team) (d a : GReg) (order fork : Bool) (queue : BitVec 6) (seg : BitVec 4) (imm : W32) : M Nat := do
  let dct ← readDct t.place t.dctx
  need (bitOf dct.qmask queue.toNat && !dct.refuses) cPRIV
  needWritable t d
  let sg := t.seg seg.toNat
  -- the limit is that of the whole record
  let off : Int := (imm.toNat : Int)
  if off + 128 > segLimit sg then raise cSEG_LIMIT (wrapOf 64 ((segBase sg : Int) + off))
  let us ← recordLoc t sg off 2
  let image := unitsValue us
  let ea := bitsOf image 575 512
  let ext ← (if ea = 0 then pure none else do
    if ea + 224 > segLimit (t.seg 4) then raise cSEG_LIMIT (segBase (t.seg 4) + ea)
    let e ← readExtension t ea
    pure (some e))
  let r := nestRecordOf image ext
  let s ← get
  let obj := r.code.toNat / 2 ^ 48
  let entry := (if obj = 0 then none else s.objLoc { t with dct := dct } obj).map fun (loc, s) => leNat ((s.homeBytes loc 64).map (·.value))
  need (!nestRecordBad image r entry) cQUEUE_PROTOCOL
  if r.argBase + r.argLen > 2 ^ 57 then raise cSEG_LIMIT r.argBase
  if r.stkBase + r.stkSlots * r.stack > 2 ^ 57 then raise cSEG_LIMIT r.stkBase
  if (s.queueOf queue.toNat).length ≥ 1024 then waitOn (.launchQueue queue.toNat)
  modify fun s => s.drainParty t.place.party
  let s ← get
  let count := s.nextCount queue.toNat
  let nid := queue.toNat * 2 ^ 26 + count
  let n : Nest :=
    { nid := nid, queue := queue.toNat, dctx := t.dctx, record := r, launchWord := t.reg a, order := order, launcher := t.place, seg2 := t.seg 2
      regions := if bitOf t.mmcfg.toNat 0 then some t.regionsNow else none, release := s.releaseOf t.place 4
      parent := if fork then some t.key else none, dispatched := false, started := false, total := 0, nextOrd := 0, aspace := dct.aspace, dct := dct
      teams := [], done := [], finished := false, cellar := [], stackUsed := [] }
  set { s with
    launched := (queue.toNat, count) :: s.launched.filter fun x => x.1 != queue.toNat
    nests := if fork then insertFork n s.nests else s.nests ++ [n] }
  if fork then mapTeamM t.key fun t => { t with children := t.children + 1 }
  pure nid

def execNestLaunch (d a : GReg) (flag : Bool) (queue : BitVec 6) (seg : BitVec 4) (imm : W32) (s : State) : Out :=
  runHelm 8 (fun t => do
    let nid ← launchNest t d a flag false queue seg imm
    setG t.key d (BitVec.ofNat 64 nid)
    pure .seq) s

/-! ### NEST_DISPATCH (R373, R380) -/

def State.nest? (s : State) (nid : Nat) : Option Nest := s.nests.find? fun n => n.nid == nid

def State.mapNest (s : State) (nid : Nat) (f : Nest → Nest) : State :=
  { s with nests := s.nests.map fun n => if n.nid == nid then f n else n }

/-- The nest has no iteration left to place; with no team live it completes (R374). -/
def State.endNest (s : State) (nid : Nat) : State :=
  s.mapNest nid fun n => { n with dispatched := true, started := true, total := 0, nextOrd := 0, finished := n.teams.isEmpty }

/-- A nest that completes with no team placed because of a failure (R380, R417). -/
def State.failNest (s : State) (nid cause : Nat) : State :=
  (s.endNest nid).post (sePlace s.lowestDie) { RecordFields.zero with seq := nid, cmd := 0xE, cause := cause }

/-- The walker as a party of the launching team (R380). -/
def Nest.walker (n : Nest) : Place := { n.launcher with party := .se n.launcher.die }

/-- The launching team as the walker reads through it, in the context as the launch read it (R372). -/
def Nest.reader (n : Nest) : Team :=
  { Team.fresh n.launcher.team n.dctx 0 with bay := n.launcher.bay, dct := n.dct, segs := (List.replicate 16 0).set 2 n.seg2 }

/-- The memory counts, with what the walker knows; each is one relaxed read. -/
def readCounts (n : Nest) (t : Team) (known lifted : List Nat) : Nat → M (List Nat)
  | 0 => pure []
  | d + 1 => do
    let cs ← readCounts n t known lifted d
    if bitOf n.record.memMask d then do
      let l ← address t t.bay false false n.seg2 ((n.record.cntOff + 4 * d : Nat) : Int) 4 .read
      let bs ← (fun s => .ok (s.readWith n.walker known lifted (n.regions.getD []) l.va l.loc 4) : M (List ByteRead))
      pure (cs ++ [readValue bs])
    else pure (cs ++ [n.record.counts.getD d 0])

/-- The walker reads the counts of a launch, knowing what its bound wait acquired. -/
def State.dispatch (s : State) (n : Nest) (rs : List Release) : State :=
  let met := rs.filter fun r => r.reaches n.walker n.record.bscope
  let known := met.foldl (fun a r => unionIds a r.known) []
  let lifted := rs.foldl (fun a r => unionIds a (unionIds r.known r.lifted)) []
  let go : M (List Nat) := do
    readCounts n n.reader known lifted n.record.depth
  match go s with
  | .error (.trap c) => s.failNest n.nid c.code
  | .error (.wait _ s') => s'
  | .error (.fault _) => s
  | .ok (cs, s) =>
    let total := cs.foldl (· * ·) 1
    if total > 2 ^ 48 - 1 then s.failNest n.nid cQUEUE_PROTOCOL
    else
      let s := s.mapNest n.nid fun n => { n with record := { n.record with counts := cs }, dispatched := true, total := total }
      if total = 0 then s.endNest n.nid else s

/-- NEST_DISPATCH: the first launch of a queue that is not dispatched. -/
def execNestDispatch (queue : Nat) (s : State) : Out :=
  runEvent (fun s => do
    let n ← (s.queueOf queue).find? fun n => !n.started && !n.finished
    if n.dispatched then none
    else if n.record.bwp = 0 then some (s.dispatch n [])
    else match s.waypoint? n.record.bwp n.aspace with
      | none => some (s.failNest n.nid cWAYPOINT_PROTOCOL)
      | some w => if w.done n.record.bph then some (s.dispatch n (w.releasesTo n.record.bph)) else none) s

/-! ### NEST_COMPLETION (R374) -/

/-- The storage of a local allotment is given back, and its contents are lost (R222, R223). -/
def State.dropStorage (s : State) (tag : Nat) : State :=
  if tag = 0 then s
  else { s with mem := s.mem.filter fun c => storageOf c.1 != tag
                writes := s.writes.filter fun w => storageOf w.loc != tag
                allots := s.allots.filter fun a => a.tag != tag }

/-- The completion arrival at CWP, with the releases of every team's exit. -/
def State.arriveCwp (s : State) (n : Nest) : State :=
  if n.record.cwp = 0 then s
  else match s.waypoint? n.record.cwp n.aspace with
    | none => s
    | some w => (s.mapWaypoint w fun w => { w with releases := w.releases ++ n.done.map fun r => (w.phase, r) }).arrive w 1 0 0 false none

/-- The forking team counts a completed child, whose accesses come before its next `join` ends (R388). -/
def State.childDone (s : State) (n : Nest) : State :=
  match n.parent with
  | none => s
  | some k => s.mapTeam k fun t =>
      { t with children := t.children - 1, joined := t.joined + 1
               childRelease := n.done.foldl (fun c r => { c with known := unionIds c.known r.known, lifted := unionIds c.lifted r.lifted }) t.childRelease }

def State.completeNest (s : State) (n : Nest) : State :=
  let s := s.arriveCwp n
  let s := n.cellar.foldl (fun s c => s.dropStorage c.2) s
  let s := s.reclaim fun w => w.life == 1 && w.owner == n.nid && w.aspace == n.aspace
  let s := s.childDone n
  { s with nests := s.nests.filter fun m => m.nid != n.nid }

/-- Launches of the queue that were pushed before and have not completed. -/
def State.earlierLaunches (s : State) (n : Nest) : List Nest := (s.queueOf n.queue).takeWhile fun m => m.nid != n.nid

def execNestCompletion (nid : Nat) (s : State) : Out :=
  runEvent (fun s => do
    let n ← s.nest? nid
    if n.finished && (!n.order || (s.earlierLaunches n).isEmpty) then some (s.completeNest n) else none) s

end Sys2Proof.Machine
end

