-- ==== Sys2Proof/Machine/Dump.lean ====
section
/-! DEFINITION. The dump image and its writer; the image of a full save read back (15_traps.md R409 to R412; 09_matrix.md R276). -/

namespace Sys2Proof.Machine

/-! ### What the writer knows (R301, R409) -/

/-- Every write that is an access of the team since its start, or happens before one, or that a party of the team knows. -/
def State.teamKnown (s : State) (t : Team) : List Nat :=
  let mine := s.writes.filter fun w => w.place.team == t.key && w.place.inst == t.born
  let ks := s.know.filter fun k => k.party.ofTeam t.key
  ks.foldl (fun a k => unionIds a k.known) (mine.foldl (fun a w => unionIds a (w.id :: w.known)) [])

def State.teamLifted (s : State) (t : Team) : List Nat :=
  (s.know.filter fun k => k.party.ofTeam t.key).foldl (fun a k => unionIds a k.lifted) (s.teamKnown t)

/-- `n` bytes of an allotment as the writer reads them; an allotment of tag 0 is empty. -/
def State.readStorage (s : State) (p : Place) (known lifted : List Nat) (tag : Nat) : Nat → List Byte × State
  | 0 => ([], s)
  | n + 1 =>
    let (bs, s) := s.readStorage p known lifted tag n
    let (b, s) := s.readWith p known lifted [] none (locOf tag n) 1
    (bs ++ b.map (·.value), s)

/-! ### Sections (R411) -/

/-- Zeros after the bytes, up to `n`. -/
def padTo (n : Nat) (bs : List Byte) : List Byte := bs.take n ++ List.replicate (n - bs.length) 0

def wordBytes (n : Nat) (vs : List Nat) : List Byte := vs.flatMap (leBytes n)

/-- The user's descriptors and object: those of the save area while the context is in a vector. -/
def State.userSegs (s : State) (t : Team) : (List Nat × Nat) × State :=
  let own := (t.segs.map (·.toNat), t.curObj)
  if !t.inVector then (own, s)
  else match s.partAddr t (t.block + 0xE000) with
    | .error c => (own, s.answered c.code)
    | .ok (loc, s) => match readUnits t.place loc 33 s with
      | .error _ => (own, s)
      | .ok (u, s) => (((List.range 16).map fun i => u.getD (2 * i) 0 + u.getD (2 * i + 1) 0 * 2 ^ 64, u.getD 32 0 % 2 ^ 16), s)

def sectionRegs (s : State) (t : Team) (clock : W64) : List Byte :=
  wordBytes 8 ((List.range 64).map fun i => (t.reg (BitVec.ofNat 6 i)).toNat) ++
  wordBytes 8 ((List.range 32).map fun n => if n = 0x18 then clock.toNat else (t.sysValue s n).toNat)

/-- A ring-map entry in the layout of the extension table. -/
def ringEntry (r : Option RingRef) : Nat :=
  match r with | none => 0 | some r => 2 ^ 31 + r.bay % 256 * 2 ^ 12 + r.desc % 16

/-- `own` are the user's descriptors and object. -/
def sectionContext (t : Team) (own : List Nat × Nat) : List Byte :=
  let (segs, obj) := own
  wordBytes 16 segs ++ padTo 64 (leBytes 8 obj) ++ wordBytes 16 (t.shapes.map Shape.image) ++ wordBytes 8 (t.fmts.map (·.toNat)) ++
  wordBytes 8 (t.rings.map ringEntry)

def kindCode (k : EntryKind) : Nat :=
  match k with | .run => 0 | .splitA => 1 | .splitB => 2 | .join => 3 | .mark => 4 | .eos => 5 | .nop => 6

/-- The 256 bits of R151. -/
def CqEntry.image (e : CqEntry) : Nat :=
  e.tag % 2 ^ 32 * 2 ^ 224 + e.arg1.toNat * 2 ^ 192 + e.arg0.toNat * 2 ^ 160 + e.tmask.toNat * 2 ^ 96 + e.trips % 2 ^ 24 * 2 ^ 72 +
  e.block % 2 ^ 16 * 2 ^ 56 + e.gsel % 256 * 2 ^ 48 + e.layer % 16 * 2 ^ 44 + b2n e.rel * 2 ^ 43 + e.rscope % 8 * 2 ^ 40 +
  e.win % 128 * 2 ^ 20 + kindCode e.kind * 2 ^ 16 + e.n % 2 ^ 16

/-- The 128 bits of R166. -/
def RqEntry.image (e : RqEntry) : Nat :=
  e.flags % 256 * 2 ^ 120 + e.predv.toNat * 2 ^ 40 + e.block % 2 ^ 16 * 2 ^ 24 + e.grp % 256 * 2 ^ 16 + e.seq % 2 ^ 16

/-- A clock that every write to the group's registers is ordered before. -/
def Group.lastClock (g : Group) : List Nat := g.rlog.foldl (fun v w => joinClock v w.vc) []

/-- The value that a lane's register is left with: of the last writes in the order of R190, any one. -/
def Group.latest (g : Group) (tick reg lane : Nat) : W32 :=
  let o := g.regOptions reg lane g.lastClock
  o.getD (pickOf o.length (tick + g.num * 2 ^ 14 + reg * 64 + lane)) 0

/-- Free points that the registers of all groups may take. -/
def latestTicks : Nat := 2 ^ 19

def Group.latestMask (g : Group) (tick width k : Nat) : Nat :=
  ((List.range width).map fun i => if g.latest tick (regM k) i = 0 then 0 else 2 ^ i).foldl (· + ·) 0

def engineImage (e : Engine) : Nat :=
  (if e.running then e.off % 2 ^ 32 + e.trip % 2 ^ 32 * 2 ^ 32 else 0) + e.passed % 2 ^ 32 * 2 ^ 64 +
  (if e.running then e.rep % 256 * 2 ^ 96 else 0)

/-- A slot of lq or sq that is filled. -/
def filledSlots (q : List Slot) : List Slot := (q.filter fun x => x.pending == 0).take 8

def slotPaths (q : List Slot) : Nat := q.zipIdx.foldl (fun a x => a + x.1.path % 4 * 4 ^ x.2) 0

/-- The exact sum of a fold with bit 0 weighing 2^-149, two's complement. -/
def foldSum (d : Dy) : Nat := wrapOf 320 (d.num * 2 ^ (d.exp + 149).toNat)

/-- The partial fold of a `vred` in progress, also of one that no element has entered (R411). -/
def foldImage (p : Option Partial) : Nat :=
  match p with
  | none => 0
  | some p => 2 ^ 352 + match p.fold with
    | none => 0
    | some f =>
      2 ^ 357 + if f.add then
        foldSum f.sum.sum + (f.sum.nan.getD 0) % 2 ^ 32 * 2 ^ 320 + b2n f.sum.posInf * 2 ^ 353 + b2n f.sum.negInf * 2 ^ 354 +
        b2n f.sum.nan.isSome * 2 ^ 355 +
        b2n (f.sum.sawNeg && !f.sum.sawPos && f.sum.sum.num == 0 && !f.sum.negInf && !f.sum.posInf && f.sum.nan.isNone) * 2 ^ 356
      else f.run % 2 ^ 32 * 2 ^ 320

/-- A path slot's token counters, which stand from team start on, also while no path holds the slot (R172). -/
def countersImage (x : Path) : Nat := x.lc.length % 16 + x.cl.length % 16 * 16 + x.cs.length % 16 * 256 + x.sc.length % 16 * 4096

def pathImage (t : Team) (g : Group) (p : Nat) : Nat :=
  let x := g.pathAt p
  countersImage x * 2 ^ 96 + if !x.live then 0
  else
    let e := x.c
    let seq := match t.entryAt e.entry with | some n => n.n % 2 ^ 16 | none => e.entry % 2 ^ 16
    (if e.running then e.off % 2 ^ 32 + e.trip % 2 ^ 32 * 2 ^ 32 else 0) + seq * 2 ^ 64 + (if e.running then e.rep % 256 * 2 ^ 80 else 0) +
    2 ^ 88 + x.m0.toNat * 2 ^ 128 + e.passed % 2 ^ 32 * 2 ^ 192

def uniformBytes (e : Engine) : List Byte := wordBytes 4 (e.y.map (·.toNat))

/-- The group's L and S engines as the freeze left them, also while a service entry runs. -/
def Group.frozenL (g : Group) : Engine := g.savedL.getD g.l
def Group.frozenS (g : Group) : Engine := g.savedS.getD g.s

/-- The blocks that are mapped: those of the map that the next push sees, and those whose surrender has not taken effect (R188). -/
def Team.heldMap (t : Team) (g : Group) : BitVec 7 :=
  (t.surrenders.filter fun x => x.grp == g.num).foldl (fun m x => m ||| BitVec.ofNat 7 (2 ^ x.block)) (g.mapAt t.nextPush)

/-- A group record with its slots. -/
def groupRecord (t : Team) (tick : Nat) (g : Group) : List Byte :=
  let w := t.kernel.width
  let lq := filledSlots g.lq
  let sq := filledSlots g.sq
  let live := (g.liveSlots.filter (· < 4)).foldl (fun a p => a + 2 ^ p) 0
  let slots (q : List Slot) : List Byte := padTo (32 * w) (q.flatMap fun x => wordBytes 4 (x.elems.map (·.toNat)))
  leBytes 8 (g.num % 32 + live * 2 ^ 8 + (t.heldMap g).toNat * 2 ^ 16) ++ leBytes 8 g.gang.toNat ++
  wordBytes 8 ((List.range 7).map fun k => g.latestMask tick w (k + 1)) ++
  wordBytes 4 ((List.range 4).map fun n => (g.latest tick (regY (n + 4)) 0).toNat) ++
  leBytes 16 (engineImage g.frozenL) ++ leBytes 16 (engineImage g.frozenS) ++
  leBytes 8 (lq.length + sq.length * 16 + slotPaths lq * 2 ^ 8 + slotPaths sq * 2 ^ 24) ++
  (List.range 4).flatMap (fun p => leBytes 32 (pathImage t g p)) ++ uniformBytes g.frozenL ++ uniformBytes g.frozenS ++
  padTo 0x20 (leBytes 4 (g.ganged % 2 ^ 32)) ++ (List.range 4).flatMap (fun p => uniformBytes (g.pathAt p).c) ++
  (List.range 4).flatMap (fun p => leBytes 64 (foldImage (g.pathAt p).fold)) ++ slots lq ++ slots sq

def sectionQueues (t : Team) (tick : Nat) : List Byte :=
  let finished (e : CqEntry) : Nat := (t.groups.filter fun g => e.selects g.num && g.passed e.n).foldl (fun a g => a + 2 ^ g.num) 0
  leBytes 64 (t.cq.length + t.rq.length * 2 ^ 8 + b2n t.service.isSome * 2 ^ 16) ++ padTo 2048 (wordBytes 32 (t.cq.map CqEntry.image)) ++
  padTo 256 (wordBytes 4 (t.cq.map finished)) ++ padTo 256 (wordBytes 16 (t.rq.map RqEntry.image)) ++ t.groups.flatMap (groupRecord t tick)

/-- The mapped blocks of a group, ascending. -/
def Group.mapped (t : Team) (g : Group) : List Nat := (List.range 7).filter fun b => (t.heldMap g).getLsbD b

def sectionBlocks (t : Team) (tick : Nat) : List Byte :=
  t.groups.flatMap fun g => (g.mapped t).flatMap fun b => (List.range 16).flatMap fun r =>
    wordBytes 4 ((List.range t.kernel.width).map fun i => (g.latest tick (16 * b + r) i).toNat)

/-- A whole tile as an image of R274. -/
def tileImage (x : Tile) : List Byte :=
  leBytes 64 (x.steps.toNat * 2 ^ 96 + x.acc * 2 ^ 64 + 127 * 2 ^ 56 + 127 * 2 ^ 48) ++
  wordBytes 4 ((List.range 16384).map fun i => (sparseGet x.elems i).toNat)

/-- B as bytes: one column after another, each packed (R253). -/
def bBytes (grk grn bits : Nat) (b : List Nat) : List Byte :=
  let kb := packedBytes bits grk
  (List.range grn).flatMap fun c => leBytes kb (((List.range grk).map fun k => b.getD (k + c * grk) 0 * 2 ^ (k * bits)).foldl (· + ·) 0)

def pinnedImage (x : MatrixSlot) : List Byte :=
  if x.pinned then
    leBytes 64 (x.grk % 512 + x.grn % 256 * 2 ^ 16 + x.bf % 32 * 2 ^ 24 + 2 ^ 31) ++ padTo 16384 (bBytes x.grk x.grn (fmtBits x.bf) x.b)
  else List.replicate 16448 0

def scaleImage (x : MatrixSlot) : List Byte :=
  (List.range 65536).map x.scaleNow

/-- Snapshot and resolved operands of a queued operation; the layout of the latter is open (log 33). -/
def operationImage (m : MatrixOp) : List Byte :=
  padTo 16384 (bBytes m.grk m.grn (fmtBits (fmtBF m.fmt.toNat)) (m.b.getD [])) ++ padTo 64 (Config.operandImage m.num)

def sectionMatrix (s : State) (t : Team) : List Byte :=
  t.bays.flatMap fun b =>
    ((List.range t.kernel.tiles).flatMap fun a => match s.tile? b t.key a with | some x => tileImage x | none => []) ++
    (match s.matrixSlot? b t.key with | some x => pinnedImage x ++ scaleImage x | none => []) ++
    (s.mqueue.filter fun m => m.team == t.key && m.bay == b).flatMap operationImage

def sectionWaypoints (s : State) (t : Team) : List Byte :=
  let mine := s.waypoints.filter fun w => w.valid && w.life == 0 && w.owner == t.tid && w.dctx == t.dctx
  (mine.mergeSort fun a b => decide (a.handle ≤ b.handle)).flatMap fun w => leBytes 64 w.image

def CopyState.code (c : CopyState) : Nat := match c with | .queued => 1 | .running => 2 | .posting => 2 | .held => 3

def commandImage (c : CopyCmd) : List Byte :=
  let bits := ((List.range c.nsec).map fun i => if c.complete.contains i then 2 ^ i else 0).foldl (· + ·) 0
  padTo 128 (leBytes 8 c.word.toNat ++ wordBytes 8 (c.ops.map (·.toNat)) ++ leBytes 64 (c.record.getD 0) ++
    leBytes 16 (c.tag % 2 ^ 32 + c.seq % 2 ^ 32 * 2 ^ 32 + c.ch % 4 * 2 ^ 64 + c.state.code * 2 ^ 66)) ++
  leBytes ((c.nsec + 511) / 512 * 64) bits

def sectionCopies (s : State) (t : Team) : List Byte :=
  (List.range 4).flatMap fun ch => (s.cmds.filter fun c => c.team == t.key && c.ch == ch).flatMap commandImage

/-- The 768 bits of R234; `ctx` is the owner's context. -/
def Ring.image (r : Ring) (ctx : Nat) : Nat :=
  r.slots.zipIdx.foldl (fun a x => a + x.1 % 4 * 2 ^ (256 + 2 * x.2)) 0 + r.tail % 2 ^ 32 * 2 ^ 224 + r.taken % 2 ^ 32 * 2 ^ 192 +
  r.head % 2 ^ 32 * 2 ^ 160 + r.claimed % 2 ^ 32 * 2 ^ 128 + r.base % 2 ^ 32 * 2 ^ 96 + r.bay % 256 * 2 ^ 88 + ctx % 4 * 2 ^ 86 +
  r.cntm1 % 256 * 2 ^ 56 + r.szc % 16 * 2 ^ 52 + r.seg % 16 * 2 ^ 48 + r.space % 4 * 2 ^ 46 + b2n r.eos * 2 ^ 45 + b2n r.abort * 2 ^ 44 +
  b2n r.valid * 2 ^ 43

/-- The first map entry of the team that names a ring. -/
def Team.mapIndex (t : Team) (r : Ring) : Nat :=
  (t.rings.findIdx? fun m => match m with | some m => m.bay == r.bay && m.desc == r.desc && m.gen == r.gen | none => false).getD 0

def State.ownRings (s : State) (t : Team) : List Ring := s.rings.filter fun r => r.valid && r.team == t.key

def sectionRings (s : State) (t : Team) : List Byte :=
  (s.ownRings t).flatMap fun r => padTo 128 (leBytes 96 (r.image t.ctx) ++ leBytes 1 (t.mapIndex r % 16))

/-- Sections 1 to 10. -/
def dumpSections (s : State) (t : Team) (clock : W64) : List (List Byte) × State :=
  let known := s.teamKnown t
  let lifted := s.teamLifted t
  let get (s : State) (tag : Nat) : List Byte × State := s.readStorage t.place known lifted tag (s.allotSize tag)
  let (pad, s) := get s t.pad
  let (pad', s) := get s t.padPartner
  let (lnd, s) := get s t.lnd
  let (lnd', s) := get s t.lndPartner
  let (own, s) := s.userSegs t
  ([sectionRegs s t clock, sectionContext t own, sectionQueues t s.tick, sectionBlocks t s.tick, pad ++ pad', lnd ++ lnd', sectionMatrix s t,
    sectionWaypoints s t, sectionCopies s t, sectionRings s t], { s with tick := s.tick + latestTicks })

/-! ### The header (R410) -/

/-- Offset and length of each section from number `n` on, `at_` being the end of the one before. -/
def sectionPlaces : Nat → List (List Byte) → List (Nat × Nat)
  | _, [] => []
  | at_, x :: xs =>
    if x.isEmpty then (0, 0) :: sectionPlaces at_ xs
    else
      let o := (at_ + 4095) / 4096 * 4096
      (o, x.length) :: sectionPlaces (o + x.length) xs

/-- The header before any section is written; `cls` is the frozen class. -/
def dumpHeader (t : Team) (cls kind : Nat) (clock : W64) (places : List (Nat × Nat)) : Nat :=
  let wcode := if t.kernel.width = 64 then 2 else if t.kernel.width = 32 then 1 else 0
  let all := (0, 512) :: places
  t.faultva.toNat * 2 ^ 960 + t.epc.toNat * 2 ^ 896 + t.cause.toNat * 2 ^ 832 + clock.toNat * 2 ^ 768 + t.tid % 2 ^ 32 * 2 ^ 736 +
  t.nid % 2 ^ 32 * 2 ^ 704 + t.ordinal % 2 ^ 48 * 2 ^ 656 +
  all.zipIdx.foldl (fun a x => if x.1.2 = 0 then a else a + 2 ^ (624 + x.2)) 0 + 0xFF * 2 ^ 600 + t.bay % 256 * 2 ^ 472 +
  t.ctx % 4 * 2 ^ 470 + cls % 4 * 2 ^ 468 + wcode * 2 ^ 466 + b2n t.duplex * 2 ^ 465 + kind % 2 * 2 ^ 462 + t.groups.length % 256 * 2 ^ 448 +
  2 ^ 32 + 0x534B4450 +
  all.zipIdx.foldl (fun a x => a + (x.1.1 + x.1.2 % 2 ^ 32 * 2 ^ 64) * 2 ^ (1024 + 128 * x.2)) 0

/-! ### The writer (R409, R412) -/

/-- How far the writer has come: the writes it has made, and the failing one: section, address, cause. -/
structure Writer where
  state : State
  ids : List Nat
  fail : Option (Nat × Nat × Nat)

/-- What all of its writes have in common: the team, where it stands, what it knows, the address no byte may reach. -/
structure WriterOf where
  t : Team
  known : List Nat
  lifted : List Nat
  stop : Nat

/-- Plain writes of 8 bytes at a location. -/
def Writer.words (w : Writer) (o : WriterOf) (loc : Nat) : List (List Byte) → Writer
  | [] => w
  | bs :: rest =>
    let (id, s) := w.state.writeWith o.t.place (unionIds o.known w.ids) (unionIds o.lifted w.ids) [] loc bs
    Writer.words { w with state := s, ids := w.ids ++ [id] } o (loc + 8) rest

/-- The bytes in pieces of 8. -/
def pieces : Nat → List Byte → List (List Byte)
  | 0, _ => []
  | n + 1, bs => if bs.isEmpty then [] else bs.take 8 :: pieces n (bs.drop 8)

/-- Bytes within one page and on one side of the end, all written or none; of those the first unit may have been performed where its page
gave no answer (R431). -/
def Writer.part (w : Writer) (o : WriterOf) (sec va : Nat) (bs : List Byte) : Writer :=
  if w.fail.isSome || bs.isEmpty then w
  else if va ≥ o.stop then { w with fail := some (sec, va, cSEG_LIMIT) }
  else match w.state.partAddr o.t va .write with
    | .error c => { w with state := (w.state.partLands o.t va c (bs.take 8)).answered c.code, fail := some (sec, va, c.code) }
    | .ok (loc, s) => { w with state := s }.words o loc (pieces bs.length bs)

/-- Bytes from an address on, page by page and up to the end: at most `n` parts. -/
def Writer.parts (w : Writer) (o : WriterOf) (sec : Nat) : Nat → Nat → List Byte → Writer
  | 0, _, _ => w
  | n + 1, va, bs =>
    let k := if va < o.stop then Nat.min (2 ^ 16 - va % 2 ^ 16) (o.stop - va) else bs.length
    (w.part o sec va (bs.take k)).parts o sec n (va + k) (bs.drop k)

/-- At most 4,096 bytes: they meet one page boundary and the end. -/
def Writer.put (w : Writer) (o : WriterOf) (sec va : Nat) (bs : List Byte) : Writer := w.parts o sec 3 va bs

/-- Bytes from an address on, in ascending order. -/
def Writer.run (w : Writer) (o : WriterOf) (sec : Nat) : Nat → Nat → List Byte → Writer
  | 0, _, _ => w
  | n + 1, va, bs => if bs.isEmpty then w else (w.put o sec va (bs.take 4096)).run o sec n (va + 4096) (bs.drop 4096)

/-- Word `n` of the header. -/
def Writer.header (w : Writer) (o : WriterOf) (d h n : Nat) : Writer := w.put o 0 (d + 8 * n) (leBytes 8 (h / 2 ^ (64 * n)))

/-- Sections from number `n` on, each followed by its SECTDONE bit. -/
def Writer.sections (w : Writer) (o : WriterOf) (d : Nat) : Nat → Nat → List (List Byte) → List (Nat × Nat) → Writer × Nat
  | n, h, x :: xs, (off, _) :: ps =>
    if w.fail.isSome then (w, h)
    else if x.isEmpty then w.sections o d (n + 1) h xs ps
    else
      let w := w.run o n (x.length / 4096 + 1) (d + off) x
      if w.fail.isSome then (w, h)
      else
        let h := h + 2 ^ (640 + n)
        (w.header o d h 10).sections o d (n + 1) h xs ps
  | _, h, _, _ => (w, h)

/-- The header's account of a failing write (R412). -/
def Writer.truncate (w : Writer) (o : WriterOf) (d h sec va cause start : Nat) : Writer :=
  let h := h - 0xFF * 2 ^ 600 + sec * 2 ^ 600 + cause * 2 ^ 592 + va % 2 ^ 64 * 2 ^ 512 + (va - start) % 2 ^ 32 * 2 ^ 480 + 2 ^ 464
  let w := { w with fail := none }
  let w := ((w.header o d h 7).header o d h 8).header o d h 9
  { w with fail := some (sec, va, cause) }

/-- Writes an image at `d`. The answer's `fail` is none where the image is whole. -/
def State.writeDump (s : State) (t : Team) (d kind stop : Nat) (cls : Nat) : Writer :=
  match readClock t.bay s with
  | .error _ => { state := s, ids := [], fail := some (0, d, cSEG_LIMIT) }
  | .ok (clock, s) =>
    let o : WriterOf := { t := t, known := s.teamKnown t, lifted := s.teamLifted t, stop := Nat.min stop (2 ^ 57) }
    let (secs, s) := dumpSections s t clock
    let places := sectionPlaces 512 secs
    let h := dumpHeader t cls kind clock places
    let w : Writer := { state := s, ids := [], fail := none }
    let w := w.put o 0 d (leBytes 512 h)
    let h := h + 2 ^ 640
    let w := w.header o d h 10
    let (w, h) := w.sections o d 1 h secs places
    match w.fail with
    | none => w.header o d (h + 2 ^ 463) 7
    | some (0, _, _) => w
    | some (sec, va, c) => w.truncate o d h sec va c (d + (places.getD (sec - 1) (0, 0)).1)

/-- Posts a record with what the writer releases at system scope (R409). -/
def Writer.post (w : Writer) (t : Team) (r : RecordFields) : State :=
  let ids := unionIds (w.state.teamKnown t) w.ids
  let s := w.state.drain fun x => ids.contains x.id
  { s with posts := s.posts ++ [{ record := r.image, release :=
      { place := t.place, scope := 5, known := ids, lifted := unionIds (s.teamLifted t) ids } }] }

/-- The DOUBLE record of a failing dump write (R399, R412). -/
def Writer.doubleRecord (w : Writer) (t : Team) (d : Nat) : RecordFields :=
  let (sec, va, c) := w.fail.getD (0, 0, 0)
  { RecordFields.zero with
    fva := va, tag := t.pc.toNat, seq := 0xFFFFFFFF, fsec := c + sec * 256, bay := t.bay, ctx := t.ctx, cmd := 0xC, cause := cDOUBLE
    flags := 1, src := d, dst := t.curObj * 2 ^ 48 }

/-! ### A full save (R372, R409) -/

/-- The address of the team's full-save image. -/
def Dct.imageOf (d : Dct) (tid : Nat) : Nat := (d.saveBase + (tid - 1) * d.saveStride) % 2 ^ 64

/-- Writes the team's image in the save area; a SAVESTRIDE that is 0 or no multiple of 4,096 fails at the first byte. -/
def State.saveImage (s : State) (t : Team) : Writer :=
  match readDct t.place t.dctx s with
  | .error _ => { state := s, ids := [], fail := some (0, 0, cSEG_LIMIT) }
  | .ok (d, s) =>
    let t := { t with dct := d }
    let s := s.mapTeam t.key fun t => { t with dct := d }
    let base := d.imageOf t.tid
    if d.saveStride = 0 || d.saveStride % 4096 != 0 then { state := s, ids := [], fail := some (0, base, cSEG_LIMIT) }
    else s.writeDump t base 1 (base + d.saveStride) (s.teamClass t)

/-! ### Reading an image back (R276, R409, R411) -/

/-- `n` bytes of the image within one page, in units of 8; none where they cannot be had. -/
def readPart (t : Team) (va n : Nat) : M (Option (List Byte)) := do
  let s ← get
  match s.partAddr t va with
  | .error c => do
    set (s.answered c.code)
    pure none
  | .ok (loc, s) => do
    set s
    let us ← readUnits t.place loc (n / 8)
    let last ← readSpace t.place [] { loc := loc + n / 8 * 8, va := none, large := false } (n % 8)
    pure (some (us.flatMap (leBytes 8) ++ last.map (·.value)))

/-- Bytes of the image in chunks of 4,096, of which each may lie in two pages. -/
def readImage (t : Team) : Nat → Nat → M (Option (List Byte))
  | 0, _ => pure (some [])
  | n + 1, va => do
    let k := Nat.min 4096 (2 ^ 16 - va % 2 ^ 16)
    match ← readPart t va k with
    | none => pure none
    | some us => do
      match ← (if k = 4096 then pure (some []) else readPart t (va + k) (4096 - k)) with
      | none => pure none
      | some vs => do
        match ← readImage t n (va + 4096) with
        | none => pure none
        | some rest => pure (some (us ++ vs ++ rest))

/-- A section of the image by number, from the places that the header gives. -/
def readSection (t : Team) (d n : Nat) : M (Option (List Byte)) := do
  match ← readImage t 1 d with
  | none => pure none
  | some h => do
    let e := leNat ((h.drop (128 + 16 * n)).take 12)
    let off := e % 2 ^ 64
    let len := e / 2 ^ 64
    match ← readImage t ((len + 4095) / 4096) (d + off) with
    | none => pure none
    | some bs => pure (if bs.length < len then none else some (bs.take len))

def imageWord (n : Nat) (bs : List Byte) (i : Nat) : Nat := leNat ((bs.drop (n * i)).take n)

/-- Section 1: the g registers, and the system registers without their reserved bits. -/
def Team.loadRegs (t : Team) (bs : List Byte) : Team :=
  let t := { t with g := (List.range 64).map fun i => BitVec.ofNat 64 (imageWord 8 bs i) }
  let w (n : Nat) : W64 := BitVec.ofNat 64 (imageWord 8 bs (64 + n)) &&& heldBits n
  { t with step := (w 0).getLsbD 2, shapeChanged := (w 0).getLsbD 3, cause := w 1, epc := w 2, faultva := w 3, stepmask := w 4, mmcfg := w 8
           nanorigin := w 9, subst := w 10, win := winOf ((w 12).toNat % 128)
           loop := { lc := w 0x10, lcnt := w 0x11, lbeg := w 0x12, lend := w 0x13, lobj := w 0x14 } }

/-- A ring-map entry of section 2: the entry kept, where it is the same descriptor, with its returns. -/
def State.ringEntryOf (s : State) (kept : Option RingRef) (v : Nat) : Option RingRef :=
  if !bitOf v 31 then none
  else
    let bay := bitsOf v 19 12
    let desc := bitsOf v 3 0
    match kept with
    | some r => if r.bay = bay ∧ r.desc = desc then some r else some { bay := bay, desc := desc, gen := s.ringGen bay desc }
    | none => some { bay := bay, desc := desc, gen := s.ringGen bay desc }

/-- Section 2. In a vector the descriptors and the object in force are the supervisor's, which stand in no section. -/
def Team.loadContext (t : Team) (s : State) (bs : List Byte) : Team :=
  let t := { t with shapes := (List.range 8).map fun i => Shape.ofImage (imageWord 16 (bs.drop 320) i)
                    fmts := (List.range 16).map fun i => BitVec.ofNat 64 (imageWord 8 (bs.drop 448) i)
                    rings := (List.range 16).map fun i => s.ringEntryOf (t.rings.getD i none) (imageWord 8 (bs.drop 576) i) }
  if t.inVector then t
  else { t with segs := (List.range 16).map (fun i => BitVec.ofNat 128 (imageWord 16 bs i)), curObj := imageWord 8 (bs.drop 256) 0 % 2 ^ 16 }

def kindOf (c : Nat) : EntryKind :=
  match c with | 0 => .run | 1 => .splitA | 2 => .splitB | 3 => .join | 4 => .mark | 5 => .eos | _ => .nop

/-- A cq entry of section 3; what it carries of the helm's state stands in no section, and is as kept. -/
def CqEntry.ofImage (kept : CqEntry) (x : Nat) : CqEntry :=
  { kept with
    kind := kindOf (bitsOf x 19 16), block := bitsOf x 71 56, gsel := bitsOf x 55 48, trips := bitsOf x 95 72, tmask := BitVec.ofNat 64 (bitsOf x 159 96)
    arg0 := BitVec.ofNat 32 (bitsOf x 191 160), arg1 := BitVec.ofNat 32 (bitsOf x 223 192), layer := bitsOf x 47 44, rel := bitOf x 43
    rscope := bitsOf x 42 40, win := winOf (bitsOf x 26 20), tag := bitsOf x 255 224 }

def RqEntry.ofImage (kept : RqEntry) (x : Nat) : RqEntry :=
  { kept with flags := bitsOf x 127 120, predv := BitVec.ofNat 64 (bitsOf x 103 40), block := bitsOf x 39 24, grp := bitsOf x 23 16, seq := bitsOf x 15 0 }

/-- The value of `n` bytes of an image from an offset on. -/
def imageAt (bs : List Byte) (o n : Nat) : Nat := leNat ((bs.drop o).take n)

def uniformsAt (bs : List Byte) (o : Nat) : List W32 := (List.range 4).map fun i => BitVec.ofNat 32 (imageAt bs (o + 4 * i) 4)

/-- The L or S engine of a group record. -/
def Engine.ofImage (e : Engine) (x : Nat) (y : List W32) : Engine :=
  { e with off := bitsOf x 31 0, trip := bitsOf x 63 32, passed := bitsOf x 95 64, rep := bitsOf x 103 96, y := y }

/-- `n` tokens of a counter: those kept, and where the image counts more, tokens that release nothing. -/
def tokensOf (kept : List Tok) (n : Nat) : List Tok :=
  kept.take n ++ List.replicate (n - kept.length) { known := [], lifted := [], vc := [] }

/-- The partial fold of a group record; its operation is that of the word in progress. -/
def partialOf (kept : Option Partial) (x : Nat) : Option Partial :=
  if !bitOf x 352 then none
  else
    let op := (kept.map (·.op)).getD 0
    let old := kept.bind (·.fold)
    let minus := bitOf x 356
    let raw := bitsOf x 319 0
    let sum : FloatSum :=
      { sum := { num := if bitOf raw 319 then (raw : Int) - 2 ^ 320 else raw, exp := -149 }, posInf := bitOf x 353, negInf := bitOf x 354
        nan := if bitOf x 355 then some (bitsOf x 351 320) else none
        sawNeg := minus || (match old with | some f => f.sum.sawNeg | none => false), sawPos := !minus }
    some { op := op, base := if bitOf x 357 then some { add := op == 1, sum := sum, run := bitsOf x 351 320 } else none, elems := [] }

/-- Path slot `p` of a group record. -/
def Path.ofImage (x : Path) (cq : List CqEntry) (bs : List Byte) (p : Nat) : Path :=
  let v := imageAt bs (0x80 + 32 * p) 32
  let x := { x with lc := tokensOf x.lc (bitsOf v 99 96), cl := tokensOf x.cl (bitsOf v 103 100), cs := tokensOf x.cs (bitsOf v 107 104)
                    sc := tokensOf x.sc (bitsOf v 111 108), live := bitOf v 88 }
  if !bitOf v 88 then x
  else { x with
    m0 := BitVec.ofNat 64 (bitsOf v 191 128)
    fold := partialOf x.fold (imageAt bs (0x180 + 64 * p) 64)
    c := { x.c with off := bitsOf v 31 0, trip := bitsOf v 63 32, rep := bitsOf v 87 80, passed := bitsOf v 223 192, y := uniformsAt bs (0x140 + 16 * p)
                    entry := ((cq.find? fun e => e.n % 2 ^ 16 == bitsOf v 79 64).map (·.n)).getD x.c.entry } }

/-- The filled slots of lq or sq, `n` of them, with their paths and elements. -/
def slotsOf (kept : List Slot) (w n paths next : Nat) (bs : List Byte) : List Slot :=
  let old := filledSlots kept
  (List.range n).map (fun i =>
    let x := old.getD i { id := next + i, path := 0, elems := [], pending := 0, ldg := false, done := [] }
    { x with path := bitsOf paths (2 * i + 1) (2 * i), elems := (List.range w).map fun j => BitVec.ofNat 32 (imageWord 4 (bs.drop (4 * w * i)) j) }) ++
  kept.filter fun x => !old.contains x

/-- A group record, and its slots after it. Its block map is that of every entry from the oldest on. -/
def Group.ofImage (g : Group) (t : Team) (bs : List Byte) : Group :=
  let w := t.kernel.width
  let masks : List (Nat × W32) := (List.range 7).flatMap fun k => (List.range w).map fun i => (regM (k + 1) * 64 + i, BitVec.ofNat 32 (b2n (bitOf (imageAt bs (0x10 + 8 * k) 8) i)))
  let shared : List (Nat × W32) := (List.range 4).map fun n => (regY (n + 4) * 64, BitVec.ofNat 32 (imageAt bs (0x48 + 4 * n) 4))
  let map : BitVec 7 := BitVec.ofNat 7 (bitsOf (imageAt bs 0 8) 22 16)
  let added := map &&& ~~~(t.heldMap g)
  let n := imageAt bs 0x78 8
  { g with
    gang := BitVec.ofNat 64 (imageAt bs 0x08 8), ganged := imageAt bs 0x120 4
    base := (masks ++ shared).foldl (fun b c => sparseSet b c.1 c.2) (g.base.filter fun x => decide (x.1 / 64 < 128))
    rlog := g.rlog.filter fun x => decide (x.reg < 112)
    blocks := g.blocks.map fun b => { b with map := (b.map &&& map) ||| added }
    l := g.l.ofImage (imageAt bs 0x58 16) (uniformsAt bs 0x100), s := g.s.ofImage (imageAt bs 0x68 16) (uniformsAt bs 0x110)
    paths := g.paths.zipIdx.map fun x => if x.2 < 4 then x.1.ofImage t.cq bs x.2 else x.1
    lq := slotsOf g.lq w (bitsOf n 3 0) (bitsOf n 23 8) g.nextSlot (bs.drop 640)
    sq := slotsOf g.sq w (bitsOf n 7 4) (bitsOf n 39 24) (g.nextSlot + 16) (bs.drop (640 + 32 * w)), nextSlot := g.nextSlot + 32 }

/-- Section 3: the queues, then the groups. -/
def Team.loadQueues (t : Team) (bs : List Byte) : Team :=
  let head := imageAt bs 0 8
  let cq := (t.cq.take (bitsOf head 6 0)).zipIdx.map fun e => e.1.ofImage (imageWord 32 (bs.drop 64) e.2)
  let rq := (t.rq.take (bitsOf head 12 8)).zipIdx.map fun e => e.1.ofImage (imageWord 16 (bs.drop 2368) e.2)
  let size := 640 + 64 * t.kernel.width
  let t := { t with cq := cq, rq := rq }
  { t with groups := t.groups.zipIdx.map fun g => g.1.ofImage t (bs.drop (2624 + g.2 * size))
           surrenders := t.surrenders.filter fun x => t.groups.any fun g => g.num == x.grp && bitOf (imageAt bs (2624 + x.grp * size) 8) (16 + x.block) }

/-- Section 4, from a byte on: the mapped blocks of the groups that remain. -/
def loadBlocks (t : Team) : List Group → List Byte → List Group
  | [], _ => []
  | g :: gs, bs =>
    let w := t.kernel.width
    let ms := g.mapped t
    let cells := ms.zipIdx.flatMap fun m => (List.range 16).flatMap fun r => (List.range w).map fun i =>
      ((16 * m.1 + r) * 64 + i, BitVec.ofNat 32 (imageWord 4 bs ((m.2 * 16 + r) * w + i)))
    let keep := g.rlog.filter fun x => !(decide (x.reg < 112) && ms.contains (x.reg / 16))
    let base := (g.base.filter fun x => !(decide (x.1 / 64 < 112) && ms.contains (x.1 / 1024)))
    { g with rlog := keep, base := cells.foldl (fun b c => sparseSet b c.1 c.2) base } :: loadBlocks t gs (bs.drop (ms.length * 64 * w))

/-- The bytes of an allotment, as its contents before every write. -/
def State.fillStorage (s : State) (tag : Nat) (bs : List Byte) : State :=
  if tag = 0 then s
  else { s with writes := s.writes.filter fun w => storageOf w.loc != tag
                mem := memSetList (s.mem.filter fun c => storageOf c.1 != tag) (locOf tag 0) bs }

/-- A B operand as raw codes, from its packed columns. -/
def unpackB (grk grn bits : Nat) (bs : List Byte) : List Nat :=
  let kb := packedBytes bits grk
  (List.range (grk * grn)).map fun i => streamCode bs (8 * (i / grk * kb) + i % grk * bits) bits

/-- The pinned B of an image, header and contents. -/
def MatrixSlot.loadPinned (x : MatrixSlot) (bs : List Byte) : MatrixSlot :=
  let h := imageAt bs 0 64
  let grk := bitsOf h 8 0
  let grn := bitsOf h 23 16
  let bf := bitsOf h 28 24
  if bitOf h 31 then { x with pinned := true, grk := grk, grn := grn, bf := bf, b := unpackB grk grn (fmtBits bf) (bs.drop 64) }
  else { x with pinned := false, grk := 0, grn := 0, bf := 0, b := [] }

/-- The snapshots of queued operations, in queue order; a snapshot is there where the word names B registers. -/
def loadSnapshots (bay key : Nat) : List MatrixOp → List Byte → List MatrixOp
  | [], _ => []
  | m :: ms, bs =>
    if m.team = key ∧ m.bay = bay then
      { m with b := m.b.map fun _ => unpackB m.grk m.grn (fmtBits (fmtBF m.fmt.toNat)) bs } :: loadSnapshots bay key ms (bs.drop 16448)
    else m :: loadSnapshots bay key ms bs

/-- Section 7: the tiles, pinned B, scale parts and snapshots, bay by bay. The resolved operands stay as kept: their layout is open (log 33). -/
def State.loadMatrix (s : State) (t : Team) : List Nat → List Byte → State
  | [], _ => s
  | b :: rest, bs =>
    let s := (List.range t.kernel.tiles).foldl (fun s a => s.mapTile b t.key a fun x =>
      let img := bs.drop (a * 65600)
      { x with steps := BitVec.ofNat 32 (leNat ((img.drop 12).take 4))
               elems := (List.range 16384).foldl (fun e i => sparseSet e i (BitVec.ofNat 32 (imageWord 4 (img.drop 64) i))) [] }) s
    let bs := bs.drop (t.kernel.tiles * 65600)
    let fill (x : MatrixSlot) : MatrixSlot :=
      let y : MatrixSlot := { x with scale := [], images := [] }
      if x.bay == b && x.team == t.key then (y.loadPinned bs).putScale 0 ((bs.drop 16448).take 65536) else x
    let bs' := bs.drop (16448 + 65536)
    let ops := (s.mqueue.filter fun m => m.team == t.key && m.bay == b).length
    let s : State := { s with slots := s.slots.map fill, mqueue := loadSnapshots b t.key s.mqueue bs' }
    s.loadMatrix t rest (bs'.drop (ops * 16448))

/-- Section 9: a kept command with its words, TAG, state and bitmap; STATE 2 is a command that waits for a held slot, or to post. -/
def CopyCmd.ofImage (c : CopyCmd) (bs : List Byte) : CopyCmd :=
  let x := imageAt bs 104 16
  { c with
    word := BitVec.ofNat 64 (imageAt bs 0 8), ops := (List.range 4).map fun i => BitVec.ofNat 64 (imageAt bs (8 + 8 * i) 8)
    record := c.record.map fun _ => imageAt bs 40 64, tag := bitsOf x 31 0, ch := bitsOf x 65 64
    state := if bitsOf x 67 66 = 1 then .queued else if bitsOf x 67 66 = 3 then .held else c.state
    complete := (List.range c.nsec).filter fun i => bitOf (imageAt bs 128 ((c.nsec + 511) / 512 * 64)) i }

def loadCommands : List CopyCmd → List Byte → List CopyCmd
  | [], _ => []
  | c :: cs, bs => c.ofImage bs :: loadCommands cs (bs.drop (128 + (c.nsec + 511) / 512 * 64))

/-- The commands of a team in the order of section 9. -/
def State.teamCmds (s : State) (key : Nat) : List CopyCmd :=
  (List.range 4).flatMap fun ch => s.cmds.filter fun c => c.team == key && c.ch == ch

/-- Section 10: a kept ring's image. -/
def Ring.ofImage (r : Ring) (x : Nat) : Ring :=
  { r with
    tail := bitsOf x 255 224, taken := bitsOf x 223 192, head := bitsOf x 191 160, claimed := bitsOf x 159 128, base := bitsOf x 127 96
    cntm1 := bitsOf x 63 56, szc := bitsOf x 55 52, seg := bitsOf x 51 48, space := bitsOf x 47 46, eos := bitOf x 45, abort := bitOf x 44
    slots := (List.range (bitsOf x 63 56 + 1)).map fun i => bitsOf x (257 + 2 * i) (256 + 2 * i) }

/-- Applies a section of the image, if it can be read; else what was kept stands. -/
def withSection (t : Team) (n : Nat) (f : List Byte → M Unit) : M Unit := do
  match ← readSection t t.image n with
  | some bs => f bs
  | none => pure ()

/-- Reads the image of a full save back (R409, R411). What no section holds of a saved team was kept with it, and the waypoints of section 8
lived on in their records (log 34). -/
def loadImage (key : Nat) : M Unit := do
  let t ← teamOf key
  if t.image ≠ 0 then do
    withSection t 1 fun bs => mapTeamM key (·.loadRegs bs)
    withSection t 2 fun bs => do
      let s ← get
      mapTeamM key (·.loadContext s bs)
    withSection t 3 fun bs => mapTeamM key (·.loadQueues bs)
    withSection t 4 fun bs => mapTeamM key fun t => { t with groups := loadBlocks t t.groups bs }
    withSection t 5 fun bs => modify fun s => (s.fillStorage t.pad (bs.take (s.allotSize t.pad))).fillStorage t.padPartner (bs.drop (s.allotSize t.pad))
    withSection t 6 fun bs => modify fun s => (s.fillStorage t.lnd (bs.take (s.allotSize t.lnd))).fillStorage t.lndPartner (bs.drop (s.allotSize t.lnd))
    withSection t 7 fun bs => modify fun s => s.loadMatrix t t.bays bs
    withSection t 9 fun bs => modify fun s => { s with cmds := s.cmds.filter (fun c => c.team != key) ++ loadCommands (s.teamCmds key) bs }
    withSection t 10 fun bs => mapTeamM key fun t => { t with keptRings := t.keptRings.zipIdx.map fun r => (r.1.1, r.1.2.ofImage (imageWord 128 bs r.2 % 2 ^ 768)) }
    mapTeamM key fun t => { t with image := 0 }

end Sys2Proof.Machine
end

