-- ==== Sys2Proof/Machine/Teams.lean ====
section
/-! DEFINITION. Placement, team start, resume, swap-out, full save and exit; the team words; register blocks between roles
(14_scheduling.md R381 to R393; 15_traps.md R404; 05_shapes.md R148, R149; 07_lanes.md R188). -/

namespace Sys2Proof.Machine

/-! ### What a bay has free (R26, R221, R222, R246, R381) -/

/-- The class of a count of good quadrants (R17). -/
def classOfQuads (q : Nat) : Nat := if q ≥ 4 then 0 else if q = 3 then 1 else 2

/-- The resident teams that hold a slot of a bay. -/
def State.onBay (s : State) (bay : Nat) : List Team := s.teams.filter fun t => t.resident && t.bays.contains bay

/-- The slots of a bay that are held. -/
def State.heldCtxs (s : State) (bay : Nat) : List Nat := (s.onBay bay).map fun t => if t.bay = bay then t.ctx else t.partnerCtx

def State.sumOn (s : State) (bay : Nat) (f : Team → Nat) : Nat := ((s.onBay bay).map f).foldl (· + ·) 0

/-- A bay that no team is on presents its own class (R140). -/
def State.settleBays (s : State) : State :=
  { s with bays := s.bays.map fun b => if (s.onBay b.num).isEmpty then { b with presented := classOfQuads b.quads } else b }

/-- What a candidate needs of a placement. -/
structure Want where
  kernel : KernelInfo
  ngrp : Nat
  duplex : Bool
  nid : Nat
  /-- The class of a team frozen mid-iteration (R148). -/
  cls : Option Nat
  /-- Of a saved team: the copy commands that re-enter each channel, and the ring descriptors it is reallotted (R236, R279). -/
  cmds : List Nat
  rings : Nat
  /-- Its queued matrix operations, on its lead bay and on its partner's (R245). -/
  ops : List Nat

/-- The bay can take the team's share. A bay whose class is to change once its teams have left takes none (R140). -/
def State.bayFits (s : State) (w : Want) (bay : Nat) : Bool :=
  match s.bay? bay with
  | none => false
  | some b =>
    let k := w.kernel
    b.inService && !b.retiring && s.dieUp (dieOfBay bay) && b.presented == classOfQuads b.quads &&
    decide ((s.heldCtxs bay).length < 4) && (s.onBay bay).all (fun t => t.kernel.width == k.width) &&
    decide (s.sumOn bay (fun t => (t.groups.filter fun g => g.bay == bay).length) + w.ngrp ≤ 256 / k.width) &&
    decide (s.sumOn bay (fun t => t.kernel.scratch + t.kernel.landing) + k.scratch + k.landing ≤ 48) &&
    decide (s.sumOn bay (fun t => t.kernel.landing) + k.landing ≤ 16) &&
    decide (s.sumOn bay (fun t => t.kernel.tiles) + k.tiles ≤ 8)

/-- The die can serve the nest's cellar allotment, or has (R222). -/
def State.cellarFits (s : State) (w : Want) (die : Nat) : Bool :=
  w.kernel.cellar == 0 || s.cellarTag w.nid die != 0 ||
  decide ((((s.nests.map fun n => s.allotSize (s.cellarTag n.nid die)).foldl (· + ·) 0) / 0x40000) + w.kernel.cellar ≤ 256)

def leadBays (w : Want) (bay : Nat) : List Nat := if w.duplex then [bay, bay + 1] else [bay]

def State.freeDescs (s : State) (bay : Nat) : List Nat :=
  (List.range 16).filter fun d => match s.ringAt bay d with | some x => !x.valid | none => true

/-- The bay, or duplex, has room for what a saved team brings: its kept copy commands, which re-enter the channels under their limit of 16
(R279), its kept ring descriptors, and its queued matrix operations, of which a bay holds 4 (R245). A team for which it has none waits
(log 93). -/
def State.keeps (s : State) (w : Want) (bay : Nat) : Bool :=
  (w.ops.zipIdx.all fun n => n.1 == 0 || decide ((s.mqueue.filter fun m => m.bay == bay + n.2).length + n.1 ≤ 4)) &&
  (w.cmds.zipIdx.all fun n => n.1 == 0 || decide ((s.chanQueue bay n.2).length + n.1 ≤ 16)) && decide (w.rings ≤ (s.freeDescs bay).length)

/-- The candidate fits with `bay` as its lead bay. -/
def State.fitsAt (s : State) (w : Want) (bay : Nat) : Bool :=
  s.keeps w bay && (!w.duplex || bay % 2 == 0) && (leadBays w bay).all (s.bayFits w) && s.cellarFits w (dieOfBay bay) &&
  (match w.cls with
   | none => true
   | some c => (leadBays w bay).foldl (fun m b => Nat.max m (s.classOf b)) 0 == c)

/-- Lowest die, then lowest bay (R381). -/
def State.homeFor (s : State) (w : Want) : Option Nat := (List.range 192).find? (s.fitsAt w)

/-- A bay, or duplex, of a class is in service (R148). -/
def State.classExists (s : State) (duplex : Bool) (cls : Nat) : Bool :=
  (List.range 192).any fun b =>
    let bs := if duplex then [b, b + 1] else [b]
    (!duplex || b % 2 == 0) && bs.all (fun c => match s.bay? c with | some x => x.inService && s.dieUp (dieOfBay c) | none => false) &&
    bs.foldl (fun m c => Nat.max m (s.classOf c)) 0 == cls

/-! ### Candidates (R373, R381, R383) -/

def State.priority (s : State) (queue : Nat) : Nat := ((s.mgmt.lqpri.find? fun x => x.1 == queue).map (·.2)).getD 0 % 8

/-- A ring's descriptor would now let a helm's claim or wfill through. A ring of the team's own, which its full save keeps, stands as it was
saved (R236). -/
def State.ringReady (s : State) (t : Team) (bay desc : Nat) (claim : Bool) : Bool :=
  let key := t.key
  let kept := (t.keptRings.map (·.2)).find? fun r => r.bay == bay && r.desc == desc
  match kept <|> s.ringAt bay desc with
  | none => true
  | some r =>
    (!r.valid && kept.isNone) || r.abort || r.eos ||
    (if claim then decide (countDiff r.claimed r.tail < r.count) && r.myTurn (.helm key) true
     else r.taken != r.head && r.myTurn (.helm key) false)

/-- What a descheduled team waits for holds. -/
def State.isReady (s : State) (t : Team) : Bool :=
  match t.ready with
  | .now => true
  | .children => t.children == 0
  | .waits (.ring bay desc claim) => s.ringReady t bay desc claim
  | .waits (.waypoint h p) => match s.waypoint? h t.dct.aspace with | some w => w.done p | none => true
  | .waits (.launchQueue q) => decide ((s.queueOf q).length < 1024)
  | .waits .children => t.children == 0
  | .waits _ => false
  | .release => false
  | .noClass => s.classExists t.duplex (t.frozenClass.getD 0)

/-- The device context as the walkers read it. -/
def State.dctOf (s : State) (c : Nat) : Dct := match readDct (sePlace s.lowestDie) c s with | .ok (d, _) => d | .error _ => Dct.zero

/-- A team through whose context the walkers read the object table. -/
def State.ghost (s : State) (c : Nat) : Team := { Team.fresh 0 c 0 with dct := s.dctOf c, bay := 48 * s.lowestDie }

/-- CODE.OBJ of a nest and the location of its entry. -/
def Nest.obj (n : Nest) : Nat := n.record.code.toNat / 2 ^ 48
def State.nestEntry (s : State) (n : Nest) : Option (Nat × State) := s.objLoc (s.ghost n.dctx) n.obj

/-- The kernel of a nest, if its object is resident. -/
def State.nestKernel (s : State) (n : Nest) : Option KernelInfo :=
  match s.nestEntry n with
  | none => none
  | some (loc, s) =>
    let e := readValue (s.atomicRead (sePlace s.lowestDie) loc 64).1
    if entryState e < 2 then none else some (kernelInfoOf n.obj e)

/-- The TIDs from 1 to NTEAM that no live team of the context has (R382). -/
def State.tidsFree (s : State) (dctx nteam : Nat) : List Nat :=
  let used := (s.teams.filter fun t => t.dctx == dctx).map (·.tid)
  ((List.range nteam).map (· + 1)).filter fun i => !used.contains i

def State.freeTids (s : State) (n : Nest) : List Nat := s.tidsFree n.dctx (s.dctOf n.dctx).nteam

def Nest.freeSlots (n : Nest) : List Nat := (List.range n.record.stkSlots).filter fun i => !n.stackUsed.contains i

/-- A candidate: a team or the next iteration of a nest; `want` is none where the placement only fails (R417). -/
structure Cand where
  team : Option Nat
  nid : Nat
  queue : Nat
  prio : Nat
  /-- Order under R381: a smaller number is chosen first. -/
  rank : Nat
  want : Option Want

/-- Rules 1 to 4 of R381 as one number. -/
def State.rankOf (s : State) (queue nid : Nat) (new : Bool) : Nat :=
  let p := s.priority queue
  let last := s.lastQueues.getD (2 * p + b2n new) 63
  let idx := ((s.queueOf queue).findIdx? fun n => n.nid == nid).getD 0
  (((7 - p) * 2 + b2n new) * 64 + (queue + 127 - last) % 64) * 2 ^ 16 + idx

/-- A team's commands that stand in a channel's queue. -/
def State.queuedCmds (s : State) (key ch : Nat) : List CopyCmd :=
  s.cmds.filter fun c => c.team == key && c.ch == ch && (c.state == .queued || c.state == .running)

/-- Where the commands and operations of a saved team are kept: on no bay. -/
def offBay (key : Nat) : Nat := 256 + key

def State.wantOf (s : State) (t : Team) (n : Nat) : Want :=
  { kernel := t.kernel, ngrp := n, duplex := t.duplex, nid := t.nid, cls := t.frozenClass
    cmds := (List.range 4).map fun ch => (s.queuedCmds t.key ch).length, rings := t.keptRings.length
    ops := [offBay t.key, offBay t.key + 2 ^ 32].map fun b => (s.mqueue.filter fun m => m.bay == b).length }

def State.groupsOf (s : State) (nid : Nat) : Nat := match s.nest? nid with | some n => n.record.ngrp | none => 1

def State.teamCands (s : State) : List Cand :=
  (s.teams.filter fun t => !t.resident && s.isReady t).map fun t =>
    { team := some t.key, nid := t.nid, queue := t.queue, prio := s.priority t.queue, rank := s.rankOf t.queue t.nid false
      want := some (s.wantOf t (s.groupsOf t.nid)) }

/-- No launch of its queue that comes before is undispatched (R373, R387). -/
def State.inTurn (s : State) (n : Nest) : Bool :=
  n.started || ((s.queueOf n.queue).find? fun m => !m.started && !m.finished).any fun m => m.nid == n.nid

def State.nestCands (s : State) : List Cand :=
  (s.nests.filter fun n => n.dispatched && !n.finished && s.inTurn n && decide (n.nextOrd < n.total) && !n.freeSlots.isEmpty && !(s.freeTids n).isEmpty).map fun n =>
    { team := none, nid := n.nid, queue := n.queue, prio := s.priority n.queue, rank := s.rankOf n.queue n.nid true
      want := (s.nestKernel n).map fun k => { kernel := k, ngrp := n.record.ngrp, duplex := n.record.duplex, nid := n.nid, cls := none, cmds := [], rings := 0, ops := [] } }

def State.cands (s : State) : List Cand := s.teamCands ++ s.nestCands

/-- The candidate fits somewhere. -/
def State.placeable (s : State) (c : Cand) : Bool := match c.want with | none => true | some w => (s.homeFor w).isSome

/-- The candidates that the rules choose among those that fit. -/
def State.chosen (s : State) : List Cand :=
  let cs := s.cands.filter s.placeable
  match cs with
  | [] => []
  | c :: rest =>
    let m := rest.foldl (fun m x => Nat.min m x.rank) c.rank
    cs.filter fun x => x.rank == m

/-- The machine with what some teams hold freed: their slots, ring descriptors, places in the channels and in the matrix queues. -/
def State.without (s : State) (keys : List Nat) : State :=
  let off (t : Team) : Team := if keys.contains t.key then { t with resident := false, ready := .release } else t
  let s : State := { s with
    teams := s.teams.map off
    rings := s.rings.map fun r => if keys.contains r.team then { r with valid := false } else r
    cmds := s.cmds.map fun c => if keys.contains c.team then { c with bay := offBay c.team } else c
    mqueue := s.mqueue.filter fun m => !keys.contains m.team }
  s.settleBays

/-- Rule 4's pointer, of the ready teams or of the new iterations of a priority, moves to the queue chosen. -/
def State.turnQueue (s : State) (queue : Nat) (new : Bool) : State :=
  { s with lastQueues := s.lastQueues.set (2 * s.priority queue + b2n new) queue }

/-! ### Taking resources (R183, R187, R223, R235, R246, R247) -/

def State.newAllot (s : State) (size : Nat) : Nat × State :=
  if size = 0 then (0, s)
  else (s.nextStore, { s with nextStore := s.nextStore + 1, allots := s.allots ++ [{ tag := s.nextStore, size := size }] })

/-- A lane group at its start: it looks at entry `n` next (R184). -/
def freshGroup (num bay blocks n : Nat) : Group :=
  let e : Engine := { Engine.fresh with entry := n }
  let c : Engine := { e with clk := 2 }
  { num := num, bay := bay, base := [], rlog := [], blocks := [{ start := 0, map := BitVec.ofNat 7 (2 ^ blocks - 1) }], l := e, s := { e with clk := 1 }
    paths := [{ Path.fresh with live := true, root := 0, c := c }, { Path.fresh with root := 1 }, { Path.fresh with root := 2 },
              { Path.fresh with root := 3 }, { Path.fresh with root := 4 }]
    lq := [], sq := [], nextSlot := 0, passMarks := [], nextClk := 3, flight := [], past := Past.none, gang := 0, ganged := 0, meet := none, owed := [], split := none, parked := none
    pushSplit := false, redo := [], endings := [], savedL := none, savedS := none }

/-- The team's groups: those of the lead bay, then those of the partner (R151). -/
def freshGroups (t : Team) (ngrp : Nat) : List Group :=
  t.bays.zipIdx.flatMap fun b => (List.range ngrp).map fun i => freshGroup (b.2 * ngrp + i) b.1 t.kernel.blocks t.nextPush

/-- The lowest free slot of a bay. -/
def State.lowestCtx (s : State) (bay : Nat) : Nat := ((List.range 4).find? fun c => !(s.heldCtxs bay).contains c).getD 0

/-- The team stands on its lead bay. -/
def State.seat (s : State) (t : Team) (bay : Nat) : Team :=
  let t := { t with bay := bay, ctx := s.lowestCtx bay, partnerCtx := if t.duplex then s.lowestCtx (bay + 1) else 0, resident := true
                    ready := .now, waitFor := none }
  { t with cls := s.teamClass t }

/-- The nest's cellar allotment on a die is made when its first team is placed there (R222). -/
def State.takeCellar (s : State) (nid die units : Nat) : State :=
  if units = 0 || s.cellarTag nid die != 0 then s
  else
    let (tag, s) := s.newAllot (units * 0x40000)
    s.mapNest nid fun n => { n with cellar := n.cellar ++ [(die, tag)] }

/-- Fresh local memories, tiles and scale parts for a seated team. -/
def State.equip (s : State) (t : Team) : Team × State :=
  let k := t.kernel
  let (a, s) := s.newAllot (k.scratch * 0x10000)
  let (b, s) := s.newAllot (if t.duplex then k.scratch * 0x10000 else 0)
  let (c, s) := s.newAllot (k.landing * 0x10000)
  let (d, s) := s.newAllot (if t.duplex then k.landing * 0x10000 else 0)
  ({ t with pad := a, padPartner := b, lnd := c, lndPartner := d },
   { s with
     tiles := s.tiles ++ t.bays.flatMap (fun b => (List.range k.tiles).map fun i =>
       ({ bay := b, team := t.key, acc := i, elems := [], steps := 0 } : Tile))
     slots := s.slots ++ t.bays.map fun b => { bay := b, team := t.key, scale := [], images := [], pinned := false, grk := 0, grn := 0, bf := 0, b := [] } })

/-- The ring map that a launch packet gives (R235, R375). -/
def State.packetRings (s : State) (r : NestRecord) : List (Option RingRef) :=
  match r.ext with
  | none => List.replicate 16 none
  | some (_, es) => (List.range 16).map fun i =>
    let e := (es.getD i 0).toNat
    if bitOf e 31 then some { bay := bitsOf e 19 12, desc := bitsOf e 3 0, gen := s.ringGen (bitsOf e 19 12) (bitsOf e 3 0) } else none

/-- The part's bytes at the start of a team block, whose layout is open (log 31). -/
def State.writeBlock (s : State) (t : Team) : State :=
  let bs := (Config.blockImage s.tick).take 0xD000
  let s := { s with tick := s.tick + 1 }
  if bs.isEmpty then s else s.partWrite t t.block bs

/-- Watches and, under MODE = 1, the region table are read anew (R320, R407). A table that cannot be read stays as it was. -/
def State.readTables (s : State) (key : Nat) : State :=
  let s := match loadRegions key s with | .ok (_, s) => s | .error _ => s
  match s.team? key with
  | none => s
  | some t => match readWatches t s with
    | .ok (ws, s) => s.mapTeam key fun t => { t with watches := ws }
    | .error _ => s

/-! ### TEAM_PLACEMENT: team start (R100, R382), parking (R148) -/

/-- The indices of an iteration: dimension 0 innermost (R376). -/
def indicesOf : List Nat → Nat → List Nat
  | [], _ => []
  | c :: cs, k => k % c :: indicesOf cs (k / c)

/-- The registers of a team at its start (R100). -/
def startRegs (n : Nest) (k : Nat) (stack block lk : Nat) : List W64 :=
  let is := indicesOf (n.record.counts.take n.record.depth) k
  (List.range 64).map fun i =>
    if i = 2 then BitVec.ofNat 64 (stack / 16 * 16)
    else if i = 4 then n.launchWord
    else if 48 ≤ i ∧ i ≤ 55 then BitVec.ofNat 64 (is.getD (i - 48) 0)
    else if i = 62 then BitVec.ofNat 64 block
    else if i = 63 then BitVec.ofNat 64 lk
    else 0

/-- seg15 binds a range of the address space (R350); which one is open (log 32). -/
def linkSeg (dctx : Nat) : W128 :=
  let base := Config.linkBase dctx % 2 ^ 57
  mkSeg 0 (Config.linkLimit dctx % (2 ^ 57 - base + 1)) 0 false false true base

/-- The segments of a team at its start (R354, R382). -/
def startSegs (n : Nest) (e slot : Nat) : List W128 :=
  let r := n.record
  let ext := match r.ext with | some (ds, _) => ds | none => List.replicate 10 (mkSeg 0 0 0 false false false 0)
  [BitVec.ofNat 128 (bitsOf e 511 384), BitVec.ofNat 128 (bitsOf e 383 256), mkSeg 0 r.argLen 0 false false true r.argBase,
   mkSeg 0 r.stack 0 false true true (r.stkBase + slot * r.stack), mkSeg 0 (2 ^ 57) 0 false true true 0] ++ ext ++
  [linkSeg n.dctx]

/-- The shape registers that `.shape` directives name, granted on the bay (R134). -/
def startShapes (r : Option CodeRecord) (cls width : Nat) : List Shape :=
  match r with
  | none => List.replicate 8 Shape.zero
  | some r => r.shapes.foldl (fun hs x =>
      hs.set x.1 (shapeRequest cls width (bitsOf x.2.2.1.toNat 23 0) (bitsOf x.2.2.1.toNat 47 24) (bitsOf x.2.2.1.toNat 63 48) x.2.1 0 x.2.2.2 false))
      (List.replicate 8 Shape.zero)

def startFmts (r : Option CodeRecord) : List W64 :=
  match r with
  | none => List.replicate 16 0
  | some r => r.fmts.foldl (fun fs x => fs.set x.1 x.2) (List.replicate 16 0)

/-- Places the next iteration of a nest on a lead bay. TID and stack slot are any free ones. -/
def State.startTeam (s : State) (n : Nest) (bay : Nat) : State :=
  match readDct (sePlace s.lowestDie) n.dctx s with
  | .error _ => s
  | .ok (dct, s) => match s.objLoc { s.ghost n.dctx with dct := dct } n.obj with
  | none => s
  | some (loc, s) =>
    let tids := s.tidsFree n.dctx dct.nteam
    if tids.isEmpty || n.freeSlots.isEmpty then s else
    let tid := tids.getD (pickOf tids.length s.tick) 1
    let slot := n.freeSlots.getD (pickOf n.freeSlots.length (s.tick + 1)) 0
    let s := { s with tick := s.tick + 2 }
    let key := n.dctx * 2 ^ 16 + tid
    let p := sePlace s.lowestDie
    let (bs, s) := s.atomicRead p loc 64
    let e := readValue bs
    let s := s.addRefs p loc 1
    let k := kernelInfoOf n.obj e
    let block := dct.blockOf tid
    let code := s.record? n.dctx n.obj
    let t := { Team.fresh key n.dctx tid with
      nid := n.nid, ordinal := n.nextOrd, queue := n.queue, stackSlot := slot, duplex := n.record.duplex, born := s.nextWrite, launch := n.release, dct := dct, kernel := k
      block := block, g := startRegs n n.nextOrd n.record.stack block (bitsOf e 223 192), pc := (n.record.code.setWidth 32).setWidth 64, curObj := n.obj
      curBlkOff := k.blkOff, curNblk := k.nblk, segs := startSegs n e slot, fmts := startFmts code, rings := s.packetRings n.record, pins := [n.obj] }
    let s := { s with know := s.know.filter (fun x => !x.party.ofTeam key), nextWrite := s.nextWrite + 1 }
    let t := s.seat t bay
    let t := { t with groups := freshGroups t n.record.ngrp, shapes := startShapes code t.cls k.width }
    let s := s.takeCellar n.nid (dieOfBay bay) k.cellar
    let (t, s) := s.equip t
    let s := { s with teams := s.teams ++ [t] }
    let s := s.mapNest n.nid fun n => { n with started := true, nextOrd := n.nextOrd + 1, teams := n.teams ++ [key], stackUsed := n.stackUsed ++ [slot] }
    let s := s.acquire t.place 4 [n.release]
    let s := t.groups.foldl (fun s g => [Eng.l, Eng.s, Eng.c 0].foldl (fun s w => s.acquire (enginePlace t g w) 4 [n.release]) s) s
    let s := s.partWrite t (block + 0xD000) (leBytes 2 n.obj)
    ((s.writeBlock t).readTables key).turnQueue n.queue true

/-- A ready team frozen mid-iteration finds no bay of its class: it is parked, with a record (R148). R370 gives TAG and SEQ for the word
that faults; a parked team has none, and the record names the helm's word (log 76). -/
def State.park (s : State) (t : Team) : State :=
  (s.mapTeam t.key fun t => { t with ready := .noClass }).post t.place { RecordFields.zero with
    seq := 0xFFFFFFFF, tag := t.pc.toNat, fsec := t.frozenClass.getD 0 % 4, bay := t.bay, ctx := t.ctx, cmd := 0xA, cause := cSHAPE_FAIL
    dst := t.curObj * 2 ^ 48 }

/-- A ready team whose class is gone. -/
def State.classless (s : State) : Option Team :=
  s.teams.find? fun t => !t.resident && s.isReady t && (match t.frozenClass with | some c => !s.classExists t.duplex c | none => false)

/-- TEAM_PLACEMENT: the walkers place the next iteration that the rules choose, or park a team without a class. -/
def execTeamPlacement (s : State) : Out :=
  runEvent (fun s =>
    match s.classless with
    | some t => some (s.park t)
    | none => do
      let c ← s.chosen.find? fun c => c.team.isNone
      let n ← s.nest? c.nid
      match c.want with
      | none => some ((s.failNest n.nid cSEG_PERM).turnQueue n.queue true)
      | some w => (s.homeFor w).map (s.startTeam n)) s

/-! ### Leaving a bay (R223, R236, R247, R385) -/

/-- The team gives back what it holds on its bays; local contents are lost. -/
def State.freeBays (s : State) (t : Team) : State :=
  let s := [t.pad, t.padPartner, t.lnd, t.lndPartner].foldl State.dropStorage s
  let s := (s.returnRings t.key).leaveRings t.key
  let s := { s with tiles := s.tiles.filter fun x => x.team != t.key
                    slots := s.slots.filter fun x => x.team != t.key
                    mqueue := s.mqueue.filter fun x => x.team != t.key }
  (s.mapTeam t.key fun t => { t with resident := false, pad := 0, padPartner := 0, lnd := 0, lndPartner := 0, groups := [], surrenders := []
                                     pool := 0, poolPartner := 0, service := none, marks := none, scWait := false, scGrant := false }).settleBays

/-- Every cq entry has retired, no matrix operation is queued, no copy command is queued or running, every access is performed. -/
def State.workDone (s : State) (t : Team) : Bool :=
  t.cq.isEmpty && t.service.isNone && !(s.mqueue.any fun m => m.team == t.key) &&
  !(s.cmds.any fun c => c.team == t.key && c.state != .held) && t.groups.all fun g => g.inFlight.isEmpty

/-- A swap-out at a node boundary may proceed: no copy command is held either (R279). -/
def State.quiet (s : State) (t : Team) : Bool := s.workDone t && !(s.cmds.any fun c => c.team == t.key)

/-- A register that a node swap-out keeps (R100, R385). -/
def keptReg (live i : Nat) : Bool := i == 2 || (decide (48 ≤ i) && decide (i ≤ 55)) || i == 62 || i == 63 || (decide (1 ≤ i) && bitOf live i && decide (i < 48))

/-- The node swap-out of a quiet team: what is saved stays with it, and the block's image is open (log 31). -/
def State.swapOut (s : State) (key : Nat) (ready : Ready) : State :=
  match s.team? key with
  | none => s
  | some t =>
    let live := match s.nest? t.nid with | some n => n.record.live | none => 0
    let s := s.writeBlock t
    let s := s.freeBays t
    s.mapTeam key fun t =>
      { t with ready := ready, preempt := false, frozenClass := none, waitFor := none
               g := t.g.zipIdx.map fun x => if keptReg live x.2 then x.1 else 0 }

/-- NODE_SWAP_OUT: a team under request stands at a node boundary with its work done (R386). -/
def execNodeSwapOut (team : Nat) (s : State) : Out :=
  runEvent (fun s => do
    let t ← s.team? team
    if t.resident && t.phase == .running && t.preempt && s.atNode t && s.quiet t then some (s.swapOut team .now) else none) s

def execPreemptionRequest (team : Nat) (s : State) : Out :=
  runEvent (fun s => do
    let t ← s.team? team
    if t.resident then some (s.mapTeam team fun t => { t with preempt := true }) else none) s

/-! ### Full save and restore (R148, R236, R276, R279, R386) -/

/-- Nothing of the team is under way: its accesses are performed, no command runs but one that waits for a held slot, no operation has
begun. -/
def State.calm (s : State) (t : Team) : Bool :=
  (t.groups.all fun g => g.inFlight.isEmpty) && !(s.cmds.any fun c => c.team == t.key && c.state == .running && !c.stalled) &&
  !(s.mqueue.any fun m => m.team == t.key && m.begun)

/-- The team can be saved: it is calm and no service entry is unfinished. -/
def State.still (s : State) (t : Team) : Bool := s.calm t && t.service.isNone

/-- A full save that succeeded: the team leaves its bays with everything it holds. -/
def State.leaveSaved (s : State) (t : Team) (ready : Ready) : State :=
  let d := match s.team? t.key with | some u => u.dct | none => t.dct
  let rings := (s.ownRings t).map fun r => (t.mapIndex r, { r with waiters := [], ended := [] })
  let s := (s.returnRings t.key).leaveRings t.key
  let away (b : Nat) : Nat := offBay t.key + (if b = t.bay then 0 else 2 ^ 32)
  let s : State := { s with
    cmds := s.cmds.map fun c => if c.team == t.key then { c with bay := offBay t.key } else c
    mqueue := s.mqueue.map fun m => if m.team == t.key then { m with bay := away m.bay } else m
    tiles := s.tiles.map fun x => if x.team == t.key then { x with bay := away x.bay } else x
    slots := s.slots.map fun x => if x.team == t.key then { x with bay := away x.bay } else x }
  (s.mapTeam t.key fun t =>
    { t with resident := false, ready := ready, image := d.imageOf t.tid, keptRings := rings, frozenClass := some (s.teamClass t)
             preempt := false, overdue := false, marks := none, scWait := false, scGrant := false }).settleBays

/-- Every engine of the team stops, unless a freeze has stopped it (R179). -/
def State.stopEngines (s : State) (key : Nat) : State :=
  match s.team? key with
  | none => s
  | some t =>
    let s := t.groups.foldl (fun s g => g.engines.foldl (fun s e => if (g.eng e).halted then s else s.stopEngine t g e) s) s
    -- a team that no trap froze runs on once it is restored
    if t.phase != .running then s
    else s.mapTeam key fun t =>
      { t with groups := t.groups.map fun g => g.engines.foldl (fun g e => g.mapEng e fun e => { e with halted := false, waitFor := none }) g }

/-- A forced full save: on a failing write the team stays frozen and resident, with a DOUBLE record (R372, R412). -/
def State.fullSave (s : State) (t : Team) (ready : Ready) : State :=
  let s := s.stopEngines t.key
  let t := (s.team? t.key).getD t
  let w := s.saveImage t
  match w.fail with
  | none => w.state.leaveSaved t ready
  | some _ =>
    let d := match w.state.team? t.key with | some u => u.dct.imageOf t.tid | none => 0
    ((w.post t (w.doubleRecord t d)).leaveRings t.key).mapTeam t.key fun t => { t with phase := .stopped, overdue := true, waitFor := none }

/-- PREEMPTION_DEADLINE: the supervisor forces a full save, anywhere: of a team that runs, and of one that is frozen or in its vector (R386;
log 109). -/
def execPreemptionDeadline (team : Nat) (s : State) : Out :=
  runEvent (fun s => do
    let t ← s.team? team
    if t.resident && t.preempt && s.still t then some (s.fullSave t .now) else none) s

/-- The kept commands re-enter the channels of the new lead bay in their order, with new SEQ; held ones post fresh records (R279),
and under FT raise COPY_FAULT with them (R289). One that was waiting to post is held from then on (R287). -/
def State.returnCmds (s : State) (key : Nat) : List CopyCmd → State
  | [] => s
  | c :: rest =>
    match s.team? key with
    | none => s
    | some t =>
      let ch := s.channel t.bay c.ch
      let c' := { c with bay := t.bay, seq := ch.nextSeq, place := { c.place with bay := t.bay, bays := t.bays, die := t.die }
                         state := match c.state with | .running => .queued | .posting => .held | x => x }
      let s := (s.setChannel { ch with nextSeq := (ch.nextSeq + 1) % 2 ^ 32 })
      let s : State := { s with cmds := s.cmds.filter (fun x => !(x.bay == c.bay && x.ch == c.ch && x.seq == c.seq)) ++ [c'] }
      let r := c'.faultRecord t (bitmapVa t c'.slot)
      let s := if c'.state = .held then s.post c'.place r else s
      let s := if c'.state = .held && c.ft && (s.team? key).any (·.phase != .stopped) then s.helmTrap key { code := cCOPY_FAULT, fva := r.fva, info := 0, write := false, fetch := false, mask := none } else s
      s.returnCmds key rest

/-- The kept rings take free descriptors of the new lead bay, which has enough of them (log 93), under the same map entries (R236). -/
def State.returnDescs (s : State) (t : Team) : List (Nat × Ring) → State
  | [] => s
  | (_, r) :: rest =>
    let free := s.freeDescs t.bay
    let d := free.getD (pickOf free.length s.tick) 0
    let gen := s.ringGen t.bay d
    let old : RingRef := { bay := r.bay, desc := r.desc, gen := r.gen }
    let new : RingRef := { bay := t.bay, desc := d, gen := gen }
    let s := { s with tick := s.tick + 1 }.setRing { r with bay := t.bay, desc := d, gen := gen, valid := true }
    let s := s.mapTeam t.key fun t => { t with rings := t.rings.map fun m => if m == some old then some new else m }
    s.returnDescs t rest

/-- Restores a fully saved team on a lead bay of its class; nothing is re-granted (R148). -/
def State.restore (s : State) (t : Team) (bay : Nat) : State :=
  let u := s.seat t bay
  let u := { u with cls := t.frozenClass.getD u.cls, frozenClass := none, resumes := t.resumes + 1, keptRings := []
                    groups := t.groups.map fun g => { g with bay := if g.bay = t.bay then bay else bay + 1 } }
  let back (b : Nat) : Nat := if b = offBay t.key then bay else bay + 1
  let s : State := { s with
    mqueue := s.mqueue.map fun m => if m.team == t.key then { m with bay := back m.bay } else m
    tiles := s.tiles.map fun x => if x.team == t.key then { x with bay := back x.bay } else x
    slots := s.slots.map fun x => if x.team == t.key then { x with bay := back x.bay } else x }
  let s := s.mapTeam t.key fun _ => u
  let s := match (do let d ← readDct u.place u.dctx; mapTeamM t.key fun t => { t with dct := d }; loadImage t.key : M Unit) s with
    | .ok (_, s) => s
    | .error _ => s
  let s := s.returnCmds t.key (s.cmds.filter fun c => c.team == t.key)
  let s := s.returnDescs u t.keptRings
  s.takeCellar t.nid (dieOfBay bay) t.kernel.cellar

/-- Re-grant of the shape registers where the lattice differs (R149). -/
def Team.regrant (t : Team) (cls : Nat) : Team :=
  if cls = t.cls then t
  else { t with cls := cls, shapes := t.shapes.map fun h => h.regrant cls t.kernel.width, shapeChanged := true }

/-- A team that left at a node boundary is placed anew. Its ring map is as it was, or as the launch packet gives it (log 35). -/
def State.resumeNode (s : State) (t : Team) (bay : Nat) : State :=
  let u := s.seat t bay
  let u := { t.regrant u.cls with bay := u.bay, ctx := u.ctx, partnerCtx := u.partnerCtx, resident := true, ready := .now, waitFor := none
                                  resumes := t.resumes + 1 }
  let u := { u with groups := freshGroups u (s.groupsOf t.nid) }
  let packet := match s.nest? t.nid with | some n => s.packetRings n.record | none => u.rings
  let u := { u with rings := if pickOf 2 s.tick = 0 then u.rings else packet }
  let s := { s with tick := s.tick + 1 }.takeCellar t.nid (dieOfBay bay) t.kernel.cellar
  let (u, s) := s.equip u
  let s := s.mapTeam t.key fun _ => u
  match (do let d ← readDct u.place u.dctx; mapTeamM t.key fun t => { t with dct := d } : M Unit) s with
  | .ok (_, s) => s
  | .error _ => s

/-- The team's held commands, whose fresh records the host fault queue must have room for (R279, R370). -/
def State.recordsFit (s : State) (key : Nat) : Bool :=
  let held := (s.cmds.filter fun c => c.team == key && (c.state == .held || c.state == .posting)).length
  held == 0 || decide ((s.mgmt.fqProd + 2 ^ 32 - s.mgmt.fqCons % 2 ^ 32) % 2 ^ 32 + s.posts.length + held ≤ 4096)

/-- TEAM_RESUME: the ready team is one that the rules choose. -/
def execTeamResume (team : Nat) (s : State) : Out :=
  runEvent (fun s => do
    let t ← s.team? team
    let c ← s.chosen.find? fun c => c.team == some team
    let w ← c.want
    let bay ← s.homeFor w
    if !s.recordsFit team then none else
    let s := if t.image = 0 && t.frozenClass.isNone then s.resumeNode t bay else s.restore t bay
    some ((s.readTables team).turnQueue t.queue false)) s

/-! ### TEAM_DESCHEDULE (R383) -/

/-- The helm is in a scheduler-visible wait. -/
def WaitFor.visible (w : WaitFor) : Bool :=
  match w with
  | .waypoint _ _ => true
  | .ring _ _ _ => true
  | .launchQueue _ => true
  | .children => true
  | _ => false

def Team.waitsVisibly (t : Team) : Bool :=
  t.resident && (t.phase == .running || t.phase == .vector) && match t.waitFor with | some w => w.visible | none => false

def subsets : List Nat → List (List Nat)
  | [] => [[]]
  | x :: xs => subsets xs ++ (subsets xs).map (x :: ·)

/-- The other teams that wait visibly on one of the bays. -/
def State.waitersOn (s : State) (key : Nat) (on : List Nat) : List Nat :=
  (s.teams.filter fun (u : Team) => u.key != key && u.waitsVisibly && u.bays.any fun x => on.contains x).map (·.key)

/-- The candidate fits on a bay, or duplex, once the team has left it, alone or after other waiters there, and not before. -/
def State.blocks (s : State) (t : Team) (w : Want) (bay : Nat) : Bool :=
  ((leadBays w bay).any fun x => t.bays.contains x) &&
  (subsets (s.waitersOn t.key (leadBays w bay))).any fun g => !(s.without g).fitsAt w bay && (s.without (t.key :: g)).fitsAt w bay

/-- A candidate cannot be placed for want of what the team holds (R383). -/
def State.stands (s : State) (t : Team) : Bool :=
  s.cands.any fun c => match c.want with
    | none => false
    | some w => !s.placeable c && (t.bays ++ t.bays.map fun b => b / 2 * 2).any (s.blocks t w)

/-- TEAM_DESCHEDULE: at a node boundary by swap-out, elsewhere by full save. -/
def execTeamDeschedule (team : Nat) (s : State) : Out :=
  runEvent (fun s => do
    let t ← s.team? team
    let w ← t.waitFor
    if !(t.waitsVisibly && s.stands t) then none
    else if t.phase == .running && s.atNode t then (if s.quiet t then some (s.swapOut team (.waits w)) else none)
    else if s.still t then some (s.fullSave t (.waits w)) else none) s

/-! ### The end of a team (R391, R404) -/

/-- The references of the pin list are given back (R418). -/
def State.unpin (s : State) (t : Team) : State :=
  t.pins.foldl (fun s o => match s.objLoc t o with | some (loc, s) => s.addRefs t.place loc (-1) | none => s) s

/-- No party of the team, and no run of its commands, waits on any waypoint. -/
def State.forget (s : State) (key : Nat) : State :=
  let runs := (s.cmds.filter fun c => c.team == key).map (·.run)
  s.unregister fun p => p.ofTeam key || (match p with | .copy r => runs.contains r | _ => false)

/-- The team is gone: its writes are at their homes, its nest has its release, everything it held is free. -/
def State.endTeam (s : State) (key : Nat) : State :=
  match s.team? key with
  | none => s
  | some t =>
    let ids := s.teamKnown t
    let rel : Release := { place := t.place, scope := 5, known := ids, lifted := s.teamLifted t }
    let s := s.drain fun w => ids.contains w.id
    let s := s.reclaim fun w => w.life == 0 && w.owner == t.tid && w.dctx == t.dctx
    let s := (s.unpin t).forget key
    let s := ((s.freeBays t).dropTeam key).settleBays
    let s : State := { s with nests := s.nests.map fun n => if n.parent == some key then { n with parent := none } else n
                              cmds := s.cmds.filter fun c => c.team != key }
    s.mapNest t.nid fun n =>
      let teams := n.teams.erase key
      { n with teams := teams, stackUsed := n.stackUsed.erase t.stackSlot, done := n.done ++ [rel]
               finished := teams.isEmpty && decide (n.total ≤ n.nextOrd) }

/-- Held commands of the team are discarded as by `cp.replay.discard` (R279, R298); so is one that waits for a slot to be held in, or for its
record. -/
def State.discardHeld (s : State) (t : Team) : State :=
  (s.cmds.filter fun c => c.team == t.key && c.state != .queued).foldl (fun s c => s.discardCmd c t.dct.aspace) s

/-- `team.exit`. -/
def exitTeam (t : Team) : M Next := do
  let s ← get
  if !s.workDone t then waitOn .drain
  modify fun s => (s.discardHeld t).endTeam t.key
  pure .gone

def execTeamExit (s : State) : Out := runHelm 4 exitTeam s

/-- `ret` (R125): of the end descriptor it is `team.exit`. Bits [47:32] of a descriptor are ignored on use (R121), so one whose OBJ and OFF
are 0 is the end descriptor whatever they hold (DEDUCED, safe either way: log 94). -/
def execRet (a : GReg) (s : State) : Out :=
  runHelm 4 (fun t => do
    let d := t.reg a
    let obj := d.toNat / 2 ^ 48
    if obj = 0 ∧ d.toNat % 2 ^ 32 = 0 then exitTeam t
    else do
      if obj != t.curObj then switchObject t.key d obj
      need (d.toNat % 4 == 0) cMISALIGN d.toNat
      pure (.jump (d.toNat % 2 ^ 32))) s

/-- Steps 2 to 5 of R404 for the team that ends, with the dump destination. -/
def State.haltTeam (s : State) (key d : Nat) : State :=
  match s.team? key with
  | none => s
  | some t =>
    let c := t.cause.toNat
    let eng := bitsOf c 15 14
    let r : RecordFields := { RecordFields.zero with
      cmd := 0xD, cause := c % 256, fva := t.faultva.toNat, tag := if eng = 3 then t.epc.toNat % 2 ^ 32 else c / 2 ^ 32, seq := 0xFFFFFFFF
      fsec := bitsOf c 31 8, src := d, dst := t.epc.toNat / 2 ^ 48 * 2 ^ 48, bay := t.bay, ctx := t.ctx }
    let s := s.discardHeld t
    let w : Writer := { state := s, ids := [], fail := none }
    (w.post t r).endTeam key

/-- `halt` (R404): a dump that fails leaves the team frozen before the word. -/
def execHalt (a : GReg) (s : State) : Out :=
  runHelm 4 (fun t => do
    need t.super cPRIV
    need t.inVector cILLEGAL
    let s ← get
    if !s.calm t then waitOn .drain
    if s.queueFull then waitOn .faultQueue
    let d := (t.reg a).toNat
    if d % 4096 != 0 then do
      modify fun s => s.double t.key { code := cMISALIGN, fva := d, info := 0, write := true, fetch := false, mask := none } 0xFF d
      pure .gone
    else if d = 0 then do
      modify fun s => s.haltTeam t.key 0
      pure .gone
    else do
      let s ← get
      let w := s.writeDump t d 0 (2 ^ 57) (s.teamClass t)
      match w.fail with
      | none => do
        set (w.state.haltTeam t.key d)
        pure .gone
      | some _ => do
        set (((w.post t (w.doubleRecord t d)).leaveRings t.key).mapTeam t.key fun t => { t with phase := .stopped, waitFor := none })
        pure .gone) s

/-! ### The team words (R388 to R390, R392) -/

/-- The helm's position after the word, for a team that leaves its bay at it. -/
def Team.stepPast (t : Team) (len : Nat) : Team :=
  { t with pc := (nextPc t t len .seq).1, loop := (nextPc t t len .seq).2, exempt := false, waitFor := none }

/-- A candidate of the team's priority or higher waits and would fit on its bay once it had left (R390). -/
def State.yieldsTo (s : State) (t : Team) : Bool :=
  s.cands.any fun c => match c.want with
    | none => false
    | some w => decide (s.priority t.queue ≤ c.prio) && (t.bays.any fun b => (s.without [t.key]).fitsAt w (if w.duplex then b / 2 * 2 else b))

def execYield (s : State) : Out :=
  runHelm 4 (fun t => do
    let s ← get
    if t.super then do
      -- in a frozen team's vector: parked until the host releases or ends it
      if !s.still t then waitOn .drain
      -- saved as it stands after the word, or after a failing save frozen before it
      let s' := (s.mapTeam t.key (·.stepPast 4)).fullSave (t.stepPast 4) .release
      set (if (s'.team? t.key).any (·.resident) then s.fullSave t .release else s')
      pure .gone
    else do
      need (s.atNode t) cILLEGAL
      if !s.yieldsTo t then pure .seq
      else do
        if !(s.quiet t && t.phase == .running) then waitOn .drain
        modify fun s => (s.mapTeam t.key fun t => t.stepPast 4).swapOut t.key .now
        pure .gone) s

/-- `join` (R388), also as the end of `fork.wait`. With no uncompleted child it goes on: at once with 0, or after its wait with the count
of the children joined. -/
def joinChildren (t : Team) (d : GReg) : M Next := do
  needWritable t d
  let t ← teamOf t.key
  if t.children = 0 then do
    let rel := t.childRelease
    modify fun s =>
      let k := s.knowOf t.place.party
      s.setKnow { k with known := unionIds k.known rel.known, lifted := unionIds k.lifted rel.lifted }
    setG t.key d (BitVec.ofNat 64 (if t.joining then t.joined else 0))
    mapTeamM t.key fun t => { t with joined := 0, joining := false, childRelease := Release.none }
    pure .seq
  else do
    mapTeamM t.key fun t => { t with joining := true }
    let s ← get
    if !(s.quiet t && t.phase == .running) then waitOn .children
    modify fun s => s.swapOut t.key .children
    pure .gone

def execJoin (d : GReg) (s : State) : Out :=
  runHelm 4 (fun t => do
    let s ← get
    need (s.atNode t) cILLEGAL
    needWritable t d
    joinChildren t d) s

/-- `fork` (R387). A `fork.wait` that has launched its child goes on as `join`. -/
def execFork (d a : GReg) (flag : Bool) (queue : BitVec 6) (seg : BitVec 4) (imm : W32) (s : State) : Out :=
  runHelm 8 (fun t => do
    let s ← get
    need (s.atNode t) cILLEGAL
    if flag && t.joining then joinChildren t d
    else do
      let nid ← launchNest t d a false true queue seg imm
      setG t.key d (BitVec.ofNat 64 nid)
      if flag then joinChildren t d else pure .seq) s

def execTeamInfo (d : GReg) (item : BitVec 4) (s : State) : Out :=
  runHelm 4 (fun t => do
    let s ← get
    need (decide (item.toNat ≤ 7)) cILLEGAL
    let on (b : Nat) : Nat := (t.groups.filter fun g => g.bay == b).length
    setG t.key d (BitVec.ofNat 64 (match item.toNat with
      | 0 => t.tid
      | 1 => t.nid
      | 2 => t.ordinal
      | 3 => t.queue + s.priority t.queue * 2 ^ 8
      | 4 => on t.bay + (if t.duplex then on (t.bay + 1) else 0) * 2 ^ 8 + t.kernel.width * 2 ^ 16
      | 5 => t.block
      | 6 => t.settle.pool + t.settle.poolPartner * 2 ^ 8
      | _ => t.resumes))
    pure .seq) s

/-! ### Register blocks (R188, R393) -/

def maskBlocks (mask : BitVec 7) : List Nat := (List.range 7).filter fun b => mask.getLsbD b

/-- The group select of `rb.surr` and `rb.claim`. -/
def blockSelect (t : Team) (a : GReg) (mask : BitVec 7) : M (List Group) := do
  need (mask != 0) cILLEGAL
  let gsel := (t.reg a).toNat % 256
  needSelect t gsel
  pure (t.selected gsel)

/-- Surrenders of a block of a group that are not yet in the pool. -/
def Team.pendingOf (t : Team) (grp b : Nat) : Bool := t.surrenders.any fun x => x.grp == grp && x.block == b

/-- The block is in the group's map, or leaves it only when earlier entries have finished. -/
def Team.holdsBlock (t : Team) (g : Group) (b : Nat) : Bool := (g.mapAt t.nextPush).getLsbD b || t.pendingOf g.num b

def execRbSurr (a : GReg) (mask : BitVec 7) (s : State) : Out :=
  runHelm 4 (fun t => do
    let gs ← blockSelect t a mask
    let bs := maskBlocks mask
    need (gs.all fun g => bs.all fun b => (g.mapAt t.nextPush).getLsbD b && !t.pendingOf g.num b) cQUEUE_PROTOCOL
    mapTeamM t.key fun t =>
      let leave (g : Group) : Group := if gs.any fun x => x.num == g.num then
        { g with blocks := g.blocks ++ [{ start := t.nextPush, map := g.mapAt t.nextPush &&& ~~~mask }] } else g
      let t : Team := { t with
        groups := t.groups.map leave
        surrenders := t.surrenders ++ gs.flatMap fun g => bs.map fun b => { grp := g.num, block := b, below := t.nextPush } }
      t.settle
    pure .seq) s

/-- Registers of claimed blocks read 0 until they are written. -/
def Group.clearBlocks (g : Group) (bs : List Nat) : Group :=
  { g with base := g.base.filter fun x => !(decide (x.1 / 64 < 112) && bs.contains (x.1 / 1024))
           rlog := g.rlog.filter fun x => !(decide (x.reg < 112) && bs.contains (x.reg / 16)) }

def execRbClaim (a : GReg) (mask : BitVec 7) (s : State) : Out :=
  runHelm 4 (fun t => do
    mapTeamM t.key Team.settle
    let t ← teamOf t.key
    let gs ← blockSelect t a mask
    let bs := maskBlocks mask
    need (gs.all fun g => bs.all fun b => !t.holdsBlock g b) cQUEUE_PROTOCOL
    let on (lead : Bool) : Nat := (gs.filter fun g => (g.bay == t.bay) == lead).length * bs.length
    let pending (lead : Bool) : Nat := (t.surrenders.filter fun x =>
      match t.group? x.grp with | some g => (g.bay == t.bay) == lead | none => false).length
    need (decide (on true ≤ t.pool + pending true) && decide (on false ≤ t.poolPartner + pending false)) cQUEUE_PROTOCOL
    if !(decide (on true ≤ t.pool) && decide (on false ≤ t.poolPartner)) then waitOn .blocks
    mapTeamM t.key fun t =>
      let enter (g : Group) : Group := if gs.any fun x => x.num == g.num then
        { g.clearBlocks bs with blocks := g.blocks ++ [{ start := t.nextPush, map := g.mapAt t.nextPush ||| mask }] } else g
      { t with pool := t.pool - on true, poolPartner := t.poolPartner - on false, groups := t.groups.map enter }
    pure .seq) s

/-! ### CONTEXT_DESTRUCTION (R333) -/

def execContextDestruction (dctx : Nat) (s : State) : Out :=
  runEvent (fun s => some (s.reclaim fun w => w.life == 2 && w.dctx == dctx)) s

end Sys2Proof.Machine
end

