-- ==== Sys2Proof/Machine/Module.lean ====
section
/-! DEFINITION. Bring-up, repair, spares, the loss of a die, links, peers, heat and the host's memory accesses (01_resources.md R10, R17
to R20; 05_shapes.md R140; 11_writesets.md R322, R325; 17_outside.md R426, R430 to R439). -/

namespace Sys2Proof.Machine

/-! ### The health log (R436) -/

def healthImage (e : HealthEntry) : W128 :=
  BitVec.ofNat 128 (e.eold.toNat * 2 ^ 104 + e.conf.toNat * 2 ^ 96 + e.value.toNat * 2 ^ 64 + e.kind.toNat * 2 ^ 56 + e.site.toNat * 2 ^ 52 +
    e.unit.toNat * 2 ^ 40 + e.time.toNat)

def State.raiseMsix (s : State) (v : Nat) : State := { s with mgmt := { s.mgmt with msix := s.mgmt.msix ++ [v] } }

/-- One entry at HLPROD mod 4,096, over the oldest; an end of life below 30 days raises vector 1. -/
def State.logHealth (s : State) (e : HealthEntry) : State :=
  let m := s.mgmt
  let i := m.hlProd % 4096
  let s : State := { s with mgmt := { m with
    hlog := (i, healthImage e) :: m.hlog.filter fun x => x.1 != i
    hlProd := (m.hlProd + 1) % 2 ^ 32
    seconds := e.time.toNat } }
  if e.eold.toNat < 30 then s.raiseMsix 1 else s

/-- An entry that the part makes for an event of its own: kind 5 repair, 6 harbour, 7 pool frame rejected; what R436 leaves open of it
is free (log 36). -/
def State.logEvent (s : State) (kind site : Nat) (unit : Option Nat) : State :=
  let (conf, value, u) := Config.healthReading s.tick
  let time := s.mgmt.seconds + Config.secondsPassed s.tick
  { s with tick := s.tick + 1 }.logHealth
    { eold := 0xFFFFFF, conf := conf, value := value, kind := BitVec.ofNat 8 kind, site := BitVec.ofNat 4 site
      unit := (unit.map (BitVec.ofNat 12)).getD u, time := BitVec.ofNat 40 time }

/-- MONITOR_REPORT. -/
def execMonitorReport (e : HealthEntry) (s : State) : Out := runEvent (fun s => some (s.logHealth e)) s

/-! ### The loss of a die (R20, R438) -/

/-- A team resident on the die is lost: a record with CMD 0xB is posted, and it counts as exited, but its nest makes no CWP arrival. -/
def State.loseTeam (s : State) (t : Team) : State :=
  let s := s.post (sePlace s.lowestDie) { RecordFields.zero with
    seq := 0xFFFFFFFF, tag := t.pc.toNat, bay := t.bay, ctx := t.ctx, cmd := 0xB, cause := cECC_UNCORR, dst := t.curObj * 2 ^ 48 }
  let s := s.reclaim fun w => w.life == 0 && w.owner == t.tid && w.dctx == t.dctx
  let s := ((s.forget t.key).freeBays t).dropTeam t.key
  let s : State := { s with nests := s.nests.map fun n => if n.parent == some t.key then { n with parent := none } else n
                            cmds := s.cmds.filter fun c => c.team != t.key }
  s.mapNest t.nid fun n =>
    let teams := n.teams.erase t.key
    { n with teams := teams, stackUsed := n.stackUsed.erase t.stackSlot, record := { n.record with cwp := 0 }
             finished := teams.isEmpty && decide (n.total ≤ n.nextOrd) }

/-- A repetition in flight with lanes to the die raises ECC_UNCORR: it becomes its engine's stop point (R179; log 38). -/
def State.loseAccess (s : State) (die key grp : Nat) (a : Access) : State :=
  let lost := a.lanes.filter fun x => lostLoc die x.loc
  match lost, (s.team? key).bind (·.group? grp) with
  | x :: _, some g =>
    if g.inFlight.contains a then
      s.faultInFlight key grp a x.addr (BitVec.ofNat 64 ((lost.map fun y => 2 ^ y.lane).foldl (· + ·) 0))
    else s
  | _, _ => s

/-- The repetitions of a group in flight that the loss strikes, one for each engine: its earliest. They come in the order in which traps of one
clock give the cause: paths by ascending slot, then L, C, S (R179). -/
def Group.struck (g : Group) (die : Nat) : List Access :=
  let rank (a : Access) : Nat := match a.eng with | .l => 0 | .c => 1 | .s => 2
  let same (a b : Access) : Bool := a.eng == b.eng && (a.eng != .c || a.path == b.path)
  let firsts := (g.inFlight.filter fun a => a.lanes.any fun x => lostLoc die x.loc).foldl
    (fun acc a => if acc.any (same a) then acc else acc ++ [a]) ([] : List Access)
  firsts.mergeSort fun a b => decide (a.path * 3 + rank a ≤ b.path * 3 + rank b)

/-- The sectors of running commands that are in flight when the die is lost: of those still to be moved, any (R438; log 102). -/
def State.loseSectors (s : State) (die : Nat) : State :=
  (s.cmds.filter fun c => c.state == .running).foldl (fun s c => (List.range c.nsec).foldl (fun s i =>
    match s.runningCmd c.bay c.ch, s.team? c.team with
    | some c, some t =>
      if t.die != die && c.due i then
        let u := { s with tick := s.tick + 1 }
        if pickOf 2 s.tick = 0 then u else u.attemptSector t c i (some die)
      else s
    | _, _ => s) s) s

/-- Everything homed on the die is lost together, and the repair is logged (R436 to R438). The helm of every other team may have the
access of its present word in flight. -/
def State.loseDie (s : State) (die : Nat) : State :=
  let s := s.loseSectors die
  let s : State := { s with teams := s.teams.map fun t => { t with late := die :: t.late } }
  let s := s.mapDie die fun d => { d with inService := false, pool := [] }
  let s : State := { s with bays := s.bays.map fun b => if dieOfBay b.num == die then { b with inService := false } else b
                            mgmt := { s.mgmt with state := 3 } }
  let s := (s.teams.filter fun t => t.resident && t.die == die).foldl State.loseTeam s
  let s := s.reclaim fun w => w.die == die
  let s := (s.teams.flatMap fun t => t.groups.flatMap fun g => ((g.struck die).map fun a => (t.key, g.num, a))).foldl
    (fun s x => s.loseAccess die x.1 x.2.1 x.2.2) s
  let s := s.logEvent 5 die none
  let lostTags := s.nests.flatMap fun n => (n.cellar.filter fun c => c.1 == die).map (·.2)
  let s := lostTags.foldl State.dropStorage s
  { s with
    nests := s.nests.map fun n => { n with cellar := n.cellar.filter fun c => c.1 != die }
    mem := s.mem.filter fun c => !lostLoc die c.1
    writes := s.writes.filter fun w => !lostLoc die w.loc
    tokens := s.tokens.filter fun k => dieOfPa (k.block * 4096) != die
    tlb := s.tlb.filter fun e => dieOfBay e.bay != die
    experts := s.experts.filter fun e => e.die != die
    rings := s.rings.filter fun r => dieOfBay r.bay != die
    channels := s.channels.filter fun c => dieOfBay c.bay != die }

/-- DIE_DEGRADE_OUT. -/
def execDieDegradeOut (die : Nat) (s : State) : Out :=
  runEvent (fun s => if s.dieUp die then some (s.loseDie die) else none) s

/-- DIE_EDGE_FAILURE: traffic takes the other route (R10), which no result shows. What becomes of traffic in service whose both routes are
gone the spec does not say (R434 gives a rule at bring-up only): the model lets it go on (log 96). -/
def execDieEdgeFailure (edge : Nat) (s : State) : Out :=
  runEvent (fun s =>
    if s.edges.getD edge false then some ({ s with edges := s.edges.set edge false }.logEvent 5 edge none) else none) s

/-! ### Bays and spares (R13, R17 to R19, R140, R437) -/

/-- Free spare stops of a die: stops that pass at Class A, bear no bay and are assigned to none. -/
def State.freeSpares (s : State) (die : Nat) : List Nat :=
  let mine := s.bays.filter fun b => dieOfBay b.num == die
  let used := mine.map (·.stop) ++ mine.filterMap (·.spare)
  match s.die? die with
  | none => []
  | some d => (List.range d.stops.length).filter fun i => d.stops.getD i 0 == 4 && !used.contains i

def State.enabledBays (s : State) (die : Nat) : Nat := (s.bays.filter fun b => b.inService && dieOfBay b.num == die).length

def freshBay (num stop quads : Nat) (up : Bool) : Bay :=
  { num := num, stop := stop, quads := quads, presented := classOfQuads quads, retiring := false, spare := none, inService := up, clock := 0, temp := 25
    mhz := 1750 }

/-- The bay is chosen for retirement: no new placements, and its teams leave at their next node boundaries (R19). -/
def State.chooseRetire (s : State) (bay : Nat) : State :=
  let s := s.mapBay bay fun b => { b with retiring := true }
  { s with teams := s.teams.map fun t => if t.resident && t.bays.contains bay then { t with preempt := true } else t }

/-- The stop's good quadrants are `q`; below 2 the bay is to retire. -/
def State.setQuads (s : State) (bay q : Nat) : State :=
  match s.bay? bay with
  | none => s
  | some b =>
    let s := s.mapDie (dieOfBay bay) fun d => { d with stops := d.stops.set b.stop q }
    s.mapBay bay fun b => { b with quads := q }

/-- A repair event of a bay's stop, logged (R436). -/
def State.logRepair (s : State) (bay : Nat) : State :=
  match s.bay? bay with
  | some b => s.logEvent 5 (dieOfBay bay) (some b.stop)
  | none => s

/-- The bays of a die that take spares, in the order of R18: to be retired, then Class C, then Class B, lowest index first. -/
def State.needSpares (s : State) (die : Nat) : List Nat :=
  let bays := ((List.range 48).map fun i => die * 48 + i).filterMap s.bay?
  let pick (f : Nat → Bool) : List Nat := (bays.filter fun b => b.inService && b.spare.isNone && f b.quads).map (·.num)
  pick (fun q => decide (q < 2)) ++ pick (· == 2) ++ pick (· == 3)

/-- An in-service repair assigns the die's free spares (R18), the lowest-numbered free stop first (log 39); a bay that gets one is chosen for
retirement. -/
def State.assignSpares (s : State) (die : Nat) : State :=
  ((s.needSpares die).zip (s.freeSpares die)).foldl (fun s x => (s.mapBay x.1 fun b => { b with spare := some x.2 }).chooseRetire x.1) s

/-- A repair of a bay of the die (R18, R19, R140): the residents of a bay that has lost a quadrant leave at their next node boundary, and a
bay with fewer than two retires. -/
def State.repairBay (s : State) (bay q : Nat) : State :=
  let s := (s.setQuads bay q).settleBays
  let s := if q < 2 then s.chooseRetire bay
    else { s with teams := s.teams.map fun t => if t.resident && t.bays.contains bay then { t with preempt := true } else t }
  (s.assignSpares (dieOfBay bay)).logRepair bay

/-- A bay whose last team has left is retired, and the spare assigned to it takes its index (R13, R18). With none the index is vacant; a die
with fewer than 40 bays is degraded out (R437). -/
def State.retireBay (s : State) (b : Bay) : State :=
  let die := dieOfBay b.num
  match b.spare with
  | none =>
    let s := s.mapBay b.num fun b => { b with inService := false, retiring := false }
    if s.enabledBays die < 40 then s.loseDie die else s
  | some stop =>
    let s := s.mapDie die fun d => { d with stops := d.stops.set b.stop 0 }
    let s : State := { s with tlb := s.tlb.filter fun e => e.bay != b.num
                              caches := s.caches.filter fun c => c.cache != .helm b.num && c.cache != .landing b.num
                              channels := s.channels.filter fun c => c.bay != b.num }
    s.mapBay b.num fun b => freshBay b.num stop 4 true

/-- BAY_RETIREMENT. -/
def execBayRetirement (bay : Nat) (s : State) : Out :=
  runEvent (fun s => do
    let b ← s.bay? bay
    if b.retiring && b.inService && (s.onBay bay).isEmpty then some (s.retireBay b) else none) s

/-! ### Bring-up (R433 to R435) -/

/-- Bays that the four spare stops replace at bring-up: retired, then Class C, then Class B, lowest index first (R18). -/
def bringUpOrder (qs : List Nat) : List Nat :=
  let ix (f : Nat → Bool) : List Nat := (List.range 48).filter fun i => f (qs.getD i 0)
  ix (fun q => decide (q < 2)) ++ ix (· == 2) ++ ix (· == 3)

/-- Pairs of a replaced index and the spare stop it gets: spare stops are 48 to 51 (log 39). -/
def bringUpSpares (qs : List Nat) : List (Nat × Nat) :=
  (bringUpOrder qs).zip (([48, 49, 50, 51] : List Nat).filter fun i => qs.getD i 0 == 4)

def bringUpBays (die : Nat) (qs : List Nat) : List Bay :=
  (List.range 48).map fun i =>
    match (bringUpSpares qs).find? fun x => x.1 == i with
    | some x => freshBay (die * 48 + i) x.2 4 true
    | none => freshBay (die * 48 + i) i (qs.getD i 0) (decide (2 ≤ qs.getD i 0))

def bringUpDie (n : Nat) (qs : List Nat) (secfg : W64) : Die :=
  { num := n, inService := true, secfg := secfg &&& 0x00FF007FFFFF0000, pool := [], push := 0, lookups := 0
    stops := (bringUpSpares qs).foldl (fun qs x => qs.set x.1 0) (qs.take 52) }

/-- The numbers below `n` whose bits of a mask are set. -/
def setBits (m n : Nat) : List Nat := (List.range n).filter fun i => bitOf m i

/-- The lanes of a link that fail the lane test (R433), of its eight lanes and the spare. -/
def badLanes (r : BringUp) (link : Nat) : List Nat := setBits (r.lanes.getD link 0) 9

/-- A link comes up with at most one failed lane, for which its spare stands (R432). -/
def linkUp (r : BringUp) (link : Nat) : Bool := r.links.getD link false && decide ((badLanes r link).length ≤ 1)

/-- The failure code of steps 3 to 6, if repair cannot cover what they find (R434). -/
def bringUpFailure (r : BringUp) : Option Nat :=
  let dies := List.range 4
  let down := (List.range 16).filter fun i => !linkUp r i
  let edges := (List.range 4).filter fun i => !r.edges.getD i false
  match dies.find? fun d => !r.dies.getD d false with
  | some d => some (0x10 + d)
  | none =>
    match (List.range 8).find? fun st => decide ((setBits (r.chans.getD st 0) 32).length > 4) with
    | some st => some (0x20 + st / 2)
    | none =>
      match dies.find? fun d => decide (((bringUpBays d (r.quads.getD d [])).filter (·.inService)).length < 40) with
      | some d => some (0x30 + d)
      | none =>
        -- an edge's other route runs over the other three edges
        if edges.length ≥ 2 then some (0x40 + edges.headD 0)
        else if down.length > 8 then some (0x50 + down.headD 0)
        else none

/-- Harbour state with a code (R435). -/
def State.harbour (s : State) (code : Nat) : State :=
  { s with mgmt := { s.mgmt with state := 2, harbour := code } }.logEvent 6 4 none

/-- The step of bring-up that a failure code ends at: 3 to 6, and past them without one. -/
def failedStep (code : Option Nat) : Nat :=
  match code with
  | none => 7
  | some c => if c < 0x20 then 3 else if c < 0x30 then 4 else if c < 0x40 then 5 else 6

/-- What the steps of bring-up found that repair covers, up to the step that fails, with it, is logged, one entry for each repair (R433, R434,
R436; log 36): retired channels, stops that are not whole, a failed edge, and of the links each failed lane, or the link that is down. -/
def State.logRepairs (s : State) (r : BringUp) : State :=
  let step := failedStep (bringUpFailure r)
  let bad (st : Nat) : List Nat := setBits (r.chans.getD st 0) 32
  let whole (d : Nat) : Bool := decide (40 ≤ ((bringUpBays d (r.quads.getD d [])).filter (·.inService)).length)
  let down := (List.range 16).filter fun i => !linkUp r i
  let chans := if step < 4 then [] else ((List.range 8).filter fun st => decide ((bad st).length ≤ 4)).flatMap fun st => (bad st).map fun ch => (st, ch)
  let stops := if step < 5 then [] else ((List.range 4).filter whole).flatMap fun d =>
    ((List.range 52).filter fun i => decide ((r.quads.getD d []).getD i 0 < 4)).map fun i => (d, i)
  let edges := if step < 6 then [] else
    let failed := (List.range 4).filter fun i => !r.edges.getD i false
    if failed.length ≥ 2 then [] else failed
  let lanes := if step < 6 then [] else ((List.range 16).filter fun l => linkUp r l || decide (down.length ≤ 8)).flatMap fun l =>
    let bad := badLanes r l
    (if bad.isEmpty && !r.links.getD l false then [0] else bad).map fun n => (l, n)
  let s := chans.foldl (fun s c => s.logEvent 5 (c.1 / 2) (some (c.1 * 32 + c.2))) s
  let s := stops.foldl (fun s x => s.logEvent 5 x.1 (some x.2)) s
  let s := edges.foldl (fun s e => s.logEvent 5 e none) s
  lanes.foldl (fun s x => s.logEvent 5 (4 + x.1 / 8) (some (x.1 * 16 + x.2))) s

/-- A link as bring-up leaves it. -/
def bringUpLink (r : BringUp) (n : Nat) : Link :=
  { num := n, up := linkUp r n, failedLanes := badLanes r n, retraining := false, txSeq := 0, rxSeq := 0, replay := [], held := [], sent := none
    txRetries := 0, rxRetries := 0 }

/-- Steps 3 to 7: dies, HBM, bays, edges and links, with each repair logged (R434, R436). -/
def State.bringUp (s : State) (r : BringUp) : State :=
  match bringUpFailure r with
  | some code => (s.logRepairs r).harbour code
  | none =>
    let dies := List.range 4
    let chans := (List.range 8).flatMap fun st => (setBits (r.chans.getD st 0) 32).map fun ch => (st, ch)
    let s : State := { s with
      dies := dies.map fun d => bringUpDie d (r.quads.getD d []) (r.secfg.getD d 0)
      bays := dies.flatMap fun d => bringUpBays d (r.quads.getD d [])
      edges := (List.range 4).map fun i => r.edges.getD i false
      health := chans.map fun c => { stack := c.1, ch := c.2, retired := true }
      links := (List.range 16).map (bringUpLink r)
      mgmt := { s.mgmt with state := 1, harbour := 0 } }
    s.logRepairs r

/-- The machine that a module reset leaves before bring-up: host and peer memory stand; the bytes of HBM are free (log 37). -/
def State.cleared (s : State) : State :=
  let outside (loc : Nat) : Bool := storageOf loc == hostTag || (decide (2 ≤ storageOf loc) && decide (storageOf loc < 0x102))
  let keep := s.mem.filter fun c => outside c.1
  let writes := s.writes.filter fun w => outside w.loc
  { State.reset with
    agenda := s.agenda, tick := s.tick + 1, nextWrite := s.nextWrite, nextStore := s.nextStore, nextGen := s.nextGen, nextRun := s.nextRun
    mem := (Config.hbmAfterReset s.tick).foldl (fun m c => memSet m (locOf hbmTag (c.1 % 2 ^ 39)) c.2) keep
    writes := writes, home := s.home.filter fun i => writes.any fun w => w.id == i
    know := s.know.filter fun k => match k.party with | .host => true | .peer _ => true | _ => false
    mgmt := { Mgmt.reset with msix := s.mgmt.msix, doe := s.mgmt.doe, spdm := s.mgmt.spdm } }

/-- MODULE_RESET: steps 1 and 2, then `bringUp`. -/
def execModuleReset (r : BringUp) (s : State) : Out :=
  runEvent (fun s =>
    let hot := s.mgmt.thermal
    let s := s.cleared
    let s : State := { s with mgmt := { s.mgmt with rsaOk := r.selfTest && r.rsaOk, slhOk := r.selfTest && r.slhOk } }
    some (if hot then s.harbour 0x60
      else if !r.selfTest then s.harbour 0x01
      else if !r.rsaOk && !r.slhOk then s.harbour 0x04
      else if !r.rsaOk then s.harbour 0x02
      else if !r.slhOk then s.harbour 0x03
      else s.bringUp r)) s

/-! ### Rhumb links (R430, R432) -/

def State.mapLink (s : State) (n : Nat) (f : Link → Link) : State := { s with links := s.links.map fun l => if l.num == n then f l else l }
def State.link? (s : State) (n : Nat) : Option Link := s.links.find? fun l => l.num == n

/-- The link sends a retry flit, which asks for the flit that is due once more (type 3; log 20). -/
def Link.askAgain (l : Link) (tick : Nat) : Link := { l.send 3 0 tick with rxRetries := l.rxRetries + 1 }

/-- The oldest flit of the replay buffer is sent again. -/
def Link.resend (l : Link) : Link := { l with sent := (l.replay.head?.map (·.2)).or l.sent, txRetries := l.txRetries + 1 }

/-- Retries of one flit before the link is down (R430). -/
def retryLimit : Nat := 16

/-- RHUMB_FLIT_RECEIVE: a flit of 256 bytes. One that fails its CRC is asked for again; one out of sequence is a repeat of one delivered or
follows one still to be repeated, and is not delivered; a retry flit has the oldest flit of the replay buffer sent again. A flit that 16
retries have not brought is not asked for, or sent, once more: the link is down (log 20). -/
def execRhumbFlitReceive (link : Nat) (flit : List Byte) (s : State) : Out :=
  runEvent (fun s => do
    let l ← s.link? link
    if !l.up || l.retraining || flit.length != 256 then none
    else if Config.crc64 (flit.take 248) != BitVec.ofNat 64 (leNat (flit.drop 248)) then
      if l.rxRetries ≥ retryLimit then some (s.mapLink link fun l => { l with up := false })
      else some ({ s with tick := s.tick + 1 }.mapLink link (·.askAgain s.tick))
    else
      let seq := leNat (flit.take 2)
      if seq != l.rxSeq then none
      else
        let retry := flit.getD 2 0 == 3
        some (s.mapLink link fun l =>
          let l := { l with rxSeq := (l.rxSeq + 1) % 2 ^ 16, rxRetries := 0 }
          if !retry then { l with txRetries := 0 }
          else if l.txRetries ≥ retryLimit then { l with up := false }
          else l.resend)) s

/-- LINK_DOWN: after 16 retries of one flit, which it sends or is to receive. -/
def execLinkDown (link : Nat) (s : State) : Out :=
  runEvent (fun s => do
    let l ← s.link? link
    if l.up && (decide (l.txRetries ≥ retryLimit) || decide (l.rxRetries ≥ retryLimit)) then some (s.mapLink link fun l => { l with up := false }) else none) s

/-- A lane fails: the spare takes over and the link retrains; a second failure takes the link down (R432). -/
def State.failLane (s : State) (link lane : Nat) : Option State := do
  let l ← s.link? link
  if !l.up || l.failedLanes.contains lane || decide (lane > 8) then none
  else if l.failedLanes.isEmpty then
    some ((s.mapLink link fun l => { l with failedLanes := [lane], retraining := true }).logEvent 5 (4 + link / 8) (some (link * 16 + lane)))
  else some (s.mapLink link fun l => { l with failedLanes := l.failedLanes ++ [lane], up := false })

/-- LANE_SPARE_SWITCH. -/
def execLaneSpareSwitch (link lane : Nat) (s : State) : Out := runEvent (fun s => s.failLane link lane) s

/-- LINK_RETRAIN_COMPLETE: the link resumes from its replay buffer, and the flits held follow; no flit is lost and none is repeated. -/
def execLinkRetrainComplete (link : Nat) (s : State) : Out :=
  runEvent (fun s => do
    let l ← s.link? link
    if l.retraining then some (s.mapLink link fun l =>
      { l with retraining := false, replay := (l.replay ++ l.held).drop ((l.replay ++ l.held).length - 64), held := []
               sent := ((l.replay ++ l.held).getLast?.map (·.2)).or l.sent }) else none) s

/-- PEER_RESPONSE_TIMEOUT: the next access to the node fails with ECC_UNCORR (R431). -/
def execPeerResponseTimeout (node : Nat) (s : State) : Out :=
  runEvent (fun s => if s.timeouts.contains node || decide (node > 255) then none else some { s with timeouts := s.timeouts ++ [node] }) s

/-! ### THRESHOLD_CROSSING (R436, R437) -/

/-- An HBM channel over threshold is marked retiring; marked once more, its pages moved, it is retired (log 40). -/
def State.failChannel (s : State) (stack ch : Nat) : State :=
  match s.health.find? fun h => h.stack == stack && h.ch == ch with
  | some _ => { s with health := s.health.map fun h => if h.stack == stack && h.ch == ch then { h with retired := true } else h }
  | none =>
    let s : State := { s with health := s.health ++ [{ stack := stack, ch := ch, retired := false }] }
    s.logEvent 5 (stack / 2) (some (stack * 32 + ch))

/-- The entry is a reading of a unit that R437 repairs: a bay's stop, an HBM channel or a link's lane. -/
def hasRepair (s : State) (e : HealthEntry) : Bool :=
  if e.kind = 0 ∨ e.kind = 1 then s.bays.any fun b => b.inService && dieOfBay b.num == e.site.toNat && b.stop == e.unit.toNat
  else if e.kind = 3 then decide (e.unit.toNat < 256)
  else if e.kind = 4 then decide (e.unit.toNat < 256) && decide (e.unit.toNat % 16 < 9)
  else false

/-- The entry is a reading of the unit: KIND, SITE and UNIT name it (R436). A reading of a unit that R437 repairs does not cross its threshold
without the repair. -/
def readBy (u : RepairUnit) (s : State) (e : HealthEntry) : Bool :=
  let stopOf (n : Nat) : Bool :=
    (e.kind == 0 || e.kind == 1) && e.site.toNat == dieOfBay n && (s.bay? n).any fun b => b.stop == e.unit.toNat
  match u with
  | .bay n => stopOf n
  | .quadrant n => stopOf n
  | .channel st ch => e.kind == 3 && decide (st < 8) && decide (ch < 32) && e.unit.toNat == st * 32 + ch
  | .lane l n => e.kind == 4 && decide (l < 16) && decide (n < 9) && e.unit.toNat == l * 16 + n
  | .failedTest _ => true
  | .uncorrectable st ch => decide (st < 8) && decide (ch < 32)
  | .none => !hasRepair s e

/-- A bay in service fails (R437): a failed bay gets a failed bay's repair also where it was to be replaced for its class only. -/
def State.failBay (s : State) (n : Nat) : State :=
  match s.bay? n with
  | some b => if b.inService && b.quads != 0 then s.repairBay n 0 else s
  | none => s

/-- THRESHOLD_CROSSING: the reading is logged, and the repair of its unit starts; or a trigger of R437 that is no reading starts it. An
uncorrectable error marks its channel before the access that meets it, which raises ECC_UNCORR there (log 40). -/
def execThresholdCrossing (e : HealthEntry) (unit : RepairUnit) (s : State) : Out :=
  runEvent (fun s =>
    if !readBy unit s e then none else
    let s := match unit with | .failedTest _ => s | .uncorrectable _ _ => s | _ => s.logHealth e
    some (match unit with
      | .bay n => s.failBay n
      | .failedTest n => s.failBay n
      | .uncorrectable st ch => s.failChannel st ch
      | .quadrant n => match s.bay? n with
        | some b => if b.inService && decide (0 < b.quads) then s.repairBay n (b.quads - 1) else s
        | none => s
      | .channel st ch => s.failChannel st ch
      | .lane l n => (s.failLane l n).getD s
      | .none => s)) s

/-! ### Heat (R439) -/

/-- The bay clock at a junction temperature: 125 MHz lower per 2 °C above 95, down to 875 (log 41). -/
def clockAt (temp : Nat) : Nat := Nat.max 875 (1750 - 125 * ((temp - 95) / 2))

/-- Every bay clock stops until the next module reset (see `pickWith`). -/
def State.stopClocks (s : State) : State := { s with mgmt := { s.mgmt with thermal := true } }

/-- THERMAL_CLOCK_STEP: a junction above 95 °C; above 110 °C the controller stops every bay clock. -/
def execThermalClockStep (bay temp : Nat) (s : State) : Out :=
  runEvent (fun s =>
    if temp > 95 then
      let s := s.mapBay bay fun b => { b with temp := temp, mhz := clockAt temp }
      some (if temp > 110 then s.stopClocks else s)
    else none) s

/-- JUNCTION_COOLING. -/
def execJunctionCooling (bay temp : Nat) (s : State) : Out :=
  runEvent (fun s => do
    let b ← s.bay? bay
    if temp < b.temp then some (s.mapBay bay fun b => { b with temp := temp, mhz := clockAt temp }) else none) s

/-- THERMAL_STOP: a stop for module power over 2,900 W for 10 ms, which no state shows (log 41). -/
def execThermalStop (s : State) : Out := runEvent (fun s => some s.stopClocks) s

/-! ### Memory accesses from outside (R322, R325, R426, R431, R438) -/

/-- The module serves memory requests: it runs, whole or degraded. -/
def State.serves (s : State) : Bool := s.mgmt.state == 1 || s.mgmt.state == 3

/-- HBM bytes that a host or peer access reaches; at lost or retired frames it completes with poison and without effect. -/
def State.reachable (s : State) (pa : Nat) : Bool :=
  s.serves && decide (pa < 2 ^ 39) && s.dieUp (dieOfPa pa) &&
  !(s.health.any fun h => h.retired && (h.stack, h.ch) == channelOf pa)

/-- `f` by a party that knows nothing of its earlier accesses, which it knows again after it. -/
def State.unordered (s : State) (p : Place) (f : State → Option State) : Option State :=
  let k := s.knowOf p.party
  (f (s.setKnow { party := p.party, known := [], lifted := [], seen := [], fences := [] })).map (·.setKnow k)

/-- One access of up to 64 bytes within a line by a party outside the module. The part adds no order among them (R302): whether the access
comes after those before it, as the party's own architecture may have it, is free. -/
def State.outsideAccess (s : State) (p : Place) (write sync : Bool) (loc : Nat) (data : List Byte) : Option State :=
  if data.isEmpty || decide (loc % 64 + data.length > 64) then none
  else
    let go (s : State) : Option State :=
      if write then some (s.writeAs p (if sync then some 5 else none) loc data)
      else
        let (bs, s) := s.readAs p [] none loc data.length
        some (if sync then s.acquire p 5 (readHeads bs) else s)
    let u := { s with tick := s.tick + 1 }
    if pickOf 2 s.tick = 0 then go u else u.unordered p go

/-- HOST_CXL_MEM_ACCESS. -/
def execHostCxlMemAccess (write sync : Bool) (pa : Nat) (data : List Byte) (s : State) : Out :=
  runEvent (fun s => if s.reachable pa then s.outsideAccess hostPlace write sync (locOf hbmTag pa) data else none) s

/-- CXL_CACHE_SNOOP: the host's access to its own memory, with which the part's copies stay coherent. -/
def execCxlCacheSnoop (write sync : Bool) (pa : Nat) (data : List Byte) (s : State) : Out :=
  runEvent (fun s => if s.serves && decide (pa < 2 ^ 52) then s.outsideAccess hostPlace write sync (locOf hostTag pa) data else none) s

def peerPlace (node : Nat) : Place := { party := .peer node, team := 0, grp := 0, bay := 0, bays := [], die := 4, inst := 0 }

/-- PEER_REQUEST: relaxed at the home; the response goes back over the peer's route. -/
def execPeerRequest (node : Nat) (write : Bool) (pa : Nat) (data : List Byte) (s : State) : Out :=
  runEvent (fun s => if s.reachable pa then s.outsideAccess (peerPlace node) write false (locOf hbmTag pa) data |>.map (·.sendFlit 1 node) else none) s

/-- WRITE_TOKEN_TRANSFER: the holder's writes to the block are drained, and its token goes to a bay of the block's die or to the bridge. -/
def execWriteTokenTransfer (block : Nat) (holder : TokenHolder) (s : State) : Out :=
  runEvent (fun s =>
    let die := dieOfPa (block * 4096)
    let valid := match holder with | .bay n => dieOfBay n == die | .bridge => true
    if s.dieUp die && valid && decide (block < 2 ^ 27) then
      let s := s.drain (·.inBlock block)
      some { s with tokens := { block := block, holder := holder } :: s.tokens.filter fun k => k.block != block }
    else none) s

end Sys2Proof.Machine
end

