-- ==== Sys2Proof/Machine/Manage.lean ====
section
/-! DEFINITION. The management register block, the mailbox, the host fault queue and attestation (11_writesets.md R328;
17_outside.md R426 to R429, R435). -/

namespace Sys2Proof.Machine

/-! ### Reads (R427) -/

/-- MSTAT. -/
def State.mstat (s : State) : Nat :=
  s.mgmt.state + s.mgmt.harbour % 256 * 2 ^ 8 + ((List.range 4).map fun d => b2n (s.dieUp d) * 2 ^ (16 + d)).foldl (· + ·) 0

/-- The 8-byte register at an offset of the block; offsets not listed read 0. -/
def State.mgmtRead (s : State) (off : Nat) : Nat :=
  let m := s.mgmt
  let die := (off - 0x8000) / 0x1000
  let inDie : Bool := decide (0x8000 ≤ off) && decide (off < 0xC000)
  if off % 8 != 0 then 0
  else if off = 0 then s.mstat
  else if off = 8 then m.mboxCmd.toNat
  else if 0x100 ≤ off ∧ off < 0x200 then leNat ((m.mboxData.drop (off - 0x100)).take 8)
  else if off = 0x1000 then m.fqBase.toNat
  else if off = 0x1008 then m.fqProd
  else if off = 0x1010 then m.fqCons
  else if off = 0x1018 then m.hlProd
  else if 0x2000 ≤ off ∧ off < 0x2200 then ((m.lqpri.find? fun x => x.1 == (off - 0x2000) / 8).map (·.2)).getD 0
  else if off = 0x3000 then m.dctBase.toNat
  else if 0x4000 ≤ off ∧ off < 0x4800 then
    let v : W64 := ((m.reldb.find? fun x => x.1 == (off - 0x4000) / 8).map (·.2)).getD 0
    v.toNat
  else if inDie && off % 0x1000 == 0 then ((s.die? die).map fun d => d.secfg.toNat).getD 0
  else if inDie && off % 0x1000 == 8 then ((s.die? die).map fun d => d.push.toNat).getD 0
  else if inDie && off % 0x1000 == 0x10 then ((s.die? die).map fun d => d.pool.length).getD 0
  else if 0x10000 ≤ off ∧ off < 0x20000 then
    let e : W128 := ((m.hlog.find? fun x => x.1 == (off - 0x10000) / 16).map (·.2)).getD 0
    if off % 16 = 0 then e.toNat % 2 ^ 64 else e.toNat / 2 ^ 64
  else 0

/-! ### Writes with a behaviour of their own (R328, R427, R429) -/

/-- A release doorbell: a write of a TID releases that parked team (R390, R395, R398); the word it stopped at is tried again. -/
def State.writeReldb (s : State) (dctx : Nat) (tid : W64) : State :=
  let s : State := { s with mgmt := { s.mgmt with reldb := (dctx, tid) :: s.mgmt.reldb.filter fun x => x.1 != dctx } }
  let key := dctx * 2 ^ 16 + tid.toNat
  if tid = 0 || tid.toNat ≥ 2 ^ 16 then s
  else match s.team? key with
    | none => s
    | some t =>
      if t.phase = .stopped then
        if t.inVector then s.mapTeam key fun t => { t with phase := .vector, overdue := false }
        else if t.overdue then s.mapTeam key fun t => { t with phase := .running, overdue := false }
        else s.enterVectorFrom2 key
      else if !t.resident && t.ready == .release then s.mapTeam key fun t => { t with ready := .now }
      else s

/-- POOLPUSH: a frame that is dropped leaves a health-log entry of kind 7. The register reads back what was written. -/
def State.writePoolpush (s : State) (die : Nat) (pa : W64) : State :=
  match s.die? die with
  | none => s
  | some d =>
    let s := s.mapDie die fun d => { d with push := pa }
    if d.inService && decide (d.pool.length < 65536) && pa.toNat % 2 ^ 16 == 0 && decide (pa.toNat < 2 ^ 39) && dieOfPa pa.toNat == die then
      s.mapDie die fun d => { d with pool := d.pool ++ [pa.toNat] }
    else s.logEvent 7 die none

/-- FQCONS, clamped to FQPROD; both count modulo 2^32, and a value is above FQPROD within half that range (log 44). R427 calls the register
RW and written by the host; a write of supervisor code is taken alike (log 95). -/
def State.writeFqcons (s : State) (v : W64) : State :=
  let m := s.mgmt
  let above := (v.toNat % 2 ^ 32 + 2 ^ 32 - m.fqProd % 2 ^ 32) % 2 ^ 32
  { s with mgmt := { m with fqCons := if 0 < above ∧ above < 2 ^ 31 then m.fqProd else v.toNat % 2 ^ 32 } }

/-- FQPROD, which the supervisor advances past the records that it has written itself (R369), as a poster does (R429). A store that would
not advance it, or beyond the queue's 4,096 records, is ignored (log 95). -/
def State.writeFqprod (s : State) (v : W64) : State :=
  let m := s.mgmt
  let used := (m.fqProd + 2 ^ 32 - m.fqCons % 2 ^ 32) % 2 ^ 32
  let more := (v.toNat % 2 ^ 32 + 2 ^ 32 - m.fqProd % 2 ^ 32) % 2 ^ 32
  if more = 0 ∨ used + more > 4096 then s
  else
    let s : State := { s with mgmt := { m with fqProd := v.toNat % 2 ^ 32 } }
    if used = 0 then s.raiseMsix 0 else s

/-- LQPRI: R427 gives bits [2:0], the priority; the others are not kept, and read 0 (DESIGN CHOICE, unsafe: log 47). -/
def State.writeLqpri (s : State) (queue : Nat) (v : W64) : State :=
  if queue < 64 then { s with mgmt := { s.mgmt with lqpri := (queue, v.toNat % 8) :: s.mgmt.lqpri.filter fun x => x.1 != queue } } else s

/-- DCTBASE takes a write only while no launch is queued and no team is resident. -/
def State.writeDctbase (s : State) (v : W64) : State :=
  if s.nests.isEmpty && !(s.teams.any fun t => t.resident) then { s with mgmt := { s.mgmt with dctBase := v } } else s

/-- SECFG takes a write of the firmware during bring-up; reserved bits read 0. -/
def State.writeSecfg (s : State) (firmware : Bool) (die : Nat) (v : W64) : State :=
  if firmware && s.mgmt.state == 0 then s.mapDie die fun d => { d with secfg := v &&& 0x00FF007FFFFF0000 } else s

def execReldbWrite (dctx : Nat) (tid : W64) (s : State) : Out :=
  runEvent (fun s => if dctx < 256 then some (s.writeReldb dctx tid) else none) s

def execPoolpushWrite (die : Nat) (pa : W64) (s : State) : Out := runEvent (fun s => some (s.writePoolpush die pa)) s

def execFqconsWrite (v : W64) (s : State) : Out := runEvent (fun s => some (s.writeFqcons v)) s

def execLqpriWrite (queue : Nat) (v : W64) (s : State) : Out := runEvent (fun s => some (s.writeLqpri queue v)) s

def execDctbaseWrite (v : W64) (s : State) : Out := runEvent (fun s => some (s.writeDctbase v)) s

def execSecfgWrite (firmware : Bool) (die : Nat) (v : W64) (s : State) : Out := runEvent (fun s => some (s.writeSecfg firmware die v)) s

/-! ### The mailbox (R428) -/

def State.busy (s : State) : Bool := bitOf s.mgmt.mboxCmd.toNat 63

/-- The command ends: its result from byte 0 on, its status at bytes 248 to 255, BUSY 0, vector 2. -/
def State.mboxDone (s : State) (result : List Byte) (status : Nat) : State :=
  let d := s.mgmt.mboxData
  { s with mgmt := { s.mgmt with
    mboxData := result ++ (d.take 248).drop result.length ++ leBytes 8 status
    mboxCmd := s.mgmt.mboxCmd &&& 0x7FFFFFFFFFFFFFFF } }.raiseMsix 2

/-- MBOXCMD, whose bits [62:16] are 0 whatever is written: with BUSY 0 in the register and in the value, the command starts. One that no step of its own performs ends with its status:
1 for an unknown code, 2 for nonzero bits 62:16. -/
def State.writeMboxcmd (s : State) (v : W64) : State :=
  if s.busy || bitOf v.toNat 63 then s
  else
    let code := v.toNat % 2 ^ 16
    let s : State := { s with mgmt := { s.mgmt with mboxCmd := (v &&& 0xFFFF) ||| 0x8000000000000000 } }
    if bitsOf v.toNat 62 16 != 0 then s.mboxDone [] 2
    else if code = 0x1 ∨ code = 0x3 ∨ code = 0x10 ∨ code = 0x11 ∨ code = 0x20 then s
    else s.mboxDone [] 1

/-- A started command of the code is performed in the states accepted, or answers status 3. -/
def mailbox (code : Nat) (accepted : State → Bool) (f : State → Nat → State) (s : State) : Out :=
  runEvent (fun s =>
    if s.busy && s.mgmt.mboxCmd.toNat % 2 ^ 16 == code then
      some (if accepted s then f s (leNat (s.mgmt.mboxData.take 8)) else s.mboxDone [] 3)
    else none) s

/-- STATUS. -/
def State.statusBytes (s : State) : List Byte :=
  leBytes 8 s.mstat ++ ((List.range 4).map fun d => BitVec.ofNat 8 (s.enabledBays d)) ++
  ((List.range 4).map fun d => BitVec.ofNat 8 (s.freeSpares d).length) ++
  ((List.range 8).map fun st => BitVec.ofNat 8 (s.health.filter fun h => h.stack == st && h.retired).length) ++
  leBytes 2 ((s.links.filter (·.up)).map fun l => 2 ^ l.num).sum

def execMboxStatus (s : State) : Out := mailbox 0x1 (fun _ => true) (fun s _ => s.mboxDone s.statusBytes 0) s

/-- RETEST: bring-up from step 3. -/
def execMboxRetest (r : BringUp) (s : State) : Out :=
  mailbox 0x3 (fun s => s.mgmt.state == 2) (fun s _ => (s.bringUp r).mboxDone [] 0) s

/-- ROUTE.SET: [7:0] node, [31:16] link mask. -/
def execMboxRouteSet (s : State) : Out :=
  mailbox 0x10 State.serves (fun s d =>
    if bitsOf d 15 8 != 0 || bitsOf d 63 32 != 0 then s.mboxDone [] 2
    else
      let rest := s.routes.filter fun r => r.node != d % 256
      let s : State := { s with routes := if bitsOf d 31 16 = 0 then rest else { node := d % 256, mask := bitsOf d 31 16 } :: rest }
      s.mboxDone [] 0) s

/-- ROUTE.GET: [31:16] link mask, [47:32] links of the mask that are up. -/
def execMboxRouteGet (s : State) : Out :=
  mailbox 0x11 State.serves (fun s d =>
    if bitsOf d 63 8 != 0 then s.mboxDone [] 2
    else
      let mask := ((s.routes.find? fun r => r.node == d % 256).map (·.mask)).getD 0
      let up := ((s.links.filter fun l => l.up && bitOf mask l.num).map fun l => 2 ^ l.num).sum
      s.mboxDone (leBytes 8 (mask * 2 ^ 16 + up * 2 ^ 32)) 0) s

/-- Parked: after DOUBLE, by a supervisor's `yield`, or for want of its frozen class. -/
def Team.parked (t : Team) : Bool := t.phase == .stopped || (!t.resident && (t.ready == .release || t.ready == .noClass))

/-- TEAM.END: [7:0] device context, [31:16] TID. The end posts a record, and waits while the fault queue is full (R370). -/
def execMboxTeamEnd (s : State) : Out :=
  mailbox 0x20 State.serves (fun s d =>
    if bitsOf d 15 8 != 0 || bitsOf d 63 32 != 0 then s.mboxDone [] 2
    else
      let key := d % 256 * 2 ^ 16 + bitsOf d 31 16
      match s.team? key with
      | some t => if !t.parked then s.mboxDone [] 4 else if s.queueFull then s else (s.haltTeam key 0).mboxDone [] 0
      | none => s.mboxDone [] 4) s

/-! ### REGISTER_WRITE (R427) -/

/-- A naturally aligned 8-byte write at an offset, by the host or by supervisor code. Read-only registers and offsets not listed ignore
it, but for FQPROD from the supervisor (R369). -/
def State.mgmtWrite (s : State) (host : Bool) (off : Nat) (v : W64) : State :=
  let m := s.mgmt
  if off % 8 != 0 then s
  else if off = 8 then s.writeMboxcmd v
  else if 0x100 ≤ off ∧ off < 0x200 then
    { s with mgmt := { m with mboxData := m.mboxData.take (off - 0x100) ++ leBytes 8 v.toNat ++ m.mboxData.drop (off - 0x100 + 8) } }
  else if off = 0x1000 then { s with mgmt := { m with fqBase := v } }
  else if off = 0x1008 then (if host then s else s.writeFqprod v)
  else if off = 0x1010 then s.writeFqcons v
  else if 0x2000 ≤ off ∧ off < 0x2200 then s.writeLqpri ((off - 0x2000) / 8) v
  else if off = 0x3000 then s.writeDctbase v
  else if 0x4000 ≤ off ∧ off < 0x4800 then s.writeReldb ((off - 0x4000) / 8) v
  else if 0x8000 ≤ off ∧ off < 0xC000 ∧ off % 0x1000 = 8 then s.writePoolpush ((off - 0x8000) / 0x1000) v
  else s

def execRegisterWrite (host : Bool) (off : Nat) (v : W64) (s : State) : Out := runEvent (fun s => some (s.mgmtWrite host off v)) s

/-! ### FAULT_RECORD_POST (R429) -/

/-- The oldest record is written to host memory when the queue has room; FQPROD advances as a release at system scope. Its
64 bytes are one write (log 73). -/
def execFaultRecordPost (s : State) : Out :=
  runEvent (fun s =>
    match s.posts with
    | [] => none
    | r :: rest =>
      let m := s.mgmt
      let used := (m.fqProd + 2 ^ 32 - m.fqCons % 2 ^ 32) % 2 ^ 32
      if used ≥ 4096 then none
      else
        let loc := locOf hostTag ((m.fqBase.toNat + 64 * (m.fqProd % 4096)) % 2 ^ 64)
        let own := s.nextWrite + 64
        let rel := { r.release with known := unionIds r.release.known [own], lifted := unionIds r.release.lifted [own] }
        let (_, s) := s.writeWith r.release.place r.release.known r.release.lifted [rel] loc (leBytes 64 r.record)
        let s : State := { s with posts := rest, mgmt := { m with fqProd := (m.fqProd + 1) % 2 ^ 32 } }
        some (if used = 0 then s.raiseMsix 0 else s)) s

/-! ### DOE_SPDM_REQUEST (R426, R435) -/

/-- A CMA/SPDM message, served in every state: its answer covers the images that verified and the harbour code; the messages served set the
IDE keys. -/
def execDoeSpdmRequest (msg : List Byte) (s : State) : Out :=
  runEvent (fun s =>
    let m := s.mgmt
    let a := Config.spdmAnswer s.tick (b2n m.rsaOk + 2 * b2n m.slhOk + 4 * m.harbour) msg
    some { s with tick := s.tick + 1, mgmt := { m with doe := m.doe ++ [a], spdm := m.spdm ++ [msg] } }) s

end Sys2Proof.Machine
end

