-- ==== Sys2Proof/Machine/HelmData.lean ====
section
/-! DEFINITION. The helm's loads and stores, to memory and to the management registers (04_helm.md R117 to R120; 17_outside.md R427). -/

namespace Sys2Proof.Machine

/-! ### Loads and stores (R117 to R120) -/

/-- The value at a location that the helm loads, with the releases that an acquire of it meets. Of a management register, its bytes (R427). -/
def readHelm (t : Team) (l : Located) (n : Nat) : M (Nat × List Release) :=
  if storageOf l.loc = mgmtTag then fun s =>
    let o := offsetOf l.loc
    .ok ((s.mgmtRead (o / 8 * 8) / 2 ^ (8 * (o % 8)) % 2 ^ (8 * n), []), s)
  else do
    let bs ← readSpace t.place t.regionsNow l n
    pure (readValue bs, readHeads bs)

/-- The store of bytes at a location. A management register takes stores of 8 bytes (R427; log 42). -/
def writeHelm (t : Team) (rel : Option Nat) (l : Located) (bytes : List Byte) : M Unit :=
  if storageOf l.loc = mgmtTag then
    if bytes.length = 8 then modify fun s => s.mgmtWrite false (offsetOf l.loc) (BitVec.ofNat 64 (leNat bytes)) else pure ()
  else writeSpace t.place t.regionsNow rel l bytes

/-- A load of a size code from a segment at an offset (R118, R119). -/
def loadFrom (len : Nat) (d : GReg) (sg : Team → W128) (off : Team → Int) (size : BitVec 3) (s : State) : Out :=
  runHelm len (fun t => do
    let n := sizeBytes size
    let l ← helmAddress t (sg t) (off t) n .read
    let v ← readHelm t l n
    setG t.key d (widenLoad size v.1)
    pure .seq) s

/-- A store of the low bytes of g(g) (R118, R119). -/
def storeTo (len : Nat) (g : GReg) (sg : Team → W128) (off : Team → Int) (size : BitVec 3) (s : State) : Out :=
  runHelm len (fun t => do
    let n := sizeBytes size
    let l ← helmAddress t (sg t) (off t) n .write
    waitLease t l n
    writeHelm t none l (leBytes n ((t.reg g).toNat % 2 ^ (8 * n)))
    pure .seq) s

def execLd (d a : GReg) (size : BitVec 3) (imm : BitVec 9) (s : State) : Out :=
  loadFrom 4 d (·.seg 4) (fun t => shortOffset t a size imm) size s

def execSt (g a : GReg) (size : BitVec 3) (imm : BitVec 9) (s : State) : Out :=
  storeTo 4 g (·.seg 4) (fun t => shortOffset t a size imm) size s

def execLds (d a : GReg) (seg : BitVec 4) (size : BitVec 3) (imm : W32) (s : State) : Out :=
  loadFrom 8 d (·.seg seg.toNat) (fun t => longOffset t a imm) size s

def execSts (g a : GReg) (seg : BitVec 4) (size : BitVec 3) (imm : W32) (s : State) : Out :=
  storeTo 8 g (·.seg seg.toNat) (fun t => longOffset t a imm) size s

/-- An acquire load (R120). -/
def execLdAcq (d a : GReg) (size scope : BitVec 3) (s : State) : Out :=
  runHelm 4 (fun t => do
    let n := sizeBytes size
    let l ← helmAddress t (t.seg 4) (t.reg a).toInt n .read
    let v ← readHelm t l n
    helmAcquire t scope.toNat l.va v.2
    setG t.key d (widenLoad size v.1)
    pure .seq) s

/-- A release store (R120): what the helm wrote before is at its homes first (R317). -/
def execStRel (g a : GReg) (size scope : BitVec 3) (s : State) : Out :=
  runHelm 4 (fun t => do
    let n := sizeBytes size
    let l ← helmAddress t (t.seg 4) (t.reg a).toInt n .write
    waitLease t l n
    modify fun s => s.drainParty t.place.party
    writeHelm t (some scope.toNat) l (leBytes n ((t.reg g).toNat % 2 ^ (8 * n)))
    pure .seq) s

end Sys2Proof.Machine
end

