-- ==== Sys2Proof/Machine/Dispatch.lean ====
section
/-! DEFINITION. Which meaning each constructor of `Instr` has. -/

namespace Sys2Proof.Machine

def exec (i : Instr) (s : State) : Host.Outcome State Fault Refusal :=
  match i with
  | .add d a b => Sys2Proof.Machine.execAdd d a b s
  | .sub d a b => Sys2Proof.Machine.execSub d a b s
  | .and_ d a b => Sys2Proof.Machine.execAnd d a b s
  | .or_ d a b => Sys2Proof.Machine.execOr d a b s
  | .xor d a b => Sys2Proof.Machine.execXor d a b s
  | .shl d a b => Sys2Proof.Machine.execShl d a b s
  | .shr d a b => Sys2Proof.Machine.execShr d a b s
  | .sha d a b => Sys2Proof.Machine.execSha d a b s
  | .mul d a b => Sys2Proof.Machine.execMul d a b s
  | .mulh d a b => Sys2Proof.Machine.execMulh d a b s
  | .mulhu d a b => Sys2Proof.Machine.execMulhu d a b s
  | .div d a b => Sys2Proof.Machine.execDiv d a b s
  | .divu d a b => Sys2Proof.Machine.execDivu d a b s
  | .rem d a b => Sys2Proof.Machine.execRem d a b s
  | .remu d a b => Sys2Proof.Machine.execRemu d a b s
  | .min d a b => Sys2Proof.Machine.execMin d a b s
  | .minu d a b => Sys2Proof.Machine.execMinu d a b s
  | .max d a b => Sys2Proof.Machine.execMax d a b s
  | .maxu d a b => Sys2Proof.Machine.execMaxu d a b s
  | .slt d a b => Sys2Proof.Machine.execSlt d a b s
  | .sltu d a b => Sys2Proof.Machine.execSltu d a b s
  | .clz d a => Sys2Proof.Machine.execClz d a s
  | .popc d a => Sys2Proof.Machine.execPopc d a s
  | .bext d a b => Sys2Proof.Machine.execBext d a b s
  | .bins d a b => Sys2Proof.Machine.execBins d a b s
  | .addi d a imm => Sys2Proof.Machine.execAddi d a imm s
  | .andi d a imm => Sys2Proof.Machine.execAndi d a imm s
  | .ori d a imm => Sys2Proof.Machine.execOri d a imm s
  | .xori d a imm => Sys2Proof.Machine.execXori d a imm s
  | .slti d a imm => Sys2Proof.Machine.execSlti d a imm s
  | .shli d a n => Sys2Proof.Machine.execShli d a n s
  | .shri d a n => Sys2Proof.Machine.execShri d a n s
  | .shai d a n => Sys2Proof.Machine.execShai d a n s
  | .fadd p d a b => Sys2Proof.Machine.execFadd p d a b s
  | .fsub p d a b => Sys2Proof.Machine.execFsub p d a b s
  | .fmul p d a b => Sys2Proof.Machine.execFmul p d a b s
  | .fdiv p d a b => Sys2Proof.Machine.execFdiv p d a b s
  | .fsqrt p d a => Sys2Proof.Machine.execFsqrt p d a s
  | .fmin p d a b => Sys2Proof.Machine.execFmin p d a b s
  | .fmax p d a b => Sys2Proof.Machine.execFmax p d a b s
  | .fclass p d a => Sys2Proof.Machine.execFclass p d a s
  | .fcmpEq p d a b => Sys2Proof.Machine.execFcmpEq p d a b s
  | .fcmpLt p d a b => Sys2Proof.Machine.execFcmpLt p d a b s
  | .fcmpLe p d a b => Sys2Proof.Machine.execFcmpLe p d a b s
  | .fcmpUn p d a b => Sys2Proof.Machine.execFcmpUn p d a b s
  | .fcvtLP p rnd d a => Sys2Proof.Machine.execFcvtLP p rnd d a s
  | .fcvtNP p rnd d a => Sys2Proof.Machine.execFcvtNP p rnd d a s
  | .fcvtPL p rnd d a => Sys2Proof.Machine.execFcvtPL p rnd d a s
  | .fcvtPN p rnd d a => Sys2Proof.Machine.execFcvtPN p rnd d a s
  | .fcvtSD rnd d a => Sys2Proof.Machine.execFcvtSD rnd d a s
  | .fcvtDS rnd d a => Sys2Proof.Machine.execFcvtDS rnd d a s
  | .bEq a b off => Sys2Proof.Machine.execBEq a b off s
  | .bNe a b off => Sys2Proof.Machine.execBNe a b off s
  | .bLt a b off => Sys2Proof.Machine.execBLt a b off s
  | .bGe a b off => Sys2Proof.Machine.execBGe a b off s
  | .bLtu a b off => Sys2Proof.Machine.execBLtu a b off s
  | .bGeu a b off => Sys2Proof.Machine.execBGeu a b off s
  | .j off => Sys2Proof.Machine.execJ off s
  | .call d off => Sys2Proof.Machine.execCall d off s
  | .callr d a => Sys2Proof.Machine.execCallr d a s
  | .ret a => Sys2Proof.Machine.execRet a s
  | .hloop a off => Sys2Proof.Machine.execHloop a off s
  | .ld d a size imm => Sys2Proof.Machine.execLd d a size imm s
  | .st g a size imm => Sys2Proof.Machine.execSt g a size imm s
  | .ldAcq d a size scope => Sys2Proof.Machine.execLdAcq d a size scope s
  | .stRel g a size scope => Sys2Proof.Machine.execStRel g a size scope s
  | .qPopr d => Sys2Proof.Machine.execQPopr d s
  | .qPeek d => Sys2Proof.Machine.execQPeek d s
  | .qOccCq d => Sys2Proof.Machine.execQOccCq d s
  | .qOccRq d => Sys2Proof.Machine.execQOccRq d s
  | .qJoin a => Sys2Proof.Machine.execQJoin a s
  | .qMark d a => Sys2Proof.Machine.execQMark d a s
  | .shpGet d sh item => Sys2Proof.Machine.execShpGet d sh item s
  | .shpTail d a sh => Sys2Proof.Machine.execShpTail d a sh s
  | .rgClaim d ring scope => Sys2Proof.Machine.execRgClaim d ring scope s
  | .rgCommit a ring scope => Sys2Proof.Machine.execRgCommit a ring scope s
  | .rgWfill d ring scope => Sys2Proof.Machine.execRgWfill d ring scope s
  | .rgRelease a ring scope => Sys2Proof.Machine.execRgRelease a ring scope s
  | .rgEos ring scope => Sys2Proof.Machine.execRgEos ring scope s
  | .rgAbort ring => Sys2Proof.Machine.execRgAbort ring s
  | .rgStat d ring => Sys2Proof.Machine.execRgStat d ring s
  | .wpArrive d a ord scope => Sys2Proof.Machine.execWpArrive d a ord scope s
  | .wpExpect d a => Sys2Proof.Machine.execWpExpect d a s
  | .wpWait d a ord scope => Sys2Proof.Machine.execWpWait d a ord scope s
  | .wpTest d a ord scope => Sys2Proof.Machine.execWpTest d a ord scope s
  | .wpStat d a => Sys2Proof.Machine.execWpStat d a s
  | .atAdd d a dbl ord scope => Sys2Proof.Machine.execAtAdd d a dbl ord scope s
  | .atAnd d a dbl ord scope => Sys2Proof.Machine.execAtAnd d a dbl ord scope s
  | .atOr d a dbl ord scope => Sys2Proof.Machine.execAtOr d a dbl ord scope s
  | .atXor d a dbl ord scope => Sys2Proof.Machine.execAtXor d a dbl ord scope s
  | .atMin d a dbl ord scope => Sys2Proof.Machine.execAtMin d a dbl ord scope s
  | .atMax d a dbl ord scope => Sys2Proof.Machine.execAtMax d a dbl ord scope s
  | .atMinu d a dbl ord scope => Sys2Proof.Machine.execAtMinu d a dbl ord scope s
  | .atMaxu d a dbl ord scope => Sys2Proof.Machine.execAtMaxu d a dbl ord scope s
  | .atXchg d a dbl ord scope => Sys2Proof.Machine.execAtXchg d a dbl ord scope s
  | .atCas d a dbl ord scope => Sys2Proof.Machine.execAtCas d a dbl ord scope s
  | .atRed op natural d a dbl ord scope => Sys2Proof.Machine.execAtRed op natural d a dbl ord scope s
  | .fence ord scope => Sys2Proof.Machine.execFence ord scope s
  | .fenceSc => Sys2Proof.Machine.execFenceSc s
  | .rbSurr a mask => Sys2Proof.Machine.execRbSurr a mask s
  | .rbClaim a mask => Sys2Proof.Machine.execRbClaim a mask s
  | .yield => Sys2Proof.Machine.execYield s
  | .teamExit => Sys2Proof.Machine.execTeamExit s
  | .teamInfo d item => Sys2Proof.Machine.execTeamInfo d item s
  | .join d => Sys2Proof.Machine.execJoin d s
  | .sysRd d num => Sys2Proof.Machine.execSysRd d num s
  | .sysWr a num => Sys2Proof.Machine.execSysWr a num s
  | .trap n => Sys2Proof.Machine.execTrap n s
  | .eret => Sys2Proof.Machine.execEret s
  | .brk n => Sys2Proof.Machine.execBrk n s
  | .halt a => Sys2Proof.Machine.execHalt a s
  | .tlbInv a => Sys2Proof.Machine.execTlbInv a s
  | .tlbInvAll => Sys2Proof.Machine.execTlbInvAll s
  | .pgProbe d a => Sys2Proof.Machine.execPgProbe d a s
  | .li d imm => Sys2Proof.Machine.execLi d imm s
  | .liHi d imm => Sys2Proof.Machine.execLiHi d imm s
  | .lea d a seg imm => Sys2Proof.Machine.execLea d a seg imm s
  | .lds d a seg size imm => Sys2Proof.Machine.execLds d a seg size imm s
  | .sts g a seg size imm => Sys2Proof.Machine.execSts g a seg size imm s
  | .fma p rnd d a b c => Sys2Proof.Machine.execFma p rnd d a b c s
  | .fms p rnd d a b c => Sys2Proof.Machine.execFms p rnd d a b c s
  | .fnma p rnd d a b c => Sys2Proof.Machine.execFnma p rnd d a b c s
  | .fnms p rnd d a b c => Sys2Proof.Machine.execFnms p rnd d a b c s
  | .qPush d a f => Sys2Proof.Machine.execQPush d a f s
  | .qPushEos d a f => Sys2Proof.Machine.execQPushEos d a f s
  | .qPushNop d a f => Sys2Proof.Machine.execQPushNop d a f s
  | .qSplit d a f => Sys2Proof.Machine.execQSplit d a f s
  | .qWin n => Sys2Proof.Machine.execQWin n s
  | .qWinReg a => Sys2Proof.Machine.execQWinReg a s
  | .shpReq d a sh pol td fmt => Sys2Proof.Machine.execShpReq d a sh pol td fmt s
  | .shpReqV d a sh pol td fmt => Sys2Proof.Machine.execShpReqV d a sh pol td fmt s
  | .shpSetCopy dst src => Sys2Proof.Machine.execShpSetCopy dst src s
  | .shpSetClr dst => Sys2Proof.Machine.execShpSetClr dst s
  | .shpSetLd dst a => Sys2Proof.Machine.execShpSetLd dst a s
  | .shpSetTail dst imm => Sys2Proof.Machine.execShpSetTail dst imm s
  | .cpCopy d a ch ord seg imm => Sys2Proof.Machine.execCpCopy d a ch ord seg imm s
  | .cpGath d a ch ord seg imm => Sys2Proof.Machine.execCpGath d a ch ord seg imm s
  | .cpScat d a ch ord seg imm => Sys2Proof.Machine.execCpScat d a ch ord seg imm s
  | .cpFill d a ch ord seg imm => Sys2Proof.Machine.execCpFill d a ch ord seg imm s
  | .cpScale d a ch ord seg imm => Sys2Proof.Machine.execCpScale d a ch ord seg imm s
  | .cpColl d a ch ord seg imm => Sys2Proof.Machine.execCpColl d a ch ord seg imm s
  | .cpDisp d a ch ord seg imm => Sys2Proof.Machine.execCpDisp d a ch ord seg imm s
  | .cpReplay d a => Sys2Proof.Machine.execCpReplay d a s
  | .cpReplayDiscard d a => Sys2Proof.Machine.execCpReplayDiscard d a s
  | .cpStat d a ch => Sys2Proof.Machine.execCpStat d a ch s
  | .nestLaunch d a flag queue seg imm => Sys2Proof.Machine.execNestLaunch d a flag queue seg imm s
  | .fork d a flag queue seg imm => Sys2Proof.Machine.execFork d a flag queue seg imm s
  | .fmtSet a n => Sys2Proof.Machine.execFmtSet a n s
  | .rgInit a ring space seg base => Sys2Proof.Machine.execRgInit a ring space seg base s
  | .wpInitAlloc d a life aexp die here => Sys2Proof.Machine.execWpInitAlloc d a life aexp die here s
  | .wpInitReset d a aexp => Sys2Proof.Machine.execWpInitReset d a aexp s
  | .wpInitFree d => Sys2Proof.Machine.execWpInitFree d s
  | .segBindLd n a => Sys2Proof.Machine.execSegBindLd n a s
  | .segBindNarrow n src a keep => Sys2Proof.Machine.execSegBindNarrow n src a keep s
  | .pgMap d a dmask large => Sys2Proof.Machine.execPgMap d a dmask large s
  | .callx d idx => Sys2Proof.Machine.execCallx d idx s
  | .lnkSet a idx => Sys2Proof.Machine.execLnkSet a idx s
  | .fenceMk cq ce mx done scope => Sys2Proof.Machine.execFenceMk cq ce mx done scope s
  | .lLd w => Sys2Proof.Machine.execLLd w s
  | .lLdg w => Sys2Proof.Machine.execLLdg w s
  | .lGath w => Sys2Proof.Machine.execLGath w s
  | .lIcw w => Sys2Proof.Machine.execLIcw w s
  | .lRgWfill w => Sys2Proof.Machine.execLRgWfill w s
  | .lRgRelease w => Sys2Proof.Machine.execLRgRelease w s
  | .lRgStat w => Sys2Proof.Machine.execLRgStat w s
  | .sSt w => Sys2Proof.Machine.execSSt w s
  | .sStg w => Sys2Proof.Machine.execSStg w s
  | .sScat w => Sys2Proof.Machine.execSScat w s
  | .sIcw w => Sys2Proof.Machine.execSIcw w s
  | .sRgClaim w => Sys2Proof.Machine.execSRgClaim w s
  | .sRgCommit w => Sys2Proof.Machine.execSRgCommit w s
  | .sRgRelease w => Sys2Proof.Machine.execSRgRelease w s
  | .sRgEos w => Sys2Proof.Machine.execSRgEos w s
  | .sRgAbort w => Sys2Proof.Machine.execSRgAbort w s
  | .sRgStat w => Sys2Proof.Machine.execSRgStat w s
  | .vadd w => Sys2Proof.Machine.execVadd w s
  | .vsub w => Sys2Proof.Machine.execVsub w s
  | .vmul w => Sys2Proof.Machine.execVmul w s
  | .vmulh w => Sys2Proof.Machine.execVmulh w s
  | .vmad w => Sys2Proof.Machine.execVmad w s
  | .vand w => Sys2Proof.Machine.execVand w s
  | .vor w => Sys2Proof.Machine.execVor w s
  | .vxor w => Sys2Proof.Machine.execVxor w s
  | .vshl w => Sys2Proof.Machine.execVshl w s
  | .vshr w => Sys2Proof.Machine.execVshr w s
  | .vsha w => Sys2Proof.Machine.execVsha w s
  | .vmin w => Sys2Proof.Machine.execVmin w s
  | .vmax w => Sys2Proof.Machine.execVmax w s
  | .vsel w => Sys2Proof.Machine.execVsel w s
  | .vmov w => Sys2Proof.Machine.execVmov w s
  | .vmovI w => Sys2Proof.Machine.execVmovI w s
  | .vmovH w => Sys2Proof.Machine.execVmovH w s
  | .vmovL w => Sys2Proof.Machine.execVmovL w s
  | .vicmp w => Sys2Proof.Machine.execVicmp w s
  | .vfadd w => Sys2Proof.Machine.execVfadd w s
  | .vfsub w => Sys2Proof.Machine.execVfsub w s
  | .vfmul w => Sys2Proof.Machine.execVfmul w s
  | .vfma w => Sys2Proof.Machine.execVfma w s
  | .vfmin w => Sys2Proof.Machine.execVfmin w s
  | .vfmax w => Sys2Proof.Machine.execVfmax w s
  | .vfrcp w => Sys2Proof.Machine.execVfrcp w s
  | .vfrsq w => Sys2Proof.Machine.execVfrsq w s
  | .vfexp2 w => Sys2Proof.Machine.execVfexp2 w s
  | .vflog2 w => Sys2Proof.Machine.execVflog2 w s
  | .vfcmp w => Sys2Proof.Machine.execVfcmp w s
  | .vcvt w => Sys2Proof.Machine.execVcvt w s
  | .vcvtLong w => Sys2Proof.Machine.execVcvtLong w s
  | .vpack w => Sys2Proof.Machine.execVpack w s
  | .vunpk w => Sys2Proof.Machine.execVunpk w s
  | .vshuf w => Sys2Proof.Machine.execVshuf w s
  | .vshufXor w => Sys2Proof.Machine.execVshufXor w s
  | .vshufRot w => Sys2Proof.Machine.execVshufRot w s
  | .vbcast w => Sys2Proof.Machine.execVbcast w s
  | .vbcastY w => Sys2Proof.Machine.execVbcastY w s
  | .vred w => Sys2Proof.Machine.execVred w s
  | .vscan w => Sys2Proof.Machine.execVscan w s
  | .vballot w => Sys2Proof.Machine.execVballot w s
  | .vkey w => Sys2Proof.Machine.execVkey w s
  | .mop w => Sys2Proof.Machine.execMop w s
  | .cPsend w => Sys2Proof.Machine.execCPsend w s
  | .mxGang w => Sys2Proof.Machine.execMxGang w s
  | .mxLdb w => Sys2Proof.Machine.execMxLdb w s
  | .mxMma w => Sys2Proof.Machine.execMxMma w s
  | .mxMmas w => Sys2Proof.Machine.execMxMmas w s
  | .mxGmma w => Sys2Proof.Machine.execMxGmma w s
  | .mxZero w => Sys2Proof.Machine.execMxZero w s
  | .mxLdacc w => Sys2Proof.Machine.execMxLdacc w s
  | .mxStacc w => Sys2Proof.Machine.execMxStacc w s
  | .mxRstep w => Sys2Proof.Machine.execMxRstep w s
  | .mxRsave w => Sys2Proof.Machine.execMxRsave w s
  | .mxRload w => Sys2Proof.Machine.execMxRload w s
  | .xNop w => Sys2Proof.Machine.execXNop w s
  | .xSync w => Sys2Proof.Machine.execXSync w s
  | .xEnd w => Sys2Proof.Machine.execXEnd w s
  | .xWparr w => Sys2Proof.Machine.execXWparr w s
  | .xWpwait w => Sys2Proof.Machine.execXWpwait w s
  | .cqEntryStart team grp eng => Sys2Proof.Machine.execCqEntryStart team grp eng s
  | .cqEntryRetire team => Sys2Proof.Machine.execCqEntryRetire team s
  | .eosPost team grp => Sys2Proof.Machine.execEosPost team grp s
  | .markPost team grp => Sys2Proof.Machine.execMarkPost team grp s
  | .splitClose team grp => Sys2Proof.Machine.execSplitClose team grp s
  | .groupDeadlock team grp => Sys2Proof.Machine.execGroupDeadlock team grp s
  | .engineHalt team grp eng => Sys2Proof.Machine.execEngineHalt team grp eng s
  | .vectorEntry team => Sys2Proof.Machine.execVectorEntry team s
  | .copyCommandStart bay ch => Sys2Proof.Machine.execCopyCommandStart bay ch s
  | .copySectorComplete bay ch sector => Sys2Proof.Machine.execCopySectorComplete bay ch sector s
  | .expertCountHalving die => Sys2Proof.Machine.execExpertCountHalving die s
  | .copyCommandEnd bay ch => Sys2Proof.Machine.execCopyCommandEnd bay ch s
  | .collPhaseWaitEnd bay ch => Sys2Proof.Machine.execCollPhaseWaitEnd bay ch s
  | .gangRendezvous team grp => Sys2Proof.Machine.execGangRendezvous team grp s
  | .matrixOpStart bay => Sys2Proof.Machine.execMatrixOpStart bay s
  | .matrixOpComplete bay => Sys2Proof.Machine.execMatrixOpComplete bay s
  | .waypointArrival n => Sys2Proof.Machine.execWaypointArrival n s
  | .waiterRetest die => Sys2Proof.Machine.execWaiterRetest die s
  | .writeTokenTransfer block holder => Sys2Proof.Machine.execWriteTokenTransfer block holder s
  | .fenceScGrant team => Sys2Proof.Machine.execFenceScGrant team s
  | .poolFill n => Sys2Proof.Machine.execPoolFill n s
  | .tlbPrefetch die dctx va => Sys2Proof.Machine.execTlbPrefetch die dctx va s
  | .nestDispatch queue => Sys2Proof.Machine.execNestDispatch queue s
  | .teamPlacement => Sys2Proof.Machine.execTeamPlacement s
  | .teamDeschedule team => Sys2Proof.Machine.execTeamDeschedule team s
  | .teamResume team => Sys2Proof.Machine.execTeamResume team s
  | .preemptionRequest team => Sys2Proof.Machine.execPreemptionRequest team s
  | .nodeSwapOut team => Sys2Proof.Machine.execNodeSwapOut team s
  | .preemptionDeadline team => Sys2Proof.Machine.execPreemptionDeadline team s
  | .nestCompletion nid => Sys2Proof.Machine.execNestCompletion nid s
  | .bayRetirement bay => Sys2Proof.Machine.execBayRetirement bay s
  | .faultRecordPost => Sys2Proof.Machine.execFaultRecordPost s
  | .mboxStatus => Sys2Proof.Machine.execMboxStatus s
  | .mboxRetest r => Sys2Proof.Machine.execMboxRetest r s
  | .mboxRouteSet => Sys2Proof.Machine.execMboxRouteSet s
  | .mboxRouteGet => Sys2Proof.Machine.execMboxRouteGet s
  | .mboxTeamEnd => Sys2Proof.Machine.execMboxTeamEnd s
  | .reldbWrite dctx tid => Sys2Proof.Machine.execReldbWrite dctx tid s
  | .poolpushWrite die pa => Sys2Proof.Machine.execPoolpushWrite die pa s
  | .fqconsWrite v => Sys2Proof.Machine.execFqconsWrite v s
  | .lqpriWrite queue v => Sys2Proof.Machine.execLqpriWrite queue v s
  | .dctbaseWrite v => Sys2Proof.Machine.execDctbaseWrite v s
  | .secfgWrite firmware die v => Sys2Proof.Machine.execSecfgWrite firmware die v s
  | .registerWrite host off v => Sys2Proof.Machine.execRegisterWrite host off v s
  | .moduleReset r => Sys2Proof.Machine.execModuleReset r s
  | .hostCxlMemAccess write sync pa data => Sys2Proof.Machine.execHostCxlMemAccess write sync pa data s
  | .cxlCacheSnoop write sync pa data => Sys2Proof.Machine.execCxlCacheSnoop write sync pa data s
  | .peerRequest node write pa data => Sys2Proof.Machine.execPeerRequest node write pa data s
  | .rhumbFlitReceive link flit => Sys2Proof.Machine.execRhumbFlitReceive link flit s
  | .linkDown link => Sys2Proof.Machine.execLinkDown link s
  | .laneSpareSwitch link lane => Sys2Proof.Machine.execLaneSpareSwitch link lane s
  | .linkRetrainComplete link => Sys2Proof.Machine.execLinkRetrainComplete link s
  | .peerResponseTimeout node => Sys2Proof.Machine.execPeerResponseTimeout node s
  | .monitorReport e => Sys2Proof.Machine.execMonitorReport e s
  | .thresholdCrossing e unit => Sys2Proof.Machine.execThresholdCrossing e unit s
  | .dieDegradeOut die => Sys2Proof.Machine.execDieDegradeOut die s
  | .dieEdgeFailure edge => Sys2Proof.Machine.execDieEdgeFailure edge s
  | .thermalClockStep bay temp => Sys2Proof.Machine.execThermalClockStep bay temp s
  | .thermalStop => Sys2Proof.Machine.execThermalStop s
  | .accessPerformed team grp path lanes => Sys2Proof.Machine.execAccessPerformed team grp path lanes s
  | .unassignedHelmWord => Sys2Proof.Machine.execUnassignedHelmWord s
  | .unassignedStrandWord beyond => Sys2Proof.Machine.execUnassignedStrandWord beyond s
  | .contextDestruction dctx => Sys2Proof.Machine.execContextDestruction dctx s
  | .doeSpdmRequest msg => Sys2Proof.Machine.execDoeSpdmRequest msg s
  | .junctionCooling bay temp => Sys2Proof.Machine.execJunctionCooling bay temp s

end Sys2Proof.Machine
end

