-- ==== Sys2Proof/Machine/Pick.lean ====
section
/-! DEFINITION. The next move, and the placing of a word where the next step fetches it (log 1, log 2). -/

namespace Sys2Proof.Machine

/-- Words are fetched, not moved. -/
def isWord (i : Instr) : Bool :=
  (helmWord i).isSome || (strandWord i).isSome ||
  (match i with | .unassignedHelmWord => true | .unassignedStrandWord _ => true | _ => false)

/-- Steps that a bay's clock drives: none of them happens once R439 has stopped every bay clock. -/
def onBayClock (i : Instr) : Bool :=
  match i with
  | .cqEntryStart _ _ _ | .cqEntryRetire _ | .eosPost _ _ | .markPost _ _ | .splitClose _ _ | .groupDeadlock _ _ | .engineHalt _ _ _
  | .vectorEntry _ | .copyCommandStart _ _ | .copySectorComplete _ _ _ | .copyCommandEnd _ _ | .collPhaseWaitEnd _ _ | .gangRendezvous _ _
  | .matrixOpStart _ | .matrixOpComplete _ | .accessPerformed _ _ _ _ | .nodeSwapOut _ | .teamDeschedule _ | .preemptionDeadline _ => true
  | _ => false

def pickWith (m : Move) (s : State) : Picked :=
  if s.mgmt.thermal && (match m with | .event i => onBayClock i | _ => true) then .idle s else
  match m with
  | .helm bay ctx => pickHelm bay ctx s
  | .engine team grp eng => pickEngine team grp eng s
  | .event i => if isWord i then .idle s else .run i { s with cur := none }

/-- The head of the agenda; with none laid down, a free choice. -/
def pickMove (s : State) : Picked :=
  match s.agenda with
  | m :: rest => pickWith m { s with agenda := rest }
  | [] => pickWith (Config.nextMove s.tick) { s with tick := s.tick + 1 }

/-! ### Where `withFetchWord` places a program -/

def fetchTeam : Team :=
  { Team.fresh 1 0 1 with
    resident := true
    dct := { Dct.zero with valid := true, nteam := 1, roots := [0x100000, 0x100000, 0x100000, 0x100000] }
    curObj := 1
    segs := (List.replicate 16 0).set 0 (mkSeg 0 0x10000 0 true false true 0) }

/-- Page tables that map page 0 to the frame at 0x20_0000 (R358, R359). -/
def fetchMap (m : List Host.Cell) : List Host.Cell :=
  let entry (pa v : Nat) (m : List Host.Cell) : List Host.Cell := memSetList m (locOf hbmTag pa) (leBytes 8 v)
  entry 0x100000 (2 ^ 63 + 0x120000) (entry 0x120000 (2 ^ 63 + 0x130000) (entry 0x130000 (2 ^ 63 + 0x131000)
    (entry 0x131000 (2 ^ 63 + 2 ^ 60 + 2 ^ 57 + 2 ^ 56 + 2 ^ 55 + 0x200000) m)))

/-- The engine that a strand word's tag names; X words go to C. -/
def tagEngine (w : Nat) : Eng := match w % 4 with | 0 => .l | 2 => .s | _ => .c 0

/-- A RUN entry whose block is at offset 0 of the object's text. -/
def fetchEntry (t : Team) : CqEntry :=
  { n := 0, kind := .run, block := 0, gsel := 0xFF, trips := 1, tmask := 0xFFFF, arg0 := 0, arg1 := 0, layer := 0, rel := false, rscope := 0
    win := 32, tag := 0
    view := { shapes := t.shapes, fmts := t.fmts, segs := t.segs, mode := false, regions := [], release := none, obj := 1, text := t.seg 0
              blkOff := 0x100, nblk := 1, service := false } }

/-- The team with one lane group of 16 lanes, each of whose engines stands at the first word of the entry. -/
def fetchStrandTeam : Team :=
  let t := fetchTeam
  let x := fetchEntry t
  let t : Team := { t with kernel := { KernelInfo.zero with obj := 1, width := 16, blocks := 7, text := t.seg 0, blkOff := 0x100, nblk := 1 }
                           cq := [x], nextPush := 1 }
  let g := freshGroup 0 0 7 0
  let begin (e : Engine) : Engine := e.atTrip x 0 0
  let g : Group := { g with l := begin g.l, s := begin g.s }
  { t with groups := [g.mapPath 0 fun p => { p with c := begin p.c, m0 := x.m0 16 0 }] }

/-- The word's bytes at offset 0 of the code of a resident team on bay 0, whose helm or, for a word of 48 or 96 bits, whose engine moves
next. -/
def placeWord (s : State) (nbits w : Nat) : State :=
  let m := memSetList (fetchMap s.mem) (locOf hbmTag 0x200000) (leBytes 12 w)
  let strand := decide (nbits = 48 ∨ nbits = 96)
  { s with
    agenda := [if strand then .engine 1 0 (tagEngine w) else .helm 0 0]
    mem := m
    writes := []
    tlb := []
    health := []
    teams := (if strand then fetchStrandTeam else fetchTeam) ::
      s.teams.filter fun t => !(t.key == 1) && !(t.resident && t.bay == 0 && t.ctx == 0)
    bays := { num := 0, stop := 0, quads := 4, presented := 0, retiring := false, spare := none, inService := true, clock := 0, temp := 25, mhz := 1750 } ::
      s.bays.filter fun b => b.num != 0
    dies := { num := 0, inService := true, secfg := 0, pool := [], push := 0, lookups := 0, stops := [] } :: s.dies.filter fun d => d.num != 0
    mgmt := { s.mgmt with state := 1, thermal := false } }

end Sys2Proof.Machine
end

