-- ==== Sys2Proof/Machine/Step.lean ====
section
/-! DEFINITION. One step of the machine. -/

namespace Sys2Proof.Machine

/-- One move: its word or event is executed. -/
def step (s : State) : Host.Outcome State Fault Refusal :=
  match pickMove s with
  | .run i t => exec i t
  | .watched i t w => .next (w.settle exec i t)
  | .idle t => .next t

/-- `s` with the instruction whose bits are `w` stored where the next step fetches (log 1). -/
def State.withFetchWord (s : State) (nbits w : Nat) : State := placeWord s nbits (w % 2 ^ nbits)

end Sys2Proof.Machine
end

