-- ==== Sys2Proof/Safety.lean ====
section
/-! DEFINITION. The terms in which claims are stated: whose step it is, what a frame leaves alone, invariants, and the spec's own
formulas for the values that words compute. -/

namespace Sys2Proof.Machine

/-! ### Whose step it is -/

/-- The step is the helm's of team `t`, which may retire a word. -/
def HelmTurn (s : State) (t : Team) : Prop := s.cur = some (.helm t.key) ∧ s.team? t.key = some t ∧ t.helmMayRun = true

/-- The step is the engine's that `l` describes: its team, group, entry and word. -/
def EngineTurn (s : State) (l : Ln) : Prop :=
  ∃ t g who entry, engineOf s = some (t, g, who, entry) ∧ l = lnOf t g who entry

/-- A write of g(d) that privilege allows (R98, R99). -/
def Team.mayWrite (t : Team) (d : GReg) : Bool := t.super || !isKReg d

/-- The machine after a helm word of `len` bytes whose only effect is g(d) := v (R96 to R98). -/
def State.afterValue (s : State) (t : Team) (len : Nat) (d : GReg) (v : W64) : State :=
  (s.mapTeam t.key (·.setReg d v)).retire t len .seq

/-- The team goes on at a pc with the loop registers given (R130); it may retire its next word. -/
def State.goTo (s : State) (t : Team) (x : W64 × LoopRegs) : State :=
  s.mapTeam t.key fun u => { u with pc := x.1, loop := x.2, exempt := false, waitFor := none, granted := none, late := [] }

/-- A cause with no address: code and INFO only. -/
def plainCause (code : Nat) (fva : Nat := 0) : Cause :=
  { code := code, fva := fva, info := 0, write := false, fetch := false, mask := none }

/-- The 3 registers that `shp.tail` writes, and the shape's TAILC. -/
def State.afterTail (s : State) (t : Team) (d : GReg) (sh : BitVec 3) (trips tail : Nat) : State :=
  ((((s.mapTeam t.key (·.setShape sh { t.shape sh with tailc := tail })).mapTeam t.key (·.setReg d (BitVec.ofNat 64 trips))).mapTeam t.key
    (·.setReg (d + 1) (BitVec.ofNat 64 (2 ^ (min tail 64) - 1)))).mapTeam t.key (·.setReg (d + 2) (BitVec.ofNat 64 tail))).retire t 4 .seq

/-- The team's cq with entries appended, and the next sequence number. -/
def State.pushed (s : State) (t : Team) (es : List CqEntry) : State :=
  s.mapTeam t.key fun u => { u with cq := u.cq ++ es, nextPush := u.nextPush + es.length }

/-- Two consecutive registers written. -/
def State.setPair (s : State) (t : Team) (d : GReg) (v w : W64) : State :=
  (s.mapTeam t.key (·.setReg d v)).mapTeam t.key (·.setReg (d + 1) w)

/-- Before a release, what the helm wrote reaches its homes (R317). -/
def State.released (s : State) (t : Team) (rel : Bool) : State := if rel then s.drainParty (.helm t.key) else s

/-! ### Frames -/

/-- Any read of one byte, by any party with any knowledge and at any choice, gives the same in both states, for the same pages entered and the
same writes at their homes. -/
def State.SameByte (s s' : State) (a : Nat) : Prop :=
  ∀ p known lifted regions va tick,
    (State.readWith { s' with tick := tick, entered := s.entered, home := s.home } p known lifted regions va a 1).1 =
    (State.readWith { s with tick := tick } p known lifted regions va a 1).1

/-- Pages may have entered the address space of a context, as its first access to a new leaf notes (R301; log 84); none has left it. -/
def State.Enters (s s' : State) : Prop := ∃ new, s'.entered = new ++ s.entered

/-- Every byte of memory reads the same, and its latest value is the same. -/
def State.SameMemory (s s' : State) : Prop := (∀ a, State.SameByte s s' a ∧ s'.byteAt a = s.byteAt a) ∧ State.Enters s s'

/-- Every byte outside `n` bytes from `loc` reads the same. -/
def State.SameOutside (s s' : State) (loc n : Nat) : Prop :=
  (∀ a, ¬(loc ≤ a ∧ a < loc + n) → State.SameByte s s' a ∧ s'.byteAt a = s.byteAt a) ∧ State.Enters s s'

/-- Every other team is as it was. -/
def State.SameOthers (s s' : State) (key : Nat) : Prop := ∀ j, j ≠ key → s'.team? j = s.team? j

/-- Segments, shapes, formats, rings, special registers, the save registers of a trap, queues and lane groups of a team are as they
were. -/
def Team.SameSpecial (t u : Team) : Prop :=
  u.segs = t.segs ∧ u.shapes = t.shapes ∧ u.fmts = t.fmts ∧ u.rings = t.rings ∧ u.super = t.super ∧ u.inVector = t.inVector ∧
  u.cause = t.cause ∧ u.epc = t.epc ∧ u.faultva = t.faultva ∧ u.mmcfg = t.mmcfg ∧ u.regions = t.regions ∧ u.nanorigin = t.nanorigin ∧
  u.subst = t.subst ∧ u.win = t.win ∧ u.curObj = t.curObj ∧ u.cq = t.cq ∧ u.rq = t.rq ∧ u.groups = t.groups ∧ u.watches = t.watches ∧
  u.shapeChanged = t.shapeChanged

/-- Every general register but `d` is as it was. -/
def Team.SameRegsBut (t u : Team) (d : GReg) : Prop := ∀ r, r ≠ d → u.reg r = t.reg r

/-! ### What a step comes to -/

/-- The bytes of the helm's word at the pc, fetched in units of 4 bytes: one for a short word, two for a long one (R29, R353). -/
def HelmText (t : Team) (s : State) (bytes : List Byte) (s' : State) : Prop :=
  ∃ a s1, fetchUnit t t.pc.toNat s = .ok (a, s1) ∧
    ((bitOf (leNat a) 0 = false ∧ bytes = a ∧ s' = s1) ∨
     (bitOf (leNat a) 0 = true ∧ ∃ b, fetchUnit t (t.pc.toNat + 4) s1 = .ok (b, s') ∧ bytes = a ++ b))

/-- The helm of `t` is to fetch a word: it is resident on its bay and context, may run, and is not held at a node for a pre-emption. -/
def HelmReady (s : State) (t : Team) : Prop :=
  s.teamAt t.bay t.ctx = some t ∧ t.helmMayRun = true ∧ (t.preempt && t.phase == .running && s.atNode t) = false

/-- The engine is to fetch a word of an entry: it runs the entry, may move, and the slip window does not hold it. -/
def EngineReady (s : State) (t : Team) (g : Group) (who : Eng) (entry : CqEntry) : Prop :=
  s.team? t.key = some t ∧ t.group? g.num = some g ∧ t.entryAt (g.eng who).entry = some entry ∧ t.engineMayRun g who = true ∧
  (g.eng who).running = true ∧ (entry.view.service || !g.slips who entry.win) = true

/-- The engine is before the first repetition of its word, with nothing of it done. -/
def Engine.atWord (e : Engine) : Bool := e.rep == 0 && e.latch.isNone && !e.issued && !e.arrived

/-- The state in which an engine fetches. -/
def State.asEngine (s : State) (t : Team) (g : Group) (who : Eng) : State :=
  { s with cur := some (.engine t.key g.num (g.slotOf who) (engKind who)) }

/-- Passing a word that may be a `c.psend`, L and S leave what they know for its release (R167). -/
def passNote (s : State) (t : Team) (g : Group) (who : Eng) (head : Nat) : List PassMark :=
  let k := s.knowOf (.engine t.key g.num (g.slotOf who) (engKind who))
  if head % 4 = 1 ∧ (head / 64 % 64 = 0x28 ∨ head / 64 % 64 = 0x3F) ∧ engKind who ≠ .c then
    [{ kind := engKind who, path := g.slotOf who, entry := (g.eng who).entry, trip := (g.eng who).trip, off := (g.eng who).off
       known := k.known, lifted := k.lifted }]
  else []

/-- In a single step an engine's word begins from the group and the rq before it, which a wait of it restores (R406). -/
def State.noteStep (s : State) (t : Team) (g : Group) : State :=
  s.mapTeam t.key fun u => { u with stepBase := if u.phase = .stepping ∧ u.stepBase = none then some (g, u.rq) else u.stepBase }

/-- The X watch that names the engine's word, at its first repetition (R408). -/
def Team.strandWatch (t : Team) (e : Engine) (entry : CqEntry) : Option Watch :=
  if e.atWord && !e.exempt && !t.inVector then
    t.watches.find? fun x => x.x && x.base / 2 ^ 48 == entry.view.obj && decide (x.base % 2 ^ 32 ≤ e.off) &&
      decide (e.off < x.base % 2 ^ 32 + x.len)
  else none

end Sys2Proof.Machine

namespace Sys2Proof.Spec

open Sys2Proof.Machine

/-! ### The values of the helm's words (R105 to R116), from the registers before -/

/-- R105 to R108: destination and value of an integer word; `clz` and `bins` have formulas of their own. -/
def intValue (g : GReg → W64) : Instr → Option (GReg × W64)
  | .add d a b => some (d, BitVec.ofNat 64 ((g a).toNat + (g b).toNat))
  | .sub d a b => some (d, BitVec.ofInt 64 ((g a).toInt - (g b).toInt))
  | .and_ d a b => some (d, g a &&& g b)
  | .or_ d a b => some (d, g a ||| g b)
  | .xor d a b => some (d, g a ^^^ g b)
  | .shl d a b => some (d, BitVec.ofNat 64 ((g a).toNat * 2 ^ ((g b).toNat % 64)))
  | .shr d a b => some (d, BitVec.ofNat 64 ((g a).toNat / 2 ^ ((g b).toNat % 64)))
  | .sha d a b => some (d, BitVec.ofInt 64 ((g a).toInt / 2 ^ ((g b).toNat % 64)))
  | .mul d a b => some (d, BitVec.ofNat 64 ((g a).toNat * (g b).toNat))
  | .mulh d a b => some (d, BitVec.ofInt 64 ((g a).toInt * (g b).toInt / 2 ^ 64))
  | .mulhu d a b => some (d, BitVec.ofNat 64 ((g a).toNat * (g b).toNat / 2 ^ 64))
  | .div d a b => some (d, if g b = 0 then BitVec.allOnes 64 else BitVec.ofInt 64 ((g a).toInt.tdiv (g b).toInt))
  | .divu d a b => some (d, if g b = 0 then BitVec.allOnes 64 else BitVec.ofNat 64 ((g a).toNat / (g b).toNat))
  | .rem d a b => some (d, if g b = 0 then g a else BitVec.ofInt 64 ((g a).toInt.tmod (g b).toInt))
  | .remu d a b => some (d, if g b = 0 then g a else BitVec.ofNat 64 ((g a).toNat % (g b).toNat))
  | .min d a b => some (d, if (g a).toInt ≤ (g b).toInt then g a else g b)
  | .minu d a b => some (d, if (g a).toNat ≤ (g b).toNat then g a else g b)
  | .max d a b => some (d, if (g a).toInt ≤ (g b).toInt then g b else g a)
  | .maxu d a b => some (d, if (g a).toNat ≤ (g b).toNat then g b else g a)
  | .slt d a b => some (d, if (g a).toInt < (g b).toInt then 1 else 0)
  | .sltu d a b => some (d, if (g a).toNat < (g b).toNat then 1 else 0)
  | .popc d a => some (d, BitVec.ofNat 64 ((List.range 64).countP fun i => (g a).getLsbD i))
  | .bext d a b => some (d, BitVec.ofNat 64 ((g a).toNat / 2 ^ ((g b).toNat % 64) % 2 ^ ((g b).toNat / 64 % 64 + 1)))
  | .addi d a i => some (d, BitVec.ofInt 64 ((g a).toInt + i.toInt))
  | .andi d a i => some (d, g a &&& BitVec.ofInt 64 i.toInt)
  | .ori d a i => some (d, g a ||| BitVec.ofInt 64 i.toInt)
  | .xori d a i => some (d, g a ^^^ BitVec.ofInt 64 i.toInt)
  | .slti d a i => some (d, if (g a).toInt < i.toInt then 1 else 0)
  | .shli d a n => some (d, BitVec.ofNat 64 ((g a).toNat * 2 ^ n.toNat))
  | .shri d a n => some (d, BitVec.ofNat 64 ((g a).toNat / 2 ^ n.toNat))
  | .shai d a n => some (d, BitVec.ofInt 64 ((g a).toInt / 2 ^ n.toNat))
  | _ => none

/-- R109 to R114: length, destination and value of a floating-point word that computes or converts, from the registers and the origin
NaN of the word. -/
def floatValue (g : GReg → W64) (o : Bool → Nat) : Instr → Option (Nat × GReg × W64)
  | .fadd p d a b => some (4, d, BitVec.ofNat 64 (fAdd (fpOf p) 0 false (o p) (fpArg p (g a)) (fpArg p (g b))))
  | .fsub p d a b => some (4, d, BitVec.ofNat 64 (fSub (fpOf p) 0 false (o p) (fpArg p (g a)) (fpArg p (g b))))
  | .fmul p d a b => some (4, d, BitVec.ofNat 64 (fMul (fpOf p) 0 false (o p) (fpArg p (g a)) (fpArg p (g b))))
  | .fdiv p d a b => some (4, d, BitVec.ofNat 64 (fDiv (fpOf p) 0 false (o p) (fpArg p (g a)) (fpArg p (g b))))
  | .fsqrt p d a => some (4, d, BitVec.ofNat 64 (fSqrt (fpOf p) 0 false (o p) (fpArg p (g a))))
  | .fcvtLP p rnd d a => some (4, d, BitVec.ofNat 64 (toIntCode true 64 rnd.toNat (unpackFp (fpOf p) (fpArg p (g a)))))
  | .fcvtNP p rnd d a => some (4, d, BitVec.ofNat 64 (toIntCode false 64 rnd.toNat (unpackFp (fpOf p) (fpArg p (g a)))))
  | .fcvtPL p rnd d a => some (4, d, BitVec.ofNat 64 (roundDy (fpOf p) rnd.toNat false false (Dy.ofInt (g a).toInt)))
  | .fcvtPN p rnd d a => some (4, d, BitVec.ofNat 64 (roundDy (fpOf p) rnd.toNat false false (Dy.ofInt ((g a).toNat : Int))))
  | .fcvtSD rnd d a => some (4, d, BitVec.ofNat 64 (convertFmt 1 0 rnd.toNat false (g a).toNat).1)
  | .fcvtDS rnd d a => some (4, d, BitVec.ofNat 64 (convertFmt 0 1 rnd.toNat false ((g a).toNat % 2 ^ 32)).1)
  | .fma p rnd d a b c => some (8, d, BitVec.ofNat 64 (fFma (fpOf p) rnd.toNat false false false (o p) (fpArg p (g a)) (fpArg p (g b)) (fpArg p (g c))))
  | .fms p rnd d a b c => some (8, d, BitVec.ofNat 64 (fFma (fpOf p) rnd.toNat false false true (o p) (fpArg p (g a)) (fpArg p (g b)) (fpArg p (g c))))
  | .fnma p rnd d a b c => some (8, d, BitVec.ofNat 64 (fFma (fpOf p) rnd.toNat false true false (o p) (fpArg p (g a)) (fpArg p (g b)) (fpArg p (g c))))
  | .fnms p rnd d a b c => some (8, d, BitVec.ofNat 64 (fFma (fpOf p) rnd.toNat false true true (o p) (fpArg p (g a)) (fpArg p (g b)) (fpArg p (g c))))
  | _ => none

/-- The code of a `.s` or `.d` operand (R109) by its sign and its magnitude, the bits below the sign. -/
def fpMagnitude (p : Bool) (v : W64) : Nat := if p then v.toNat % 2 ^ 63 else v.toNat % 2 ^ 31
def fpSign (p : Bool) (v : W64) : Bool := if p then v.getLsbD 63 else v.getLsbD 31
/-- The magnitude of an infinity; every larger one is a NaN (R67). -/
def fpInf (p : Bool) : Nat := if p then 0x7FF * 2 ^ 52 else 0xFF * 2 ^ 23
def fpNan (p : Bool) (v : W64) : Bool := decide (fpInf p < fpMagnitude p v)
/-- Numbers order as these integers do; both zeros have the order 0. -/
def fpOrder (p : Bool) (v : W64) : Int := if fpSign p v then -(fpMagnitude p v : Int) else (fpMagnitude p v : Int)
/-- The same with −0 below +0 (R111). -/
def fpStrict (p : Bool) (v : W64) : Int := if fpSign p v then -(fpMagnitude p v : Int) - 1 else (fpMagnitude p v : Int)
/-- The class bit of R112's table. -/
def fpClass (p : Bool) (v : W64) : Nat :=
  let m := fpMagnitude p v
  let one := if p then 2 ^ 52 else 2 ^ 23
  if fpInf p < m then (if m < fpInf p + one / 2 then 8 else 9)
  else if m = fpInf p then (if fpSign p v then 0 else 7)
  else if m = 0 then (if fpSign p v then 3 else 4)
  else if m < one then (if fpSign p v then 2 else 5)
  else (if fpSign p v then 1 else 6)

/-- The low bits of a register that hold a `.s` or a `.d` operand (R109). -/
def fpBits (p : Bool) (v : W64) : W64 := if p then v else v &&& 0xFFFFFFFF

/-- R111 and R112: destination and value of the words that order, compare and classify. -/
def orderValue (g : GReg → W64) : Instr → Option (GReg × W64)
  | .fmin p d a b => some (d,
      if fpNan p (g a) && fpNan p (g b) then fpBits p (g a) ||| (if p then 0x8000000000000 else 0x400000)
      else if fpNan p (g a) then fpBits p (g b) else if fpNan p (g b) then fpBits p (g a)
      else if fpStrict p (g b) < fpStrict p (g a) then fpBits p (g b) else fpBits p (g a))
  | .fmax p d a b => some (d,
      if fpNan p (g a) && fpNan p (g b) then fpBits p (g a) ||| (if p then 0x8000000000000 else 0x400000)
      else if fpNan p (g a) then fpBits p (g b) else if fpNan p (g b) then fpBits p (g a)
      else if fpStrict p (g a) < fpStrict p (g b) then fpBits p (g b) else fpBits p (g a))
  | .fclass p d a => some (d, BitVec.ofNat 64 (2 ^ fpClass p (g a)))
  | .fcmpEq p d a b => some (d, if fpNan p (g a) || fpNan p (g b) then 0 else if fpOrder p (g a) = fpOrder p (g b) then 1 else 0)
  | .fcmpLt p d a b => some (d, if fpNan p (g a) || fpNan p (g b) then 0 else if fpOrder p (g a) < fpOrder p (g b) then 1 else 0)
  | .fcmpLe p d a b => some (d, if fpNan p (g a) || fpNan p (g b) then 0 else if fpOrder p (g a) ≤ fpOrder p (g b) then 1 else 0)
  | .fcmpUn p d a b => some (d, if fpNan p (g a) || fpNan p (g b) then 1 else 0)
  | _ => none

/-! ### Rounding itself (R67, R68, R79 to R81), over the rationals and the reals -/

/-- The code names a finite value. -/
def CodeFinite (f : Fp) (c : Nat) : Prop :=
  c < 2 ^ f.bits ∧ (f.hasInf = true → c / 2 ^ f.fracBits % 2 ^ f.expBits ≠ 2 ^ f.expBits - 1) ∧
  (f.hasInf = false → f.hasNaN = true → c % f.signBit ≠ f.signBit - 1)

/-- The value of a code by its fields (R68). -/
def codeValue (f : Fp) (c : Nat) : ℚ :=
  let e := c / 2 ^ f.fracBits % 2 ^ f.expBits
  let fr := c % 2 ^ f.fracBits
  let m : ℚ := if e = 0 then (fr : ℚ) / 2 ^ f.fracBits * 2 ^ (1 - (f.bias : ℤ)) else (1 + (fr : ℚ) / 2 ^ f.fracBits) * 2 ^ ((e : ℤ) - f.bias)
  if c / f.signBit % 2 = 1 then -m else m

/-- A point of the format's grid, extended upward with unbounded exponent, and whether its last fraction bit is 0 (R79). -/
def GridPoint (f : Fp) (even : Bool) (p : ℝ) : Prop :=
  ∃ (n : ℕ) (e : ℤ), |p| = (n : ℝ) * 2 ^ e ∧ n < 2 ^ (f.fracBits + 1) ∧ 1 - (f.bias : ℤ) - f.fracBits ≤ e ∧
    (2 ^ f.fracBits ≤ n ∨ e = 1 - (f.bias : ℤ) - f.fracBits) ∧ (even = true → n % 2 = 0)

/-- R79: the mode chooses `p` among the points of a grid as the rounding of `x`; `even` marks the points that a tie goes to. -/
def ModeChooses (grid even : ℝ → Prop) (mode : Nat) (x p : ℝ) : Prop :=
  grid p ∧
  (mode = 0 → ∀ q, grid q → |x - p| ≤ |x - q| ∧ (|x - p| = |x - q| → q ≠ p → even p)) ∧
  (mode = 1 → 0 ≤ p * x ∧ |p| ≤ |x| ∧ ∀ q, grid q → |q| ≤ |x| → |q| ≤ |p|) ∧
  (mode = 2 → x ≤ p ∧ ∀ q, grid q → x ≤ q → p ≤ q) ∧
  (mode = 3 → p ≤ x ∧ ∀ q, grid q → q ≤ x → q ≤ p) ∧
  (mode = 4 → ∀ q, grid q → |x - p| ≤ |x - q| ∧ (|x - p| = |x - q| → |q| ≤ |p|))

/-- The largest finite value (R67). -/
def maxFinite (f : Fp) : ℚ := if f.hasInf then (2 - 1 / 2 ^ f.fracBits) * 2 ^ (f.bias : ℤ) else 448

/-- The code of ±∞, which in e4m3 is its NaN of that sign (R80). -/
def infinityCode (f : Fp) (neg : Bool) : Nat :=
  (if f.hasInf then (2 ^ f.expBits - 1) * 2 ^ f.fracBits else f.signBit - 1) + (if neg then f.signBit else 0)

/-- R79, R80: the code is RoundTo(fmt, mode, x), where an exact zero has the sign `neg`. -/
def RoundsTo (f : Fp) (mode : Nat) (sat neg : Bool) (x : ℝ) (code : Nat) : Prop :=
  let minus : Prop := x < 0 ∨ (x = 0 ∧ neg = true)
  ∃ p, ModeChooses (GridPoint f false) (GridPoint f true) mode x p ∧
    (|p| ≤ (maxFinite f : ℝ) → CodeFinite f code ∧ (codeValue f code : ℝ) = p ∧ (code / f.signBit = 1 ↔ minus)) ∧
    ((maxFinite f : ℝ) < |p| →
      let toInf := sat = false ∧ (mode = 0 ∨ mode = 4 ∨ (mode = 2 ∧ ¬minus) ∨ (mode = 3 ∧ minus))
      (toInf → ∃ s : Bool, (s = true ↔ minus) ∧ code = infinityCode f s) ∧
      (¬toInf → CodeFinite f code ∧ |codeValue f code| = maxFinite f ∧ (code / f.signBit = 1 ↔ minus)))

/-- The code of a `.s` or `.d` operand (R109). -/
def fpCode (p : Bool) (v : W64) : Nat := if p then v.toNat else v.toNat % 2 ^ 32

/-- R81: a real rounded on the grid of all integers, then clamped to a 64-bit range. -/
def RoundsToInt (signed : Bool) (mode : Nat) (x : ℝ) (v : W64) : Prop :=
  ∃ n : ℤ, ModeChooses (fun p => ∃ k : ℤ, p = k) (fun p => ∃ k : ℤ, p = 2 * k) mode x (n : ℝ) ∧
    v = BitVec.ofInt 64 (if signed then max (-(2 ^ 63)) (min (2 ^ 63 - 1) n) else max 0 (min (2 ^ 64 - 1) n))

/-- R110, R113, R114: length, destination, format, mode, exact result, and sign of an exact zero, of the words that round to a floating-point
format, on finite operands for which the operation is defined. -/
def exactResult (g : GReg → W64) (i : Instr) (len : Nat) (d : GReg) (f : Fp) (mode : Nat) (x : ℝ) (neg : Bool) : Prop :=
  let val (p : Bool) (a : GReg) : ℝ := (codeValue (fpOf p) (fpCode p (g a)) : ℝ)
  let fin (p : Bool) (a : GReg) : Prop := CodeFinite (fpOf p) (fpCode p (g a))
  let sign (p : Bool) (a : GReg) : Bool := fpSign p (g a)
  let sum (m : Nat) (s t : Bool) : Bool := if s = t then s else m = 3
  match i with
  | .fadd p d' a b => len = 4 ∧ d = d' ∧ f = fpOf p ∧ mode = 0 ∧ fin p a ∧ fin p b ∧ x = val p a + val p b ∧ neg = sum 0 (sign p a) (sign p b)
  | .fsub p d' a b => len = 4 ∧ d = d' ∧ f = fpOf p ∧ mode = 0 ∧ fin p a ∧ fin p b ∧ x = val p a - val p b ∧ neg = sum 0 (sign p a) (!sign p b)
  | .fmul p d' a b => len = 4 ∧ d = d' ∧ f = fpOf p ∧ mode = 0 ∧ fin p a ∧ fin p b ∧ x = val p a * val p b ∧ neg = xor (sign p a) (sign p b)
  | .fdiv p d' a b => len = 4 ∧ d = d' ∧ f = fpOf p ∧ mode = 0 ∧ fin p a ∧ fin p b ∧ val p b ≠ 0 ∧ x = val p a / val p b ∧
      neg = xor (sign p a) (sign p b)
  | .fsqrt p d' a => len = 4 ∧ d = d' ∧ f = fpOf p ∧ mode = 0 ∧ fin p a ∧ 0 ≤ val p a ∧ x = Real.sqrt (val p a) ∧ neg = sign p a
  | .fma p r d' a b c => len = 8 ∧ d = d' ∧ f = fpOf p ∧ mode = r.toNat ∧ fin p a ∧ fin p b ∧ fin p c ∧ x = val p a * val p b + val p c ∧
      neg = sum mode (xor (sign p a) (sign p b)) (sign p c)
  | .fms p r d' a b c => len = 8 ∧ d = d' ∧ f = fpOf p ∧ mode = r.toNat ∧ fin p a ∧ fin p b ∧ fin p c ∧ x = val p a * val p b - val p c ∧
      neg = sum mode (xor (sign p a) (sign p b)) (!sign p c)
  | .fnma p r d' a b c => len = 8 ∧ d = d' ∧ f = fpOf p ∧ mode = r.toNat ∧ fin p a ∧ fin p b ∧ fin p c ∧ x = -(val p a * val p b) + val p c ∧
      neg = sum mode (!xor (sign p a) (sign p b)) (sign p c)
  | .fnms p r d' a b c => len = 8 ∧ d = d' ∧ f = fpOf p ∧ mode = r.toNat ∧ fin p a ∧ fin p b ∧ fin p c ∧ x = -(val p a * val p b) - val p c ∧
      neg = sum mode (!xor (sign p a) (sign p b)) (!sign p c)
  | .fcvtPL p r d' a => len = 4 ∧ d = d' ∧ f = fpOf p ∧ mode = r.toNat ∧ x = ((g a).toInt : ℝ) ∧ neg = false
  | .fcvtPN p r d' a => len = 4 ∧ d = d' ∧ f = fpOf p ∧ mode = r.toNat ∧ x = ((g a).toNat : ℝ) ∧ neg = false
  | .fcvtSD r d' a => len = 4 ∧ d = d' ∧ f = fp32 ∧ mode = r.toNat ∧ fin true a ∧ x = val true a ∧ neg = sign true a
  | .fcvtDS r d' a => len = 4 ∧ d = d' ∧ f = fp64 ∧ mode = r.toNat ∧ fin false a ∧ x = val false a ∧ neg = sign false a
  | _ => False

/-! ### The update of a matrix element (R260, R261, R263, R265), over the rationals -/

/-- The value of an element of A or B in a format that is no scaled one (R68, R70, R76). -/
def elementValue (fmt c : Nat) : ℚ :=
  match fmtKind fmt with
  | .float f => codeValue f c
  | .subst f _ => codeValue f c
  | _ => ((signedOf (fmtBits fmt) c : ℤ) : ℚ)

/-- The element's code is one of the format, and is finite. -/
def ElementFinite (fmt c : Nat) : Prop :=
  match fmtKind fmt with
  | .float f => CodeFinite f c
  | .subst f _ => CodeFinite f c
  | _ => c < 2 ^ fmtBits fmt

/-- What enters an element in one rounding: its exact value, and the sign of a zero. -/
structure Term where
  value : ℚ
  neg : Bool

/-- One rounding of an element, or of its pair (R260, R265). -/
def Accumulates (f : Fp) (comp neg : Bool) (x : ℚ) (out : List Nat) : Prop :=
  ∃ hi, RoundsTo f 0 false neg (x : ℝ) hi ∧ (comp = false → out = [hi]) ∧
    (comp = true → ¬CodeFinite f hi → out = [hi, 0]) ∧
    (comp = true → CodeFinite f hi → ∃ lo, RoundsTo f 0 false false ((x - codeValue f hi : ℚ) : ℝ) lo ∧ out = [hi, lo])

/-- The roundings of an element in their order: what it holds, times the decay at the first one, plus each term; an infinity stays (R262,
R273). -/
def SumsTo (f : Fp) (comp : Bool) : Option Nat → List Term → List Nat → List Nat → Prop
  | _, [], accs, out => out = accs
  | d, t :: ts, accs, out =>
    let dv : ℚ := match d with | none => 1 | some c => codeValue f c
    let dn : Bool := match d with | none => false | some c => c / f.signBit % 2 == 1
    ((∀ c ∈ accs, CodeFinite f c) → ∃ mid,
      Accumulates f comp (t.neg && accs.all fun c => xor dn (c / f.signBit % 2 == 1)) (dv * (accs.map (codeValue f)).sum + t.value) mid ∧
      SumsTo f comp none ts mid out) ∧
    ((∃ c ∈ accs, ¬CodeFinite f c) → SumsTo f comp none ts accs out)

/-- The exact sum of the products of a range of K; the expanded zeros of a sparse row add nothing (R260, R268). -/
def productSum (af bf : Nat) (row : List (Option Nat)) (col : List Nat) (lo hi : Nat) : ℚ :=
  (((List.range (hi - lo)).map (lo + ·)).map fun k => match row.getD k none with
    | none => 0
    | some a => elementValue af a * elementValue bf (col.getD k 0)).sum

/-- R260: the chunks of 32 consecutive k, the last one shorter; a zero sum is +0. -/
def chunkTerms (af bf ke : Nat) (row : List (Option Nat)) (col : List Nat) : List Term :=
  (List.range ((ke + 31) / 32)).map fun j =>
    let s := productSum af bf row col (32 * j) (min (32 * j + 32) ke)
    { value := s, neg := decide (s < 0) }

/-- R261: each product by itself. -/
def fusedTerms (fp : Fp) (af bf ke : Nat) (row : List (Option Nat)) (col : List Nat) : List Term :=
  (List.range ke).map fun k =>
    { value := productSum af bf row col k (k + 1)
      neg := xor (((row.getD k none).getD 0) / fp.signBit % 2 == 1) ((col.getD k 0) / fp.signBit % 2 == 1) }

/-- R263: for each group its scale times the exact integer sum of (q − z) · b, and for h4 half the sum of (2c + 1) · b. -/
def groupTerms (af bf size ke : Nat) (scales : List (Nat × Int)) (row : List (Option Nat)) (col : List Nat) : List Term :=
  (List.range ((ke + size - 1) / size)).map fun g =>
    let sz := scales.getD g (0, 0)
    let term (k : Nat) : ℤ :=
      let b := signedOf (fmtBits bf) (col.getD k 0)
      match row.getD k none with
      | none => 0
      | some q => if af = 0x0A then (2 * signedOf 4 q + 1) * b else (signedOf (fmtBits af) q - sz.2) * b
    let t := (((List.range size).map (g * size + ·)).filter (· < ke)).map term |>.sum
    { value := codeValue fp16 sz.1 * (if af = 0x0A then (t : ℚ) / 2 else t), neg := xor (sz.1 / 2 ^ 15 % 2 == 1) (decide (t < 0)) }

/-- The helm words that only compute one register (R105 to R116): length and destination. -/
def valueWord : Instr → Option (Nat × GReg)
  | .clz d _ => some (4, d)
  | .bins d _ _ => some (4, d)
  | .li d _ => some (8, d)
  | .liHi d _ => some (8, d)
  | .lea d _ _ _ => some (8, d)
  | i => match intValue (fun _ => 0) i with
    | some x => some (4, x.1)
    | none => match floatValue (fun _ => 0) (fun _ => 0) i with
      | some x => some (x.1, x.2.1)
      | none => (orderValue (fun _ => 0) i).map fun x => (4, x.1)

/-! ### Where the helm goes on (R122, R129, R130) -/

/-- pc and loop registers after a word of `len` bytes that is no taken transfer (R130). -/
def nextWord (t : Team) (len : Nat) : W64 × LoopRegs :=
  let l := t.loop
  if l.lcnt ≠ 0 ∧ l.lobj.toNat = t.curObj ∧ t.pc.toNat + len = l.lend.toNat then
    if (l.lc + 1).toNat < l.lcnt.toNat then (l.lbeg, { l with lc := l.lc + 1 })
    else (l.lend, { l with lc := l.lc + 1, lcnt := 0 })
  else (BitVec.ofNat 64 (t.pc.toNat + len), l)

/-- The same after a taken branch or jump within the object: leaving the body of a loop ends it (R130). -/
def takenTo (t : Team) (target : Nat) : W64 × LoopRegs :=
  let l := t.loop
  (BitVec.ofNat 64 target,
    if l.lcnt ≠ 0 ∧ l.lobj.toNat = t.curObj ∧ (l.lbeg.toNat ≤ t.pc.toNat ∧ t.pc.toNat < l.lend.toNat) ∧
        ¬(l.lbeg.toNat ≤ target ∧ target < l.lend.toNat)
    then { l with lcnt := 0 } else l)

/-- R122: whether a branch is taken, and its offset in words. -/
def branchWord (g : GReg → W64) : Instr → Option (Bool × Int)
  | .bEq a b off => some (decide (g a = g b), off.toInt)
  | .bNe a b off => some (decide (g a ≠ g b), off.toInt)
  | .bLt a b off => some (decide ((g a).toInt < (g b).toInt), off.toInt)
  | .bGe a b off => some (decide ((g b).toInt ≤ (g a).toInt), off.toInt)
  | .bLtu a b off => some (decide ((g a).toNat < (g b).toNat), off.toInt)
  | .bGeu a b off => some (decide ((g b).toNat ≤ (g a).toNat), off.toInt)
  | .j off => some (true, off.toInt)
  | _ => none

/-- The offset `units` words from the pc, in the 32 bits of a descriptor's OFF. -/
def wordsAway (t : Team) (units : Int) : Nat := (((t.pc.toNat : Int) + 4 * units) % 2 ^ 32).toNat

/-- The descriptor of the word after one of `len` bytes (R121, R123). -/
def linkAfter (t : Team) (len : Nat) : W64 := BitVec.ofNat 64 (t.curObj * 2 ^ 48 + (t.pc.toNat + len) % 2 ^ 32)

/-! ### Helm loads and stores (R117 to R120) -/

/-- A helm load: length, destination, segment, offset, size code, and the scope of an acquire. -/
def loadWord (t : Team) : Instr → Option (Nat × GReg × W128 × Int × BitVec 3 × Option Nat)
  | .ld d a size imm => some (4, d, t.seg 4, (t.reg a).toInt + imm.toInt * (2 ^ (size.toNat % 4) : Nat), size, none)
  | .lds d a seg size imm => some (8, d, t.seg seg.toNat, (t.reg a).toInt + imm.toInt, size, none)
  | .ldAcq d a size scope => some (4, d, t.seg 4, (t.reg a).toInt, size, some scope.toNat)
  | _ => none

/-- A helm store: length, register, segment, offset, size code, and the scope of a release. -/
def storeWord (t : Team) : Instr → Option (Nat × GReg × W128 × Int × BitVec 3 × Option Nat)
  | .st g a size imm => some (4, g, t.seg 4, (t.reg a).toInt + imm.toInt * (2 ^ (size.toNat % 4) : Nat), size, none)
  | .sts g a seg size imm => some (8, g, t.seg seg.toNat, (t.reg a).toInt + imm.toInt, size, none)
  | .stRel g a size scope => some (4, g, t.seg 4, (t.reg a).toInt, size, some scope.toNat)
  | _ => none

/-- Bytes of a size code, and the widening of what it loads (R32). -/
def bytesOf (size : BitVec 3) : Nat := 2 ^ (size.toNat % 4)
def widened (size : BitVec 3) (v : Nat) : W64 :=
  if size.toNat < 4 then BitVec.ofNat 64 v
  else if v < 2 ^ (8 * bytesOf size - 1) then BitVec.ofNat 64 v else BitVec.ofInt 64 ((v : Int) - 2 ^ (8 * bytesOf size))

/-- The cause of an access that R118 refuses. -/
def accessCause (code : Nat) (sg : W128) (off : Int) (k : AccessKind) : Cause :=
  { code := code, fva := (((sg.toNat % 2 ^ 57 : Nat) + off) % 2 ^ 64).toNat, info := 0, write := k == .write || k == .atomic
    fetch := k == .fetch, mask := none }

/-! ### Shapes (R136 to R150) -/

/-- The extents of M and N by class, and of K by the element's size, 64 bytes being 512 bits (R136, R137). -/
def extentsMN (cls : Nat) : List Nat := match cls with | 0 => [16, 32, 64, 128] | 1 => [16, 32, 64] | _ => [16, 32]
def extentsK (fmt : Nat) : List Nat :=
  if fmt = 0x01 then [4, 8, 16]
  else if fmt = 0x00 then [8, 16, 32]
  else if fmt = 0x02 ∨ fmt = 0x03 then [16, 32, 64]
  else if fmt = 0x08 ∨ fmt = 0x09 ∨ fmt = 0x0A then [64, 128, 256]
  else [32, 64, 128]

/-- The formats that a tile request and a vector request accept (R137, R142). -/
def acceptedFormat (vector : Bool) (fmt : Nat) : Prop :=
  fmt ∈ [0x00, 0x01, 0x02, 0x03, 0x04, 0x05, 0x06, 0x07, 0x08, 0x09, 0x0A, 0x10, 0x11, 0x12] ∨
  (vector = true ∧ fmt ∈ [0x0B, 0x0C, 0x0D, 0x0E])

/-- `r` is the grant of request `q` under a policy, 0 EXACT, 1 FLOOR, 2 CEIL, over a lattice (R138). -/
def Granted (q policy : Nat) (lat : List Nat) (r : Nat) : Prop :=
  if q = 0 then r = 0
  else match policy with
    | 0 => r = if q ∈ lat then q else 0
    | 1 => r ∈ lat ∧ ((r ≤ q ∧ ∀ x ∈ lat, x ≤ q → x ≤ r) ∨ ((∀ x ∈ lat, q < x) ∧ ∀ x ∈ lat, r ≤ x))
    | _ => r ∈ lat ∧ ((q ≤ r ∧ ∀ x ∈ lat, q ≤ x → r ≤ x) ∨ ((∀ x ∈ lat, x < q) ∧ ∀ x ∈ lat, x ≤ r))

/-- Trips and tail of a length over an extent (R144). -/
def Trips (len ext trips tail : Nat) : Prop :=
  (len = 0 → trips = 0 ∧ tail = 0) ∧ (len ≠ 0 → len = (trips - 1) * ext + tail ∧ 1 ≤ trips ∧ 1 ≤ tail ∧ tail ≤ ext)

/-! ### Queue entries (R152 to R161) -/

/-- The fields that an entry takes from the push word, its registers and the helm's state (R160). -/
def EntryOf (t : Team) (f : PushFields) (d : GReg) (e : CqEntry) : Prop :=
  e.gsel = f.gsel.toNat ∧
  e.arg0 = (if d = 0 then 0 else BitVec.ofNat 32 (t.reg (d + 1)).toNat) ∧
  e.arg1 = (if d = 0 then 0 else BitVec.ofNat 32 (t.reg (d + 2)).toNat) ∧
  e.layer = (if f.lfix then f.lay.toNat else t.loop.lc.toNat % 16) ∧ e.rel = f.rel ∧
  e.rscope = (if f.rel then f.rscope.toNat else 0) ∧ e.win = t.win ∧ e.tag = t.pc.toNat ∧ e.view.shapes = t.shapes ∧
  e.view.fmts = t.fmts ∧ e.view.segs = t.segs

/-- The tail mask of a push (R160). -/
def pushMask (t : Team) (d : GReg) : W64 := if d = 0 then 0xFFFFFFFFFFFFFFFF else t.reg d

/-- The groups that a select names exist. -/
def groupsExist (t : Team) (gsel : Nat) : Prop := gsel = 0xFF ∨ ∃ g ∈ t.groups, g.num = gsel

/-- Some, or every, group that a select names has an open split. -/
def someSplit (t : Team) (gsel : Nat) : Prop := ∃ g ∈ t.groups, (gsel = 0xFF ∨ g.num = gsel) ∧ g.pushSplit = true
def everySplit (t : Team) (gsel : Nat) : Prop := ∀ g ∈ t.groups, (gsel = 0xFF ∨ g.num = gsel) → g.pushSplit = true

/-- No rq entry and no cq slot can ever be freed (the last case of R154): the rq is full, every group that has an entry is blocked posting, and
no entry that all its groups have finished is yet to retire. -/
def pushStuck (t : Team) : Prop :=
  16 ≤ t.rq.length ∧ (∀ g ∈ t.groups, g.stuckPosting t = true) ∧
  ∀ e, t.cq.head? = some e → ∃ g ∈ t.groups, e.selects g.num = true ∧ g.passed e.n = false

/-- The second register of `q.popr` and `q.peek` (R168). -/
def postedWord (e : RqEntry) : W64 :=
  BitVec.ofNat 64 (2 ^ 63 + e.flags % 2 ^ 8 * 2 ^ 48 + e.block % 2 ^ 16 * 2 ^ 24 + e.grp % 2 ^ 8 * 2 ^ 16 + e.seq % 2 ^ 16)

/-- What a write leaves in WIN (R165). -/
def windowOf (v : Nat) : Nat := if v = 0 then 1 else min v 64

/-! ### System registers (R101 to R104, R316, R396, R405) -/

/-- An object switch to entry `obj` is admitted: its entry can be read and is resident, and it is pinned or the pin list has room (R124, R417,
R418). -/
def Switches (s : State) (t : Team) (obj : Nat) : Prop :=
  0 < obj ∧ (∃ loc s', s.objLoc t obj = some (loc, s') ∧ 2 ≤ readValue (s'.atomicRead t.place loc 64).1 % 4) ∧ (t.pins.contains obj = true ∨ t.pins.length < 32)

/-- The layout of sys.status (R103); CLASS is the presented class of the lead bay (R140). -/
def statusValue (s : State) (t : Team) : W64 :=
  BitVec.ofNat 64 (t.bay % 2 ^ 8 * 2 ^ 16 + s.classOf t.bay % 2 ^ 2 * 2 ^ 14 + t.ctx % 2 ^ 2 * 2 ^ 12 + (if t.duplex then 2 ^ 11 + 2 ^ 10 else 0) +
    (if t.shapeChanged then 2 ^ 3 else 0) + (if t.step then 2 ^ 2 else 0) + (if t.super then 1 else 0))

/-- The registers of R101 but for sys.clock, with what they read as. -/
def systemTable (s : State) (t : Team) : List (BitVec 8 × W64) :=
  [(0x00, statusValue s t), (0x01, t.cause), (0x02, t.epc), (0x03, t.faultva), (0x04, t.stepmask), (0x08, t.mmcfg), (0x09, t.nanorigin),
   (0x0A, t.subst), (0x0C, BitVec.ofNat 64 t.win), (0x10, t.loop.lc), (0x11, t.loop.lcnt), (0x12, t.loop.lbeg), (0x13, t.loop.lend),
   (0x14, t.loop.lobj)]

/-- Bit `j` of register `num` is in a field marked SV. -/
def svBit (num : BitVec 8) (j : Nat) : Prop :=
  (num = 0x00 ∧ j = 2) ∨ (num = 0x01 ∧ (j < 8 ∨ 14 ≤ j)) ∨ num = 0x02 ∨ num = 0x03 ∨
  (num = 0x04 ∧ (j < 4 ∨ j = 4 ∨ j = 5 ∨ j = 8 ∨ (16 ≤ j ∧ j ≤ 20))) ∨ (num = 0x08 ∧ (j = 0 ∨ (10 ≤ j ∧ j ≤ 56)))

/-- At user privilege the write of `v` changes a field marked SV (R102). -/
def changesSv (old v : W64) (num : BitVec 8) : Prop := ∃ j, j < 64 ∧ svBit num j ∧ v.getLsbD j ≠ old.getLsbD j

/-- `new` is `old` with the bits that `w` names taken from `v` and those that `c` names cleared where `v` has a 1. -/
def Fields (old v new : W64) (w c : Nat → Prop) [DecidablePred w] [DecidablePred c] : Prop :=
  ∀ j, j < 64 → new.getLsbD j = if w j then v.getLsbD j else if c j then old.getLsbD j && !v.getLsbD j else old.getLsbD j

/-- `u` is the team after `sys.wr` of `v` to register `num`, each field under its own access code (R102); sys.win is clamped (R165). -/
def SystemWritten (t : Team) (num : BitVec 8) (v : W64) (u : Team) : Prop :=
  (num = 0x00 ∧ u = { t with step := v.getLsbD 2, shapeChanged := t.shapeChanged && !v.getLsbD 3 }) ∨
  (num = 0x01 ∧ ∃ x, Fields t.cause v x (fun j => j < 8 ∨ 14 ≤ j) (fun _ => False) ∧ u = { t with cause := x }) ∨
  (num = 0x02 ∧ u = { t with epc := v }) ∨
  (num = 0x03 ∧ u = { t with faultva := v }) ∨
  (num = 0x04 ∧ ∃ x, Fields t.stepmask v x (fun j => j < 6 ∨ j = 8 ∨ (16 ≤ j ∧ j ≤ 20)) (fun _ => False) ∧ u = { t with stepmask := x }) ∨
  (num = 0x08 ∧ ∃ x, Fields t.mmcfg v x (fun j => j = 0 ∨ (10 ≤ j ∧ j ≤ 56)) (fun j => j = 2 ∨ j = 3) ∧ u = { t with mmcfg := x }) ∨
  (num = 0x09 ∧ ∃ x, Fields t.nanorigin v x (fun _ => False) (fun j => j = 63) ∧ u = { t with nanorigin := x }) ∨
  (num = 0x0A ∧ ∃ x, Fields t.subst v x (fun _ => False) (fun j => j < 3) ∧ u = { t with subst := x }) ∨
  (num = 0x0C ∧ u = { t with win := windowOf (v.toNat % 2 ^ 7) }) ∨
  (num = 0x10 ∧ u = { t with loop := { t.loop with lc := v } }) ∨
  (num = 0x11 ∧ u = { t with loop := { t.loop with lcnt := v } }) ∨
  (num = 0x12 ∧ ∃ x, Fields 0 v x (fun j => 2 ≤ j) (fun _ => False) ∧ u = { t with loop := { t.loop with lbeg := x } }) ∨
  (num = 0x13 ∧ ∃ x, Fields 0 v x (fun j => 2 ≤ j) (fun _ => False) ∧ u = { t with loop := { t.loop with lend := x } }) ∨
  (num = 0x14 ∧ u = { t with loop := { t.loop with lobj := v } }) ∨
  (num = 0x18 ∧ u = t)

/-- The trap of a helm word: code and INFO; ENG 3 (R396). -/
def helmTrapOf (code : Nat) (info : Nat := 0) (fva : Nat := 0) : Trap :=
  { cause := code, fva := BitVec.ofNat 64 fva, info := info, eng := 3, grp := 0, path := 0, word := 0, rep := 0, mask := 0, lane := false,
    write := false, fetch := false }

/-- The DOUBLE record of a word with no address (R399). -/
def doubleRecord (t : Team) (code : Nat) : RecordFields :=
  { RecordFields.zero with
    fva := 0, tag := t.pc.toNat, seq := 0xFFFFFFFF, fsec := code + 0xFF * 2 ^ 8, bay := t.bay, ctx := t.ctx, cmd := 0xC, cause := 0x13,
    src := 0, dst := t.curObj * 2 ^ 48 }

/-! ### The vector (R367, R395 to R399, R403, R404) -/

/-- sys.cause of a trap (R396). -/
def causeValue (tr : Trap) : W64 :=
  BitVec.ofNat 64 ((if tr.eng = 3 then 0 else tr.word % 2 ^ 32 * 2 ^ 32) + tr.info % 2 ^ 9 * 2 ^ 23 + tr.path % 2 ^ 2 * 2 ^ 21 +
    tr.grp % 2 ^ 5 * 2 ^ 16 + tr.eng % 2 ^ 2 * 2 ^ 14 + tr.cause % 2 ^ 8)

/-- k0 of a lane access (R367). -/
def laneTrapWord (tr : Trap) : W64 :=
  BitVec.ofNat 64 (tr.grp % 2 ^ 5 + tr.path % 2 ^ 2 * 2 ^ 5 + tr.eng % 2 ^ 2 * 2 ^ 7 + tr.rep % 2 ^ 5 * 2 ^ 9 + tr.cause % 2 ^ 8 * 2 ^ 16)

/-- Step 1 of the entry: the trap's registers, the device context's entry as read. -/
def trapRegisters (tr : Trap) (d : Dct) (u : Team) : Team :=
  { u with dct := d, cause := causeValue tr, epc := linkAfter u 0, faultva := tr.fva, trap := none
           g := if tr.lane then (u.g.set 56 (laneTrapWord tr)).set 57 tr.mask else u.g }

/-- Steps 2 and 3: the loop ends, and the context is at supervisor privilege, in its vector. -/
def inItsVector (u : Team) : Team := { u with loop := { u.loop with lcnt := 0 }, super := true, inVector := true, phase := .vector }

/-- What the vector save area receives (R395); its order is the model's (log 5). -/
def areaOf (t : Team) : List Byte :=
  (t.segs.map fun d => leBytes 16 d.toNat).flatten ++ leBytes 8 t.curObj ++ leBytes 8 t.loop.lc.toNat ++ leBytes 8 t.loop.lcnt.toNat ++
  leBytes 8 t.loop.lbeg.toNat ++ leBytes 8 t.loop.lend.toNat ++ leBytes 8 t.loop.lobj.toNat

/-- An engine, and a group, that a resume releases. -/
def releasedEngine (e : Engine) : Engine := { e with halted := false, exempt := true, waitFor := none }
def releasedGroup (g : Group) : Group :=
  { g with l := releasedEngine g.l, s := releasedEngine g.s, paths := g.paths.map fun p => { p with c := releasedEngine p.c } }

/-- The team fault record of `halt` (R404). -/
def haltRecord (t : Team) (d : Nat) : RecordFields :=
  let c := t.cause.toNat
  { RecordFields.zero with
    cmd := 0xD, cause := c % 2 ^ 8, fva := t.faultva.toNat, tag := if c / 2 ^ 14 % 4 = 3 then t.epc.toNat % 2 ^ 32 else c / 2 ^ 32,
    seq := 0xFFFFFFFF, fsec := c / 2 ^ 8 % 2 ^ 24, src := d, dst := t.epc.toNat / 2 ^ 48 * 2 ^ 48, bay := t.bay, ctx := t.ctx }

/-! ### Launches (R375 to R379, R387) -/

/-- The bits hi to lo of an image. -/
def field (v hi lo : Nat) : Nat := v / 2 ^ lo % 2 ^ (hi + 1 - lo)

/-- A record's entry: the object-table entry that its CODE names, where it can be read. -/
def launchEntry (s : State) (t : Team) (image : Nat) : Option Nat :=
  if field image 767 752 = 0 then none
  else (s.objLoc t (field image 767 752)).map fun x => leNat ((x.2.homeBytes x.1 64).map (·.value))

/-- The checks of R378 step 3. DEPTHM1 above 7 is refused with them (DEDUCED, log 45). -/
def LaunchAccepted (image : Nat) (ext : Option (List W128 × List W32)) (entry : Option Nat) : Prop :=
  let dims := field image 247 244 + 1
  let count (d : Nat) : Nat := field image (32 * d + 799) (32 * d + 768)
  field image 235 0 = 0 ∧ dims ≤ 8 ∧
  (∃ e, entry = some e ∧ 2 ≤ e % 4 ∧ field e 121 120 ≠ 3 ∧ field image 239 236 + 1 ≤ 256 / (16 * 2 ^ field e 121 120)) ∧
  (∀ d, d < 8 → dims ≤ d → count d = 0 ∧ field image (248 + d) (248 + d) = 0) ∧
  field image 415 384 ≠ 0 ∧ field image 415 384 % 16 = 0 ∧ field image 463 448 ≠ 0 ∧ field image 243 241 ≤ 5 ∧
  ((List.range dims).map fun d => if field image (248 + d) (248 + d) = 1 then 1 else count d).foldl (· * ·) 1 ≤ 2 ^ 48 - 1 ∧
  ∀ ds es, ext = some (ds, es) → (∀ x ∈ ds, descriptorFault x = none ∧ field x.toNat 124 122 = 0) ∧
    ∀ e ∈ es, field e.toNat 30 20 = 0 ∧ field e.toNat 11 4 = 0

/-- `n` is the launch that the word pushes (R375 to R379). -/
def LaunchOf (s : State) (t : Team) (a : GReg) (order : Bool) (child : Bool) (queue image : Nat) (ext : Option (List W128 × List W32))
    (n : Nest) : Prop :=
  n.queue = queue ∧ n.dctx = t.dctx ∧ n.aspace = n.dct.aspace ∧ n.launchWord = t.reg a ∧ n.order = order ∧ n.release = s.releaseOf t.place 4 ∧
  n.parent = (if child then some t.key else none) ∧ n.dispatched = false ∧ n.started = false ∧ n.nextOrd = 0 ∧ n.teams = [] ∧
  n.finished = false ∧ n.record.ext = ext ∧ n.record.counts = (List.range 8).map (fun d => field image (32 * d + 799) (32 * d + 768)) ∧
  n.record.code.toNat = field image 767 704 ∧ n.record.argBase = field image 703 640 ∧ n.record.argLen = field image 447 416 ∧
  n.record.stkBase = field image 639 576 ∧ n.record.stkSlots = field image 463 448 ∧ n.record.stack = field image 415 384 ∧
  n.record.live = field image 511 464 ∧ n.record.cntOff = field image 383 352 ∧ n.record.cwp = field image 351 320 ∧
  n.record.bwp = field image 319 288 ∧ n.record.bph = field image 287 256 ∧ n.record.memMask = field image 255 248 ∧
  n.record.depth = field image 247 244 + 1 ∧ n.record.bscope = field image 243 241 ∧
  n.record.duplex = decide (field image 240 240 = 1) ∧ n.record.ngrp = field image 239 236 + 1

/-- The launch count after `c`: modulo 2^26, with 0 skipped (R377). -/
def countAfter (c : Nat) : Nat := if c + 1 < 2 ^ 26 then c + 1 else 1

/-- A fork stands ahead of every launch of its queue that has not been dispatched, and behind every other one (R387). -/
def ForkedInto (n : Nest) (before after : List Nest) : Prop :=
  ∃ xs ys, before = xs ++ ys ∧ after = xs ++ [n] ++ ys ∧ (∀ m ∈ xs, m.queue = n.queue → m.started = true) ∧
    (∀ m, ys.head? = some m → m.queue = n.queue ∧ m.started = false)

/-- The table entry permits a launch to the queue (R372, R377). -/
def launchAllowed (d : Dct) (queue : Nat) : Prop :=
  d.valid = true ∧ d.bad = false ∧ d.saveStride ≠ 0 ∧ d.saveStride % 4096 = 0 ∧ d.nteam ≠ 0 ∧ d.qmask / 2 ^ queue % 2 = 1

/-- The team words' registers: what a node swap-out keeps (R100, R375, R385). -/
def keptAtNode (live i : Nat) : Prop := i = 2 ∨ (48 ≤ i ∧ i ≤ 55) ∨ i = 62 ∨ i = 63 ∨ (1 ≤ i ∧ i < 48 ∧ live / 2 ^ i % 2 = 1)

/-! ### Segments, blocks, pages (R188, R357, R363 to R365, R393) -/

/-- A descriptor that FORM 0 of `seg.bind` refuses as an instruction (R352, R357). -/
def descriptorBad (d : Nat) : Prop := field d 127 125 ≠ 0 ∨ field d 61 60 ≠ 0 ∨ 5 ≤ field d 124 122 ∨ field d 63 62 = 3
/-- The size of its class's space. -/
def sizeOfSpace (d : Nat) : Nat := if field d 124 122 = 4 then 0x20000 else 2 ^ 57

/-- The narrowed descriptor. -/
def narrowed (d o len : Nat) (keep : BitVec 3) : W128 :=
  BitVec.ofNat 128 (field d 124 122 * 2 ^ 122 + len * 2 ^ 64 + field d 63 62 * 2 ^ 62 +
    (if field d 59 59 = 1 ∧ keep.getLsbD 2 = true then 2 ^ 59 else 0) + (if field d 58 58 = 1 ∧ keep.getLsbD 1 = true then 2 ^ 58 else 0) +
    (if field d 57 57 = 1 ∧ keep.getLsbD 0 = true then 2 ^ 57 else 0) + (field d 56 0 + o) % 2 ^ 57)

/-- A descriptor as `lnk.set` stores it: bits [47:32] are 0 (R420). -/
def linkValue (v : W64) : Nat := v.toNat / 2 ^ 48 * 2 ^ 48 + v.toNat % 2 ^ 32

/-- The groups that a register block word selects (R393). -/
def blockSelected (t : Team) (gsel : Nat) (g : Group) : Prop := g ∈ t.groups ∧ (gsel = 0xFF ∨ g.num = gsel)

/-- The block is surrendered, and not yet in the pool. -/
def surrendering (t : Team) (grp b : Nat) : Prop := ∃ x ∈ t.surrenders, x.grp = grp ∧ x.block = b

/-- A leaf names a page of the translations that an invalidation names: of one page, or with `large` of 2 MiB (R363, R365). -/
def invalidates (die aspace : Nat) (va : Option Nat) (large : Bool) (e : TlbEntry) : Prop :=
  dieOfBay e.bay = die ∧ e.aspace = aspace ∧ ∀ a, va = some a →
    if e.large then e.page = a / 2 ^ 21 else e.page = a / 2 ^ 16 ∨ (large = true ∧ e.page / 32 = a / 2 ^ 21)

/-- The tokens of a single-copy page are recalled: the new leaf removes W or names another frame (R365). -/
def recalls (old new : Nat) : Prop :=
  field old 63 63 = 1 ∧ field old 60 60 = 1 ∧ field old 59 58 = 0 ∧ field old 62 61 = 0 ∧
  ((field old 56 56 = 1 ∧ ¬(field new 63 63 = 1 ∧ field new 56 56 = 1)) ∨ field old 51 16 ≠ field new 51 16)

/-- The result of `pg.probe` for a walk (R364). -/
def probed (w : Walk) (super cached : Bool) : Nat :=
  let leaf := w.leaf.getD 0
  (if super then leaf / 2 ^ 8 * 2 ^ 8 else field leaf 63 52 * 2 ^ 52) + (if cached then 16 else 0) + w.level * 4 + (if w.large then 2 else 0) +
  (if w.leaf.isSome then 1 else 0)

/-! ### Rings (R234 to R241) -/

def ringCount (r : Ring) : Nat := r.cntm1 + 1
/-- The address of a slot: BASE + s · SIZE (R238). -/
def slotAddress (r : Ring) (n : Nat) : Nat := (r.base + n * (64 * 2 ^ r.szc)) % 2 ^ 32
/-- The ring without the party among its waiters; with it, at the end. -/
def ringLeft (r : Ring) (p : Party) : Ring :=
  { r with waiters := r.waiters.filter fun w => w.1 != p, ended := r.ended.filter fun w => w.1 != p }
def ringJoined (r : Ring) (p : Party) (claim : Bool) : Ring :=
  if (p, claim) ∈ r.waiters then r else { r with waiters := r.waiters ++ [(p, claim)] }
/-- No other party has waited longer for the same. -/
def firstInLine (r : Ring) (p : Party) (claim : Bool) : Prop := ∀ w, (r.waiters.filter fun x => x.2 == claim).head? = some w → w.1 = p
/-- The three kinds of helm ticket (R238). -/
def slotTicket (r : Ring) (n : Nat) : W64 := BitVec.ofNat 64 (n * 2 ^ 32 + slotAddress r n)
def abortTicket : W64 := 0xA000FFFFFFFFFFFF
def eosTicket : W64 := 0x6000FFFFFFFFFFFF
/-- The distance of two counts of 32 bits (R234). -/
def countsApart (a b : Nat) : Nat := (a + 2 ^ 32 - b) % 2 ^ 32
/-- STAT (R240). -/
def ringStat (r : Ring) : Nat :=
  countsApart r.head r.taken % 2 ^ 9 + countsApart (r.tail + ringCount r) r.claimed % 2 ^ 9 * 2 ^ 9 + (if r.eos then 2 ^ 18 else 0) +
  (if r.abort then 2 ^ 19 else 0) + (if r.valid then 2 ^ 20 else 0)
/-- The slot that an address names. -/
def namesSlot (r : Ring) (v n : Nat) : Prop := n < ringCount r ∧ slotAddress r n = v ∧ ∀ m, m < n → slotAddress r m ≠ v
/-- `h` is where a count stops that passes, from `lo` on, every slot of state `st` up to `hi` (R234, R239). -/
def passes (r : Ring) (slots : List Nat) (st lo hi h : Nat) : Prop :=
  ∃ k, k ≤ countsApart hi lo ∧ h = (lo + k) % 2 ^ 32 ∧ (∀ j, j < k → slots.getD ((lo + j) % 2 ^ 32 % ringCount r) 0 = st) ∧
    (k = countsApart hi lo ∨ slots.getD (h % ringCount r) 0 ≠ st)
/-- How a wait of the party was ended: `true` by an abort, `false` by an eos. -/
def waitEnded (r : Ring) (p : Party) : Option Bool := (r.ended.find? fun w => w.1 == p).map (·.2)
/-- An eos ends the waits of claims, and an abort every wait (R239). -/
def ringEnded (r : Ring) (rel : Release) : Ring :=
  { r with eos := true, eosRelease := some rel, waiters := r.waiters.filter (fun w => !w.2)
           ended := r.ended ++ (r.waiters.filter (·.2)).map fun w => (w.1, false) }
def ringAborted (r : Ring) : Ring :=
  { r with abort := true, waiters := [], ended := (r.ended ++ r.waiters).map fun w => (w.1, true) }
/-- The commits up to the slot that is taken next (R241). -/
def commitsTo (r : Ring) : List Release := r.headReleases.take (r.headReleases.length + 1 - countsApart r.head r.taken)
/-- The ring that `rg.init` makes (R237). -/
def freshRing (bay desc gen team base cnt szc seg space : Nat) (ended : List (Party × Bool)) : Ring :=
  { bay := bay, desc := desc, gen := gen, valid := true, team := team, base := base, cntm1 := cnt, szc := szc, seg := seg, space := space
    eos := false, abort := false, head := 0, tail := 0, taken := 0, claimed := 0, slots := List.replicate (cnt + 1) 0, waiters := [], ended := ended
    commits := List.replicate (cnt + 1) none, frees := List.replicate (cnt + 1) none, headReleases := [], eosRelease := none }

/-! ### Waypoints (R328 to R342) -/

/-- Waypoint indices of a die (R328). -/
def waypointIndices (s : State) (die : Nat) : Nat := match s.die? die with | some x => 65536 * (field x.secfg.toNat 55 48 + 1) | none => 0
/-- The handle of a record (R329). -/
def handleOf (w : Waypoint) : Nat := w.die * 2 ^ 30 + w.gen * 2 ^ 24 + w.index
/-- Phase `p` of a record has completed (R337). -/
abbrev phaseDone (w : Waypoint) (p : Nat) : Prop :=
  1 ≤ (w.phase + 2 ^ 32 - p % 2 ^ 32) % 2 ^ 32 ∧ (w.phase + 2 ^ 32 - p % 2 ^ 32) % 2 ^ 32 ≤ 2 ^ 31
/-- The releases that an acquire on phase `p` meets: of the arrivals of phases at or before it (R342). -/
def phaseReleases (w : Waypoint) (p : Nat) : List Release := (w.releases.filter fun x => decide ((p + 2 ^ 32 - x.1) % 2 ^ 32 < 2 ^ 31)).map (·.2)

/-- A completed phase: the counts restart, the flags move, and the registered waits for it end (R331). -/
def nextPhase (w : Waypoint) : Waypoint :=
  { w with waiting := w.waiting.filter fun x => !decide (phaseDone { w with phase := (w.phase + 1) % 2 ^ 32 } x.2)
           pover := w.overBit || decide (w.aexp < w.acnt) || decide (w.bexp < w.bcnt), plost := w.lost, phase := (w.phase + 1) % 2 ^ 32
           acnt := 0, bcnt := 0, lost := 0, fault := false, overBit := false, aexp := w.ainit, bexp := w.binit }
/-- The counts after an arrival, saturating (R330, R331). -/
def counted (w : Waypoint) (n bytes lost : Nat) (fault : Bool) (rel : Option Release) : Waypoint :=
  { w with acnt := Nat.min (w.acnt + n) 65535, bcnt := Nat.min (w.bcnt + bytes) (2 ^ 40 - 1), lost := Nat.min (w.lost + lost) 65535
           fault := w.fault || fault, overBit := w.overBit || decide (65535 < w.acnt + n) || decide (2 ^ 40 - 1 < w.bcnt + bytes)
           releases := w.releases ++ (rel.map fun r => (w.phase, r)).toList }
/-- The record after the test of R331. -/
def tested (w : Waypoint) (arrival : Bool) : Waypoint :=
  if w.aexp ≤ w.acnt ∧ w.bexp ≤ w.bcnt then nextPhase w
  else if arrival = true ∧ (w.aexp < w.acnt ∨ w.bexp < w.bcnt) then { w with overBit := true } else w

/-- The team may reset or free the record (R333). -/
def mayFree (t : Team) (w : Waypoint) : Prop :=
  (w.life = 0 → w.owner = t.tid ∧ w.dctx = t.dctx) ∧ (w.life = 1 → w.owner = t.nid)

/-- The record that an allotment makes (R335). -/
def freshWaypoint (t : Team) (die index gen life aexp bexp : Nat) : Waypoint :=
  { die := die, index := index, valid := true, gen := gen, life := life, owner := if life = 0 then t.tid else if life = 1 then t.nid else 0
    aspace := t.dct.aspace, dctx := t.dctx, phase := 0, acnt := 0, aexp := aexp, bcnt := 0, bexp := bexp, ainit := aexp, binit := bexp
    lost := 0, plost := 0, fault := false, overBit := false, pover := false, releases := [], waiting := [] }

/-! ### Atomics and fences (R343 to R349) -/

/-- What an atomic makes of the old value, its operand and its second operand; `cas` that fails writes nothing (R344). -/
structure AtomicForm where
  /-- The register of the result, if it has one; of the operand; of the address. -/
  gives : Bool
  d : GReg
  a : GReg
  dbl : Bool
  ord : BitVec 2
  scope : BitVec 3
  /-- The result is sign-extended. -/
  signs : Bool
  new : Nat → Nat → Nat → Nat → Option Nat

/-- The signed value of `n` bytes. -/
def signedBytes (n x : Nat) : Int := if x < 2 ^ (8 * n - 1) then (x : Int) else (x : Int) - 2 ^ (8 * n)

/-- The operations that `at.red` has too, by R42's numbers. -/
def atomicOp (op : Nat) (natural : Bool) (n old v : Nat) : Option Nat :=
  match op with
  | 0 => some ((old + v) % 2 ^ (8 * n))
  | 1 => some (Nat.land old v)
  | 2 => some (Nat.lor old v)
  | 3 => some (Nat.xor old v)
  | 4 => some (if natural then Nat.min old v else if signedBytes n v < signedBytes n old then v else old)
  | _ => some (if natural then Nat.max old v else if signedBytes n old < signedBytes n v then v else old)

/-- The form of an atomic word. -/
def atomicForm : Instr → Option AtomicForm
  | .atAdd d a b o sc => some ⟨true, d, a, b, o, sc, false, fun n old v _ => atomicOp 0 false n old v⟩
  | .atAnd d a b o sc => some ⟨true, d, a, b, o, sc, false, fun n old v _ => atomicOp 1 false n old v⟩
  | .atOr d a b o sc => some ⟨true, d, a, b, o, sc, false, fun n old v _ => atomicOp 2 false n old v⟩
  | .atXor d a b o sc => some ⟨true, d, a, b, o, sc, false, fun n old v _ => atomicOp 3 false n old v⟩
  | .atMin d a b o sc => some ⟨true, d, a, b, o, sc, true, fun n old v _ => atomicOp 4 false n old v⟩
  | .atMax d a b o sc => some ⟨true, d, a, b, o, sc, true, fun n old v _ => atomicOp 5 false n old v⟩
  | .atMinu d a b o sc => some ⟨true, d, a, b, o, sc, false, fun n old v _ => atomicOp 4 true n old v⟩
  | .atMaxu d a b o sc => some ⟨true, d, a, b, o, sc, false, fun n old v _ => atomicOp 5 true n old v⟩
  | .atXchg d a b o sc => some ⟨true, d, a, b, o, sc, false, fun _ _ v _ => some v⟩
  | .atCas d a b o sc => some ⟨true, d, a, b, o, sc, false, fun _ old v e => if old = e then some v else none⟩
  | .atRed op nat d a b o sc => if op.toNat < 6 then some ⟨false, d, a, b, o, sc, false, fun n old v _ => atomicOp op.toNat nat n old v⟩ else none
  | _ => none

/-- Host or peer memory (R345). -/
def outside (loc : Nat) : Prop := storageOf loc = hostTag ∨ (2 ≤ storageOf loc ∧ storageOf loc < 0x102)

/-- The markers that a `fence.mk` places (R349). -/
def placedMarks (s : State) (t : Team) (cq ce mx : Bool) : FenceMarks :=
  { cq := if cq then some t.nextPush else none
    ce := if ce then (s.cmds.filter fun c => c.team == t.key && c.bay == t.bay).map fun c => (c.bay, c.ch, c.seq) else []
    mx := if mx then (s.mqueue.filter fun m => m.team == t.key).map (·.num) else [] }

/-- The cq marker is satisfied (R349); a group has started an entry when a C engine has, or every engine (log 27); a service entry is earlier than any, and a matrix operation's accesses are of the entry that made it. -/
def cqMet (s : State) (t : Team) (m : FenceMarks) (done : Bool) : Prop :=
  ∀ n, m.cq = some n → t.service = none ∧
    (if done then (∀ e ∈ t.cq, n ≤ e.n) ∧ (∀ g ∈ t.groups, g.inFlight = []) ∧ ∀ o ∈ s.mqueue, o.team = t.key → o.counted = false
     else ∀ e ∈ t.cq, e.n < n → ∀ g ∈ t.groups, e.selects g.num = true →
      let has (who : Eng) : Prop := e.n < (g.eng who).entry ∨ ((g.eng who).entry = e.n ∧ (g.eng who).running = true)
      (∃ p ∈ g.liveSlots, has (.c p)) ∨ ∀ who ∈ g.engines, has who)
/-- The markers of the copy channels and of the matrix queue. -/
def ceMet (s : State) (m : FenceMarks) (done : Bool) : Prop :=
  ∀ x ∈ m.ce, ∀ c, s.cmds.find? (fun c => (c.bay, c.ch, c.seq) == x) = some c → if done then c.state = .held else c.state ≠ .queued
def mxMet (s : State) (m : FenceMarks) (done : Bool) : Prop :=
  ∀ n ∈ m.mx, ∀ o, s.mqueue.find? (fun o => o.num == n) = some o → done = false ∧ o.begun = true

/-! ### Copy commands (R278 to R298) -/

/-- The seven data commands by their codes: registers, channel, ordering, record (R280). -/
def copyForm : Instr → Option (Nat × GReg × GReg × BitVec 2 × BitVec 2 × BitVec 4 × W32)
  | .cpCopy d a ch o sg i => some (0, d, a, ch, o, sg, i)
  | .cpGath d a ch o sg i => some (1, d, a, ch, o, sg, i)
  | .cpScat d a ch o sg i => some (2, d, a, ch, o, sg, i)
  | .cpFill d a ch o sg i => some (3, d, a, ch, o, sg, i)
  | .cpScale d a ch o sg i => some (4, d, a, ch, o, sg, i)
  | .cpColl d a ch o sg i => some (5, d, a, ch, o, sg, i)
  | .cpDisp d a ch o sg i => some (6, d, a, ch, o, sg, i)
  | _ => none

/-- A scale layout record is valid (R74, R75). -/
def scaleRecordGood (x : Nat) : Prop :=
  field x 4 0 ∈ [0x07, 0x09, 0x0A] ∧ field x 7 5 = 0 ∧ field x 31 11 = 0 ∧ field x 10 9 ≠ 3 ∧ 1 ≤ field x 47 32 ∧ 1 ≤ field x 63 48 ∧
  field x 79 64 % 2 = 0 ∧ 2 * field x 47 32 ≤ field x 79 64 ∧ (field x 8 8 = 1 ↔ field x 4 0 ≠ 0x0A) ∧
  (field x 8 8 = 1 → field x 47 32 ≤ field x 95 80 ∧ field x 127 96 % 64 = 0) ∧ (field x 8 8 = 0 → field x 95 80 = 0 ∧ field x 127 96 = 0)

/-- The size of the scale image (R291). -/
def scaleImage (x : Nat) : Nat :=
  let n := field x 63 48 * field x 47 32
  if field x 8 8 = 1 then 64 + 64 * ((2 * n + 63) / 64) + n else 64 + 2 * n

/-- An address operand with a nonzero bit that must be 0 (R282). -/
def operandBad (a : Nat) : Prop := field a 59 48 ≠ 0

/-- What raises COPY_FAULT at the issue (R284 step 3, R282, R283, R290 to R294). -/
def CopyRefused (c : CopyCmd) : Prop :=
  let op (i : Nat) : Nat := (c.ops.getD i 0).toNat
  let r := c.record.getD 0
  let n (i : Nat) : Nat := match c.record with | none => if i = 0 then c.count else 1 | some r => field r (32 * i + 31) (32 * i)
  let size := if field r 367 363 = 3 then 2 else 4
  let chunk := field r 415 384 * size
  field (op 2) 63 44 ≠ 0 ∨ field (op 3) 62 32 ≠ 0 ∨ 5 < c.scope ∨ (2 ≤ c.ord ∧ c.wv = false) ∨ (c.cmd ≠ 3 ∧ operandBad (op 0)) ∨
  (c.cmd ≠ 4 ∧ operandBad (op 1)) ∨ 2 ^ 28 < c.count ∨
  match c.cmd with
  | 4 => c.count ≠ scaleImage r
  | 5 => field r 359 0 ≠ 0 ∨ 2 < field r 362 360 ∨ (field r 367 363 ≠ 0 ∧ field r 367 363 ≠ 3) ∨ field r 383 376 ≤ field r 375 368 ∨
      field r 383 376 < 2 ∨ 64 < field r 383 376 ∨ field r 415 384 = 0 ∨ 2 ^ 24 < field r 415 384 ∨ operandBad (field r 511 448) ∨
      c.count ≠ (if field r 362 360 = 0 then chunk else field r 383 376 * chunk)
  | 6 => field r 183 0 ≠ 0 ∨ field r 255 232 = 0 ∨ field r 231 216 = 0 ∨ (field r 199 184 + 1) % 4 ≠ 0 ∨ op 1 ≠ 0 ∨ c.count ≠ 0 ∨
      operandBad (field r 511 448) ∨ operandBad (field r 447 384) ∨ operandBad (field r 383 320)
  | k => c.count = 0 ∨ n 0 = 0 ∨ n 1 = 0 ∨ n 2 = 0 ∨ n 3 = 0 ∨ c.count ≠ n 0 * n 1 * n 2 * n 3 ∨
      (k = 3 ∧ (field r 191 128 ≠ 0 ∨ field r 255 192 ≠ 0 ∨ field r 319 256 ≠ 0)) ∨
      ((k = 1 ∨ k = 2) ∧ (n 2 ≠ 1 ∨ n 3 ≠ 1 ∨ field r 255 192 ≠ 0 ∨ field r 319 256 ≠ 0 ∨ field r 447 384 ≠ 0 ∨ field r 511 448 % 4 ≠ 0 ∨
        operandBad (field r 511 448)))

/-- `c` is the command that an issue at `s` makes (R281, R282, R284 to R286). -/
def IssuedCopy (s : State) (t : Team) (cmd : Nat) (a : GReg) (ch ord : BitVec 2) (record : Option Nat) (c : CopyCmd) : Prop :=
  let ctl := (t.reg (a + 2)).toNat
  let wp := (t.reg (a + 3)).toNat
  c.bay = t.bay ∧ c.ch = ch.toNat ∧ c.team = t.key ∧ c.cmd = cmd ∧ c.ord = ord.toNat ∧ c.tag = t.pc.toNat ∧
  c.ops = [t.reg a, t.reg (a + 1), t.reg (a + 2), t.reg (a + 3)] ∧ c.record = record ∧ c.segs = t.segs ∧ c.count = field ctl 39 0 ∧
  c.scope = field ctl 42 40 ∧ c.ft = decide (field ctl 43 43 = 1) ∧ c.wv = decide (field wp 63 63 = 1) ∧ c.handle = field wp 31 0 ∧
  c.super = t.super ∧ c.vector = t.inVector ∧ c.complete = [] ∧ c.doneBytes = 0 ∧ c.replay = false ∧
  c.nsec = (if cmd = 6 then (field (record.getD 0) 255 232 + 63) / 64 else (field ctl 39 0 + 1023) / 1024) ∧
  c.pushed = (if ord.toNat % 2 = 1 then some (s.releaseOf t.place (field ctl 42 40)) else none)

/-- The machine with a command put at the tail of its channel under the next SEQ (R278, R279). -/
def queuedCopy (s : State) (c : CopyCmd) : State :=
  let h := s.channel c.bay c.ch
  { s.setChannel { h with nextSeq := (h.nextSeq + 1) % 2 ^ 32 } with cmds := s.cmds ++ [{ c with seq := h.nextSeq, state := .queued }] }

/-- The command descriptor (R278). -/
def copyDescriptor (s : State) (bay ch : Nat) : W64 := BitVec.ofNat 64 ((s.channel bay ch).nextSeq + ch * 2 ^ 32)

/-- Commands in a channel's queue. -/
def inChannel (s : State) (bay ch : Nat) : Nat := s.cmds.countP fun c => c.bay == bay && c.ch == ch && c.state != .held

/-- A command that a record names is held (R298). -/
def heldBy (s : State) (r : Nat) (c : CopyCmd) : Bool :=
  c.state == .held && c.bay == field r 159 152 && c.ch == field r 149 148 && c.seq == field r 351 320 &&
  (match s.team? c.team with | some u => u.ctx == field r 151 150 | none => false)

/-- The arrivals in transit after an arrival of a command that has a waypoint (R286, R287, R298). -/
def relaxedArrival (c : CopyCmd) (aspace n bytes : Nat) : Arrival :=
  { handle := c.handle, aspace := aspace, arrivals := n, bytes := bytes % 2 ^ 40, lost := 0, fault := false, command := some c.team, release := none }

/-! ### Folds (R210) -/

/-- The result of an operation over elements in their order; `none` is an invalid fadd. A fold of fmin or fmax begins at its first
element. -/
def foldExact (op mode : Nat) (sat : Bool) (xs : List W32) : Option Nat :=
  let vs := xs.map fun x => unpackFp fp32 x.toNat
  let two (f : W32 → W32 → W32) (id : W32) : Option Nat := some (match xs with | [] => id.toNat | x :: rest => (rest.foldl f x).toNat)
  match op with
  | 0 => some ((xs.map BitVec.toNat).sum % 2 ^ 32)
  | 1 =>
    if xs = [] then some 0
    else match xs.find? fun x => isNaN fp32 x.toNat with
      | some x => some (quieted fp32 x.toNat)
      | none =>
        if FVal.inf false ∈ vs ∧ FVal.inf true ∈ vs then none
        else if FVal.inf false ∈ vs then some (infOf fp32 false)
        else if FVal.inf true ∈ vs then some (infOf fp32 true)
        else
          let zeroSign := if ∀ x ∈ xs, x.getLsbD 31 then true else if ∀ x ∈ xs, !x.getLsbD 31 then false else decide (mode = 3)
          some (roundDy fp32 mode sat zeroSign (vs.foldl (fun a v => a.add v.dy) { num := 0, exp := 0 }))
  | 2 => two (fun a b => if b.toInt < a.toInt then b else a) 0x7FFFFFFF
  | 3 => two (fun a b => if b.toNat < a.toNat then b else a) 0xFFFFFFFF
  | 4 => two (fun a b => if a.toInt < b.toInt then b else a) 0x80000000
  | 5 => two (fun a b => if a.toNat < b.toNat then b else a) 0
  | 6 => two (fun a b => BitVec.ofNat 32 (fMinMax fp32 true a.toNat b.toNat)) 0x7F800000
  | 7 => two (fun a b => BitVec.ofNat 32 (fMinMax fp32 false a.toNat b.toNat)) 0xFF800000
  | 8 => two (fun a b => a &&& b) 0xFFFFFFFF
  | 9 => two (fun a b => a ||| b) 0
  | _ => two (fun a b => a ^^^ b) 0

/-- The same with the origin NaN of an invalid sum. -/
def foldValue (op mode : Nat) (sat : Bool) (origin : Nat) (xs : List W32) : W32 :=
  BitVec.ofNat 32 ((foldExact op mode sat xs).getD origin)

/-! ### Lane words (R192 to R215) -/

/-- A word that writes one lane register in each repetition: the registers named, those read in repetition `r` (R193), the uniform registers
read, whether it works on pairs (R203), and the value of a lane from the width, the origin hash, E, and what was read. -/
structure LaneForm where
  w : SW
  fields : List VField
  regs : Nat → List Nat
  uniforms : List Nat
  pairs : Bool
  value : Nat → Nat → W64 → List (List W32) → List W32 → Nat → W32

/-- The uniform registers of operand b (R194, R203). -/
def baseRegs (w : SW) : List Nat := if w.bu then (if w.dbl then [w.ubase, w.ubase + 1] else [w.ubase]) else []

/-- Lane `i` of the n-th source. -/
def laneOf (xs : List (List W32)) (n i : Nat) : W32 := (xs.getD n []).getD i 0
/-- Lane `i` of operand b: under BU the uniform register, or the half of the pair of them. -/
def laneB (w : SW) (xs : List (List W32)) (us : List W32) (i : Nat) : W32 :=
  if w.bu then us.getD (if w.dbl then i % 2 else 0) 0 else laneOf xs 1 i
/-- Lane `i` of operand c, the last source. -/
def laneC (xs : List (List W32)) (i : Nat) : W32 := (xs.getLastD []).getD i 0

/-- A word of operands a, b and, under `third`, c. -/
def binaryForm (w : SW) (third pairs : Bool)
    (value : Nat → (Nat → W32) → (Nat → W32) → (Nat → W32) → Nat → W32) : LaneForm :=
  { w := w, pairs := pairs, uniforms := baseRegs w
    fields := [fieldD w, fieldA w] ++ (if w.bu then [] else [fieldB w]) ++ if w.useVc then [fieldC w] else []
    regs := fun r => [SW.aAt w r] ++ (if w.bu then [] else [SW.bAt w r]) ++ if third then [SW.cAt w r] else []
    value := fun _ h _ xs us i => value h (laneOf xs 0) (laneB w xs us) (if third then laneC xs else fun _ => 0) i }

/-- A word of operand a alone, on single lanes. -/
def unaryForm (w : SW) (value : Nat → (Nat → W32) → Nat → W32) : LaneForm :=
  { w := w, pairs := false, uniforms := [], fields := [fieldD w, fieldA w], regs := fun r => [SW.aAt w r]
    value := fun width _ _ xs _ i => value width (laneOf xs 0) i }

/-- A word of no lane operand. -/
def constForm (w : SW) (ys : List Nat) (value : List W32 → W32) : LaneForm :=
  { w := w, pairs := false, uniforms := ys, fields := [fieldD w], regs := fun _ => [], value := fun _ _ _ _ us _ => value us }

/-- An integer operation, exact on the operands read as U says, then taken modulo 2^32 or clamped (R196). -/
def integerForm (w : SW) (third : Bool) (f : Int → Int → Int → Int) : LaneForm :=
  let v (x : W32) : Int := if w.unsigned then x.toNat else x.toInt
  binaryForm w third false fun _ a b c i =>
    let x := f (v (a i)) (v (b i)) (v (c i))
    BitVec.ofInt 32 (if w.sat then (if w.unsigned then max 0 (min x (2 ^ 32 - 1)) else max (-(2 ^ 31)) (min x (2 ^ 31 - 1))) else x)

def bitwiseForm (w : SW) (f : W32 → W32 → W32) : LaneForm := binaryForm w false false fun _ a b _ i => f (a i) (b i)

/-- An operation of R199 or R201 in f32, or under D in f64 on pairs. -/
def floatForm (w : SW) (third : Bool) (f : Fp → Nat → Nat → Nat → Nat → Nat) : LaneForm :=
  binaryForm w third w.dbl fun h a b c i =>
    if w.dbl then
      let j := i / 2 * 2
      let pair (x : Nat → W32) : Nat := (x j).toNat + (x (j + 1)).toNat * 2 ^ 32
      BitVec.ofNat 32 (f fp64 (originNaN64 false j h) (pair a) (pair b) (pair c) / 2 ^ (32 * (i % 2)))
    else BitVec.ofNat 32 (f fp32 (originNaN32 i h) (a i).toNat (b i).toNat (c i).toNat)

/-- The same of one operand, in f32 alone (R201). -/
def floatUnary (w : SW) (f : Nat → Nat → Nat) : LaneForm :=
  { w := w, pairs := false, uniforms := [], fields := [fieldD w, fieldA w], regs := fun r => [SW.aAt w r]
    value := fun _ h _ xs _ i => BitVec.ofNat 32 (f (originNaN32 i h) (laneOf xs 0 i).toNat) }

/-- R214 -/
def keyValue (w : SW) (a b : W32) : W32 :=
  let n := field w.imm.toNat 4 0
  let k : W32 := match field w.imm.toNat 6 5 with
    | 0 => if a.getLsbD 31 then ~~~a else a ^^^ 0x80000000
    | 1 => a ^^^ 0x80000000
    | _ => a
  let low : W32 := BitVec.ofNat 32 (2 ^ n - 1)
  if n = 0 then k else (k &&& ~~~low) ||| ((if w.imm.getLsbD 7 then ~~~b else b) &&& low)

/-- Bits of an element of `vpack` and `vunpk` (R206). -/
def packWidth (w : SW) : Nat := 16 / 2 ^ field w.b.toNat 1 0

/-- The words that write one lane register a repetition. -/
def laneForm : Instr → Option LaneForm
  | .vadd w => some (integerForm w false fun a b _ => a + b)
  | .vsub w => some (integerForm w false fun a b _ => a - b)
  | .vmul w => some (integerForm w false fun a b _ => a * b)
  | .vmulh w => some (integerForm w false fun a b _ => a * b / 2 ^ 32)
  | .vmad w => some (integerForm w true fun a b c => a * b + c)
  | .vand w => some (bitwiseForm w fun a b => a &&& b)
  | .vor w => some (bitwiseForm w fun a b => a ||| b)
  | .vxor w => some (bitwiseForm w fun a b => a ^^^ b)
  | .vshl w => some (bitwiseForm w fun a b => BitVec.ofNat 32 (a.toNat * 2 ^ (b.toNat % 32)))
  | .vshr w => some (bitwiseForm w fun a b => BitVec.ofNat 32 (a.toNat / 2 ^ (b.toNat % 32)))
  | .vsha w => some (bitwiseForm w fun a b => BitVec.ofInt 32 (a.toInt / 2 ^ (b.toNat % 32)))
  | .vmin w => some (integerForm w false fun a b _ => min a b)
  | .vmax w => some (integerForm w false fun a b _ => max a b)
  | .vsel w => if w.ms then none else some (binaryForm w true false fun _ a b c i => if c i = 0 then b i else a i)
  | .vmov w => some (unaryForm w fun _ a i => a i)
  | .vmovI w => some (constForm w [] fun _ => BitVec.ofInt 32 w.imm.toInt)
  | .vmovH w => some (constForm w [] fun _ => BitVec.ofNat 32 (w.imm.toNat * 2 ^ 16))
  | .vmovL w => some (unaryForm w fun _ a i => BitVec.ofNat 32 ((a i).toNat / 2 ^ 16 * 2 ^ 16 + w.imm.toNat))
  | .vbcast w => some (unaryForm w fun _ a _ => a w.b.toNat)
  | .vbcastY w => some (constForm w [w.b.toNat - 64] fun us => us.getD 0 0)
  | .vshuf w => some { w := w, pairs := false, uniforms := [], fields := [fieldD w, fieldA w, fieldB w]
                       regs := fun r => [SW.aAt w r, SW.bAt w r]
                       value := fun _ _ _ xs _ i => laneOf xs 0 (laneOf xs 1 i).toNat }
  | .vshufXor w => some (unaryForm w fun _ a i => a (Nat.xor i (field w.imm.toNat 5 0)))
  | .vshufRot w => some (unaryForm w fun width a i => a (((i : Int) - (field w.imm.toNat 5 0 : Int)) % (width : Int)).toNat)
  | .vfadd w => some (floatForm w false fun f o a b _ => fAdd f w.rnd.toNat w.sat o a b)
  | .vfsub w => some (floatForm w false fun f o a b _ => fSub f w.rnd.toNat w.sat o a b)
  | .vfmul w => some (floatForm w false fun f o a b _ => fMul f w.rnd.toNat w.sat o a b)
  | .vfma w => some (floatForm w true fun f o a b c => fFma f w.rnd.toNat w.sat false false o a b c)
  | .vfmin w => some (floatForm w false fun f _ a b _ => fMinMax f true a b)
  | .vfmax w => some (floatForm w false fun f _ a b _ => fMinMax f false a b)
  | .vfrcp w => if w.dbl || w.useVc then none else some (floatUnary w fun _ a => fRcp fp32 w.rnd.toNat w.sat a)
  | .vfrsq w => if w.dbl || w.useVc then none else some (floatUnary w fun o a => fRsq fp32 w.rnd.toNat w.sat o a)
  | .vfexp2 w => if w.dbl || w.useVc then none else some (floatUnary w fun _ a => fExp2 fp32 w.rnd.toNat w.sat a)
  | .vflog2 w => if w.dbl || w.useVc then none else some (floatUnary w fun o a => fLog2 fp32 w.rnd.toNat w.sat o a)
  | .vpack w =>
    let n := packWidth w
    some { w := w, pairs := false, uniforms := [], fields := [fieldD w, { fieldA w with span := 32 / n }]
           regs := fun r => (List.range (32 / n)).map fun j => SW.aAt w r + j
           value := fun _ _ _ xs _ i => BitVec.ofNat 32 (((List.range (32 / n)).map fun j => (laneOf xs j i).toNat % 2 ^ n * 2 ^ (n * j)).sum) }
  | .vkey w =>
    let one := decide (field w.imm.toNat 4 0 = 0)
    some { w := w, pairs := false, uniforms := [], fields := [fieldD w, fieldA w] ++ if one then [] else [fieldB w]
           regs := fun r => SW.aAt w r :: if one then [] else [SW.bAt w r]
           value := fun _ _ _ xs _ i => keyValue w (laneOf xs 0 i) (laneOf xs 1 i) }
  | .vscan w => some { w := w, pairs := false, uniforms := [], fields := [fieldD w, fieldA w], regs := fun r => [SW.aAt w r]
                       value := fun width h E xs _ i =>
                         let ks := (List.range width).filter fun k => E.getLsbD k && (decide (k < i) || (k == i && !w.b.getLsbD 4))
                         if i < width ∧ E.getLsbD i then
                           foldValue (field w.b.toNat 3 0) w.rnd.toNat w.sat (originNaN32 i h) (ks.map (laneOf xs 0))
                         else 0 }
  | _ => none

/-- A lane mask of E, or of the pairs that lie whole in it (R203). -/
def EffectMask (E : W64) (pairs : Bool) (m : W64) : Prop :=
  if pairs then ∀ i, m.getLsbD i = (decide (i < 64) && E.getLsbD (i / 2 * 2) && E.getLsbD (i / 2 * 2 + 1)) else m = E

/-- A repetition may begin: the word has begun, is not yet issued, and where it pops lq no miss split is due (R177). -/
def RepetitionReady (s : State) (l : Ln) (fields : List VField) (s0 : State) : Prop :=
  let pops := (match l.who with | .c _ => true | _ => false) && fields.any fun f => f.reg == 112
  l.e.issued = false ∧ l.e.latch.isSome = true ∧ ((pops = false ∧ s0 = s) ∨ (pops = true ∧ l.missSplit s = .ok (false, s0)))

/-- Uniform registers read one after another. -/
def readUniforms (l : Ln) : List Nat → M (List W32)
  | [] => pure []
  | n :: rest => do
    let x ← l.uniform n
    let xs ← readUniforms l rest
    pure (x :: xs)

/-- The engine past a word of `len` bytes; under a service entry the count of words passed stands (R173, R368). -/
def passedBy (s : State) (l : Ln) (len : Nat) : State :=
  s.mapGroup l.t.key l.g.num fun g => g.stirred.mapEng l.who fun e =>
    { e with off := e.off + len, passed := if l.entry.view.service then e.passed else e.passed + 1, rep := 0, latch := none
             issued := false, arrived := false, waitFor := none, exempt := false, granted := none }

/-- The machine after a repetition's effect: the next repetition is due, or the word waits to make its pushes, or is passed. -/
def afterRep (s : State) (l : Ln) (w : SW) : State :=
  let s1 := s.mapGroup l.t.key l.g.num Group.stirred
  if l.e.rep + 1 < w.count then s1.mapGroup l.t.key l.g.num fun g => g.mapEng l.who fun e => { e with rep := e.rep + 1, waitFor := none }
  else if pushCounters l.who w = [] then (passedBy s1 l (swBytes w)).stepDone l.t.key (advBit l.who)
  else s1.mapGroup l.t.key l.g.num fun g => g.mapEng l.who fun e => { e with issued := true, waitFor := none }

/-- R197 and R202: the relation that a condition code names; `un` is unordered. -/
def relationHolds (cc : Nat) (un : Bool) (a b : Int) : Bool :=
  match cc with
  | 0 => !un && decide (a = b)
  | 1 => un || decide (a ≠ b)
  | 2 => !un && decide (a < b)
  | 3 => !un && decide (a ≤ b)
  | 4 => !un && decide (b < a)
  | 5 => !un && decide (b ≤ a)
  | 6 => un
  | _ => !un

/-- `vicmp` and `vfcmp`: the word, whether it works on pairs, and the bit of a lane. -/
def compareForm : Instr → Option (SW × Bool × ((Nat → W32) → (Nat → W32) → Nat → Bool))
  | .vicmp w => if 10 ≤ field w.vd.toNat 6 3 then none else some (w, false, fun a b i =>
      let cc := field w.vd.toNat 6 3
      if cc < 6 then relationHolds cc false (a i).toInt (b i).toInt else relationHolds (cc - 4) false (a i).toNat (b i).toNat)
  | .vfcmp w => some (w, w.dbl, fun a b i =>
      let at_ (x : Nat → W32) : W64 := if w.dbl then (x (i / 2 * 2 + 1)) ++ (x (i / 2 * 2)) else (x i).zeroExtend 64
      relationHolds (field w.vd.toNat 6 3) (fpNan w.dbl (at_ a) || fpNan w.dbl (at_ b)) (fpOrder w.dbl (at_ a)) (fpOrder w.dbl (at_ b)))
  | _ => none

/-- A mask register written in lanes given. -/
def putMask (s : State) (l : Ln) (k : Nat) (lanes : List Nat) (bit : Nat → Bool) : State :=
  s.mapGroup l.t.key l.g.num fun g => g.writeReg l.who (regM k) (lanes.map fun i => (i, if bit i then 1 else 0))

/-- y0 to y3 of the engine, or y4 to y7 of the group, written. -/
def putUniform (s : State) (l : Ln) (n : Nat) (v : W32) : State :=
  s.mapGroup l.t.key l.g.num fun g => if n < 4 then g.mapEng l.who fun e => { e with y := e.y.set n v } else g.writeReg l.who (regY n) [(0, v)]

/-- The lanes of a mask. -/
def lanesIn (l : Ln) (m : W64) : List Nat := (List.range l.width).filter m.getLsbD

/-- R215 -/
def mopBit (op : Nat) (E a b : W64) (y : W32) (width i : Nat) : Bool :=
  match op with
  | 0 => a.getLsbD i
  | 1 => !a.getLsbD i
  | 2 => a.getLsbD i && b.getLsbD i
  | 3 => a.getLsbD i || b.getLsbD i
  | 4 => a.getLsbD i != b.getLsbD i
  | 5 => a.getLsbD i && !b.getLsbD i
  | 6 => decide (i < y.toNat)
  | _ => a.getLsbD i && E.getLsbD i && decide (i < width) && (List.range i).all fun j => !(a.getLsbD j && E.getLsbD j)

/-- A partial fold that stands for the elements given (R211). -/
def Carries (op : Nat) (f : Option Fold) (xs : List W32) : Prop :=
  let vs := xs.map fun x => unpackFp fp32 x.toNat
  match f with
  | none => xs = []
  | some f => xs ≠ [] ∧ f.add = decide (op = 1) ∧
    if op = 1 then
      f.sum.nan = (xs.find? fun x => isNaN fp32 x.toNat).map (fun x => quieted fp32 x.toNat) ∧
      f.sum.posInf = decide (FVal.inf false ∈ vs) ∧ f.sum.negInf = decide (FVal.inf true ∈ vs) ∧
      f.sum.sum = vs.foldl (fun a v => match v with | .fin _ _ _ => a.add v.dy | _ => a) { num := 0, exp := 0 } ∧
      f.sum.sawNeg = (vs.any fun v => match v with | .fin n _ _ => n | _ => false) ∧
      f.sum.sawPos = (vs.any fun v => match v with | .fin n _ _ => !n | _ => false)
    else foldExact op 0 false xs = some f.run

/-- R205: source and destination of a conversion, its rounding code. -/
def conversionForm : Instr → Option (SW × Nat × Nat × Nat)
  | .vcvt w =>
    let x := [(0x00, 0x0B), (0x00, 0x0E), (0x0B, 0x00), (0x0E, 0x00), (0x00, 0x02), (0x02, 0x00), (0x00, 0x03), (0x03, 0x00), (0x00, 0x04),
      (0x04, 0x00), (0x00, 0x05), (0x05, 0x00)].getD w.b.toNat (0x05, 0x00)
    some (w, x.1, x.2, 0)
  | .vcvtLong w => some (w, field w.imm.toNat 4 0, field w.imm.toNat 9 5, field w.imm.toNat 12 10)
  | _ => none

/-- R204: the code that lane `i` converts, and the result with the origin it offers; f64 lies on pairs. -/
def conversionOf (src dst mode : Nat) (sat : Bool) (a : Nat → W32) (i : Nat) : Nat × Option NanOffer :=
  convertFmt src dst mode sat (if src = 1 then (a i).toNat + (a (i + 1)).toNat * 2 ^ 32 else (a i).toNat)

/-- R204: the value of lane `i`. -/
def convertedLane (src dst mode : Nat) (sat : Bool) (a : Nat → W32) (i : Nat) : W32 :=
  if src = 1 ∨ dst = 1 then BitVec.ofNat 32 ((conversionOf src dst mode sat a (i / 2 * 2)).1 / 2 ^ (32 * (i % 2)))
  else BitVec.ofNat 32 (conversionOf src dst mode sat a i).1

/-- R204, R86: the origins offered, lower lanes first. -/
def originsOffered (src dst mode : Nat) (sat : Bool) (a : Nat → W32) (lanes : List Nat) : List NanOffer :=
  lanes.filterMap fun i => if (src = 1 ∨ dst = 1) ∧ i % 2 = 1 then none else (conversionOf src dst mode sat a i).2


/-! ### Strand words of repetitions -/

/-- The data words: store, gather form, `l.ldg` (R228, R229). -/
def dataForm : Instr → Option (SW × Bool × Bool × Bool)
  | .lLd w => some (w, false, false, false)
  | .lLdg w => some (w, false, false, true)
  | .lGath w => some (w, false, true, false)
  | .sSt w => some (w, true, false, false)
  | .sStg w => some (w, true, false, false)
  | .sScat w => some (w, true, true, false)
  | _ => none

/-- The ring words of L and S (R243). -/
def ringForm : Instr → Option SW
  | .lRgWfill w => some w
  | .lRgRelease w => some w
  | .lRgStat w => some w
  | .sRgClaim w => some w
  | .sRgCommit w => some w
  | .sRgRelease w => some w
  | .sRgEos w => some w
  | .sRgAbort w => some w
  | .sRgStat w => some w
  | _ => none

/-- The words that run by repetitions: their register fields (R186, R193, R226), and their uniform base code, 8 for none (R191). -/
def repForm (i : Instr) : Option (SW × List VField × Nat) :=
  match laneForm i, compareForm i, conversionForm i, dataForm i, ringForm i with
  | some f, _, _, _, _ => some (f.w, f.fields, 8)
  | _, some (w, _, _), _, _, _ => some (w, [fieldA w] ++ (if w.bu then [] else [fieldB w]) ++ (if w.useVc then [fieldC w] else []), 8)
  | _, _, some (w, _), _, _ => some (w, [fieldD w, fieldA w], 8)
  | _, _, _, some (w, _, gather, _), _ =>
    some (w, [{ reg := w.vd.toNat, adv := 1, span := 1 }, { reg := w.va.toNat, adv := if gather then 1 else 0, span := 1 }], w.b.toNat / 8)
  | _, _, _, _, some w => some (w, [], 8)
  | _, _, _, _, _ => match i with
    | .vsel w => some (w, [fieldD w, fieldA w] ++ (if w.bu then [] else [fieldB w]) ++ (if w.useVc then [fieldC w] else []), 8)
    | .vballot w => some (w, [{ reg := w.va.toNat, adv := 0, span := 1 }], 8)
    | .mop w => some (w, [], 8)
    | .vred w => some (w, [fieldA w], 8)
    | .vunpk w => some (w, [{ fieldD w with span := 32 / packWidth w }, fieldA w], 8)
    | .lIcw w => some (w, [], w.b.toNat / 8)
    | .sIcw w => some (w, [], w.b.toNat / 8)
    | .cPsend w => some (w, [{ reg := w.va.toNat, adv := 0, span := 1 }], 8)
    | .mxGang w => some (w, [], 8)
    | _ => none

/-- The words of matrix operations, which begin as those of repetitions do. -/
def matrixWordOf : Instr → Option SW
  | .mxLdb w => some w
  | .mxMma w => some w
  | .mxMmas w => some w
  | .mxGmma w => some w
  | .mxZero w => some w
  | .mxLdacc w => some w
  | .mxStacc w => some w
  | .mxRstep w => some w
  | .mxRsave w => some w
  | .mxRload w => some w
  | _ => none

/-- Every word that latches: of repetitions, and of matrix operations. -/
def latchForm (i : Instr) : Option (SW × List VField × Nat) :=
  match matrixWordOf i with | some w => some (w, [], 8) | none => repForm i

/-- What the word's own operands must be besides: the lane exists, the formats convert (R204, R208). -/
def operandsLegal (l : Ln) (i : Instr) : Prop :=
  match i with
  | .vbcast w => w.b.toNat < l.width
  | .vcvt _ => True
  | .vcvtLong w =>
    let ok (dest : Bool) (c : Nat) : Prop := match fmtKind c with
      | .none => False | .ai _ => False | .h4 => False | .subst _ _ => dest = false | _ => True
    ok false (field w.imm.toNat 4 0) ∧ ok true (field w.imm.toNat 9 5)
  | _ => True

/-- Every general register that the fields reach in `n` repetitions lies in a mapped block (R186). -/
def FieldsMapped (l : Ln) (fields : List VField) (n : Nat) : Prop :=
  ∀ f ∈ fields, f.reg < 112 → ∀ r j, r < n → j < f.span → (l.g.mapAt l.entry.n).getLsbD ((f.reg + r * f.adv + j) / 16) = true

/-- A service entry may not use token bits, lq or sq (R368). -/
def ServiceAllows (l : Ln) (w : SW) (fields : List VField) : Prop :=
  l.entry.view.service = true → w.tok = 0 ∧ ∀ f ∈ fields, f.reg ≠ 112 ∧ f.reg ≠ 113

/-- A token counter of the engine's cq path changed. -/
def counterSet (s : State) (l : Ln) (c : Nat) (f : List Tok → List Tok) : State :=
  s.mapGroup l.t.key l.g.num fun g => g.mapPath l.root fun p => p.setCounter c (f (p.counter c))

/-- No miss split is open on the engine's cq path. -/
def Whole (l : Ln) : Prop := (l.g.siblings l.root).length ≤ 1


/-! ### Accesses of L and S (R217 to R233) -/

/-- U of R225; the null ticket makes no access (R226). -/
def baseOf (l : Ln) : Nat := match l.e.latch with | some { base := some b, .. } => b.toNat | _ => 0
def nullBase (l : Ln) (w : SW) : Prop := w.b.toNat / 8 < 8 ∧ baseOf l = 0xFFFFFFFF

/-- R225, the offset of lane `i` from its address element. -/
def offsetAt (l : Ln) (w : SW) (gather : Bool) (a : W32) : Int :=
  let n : Int := laneBytes w.fmtNo
  if gather then (baseOf l : Int) + w.imm.toInt + a.toInt * n
  else (baseOf l : Int) + a.toInt + w.imm.toInt + (l.e.rep : Int) * w.step.toInt * (l.width : Int) * n

/-- The lanes' addresses, checked one after another in lane order (R227). -/
def lanesAddressed (l : Ln) (w : SW) (store gather : Bool) (addr : Nat → W32) : List Nat → M (List (Nat × Located))
  | [] => pure []
  | i :: rest => do
    let x ← laneAddress l w store (offsetAt l w gather (addr i))
    let xs ← lanesAddressed l w store gather addr rest
    pure ((i, x) :: xs)

/-- The address and data registers of a repetition (R228, R229). -/
def addressReg (w : SW) (gather : Bool) (r : Nat) : Nat := if w.va.toNat < 112 ∧ gather then w.va.toNat + r else w.va.toNat
def dataReg (w : SW) (r : Nat) : Nat := if w.vd.toNat < 112 then w.vd.toNat + r else w.vd.toNat

/-- The operands of a repetition: address elements and, of a store, the data; v112 is the oldest sq slot for both. -/
def OperandsRead (s : State) (l : Ln) (w : SW) (store gather : Bool) (addr val : Nat → W32) (s3 : State) : Prop :=
  let pops := store = true ∧ (w.vd = 112 ∨ w.va = 112)
  ∃ slot s1 a s2 v, (¬pops ∧ slot = [] ∧ s1 = s ∨ pops ∧ l.peekSq s = .ok (slot, s1)) ∧
    (if w.va = 112 then a = slot ∧ s2 = s1 else l.vector (addressReg w gather l.e.rep) s1 = .ok (a, s2)) ∧
    (if store = false then v = [] ∧ s3 = s2 else if w.vd = 112 then v = slot ∧ s3 = s2 else l.vector (dataReg w l.e.rep) s2 = .ok (v, s3)) ∧
    addr = (a.getD · 0) ∧ val = (v.getD · 0)

/-- Neither a register nor a slot nor a counter holds the repetition back (R171, R232). -/
def MayIssue (s : State) (l : Ln) (w : SW) (store gather : Bool) (lanes : List Nat) : Prop :=
  (∀ a ∈ l.g.flight, a.done = false → a.eng = engKind l.who → a.path = l.g.slotOf l.who → a.dest ≠ some (.reg (addressReg w gather l.e.rep))) ∧
  (store = false → w.vd = 113 → roomFor l.g l.root l.g.lq = true) ∧ (lanes ≠ [] → s.pathCount l.t.key l.g (w.b.toNat % 8) < 63)

/-- The issued repetition (R229, R232). -/
def accessOf (s : State) (l : Ln) (w : SW) (store ldg : Bool) (val : Nat → W32) (vc : List Nat) (xs : List (Nat × Located)) : Access :=
  { done := false, eng := engKind l.who, path := l.g.slotOf l.who, word := l.e.passed, space := if xs = [] then 4 else w.b.toNat % 8, store := store, size := w.fmtNo
    ldg := ldg, dest := if store then none else if w.vd = 113 then some (.lq l.g.nextSlot) else some (.reg (dataReg w l.e.rep))
    lanes := xs.map fun x => { lane := x.1, loc := x.2.loc, addr := x.2.va.getD 0, value := val x.1 }
    known := (s.knowOf l.place.party).known, lifted := (s.knowOf l.place.party).lifted, vc := vc
    regions := if l.entry.view.mode then l.entry.view.regions else []
    pages := (xs.filterMap fun x => x.2.va.map fun v => (l.t.dct.aspace, v / 2 ^ 16, x.2.large)).eraseDups, die := dieOfBay l.g.bay
    origin := l.e
    popped := if store = true ∧ (w.vd = 112 ∨ w.va = 112) then l.g.sq.find? fun x => x.path == l.root else none }

/-- The queues after a repetition's issue: a store has popped its slot, a load to lq has its own, popped by whom the slot that it replaces was
popped (R182). -/
def slotsAfter (l : Ln) (w : SW) (store ldg : Bool) (lanes : List Nat) (g : Group) : Group :=
  if store then (if w.vd = 112 ∨ w.va = 112 then
      { g with sq := g.sq.filter fun y => !((l.g.sq.find? fun x => x.path == l.root).map (·.id) == some y.id) } else g)
  else if w.vd = 113 then
    let x := g.redone l.root
    { x.2 with nextSlot := g.nextSlot + 1, lq := g.lq ++ [{ id := g.nextSlot, path := l.root, elems := List.replicate l.width 0, ldg := ldg, done := x.1
                                                            pending := BitVec.ofNat 64 (lanes.map (2 ^ ·)).sum }] }
  else g

/-- The access is over in the lanes performed, with the writes `ids` made, which later releases cover (R167); its counter is lowered once
every earlier one of its path is performed (R232). -/
def performed (t : Team) (g : Group) (a : Access) (ids : List Nat) (rest : List LaneAccess) : Group :=
  let h := { g with flight := g.flight.set (g.flight.findIdx fun x => x == a) { a with lanes := rest, done := rest.isEmpty } }.notePast t a ids
  { h with flight := passEmpty [] (lowered [] h.flight) }


/-! ### Words of the engines other than their repetitions (R155, R167, R174, R244, R341) -/

/-- A wait of the engine. -/
def waits (s : State) (l : Ln) (k : WaitFor) : State := s.laneWait l.t.key l.g.num l.who k

/-- An access comes before the words of a path slot in strand order: it is of the slot or, where that is path B of an open cq split, of path A's
slot and from before the split (R302). -/
def ofStrand (l : Ln) (a : Access) (slot : Nat) : Prop :=
  a.path = slot ∨ ∃ x, l.g.split = some (x, slot) ∧ a.path = x ∧ ∀ e, l.t.entryAt a.origin.entry = some e → e.kind ≠ .splitA

/-- An access of the engine that comes earlier in strand order is in flight. -/
def OwnInFlight (l : Ln) : Prop := ∃ a ∈ l.g.flight, a.done = false ∧ a.eng = engKind l.who ∧ ofStrand l a (l.g.slotOf l.who)

/-- So is one of a matrix operation that the C engine anchors (R257), or one of its own; the service path anchors its own alone (R368). -/
def OwnPending (s : State) (l : Ln) : Prop :=
  OwnInFlight l ∨ engKind l.who = .c ∧
    ∃ m ∈ s.mqueue, m.team = l.t.key ∧ m.grp = l.g.num ∧ (m.path = 4 ↔ l.g.slotOf l.who = 4) ∧ m.counted = true

/-- The engine remembers that it has reached a meeting. -/
def arrivedAt (s : State) (l : Ln) : State := s.mapGroup l.t.key l.g.num fun g => g.mapEng l.who fun e => { e with arrived := true }

/-- The engine that goes on from `x.end`: of the paths of a miss split the lowest (R177). -/
def endsIn (l : Ln) : Eng := match l.who with | .c p => .c ((l.g.siblings (l.g.pathAt p).root).headD p) | x => x

/-- Every path of the engine's miss split stands at the word (R177). -/
def allAtEnd (l : Ln) : Prop :=
  match l.who with
  | .c p => ∀ q ∈ l.g.siblings (l.g.pathAt p).root, q = p ∨
      (((l.g.pathAt q).c.arrived = true ∨ l.t.phase = .stepping) ∧ (l.g.pathAt q).c.off = l.e.off)
  | _ => True

/-- L and S end a service entry once the group's accesses are performed (R368). -/
def settledEnd (l : Ln) : Prop :=
  (∀ p, l.who ≠ .c p) → l.entry.view.service = true → ∀ a ∈ l.g.flight, a.done = true

/-- The position of an engine is earlier than another's in strand order. -/
def strandBefore (x y : Engine) : Prop :=
  x.entry < y.entry ∨ (x.entry = y.entry ∧ (x.trip < y.trip ∨ (x.trip = y.trip ∧ x.off < y.off)))

/-- The engine passes a word that takes no effect: a word of the kind passed stands, also in a single step (R406). -/
def passedOnly (s : State) (l : Ln) (len : Nat) : State := (passedBy s l len).mapTeam l.t.key fun t => { t with stepBase := none }

/-- The miss splits of the engine's cq path closed. -/
def closedEnd (s : State) (l : Ln) : State :=
  match l.who with
  | .c p => s.closeMiss l.t.key l.g.num (l.g.pathAt p).root (l.entry.m0 l.width l.e.trip)
  | _ => s

/-- The machine with the engine past `x.end`, its miss splits closed, and what the engines that have reached the same `x.end` know of each other
(log 99). -/
def pastEnd (s : State) (l : Ln) (w : SW) : State :=
  let met : M Unit := do
    let g ← l.group
    meetEnd (lnOf l.t g (endsIn l) l.entry) (l.g.slotOf (endsIn l))
  match met (closedEnd s l) with
  | .ok (_, u) => passedBy u { l with who := endsIn l } (swBytes w)
  | .error _ => s

/-- The C engine has caught up with nothing before L or S has (R167): they have passed the path's earlier words. -/
def earlierPassed (l : Ln) : Prop :=
  ∀ x : Engine, (x = l.g.l ∨ x = l.g.s) → l.e.entry < x.entry ∨ (x.entry = l.e.entry ∧ x.running = true ∧
    (l.e.trip < x.trip ∨ (x.trip = l.e.trip ∧ l.e.off ≤ x.off)))

/-- The group's C engine named by a set of lanes: one bit a lane. -/
def laneBits (lanes : List Nat) : W64 := BitVec.ofNat 64 (lanes.map (2 ^ ·)).sum

/-- The engine that an X waypoint word names (R340). -/
def namesEngine (l : Ln) (w : SW) : Prop := field w.b.toNat 1 0 = (match l.who with | .l => 0 | .c _ => 1 | .s => 2)


/-! ### Matrix words and operations (R245 to R276) -/

/-- The matrix words but `mx.gang` (R254). -/
def matrixForm : Instr → Option (MatrixKind × SW)
  | .mxLdb w => some (.ldb, w)
  | .mxMma w => some (.mma, w)
  | .mxMmas w => some (.mmas, w)
  | .mxGmma w => some (.gmma, w)
  | .mxZero w => some (.zero, w)
  | .mxLdacc w => some (.ldacc, w)
  | .mxStacc w => some (.stacc, w)
  | .mxRstep w => some (.rstep, w)
  | .mxRsave w => some (.rsave, w)
  | .mxRload w => some (.rload, w)
  | _ => none

/-- Ganged words (R252), words that use the pinned B (R266), words that snapshot registers. -/
abbrev gangedKind (k : MatrixKind) : Prop := k = .ldb ∨ k = .mma ∨ k = .mmas ∨ k = .gmma
def pinnedUse (k : MatrixKind) (w : SW) : Prop := k = .rstep ∨ ((k = .mma ∨ k = .mmas ∨ k = .gmma) ∧ w.imm.getLsbD 1 = true)
abbrev productKind (k : MatrixKind) : Prop := k = .mma ∨ k = .mmas ∨ k = .gmma ∨ k = .rstep
abbrev imageKind (k : MatrixKind) : Prop := k = .rsave ∨ k = .rload
def takesRegisters (k : MatrixKind) (w : SW) : Prop := gangedKind k ∧ ¬pinnedUse k w

/-- The registers of a quarter of B (R253). -/
def quarterSize (l : Ln) (h : Shape) (f : Nat) : Nat :=
  let kb := packedBytes (fmtBits (fmtBF f)) h.grk
  (h.grn * kb + 16 * l.width - 1) / (16 * l.width)

/-- The tile is allotted, and B's registers are there (R246, R252); a shape that grants nothing sizes no registers. -/
def WordLegal (l : Ln) (k : MatrixKind) (w : SW) : Prop :=
  let h := l.mxShape w
  let f := (l.mxFmt w).toNat
  let n := 4 * quarterSize l h f
  (k = .ldb ∨ w.accNo < l.t.kernel.tiles) ∧
  (takesRegisters k w → h.valid = true → fmtBits (fmtBF f) ≠ 0 → n ≠ 0 →
    w.va.toNat + n ≤ 112 ∧ ∀ j, j < n → (l.g.mapAt l.entry.n).getLsbD ((w.va.toNat + j) / 16) = true)

/-- The shape is granted, on the lattice of the format, and that of the pinned B where it is used (R135, R139, R263, R266). -/
def ShapeLegal (s : State) (l : Ln) (k : MatrixKind) (w : SW) : Prop :=
  let h := l.mxShape w
  let f := (l.mxFmt w).toNat
  let bits := tileBits (fmtAF f)
  h.valid = true ∧ (bits = 0 ∨ h.grk * bits = 256 ∨ h.grk * bits = 512 ∨ h.grk * bits = 1024) ∧
  (productKind k → scaledFmt (fmtAF f) = true → fmtGSIZE f ≠ 3 → h.grk % groupSize f = 0) ∧
  (pinnedUse k w → ∃ b, s.pinnedShape l.g.bay l.t.key = some (h.grk, h.grn, b))

/-- The format is one that the word takes (R90, R248, R266, R268, R273). -/
def FormatLegal (s : State) (l : Ln) (k : MatrixKind) (w : SW) : Prop :=
  let f := (l.mxFmt w).toNat
  fmtEntryValid f = true ∧ ((fmtACCF f = 1 ∨ fmtCOMP f = true) → k ≠ .ldb → w.accNo % 2 = 0) ∧
  (pinnedUse k w → ∀ a b c, s.pinnedShape l.g.bay l.t.key = some (a, b, c) → c = fmtBF f) ∧
  (k = .mmas → 1 < fmtAF f) ∧ (k = .rstep → fmtACCF f = 0 ∧ fmtSCL f = false)

/-- The checks of a word's operands in memory, in the order of R256, and what they resolve. -/
def operandChecks (l : Ln) (k : MatrixKind) (w : SW) : M Operands :=
  let f := (l.mxFmt w).toNat
  let h := l.mxShape w
  let x := l.extents h
  match k with
  | .ldb => pure {}
  | .zero => pure {}
  | .rsave => l.imageOperands k w f x.1 x.2.1
  | .rload => l.imageOperands k w f x.1 x.2.1
  | .ldacc => l.regionOperands k w f x.1 x.2.1
  | .stacc => l.regionOperands k w f x.1 x.2.1
  | _ => l.productOperands k w f h.grk x.1 x.2.1 x.2.2

/-- A value that a read of yN may give the engine (R156, R190). -/
def mayReadY (l : Ln) (n : Nat) (v : W32) : Prop :=
  if n < 4 then v = l.e.y.getD n 0
  else v ∈ l.g.regOptions (regY n) 0 l.e.vc ∨ (l.g.regOptions (regY n) 0 l.e.vc = [] ∧ v = 0)

/-- Bytes of pad or lnd, all of which are there. -/
def InPart (s : State) (l : Ln) (w : SW) (x : Nat × Nat) : Prop :=
  x.2 = 0 ∨ (s.localLoc l.t l.g.bay (if w.imm.getLsbD 0 then 2 else 1) x.1 x.2).isSome = true

/-- No earlier matrix word of the engine still has to write (R257). -/
def NoOwnWrites (s : State) (l : Ln) : Prop := ∀ m ∈ s.mqueue, m.place.same l.place = true → m.kind ≠ .stacc ∧ m.kind ≠ .rsave

/-- The scale operand of a product lies in the scale part, and its record is the format's and has the rows (R247, R264, R273). -/
def ScaleGood (s : State) (l : Ln) (k : MatrixKind) (w : SW) (rows : List Nat) : Prop :=
  let f := (l.mxFmt w).toNat
  let h := l.mxShape w
  let x := l.extents h
  if k = .rstep then ∀ n v, mxSu w = some n → mayReadY l n v → v.toNat % 2 ^ 16 + 4 * x.2.1 ≤ 0x10000 ∧ v.toNat % 64 = 0
  else fmtSCL f = (mxSu w).isSome ∧ ∀ n v tick, mxSu w = some n → mayReadY l n v →
    let o := v.toNat % 2 ^ 16
    let g0 := v.toNat / 2 ^ 16
    let lay := (({ s with tick := tick } : State).scaleRead l.g.bay l.t.key l.e.imaged o 16).1
    o + 16 ≤ 0x10000 ∧ o % 64 = 0 ∧ scaleRecordValid lay = true ∧ recFmt lay = fmtAF f ∧ recGsize lay = fmtGSIZE f ∧ recZp lay = fmtZP f ∧
    (k = .gmma ∨ x.1 ≤ recRows lay) ∧ g0 + h.grk / groupSize f ≤ recGroups lay ∧
    ∀ a ∈ rows, a < recRows lay ∧ ∀ r ∈ scaleRanges lay o g0 ((x.2.2 + groupSize f - 1) / groupSize f) a, r.1 + r.2 ≤ 0x10000

/-- The rows and targets that a product takes are there, with their scales (R256, R267, R269). -/
def JobsGood (s : State) (l : Ln) (k : MatrixKind) (w : SW) (jobs : List (Nat × Nat)) : Prop :=
  let f := (l.mxFmt w).toNat
  let h := l.mxShape w
  let used := jobs.filter fun j => j.1 != 0xFFFF && j.2 != 0xFFFF
  (∀ j ∈ used, j.2 < 128 ∧ ∀ y, mayReadY l w.ubase y →
    ∀ r ∈ rowRanges k (fmtBits (fmtAF f)) h.grk (l.extents h).2.2 y.toNat j.1, InPart s l w r) ∧
  ScaleGood s l k w (used.map (·.1))

/-- The window of an image word (R275). -/
def imageWindow (v : Option W32) (me ne : Nat) : Nat × Nat × Nat × Nat :=
  match v with
  | some v => (v.toNat % 256, field v.toNat 15 8, field v.toNat 23 16 + 1, field v.toNat 31 24 + 1)
  | none => (0, 0, me, ne)

/-- The window lies in the image, the image in its space, and the format is one of an image (R275). -/
def ImageGood (s : State) (l : Ln) (k : MatrixKind) (w : SW) : Prop :=
  let f := (l.mxFmt w).toNat
  let x := l.extents (l.mxShape w)
  fmtEntryValid f = true ∧ (fmtCOMP f = true → w.accNo % 2 = 0) ∧ fmtACCF f = 0 ∧
  ∀ u y, (mxSu w = none ∧ u = none ∨ ∃ n v, mxSu w = some n ∧ mayReadY l n v ∧ u = some v) → mayReadY l w.ubase y →
    let win := imageWindow u x.1 x.2.1
    win.1 + x.1 ≤ win.2.2.1 ∧ win.2.1 + x.2.1 ≤ win.2.2.2 ∧ y.toNat % 64 = 0 ∧
    (∀ r ∈ imageRanges (fmtCOMP f) y.toNat win.1 win.2.1 win.2.2.2 x.1 x.2.1, InPart s l w r) ∧
    (k = .rload → NoOwnWrites s l ∧ ∀ tick bs s', l.mxBytes (w.imm.getLsbD 0) y.toNat 64 { s with tick := tick } = .ok (bs, s') →
      let hd := leNat bs
      field hd 511 128 = 0 ∧ field hd 47 9 = 0 ∧ field hd 7 5 = 0 ∧ field hd 4 0 = 0 ∧ (field hd 8 8 = 1 ↔ fmtCOMP f = true) ∧
      field hd 55 48 + 1 = win.2.2.1 ∧ field hd 63 56 + 1 = win.2.2.2)

/-- What a matrix word names in memory is there, aligned and well-formed (R256, R264, R269, R271, R273, R275). -/
def OperandsGood (s : State) (l : Ln) (k : MatrixKind) (w : SW) : Prop :=
  let f := (l.mxFmt w).toNat
  let x := l.extents (l.mxShape w)
  let region (e : Nat) : Prop :=
    let stride := if field w.imm.toNat 15 2 = 0 then (x.2.1 * e + 3) / 4 * 4 else 4 * field w.imm.toNat 15 2
    ∀ y, mayReadY l w.ubase y → y.toNat % e = 0 ∧ ∀ r, r < x.1 → InPart s l w (y.toNat + r * stride, x.2.1 * e)
  match k with
  | .ldb => True
  | .zero => True
  | .ldacc => region (if fmtACCF f = 1 then 8 else 4)
  | .stacc => region (fmtBits (fmtOUTF f) / 8)
  | .rsave => ImageGood s l k w
  | .rload => ImageGood s l k w
  | .gmma =>
    (∀ y, mayReadY l w.ubase y → y.toNat % 16 = 0) ∧ NoOwnWrites s l ∧
    ∀ yr yt, mayReadY l (field w.imm.toNat 8 6) yr → mayReadY l (field w.imm.toNat 11 9) yt →
      InPart s l w (yr.toNat, 2 * x.1) ∧ yr.toNat % 2 = 0 ∧ InPart s l w (yt.toNat, 2 * x.1) ∧ yt.toNat % 2 = 0 ∧
      ∀ tick rows s1 tos s2, l.mxList (w.imm.getLsbD 0) yr.toNat x.1 { s with tick := tick } = .ok (rows, s1) →
        l.mxList (w.imm.getLsbD 0) yt.toNat x.1 s1 = .ok (tos, s2) → JobsGood s l k w (rows.zip tos)
  | _ => (∀ y, mayReadY l w.ubase y → y.toNat % 16 = 0) ∧ JobsGood s l k w ((List.range x.1).map fun r => (r, r))

/-- The operation that a meeting of the word's own group queues (R252, R256 to R259). -/
def queuedOp (s s2 : State) (l : Ln) (k : MatrixKind) (w : SW) (o : Operands) (b : Option (List Nat)) : MatrixOp :=
  let h := l.mxShape w
  let f := l.mxFmt w
  let x := l.extents h
  let kn := s2.knowOf l.place.party
  { num := s2.nextMx, bay := l.g.bay, team := l.t.key, grp := l.g.num, path := l.g.slotOf l.who, place := l.place, kind := k
    word := l.e.passed, head := l.e.off, obj := l.entry.view.obj, tag := l.entry.tag, acc := w.accNo, fmt := f
    grk := h.grk, grn := h.grn, me := x.1, ne := x.2.1, ke := x.2.2, b := b, lnd := w.imm.getLsbD 0, offset := o.offset, stride := o.stride
    all := k == .zero && w.imm.getLsbD 0, counted := !(k == .ldb || k == .zero), jobs := o.jobs, su := o.su, scaleRec := o.scaleRec, g0 := o.g0
    row0 := o.row0, col0 := o.col0, imgRows := o.imgRows, imgCols := o.imgCols, sid := o.sid, steps := o.steps
    leases := o.ranges.map fun (r : Nat × Nat) => { loc := (s.localLoc l.t l.g.bay (if w.imm.getLsbD 0 then 2 else 1) r.1 r.2).getD 0, len := r.2 }
    begun := false, imaged := l.e.imaged, known := kn.known, lifted := kn.lifted
    toks := if pushCounters l.who w = [] then [] else
      [{ grp := l.g.num, path := l.g.slotOf l.who, counters := pushCounters l.who w, tok := { known := kn.known, lifted := kn.lifted, vc := l.e.vc } }] }

/-- The substituted formats' bits of sys.subst (R78). -/
def substOf (f : Nat) : W64 := if f = 0x10 then 1 else if f = 0x11 then 2 else if f = 0x12 then 4 else 0

/-- What a matrix word sets of sys.subst: of `mx.ldb` for B, of a product for A and B (R78). -/
def substSet (k : MatrixKind) (f : Nat) (old : W64) : W64 :=
  if k = .ldb then old ||| substOf (fmtBF f) else if productKind k then old ||| substOf (fmtAF f) ||| substOf (fmtBF f) else old

/-- The registers that hold B at a meeting, as they are read: of no word but a ganged one without pinned B (R253). -/
def BTaken (l : Ln) (k : MatrixKind) (w : SW) (ms : List Member) (s1 : State) (b : Option (List Nat)) (s2 : State) : Prop :=
  let h := l.mxShape w
  let f := (l.mxFmt w).toNat
  ¬takesRegisters k w ∧ b = none ∧ s2 = s1 ∨ takesRegisters k w ∧ ∃ qs, readQuarters ms l.width (quarterSize l h f) 4 s1 = .ok (qs, s2) ∧
    b = some (snapshotB qs (fmtBits (fmtBF f)) h.grk h.grn (l.extents h).2.2 (l.extents h).2.1)

/-- R252: the members of a gang agree with the anchor's word, the tile is allotted, and each member's registers of B are mapped where it runs. -/
def GangWord (l : Ln) (k : MatrixKind) (w : SW) (ms : List Member) : Prop :=
  let h := l.mxShape w
  let f := (l.mxFmt w).toNat
  (∀ m ∈ ms, m.g.gang = l.g.gang ∧ m.w.accNo = w.accNo ∧ m.w.shNo = w.shNo ∧ m.w.fmtNo = w.fmtNo ∧ m.w.imm = w.imm ∧ ∃ x, m.g.meet = some (k, x)) ∧
  (k = .ldb ∨ w.accNo < l.t.kernel.tiles) ∧
  (takesRegisters k w → h.valid = true → fmtBits (fmtBF f) ≠ 0 → ∀ m ∈ ms,
    let n := (List.range 4).countP (m.quarters / 2 ^ · % 2 == 1) * quarterSize l h f
    n = 0 ∨ (m.w.va.toNat + n ≤ 112 ∧ ∀ j, j < n → (m.g.mapAt (m.g.eng (.c m.path)).entry).getLsbD ((m.w.va.toNat + j) / 16) = true))

/-- An operation at its completion: its engine's earlier writes are before its accesses (R257). -/
def atCompletion (s : State) (m : MatrixOp) : MatrixOp :=
  { m with known := unionIds m.known (s.madeBy m.place), lifted := unionIds m.lifted (s.madeBy m.place) }

/-- The members of a gang value are legal for a group of the team (R250, R251). -/
def GangLegal (t : Team) (g : Group) (v : Nat) : Prop :=
  let n := field v 62 60
  let num (i : Nat) : Nat := field v (10 * i + 4) (10 * i)
  let mask (i : Nat) : Nat := field v (10 * i + 8) (10 * i + 5)
  (n = 0 ∧ v = 0) ∨ (2 ≤ n ∧ n ≤ 6 ∧ field v 63 63 = 0 ∧ (∀ i, i < n → field v (10 * i + 9) (10 * i + 9) = 0) ∧
    (∀ i, n ≤ i → i < 6 → field v (10 * i + 9) (10 * i) = 0) ∧ (∀ i j, i < n → j < n → num i = num j → i = j) ∧
    (∃ i, i < n ∧ num i = g.num) ∧ (∀ i, i < n → ∃ x, t.group? (num i) = some x) ∧
    (∀ q, q < 4 → ∃ i, i < n ∧ (mask i) / 2 ^ q % 2 = 1 ∧ ∀ j, j < n → (mask j) / 2 ^ q % 2 = 1 → j = i) ∧
    ∀ a, t.group? (num 0) = some a → ((List.range n).filter fun i => match t.group? (num i) with | some x => x.bay != a.bay | none => false).length ≤ 2)

/-- Where element (r, c) of an operation's region lies, with `e` bytes an element (R271). -/
def regionLoc (s : State) (t : Team) (m : MatrixOp) (e r c : Nat) : Option Nat :=
  s.localLoc t m.bay (if m.lnd then 2 else 1) (m.offset + r * m.stride + c * e) e

/-- Where element (r, c) of the window lies in an image (R274, R275). -/
def imageLoc (s : State) (t : Team) (m : MatrixOp) (e n r c : Nat) : Option Nat :=
  s.localLoc t m.bay (if m.lnd then 2 else 1) (m.offset + 64 + ((m.row0 + r) * m.imgCols + m.col0 + c) * e) n

/-- A tile's element holds a value that an operation gives: one word, or with its pair two (R248). -/
def HoldsElement (s : State) (m : MatrixOp) (r c : Nat) (v : List Nat) : Prop :=
  s.tileGet m.bay m.team m.acc r c = BitVec.ofNat 32 (v.headD 0) ∧
  (fmtACCF m.fmt.toNat = 1 → s.tileGet m.bay m.team (m.acc + 1) r c = BitVec.ofNat 32 (v.headD 0 / 2 ^ 32)) ∧
  (fmtACCF m.fmt.toNat ≠ 1 → fmtCOMP m.fmt.toNat = true → s.tileGet m.bay m.team (m.acc + 1) r c = BitVec.ofNat 32 (v.getD 1 0))

/-- The operation's own elements in a tile stay as they were. -/
def KeepsElement (s s' : State) (m : MatrixOp) (r c : Nat) : Prop :=
  ∀ a, (a = m.acc ∨ a = m.acc + 1) → s'.tileGet m.bay m.team a r c = s.tileGet m.bay m.team a r c

/-- The step count of the operation's tile. -/
def stepsOf (s : State) (m : MatrixOp) : Option W32 := (s.tile? m.bay m.team m.acc).map (·.steps)


/-! ### Events of the copy engines (R277, R286 to R289, R293, R296) -/

/-- The fault record of a command that ends with sectors missing (R288). -/
def copyRecord (c : CopyCmd) (t : Team) (slot : Nat) (bmerr : Bool) : RecordFields :=
  let low := (c.failed.map (·.1)).foldl min c.nsec
  let f := (c.failed.find? fun x => x.1 == low).getD (0, 0, 0)
  { RecordFields.zero with
    bmva := t.block + 0x10000 + slot * 0x8000, fva := f.2.2, tag := c.tag, seq := c.seq, doneb := c.doneBytes, fsec := low
    miss := c.failed.length, nsec := c.nsec, wph := c.handle, bay := c.bay, ctx := t.ctx, ch := c.ch, cmd := c.cmd, cause := f.2.1
    flags := (if c.ft then 1 else 0) + (if c.wv then 2 else 0) + 4 * (c.ord % 4) + 16 * (c.scope % 8) + (if bmerr then 128 else 0)
    src := (c.ops.getD 0 0).toNat, dst := (c.ops.getD 1 0).toNat }

/-- What a release of the command covers: its complete sectors, in every run, and what happens before them (R286). -/
def coveredBy (c : CopyCmd) : Release :=
  { place := c.place, scope := c.scope, known := unionIds c.known c.past.known, lifted := unionIds c.lifted c.past.lifted }

/-- The command's arrival, a release where its ordering says so (R286, R287, R297). -/
def arrivedFor (s : State) (c : CopyCmd) (aspace n bytes lost : Nat) (fault : Bool) : State :=
  if c.wv = false then s
  else
    let s := if c.ord < 2 then s else s.drain fun w => (coveredBy c).known.contains w.id
    { s with arrivals := s.arrivals ++ [{ handle := c.handle, aspace := aspace, arrivals := n, bytes := bytes % 2 ^ 40, lost := lost, fault := fault, command := some c.team
                                          release := if c.ord < 2 then none else some (coveredBy c) }] }

/-- The command that the channel would start: the first in its queue, unless its team is frozen and it is not one that the team's supervisor
pushed (R180, R277; log 60). -/
def nextCommand (s : State) (bay ch : Nat) : Option CopyCmd :=
  match s.cmds.filter fun c => c.bay == bay && c.ch == ch && c.state == .queued with
  | [] => none
  | c :: _ =>
    match s.team? c.team with
    | some t => if t.resident && (t.phase == .running || (t.phase == .vector && c.vector)) then some c else none
    | none => none

/-- No page that the command may meet still awaits its first touch (R366). -/
def NoFirstTouch (s : State) (t : Team) (c : CopyCmd) : Prop :=
  ∀ va large leaf, some (large, leaf) ∈ s.leavesFor (t.dct.roots.getD (dieOfBay c.bay) 0) t.dct.aspace c.bay false va → leafMode leaf ≠ 2

/-- The record of the command is posted: it is held, and leaves its channel; FT raises COPY_FAULT (R287, R289, R370). -/
def postedCopy (s : State) (t : Team) (c : CopyCmd) : State :=
  let r := copyRecord c t c.slot c.bmerr
  let s := (s.mapCmd c.bay c.ch c.seq fun c => { c with state := .held }).post c.place r
  (if c.ft then s.helmTrap c.team { plainCause 0x12 with fva := r.fva } else s).wakeCopies

/-- A sector that may be attempted now; of an all-reduce's first part, one that holds bytes of the rank's own chunk (R287, R293). -/
def sectorDue (c : CopyCmd) (i : Nat) : Prop :=
  let lo := 1024 * i
  let hi := min (1024 * (i + 1)) c.count
  c.coll = .go ∧ i < c.nsec ∧ i ∉ c.complete ∧ i ∉ c.tried ∧
  (c.cmd = 5 → c.collOp = 2 → c.replay = false → c.second = false → lo < (c.rank + 1) * c.chunk ∧ c.rank * c.chunk < hi ∧ i ∉ c.first.map (·.1))

/-- A location that a granule writes, or that a write of it which fails may reach all the same (R431). -/
def granWrites (g : Gran) (a : Nat) : Prop := ∃ d ∈ g.dsts ++ g.maybe, ∃ l, d.spot = .mem l ∧ l.loc ≤ a ∧ a < l.loc + d.len


/-- The causes with which a sector's granules fail: of a granule that cannot be read, or of its destinations. -/
def failedCauses (gs : List (Except Cause Gran)) : List Cause := gs.flatMap fun g => match g with | .error x => [x] | .ok g => g.fails

/-! ### Launches and teams (R373 to R390) -/

/-- A nest of which nothing is left to place: it has completed as soon as it has no team. -/
def nestEnds (s : State) (nid : Nat) : State :=
  s.mapNest nid fun m => { m with dispatched := true, started := true, total := 0, nextOrd := 0, finished := m.teams.isEmpty }

/-- A nest that ends for a failure, with its record of CMD 0xE (R370, R380). -/
def nestFails (s : State) (nid cause : Nat) : State :=
  (nestEnds s nid).post (sePlace s.lowestDie) { RecordFields.zero with seq := nid, cmd := 0xE, cause := cause }

/-- R385: the team has left its bay at a node boundary, and becomes ready as `r` says. -/
def LeftAtNode (s s' : State) (t : Team) (r : Ready) : Prop :=
  ∃ u, s'.team? t.key = some u ∧ u.resident = false ∧ u.ready = r ∧ u.preempt = false ∧ u.waitFor = none ∧ u.frozenClass = none ∧ u.groups = [] ∧
    u.pc = t.pc ∧ u.curObj = t.curObj ∧ u.tid = t.tid ∧ u.stackSlot = t.stackSlot ∧ u.block = t.block ∧ u.shapes = t.shapes ∧ u.fmts = t.fmts ∧
    u.segs = t.segs ∧ u.rq = t.rq ∧ u.loop = t.loop ∧ u.mmcfg = t.mmcfg ∧ u.nanorigin = t.nanorigin ∧ u.subst = t.subst ∧
    (∀ i, keptAtNode (match s.nest? t.nid with | some n => n.record.live | none => 0) i → u.g.getD i 0 = t.g.getD i 0) ∧
    (∀ i, ¬keptAtNode (match s.nest? t.nid with | some n => n.record.live | none => 0) i → u.g.getD i 0 = 0) ∧
    (∀ x ∈ s'.tiles, x.team ≠ t.key) ∧ (∀ x ∈ s'.slots, x.team ≠ t.key) ∧ (∀ r ∈ s'.rings, r.valid = true → r.team ≠ t.key) ∧
    (∀ x ∈ [t.pad, t.padPartner, t.lnd, t.lndPartner], x ≠ 0 → ∀ a ∈ s'.allots, a.tag ≠ x)

/-- What goes wrong with the full save of a team whose engines have been stopped (R372, R412), if anything does. -/
def saveFailure (s : State) (t : Team) : Option (Nat × Nat × Nat) :=
  ((s.stopEngines t.key).saveImage (((s.stopEngines t.key).team? t.key).getD t)).fail

/-- The group stands with its registers, its queues and its accesses in flight as they were. -/
def SameContents (g h : Group) : Prop :=
  h.num = g.num ∧ h.base = g.base ∧ h.rlog = g.rlog ∧ h.lq = g.lq ∧ h.sq = g.sq ∧ h.flight = g.flight ∧ h.blocks = g.blocks

/-- R148, R386: the team has left its bay by a full save; it keeps its registers, what its groups hold, and its class. -/
def LeftSaved (s s' : State) (t : Team) (r : Ready) : Prop :=
  ∃ u, s'.team? t.key = some u ∧ u.resident = false ∧ u.ready = r ∧ u.preempt = false ∧ u.frozenClass = some (s.teamClass t) ∧
    List.Forall₂ SameContents t.groups u.groups ∧ u.pc = t.pc ∧ u.g = t.g ∧ u.cq = t.cq ∧ u.rq = t.rq ∧ u.segs = t.segs ∧ u.shapes = t.shapes ∧ u.fmts = t.fmts ∧
    u.pad = t.pad ∧ u.lnd = t.lnd ∧ (∀ x ∈ s'.rings, x.valid = true → x.team ≠ t.key)

/-- R372, R412: the full save has failed; the team stays frozen on its bay until a release, and a DOUBLE record is added. -/
def StaysFrozen (s s' : State) (t : Team) : Prop :=
  ∃ u, s'.team? t.key = some u ∧ u.resident = t.resident ∧ u.phase = .stopped ∧ u.overdue = true ∧ u.pc = t.pc ∧ u.g = t.g ∧ List.Forall₂ SameContents t.groups u.groups ∧
    s'.posts.length = s.posts.length + 1


/-! ### The module (R426 to R439) -/

/-- R436: one entry at HLPROD mod 4,096, over the oldest; an end of life below 30 days raises vector 1. -/
def Logged (s s' : State) (e : HealthEntry) : Prop :=
  let i := s.mgmt.hlProd % 4096
  s'.mgmt.hlProd = (s.mgmt.hlProd + 1) % 2 ^ 32 ∧
  s'.mgmt.hlog.find? (fun x => x.1 == i) = some (i, BitVec.ofNat 128 (e.eold.toNat * 2 ^ 104 + e.conf.toNat * 2 ^ 96 + e.value.toNat * 2 ^ 64 +
    e.kind.toNat * 2 ^ 56 + e.site.toNat * 2 ^ 52 + e.unit.toNat * 2 ^ 40 + e.time.toNat)) ∧
  (∀ j, j ≠ i → s'.mgmt.hlog.find? (fun x => x.1 == j) = s.mgmt.hlog.find? (fun x => x.1 == j)) ∧
  s'.mgmt.msix = s.mgmt.msix ++ (if e.eold.toNat < 30 then [1] else [])

/-- An entry that the part makes of an event of its own, with no end of life foreseen (log 36). -/
def LoggedEvent (s s' : State) (kind site : Nat) : Prop :=
  ∃ e : HealthEntry, e.eold = 0xFFFFFF ∧ e.kind.toNat = kind ∧ e.site.toNat = site ∧ Logged s s' e

/-- The entry is a reading of a unit that R437 repairs: the stop of a bay in service, an HBM channel, a link's lane. -/
def RepairedUnit (s : State) (e : HealthEntry) : Prop :=
  (e.kind.toNat < 2 ∧ ∃ b ∈ s.bays, b.inService = true ∧ b.num / 48 = e.site.toNat ∧ b.stop = e.unit.toNat) ∨
  (e.kind = 3 ∧ e.unit.toNat < 8 * 32) ∨ (e.kind = 4 ∧ e.unit.toNat < 16 * 16 ∧ e.unit.toNat % 16 < 9)

/-- The entry is a reading of the unit that a crossing repairs: its KIND, SITE and UNIT name it (R436); `.none` where the reading's unit is
not one that is repaired. -/
def ReadingOf (s : State) (e : HealthEntry) : RepairUnit → Prop
  | .bay n => e.kind.toNat < 2 ∧ e.site.toNat = n / 48 ∧ ∃ b, s.bay? n = some b ∧ b.stop = e.unit.toNat
  | .quadrant n => e.kind.toNat < 2 ∧ e.site.toNat = n / 48 ∧ ∃ b, s.bay? n = some b ∧ b.stop = e.unit.toNat
  | .channel st ch => e.kind = 3 ∧ st < 8 ∧ ch < 32 ∧ e.unit.toNat = st * 32 + ch
  | .lane l n => e.kind = 4 ∧ l < 16 ∧ n < 9 ∧ e.unit.toNat = l * 16 + n
  | .failedTest _ => True
  | .uncorrectable st ch => st < 8 ∧ ch < 32
  | .none => ¬RepairedUnit s e

/-- The trigger is a reading that crosses its threshold (R436), not one of those that R437 adds. -/
def RepairUnit.isReading : RepairUnit → Prop
  | .failedTest _ => False
  | .uncorrectable _ _ => False
  | _ => True

/-- R18: no bay of the die other than `n` is in service and wants a spare. -/
def NoOtherWants (s : State) (n : Nat) : Prop :=
  ∀ m b, m ≠ n → m / 48 = n / 48 → s.bay? m = some b → b.inService = false ∨ b.spare ≠ none ∨ 4 ≤ b.quads

/-- The flit carries its sequence number and type, is of 256 bytes and has its CRC (R430). -/
def FlitOf (flit : List Byte) (seq type : Nat) : Prop :=
  flit.length = 256 ∧ leNat (flit.take 2) = seq ∧ flit.getD 2 0 = BitVec.ofNat 8 type ∧
    Config.crc64 (flit.take 248) = BitVec.ofNat 64 (leNat (flit.drop 248))

/-- R428: a command ends with its result from byte 0 of MBOXDATA on and its status in bytes 248 to 255; BUSY is cleared, and vector 2 raised. -/
def mboxEnds (s : State) (result : List Byte) (status : Nat) : State :=
  { s with mgmt := { s.mgmt with mboxData := result ++ (s.mgmt.mboxData.take 248).drop result.length ++ leBytes 8 status
                                 mboxCmd := s.mgmt.mboxCmd &&& 0x7FFFFFFFFFFFFFFF, msix := s.mgmt.msix ++ [2] } }

/-- MSTAT (R427). -/
def mstatOf (s : State) : Nat :=
  s.mgmt.state + s.mgmt.harbour % 256 * 2 ^ 8 + ((List.range 4).map fun d => if s.dieUp d then 2 ^ (16 + d) else 0).foldl (· + ·) 0

/-- HBM bytes that an access from outside reaches (R426, R435, R438): the module runs, the die is in service and the channel is not retired. -/
def Reachable (s : State) (pa : Nat) : Prop :=
  (s.mgmt.state = 1 ∨ s.mgmt.state = 3) ∧ pa < 2 ^ 39 ∧ s.dieUp (pa / 2 ^ 37) = true ∧
    ∀ h ∈ s.health, h.retired = true → ¬(h.stack = pa / 2 ^ 36 ∧ h.ch = pa / 2 ^ 31 % 32)

/-- Up to 64 bytes within one line. -/
def OneLine (loc : Nat) (data : List Byte) : Prop := data ≠ [] ∧ loc % 64 + data.length ≤ 64

/-- The bytes are the last written to their locations, and every other byte reads as before. -/
def Stored (s s' : State) (loc : Nat) (data : List Byte) : Prop :=
  (∀ i, i < data.length → s'.byteAt (loc + i) = data.getD i 0) ∧ State.SameOutside s s' loc data.length

/-- R139, R140, R17: the class of a number of good quadrants. -/
def quadClass (q : Nat) : Nat := if 4 ≤ q then 0 else if q = 3 then 1 else 2

/-- R19, R140: every team resident on the bay leaves it at its next node boundary. -/
def Leaving (s : State) (bay : Nat) : Prop := ∀ t ∈ s.teams, t.resident = true → bay ∈ t.bays → t.preempt = true

end Sys2Proof.Spec
end

