-- ==== Sys2Proof/Certificates/Slice0/Obligations.lean ====
section
/-! DEFINITION. The statements about the machine. -/

open Sys2Proof Sys2Proof.Machine Sys2Proof.Spec

/-- Reset: nothing is resident, memory lists nothing and is in canonical form, and every register of R427's table, the state and the mask of
dies of MSTAT among them, reads its reset value, 0. -/
def Obligations.ResetState : Prop :=
  State.reset.teams = [] ∧ State.reset.nests = [] ∧ State.reset.bays = [] ∧ State.reset.mem = [] ∧
  Memory.wf State.reset.mem = true ∧ State.reset.waypoints = [] ∧ State.reset.rings = [] ∧ State.reset.posts = [] ∧
  State.reset.mgmt.state = 0 ∧ State.reset.mgmt.harbour = 0 ∧ (∀ d, State.reset.dieUp d = false) ∧
  -- MSTAT, MBOXCMD, FQBASE, FQPROD, FQCONS, HLPROD and DCTBASE
  (∀ off ∈ [0, 8, 0x1000, 0x1008, 0x1010, 0x1018, 0x3000], State.reset.mgmtRead off = 0) ∧
  (∀ n, n < 32 → State.reset.mgmtRead (0x100 + 8 * n) = 0) ∧ -- MBOXDATA
  (∀ q, q < 64 → State.reset.mgmtRead (0x2000 + 8 * q) = 0) ∧ -- LQPRI
  (∀ c, c < 256 → State.reset.mgmtRead (0x4000 + 8 * c) = 0) ∧ -- RELDB
  -- SECFG, POOLPUSH and POOLCNT
  (∀ d off, d < 4 → off ∈ [0x8000, 0x8008, 0x8010] → State.reset.mgmtRead (off + 0x1000 * d) = 0) ∧
  (∀ n, n < 8192 → State.reset.mgmtRead (0x10000 + 8 * n) = 0) -- HLOG

/-- A step runs the instruction that its agent's text decodes to: the helm's word at the pc, an engine's strand word of its own tag at its offset, and an
event of the machine. Helm bytes that no instruction has run the word ILLEGAL; an engine passes a word of another engine's tag. -/
def Obligations.StepRunsTheDecodedWord : Prop :=
  (∀ (s : State) (rest : List Move) (t : Team) (bytes : List Byte) (s' : State),
     s.agenda = .helm t.bay t.ctx :: rest → s.mgmt.thermal = false → HelmReady { s with agenda := rest } t →
     HelmText t { s with agenda := rest, cur := some (.helm t.key) } bytes s' → t.watchWord t.curObj t.pc.toNat = none →
     (∀ i more, decodeHelm bytes = .ok (i, more) → step s = exec i s') ∧
     (∀ e, decodeHelm bytes = .error e → step s = exec .unassignedHelmWord s')) ∧
  (∀ (s : State) (rest : List Move) (t : Team) (g : Group) (who : Eng) (entry : CqEntry) (head : List Byte) (s2 : State),
     s.agenda = .engine t.key g.num who :: rest → s.mgmt.thermal = false → EngineReady { s with agenda := rest } t g who entry →
     (g.eng who).off + 6 ≤ s.strandLimit t.dctx entry.view →
     fetchText t g.bay entry.view (g.eng who).off 6 ({ s with agenda := rest : State }.asEngine t g who) = .ok (head, s2) →
     (leNat head % 4 ≠ ownTag who → leNat head % 4 ≠ 3 →
       step s = .next (s2.mapGroup t.key g.num fun g => { (g.stirred.mapEng who fun e =>
         { e.pass (strandBytes (leNat head)) with passed := if entry.view.service then e.passed else e.passed + 1 }) with
         passMarks := g.passMarks ++ passNote s2 t g who (leNat head) })) ∧
     (∀ bytes s3 i more, leNat head % 4 = ownTag who ∨ leNat head % 4 = 3 → t.strandWatch (g.eng who) entry = none →
       (strandBytes (leNat head) = 12 → (g.eng who).off + 12 ≤ s.strandLimit t.dctx entry.view) →
       fetchText t g.bay entry.view (g.eng who).off (strandBytes (leNat head)) ({ s with agenda := rest : State }.asEngine t g who) =
         .ok (bytes, s3) →
       decodeStrand bytes = .ok (i, more) → step s = exec i (s3.noteStep t g))) ∧
  (∀ (s : State) (rest : List Move) (i : Instr), s.agenda = .event i :: rest → isWord i = false →
     (s.mgmt.thermal = true → onBayClock i = false) → step s = exec i { s with agenda := rest, cur := none })

/-- Words written out from the encoding of the spec decode to the instructions that they stand for. -/
def Obligations.DecodedWords : Prop :=
  -- R108: addi zero, zero, 0 is 0x0000_0004
  decodeTableWord 32 0x00000004 = some (.addi 0 0 0) ∧
  -- HR, major 0x01, fn 0x01: sub g3, g2, g1
  decodeTableWord 32 (0x01 * 2 + 3 * 2 ^ 8 + 2 * 2 ^ 14 + 1 * 2 ^ 20 + 0x01 * 2 ^ 26) = some (.sub 3 2 1) ∧
  -- HI, major 0x12: b.lt g1, g2, −1
  decodeTableWord 32 (0x12 * 2 + 1 * 2 ^ 8 + 2 * 2 ^ 14 + 0xFFF * 2 ^ 20) = some (.bLt 1 2 (-1)) ∧
  -- HM, major 0x20, size code 3: ld.u64 g5, [g6 + 8 · 2]
  decodeTableWord 32 (0x20 * 2 + 5 * 2 ^ 8 + 6 * 2 ^ 14 + 3 * 2 ^ 20 + 2 * 2 ^ 23) = some (.ld 5 6 3 2) ∧
  -- L, major 0x01, fn8 0: li g1, −1
  decodeTableWord 64 (1 + 0x01 * 2 + 1 * 2 ^ 8 + 0xFFFFFFFF * 2 ^ 32) = some (.li 1 (-1)) ∧
  -- strand, tag C, opcode 0x00: vadd v1, v2, v3
  decodeTableWord 48 (1 + 1 * 2 ^ 27 + 2 * 2 ^ 34 + 3 * 2 ^ 41) = some (.vadd ⟨0, 0, 0, 0, 1, 2, 3, none⟩) ∧
  -- a helm major that no instruction has
  decodeTableWord 32 (0x7F * 2) = none

/-- Decoding the bytes that encode a well-formed helm instruction gives it back, with every operand as it was, and leaves the bytes
that follow. -/
def Obligations.HelmRoundTrip : Prop :=
  ∀ (i : Instr) (w : Nat) (more : List Byte), i.wellFormed = true → helmWord i = some w →
    decodeHelm (encode i ++ more) = .ok (i, more)

/-- The same of every well-formed strand instruction, short and long. -/
def Obligations.StrandRoundTrip : Prop :=
  ∀ (i : Instr) (w : Nat) (more : List Byte), i.wellFormed = true → strandWord i = some w →
    decodeStrand (encode i ++ more) = .ok (i, more)

/-- R105 and R108: each integer word writes its result, modulo 2^64, to its destination, and the helm goes to the next word. -/
def Obligations.IntegerWords : Prop :=
  ∀ (s : State) (t : Team) (i : Instr) (d : GReg) (v : W64), HelmTurn s t → t.mayWrite d = true →
    intValue t.reg i = some (d, v) → exec i s = .next (s.afterValue t 4 d v)

/-- R106: the fixed results of division by zero and of the signed overflow. -/
def Obligations.DivisionCorners : Prop :=
  ∀ (s : State) (t : Team) (d a b : GReg), HelmTurn s t → t.mayWrite d = true →
    (t.reg b = 0 →
      exec (.div d a b) s = .next (s.afterValue t 4 d 0xFFFFFFFFFFFFFFFF) ∧
      exec (.divu d a b) s = .next (s.afterValue t 4 d 0xFFFFFFFFFFFFFFFF) ∧
      exec (.rem d a b) s = .next (s.afterValue t 4 d (t.reg a)) ∧
      exec (.remu d a b) s = .next (s.afterValue t 4 d (t.reg a))) ∧
    (t.reg a = 0x8000000000000000 → t.reg b = 0xFFFFFFFFFFFFFFFF →
      exec (.div d a b) s = .next (s.afterValue t 4 d 0x8000000000000000) ∧
      exec (.rem d a b) s = .next (s.afterValue t 4 d 0))

/-- R105, R107, R115 and R116: clz, bext and bins, bit by bit, and the words that make constants and addresses. -/
def Obligations.BitFieldAndConstantWords : Prop :=
  (∀ (s : State) (t : Team) (d a b : GReg), HelmTurn s t → t.mayWrite d = true →
     let lo := (t.reg b).toNat % 64
     let w := (t.reg b).toNat / 64 % 64 + 1
     (exec (.clz d a) s = .next (s.afterValue t 4 d (BitVec.ofNat 64 ((List.range 64).countP fun i => decide ((t.reg a).toNat < 2 ^ i))))) ∧
     (∃ v : W64, exec (.bext d a b) s = .next (s.afterValue t 4 d v) ∧
       ∀ j, j < 64 → v.getLsbD j = (decide (j < w) && (t.reg a).getLsbD (lo + j))) ∧
     (∃ v : W64, exec (.bins d a b) s = .next (s.afterValue t 4 d v) ∧
       ∀ j, j < 64 → v.getLsbD j = if lo ≤ j ∧ j < lo + w then (t.reg a).getLsbD (j - lo) else (t.reg d).getLsbD j)) ∧
  (∀ (s : State) (t : Team) (d a : GReg) (seg : BitVec 4) (imm : W32), HelmTurn s t → t.mayWrite d = true →
     exec (.li d imm) s = .next (s.afterValue t 8 d (BitVec.ofInt 64 imm.toInt)) ∧
     exec (.liHi d imm) s = .next (s.afterValue t 8 d (BitVec.ofNat 64 (imm.toNat * 2 ^ 32 + (t.reg d).toNat % 2 ^ 32))) ∧
     exec (.lea d a seg imm) s =
       .next (s.afterValue t 8 d (BitVec.ofInt 64 ((t.seg seg.toNat).toNat % 2 ^ 57 + (t.reg a).toNat + imm.toInt))))

/-- R109, R110, R113 and R114: each word that computes or converts writes the rounded result of the exact one, NaNs and infinities
among its operands and results too, as the model's arithmetic gives them.
R79 to R81, R110, R113, R114, as rounding itself, apart from the functions that the meanings call: on finite operands each of these words
writes the code that the mode chooses among the points of the format's grid for the exact result, or the overflow result of R80; a
conversion to an integer the integer that the mode chooses, clamped. Between the formats of R67 a conversion rounds in the same way, under
the saturate bit too, which also decides what an infinity gives.
R111 and R112: minimum, maximum, comparisons and classes, by the order of the codes. -/
def Obligations.FloatingWords : Prop :=
  (∀ (s : State) (t : Team) (i : Instr) (len : Nat) (d : GReg) (v : W64), HelmTurn s t → t.mayWrite d = true →
     floatValue t.reg (fun p => helmOrigin p t) i = some (len, d, v) → exec i s = .next (s.afterValue t len d v)) ∧
  ((∀ (s : State) (t : Team) (i : Instr) (len : Nat) (d : GReg) (f : Fp) (mode : Nat) (x : ℝ) (neg : Bool), HelmTurn s t → t.mayWrite d = true →
     exactResult t.reg i len d f mode x neg → mode ≤ 4 →
     ∃ v : W64, exec i s = .next (s.afterValue t len d v) ∧ RoundsTo f mode false neg x v.toNat) ∧
   (∀ (s : State) (t : Team) (p : Bool) (rnd : BitVec 3) (d a : GReg), HelmTurn s t → t.mayWrite d = true → rnd.toNat ≤ 4 →
     CodeFinite (fpOf p) (fpCode p (t.reg a)) →
     (∃ v, exec (.fcvtLP p rnd d a) s = .next (s.afterValue t 4 d v) ∧ RoundsToInt true rnd.toNat (codeValue (fpOf p) (fpCode p (t.reg a))) v) ∧
     (∃ v, exec (.fcvtNP p rnd d a) s = .next (s.afterValue t 4 d v) ∧ RoundsToInt false rnd.toNat (codeValue (fpOf p) (fpCode p (t.reg a))) v)) ∧
   (∀ (src dst mode : Nat) (sat : Bool) (code : Nat) (f d : Fp), fmtKind src = .float f → fmtKind dst = .float d → src ≠ dst → mode ≤ 4 →
     (CodeFinite f code → RoundsTo d mode sat (code / f.signBit == 1) (codeValue f code) (convertFmt src dst mode sat code).1) ∧
     (∀ neg, f.hasInf = true → code = infinityCode f neg →
       (sat = false → (convertFmt src dst mode sat code).1 = infinityCode d neg) ∧
       (sat = true → CodeFinite d (convertFmt src dst mode sat code).1 ∧
         codeValue d (convertFmt src dst mode sat code).1 = if neg then -maxFinite d else maxFinite d)))) ∧
  (∀ (s : State) (t : Team) (i : Instr) (d : GReg) (v : W64), HelmTurn s t → t.mayWrite d = true →
     orderValue t.reg i = some (d, v) → exec i s = .next (s.afterValue t 4 d v))

/-- What a word that only computes one register leaves alone: every other register, the special registers, memory, every other team. -/
def Obligations.ValueWordsFrame : Prop :=
  ∀ (s s' : State) (t : Team) (i : Instr) (len : Nat) (d : GReg), HelmTurn s t → t.mayWrite d = true →
    valueWord i = some (len, d) → exec i s = .next s' →
    State.SameMemory s s' ∧ State.SameOthers s s' t.key ∧
    ∃ u, s'.team? t.key = some u ∧ t.SameRegsBut u d ∧ t.SameSpecial u

/-- R97, R99: g0 reads 0 and discards writes, and at user privilege a word that writes one of k0 to k5 raises PRIV with no effect. -/
def Obligations.HelmRegisters : Prop :=
  ((∀ t : Team, t.reg 0 = 0) ∧
   ∀ (s : State) (t : Team) (i : Instr) (len : Nat), HelmTurn s t → valueWord i = some (len, 0) → exec i s = .next (s.retire t len .seq)) ∧
  (∀ (s : State) (t : Team) (i : Instr) (len : Nat) (d : GReg), HelmTurn s t → valueWord i = some (len, d) → isKReg d = true →
     (t.super = false →
       exec i s = .next (s.helmTrap t.key (plainCause 0x03))) ∧
     (t.super = true → ∃ v, exec i s = .next (s.afterValue t len d v)))

/-- R129, R130: `hloop` starts a loop, or skips its body, and the check at the end of a word that retires at lend counts a pass. -/
def Obligations.HardwareLoops : Prop :=
  (∀ (s : State) (t : Team) (i : Instr) (len : Nat) (d : GReg), HelmTurn s t → t.phase ≠ .stepping → t.mayWrite d = true →
     valueWord i = some (len, d) → ∃ v, exec i s = .next ((s.mapTeam t.key (·.setReg d v)).goTo t (nextWord t len))) ∧
  (∀ (s : State) (t : Team) (a : GReg) (off : BitVec 12), HelmTurn s t → t.phase ≠ .stepping →
     (∀ b : BitVec 6,
       let word := off.toNat * 2 ^ 20 + b.toNat * 2 ^ 14 + a.toNat * 2 ^ 8 + 0x1B * 2
       (b = 0 → 2 ≤ off.toInt → decodeHelmWord word = .ok (.hloop a off)) ∧ (b ≠ 0 ∨ off.toInt < 2 → ∃ e, decodeHelmWord word = .error e)) ∧
     (t.loop.lcnt ≠ 0 → exec (.hloop a off) s =
       .next (s.helmTrap t.key (plainCause 0x01))) ∧
     (t.loop.lcnt = 0 → t.reg a = 0 → exec (.hloop a off) s = .next (s.goTo t (BitVec.ofNat 64 (wordsAway t off.toInt), t.loop))) ∧
     (t.loop.lcnt = 0 → t.reg a ≠ 0 → exec (.hloop a off) s = .next (s.goTo t (BitVec.ofNat 64 (wordsAway t 1),
       { lc := 0, lcnt := t.reg a, lbeg := BitVec.ofNat 64 (wordsAway t 1), lend := BitVec.ofNat 64 (wordsAway t off.toInt)
         lobj := BitVec.ofNat 64 t.curObj }))))

/-- R122, R123 and R130: the relation of each branch, its target, and the end of a loop that a taken branch leaves. -/
def Obligations.BranchWords : Prop :=
  ∀ (s : State) (t : Team) (i : Instr) (taken : Bool) (off : Int), HelmTurn s t → t.phase ≠ .stepping →
    branchWord t.reg i = some (taken, off) →
    exec i s = .next (s.goTo t (if taken then takenTo t (wordsAway t off) else nextWord t 4))

/-- R123 to R126: `call` within an object; `callr` and `callx` through a descriptor, with the object switch; `ret`, for
which a descriptor's bits [47:32] do not count (log 94). -/
def Obligations.CallAndReturnWords : Prop :=
  (∀ (s : State) (t : Team) (d : GReg) (off : BitVec 18), HelmTurn s t → t.phase ≠ .stepping → t.mayWrite d = true →
     exec (.call d off) s = .next ((s.mapTeam t.key (·.setReg d (linkAfter t 4))).goTo t (BitVec.ofNat 64 (wordsAway t off.toInt), t.loop))) ∧
  (∀ (s s0 : State) (t : Team) (i : Instr) (len : Nat) (d : GReg) (desc : W64), HelmTurn s t → HelmTurn s0 t →
     ((∃ a, i = .callr d a ∧ len = 4 ∧ desc = t.reg a ∧ s0 = s) ∨
      (∃ idx L bs s1, i = .callx d idx ∧ len = 8 ∧ helmAddress t (t.seg 15) ((t.reg 63).toInt + 16 * (idx.toNat : Int)) 16 .read s = .ok (L, s1) ∧
        readSpace t.place t.regionsNow L 16 s1 = .ok (bs, s0) ∧ desc = BitVec.ofNat 64 (readValue bs))) →
     (desc.toNat / 2 ^ 48 = 0 →
       exec i s = .next (s.helmTrap t.key (plainCause 0x05 desc.toNat))) ∧
     (∀ s2, switchObject t.key desc (desc.toNat / 2 ^ 48) s0 = .ok ((), s2) →
       (desc.toNat % 4 ≠ 0 →
         exec i s = .next (s.helmTrap t.key (plainCause 0x08 desc.toNat))) ∧
       (desc.toNat % 4 = 0 → t.mayWrite d = true →
         exec i s = .next ((s2.mapTeam t.key (·.setReg d (linkAfter t len))).retire t len (.far (desc.toNat % 2 ^ 32)))))) ∧
  (∀ (s : State) (t : Team) (a : GReg), HelmTurn s t →
     let ends : Prop := (t.reg a).toNat / 2 ^ 48 = 0 ∧ (t.reg a).toNat % 2 ^ 32 = 0
     (ends → exec (.ret a) s = exec .teamExit s) ∧
     (¬ends → (t.reg a).toNat % 4 = 0 → (t.reg a).toNat / 2 ^ 48 = t.curObj → t.phase ≠ .stepping →
       exec (.ret a) s = .next (s.goTo t (takenTo t ((t.reg a).toNat % 2 ^ 32)))) ∧
     (∀ s2, ¬ends → (t.reg a).toNat % 4 = 0 → (t.reg a).toNat / 2 ^ 48 ≠ t.curObj →
       switchObject t.key (t.reg a) ((t.reg a).toNat / 2 ^ 48) s = .ok ((), s2) →
       exec (.ret a) s = .next (s2.retire t 4 (.jump ((t.reg a).toNat % 2 ^ 32)))))

/-- R124, R417 and R420: an object switch to a resident entry makes it current, binds seg0 and seg1 to its code and its read-only data and
loads lk with its link-table offset; it is refused where the entry is not resident. The entry is the 64 bytes that the acquire reads. -/
def Obligations.ObjectSwitch : Prop :=
  ∀ (s s1 : State) (t : Team) (desc : W64) (obj loc : Nat), s.team? t.key = some t → 0 < obj → s.objLoc t obj = some (loc, s1) →
    let e := readValue (s1.atomicRead t.place loc 64).1
    (e % 4 < 2 → switchObject t.key desc obj s =
      .error (.trap (plainCause 0x05 desc.toNat))) ∧
    (2 ≤ e % 4 → (t.pins.contains obj = true ∨ t.pins.length < 32) → t.segs.length = 16 → t.g.length = 64 →
      ∃ s' u, switchObject t.key desc obj s = .ok ((), s') ∧ s'.team? t.key = some u ∧ u.curObj = obj ∧ u.pins.contains obj = true ∧
        u.seg 0 = BitVec.ofNat 128 (e / 2 ^ 384) ∧ u.seg 1 = BitVec.ofNat 128 (e / 2 ^ 256) ∧
        (∀ n, 2 ≤ n → u.seg n = t.seg n) ∧ u.reg 63 = BitVec.ofNat 64 (e / 2 ^ 192 % 2 ^ 32) ∧
        (∀ r : GReg, r ≠ 63 → u.reg r = t.reg r) ∧ u.pc = t.pc ∧ u.loop = t.loop)

/-- R118 and R353: an address is refused for its limit, then its permission, then its alignment, in that order, with the address modulo 2^64 in
sys.faultva; a local or lock space is used only by who may.
R350, R359 and R360: an address beyond the address space raises SEG_LIMIT; where the address has one leaf, its translation is the frame or
the large page of that leaf; a page that is absent, or on a die out of service, raises PAGE_NOT_PRESENT and one that the leaf's permissions or
SUP forbid PAGE_PERM. Data that cannot be had raise ECC_UNCORR, but not for an atomic to peer memory, which makes no access (R345, R431). -/
def Obligations.AddressesAndTranslation : Prop :=
  (∀ (s : State) (t : Team) (bay n : Nat) (helm super : Bool) (sg : W128) (off : Int) (k : AccessKind),
     ((off < 0 ∨ (segLimit sg : Int) < off + n) →
       address t bay helm super sg off n k s = .error (.trap (accessCause 0x04 sg off k))) ∧
     (0 ≤ off → off + n ≤ segLimit sg → segPermits sg k = false →
       address t bay helm super sg off n k s = .error (.trap (accessCause 0x05 sg off k))) ∧
     (0 ≤ off → off + n ≤ segLimit sg → segPermits sg k = true → segSpace sg = 4 → super = false → k ≠ .fetch →
       address t bay helm super sg off n k s = .error (.trap (accessCause 0x05 sg off k))) ∧
     (0 ≤ off → off + n ≤ segLimit sg → segPermits sg k = true → (segSpace sg ≠ 4 ∨ super = true) → off % n ≠ 0 →
       address t bay helm super sg off n k s = .error (.trap (accessCause 0x08 sg off k))) ∧
     (0 ≤ off → off + n ≤ segLimit sg → segPermits sg k = true → segSpace sg = 0 → off % n = 0 →
       (helm && super && t.inWindow (segBase sg + off.toNat) && (k == .read || k == .write)) = false → ∀ loc large s',
       translate t.dct.roots t.dct.aspace t.dctx bay helm super k (segBase sg + off.toNat) s = .ok ((loc, large), s') →
       address t bay helm super sg off n k s = .ok ({ loc := loc, va := some (segBase sg + off.toNat), large := large }, s')) ∧
     (0 ≤ off → off + n ≤ segLimit sg → segPermits sg k = true → segSpace sg = 4 → super = true → off % n = 0 →
       s.dieUp ((segBase sg + off.toNat) / 0x8000) = true →
       address t bay helm super sg off n k s =
         .ok ({ loc := locOf (lockTag ((segBase sg + off.toNat) / 0x8000)) ((segBase sg + off.toNat) % 0x8000), va := none, large := false }, s)) ∧
     (0 ≤ off → off + n ≤ segLimit sg → segPermits sg k = true → segSpace sg ≠ 0 → segSpace sg ≠ 4 → off % n = 0 → ∀ loc,
       s.localLoc t bay (segSpace sg) (segBase sg + off.toNat) n = some loc →
       address t bay helm super sg off n k s = .ok ({ loc := loc, va := none, large := false }, s))) ∧
  (∀ (s : State) (roots : List Nat) (aspace dctx bay va : Nat) (helm super : Bool) (k : AccessKind),
     let root := roots.getD (dieOfBay bay) 0
     let cause (c : Nat) : Cause := { code := c, fva := va % 2 ^ 64, info := 0, write := k == .write || k == .atomic, fetch := k == .fetch, mask := none }
     (2 ^ 57 ≤ va → translate roots aspace dctx bay helm super k va s = .error (.trap (cause 0x04))) ∧
     (va < 2 ^ 57 → s.leavesFor root aspace bay helm va = [none] → translate roots aspace dctx bay helm super k va s = .error (.trap (cause 0x06))) ∧
     (∀ large leaf, va < 2 ^ 57 → s.leavesFor root aspace bay helm va = [some (large, leaf)] → leafMode leaf ≠ 2 →
       let loc := leafLoc large leaf va
       let lost := leafTgt leaf = 0 ∧ s.dieUp (dieOfPa (offsetOf loc)) = false
       let s1 := s.enterUse root dctx va large leaf
       let s2 := if helm then s1.fillTlb bay true aspace va large leaf else s1
       (lost → s.inFlightTo (dieOfPa (offsetOf loc)) = false →
         translate roots aspace dctx bay helm super k va s = .error (.trap (cause 0x06))) ∧
       (¬lost → (leafSup leaf = true ∧ super = false ∨ leafPermits leaf k = false) →
         translate roots aspace dctx bay helm super k va s = .error (.trap (cause 0x07))) ∧
       (¬lost → (leafSup leaf = false ∨ super = true) → leafPermits leaf k = true →
         (k = .atomic → (peerOf loc).isSome = true → translate roots aspace dctx bay helm super k va s = .ok ((loc, large), s2)) ∧
         (¬(k = .atomic ∧ (peerOf loc).isSome = true) →
           (∀ s', checkHealth loc va (k == .write) s2 = .ok ((), s') →
             translate roots aspace dctx bay helm super k va s = .ok ((loc, large), s')) ∧
           (∀ c, checkHealth loc va (k == .write) s2 = .error (.trap c) →
             translate roots aspace dctx bay helm super k va s = .error (.trap c))))))

/-- R117 to R120: a load writes what it read of its address, widened as its size code says; an acquire load meets the releases of the writes
that it read, at its scope. An address that is refused raises its trap, and so does at user privilege a destination among k0 to k5 (PRIV, R99);
then the load has no effect.
What a helm load leaves alone: all memory, every other team, every register but its destination, and the special registers but the
SWEPT bit that an acquire may set. -/
def Obligations.LoadWords : Prop :=
  (∀ (s : State) (t : Team) (i : Instr) (len : Nat) (d : GReg) (sg : W128) (off : Int) (size : BitVec 3) (acq : Option Nat),
     HelmTurn s t → loadWord t i = some (len, d, sg, off, size, acq) →
     (∀ c, helmAddress t sg off (bytesOf size) .read s = .error (.trap c) → exec i s = .next (s.helmTrap t.key c)) ∧
     (∀ L s1, helmAddress t sg off (bytesOf size) .read s = .ok (L, s1) → t.mayWrite d = false →
       exec i s = .next (s.helmTrap t.key (plainCause 0x03))) ∧
     (∀ L s1, helmAddress t sg off (bytesOf size) .read s = .ok (L, s1) → t.mayWrite d = true →
       ∃ v heads s2 s3, readHelm t L (bytesOf size) s1 = .ok ((v, heads), s2) ∧
         (acq = none → s3 = s2) ∧ (∀ scope, acq = some scope → helmAcquire t scope L.va heads s2 = .ok ((), s3)) ∧
         exec i s = .next (s3.afterValue t len d (widened size v)))) ∧
  (∀ (s s' : State) (t : Team) (i : Instr) (len : Nat) (d : GReg) (sg : W128) (off : Int) (size : BitVec 3) (acq : Option Nat),
     HelmTurn s t → loadWord t i = some (len, d, sg, off, size, acq) → exec i s = .next s' →
     State.SameMemory s s' ∧ State.SameOthers s s' t.key ∧
     ∃ u, s'.team? t.key = some u ∧ t.SameRegsBut u d ∧ (acq = none → t.SameSpecial u) ∧ u.segs = t.segs ∧ u.cause = t.cause ∧
       u.epc = t.epc ∧ u.faultva = t.faultva ∧ (u.mmcfg = t.mmcfg ∨ u.mmcfg = t.mmcfg ||| 4))

/-- R117 to R120: a store writes the low bytes of its register at its address, least significant first; a release store first brings what the
helm wrote before it to its homes. A store to bytes that a matrix operation still has to read waits. An address that is refused raises its
trap; a store that raises ECC_UNCORR for want of a peer's answer may have been performed at the peer (R431).
What a helm store leaves alone: every byte outside those stored, at the address that the word forms; every register, special register
and other team. Where the address is refused or the store waits, all memory; but a store that fails for want of a peer's
answer may have reached the peer (R431). -/
def Obligations.StoreWords : Prop :=
  (∀ (s : State) (t : Team) (i : Instr) (len : Nat) (g : GReg) (sg : W128) (off : Int) (size : BitVec 3) (rel : Option Nat),
     HelmTurn s t → storeWord t i = some (len, g, sg, off, size, rel) →
     let home (s : State) : State := if rel.isSome then s.drainParty t.place.party else s
     let put (s : State) (L : Located) : State :=
       (home s).writeIn t.place t.regionsNow L.va rel L.loc (leBytes (bytesOf size) ((t.reg g).toNat % 2 ^ (8 * bytesOf size)))
     (∀ c, helmAddress t sg off (bytesOf size) .write s = .error (.trap c) →
       (¬(c.code = 0x0C ∧ c.write = true) → exec i s = .next (s.helmTrap t.key c)) ∧
       (c.code = 0x0C → c.write = true → ∃ u : State, exec i s = .next (u.helmTrap t.key c) ∧
         let s0 : State := { s with tick := s.tick + 1 }
         (u = s0 ∨ ∃ L s1, helmAddress t sg off (bytesOf size) .write s0.answering = .ok (L, s1) ∧ u = s0.withMemory (put s1 L)))) ∧
     (∀ L s1, helmAddress t sg off (bytesOf size) .write s = .ok (L, s1) →
       (s1.leased t.key L.loc (bytesOf size) = true → exec i s = .next (s1.helmWait t.key .matrix)) ∧
       (s1.leased t.key L.loc (bytesOf size) = false → storageOf L.loc ≠ mgmtTag →
         exec i s = .next ((put s1 L).retire t len .seq)) ∧
       -- the management window of the supervisor (R427; which sizes it takes is the model's choice, log 42)
       (s1.leased t.key L.loc (bytesOf size) = false → storageOf L.loc = mgmtTag → bytesOf size = 8 →
         exec i s = .next (((home s1).mgmtWrite false (offsetOf L.loc) (t.reg g)).retire t len .seq)) ∧
       (s1.leased t.key L.loc (bytesOf size) = false → storageOf L.loc = mgmtTag → bytesOf size ≠ 8 →
         exec i s = .next ((home s1).retire t len .seq)))) ∧
  (∀ (s s' : State) (t : Team) (i : Instr) (len : Nat) (g : GReg) (sg : W128) (off : Int) (size : BitVec 3) (rel : Option Nat),
     HelmTurn s t → Memory.wf s.mem = true → storeWord t i = some (len, g, sg, off, size, rel) → exec i s = .next s' →
     (∀ L s1, helmAddress t sg off (bytesOf size) .write s = .ok (L, s1) → storageOf L.loc ≠ mgmtTag →
       State.SameOutside s s' L.loc (bytesOf size) ∧ State.SameOthers s s' t.key ∧
       ∃ u, s'.team? t.key = some u ∧ u.g = t.g ∧ t.SameSpecial u) ∧
     (∀ e, helmAddress t sg off (bytesOf size) .write s = .error e →
       (State.SameMemory s s' ∨ (∃ c, e = .trap c ∧ c.code = 0x0C ∧ c.write = true) ∧
         ∃ L s1, helmAddress t sg off (bytesOf size) .write { s with tick := s.tick + 1 }.answering = .ok (L, s1) ∧
           State.SameOutside s s' L.loc (bytesOf size)) ∧ State.SameOthers s s' t.key ∧ ∃ u, s'.team? t.key = some u ∧ u.g = t.g ∧ t.SameSpecial u))

/-- R306 in the part that no race reaches: what a party wrote it reads back, where every write to those bytes happens before its own.
R301 and R306: a read of a byte, outside every scope race, returns a write of its candidate set: one that covers the byte and that no write
the reader knows has replaced. Those are the writes to the byte as the reader's context has them: all of them, or where the page has entered the
context, the last in home order of those made before that as the initial write, and those made since. The point of entry of a page that no
`pg.map` announced is the model's choice (log 84). -/
def Obligations.ReadValues : Prop :=
  (∀ (s : State) (p : Place) (loc : Nat) (bytes : List Byte), (∀ w ∈ s.writes, w.id < s.nextWrite ∧ ∀ id ∈ w.known, id < s.nextWrite) →
     (∀ id ∈ (s.knowOf p.party).known, id < s.nextWrite) → (∀ e ∈ s.entered, e.mark ≤ s.nextWrite) →
     (∀ w ∈ s.writes, ∀ a, loc ≤ a → a < loc + bytes.length → w.covers a = true →
       w.bottom = true ∨ w.id ∈ (s.knowOf p.party).known) →
     ((s.writeAs p none loc bytes).readAs p [] none loc bytes.length).1.map (·.value) = bytes) ∧
  (∀ (s : State) (p : Place) (known lifted : List Nat) (a tick : Nat),
     let ws := s.writesFor p a
     (scopeRace ws known lifted a = false → (candidates ws known a).isEmpty = false →
       ∃ w ∈ candidates ws known a,
         (State.readWith { s with tick := tick } p known lifted [] none a 1).1 = [{ loc := a, value := w.byteOf a, src := some w }] ∧
         w.covers a = true ∧ ∀ x ∈ ws, x.covers a = true → (x.bottom = true ∨ x.id ∈ known) → w.before x = false) ∧
     (s.enteredAt p a = none → ws = s.writes) ∧
     (∀ e, s.enteredAt p a = some e → s.home.Nodup →
       let old (x : Write) : Prop := x ∈ s.writes ∧ x.covers a = true ∧ x.id < e.mark ∧ (x.bottom = true ∨ x.id ∈ s.home)
       (∀ x ∈ s.writes, x.covers a = true → ¬old x → x ∈ ws) ∧
       (∀ w ∈ ws, ¬old w → (w ∈ s.writes ∨ w.bottom = true ∧ ∃ x, old x ∧ w.byteOf a = x.byteOf a ∧
         ∀ y, old y → y.bottom = false → x.id = y.id ∨ s.home.idxOf y.id < s.home.idxOf x.id))))

/-- R136 to R138 and R142: a request leaves in the shape register what it asked for and what the lattice of the team's class grants it, and
the granted extents in gd; a format that it does not accept raises FORMAT. That a vector request stores REQN and REQK too is the model's choice
(log 89): R142 stores them without a condition, while R141 lets such a request read [23:0] alone.
R143 and R144: shp.get reads one item; shp.tail cuts a length into trips over the granted extent of the tail dimension, writes the trips,
the mask of the last one and its length, and raises SHAPE_FAIL of a register that is not valid.
R150: the four forms of shp.set, with the checks of the supervisor's form in their order. -/
def Obligations.ShapeWords : Prop :=
  (∀ (s : State) (t : Team) (d a : GReg) (sh : BitVec 3) (pol td : BitVec 2) (fmt : BitVec 5) (vector : Bool), HelmTurn s t →
     t.mayWrite d = true → pol.toNat ≠ 3 →
     let i : Instr := if vector then .shpReqV d a sh pol td fmt else .shpReq d a sh pol td fmt
     let q := (t.reg a).toNat
     (¬acceptedFormat vector fmt.toNat → exec i s = .next (s.helmTrap t.key (plainCause 0x14))) ∧
     (acceptedFormat vector fmt.toNat → ∃ (h : Shape) (m n k : Nat),
       Granted (q % 2 ^ 24) pol.toNat (if vector then [t.kernel.width] else extentsMN (s.teamClass t)) m ∧
       (if vector then n = 1 else Granted (q / 2 ^ 24 % 2 ^ 24) pol.toNat (extentsMN (s.teamClass t)) n) ∧
       (if vector then k = 1 else Granted (q / 2 ^ 48) pol.toNat (extentsK fmt.toNat) k) ∧
       h.reqm = q % 2 ^ 24 ∧ h.reqn = q / 2 ^ 24 % 2 ^ 24 ∧ h.reqk = q / 2 ^ 48 ∧ h.fmt = fmt.toNat ∧ h.policy = pol.toNat ∧ h.td = td.toNat ∧
       h.vector = vector ∧ h.tailc = 0 ∧ h.chg = false ∧ h.valid = decide (m ≠ 0 ∧ n ≠ 0 ∧ k ≠ 0) ∧
       (h.grm, h.grn, h.grk) = (if pol.toNat = 0 ∧ ¬(m ≠ 0 ∧ n ≠ 0 ∧ k ≠ 0) then (0, 0, 0) else (m, n, k)) ∧
       exec i s = .next ((s.mapTeam t.key (·.setShape sh h)).afterValue t 8 d
         (if h.valid then BitVec.ofNat 64 (h.grk * 2 ^ 48 + h.grn * 2 ^ 24 + h.grm) else 0)))) ∧
  (∀ (s : State) (t : Team) (d a : GReg) (sh : BitVec 3), HelmTurn s t → t.mayWrite d = true →
     let h := t.shape sh
     (exec (.shpGet d sh 0) s = .next (s.afterValue t 4 d (BitVec.ofNat 64 h.grm)) ∧
       exec (.shpGet d sh 1) s = .next (s.afterValue t 4 d (BitVec.ofNat 64 h.grn)) ∧
       exec (.shpGet d sh 2) s = .next (s.afterValue t 4 d (BitVec.ofNat 64 h.grk)) ∧
       exec (.shpGet d sh 3) s = .next (s.afterValue t 4 d (BitVec.ofNat 64 h.reqm)) ∧
       exec (.shpGet d sh 4) s = .next (s.afterValue t 4 d (BitVec.ofNat 64 h.reqn)) ∧
       exec (.shpGet d sh 5) s = .next (s.afterValue t 4 d (BitVec.ofNat 64 h.reqk)) ∧
       exec (.shpGet d sh 6) s = .next (s.afterValue t 4 d (BitVec.ofNat 64 (h.image % 2 ^ 16 + h.tailc * 2 ^ 16)))) ∧
     (t.mayWrite (d + 1) = true → t.mayWrite (d + 2) = true →
       (h.valid = false → exec (.shpTail d a sh) s = .next (s.helmTrap t.key (plainCause 0x0A))) ∧
       (h.valid = true → 0 < h.extent → ∃ trips tail, Trips (t.reg a).toNat h.extent trips tail ∧
         exec (.shpTail d a sh) s = .next (s.afterTail t d sh trips tail)))) ∧
  (∀ (s : State) (t : Team) (dst src : BitVec 3) (a : GReg) (imm : W32), HelmTurn s t →
     let h := t.shape dst
     let x := (t.reg a).toNat + (t.reg (a + 1)).toNat * 2 ^ 64
     let y := Shape.ofImage x
     let bits := x / 2 ^ 16 % 2 ^ 14 = 0 ∧ x / 2 ^ 5 % 2 ^ 4 = 0 ∧ y.policy ≠ 3 ∧ y.td ≠ 3 ∧ ¬(y.vector = true ∧ y.td ≠ 0)
     let fits := (if y.valid then (if y.vector then y.grm = t.kernel.width ∧ y.grn = 1 ∧ y.grk = 1
         else y.grm ∈ extentsMN (s.teamClass t) ∧ y.grn ∈ extentsMN (s.teamClass t) ∧ y.grk ∈ extentsK y.fmt)
       else y.grm = 0 ∧ y.grn = 0 ∧ y.grk = 0) ∧ y.tailc ≤ y.extent
     exec (.shpSetCopy dst src) s = .next ((s.mapTeam t.key (·.setShape dst (t.shape src))).retire t 8 .seq) ∧
     exec (.shpSetClr dst) s =
       .next ((s.mapTeam t.key (·.setShape dst { h with grm := 0, grn := 0, grk := 0, tailc := 0, chg := false, valid := false })).retire t 8 .seq) ∧
     (h.valid = true → imm.toNat ≤ h.extent →
       exec (.shpSetTail dst imm) s = .next ((s.mapTeam t.key (·.setShape dst { h with tailc := imm.toNat })).retire t 8 .seq)) ∧
     (¬(h.valid = true ∧ imm.toNat ≤ h.extent) → exec (.shpSetTail dst imm) s = .next (s.helmTrap t.key (plainCause 0x0A))) ∧
     (t.super = false → exec (.shpSetLd dst a) s = .next (s.helmTrap t.key (plainCause 0x03))) ∧
     (t.super = true → ¬bits → exec (.shpSetLd dst a) s = .next (s.helmTrap t.key (plainCause 0x01))) ∧
     (t.super = true → bits → ¬acceptedFormat y.vector y.fmt → exec (.shpSetLd dst a) s = .next (s.helmTrap t.key (plainCause 0x14))) ∧
     (t.super = true → bits → acceptedFormat y.vector y.fmt → ¬fits → exec (.shpSetLd dst a) s = .next (s.helmTrap t.key (plainCause 0x0A))) ∧
     (t.super = true → bits → acceptedFormat y.vector y.fmt → fits →
       exec (.shpSetLd dst a) s = .next ((s.mapTeam t.key (·.setShape dst y)).retire t 8 .seq)))

/-- R152 to R154 and R160: a push waits while the cq is full, raises QUEUE_PROTOCOL in the cases of R154, and otherwise appends one entry
with the next sequence number and the fields that the word and its registers give; it writes no register.
R154, R161, R163 and R164: q.split appends the entries of its two paths at once, q.join and q.mark one entry each; a split opens, and a join
closes, the groups selected; q.mark writes the sequence number of its entry. They wait while the cq is full, and raise QUEUE_PROTOCOL where that
can never end and for what they may not select; q.mark of a register among k0 to k5 raises PRIV at user privilege. -/
def Obligations.CommandQueuePushes : Prop :=
  (∀ (s : State) (t : Team) (i : Instr) (kind : EntryKind) (d a : GReg) (f : PushFields), HelmTurn s t → t.inVector = false →
     ((i = .qPush d a f ∧ kind = .run) ∨ (i = .qPushEos d a f ∧ kind = .eos) ∨ (i = .qPushNop d a f ∧ kind = .nop)) →
     let refused := ¬groupsExist t f.gsel.toNat ∨ (kind ≠ .nop ∧ someSplit t f.gsel.toNat) ∨ (kind = .run ∧ t.kernel.nblk ≤ f.block.toNat)
     (63 < t.cqOccupancy → ¬pushStuck t → exec i s = .next (s.helmWait t.key .cqFull)) ∧
     (63 < t.cqOccupancy → pushStuck t → exec i s = .next (s.helmTrap t.key (plainCause 0x09))) ∧
     (t.cqOccupancy ≤ 63 → refused → exec i s = .next (s.helmTrap t.key (plainCause 0x09))) ∧
     (t.cqOccupancy ≤ 63 → ¬refused → ∃ e, EntryOf t f d e ∧ e.n = t.nextPush ∧ e.kind = kind ∧ e.block = f.block.toNat ∧
       e.trips = (t.reg a).toNat % 2 ^ 24 ∧ e.tmask = pushMask t d ∧
       exec i s = .next (((s.released t f.rel).pushed t [e]).retire t 8 .seq))) ∧
  (∀ (s : State) (t : Team) (d a : GReg) (f : PushFields), HelmTurn s t → t.inVector = false →
     let x := (t.reg a).toNat
     let gsel := x % 256
     (t.cqOccupancy ≤ 62 → groupsExist t f.gsel.toNat → ¬someSplit t f.gsel.toNat → f.block.toNat < t.kernel.nblk → x / 2 ^ 48 < t.kernel.nblk →
       ∃ e1 e2, EntryOf t f d e1 ∧ EntryOf t f d e2 ∧ e1.n = t.nextPush ∧ e2.n = t.nextPush + 1 ∧ e1.kind = .splitA ∧ e2.kind = .splitB ∧
         e1.block = f.block.toNat ∧ e2.block = x / 2 ^ 48 ∧ e1.trips = x % 2 ^ 24 ∧ e2.trips = x / 2 ^ 24 % 2 ^ 24 ∧
         e1.tmask = pushMask t d ∧ e2.tmask = ~~~(pushMask t d) ∧
         exec (.qSplit d a f) s = .next (((s.released t f.rel).mapTeam t.key fun u => { u with
           cq := u.cq ++ [e1, e2], nextPush := u.nextPush + 2
           groups := u.groups.map fun g => if e1.selects g.num then { g with pushSplit := true } else g }).retire t 8 .seq)) ∧
     (t.cqOccupancy = 63 → exec (.qSplit d a f) s = .next (s.helmWait t.key .cqFull)) ∧
     -- a cq of 64 entries
     (63 < t.cqOccupancy → ¬pushStuck t → exec (.qSplit d a f) s = .next (s.helmWait t.key .cqFull) ∧
       exec (.qJoin a) s = .next (s.helmWait t.key .cqFull) ∧ (t.mayWrite d = true → exec (.qMark d a) s = .next (s.helmWait t.key .cqFull))) ∧
     (63 < t.cqOccupancy → pushStuck t → exec (.qSplit d a f) s = .next (s.helmTrap t.key (plainCause 0x09)) ∧
       exec (.qJoin a) s = .next (s.helmTrap t.key (plainCause 0x09)) ∧
       (t.mayWrite d = true → exec (.qMark d a) s = .next (s.helmTrap t.key (plainCause 0x09)))) ∧
     (t.cqOccupancy ≤ 62 → (¬groupsExist t f.gsel.toNat ∨ someSplit t f.gsel.toNat ∨ t.kernel.nblk ≤ f.block.toNat ∨ t.kernel.nblk ≤ x / 2 ^ 48) →
       exec (.qSplit d a f) s = .next (s.helmTrap t.key (plainCause 0x09))) ∧
     (t.cqOccupancy ≤ 63 → (gsel < 0x20 ∨ gsel = 0xFF) → groupsExist t gsel → everySplit t gsel →
       ∃ e, e.n = t.nextPush ∧ e.kind = .join ∧ e.gsel = gsel ∧ e.trips = 0 ∧ e.block = 0 ∧ e.tmask = 0 ∧ e.rel = false ∧ e.win = t.win ∧
         exec (.qJoin a) s = .next (((s.pushed t [e]).mapTeam t.key fun u => { u with
           groups := u.groups.map fun g => if gsel = 0xFF || g.num == gsel then { g with pushSplit := false } else g }).retire t 4 .seq)) ∧
     (t.cqOccupancy ≤ 63 → ((0x20 ≤ gsel ∧ gsel ≠ 0xFF) ∨ ¬groupsExist t gsel ∨ ¬everySplit t gsel) →
       exec (.qJoin a) s = .next (s.helmTrap t.key (plainCause 0x09))) ∧
     (t.mayWrite d = false → exec (.qMark d a) s = .next (s.helmTrap t.key (plainCause 0x03))) ∧
     (t.mayWrite d = true → t.cqOccupancy ≤ 63 → ((0x20 ≤ gsel ∧ gsel ≠ 0xFF) ∨ ¬groupsExist t gsel) →
       exec (.qMark d a) s = .next (s.helmTrap t.key (plainCause 0x09))) ∧
     (t.mayWrite d = true → t.cqOccupancy ≤ 63 → (gsel < 0x20 ∨ gsel = 0xFF) → groupsExist t gsel →
       ∃ e, e.n = t.nextPush ∧ e.kind = .mark ∧ e.gsel = gsel ∧ e.trips = 0 ∧ e.block = 0 ∧ e.rel = false ∧ e.win = t.win ∧
         exec (.qMark d a) s = .next ((s.pushed t [e]).afterValue t 4 d (BitVec.ofNat 64 (t.nextPush % 2 ^ 16)))))

/-- R165 and R168: reading the rq and the occupancies, and the slip window's writes, clamped to 1 and 64.
R368: in its vector the helm pushes a service entry for the group that the trap names, and nothing else (that the other pushes raise
QUEUE_PROTOCOL there is the model's reading, log 19); what the group runs then is a path
of its own, with L, S and C engines at the entry's first word, and the engines that it had are kept. -/
def Obligations.RecordQueueWords : Prop :=
  (∀ (s : State) (t : Team) (d a : GReg) (n : W32), HelmTurn s t → t.mayWrite d = true →
     exec (.qOccCq d) s = .next (s.afterValue t 4 d (BitVec.ofNat 64 (t.cqOccupancy +
       (match t.cq with | [] => t.nextPush | e :: _ => e.n) % 2 ^ 16 * 2 ^ 16 + t.nextPush % 2 ^ 16 * 2 ^ 32))) ∧
     exec (.qOccRq d) s = .next (s.afterValue t 4 d (BitVec.ofNat 64 t.rq.length)) ∧
     exec (.qWin n) s = .next ((s.mapTeam t.key fun u => { u with win := windowOf n.toNat }).retire t 8 .seq) ∧
     exec (.qWinReg a) s = .next ((s.mapTeam t.key fun u => { u with win := windowOf ((t.reg a).toNat % 128) }).retire t 8 .seq) ∧
     (t.mayWrite (d + 1) = true →
       (t.rq = [] → exec (.qPeek d) s = .next ((s.setPair t d 0 0).retire t 4 .seq)) ∧
       (∀ e rest, t.rq = e :: rest →
         exec (.qPeek d) s = .next ((s.setPair t d e.predv (postedWord e)).retire t 4 .seq) ∧
         (∃ s1, helmAcquire t 1 none e.release.toList (s.mapTeam t.key fun u => { u with rq := rest }) = .ok ((), s1) ∧
           exec (.qPopr d) s = .next ((s1.setPair t d e.predv (postedWord e)).retire t 4 .seq))) ∧
       (t.rq = [] → ((∃ g ∈ t.groups, g.canPost s t = true) ∨ ∃ e ∈ t.cq, e.kind = .mark ∨ e.kind = .eos) →
         exec (.qPopr d) s = .next (s.helmWait t.key .rqEmpty)) ∧
       (t.rq = [] → (∀ g ∈ t.groups, g.canPost s t = false) → (∀ e ∈ t.cq, e.kind ≠ .mark ∧ e.kind ≠ .eos) →
         exec (.qPopr d) s = .next (s.helmTrap t.key (plainCause 0x09))))) ∧
  (∀ (s : State) (t : Team) (d a : GReg) (f : PushFields), HelmTurn s t → t.inVector = true →
     exec (.qPushEos d a f) s = .next (s.helmTrap t.key (plainCause 0x09)) ∧
     exec (.qPushNop d a f) s = .next (s.helmTrap t.key (plainCause 0x09)) ∧
     exec (.qSplit d a f) s = .next (s.helmTrap t.key (plainCause 0x09)) ∧
     exec (.qJoin a) s = .next (s.helmTrap t.key (plainCause 0x09)) ∧
     (t.mayWrite d = true → exec (.qMark d a) s = .next (s.helmTrap t.key (plainCause 0x09))) ∧
     (t.service.isSome = true → exec (.qPush d a f) s = .next (s.helmWait t.key .service)) ∧
     (t.service = none → (f.gsel.toNat ≠ t.cause.toNat / 2 ^ 16 % 32 ∨ t.group? f.gsel.toNat = none ∨ t.curNblk ≤ f.block.toNat) →
       exec (.qPush d a f) s = .next (s.helmTrap t.key (plainCause 0x09))) ∧
     (∀ g, t.service = none → f.gsel.toNat = t.cause.toNat / 2 ^ 16 % 32 → t.group? f.gsel.toNat = some g → f.block.toNat < t.curNblk →
       (t.reg a).toNat % 2 ^ 24 = 0 → exec (.qPush d a f) s = .next ((s.released t f.rel).retire t 8 .seq)) ∧
     (∀ g e off s1, t.service = none → f.gsel.toNat = t.cause.toNat / 2 ^ 16 % 32 → t.group? f.gsel.toNat = some g → f.block.toNat < t.curNblk →
       (t.reg a).toNat % 2 ^ 24 ≠ 0 → EntryOf t f d e → e.n = t.nextPush → e.kind = .run → e.block = f.block.toNat →
       e.trips = (t.reg a).toNat % 2 ^ 24 → e.tmask = pushMask t d →
       e.view = { viewOf (s.released t f.rel) t (if f.rel then some f.rscope.toNat else none) with
         obj := t.curObj, text := t.seg 0, blkOff := t.curBlkOff, nblk := t.curNblk, service := true } →
       startOff t g e (s.released t f.rel) = .ok (off, s1) → t.phase ≠ .stepping →
       ∃ s' u h, exec (.qPush d a f) s = .next s' ∧ s'.team? t.key = some u ∧ u.service = some e ∧ u.cq = t.cq ∧ u.g = t.g ∧
         u.group? g.num = some h ∧ h.savedL = some g.l ∧ h.savedS = some g.s ∧ (∀ p, p ≠ 4 → h.pathAt p = g.pathAt p) ∧
         (∀ who ∈ [Eng.l, Eng.s], (h.eng who).running = true ∧ (h.eng who).off = off ∧ (h.eng who).trip = 0 ∧ (h.eng who).path = 4)))

/-- R101, R103, R104, R401: sys.rd writes the register that the number names; sys.clock never runs back, and how far it has gone since it was
last read is free.
R102, R128, R316, R401: sys.wr gives each field the value that its access code allows; at user privilege a write that would change a field
marked SV raises PRIV and writes nothing; a write to sys.mmcfg that leaves MODE set loads the region table. The trap of a region table that
cannot be read (log 29) and the old values at the loop check of that very word (log 77) are the model's reading. -/
def Obligations.SystemRegisters : Prop :=
  (∀ (s : State) (t : Team) (d : GReg), HelmTurn s t → t.mayWrite d = true →
     (∀ num v, (num, v) ∈ systemTable s t → exec (.sysRd d num) s = .next (s.afterValue t 4 d v)) ∧
     (∀ b, s.bay? t.bay = some b → ∃ n : Nat,
       let s1 : State := { s.mapBay t.bay fun x => { x with clock := b.clock + n } with tick := s.tick + 1 }
       exec (.sysRd d 0x18) s = .next (s1.afterValue t 4 d (BitVec.ofNat 64 (b.clock + n))))) ∧
  (∀ (s : State) (t : Team) (a : GReg) (num : BitVec 8), HelmTurn s t →
     (∀ old, (num, old) ∈ systemTable s t → t.super = false → changesSv old (t.reg a) num →
       exec (.sysWr a num) s = .next (s.helmTrap t.key (plainCause 0x03))) ∧
     (∀ old, ((num, old) ∈ systemTable s t ∨ num = 0x18) → (t.super = true ∨ ¬changesSv old (t.reg a) num) → num ≠ 0x08 →
       ∃ f : Team → Team, SystemWritten t num (t.reg a) (f t) ∧
         exec (.sysWr a num) s = .next ((s.mapTeam t.key f).retire t 4 (.seqLoop num.toNat))) ∧
     (num = 0x08 → (t.super = true ∨ ¬changesSv t.mmcfg (t.reg a) num) →
       ∃ f : Team → Team, SystemWritten t num (t.reg a) (f t) ∧
         ((t.reg a).getLsbD 0 = false → exec (.sysWr a num) s = .next ((s.mapTeam t.key f).retire t 4 .seq)) ∧
         (∀ s1, loadRegions t.key (s.mapTeam t.key f) = .ok ((), s1) → exec (.sysWr a num) s = .next (s1.retire t 4 .seq)) ∧
         (∀ c, loadRegions t.key (s.mapTeam t.key f) = .error (.trap c) → exec (.sysWr a num) s = .next (s.helmTrap t.key c))))

/-- R402, R44: outside a vector `trap` raises SVC and `brk` BREAK, with their number as INFO, and a word that is no instruction ILLEGAL; the team
freezes before the word, with the trap noted, and nothing else of it changes.
R398, R399: in a vector the same words stop the context before them and post a DOUBLE record; registers and memory stand. -/
def Obligations.TrapsAndDoubles : Prop :=
  (∀ (s : State) (t : Team) (i : Instr) (n : BitVec 8) (tr : Trap), HelmTurn s t → t.inVector = false → t.phase = .running →
     ((i = .trap n ∧ tr = helmTrapOf 0x0F n.toNat) ∨ (i = .brk n ∧ tr = helmTrapOf 0x0D n.toNat) ∨ (i = .unassignedHelmWord ∧ tr = helmTrapOf 0x01)) →
     ∃ s', exec i s = .next s' ∧ State.SameMemory s s' ∧ State.SameOthers s s' t.key ∧
       s'.team? t.key = some { t with
         phase := .freezing, trap := some tr, waitFor := none, granted := none, scWait := false, scGrant := false, marks := none, late := [] }) ∧
  (∀ (s : State) (t : Team) (i : Instr) (n : BitVec 8) (code : Nat), HelmTurn s t → t.inVector = true →
     ((i = .trap n ∧ code = 0x0F) ∨ (i = .brk n ∧ code = 0x0D) ∨ (i = .unassignedHelmWord ∧ code = 0x01)) →
     ∃ s' p, exec i s = .next s' ∧ s'.posts = s.posts ++ [p] ∧ p.record = (doubleRecord t code).image ∧ s'.mem = s.mem ∧
       State.SameOthers s s' t.key ∧ s'.team? t.key = some { t with phase := .stopped, waitFor := none, granted := none })

/-- R395 to R398, R367: when the freeze is in place the trap's registers are written, the save area receives the segments, the object and the loop
registers, and the helm goes on at the vector descriptor at supervisor privilege; a save area that cannot be written stops the entry with
a DOUBLE record. The order of the save area is the model's choice (log 5), as is that it is one write (log 73). -/
def Obligations.VectorEntry : Prop :=
  ∀ (s : State) (t : Team) (tr : Trap), s.team? t.key = some t → t.phase = .freezing → t.resident = true → s.drained t = true → t.trap = some tr →
    ∃ d s1, readDct t.place t.dctx s = .ok (d, s1) ∧
    let u := trapRegisters tr d t
    let s2 := (s1.leaveRings t.key).mapTeam t.key (trapRegisters tr d)
    (∀ c, s2.partAddr u (t.block + 0xE000) .write = .error c →
      ∃ s' p, exec (.vectorEntry t.key) s = .next s' ∧ s'.posts = s.posts ++ [p] ∧
        p.record = ({ doubleRecord u c.code with fva := t.block + 0xE000, flags := 1 } : RecordFields).image ∧
        s'.team? t.key = some { u with phase := .stopped, inVector := false }) ∧
    (∀ loc s2', s2.partAddr u (t.block + 0xE000) .write = .ok (loc, s2') → d.vector.toNat % 4 = 0 →
      let s3 := (s2'.writeAs t.place none loc (areaOf t)).mapTeam t.key inItsVector
      let obj := d.vector.toNat / 2 ^ 48
      (∀ s4, switchObject t.key d.vector obj s3 = .ok ((), s4) →
        exec (.vectorEntry t.key) s = .next (s4.mapTeam t.key fun v => { v with pc := BitVec.ofNat 64 (d.vector.toNat % 2 ^ 32) })) ∧
      (Switches s3 (inItsVector u) obj → ∃ s' v, exec (.vectorEntry t.key) s = .next s' ∧ s'.team? t.key = some v ∧ v.phase = .vector ∧
        v.super = true ∧ v.inVector = true ∧ v.curObj = obj ∧ v.pc.toNat = d.vector.toNat % 2 ^ 32 ∧ v.cause = causeValue tr ∧
        v.epc = linkAfter t 0 ∧ v.faultva = tr.fva ∧ v.loop.lcnt = 0))

/-- R395 and R403: what `eret` restores from the units of a save area is what the vector's entry saved there.
R403, R405: `eret` restores the save area, reads the watch table anew, leaves the vector and goes on at sys.epc with every engine released from
its recorded position; the cases in which it raises PRIV, ILLEGAL or DOUBLE, in which it waits, and in which a step is armed. The order of the save
area is the model's choice (log 5), as are the wait for a service entry, the order of the checks and FSEC 0x13 of a missing group (log 54). -/
def Obligations.ReturnsFromTheVector : Prop :=
  (∀ (t v : Team) (u : List Nat), t.segs.length = 16 → t.curObj < 2 ^ 16 → t.loop.lbeg.toNat % 4 = 0 → t.loop.lend.toNat % 4 = 0 →
     (∀ i, i < 38 → u.getD i 0 = leNat (((areaOf t).drop (8 * i)).take 8)) →
     (v.restoreArea u).segs = t.segs ∧ (v.restoreArea u).curObj = t.curObj ∧ (v.restoreArea u).loop = t.loop ∧
     (v.restoreArea u).g = v.g ∧ (v.restoreArea u).pc = v.pc) ∧
  (∀ (s : State) (t : Team), HelmTurn s t →
     let area := t.block + 0xE000
     let gstep := t.stepmask.getLsbD 8
     let group := t.group? (t.stepmask.toNat / 2 ^ 16 % 2 ^ 5)
     let obj := t.epc.toNat / 2 ^ 48
     (t.super = false → exec .eret s = .next (s.helmTrap t.key (plainCause 0x03))) ∧
     (t.super = true → t.inVector = false → exec .eret s = .next (s.helmTrap t.key (plainCause 0x01))) ∧
     (t.super = true → t.inVector = true → t.service.isSome = true → exec .eret s = .next (s.helmWait t.key .service)) ∧
     (t.super = true → t.inVector = true → t.service = none →
       (∀ c, s.partAddr t area = .error c → exec .eret s = .next (s.double t.key (plainCause c.code (area % 2 ^ 64)))) ∧
       (∀ loc u s0 s1, s.partAddr t area = .ok (loc, s0) → readUnits t.place loc 38 s0 = .ok (u, s1) →
         (gstep = true → group = none → exec .eret s = .next (s.double t.key (plainCause 0x13))) ∧
         ((gstep = true → group ≠ none) →
           let s2 := s1.mapTeam t.key (·.restoreArea u)
           let same := obj = u.getD 32 0 % 2 ^ 16
           (same → obj = 0 → exec .eret s = .next (s.double t.key (plainCause 0x05 t.epc.toNat))) ∧
           (∀ c, ¬same → switchObject t.key t.epc obj s2 = .error (.trap c) → exec .eret s = .next (s.double t.key c)) ∧
           (∀ s3, (same ∧ obj ≠ 0 ∧ s3 = s2 ∨ ¬same ∧ switchObject t.key t.epc obj s2 = .ok ((), s3)) →
             (t.epc.toNat % 4 ≠ 0 → exec .eret s = .next (s.double t.key (plainCause 0x08 t.epc.toNat))) ∧
             (∀ r ws s4, t.epc.toNat % 4 = 0 → s3.team? t.key = some r → readWatches t s3 = .ok (ws, s4) →
               ∃ s' v, exec .eret s = .next s' ∧ s'.team? t.key = some v ∧ v.pc.toNat = t.epc.toNat % 2 ^ 32 ∧ v.super = false ∧ v.inVector = false ∧
                 v.watches = ws ∧ v.segs = r.segs ∧ v.curObj = r.curObj ∧ v.loop = r.loop ∧ v.g = r.g ∧ v.exempt = true ∧
                 (t.step = false → gstep = false → v.phase = .running ∧ v.groups = t.groups.map releasedGroup) ∧
                 (t.step = true ∨ gstep = true → (v.phase = .stepping ∧ v.plan ≠ []) ∨ (v.phase = .freezing ∧ v.trap = some (helmTrapOf 0x0D 0x100)))))))))

/-- R404: `halt` ends its team with a team fault record, after the dump it asks for; the cases in which it raises PRIV, ILLEGAL or DOUBLE, and in
which it waits for what is under way, or for room in the host fault queue. FVA of a misaligned dump address is the model's choice (log 73), as is
the wait until nothing of the team is under way (log 71). -/
def Obligations.HaltEnds : Prop :=
  ∀ (s : State) (t : Team) (a : GReg), HelmTurn s t →
    let d := (t.reg a).toNat
    let ends (s' : State) : Prop := s'.team? t.key = none ∧ ∃ p ∈ s'.posts, p.record = (haltRecord t d).image
    (t.super = false → exec (.halt a) s = .next (s.helmTrap t.key (plainCause 0x03))) ∧
    (t.super = true → t.inVector = false → exec (.halt a) s = .next (s.helmTrap t.key (plainCause 0x01))) ∧
    (t.super = true → t.inVector = true → s.calm t = false → exec (.halt a) s = .next (s.helmWait t.key .drain)) ∧
    (t.super = true → t.inVector = true → s.calm t = true → s.queueFull = true → exec (.halt a) s = .next (s.helmWait t.key .faultQueue)) ∧
    (t.super = true → t.inVector = true → s.calm t = true → s.queueFull = false →
      (d = 0 → ∃ s', exec (.halt a) s = .next s' ∧ ends s') ∧
      (d % 4096 ≠ 0 → ∃ s' p, exec (.halt a) s = .next s' ∧ s'.posts = s.posts ++ [p] ∧
        p.record = ({ doubleRecord t 0x08 with fva := d, flags := 1, src := d } : RecordFields).image ∧
        s'.team? t.key = some { t with phase := .stopped, waitFor := none, granted := none }) ∧
      (d ≠ 0 → d % 4096 = 0 → (s.writeDump t d 0 (2 ^ 57) (s.teamClass t)).fail = none → ∃ s', exec (.halt a) s = .next s' ∧ ends s') ∧
      (∀ sec va c, d ≠ 0 → d % 4096 = 0 → (s.writeDump t d 0 (2 ^ 57) (s.teamClass t)).fail = some (sec, va, c) →
        ∃ s' p v, exec (.halt a) s = .next s' ∧ s'.posts = (s.writeDump t d 0 (2 ^ 57) (s.teamClass t)).state.posts ++ [p] ∧
          p.record = ({ doubleRecord t c with fva := va, fsec := c + sec * 2 ^ 8, flags := 1, src := d } : RecordFields).image ∧
          s'.team? t.key = some v ∧ v.phase = .stopped))

/-- R389 to R392: what `team.info` reads; `team.exit` waits for the team's work, and then the team is gone, with its release in its nest; `yield` at
user privilege goes on, or leaves its bay at a node boundary when a candidate waits that would fit; at supervisor privilege it is a full
save, with the helm at the word after it, or where the save fails frozen before it. That it waits until nothing of the team is under way, and what
a failed save leaves, are the model's choice (logs 71, 72). -/
def Obligations.TeamWords : Prop :=
  ∀ (s : State) (t : Team), HelmTurn s t →
    (∀ d item v, t.mayWrite d = true →
      let on (b : Nat) : Nat := (t.groups.filter fun g => g.bay == b).length
      (item, v) ∈ ([(0, t.tid), (1, t.nid), (2, t.ordinal), (3, t.queue + s.priority t.queue * 2 ^ 8),
        (4, on t.bay + (if t.duplex then on (t.bay + 1) else 0) * 2 ^ 8 + t.kernel.width * 2 ^ 16), (5, t.block),
        (6, t.settle.pool + t.settle.poolPartner * 2 ^ 8), (7, t.resumes)] : List (BitVec 4 × Nat)) →
      exec (.teamInfo d item) s = .next (s.afterValue t 4 d (BitVec.ofNat 64 v))) ∧
    (s.workDone t = false → exec .teamExit s = .next (s.helmWait t.key .drain)) ∧
    (s.workDone t = true → ∃ s', exec .teamExit s = .next s' ∧ s'.team? t.key = none ∧
      ∀ n ∈ s'.nests, n.nid = t.nid → n.done ≠ []) ∧
    (t.super = false → s.atNode t = false → exec .yield s = .next (s.helmTrap t.key (plainCause 0x01))) ∧
    (t.super = false → s.atNode t = true → s.yieldsTo t = false → exec .yield s = .next (s.retire t 4 .seq)) ∧
    (t.super = false → s.atNode t = true → s.yieldsTo t = true → (s.quiet t && t.phase == .running) = false →
      exec .yield s = .next (s.helmWait t.key .drain)) ∧
    (t.super = false → s.atNode t = true → s.yieldsTo t = true → s.quiet t = true → t.phase = .running → t.g.length = 64 →
      ∃ s' u, exec .yield s = .next s' ∧ s'.team? t.key = some u ∧ u.resident = false ∧ u.ready = .now ∧ u.groups = [] ∧
        (u.pc, u.loop) = nextWord t 4 ∧ u.shapes = t.shapes ∧ u.fmts = t.fmts ∧ u.segs = t.segs ∧ u.curObj = t.curObj ∧ u.rq = t.rq ∧
        ∀ n i, s.nest? t.nid = some n → i < 64 → (keptAtNode n.record.live i → u.g[i]? = t.g[i]?)) ∧
    (t.super = true → s.still t = false → exec .yield s = .next (s.helmWait t.key .drain)) ∧
    (t.super = true → s.still t = true →
      ((t.stepPast 4).pc, (t.stepPast 4).loop) = nextWord t 4 ∧
      let saved := (s.mapTeam t.key (·.stepPast 4)).fullSave (t.stepPast 4) .release
      ∃ u, saved.team? t.key = some u ∧
        (u.resident = true → exec .yield s = .next (s.fullSave t .release)) ∧
        (u.resident = false → exec .yield s = .next saved ∧ (t.resident = true → u.ready = .release)))

/-- R377 to R379, R387: the checks of a launch in their order, and the nest that it pushes, with its NID in gd; `fork` adds a child to its team and
stands ahead of its queue's undispatched launches; the first execution of `fork.wait` launches its child and then joins: as the child is not
complete, it waits, or leaves its bay at once. That a DEPTHM1 of 8 to 15 raises QUEUE_PROTOCOL is the model's choice (log 45).
R388: a join with no uncompleted child writes the count and goes on, knowing what its children did; otherwise the team leaves its bay at the
node boundary and waits for them. `fork.wait` that has launched its child goes on as `join`; the count that it writes, and that it launches once,
are the model's reading (log 74). -/
def Obligations.LaunchAndJoinWords : Prop :=
  (∀ (s s1 s2 s3 : State) (t : Team) (d a : GReg) (flag child : Bool) (queue : BitVec 6) (seg : BitVec 4) (imm : W32) (dct : Dct)
     (us : List Nat) (ext : Option (List W128 × List W32)), HelmTurn s t →
     let i : Instr := if child then .fork d a flag queue seg imm else .nestLaunch d a flag queue seg imm
     let image := unitsValue us
     let count := countAfter (((s3.launched.find? fun x => x.1 == queue.toNat).map (·.2)).getD 0)
     let nid := queue.toNat * 2 ^ 26 + count
     (child = true → s.atNode t = false → exec i s = .next (s.helmTrap t.key (plainCause 0x01))) ∧
     ((child = true → s.atNode t = true ∧ (flag = true → t.joining = false)) → readDct t.place t.dctx s = .ok (dct, s1) →
       (¬launchAllowed dct queue.toNat → exec i s = .next (s.helmTrap t.key (plainCause 0x03))) ∧
       (launchAllowed dct queue.toNat → t.mayWrite d = false → exec i s = .next (s.helmTrap t.key (plainCause 0x03))) ∧
       (launchAllowed dct queue.toNat → t.mayWrite d = true → imm.toNat + 128 ≤ segLimit (t.seg seg.toNat) →
         recordLoc t (t.seg seg.toNat) imm.toNat 2 s1 = .ok (us, s2) →
         (field image 575 512 = 0 ∧ ext = none ∧ s3 = s2 ∨
          field image 575 512 ≠ 0 ∧ field image 575 512 + 224 ≤ segLimit (t.seg 4) ∧
           ∃ e, readExtension t (field image 575 512) s2 = .ok (e, s3) ∧ ext = some e) →
         (¬LaunchAccepted image ext (launchEntry s3 { t with dct := dct } image) → exec i s = .next (s.helmTrap t.key (plainCause 0x09))) ∧
         (LaunchAccepted image ext (launchEntry s3 { t with dct := dct } image) →
           (2 ^ 57 < field image 703 640 + field image 447 416 → exec i s = .next (s.helmTrap t.key (plainCause 0x04 (field image 703 640)))) ∧
           (field image 703 640 + field image 447 416 ≤ 2 ^ 57 → 2 ^ 57 < field image 639 576 + field image 463 448 * field image 415 384 →
             exec i s = .next (s.helmTrap t.key (plainCause 0x04 (field image 639 576)))) ∧
           (field image 703 640 + field image 447 416 ≤ 2 ^ 57 → field image 639 576 + field image 463 448 * field image 415 384 ≤ 2 ^ 57 →
             (1024 ≤ (s3.nests.countP fun n => n.queue == queue.toNat) → exec i s = .next (s3.helmWait t.key (.launchQueue queue.toNat))) ∧
             ((s3.nests.countP fun n => n.queue == queue.toNat) < 1024 → ∃ n : Nest, n.nid = nid ∧
               (let s4 := s3.drainParty t.place.party
                let s5 (nests : List Nest) : State :=
                  { s4 with launched := (queue.toNat, count) :: s4.launched.filter fun x => x.1 != queue.toNat, nests := nests }
                (child = false → LaunchOf s4 t a flag false queue.toNat image ext n ∧
                  exec i s = .next ((s5 (s4.nests ++ [n])).afterValue t 8 d (BitVec.ofNat 64 nid))) ∧
                (child = true → flag = false → LaunchOf s4 t a false true queue.toNat image ext n ∧ ∃ nests, ForkedInto n s4.nests nests ∧
                  exec i s = .next (((s5 nests).mapTeam t.key fun u => { u with children := u.children + 1 }).afterValue t 8 d (BitVec.ofNat 64 nid))) ∧
                (child = true → flag = true → LaunchOf s4 t a false true queue.toNat image ext n ∧ ∃ nests, ForkedInto n s4.nests nests ∧
                  let child (u : Team) : Team := ({ u with children := u.children + 1 } : Team).setReg d (BitVec.ofNat 64 nid)
                  let u := child t
                  let s6 := (s5 nests).mapTeam t.key fun x => { child x with joining := true }
                  ((s6.quiet u && t.phase == .running) = false → exec i s = .next (s6.helmWait t.key .children)) ∧
                  ((s6.quiet u && t.phase == .running) = true → t.g.length = 64 → ∃ s' v, exec i s = .next s' ∧ s'.team? t.key = some v ∧
                    v.resident = false ∧ v.ready = .children ∧ v.pc = t.pc ∧ v.joining = true ∧ v.children = t.children + 1))))))))) ∧
  (∀ (s : State) (t : Team) (d a : GReg) (queue : BitVec 6) (seg : BitVec 4) (imm : W32) (i : Instr) (len : Nat), HelmTurn s t →
     (i = .join d ∧ len = 4 ∨ i = .fork d a true queue seg imm ∧ len = 8 ∧ t.joining = true) →
     (s.atNode t = false → exec i s = .next (s.helmTrap t.key (plainCause 0x01))) ∧
     (s.atNode t = true → t.mayWrite d = false → exec i s = .next (s.helmTrap t.key (plainCause 0x03))) ∧
     (s.atNode t = true → t.mayWrite d = true → t.children = 0 → t.g.length = 64 →
       ∃ s' u, exec i s = .next s' ∧ s'.team? t.key = some u ∧ u.reg d = (if d = 0 then 0 else BitVec.ofNat 64 (if t.joining then t.joined else 0)) ∧
         t.SameRegsBut u d ∧ (t.phase ≠ .stepping → (u.pc, u.loop) = nextWord t len) ∧ u.joined = 0 ∧ u.joining = false ∧
         State.SameMemory s s' ∧ State.SameOthers s s' t.key ∧
         ∀ id ∈ t.childRelease.known, id ∈ (s'.knowOf t.place.party).known) ∧
     (s.atNode t = true → t.mayWrite d = true → t.children ≠ 0 → (s.quiet t && t.phase == .running) = false →
       exec i s = .next ((s.mapTeam t.key fun u => { u with joining := true }).helmWait t.key .children)) ∧
     (s.atNode t = true → t.mayWrite d = true → t.children ≠ 0 → s.quiet t = true → t.phase = .running →
       ∃ s' u, exec i s = .next s' ∧ s'.team? t.key = some u ∧ u.resident = false ∧ u.ready = .children ∧ u.pc = t.pc ∧ u.joining = true))

/-- R357, R272, R420, R431: `seg.bind` in its two forms, `fmt.set`, and `lnk.set`, whose entry and whose references change in single steps at
their homes; an entry in peer memory needs a peer that can be reached.
R363 to R365: the invalidations, `pg.probe`, and `pg.map`, which writes no tree unless every walk reaches its level, waits for the accesses that
used the old leaf, and answers it. What the page holds then is the content that it is mapped with (log 84). That `pg.map` beyond the address
space finds no page, and that only frames of HBM have tokens to recall, are the model's choice (log 56), as is which of the walks that R362 allows
`pg.probe` shows (log 97). -/
def Obligations.SegmentAndPageWords : Prop :=
  (∀ (s : State) (t : Team) (n src : BitVec 4) (a : GReg) (keep : BitVec 3) (idx : W32), HelmTurn s t →
     let d := (t.reg a).toNat + (t.reg (a + 1)).toNat * 2 ^ 64
     let from_ := (t.seg src.toNat).toNat
     let o := (t.reg a).toNat
     let len := (t.reg (a + 1)).toNat
     let own := t.super = true ∨ (5 ≤ n.toNat ∧ n.toNat ≤ 14)
     let bound (v : W128) : State := s.mapTeam t.key fun u => { u with segs := u.segs.set n.toNat v }
     (t.super = false → exec (.segBindLd n a) s = .next (s.helmTrap t.key (plainCause 0x03))) ∧
     (t.super = true → descriptorBad d → exec (.segBindLd n a) s = .next (s.helmTrap t.key (plainCause 0x01))) ∧
     (t.super = true → ¬descriptorBad d → sizeOfSpace d < field d 56 0 + field d 121 64 →
       exec (.segBindLd n a) s = .next (s.helmTrap t.key (plainCause 0x04 (field d 56 0)))) ∧
     (t.super = true → ¬descriptorBad d → field d 56 0 + field d 121 64 ≤ sizeOfSpace d →
       exec (.segBindLd n a) s = .next ((bound (BitVec.ofNat 128 d)).retire t 8 .seq)) ∧
     (¬own → exec (.segBindNarrow n src a keep) s = .next (s.helmTrap t.key (plainCause 0x03))) ∧
     (own → field from_ 121 64 < o + len →
       exec (.segBindNarrow n src a keep) s = .next (s.helmTrap t.key (plainCause 0x04 ((field from_ 56 0 + o + len) % 2 ^ 64)))) ∧
     (own → o + len ≤ field from_ 121 64 →
       exec (.segBindNarrow n src a keep) s = .next ((bound (narrowed from_ o len keep)).retire t 8 .seq)) ∧
     (exec (.fmtSet a n) s = .next ((s.mapTeam t.key fun u => { u with fmts := u.fmts.set n.toNat (t.reg a) }).retire t 8 .seq)) ∧
     (t.super = false → exec (.lnkSet a idx) s = .next (s.helmTrap t.key (plainCause 0x03))) ∧
     -- the entry's address, read and written; W of seg15 is not required
     let at_ := helmAddress t (t.seg 15 ||| BitVec.ofNat 128 (2 ^ 58)) ((t.reg 63).toInt + 16 * (idx.toNat : Int)) 16 .atomic s
     (∀ c, t.super = true → at_ = .error (.trap c) → exec (.lnkSet a idx) s = .next (s.helmTrap t.key c)) ∧
     (∀ L s0 c, t.super = true → at_ = .ok (L, s0) → (peerOf L.loc).isSome = true →
       checkHealth L.loc (L.va.getD 0) true s0 = .error (.trap c) → exec (.lnkSet a idx) s = .next (s.helmTrap t.key c)) ∧
     let reached (L : Located) (s1 : State) : Prop := ∃ s0, at_ = .ok (L, s0) ∧
       ((peerOf L.loc).isSome = false ∧ s1 = s0 ∨ (peerOf L.loc).isSome = true ∧ checkHealth L.loc (L.va.getD 0) true s0 = .ok ((), s1))
     (∀ L s1, t.super = true → reached L s1 → s1.leased t.key L.loc 16 = true → exec (.lnkSet a idx) s = .next (s1.helmWait t.key .matrix)) ∧
     (∀ L s1, t.super = true → reached L s1 → s1.leased t.key L.loc 16 = false →
       let v := linkValue (t.reg a)
       (v ≠ 0 → (v / 2 ^ 48 = 0 ∨ s1.objLoc t (v / 2 ^ 48) = none) → exec (.lnkSet a idx) s = .next (s.helmTrap t.key (plainCause 0x05 v))) ∧
       (∀ e u, v / 2 ^ 48 ≠ 0 → s1.objLoc t (v / 2 ^ 48) = some (e, u) → readValue (u.atomicRead t.place e 64).1 % 4 < 2 →
         exec (.lnkSet a idx) s = .next (s.helmTrap t.key (plainCause 0x05 v))) ∧
       (∀ s2, (v = 0 ∧ s2 = s1 ∨ v / 2 ^ 48 ≠ 0 ∧ ∃ e u, s1.objLoc t (v / 2 ^ 48) = some (e, u) ∧ 2 ≤ readValue (u.atomicRead t.place e 64).1 % 4 ∧
           (v % 4 = 0 → s2 = (u.atomicRead t.place e 64).2.addRefs t.place e 1)) →
         (v % 4 ≠ 0 → exec (.lnkSet a idx) s = .next (s.helmTrap t.key (plainCause 0x08 v))) ∧
         (v % 4 = 0 →
           let r := (s2.drainParty t.place.party).atomicReadIn t.place t.regionsNow L.va L.loc 16
           let s3 := r.2.atomicWriteIn t.place t.regionsNow L.va (some 5) r.1 L.loc (leBytes 8 v ++ leBytes 8 (t.reg (a + 1)).toNat)
           let old := field (readValue r.1) 63 48
           ((old = 0 ∨ s3.objLoc t old = none) → exec (.lnkSet a idx) s = .next (s3.retire t 8 .seq)) ∧
           (∀ e u, old ≠ 0 → s3.objLoc t old = some (e, u) → exec (.lnkSet a idx) s = .next ((u.addRefs t.place e (-1)).retire t 8 .seq)))))) ∧
  (∀ (s : State) (t : Team) (d a : GReg) (dmask : BitVec 4) (large : Bool), HelmTurn s t →
     (∀ i va, (i = .tlbInv a ∧ va = some (t.reg a).toNat ∨ i = .tlbInvAll ∧ va = none) →
       let busy := s.flightThrough t.die t.dct.aspace (va.map fun x => x / 2 ^ 16) false
       (t.super = false → exec i s = .next (s.helmTrap t.key (plainCause 0x03))) ∧
       (t.super = true → busy = true → exec i s = .next (s.helmWait t.key .invalidation)) ∧
       (t.super = true → busy = false → exec i s = .next ((s.invalidate t.die t.dct.aspace va false).retire t 4 .seq)) ∧
       ∀ large e, (e ∈ (s.invalidate t.die t.dct.aspace va large).tlb ↔ e ∈ s.tlb ∧ ¬invalidates t.die t.dct.aspace va large e)) ∧
     (t.mayWrite d = true →
       let va := (t.reg a).toNat
       let cached := s.tlb.any fun e => e.bay == t.bay && e.helm && e.aspace == t.dct.aspace && e.page == (if e.large then va / 2 ^ 21 else va / 2 ^ 16)
       (2 ^ 57 ≤ va → exec (.pgProbe d a) s = .next (s.afterValue t 4 d 0)) ∧
       (va < 2 ^ 57 → ∃ w ∈ s.walks (t.dct.roots.getD t.die 0) t.dct.aspace t.die va, ∃ tick, exec (.pgProbe d a) s =
         .next (({ s with tick := tick } : State).afterValue t 4 d (BitVec.ofNat 64 (probed w t.super cached)))) ∧
       (∀ w, va < 2 ^ 57 → s.walks (t.dct.roots.getD t.die 0) t.dct.aspace t.die va = [w] → exec (.pgProbe d a) s =
         .next (s.afterValue t 4 d (BitVec.ofNat 64 (probed w t.super cached))))) ∧
     (let va := (t.reg a).toNat
      let new := (t.reg (a + 1)).toNat
      let level := if large then 1 else 0
      let dies := (List.range 4).filter fun i => dmask.getLsbD i && s.dieUp i
      let i : Instr := .pgMap d a dmask large
      (t.super = false → exec i s = .next (s.helmTrap t.key (plainCause 0x03))) ∧
      (t.super = true → field new 63 63 = 1 → leafMalformed level new = true → exec i s = .next (s.helmTrap t.key (plainCause 0x01))) ∧
      (t.super = true → (field new 63 63 = 1 → leafMalformed level new = false) →
       ((2 ^ 57 ≤ va ∧ dies ≠ [] ∨ ∃ x ∈ dies, (s.walkFrom va level 3 (t.dct.roots.getD x 0)).level ≠ level) →
         exec i s = .next (s.helmTrap t.key (plainCause 0x06 va))) ∧
       (va < 2 ^ 57 → (∀ x ∈ dies, (s.walkFrom va level 3 (t.dct.roots.getD x 0)).level = level) →
         let targets := dies.map fun x => (x, (s.walkFrom va level 3 (t.dct.roots.getD x 0)).loc)
         let busy := ∃ x ∈ dies, s.flightThrough x t.dct.aspace (some (va / 2 ^ 16)) large = true
         let old := match targets with | x :: _ => leNat (memGetList s.mem x.2 8) | [] => 0
         let write (s : State) (x : Nat × Nat) : State :=
           (((s.atomicRead t.place x.2 8).2).atomicWrite t.place none (s.atomicRead t.place x.2 8).1 x.2 (leBytes 8 new)).invalidate x.1
             t.dct.aspace (some va) large
         (busy → exec i s = .next (s.helmWait t.key .invalidation)) ∧
         (¬busy → recalls old new →
           exec i s = .next ((targets.foldl write ((s.recallTokens (field old 51 16 * 2 ^ 16) (if large then 2 ^ 21 else 2 ^ 16)).enterFrame t va new large)).afterValue
             t 8 d (BitVec.ofNat 64 old))) ∧
         (¬busy → ¬recalls old new → exec i s = .next ((targets.foldl write (s.enterFrame t va new large)).afterValue t 8 d (BitVec.ofNat 64 old)))))))

/-- R188, R393: `rb.surr` takes blocks off the map of the groups selected, for every entry pushed after it; `rb.claim` waits for the pool, puts the
blocks on the map, and their registers read 0 until they are written; the cases in which they raise ILLEGAL or QUEUE_PROTOCOL. -/
def Obligations.BlockWords : Prop :=
  ∀ (s : State) (t : Team) (a : GReg) (mask : BitVec 7), HelmTurn s t → t.phase ≠ .stepping →
    let gsel := (t.reg a).toNat % 256
    let sel := (gsel < 0x20 ∨ gsel = 0xFF) ∧ groupsExist t gsel
    let named (f : Group → Nat → Prop) : Prop := ∀ g b, blockSelected t gsel g → b < 7 → mask.getLsbD b = true → f g b
    let mayGive := named fun g b => (g.mapAt t.nextPush).getLsbD b = true ∧ ¬surrendering t g.num b
    let mayTake := named fun g b => (g.mapAt t.nextPush).getLsbD b = false ∧ ¬surrendering t.settle g.num b
    let need_ (lead : Bool) : Nat := ((t.selected gsel).filter fun g => (g.bay == t.bay) == lead).length * ((List.range 7).filter fun b => mask.getLsbD b).length
    let coming (lead : Bool) : Nat := (t.settle.surrenders.filter fun x =>
      match t.group? x.grp with | some g => (g.bay == t.bay) == lead | none => false).length
    let enough := need_ true ≤ t.settle.pool + coming true ∧ need_ false ≤ t.settle.poolPartner + coming false
    let there := need_ true ≤ t.settle.pool ∧ need_ false ≤ t.settle.poolPartner
    (mask = 0 → exec (.rbSurr a mask) s = .next (s.helmTrap t.key (plainCause 0x01)) ∧
      exec (.rbClaim a mask) s = .next (s.helmTrap t.key (plainCause 0x01))) ∧
    (mask ≠ 0 → (¬sel ∨ ¬mayGive) → exec (.rbSurr a mask) s = .next (s.helmTrap t.key (plainCause 0x09))) ∧
    (mask ≠ 0 → (¬sel ∨ ¬mayTake ∨ ¬enough) → exec (.rbClaim a mask) s = .next (s.helmTrap t.key (plainCause 0x09))) ∧
    (mask ≠ 0 → sel → mayGive → ∃ s' u, exec (.rbSurr a mask) s = .next s' ∧ s'.team? t.key = some u ∧ u.groups.length = t.groups.length ∧
      (u.pc, u.loop) = nextWord t 4 ∧ u.g = t.g ∧ State.SameMemory s s' ∧
      ∀ (i : Nat) g h, t.groups[i]? = some g → u.groups[i]? = some h → h.num = g.num ∧ h.base = g.base ∧ h.rlog = g.rlog ∧
        (¬blockSelected t gsel g → h = g) ∧ (blockSelected t gsel g →
          (∀ n, n < t.nextPush → h.mapAt n = g.mapAt n) ∧ ∀ n, t.nextPush ≤ n → h.mapAt n = g.mapAt t.nextPush &&& ~~~mask)) ∧
    (mask ≠ 0 → sel → mayTake → enough → ¬there → exec (.rbClaim a mask) s = .next ((s.mapTeam t.key Team.settle).helmWait t.key .blocks)) ∧
    (mask ≠ 0 → sel → mayTake → enough → there → ∃ s' u, exec (.rbClaim a mask) s = .next s' ∧ s'.team? t.key = some u ∧
      u.groups.length = t.groups.length ∧ (u.pc, u.loop) = nextWord t 4 ∧ u.g = t.g ∧ State.SameMemory s s' ∧
      u.pool = t.settle.pool - need_ true ∧ u.poolPartner = t.settle.poolPartner - need_ false ∧
      ∀ (i : Nat) g h, t.groups[i]? = some g → u.groups[i]? = some h → h.num = g.num ∧ (¬blockSelected t gsel g → h = g) ∧ (blockSelected t gsel g →
        (∀ n, n < t.nextPush → h.mapAt n = g.mapAt n) ∧ (∀ n, t.nextPush ≤ n → h.mapAt n = g.mapAt t.nextPush ||| mask) ∧
        (∀ x ∈ h.rlog, x.reg < 112 → mask.getLsbD (x.reg / 16) = false) ∧
        (∀ x ∈ h.base, x.1 / 64 < 112 → mask.getLsbD (x.1 / 1024) = false)))

/-- R236, R238 to R242: the helm's ring words. A claim takes the next slot, a wait-fill the oldest full one; each waits in its turn; a ring that is aborted
or ended gives the null ticket, and a claim of an ended ring raises RING_PROTOCOL; an abort ends every wait, an eos those of claims; a commit and a release move HEAD and TAIL over contiguous
slots; a stale or invalid entry raises RING_PROTOCOL. A slot's address modulo 2^32 is the model's choice (log 107).
R237: the checks of `rg.init` in their order, and the ring that it makes, on the owned descriptor or on a free one of the lead bay. Which free one, and the fault address of SEG_LIMIT, are
the model's choice (log 57). -/
def Obligations.HelmRings : Prop :=
  (∀ (s : State) (t : Team) (d a : GReg) (ring : BitVec 4) (scope : BitVec 3), HelmTurn s t → t.mayWrite d = true →
     let p := Party.helm t.key
     let v := (t.reg a).toNat % 2 ^ 32
     let s0 := s.drainParty p
     let rel := s0.releaseOf t.place scope.toNat
     (s.ringOf t ring.toNat = none → ∀ i ∈ [Instr.rgClaim d ring scope, .rgWfill d ring scope, .rgCommit a ring scope, .rgRelease a ring scope,
       .rgEos ring scope, .rgAbort ring, .rgStat d ring], exec i s = .next (s.helmTrap t.key (plainCause 0x10))) ∧
     ∀ r, s.ringOf t ring.toNat = some r →
       -- a wait that an abort or an eos has ended, and a ring that is aborted or ended
       ((waitEnded r p = some true ∨ (waitEnded r p = none ∧ r.abort = true)) →
         exec (.rgClaim d ring scope) s = .next ((s.setRing (ringLeft r p)).afterValue t 4 d abortTicket)) ∧
       ((waitEnded r p ≠ none ∨ r.abort = true) →
         exec (.rgWfill d ring scope) s = .next ((s.setRing (ringLeft r p)).afterValue t 4 d abortTicket)) ∧
       ((waitEnded r p = some false ∨ (waitEnded r p = none ∧ r.abort = false ∧ r.eos = true)) →
         exec (.rgClaim d ring scope) s = .next (s.helmTrap t.key (plainCause 0x10))) ∧
       (waitEnded r p = none → r.abort = false → r.eos = false → ¬(countsApart r.claimed r.tail < ringCount r ∧ firstInLine r p true) →
         exec (.rgClaim d ring scope) s = .next ((s.setRing (ringJoined r p true)).helmWait t.key (.ring r.bay r.desc true))) ∧
       (waitEnded r p = none → r.abort = false → r.eos = false → countsApart r.claimed r.tail < ringCount r → firstInLine r p true →
         let n := r.claimed % ringCount r
         ∃ s1, helmAcquire t scope.toNat none ((r.frees[n]?).join).toList
           ((s.setRing { ringLeft r p with slots := r.slots.set n 1, claimed := (r.claimed + 1) % 2 ^ 32 }).wakeRing (ringLeft r p)) = .ok ((), s1) ∧
         exec (.rgClaim d ring scope) s = .next (s1.afterValue t 4 d (slotTicket r n))) ∧
       (waitEnded r p = none → r.abort = false → r.taken ≠ r.head → firstInLine r p false →
         let n := r.taken % ringCount r
         ∃ s1, helmAcquire t scope.toNat none (commitsTo r)
           ((s.setRing { ringLeft r p with slots := r.slots.set n 3, taken := (r.taken + 1) % 2 ^ 32 }).wakeRing (ringLeft r p)) = .ok ((), s1) ∧
         exec (.rgWfill d ring scope) s = .next (s1.afterValue t 4 d (slotTicket r n))) ∧
       (waitEnded r p = none → r.abort = false → r.taken = r.head → r.eos = true → r.head = r.claimed →
         ∃ s1, helmAcquire t scope.toNat none r.eosRelease.toList (s.setRing (ringLeft r p)) = .ok ((), s1) ∧
         exec (.rgWfill d ring scope) s = .next (s1.afterValue t 4 d eosTicket)) ∧
       (waitEnded r p = none → r.abort = false → ¬(r.taken ≠ r.head ∧ firstInLine r p false) →
         ¬(r.taken = r.head ∧ r.eos = true ∧ r.head = r.claimed) →
         exec (.rgWfill d ring scope) s = .next ((s.setRing (ringJoined r p false)).helmWait t.key (.ring r.bay r.desc false))) ∧
       ((v = 0xFFFFFFFF ∨ r.abort = true) →
         exec (.rgCommit a ring scope) s = .next (s0.retire t 4 .seq) ∧ exec (.rgRelease a ring scope) s = .next (s0.retire t 4 .seq)) ∧
       (v ≠ 0xFFFFFFFF → r.abort = false →
         ((∀ n, namesSlot r v n → r.slots.getD n 0 ≠ 1) → exec (.rgCommit a ring scope) s = .next (s.helmTrap t.key (plainCause 0x10))) ∧
         ((∀ n, namesSlot r v n → r.slots.getD n 0 ≠ 3) → exec (.rgRelease a ring scope) s = .next (s.helmTrap t.key (plainCause 0x10))) ∧
         (∀ n, namesSlot r v n → r.slots.getD n 0 = 1 → r.head < 2 ^ 32 → r.claimed < 2 ^ 32 → countsApart r.claimed r.head ≤ 256 → ∃ h hs,
           passes r (r.slots.set n 2) 2 r.head r.claimed h ∧
           exec (.rgCommit a ring scope) s = .next (((s0.setRing { r with
             slots := r.slots.set n 2, commits := r.commits.set n (some rel), head := h, headReleases := r.headReleases ++ hs }).wakeRing r).retire t 4 .seq)) ∧
         (∀ n, namesSlot r v n → r.slots.getD n 0 = 3 → r.tail < 2 ^ 32 → r.taken < 2 ^ 32 → countsApart r.taken r.tail ≤ 256 → ∃ h,
           passes r (r.slots.set n 0) 0 r.tail r.taken h ∧
           exec (.rgRelease a ring scope) s = .next (((s0.setRing { r with
             slots := r.slots.set n 0, frees := r.frees.set n (some rel), tail := h }).wakeRing r).retire t 4 .seq))) ∧
       exec (.rgEos ring scope) s = .next (((s0.setRing (ringEnded r rel)).wakeRing r).retire t 4 .seq) ∧
       exec (.rgAbort ring) s = .next (((s.setRing (ringAborted r)).wakeRing r).retire t 4 .seq) ∧
       exec (.rgStat d ring) s = .next (s.afterValue t 4 d (BitVec.ofNat 64 (ringStat r)))) ∧
  (∀ (s : State) (t : Team) (a : GReg) (ring : BitVec 4) (space : BitVec 2) (seg : BitVec 4) (base : W32), HelmTurn s t →
     let x := (t.reg a).toNat
     let szc := x % 16
     let cnt := x / 16 % 256
     let size := (cnt + 1) * (64 * 2 ^ szc)
     let sg := t.seg (if seg = 0 then 4 else seg.toNat)
     let isFree (desc : Nat) : Prop := desc < 16 ∧ ∀ r, s.ringAt t.bay desc = some r → r.valid = false
     let good := szc ≤ 10 ∧ cnt ≠ 0 ∧ x < 2 ^ 12 ∧ base.toNat % 64 = 0
     let mine : Prop := match s.ringOf t ring.toNat with
       | some r => r.team = t.key ∧ r.waiters = []
       | none => ∃ desc, isFree desc
     let beyond := if space = 3 then segLimit sg < base.toNat + size else s.localLoc t t.bay (space.toNat + 1) base.toNat size = none
     let fva := if space = 3 then segBase sg + base.toNat else base.toNat
     let i : Instr := .rgInit a ring space seg base
     (¬(good ∧ mine) → exec i s = .next (s.helmTrap t.key (plainCause 0x10))) ∧
     (good → mine → beyond → exec i s = .next (s.helmTrap t.key { plainCause 0x04 (fva % 2 ^ 64) with write := true })) ∧
     (good → mine → ¬beyond → ∃ bay desc tick,
       (match s.ringOf t ring.toNat with | some r => bay = r.bay ∧ desc = r.desc ∧ tick = s.tick | none => bay = t.bay ∧ isFree desc) ∧
       exec i s = .next (((({ s with tick := tick } : State).setRing
         (freshRing bay desc (s.ringGen bay desc) t.key base.toNat cnt szc
           (if space = 3 ∧ seg = 0 then 4 else seg.toNat) space.toNat (match s.ringOf t ring.toNat with | some r => r.ended | none => []))).mapTeam t.key
         fun u => { u with rings := u.rings.set ring.toNat (some { bay := bay, desc := desc, gen := s.ringGen bay desc }) }).retire t 8 .seq)))

/-- R331, R342: an arrival adds to the counts of its record, which saturate, keeps its release with the phase it counts towards, and completes the
phase when both counts reach what they expect; the phase then advances, every registered wait for a completed phase ends, and its party
answers with the phase that it then finds, whatever becomes of the record. The answer's form is the model's reading of R337 (log 85), and the
record of an overflow index as its area shows it (log 90).
R334 to R339: the helm's waypoint words. `wp.init` allots the lowest free index with the next generation, resets and frees; an arrival, an
expectation, a wait, a test and a reading of the record; the cases of WAYPOINT_PROTOCOL; a wait on a phase that has not completed. The grant with
which a registered wait ends (log 85) and the room for waiters (log 90) are the model's reading. -/
def Obligations.Waypoints : Prop :=
  (∀ (s : State) (w : Waypoint) (n bytes lost : Nat) (fault : Bool) (rel : Option Release),
     s.waypoints.find? (fun x => x.die == w.die && x.index == w.index) = some w →
     let s' := s.arrive w n bytes lost fault rel
     let c := counted w n bytes lost fault rel
     s'.waypoints.find? (fun x => x.die == w.die && x.index == w.index) = some (tested c true) ∧
     (∀ x ∈ s.waypoints, (x.die ≠ w.die ∨ x.index ≠ w.index) → x ∈ s'.waypoints) ∧
     -- an overflow index has its record in the overflow area, which shows it as it stands
     (s.overflowLoc w = none → State.SameMemory s s') ∧ (∀ loc, s.overflowLoc w = some loc → State.SameOutside s s' loc 64) ∧
     (¬(w.aexp ≤ c.acnt ∧ w.bexp ≤ c.bcnt) → s'.teams = s.teams) ∧
     (w.aexp ≤ c.acnt → w.bexp ≤ c.bcnt → ∀ t p, s.team? t.key = some t → (Party.helm t.key, p) ∈ w.waiting →
       (w.waiting.filter fun x => x.1 == .helm t.key) = [(.helm t.key, p)] → phaseDone (nextPhase c) p →
       ∃ u, s'.team? t.key = some u ∧ (∀ q, u.waitFor ≠ some (.waypoint (handleOf w) q)) ∧
         u.granted = some { handle := handleOf w, waited := p, phase := (nextPhase c).phase, releases := phaseReleases (nextPhase c) p })) ∧
  (∀ (s : State) (t : Team) (d a : GReg) (ord : BitVec 2) (scope : BitVec 3) (life : BitVec 4) (aexp : W16) (die : BitVec 2) (here : Bool),
     HelmTurn s t → t.mayWrite d = true →
     let x := (t.reg d).toNat
     let h := (t.reg a).toNat % 2 ^ 32
     let hi := (t.reg a).toNat / 2 ^ 32
     let b := (t.reg a).toNat
     let bad := 2 ^ 40 ≤ b ∨ (aexp = 0 ∧ b = 0)
     let protocol := s.helmTrap t.key (plainCause 0x11)
     let named := s.waypoint? h t.dct.aspace
     -- a registered wait that its phase's completion has ended
     let ended := t.granted.filter fun g => g.handle == h && g.waited == hi
     let mine := s.waypoint? (x % 2 ^ 32) t.dct.aspace
     -- wp.init.alloc
     (bad → exec (.wpInitAlloc d a life aexp die here) s = .next protocol ∧ exec (.wpInitReset d a aexp) s = .next protocol) ∧
     (¬bad →
       let dd := if here then t.die else die.toNat
       let taken (i : Nat) : Prop := ∃ w ∈ s.waypoints, w.die = dd ∧ w.valid = true ∧ w.index = i
       ((s.dieUp dd = false ∨ ∀ i, i < waypointIndices s dd → taken i) →
         exec (.wpInitAlloc d a life aexp die here) s = .next (s.afterValue t 8 d 0)) ∧
       (∀ i, s.dieUp dd = true → i < waypointIndices s dd → ¬taken i → (∀ j, j < i → taken j) →
         let gen := match s.waypoints.find? (fun w => w.die == dd && w.index == i) with | some w => if w.gen < 63 then w.gen + 1 else 1 | none => 1
         let w := freshWaypoint t dd i gen life.toNat aexp.toNat b
         exec (.wpInitAlloc d a life aexp die here) s =
           .next ((({ s with waypoints := w :: s.waypoints.filter fun y => !(y.die == dd && y.index == i) } : State).spill dd i).afterValue t 8 d
             (BitVec.ofNat 64 (handleOf w))))) ∧
     -- wp.init.reset and wp.init.free
     (mine = none → (¬bad → exec (.wpInitReset d a aexp) s = .next protocol) ∧ exec (.wpInitFree d) s = .next protocol) ∧
     (∀ w, mine = some w → ¬mayFree t w → (¬bad → exec (.wpInitReset d a aexp) s = .next protocol) ∧ exec (.wpInitFree d) s = .next protocol) ∧
     (∀ w, mine = some w → mayFree t w →
       (¬bad → exec (.wpInitReset d a aexp) s = .next ((s.mapWaypoint w fun y => { y with
         ainit := aexp.toNat, binit := b, aexp := aexp.toNat, bexp := b, acnt := 0, bcnt := 0, lost := 0, fault := false, overBit := false
         releases := y.releases.filter fun r => r.1 != y.phase }).retire t 8 .seq)) ∧
       (w.waiting ≠ [] → exec (.wpInitFree d) s = .next protocol) ∧
       (w.waiting = [] → ∃ s', exec (.wpInitFree d) s = .next s' ∧ ∀ y ∈ s'.waypoints, y.die = w.die → y.index = w.index → y.valid = false)) ∧
     -- the words of R336
     (named = none → exec (.wpArrive d a ord scope) s = .next protocol ∧ (ended = none → exec (.wpWait d a ord scope) s = .next protocol) ∧
       exec (.wpTest d a ord scope) s = .next protocol ∧ exec (.wpExpect d a) s = .next protocol ∧
       (t.mayWrite (d + 1) = true → exec (.wpStat d a) s = .next protocol)) ∧
     (∀ g, ended = some g → ∃ s1, (ord ≠ 1 ∧ s1 = s ∨ ord = 1 ∧ helmAcquire t scope.toNat none g.releases s = .ok ((), s1)) ∧
       exec (.wpWait d a ord scope) s = .next (s1.afterValue t 4 d (BitVec.ofNat 64 g.phase))) ∧
     (hi ≠ 0 → exec (.wpExpect d a) s = .next protocol ∧ (t.mayWrite (d + 1) = true → exec (.wpStat d a) s = .next protocol)) ∧
     (2 ^ 56 ≤ x → exec (.wpExpect d a) s = .next protocol) ∧
     ∀ w, named = some w →
       (let s1 := if ord = 2 then s.drainParty t.place.party else s
        let rel := if ord = 2 then some (s1.releaseOf t.place scope.toNat) else none
        exec (.wpArrive d a ord scope) s = .next ((s1.arrive w 1 hi 0 false rel).afterValue t 4 d (BitVec.ofNat 64 w.phase))) ∧
       (hi = 0 → x < 2 ^ 56 → (65535 < w.aexp + x % 2 ^ 16 ∨ 2 ^ 40 ≤ w.bexp + x / 2 ^ 16) → exec (.wpExpect d a) s = .next protocol) ∧
       (hi = 0 → x < 2 ^ 56 → w.aexp + x % 2 ^ 16 ≤ 65535 → w.bexp + x / 2 ^ 16 < 2 ^ 40 →
         exec (.wpExpect d a) s = .next (((s.mapWaypoint w fun y => { y with aexp := y.aexp + x % 2 ^ 16, bexp := y.bexp + x / 2 ^ 16 }).testWaypoint
           w false).retire t 4 .seq)) ∧
       (¬phaseDone w hi → ended = none →
         let s1 := if w.waiting.any (·.1 == .helm t.key) || !s.waiterRoom w then s
           else s.mapWaypoint w fun y => { y with waiting := y.waiting ++ [(.helm t.key, hi)] }
         exec (.wpWait d a ord scope) s = .next (s1.helmWait t.key (.waypoint (handleOf w) hi))) ∧
       (phaseDone w hi → ∃ s1, (ord ≠ 1 ∧ s1 = s ∨ ord = 1 ∧ helmAcquire t scope.toNat none (phaseReleases w hi) s = .ok ((), s1)) ∧
         (ended = none → exec (.wpWait d a ord scope) s = .next (s1.afterValue t 4 d (BitVec.ofNat 64 w.phase))) ∧
         exec (.wpTest d a ord scope) s = .next (s1.afterValue t 4 d (BitVec.ofNat 64 (w.phase * 2 ^ 32 + 1)))) ∧
       (¬phaseDone w hi → exec (.wpTest d a ord scope) s = .next (s.afterValue t 4 d (BitVec.ofNat 64 (w.phase * 2 ^ 32)))) ∧
       (hi = 0 → t.mayWrite (d + 1) = true → exec (.wpStat d a) s = .next ((s.setPair t d
         (BitVec.ofNat 64 (w.lost * 2 ^ 48 + w.acnt * 2 ^ 32 + w.phase))
         (BitVec.ofNat 64 ((if w.pover then 2 ^ 58 else 0) + (if w.overBit then 2 ^ 57 else 0) + (if w.fault then 2 ^ 56 else 0) + w.plost * 2 ^ 40 +
           w.bcnt))).retire t 4 .seq)))

/-- R344 and R345: an atomic reads the bytes at their home, writes what its operation makes of them in the same step, and gives the old value; a
failed `cas` writes nothing; host and peer memory raise ATOMIC_EMULATE; leased bytes wait.
R347 to R349, R314, R315: the fences. `fence` acquires, releases or both; `fence.sc` waits for its place in the module's order, which one event
grants, and then joins what every earlier one knew; `fence.mk` keeps its markers and waits until they are satisfied, and with DONE
acquires what the marked work did. When a group has started an entry is the model's reading (log 27). -/
def Obligations.AtomicsAndFences : Prop :=
  (∀ (s : State) (t : Team) (i : Instr) (f : AtomicForm), HelmTurn s t → atomicForm i = some f →
     let n := if f.dbl then 8 else 4
     let v := (t.reg f.d).toNat % 2 ^ (8 * n)
     let e := (t.reg (f.d + 1)).toNat % 2 ^ (8 * n)
     let rel := f.ord.toNat / 2 = 1
     let acq := f.ord.toNat % 2 = 1
     (f.gives = true → t.mayWrite f.d = false → exec i s = .next (s.helmTrap t.key (plainCause 0x03))) ∧
     ((f.gives = true → t.mayWrite f.d = true) →
       (∀ c, helmAddress t (t.seg 4) (t.reg f.a).toInt n .atomic s = .error (.trap c) → exec i s = .next (s.helmTrap t.key c)) ∧
       (∀ L s1, helmAddress t (t.seg 4) (t.reg f.a).toInt n .atomic s = .ok (L, s1) →
         (outside L.loc → exec i s = .next (s.helmTrap t.key { plainCause 0x0B (L.va.getD 0 % 2 ^ 64) with write := true })) ∧
         (¬outside L.loc → s1.leased t.key L.loc n = true → exec i s = .next (s1.helmWait t.key .matrix)) ∧
         (¬outside L.loc → s1.leased t.key L.loc n = false →
           let s2 := if rel then s1.drainParty t.place.party else s1
           let r := s2.atomicReadIn t.place t.regionsNow L.va L.loc n
           let old := readValue r.1
           ∃ s3, (¬acq ∧ s3 = r.2 ∨ acq ∧ helmAcquire t f.scope.toNat L.va (readHeads r.1) r.2 = .ok ((), s3)) ∧
             let s4 := match f.new n old v e with
               | some x => s3.atomicWriteIn t.place t.regionsNow L.va (if rel then some f.scope.toNat else none) r.1 L.loc (leBytes n x)
               | none => s3
             (f.gives = false → exec i s = .next (s4.retire t 4 .seq)) ∧
             (f.gives = true → exec i s = .next (s4.afterValue t 4 f.d
               (if f.signs then BitVec.ofInt 64 (signedBytes n old) else BitVec.ofNat 64 old))))))) ∧
  (∀ (s : State) (t : Team) (ord : BitVec 2) (scope : BitVec 3), HelmTurn s t →
     (∃ s1, (ord.toNat % 2 = 0 ∧ s1 = s ∨ ord.toNat % 2 = 1 ∧ helmAcquire t scope.toNat none [] (s.fenceAcquire t.place scope.toNat) = .ok ((), s1)) ∧
       exec (.fence ord scope) s = .next ((if ord.toNat / 2 = 1 then s1.fenceRelease t.place scope.toNat else s1).retire t 4 .seq)) ∧
     (t.scGrant = false → exec .fenceSc s = .next ((s.mapTeam t.key fun u => { u with scWait := true }).helmWait t.key .fenceSc)) ∧
     (t.scGrant = true →
       ∃ s1, helmAcquire t 5 none [] (((s.drainParty t.place.party).fenceScJoin t.place).fenceAcquire t.place 5) = .ok ((), s1) ∧
       exec .fenceSc s = .next ((((s1.fenceRelease t.place 5).fenceScLeave t.place).mapTeam t.key fun u => { u with scWait := false, scGrant := false }).retire t 4 .seq)) ∧
     (∀ key u, s.team? key = some u →
       (u.scWait = true → u.scGrant = false → exec (.fenceScGrant key) s = .next (s.mapTeam key fun x => { x with scGrant := true, waitFor := none })) ∧
       ((u.scWait = false ∨ u.scGrant = true) → exec (.fenceScGrant key) s = .next s)) ∧
     (∀ cq ce mx done,
       let m := t.marks.getD (placedMarks s t cq ce mx)
       let kept := s.mapTeam t.key fun u => { u with marks := some m }
       let late (g : Group) : Prop := g ∈ t.groups ∧ ∃ n, m.cq = some n ∧ ∃ e ∈ t.cq, e.n < n ∧ e.selects g.num = true ∧ g.passed e.n = false
       let stuck := 16 ≤ t.rq.length ∧ (∃ g, late g) ∧ ∀ g, late g → g.blockedPosting t = true
       (¬cqMet s t m done → stuck → exec (.fenceMk cq ce mx done scope) s = .next (s.helmTrap t.key (plainCause 0x09))) ∧
       (¬(cqMet s t m done ∧ ceMet s m done ∧ mxMet s m done) → (cqMet s t m done ∨ ¬stuck) →
         exec (.fenceMk cq ce mx done scope) s = .next (kept.helmWait t.key .fenceMk)) ∧
       (cqMet s t m done → ceMet s m done → mxMet s m done →
         ∃ s1, (done = false ∧ s1 = kept ∨ done = true ∧ helmAcquire t scope.toNat none (doneReleases t scope.toNat cq ce mx) kept = .ok ((), s1)) ∧
         exec (.fenceMk cq ce mx done scope) s = .next ((s1.mapTeam t.key fun u => { u with marks := none }).retire t 8 .seq))))

/-- R278 to R284, R291: a data command reads its record, makes its checks in the order of R284, waits while its channel's queue is full, and enters it
with the next SEQ, the word's offset as its TAG, and its descriptor in gd; of the failing bytes of a side the one of lowest address is
taken. The natural offset of a record and the COPY_FAULT of a nonzero g(ga+1) of `cp.disp` are the model's reading (log 64).
R280, R298 and R299: `cp.replay` and `cp.replay.discard` act on the held command that a fault record names, and `cp.stat` reads a channel; at
user privilege each of them raises PRIV for a destination among k0 to k5. That a discard leaves its destination as it was is the model's choice
(log 108); the bytes that a discarded dispatch of unknown COUNT arrives with are free (log 30). -/
def Obligations.CopyWordsAndReplays : Prop :=
  ((∀ (s : State) (t : Team) (i : Instr) (cmd : Nat) (d a : GReg) (ch ord : BitVec 2) (seg : BitVec 4) (imm : W32), HelmTurn s t →
     copyForm i = some (cmd, d, a, ch, ord, seg, imm) →
     (t.mayWrite d = false → exec i s = .next (s.helmTrap t.key (plainCause 0x03))) ∧
     (∀ c, t.mayWrite d = true → seg ≠ 0 → readRecord t (t.seg seg.toNat) imm.toNat s = .error (.trap c) → exec i s = .next (s.helmTrap t.key c)) ∧
     (∀ s1 record, t.mayWrite d = true →
       (seg = 0 ∧ record = none ∧ s1 = s ∨ seg ≠ 0 ∧ ∃ r, readRecord t (t.seg seg.toNat) imm.toNat s = .ok (r, s1) ∧ record = some r) →
       (cmd = 4 → ¬scaleRecordGood (record.getD 0) → exec i s = .next (s.helmTrap t.key (plainCause 0x14))) ∧
       ((cmd = 4 → scaleRecordGood (record.getD 0)) → ∃ c : CopyCmd, IssuedCopy s1 t cmd a ch ord record c ∧
         (CopyRefused c → exec i s = .next (s.helmTrap t.key (plainCause 0x12))) ∧
         (∀ (k : Nat) (side : Nat × Bool × List Run) (o : Int) (code : Nat), ¬CopyRefused c → c.sides[k]? = some side → (∀ (j : Nat) (x : Nat × Bool × List Run), j < k → c.sides[j]? = some x →
             runsFault s1 t t.bay (c.seg x.1) x.2.1 x.2.2 = none) → runsFault s1 t t.bay (c.seg side.1) side.2.1 side.2.2 = some (o, code) →
           exec i s = .next (s.helmTrap t.key { plainCause code (((segBase (c.seg side.1) : Int) + o) % 2 ^ 64).toNat with write := side.2.1 })) ∧
         (¬CopyRefused c → (∀ x ∈ c.sides, runsFault s1 t t.bay (c.seg x.1) x.2.1 x.2.2 = none) →
           let o := (t.reg (a + 1)).toNat % 2 ^ 16
           let s2 := if ord.toNat % 2 = 1 then s1.drainParty t.place.party else s1
           (cmd = 4 → 0x10000 < o + scaleImage (record.getD 0) →
             exec i s = .next (s.helmTrap t.key { plainCause 0x04 (max o 0x10000) with write := true })) ∧
           (cmd = 4 → o + scaleImage (record.getD 0) ≤ 0x10000 → o % 64 ≠ 0 → exec i s = .next (s.helmTrap t.key (plainCause 0x08 o))) ∧
           ((cmd = 4 → o + scaleImage (record.getD 0) ≤ 0x10000 ∧ o % 64 = 0) →
             (16 ≤ inChannel s1 t.bay ch.toNat → exec i s = .next (s2.helmWait t.key .copyQueue)) ∧
             (inChannel s1 t.bay ch.toNat < 16 →
               exec i s = .next ((queuedCopy s2 c).afterValue t 8 d (copyDescriptor s2 t.bay ch.toNat)))))))) ∧
   ∀ (s : State) (t : Team) (bay : Nat) (sg : W128) (write : Bool) (rs : List Run) (o : Int) (code : Nat),
     runsFault s t bay sg write rs = some (o, code) → byteFault s t bay sg o write = some code ∧
       (∃ r ∈ rs, r.1 ≤ o ∧ o < r.1 + r.2) ∧
       ∀ r ∈ rs, ∀ p, r.1 ≤ p → p < r.1 + r.2 → (byteFault s t bay sg p write).isSome = true → o ≤ p) ∧
  (∀ (s : State) (t : Team) (d a : GReg) (ch : BitVec 2), HelmTurn s t →
     (t.mayWrite d = false → exec (.cpReplay d a) s = .next (s.helmTrap t.key (plainCause 0x03)) ∧
       exec (.cpReplayDiscard d a) s = .next (s.helmTrap t.key (plainCause 0x03)) ∧
       exec (.cpStat d a ch) s = .next (s.helmTrap t.key (plainCause 0x03))) ∧
     (t.mayWrite d = true →
     (∀ c, readRecord t (t.seg 4) (t.reg a).toInt s = .error (.trap c) →
       exec (.cpReplay d a) s = .next (s.helmTrap t.key c) ∧ exec (.cpReplayDiscard d a) s = .next (s.helmTrap t.key c)) ∧
     (∀ r s1, readRecord t (t.seg 4) (t.reg a).toInt s = .ok (r, s1) →
       let own := t.super = true ∨ (field r 159 152 = t.bay ∧ field r 151 150 = t.ctx)
       (¬own → exec (.cpReplay d a) s = .next (s.helmTrap t.key (plainCause 0x03)) ∧
         exec (.cpReplayDiscard d a) s = .next (s.helmTrap t.key (plainCause 0x03))) ∧
       (own → s1.cmds.find? (heldBy s1 r) = none → exec (.cpReplay d a) s = .next (s.helmTrap t.key (plainCause 0x12)) ∧
         exec (.cpReplayDiscard d a) s = .next (s.helmTrap t.key (plainCause 0x12))) ∧
       (∀ c u, own → s1.cmds.find? (heldBy s1 r) = some c → s1.team? c.team = some u →
         let s2 := s1.dropCmd c.bay c.ch c.seq
         (16 ≤ inChannel s1 c.bay c.ch → exec (.cpReplay d a) s = .next (s1.helmWait t.key .copyQueue)) ∧
         (inChannel s1 c.bay c.ch < 16 → exec (.cpReplay d a) s =
           .next ((queuedCopy s2 { c with replay := true, vector := t.inVector, slot := 0 }).wakeCopies.afterValue t 8 d (copyDescriptor s2 c.bay c.ch))) ∧
         (∃ s' bytes, exec (.cpReplayDiscard d a) s = .next s' ∧ (∀ x ∈ s'.cmds, ¬(x.bay = c.bay ∧ x.ch = c.ch ∧ x.seq = c.seq)) ∧
           (c.doneBytes ≤ c.count → bytes = c.count - c.doneBytes) ∧ (∃ v, s'.team? t.key = some v ∧ v.g = t.g) ∧
           s'.arrivals = s1.arrivals ++ (if c.wv then [relaxedArrival c u.dct.aspace 1 bytes] else [])))) ∧
     (let c := s.cmds.find? fun c => c.bay == t.bay && c.ch == ch.toNat && c.seq == (t.reg a).toNat % 2 ^ 32
      let state := match c with | none => 0 | some c => (match c.state with | .queued => 1 | .running => 2 | .posting => 2 | .held => 3)
      let done := match c with | none => 0 | some c => c.complete.length
      exec (.cpStat d a ch) s = .next (s.afterValue t 8 d (BitVec.ofNat 64 (state + inChannel s t.bay ch.toNat * 2 ^ 8 +
        (s.cmds.countP fun c => c.team == t.key && (c.state == .held || c.state == .posting)) * 2 ^ 13 + done % 2 ^ 24 * 2 ^ 16))))))

/-- R192 to R194, R196, R198 to R201, R206 to R209, R212, R214: a repetition of a lane word reads its sources, uniform registers and slots, and then
writes its operation's value in the lanes of E, or pushes it to sq; under D in the pairs that lie whole in E. What one of its reads or
writes waits for, the engine waits for. The model's choice: the modulus of `vshuf.rot` (log 80), how close the results of exp2 and log2 are (log 8),
that a pair not whole pushes 0 to sq (log 24), and what a fold begins with in `vscan` (log 59). -/
def Obligations.LaneWords : Prop :=
  ∀ (s s0 : State) (l : Ln) (i : Instr) (f : LaneForm) (m : W64), EngineTurn s l → laneForm i = some f → RepetitionReady s l f.fields s0 →
    EffectMask l.mask f.pairs m →
    let d := SW.dAt f.w l.e.rep
    let from_ := l.sources (some d) (f.regs l.e.rep) s0
    (∀ k s', from_ = .error (.wait k s') → exec i s = .next (s'.laneWait l.t.key l.g.num l.who k)) ∧
    -- a repetition that neither pops lq nor pushes sq waits for nothing
    (112 ∉ f.regs l.e.rep → d ≠ 113 → ∃ xs s1 us s2 s3, from_ = .ok (xs, s1) ∧ readUniforms l f.uniforms s1 = .ok (us, s2) ∧
      Ln.deliver { l with mask := m } d ((List.range l.width).map (f.value l.width (l.hash) l.mask xs us)) s2 = .ok ((), s3) ∧
      exec i s = .next (afterRep s3 l f.w)) ∧
    (∀ xs s1 us s2, from_ = .ok (xs, s1) → readUniforms l f.uniforms s1 = .ok (us, s2) →
      let into := Ln.deliver { l with mask := m } d ((List.range l.width).map (f.value l.width (l.hash) l.mask xs us)) s2
      (∀ k s', into = .error (.wait k s') → exec i s = .next (s'.laneWait l.t.key l.g.num l.who k)) ∧
      (∀ s3, into = .ok ((), s3) → exec i s = .next (afterRep s3 l f.w)))

/-- R197, R202, R203, R207, R213 and R215: the words that write mask bits, and the selection by a mask register.
R210 and R211: a repetition of `vred` adds the elements of E to the partial fold that the path carries, and the last one writes the result of
all the repetitions' elements. That a fold begins with its first element (log 59), and what the paths of a miss split carry of it (log 24), are the
model's choice. -/
def Obligations.LaneMasksAndFolds : Prop :=
  (∀ (s s0 : State) (l : Ln), EngineTurn s l →
     (∀ i w pairs bit m, compareForm i = some (w, pairs, bit) →
       RepetitionReady s l ([fieldA w] ++ (if w.bu then [] else [fieldB w]) ++ if w.useVc then [fieldC w] else []) s0 → EffectMask l.mask pairs m →
       let rs := SW.aAt w l.e.rep :: if w.bu then [] else [SW.bAt w l.e.rep]
       (112 ∉ rs → ∃ xs s1 us s2, l.sources none rs s0 = .ok (xs, s1) ∧ readUniforms l (baseRegs w) s1 = .ok (us, s2)) ∧
       ∀ xs s1 us s2, l.sources none rs s0 = .ok (xs, s1) → readUniforms l (baseRegs w) s1 = .ok (us, s2) →
         exec i s = .next (afterRep (putMask s2 l (field w.vd.toNat 2 0) (lanesIn l m) (bit (laneOf xs 0) (laneB w xs us))) l w)) ∧
     (∀ (w : SW), w.ms = true → RepetitionReady s l ([fieldD w, fieldA w] ++ (if w.bu then [] else [fieldB w]) ++ if w.useVc then [fieldC w] else []) s0 →
       let rs := SW.aAt w l.e.rep :: if w.bu then [] else [SW.bAt w l.e.rep]
       (112 ∉ rs → SW.dAt w l.e.rep ≠ 113 → ∃ xs s1 us s2 c s3, l.sources (some (SW.dAt w l.e.rep)) rs s0 = .ok (xs, s1) ∧
         readUniforms l (baseRegs w) s1 = .ok (us, s2) ∧ l.maskNo (w.k % 8) s2 = .ok (c, s3) ∧
         ∃ s4, l.deliver (SW.dAt w l.e.rep) ((List.range l.width).map fun i => if c.getLsbD i then laneOf xs 0 i else laneB w xs us i) s3 = .ok ((), s4)) ∧
       ∀ xs s1 us s2 c s3 s4, l.sources (some (SW.dAt w l.e.rep)) rs s0 = .ok (xs, s1) →
         readUniforms l (baseRegs w) s1 = .ok (us, s2) → l.maskNo (w.k % 8) s2 = .ok (c, s3) →
         l.deliver (SW.dAt w l.e.rep) ((List.range l.width).map fun i => if c.getLsbD i then laneOf xs 0 i else laneB w xs us i) s3 = .ok ((), s4) →
         exec (.vsel w) s = .next (afterRep s4 l w)) ∧
     (∀ (w : SW), RepetitionReady s l [{ reg := w.va.toNat, adv := 0, span := 1 }] s0 →
       (w.va ≠ 112 → ∃ xs s1, l.sources none [w.va.toNat] s0 = .ok (xs, s1)) ∧ ∀ xs s1, l.sources none [w.va.toNat] s0 = .ok (xs, s1) →
       let bit (i : Nat) : Bool := (laneOf xs 0 i).getLsbD (field w.b.toNat 4 0) != w.b.getLsbD 5
       exec (.vballot w) s = .next (afterRep (putUniform (putMask s1 l (field w.vd.toNat 2 0) (lanesIn l l.mask) bit) l (4 + field w.vd.toNat 4 3)
         (BitVec.ofNat 32 ((lanesIn l l.mask).countP bit))) l w)) ∧
     (∀ (w : SW), RepetitionReady s l [] s0 → let op := field w.vd.toNat 6 3
       ∃ a s1 b s2 y s3, l.maskNo (field w.va.toNat 2 0) s0 = .ok (a, s1) ∧
       (op ≠ 6 → l.maskNo (field w.b.toNat 2 0) s1 = .ok (b, s2)) ∧ (op = 6 → s2 = s1 ∧ l.uniform (field w.b.toNat 2 0) s2 = .ok (y, s3)) ∧ (op ≠ 6 → s3 = s2) ∧
       exec (.mop w) s = .next (afterRep (putMask s3 l (field w.vd.toNat 2 0) (lanesIn l l.mask) (mopBit op l.mask a b y l.width)) l w))) ∧
  (∀ (s s0 s1 : State) (l : Ln) (w : SW) (xs : List (List W32)) (g : Group) (old : List W32), EngineTurn s l → RepetitionReady s l [fieldA w] s0 →
     l.sources none [SW.aAt w l.e.rep] s0 = .ok (xs, s1) → l.group s1 = .ok (g, s1) →
     let op := field w.b.toNat 3 0
     let p := l.g.slotOf l.who
     let before : Option Partial := if l.e.rep = 0 then none else (g.pathAt p).fold
     let kept : List (Nat × W32) := match before with | some x => x.elems | none => []
     let base : Option Fold := match before with | some x => x.base | none => none
     let now : List (Nat × W32) := kept ++ (lanesIn l l.mask).map fun i => (i, laneOf xs 0 i)
     let carrying (f : Option Partial) : State := s1.mapGroup l.t.key l.g.num fun g => g.mapPath p fun x => { x with fold := f }
     Carries op base old →
     (SW.aAt w l.e.rep ≠ 112 → ∃ ys s2, l.sources none [SW.aAt w l.e.rep] s0 = .ok (ys, s2)) ∧
     (l.e.rep + 1 ≠ w.count → exec (.vred w) s = .next (afterRep (carrying (some { op := op, base := base, elems := now })) l w)) ∧
     (l.e.rep + 1 = w.count → exec (.vred w) s = .next (afterRep (putUniform (carrying none) l w.vd.toNat
       (foldValue op w.rnd.toNat w.sat (originNaN32 ((lanesIn l l.mask).headD 0) l.hash) (old ++ now.map (·.2)))) l w)))

/-- R204 to R206: `vcvt` converts in the lanes of E, sets sys.subst's bit of a substituted source and offers the origins of its NaNs to
sys.nanorigin; `vunpk` writes the elements of one register into several. -/
def Obligations.ConversionWords : Prop :=
  ∀ (s s0 s1 : State) (l : Ln) (w : SW) (xs : List (List W32)), EngineTurn s l →
    (∀ i src dst mode m s2, conversionForm i = some (w, src, dst, mode) → RepetitionReady s l [fieldD w, fieldA w] s0 →
      l.sources (some (SW.dAt w l.e.rep)) [SW.aAt w l.e.rep] s0 = .ok (xs, s1) → EffectMask l.mask (src == 1 || dst == 1) m →
      Ln.deliver { l with mask := m } (SW.dAt w l.e.rep) ((List.range l.width).map (convertedLane src dst mode w.sat (laneOf xs 0))) s1 = .ok ((), s2) →
      exec i s = .next (afterRep (s2.mapTeam l.t.key fun t =>
        (originsOffered src dst mode w.sat (laneOf xs 0) (lanesIn l m)).foldl (fun t o => t.offerOrigin o.fmt o.helm o.lane l.g.num o.hash)
          { t with subst := t.subst ||| (if src = 0x10 then 1 else if src = 0x11 then 2 else if src = 0x12 then 4 else 0) }) l w)) ∧
    (let n := packWidth w
     RepetitionReady s l [{ fieldD w with span := 32 / n }, fieldA w] s0 → l.sources none [SW.aAt w l.e.rep] s0 = .ok (xs, s1) →
      let part (j i : Nat) : W32 :=
        let e := (laneOf xs 0 i).toNat / 2 ^ (n * j) % 2 ^ n
        if w.b.getLsbD 2 = true ∧ 2 ^ (n - 1) ≤ e then BitVec.ofNat 32 (e + 2 ^ 32 - 2 ^ n) else BitVec.ofNat 32 e
      exec (.vunpk w) s = .next (afterRep ((List.range (32 / n)).foldl (fun s j => s.mapGroup l.t.key l.g.num fun g =>
        g.writeReg l.who (regV (SW.dAt w l.e.rep + j)) ((lanesIn l l.mask).map fun i => (i, part j i))) s1) l w))

/-- R54, R155, R172, R186, R189, R191 and R368: an engine begins a word by taking its tokens, then its mask and its uniform base, once for all its
repetitions; a register of an unmapped block raises STRAND_ILLEGAL before that. After the last repetition, once its accesses are performed, it
makes its pushes and passes the word. That it waits for every earlier access of its engine and path, and not for the word's own alone, is the
model's reading (log 22).
R172: the token counters of a path. A wait takes the oldest token and waits at 0, a push adds one and waits at 15; taking one acquires what
its pusher knew, memory and registers. -/
def Obligations.WordPhasesAndTokens : Prop :=
  (∀ (s : State) (l : Ln) (i : Instr) (w : SW) (fields : List VField) (base : Nat), EngineTurn s l → latchForm i = some (w, fields, base) →
     let trap : State := s.laneTrap l.t.key l.g.num l.who l.entry.view.service (plainCause 0x02)
     let keep (s : State) (la : Latch) : State := s.mapGroup l.t.key l.g.num fun g => g.mapEng l.who fun e => { e with
       latch := some la, spent := (if l.g.flight.any fun a => !a.done && a.eng == engKind l.who then e.spent else []) ++ la.toks }
     (l.e.issued = false → l.e.latch = none →
       (¬FieldsMapped l fields w.count → exec i s = .next trap) ∧
       (operandsLegal l i → ¬ServiceAllows l w fields → exec i s = .next trap) ∧
       (operandsLegal l i → FieldsMapped l fields w.count → ServiceAllows l w fields → l.t.phase ≠ .stepping →
         (∀ k s', whole (l.eachToken l.waitToken (waitCounters l.who w)) s = .error (.wait k s') → exec i s = .next (s.laneWait l.t.key l.g.num l.who k)) ∧
         (∀ toks s1 mk s2 u s3, l.eachToken l.waitToken (waitCounters l.who w) s = .ok (toks, s1) →
           (w.msk = 0 ∧ mk = fullMask l.width ∧ s2 = s1 ∨ w.msk ≠ 0 ∧ l.maskReg w.msk.toNat s1 = .ok (mk, s2)) →
           (8 ≤ base ∧ u = none ∧ s3 = s2 ∨ base < 8 ∧ ∃ v, u = some v ∧ l.uniform base s2 = .ok (v, s3)) →
           exec i s = .next (keep s3 { mask := l.m0 &&& mk, base := u, toks := toks })))) ∧
     (l.e.issued = true → repForm i = some (w, fields, base) →
       (pushCounters l.who w ≠ [] → OwnPending s l →
         exec i s = .next (s.laneWait l.t.key l.g.num l.who .accesses)) ∧
       (¬OwnPending s l →
         (∀ s1 xs, l.eachToken (fun c => do l.pushToken c; pure []) (pushCounters l.who w) s = .ok (xs, s1) →
           exec i s = .next ((passedBy s1 l (swBytes w)).stepDone l.t.key (advBit l.who))) ∧
         (∀ k s', l.eachToken (fun c => do l.pushToken c; pure []) (pushCounters l.who w) s = .error (.wait k s') →
           exec i s = .next (s.laneWait l.t.key l.g.num l.who k))))) ∧
  (∀ (s : State) (l : Ln) (c : Nat), EngineTurn s l → Whole l →
     let q := (l.g.pathAt l.root).counter c
     (q = [] → l.waitToken c s = .error (.wait .token s)) ∧
     (∀ k rest, q = k :: rest →
       let s1 := (counterSet s l c fun _ => rest).mapGroup l.t.key l.g.num Group.payOwed
       let me := s1.knowOf l.place.party
       l.waitToken c s = .ok ([(c, k)], (s1.setKnow { me with known := unionIds me.known k.known, lifted := unionIds me.lifted k.lifted }).mapGroup
         l.t.key l.g.num fun g => g.mapEng l.who fun e => { e with vc := joinClock e.vc k.vc })) ∧
     (15 ≤ q.length → l.pushToken c s = .error (.wait .token s)) ∧
     (q.length < 15 → l.pushToken c s = .ok ((), counterSet s l c
       (· ++ [{ known := (s.knowOf l.place.party).known, lifted := (s.knowOf l.place.party).lifted, vc := l.e.vc }]))) ∧
     (∀ w : SW, (∀ n ∈ waitCounters l.who w, n ∈ (match l.who with | .l => [1] | .c _ => [0, 3] | .s => [2])) ∧
       (∀ n ∈ pushCounters l.who w, n ∈ (match l.who with | .l => [0] | .c _ => [2, 1] | .s => [3]))))

/-- R189, R190 and R192: every lane of a general register read gives a value that one write to it left, or its first value, and a read never
waits; an engine's write holds in the lanes of E alone, and where no write to the register is unordered before it, the engine itself
reads it back. -/
def Obligations.LaneRegisters : Prop :=
  ∀ (s : State) (l : Ln) (r : Nat), EngineTurn s l → r < 112 →
    (∃ xs s', l.vector r s = .ok (xs, s') ∧ s' = { s with tick := s'.tick } ∧ xs.length = l.width ∧
      ∀ i, i < l.width → l.g.regOptions r i l.e.vc ≠ [] → xs.getD i 0 ∈ l.g.regOptions r i l.e.vc) ∧
    (∀ xs : List W32, l.setVector r xs s = .ok ((), s.mapGroup l.t.key l.g.num fun g => g.writeReg l.who r ((lanesIn l l.mask).map fun i => (i, xs.getD i 0)))) ∧
    (∀ (lanes : List (Nat × W32)) (i : Nat) (v : W32), (i, v) ∈ lanes → (∀ x, (i, x) ∈ lanes → x = v) →
      (∀ p, l.who = .c p → p < l.g.paths.length) →
      (∀ w ∈ l.g.rlog, w.inClock l.e.vc = true ∧ w.vc.getD l.e.clk 0 ≤ l.e.vc.getD l.e.clk 0) →
      (l.g.writeReg l.who r lanes).regOptions r i ((l.g.writeReg l.who r lanes).eng l.who).vc = [v]) ∧
    (∀ (lanes : List (Nat × W32)) (q i : Nat) (vc : List Nat), (q ≠ r ∨ ∀ x, (i, x) ∉ lanes) →
      (l.g.writeReg l.who r lanes).regOptions q i vc = l.g.regOptions q i vc)

/-- R170, R171, R191, R225 to R229, R232: a repetition of an L or S data word waits for a register, slot or counter that holds it back; a lane whose
address is refused traps with no effect in any lane; and otherwise the repetition is issued, its lanes' accesses in flight, with the lanes
outside E of a load 0. With no lane, or a null base, it makes no access, and is over when the repetitions before it are.
R233: `l.icw` and `s.icw` wait while the named counter stands above the threshold, and then pass. -/
def Obligations.LaneAccessWords : Prop :=
  (∀ (s : State) (l : Ln) (i : Instr) (w : SW) (store gather ldg : Bool), EngineTurn s l → dataForm i = some (w, store, gather, ldg) →
     l.who = (if store then .s else .l) → l.e.issued = false → l.e.latch.isSome = true → ∀ lanes : List Nat,
     (nullBase l w ∧ lanes = [] ∨ ¬nullBase l w ∧ lanes = lanesIn l l.mask) →
     (MayIssue s l w store gather lanes ∨ ∃ k, (k = .accesses ∨ k = .slots) ∧ exec i s = .next (s.laneWait l.t.key l.g.num l.who k)) ∧
     (MayIssue s l w store gather lanes → ∀ addr val s1, OperandsRead s l w store gather addr val s1 →
       (∀ before i0 after xs s2 c, lanes = before ++ i0 :: after → lanesAddressed l w store gather addr before s1 = .ok (xs, s2) →
         laneAddress l w store (offsetAt l w gather (addr i0)) s2 = .error (.trap c) →
         (∀ j ∈ after, ∀ f, (∃ r, laneAddress l w store (offsetAt l w gather (addr j)) f = .ok r) ∨
           ∃ e, laneAddress l w store (offsetAt l w gather (addr j)) f = .error (.trap e)) →
         ∃ (m : W64) (land : State → State), exec i s = .next ((s.mayLand c land).laneTrap l.t.key l.g.num l.who l.entry.view.service { c with mask := some m }) ∧
           (∀ j, m.getLsbD j = true → j = i0 ∨ j ∈ after) ∧ (m.getLsbD i0 = true ↔ c.code = 0x06 ∨ c.code = 0x07)) ∧
       (∀ xs s2, lanesAddressed l w store gather addr lanes s1 = .ok (xs, s2) →
         -- a step performs no store that would wait (R406)
         let held : Prop := store = true ∧ l.t.phase = .stepping ∧ ∃ x ∈ xs, s.leased l.t.key x.2.loc (laneBytes w.fmtNo) = true
         (held → exec i s = .next (s2.laneWait l.t.key l.g.num l.who .matrix)) ∧
         (¬held → exec i s = .next (afterRep (s2.mapGroup l.t.key l.g.num fun g =>
           let g := slotsAfter l w store ldg lanes g
           let behind : Prop := ∃ a ∈ l.g.flight, a.done = false ∧ a.eng = engKind l.who
           let slots : Prop := store = false ∧ w.vd = 113 ∨ store = true ∧ (w.vd = 112 ∨ w.va = 112)
           if lanes = [] ∧ store = false ∧ w.vd ≠ 113 then g.writeReg l.who (dataReg w l.e.rep) ((List.range l.width).map fun i => (i, 0))
           else if lanes = [] ∧ ¬(behind ∧ slots) then g
           else { g.mapEng l.who (fun e => { e with vc := tickClock e.vc l.e.clk }) with
             flight := g.flight ++ [accessOf s2 l w store ldg val (tickClock l.e.vc l.e.clk) xs] }) l w))))) ∧
  (∀ (s : State) (l : Ln) (i : Instr) (w : SW), EngineTurn s l → i = .lIcw w ∨ i = .sIcw w → l.e.issued = false → l.e.latch.isSome = true →
     (baseOf l < s.pathCount l.t.key l.g (w.b.toNat % 8) → exec i s = .next (s.laneWait l.t.key l.g.num l.who .accesses)) ∧
     (s.pathCount l.t.key l.g (w.b.toNat % 8) ≤ baseOf l → exec i s = .next (afterRep s l w)))

/-- R223, R229, R230, R232, R302: what the performance of an issued repetition does. A store's lanes are written, a lower one before a higher, and
the engine's party in path B of an open cq split knows them where they come before the split; a load's elements reach its register in every lane, or its slot, of an `l.ldg` lane by lane; the counter is lowered in issue order. -/
def Obligations.AccessesPerform : Prop :=
  ∀ (s : State) (key grp : Nat) (path : BitVec 2) (part : W64) (t : Team) (g : Group), s.team? key = some t → t.group? grp = some g →
    let ready := performable s t g path.toNat
    (ready = [] → exec (.accessPerformed key grp path part) s = .next s) ∧
    (∀ a, ready[pickOf ready.length s.tick]? = some a →
      let s0 : State := { s with tick := s.tick + 1 }
      let p := accessPlace t g a
      let each (vs : List (Nat × W32)) (i : Nat) : Option W32 := (vs.find? fun x => x.1 == i).map (·.2)
      (a.store = true → a.dest = none → exec (.accessPerformed key grp path part) s = .next (
        let w := writeAccess p a a.lanes s0
        (w.2.learnPast t g a w.1).mapGroup key grp fun g => (performed t g a w.1 []).stirred)) ∧
      (∀ r, a.store = false → a.dest = some (.reg r) →
        let x := readAccess p a a.lanes s0
        exec (.accessPerformed key grp path part) s = .next (x.2.mapGroup key grp fun g => ({ performed t g a [] [] with rlog := g.rlog ++
          [{ reg := r, lanes := (List.range t.kernel.width).map fun i => (i, (each x.1 i).getD 0)
             eng := a.origin.clk, vc := a.vc }] } : Group).stirred)) ∧
      (∀ id, a.store = false → a.dest = some (.lq id) →
        let some0 := a.lanes.filter fun x => part.getLsbD x.lane
        let now := if a.ldg = true ∧ some0 ≠ [] then some0 else a.lanes
        let x := readAccess p a now s0
        exec (.accessPerformed key grp path part) s = .next (x.2.mapGroup key grp fun g =>
          ({ performed t g a [] (a.lanes.filter fun y => !now.contains y) with lq := g.lq.map fun y => if y.id = id then
            { y with pending := y.pending &&& ~~~(BitVec.ofNat 64 (now.map fun z => 2 ^ z.lane).sum)
                     elems := (List.range t.kernel.width).map fun i => (each x.1 i).getD (y.elems.getD i 0) } else y } : Group).stirred)))

/-- R236, R238 to R244: the ring words of the L and S engines, once a pass: the same operations as the helm's, with tickets in a uniform register. A
commit, release or eos first waits for the engine's own accesses; a claim or wait-fill only for the ring, whose abort ends every wait and whose eos
ends those of claims. A slot's address modulo 2^32 (log 107), and that the map entry is looked up before the ticket (log 106), are the model's
choice. -/
def Obligations.StrandRingWords : Prop :=
  ∀ (s : State) (l : Ln) (w : SW), EngineTurn s l → l.e.issued = false → l.e.latch.isSome = true →
    let p := waiterOf l.t.key l.g.num l.who
    let scope := w.va.toNat / 16
    let y := w.vd.toNat % 8
    let put (s : State) (v : Nat) : Out := .next (afterRep (putUniform s l y (BitVec.ofNat 32 v)) l w)
    let onRing (s : State) (r r' : Ring) : Out := .next (afterRep ((s.setRing r').wakeRing r) l w)
    let protocol : Out := .next (s.laneTrap l.t.key l.g.num l.who l.entry.view.service (plainCause 0x10))
    let s0 := s.drainParty l.place.party
    let rel := s0.releaseOf l.place scope
    (s.ringOf l.t (w.va.toNat % 16) = none → ∀ i, ringForm i = some w → exec i s = protocol) ∧
    ∀ r, s.ringOf l.t (w.va.toNat % 16) = some r →
      -- a wait that an abort or an eos has ended, and a ring that is aborted or ended
      ((waitEnded r p = some true ∨ (waitEnded r p = none ∧ r.abort = true)) → exec (.sRgClaim w) s = put (s.setRing (ringLeft r p)) 0xFFFFFFFF) ∧
      ((waitEnded r p ≠ none ∨ r.abort = true) → exec (.lRgWfill w) s = put (s.setRing (ringLeft r p)) 0xFFFFFFFF) ∧
      ((waitEnded r p = some false ∨ (waitEnded r p = none ∧ r.abort = false ∧ r.eos = true)) → exec (.sRgClaim w) s = protocol) ∧
      (waitEnded r p = none → r.abort = false → r.eos = false → ¬(countsApart r.claimed r.tail < ringCount r ∧ firstInLine r p true) →
        exec (.sRgClaim w) s = .next (waits (s.setRing (ringJoined r p true)) l (.ring r.bay r.desc true))) ∧
      (waitEnded r p = none → r.abort = false → r.eos = false → countsApart r.claimed r.tail < ringCount r → firstInLine r p true →
        let n := r.claimed % ringCount r
        ∃ s1, laneAcquire l.t l.entry.view.mode l.place scope ((r.frees[n]?).join).toList
          ((s.setRing { ringLeft r p with slots := r.slots.set n 1, claimed := (r.claimed + 1) % 2 ^ 32 }).wakeRing (ringLeft r p)) = .ok ((), s1) ∧
        exec (.sRgClaim w) s = put s1 (slotAddress r n)) ∧
      (waitEnded r p = none → r.abort = false → r.taken ≠ r.head → firstInLine r p false →
        let n := r.taken % ringCount r
        ∃ s1, laneAcquire l.t l.entry.view.mode l.place scope (commitsTo r)
          ((s.setRing { ringLeft r p with slots := r.slots.set n 3, taken := (r.taken + 1) % 2 ^ 32 }).wakeRing (ringLeft r p)) = .ok ((), s1) ∧
        exec (.lRgWfill w) s = put s1 (slotAddress r n)) ∧
      (waitEnded r p = none → r.abort = false → r.taken = r.head → r.eos = true → r.head = r.claimed →
        ∃ s1, laneAcquire l.t l.entry.view.mode l.place scope r.eosRelease.toList (s.setRing (ringLeft r p)) = .ok ((), s1) ∧
        exec (.lRgWfill w) s = put s1 0xFFFFFFFF) ∧
      (waitEnded r p = none → r.abort = false → ¬(r.taken ≠ r.head ∧ firstInLine r p false) →
        ¬(r.taken = r.head ∧ r.eos = true ∧ r.head = r.claimed) →
        exec (.lRgWfill w) s = .next (waits (s.setRing (ringJoined r p false)) l (.ring r.bay r.desc false))) ∧
      (OwnPending s l → ∀ i ∈ [Instr.sRgCommit w, .lRgRelease w, .sRgRelease w, .sRgEos w], exec i s = .next (waits s l .accesses)) ∧
      (¬OwnPending s l → ∃ v s1, l.uniform y s0 = .ok (v, s1) ∧
        ((v = 0xFFFFFFFF ∨ r.abort = true) → ∀ i ∈ [Instr.sRgCommit w, .lRgRelease w, .sRgRelease w], exec i s = .next (afterRep s1 l w)) ∧
        (v ≠ 0xFFFFFFFF → r.abort = false →
          ((∀ n, namesSlot r v.toNat n → r.slots.getD n 0 ≠ 1) → exec (.sRgCommit w) s = protocol) ∧
          ((∀ n, namesSlot r v.toNat n → r.slots.getD n 0 ≠ 3) → ∀ i ∈ [Instr.lRgRelease w, .sRgRelease w], exec i s = protocol) ∧
          (∀ n, namesSlot r v.toNat n → r.slots.getD n 0 = 1 → r.head < 2 ^ 32 → r.claimed < 2 ^ 32 → countsApart r.claimed r.head ≤ 256 → ∃ h hs,
            passes r (r.slots.set n 2) 2 r.head r.claimed h ∧ exec (.sRgCommit w) s = onRing s1 r { r with
              slots := r.slots.set n 2, commits := r.commits.set n (some rel), head := h, headReleases := r.headReleases ++ hs }) ∧
          (∀ n, namesSlot r v.toNat n → r.slots.getD n 0 = 3 → r.tail < 2 ^ 32 → r.taken < 2 ^ 32 → countsApart r.taken r.tail ≤ 256 → ∃ h,
            passes r (r.slots.set n 0) 0 r.tail r.taken h ∧ ∀ i ∈ [Instr.lRgRelease w, .sRgRelease w],
              exec i s = onRing s1 r { r with slots := r.slots.set n 0, frees := r.frees.set n (some rel), tail := h })) ∧
        (w.vd.getLsbD 3 = true → v = 0xFFFFFFFF → exec (.sRgEos w) s = onRing s1 r (ringEnded r rel)) ∧
        (w.vd.getLsbD 3 = true → v ≠ 0xFFFFFFFF → exec (.sRgEos w) s = .next (afterRep s1 l w)) ∧
        (w.vd.getLsbD 3 = false → exec (.sRgEos w) s = onRing s0 r (ringEnded r rel))) ∧
      exec (.sRgAbort w) s = onRing s r (ringAborted r) ∧
      ∀ i ∈ [Instr.lRgStat w, .sRgStat w], exec i s = put s (ringStat r)

/-- R155, R174, R177, R368: `x.nop` is passed; `x.sync` waits for the engines of the entry and for the group's accesses, and the engines that meet go
on together, each knowing what all of them knew; `x.end` leads to the next trip or out of the entry, and orders what the engines of the path do before
it before what they do after it (the model's reading, log 99). A word that is no instruction raises STRAND_ILLEGAL, and one beyond the text
SEG_LIMIT.
R166, R167: `c.psend` waits for the path's earlier L and S words, for the accesses before it and for room in the rq, and then posts the lanes of
E whose element is not 0, as a release at team scope of what the path's engines did before it. Under a miss split each path posts an entry of its
own lanes, which is the model's choice (log 24). -/
def Obligations.StrandControl : Prop :=
  (∀ (s : State) (l : Ln) (w : SW), EngineTurn s l →
     let seen (s : State) : State := if l.t.phase = .stepping then s else arrivedAt s l
     exec (.xNop w) s = .next (passedOnly s l (swBytes w)) ∧
     exec (.unassignedStrandWord false) s = .next (s.laneTrap l.t.key l.g.num l.who l.entry.view.service (plainCause 0x02)) ∧
     exec (.unassignedStrandWord true) s = .next (s.laneTrap l.t.key l.g.num l.who l.entry.view.service
       { plainCause 0x04 ((segBase l.entry.view.text + l.e.off) % 2 ^ 64) with fetch := true }) ∧
     -- x.sync
     (l.g.met (l.t.phase == .stepping) l.who = false → exec (.xSync w) s = .next (waits (seen s) l .sync)) ∧
     (l.g.met (l.t.phase == .stepping) l.who = true → s.groupQuiet l.t.key l.g = false → exec (.xSync w) s = .next (waits s l .accesses)) ∧
     (l.g.met false l.who = true → s.groupQuiet l.t.key l.g = true → l.t.phase ≠ .stepping →
       (∀ p, l.g.siblings p = [p] ∨ l.g.siblings p = []) → (∀ p ∈ l.g.liveSlots, (l.g.pathAt p).root = p) →
       ∃ s' u h, exec (.xSync w) s = .next s' ∧ s'.team? l.t.key = some u ∧ u.group? l.g.num = some h ∧
         ∀ x ∈ l.g.meeting false l.who, (h.eng x).off = (l.g.eng x).off + swBytes w ∧ (h.eng x).latch = none ∧ (h.eng x).arrived = false ∧
           ∀ y ∈ l.g.meeting false l.who, (∀ k, (l.g.eng y).vc.getD k 0 ≤ (h.eng x).vc.getD k 0) ∧
             ∀ id ∈ (s.knowOf (enginePlace l.t l.g y).party).known, id ∈ (s'.knowOf (enginePlace l.t l.g x).party).known) ∧
     -- x.end
     (¬allAtEnd l → exec (.xEnd w) s = .next (waits (seen s) l .meet)) ∧
     (¬settledEnd l → exec (.xEnd w) s = .next (waits s l .accesses)) ∧
     (allAtEnd l → settledEnd l → ∀ g1, l.group (pastEnd s l w) = .ok (g1, pastEnd s l w) →
       let who := endsIn l
       let trip := (g1.eng who).trip
       -- what the engines of the path do before the same x.end comes before what each does after it
       (((∀ p, l.who ≠ .c p) ∨ ∃ p, l.who = .c p ∧ l.g.siblings p = [p] ∧ (l.g.pathAt p).root = p) → ∀ x,
         l.g.endings.find? (fun x => x.entry == l.entry.n && x.trip == l.e.trip) = some x →
         (∀ k, x.vc.getD k 0 ≤ (g1.eng who).vc.getD k 0) ∧ (∀ id ∈ x.known, id ∈ ((pastEnd s l w).knowOf l.place.party).known) ∧
         ∀ q ∈ l.g.pathEngines (l.g.slotOf who), x.arrived.contains (engKind q) = true → engKind q ≠ engKind l.who →
           ∀ k, l.e.vc.getD k 0 ≤ (g1.eng q).vc.getD k 0) ∧
       (trip + 1 < l.entry.trips → ∀ off s1, startOff l.t g1 l.entry (pastEnd s l w) = .ok (off, s1) →
         exec (.xEnd w) s = .next ((s1.mapGroup l.t.key l.g.num fun g =>
           let g := g.mapEng who fun e => { e.atTrip l.entry (e.trip + 1) off with exempt := false }
           match who with
           | .c p => g.mapPath p fun q => { q with m0 := l.entry.m0 l.width (trip + 1) }
           | _ => g).stepDone l.t.key (advBit l.who))) ∧
       (l.entry.trips ≤ trip + 1 → l.entry.view.service = false →
         exec (.xEnd w) s = .next (((pastEnd s l w).mapGroup l.t.key l.g.num fun g => g.mapEng who fun e =>
           { e with entry := (match who, l.entry.kind with | .c _, .splitA => l.entry.n + 2 | _, _ => l.entry.n + 1)
                    running := false, waitFor := none, exempt := false }).stepDone l.t.key (advBit l.who))) ∧
       -- the last engine of a service entry gives L and S back as they were frozen
       (∀ a b, l.entry.trips ≤ trip + 1 → l.entry.view.service = true → l.t.phase ≠ .stepping → g1.savedL = some a → g1.savedS = some b →
         (∀ x ∈ [Eng.l, .s, .c 4], x ≠ who → (g1.eng x).running = false) → 4 < g1.paths.length →
         ∃ s' u h, exec (.xEnd w) s = .next s' ∧ s'.team? l.t.key = some u ∧ u.group? l.g.num = some h ∧ u.service = none ∧
           h.savedL = none ∧ h.savedS = none ∧ h.l = { a with vc := h.l.vc } ∧ h.s = { b with vc := h.s.vc } ∧ (h.pathAt 4).live = false))) ∧
  (∀ (s s0 : State) (l : Ln) (w : SW), EngineTurn s l → RepetitionReady s l [{ reg := w.va.toNat, adv := 0, span := 1 }] s0 →
     ∀ g, l.group s0 = .ok (g, s0) → g = l.g →
     let busy := (∃ a ∈ l.g.flight, a.done = false ∧ ofStrand l a l.root ∧ strandBefore a.origin l.e) ∨
       ∃ m ∈ s0.mqueue, m.team = l.t.key ∧ m.grp = l.g.num ∧ (m.path = 4 ↔ l.g.slotOf l.who = 4) ∧ m.counted = true
     (¬earlierPassed l → exec (.cPsend w) s = .next (waits s0 l .strand)) ∧
     (earlierPassed l → busy → exec (.cPsend w) s = .next (waits s0 l .accesses)) ∧
     (earlierPassed l → ¬busy → 16 ≤ l.t.rq.length → exec (.cPsend w) s = .next (waits s0 l .rqFull)) ∧
     (earlierPassed l → ¬busy → l.t.rq.length < 16 → ∀ xs s1, l.sources none [w.va.toNat] s0 = .ok (xs, s1) →
       ∃ (r : Release) (s2 : State), r.scope = 1 ∧ r.place = l.place ∧ (∀ id ∈ (s1.knowOf l.place.party).known, id ∈ r.known) ∧
         (∀ k ∈ [EngKind.l, .s], ∀ id ∈ (l.g.knownAt s1 l.t.key l.root k l.e).1, id ∈ r.known) ∧
         s2.teams = s1.teams ∧
         exec (.cPsend w) s = .next (afterRep (s2.mapTeam l.t.key fun t => { t with rq := t.rq ++
           [{ flags := 1, predv := laneBits ((lanesIn l l.mask).filter fun i => laneOf xs 0 i != 0), block := l.entry.block, grp := l.g.num
              seq := l.entry.n % 2 ^ 16, release := some r }] }) l w)))

/-- R332, R334, R340, R341: `x.wparr` puts one arrival in transit and passes on, `x.wpwait` waits for its phase, or answers for one that a completion
has ended; of the paths of a miss split the last does so for all, and an engine that the word does not name passes it; an arrival in transit
reaches its record when the machine performs it, or is dropped where the handle is no longer valid. The grant with which a registered wait ends
(log 85) and the room for waiters (log 90) are the model's reading.
R332, R338: a waiter without an entry tests its phase again: a team that was descheduled there is ready as soon as the phase has completed or the
handle is no longer valid, and any other stays as it is. When it tests again is the model's choice (logs 85, 90). -/
def Obligations.StrandArrivals : Prop :=
  (∀ (s : State) (l : Ln) (w : SW), EngineTurn s l →
     let scope := field w.b.toNat 6 4
     let ord := field w.b.toNat 3 2
     let passed (s : State) : Out := .next ((passedBy s l (swBytes w)).stepDone l.t.key (advBit l.who))
     let protocol : Out := .next (s.laneTrap l.t.key l.g.num l.who l.entry.view.service (plainCause 0x11))
     (¬namesEngine l w → exec (.xWparr w) s = .next (passedOnly s l (swBytes w)) ∧ exec (.xWpwait w) s = .next (passedOnly s l (swBytes w))) ∧
     (namesEngine l w → ∃ h s1 n s2 last k note ph s3, l.uniform (w.va.toNat % 8) s = .ok (h, s1) ∧
       (w.vd.getLsbD 3 = false ∧ n = 0 ∧ s2 = s1 ∨ w.vd.getLsbD 3 = true ∧ ∃ v : W32, n = v.toNat ∧ l.uniform (w.vd.toNat % 8) s1 = .ok (v, s2)) ∧
       l.uniform (w.vd.toNat % 8) s1 = .ok (ph, s3) ∧ l.sharing s1 = .ok ((last, k, note), s1) ∧ l.sharing s3 = .ok ((last, k, note), s3) ∧
       ((∀ p, l.who ≠ .c p) ∨ Whole l → last = true ∧ l.token s1 = .ok (k, s1) ∧ note = id) ∧
       -- x.wparr
       (last = true → s1.waypoint? h.toNat l.t.dct.aspace = none → exec (.xWparr w) s = protocol) ∧
       (last = false ∨ (s1.waypoint? h.toNat l.t.dct.aspace).isSome = true →
         let s3 := if ord = 2 then s2.drainParty l.place.party else s2
         let a : Arrival := { handle := h.toNat, aspace := l.t.dct.aspace, arrivals := 1, bytes := n, lost := 0, fault := false, command := none
                              release := if ord = 2 then some { place := l.place, scope := scope, known := k.known, lifted := k.lifted } else none }
         (ord = 2 → OwnPending s l → exec (.xWparr w) s = .next (waits s2 l .accesses)) ∧
         ((ord = 2 → ¬OwnPending s l) →
           exec (.xWparr w) s = passed { s3.mapGroup l.t.key l.g.num note with arrivals := s3.arrivals ++ if last then [a] else [] })) ∧
       -- x.wpwait
       (last = false → exec (.xWpwait w) s = passed (s3.mapGroup l.t.key l.g.num note)) ∧
       (last = true →
         let ended := l.e.granted.filter fun g => g.handle == h.toNat && g.waited == ph.toNat
         let acquired (rs : List Release) (s4 : State) : Prop :=
           ord ≠ 1 ∧ s4 = s3 ∨ ord = 1 ∧ laneAcquire l.t l.entry.view.mode l.place scope rs s3 = .ok ((), s4)
         let onward (s4 : State) (rs : List Release) : Out :=
           passed ((s4.mapGroup l.t.key l.g.num fun g => g.mapEng l.who fun e => e.noteImages rs).mapGroup l.t.key l.g.num note)
         (∀ g, ended = some g → ∃ s4, acquired g.releases s4 ∧ exec (.xWpwait w) s = onward s4 g.releases) ∧
         (ended = none → s3.waypoint? h.toNat l.t.dct.aspace = none → exec (.xWpwait w) s = protocol) ∧
         (ended = none → ∀ x, s3.waypoint? h.toNat l.t.dct.aspace = some x →
           let me := waiterOf l.t.key l.g.num l.who
           (¬phaseDone x ph.toNat →
             let s4 := if x.waiting.any (·.1 == me) || !s3.waiterRoom x then s3
               else s3.mapWaypoint x fun y => { y with waiting := y.waiting ++ [(me, ph.toNat)] }
             exec (.xWpwait w) s = .next (waits s4 l (.waypoint h.toNat ph.toNat))) ∧
           (phaseDone x ph.toNat → ∃ s4, acquired (phaseReleases x ph.toNat) s4 ∧
             exec (.xWpwait w) s = onward s4 (phaseReleases x ph.toNat))))) ∧
     ∀ n, (s.arrivals[n]? = none → exec (.waypointArrival n) s = .next s) ∧
       ∀ a, s.arrivals[n]? = some a →
         let s1 : State := { s with arrivals := s.arrivals.eraseIdx n }
         (s1.waypoint? a.handle a.aspace = none → exec (.waypointArrival n) s = .next s1) ∧
         ∀ x, s1.waypoint? a.handle a.aspace = some x →
           exec (.waypointArrival n) s = .next (s1.arrive x a.arrivals a.bytes a.lost a.fault a.release)) ∧
  (∀ (s : State) (die : Nat), ∃ s', exec (.waiterRetest die) s = .next s' ∧ s'.mem = s.mem ∧ s'.waypoints = s.waypoints ∧
     s'.teams.length = s.teams.length ∧ ∀ (k : Nat) (t : Team), s.teams[k]? = some t → ∃ u, s'.teams[k]? = some u ∧
       ((∀ h p, t.ready ≠ .waits (.waypoint h p)) → u = t) ∧
       (∀ h p, t.ready = .waits (.waypoint h p) →
         ((h / 2 ^ 30 % 4 = die ∧ (s.waypoint? h t.dct.aspace = none ∨
             ∃ w, s.waypoint? h t.dct.aspace = some w ∧ phaseDone w p ∧ ∀ q, (Party.helm t.key, q) ∉ w.waiting) → u.ready = .now) ∧
          (¬(h / 2 ^ 30 % 4 = die) → u = t) ∧
          (∀ w, s.waypoint? h t.dct.aspace = some w → ¬phaseDone w p → u = t))))

/-- R249, R252, R254, R256 to R259, R266: a matrix word of a solo gang, and one that is not ganged, makes its checks in order, waits for its counter
and for a slot of the queue, and then queues one operation with its operands resolved, its B taken and its ranges leased, and is passed. A
member of a gang stands at its word until the gang meets. That a queued mx.ldb counts for the checks of pinned B and that the group test is
made for h4 too (log 61), and that the lattice of K is not tested for a format to which R137 gives no element bytes (log 105), are the
model's reading.
R250 to R252: `mx.gang` sets the gang register where its value is legal for the group and raises STRAND_ILLEGAL otherwise; a gang meets when its
anchor and every other member stand at their words with one count, and what the meeting's checks answer is the anchor's. -/
def Obligations.MatrixWordsAndGangs : Prop :=
  (∀ (s : State) (l : Ln) (i : Instr) (k : MatrixKind) (w : SW) (p : Nat), EngineTurn s l → matrixForm i = some (k, w) → l.who = .c p →
     l.e.latch.isSome = true →
     let trap (c : Cause) : Out := .next (s.laneTrap l.t.key l.g.num l.who l.entry.view.service c)
     let f := (l.mxFmt w).toNat
     let alone := l.g.liveSlots.length ≤ 1
     (¬alone → exec i s = trap (plainCause 0x02)) ∧
     (alone → gangedKind k → l.g.gang ≠ 0 → l.t.phase ≠ .stepping →
       exec i s = .next (waits (s.mapGroup l.t.key l.g.num fun g =>
         { g.mapEng l.who (fun e => { e with arrived := true }) with meet := some (k, w) }) l .matrix)) ∧
     (alone → (gangedKind k → l.g.gang = 0) → (∀ k' w', l.g.meet = some (k', w') → k' = k) →
       (¬WordLegal l k w → exec i s = trap (plainCause 0x02)) ∧
       (WordLegal l k w → ¬ShapeLegal s l k w → exec i s = trap (plainCause 0x0A)) ∧
       (WordLegal l k w → ShapeLegal s l k w → ¬imageKind k → ¬FormatLegal s l k w → exec i s = trap (plainCause 0x14)) ∧
       (WordLegal l k w → ShapeLegal s l k w → (imageKind k ∨ FormatLegal s l k w) →
         let full := k ≠ .ldb ∧ k ≠ .zero ∧ 63 ≤ s.pathCount l.t.key l.g (if w.imm.getLsbD 0 then 1 else 0)
         let queued := (s.mqueue.filter fun m => m.bay == l.g.bay).length
         let goesOn (s2 : State) (o : Operands) (b : Option (List Nat)) : State :=
           let s3 : State := { s2 with nextMx := s2.nextMx + 1, mqueue := s2.mqueue ++ [queuedOp s s2 l k w o b] }
           let s4 := s3.mapTeam l.t.key fun t => { t with subst := substSet k f t.subst }
           ((passedBy s4 l (swBytes w)).mapGroup l.t.key l.g.num fun g =>
             { g with ganged := if gangedKind k then g.ganged + 1 else g.ganged, meet := none }).stepDone l.t.key (advBit l.who)
         let me := [{ g := l.g, path := p, w := w, quarters := 15 }]
         (∀ c, operandChecks l k w s = .error (.trap c) → exec i s = trap c) ∧
         (∀ o s1, operandChecks l k w s = .ok (o, s1) →
           (full → exec i s = .next (waits s1 l .accesses)) ∧
           (¬full → 4 ≤ queued → exec i s = .next (waits s1 l .matrix)) ∧
           (¬full → queued < 4 → ∀ b s2, BTaken l k w me s1 b s2 → exec i s = .next (goesOn s2 o b))) ∧
         -- normal execution: every operand in memory is there, aligned and well-formed, and the counter and the queue have room
         (OperandsGood s l k w → ¬full → queued < 4 →
           ∃ o s1 b s2, operandChecks l k w s = .ok (o, s1) ∧ BTaken l k w me s1 b s2 ∧ exec i s = .next (goesOn s2 o b) ∧
             (goesOn s2 o b).mqueue = s.mqueue ++ [queuedOp s s2 l k w o b])))) ∧
  ((∀ (s : State) (l : Ln) (w : SW), EngineTurn s l → l.e.issued = false → l.e.latch.isSome = true →
     let trap : Out := .next (s.laneTrap l.t.key l.g.num l.who l.entry.view.service (plainCause 0x02))
     (1 < l.g.liveSlots.length → exec (.mxGang w) s = trap) ∧
     (l.g.liveSlots.length ≤ 1 → ∃ lo s1 hi s2, l.uniform w.ubase s = .ok (lo, s1) ∧ l.uniform (w.ubase + 1) s1 = .ok (hi, s2) ∧
       mayReadY l w.ubase lo ∧ mayReadY l (w.ubase + 1) hi ∧
       let v := hi.toNat * 2 ^ 32 + lo.toNat
       (¬GangLegal l.t l.g v → exec (.mxGang w) s = trap) ∧
       (GangLegal l.t l.g v → exec (.mxGang w) s = .next (afterRep (s2.mapGroup l.t.key l.g.num fun g =>
         { g with gang := BitVec.ofNat 64 v, ganged := 0 }) l w))) ∧
     -- with the gang in two registers that the engine alone holds, or that hold one value
     (∀ lo hi, l.g.liveSlots.length ≤ 1 → (∀ v, mayReadY l w.ubase v → v = lo) → (∀ v, mayReadY l (w.ubase + 1) v → v = hi) →
       GangLegal l.t l.g (hi.toNat * 2 ^ 32 + lo.toNat) → ∃ s2 : State, s2 = { s with tick := s2.tick } ∧
         exec (.mxGang w) s = .next (afterRep (s2.mapGroup l.t.key l.g.num fun g =>
           { g with gang := BitVec.ofNat 64 (hi.toNat * 2 ^ 32 + lo.toNat), ganged := 0 }) l w))) ∧
   (∀ (s : State) (t : Team) (g : Group) (entry : CqEntry) (k : MatrixKind) (w : SW) (p : Nat) (ms : List Member),
     s.team? t.key = some t → t.group? g.num = some g → g.meet = some (k, w) → g.liveSlots.head? = some p →
     t.entryAt (g.eng (.c p)).entry = some entry →
     (gangMeeting t g = none → exec (.gangRendezvous t.key g.num) s = .next s) ∧
     (gangMeeting t g = some ms →
       ((t.phase ≠ .running ∨ g.gang = 0 ∨ field g.gang.toNat 4 0 ≠ g.num) → exec (.gangRendezvous t.key g.num) s = .next s) ∧
       (t.phase = .running → g.gang ≠ 0 → field g.gang.toNat 4 0 = g.num →
         let l := lnOf t g (.c p) entry
         let full := k ≠ .ldb ∧ k ≠ .zero ∧ 63 ≤ s.pathCount t.key g (if w.imm.getLsbD 0 then 1 else 0)
         let queued := (s.mqueue.filter fun m => m.bay == g.bay).length
         (∀ c, mxMeet l k w ms s = .error (.trap c) → exec (.gangRendezvous t.key g.num) s = .next (s.laneTrap t.key g.num (.c p) false c)) ∧
         (∀ x s', mxMeet l k w ms s = .error (.wait x s') → exec (.gangRendezvous t.key g.num) s = .next s) ∧
         -- the meeting: one operation, with the B of all members, and each of them goes on
         (gangedKind k → GangWord l k w ms → ShapeLegal s l k w → FormatLegal s l k w → OperandsGood s l k w → ¬full → queued < 4 →
           ∃ o s1 b s2 s' op, operandChecks l k w s = .ok (o, s1) ∧ BTaken l k w ms s1 b s2 ∧ exec (.gangRendezvous t.key g.num) s = .next s' ∧
             s'.mqueue = s.mqueue ++ [op] ∧ op = { queuedOp s s2 l k w o b with toks := op.toks } ∧
             ∃ u, s'.team? t.key = some u ∧ u.subst = substSet k (l.mxFmt w).toNat t.subst ∧
               ((ms.map fun m => m.g.num).Nodup → ∀ m ∈ ms, m.path < m.g.paths.length → ∃ h, u.group? m.g.num = some h ∧ h.ganged = m.g.ganged + 1 ∧ h.meet = none ∧
                 (h.eng (.c m.path)).off = (m.g.eng (.c m.path)).off + swBytes m.w ∧ (h.eng (.c m.path)).arrived = false))))))

/-- R249, R257, R266, R267, R269 to R271, R273 to R275: a bay runs one operation at a time, in queue order; what each kind does to the tile, to pinned B
and to memory, element by element, when it completes, and what it leaves alone. That a frozen team's operation at the head holds back those
behind it, and the origin NaN of mx.stacc, are the model's reading (log 60).
R260, R261, R263, R265, R273, apart from the function that the meaning calls: on finite elements an element of the tile takes, in order, one
rounding for each chunk of 32 k of its exact sum, for each product of f32 and f64, and for each group of its scale times its exact integer
sum; under COMP each is made on the pair; the first joins what the element holds, times the decay where the word names one. Integers add
modulo 2³². The sign of a zero product of a scaled element is the model's reading (log 61). -/
def Obligations.MatrixOperations : Prop :=
  (∀ (s : State) (bay : Nat),
     let mine := s.mqueue.filter fun m => m.bay == bay
     let ready (m : MatrixOp) : Bool := match s.team? m.team with | some t => t.resident && t.phase == .running | none => false
     ((mine.any (·.begun)) = true ∨ (mine.head?.map ready).getD false = false → exec (.matrixOpStart bay) s = .next s) ∧
     (∀ m, (mine.any (·.begun)) = false → mine.head? = some m → ready m = true → exec (.matrixOpStart bay) s =
       .next { s with mqueue := s.mqueue.map fun x => if x.num = m.num then { x with begun := true } else x }) ∧
     (mine.find? (·.begun) = none → exec (.matrixOpComplete bay) s = .next s) ∧
     ∀ m t, mine.find? (·.begun) = some m → s.team? m.team = some t → (s.tile? m.bay m.team m.acc).isSome = true →
       (s.tile? m.bay m.team (m.acc + 1)).isSome = true → Memory.wf s.mem = true → (∀ x ∈ s.tiles, (x.elems.map (·.1)).Pairwise (· < ·)) →
       ∃ s', exec (.matrixOpComplete bay) s = .next s' ∧ s'.mqueue = (s.mqueue.filter fun x => x.num != m.num) ∧
         let f := m.fmt.toNat
         let m' := atCompletion s m
         let inside (r c : Nat) : Prop := r < m.me ∧ c < m.ne
         (m.kind = .ldb → ∀ x, s.matrixSlot? m.bay m.team = some x →
           s'.matrixSlot? m.bay m.team = some { x with pinned := true, grk := m.grk, grn := m.grn, bf := fmtBF f, b := m.b.getD [] }) ∧
         (m.kind = .zero → stepsOf s' m = some 0 ∧ ∀ r c, r < 128 → c < 128 →
           (m.all = true ∨ inside r c → HoldsElement s' m r c [0, 0]) ∧ (m.all = false → ¬inside r c → KeepsElement s s' m r c)) ∧
         (m.kind = .ldacc → m.me ≤ 128 → m.ne ≤ 128 → stepsOf s' m = some 0 ∧ ∀ r c, r < 128 → c < 128 →
           (inside r c → ∃ tick, HoldsElement s' m r c
             [(({ s with tick := tick } : State).opCode t m' (m.offset + r * m.stride + c * (if fmtACCF f = 1 then 8 else 4)) 0 (if fmtACCF f = 1 then 64 else 32)).1, 0]) ∧
           (¬inside r c → KeepsElement s s' m r c)) ∧
         (m.kind = .rload → m.me ≤ 128 → m.ne ≤ 128 → stepsOf s' m = some m.steps ∧ ∀ r c, r < 128 → c < 128 →
           (¬inside r c → KeepsElement s s' m r c) ∧ (inside r c → ∃ t1 t2,
             let o := m.offset + 64 + ((m.row0 + r) * m.imgCols + m.col0 + c) * (if fmtCOMP f then 8 else 4)
             HoldsElement s' m r c [(({ s with tick := t1 } : State).opCode t m' o 0 32).1,
               if fmtCOMP f then (({ s with tick := t2 } : State).opCode t m' (o + 4) 0 32).1 else 0])) ∧
         ((m.kind = .mma ∨ m.kind = .mmas ∨ m.kind = .gmma ∨ m.kind = .rstep) → m.ne ≤ 128 → (∀ j ∈ m.jobs, j.2 < 128) →
           stepsOf s' m = (stepsOf s m).map (if m.kind = .rstep then (· + 1) else id) ∧
           (∀ r c, r < 128 → c < 128 → (m.ne ≤ c ∨ ∀ a, (a, r) ∉ m.jobs) → KeepsElement s s' m r c) ∧
           (∀ before a r after, m.jobs = before ++ (a, r) :: after → (∀ x ∈ before ++ after, x.2 ≠ r) → ∃ t1 t2,
             let scales := if fmtSCL f then (({ s with tick := t2 } : State).rowScales m' a m.groups).1 else []
             ∀ c, c < m.ne → HoldsElement s' m r c (updateElem m' scales (if m.kind = .rstep then (s.decays m' m.ne).1.getD c none else none)
               (({ s with tick := t1 } : State).opRow t m' a).1 ((List.range m.ke).map fun i => (s.opB m).getD (i + c * m.grk) 0) c (s.accCodes m r c)))) ∧
         (m.kind = .stacc →
           let e := fmtBits (fmtOUTF f) / 8
           (∀ a r c, r < 128 → c < 128 → s'.tileGet m.bay m.team a r c = s.tileGet m.bay m.team a r c) ∧
           (∀ a, (∀ r c loc, inside r c → regionLoc s t m e r c = some loc → ¬(loc ≤ a ∧ a < loc + e)) → State.SameByte s s' a) ∧
           ((∀ r c r' c' loc loc', (r, c) ≠ (r', c') → inside r c → inside r' c' → regionLoc s t m e r c = some loc →
               regionLoc s t m e r' c' = some loc' → loc + e ≤ loc' ∨ loc' + e ≤ loc) →
             ∀ r c loc j, inside r c → regionLoc s t m e r c = some loc → j < e →
               s'.byteAt (loc + j) = BitVec.ofNat 8 ((storedElem f (m.origin c) (s.accCodes m r c)).1 / 2 ^ (8 * j)))) ∧
         (m.kind = .rsave →
           let e := if fmtCOMP f then 8 else 4
           (∀ a r c, r < 128 → c < 128 → s'.tileGet m.bay m.team a r c = s.tileGet m.bay m.team a r c) ∧
           (∀ a, (∀ j loc, j < 64 → s.localLoc t m.bay (if m.lnd then 2 else 1) (m.offset + j) 1 = some loc → a ≠ loc) →
             (∀ r c loc, inside r c → imageLoc s t m e e r c = some loc → ¬(loc ≤ a ∧ a < loc + e)) → State.SameByte s s' a))) ∧
  (∀ (m : MatrixOp) (scales : List (Nat × Int)) (d : Option Nat) (row : List (Option Nat)) (col accs : List Nat) (c : Nat),
     let f := m.fmt.toNat
     let out := updateElem m scales d row col c accs
     let size := 32 * 2 ^ fmtGSIZE f
     fmtEntryValid f = true → row.length = m.ke → col.length = m.ke → (∀ a, some a ∈ row → ElementFinite (fmtAF f) a) →
     (∀ b ∈ col, ElementFinite (fmtBF f) b) →
     (fmtACCF f = 0x0B → ∃ n : ℤ, (n : ℚ) = productSum (fmtAF f) (fmtBF f) row col 0 m.ke ∧ out = [(((accs.headD 0 : ℤ) + n) % 2 ^ 32).toNat]) ∧
     (fmtACCF f ≠ 0x0B → accs.length = (if fmtCOMP f then 2 else 1) → (∀ x ∈ accs, CodeFinite (if fmtACCF f = 1 then fp64 else fp32) x) →
       (∀ x, d = some x → CodeFinite fp32 x ∧ fmtACCF f = 0 ∧ fmtSCL f = false) →
       (fmtSCL f = true → scales.length = (m.ke + size - 1) / size → (∀ x ∈ scales, CodeFinite fp16 x.1) →
         SumsTo fp32 (fmtCOMP f) d (groupTerms (fmtAF f) (fmtBF f) size m.ke scales row col) accs out) ∧
       (fmtSCL f = false → 1 < fmtAF f → SumsTo fp32 (fmtCOMP f) d (chunkTerms (fmtAF f) (fmtBF f) m.ke row col) accs out) ∧
       (fmtSCL f = false → fmtAF f ≤ 1 → none ∉ row →
         let fp := if fmtACCF f = 1 then fp64 else fp32
         SumsTo fp (fmtCOMP f) d (fusedTerms fp (fmtAF f) (fmtBF f) m.ke row col) accs out)))

/-- R277, R278, R286, R287, R289, R293, R296: a channel starts its commands in order and one at a time, each after the accesses of the one before; it
attempts each sector once; a collective waits for its waypoint; a command ends with an arrival of its bytes, or with none, held, once the
fault queue has room for its record; and a die halves its expert counts. That the first command of a channel whose team is frozen holds back
those behind it, and that in a vector only what the supervisor pushed starts, is the model's reading (log 60). -/
def Obligations.CopyEvents : Prop :=
  ∀ (s : State) (bay ch : Nat),
    -- COPY_COMMAND_START
    ((s.headCmd bay ch).isSome = true ∨ nextCommand s bay ch = none → exec (.copyCommandStart bay ch) s = .next s) ∧
    (∀ c, s.headCmd bay ch = none → nextCommand s bay ch = some c → c.stalled = true →
      exec (.copyCommandStart bay ch) s = .next (s.mapCmd bay ch c.seq fun c => { c with state := .running }).wakeCopies) ∧
    (∀ c t, s.headCmd bay ch = none → nextCommand s bay ch = some c → c.stalled = false → s.team? c.team = some t →
      ∃ s' c', exec (.copyCommandStart bay ch) s = .next s' ∧ c' ∈ s'.cmds ∧ c'.bay = bay ∧ c'.ch = ch ∧ c'.seq = c.seq ∧ c'.team = c.team ∧
        c'.state = .running ∧ c'.cmd = c.cmd ∧ c'.ops = c.ops ∧ c'.record = c.record ∧ c'.count = c.count ∧ c'.complete = c.complete ∧
        (c.cmd ≠ 5 → c'.tried = [] ∧ c'.failed = [] ∧ c'.coll = .go) ∧
        (∀ id ∈ (s.channel bay ch).after, id ∈ c'.known) ∧ (∀ id ∈ t.launch.known, id ∈ c'.known) ∧
        (∀ r, c.pushed = some r → r.reaches c'.place c.scope = true → ∀ id ∈ r.known, id ∈ c'.known)) ∧
    (s.headCmd bay ch = none → exec (.copyCommandEnd bay ch) s = .next s) ∧
    (s.runningCmd bay ch = none → ∀ i, exec (.copySectorComplete bay ch i) s = .next s ∧ exec (.collPhaseWaitEnd bay ch) s = .next s) ∧
    (∀ c t, s.runningCmd bay ch = some c → s.team? c.team = some t →
      -- COPY_SECTOR_COMPLETE
      (∀ i, ¬sectorDue c i → exec (.copySectorComplete bay ch i) s = .next s) ∧
      (∀ i, sectorDue c i → NoFirstTouch s t c → ∃ s' c', exec (.copySectorComplete bay ch i) s = .next s' ∧ s'.runningCmd bay ch = some c' ∧
        c'.seq = c.seq ∧ (i ∈ c'.tried ∨ i ∈ c'.first.map (·.1))) ∧
      (∀ i gs s1, sectorDue c i → c.cmd < 4 → sectorGrans t c .all i s = .ok (gs, s1) → Memory.wf s1.mem = true →
        ∃ s' c', exec (.copySectorComplete bay ch i) s = .next s' ∧ s'.runningCmd bay ch = some c' ∧ i ∈ c'.tried ∧ c'.seq = c.seq ∧
          (failedCauses gs = [] → i ∈ c'.complete ∧ c'.failed = c.failed ∧
            c'.doneBytes = c.doneBytes + (min (1024 * (i + 1)) c.count - 1024 * i)) ∧
          (∀ e, (failedCauses gs).head? = some e →
            c'.complete = c.complete ∧ c'.failed = c.failed ++ [(i, e.code, e.fva)] ∧ c'.doneBytes = c.doneBytes) ∧
          (∀ a, (∀ g, Except.ok g ∈ gs → ¬granWrites g a) → State.SameByte s1 s' a)) ∧
      -- COLL_PHASE_WAIT_END
      (c.coll = .go → exec (.collPhaseWaitEnd bay ch) s = .next s) ∧
      (∀ second p, c.coll = .wait second p →
        let ended := c.granted.filter fun g => g.handle == c.cwph && g.waited == p
        let passes (rs : List Release) : Prop := ∃ s' c', exec (.collPhaseWaitEnd bay ch) s = .next s' ∧
          c' ∈ s'.cmds ∧ c'.seq = c.seq ∧ c'.coll = .go ∧ c'.second = second ∧ c'.failed = c.failed ∧
          ∀ r ∈ rs, r.reaches c.place c.scope = true → ∀ id ∈ r.known, id ∈ c'.known
        (∀ g, ended = some g → passes g.releases) ∧
        (∀ x, ended = none → s.waypoint? c.cwph t.dct.aspace = some x → ¬phaseDone x p → exec (.collPhaseWaitEnd bay ch) s = .next s) ∧
        (∀ x, ended = none → s.waypoint? c.cwph t.dct.aspace = some x → phaseDone x p → passes (phaseReleases x p)) ∧
        (ended = none → s.waypoint? c.cwph t.dct.aspace = none → ∃ s' c', exec (.collPhaseWaitEnd bay ch) s = .next s' ∧ c' ∈ s'.cmds ∧
          c'.seq = c.seq ∧ c'.coll = .go ∧ ∀ i, i < c.nsec → i ∈ c'.complete ∨ i ∈ c'.tried))) ∧
    -- COPY_COMMAND_END
    (∀ c t, s.headCmd bay ch = some c → s.team? c.team = some t → c.state = .posting →
      (s.queueFull = true → exec (.copyCommandEnd bay ch) s = .next s) ∧
      (s.queueFull = false → exec (.copyCommandEnd bay ch) s = .next (postedCopy s t c))) ∧
    (∀ c t, s.headCmd bay ch = some c → s.team? c.team = some t → c.state = .running →
      let ended := c.coll = .go ∧ ∀ i, i < c.nsec → i ∈ c.complete ∨ i ∈ c.tried
      let slots := (s.cmds.filter fun x => x.team == c.team && (x.state == .held || x.state == .posting)).map (·.slot)
      let lost := c.lost.countP fun x => c.complete.contains (x.1 / 64) && !c.prior.contains (x.1 / 64)
      (¬ended → exec (.copyCommandEnd bay ch) s = .next s) ∧
      (ended → c.failed = [] →
        let s1 := arrivedFor s c t.dct.aspace 1 c.runBytes lost false
        exec (.copyCommandEnd bay ch) s = .next (((s1.setChannel { s1.channel bay ch with
          after := unionIds (coveredBy c).known c.made, afterLifted := unionIds (coveredBy c).lifted c.made }).dropCmd bay ch c.seq).wakeCopies)) ∧
      (ended → c.failed ≠ [] → (∀ k, k < 4 → k ∈ slots) →
        exec (.copyCommandEnd bay ch) s = .next (s.mapCmd bay ch c.seq fun c => { c with stalled := true })) ∧
      (∀ slot, ended → c.failed ≠ [] → slot < 4 → slot ∉ slots → (∀ j, j < slot → j ∈ slots) →
        let b := State.writeBitmap (arrivedFor s c t.dct.aspace 0 c.runBytes lost true) t c (t.block + 0x10000 + slot * 0x8000) ((c.nsec + 511) / 512 * 8)
        let c' : CopyCmd := { c with state := .posting, slot := slot, bmerr := !b.2, stalled := false }
        let s3 := b.1.mapCmd bay ch c.seq fun _ => c'
        exec (.copyCommandEnd bay ch) s = .next (if s3.queueFull then s3 else postedCopy s3 t c'))) ∧
    -- EXPERT_COUNT_HALVING
    (∀ die, (∀ d, s.die? die = some d → d.lookups < 65536) → exec (.expertCountHalving die) s = .next s) ∧
    (∀ die d, s.die? die = some d → 65536 ≤ d.lookups → ∃ s', exec (.expertCountHalving die) s = .next s' ∧ s'.mem = s.mem ∧
      s'.experts = s.experts.map fun e => if e.die = die then { e with count := e.count / 2 } else e)

/-- R152, R153, R155, R156, R158, R162: an engine that runs no entry takes the next one that selects its group, acquires what its push released, and
stands at the first word of its first trip with the trip's uniform registers; an entry with no word to run is passed over. A path that a
split opens keeps the token counters of its slot, which is the model's choice (log 24).
R152, R158, R160, R163, R164, R188: the oldest entry retires when every group that it selects has finished it with the accesses made under it,
and blocks surrendered before what is left join their pool; EOS and MARK post their entry of the rq,
and a join closes the two paths, when every engine of the group has come to it. That L and S come to an EOS and a MARK too before it posts is
the model's reading (log 25).
R175, R178, R179: a group whose engines all wait for the group itself raises QUEUE_PROTOCOL at the word of its lowest C engine; and while the team
freezes, a halt stops an engine where it stands: a word whose tokens were taken and no repetition made gives them back, and S whose stores
the lease of a queued operation holds stands before them. -/
def Obligations.EntriesAndEngines : Prop :=
  (∀ (s : State) (t : Team) (g : Group) (who : Eng), s.team? t.key = some t → t.group? g.num = some g →
     let idle := t.engineMayRun g who = true ∧ (g.eng who).running = false ∧ t.phase ≠ .vector ∧ t.phase ≠ .freezing
     let go (i : Instr) : Out := exec i s
     (¬idle → go (.cqEntryStart t.key g.num who) = .next s) ∧
     (t.nextEntry g.num (g.eng who) = none → go (.cqEntryStart t.key g.num who) = .next s) ∧
     (∀ e, idle → t.nextEntry g.num (g.eng who) = some e →
       (e.kind = .eos ∨ e.kind = .mark ∨ e.kind = .join → go (.cqEntryStart t.key g.num who) = .next s) ∧
       (e.kind = .splitB → (∀ p, who ≠ .c p) ∧ g.split = none ∨ (∃ p, who = .c p) → go (.cqEntryStart t.key g.num who) = .next s) ∧
       -- a NOP, and an entry without a trip, acquire and are passed over
       ((e.kind = .nop ∨ e.kind = .run ∧ e.trips = 0) → ∃ s1, acquireEntry t g who e s = .ok ((), s1) ∧
         go (.cqEntryStart t.key g.num who) = .next (s1.mapGroup t.key g.num fun g => g.stirred.mapEng who fun x => x.skipTo (e.n + 1))) ∧
       (e.kind = .run → e.trips ≠ 0 → ∃ s1, acquireEntry t g who e s = .ok ((), s1) ∧
         (∀ c, startOff t g e s1 = .error (.trap c) → go (.cqEntryStart t.key g.num who) = .next (s.laneTrap t.key g.num who false c)) ∧
         ∀ off s2, startOff t g e s1 = .ok (off, s2) → (∀ p, who = .c p → p < g.paths.length) →
           ∃ s' u h, go (.cqEntryStart t.key g.num who) = .next s' ∧ s'.team? t.key = some u ∧ u.group? g.num = some h ∧
           (h.eng who).entry = e.n ∧ (h.eng who).running = true ∧ (h.eng who).off = off ∧ (h.eng who).trip = 0 ∧ (h.eng who).rep = 0 ∧
           (h.eng who).latch = none ∧ (h.eng who).y = [0, e.arg0, e.arg1, BitVec.ofNat 32 (e.n % 2 ^ 16)] ∧
           (h.eng who).vc = (g.eng who).vc ∧ (∀ p, who = .c p → (h.pathAt p).m0 = e.m0 t.kernel.width 0) ∧ h.rlog = g.rlog ∧ h.lq = g.lq ∧ h.sq = g.sq) ∧
       -- a split: C opens its paths, a path without lanes excepted, and L and S follow into them one after the other
       (e.kind = .splitA → (∀ p, who ≠ .c p) → g.split = none → go (.cqEntryStart t.key g.num who) = .next s) ∧
       (∀ a f, e.kind = .splitA → who = .c a → g.split = none → t.entryAt (e.n + 1) = some f → (∀ q, q < 4 → (g.pathAt q).live = true) →
         go (.cqEntryStart t.key g.num who) = .next (s.laneWait t.key g.num who .path)) ∧
       (∀ a f b, e.kind = .splitA → who = .c a → g.split = none → t.entryAt (e.n + 1) = some f → b < 4 → (g.pathAt b).live = false →
         (∀ q, q < b → (g.pathAt q).live = true) → a ≠ b → a < g.paths.length → b < g.paths.length →
         (e.trips = 0 → f.trips = 0 → ∃ s', openSplit t g a e s = .ok ((), s')) ∧
         ∀ s', openSplit t g a e s = .ok ((), s') → go (.cqEntryStart t.key g.num who) = .next s' ∧
           ∃ u h, s'.team? t.key = some u ∧ u.group? g.num = some h ∧ h.split = some (a, b) ∧
             (h.pathAt a).live = decide (e.m0 t.kernel.width 0 ≠ 0) ∧ (h.pathAt b).live = decide (f.m0 t.kernel.width 0 ≠ 0) ∧
             ∀ c, (h.pathAt b).counter c = (g.pathAt b).counter c ∧ (h.pathAt a).counter c = (g.pathAt a).counter c) ∧
       (∀ a b, e.kind = .splitA ∨ e.kind = .splitB → who = .l ∨ who = .s → g.split = some (a, b) →
         (e.trips = 0 → ∃ s', entryStart t.key g.num who s = .ok ((), s')) ∧
         ∀ s', entryStart t.key g.num who s = .ok ((), s') → go (.cqEntryStart t.key g.num who) = .next s' ∧
           ∀ u h, s'.team? t.key = some u → u.group? g.num = some h → (h.eng who).path = (if e.kind = .splitA then a else b)))) ∧
  (∀ (s : State) (t : Team), s.team? t.key = some t →
     (t.cq = [] → exec (.cqEntryRetire t.key) s = .next s) ∧
     (∀ e rest, t.cq = e :: rest →
       let ended := ∀ g ∈ t.groups, e.selects g.num = true →
         (∀ who ∈ g.engines, e.n < (g.eng who).entry) ∧ ∀ a ∈ g.flight, a.done = false → a.origin.entry ≠ e.n
       (¬ended → exec (.cqEntryRetire t.key) s = .next s) ∧
       (ended → ∃ s' u, exec (.cqEntryRetire t.key) s = .next s' ∧ s'.team? t.key = some u ∧ u.cq = rest ∧ u.rq = t.rq ∧
         u.groups = t.groups.map (fun g => { g with passMarks := g.passMarks.filter (fun m => m.entry != e.n), endings := g.endings.filter (fun m => m.entry != e.n) }) ∧ u.g = t.g ∧ s'.mem = s.mem ∧
         u.pool + u.poolPartner + u.surrenders.length = t.pool + t.poolPartner + t.surrenders.length ∧
         (t.surrenders = [] → u.pool = t.pool ∧ u.poolPartner = t.poolPartner))) ∧
     (∀ g e, t.group? g.num = some g → t.nextEntry g.num g.l = some e →
       let there := g.allAt t e.n = true ∧ (∀ a ∈ g.flight, a.done = true) ∧ t.phase = .running
       let posted (s : State) (flags : Nat) : State := (s.mapTeam t.key fun u => { u with rq := u.rq ++
         [{ flags := flags, predv := 0, block := e.block, grp := g.num, seq := e.n % 2 ^ 16, release := none }] }).mapGroup t.key g.num fun g => g.allTo (e.n + 1)
       ((e.kind ≠ .eos ∨ ¬there ∨ 16 ≤ t.rq.length) → exec (.eosPost t.key g.num) s = .next s) ∧
       (e.kind = .eos → there → t.rq.length < 16 → ∃ s1, acquireAll t g e g.engines s = .ok ((), s1) ∧ exec (.eosPost t.key g.num) s = .next (posted s1 4)) ∧
       ((e.kind ≠ .mark ∨ ¬there ∨ 16 ≤ t.rq.length) → exec (.markPost t.key g.num) s = .next s) ∧
       (e.kind = .mark → there → t.rq.length < 16 → ∃ s1, acquireAll t g e g.engines s = .ok ((), s1) ∧ exec (.markPost t.key g.num) s = .next (posted s1 2)) ∧
       ((e.kind ≠ .join ∨ ¬there ∨ g.split = none) → exec (.splitClose t.key g.num) s = .next s) ∧
       -- path A goes on in its slot, where it was not opened in the slot that it had
       (∀ a b, e.kind = .join → there → g.split = some (a, b) → a ≠ b → a < g.paths.length → b < g.paths.length →
         let low := match g.parked with | some x => x.1 | none => a
         low = a ∨ low = b → ∃ s' u h, exec (.splitClose t.key g.num) s = .next s' ∧ s'.team? t.key = some u ∧ u.group? g.num = some h ∧
           h.split = none ∧ h.parked = none ∧ (∀ q, q = a ∨ q = b → q ≠ low → (h.pathAt q).live = false) ∧ (h.pathAt low).live = true ∧
           (h.pathAt low).c.entry = e.n + 1 ∧ h.l.entry = e.n + 1 ∧ h.s.entry = e.n + 1 ∧ h.l.path = low ∧ h.s.path = low ∧
           (∀ k, (g.pathAt b).c.vc.getD k 0 ≤ (h.pathAt low).c.vc.getD k 0) ∧
           ∀ x ∈ [EngKind.l, EngKind.s, EngKind.c], ∀ id ∈ (s.knowOf (.engine t.key g.num b x)).known, id ∈ (s'.knowOf (.engine t.key g.num low x)).known))) ∧
  (∀ (s : State) (t : Team) (g : Group), s.team? t.key = some t → t.group? g.num = some g →
     (let inner (e : Engine) : Prop := e.running = true ∧ (e.waitFor = some .slots ∨ e.waitFor = some .token ∨ e.waitFor = some .sync ∨ e.waitFor = some .slip)
      let stuck := t.phase = .running ∧ s.groupQuiet t.key g = true ∧ ∀ who ∈ g.engines, inner (g.eng who)
      (¬stuck → exec (.groupDeadlock t.key g.num) s = .next s) ∧
      (∀ p, stuck → g.liveSlots.head? = some p → exec (.groupDeadlock t.key g.num) s = .next (s.laneTrap t.key g.num (.c p) false (plainCause 0x09)))) ∧
     (∀ who, let halts := t.phase = .freezing ∧ who ∈ g.engines ∧ (g.eng who).halted = false
       (¬halts → exec (.engineHalt t.key g.num who) s = .next s) ∧
       (∀ a, halts → s.heldStore t g who = some a → ∃ s' u h, exec (.engineHalt t.key g.num who) s = .next s' ∧ s'.team? t.key = some u ∧
         u.group? g.num = some h ∧ h.s.halted = true ∧ h.s.entry = a.origin.entry ∧ h.s.trip = a.origin.trip ∧ h.s.off = a.origin.off ∧
         h.s.rep = a.origin.rep ∧ a ∉ h.flight ∧ (∀ x ∈ h.flight, x ∈ g.flight) ∧ (∀ x ∈ g.flight, x.done = true ∨ x.eng ≠ .s → x ∈ h.flight) ∧
         s'.mem = s.mem ∧ s'.writes = s.writes) ∧
       (halts → s.heldStore t g who = none → (∀ p, who = .c p → p < g.paths.length) → ∃ s' u h, exec (.engineHalt t.key g.num who) s = .next s' ∧ s'.team? t.key = some u ∧
         u.group? g.num = some h ∧ (h.eng who).halted = true ∧ (h.eng who).arrived = false ∧ (h.eng who).granted = none ∧
         (h.eng who).running = (g.eng who).running ∧ (h.eng who).entry = (g.eng who).entry ∧ (h.eng who).trip = (g.eng who).trip ∧
         h.rlog = g.rlog ∧ h.flight = g.flight ∧ s'.mem = s.mem ∧ s'.writes = s.writes ∧
         -- C has passed the words of other tags before the one that it stands at
         ((∀ p, who ≠ .c p) ∨ (g.eng who).latch ≠ none ∨ (g.eng who).issued = true →
           (h.eng who).off = (g.eng who).off ∧ (h.eng who).rep = (g.eng who).rep ∧
           (∀ la, (g.eng who).rep = 0 → (g.eng who).issued = false → (g.eng who).latch = some la → la.toks ≠ [] → (h.eng who).latch = none) ∧
           ((g.eng who).rep ≠ 0 ∨ (g.eng who).issued = true → (h.eng who).latch = (g.eng who).latch)))))

/-- R373, R374, R380: the first launch of a queue that is not dispatched waits for phase BPH of its bound waypoint; its counts are then read once,
and give the number of its iterations. A nest of no iteration ends at once; a bound waypoint that does not exist, a count that cannot be read and a
product over 2^48 − 1 end it with a record of CMD 0xE. The counts are read through the context as the launch read it (R372), and a launch
ahead in the queue is an earlier one (log 75).
R222, R333, R374, R388: a nest completes when its last team has exited, under ORDER when no earlier launch of its queue is left: it arrives at its
completion waypoint, gives back its cellar, reclaims its LIFE 1 waypoints and counts for its forking team. An earlier launch is one ahead in
the queue (log 75). -/
def Obligations.NestEvents : Prop :=
  (∀ (s : State) (queue : Nat) (before after : List Nest) (n : Nest),
     let go := exec (.nestDispatch queue) s
     ((∀ m ∈ s.nests, m.queue = queue → m.started = true ∨ m.finished = true) → go = .next s) ∧
     (s.nests = before ++ n :: after → n.queue = queue → n.started = false → n.finished = false →
       (∀ m ∈ before, m.queue = queue → m.started = true ∨ m.finished = true) →
       (n.dispatched = true → go = .next s) ∧
       (n.dispatched = false →
         (n.record.bwp ≠ 0 → s.waypoint? n.record.bwp n.aspace = none → go = .next (nestFails s n.nid 0x11)) ∧
         (∀ w, n.record.bwp ≠ 0 → s.waypoint? n.record.bwp n.aspace = some w → ¬phaseDone w n.record.bph → go = .next s) ∧
         ∀ rs, (n.record.bwp = 0 ∧ rs = [] ∨ n.record.bwp ≠ 0 ∧ ∃ w, s.waypoint? n.record.bwp n.aspace = some w ∧ phaseDone w n.record.bph ∧
             rs = phaseReleases w n.record.bph) →
             let met := rs.filter fun r => r.reaches n.walker n.record.bscope
             let known := met.foldl (fun a r => unionIds a r.known) []
             let lifted := rs.foldl (fun a r => unionIds a (unionIds r.known r.lifted)) []
             let counts := readCounts n n.reader known lifted n.record.depth s
             ((∀ i, i < n.record.depth → n.record.memMask.testBit i = false) →
               counts = .ok ((List.range n.record.depth).map fun i => n.record.counts.getD i 0, s)) ∧
             (∀ c, counts = .error (.trap c) → go = .next (nestFails s n.nid c.code)) ∧
             (∀ cs s1, counts = .ok (cs, s1) →
               let total := cs.foldl (· * ·) 1
               (2 ^ 48 ≤ total → go = .next (nestFails s1 n.nid 0x09)) ∧
               (0 < total → total < 2 ^ 48 → go = .next (s1.mapNest n.nid fun m => { m with
                 record := { m.record with counts := cs }, dispatched := true, total := total })) ∧
               (total = 0 → go = .next (nestEnds (s1.mapNest n.nid fun m => { m with record := { m.record with counts := cs } }) n.nid)))))) ∧
  (∀ (s : State) (before after : List Nest) (n : Nest), s.nests = before ++ n :: after → (∀ m ∈ before, m.nid ≠ n.nid) →
     let due := n.finished = true ∧ (n.order = true → ∀ m ∈ before, m.queue ≠ n.queue)
     (¬due → exec (.nestCompletion n.nid) s = .next s) ∧
     (due → ∃ s', exec (.nestCompletion n.nid) s = .next s' ∧ (∀ m, m ∈ s'.nests ↔ m ∈ s.nests ∧ m.nid ≠ n.nid) ∧
       (∀ w, n.record.cwp ≠ 0 → s.waypoint? n.record.cwp n.aspace = some w →
         s.waypoints.find? (fun x => x.die == w.die && x.index == w.index) = some w → ¬(w.life = 1 ∧ w.owner = n.nid) →
         s'.waypoints.find? (fun x => x.die == w.die && x.index == w.index) = some (tested (counted
           { w with releases := w.releases ++ n.done.map fun r => (w.phase, r) } 1 0 0 false none) true)) ∧
       (∀ w ∈ s'.waypoints, w.valid = true → w.life = 1 → w.owner = n.nid → w.aspace ≠ n.aspace) ∧
       (∀ c ∈ n.cellar, c.2 ≠ 0 → ∀ a ∈ s'.allots, a.tag ≠ c.2) ∧
       (∀ k t, n.parent = some k → s.team? k = some t →
         ∃ u, s'.team? k = some u ∧ u.children = t.children - 1 ∧ u.joined = t.joined + 1) ∧
       (∀ k t, n.parent ≠ some k → s.team? k = some t →
         ∃ u, s'.team? k = some u ∧ u.children = t.children ∧ u.joined = t.joined)))

/-- R100, R148, R376, R381, R382: the walkers place the next iteration that the rules choose, on the lowest lead bay that fits: its team starts with a
TID, a stack slot and the registers and segments that the launch gives. A nest whose object is not resident ends with a record, and a ready
team whose class no bay has any more is parked with one. R370 gives no TAG and SEQ for a parked team; the record's are the model's choice
(log 76), and an object entry whose page is not mapped counts as not resident (log 16). Rule 4's pointer moves on among new iterations of the
priority. -/
def Obligations.TeamPlacements : Prop :=
  ∀ (s : State),
    (∀ t, s.classless = some t → exec .teamPlacement s = .next ((s.mapTeam t.key fun u => { u with ready := .noClass }).post t.place
      { RecordFields.zero with seq := 0xFFFFFFFF, tag := t.pc.toNat, fsec := t.frozenClass.getD 0 % 4, bay := t.bay, ctx := t.ctx, cmd := 0xA
                               cause := 0x0A, dst := t.curObj * 2 ^ 48 })) ∧
    (s.classless = none → (∀ c ∈ s.chosen, c.team ≠ none) → exec .teamPlacement s = .next s) ∧
    (∀ c n, s.classless = none → s.chosen.find? (fun c => c.team.isNone) = some c → s.nest? c.nid = some n →
      (c.want = none → exec .teamPlacement s = .next
        { nestFails s n.nid 0x05 with lastQueues := s.lastQueues.set (2 * s.priority n.queue + 1) n.queue }) ∧
      (∀ w bay loc d s0 s1, c.want = some w → s.fitsAt w bay = true → bay < 192 → (∀ b, b < bay → s.fitsAt w b = false) →
        readDct (sePlace s.lowestDie) n.dctx s = .ok (d, s0) → s0.objLoc { s.ghost n.dctx with dct := d } (n.record.code.toNat / 2 ^ 48) = some (loc, s1) →
        n.freeSlots ≠ [] →
        (∃ i, 1 ≤ i ∧ i ≤ d.nteam ∧ ∀ u ∈ s.teams, u.dctx = n.dctx → u.tid ≠ i) →
        n.record.depth ≤ n.record.counts.length →
        ∃ (s' : State) (t : Team) (m : Nest), exec .teamPlacement s = .next s' ∧ t ∈ s'.teams ∧ s'.nest? n.nid = some m ∧
          s'.lastQueues = s.lastQueues.set (2 * s.priority n.queue + 1) n.queue ∧
          m.nextOrd = n.nextOrd + 1 ∧ m.started = true ∧ m.teams = n.teams ++ [t.key] ∧ m.stackUsed = n.stackUsed ++ [t.stackSlot] ∧
          t.key = n.dctx * 2 ^ 16 + t.tid ∧ t.dctx = n.dctx ∧ 1 ≤ t.tid ∧ t.tid ≤ d.nteam ∧ (∀ u ∈ s.teams, u.dctx = n.dctx → u.tid ≠ t.tid) ∧
          t.stackSlot < n.record.stkSlots ∧ t.stackSlot ∉ n.stackUsed ∧ t.nid = n.nid ∧ t.ordinal = n.nextOrd ∧ t.queue = n.queue ∧
          t.resident = true ∧ t.phase = .running ∧ t.super = false ∧ t.bay = bay ∧ t.duplex = n.record.duplex ∧ t.cq = [] ∧ t.rq = [] ∧
          t.pc = (n.record.code.setWidth 32).setWidth 64 ∧ t.curObj = n.record.code.toNat / 2 ^ 48 ∧ t.block = (d.tbBase + (t.tid - 1) * 0x30000) % 2 ^ 64 ∧
          t.reg 4 = n.launchWord ∧ t.reg 62 = BitVec.ofNat 64 t.block ∧ t.reg 2 = BitVec.ofNat 64 (n.record.stack / 16 * 16) ∧
          (∀ i, i < n.record.depth → i < 8 → t.reg (BitVec.ofNat 6 (48 + i)) =
            BitVec.ofNat 64 (n.nextOrd / (n.record.counts.take i).foldl (· * ·) 1 % n.record.counts.getD i 0)) ∧
          (∀ i, n.record.depth ≤ i → i < 8 → t.reg (BitVec.ofNat 6 (48 + i)) = 0) ∧
          t.seg 2 = mkSeg 0 n.record.argLen 0 false false true n.record.argBase ∧
          t.seg 3 = mkSeg 0 n.record.stack 0 false true true (n.record.stkBase + t.stackSlot * n.record.stack) ∧
          t.groups.length = n.record.ngrp * (if t.duplex then 2 else 1)))

/-- R383, R385, R386, R390: how a team leaves its bay. A request marks it; at a node boundary, with its work done, it is swapped out and keeps what
R385 names; a waiter that stands in a candidate's way leaves in that way at a node boundary and by full save elsewhere; at the deadline a
team under request is saved in full. A full save whose image cannot be written leaves it frozen on its bay. Which waiters leave, also in a
vector and by full save, is the model's reading (log 70), and so are the mark and the moment of a failed save (log 72) and that the deadline
takes a team that is frozen or in its vector too (log 109).
R148, R149, R370, R381, R383: a ready team that the rules choose comes back on the lowest lead bay that fits: one that left at a node
boundary with fresh groups, its queues and its shapes granted anew, one that was saved with its own groups under its frozen class. One that
holds copy commands waits until the host fault queue has room for their fresh records (log 93). -/
def Obligations.TeamMoves : Prop :=
  (∀ (s : State) (t : Team), s.team? t.key = some t →
     let request := exec (.preemptionRequest t.key) s
     let boundary := exec (.nodeSwapOut t.key) s
     let deadline := exec (.preemptionDeadline t.key) s
     let leave := exec (.teamDeschedule t.key) s
     (t.resident = false → request = .next s) ∧
     (t.resident = true → request = .next (s.mapTeam t.key fun u => { u with preempt := true })) ∧
     (let asked := t.resident = true ∧ t.phase = .running ∧ t.preempt = true
      let atNode := s.atNode t = true ∧ s.quiet t = true
      (¬(asked ∧ atNode) → boundary = .next s) ∧
      (asked → atNode → ∃ s', boundary = .next s' ∧ LeftAtNode s s' t .now) ∧
      let pressed := t.resident = true ∧ t.preempt = true ∧ s.still t = true
      (¬pressed → deadline = .next s) ∧
      (pressed → saveFailure s t = none → ∃ s', deadline = .next s' ∧ LeftSaved s s' t .now) ∧
      (∀ f, pressed → saveFailure s t = some f → ∃ s', deadline = .next s' ∧ StaysFrozen s s' t)) ∧
     ((t.waitFor = none ∨ t.waitsVisibly = false ∨ s.stands t = false) → leave = .next s) ∧
     (∀ w, t.waitFor = some w → t.waitsVisibly = true → s.stands t = true →
       let atNode := t.phase = .running ∧ s.atNode t = true
       (atNode → s.quiet t = false → leave = .next s) ∧
       (atNode → s.quiet t = true → ∃ s', leave = .next s' ∧ LeftAtNode s s' t (.waits w)) ∧
       (¬atNode → s.still t = false → leave = .next s) ∧
       (¬atNode → s.still t = true → saveFailure s t = none → ∃ s', leave = .next s' ∧ LeftSaved s s' t (.waits w)) ∧
       (∀ f, ¬atNode → s.still t = true → saveFailure s t = some f → ∃ s', leave = .next s' ∧ StaysFrozen s s' t))) ∧
  (∀ (s : State) (t : Team), s.team? t.key = some t →
     let held := s.cmds.filter fun c => c.team == t.key && (c.state == .held || c.state == .posting)
     let used := (s.mgmt.fqProd + 2 ^ 32 - s.mgmt.fqCons % 2 ^ 32) % 2 ^ 32 + s.posts.length
     ((∀ c ∈ s.chosen, c.team ≠ some t.key) → exec (.teamResume t.key) s = .next s) ∧
     (held ≠ [] → 4096 < used + held.length → exec (.teamResume t.key) s = .next s) ∧
     (∀ c w bay, s.chosen.find? (fun c => c.team == some t.key) = some c → c.want = some w → s.fitsAt w bay = true → bay < 192 →
       (∀ b, b < bay → s.fitsAt w b = false) → (held = [] ∨ used + held.length ≤ 4096) →
       ∃ s' u, exec (.teamResume t.key) s = .next s' ∧ s'.team? t.key = some u ∧ u.resident = true ∧ u.ready = .now ∧ u.waitFor = none ∧ u.bay = bay ∧
         u.pc = t.pc ∧ u.resumes = t.resumes + 1 ∧ u.tid = t.tid ∧ u.stackSlot = t.stackSlot ∧
         s'.lastQueues = s.lastQueues.set (2 * s.priority t.queue) t.queue ∧
         (t.image = 0 → t.frozenClass = none →
           u.g = t.g ∧ u.segs = t.segs ∧ u.fmts = t.fmts ∧ u.cq = t.cq ∧ u.rq = t.rq ∧
           u.groups.length = s.groupsOf t.nid * (if t.duplex then 2 else 1) ∧
           (u.cls = t.cls → u.shapes = t.shapes) ∧
           (u.cls ≠ t.cls → u.shapeChanged = true ∧ u.shapes = t.shapes.map fun h => h.regrant u.cls t.kernel.width)) ∧
         (∀ k, t.frozenClass = some k → u.cls = k ∧ u.frozenClass = none ∧ u.groups.length = t.groups.length)))

/-- R322, R333, R361, R366: the page sequencer serves a fill with the oldest frame of the home die's pool, which reads 0, and writes its leaf into
the page's entry of every tree, by the roots that its translation had, that has the path; a prefetching translation adds only valid leaves to
stream TLBs; a write token moves after the writes of its block have reached their homes; and the end of a context reclaims its LIFE 2
waypoints. -/
def Obligations.PageEvents : Prop :=
  ∀ (s : State),
    (∀ (n : Nat) (f : Fill), (s.fills.length ≤ n → exec (.poolFill n) s = .next s) ∧
      (s.fills[n]? = some f →
        let s2 := { s with fills := s.fills.erase f }.wakeFills
        let up := (List.range 4).filter fun i => s2.dieUp i
        let walkOf (i : Nat) : Walk := s2.walk (f.roots.getD i 0) f.va
        (s2.die? f.home = none ∨ (∃ x, s2.die? f.home = some x ∧ x.pool = []) ∨
          (∀ i ∈ up, (walkOf i).level = 0 → (walkOf i).leaf ≠ some f.leaf) → exec (.poolFill n) s = .next s2) ∧
        (∀ x pa rest i, s2.die? f.home = some x → x.pool = pa :: rest → i ∈ up → (walkOf i).level = 0 → (walkOf i).leaf = some f.leaf →
          ∃ s' y, exec (.poolFill n) s = .next s' ∧ s'.fills = s.fills.erase f ∧ s'.die? f.home = some y ∧ y.pool = rest ∧
            (∀ e ∈ s'.tlb, dieOfBay e.bay < 4 → e.aspace = f.aspace → e.page ≠ (if e.large then f.va / 2 ^ 21 else f.va / 2 ^ 16)) ∧
            s'.posts = s.posts ∧ (∀ t ∈ s'.teams, t.waitFor ≠ some .poolFill) ∧
            let leaf := f.leaf - 2 ^ 59 - field f.leaf 53 52 * 2 ^ 52 + pa / 2 ^ 16 % 2 ^ 36 * 2 ^ 16
            let put (s : State) (i : Nat) : State :=
              let r := s.atomicRead (sePlace s.lowestDie) (walkOf i).loc 8
              r.2.atomicWrite (sePlace r.2.lowestDie) none r.1 (walkOf i).loc (leBytes 8 leaf)
            s' = (List.range 4).foldl (fun s d => s.invalidate d f.aspace (some f.va) false) ((up.filter fun i => (walkOf i).level == 0).foldl put
              ((s2.mapDie f.home fun d => { d with pool := d.pool.tail }).zeroFrame pa (2 ^ 16)))))) ∧
    (∀ (die dctx va : Nat) (t : Team),
      ((∀ u ∈ s.teams, u.resident = true → u.dctx = dctx → u.die ≠ die) → exec (.tlbPrefetch die dctx va) s = .next s) ∧
      (s.teams.find? (fun u => u.resident && u.dctx == dctx && u.die == die) = some t →
        let w := s.walk (t.dct.roots.getD die 0) va
        (w.leaf = none → exec (.tlbPrefetch die dctx va) s = .next s) ∧
        (∀ leaf, w.leaf = some leaf → ∃ xs, exec (.tlbPrefetch die dctx va) s = .next { s with tlb := xs } ∧
          ∀ e ∈ xs, e ∈ s.tlb ∨ (dieOfBay e.bay = die ∧ e.helm = false ∧ e.aspace = t.dct.aspace ∧ e.large = w.large ∧ e.leaf = leaf ∧
            e.page = (if w.large then va / 2 ^ 21 else va / 2 ^ 16))))) ∧
    (∀ (block : Nat) (holder : TokenHolder),
      let die := dieOfPa (block * 4096)
      let may := s.dieUp die = true ∧ block < 2 ^ 27 ∧ ∀ b, holder = .bay b → dieOfBay b = die
      (¬may → exec (.writeTokenTransfer block holder) s = .next s) ∧
      (may → ∃ s', exec (.writeTokenTransfer block holder) s = .next s' ∧ State.SameMemory s s' ∧ s'.teams = s.teams ∧
        (∀ k ∈ s'.tokens, k.block = block → k.holder = holder) ∧ (∃ k ∈ s'.tokens, k.block = block) ∧
        (∀ k, k.block ≠ block → (k ∈ s'.tokens ↔ k ∈ s.tokens)) ∧
        (∃ ids, s'.home = s.home ++ ids) ∧ ∀ w ∈ s.writes, w.inBlock block = true → w.bottom = false → w.id ∈ s'.home)) ∧
    (∀ (dctx : Nat), ∃ s', exec (.contextDestruction dctx) s = .next s' ∧
      ((∀ w ∈ s.waypoints, w.valid = true → w.life = 2 → w.dctx = dctx → w.index < 65536) → State.SameMemory s s') ∧
      (∀ w ∈ s'.waypoints, w.valid = true → w.life = 2 → w.dctx ≠ dctx) ∧
      (∀ w ∈ s.waypoints, (w.life ≠ 2 ∨ w.dctx ≠ dctx) → (∀ x ∈ s.waypoints, x.die = w.die → x.index = w.index → x = w) → w ∈ s'.waypoints))

/-- R328, R427, R429: writes of the management registers. A priority and a doorbell hold what was written; DCTBASE takes a write only with no launch
queued and no team resident, SECFG only from the firmware during bring-up; FQCONS does not pass FQPROD, which supervisor code
may advance past records of its own; a pool takes a frame of its own die at a multiple of 64 KiB, and what it does not take is logged. The
block's offsets name these registers; those that are read only take nothing. That supervisor code writes FQCONS as the host does, and the
bounds on its FQPROD, are the model's choice (log 95), and so are that the values count modulo 2^32 (log 44) and that LQPRI and SECFG drop
the bits to which the spec gives no meaning (log 47). -/
def Obligations.ManagementRegisters : Prop :=
  ∀ (s : State) (host : Bool) (v : W64) (n : Nat),
    let write (off : Nat) : Out := exec (.registerWrite host off v) s
    (n < 64 → write (0x2000 + 8 * n) = exec (.lqpriWrite n v) s ∧ ∃ s', exec (.lqpriWrite n v) s = .next s' ∧ s'.priority n = v.toNat % 8 ∧
      (∀ q, q ≠ n → s'.priority q = s.priority q) ∧ s'.mgmtRead (0x2000 + 8 * n) = v.toNat % 8 ∧ s'.teams = s.teams) ∧
    (write 0x3000 = exec (.dctbaseWrite v) s ∧
      exec (.dctbaseWrite v) s = .next (if s.nests = [] ∧ ∀ t ∈ s.teams, t.resident = false then { s with mgmt := { s.mgmt with dctBase := v } } else s)) ∧
    write 0x1000 = .next { s with mgmt := { s.mgmt with fqBase := v } } ∧
    (write 0x1010 = exec (.fqconsWrite v) s ∧
      (s.mgmt.fqProd < 2 ^ 32 → s.mgmt.fqCons ≤ s.mgmt.fqProd → s.mgmt.fqProd ≤ s.mgmt.fqCons + 4096 →
        (v.toNat ≤ s.mgmt.fqProd → s.mgmt.fqCons ≤ v.toNat →
          exec (.fqconsWrite v) s = .next { s with mgmt := { s.mgmt with fqCons := v.toNat } }) ∧
        (v.toNat < 2 ^ 32 → s.mgmt.fqProd < v.toNat → v.toNat < s.mgmt.fqProd + 2 ^ 31 →
          exec (.fqconsWrite v) s = .next { s with mgmt := { s.mgmt with fqCons := s.mgmt.fqProd } }))) ∧
    (exec (.registerWrite true 0x1008 v) s = .next s ∧
      (s.mgmt.fqProd < 2 ^ 32 → s.mgmt.fqCons ≤ s.mgmt.fqProd → s.mgmt.fqProd ≤ s.mgmt.fqCons + 4096 → v.toNat < 2 ^ 32 →
        (s.mgmt.fqProd < v.toNat → v.toNat ≤ s.mgmt.fqCons + 4096 → exec (.registerWrite false 0x1008 v) s = .next { s with mgmt := { s.mgmt with
          fqProd := v.toNat, msix := s.mgmt.msix ++ (if s.mgmt.fqProd = s.mgmt.fqCons then [0] else []) } }) ∧
        (v.toNat = s.mgmt.fqProd ∨ s.mgmt.fqCons + 4096 < v.toNat → exec (.registerWrite false 0x1008 v) s = .next s))) ∧
    (n < 4 → write (0x8000 + 0x1000 * n) = .next s ∧
      (∀ firmware, exec (.secfgWrite firmware n v) s = .next (if firmware = true ∧ s.mgmt.state = 0 then
        s.mapDie n fun d => { d with secfg := v &&& 0x00FF007FFFFF0000 } else s)) ∧
      -- POOLCNT is read only
      write (0x8010 + 0x1000 * n) = .next s ∧
      (∀ d, s.die? n = some d → s.mgmtRead (0x8010 + 0x1000 * n) = d.pool.length) ∧
      write (0x8008 + 0x1000 * n) = exec (.poolpushWrite n v) s ∧
      (s.die? n = none → exec (.poolpushWrite n v) s = .next s) ∧
      (∀ d, s.die? n = some d →
        let takes := d.inService = true ∧ d.pool.length < 65536 ∧ v.toNat % 2 ^ 16 = 0 ∧ v.toNat < 2 ^ 39 ∧ v.toNat / 2 ^ 37 = n
        (∃ s', exec (.poolpushWrite n v) s = .next s' ∧ s'.mgmtRead (0x8008 + 0x1000 * n) = v.toNat) ∧
        (takes → exec (.poolpushWrite n v) s = .next (s.mapDie n fun d => { d with push := v, pool := d.pool ++ [v.toNat] })) ∧
        (¬takes → ∃ s', exec (.poolpushWrite n v) s = .next s' ∧ LoggedEvent s s' 7 n ∧ s'.dies = (s.mapDie n fun d => { d with push := v }).dies))) ∧
    (n < 256 → write (0x4000 + 8 * n) = exec (.reldbWrite n v) s ∧
      let rung := { s with mgmt := { s.mgmt with reldb := (n, v) :: s.mgmt.reldb.filter fun x => x.1 != n } }
      let key := n * 2 ^ 16 + v.toNat
      ((v = 0 ∨ 2 ^ 16 ≤ v.toNat ∨ s.team? key = none) → exec (.reldbWrite n v) s = .next rung) ∧
      (∀ t, v ≠ 0 → v.toNat < 2 ^ 16 → s.team? key = some t →
        (t.phase ≠ .stopped → t.resident = true ∨ t.ready ≠ .release → exec (.reldbWrite n v) s = .next rung) ∧
        (t.phase ≠ .stopped → t.resident = false → t.ready = .release →
          exec (.reldbWrite n v) s = .next (rung.mapTeam key fun u => { u with ready := .now })) ∧
        (t.phase = .stopped → t.inVector = true → exec (.reldbWrite n v) s = .next (rung.mapTeam key fun u => { u with phase := .vector, overdue := false })) ∧
        (t.phase = .stopped → t.inVector = false → t.overdue = true →
          exec (.reldbWrite n v) s = .next (rung.mapTeam key fun u => { u with phase := .running, overdue := false })) ∧
        (t.phase = .stopped → t.inVector = false → t.overdue = false → exec (.reldbWrite n v) s = .next (rung.enterVectorFrom2 key)))) ∧
    (n < 32 → s.mgmt.mboxData.length = 256 → ∃ s', write (0x100 + 8 * n) = .next s' ∧ s'.mgmtRead (0x100 + 8 * n) = v.toNat ∧
      ∀ i, i < 32 → i ≠ n → s'.mgmtRead (0x100 + 8 * i) = s.mgmtRead (0x100 + 8 * i)) ∧
    (n = 0 ∨ n = 0x1018 ∨ n % 8 ≠ 0 ∨ 0x10000 ≤ n → write n = .next s)

/-- R428, R431, R435: a write to MBOXCMD with BUSY 0 starts a command, and one with an unknown code or a nonzero must-be-0 bit ends at once; then the
commands, each with its result and status: STATUS, RETEST, ROUTE.SET, ROUTE.GET and TEAM.END, which waits for room in the host fault queue.
The order of the checks, the data bytes that they look at, the status of a set bit of [62:16] and the write with its own BUSY set are the
model's reading (log 46), and so is RETEST from step 3 in every case (log 48). -/
def Obligations.MailboxCommands : Prop :=
  ∀ (s : State) (host : Bool) (v : W64) (r : BringUp),
    let cmd := s.mgmt.mboxCmd.toNat
    let started (code : Nat) : Prop := 2 ^ 63 ≤ cmd ∧ cmd % 2 ^ 16 = code
    let taken := { s with mgmt := { s.mgmt with mboxCmd := (v &&& 0xFFFF) ||| 0x8000000000000000 } }
    let d := leNat (s.mgmt.mboxData.take 8)
    let serves := s.mgmt.state = 1 ∨ s.mgmt.state = 3
    let known := [0x1, 0x3, 0x10, 0x11, 0x20]
    (2 ^ 63 ≤ cmd ∨ 2 ^ 63 ≤ v.toNat → exec (.registerWrite host 8 v) s = .next s) ∧
    (cmd < 2 ^ 63 → v.toNat < 2 ^ 63 →
      (2 ^ 16 ≤ v.toNat → exec (.registerWrite host 8 v) s = .next (mboxEnds taken [] 2)) ∧
      (v.toNat < 2 ^ 16 → v.toNat ∉ known → exec (.registerWrite host 8 v) s = .next (mboxEnds taken [] 1)) ∧
      (v.toNat ∈ known → exec (.registerWrite host 8 v) s = .next taken)) ∧
    (¬started 0x1 → exec .mboxStatus s = .next s) ∧
    (started 0x1 → exec .mboxStatus s = .next (mboxEnds s (leBytes 8 (mstatOf s) ++ ((List.range 4).map fun i => BitVec.ofNat 8 (s.enabledBays i)) ++
      ((List.range 4).map fun i => BitVec.ofNat 8 (s.freeSpares i).length) ++
      ((List.range 8).map fun st => BitVec.ofNat 8 (s.health.countP fun h => h.stack == st && h.retired)) ++
      leBytes 2 ((s.links.map fun l => if l.up then 2 ^ l.num else 0).sum)) 0)) ∧
    (¬started 0x3 → exec (.mboxRetest r) s = .next s) ∧
    (started 0x3 → s.mgmt.state ≠ 2 → exec (.mboxRetest r) s = .next (mboxEnds s [] 3)) ∧
    (started 0x3 → s.mgmt.state = 2 → exec (.mboxRetest r) s = .next (mboxEnds (s.bringUp r) [] 0)) ∧
    (¬started 0x10 → exec .mboxRouteSet s = .next s) ∧ (¬started 0x11 → exec .mboxRouteGet s = .next s) ∧
    (¬started 0x20 → exec .mboxTeamEnd s = .next s) ∧
    (¬serves → (started 0x10 → exec .mboxRouteSet s = .next (mboxEnds s [] 3)) ∧ (started 0x11 → exec .mboxRouteGet s = .next (mboxEnds s [] 3)) ∧
      (started 0x20 → exec .mboxTeamEnd s = .next (mboxEnds s [] 3))) ∧
    (serves → started 0x10 →
      ((d / 2 ^ 8 % 2 ^ 8 ≠ 0 ∨ d / 2 ^ 32 % 2 ^ 32 ≠ 0) → exec .mboxRouteSet s = .next (mboxEnds s [] 2)) ∧
      (d / 2 ^ 8 % 2 ^ 8 = 0 → d / 2 ^ 32 % 2 ^ 32 = 0 →
        let rest := s.routes.filter fun x => x.node != d % 256
        exec .mboxRouteSet s = .next (mboxEnds { s with routes :=
          if d / 2 ^ 16 % 2 ^ 16 = 0 then rest else { node := d % 256, mask := d / 2 ^ 16 % 2 ^ 16 } :: rest } [] 0))) ∧
    (serves → started 0x11 →
      (d / 2 ^ 8 % 2 ^ 56 ≠ 0 → exec .mboxRouteGet s = .next (mboxEnds s [] 2)) ∧
      (d / 2 ^ 8 % 2 ^ 56 = 0 →
        let mask := match s.routes.find? fun x => x.node == d % 256 with | some x => x.mask | none => 0
        exec .mboxRouteGet s = .next (mboxEnds s (leBytes 8 (mask * 2 ^ 16 +
          (s.links.map fun l => if l.up && mask.testBit l.num then 2 ^ l.num else 0).sum * 2 ^ 32)) 0))) ∧
    (serves → started 0x20 →
      let key := d % 256 * 2 ^ 16 + d / 2 ^ 16 % 2 ^ 16
      let parked (t : Team) : Prop := t.phase = .stopped ∨ (t.resident = false ∧ (t.ready = .release ∨ t.ready = .noClass))
      ((d / 2 ^ 8 % 2 ^ 8 ≠ 0 ∨ d / 2 ^ 32 % 2 ^ 32 ≠ 0) → exec .mboxTeamEnd s = .next (mboxEnds s [] 2)) ∧
      (d / 2 ^ 8 % 2 ^ 8 = 0 → d / 2 ^ 32 % 2 ^ 32 = 0 →
        (s.team? key = none → exec .mboxTeamEnd s = .next (mboxEnds s [] 4)) ∧
        (∀ t, s.team? key = some t → ¬parked t → exec .mboxTeamEnd s = .next (mboxEnds s [] 4)) ∧
        (∀ t, s.team? key = some t → parked t → s.queueFull = true → exec .mboxTeamEnd s = .next s) ∧
        (∀ t, s.team? key = some t → parked t → s.queueFull = false → ∃ s1, exec .mboxTeamEnd s = .next (mboxEnds s1 [] 0) ∧ s1 = s.haltTeam key 0 ∧
          s1.team? key = none)))

/-- R322, R325, R370, R426, R429, R431, R435: accesses from outside and what the module sends out. The host and peers reach HBM in service, and the
host its own memory; a DOE message is answered in every state; the oldest fault record goes to host memory when the queue has room, with
vector 0 where it was empty; and an access that got no answer is noted against its
node. Where a channel's addresses lie in its stack is taken from outside the spec (log 12), and the record's write as one unit is the
model's choice (log 73). -/
def Obligations.OutsideEvents : Prop :=
  ∀ (s : State), Memory.wf s.mem = true →
    (∀ (write sync : Bool) (pa : Nat) (data : List Byte),
      let host := exec (.hostCxlMemAccess write sync pa data) s
      let snoop := exec (.cxlCacheSnoop write sync pa data) s
      let running := s.mgmt.state = 1 ∨ s.mgmt.state = 3
      (¬Reachable s pa ∨ ¬OneLine pa data → host = .next s) ∧
      (Reachable s pa → OneLine pa data → ∃ s', host = .next s' ∧ s'.teams = s.teams ∧
        (write = true → Stored s s' (locOf hbmTag pa) data) ∧ (write = false → State.SameMemory s s')) ∧
      (¬running ∨ 2 ^ 52 ≤ pa ∨ ¬OneLine pa data → snoop = .next s) ∧
      (running → pa < 2 ^ 52 → OneLine pa data → ∃ s', snoop = .next s' ∧ s'.teams = s.teams ∧
        (write = true → Stored s s' (locOf hostTag pa) data) ∧ (write = false → State.SameMemory s s')) ∧
      ∀ node, (¬Reachable s pa ∨ ¬OneLine pa data → exec (.peerRequest node write pa data) s = .next s) ∧
        (Reachable s pa → OneLine pa data → ∃ s', exec (.peerRequest node write pa data) s = .next s' ∧ s'.teams = s.teams ∧
          (write = true → Stored s s' (locOf hbmTag pa) data) ∧ (write = false → State.SameMemory s s'))) ∧
    (∀ msg, ∃ answer tick, exec (.doeSpdmRequest msg) s =
      .next { s with tick := tick, mgmt := { s.mgmt with doe := s.mgmt.doe ++ [answer], spdm := s.mgmt.spdm ++ [msg] } }) ∧
    (∀ node, exec (.peerResponseTimeout node) s =
      .next (if node ∈ s.timeouts ∨ 255 < node then s else { s with timeouts := s.timeouts ++ [node] })) ∧
    (s.posts = [] → exec .faultRecordPost s = .next s) ∧
    (∀ r rest, s.posts = r :: rest → s.mgmt.fqProd < 2 ^ 32 → s.mgmt.fqCons ≤ s.mgmt.fqProd →
      let used := s.mgmt.fqProd - s.mgmt.fqCons
      (4096 ≤ used → exec .faultRecordPost s = .next s) ∧
      (used < 4096 → ∃ s', exec .faultRecordPost s = .next s' ∧ s'.posts = rest ∧ s'.teams = s.teams ∧
        s'.mgmt.fqProd = (s.mgmt.fqProd + 1) % 2 ^ 32 ∧ s'.mgmt.fqCons = s.mgmt.fqCons ∧
        s'.mgmt.msix = s.mgmt.msix ++ (if used = 0 then [0] else []) ∧
        Stored s s' (locOf hostTag ((s.mgmt.fqBase.toNat + 64 * (s.mgmt.fqProd % 4096)) % 2 ^ 64)) (leBytes 64 r.record)))

/-- R18, R19, R20, R140, R436, R437, R438: monitors, repair and loss. A reading is logged; over its threshold its unit is repaired: a bay retires, a
quadrant is fused out, an HBM channel retires. A bay whose last team has left is replaced by a spare, or leaves service, or where that
leaves fewer than 40 the die is lost; a die that is lost takes its bays, teams, frames and waypoints with it. A bay's failed test and an
uncorrectable error start the same repairs with no reading. The entries of repairs (logs 36 and 49), the second crossing that retires a
channel (log 40), the spare that a bay gets (log 39), the replaced bay's fresh state (log 51) and that a second failed edge stops nothing
(log 96) are the model's choice. -/
def Obligations.HealthEvents : Prop :=
  ∀ (s : State) (e : HealthEntry),
    (∃ s1, exec (.monitorReport e) s = .next s1 ∧ Logged s s1 e ∧ s1.teams = s.teams ∧ s1.bays = s.bays ∧ s1.dies = s.dies ∧ s1.health = s.health ∧
      (∀ u, ¬ReadingOf s e u → exec (.thresholdCrossing e u) s = .next s) ∧
      (ReadingOf s e .none → exec (.thresholdCrossing e .none) s = .next s1) ∧
      (∀ n b, ReadingOf s e (.bay n) → s.bay? n = some b → let go := exec (.thresholdCrossing e (.bay n)) s
        (b.inService = false ∨ b.quads = 0 → go = .next s1) ∧
        (b.inService = true → b.quads ≠ 0 →
          ∃ s' b', go = .next s' ∧ s'.bay? n = some b' ∧ b'.quads = 0 ∧ b'.retiring = true ∧ b'.inService = true ∧ Leaving s' n ∧
            LoggedEvent s1 s' 5 (n / 48 % 16) ∧
            (∀ stop rest, NoOtherWants s n → b.spare = none → s.freeSpares (n / 48) = stop :: rest → b'.spare = some stop))) ∧
      (∀ n b, ReadingOf s e (.quadrant n) → s.bay? n = some b → let go := exec (.thresholdCrossing e (.quadrant n)) s
        (b.inService = false ∨ b.quads = 0 → go = .next s1) ∧
        (b.inService = true → 0 < b.quads →
          ∃ s' b', go = .next s' ∧ s'.bay? n = some b' ∧ b'.quads = b.quads - 1 ∧ b'.inService = true ∧
            (b'.quads < 2 → b'.retiring = true) ∧ (s.onBay n = [] → b'.presented = quadClass b'.quads) ∧ Leaving s' n ∧
            LoggedEvent s1 s' 5 (n / 48 % 16))) ∧
      (∀ st ch, ReadingOf s e (.channel st ch) → let go := exec (.thresholdCrossing e (.channel st ch)) s
        ((∀ h ∈ s.health, ¬(h.stack = st ∧ h.ch = ch)) →
          ∃ s', go = .next s' ∧ s'.health = s.health ++ [{ stack := st, ch := ch, retired := false }] ∧ LoggedEvent s1 s' 5 (st / 2)) ∧
        ((∃ h ∈ s.health, h.stack = st ∧ h.ch = ch) → go = .next { s1 with
          health := s.health.map fun h => if h.stack = st ∧ h.ch = ch then { h with retired := true } else h })) ∧
      (∀ link lane, ReadingOf s e (.lane link lane) → exec (.thresholdCrossing e (.lane link lane)) s = exec (.laneSpareSwitch link lane) s1)) ∧
    -- R437's other triggers: a bay's failed test and an uncorrectable error, which are no readings
    (∀ n b, s.bay? n = some b → let go := exec (.thresholdCrossing e (.failedTest n)) s
      (b.inService = false ∨ b.quads = 0 → go = .next s) ∧
      (b.inService = true → b.quads ≠ 0 → ∃ s' b', go = .next s' ∧ s'.bay? n = some b' ∧ b'.quads = 0 ∧ b'.retiring = true ∧ b'.inService = true ∧
        Leaving s' n ∧ LoggedEvent s s' 5 (n / 48 % 16))) ∧
    (∀ st ch, st < 8 → ch < 32 → (∀ h ∈ s.health, ¬(h.stack = st ∧ h.ch = ch)) →
      ∃ s', exec (.thresholdCrossing e (.uncorrectable st ch)) s = .next s' ∧
        s'.health = s.health ++ [{ stack := st, ch := ch, retired := false }] ∧ LoggedEvent s s' 5 (st / 2)) ∧
    (∀ n, let go := exec (.bayRetirement n) s
      let left (b : Bay) := s.bay? n = some b ∧ b.retiring = true ∧ b.inService = true ∧ s.onBay n = []
      ((∀ b, ¬left b) → go = .next s) ∧
      (∀ b, left b → b.num = n →
        (∀ stop, b.spare = some stop → ∃ s' b', go = .next s' ∧ s'.bay? n = some b' ∧ b'.stop = stop ∧ b'.quads = 4 ∧
          b'.presented = 0 ∧ b'.inService = true ∧ b'.retiring = false ∧ b'.spare = none ∧ s'.teams = s.teams) ∧
        (b.spare = none →
          let out := s.mapBay n fun b => { b with inService := false, retiring := false }
          (40 ≤ out.enabledBays (n / 48) → go = .next out) ∧
          (out.enabledBays (n / 48) < 40 → out.dieUp (n / 48) = true → go = exec (.dieDegradeOut (n / 48)) out)))) ∧
    (∀ die, (s.dieUp die = false → exec (.dieDegradeOut die) s = .next s) ∧
      (s.dieUp die = true → ∃ s', exec (.dieDegradeOut die) s = .next s' ∧ s'.mgmt.state = 3 ∧ s'.dieUp die = false ∧ LoggedEvent s s' 5 (die % 16) ∧
        (∀ d, d ≠ die → s'.dieUp d = s.dieUp d) ∧ (∀ b ∈ s'.bays, b.num / 48 = die → b.inService = false) ∧
        (∀ t ∈ s'.teams, t.resident = true → t.die ≠ die) ∧ (∀ w ∈ s'.waypoints, w.die = die → w.valid = false) ∧
        (∀ c ∈ s'.mem, c.1 / 2 ^ 64 = hbmTag → c.1 / 2 ^ 37 % 4 ≠ die) ∧
        (∀ t ∈ s.teams, t.resident = true → t.die = die → ∃ p ∈ s'.posts, p.record =
          RecordFields.image { RecordFields.zero with
            seq := 0xFFFFFFFF, tag := t.pc.toNat, bay := t.bay, ctx := t.ctx, cmd := 0xB, cause := 0x0C, dst := t.curObj * 2 ^ 48 }))) ∧
    (∀ edge, let up := s.edges.getD edge false
      (up = false → exec (.dieEdgeFailure edge) s = .next s) ∧
      (up = true → ∃ s', exec (.dieEdgeFailure edge) s = .next s' ∧ s'.edges = s.edges.set edge false ∧ LoggedEvent s s' 5 (edge % 16) ∧
        State.SameMemory s s' ∧ s'.teams = s.teams))

/-- R439: above 95 °C a bay's clock steps down by 125 MHz per 2 °C, to a floor of 875 MHz, and comes back as the junction cools; above 110 °C every bay
clock stops, and such a stop lasts until the next module reset. Only timing changes. That floor((T − 95) / 2) steps are taken is the
model's reading (log 41).
R430, R432: Rhumb links. A flit with a bad CRC is asked for again, and flits are delivered once and in sequence; a sent flit stands in the
replay buffer of 64 flits; a link is down after 16 retries of one flit; a failing lane is switched to the spare, for which the link retrains
and holds its flits, and a second one takes the link down. That a retry flit of type 3 asks for a flit is the model's choice (log 20), and so
is the count of nine lanes (log 49). -/
def Obligations.HeatAndLinks : Prop :=
  (∀ (s : State) (bay temp : Nat),
     let stepped := s.mapBay bay fun b => { b with temp := temp, mhz := max 875 (1750 - 125 * ((temp - 95) / 2)) }
     exec (.thermalClockStep bay temp) s =
       .next (if 110 < temp then { stepped with mgmt := { s.mgmt with thermal := true } } else if 95 < temp then stepped else s) ∧
     (s.bay? bay = none → exec (.junctionCooling bay temp) s = .next s) ∧
     (∀ b, s.bay? bay = some b → exec (.junctionCooling bay temp) s = .next (if temp < b.temp then stepped else s)) ∧
     exec .thermalStop s = .next { s with mgmt := { s.mgmt with thermal := true } }) ∧
  (∀ (s : State) (l : Link) (flit : List Byte) (lane : Nat), s.links.find? (fun x => x.num == l.num) = some l →
     let put (x : Link) : State := { s with links := s.links.map fun y => if y.num == l.num then x else y }
     let one := s.links.countP (fun x => x.num == l.num) = 1
     let receive := exec (.rhumbFlitReceive l.num flit) s
     let hears := l.up = true ∧ l.retraining = false ∧ flit.length = 256
     let sound := Config.crc64 (flit.take 248) = BitVec.ofNat 64 (leNat (flit.drop 248))
     let seq := leNat (flit.take 2)
     (¬hears → receive = .next s) ∧
     (one → hears → ¬sound → l.rxRetries < 16 → l.txSeq < 2 ^ 16 → ∃ ask, FlitOf ask l.txSeq 3 ∧ receive = .next { put { l with
       txSeq := (l.txSeq + 1) % 2 ^ 16, replay := (l.replay ++ [(l.txSeq, ask)]).drop (l.replay.length - 63), sent := some ask
       rxRetries := l.rxRetries + 1 } with
       tick := s.tick + 1 }) ∧
     (one → hears → ¬sound → 16 ≤ l.rxRetries → receive = .next (put { l with up := false })) ∧
     (hears → sound → seq ≠ l.rxSeq → receive = .next s) ∧
     (one → hears → sound → seq = l.rxSeq →
       let heard := { l with rxSeq := (l.rxSeq + 1) % 2 ^ 16, rxRetries := 0 }
       (flit.getD 2 0 ≠ 3 → receive = .next (put { heard with txRetries := 0 })) ∧
       -- the oldest flit of the replay buffer is put on the lanes again
       (∀ x rest, flit.getD 2 0 = 3 → l.txRetries < 16 → l.replay = x :: rest →
         receive = .next (put { heard with txRetries := l.txRetries + 1, sent := some x.2 })) ∧
       (flit.getD 2 0 = 3 → l.txRetries < 16 → l.replay = [] → receive = .next (put { heard with txRetries := l.txRetries + 1 })) ∧
       (flit.getD 2 0 = 3 → 16 ≤ l.txRetries → receive = .next (put { heard with up := false }))) ∧
     (¬(l.up = true ∧ (16 ≤ l.txRetries ∨ 16 ≤ l.rxRetries)) → exec (.linkDown l.num) s = .next s) ∧
     (one → l.up = true → (16 ≤ l.txRetries ∨ 16 ≤ l.rxRetries) → exec (.linkDown l.num) s = .next (put { l with up := false })) ∧
     (l.up = false ∨ lane ∈ l.failedLanes ∨ 8 < lane → exec (.laneSpareSwitch l.num lane) s = .next s) ∧
     (one → l.up = true → l.failedLanes = [] → lane ≤ 8 → ∃ s', exec (.laneSpareSwitch l.num lane) s = .next s' ∧
       s'.links = (put { l with failedLanes := [lane], retraining := true }).links ∧ LoggedEvent s s' 5 ((4 + l.num / 8) % 16) ∧
       State.SameMemory s s' ∧ s'.teams = s.teams) ∧
     (one → l.up = true → l.failedLanes ≠ [] → lane ∉ l.failedLanes → lane ≤ 8 →
       exec (.laneSpareSwitch l.num lane) s = .next (put { l with failedLanes := l.failedLanes ++ [lane], up := false })) ∧
     (l.retraining = false → exec (.linkRetrainComplete l.num) s = .next s) ∧
     (one → l.retraining = true → exec (.linkRetrainComplete l.num) s = .next (put { l with
       retraining := false, replay := (l.replay ++ l.held).drop ((l.replay ++ l.held).length - 64), held := []
       sent := ((l.replay ++ l.held).getLast?.map (·.2)).or l.sent })))

/-- R433 to R435, R439: a module reset runs bring-up. A failing step leaves harbour state with its code; where every step passes, the module runs, with
its dies, bays, edges and links, spares for the bays and lanes that need them and the failing HBM channels retired. What repair covers is
logged, also in a step that fails and before it. One entry for each repair (log 36), the lowest of failing edges or links and one failed
lane (log 49), code 0x60 before step 1 (log 48), the numbers of the spare stops (log 39), and host memory that keeps its bytes (log 37) are
the model's choice. -/
def Obligations.ModuleResets : Prop :=
  ∀ (s : State) (r : BringUp),
    -- harbour state, with so many repairs logged before its own entry
    let harbour (code logged : Nat) : Prop := ∃ s', exec (.moduleReset r) s = .next s' ∧ s'.mgmt.state = 2 ∧ s'.mgmt.harbour = code ∧
      s'.mgmt.hlProd = (logged + 1) % 2 ^ 32 ∧ s'.teams = [] ∧ s'.nests = [] ∧ ∀ d, s'.dieUp d = false
    let cool := s.mgmt.thermal = false
    let verified := cool ∧ r.selfTest = true ∧ r.rsaOk = true ∧ r.slhOk = true
    let enabled (d : Nat) : Nat := ((bringUpBays d (r.quads.getD d [])).filter (·.inService)).length
    let allDies := ∀ d, d < 4 → r.dies.getD d false = true
    let allStacks := ∀ st, st < 8 → (setBits (r.chans.getD st 0) 32).length ≤ 4
    let allBays := ∀ d, d < 4 → 40 ≤ enabled d
    let failedEdges := (List.range 4).filter fun i => !r.edges.getD i false
    let badLanes (i : Nat) := setBits (r.lanes.getD i 0) 9
    let linkUp (i : Nat) : Bool := r.links.getD i false && decide ((badLanes i).length ≤ 1)
    let failedLinks := (List.range 16).filter fun i => !linkUp i
    let badChans (st : Nat) : Nat := (setBits (r.chans.getD st 0) 32).length
    -- what repair covers in HBM, in the dies' stops, and in edges and links, up to and in a step that fails
    let step4 := ((List.range 8).map fun st => if badChans st ≤ 4 then badChans st else 0).sum
    let step5 := step4 + ((List.range 4).map fun d => if 40 ≤ enabled d then
      (List.range 52).countP fun i => decide ((r.quads.getD d []).getD i 0 < 4) else 0).sum
    let step6 := step5 + (if failedEdges.length < 2 then failedEdges.length else 0) + ((List.range 16).map fun i =>
      if linkUp i = false ∧ 8 < failedLinks.length then 0 else if badLanes i = [] ∧ r.links.getD i false = false then 1 else (badLanes i).length).sum
    (s.mgmt.thermal = true → harbour 0x60 0) ∧
    (cool → r.selfTest = false → harbour 0x01 0) ∧
    (cool → r.selfTest = true → r.rsaOk = false → r.slhOk = true → harbour 0x02 0) ∧
    (cool → r.selfTest = true → r.rsaOk = true → r.slhOk = false → harbour 0x03 0) ∧
    (cool → r.selfTest = true → r.rsaOk = false → r.slhOk = false → harbour 0x04 0) ∧
    (∀ d, verified → d < 4 → r.dies.getD d false = false → (∀ e, e < d → r.dies.getD e false = true) → harbour (0x10 + d) 0) ∧
    (∀ st, verified → allDies → st < 8 → 4 < (setBits (r.chans.getD st 0) 32).length →
      (∀ x, x < st → (setBits (r.chans.getD x 0) 32).length ≤ 4) → harbour (0x20 + st / 2) step4) ∧
    (∀ d, verified → allDies → allStacks → d < 4 → enabled d < 40 → (∀ e, e < d → 40 ≤ enabled e) → harbour (0x30 + d) step5) ∧
    (verified → allDies → allStacks → allBays → 2 ≤ failedEdges.length → harbour (0x40 + failedEdges.headD 0) step6) ∧
    (verified → allDies → allStacks → allBays → failedEdges.length < 2 → 8 < failedLinks.length → harbour (0x50 + failedLinks.headD 0) step6) ∧
    (verified → allDies → allStacks → allBays → failedEdges.length < 2 → failedLinks.length ≤ 8 →
      ∃ s', exec (.moduleReset r) s = .next s' ∧ s'.mgmt.state = 1 ∧ s'.mgmt.harbour = 0 ∧ s'.mgmt.thermal = false ∧ s'.teams = [] ∧ s'.nests = [] ∧
        s'.waypoints = [] ∧ s'.tokens = [] ∧ s'.tlb = [] ∧
        (∀ d, d < 4 → ∃ x, s'.die? d = some x ∧ x.inService = true ∧ x.pool = [] ∧ x.secfg = (r.secfg.getD d 0) &&& 0x00FF007FFFFF0000) ∧
        s'.bays = (List.range 4).flatMap (fun d => bringUpBays d (r.quads.getD d [])) ∧
        (∀ i, i < 4 → s'.edges.getD i false = r.edges.getD i false) ∧
        (∀ i, i < 16 → ∃ l, s'.links.find? (fun x => x.num == i) = some l ∧ l.up = linkUp i ∧
          l.failedLanes = badLanes i ∧ l.retraining = false) ∧ s'.mgmt.hlProd = step6 % 2 ^ 32 ∧
        (∀ h ∈ s'.health, h.retired = true) ∧
        (∀ st ch, st < 8 → ch < 32 → ((r.chans.getD st 0).testBit ch = true ↔ { stack := st, ch := ch, retired := true } ∈ s'.health)) ∧
        (Memory.wf s.mem = true → ∀ a, storageOf a = hostTag → s'.byteAt a = s.byteAt a))

/-- Every step that gives a next state keeps memory's canonical form: addresses strictly rising, and no byte that an unlisted address reads as. -/
def Obligations.MemoryStaysCanonical : Prop :=
  ∀ (s s' : State), Memory.wf s.mem = true → step s = .next s' → Memory.wf s'.mem = true
end

