-- ==== Sys2Proof/Laws/Memory.lean ====
section
/-! SUPPORT. The canonical list of bytes: what a write leaves at its own location and elsewhere, and that every operation on memory keeps
the form. -/

namespace Sys2Proof.Machine

/-! ### The form -/

theorem Memory.above_cons {b : Option Nat} {k : Nat} {v : Byte} {m : List Host.Cell} :
    Memory.above b ((k, v) :: m) = true ↔ (∀ x, b = some x → x < k) ∧ v ≠ 0 ∧ Memory.above (some k) m = true := by
  cases b <;> simp [Memory.above, and_assoc]

/-- A lower bound may be lowered. -/
theorem Memory.above_mono {b c : Option Nat} {m : List Host.Cell} (h : Memory.above b m = true)
    (hc : ∀ y, c = some y → ∃ x, b = some x ∧ y ≤ x) : Memory.above c m = true := by
  cases m with
  | nil => simp [Memory.above]
  | cons p m =>
    obtain ⟨k, v⟩ := p
    rw [Memory.above_cons] at h ⊢
    refine ⟨fun y hy => ?_, h.2⟩
    obtain ⟨x, hx, hle⟩ := hc y hy
    have := h.1 x hx
    omega

/-- No location at or below the bound is listed. -/
theorem memGet_above {m : List Host.Cell} {b a : Nat} (h : Memory.above (some b) m = true) (ha : a ≤ b) : memGet m a = 0 := by
  cases m with
  | nil => rfl
  | cons p m =>
    obtain ⟨k, v⟩ := p
    have hk := (Memory.above_cons.1 h).1 b rfl
    simp [memGet, show k ≠ a by omega, show a < k by omega]

/-! ### One byte -/

/-- A read after a write to the same location gives what was written. -/
theorem memGet_memSet_same {m : List Host.Cell} {b : Option Nat} (h : Memory.above b m = true) (a : Nat) (v : Byte) :
    memGet (memSet m a v) a = v := by
  induction m generalizing b with
  | nil => by_cases hv : v = 0#8 <;> simp [memSet, memGet, hv]
  | cons p m ih =>
    obtain ⟨k, w⟩ := p
    obtain ⟨-, -, hm⟩ := Memory.above_cons.1 h
    rcases Nat.lt_trichotomy a k with hk | rfl | hk
    · by_cases hv : v = 0#8
      · simp [memSet, memGet, hv, hk, show k ≠ a by omega]
      · simp [memSet, memGet, hv, hk]
    · by_cases hv : v = 0#8
      · simp [memSet, hv, memGet_above hm (Nat.le_refl a)]
      · simp [memSet, memGet, hv]
    · simp [memSet, memGet, show ¬ a < k by omega, show k ≠ a by omega, ih hm]

/-- A write leaves every other location alone. -/
theorem memGet_memSet_ne {m : List Host.Cell} {b : Option Nat} (h : Memory.above b m = true) {a c : Nat} (hc : c ≠ a) (v : Byte) :
    memGet (memSet m a v) c = memGet m c := by
  induction m generalizing b with
  | nil =>
    by_cases hv : v = 0#8
    · simp [memSet, hv]
    · simp [memSet, memGet, hv, Ne.symm hc]
  | cons p m ih =>
    obtain ⟨k, w⟩ := p
    obtain ⟨-, -, hm⟩ := Memory.above_cons.1 h
    rcases Nat.lt_trichotomy a k with hk | rfl | hk
    · by_cases hv : v = 0#8
      · simp [memSet, hv, hk]
      · rcases Nat.lt_trichotomy c a with hca | hca | hca
        · simp [memSet, memGet, hv, hk, Ne.symm hc, hca, show k ≠ c by omega, show c < k by omega]
        · omega
        · simp [memSet, memGet, hv, hk, Ne.symm hc, show ¬ c < a by omega]
    · by_cases hv : v = 0#8
      · rcases Nat.lt_or_ge c a with hca | hca
        · simp [memSet, hv, memGet, Ne.symm hc, hca, memGet_above hm (Nat.le_of_lt hca)]
        · simp [memSet, hv, memGet, Ne.symm hc, show ¬ c < a by omega]
      · simp [memSet, memGet, hv, Ne.symm hc]
    · simp [memSet, memGet, show ¬ a < k by omega, show k ≠ a by omega, ih hm]

theorem Memory.above_memSet {m : List Host.Cell} {b : Option Nat} (h : Memory.above b m = true) (a : Nat) (v : Byte)
    (ha : ∀ x, b = some x → x < a) : Memory.above b (memSet m a v) = true := by
  induction m generalizing b with
  | nil =>
    by_cases hv : v = 0#8
    · simp [memSet, hv, Memory.above]
    · simp only [memSet, show ¬ v = 0 from hv, if_false]
      exact Memory.above_cons.2 ⟨ha, hv, rfl⟩
  | cons p m ih =>
    obtain ⟨k, w⟩ := p
    obtain ⟨hb, hw, hm⟩ := Memory.above_cons.1 h
    rcases Nat.lt_trichotomy a k with hk | rfl | hk
    · by_cases hv : v = 0#8
      · simpa [memSet, hv, hk] using h
      · simp [memSet, hk, hv]
        exact Memory.above_cons.2 ⟨ha, hv, Memory.above_cons.2 ⟨fun x hx => by cases hx; exact hk, hw, hm⟩⟩
    · by_cases hv : v = 0#8
      · simp [memSet, hv]
        exact Memory.above_mono hm fun y hy => ⟨a, rfl, Nat.le_of_lt (hb y hy)⟩
      · simp [memSet, hv]
        exact Memory.above_cons.2 ⟨hb, hv, hm⟩
    · simp only [memSet, show ¬ a < k by omega, show k ≠ a by omega, if_false]
      exact Memory.above_cons.2 ⟨hb, hw, ih hm fun x hx => by cases hx; exact hk⟩

/-- A write of one byte keeps the canonical form. -/
theorem Memory.wf_memSet {m : List Host.Cell} (h : Memory.wf m = true) (a : Nat) (v : Byte) : Memory.wf (memSet m a v) = true :=
  Memory.above_memSet h a v nofun

/-! ### Several bytes -/

/-- A write of bytes keeps the canonical form. -/
theorem Memory.wf_memSetList {m : List Host.Cell} (h : Memory.wf m = true) (a : Nat) (vs : List Byte) :
    Memory.wf (memSetList m a vs) = true := by
  induction vs generalizing m a with
  | nil => exact h
  | cons v vs ih => exact ih (Memory.wf_memSet h a v) (a + 1)

/-- A write of bytes leaves every location outside them alone. -/
theorem memGet_memSetList_outside {m : List Host.Cell} (h : Memory.wf m = true) {a c : Nat} (vs : List Byte)
    (hc : ¬(a ≤ c ∧ c < a + vs.length)) : memGet (memSetList m a vs) c = memGet m c := by
  induction vs generalizing m a with
  | nil => rfl
  | cons v vs ih =>
    simp only [List.length_cons] at hc
    show memGet (memSetList (memSet m a v) (a + 1) vs) c = _
    rw [ih (Memory.wf_memSet h a v) (by omega), memGet_memSet_ne h (by omega)]

/-- The bytes written are read back. -/
theorem memGet_memSetList_inside {m : List Host.Cell} (h : Memory.wf m = true) (a : Nat) (vs : List Byte) {i : Nat} (hi : i < vs.length) :
    memGet (memSetList m a vs) (a + i) = vs.getD i 0 := by
  induction vs generalizing m a i with
  | nil => simp at hi
  | cons v vs ih =>
    show memGet (memSetList (memSet m a v) (a + 1) vs) (a + i) = _
    cases i with
    | zero =>
      rw [memGet_memSetList_outside (Memory.wf_memSet h a v) vs (by omega)]
      simpa using memGet_memSet_same h a v
    | succ i =>
      have := ih (Memory.wf_memSet h a v) (a + 1) (i := i) (by simpa using hi)
      rw [show a + (i + 1) = a + 1 + i by omega, this]
      simp

theorem Memory.above_filter {m : List Host.Cell} {b : Option Nat} (h : Memory.above b m = true) (f : Host.Cell → Bool) :
    Memory.above b (m.filter f) = true := by
  induction m generalizing b with
  | nil => simp [Memory.above]
  | cons p m ih =>
    obtain ⟨k, v⟩ := p
    obtain ⟨hb, hv, hm⟩ := Memory.above_cons.1 h
    by_cases hf : f (k, v) = true
    · rw [List.filter_cons_of_pos hf]
      exact Memory.above_cons.2 ⟨hb, hv, ih hm⟩
    · rw [List.filter_cons_of_neg hf]
      exact Memory.above_mono (ih hm) fun y hy => ⟨k, rfl, Nat.le_of_lt (hb y hy)⟩

/-- Giving back storage keeps the canonical form. -/
theorem Memory.wf_filter {m : List Host.Cell} (h : Memory.wf m = true) (f : Host.Cell → Bool) : Memory.wf (m.filter f) = true :=
  Memory.above_filter h f

/-- Equal memories are equal lists: two canonical lists that read the same at every location are one. -/
theorem Memory.above_ext {m n : List Host.Cell} {b c : Option Nat} (hm : Memory.above b m = true) (hn : Memory.above c n = true)
    (h : ∀ a, memGet m a = memGet n a) : m = n := by
  induction m generalizing n b c with
  | nil =>
    cases n with
    | nil => rfl
    | cons p n =>
      obtain ⟨k, v⟩ := p
      have := h k
      simp only [memGet, if_true] at this
      exact absurd this.symm (Memory.above_cons.1 hn).2.1
  | cons p m ih =>
    obtain ⟨k, v⟩ := p
    obtain ⟨-, hv, hm'⟩ := Memory.above_cons.1 hm
    cases n with
    | nil =>
      have := h k
      simp [memGet] at this
      exact absurd this hv
    | cons q n =>
      obtain ⟨j, w⟩ := q
      obtain ⟨-, hw, hn'⟩ := Memory.above_cons.1 hn
      have hkj : k = j := by
        rcases Nat.lt_trichotomy k j with hlt | he | hlt
        · have := h k
          simp [memGet, show j ≠ k by omega, hlt] at this
          exact absurd this hv
        · exact he
        · have := h j
          simp only [memGet, show k ≠ j by omega, hlt, if_true, if_false] at this
          exact absurd this.symm hw
      subst hkj
      have hvw : v = w := by simpa [memGet] using h k
      subst hvw
      congr 1
      refine ih hm' hn' fun a => ?_
      rcases Nat.lt_trichotomy k a with hlt | rfl | hlt
      · have := h a
        simpa [memGet, show k ≠ a by omega, show ¬ a < k by omega] using this
      · rw [memGet_above hm' (Nat.le_refl _), memGet_above hn' (Nat.le_refl _)]
      · rw [memGet_above hm' (Nat.le_of_lt hlt), memGet_above hn' (Nat.le_of_lt hlt)]

end Sys2Proof.Machine
end

