-- ==== Sys2Proof/Laws/State.lean ====
section
/-! SUPPORT. What the named updates of the state leave as it was, field by field, and what they change. -/

namespace Sys2Proof.Machine

/-! ### mapTeam -/

@[simp] theorem State.mapTeam_agenda (s : State) (k : Nat) (f : Team → Team) : (s.mapTeam k f).agenda = s.agenda := rfl
@[simp] theorem State.mapTeam_cur (s : State) (k : Nat) (f : Team → Team) : (s.mapTeam k f).cur = s.cur := rfl
@[simp] theorem State.mapTeam_tick (s : State) (k : Nat) (f : Team → Team) : (s.mapTeam k f).tick = s.tick := rfl
@[simp] theorem State.mapTeam_nextWrite (s : State) (k : Nat) (f : Team → Team) : (s.mapTeam k f).nextWrite = s.nextWrite := rfl
@[simp] theorem State.mapTeam_nextStore (s : State) (k : Nat) (f : Team → Team) : (s.mapTeam k f).nextStore = s.nextStore := rfl
@[simp] theorem State.mapTeam_nextGen (s : State) (k : Nat) (f : Team → Team) : (s.mapTeam k f).nextGen = s.nextGen := rfl
@[simp] theorem State.mapTeam_mem (s : State) (k : Nat) (f : Team → Team) : (s.mapTeam k f).mem = s.mem := rfl
@[simp] theorem State.mapTeam_writes (s : State) (k : Nat) (f : Team → Team) : (s.mapTeam k f).writes = s.writes := rfl
@[simp] theorem State.mapTeam_home (s : State) (k : Nat) (f : Team → Team) : (s.mapTeam k f).home = s.home := rfl
@[simp] theorem State.mapTeam_entered (s : State) (k : Nat) (f : Team → Team) : (s.mapTeam k f).entered = s.entered := rfl
@[simp] theorem State.mapTeam_know (s : State) (k : Nat) (f : Team → Team) : (s.mapTeam k f).know = s.know := rfl
@[simp] theorem State.mapTeam_scKnown (s : State) (k : Nat) (f : Team → Team) : (s.mapTeam k f).scKnown = s.scKnown := rfl
@[simp] theorem State.mapTeam_scLifted (s : State) (k : Nat) (f : Team → Team) : (s.mapTeam k f).scLifted = s.scLifted := rfl
@[simp] theorem State.mapTeam_tokens (s : State) (k : Nat) (f : Team → Team) : (s.mapTeam k f).tokens = s.tokens := rfl
@[simp] theorem State.mapTeam_caches (s : State) (k : Nat) (f : Team → Team) : (s.mapTeam k f).caches = s.caches := rfl
@[simp] theorem State.mapTeam_tlb (s : State) (k : Nat) (f : Team → Team) : (s.mapTeam k f).tlb = s.tlb := rfl
@[simp] theorem State.mapTeam_invals (s : State) (k : Nat) (f : Team → Team) : (s.mapTeam k f).invals = s.invals := rfl
@[simp] theorem State.mapTeam_fills (s : State) (k : Nat) (f : Team → Team) : (s.mapTeam k f).fills = s.fills := rfl
@[simp] theorem State.mapTeam_allots (s : State) (k : Nat) (f : Team → Team) : (s.mapTeam k f).allots = s.allots := rfl
@[simp] theorem State.mapTeam_nests (s : State) (k : Nat) (f : Team → Team) : (s.mapTeam k f).nests = s.nests := rfl
@[simp] theorem State.mapTeam_launched (s : State) (k : Nat) (f : Team → Team) : (s.mapTeam k f).launched = s.launched := rfl
@[simp] theorem State.mapTeam_lastQueues (s : State) (k : Nat) (f : Team → Team) : (s.mapTeam k f).lastQueues = s.lastQueues := rfl
@[simp] theorem State.mapTeam_bays (s : State) (k : Nat) (f : Team → Team) : (s.mapTeam k f).bays = s.bays := rfl
@[simp] theorem State.mapTeam_dies (s : State) (k : Nat) (f : Team → Team) : (s.mapTeam k f).dies = s.dies := rfl
@[simp] theorem State.mapTeam_edges (s : State) (k : Nat) (f : Team → Team) : (s.mapTeam k f).edges = s.edges := rfl
@[simp] theorem State.mapTeam_health (s : State) (k : Nat) (f : Team → Team) : (s.mapTeam k f).health = s.health := rfl
@[simp] theorem State.mapTeam_waypoints (s : State) (k : Nat) (f : Team → Team) : (s.mapTeam k f).waypoints = s.waypoints := rfl
@[simp] theorem State.mapTeam_arrivals (s : State) (k : Nat) (f : Team → Team) : (s.mapTeam k f).arrivals = s.arrivals := rfl
@[simp] theorem State.mapTeam_rings (s : State) (k : Nat) (f : Team → Team) : (s.mapTeam k f).rings = s.rings := rfl
@[simp] theorem State.mapTeam_tiles (s : State) (k : Nat) (f : Team → Team) : (s.mapTeam k f).tiles = s.tiles := rfl
@[simp] theorem State.mapTeam_slots (s : State) (k : Nat) (f : Team → Team) : (s.mapTeam k f).slots = s.slots := rfl
@[simp] theorem State.mapTeam_mqueue (s : State) (k : Nat) (f : Team → Team) : (s.mapTeam k f).mqueue = s.mqueue := rfl
@[simp] theorem State.mapTeam_nextMx (s : State) (k : Nat) (f : Team → Team) : (s.mapTeam k f).nextMx = s.nextMx := rfl
@[simp] theorem State.mapTeam_channels (s : State) (k : Nat) (f : Team → Team) : (s.mapTeam k f).channels = s.channels := rfl
@[simp] theorem State.mapTeam_cmds (s : State) (k : Nat) (f : Team → Team) : (s.mapTeam k f).cmds = s.cmds := rfl
@[simp] theorem State.mapTeam_nextRun (s : State) (k : Nat) (f : Team → Team) : (s.mapTeam k f).nextRun = s.nextRun := rfl
@[simp] theorem State.mapTeam_experts (s : State) (k : Nat) (f : Team → Team) : (s.mapTeam k f).experts = s.experts := rfl
@[simp] theorem State.mapTeam_posts (s : State) (k : Nat) (f : Team → Team) : (s.mapTeam k f).posts = s.posts := rfl
@[simp] theorem State.mapTeam_links (s : State) (k : Nat) (f : Team → Team) : (s.mapTeam k f).links = s.links := rfl
@[simp] theorem State.mapTeam_routes (s : State) (k : Nat) (f : Team → Team) : (s.mapTeam k f).routes = s.routes := rfl
@[simp] theorem State.mapTeam_timeouts (s : State) (k : Nat) (f : Team → Team) : (s.mapTeam k f).timeouts = s.timeouts := rfl
@[simp] theorem State.mapTeam_records (s : State) (k : Nat) (f : Team → Team) : (s.mapTeam k f).records = s.records := rfl
@[simp] theorem State.mapTeam_mgmt (s : State) (k : Nat) (f : Team → Team) : (s.mapTeam k f).mgmt = s.mgmt := rfl

/-! ### mapGroup -/

@[simp] theorem State.mapGroup_agenda (s : State) (k g : Nat) (f : Group → Group) : (s.mapGroup k g f).agenda = s.agenda := rfl
@[simp] theorem State.mapGroup_cur (s : State) (k g : Nat) (f : Group → Group) : (s.mapGroup k g f).cur = s.cur := rfl
@[simp] theorem State.mapGroup_tick (s : State) (k g : Nat) (f : Group → Group) : (s.mapGroup k g f).tick = s.tick := rfl
@[simp] theorem State.mapGroup_nextWrite (s : State) (k g : Nat) (f : Group → Group) : (s.mapGroup k g f).nextWrite = s.nextWrite := rfl
@[simp] theorem State.mapGroup_nextStore (s : State) (k g : Nat) (f : Group → Group) : (s.mapGroup k g f).nextStore = s.nextStore := rfl
@[simp] theorem State.mapGroup_nextGen (s : State) (k g : Nat) (f : Group → Group) : (s.mapGroup k g f).nextGen = s.nextGen := rfl
@[simp] theorem State.mapGroup_mem (s : State) (k g : Nat) (f : Group → Group) : (s.mapGroup k g f).mem = s.mem := rfl
@[simp] theorem State.mapGroup_writes (s : State) (k g : Nat) (f : Group → Group) : (s.mapGroup k g f).writes = s.writes := rfl
@[simp] theorem State.mapGroup_home (s : State) (k g : Nat) (f : Group → Group) : (s.mapGroup k g f).home = s.home := rfl
@[simp] theorem State.mapGroup_entered (s : State) (k g : Nat) (f : Group → Group) : (s.mapGroup k g f).entered = s.entered := rfl
@[simp] theorem State.mapGroup_know (s : State) (k g : Nat) (f : Group → Group) : (s.mapGroup k g f).know = s.know := rfl
@[simp] theorem State.mapGroup_scKnown (s : State) (k g : Nat) (f : Group → Group) : (s.mapGroup k g f).scKnown = s.scKnown := rfl
@[simp] theorem State.mapGroup_scLifted (s : State) (k g : Nat) (f : Group → Group) : (s.mapGroup k g f).scLifted = s.scLifted := rfl
@[simp] theorem State.mapGroup_tokens (s : State) (k g : Nat) (f : Group → Group) : (s.mapGroup k g f).tokens = s.tokens := rfl
@[simp] theorem State.mapGroup_caches (s : State) (k g : Nat) (f : Group → Group) : (s.mapGroup k g f).caches = s.caches := rfl
@[simp] theorem State.mapGroup_tlb (s : State) (k g : Nat) (f : Group → Group) : (s.mapGroup k g f).tlb = s.tlb := rfl
@[simp] theorem State.mapGroup_invals (s : State) (k g : Nat) (f : Group → Group) : (s.mapGroup k g f).invals = s.invals := rfl
@[simp] theorem State.mapGroup_fills (s : State) (k g : Nat) (f : Group → Group) : (s.mapGroup k g f).fills = s.fills := rfl
@[simp] theorem State.mapGroup_allots (s : State) (k g : Nat) (f : Group → Group) : (s.mapGroup k g f).allots = s.allots := rfl
@[simp] theorem State.mapGroup_nests (s : State) (k g : Nat) (f : Group → Group) : (s.mapGroup k g f).nests = s.nests := rfl
@[simp] theorem State.mapGroup_launched (s : State) (k g : Nat) (f : Group → Group) : (s.mapGroup k g f).launched = s.launched := rfl
@[simp] theorem State.mapGroup_lastQueues (s : State) (k g : Nat) (f : Group → Group) : (s.mapGroup k g f).lastQueues = s.lastQueues := rfl
@[simp] theorem State.mapGroup_bays (s : State) (k g : Nat) (f : Group → Group) : (s.mapGroup k g f).bays = s.bays := rfl
@[simp] theorem State.mapGroup_dies (s : State) (k g : Nat) (f : Group → Group) : (s.mapGroup k g f).dies = s.dies := rfl
@[simp] theorem State.mapGroup_edges (s : State) (k g : Nat) (f : Group → Group) : (s.mapGroup k g f).edges = s.edges := rfl
@[simp] theorem State.mapGroup_health (s : State) (k g : Nat) (f : Group → Group) : (s.mapGroup k g f).health = s.health := rfl
@[simp] theorem State.mapGroup_waypoints (s : State) (k g : Nat) (f : Group → Group) : (s.mapGroup k g f).waypoints = s.waypoints := rfl
@[simp] theorem State.mapGroup_arrivals (s : State) (k g : Nat) (f : Group → Group) : (s.mapGroup k g f).arrivals = s.arrivals := rfl
@[simp] theorem State.mapGroup_rings (s : State) (k g : Nat) (f : Group → Group) : (s.mapGroup k g f).rings = s.rings := rfl
@[simp] theorem State.mapGroup_tiles (s : State) (k g : Nat) (f : Group → Group) : (s.mapGroup k g f).tiles = s.tiles := rfl
@[simp] theorem State.mapGroup_slots (s : State) (k g : Nat) (f : Group → Group) : (s.mapGroup k g f).slots = s.slots := rfl
@[simp] theorem State.mapGroup_mqueue (s : State) (k g : Nat) (f : Group → Group) : (s.mapGroup k g f).mqueue = s.mqueue := rfl
@[simp] theorem State.mapGroup_nextMx (s : State) (k g : Nat) (f : Group → Group) : (s.mapGroup k g f).nextMx = s.nextMx := rfl
@[simp] theorem State.mapGroup_channels (s : State) (k g : Nat) (f : Group → Group) : (s.mapGroup k g f).channels = s.channels := rfl
@[simp] theorem State.mapGroup_cmds (s : State) (k g : Nat) (f : Group → Group) : (s.mapGroup k g f).cmds = s.cmds := rfl
@[simp] theorem State.mapGroup_nextRun (s : State) (k g : Nat) (f : Group → Group) : (s.mapGroup k g f).nextRun = s.nextRun := rfl
@[simp] theorem State.mapGroup_experts (s : State) (k g : Nat) (f : Group → Group) : (s.mapGroup k g f).experts = s.experts := rfl
@[simp] theorem State.mapGroup_posts (s : State) (k g : Nat) (f : Group → Group) : (s.mapGroup k g f).posts = s.posts := rfl
@[simp] theorem State.mapGroup_links (s : State) (k g : Nat) (f : Group → Group) : (s.mapGroup k g f).links = s.links := rfl
@[simp] theorem State.mapGroup_routes (s : State) (k g : Nat) (f : Group → Group) : (s.mapGroup k g f).routes = s.routes := rfl
@[simp] theorem State.mapGroup_timeouts (s : State) (k g : Nat) (f : Group → Group) : (s.mapGroup k g f).timeouts = s.timeouts := rfl
@[simp] theorem State.mapGroup_records (s : State) (k g : Nat) (f : Group → Group) : (s.mapGroup k g f).records = s.records := rfl
@[simp] theorem State.mapGroup_mgmt (s : State) (k g : Nat) (f : Group → Group) : (s.mapGroup k g f).mgmt = s.mgmt := rfl

/-! ### dropTeam -/

@[simp] theorem State.dropTeam_agenda (s : State) (k : Nat) : (s.dropTeam k).agenda = s.agenda := rfl
@[simp] theorem State.dropTeam_cur (s : State) (k : Nat) : (s.dropTeam k).cur = s.cur := rfl
@[simp] theorem State.dropTeam_tick (s : State) (k : Nat) : (s.dropTeam k).tick = s.tick := rfl
@[simp] theorem State.dropTeam_nextWrite (s : State) (k : Nat) : (s.dropTeam k).nextWrite = s.nextWrite := rfl
@[simp] theorem State.dropTeam_nextStore (s : State) (k : Nat) : (s.dropTeam k).nextStore = s.nextStore := rfl
@[simp] theorem State.dropTeam_nextGen (s : State) (k : Nat) : (s.dropTeam k).nextGen = s.nextGen := rfl
@[simp] theorem State.dropTeam_mem (s : State) (k : Nat) : (s.dropTeam k).mem = s.mem := rfl
@[simp] theorem State.dropTeam_writes (s : State) (k : Nat) : (s.dropTeam k).writes = s.writes := rfl
@[simp] theorem State.dropTeam_home (s : State) (k : Nat) : (s.dropTeam k).home = s.home := rfl
@[simp] theorem State.dropTeam_entered (s : State) (k : Nat) : (s.dropTeam k).entered = s.entered := rfl
@[simp] theorem State.dropTeam_know (s : State) (k : Nat) : (s.dropTeam k).know = s.know := rfl
@[simp] theorem State.dropTeam_scKnown (s : State) (k : Nat) : (s.dropTeam k).scKnown = s.scKnown := rfl
@[simp] theorem State.dropTeam_scLifted (s : State) (k : Nat) : (s.dropTeam k).scLifted = s.scLifted := rfl
@[simp] theorem State.dropTeam_tokens (s : State) (k : Nat) : (s.dropTeam k).tokens = s.tokens := rfl
@[simp] theorem State.dropTeam_caches (s : State) (k : Nat) : (s.dropTeam k).caches = s.caches := rfl
@[simp] theorem State.dropTeam_tlb (s : State) (k : Nat) : (s.dropTeam k).tlb = s.tlb := rfl
@[simp] theorem State.dropTeam_invals (s : State) (k : Nat) : (s.dropTeam k).invals = s.invals := rfl
@[simp] theorem State.dropTeam_fills (s : State) (k : Nat) : (s.dropTeam k).fills = s.fills := rfl
@[simp] theorem State.dropTeam_allots (s : State) (k : Nat) : (s.dropTeam k).allots = s.allots := rfl
@[simp] theorem State.dropTeam_nests (s : State) (k : Nat) : (s.dropTeam k).nests = s.nests := rfl
@[simp] theorem State.dropTeam_launched (s : State) (k : Nat) : (s.dropTeam k).launched = s.launched := rfl
@[simp] theorem State.dropTeam_lastQueues (s : State) (k : Nat) : (s.dropTeam k).lastQueues = s.lastQueues := rfl
@[simp] theorem State.dropTeam_bays (s : State) (k : Nat) : (s.dropTeam k).bays = s.bays := rfl
@[simp] theorem State.dropTeam_dies (s : State) (k : Nat) : (s.dropTeam k).dies = s.dies := rfl
@[simp] theorem State.dropTeam_edges (s : State) (k : Nat) : (s.dropTeam k).edges = s.edges := rfl
@[simp] theorem State.dropTeam_health (s : State) (k : Nat) : (s.dropTeam k).health = s.health := rfl
@[simp] theorem State.dropTeam_waypoints (s : State) (k : Nat) : (s.dropTeam k).waypoints = s.waypoints := rfl
@[simp] theorem State.dropTeam_arrivals (s : State) (k : Nat) : (s.dropTeam k).arrivals = s.arrivals := rfl
@[simp] theorem State.dropTeam_rings (s : State) (k : Nat) : (s.dropTeam k).rings = s.rings := rfl
@[simp] theorem State.dropTeam_tiles (s : State) (k : Nat) : (s.dropTeam k).tiles = s.tiles := rfl
@[simp] theorem State.dropTeam_slots (s : State) (k : Nat) : (s.dropTeam k).slots = s.slots := rfl
@[simp] theorem State.dropTeam_mqueue (s : State) (k : Nat) : (s.dropTeam k).mqueue = s.mqueue := rfl
@[simp] theorem State.dropTeam_nextMx (s : State) (k : Nat) : (s.dropTeam k).nextMx = s.nextMx := rfl
@[simp] theorem State.dropTeam_channels (s : State) (k : Nat) : (s.dropTeam k).channels = s.channels := rfl
@[simp] theorem State.dropTeam_cmds (s : State) (k : Nat) : (s.dropTeam k).cmds = s.cmds := rfl
@[simp] theorem State.dropTeam_nextRun (s : State) (k : Nat) : (s.dropTeam k).nextRun = s.nextRun := rfl
@[simp] theorem State.dropTeam_experts (s : State) (k : Nat) : (s.dropTeam k).experts = s.experts := rfl
@[simp] theorem State.dropTeam_posts (s : State) (k : Nat) : (s.dropTeam k).posts = s.posts := rfl
@[simp] theorem State.dropTeam_links (s : State) (k : Nat) : (s.dropTeam k).links = s.links := rfl
@[simp] theorem State.dropTeam_routes (s : State) (k : Nat) : (s.dropTeam k).routes = s.routes := rfl
@[simp] theorem State.dropTeam_timeouts (s : State) (k : Nat) : (s.dropTeam k).timeouts = s.timeouts := rfl
@[simp] theorem State.dropTeam_records (s : State) (k : Nat) : (s.dropTeam k).records = s.records := rfl
@[simp] theorem State.dropTeam_mgmt (s : State) (k : Nat) : (s.dropTeam k).mgmt = s.mgmt := rfl

/-! ### mapBay -/

@[simp] theorem State.mapBay_agenda (s : State) (n : Nat) (f : Bay → Bay) : (s.mapBay n f).agenda = s.agenda := rfl
@[simp] theorem State.mapBay_cur (s : State) (n : Nat) (f : Bay → Bay) : (s.mapBay n f).cur = s.cur := rfl
@[simp] theorem State.mapBay_tick (s : State) (n : Nat) (f : Bay → Bay) : (s.mapBay n f).tick = s.tick := rfl
@[simp] theorem State.mapBay_nextWrite (s : State) (n : Nat) (f : Bay → Bay) : (s.mapBay n f).nextWrite = s.nextWrite := rfl
@[simp] theorem State.mapBay_nextStore (s : State) (n : Nat) (f : Bay → Bay) : (s.mapBay n f).nextStore = s.nextStore := rfl
@[simp] theorem State.mapBay_nextGen (s : State) (n : Nat) (f : Bay → Bay) : (s.mapBay n f).nextGen = s.nextGen := rfl
@[simp] theorem State.mapBay_mem (s : State) (n : Nat) (f : Bay → Bay) : (s.mapBay n f).mem = s.mem := rfl
@[simp] theorem State.mapBay_writes (s : State) (n : Nat) (f : Bay → Bay) : (s.mapBay n f).writes = s.writes := rfl
@[simp] theorem State.mapBay_home (s : State) (n : Nat) (f : Bay → Bay) : (s.mapBay n f).home = s.home := rfl
@[simp] theorem State.mapBay_entered (s : State) (n : Nat) (f : Bay → Bay) : (s.mapBay n f).entered = s.entered := rfl
@[simp] theorem State.mapBay_know (s : State) (n : Nat) (f : Bay → Bay) : (s.mapBay n f).know = s.know := rfl
@[simp] theorem State.mapBay_scKnown (s : State) (n : Nat) (f : Bay → Bay) : (s.mapBay n f).scKnown = s.scKnown := rfl
@[simp] theorem State.mapBay_scLifted (s : State) (n : Nat) (f : Bay → Bay) : (s.mapBay n f).scLifted = s.scLifted := rfl
@[simp] theorem State.mapBay_tokens (s : State) (n : Nat) (f : Bay → Bay) : (s.mapBay n f).tokens = s.tokens := rfl
@[simp] theorem State.mapBay_caches (s : State) (n : Nat) (f : Bay → Bay) : (s.mapBay n f).caches = s.caches := rfl
@[simp] theorem State.mapBay_tlb (s : State) (n : Nat) (f : Bay → Bay) : (s.mapBay n f).tlb = s.tlb := rfl
@[simp] theorem State.mapBay_invals (s : State) (n : Nat) (f : Bay → Bay) : (s.mapBay n f).invals = s.invals := rfl
@[simp] theorem State.mapBay_fills (s : State) (n : Nat) (f : Bay → Bay) : (s.mapBay n f).fills = s.fills := rfl
@[simp] theorem State.mapBay_allots (s : State) (n : Nat) (f : Bay → Bay) : (s.mapBay n f).allots = s.allots := rfl
@[simp] theorem State.mapBay_teams (s : State) (n : Nat) (f : Bay → Bay) : (s.mapBay n f).teams = s.teams := rfl
@[simp] theorem State.mapBay_nests (s : State) (n : Nat) (f : Bay → Bay) : (s.mapBay n f).nests = s.nests := rfl
@[simp] theorem State.mapBay_launched (s : State) (n : Nat) (f : Bay → Bay) : (s.mapBay n f).launched = s.launched := rfl
@[simp] theorem State.mapBay_lastQueues (s : State) (n : Nat) (f : Bay → Bay) : (s.mapBay n f).lastQueues = s.lastQueues := rfl
@[simp] theorem State.mapBay_dies (s : State) (n : Nat) (f : Bay → Bay) : (s.mapBay n f).dies = s.dies := rfl
@[simp] theorem State.mapBay_edges (s : State) (n : Nat) (f : Bay → Bay) : (s.mapBay n f).edges = s.edges := rfl
@[simp] theorem State.mapBay_health (s : State) (n : Nat) (f : Bay → Bay) : (s.mapBay n f).health = s.health := rfl
@[simp] theorem State.mapBay_waypoints (s : State) (n : Nat) (f : Bay → Bay) : (s.mapBay n f).waypoints = s.waypoints := rfl
@[simp] theorem State.mapBay_arrivals (s : State) (n : Nat) (f : Bay → Bay) : (s.mapBay n f).arrivals = s.arrivals := rfl
@[simp] theorem State.mapBay_rings (s : State) (n : Nat) (f : Bay → Bay) : (s.mapBay n f).rings = s.rings := rfl
@[simp] theorem State.mapBay_tiles (s : State) (n : Nat) (f : Bay → Bay) : (s.mapBay n f).tiles = s.tiles := rfl
@[simp] theorem State.mapBay_slots (s : State) (n : Nat) (f : Bay → Bay) : (s.mapBay n f).slots = s.slots := rfl
@[simp] theorem State.mapBay_mqueue (s : State) (n : Nat) (f : Bay → Bay) : (s.mapBay n f).mqueue = s.mqueue := rfl
@[simp] theorem State.mapBay_nextMx (s : State) (n : Nat) (f : Bay → Bay) : (s.mapBay n f).nextMx = s.nextMx := rfl
@[simp] theorem State.mapBay_channels (s : State) (n : Nat) (f : Bay → Bay) : (s.mapBay n f).channels = s.channels := rfl
@[simp] theorem State.mapBay_cmds (s : State) (n : Nat) (f : Bay → Bay) : (s.mapBay n f).cmds = s.cmds := rfl
@[simp] theorem State.mapBay_nextRun (s : State) (n : Nat) (f : Bay → Bay) : (s.mapBay n f).nextRun = s.nextRun := rfl
@[simp] theorem State.mapBay_experts (s : State) (n : Nat) (f : Bay → Bay) : (s.mapBay n f).experts = s.experts := rfl
@[simp] theorem State.mapBay_posts (s : State) (n : Nat) (f : Bay → Bay) : (s.mapBay n f).posts = s.posts := rfl
@[simp] theorem State.mapBay_links (s : State) (n : Nat) (f : Bay → Bay) : (s.mapBay n f).links = s.links := rfl
@[simp] theorem State.mapBay_routes (s : State) (n : Nat) (f : Bay → Bay) : (s.mapBay n f).routes = s.routes := rfl
@[simp] theorem State.mapBay_timeouts (s : State) (n : Nat) (f : Bay → Bay) : (s.mapBay n f).timeouts = s.timeouts := rfl
@[simp] theorem State.mapBay_records (s : State) (n : Nat) (f : Bay → Bay) : (s.mapBay n f).records = s.records := rfl
@[simp] theorem State.mapBay_mgmt (s : State) (n : Nat) (f : Bay → Bay) : (s.mapBay n f).mgmt = s.mgmt := rfl

/-! ### mapDie -/

@[simp] theorem State.mapDie_agenda (s : State) (n : Nat) (f : Die → Die) : (s.mapDie n f).agenda = s.agenda := rfl
@[simp] theorem State.mapDie_cur (s : State) (n : Nat) (f : Die → Die) : (s.mapDie n f).cur = s.cur := rfl
@[simp] theorem State.mapDie_tick (s : State) (n : Nat) (f : Die → Die) : (s.mapDie n f).tick = s.tick := rfl
@[simp] theorem State.mapDie_nextWrite (s : State) (n : Nat) (f : Die → Die) : (s.mapDie n f).nextWrite = s.nextWrite := rfl
@[simp] theorem State.mapDie_nextStore (s : State) (n : Nat) (f : Die → Die) : (s.mapDie n f).nextStore = s.nextStore := rfl
@[simp] theorem State.mapDie_nextGen (s : State) (n : Nat) (f : Die → Die) : (s.mapDie n f).nextGen = s.nextGen := rfl
@[simp] theorem State.mapDie_mem (s : State) (n : Nat) (f : Die → Die) : (s.mapDie n f).mem = s.mem := rfl
@[simp] theorem State.mapDie_writes (s : State) (n : Nat) (f : Die → Die) : (s.mapDie n f).writes = s.writes := rfl
@[simp] theorem State.mapDie_home (s : State) (n : Nat) (f : Die → Die) : (s.mapDie n f).home = s.home := rfl
@[simp] theorem State.mapDie_entered (s : State) (n : Nat) (f : Die → Die) : (s.mapDie n f).entered = s.entered := rfl
@[simp] theorem State.mapDie_know (s : State) (n : Nat) (f : Die → Die) : (s.mapDie n f).know = s.know := rfl
@[simp] theorem State.mapDie_scKnown (s : State) (n : Nat) (f : Die → Die) : (s.mapDie n f).scKnown = s.scKnown := rfl
@[simp] theorem State.mapDie_scLifted (s : State) (n : Nat) (f : Die → Die) : (s.mapDie n f).scLifted = s.scLifted := rfl
@[simp] theorem State.mapDie_tokens (s : State) (n : Nat) (f : Die → Die) : (s.mapDie n f).tokens = s.tokens := rfl
@[simp] theorem State.mapDie_caches (s : State) (n : Nat) (f : Die → Die) : (s.mapDie n f).caches = s.caches := rfl
@[simp] theorem State.mapDie_tlb (s : State) (n : Nat) (f : Die → Die) : (s.mapDie n f).tlb = s.tlb := rfl
@[simp] theorem State.mapDie_invals (s : State) (n : Nat) (f : Die → Die) : (s.mapDie n f).invals = s.invals := rfl
@[simp] theorem State.mapDie_fills (s : State) (n : Nat) (f : Die → Die) : (s.mapDie n f).fills = s.fills := rfl
@[simp] theorem State.mapDie_allots (s : State) (n : Nat) (f : Die → Die) : (s.mapDie n f).allots = s.allots := rfl
@[simp] theorem State.mapDie_teams (s : State) (n : Nat) (f : Die → Die) : (s.mapDie n f).teams = s.teams := rfl
@[simp] theorem State.mapDie_nests (s : State) (n : Nat) (f : Die → Die) : (s.mapDie n f).nests = s.nests := rfl
@[simp] theorem State.mapDie_launched (s : State) (n : Nat) (f : Die → Die) : (s.mapDie n f).launched = s.launched := rfl
@[simp] theorem State.mapDie_lastQueues (s : State) (n : Nat) (f : Die → Die) : (s.mapDie n f).lastQueues = s.lastQueues := rfl
@[simp] theorem State.mapDie_bays (s : State) (n : Nat) (f : Die → Die) : (s.mapDie n f).bays = s.bays := rfl
@[simp] theorem State.mapDie_edges (s : State) (n : Nat) (f : Die → Die) : (s.mapDie n f).edges = s.edges := rfl
@[simp] theorem State.mapDie_health (s : State) (n : Nat) (f : Die → Die) : (s.mapDie n f).health = s.health := rfl
@[simp] theorem State.mapDie_waypoints (s : State) (n : Nat) (f : Die → Die) : (s.mapDie n f).waypoints = s.waypoints := rfl
@[simp] theorem State.mapDie_arrivals (s : State) (n : Nat) (f : Die → Die) : (s.mapDie n f).arrivals = s.arrivals := rfl
@[simp] theorem State.mapDie_rings (s : State) (n : Nat) (f : Die → Die) : (s.mapDie n f).rings = s.rings := rfl
@[simp] theorem State.mapDie_tiles (s : State) (n : Nat) (f : Die → Die) : (s.mapDie n f).tiles = s.tiles := rfl
@[simp] theorem State.mapDie_slots (s : State) (n : Nat) (f : Die → Die) : (s.mapDie n f).slots = s.slots := rfl
@[simp] theorem State.mapDie_mqueue (s : State) (n : Nat) (f : Die → Die) : (s.mapDie n f).mqueue = s.mqueue := rfl
@[simp] theorem State.mapDie_nextMx (s : State) (n : Nat) (f : Die → Die) : (s.mapDie n f).nextMx = s.nextMx := rfl
@[simp] theorem State.mapDie_channels (s : State) (n : Nat) (f : Die → Die) : (s.mapDie n f).channels = s.channels := rfl
@[simp] theorem State.mapDie_cmds (s : State) (n : Nat) (f : Die → Die) : (s.mapDie n f).cmds = s.cmds := rfl
@[simp] theorem State.mapDie_nextRun (s : State) (n : Nat) (f : Die → Die) : (s.mapDie n f).nextRun = s.nextRun := rfl
@[simp] theorem State.mapDie_experts (s : State) (n : Nat) (f : Die → Die) : (s.mapDie n f).experts = s.experts := rfl
@[simp] theorem State.mapDie_posts (s : State) (n : Nat) (f : Die → Die) : (s.mapDie n f).posts = s.posts := rfl
@[simp] theorem State.mapDie_links (s : State) (n : Nat) (f : Die → Die) : (s.mapDie n f).links = s.links := rfl
@[simp] theorem State.mapDie_routes (s : State) (n : Nat) (f : Die → Die) : (s.mapDie n f).routes = s.routes := rfl
@[simp] theorem State.mapDie_timeouts (s : State) (n : Nat) (f : Die → Die) : (s.mapDie n f).timeouts = s.timeouts := rfl
@[simp] theorem State.mapDie_records (s : State) (n : Nat) (f : Die → Die) : (s.mapDie n f).records = s.records := rfl
@[simp] theorem State.mapDie_mgmt (s : State) (n : Nat) (f : Die → Die) : (s.mapDie n f).mgmt = s.mgmt := rfl

/-! ### Team.setReg -/

@[simp] theorem Team.setReg_key (t : Team) (n : GReg) (v : W64) : (t.setReg n v).key = t.key := by
  unfold Team.setReg; split <;> rfl
@[simp] theorem Team.setReg_dctx (t : Team) (n : GReg) (v : W64) : (t.setReg n v).dctx = t.dctx := by
  unfold Team.setReg; split <;> rfl
@[simp] theorem Team.setReg_tid (t : Team) (n : GReg) (v : W64) : (t.setReg n v).tid = t.tid := by
  unfold Team.setReg; split <;> rfl
@[simp] theorem Team.setReg_nid (t : Team) (n : GReg) (v : W64) : (t.setReg n v).nid = t.nid := by
  unfold Team.setReg; split <;> rfl
@[simp] theorem Team.setReg_ordinal (t : Team) (n : GReg) (v : W64) : (t.setReg n v).ordinal = t.ordinal := by
  unfold Team.setReg; split <;> rfl
@[simp] theorem Team.setReg_queue (t : Team) (n : GReg) (v : W64) : (t.setReg n v).queue = t.queue := by
  unfold Team.setReg; split <;> rfl
@[simp] theorem Team.setReg_stackSlot (t : Team) (n : GReg) (v : W64) : (t.setReg n v).stackSlot = t.stackSlot := by
  unfold Team.setReg; split <;> rfl
@[simp] theorem Team.setReg_resumes (t : Team) (n : GReg) (v : W64) : (t.setReg n v).resumes = t.resumes := by
  unfold Team.setReg; split <;> rfl
@[simp] theorem Team.setReg_phase (t : Team) (n : GReg) (v : W64) : (t.setReg n v).phase = t.phase := by
  unfold Team.setReg; split <;> rfl
@[simp] theorem Team.setReg_ready (t : Team) (n : GReg) (v : W64) : (t.setReg n v).ready = t.ready := by
  unfold Team.setReg; split <;> rfl
@[simp] theorem Team.setReg_bay (t : Team) (n : GReg) (v : W64) : (t.setReg n v).bay = t.bay := by
  unfold Team.setReg; split <;> rfl
@[simp] theorem Team.setReg_ctx (t : Team) (n : GReg) (v : W64) : (t.setReg n v).ctx = t.ctx := by
  unfold Team.setReg; split <;> rfl
@[simp] theorem Team.setReg_partnerCtx (t : Team) (n : GReg) (v : W64) : (t.setReg n v).partnerCtx = t.partnerCtx := by
  unfold Team.setReg; split <;> rfl
@[simp] theorem Team.setReg_duplex (t : Team) (n : GReg) (v : W64) : (t.setReg n v).duplex = t.duplex := by
  unfold Team.setReg; split <;> rfl
@[simp] theorem Team.setReg_resident (t : Team) (n : GReg) (v : W64) : (t.setReg n v).resident = t.resident := by
  unfold Team.setReg; split <;> rfl
@[simp] theorem Team.setReg_cls (t : Team) (n : GReg) (v : W64) : (t.setReg n v).cls = t.cls := by
  unfold Team.setReg; split <;> rfl
@[simp] theorem Team.setReg_born (t : Team) (n : GReg) (v : W64) : (t.setReg n v).born = t.born := by
  unfold Team.setReg; split <;> rfl
@[simp] theorem Team.setReg_launch (t : Team) (n : GReg) (v : W64) : (t.setReg n v).launch = t.launch := by
  unfold Team.setReg; split <;> rfl
@[simp] theorem Team.setReg_dct (t : Team) (n : GReg) (v : W64) : (t.setReg n v).dct = t.dct := by
  unfold Team.setReg; split <;> rfl
@[simp] theorem Team.setReg_plan (t : Team) (n : GReg) (v : W64) : (t.setReg n v).plan = t.plan := by
  unfold Team.setReg; split <;> rfl
@[simp] theorem Team.setReg_stepBase (t : Team) (n : GReg) (v : W64) : (t.setReg n v).stepBase = t.stepBase := by
  unfold Team.setReg; split <;> rfl
@[simp] theorem Team.setReg_kernel (t : Team) (n : GReg) (v : W64) : (t.setReg n v).kernel = t.kernel := by
  unfold Team.setReg; split <;> rfl
@[simp] theorem Team.setReg_block (t : Team) (n : GReg) (v : W64) : (t.setReg n v).block = t.block := by
  unfold Team.setReg; split <;> rfl
@[simp] theorem Team.setReg_pc (t : Team) (n : GReg) (v : W64) : (t.setReg n v).pc = t.pc := by
  unfold Team.setReg; split <;> rfl
@[simp] theorem Team.setReg_curObj (t : Team) (n : GReg) (v : W64) : (t.setReg n v).curObj = t.curObj := by
  unfold Team.setReg; split <;> rfl
@[simp] theorem Team.setReg_curBlkOff (t : Team) (n : GReg) (v : W64) : (t.setReg n v).curBlkOff = t.curBlkOff := by
  unfold Team.setReg; split <;> rfl
@[simp] theorem Team.setReg_curNblk (t : Team) (n : GReg) (v : W64) : (t.setReg n v).curNblk = t.curNblk := by
  unfold Team.setReg; split <;> rfl
@[simp] theorem Team.setReg_super (t : Team) (n : GReg) (v : W64) : (t.setReg n v).super = t.super := by
  unfold Team.setReg; split <;> rfl
@[simp] theorem Team.setReg_inVector (t : Team) (n : GReg) (v : W64) : (t.setReg n v).inVector = t.inVector := by
  unfold Team.setReg; split <;> rfl
@[simp] theorem Team.setReg_step (t : Team) (n : GReg) (v : W64) : (t.setReg n v).step = t.step := by
  unfold Team.setReg; split <;> rfl
@[simp] theorem Team.setReg_shapeChanged (t : Team) (n : GReg) (v : W64) : (t.setReg n v).shapeChanged = t.shapeChanged := by
  unfold Team.setReg; split <;> rfl
@[simp] theorem Team.setReg_cause (t : Team) (n : GReg) (v : W64) : (t.setReg n v).cause = t.cause := by
  unfold Team.setReg; split <;> rfl
@[simp] theorem Team.setReg_epc (t : Team) (n : GReg) (v : W64) : (t.setReg n v).epc = t.epc := by
  unfold Team.setReg; split <;> rfl
@[simp] theorem Team.setReg_faultva (t : Team) (n : GReg) (v : W64) : (t.setReg n v).faultva = t.faultva := by
  unfold Team.setReg; split <;> rfl
@[simp] theorem Team.setReg_stepmask (t : Team) (n : GReg) (v : W64) : (t.setReg n v).stepmask = t.stepmask := by
  unfold Team.setReg; split <;> rfl
@[simp] theorem Team.setReg_mmcfg (t : Team) (n : GReg) (v : W64) : (t.setReg n v).mmcfg = t.mmcfg := by
  unfold Team.setReg; split <;> rfl
@[simp] theorem Team.setReg_regions (t : Team) (n : GReg) (v : W64) : (t.setReg n v).regions = t.regions := by
  unfold Team.setReg; split <;> rfl
@[simp] theorem Team.setReg_nanorigin (t : Team) (n : GReg) (v : W64) : (t.setReg n v).nanorigin = t.nanorigin := by
  unfold Team.setReg; split <;> rfl
@[simp] theorem Team.setReg_subst (t : Team) (n : GReg) (v : W64) : (t.setReg n v).subst = t.subst := by
  unfold Team.setReg; split <;> rfl
@[simp] theorem Team.setReg_win (t : Team) (n : GReg) (v : W64) : (t.setReg n v).win = t.win := by
  unfold Team.setReg; split <;> rfl
@[simp] theorem Team.setReg_loop (t : Team) (n : GReg) (v : W64) : (t.setReg n v).loop = t.loop := by
  unfold Team.setReg; split <;> rfl
@[simp] theorem Team.setReg_segs (t : Team) (n : GReg) (v : W64) : (t.setReg n v).segs = t.segs := by
  unfold Team.setReg; split <;> rfl
@[simp] theorem Team.setReg_shapes (t : Team) (n : GReg) (v : W64) : (t.setReg n v).shapes = t.shapes := by
  unfold Team.setReg; split <;> rfl
@[simp] theorem Team.setReg_fmts (t : Team) (n : GReg) (v : W64) : (t.setReg n v).fmts = t.fmts := by
  unfold Team.setReg; split <;> rfl
@[simp] theorem Team.setReg_rings (t : Team) (n : GReg) (v : W64) : (t.setReg n v).rings = t.rings := by
  unfold Team.setReg; split <;> rfl
@[simp] theorem Team.setReg_cq (t : Team) (n : GReg) (v : W64) : (t.setReg n v).cq = t.cq := by
  unfold Team.setReg; split <;> rfl
@[simp] theorem Team.setReg_nextPush (t : Team) (n : GReg) (v : W64) : (t.setReg n v).nextPush = t.nextPush := by
  unfold Team.setReg; split <;> rfl
@[simp] theorem Team.setReg_rq (t : Team) (n : GReg) (v : W64) : (t.setReg n v).rq = t.rq := by
  unfold Team.setReg; split <;> rfl
@[simp] theorem Team.setReg_service (t : Team) (n : GReg) (v : W64) : (t.setReg n v).service = t.service := by
  unfold Team.setReg; split <;> rfl
@[simp] theorem Team.setReg_groups (t : Team) (n : GReg) (v : W64) : (t.setReg n v).groups = t.groups := by
  unfold Team.setReg; split <;> rfl
@[simp] theorem Team.setReg_pool (t : Team) (n : GReg) (v : W64) : (t.setReg n v).pool = t.pool := by
  unfold Team.setReg; split <;> rfl
@[simp] theorem Team.setReg_poolPartner (t : Team) (n : GReg) (v : W64) : (t.setReg n v).poolPartner = t.poolPartner := by
  unfold Team.setReg; split <;> rfl
@[simp] theorem Team.setReg_surrenders (t : Team) (n : GReg) (v : W64) : (t.setReg n v).surrenders = t.surrenders := by
  unfold Team.setReg; split <;> rfl
@[simp] theorem Team.setReg_marks (t : Team) (n : GReg) (v : W64) : (t.setReg n v).marks = t.marks := by
  unfold Team.setReg; split <;> rfl
@[simp] theorem Team.setReg_cePast (t : Team) (n : GReg) (v : W64) : (t.setReg n v).cePast = t.cePast := by
  unfold Team.setReg; split <;> rfl
@[simp] theorem Team.setReg_mxPast (t : Team) (n : GReg) (v : W64) : (t.setReg n v).mxPast = t.mxPast := by
  unfold Team.setReg; split <;> rfl
@[simp] theorem Team.setReg_granted (t : Team) (n : GReg) (v : W64) : (t.setReg n v).granted = t.granted := by
  unfold Team.setReg; split <;> rfl
@[simp] theorem Team.setReg_pad (t : Team) (n : GReg) (v : W64) : (t.setReg n v).pad = t.pad := by
  unfold Team.setReg; split <;> rfl
@[simp] theorem Team.setReg_padPartner (t : Team) (n : GReg) (v : W64) : (t.setReg n v).padPartner = t.padPartner := by
  unfold Team.setReg; split <;> rfl
@[simp] theorem Team.setReg_lnd (t : Team) (n : GReg) (v : W64) : (t.setReg n v).lnd = t.lnd := by
  unfold Team.setReg; split <;> rfl
@[simp] theorem Team.setReg_lndPartner (t : Team) (n : GReg) (v : W64) : (t.setReg n v).lndPartner = t.lndPartner := by
  unfold Team.setReg; split <;> rfl
@[simp] theorem Team.setReg_waitFor (t : Team) (n : GReg) (v : W64) : (t.setReg n v).waitFor = t.waitFor := by
  unfold Team.setReg; split <;> rfl
@[simp] theorem Team.setReg_scWait (t : Team) (n : GReg) (v : W64) : (t.setReg n v).scWait = t.scWait := by
  unfold Team.setReg; split <;> rfl
@[simp] theorem Team.setReg_scGrant (t : Team) (n : GReg) (v : W64) : (t.setReg n v).scGrant = t.scGrant := by
  unfold Team.setReg; split <;> rfl
@[simp] theorem Team.setReg_trap (t : Team) (n : GReg) (v : W64) : (t.setReg n v).trap = t.trap := by
  unfold Team.setReg; split <;> rfl
@[simp] theorem Team.setReg_frozenClass (t : Team) (n : GReg) (v : W64) : (t.setReg n v).frozenClass = t.frozenClass := by
  unfold Team.setReg; split <;> rfl
@[simp] theorem Team.setReg_watches (t : Team) (n : GReg) (v : W64) : (t.setReg n v).watches = t.watches := by
  unfold Team.setReg; split <;> rfl
@[simp] theorem Team.setReg_exempt (t : Team) (n : GReg) (v : W64) : (t.setReg n v).exempt = t.exempt := by
  unfold Team.setReg; split <;> rfl
@[simp] theorem Team.setReg_children (t : Team) (n : GReg) (v : W64) : (t.setReg n v).children = t.children := by
  unfold Team.setReg; split <;> rfl
@[simp] theorem Team.setReg_joined (t : Team) (n : GReg) (v : W64) : (t.setReg n v).joined = t.joined := by
  unfold Team.setReg; split <;> rfl
@[simp] theorem Team.setReg_childRelease (t : Team) (n : GReg) (v : W64) : (t.setReg n v).childRelease = t.childRelease := by
  unfold Team.setReg; split <;> rfl
@[simp] theorem Team.setReg_preempt (t : Team) (n : GReg) (v : W64) : (t.setReg n v).preempt = t.preempt := by
  unfold Team.setReg; split <;> rfl
@[simp] theorem Team.setReg_overdue (t : Team) (n : GReg) (v : W64) : (t.setReg n v).overdue = t.overdue := by
  unfold Team.setReg; split <;> rfl
@[simp] theorem Team.setReg_pins (t : Team) (n : GReg) (v : W64) : (t.setReg n v).pins = t.pins := by
  unfold Team.setReg; split <;> rfl
@[simp] theorem Team.setReg_joining (t : Team) (n : GReg) (v : W64) : (t.setReg n v).joining = t.joining := by
  unfold Team.setReg; split <;> rfl
@[simp] theorem Team.setReg_image (t : Team) (n : GReg) (v : W64) : (t.setReg n v).image = t.image := by
  unfold Team.setReg; split <;> rfl
@[simp] theorem Team.setReg_keptRings (t : Team) (n : GReg) (v : W64) : (t.setReg n v).keptRings = t.keptRings := by
  unfold Team.setReg; split <;> rfl

/-! ### Teams by their key -/

theorem find_map_key (k : Nat) (f : Team → Team) (hf : ∀ t, t.key = k → (f t).key = k) (ts : List Team) :
    (ts.map fun t => if t.key == k then f t else t).find? (fun t => t.key == k) = (ts.find? fun t => t.key == k).map f := by
  induction ts with
  | nil => rfl
  | cons t ts ih =>
    rw [List.map_cons, List.find?_cons, List.find?_cons, ih]
    by_cases h : t.key = k
    · simp [h, hf t h]
    · have h' : (t.key == k) = false := by simp [h]
      simp [h']

theorem find_map_other (k j : Nat) (h : j ≠ k) (f : Team → Team) (hf : ∀ t, t.key = k → (f t).key = k) (ts : List Team) :
    (ts.map fun t => if t.key == k then f t else t).find? (fun t => t.key == j) = ts.find? fun t => t.key == j := by
  induction ts with
  | nil => rfl
  | cons t ts ih =>
    rw [List.map_cons, List.find?_cons, List.find?_cons, ih]
    by_cases h1 : t.key = k
    · have h2 := hf t h1
      have h3 : (k == j) = false := by simp [Ne.symm h]
      simp [h1, h2, h3]
    · simp [h1]

/-- The team of the key after an update that keeps its key. -/
theorem State.team?_mapTeam (s : State) (k : Nat) (f : Team → Team) (hf : ∀ t, t.key = k → (f t).key = k) :
    (s.mapTeam k f).team? k = (s.team? k).map f := find_map_key k f hf s.teams

/-- Another team is as it was. -/
theorem State.team?_mapTeam_other (s : State) (k j : Nat) (h : j ≠ k) (f : Team → Team) (hf : ∀ t, t.key = k → (f t).key = k) :
    (s.mapTeam k f).team? j = s.team? j := find_map_other k j h f hf s.teams

theorem State.key_of_team? {s : State} {k : Nat} {t : Team} (h : s.team? k = some t) : t.key = k := by
  have := List.find?_some h
  simpa using this

theorem State.team?_mapTeam_some {s : State} {k : Nat} {u : Team} (h : s.team? k = some u) (f : Team → Team)
    (hf : ∀ t, (f t).key = t.key) : (s.mapTeam k f).team? k = some (f u) := by
  rw [State.team?_mapTeam s k f fun t ht => (hf t).trans ht, h]
  rfl

/-- Two updates of one team are one. -/
theorem State.mapTeam_mapTeam (s : State) (k : Nat) (f g : Team → Team) (hf : ∀ t, t.key = k → (f t).key = k) :
    (s.mapTeam k f).mapTeam k g = s.mapTeam k fun t => g (f t) := by
  unfold State.mapTeam
  simp only [List.map_map]
  congr 1
  apply List.map_congr_left
  intro t _
  by_cases h : t.key = k
  · simp [h, hf t h]
  · simp [h]

/-- An update that gives every team of the key what another one gives it. -/
theorem State.mapTeam_congr (s : State) (k : Nat) (f g : Team → Team) (h : ∀ t ∈ s.teams, t.key = k → f t = g t) :
    s.mapTeam k f = s.mapTeam k g := by
  unfold State.mapTeam
  congr 1
  apply List.map_congr_left
  intro t ht
  by_cases hk : t.key = k
  · simp [hk, h t ht hk]
  · simp [hk]

/-! ### Registers -/

/-- g0 reads 0 (R97). -/
@[simp] theorem Team.reg_zero (t : Team) : t.reg 0 = 0 := rfl

/-- A write to g0 is discarded (R97). -/
@[simp] theorem Team.setReg_zero (t : Team) (v : W64) : t.setReg 0 v = t := rfl

/-- The array after a write (R97). -/
theorem Team.setReg_g (t : Team) (n : GReg) (v : W64) : (t.setReg n v).g = if n = 0 then t.g else t.g.set n.toNat v := by
  unfold Team.setReg; split <;> rfl

/-- A register reads as it was last written (R97, R98). -/
theorem Team.reg_setReg_same (t : Team) (n : GReg) (v : W64) (h : n ≠ 0) (hg : t.g.length = 64) : (t.setReg n v).reg n = v := by
  have : n.toNat < t.g.length := by rw [hg]; exact n.isLt
  rw [Team.reg, if_neg h, Team.setReg_g, if_neg h, List.getD, List.getElem?_set_self this]
  rfl

/-- Every other register is as it was. -/
theorem Team.reg_setReg_other (t : Team) (n m : GReg) (v : W64) (h : m ≠ n) : (t.setReg n v).reg m = t.reg m := by
  have : n.toNat ≠ m.toNat := fun e => h (BitVec.eq_of_toNat_eq e.symm)
  unfold Team.reg
  rw [Team.setReg_g]
  split
  · rfl
  · split
    · rfl
    · rw [List.getD, List.getD, List.getElem?_set_ne this]

end Sys2Proof.Machine
end

