-- ==== Sys2Proof/Laws/Writes.lean ====
section
/-! SUPPORT. What the shared operations over memory do to the bytes of memory, and that each keeps the canonical form. -/

namespace Sys2Proof.Machine

/-! ### Operations that move no byte -/

@[simp] theorem State.setKnow_mem (s : State) (k : Knowledge) : (s.setKnow k).mem = s.mem := rfl
@[simp] theorem State.setKnow_teams (s : State) (k : Knowledge) : (s.setKnow k).teams = s.teams := rfl
@[simp] theorem State.setKnow_writes (s : State) (k : Knowledge) : (s.setKnow k).writes = s.writes := rfl
@[simp] theorem State.drain_mem (s : State) (f : Write → Bool) : (s.drain f).mem = s.mem := rfl
@[simp] theorem State.drain_teams (s : State) (f : Write → Bool) : (s.drain f).teams = s.teams := rfl
@[simp] theorem State.drain_writes (s : State) (f : Write → Bool) : (s.drain f).writes = s.writes := rfl
@[simp] theorem State.drainParty_mem (s : State) (p : Party) : (s.drainParty p).mem = s.mem := rfl
@[simp] theorem State.drainParty_teams (s : State) (p : Party) : (s.drainParty p).teams = s.teams := rfl
@[simp] theorem State.drainParty_writes (s : State) (p : Party) : (s.drainParty p).writes = s.writes := rfl
@[simp] theorem State.acquire_mem (s : State) (p : Place) (c : Nat) (rs : List Release) : (s.acquire p c rs).mem = s.mem := rfl
@[simp] theorem State.acquire_teams (s : State) (p : Place) (c : Nat) (rs : List Release) : (s.acquire p c rs).teams = s.teams := rfl
@[simp] theorem State.acquire_writes (s : State) (p : Place) (c : Nat) (rs : List Release) : (s.acquire p c rs).writes = s.writes := rfl
@[simp] theorem State.learn_mem (s : State) (p : Party) (i : Nat) : (s.learn p i).mem = s.mem := rfl
@[simp] theorem State.learn_teams (s : State) (p : Party) (i : Nat) : (s.learn p i).teams = s.teams := rfl
@[simp] theorem State.learn_writes (s : State) (p : Party) (i : Nat) : (s.learn p i).writes = s.writes := rfl
@[simp] theorem State.post_mem (s : State) (p : Place) (r : RecordFields) : (s.post p r).mem = s.mem := rfl
@[simp] theorem State.post_teams (s : State) (p : Place) (r : RecordFields) : (s.post p r).teams = s.teams := rfl

theorem State.takeToken_mem (s : State) (p : Place) (loc : Nat) : (s.takeToken p loc).mem = s.mem := by
  unfold State.takeToken
  repeat' (first | rfl | split | dsimp only)

theorem State.takeToken_writes (s : State) (p : Place) (loc : Nat) : (s.takeToken p loc).writes = s.writes := by
  unfold State.takeToken
  repeat' (first | rfl | split | dsimp only)

theorem State.takeToken_teams (s : State) (p : Place) (loc : Nat) : (s.takeToken p loc).teams = s.teams := by
  unfold State.takeToken
  repeat' (first | rfl | split | dsimp only)

/-- A read moves only the counter of the choices. -/
theorem State.readWith_mem (s : State) (p : Place) (known lifted : List Nat) (rs : List Region) (va : Option Nat) (loc n : Nat) :
    (s.readWith p known lifted rs va loc n).2 = { s with tick := (s.readWith p known lifted rs va loc n).2.tick } := rfl

@[simp] theorem State.readAs_mem (s : State) (p : Place) (rs : List Region) (va : Option Nat) (loc n : Nat) :
    (s.readAs p rs va loc n).2.mem = s.mem := rfl

/-! ### Reads of bytes that no write record covers -/

theorem readUnitBytes_unwritten (s : State) {os : List (Nat × List Write)} (h : ∀ o ∈ os, o.2 = []) (chosen : List ByteRead) (tick : Nat) :
    readUnitBytes s os chosen tick = (chosen ++ os.map fun o => { loc := o.1, value := memGet s.mem o.1, src := none }, tick) := by
  induction os generalizing chosen with
  | nil => simp [readUnitBytes]
  | cons o os ih =>
    obtain ⟨a, ws⟩ := o
    obtain rfl : ws = [] := h _ (List.mem_cons_self ..)
    simp [readUnitBytes, ih fun x hx => h x (List.mem_cons_of_mem _ hx)]

/-- Where there is no write record, a context has none. -/
theorem State.writesFor_unwritten {s : State} (h : s.writes = []) (p : Place) (a : Nat) : s.writesFor p a = [] := by
  unfold State.writesFor
  split
  · exact h
  · simp [h]

theorem unitOptions_unwritten {s : State} (h : s.writes = []) (p : Place) (known lifted : List Nat) (rs : List Region) (va : Option Nat) (a n : Nat) :
    unitOptions s p known lifted rs va a n = (List.range n).map fun i => (a + i, []) := by
  induction n generalizing a va with
  | zero => rfl
  | succ n ih =>
    rw [unitOptions, ih, List.range_succ_eq_map, List.map_cons, List.map_map, State.writesFor_unwritten h]
    simp [candidates, Function.comp_def, Nat.add_comm, Nat.add_left_comm]

/-- Where there is no write record, a read gives what memory holds and changes nothing. -/
theorem State.readWith_unwritten {s : State} (h : s.writes = []) (p : Place) (known lifted : List Nat) (rs : List Region) (va : Option Nat) (loc n : Nat) :
    s.readWith p known lifted rs va loc n = ((List.range n).map fun i => { loc := loc + i, value := memGet s.mem (loc + i), src := none }, s) := by
  simp only [State.readWith, unitOptions_unwritten h]
  rw [readUnitBytes_unwritten s (by simp)]
  simp

/-- The same of an access in the party's program order: it leaves its party's knowledge as it was. -/
theorem readSpace_unwritten {s : State} (h : s.writes = []) (p : Place) (rs : List Region) (l : Located) (n : Nat) :
    ∃ k, readSpace p rs l n s =
      .ok ((List.range n).map fun i => { loc := l.loc + i, value := memGet s.mem (l.loc + i), src := none }, s.setKnow k) := by
  have r := State.readWith_unwritten h p (s.knowOf p.party).known (s.knowOf p.party).lifted rs l.va l.loc n
  refine ⟨{ s.knowOf p.party with seen := unionIds (s.knowOf p.party).seen (readSources
    (s.readWith p (s.knowOf p.party).known (s.knowOf p.party).lifted rs l.va l.loc n).1 (widening rs l.va)) }, ?_⟩
  have e : readSpace p rs l n s = .ok ((s.readWith p (s.knowOf p.party).known (s.knowOf p.party).lifted rs l.va l.loc n).1,
    (s.readWith p (s.knowOf p.party).known (s.knowOf p.party).lifted rs l.va l.loc n).2.setKnow { s.knowOf p.party with
      seen := unionIds (s.knowOf p.party).seen (readSources
        (s.readWith p (s.knowOf p.party).known (s.knowOf p.party).lifted rs l.va l.loc n).1 (widening rs l.va)) }) := rfl
  rw [e, r]

/-! ### Writes -/

theorem State.addWrite_mem (s : State) (p : Place) (known lifted : List Nat) (atomic : Bool) (heads : List (List Release)) (loc : Nat)
    (bs : List Byte) : (s.addWrite p known lifted atomic heads loc bs).2.mem = memSetList s.mem loc bs := rfl

/-- A plain write puts its bytes at its location. -/
theorem State.writeWith_mem (s : State) (p : Place) (known lifted : List Nat) (heads : List Release) (loc : Nat) (bs : List Byte) :
    (s.writeWith p known lifted heads loc bs).2.mem = memSetList s.mem loc bs := by
  rw [← State.takeToken_mem s p loc]
  simp only [State.writeWith]
  split <;> rfl

theorem State.writeWith_teams (s : State) (p : Place) (known lifted : List Nat) (heads : List Release) (loc : Nat) (bs : List Byte) :
    (s.writeWith p known lifted heads loc bs).2.teams = s.teams := by
  rw [← State.takeToken_teams s p loc]
  simp only [State.writeWith]
  split <;> rfl

theorem State.writeIn_mem (s : State) (p : Place) (rs : List Region) (va rel : Option Nat) (loc : Nat) (bs : List Byte) :
    (s.writeIn p rs va rel loc bs).mem = memSetList s.mem loc bs :=
  State.writeWith_mem s p _ _ _ loc bs

theorem State.writeIn_teams (s : State) (p : Place) (rs : List Region) (va rel : Option Nat) (loc : Nat) (bs : List Byte) :
    (s.writeIn p rs va rel loc bs).teams = s.teams :=
  State.writeWith_teams s p _ _ _ loc bs

theorem State.writeAs_mem (s : State) (p : Place) (rel : Option Nat) (loc : Nat) (bs : List Byte) :
    (s.writeAs p rel loc bs).mem = memSetList s.mem loc bs :=
  State.writeIn_mem s p [] none rel loc bs

theorem State.atomicWriteIn_mem (s : State) (p : Place) (rs : List Region) (va rel : Option Nat) (old : List ByteRead) (loc : Nat)
    (bs : List Byte) : (s.atomicWriteIn p rs va rel old loc bs).mem = memSetList s.mem loc bs := rfl

/-! ### The canonical form is kept -/

theorem State.writeWith_wf {s : State} (h : Memory.wf s.mem = true) (p : Place) (known lifted : List Nat) (heads : List Release) (loc : Nat)
    (bs : List Byte) : Memory.wf (s.writeWith p known lifted heads loc bs).2.mem = true := by
  rw [State.writeWith_mem]; exact Memory.wf_memSetList h loc bs

theorem State.writeIn_wf {s : State} (h : Memory.wf s.mem = true) (p : Place) (rs : List Region) (va rel : Option Nat) (loc : Nat)
    (bs : List Byte) : Memory.wf (s.writeIn p rs va rel loc bs).mem = true := by
  rw [State.writeIn_mem]; exact Memory.wf_memSetList h loc bs

theorem State.atomicWriteIn_wf {s : State} (h : Memory.wf s.mem = true) (p : Place) (rs : List Region) (va rel : Option Nat)
    (old : List ByteRead) (loc : Nat) (bs : List Byte) : Memory.wf (s.atomicWriteIn p rs va rel old loc bs).mem = true :=
  Memory.wf_memSetList h loc bs

/-- Storage given back, a frame that its first owner finds, and an allotment filled from an image. -/
theorem State.dropStorage_wf {s : State} (h : Memory.wf s.mem = true) (tag : Nat) : Memory.wf (s.dropStorage tag).mem = true := by
  unfold State.dropStorage
  split
  · exact h
  · exact Memory.wf_filter h _

theorem State.zeroFrame_wf {s : State} (h : Memory.wf s.mem = true) (pa n : Nat) : Memory.wf (s.zeroFrame pa n).mem = true :=
  Memory.wf_filter h _

theorem State.fillStorage_wf {s : State} (h : Memory.wf s.mem = true) (tag : Nat) (bs : List Byte) :
    Memory.wf (s.fillStorage tag bs).mem = true := by
  unfold State.fillStorage
  split
  · exact h
  · exact Memory.wf_memSetList (Memory.wf_filter h _) _ bs

/-- The reset memory lists nothing. -/
theorem Memory.wf_reset : Memory.wf State.reset.mem = true := rfl

/-! ### What a write leaves to a reader -/

/-- The last value of a byte that a write stores. -/
theorem State.writeIn_byteAt_inside {s : State} (h : Memory.wf s.mem = true) (p : Place) (rs : List Region) (va rel : Option Nat)
    (loc : Nat) (bs : List Byte) {i : Nat} (hi : i < bs.length) : (s.writeIn p rs va rel loc bs).byteAt (loc + i) = bs.getD i 0 := by
  rw [State.byteAt, State.writeIn_mem]; exact memGet_memSetList_inside h loc bs hi

/-- The last value of a byte that it does not. -/
theorem State.writeIn_byteAt_outside {s : State} (h : Memory.wf s.mem = true) (p : Place) (rs : List Region) (va rel : Option Nat)
    (loc : Nat) (bs : List Byte) {a : Nat} (ha : ¬(loc ≤ a ∧ a < loc + bs.length)) : (s.writeIn p rs va rel loc bs).byteAt a = s.byteAt a := by
  rw [State.byteAt, State.writeIn_mem]; exact memGet_memSetList_outside h bs ha

end Sys2Proof.Machine
end

