-- ==== Sys2Proof/Laws/Dump.lean ====
section
/-! SUPPORT. A dump or a full save whose pages are all mapped is written whole (R409, R412). -/

namespace Sys2Proof.Machine

@[simp] theorem leBytes_length (n v : Nat) : (leBytes n v).length = n := by
  induction n generalizing v with
  | zero => rfl
  | succ n ih => simp [leBytes, ih]

theorem State.takeToken_dies (s : State) (p : Place) (loc : Nat) : (s.takeToken p loc).dies = s.dies := by
  unfold State.takeToken
  repeat' (first | rfl | split | dsimp only)

theorem State.writeWith_dies (s : State) (p : Place) (known lifted : List Nat) (heads : List Release) (loc : Nat) (bs : List Byte) :
    (s.writeWith p known lifted heads loc bs).2.dies = s.dies := by
  rw [← State.takeToken_dies s p loc]
  simp only [State.writeWith]
  split <;> rfl

/-- A property of the machine that a write of bytes of a range keeps, and under which the team's addresses from `va` on lie in that range. -/
structure SaveArea (I : State → Prop) (t : Team) (va lo n : Nat) : Prop where
  keeps : ∀ (s : State) (p : Place) (known lifted : List Nat) (loc : Nat) (bs : List Byte), I s → lo ≤ loc → loc + bs.length ≤ lo + n →
    I (s.writeWith p known lifted [] loc bs).2
  maps : ∀ s : State, I s → ∀ x, va ≤ x → x < va + n → ∃ s', s.partAddr t x .write = .ok (lo + (x - va), s') ∧ I s'

theorem pieces_short (n : Nat) (bs : List Byte) : ∀ x ∈ pieces n bs, x.length ≤ 8 := by
  induction n generalizing bs with
  | zero => simp [pieces]
  | succ n ih =>
    unfold pieces
    split
    · simp
    · intro x hx
      rcases List.mem_cons.1 hx with rfl | hx
      · simp
      · exact ih _ x hx

theorem pieces_length (n : Nat) (bs : List Byte) : 8 * (pieces n bs).length ≤ bs.length + 7 := by
  induction n generalizing bs with
  | zero => simp [pieces]
  | succ n ih =>
    unfold pieces
    split
    · simp
    · next h =>
      have := ih (bs.drop 8)
      have : bs ≠ [] := by simpa using h
      have := List.length_pos_iff.2 this
      simp only [List.length_cons, List.length_drop] at *
      omega

/-- The writer is whole so far, and its machine has the property. -/
def Writer.Sound (I : State → Prop) (w : Writer) : Prop := w.fail = none ∧ I w.state

variable {I : State → Prop} {va lo n : Nat} {o : WriterOf}

theorem Writer.words_sound (h : SaveArea I o.t va lo n) (ps : List (List Byte)) {w : Writer} {loc : Nat} (hw : w.Sound I) (hs : ∀ x ∈ ps, x.length ≤ 8)
    (h1 : lo ≤ loc) (h2 : loc + 8 * ps.length ≤ lo + n) : (w.words o loc ps).Sound I := by
  induction ps generalizing w loc with
  | nil => exact hw
  | cons bs ps ih =>
    have hb := hs bs (List.mem_cons_self ..)
    simp only [List.length_cons] at h2
    exact ih (w := { w with state := _, ids := _ }) ⟨hw.1, h.keeps _ _ _ _ _ _ hw.2 h1 (by omega)⟩ (fun x hx => hs x (List.mem_cons_of_mem _ hx)) (by omega) (by omega)

theorem Writer.part_sound (h : SaveArea I o.t va lo n) {w : Writer} {sec x : Nat} {bs : List Byte} (hw : w.Sound I) (h1 : va ≤ x)
    (h2 : x + bs.length + 8 ≤ va + n) (h3 : x + bs.length ≤ o.stop) : (w.part o sec x bs).Sound I := by
  have hp := pieces_length bs.length bs
  have hx : x - va + va = x := Nat.sub_add_cancel h1
  unfold Writer.part
  split
  · exact hw
  · next hb =>
    have hl : 0 < bs.length := List.length_pos_iff.2 (by simpa [hw.1] using hb)
    obtain ⟨s', hs, hI⟩ := h.maps _ hw.2 x h1 (by omega)
    rw [if_neg (by omega), hs]
    exact Writer.words_sound h _ (w := { w with state := s' }) ⟨hw.1, hI⟩ (pieces_short _ _) (by omega) (by omega)

theorem Writer.parts_sound (h : SaveArea I o.t va lo n) (k : Nat) {w : Writer} {sec x : Nat} {bs : List Byte} (hw : w.Sound I) (h1 : va ≤ x)
    (h2 : x + bs.length + 8 ≤ va + n) (h3 : x + bs.length ≤ o.stop) : (w.parts o sec k x bs).Sound I := by
  induction k generalizing w x bs with
  | zero => exact hw
  | succ k ih =>
    unfold Writer.parts
    dsimp only
    generalize hm : (if x < o.stop then Nat.min (2 ^ 16 - x % 2 ^ 16) (o.stop - x) else bs.length) = m
    have ht : (bs.take m).length ≤ bs.length := by simp
    have hd : (bs.drop m).length = bs.length - m := List.length_drop
    have hp := Writer.part_sound h (sec := sec) (x := x) (bs := bs.take m) hw h1 (by omega) (by omega)
    by_cases hc : m ≤ bs.length
    · exact ih hp (by omega) (by omega) (by omega)
    · have he : bs.drop m = [] := List.drop_eq_nil_of_le (by omega)
      have hn (j : Nat) (w : Writer) (y : Nat) : w.parts o sec j y [] = w := by
        induction j generalizing w y with
        | zero => rfl
        | succ j ih => simp [Writer.parts, Writer.part, ih]
      rw [he, hn]
      exact hp

theorem Writer.put_sound (h : SaveArea I o.t va lo n) {w : Writer} {sec x : Nat} {bs : List Byte} (hw : w.Sound I) (h1 : va ≤ x)
    (h2 : x + bs.length + 8 ≤ va + n) (h3 : x + bs.length ≤ o.stop) : (w.put o sec x bs).Sound I :=
  Writer.parts_sound h 3 hw h1 h2 h3

theorem Writer.run_sound (h : SaveArea I o.t va lo n) (k : Nat) {w : Writer} {sec x : Nat} {bs : List Byte} (hw : w.Sound I) (h1 : va ≤ x)
    (h2 : x + bs.length + 8 ≤ va + n) (h3 : x + bs.length ≤ o.stop) : (w.run o sec k x bs).Sound I := by
  induction k generalizing w x bs with
  | zero => exact hw
  | succ k ih =>
    unfold Writer.run
    split
    · exact hw
    · have hb := Nat.le_trans (List.length_take_le 4096 bs) (Nat.le_refl _)
      have hl : (bs.take 4096).length = min 4096 bs.length := List.length_take
      by_cases hc : bs.length ≤ 4096
      · have hd : bs.drop 4096 = [] := List.drop_eq_nil_of_le hc
        have hr (w : Writer) : w.run o sec k (x + 4096) [] = w := by cases k <;> rfl
        rw [hd, hr]
        exact Writer.put_sound h hw h1 (by omega) (by omega)
      · have hd : (bs.drop 4096).length = bs.length - 4096 := List.length_drop
        exact ih (Writer.put_sound h hw h1 (by omega) (by omega)) (by omega) (by omega) (by omega)

theorem Writer.header_sound (h : SaveArea I o.t va lo n) {w : Writer} {d x i : Nat} (hw : w.Sound I) (h1 : va ≤ d)
    (h2 : d + 8 * i + 16 ≤ va + n) (h3 : d + 8 * i + 8 ≤ o.stop) : (w.header o d x i).Sound I :=
  Writer.put_sound h hw (by omega) (by rw [leBytes_length]; omega) (by rw [leBytes_length]; omega)

theorem Writer.sections_sound (h : SaveArea I o.t va lo n) {d : Nat} (h1 : va ≤ d) (h2 : d + 96 ≤ va + n) (h3 : d + 88 ≤ o.stop) (xs : List (List Byte)) :
    ∀ {w : Writer} {k x : Nat} {ps : List (Nat × Nat)}, w.Sound I →
      (∀ y ∈ xs.zip ps, d + y.2.1 + y.1.length + 8 ≤ va + n ∧ d + y.2.1 + y.1.length ≤ o.stop) → ((w.sections o d k x xs ps).1).Sound I := by
  induction xs with
  | nil => intro w k x ps hw _; cases ps <;> exact hw
  | cons b xs ih =>
    intro w k x ps hw hp
    cases ps with
    | nil => exact hw
    | cons p ps =>
      obtain ⟨off, m⟩ := p
      have hb := hp (b, off, m) (by simp)
      have ht : ∀ y ∈ xs.zip ps, d + y.2.1 + y.1.length + 8 ≤ va + n ∧ d + y.2.1 + y.1.length ≤ o.stop := fun y hy => hp y (by simp [hy])
      unfold Writer.sections
      rw [if_neg (by simp [hw.1])]
      split
      · exact ih hw ht
      · have hr := Writer.run_sound h (b.length / 4096 + 1) (sec := k) hw (Nat.le_trans h1 (Nat.le_add_right d off)) hb.1 hb.2
        dsimp only
        rw [if_neg (by simp [hr.1])]
        exact ih (Writer.header_sound h hr h1 (by omega) (by omega)) ht

/-- A dump whose sections lie in a mapped range is written whole. -/
theorem State.writeDump_whole {s s1 s2 : State} {t : Team} {d kind stop cls : Nat} {clock : W64} {secs : List (List Byte)} (h : SaveArea I t va lo n)
    (hc : readClock t.bay s = .ok (clock, s1)) (hs : dumpSections s1 t clock = (secs, s2)) (hI : I s2) (h1 : va ≤ d)
    (hl : ∀ y ∈ secs.zip (sectionPlaces 512 secs), d + y.2.1 + y.1.length + 8 ≤ va + n ∧ d + y.2.1 + y.1.length ≤ min stop (2 ^ 57))
    (h2 : d + 520 ≤ va + n) (h3 : d + 512 ≤ min stop (2 ^ 57)) : (s.writeDump t d kind stop cls).fail = none := by
  let o : WriterOf := { t := t, known := s1.teamKnown t, lifted := s1.teamLifted t, stop := Nat.min stop (2 ^ 57) }
  have h : SaveArea I o.t va lo n := h
  have ho : o.stop = min stop (2 ^ 57) := rfl
  have h0 : Writer.Sound I { state := s2, ids := [], fail := none } := ⟨rfl, hI⟩
  unfold State.writeDump
  rw [hc]
  dsimp only
  rw [hs]
  dsimp only
  have hp (x : Nat) := Writer.put_sound h (sec := 0) (x := d) (bs := leBytes 512 x) h0 h1 (by rw [leBytes_length]; omega) (by rw [leBytes_length, ho]; omega)
  have hh (x y : Nat) := Writer.header_sound h (x := y) (i := 10) (hp x) h1 (by omega) (by rw [ho]; omega)
  have hx (x y z : Nat) := Writer.sections_sound h (k := 1) (x := z) h1 (by omega) (by rw [ho]; omega) secs (ps := sectionPlaces 512 secs) (hh x y) hl
  have hz (x : Nat) := hx x (x + 2 ^ 640) (x + 2 ^ 640)
  generalize hw : Writer.sections _ o d 1 _ secs (sectionPlaces 512 secs) = r
  have hr : r.1.Sound I := by rw [← hw]; exact hz _
  obtain ⟨w, y⟩ := r
  dsimp only
  rw [show w.fail = none from hr.1]
  exact (Writer.header_sound h hr h1 (by omega) (by rw [ho]; omega)).1

/-- The same of a full save. -/
theorem State.saveImage_whole {s s1 s2 s3 s4 : State} {t u : Team} {d : Dct} {clock : W64} {secs : List (List Byte)} (hu : { t with dct := d } = u)
    (h : SaveArea I u va lo n) (hr : readDct t.place t.dctx s = .ok (d, s1)) (h0 : d.saveStride ≠ 0) (h4 : d.saveStride % 4096 = 0)
    (hm : s1.mapTeam u.key (fun t => { t with dct := d }) = s2) (hc : readClock u.bay s2 = .ok (clock, s3)) (hs : dumpSections s3 u clock = (secs, s4))
    (hI : I s4) (h1 : va ≤ d.imageOf t.tid)
    (hl : ∀ y ∈ secs.zip (sectionPlaces 512 secs), d.imageOf t.tid + y.2.1 + y.1.length + 8 ≤ va + n ∧
      d.imageOf t.tid + y.2.1 + y.1.length ≤ min (d.imageOf t.tid + d.saveStride) (2 ^ 57))
    (h2 : d.imageOf t.tid + 520 ≤ va + n) (h3 : d.imageOf t.tid + 512 ≤ min (d.imageOf t.tid + d.saveStride) (2 ^ 57)) : (s.saveImage t).fail = none := by
  subst hu hm
  unfold State.saveImage
  rw [hr]
  dsimp only
  rw [if_neg (by simp [h0, h4])]
  exact State.writeDump_whole h hc hs hI h1 hl h2 h3

end Sys2Proof.Machine
end

