-- ==== Sys2Proof/Laws/Meaning.lean ====
section
/-! SUPPORT. How the meanings run: the monad, the operations that all of them share, a helm word, an engine's word, and an event. -/

namespace Sys2Proof.Machine

/-! ### The monad -/

theorem M.bind_ok {α β : Type} {m : M α} {f : α → M β} {s s' : State} {a : α} (h : m s = .ok (a, s')) : (m >>= f) s = f a s' := by
  show (m s >>= fun p => f p.1 p.2) = _
  rw [h]; rfl

theorem M.bind_error {α β : Type} {m : M α} {f : α → M β} {s : State} {e : Stop} (h : m s = .error e) : (m >>= f) s = .error e := by
  show (m s >>= fun p => f p.1 p.2) = _
  rw [h]; rfl

/-- A sequence answers exactly when both parts do. -/
theorem M.bind_eq_ok {α β : Type} {m : M α} {f : α → M β} {s s' : State} {b : β} :
    (m >>= f) s = .ok (b, s') ↔ ∃ a t, m s = .ok (a, t) ∧ f a t = .ok (b, s') := by
  cases h : m s with
  | ok p =>
    obtain ⟨a, t⟩ := p
    rw [M.bind_ok h]
    constructor
    · exact fun x => ⟨a, t, rfl, x⟩
    · rintro ⟨_, _, e, x⟩
      cases e
      exact x
  | error e => rw [M.bind_error h]; simp

@[simp] theorem M.pure_run {α : Type} (a : α) (s : State) : (pure a : M α) s = .ok (a, s) := rfl
@[simp] theorem M.get_run (s : State) : (get : M State) s = .ok (s, s) := rfl
@[simp] theorem M.set_run (t s : State) : (set t : M PUnit) s = .ok ((), t) := rfl
@[simp] theorem M.modify_run (f : State → State) (s : State) : (modify f : M PUnit) s = .ok ((), f s) := rfl
@[simp] theorem mapTeamM_run (k : Nat) (f : Team → Team) (s : State) : mapTeamM k f s = .ok ((), s.mapTeam k f) := rfl
@[simp] theorem mapGroupM_run (k g : Nat) (f : Group → Group) (s : State) : mapGroupM k g f s = .ok ((), s.mapGroup k g f) := rfl
@[simp] theorem waitOn_run {α : Type} (w : WaitFor) (s : State) : (waitOn w : M α) s = .error (.wait w s) := rfl
@[simp] theorem raise_run {α : Type} (code fva info : Nat) (write fetch : Bool) (s : State) :
    (raise code fva info write fetch : M α) s =
      .error (.trap { code := code, fva := fva % 2 ^ 64, info := info, write := write, fetch := fetch, mask := none }) := rfl

theorem need_true {b : Bool} (h : b = true) (code fva : Nat) (s : State) : need b code fva s = .ok ((), s) := by simp [need, h]

theorem need_false {b : Bool} (h : b = false) (code fva : Nat) (s : State) :
    need b code fva s = .error (.trap { code := code, fva := fva % 2 ^ 64, info := 0, write := false, fetch := false, mask := none }) := by
  simp [need, h]

/-- A test answers only where it holds, and changes nothing. -/
theorem need_eq_ok {b : Bool} {code fva : Nat} {s s' : State} {u : Unit} : need b code fva s = .ok (u, s') ↔ b = true ∧ s' = s := by
  cases b
  · simp [need_false]
  · simp [need_true, eq_comm]

theorem teamOf_ok {s : State} {k : Nat} {t : Team} (h : s.team? k = some t) : teamOf k s = .ok (t, s) := by simp [teamOf, h]

/-! ### Writing g(d) (R97 to R99) -/

/-- A write that privilege allows. -/
theorem setG_ok {s : State} {k : Nat} {t : Team} (h : s.team? k = some t) (d : GReg) (v : W64)
    (hp : (t.super || !isKReg d) = true) : setG k d v s = .ok ((), s.mapTeam k (·.setReg d v)) := by
  unfold setG
  rw [M.bind_ok (teamOf_ok h), M.bind_ok (need_true hp cPRIV 0 s)]
  rfl

/-- A write that privilege forbids. -/
theorem setG_priv {s : State} {k : Nat} {t : Team} (h : s.team? k = some t) (d : GReg) (v : W64)
    (hp : (t.super || !isKReg d) = false) :
    setG k d v s = .error (.trap { code := cPRIV, fva := 0, info := 0, write := false, fetch := false, mask := none }) := by
  unfold setG
  rw [M.bind_ok (teamOf_ok h), M.bind_error (need_false hp cPRIV 0 s)]
  rfl

/-! ### A helm word -/

/-- Only a write that fails for want of a peer's answer may land (R431). -/
theorem State.mayLand_eq {c : Cause} (h : ¬(c.code = cECC_UNCORR ∧ c.write = true)) (s : State) (land : State → State) : s.mayLand c land = s := by
  simp [State.mayLand, h]

/-- What executing a helm word comes to, when the step is the helm's of a team that may retire one. -/
theorem runHelm_run {s : State} {t : Team} (hc : s.cur = some (.helm t.key)) (ht : s.team? t.key = some t) (hr : t.helmMayRun = true)
    (len : Nat) (body : Team → M Next) :
    runHelm len body s = match body t s with
      | .ok (n, s') => .next (s'.retire t len n)
      | .error (.trap c) => .next ((s.mayLand c (State.landed (body t))).helmTrap t.key c)
      | .error (.wait w s') => .next (s'.helmWait t.key w)
      | .error (.fault f) => .fault f := by
  unfold runHelm
  simp only [hc, ht, hr, if_true] <;> rfl

theorem runHelm_next {s s' : State} {t : Team} (hc : s.cur = some (.helm t.key)) (ht : s.team? t.key = some t) (hr : t.helmMayRun = true)
    (len : Nat) {body : Team → M Next} {n : Next} (h : body t s = .ok (n, s')) : runHelm len body s = .next (s'.retire t len n) := by
  rw [runHelm_run hc ht hr, h]

theorem runHelm_trap {s : State} {t : Team} (hc : s.cur = some (.helm t.key)) (ht : s.team? t.key = some t) (hr : t.helmMayRun = true)
    (len : Nat) {body : Team → M Next} {c : Cause} (h : body t s = .error (.trap c)) (hl : ¬(c.code = cECC_UNCORR ∧ c.write = true)) :
    runHelm len body s = .next (s.helmTrap t.key c) := by
  rw [runHelm_run hc ht hr, h, ← State.mayLand_eq hl s (State.landed (body t))]
  simp only [State.mayLand_eq hl]

theorem runHelm_wait {s s' : State} {t : Team} (hc : s.cur = some (.helm t.key)) (ht : s.team? t.key = some t) (hr : t.helmMayRun = true)
    (len : Nat) {body : Team → M Next} {w : WaitFor} (h : body t s = .error (.wait w s')) :
    runHelm len body s = .next (s'.helmWait t.key w) := by
  rw [runHelm_run hc ht hr, h]

/-- A word that computes g(d) and may write it. -/
theorem helmValue_next {s : State} {t : Team} (hc : s.cur = some (.helm t.key)) (ht : s.team? t.key = some t) (hr : t.helmMayRun = true)
    (len : Nat) (d : GReg) (f : Team → W64) (hp : (t.super || !isKReg d) = true) :
    helmValue len d f s = .next ((s.mapTeam t.key (·.setReg d (f t))).retire t len .seq) := by
  unfold helmValue
  apply runHelm_next hc ht hr
  rw [M.bind_ok (setG_ok ht d (f t) hp)]
  rfl

/-- A word that computes g(d) and may not write it. -/
theorem helmValue_priv {s : State} {t : Team} (hc : s.cur = some (.helm t.key)) (ht : s.team? t.key = some t) (hr : t.helmMayRun = true)
    (len : Nat) (d : GReg) (f : Team → W64) (hp : (t.super || !isKReg d) = false) :
    helmValue len d f s =
      .next (s.helmTrap t.key { code := cPRIV, fva := 0, info := 0, write := false, fetch := false, mask := none }) := by
  unfold helmValue
  apply runHelm_trap hc ht hr
  · rw [M.bind_error (setG_priv ht d (f t) hp)]
  · simp

/-- A word that reads no state and goes on as the team's own values say. -/
theorem runHelm_pure {s : State} {t : Team} (hc : s.cur = some (.helm t.key)) (ht : s.team? t.key = some t) (hr : t.helmMayRun = true)
    (len : Nat) (f : Team → Next) : runHelm len (fun t => pure (f t)) s = .next (s.retire t len (f t)) :=
  runHelm_next hc ht hr len rfl

/-! ### Retirement (R96, R128, R130, R408) -/

/-- Outside a single step nothing is left to do. -/
theorem State.stepDone_eq {s : State} {k : Nat} {t : Team} (h : s.team? k = some t) (hp : t.phase ≠ .stepping) (adv : W64) :
    s.stepDone k adv = s := by
  unfold State.stepDone
  simp [h, hp]

theorem State.stepDone_mapTeam {s : State} {k : Nat} {u : Team} (h : s.team? k = some u) (f : Team → Team)
    (hf : ∀ t, (f t).key = t.key) (hp : (f u).phase ≠ .stepping) (adv : W64) :
    (s.mapTeam k f).stepDone k adv = s.mapTeam k f := State.stepDone_eq (State.team?_mapTeam_some h f hf) hp adv

/-- Retirement outside a single step: the next pc, the loop registers, the watch exemption spent. -/
theorem State.retire_eq {s : State} {t u : Team} (h : s.team? t.key = some u) (hp : u.phase ≠ .stepping) (len : Nat) {n : Next}
    (hn : n ≠ .gone) :
    s.retire t len n = s.mapTeam t.key (·.goOn (nextPc t u len n)) := by
  have e : s.retire t len n = (s.mapTeam t.key (·.goOn (nextPc t u len n))).stepDone t.key 0 := by
    cases n <;> first | exact absurd rfl hn | simp only [State.retire, h, Option.getD_some]
  rw [e]
  exact State.stepDone_mapTeam h (·.goOn (nextPc t u len n)) (fun _ => rfl) hp 0

/-! ### An engine's word -/

theorem runEngine_run {s : State} {t : Team} {g : Group} {who : Eng} {entry : CqEntry} (h : engineOf s = some (t, g, who, entry))
    (body : Ln → M Bool) :
    runEngine body s = match body (lnOf t g who entry) s with
      | .ok (true, s') => .next (s'.stepDone t.key (advBit who))
      | .ok (false, s') => .next (s'.unbase t.key g.num who (g.eng who))
      | .error (.trap c) =>
        .next ((s.mayLand c (State.landedLanes (body (lnOf t g who entry)) t g)).laneTrap t.key g.num who entry.view.service c)
      | .error (.wait w s') => .next (s'.laneWait t.key g.num who w)
      | .error (.fault f) => .fault f := by
  unfold runEngine
  simp only [h] <;> rfl

/-! ### An event -/

/-- An event that is due does what it does. -/
theorem runEvent_some {f : State → Option State} {s s' : State} (h : f s = some s') : runEvent f s = .next s' := by
  simp [runEvent, h]

/-- An event that is not due changes nothing. -/
theorem runEvent_none {f : State → Option State} {s : State} (h : f s = none) : runEvent f s = .next s := by simp [runEvent, h]

end Sys2Proof.Machine
end

