-- ==== Sys2Proof/Laws/Frame.lean ====
section
/-! SUPPORT. What the retirement of a word, and a freeze, leave alone. -/

namespace Sys2Proof.Machine

/-- The bytes of a unit, its choices given, are those that memory and the writes hold. -/
theorem readUnitBytes_congr {s s' : State} (hm : s'.mem = s.mem) (os : List (Nat × List Write)) (chosen : List ByteRead) (tick : Nat) :
    readUnitBytes s' os chosen tick = readUnitBytes s os chosen tick := by
  induction os generalizing chosen tick with
  | nil => rfl
  | cons o os ih =>
    obtain ⟨a, ws⟩ := o
    simp only [readUnitBytes, hm, ih]

/-- The writes of a context at a byte depend on the write records, their home order and the entries of pages. -/
theorem State.writesFor_congr {s s' : State} (hw : s'.writes = s.writes) (hh : s'.home = s.home) (he : s'.entered = s.entered) (p : Place)
    (a : Nat) : s'.writesFor p a = s.writesFor p a := by
  simp only [State.writesFor, State.enteredAt, hw, hh, he]

/-- Reads look at the memory, the write records, their home order and the entries of pages only. -/
theorem SameMemory.of_eq {s s' : State} (hm : s'.mem = s.mem) (hw : s'.writes = s.writes) (he : State.Enters s s') : State.SameMemory s s' := by
  refine ⟨fun a => ⟨fun p known lifted regions va tick => ?_, ?_⟩, he⟩
  · simp only [State.readWith, unitOptions, State.writesFor_congr (s := { s with tick := tick })
      (s' := { s' with tick := tick, entered := s.entered, home := s.home }) hw rfl rfl]
    exact congrArg Prod.fst (readUnitBytes_congr (s := { s with tick := tick }) (s' := { s' with tick := tick, entered := s.entered, home := s.home }) hm _ _ _)
  · simp only [State.byteAt, hm]

@[simp] theorem State.freeze_mem (s : State) (k : Nat) (tr : Trap) : (s.freeze k tr).mem = s.mem := rfl
@[simp] theorem State.freeze_writes (s : State) (k : Nat) (tr : Trap) : (s.freeze k tr).writes = s.writes := rfl
@[simp] theorem State.freeze_home (s : State) (k : Nat) (tr : Trap) : (s.freeze k tr).home = s.home := rfl
@[simp] theorem State.freeze_entered (s : State) (k : Nat) (tr : Trap) : (s.freeze k tr).entered = s.entered := rfl

theorem State.stepDone_mem (s : State) (k : Nat) (adv : W64) : (s.stepDone k adv).mem = s.mem := by
  unfold State.stepDone
  split
  · split
    · simp only []
      split <;> rfl
    · rfl
  · rfl

theorem State.stepDone_writes (s : State) (k : Nat) (adv : W64) : (s.stepDone k adv).writes = s.writes := by
  unfold State.stepDone
  split
  · split
    · simp only []
      split <;> rfl
    · rfl
  · rfl

theorem State.stepDone_home (s : State) (k : Nat) (adv : W64) : (s.stepDone k adv).home = s.home := by
  unfold State.stepDone
  split
  · split
    · simp only []
      split <;> rfl
    · rfl
  · rfl

theorem State.stepDone_entered (s : State) (k : Nat) (adv : W64) : (s.stepDone k adv).entered = s.entered := by
  unfold State.stepDone
  split
  · split
    · simp only []
      split <;> rfl
    · rfl
  · rfl

/-- A freeze changes how a team goes on, and none of its registers. -/
theorem State.freeze_team {s : State} {k : Nat} {t : Team} (h : s.team? k = some t) (tr : Trap) :
    ∃ u, (s.freeze k tr).team? k = some u ∧ u.g = t.g ∧ t.SameSpecial u := by
  unfold State.freeze
  have h' : State.team? { s with timeouts := if tr.cause = cECC_UNCORR then [] else s.timeouts } k = some t := h
  refine ⟨_, State.team?_mapTeam_some h' _ ?_, ?_, ?_⟩
  · intro t
    simp only []
    repeat' split
    all_goals rfl
  · simp only []
    repeat' split
    all_goals rfl
  · simp only [Team.SameSpecial]
    repeat' split
    all_goals exact ⟨rfl, rfl, rfl, rfl, rfl, rfl, rfl, rfl, rfl, rfl, rfl, rfl, rfl, rfl, rfl, rfl, rfl, rfl, rfl, rfl⟩

theorem State.freeze_other {s : State} {k j : Nat} (hj : j ≠ k) (tr : Trap) : (s.freeze k tr).team? j = s.team? j := by
  unfold State.freeze
  refine (State.team?_mapTeam_other _ k j hj _ ?_).trans rfl
  intro t ht
  simp only []
  repeat' split
  all_goals exact ht

theorem Team.SameSpecial.trans {a b c : Team} (h : a.SameSpecial b) (h' : b.SameSpecial c) : a.SameSpecial c := by
  unfold Team.SameSpecial at *
  simp_all

/-- The end of a single step changes how the team goes on, and none of its registers. -/
theorem State.stepDone_team {s : State} {k : Nat} {t : Team} (h : s.team? k = some t) (adv : W64) :
    ∃ u, (s.stepDone k adv).team? k = some u ∧ u.g = t.g ∧ t.SameSpecial u := by
  unfold State.stepDone
  simp only [h]
  split
  · have h' := State.team?_mapTeam_some h (fun t => { t with plan := t.plan.tail, stepBase := none, stepmask := t.stepmask ||| adv })
      (fun _ => rfl)
    split
    · obtain ⟨u, hu, hg, hs⟩ := State.freeze_team h' stepEndTrap
      exact ⟨u, hu, hg, hs⟩
    · exact ⟨_, h', rfl, by simp [Team.SameSpecial]⟩
  · exact ⟨t, h, rfl, by simp [Team.SameSpecial]⟩

theorem State.stepDone_other {s : State} {k j : Nat} (hj : j ≠ k) (adv : W64) : (s.stepDone k adv).team? j = s.team? j := by
  unfold State.stepDone
  split
  · split
    · have h' := State.team?_mapTeam_other s k j hj
        (fun t => { t with plan := t.plan.tail, stepBase := none, stepmask := t.stepmask ||| adv }) (fun _ h => h)
      simp only []
      split
      · rw [State.freeze_other hj, h']
      · exact h'
    · rfl
  · rfl

/-- The retirement of a helm word changes no memory, no other team, and of its own team only the pc, the loop registers and how it
goes on. -/
theorem State.retire_frame {s : State} {t u : Team} (h : s.team? t.key = some u) (len : Nat) (n : Next) :
    (s.retire t len n).mem = s.mem ∧ (s.retire t len n).writes = s.writes ∧ (s.retire t len n).home = s.home ∧
    (s.retire t len n).entered = s.entered ∧ State.SameOthers s (s.retire t len n) t.key ∧
    ∃ v, (s.retire t len n).team? t.key = some v ∧ v.g = u.g ∧ u.SameSpecial v := by
  by_cases hn : n = .gone
  · subst hn
    exact ⟨rfl, rfl, rfl, rfl, fun _ _ => rfl, u, h, rfl, by simp [Team.SameSpecial]⟩
  · have e : s.retire t len n = (s.mapTeam t.key (·.goOn (nextPc t u len n))).stepDone t.key 0 := by
      cases n <;> first | exact absurd rfl hn | simp only [State.retire, h, Option.getD_some]
    rw [e]
    have h' := State.team?_mapTeam_some h (·.goOn (nextPc t u len n)) (fun _ => rfl)
    obtain ⟨v, hv, hg, hs⟩ := State.stepDone_team h' 0
    refine ⟨(State.stepDone_mem _ _ _).trans rfl, (State.stepDone_writes _ _ _).trans rfl, (State.stepDone_home _ _ _).trans rfl,
      (State.stepDone_entered _ _ _).trans rfl, fun j hj => ?_, v, hv, hg, hs⟩
    rw [State.stepDone_other hj]
    exact State.team?_mapTeam_other _ t.key j hj _ (fun _ h => h)

open Sys2Proof.Spec

/-- Outside a single step a word's retirement is the going on at its next pc. -/
theorem State.retire_goTo {s : State} {t u : Team} (h : s.team? t.key = some u) (hp : u.phase ≠ .stepping) (len : Nat) {n : Next}
    (hn : n ≠ .gone) : s.retire t len n = s.goTo t (nextPc t u len n) := by
  rw [State.retire_eq h hp len hn]; rfl

theorem nextPc_seq (t u : Team) (len : Nat) (h : u.loop = t.loop) : nextPc t u len .seq = nextWord t len := by
  simp only [nextPc, nextWord, h]
  by_cases h1 : t.loop.lcnt = 0 <;> by_cases h2 : t.loop.lobj.toNat = t.curObj <;>
    by_cases h3 : t.pc.toNat + len = t.loop.lend.toNat <;> simp [h1, h2, h3]
  by_cases h : (BitVec.toNat t.loop.lc + 1) % 18446744073709551616 < BitVec.toNat t.loop.lcnt <;> simp [h]

theorem nextPc_jump (t : Team) (len off : Nat) : nextPc t t len (.jump off) = takenTo t off := by
  simp only [nextPc, takenTo]
  by_cases h1 : t.loop.lcnt = 0 <;> by_cases h2 : t.loop.lobj.toNat = t.curObj <;> by_cases h3 : t.loop.lbeg.toNat ≤ t.pc.toNat <;>
    by_cases h4 : t.pc.toNat < t.loop.lend.toNat <;> by_cases h5 : t.loop.lbeg.toNat ≤ off <;>
    by_cases h6 : off < t.loop.lend.toNat <;> simp [h1, h2, h3, h4, h5, h6]

end Sys2Proof.Machine
end

