-- ==== Sys2Proof/Laws/Words.lean ====
section
/-! SUPPORT. The fields of packed words read back: each pack function's fields, and a strand word's round trip. -/

namespace Sys2Proof

theorem b2n_lt (b : Bool) : b2n b < 2 := by cases b <;> decide

@[simp] theorem b2n_beq_one (b : Bool) : (b2n b == 1) = b := by cases b <;> rfl

theorem checked_of {i : Instr} (h : i.wellFormed = true) : checked i = .ok i := by
  unfold Instr.wellFormed at h
  unfold checked
  cases e : i.illFormed with
  | none => rfl
  | some x => rw [e] at h; cases h
theorem bitOf_eq (w i : Nat) : bitOf w i = (bitsOf w i i == 1) := by simp [bitOf, bitsOf, show i + 1 - i = 1 by omega]

theorem bitsOf_bitsOf (w h l i j : Nat) (hi : l + i ≤ h) : bitsOf (bitsOf w h l) i j = bitsOf w (l + i) (l + j) := by
  refine Nat.eq_of_testBit_eq fun k => ?_
  simp only [bitsOf, Nat.testBit_mod_two_pow, Nat.testBit_div_two_pow]
  by_cases hk : k < i + 1 - j
  · simp [hk, show k + j < h + 1 - l by omega, Nat.add_assoc, Nat.add_comm j l]
    omega
  · simp [hk, show ¬ k < l + i + 1 - (l + j) by omega]

def packHead (tag op tok rep step msk vd va b : Nat) : Nat :=
  tag + tok * 2 ^ 2 + op * 2 ^ 6 + rep * 2 ^ 12 + step * 2 ^ 17 + msk * 2 ^ 24 + vd * 2 ^ 27 + va * 2 ^ 34 + b * 2 ^ 41

theorem packHead_fields {tag op tok rep step msk vd va b : Nat} (x : Nat) (h0 : tag < 4) (h1 : op < 2 ^ 6) (h2 : tok < 2 ^ 4)
    (h3 : rep < 2 ^ 5) (h4 : step < 2 ^ 7) (h5 : msk < 2 ^ 3) (h6 : vd < 2 ^ 7) (h7 : va < 2 ^ 7) (h8 : b < 2 ^ 7) :
    let w := packHead tag op tok rep step msk vd va b + x * 2 ^ 48
    bitsOf w 1 0 = tag ∧ bitsOf w 5 2 = tok ∧ bitsOf w 11 6 = op ∧ bitsOf w 16 12 = rep ∧ bitsOf w 23 17 = step ∧
      bitsOf w 26 24 = msk ∧ bitsOf w 33 27 = vd ∧ bitsOf w 40 34 = va ∧ bitsOf w 47 41 = b ∧
      bitsOf w 95 48 = x % 2 ^ 48 ∧ packHead tag op tok rep step msk vd va b < 2 ^ 48 := by
  simp only [packHead, bitsOf]
  exact ⟨by omega, by omega, by omega, by omega, by omega, by omega, by omega, by omega, by omega, by omega, by omega⟩

def packExt (op acc sh fmt seg vc ubase imm : Nat) : Nat :=
  op + acc * 2 ^ 6 + sh * 2 ^ 9 + fmt * 2 ^ 12 + seg * 2 ^ 16 + vc * 2 ^ 20 + ubase * 2 ^ 27 + imm * 2 ^ 32

theorem packExt_fields {op acc sh fmt seg vc ubase imm : Nat} (h0 : op < 2 ^ 6) (h1 : acc < 2 ^ 3) (h2 : sh < 2 ^ 3)
    (h3 : fmt < 2 ^ 4) (h4 : seg < 2 ^ 4) (h5 : vc < 2 ^ 7) (h6 : ubase < 2 ^ 4) (h7 : imm < 2 ^ 16) :
    let x := packExt op acc sh fmt seg vc ubase imm
    x < 2 ^ 48 ∧ bitsOf x 5 0 = op ∧ bitsOf x 8 6 = acc ∧ bitsOf x 11 9 = sh ∧ bitsOf x 15 12 = fmt ∧ bitsOf x 19 16 = seg ∧
      bitsOf x 26 20 = vc ∧ bitsOf x 30 27 = ubase ∧ bitsOf x 31 31 = 0 ∧ bitsOf x 47 32 = imm := by
  simp only [packExt, bitsOf]
  exact ⟨by omega, by omega, by omega, by omega, by omega, by omega, by omega, by omega, by omega, by omega⟩


theorem swOf_packed {w tag : Nat} {tok : BitVec 4} {rep : BitVec 5} {step vd va b : BitVec 7} {msk : BitVec 3} {op x : Nat} {e : Option SExt} (ht : tag < 4) (ho : op < 2 ^ 6)
    (hw : w = packHead tag op tok.toNat rep.toNat step.toNat msk.toNat vd.toNat va.toNat b.toNat + x * 2 ^ 48) :
    swOf w e = ⟨tok, rep, step, msk, vd, va, b, e⟩ ∧ bitsOf w 1 0 = tag ∧ bitsOf w 11 6 = op ∧ bitsOf w 95 48 = x % 2 ^ 48 := by
  obtain ⟨f0, f1, f2, f3, f4, f5, f6, f7, f8, f9, -⟩ := packHead_fields x ht ho tok.isLt rep.isLt
      step.isLt msk.isLt vd.isLt va.isLt b.isLt
  rw [← hw] at f0 f1 f2 f3 f4 f5 f6 f7 f8 f9
  refine ⟨?_, f0, f2, f9⟩
  simp only [swOf, f1, f3, f4, f5, f6, f7, f8, BitVec.ofNat_toNat, BitVec.setWidth_eq]

theorem extOf_packed {x op : Nat} {acc sh : BitVec 3} {fmt seg ubase : BitVec 4} {vc : BitVec 7} {imm : W16} (ho : op < 2 ^ 6)
    (hx : x = packExt op acc.toNat sh.toNat fmt.toNat seg.toNat vc.toNat ubase.toNat imm.toNat) :
    extOf x = ⟨imm, ubase, vc, seg, fmt, sh, acc⟩ ∧ bitsOf x 5 0 = op ∧ bitOf x 31 = false ∧ x < 2 ^ 48 := by
  obtain ⟨g0, g1, g2, g3, g4, g5, g6, g7, g8, g9⟩ := packExt_fields ho acc.isLt sh.isLt fmt.isLt seg.isLt vc.isLt ubase.isLt imm.isLt
  rw [← hx] at g0 g1 g2 g3 g4 g5 g6 g7 g8 g9
  refine ⟨?_, g1, ?_, g0⟩
  · simp only [extOf, g2, g3, g4, g5, g6, g7, g9, BitVec.ofNat_toNat, BitVec.setWidth_eq]
  · rw [bitOf_eq, g8]; rfl

theorem packHead_lt {tag op tok rep step msk vd va b : Nat} (h0 : tag < 4) (h1 : op < 2 ^ 6) (h2 : tok < 2 ^ 4)
    (h3 : rep < 2 ^ 5) (h4 : step < 2 ^ 7) (h5 : msk < 2 ^ 3) (h6 : vd < 2 ^ 7) (h7 : va < 2 ^ 7) (h8 : b < 2 ^ 7) :
    packHead tag op tok rep step msk vd va b < 2 ^ 48 :=
  (packHead_fields 0 h0 h1 h2 h3 h4 h5 h6 h7 h8).2.2.2.2.2.2.2.2.2.2

theorem strand_round {tag op : Nat} (ht : tag < 4) (ho : op < 0x3F) {w : SW} {i : Instr} (h : strandOp tag op w = .ok i) :
    decodeStrandWord (packStrand tag op w) = .ok i ∧ packStrand tag op w < 2 ^ (8 * strandBytes (packStrand tag op w)) := by
  obtain ⟨tok, rep, step, msk, vd, va, b, ext⟩ := w
  have ho' : op < 2 ^ 6 := by omega
  have hne : ¬ op = 0x3F := by omega
  generalize hn : packStrand tag op _ = n
  cases ext with
  | none =>
    have e : n = packHead tag op tok.toNat rep.toNat step.toNat msk.toNat vd.toNat va.toNat b.toNat := by
      rw [← hn]; rfl
    obtain ⟨f0, f1, f2, -⟩ := swOf_packed (w := n) (x := 0) (e := none) ht ho' (by rw [e, Nat.zero_mul, Nat.add_zero])
    have hb := packHead_lt ht ho' tok.isLt rep.isLt step.isLt msk.isLt vd.isLt va.isLt b.isLt
    rw [← e] at hb
    refine ⟨?_, ?_⟩
    · rw [decodeStrandWord, f2, if_neg hne, f0, f1, h]
    · rw [strandBytes, f2, if_neg hne]; exact hb
  | some x =>
    obtain ⟨imm, ubase, vc, seg, fmt, sh, acc⟩ := x
    generalize hx : packExt op acc.toNat sh.toNat fmt.toNat seg.toNat vc.toNat ubase.toNat imm.toNat = x
    have e : n = packHead tag 0x3F tok.toNat rep.toNat step.toNat msk.toNat vd.toNat va.toNat b.toNat + x * 2 ^ 48 := by
      rw [← hn, ← hx]; rfl
    obtain ⟨g0, g1, g2, g3⟩ := extOf_packed ho' hx.symm
    obtain ⟨f0, f1, f2, f3⟩ := swOf_packed (e := some (extOf x)) ht (by decide) e
    have hb := packHead_lt ht (show 0x3F < 2 ^ 6 by decide) tok.isLt rep.isLt step.isLt msk.isLt vd.isLt va.isLt b.isLt
    rw [Nat.mod_eq_of_lt g3] at f3
    rw [g0] at f0
    refine ⟨?_, ?_⟩
    · simp only [decodeStrandWord, f2, f3, f1, g1, g2, g0, f0, if_true, if_neg hne, Bool.false_eq_true, if_false]; exact h
    · rw [strandBytes, f2, if_pos rfl, e]; omega
theorem packHR_fields {m fn b a d : Nat} (h_m : m < 2 ^ 7) (h_fn : fn < 2 ^ 6) (h_b : b < 2 ^ 6) (h_a : a < 2 ^ 6) (h_d : d < 2 ^ 6) :
    bitsOf (packHR m fn b a d) 0 0 = 0 ∧ bitsOf (packHR m fn b a d) 7 1 = m ∧ bitsOf (packHR m fn b a d) 31 26 = fn ∧ bitsOf (packHR m fn b a d) 25 20 = b ∧ bitsOf (packHR m fn b a d) 19 14 = a ∧ bitsOf (packHR m fn b a d) 13 8 = d ∧ packHR m fn b a d < 2 ^ 32 := by
  simp only [packHR, bitsOf]
  exact ⟨by omega, by omega, by omega, by omega, by omega, by omega, by omega⟩

theorem packHI_fields {m imm a d : Nat} (h_m : m < 2 ^ 7) (h_imm : imm < 2 ^ 12) (h_a : a < 2 ^ 6) (h_d : d < 2 ^ 6) :
    bitsOf (packHI m imm a d) 0 0 = 0 ∧ bitsOf (packHI m imm a d) 7 1 = m ∧ bitsOf (packHI m imm a d) 31 20 = imm ∧ bitsOf (packHI m imm a d) 19 14 = a ∧ bitsOf (packHI m imm a d) 13 8 = d ∧ packHI m imm a d < 2 ^ 32 := by
  simp only [packHI, bitsOf]
  exact ⟨by omega, by omega, by omega, by omega, by omega, by omega⟩

theorem packHJ_fields {m off d : Nat} (h_m : m < 2 ^ 7) (h_off : off < 2 ^ 18) (h_d : d < 2 ^ 6) :
    bitsOf (packHJ m off d) 0 0 = 0 ∧ bitsOf (packHJ m off d) 7 1 = m ∧ bitsOf (packHJ m off d) 31 14 = off ∧ bitsOf (packHJ m off d) 13 8 = d ∧ packHJ m off d < 2 ^ 32 := by
  simp only [packHJ, bitsOf]
  exact ⟨by omega, by omega, by omega, by omega, by omega⟩

theorem packHM_fields {m imm size a d : Nat} (h_m : m < 2 ^ 7) (h_imm : imm < 2 ^ 9) (h_size : size < 2 ^ 3) (h_a : a < 2 ^ 6) (h_d : d < 2 ^ 6) :
    bitsOf (packHM m imm size a d) 0 0 = 0 ∧ bitsOf (packHM m imm size a d) 7 1 = m ∧ bitsOf (packHM m imm size a d) 31 23 = imm ∧ bitsOf (packHM m imm size a d) 22 20 = size ∧ bitsOf (packHM m imm size a d) 19 14 = a ∧ bitsOf (packHM m imm size a d) 13 8 = d ∧ packHM m imm size a d < 2 ^ 32 := by
  simp only [packHM, bitsOf]
  exact ⟨by omega, by omega, by omega, by omega, by omega, by omega, by omega⟩

theorem packHS_fields {m x sub a d : Nat} (h_m : m < 2 ^ 7) (h_x : x < 2 ^ 8) (h_sub : sub < 2 ^ 4) (h_a : a < 2 ^ 6) (h_d : d < 2 ^ 6) :
    bitsOf (packHS m x sub a d) 0 0 = 0 ∧ bitsOf (packHS m x sub a d) 7 1 = m ∧ bitsOf (packHS m x sub a d) 31 24 = x ∧ bitsOf (packHS m x sub a d) 23 20 = sub ∧ bitsOf (packHS m x sub a d) 19 14 = a ∧ bitsOf (packHS m x sub a d) 13 8 = d ∧ packHS m x sub a d < 2 ^ 32 := by
  simp only [packHS, bitsOf]
  exact ⟨by omega, by omega, by omega, by omega, by omega, by omega, by omega⟩

theorem packL_fields {m imm fn8 seg a d : Nat} (h_m : m < 2 ^ 7) (h_imm : imm < 2 ^ 32) (h_fn8 : fn8 < 2 ^ 8) (h_seg : seg < 2 ^ 4) (h_a : a < 2 ^ 6) (h_d : d < 2 ^ 6) :
    bitsOf (packL m imm fn8 seg a d) 0 0 = 1 ∧ bitsOf (packL m imm fn8 seg a d) 7 1 = m ∧ bitsOf (packL m imm fn8 seg a d) 63 32 = imm ∧ bitsOf (packL m imm fn8 seg a d) 31 24 = fn8 ∧ bitsOf (packL m imm fn8 seg a d) 23 20 = seg ∧ bitsOf (packL m imm fn8 seg a d) 19 14 = a ∧ bitsOf (packL m imm fn8 seg a d) 13 8 = d ∧ packL m imm fn8 seg a d < 2 ^ 64 := by
  simp only [packL, bitsOf]
  exact ⟨by omega, by omega, by omega, by omega, by omega, by omega, by omega, by omega⟩

end Sys2Proof
end

