-- ==== Sys2Proof/Laws/PerInstr.lean ====
section
/-! SUPPORT. The round trip of every instruction's word, one lemma per constructor of Instr. -/

set_option Elab.async false
set_option linter.unusedSimpArgs false
namespace Sys2Proof.Laws.RoundTrip

/-- Of a helm word and of a strand word: the number decodes to the instruction, and fits in the word's bytes. -/
def Statement (i : Instr) : Prop :=
  (∀ w, i.wellFormed = true → helmWord i = some w → decodeHelmWord w = .ok i ∧ w < 2 ^ (8 * helmBytes w)) ∧
  (∀ w, i.wellFormed = true → strandWord i = some w → decodeStrandWord w = .ok i ∧ w < 2 ^ (8 * strandBytes w))

/-- An instruction that no word encodes. -/
theorem noWord {i : Instr} (h : helmWord i = none) (h' : strandWord i = none) : Statement i :=
  ⟨fun w _ e => (by rw [h] at e; cases e), fun w _ e => (by rw [h'] at e; cases e)⟩

theorem need_eq_none {c : Bool} {e : DecodeError} : need c e = none ↔ c = true := by cases c <;> simp [need]

/-- An instruction with a strand word. -/
theorem strand {i : Instr} {tag op : Nat} {w : SW} (e : strandWord i = some (packStrand tag op w)) (h : helmWord i = none)
    (ht : tag < 4) (ho : op < 0x3F) (hd : i.wellFormed = true → strandOp tag op w = .ok i) : Statement i :=
  ⟨fun n _ e' => (by rw [h] at e'; cases e'), fun n hf e' => (by rw [e] at e'; cases e'; exact strand_round ht ho (hd hf))⟩

theorem add (d : GReg) (a : GReg) (b : GReg) : Statement (.add d a b) := by
  refine ⟨fun w hf hw => ?_, fun w _ hw => by simp [strandWord] at hw⟩
  simp only [helmWord, Option.some.injEq] at hw
  obtain ⟨z0, q_m, q_fn, q_b, q_a, q_d, hb⟩ := packHR_fields (show (0x01 : Nat) < 2 ^ 7 by decide) (show (0x00 : Nat) < 2 ^ 6 by decide) b.isLt a.isLt d.isLt
  rw [hw] at z0 q_m q_fn q_b q_a q_d hb
  refine ⟨?_, ?_⟩
  · simp [decodeHelmWord, decodeShort, decodeInteger, integerOps, wMajor, wD, wA, wB, wFn, wSub, wX, wImm, zeroThen, bitsOf_bitsOf, bitOf_eq, z0, q_m, q_fn, q_b, q_a, q_d, checked_of hf]
  · simpa [helmBytes, bitOf_eq, z0] using hb

theorem sub (d : GReg) (a : GReg) (b : GReg) : Statement (.sub d a b) := by
  refine ⟨fun w hf hw => ?_, fun w _ hw => by simp [strandWord] at hw⟩
  simp only [helmWord, Option.some.injEq] at hw
  obtain ⟨z0, q_m, q_fn, q_b, q_a, q_d, hb⟩ := packHR_fields (show (0x01 : Nat) < 2 ^ 7 by decide) (show (0x01 : Nat) < 2 ^ 6 by decide) b.isLt a.isLt d.isLt
  rw [hw] at z0 q_m q_fn q_b q_a q_d hb
  refine ⟨?_, ?_⟩
  · simp [decodeHelmWord, decodeShort, decodeInteger, integerOps, wMajor, wD, wA, wB, wFn, wSub, wX, wImm, zeroThen, bitsOf_bitsOf, bitOf_eq, z0, q_m, q_fn, q_b, q_a, q_d, checked_of hf]
  · simpa [helmBytes, bitOf_eq, z0] using hb

theorem and_ (d : GReg) (a : GReg) (b : GReg) : Statement (.and_ d a b) := by
  refine ⟨fun w hf hw => ?_, fun w _ hw => by simp [strandWord] at hw⟩
  simp only [helmWord, Option.some.injEq] at hw
  obtain ⟨z0, q_m, q_fn, q_b, q_a, q_d, hb⟩ := packHR_fields (show (0x01 : Nat) < 2 ^ 7 by decide) (show (0x02 : Nat) < 2 ^ 6 by decide) b.isLt a.isLt d.isLt
  rw [hw] at z0 q_m q_fn q_b q_a q_d hb
  refine ⟨?_, ?_⟩
  · simp [decodeHelmWord, decodeShort, decodeInteger, integerOps, wMajor, wD, wA, wB, wFn, wSub, wX, wImm, zeroThen, bitsOf_bitsOf, bitOf_eq, z0, q_m, q_fn, q_b, q_a, q_d, checked_of hf]
  · simpa [helmBytes, bitOf_eq, z0] using hb

theorem or_ (d : GReg) (a : GReg) (b : GReg) : Statement (.or_ d a b) := by
  refine ⟨fun w hf hw => ?_, fun w _ hw => by simp [strandWord] at hw⟩
  simp only [helmWord, Option.some.injEq] at hw
  obtain ⟨z0, q_m, q_fn, q_b, q_a, q_d, hb⟩ := packHR_fields (show (0x01 : Nat) < 2 ^ 7 by decide) (show (0x03 : Nat) < 2 ^ 6 by decide) b.isLt a.isLt d.isLt
  rw [hw] at z0 q_m q_fn q_b q_a q_d hb
  refine ⟨?_, ?_⟩
  · simp [decodeHelmWord, decodeShort, decodeInteger, integerOps, wMajor, wD, wA, wB, wFn, wSub, wX, wImm, zeroThen, bitsOf_bitsOf, bitOf_eq, z0, q_m, q_fn, q_b, q_a, q_d, checked_of hf]
  · simpa [helmBytes, bitOf_eq, z0] using hb

theorem xor (d : GReg) (a : GReg) (b : GReg) : Statement (.xor d a b) := by
  refine ⟨fun w hf hw => ?_, fun w _ hw => by simp [strandWord] at hw⟩
  simp only [helmWord, Option.some.injEq] at hw
  obtain ⟨z0, q_m, q_fn, q_b, q_a, q_d, hb⟩ := packHR_fields (show (0x01 : Nat) < 2 ^ 7 by decide) (show (0x04 : Nat) < 2 ^ 6 by decide) b.isLt a.isLt d.isLt
  rw [hw] at z0 q_m q_fn q_b q_a q_d hb
  refine ⟨?_, ?_⟩
  · simp [decodeHelmWord, decodeShort, decodeInteger, integerOps, wMajor, wD, wA, wB, wFn, wSub, wX, wImm, zeroThen, bitsOf_bitsOf, bitOf_eq, z0, q_m, q_fn, q_b, q_a, q_d, checked_of hf]
  · simpa [helmBytes, bitOf_eq, z0] using hb

theorem shl (d : GReg) (a : GReg) (b : GReg) : Statement (.shl d a b) := by
  refine ⟨fun w hf hw => ?_, fun w _ hw => by simp [strandWord] at hw⟩
  simp only [helmWord, Option.some.injEq] at hw
  obtain ⟨z0, q_m, q_fn, q_b, q_a, q_d, hb⟩ := packHR_fields (show (0x01 : Nat) < 2 ^ 7 by decide) (show (0x05 : Nat) < 2 ^ 6 by decide) b.isLt a.isLt d.isLt
  rw [hw] at z0 q_m q_fn q_b q_a q_d hb
  refine ⟨?_, ?_⟩
  · simp [decodeHelmWord, decodeShort, decodeInteger, integerOps, wMajor, wD, wA, wB, wFn, wSub, wX, wImm, zeroThen, bitsOf_bitsOf, bitOf_eq, z0, q_m, q_fn, q_b, q_a, q_d, checked_of hf]
  · simpa [helmBytes, bitOf_eq, z0] using hb

theorem shr (d : GReg) (a : GReg) (b : GReg) : Statement (.shr d a b) := by
  refine ⟨fun w hf hw => ?_, fun w _ hw => by simp [strandWord] at hw⟩
  simp only [helmWord, Option.some.injEq] at hw
  obtain ⟨z0, q_m, q_fn, q_b, q_a, q_d, hb⟩ := packHR_fields (show (0x01 : Nat) < 2 ^ 7 by decide) (show (0x06 : Nat) < 2 ^ 6 by decide) b.isLt a.isLt d.isLt
  rw [hw] at z0 q_m q_fn q_b q_a q_d hb
  refine ⟨?_, ?_⟩
  · simp [decodeHelmWord, decodeShort, decodeInteger, integerOps, wMajor, wD, wA, wB, wFn, wSub, wX, wImm, zeroThen, bitsOf_bitsOf, bitOf_eq, z0, q_m, q_fn, q_b, q_a, q_d, checked_of hf]
  · simpa [helmBytes, bitOf_eq, z0] using hb

theorem sha (d : GReg) (a : GReg) (b : GReg) : Statement (.sha d a b) := by
  refine ⟨fun w hf hw => ?_, fun w _ hw => by simp [strandWord] at hw⟩
  simp only [helmWord, Option.some.injEq] at hw
  obtain ⟨z0, q_m, q_fn, q_b, q_a, q_d, hb⟩ := packHR_fields (show (0x01 : Nat) < 2 ^ 7 by decide) (show (0x07 : Nat) < 2 ^ 6 by decide) b.isLt a.isLt d.isLt
  rw [hw] at z0 q_m q_fn q_b q_a q_d hb
  refine ⟨?_, ?_⟩
  · simp [decodeHelmWord, decodeShort, decodeInteger, integerOps, wMajor, wD, wA, wB, wFn, wSub, wX, wImm, zeroThen, bitsOf_bitsOf, bitOf_eq, z0, q_m, q_fn, q_b, q_a, q_d, checked_of hf]
  · simpa [helmBytes, bitOf_eq, z0] using hb

theorem mul (d : GReg) (a : GReg) (b : GReg) : Statement (.mul d a b) := by
  refine ⟨fun w hf hw => ?_, fun w _ hw => by simp [strandWord] at hw⟩
  simp only [helmWord, Option.some.injEq] at hw
  obtain ⟨z0, q_m, q_fn, q_b, q_a, q_d, hb⟩ := packHR_fields (show (0x01 : Nat) < 2 ^ 7 by decide) (show (0x08 : Nat) < 2 ^ 6 by decide) b.isLt a.isLt d.isLt
  rw [hw] at z0 q_m q_fn q_b q_a q_d hb
  refine ⟨?_, ?_⟩
  · simp [decodeHelmWord, decodeShort, decodeInteger, integerOps, wMajor, wD, wA, wB, wFn, wSub, wX, wImm, zeroThen, bitsOf_bitsOf, bitOf_eq, z0, q_m, q_fn, q_b, q_a, q_d, checked_of hf]
  · simpa [helmBytes, bitOf_eq, z0] using hb

theorem mulh (d : GReg) (a : GReg) (b : GReg) : Statement (.mulh d a b) := by
  refine ⟨fun w hf hw => ?_, fun w _ hw => by simp [strandWord] at hw⟩
  simp only [helmWord, Option.some.injEq] at hw
  obtain ⟨z0, q_m, q_fn, q_b, q_a, q_d, hb⟩ := packHR_fields (show (0x01 : Nat) < 2 ^ 7 by decide) (show (0x09 : Nat) < 2 ^ 6 by decide) b.isLt a.isLt d.isLt
  rw [hw] at z0 q_m q_fn q_b q_a q_d hb
  refine ⟨?_, ?_⟩
  · simp [decodeHelmWord, decodeShort, decodeInteger, integerOps, wMajor, wD, wA, wB, wFn, wSub, wX, wImm, zeroThen, bitsOf_bitsOf, bitOf_eq, z0, q_m, q_fn, q_b, q_a, q_d, checked_of hf]
  · simpa [helmBytes, bitOf_eq, z0] using hb

theorem mulhu (d : GReg) (a : GReg) (b : GReg) : Statement (.mulhu d a b) := by
  refine ⟨fun w hf hw => ?_, fun w _ hw => by simp [strandWord] at hw⟩
  simp only [helmWord, Option.some.injEq] at hw
  obtain ⟨z0, q_m, q_fn, q_b, q_a, q_d, hb⟩ := packHR_fields (show (0x01 : Nat) < 2 ^ 7 by decide) (show (0x0A : Nat) < 2 ^ 6 by decide) b.isLt a.isLt d.isLt
  rw [hw] at z0 q_m q_fn q_b q_a q_d hb
  refine ⟨?_, ?_⟩
  · simp [decodeHelmWord, decodeShort, decodeInteger, integerOps, wMajor, wD, wA, wB, wFn, wSub, wX, wImm, zeroThen, bitsOf_bitsOf, bitOf_eq, z0, q_m, q_fn, q_b, q_a, q_d, checked_of hf]
  · simpa [helmBytes, bitOf_eq, z0] using hb

theorem div (d : GReg) (a : GReg) (b : GReg) : Statement (.div d a b) := by
  refine ⟨fun w hf hw => ?_, fun w _ hw => by simp [strandWord] at hw⟩
  simp only [helmWord, Option.some.injEq] at hw
  obtain ⟨z0, q_m, q_fn, q_b, q_a, q_d, hb⟩ := packHR_fields (show (0x01 : Nat) < 2 ^ 7 by decide) (show (0x0B : Nat) < 2 ^ 6 by decide) b.isLt a.isLt d.isLt
  rw [hw] at z0 q_m q_fn q_b q_a q_d hb
  refine ⟨?_, ?_⟩
  · simp [decodeHelmWord, decodeShort, decodeInteger, integerOps, wMajor, wD, wA, wB, wFn, wSub, wX, wImm, zeroThen, bitsOf_bitsOf, bitOf_eq, z0, q_m, q_fn, q_b, q_a, q_d, checked_of hf]
  · simpa [helmBytes, bitOf_eq, z0] using hb

theorem divu (d : GReg) (a : GReg) (b : GReg) : Statement (.divu d a b) := by
  refine ⟨fun w hf hw => ?_, fun w _ hw => by simp [strandWord] at hw⟩
  simp only [helmWord, Option.some.injEq] at hw
  obtain ⟨z0, q_m, q_fn, q_b, q_a, q_d, hb⟩ := packHR_fields (show (0x01 : Nat) < 2 ^ 7 by decide) (show (0x0C : Nat) < 2 ^ 6 by decide) b.isLt a.isLt d.isLt
  rw [hw] at z0 q_m q_fn q_b q_a q_d hb
  refine ⟨?_, ?_⟩
  · simp [decodeHelmWord, decodeShort, decodeInteger, integerOps, wMajor, wD, wA, wB, wFn, wSub, wX, wImm, zeroThen, bitsOf_bitsOf, bitOf_eq, z0, q_m, q_fn, q_b, q_a, q_d, checked_of hf]
  · simpa [helmBytes, bitOf_eq, z0] using hb

theorem rem (d : GReg) (a : GReg) (b : GReg) : Statement (.rem d a b) := by
  refine ⟨fun w hf hw => ?_, fun w _ hw => by simp [strandWord] at hw⟩
  simp only [helmWord, Option.some.injEq] at hw
  obtain ⟨z0, q_m, q_fn, q_b, q_a, q_d, hb⟩ := packHR_fields (show (0x01 : Nat) < 2 ^ 7 by decide) (show (0x0D : Nat) < 2 ^ 6 by decide) b.isLt a.isLt d.isLt
  rw [hw] at z0 q_m q_fn q_b q_a q_d hb
  refine ⟨?_, ?_⟩
  · simp [decodeHelmWord, decodeShort, decodeInteger, integerOps, wMajor, wD, wA, wB, wFn, wSub, wX, wImm, zeroThen, bitsOf_bitsOf, bitOf_eq, z0, q_m, q_fn, q_b, q_a, q_d, checked_of hf]
  · simpa [helmBytes, bitOf_eq, z0] using hb

theorem remu (d : GReg) (a : GReg) (b : GReg) : Statement (.remu d a b) := by
  refine ⟨fun w hf hw => ?_, fun w _ hw => by simp [strandWord] at hw⟩
  simp only [helmWord, Option.some.injEq] at hw
  obtain ⟨z0, q_m, q_fn, q_b, q_a, q_d, hb⟩ := packHR_fields (show (0x01 : Nat) < 2 ^ 7 by decide) (show (0x0E : Nat) < 2 ^ 6 by decide) b.isLt a.isLt d.isLt
  rw [hw] at z0 q_m q_fn q_b q_a q_d hb
  refine ⟨?_, ?_⟩
  · simp [decodeHelmWord, decodeShort, decodeInteger, integerOps, wMajor, wD, wA, wB, wFn, wSub, wX, wImm, zeroThen, bitsOf_bitsOf, bitOf_eq, z0, q_m, q_fn, q_b, q_a, q_d, checked_of hf]
  · simpa [helmBytes, bitOf_eq, z0] using hb

theorem min (d : GReg) (a : GReg) (b : GReg) : Statement (.min d a b) := by
  refine ⟨fun w hf hw => ?_, fun w _ hw => by simp [strandWord] at hw⟩
  simp only [helmWord, Option.some.injEq] at hw
  obtain ⟨z0, q_m, q_fn, q_b, q_a, q_d, hb⟩ := packHR_fields (show (0x01 : Nat) < 2 ^ 7 by decide) (show (0x0F : Nat) < 2 ^ 6 by decide) b.isLt a.isLt d.isLt
  rw [hw] at z0 q_m q_fn q_b q_a q_d hb
  refine ⟨?_, ?_⟩
  · simp [decodeHelmWord, decodeShort, decodeInteger, integerOps, wMajor, wD, wA, wB, wFn, wSub, wX, wImm, zeroThen, bitsOf_bitsOf, bitOf_eq, z0, q_m, q_fn, q_b, q_a, q_d, checked_of hf]
  · simpa [helmBytes, bitOf_eq, z0] using hb

theorem minu (d : GReg) (a : GReg) (b : GReg) : Statement (.minu d a b) := by
  refine ⟨fun w hf hw => ?_, fun w _ hw => by simp [strandWord] at hw⟩
  simp only [helmWord, Option.some.injEq] at hw
  obtain ⟨z0, q_m, q_fn, q_b, q_a, q_d, hb⟩ := packHR_fields (show (0x01 : Nat) < 2 ^ 7 by decide) (show (0x10 : Nat) < 2 ^ 6 by decide) b.isLt a.isLt d.isLt
  rw [hw] at z0 q_m q_fn q_b q_a q_d hb
  refine ⟨?_, ?_⟩
  · simp [decodeHelmWord, decodeShort, decodeInteger, integerOps, wMajor, wD, wA, wB, wFn, wSub, wX, wImm, zeroThen, bitsOf_bitsOf, bitOf_eq, z0, q_m, q_fn, q_b, q_a, q_d, checked_of hf]
  · simpa [helmBytes, bitOf_eq, z0] using hb

theorem max (d : GReg) (a : GReg) (b : GReg) : Statement (.max d a b) := by
  refine ⟨fun w hf hw => ?_, fun w _ hw => by simp [strandWord] at hw⟩
  simp only [helmWord, Option.some.injEq] at hw
  obtain ⟨z0, q_m, q_fn, q_b, q_a, q_d, hb⟩ := packHR_fields (show (0x01 : Nat) < 2 ^ 7 by decide) (show (0x11 : Nat) < 2 ^ 6 by decide) b.isLt a.isLt d.isLt
  rw [hw] at z0 q_m q_fn q_b q_a q_d hb
  refine ⟨?_, ?_⟩
  · simp [decodeHelmWord, decodeShort, decodeInteger, integerOps, wMajor, wD, wA, wB, wFn, wSub, wX, wImm, zeroThen, bitsOf_bitsOf, bitOf_eq, z0, q_m, q_fn, q_b, q_a, q_d, checked_of hf]
  · simpa [helmBytes, bitOf_eq, z0] using hb

theorem maxu (d : GReg) (a : GReg) (b : GReg) : Statement (.maxu d a b) := by
  refine ⟨fun w hf hw => ?_, fun w _ hw => by simp [strandWord] at hw⟩
  simp only [helmWord, Option.some.injEq] at hw
  obtain ⟨z0, q_m, q_fn, q_b, q_a, q_d, hb⟩ := packHR_fields (show (0x01 : Nat) < 2 ^ 7 by decide) (show (0x12 : Nat) < 2 ^ 6 by decide) b.isLt a.isLt d.isLt
  rw [hw] at z0 q_m q_fn q_b q_a q_d hb
  refine ⟨?_, ?_⟩
  · simp [decodeHelmWord, decodeShort, decodeInteger, integerOps, wMajor, wD, wA, wB, wFn, wSub, wX, wImm, zeroThen, bitsOf_bitsOf, bitOf_eq, z0, q_m, q_fn, q_b, q_a, q_d, checked_of hf]
  · simpa [helmBytes, bitOf_eq, z0] using hb

theorem slt (d : GReg) (a : GReg) (b : GReg) : Statement (.slt d a b) := by
  refine ⟨fun w hf hw => ?_, fun w _ hw => by simp [strandWord] at hw⟩
  simp only [helmWord, Option.some.injEq] at hw
  obtain ⟨z0, q_m, q_fn, q_b, q_a, q_d, hb⟩ := packHR_fields (show (0x01 : Nat) < 2 ^ 7 by decide) (show (0x13 : Nat) < 2 ^ 6 by decide) b.isLt a.isLt d.isLt
  rw [hw] at z0 q_m q_fn q_b q_a q_d hb
  refine ⟨?_, ?_⟩
  · simp [decodeHelmWord, decodeShort, decodeInteger, integerOps, wMajor, wD, wA, wB, wFn, wSub, wX, wImm, zeroThen, bitsOf_bitsOf, bitOf_eq, z0, q_m, q_fn, q_b, q_a, q_d, checked_of hf]
  · simpa [helmBytes, bitOf_eq, z0] using hb

theorem sltu (d : GReg) (a : GReg) (b : GReg) : Statement (.sltu d a b) := by
  refine ⟨fun w hf hw => ?_, fun w _ hw => by simp [strandWord] at hw⟩
  simp only [helmWord, Option.some.injEq] at hw
  obtain ⟨z0, q_m, q_fn, q_b, q_a, q_d, hb⟩ := packHR_fields (show (0x01 : Nat) < 2 ^ 7 by decide) (show (0x14 : Nat) < 2 ^ 6 by decide) b.isLt a.isLt d.isLt
  rw [hw] at z0 q_m q_fn q_b q_a q_d hb
  refine ⟨?_, ?_⟩
  · simp [decodeHelmWord, decodeShort, decodeInteger, integerOps, wMajor, wD, wA, wB, wFn, wSub, wX, wImm, zeroThen, bitsOf_bitsOf, bitOf_eq, z0, q_m, q_fn, q_b, q_a, q_d, checked_of hf]
  · simpa [helmBytes, bitOf_eq, z0] using hb

theorem clz (d : GReg) (a : GReg) : Statement (.clz d a) := by
  refine ⟨fun w hf hw => ?_, fun w _ hw => by simp [strandWord] at hw⟩
  simp only [helmWord, Option.some.injEq] at hw
  obtain ⟨z0, q_m, q_fn, q_b, q_a, q_d, hb⟩ := packHR_fields (show (0x01 : Nat) < 2 ^ 7 by decide) (show (0x15 : Nat) < 2 ^ 6 by decide) (show (0 : Nat) < 2 ^ 6 by decide) a.isLt d.isLt
  rw [hw] at z0 q_m q_fn q_b q_a q_d hb
  refine ⟨?_, ?_⟩
  · simp [decodeHelmWord, decodeShort, decodeInteger, integerOps, wMajor, wD, wA, wB, wFn, wSub, wX, wImm, zeroThen, bitsOf_bitsOf, bitOf_eq, z0, q_m, q_fn, q_b, q_a, q_d, checked_of hf]
  · simpa [helmBytes, bitOf_eq, z0] using hb

theorem popc (d : GReg) (a : GReg) : Statement (.popc d a) := by
  refine ⟨fun w hf hw => ?_, fun w _ hw => by simp [strandWord] at hw⟩
  simp only [helmWord, Option.some.injEq] at hw
  obtain ⟨z0, q_m, q_fn, q_b, q_a, q_d, hb⟩ := packHR_fields (show (0x01 : Nat) < 2 ^ 7 by decide) (show (0x16 : Nat) < 2 ^ 6 by decide) (show (0 : Nat) < 2 ^ 6 by decide) a.isLt d.isLt
  rw [hw] at z0 q_m q_fn q_b q_a q_d hb
  refine ⟨?_, ?_⟩
  · simp [decodeHelmWord, decodeShort, decodeInteger, integerOps, wMajor, wD, wA, wB, wFn, wSub, wX, wImm, zeroThen, bitsOf_bitsOf, bitOf_eq, z0, q_m, q_fn, q_b, q_a, q_d, checked_of hf]
  · simpa [helmBytes, bitOf_eq, z0] using hb

theorem bext (d : GReg) (a : GReg) (b : GReg) : Statement (.bext d a b) := by
  refine ⟨fun w hf hw => ?_, fun w _ hw => by simp [strandWord] at hw⟩
  simp only [helmWord, Option.some.injEq] at hw
  obtain ⟨z0, q_m, q_fn, q_b, q_a, q_d, hb⟩ := packHR_fields (show (0x01 : Nat) < 2 ^ 7 by decide) (show (0x17 : Nat) < 2 ^ 6 by decide) b.isLt a.isLt d.isLt
  rw [hw] at z0 q_m q_fn q_b q_a q_d hb
  refine ⟨?_, ?_⟩
  · simp [decodeHelmWord, decodeShort, decodeInteger, integerOps, wMajor, wD, wA, wB, wFn, wSub, wX, wImm, zeroThen, bitsOf_bitsOf, bitOf_eq, z0, q_m, q_fn, q_b, q_a, q_d, checked_of hf]
  · simpa [helmBytes, bitOf_eq, z0] using hb

theorem bins (d : GReg) (a : GReg) (b : GReg) : Statement (.bins d a b) := by
  refine ⟨fun w hf hw => ?_, fun w _ hw => by simp [strandWord] at hw⟩
  simp only [helmWord, Option.some.injEq] at hw
  obtain ⟨z0, q_m, q_fn, q_b, q_a, q_d, hb⟩ := packHR_fields (show (0x01 : Nat) < 2 ^ 7 by decide) (show (0x18 : Nat) < 2 ^ 6 by decide) b.isLt a.isLt d.isLt
  rw [hw] at z0 q_m q_fn q_b q_a q_d hb
  refine ⟨?_, ?_⟩
  · simp [decodeHelmWord, decodeShort, decodeInteger, integerOps, wMajor, wD, wA, wB, wFn, wSub, wX, wImm, zeroThen, bitsOf_bitsOf, bitOf_eq, z0, q_m, q_fn, q_b, q_a, q_d, checked_of hf]
  · simpa [helmBytes, bitOf_eq, z0] using hb

theorem addi (d : GReg) (a : GReg) (imm : BitVec 12) : Statement (.addi d a imm) := by
  refine ⟨fun w hf hw => ?_, fun w _ hw => by simp [strandWord] at hw⟩
  simp only [helmWord, Option.some.injEq] at hw
  obtain ⟨z0, q_m, q_imm, q_a, q_d, hb⟩ := packHI_fields (show (0x02 : Nat) < 2 ^ 7 by decide) imm.isLt a.isLt d.isLt
  rw [hw] at z0 q_m q_imm q_a q_d hb
  refine ⟨?_, ?_⟩
  · simp [decodeHelmWord, decodeShort, wMajor, wD, wA, wB, wFn, wSub, wX, wImm, zeroThen, bitsOf_bitsOf, bitOf_eq, z0, q_m, q_imm, q_a, q_d, checked_of hf]
  · simpa [helmBytes, bitOf_eq, z0] using hb

theorem andi (d : GReg) (a : GReg) (imm : BitVec 12) : Statement (.andi d a imm) := by
  refine ⟨fun w hf hw => ?_, fun w _ hw => by simp [strandWord] at hw⟩
  simp only [helmWord, Option.some.injEq] at hw
  obtain ⟨z0, q_m, q_imm, q_a, q_d, hb⟩ := packHI_fields (show (0x03 : Nat) < 2 ^ 7 by decide) imm.isLt a.isLt d.isLt
  rw [hw] at z0 q_m q_imm q_a q_d hb
  refine ⟨?_, ?_⟩
  · simp [decodeHelmWord, decodeShort, wMajor, wD, wA, wB, wFn, wSub, wX, wImm, zeroThen, bitsOf_bitsOf, bitOf_eq, z0, q_m, q_imm, q_a, q_d, checked_of hf]
  · simpa [helmBytes, bitOf_eq, z0] using hb

theorem ori (d : GReg) (a : GReg) (imm : BitVec 12) : Statement (.ori d a imm) := by
  refine ⟨fun w hf hw => ?_, fun w _ hw => by simp [strandWord] at hw⟩
  simp only [helmWord, Option.some.injEq] at hw
  obtain ⟨z0, q_m, q_imm, q_a, q_d, hb⟩ := packHI_fields (show (0x04 : Nat) < 2 ^ 7 by decide) imm.isLt a.isLt d.isLt
  rw [hw] at z0 q_m q_imm q_a q_d hb
  refine ⟨?_, ?_⟩
  · simp [decodeHelmWord, decodeShort, wMajor, wD, wA, wB, wFn, wSub, wX, wImm, zeroThen, bitsOf_bitsOf, bitOf_eq, z0, q_m, q_imm, q_a, q_d, checked_of hf]
  · simpa [helmBytes, bitOf_eq, z0] using hb

theorem xori (d : GReg) (a : GReg) (imm : BitVec 12) : Statement (.xori d a imm) := by
  refine ⟨fun w hf hw => ?_, fun w _ hw => by simp [strandWord] at hw⟩
  simp only [helmWord, Option.some.injEq] at hw
  obtain ⟨z0, q_m, q_imm, q_a, q_d, hb⟩ := packHI_fields (show (0x05 : Nat) < 2 ^ 7 by decide) imm.isLt a.isLt d.isLt
  rw [hw] at z0 q_m q_imm q_a q_d hb
  refine ⟨?_, ?_⟩
  · simp [decodeHelmWord, decodeShort, wMajor, wD, wA, wB, wFn, wSub, wX, wImm, zeroThen, bitsOf_bitsOf, bitOf_eq, z0, q_m, q_imm, q_a, q_d, checked_of hf]
  · simpa [helmBytes, bitOf_eq, z0] using hb

theorem slti (d : GReg) (a : GReg) (imm : BitVec 12) : Statement (.slti d a imm) := by
  refine ⟨fun w hf hw => ?_, fun w _ hw => by simp [strandWord] at hw⟩
  simp only [helmWord, Option.some.injEq] at hw
  obtain ⟨z0, q_m, q_imm, q_a, q_d, hb⟩ := packHI_fields (show (0x07 : Nat) < 2 ^ 7 by decide) imm.isLt a.isLt d.isLt
  rw [hw] at z0 q_m q_imm q_a q_d hb
  refine ⟨?_, ?_⟩
  · simp [decodeHelmWord, decodeShort, wMajor, wD, wA, wB, wFn, wSub, wX, wImm, zeroThen, bitsOf_bitsOf, bitOf_eq, z0, q_m, q_imm, q_a, q_d, checked_of hf]
  · simpa [helmBytes, bitOf_eq, z0] using hb

theorem shli (d : GReg) (a : GReg) (n : BitVec 6) : Statement (.shli d a n) := by
  refine ⟨fun w hf hw => ?_, fun w _ hw => by simp [strandWord] at hw⟩
  simp only [helmWord, Option.some.injEq] at hw
  obtain ⟨b_imm, s_25_20, s_31_28, s_27_26⟩ : (n.toNat + 0 * 2 ^ 6) < 2 ^ 12 ∧ bitsOf ((n.toNat + 0 * 2 ^ 6)) 5 0 = n.toNat ∧ bitsOf ((n.toNat + 0 * 2 ^ 6)) 11 8 = 0 ∧ bitsOf ((n.toNat + 0 * 2 ^ 6)) 7 6 = 0 := by
    have hn0 : n.toNat < 64 := n.isLt
    clear hw hf
    generalize n.toNat = n0 at hn0 ⊢
    simp only [bitsOf]
    exact ⟨by omega, by omega, by omega, by omega⟩
  obtain ⟨z0, q_m, q_imm, q_a, q_d, hb⟩ := packHI_fields (show (0x06 : Nat) < 2 ^ 7 by decide) b_imm a.isLt d.isLt
  rw [hw] at z0 q_m q_imm q_a q_d hb
  have t_25_20 : bitsOf w 25 20 = n.toNat := by rw [← bitsOf_bitsOf w 31 20 5 0 (by decide), q_imm]; exact s_25_20
  have t_31_28 : bitsOf w 31 28 = 0 := by rw [← bitsOf_bitsOf w 31 20 11 8 (by decide), q_imm]; exact s_31_28
  have t_27_26 : bitsOf w 27 26 = 0 := by rw [← bitsOf_bitsOf w 31 20 7 6 (by decide), q_imm]; exact s_27_26
  have u_25_20 : bitsOf ((n.toNat)) 5 0 = n.toNat := by simpa only [Nat.zero_mul, Nat.add_zero] using s_25_20
  have u_31_28 : bitsOf ((n.toNat)) 11 8 = 0 := by simpa only [Nat.zero_mul, Nat.add_zero] using s_31_28
  have u_27_26 : bitsOf ((n.toNat)) 7 6 = 0 := by simpa only [Nat.zero_mul, Nat.add_zero] using s_27_26
  refine ⟨?_, ?_⟩
  · simp [decodeHelmWord, decodeShort, decodeShift, wMajor, wD, wA, wB, wFn, wSub, wX, wImm, zeroThen, bitsOf_bitsOf, bitOf_eq, z0, q_m, q_imm, q_a, q_d, t_25_20, s_25_20, t_31_28, s_31_28, t_27_26, s_27_26, u_25_20, u_31_28, u_27_26, checked_of hf]
  · simpa [helmBytes, bitOf_eq, z0] using hb

theorem shri (d : GReg) (a : GReg) (n : BitVec 6) : Statement (.shri d a n) := by
  refine ⟨fun w hf hw => ?_, fun w _ hw => by simp [strandWord] at hw⟩
  simp only [helmWord, Option.some.injEq] at hw
  obtain ⟨b_imm, s_25_20, s_31_28, s_27_26⟩ : (n.toNat + 1 * 2 ^ 6) < 2 ^ 12 ∧ bitsOf ((n.toNat + 1 * 2 ^ 6)) 5 0 = n.toNat ∧ bitsOf ((n.toNat + 1 * 2 ^ 6)) 11 8 = 0 ∧ bitsOf ((n.toNat + 1 * 2 ^ 6)) 7 6 = 1 := by
    have hn0 : n.toNat < 64 := n.isLt
    clear hw hf
    generalize n.toNat = n0 at hn0 ⊢
    simp only [bitsOf]
    exact ⟨by omega, by omega, by omega, by omega⟩
  obtain ⟨z0, q_m, q_imm, q_a, q_d, hb⟩ := packHI_fields (show (0x06 : Nat) < 2 ^ 7 by decide) b_imm a.isLt d.isLt
  rw [hw] at z0 q_m q_imm q_a q_d hb
  have t_25_20 : bitsOf w 25 20 = n.toNat := by rw [← bitsOf_bitsOf w 31 20 5 0 (by decide), q_imm]; exact s_25_20
  have t_31_28 : bitsOf w 31 28 = 0 := by rw [← bitsOf_bitsOf w 31 20 11 8 (by decide), q_imm]; exact s_31_28
  have t_27_26 : bitsOf w 27 26 = 1 := by rw [← bitsOf_bitsOf w 31 20 7 6 (by decide), q_imm]; exact s_27_26
  refine ⟨?_, ?_⟩
  · simp [decodeHelmWord, decodeShort, decodeShift, wMajor, wD, wA, wB, wFn, wSub, wX, wImm, zeroThen, bitsOf_bitsOf, bitOf_eq, z0, q_m, q_imm, q_a, q_d, t_25_20, s_25_20, t_31_28, s_31_28, t_27_26, s_27_26, checked_of hf]
  · simpa [helmBytes, bitOf_eq, z0] using hb

theorem shai (d : GReg) (a : GReg) (n : BitVec 6) : Statement (.shai d a n) := by
  refine ⟨fun w hf hw => ?_, fun w _ hw => by simp [strandWord] at hw⟩
  simp only [helmWord, Option.some.injEq] at hw
  obtain ⟨b_imm, s_25_20, s_31_28, s_27_26⟩ : (n.toNat + 2 * 2 ^ 6) < 2 ^ 12 ∧ bitsOf ((n.toNat + 2 * 2 ^ 6)) 5 0 = n.toNat ∧ bitsOf ((n.toNat + 2 * 2 ^ 6)) 11 8 = 0 ∧ bitsOf ((n.toNat + 2 * 2 ^ 6)) 7 6 = 2 := by
    have hn0 : n.toNat < 64 := n.isLt
    clear hw hf
    generalize n.toNat = n0 at hn0 ⊢
    simp only [bitsOf]
    exact ⟨by omega, by omega, by omega, by omega⟩
  obtain ⟨z0, q_m, q_imm, q_a, q_d, hb⟩ := packHI_fields (show (0x06 : Nat) < 2 ^ 7 by decide) b_imm a.isLt d.isLt
  rw [hw] at z0 q_m q_imm q_a q_d hb
  have t_25_20 : bitsOf w 25 20 = n.toNat := by rw [← bitsOf_bitsOf w 31 20 5 0 (by decide), q_imm]; exact s_25_20
  have t_31_28 : bitsOf w 31 28 = 0 := by rw [← bitsOf_bitsOf w 31 20 11 8 (by decide), q_imm]; exact s_31_28
  have t_27_26 : bitsOf w 27 26 = 2 := by rw [← bitsOf_bitsOf w 31 20 7 6 (by decide), q_imm]; exact s_27_26
  refine ⟨?_, ?_⟩
  · simp [decodeHelmWord, decodeShort, decodeShift, wMajor, wD, wA, wB, wFn, wSub, wX, wImm, zeroThen, bitsOf_bitsOf, bitOf_eq, z0, q_m, q_imm, q_a, q_d, t_25_20, s_25_20, t_31_28, s_31_28, t_27_26, s_27_26, checked_of hf]
  · simpa [helmBytes, bitOf_eq, z0] using hb

theorem fadd (p : Bool) (d : GReg) (a : GReg) (b : GReg) : Statement (.fadd p d a b) := by
  refine ⟨fun w hf hw => ?_, fun w _ hw => by simp [strandWord] at hw⟩
  simp only [helmWord, Option.some.injEq] at hw
  obtain ⟨b_fn, s_31_31, s_30_26⟩ : (0x00 + b2n p * 2 ^ 5) < 2 ^ 6 ∧ bitsOf ((0x00 + b2n p * 2 ^ 5)) 5 5 = b2n p ∧ bitsOf ((0x00 + b2n p * 2 ^ 5)) 4 0 = 0 := by
    have hn0 : b2n p < 2 := b2n_lt _
    clear hw hf
    generalize b2n p = n0 at hn0 ⊢
    simp only [bitsOf]
    exact ⟨by omega, by omega, by omega⟩
  obtain ⟨z0, q_m, q_fn, q_b, q_a, q_d, hb⟩ := packHR_fields (show (0x08 : Nat) < 2 ^ 7 by decide) b_fn b.isLt a.isLt d.isLt
  rw [hw] at z0 q_m q_fn q_b q_a q_d hb
  have t_31_31 : bitsOf w 31 31 = b2n p := by rw [← bitsOf_bitsOf w 31 26 5 5 (by decide), q_fn]; exact s_31_31
  have t_30_26 : bitsOf w 30 26 = 0 := by rw [← bitsOf_bitsOf w 31 26 4 0 (by decide), q_fn]; exact s_30_26
  refine ⟨?_, ?_⟩
  · simp [decodeHelmWord, decodeShort, decodeFloat, wMajor, wD, wA, wB, wFn, wSub, wX, wImm, zeroThen, bitsOf_bitsOf, bitOf_eq, z0, q_m, q_fn, q_b, q_a, q_d, t_31_31, s_31_31, t_30_26, s_30_26, checked_of hf]
  · simpa [helmBytes, bitOf_eq, z0] using hb

theorem fsub (p : Bool) (d : GReg) (a : GReg) (b : GReg) : Statement (.fsub p d a b) := by
  refine ⟨fun w hf hw => ?_, fun w _ hw => by simp [strandWord] at hw⟩
  simp only [helmWord, Option.some.injEq] at hw
  obtain ⟨b_fn, s_31_31, s_30_26⟩ : (0x01 + b2n p * 2 ^ 5) < 2 ^ 6 ∧ bitsOf ((0x01 + b2n p * 2 ^ 5)) 5 5 = b2n p ∧ bitsOf ((0x01 + b2n p * 2 ^ 5)) 4 0 = 1 := by
    have hn0 : b2n p < 2 := b2n_lt _
    clear hw hf
    generalize b2n p = n0 at hn0 ⊢
    simp only [bitsOf]
    exact ⟨by omega, by omega, by omega⟩
  obtain ⟨z0, q_m, q_fn, q_b, q_a, q_d, hb⟩ := packHR_fields (show (0x08 : Nat) < 2 ^ 7 by decide) b_fn b.isLt a.isLt d.isLt
  rw [hw] at z0 q_m q_fn q_b q_a q_d hb
  have t_31_31 : bitsOf w 31 31 = b2n p := by rw [← bitsOf_bitsOf w 31 26 5 5 (by decide), q_fn]; exact s_31_31
  have t_30_26 : bitsOf w 30 26 = 1 := by rw [← bitsOf_bitsOf w 31 26 4 0 (by decide), q_fn]; exact s_30_26
  refine ⟨?_, ?_⟩
  · simp [decodeHelmWord, decodeShort, decodeFloat, wMajor, wD, wA, wB, wFn, wSub, wX, wImm, zeroThen, bitsOf_bitsOf, bitOf_eq, z0, q_m, q_fn, q_b, q_a, q_d, t_31_31, s_31_31, t_30_26, s_30_26, checked_of hf]
  · simpa [helmBytes, bitOf_eq, z0] using hb

theorem fmul (p : Bool) (d : GReg) (a : GReg) (b : GReg) : Statement (.fmul p d a b) := by
  refine ⟨fun w hf hw => ?_, fun w _ hw => by simp [strandWord] at hw⟩
  simp only [helmWord, Option.some.injEq] at hw
  obtain ⟨b_fn, s_31_31, s_30_26⟩ : (0x02 + b2n p * 2 ^ 5) < 2 ^ 6 ∧ bitsOf ((0x02 + b2n p * 2 ^ 5)) 5 5 = b2n p ∧ bitsOf ((0x02 + b2n p * 2 ^ 5)) 4 0 = 2 := by
    have hn0 : b2n p < 2 := b2n_lt _
    clear hw hf
    generalize b2n p = n0 at hn0 ⊢
    simp only [bitsOf]
    exact ⟨by omega, by omega, by omega⟩
  obtain ⟨z0, q_m, q_fn, q_b, q_a, q_d, hb⟩ := packHR_fields (show (0x08 : Nat) < 2 ^ 7 by decide) b_fn b.isLt a.isLt d.isLt
  rw [hw] at z0 q_m q_fn q_b q_a q_d hb
  have t_31_31 : bitsOf w 31 31 = b2n p := by rw [← bitsOf_bitsOf w 31 26 5 5 (by decide), q_fn]; exact s_31_31
  have t_30_26 : bitsOf w 30 26 = 2 := by rw [← bitsOf_bitsOf w 31 26 4 0 (by decide), q_fn]; exact s_30_26
  refine ⟨?_, ?_⟩
  · simp [decodeHelmWord, decodeShort, decodeFloat, wMajor, wD, wA, wB, wFn, wSub, wX, wImm, zeroThen, bitsOf_bitsOf, bitOf_eq, z0, q_m, q_fn, q_b, q_a, q_d, t_31_31, s_31_31, t_30_26, s_30_26, checked_of hf]
  · simpa [helmBytes, bitOf_eq, z0] using hb

theorem fdiv (p : Bool) (d : GReg) (a : GReg) (b : GReg) : Statement (.fdiv p d a b) := by
  refine ⟨fun w hf hw => ?_, fun w _ hw => by simp [strandWord] at hw⟩
  simp only [helmWord, Option.some.injEq] at hw
  obtain ⟨b_fn, s_31_31, s_30_26⟩ : (0x03 + b2n p * 2 ^ 5) < 2 ^ 6 ∧ bitsOf ((0x03 + b2n p * 2 ^ 5)) 5 5 = b2n p ∧ bitsOf ((0x03 + b2n p * 2 ^ 5)) 4 0 = 3 := by
    have hn0 : b2n p < 2 := b2n_lt _
    clear hw hf
    generalize b2n p = n0 at hn0 ⊢
    simp only [bitsOf]
    exact ⟨by omega, by omega, by omega⟩
  obtain ⟨z0, q_m, q_fn, q_b, q_a, q_d, hb⟩ := packHR_fields (show (0x08 : Nat) < 2 ^ 7 by decide) b_fn b.isLt a.isLt d.isLt
  rw [hw] at z0 q_m q_fn q_b q_a q_d hb
  have t_31_31 : bitsOf w 31 31 = b2n p := by rw [← bitsOf_bitsOf w 31 26 5 5 (by decide), q_fn]; exact s_31_31
  have t_30_26 : bitsOf w 30 26 = 3 := by rw [← bitsOf_bitsOf w 31 26 4 0 (by decide), q_fn]; exact s_30_26
  refine ⟨?_, ?_⟩
  · simp [decodeHelmWord, decodeShort, decodeFloat, wMajor, wD, wA, wB, wFn, wSub, wX, wImm, zeroThen, bitsOf_bitsOf, bitOf_eq, z0, q_m, q_fn, q_b, q_a, q_d, t_31_31, s_31_31, t_30_26, s_30_26, checked_of hf]
  · simpa [helmBytes, bitOf_eq, z0] using hb

theorem fsqrt (p : Bool) (d : GReg) (a : GReg) : Statement (.fsqrt p d a) := by
  refine ⟨fun w hf hw => ?_, fun w _ hw => by simp [strandWord] at hw⟩
  simp only [helmWord, Option.some.injEq] at hw
  obtain ⟨b_fn, s_31_31, s_30_26⟩ : (0x04 + b2n p * 2 ^ 5) < 2 ^ 6 ∧ bitsOf ((0x04 + b2n p * 2 ^ 5)) 5 5 = b2n p ∧ bitsOf ((0x04 + b2n p * 2 ^ 5)) 4 0 = 4 := by
    have hn0 : b2n p < 2 := b2n_lt _
    clear hw hf
    generalize b2n p = n0 at hn0 ⊢
    simp only [bitsOf]
    exact ⟨by omega, by omega, by omega⟩
  obtain ⟨b_b, s_22_20, s_25_23⟩ : 0 < 2 ^ 6 ∧ bitsOf (0) 2 0 = 0 ∧ bitsOf (0) 5 3 = 0 := by
    decide
  obtain ⟨z0, q_m, q_fn, q_b, q_a, q_d, hb⟩ := packHR_fields (show (0x08 : Nat) < 2 ^ 7 by decide) b_fn (show (0 : Nat) < 2 ^ 6 by decide) a.isLt d.isLt
  rw [hw] at z0 q_m q_fn q_b q_a q_d hb
  have t_31_31 : bitsOf w 31 31 = b2n p := by rw [← bitsOf_bitsOf w 31 26 5 5 (by decide), q_fn]; exact s_31_31
  have t_22_20 : bitsOf w 22 20 = 0 := by rw [← bitsOf_bitsOf w 25 20 2 0 (by decide), q_b]; exact s_22_20
  have t_25_23 : bitsOf w 25 23 = 0 := by rw [← bitsOf_bitsOf w 25 20 5 3 (by decide), q_b]; exact s_25_23
  have t_30_26 : bitsOf w 30 26 = 4 := by rw [← bitsOf_bitsOf w 31 26 4 0 (by decide), q_fn]; exact s_30_26
  refine ⟨?_, ?_⟩
  · simp [decodeHelmWord, decodeShort, decodeFloat, wMajor, wD, wA, wB, wFn, wSub, wX, wImm, zeroThen, bitsOf_bitsOf, bitOf_eq, z0, q_m, q_fn, q_b, q_a, q_d, t_31_31, s_31_31, t_22_20, s_22_20, t_25_23, s_25_23, t_30_26, s_30_26, checked_of hf]
  · simpa [helmBytes, bitOf_eq, z0] using hb

theorem fmin (p : Bool) (d : GReg) (a : GReg) (b : GReg) : Statement (.fmin p d a b) := by
  refine ⟨fun w hf hw => ?_, fun w _ hw => by simp [strandWord] at hw⟩
  simp only [helmWord, Option.some.injEq] at hw
  obtain ⟨b_fn, s_31_31, s_30_26⟩ : (0x05 + b2n p * 2 ^ 5) < 2 ^ 6 ∧ bitsOf ((0x05 + b2n p * 2 ^ 5)) 5 5 = b2n p ∧ bitsOf ((0x05 + b2n p * 2 ^ 5)) 4 0 = 5 := by
    have hn0 : b2n p < 2 := b2n_lt _
    clear hw hf
    generalize b2n p = n0 at hn0 ⊢
    simp only [bitsOf]
    exact ⟨by omega, by omega, by omega⟩
  obtain ⟨z0, q_m, q_fn, q_b, q_a, q_d, hb⟩ := packHR_fields (show (0x08 : Nat) < 2 ^ 7 by decide) b_fn b.isLt a.isLt d.isLt
  rw [hw] at z0 q_m q_fn q_b q_a q_d hb
  have t_31_31 : bitsOf w 31 31 = b2n p := by rw [← bitsOf_bitsOf w 31 26 5 5 (by decide), q_fn]; exact s_31_31
  have t_30_26 : bitsOf w 30 26 = 5 := by rw [← bitsOf_bitsOf w 31 26 4 0 (by decide), q_fn]; exact s_30_26
  refine ⟨?_, ?_⟩
  · simp [decodeHelmWord, decodeShort, decodeFloat, wMajor, wD, wA, wB, wFn, wSub, wX, wImm, zeroThen, bitsOf_bitsOf, bitOf_eq, z0, q_m, q_fn, q_b, q_a, q_d, t_31_31, s_31_31, t_30_26, s_30_26, checked_of hf]
  · simpa [helmBytes, bitOf_eq, z0] using hb

theorem fmax (p : Bool) (d : GReg) (a : GReg) (b : GReg) : Statement (.fmax p d a b) := by
  refine ⟨fun w hf hw => ?_, fun w _ hw => by simp [strandWord] at hw⟩
  simp only [helmWord, Option.some.injEq] at hw
  obtain ⟨b_fn, s_31_31, s_30_26⟩ : (0x06 + b2n p * 2 ^ 5) < 2 ^ 6 ∧ bitsOf ((0x06 + b2n p * 2 ^ 5)) 5 5 = b2n p ∧ bitsOf ((0x06 + b2n p * 2 ^ 5)) 4 0 = 6 := by
    have hn0 : b2n p < 2 := b2n_lt _
    clear hw hf
    generalize b2n p = n0 at hn0 ⊢
    simp only [bitsOf]
    exact ⟨by omega, by omega, by omega⟩
  obtain ⟨z0, q_m, q_fn, q_b, q_a, q_d, hb⟩ := packHR_fields (show (0x08 : Nat) < 2 ^ 7 by decide) b_fn b.isLt a.isLt d.isLt
  rw [hw] at z0 q_m q_fn q_b q_a q_d hb
  have t_31_31 : bitsOf w 31 31 = b2n p := by rw [← bitsOf_bitsOf w 31 26 5 5 (by decide), q_fn]; exact s_31_31
  have t_30_26 : bitsOf w 30 26 = 6 := by rw [← bitsOf_bitsOf w 31 26 4 0 (by decide), q_fn]; exact s_30_26
  refine ⟨?_, ?_⟩
  · simp [decodeHelmWord, decodeShort, decodeFloat, wMajor, wD, wA, wB, wFn, wSub, wX, wImm, zeroThen, bitsOf_bitsOf, bitOf_eq, z0, q_m, q_fn, q_b, q_a, q_d, t_31_31, s_31_31, t_30_26, s_30_26, checked_of hf]
  · simpa [helmBytes, bitOf_eq, z0] using hb

theorem fclass (p : Bool) (d : GReg) (a : GReg) : Statement (.fclass p d a) := by
  refine ⟨fun w hf hw => ?_, fun w _ hw => by simp [strandWord] at hw⟩
  simp only [helmWord, Option.some.injEq] at hw
  obtain ⟨b_fn, s_31_31, s_30_26⟩ : (0x07 + b2n p * 2 ^ 5) < 2 ^ 6 ∧ bitsOf ((0x07 + b2n p * 2 ^ 5)) 5 5 = b2n p ∧ bitsOf ((0x07 + b2n p * 2 ^ 5)) 4 0 = 7 := by
    have hn0 : b2n p < 2 := b2n_lt _
    clear hw hf
    generalize b2n p = n0 at hn0 ⊢
    simp only [bitsOf]
    exact ⟨by omega, by omega, by omega⟩
  obtain ⟨b_b, s_22_20, s_25_23⟩ : 0 < 2 ^ 6 ∧ bitsOf (0) 2 0 = 0 ∧ bitsOf (0) 5 3 = 0 := by
    decide
  obtain ⟨z0, q_m, q_fn, q_b, q_a, q_d, hb⟩ := packHR_fields (show (0x08 : Nat) < 2 ^ 7 by decide) b_fn (show (0 : Nat) < 2 ^ 6 by decide) a.isLt d.isLt
  rw [hw] at z0 q_m q_fn q_b q_a q_d hb
  have t_31_31 : bitsOf w 31 31 = b2n p := by rw [← bitsOf_bitsOf w 31 26 5 5 (by decide), q_fn]; exact s_31_31
  have t_22_20 : bitsOf w 22 20 = 0 := by rw [← bitsOf_bitsOf w 25 20 2 0 (by decide), q_b]; exact s_22_20
  have t_25_23 : bitsOf w 25 23 = 0 := by rw [← bitsOf_bitsOf w 25 20 5 3 (by decide), q_b]; exact s_25_23
  have t_30_26 : bitsOf w 30 26 = 7 := by rw [← bitsOf_bitsOf w 31 26 4 0 (by decide), q_fn]; exact s_30_26
  refine ⟨?_, ?_⟩
  · simp [decodeHelmWord, decodeShort, decodeFloat, wMajor, wD, wA, wB, wFn, wSub, wX, wImm, zeroThen, bitsOf_bitsOf, bitOf_eq, z0, q_m, q_fn, q_b, q_a, q_d, t_31_31, s_31_31, t_22_20, s_22_20, t_25_23, s_25_23, t_30_26, s_30_26, checked_of hf]
  · simpa [helmBytes, bitOf_eq, z0] using hb

theorem fcmpEq (p : Bool) (d : GReg) (a : GReg) (b : GReg) : Statement (.fcmpEq p d a b) := by
  refine ⟨fun w hf hw => ?_, fun w _ hw => by simp [strandWord] at hw⟩
  simp only [helmWord, Option.some.injEq] at hw
  obtain ⟨b_fn, s_31_31, s_30_26⟩ : (0x08 + b2n p * 2 ^ 5) < 2 ^ 6 ∧ bitsOf ((0x08 + b2n p * 2 ^ 5)) 5 5 = b2n p ∧ bitsOf ((0x08 + b2n p * 2 ^ 5)) 4 0 = 8 := by
    have hn0 : b2n p < 2 := b2n_lt _
    clear hw hf
    generalize b2n p = n0 at hn0 ⊢
    simp only [bitsOf]
    exact ⟨by omega, by omega, by omega⟩
  obtain ⟨z0, q_m, q_fn, q_b, q_a, q_d, hb⟩ := packHR_fields (show (0x08 : Nat) < 2 ^ 7 by decide) b_fn b.isLt a.isLt d.isLt
  rw [hw] at z0 q_m q_fn q_b q_a q_d hb
  have t_31_31 : bitsOf w 31 31 = b2n p := by rw [← bitsOf_bitsOf w 31 26 5 5 (by decide), q_fn]; exact s_31_31
  have t_30_26 : bitsOf w 30 26 = 8 := by rw [← bitsOf_bitsOf w 31 26 4 0 (by decide), q_fn]; exact s_30_26
  refine ⟨?_, ?_⟩
  · simp [decodeHelmWord, decodeShort, decodeFloat, wMajor, wD, wA, wB, wFn, wSub, wX, wImm, zeroThen, bitsOf_bitsOf, bitOf_eq, z0, q_m, q_fn, q_b, q_a, q_d, t_31_31, s_31_31, t_30_26, s_30_26, checked_of hf]
  · simpa [helmBytes, bitOf_eq, z0] using hb

theorem fcmpLt (p : Bool) (d : GReg) (a : GReg) (b : GReg) : Statement (.fcmpLt p d a b) := by
  refine ⟨fun w hf hw => ?_, fun w _ hw => by simp [strandWord] at hw⟩
  simp only [helmWord, Option.some.injEq] at hw
  obtain ⟨b_fn, s_31_31, s_30_26⟩ : (0x09 + b2n p * 2 ^ 5) < 2 ^ 6 ∧ bitsOf ((0x09 + b2n p * 2 ^ 5)) 5 5 = b2n p ∧ bitsOf ((0x09 + b2n p * 2 ^ 5)) 4 0 = 9 := by
    have hn0 : b2n p < 2 := b2n_lt _
    clear hw hf
    generalize b2n p = n0 at hn0 ⊢
    simp only [bitsOf]
    exact ⟨by omega, by omega, by omega⟩
  obtain ⟨z0, q_m, q_fn, q_b, q_a, q_d, hb⟩ := packHR_fields (show (0x08 : Nat) < 2 ^ 7 by decide) b_fn b.isLt a.isLt d.isLt
  rw [hw] at z0 q_m q_fn q_b q_a q_d hb
  have t_31_31 : bitsOf w 31 31 = b2n p := by rw [← bitsOf_bitsOf w 31 26 5 5 (by decide), q_fn]; exact s_31_31
  have t_30_26 : bitsOf w 30 26 = 9 := by rw [← bitsOf_bitsOf w 31 26 4 0 (by decide), q_fn]; exact s_30_26
  refine ⟨?_, ?_⟩
  · simp [decodeHelmWord, decodeShort, decodeFloat, wMajor, wD, wA, wB, wFn, wSub, wX, wImm, zeroThen, bitsOf_bitsOf, bitOf_eq, z0, q_m, q_fn, q_b, q_a, q_d, t_31_31, s_31_31, t_30_26, s_30_26, checked_of hf]
  · simpa [helmBytes, bitOf_eq, z0] using hb

theorem fcmpLe (p : Bool) (d : GReg) (a : GReg) (b : GReg) : Statement (.fcmpLe p d a b) := by
  refine ⟨fun w hf hw => ?_, fun w _ hw => by simp [strandWord] at hw⟩
  simp only [helmWord, Option.some.injEq] at hw
  obtain ⟨b_fn, s_31_31, s_30_26⟩ : (0x0A + b2n p * 2 ^ 5) < 2 ^ 6 ∧ bitsOf ((0x0A + b2n p * 2 ^ 5)) 5 5 = b2n p ∧ bitsOf ((0x0A + b2n p * 2 ^ 5)) 4 0 = 10 := by
    have hn0 : b2n p < 2 := b2n_lt _
    clear hw hf
    generalize b2n p = n0 at hn0 ⊢
    simp only [bitsOf]
    exact ⟨by omega, by omega, by omega⟩
  obtain ⟨z0, q_m, q_fn, q_b, q_a, q_d, hb⟩ := packHR_fields (show (0x08 : Nat) < 2 ^ 7 by decide) b_fn b.isLt a.isLt d.isLt
  rw [hw] at z0 q_m q_fn q_b q_a q_d hb
  have t_31_31 : bitsOf w 31 31 = b2n p := by rw [← bitsOf_bitsOf w 31 26 5 5 (by decide), q_fn]; exact s_31_31
  have t_30_26 : bitsOf w 30 26 = 10 := by rw [← bitsOf_bitsOf w 31 26 4 0 (by decide), q_fn]; exact s_30_26
  refine ⟨?_, ?_⟩
  · simp [decodeHelmWord, decodeShort, decodeFloat, wMajor, wD, wA, wB, wFn, wSub, wX, wImm, zeroThen, bitsOf_bitsOf, bitOf_eq, z0, q_m, q_fn, q_b, q_a, q_d, t_31_31, s_31_31, t_30_26, s_30_26, checked_of hf]
  · simpa [helmBytes, bitOf_eq, z0] using hb

theorem fcmpUn (p : Bool) (d : GReg) (a : GReg) (b : GReg) : Statement (.fcmpUn p d a b) := by
  refine ⟨fun w hf hw => ?_, fun w _ hw => by simp [strandWord] at hw⟩
  simp only [helmWord, Option.some.injEq] at hw
  obtain ⟨b_fn, s_31_31, s_30_26⟩ : (0x0B + b2n p * 2 ^ 5) < 2 ^ 6 ∧ bitsOf ((0x0B + b2n p * 2 ^ 5)) 5 5 = b2n p ∧ bitsOf ((0x0B + b2n p * 2 ^ 5)) 4 0 = 11 := by
    have hn0 : b2n p < 2 := b2n_lt _
    clear hw hf
    generalize b2n p = n0 at hn0 ⊢
    simp only [bitsOf]
    exact ⟨by omega, by omega, by omega⟩
  obtain ⟨z0, q_m, q_fn, q_b, q_a, q_d, hb⟩ := packHR_fields (show (0x08 : Nat) < 2 ^ 7 by decide) b_fn b.isLt a.isLt d.isLt
  rw [hw] at z0 q_m q_fn q_b q_a q_d hb
  have t_31_31 : bitsOf w 31 31 = b2n p := by rw [← bitsOf_bitsOf w 31 26 5 5 (by decide), q_fn]; exact s_31_31
  have t_30_26 : bitsOf w 30 26 = 11 := by rw [← bitsOf_bitsOf w 31 26 4 0 (by decide), q_fn]; exact s_30_26
  refine ⟨?_, ?_⟩
  · simp [decodeHelmWord, decodeShort, decodeFloat, wMajor, wD, wA, wB, wFn, wSub, wX, wImm, zeroThen, bitsOf_bitsOf, bitOf_eq, z0, q_m, q_fn, q_b, q_a, q_d, t_31_31, s_31_31, t_30_26, s_30_26, checked_of hf]
  · simpa [helmBytes, bitOf_eq, z0] using hb

theorem fcvtLP (p : Bool) (rnd : BitVec 3) (d : GReg) (a : GReg) : Statement (.fcvtLP p rnd d a) := by
  refine ⟨fun w hf hw => ?_, fun w _ hw => by simp [strandWord] at hw⟩
  simp only [helmWord, Option.some.injEq] at hw
  obtain ⟨b_fn, s_31_31, s_30_26⟩ : (0x10 + b2n p * 2 ^ 5) < 2 ^ 6 ∧ bitsOf ((0x10 + b2n p * 2 ^ 5)) 5 5 = b2n p ∧ bitsOf ((0x10 + b2n p * 2 ^ 5)) 4 0 = 16 := by
    have hn0 : b2n p < 2 := b2n_lt _
    clear hw hf
    generalize b2n p = n0 at hn0 ⊢
    simp only [bitsOf]
    exact ⟨by omega, by omega, by omega⟩
  obtain ⟨b_b, s_22_20, s_25_23⟩ : rnd.toNat < 2 ^ 6 ∧ bitsOf (rnd.toNat) 2 0 = rnd.toNat ∧ bitsOf (rnd.toNat) 5 3 = 0 := by
    have hn1 : rnd.toNat < 8 := rnd.isLt
    have hn3 : d.toNat < 64 := d.isLt
    clear hw hf
    generalize rnd.toNat = n1 at hn1 ⊢
    generalize d.toNat = n3 at hn3 ⊢
    simp only [bitsOf]
    exact ⟨by omega, by omega, by omega⟩
  obtain ⟨z0, q_m, q_fn, q_b, q_a, q_d, hb⟩ := packHR_fields (show (0x08 : Nat) < 2 ^ 7 by decide) b_fn (Nat.lt_of_lt_of_le rnd.isLt (by decide)) a.isLt d.isLt
  rw [hw] at z0 q_m q_fn q_b q_a q_d hb
  have t_31_31 : bitsOf w 31 31 = b2n p := by rw [← bitsOf_bitsOf w 31 26 5 5 (by decide), q_fn]; exact s_31_31
  have t_22_20 : bitsOf w 22 20 = rnd.toNat := by rw [← bitsOf_bitsOf w 25 20 2 0 (by decide), q_b]; exact s_22_20
  have t_25_23 : bitsOf w 25 23 = 0 := by rw [← bitsOf_bitsOf w 25 20 5 3 (by decide), q_b]; exact s_25_23
  have t_30_26 : bitsOf w 30 26 = 16 := by rw [← bitsOf_bitsOf w 31 26 4 0 (by decide), q_fn]; exact s_30_26
  refine ⟨?_, ?_⟩
  · simp [decodeHelmWord, decodeShort, decodeFloat, wMajor, wD, wA, wB, wFn, wSub, wX, wImm, zeroThen, bitsOf_bitsOf, bitOf_eq, z0, q_m, q_fn, q_b, q_a, q_d, t_31_31, s_31_31, t_22_20, s_22_20, t_25_23, s_25_23, t_30_26, s_30_26, checked_of hf]
  · simpa [helmBytes, bitOf_eq, z0] using hb

theorem fcvtNP (p : Bool) (rnd : BitVec 3) (d : GReg) (a : GReg) : Statement (.fcvtNP p rnd d a) := by
  refine ⟨fun w hf hw => ?_, fun w _ hw => by simp [strandWord] at hw⟩
  simp only [helmWord, Option.some.injEq] at hw
  obtain ⟨b_fn, s_31_31, s_30_26⟩ : (0x11 + b2n p * 2 ^ 5) < 2 ^ 6 ∧ bitsOf ((0x11 + b2n p * 2 ^ 5)) 5 5 = b2n p ∧ bitsOf ((0x11 + b2n p * 2 ^ 5)) 4 0 = 17 := by
    have hn0 : b2n p < 2 := b2n_lt _
    clear hw hf
    generalize b2n p = n0 at hn0 ⊢
    simp only [bitsOf]
    exact ⟨by omega, by omega, by omega⟩
  obtain ⟨b_b, s_22_20, s_25_23⟩ : rnd.toNat < 2 ^ 6 ∧ bitsOf (rnd.toNat) 2 0 = rnd.toNat ∧ bitsOf (rnd.toNat) 5 3 = 0 := by
    have hn1 : rnd.toNat < 8 := rnd.isLt
    have hn3 : d.toNat < 64 := d.isLt
    clear hw hf
    generalize rnd.toNat = n1 at hn1 ⊢
    generalize d.toNat = n3 at hn3 ⊢
    simp only [bitsOf]
    exact ⟨by omega, by omega, by omega⟩
  obtain ⟨z0, q_m, q_fn, q_b, q_a, q_d, hb⟩ := packHR_fields (show (0x08 : Nat) < 2 ^ 7 by decide) b_fn (Nat.lt_of_lt_of_le rnd.isLt (by decide)) a.isLt d.isLt
  rw [hw] at z0 q_m q_fn q_b q_a q_d hb
  have t_31_31 : bitsOf w 31 31 = b2n p := by rw [← bitsOf_bitsOf w 31 26 5 5 (by decide), q_fn]; exact s_31_31
  have t_22_20 : bitsOf w 22 20 = rnd.toNat := by rw [← bitsOf_bitsOf w 25 20 2 0 (by decide), q_b]; exact s_22_20
  have t_25_23 : bitsOf w 25 23 = 0 := by rw [← bitsOf_bitsOf w 25 20 5 3 (by decide), q_b]; exact s_25_23
  have t_30_26 : bitsOf w 30 26 = 17 := by rw [← bitsOf_bitsOf w 31 26 4 0 (by decide), q_fn]; exact s_30_26
  refine ⟨?_, ?_⟩
  · simp [decodeHelmWord, decodeShort, decodeFloat, wMajor, wD, wA, wB, wFn, wSub, wX, wImm, zeroThen, bitsOf_bitsOf, bitOf_eq, z0, q_m, q_fn, q_b, q_a, q_d, t_31_31, s_31_31, t_22_20, s_22_20, t_25_23, s_25_23, t_30_26, s_30_26, checked_of hf]
  · simpa [helmBytes, bitOf_eq, z0] using hb

theorem fcvtPL (p : Bool) (rnd : BitVec 3) (d : GReg) (a : GReg) : Statement (.fcvtPL p rnd d a) := by
  refine ⟨fun w hf hw => ?_, fun w _ hw => by simp [strandWord] at hw⟩
  simp only [helmWord, Option.some.injEq] at hw
  obtain ⟨b_fn, s_31_31, s_30_26⟩ : (0x12 + b2n p * 2 ^ 5) < 2 ^ 6 ∧ bitsOf ((0x12 + b2n p * 2 ^ 5)) 5 5 = b2n p ∧ bitsOf ((0x12 + b2n p * 2 ^ 5)) 4 0 = 18 := by
    have hn0 : b2n p < 2 := b2n_lt _
    clear hw hf
    generalize b2n p = n0 at hn0 ⊢
    simp only [bitsOf]
    exact ⟨by omega, by omega, by omega⟩
  obtain ⟨b_b, s_22_20, s_25_23⟩ : rnd.toNat < 2 ^ 6 ∧ bitsOf (rnd.toNat) 2 0 = rnd.toNat ∧ bitsOf (rnd.toNat) 5 3 = 0 := by
    have hn1 : rnd.toNat < 8 := rnd.isLt
    have hn3 : d.toNat < 64 := d.isLt
    clear hw hf
    generalize rnd.toNat = n1 at hn1 ⊢
    generalize d.toNat = n3 at hn3 ⊢
    simp only [bitsOf]
    exact ⟨by omega, by omega, by omega⟩
  obtain ⟨z0, q_m, q_fn, q_b, q_a, q_d, hb⟩ := packHR_fields (show (0x08 : Nat) < 2 ^ 7 by decide) b_fn (Nat.lt_of_lt_of_le rnd.isLt (by decide)) a.isLt d.isLt
  rw [hw] at z0 q_m q_fn q_b q_a q_d hb
  have t_31_31 : bitsOf w 31 31 = b2n p := by rw [← bitsOf_bitsOf w 31 26 5 5 (by decide), q_fn]; exact s_31_31
  have t_22_20 : bitsOf w 22 20 = rnd.toNat := by rw [← bitsOf_bitsOf w 25 20 2 0 (by decide), q_b]; exact s_22_20
  have t_25_23 : bitsOf w 25 23 = 0 := by rw [← bitsOf_bitsOf w 25 20 5 3 (by decide), q_b]; exact s_25_23
  have t_30_26 : bitsOf w 30 26 = 18 := by rw [← bitsOf_bitsOf w 31 26 4 0 (by decide), q_fn]; exact s_30_26
  refine ⟨?_, ?_⟩
  · simp [decodeHelmWord, decodeShort, decodeFloat, wMajor, wD, wA, wB, wFn, wSub, wX, wImm, zeroThen, bitsOf_bitsOf, bitOf_eq, z0, q_m, q_fn, q_b, q_a, q_d, t_31_31, s_31_31, t_22_20, s_22_20, t_25_23, s_25_23, t_30_26, s_30_26, checked_of hf]
  · simpa [helmBytes, bitOf_eq, z0] using hb

theorem fcvtPN (p : Bool) (rnd : BitVec 3) (d : GReg) (a : GReg) : Statement (.fcvtPN p rnd d a) := by
  refine ⟨fun w hf hw => ?_, fun w _ hw => by simp [strandWord] at hw⟩
  simp only [helmWord, Option.some.injEq] at hw
  obtain ⟨b_fn, s_31_31, s_30_26⟩ : (0x13 + b2n p * 2 ^ 5) < 2 ^ 6 ∧ bitsOf ((0x13 + b2n p * 2 ^ 5)) 5 5 = b2n p ∧ bitsOf ((0x13 + b2n p * 2 ^ 5)) 4 0 = 19 := by
    have hn0 : b2n p < 2 := b2n_lt _
    clear hw hf
    generalize b2n p = n0 at hn0 ⊢
    simp only [bitsOf]
    exact ⟨by omega, by omega, by omega⟩
  obtain ⟨b_b, s_22_20, s_25_23⟩ : rnd.toNat < 2 ^ 6 ∧ bitsOf (rnd.toNat) 2 0 = rnd.toNat ∧ bitsOf (rnd.toNat) 5 3 = 0 := by
    have hn1 : rnd.toNat < 8 := rnd.isLt
    have hn3 : d.toNat < 64 := d.isLt
    clear hw hf
    generalize rnd.toNat = n1 at hn1 ⊢
    generalize d.toNat = n3 at hn3 ⊢
    simp only [bitsOf]
    exact ⟨by omega, by omega, by omega⟩
  obtain ⟨z0, q_m, q_fn, q_b, q_a, q_d, hb⟩ := packHR_fields (show (0x08 : Nat) < 2 ^ 7 by decide) b_fn (Nat.lt_of_lt_of_le rnd.isLt (by decide)) a.isLt d.isLt
  rw [hw] at z0 q_m q_fn q_b q_a q_d hb
  have t_31_31 : bitsOf w 31 31 = b2n p := by rw [← bitsOf_bitsOf w 31 26 5 5 (by decide), q_fn]; exact s_31_31
  have t_22_20 : bitsOf w 22 20 = rnd.toNat := by rw [← bitsOf_bitsOf w 25 20 2 0 (by decide), q_b]; exact s_22_20
  have t_25_23 : bitsOf w 25 23 = 0 := by rw [← bitsOf_bitsOf w 25 20 5 3 (by decide), q_b]; exact s_25_23
  have t_30_26 : bitsOf w 30 26 = 19 := by rw [← bitsOf_bitsOf w 31 26 4 0 (by decide), q_fn]; exact s_30_26
  refine ⟨?_, ?_⟩
  · simp [decodeHelmWord, decodeShort, decodeFloat, wMajor, wD, wA, wB, wFn, wSub, wX, wImm, zeroThen, bitsOf_bitsOf, bitOf_eq, z0, q_m, q_fn, q_b, q_a, q_d, t_31_31, s_31_31, t_22_20, s_22_20, t_25_23, s_25_23, t_30_26, s_30_26, checked_of hf]
  · simpa [helmBytes, bitOf_eq, z0] using hb

theorem fcvtSD (rnd : BitVec 3) (d : GReg) (a : GReg) : Statement (.fcvtSD rnd d a) := by
  refine ⟨fun w hf hw => ?_, fun w _ hw => by simp [strandWord] at hw⟩
  simp only [helmWord, Option.some.injEq] at hw
  obtain ⟨b_fn, s_31_31, s_30_26⟩ : 0x14 < 2 ^ 6 ∧ bitsOf (0x14) 5 5 = 0 ∧ bitsOf (0x14) 4 0 = 20 := by
    decide
  obtain ⟨b_b, s_22_20, s_25_23⟩ : rnd.toNat < 2 ^ 6 ∧ bitsOf (rnd.toNat) 2 0 = rnd.toNat ∧ bitsOf (rnd.toNat) 5 3 = 0 := by
    have hn0 : rnd.toNat < 8 := rnd.isLt
    have hn2 : d.toNat < 64 := d.isLt
    clear hw hf
    generalize rnd.toNat = n0 at hn0 ⊢
    generalize d.toNat = n2 at hn2 ⊢
    simp only [bitsOf]
    exact ⟨by omega, by omega, by omega⟩
  obtain ⟨z0, q_m, q_fn, q_b, q_a, q_d, hb⟩ := packHR_fields (show (0x08 : Nat) < 2 ^ 7 by decide) (show (0x14 : Nat) < 2 ^ 6 by decide) (Nat.lt_of_lt_of_le rnd.isLt (by decide)) a.isLt d.isLt
  rw [hw] at z0 q_m q_fn q_b q_a q_d hb
  have t_31_31 : bitsOf w 31 31 = 0 := by rw [← bitsOf_bitsOf w 31 26 5 5 (by decide), q_fn]; exact s_31_31
  have t_22_20 : bitsOf w 22 20 = rnd.toNat := by rw [← bitsOf_bitsOf w 25 20 2 0 (by decide), q_b]; exact s_22_20
  have t_25_23 : bitsOf w 25 23 = 0 := by rw [← bitsOf_bitsOf w 25 20 5 3 (by decide), q_b]; exact s_25_23
  have t_30_26 : bitsOf w 30 26 = 20 := by rw [← bitsOf_bitsOf w 31 26 4 0 (by decide), q_fn]; exact s_30_26
  refine ⟨?_, ?_⟩
  · simp [decodeHelmWord, decodeShort, decodeFloat, wMajor, wD, wA, wB, wFn, wSub, wX, wImm, zeroThen, bitsOf_bitsOf, bitOf_eq, z0, q_m, q_fn, q_b, q_a, q_d, t_31_31, s_31_31, t_22_20, s_22_20, t_25_23, s_25_23, t_30_26, s_30_26, checked_of hf]
  · simpa [helmBytes, bitOf_eq, z0] using hb

theorem fcvtDS (rnd : BitVec 3) (d : GReg) (a : GReg) : Statement (.fcvtDS rnd d a) := by
  refine ⟨fun w hf hw => ?_, fun w _ hw => by simp [strandWord] at hw⟩
  simp only [helmWord, Option.some.injEq] at hw
  obtain ⟨b_fn, s_31_31, s_30_26⟩ : 0x34 < 2 ^ 6 ∧ bitsOf (0x34) 5 5 = 1 ∧ bitsOf (0x34) 4 0 = 20 := by
    decide
  obtain ⟨b_b, s_22_20, s_25_23⟩ : rnd.toNat < 2 ^ 6 ∧ bitsOf (rnd.toNat) 2 0 = rnd.toNat ∧ bitsOf (rnd.toNat) 5 3 = 0 := by
    have hn0 : rnd.toNat < 8 := rnd.isLt
    have hn2 : d.toNat < 64 := d.isLt
    clear hw hf
    generalize rnd.toNat = n0 at hn0 ⊢
    generalize d.toNat = n2 at hn2 ⊢
    simp only [bitsOf]
    exact ⟨by omega, by omega, by omega⟩
  obtain ⟨z0, q_m, q_fn, q_b, q_a, q_d, hb⟩ := packHR_fields (show (0x08 : Nat) < 2 ^ 7 by decide) (show (0x34 : Nat) < 2 ^ 6 by decide) (Nat.lt_of_lt_of_le rnd.isLt (by decide)) a.isLt d.isLt
  rw [hw] at z0 q_m q_fn q_b q_a q_d hb
  have t_31_31 : bitsOf w 31 31 = 1 := by rw [← bitsOf_bitsOf w 31 26 5 5 (by decide), q_fn]; exact s_31_31
  have t_22_20 : bitsOf w 22 20 = rnd.toNat := by rw [← bitsOf_bitsOf w 25 20 2 0 (by decide), q_b]; exact s_22_20
  have t_25_23 : bitsOf w 25 23 = 0 := by rw [← bitsOf_bitsOf w 25 20 5 3 (by decide), q_b]; exact s_25_23
  have t_30_26 : bitsOf w 30 26 = 20 := by rw [← bitsOf_bitsOf w 31 26 4 0 (by decide), q_fn]; exact s_30_26
  refine ⟨?_, ?_⟩
  · simp [decodeHelmWord, decodeShort, decodeFloat, wMajor, wD, wA, wB, wFn, wSub, wX, wImm, zeroThen, bitsOf_bitsOf, bitOf_eq, z0, q_m, q_fn, q_b, q_a, q_d, t_31_31, s_31_31, t_22_20, s_22_20, t_25_23, s_25_23, t_30_26, s_30_26, checked_of hf]
  · simpa [helmBytes, bitOf_eq, z0] using hb

theorem bEq (a : GReg) (b : GReg) (off : BitVec 12) : Statement (.bEq a b off) := by
  refine ⟨fun w hf hw => ?_, fun w _ hw => by simp [strandWord] at hw⟩
  simp only [helmWord, Option.some.injEq] at hw
  obtain ⟨z0, q_m, q_imm, q_a, q_d, hb⟩ := packHI_fields (show (0x10 : Nat) < 2 ^ 7 by decide) off.isLt b.isLt a.isLt
  rw [hw] at z0 q_m q_imm q_a q_d hb
  refine ⟨?_, ?_⟩
  · simp [decodeHelmWord, decodeShort, wMajor, wD, wA, wB, wFn, wSub, wX, wImm, zeroThen, bitsOf_bitsOf, bitOf_eq, z0, q_m, q_imm, q_a, q_d, checked_of hf]
  · simpa [helmBytes, bitOf_eq, z0] using hb

theorem bNe (a : GReg) (b : GReg) (off : BitVec 12) : Statement (.bNe a b off) := by
  refine ⟨fun w hf hw => ?_, fun w _ hw => by simp [strandWord] at hw⟩
  simp only [helmWord, Option.some.injEq] at hw
  obtain ⟨z0, q_m, q_imm, q_a, q_d, hb⟩ := packHI_fields (show (0x11 : Nat) < 2 ^ 7 by decide) off.isLt b.isLt a.isLt
  rw [hw] at z0 q_m q_imm q_a q_d hb
  refine ⟨?_, ?_⟩
  · simp [decodeHelmWord, decodeShort, wMajor, wD, wA, wB, wFn, wSub, wX, wImm, zeroThen, bitsOf_bitsOf, bitOf_eq, z0, q_m, q_imm, q_a, q_d, checked_of hf]
  · simpa [helmBytes, bitOf_eq, z0] using hb

theorem bLt (a : GReg) (b : GReg) (off : BitVec 12) : Statement (.bLt a b off) := by
  refine ⟨fun w hf hw => ?_, fun w _ hw => by simp [strandWord] at hw⟩
  simp only [helmWord, Option.some.injEq] at hw
  obtain ⟨z0, q_m, q_imm, q_a, q_d, hb⟩ := packHI_fields (show (0x12 : Nat) < 2 ^ 7 by decide) off.isLt b.isLt a.isLt
  rw [hw] at z0 q_m q_imm q_a q_d hb
  refine ⟨?_, ?_⟩
  · simp [decodeHelmWord, decodeShort, wMajor, wD, wA, wB, wFn, wSub, wX, wImm, zeroThen, bitsOf_bitsOf, bitOf_eq, z0, q_m, q_imm, q_a, q_d, checked_of hf]
  · simpa [helmBytes, bitOf_eq, z0] using hb

theorem bGe (a : GReg) (b : GReg) (off : BitVec 12) : Statement (.bGe a b off) := by
  refine ⟨fun w hf hw => ?_, fun w _ hw => by simp [strandWord] at hw⟩
  simp only [helmWord, Option.some.injEq] at hw
  obtain ⟨z0, q_m, q_imm, q_a, q_d, hb⟩ := packHI_fields (show (0x13 : Nat) < 2 ^ 7 by decide) off.isLt b.isLt a.isLt
  rw [hw] at z0 q_m q_imm q_a q_d hb
  refine ⟨?_, ?_⟩
  · simp [decodeHelmWord, decodeShort, wMajor, wD, wA, wB, wFn, wSub, wX, wImm, zeroThen, bitsOf_bitsOf, bitOf_eq, z0, q_m, q_imm, q_a, q_d, checked_of hf]
  · simpa [helmBytes, bitOf_eq, z0] using hb

theorem bLtu (a : GReg) (b : GReg) (off : BitVec 12) : Statement (.bLtu a b off) := by
  refine ⟨fun w hf hw => ?_, fun w _ hw => by simp [strandWord] at hw⟩
  simp only [helmWord, Option.some.injEq] at hw
  obtain ⟨z0, q_m, q_imm, q_a, q_d, hb⟩ := packHI_fields (show (0x14 : Nat) < 2 ^ 7 by decide) off.isLt b.isLt a.isLt
  rw [hw] at z0 q_m q_imm q_a q_d hb
  refine ⟨?_, ?_⟩
  · simp [decodeHelmWord, decodeShort, wMajor, wD, wA, wB, wFn, wSub, wX, wImm, zeroThen, bitsOf_bitsOf, bitOf_eq, z0, q_m, q_imm, q_a, q_d, checked_of hf]
  · simpa [helmBytes, bitOf_eq, z0] using hb

theorem bGeu (a : GReg) (b : GReg) (off : BitVec 12) : Statement (.bGeu a b off) := by
  refine ⟨fun w hf hw => ?_, fun w _ hw => by simp [strandWord] at hw⟩
  simp only [helmWord, Option.some.injEq] at hw
  obtain ⟨z0, q_m, q_imm, q_a, q_d, hb⟩ := packHI_fields (show (0x15 : Nat) < 2 ^ 7 by decide) off.isLt b.isLt a.isLt
  rw [hw] at z0 q_m q_imm q_a q_d hb
  refine ⟨?_, ?_⟩
  · simp [decodeHelmWord, decodeShort, wMajor, wD, wA, wB, wFn, wSub, wX, wImm, zeroThen, bitsOf_bitsOf, bitOf_eq, z0, q_m, q_imm, q_a, q_d, checked_of hf]
  · simpa [helmBytes, bitOf_eq, z0] using hb

theorem j (off : BitVec 18) : Statement (.j off) := by
  refine ⟨fun w hf hw => ?_, fun w _ hw => by simp [strandWord] at hw⟩
  simp only [helmWord, Option.some.injEq] at hw
  obtain ⟨z0, q_m, q_off, q_d, hb⟩ := packHJ_fields (show (0x18 : Nat) < 2 ^ 7 by decide) off.isLt (show (0 : Nat) < 2 ^ 6 by decide)
  rw [hw] at z0 q_m q_off q_d hb
  refine ⟨?_, ?_⟩
  · simp [decodeHelmWord, decodeShort, wMajor, wD, wA, wB, wFn, wSub, wX, wImm, zeroThen, bitsOf_bitsOf, bitOf_eq, z0, q_m, q_off, q_d, checked_of hf]
  · simpa [helmBytes, bitOf_eq, z0] using hb

theorem call (d : GReg) (off : BitVec 18) : Statement (.call d off) := by
  refine ⟨fun w hf hw => ?_, fun w _ hw => by simp [strandWord] at hw⟩
  simp only [helmWord, Option.some.injEq] at hw
  obtain ⟨z0, q_m, q_off, q_d, hb⟩ := packHJ_fields (show (0x19 : Nat) < 2 ^ 7 by decide) off.isLt d.isLt
  rw [hw] at z0 q_m q_off q_d hb
  refine ⟨?_, ?_⟩
  · simp [decodeHelmWord, decodeShort, wMajor, wD, wA, wB, wFn, wSub, wX, wImm, zeroThen, bitsOf_bitsOf, bitOf_eq, z0, q_m, q_off, q_d, checked_of hf]
  · simpa [helmBytes, bitOf_eq, z0] using hb

theorem callr (d : GReg) (a : GReg) : Statement (.callr d a) := by
  refine ⟨fun w hf hw => ?_, fun w _ hw => by simp [strandWord] at hw⟩
  simp only [helmWord, Option.some.injEq] at hw
  obtain ⟨z0, q_m, q_fn, q_b, q_a, q_d, hb⟩ := packHR_fields (show (0x1A : Nat) < 2 ^ 7 by decide) (show (0 : Nat) < 2 ^ 6 by decide) (show (0 : Nat) < 2 ^ 6 by decide) a.isLt d.isLt
  rw [hw] at z0 q_m q_fn q_b q_a q_d hb
  refine ⟨?_, ?_⟩
  · simp [decodeHelmWord, decodeShort, wMajor, wD, wA, wB, wFn, wSub, wX, wImm, zeroThen, bitsOf_bitsOf, bitOf_eq, z0, q_m, q_fn, q_b, q_a, q_d, checked_of hf]
  · simpa [helmBytes, bitOf_eq, z0] using hb

theorem ret (a : GReg) : Statement (.ret a) := by
  refine ⟨fun w hf hw => ?_, fun w _ hw => by simp [strandWord] at hw⟩
  simp only [helmWord, Option.some.injEq] at hw
  obtain ⟨z0, q_m, q_fn, q_b, q_a, q_d, hb⟩ := packHR_fields (show (0x1A : Nat) < 2 ^ 7 by decide) (show (1 : Nat) < 2 ^ 6 by decide) (show (0 : Nat) < 2 ^ 6 by decide) a.isLt (show (0 : Nat) < 2 ^ 6 by decide)
  rw [hw] at z0 q_m q_fn q_b q_a q_d hb
  refine ⟨?_, ?_⟩
  · simp [decodeHelmWord, decodeShort, wMajor, wD, wA, wB, wFn, wSub, wX, wImm, zeroThen, bitsOf_bitsOf, bitOf_eq, z0, q_m, q_fn, q_b, q_a, q_d, checked_of hf]
  · simpa [helmBytes, bitOf_eq, z0] using hb

theorem hloop (a : GReg) (off : BitVec 12) : Statement (.hloop a off) := by
  refine ⟨fun w hf hw => ?_, fun w _ hw => by simp [strandWord] at hw⟩
  simp only [helmWord, Option.some.injEq] at hw
  obtain ⟨z0, q_m, q_imm, q_a, q_d, hb⟩ := packHI_fields (show (0x1B : Nat) < 2 ^ 7 by decide) off.isLt (show (0 : Nat) < 2 ^ 6 by decide) a.isLt
  rw [hw] at z0 q_m q_imm q_a q_d hb
  refine ⟨?_, ?_⟩
  · simp [decodeHelmWord, decodeShort, wMajor, wD, wA, wB, wFn, wSub, wX, wImm, zeroThen, bitsOf_bitsOf, bitOf_eq, z0, q_m, q_imm, q_a, q_d, checked_of hf]
  · simpa [helmBytes, bitOf_eq, z0] using hb

theorem ld (d : GReg) (a : GReg) (size : BitVec 3) (imm : BitVec 9) : Statement (.ld d a size imm) := by
  refine ⟨fun w hf hw => ?_, fun w _ hw => by simp [strandWord] at hw⟩
  simp only [helmWord, Option.some.injEq] at hw
  obtain ⟨z0, q_m, q_imm, q_size, q_a, q_d, hb⟩ := packHM_fields (show (0x20 : Nat) < 2 ^ 7 by decide) imm.isLt size.isLt a.isLt d.isLt
  rw [hw] at z0 q_m q_imm q_size q_a q_d hb
  refine ⟨?_, ?_⟩
  · simp [decodeHelmWord, decodeShort, wMajor, wD, wA, wB, wFn, wSub, wX, wImm, zeroThen, bitsOf_bitsOf, bitOf_eq, z0, q_m, q_imm, q_size, q_a, q_d, checked_of hf]
  · simpa [helmBytes, bitOf_eq, z0] using hb

theorem st (g : GReg) (a : GReg) (size : BitVec 3) (imm : BitVec 9) : Statement (.st g a size imm) := by
  refine ⟨fun w hf hw => ?_, fun w _ hw => by simp [strandWord] at hw⟩
  simp only [helmWord, Option.some.injEq] at hw
  obtain ⟨z0, q_m, q_imm, q_size, q_a, q_d, hb⟩ := packHM_fields (show (0x21 : Nat) < 2 ^ 7 by decide) imm.isLt size.isLt a.isLt g.isLt
  rw [hw] at z0 q_m q_imm q_size q_a q_d hb
  refine ⟨?_, ?_⟩
  · simp [decodeHelmWord, decodeShort, wMajor, wD, wA, wB, wFn, wSub, wX, wImm, zeroThen, bitsOf_bitsOf, bitOf_eq, z0, q_m, q_imm, q_size, q_a, q_d, checked_of hf]
  · simpa [helmBytes, bitOf_eq, z0] using hb

theorem ldAcq (d : GReg) (a : GReg) (size : BitVec 3) (scope : BitVec 3) : Statement (.ldAcq d a size scope) := by
  refine ⟨fun w hf hw => ?_, fun w _ hw => by simp [strandWord] at hw⟩
  simp only [helmWord, Option.some.injEq] at hw
  obtain ⟨b_imm, s_25_23, s_31_26⟩ : scope.toNat < 2 ^ 9 ∧ bitsOf (scope.toNat) 2 0 = scope.toNat ∧ bitsOf (scope.toNat) 8 3 = 0 := by
    have hn0 : scope.toNat < 8 := scope.isLt
    clear hw hf
    generalize scope.toNat = n0 at hn0 ⊢
    simp only [bitsOf]
    exact ⟨by omega, by omega, by omega⟩
  obtain ⟨z0, q_m, q_imm, q_size, q_a, q_d, hb⟩ := packHM_fields (show (0x22 : Nat) < 2 ^ 7 by decide) (Nat.lt_of_lt_of_le scope.isLt (by decide)) size.isLt a.isLt d.isLt
  rw [hw] at z0 q_m q_imm q_size q_a q_d hb
  have t_25_23 : bitsOf w 25 23 = scope.toNat := by rw [← bitsOf_bitsOf w 31 23 2 0 (by decide), q_imm]; exact s_25_23
  have t_31_26 : bitsOf w 31 26 = 0 := by rw [← bitsOf_bitsOf w 31 23 8 3 (by decide), q_imm]; exact s_31_26
  refine ⟨?_, ?_⟩
  · simp [decodeHelmWord, decodeShort, wMajor, wD, wA, wB, wFn, wSub, wX, wImm, zeroThen, bitsOf_bitsOf, bitOf_eq, z0, q_m, q_imm, q_size, q_a, q_d, t_25_23, s_25_23, t_31_26, s_31_26, checked_of hf]
  · simpa [helmBytes, bitOf_eq, z0] using hb

theorem stRel (g : GReg) (a : GReg) (size : BitVec 3) (scope : BitVec 3) : Statement (.stRel g a size scope) := by
  refine ⟨fun w hf hw => ?_, fun w _ hw => by simp [strandWord] at hw⟩
  simp only [helmWord, Option.some.injEq] at hw
  obtain ⟨b_imm, s_25_23, s_31_26⟩ : scope.toNat < 2 ^ 9 ∧ bitsOf (scope.toNat) 2 0 = scope.toNat ∧ bitsOf (scope.toNat) 8 3 = 0 := by
    have hn0 : scope.toNat < 8 := scope.isLt
    clear hw hf
    generalize scope.toNat = n0 at hn0 ⊢
    simp only [bitsOf]
    exact ⟨by omega, by omega, by omega⟩
  obtain ⟨z0, q_m, q_imm, q_size, q_a, q_d, hb⟩ := packHM_fields (show (0x23 : Nat) < 2 ^ 7 by decide) (Nat.lt_of_lt_of_le scope.isLt (by decide)) size.isLt a.isLt g.isLt
  rw [hw] at z0 q_m q_imm q_size q_a q_d hb
  have t_25_23 : bitsOf w 25 23 = scope.toNat := by rw [← bitsOf_bitsOf w 31 23 2 0 (by decide), q_imm]; exact s_25_23
  have t_31_26 : bitsOf w 31 26 = 0 := by rw [← bitsOf_bitsOf w 31 23 8 3 (by decide), q_imm]; exact s_31_26
  refine ⟨?_, ?_⟩
  · simp [decodeHelmWord, decodeShort, wMajor, wD, wA, wB, wFn, wSub, wX, wImm, zeroThen, bitsOf_bitsOf, bitOf_eq, z0, q_m, q_imm, q_size, q_a, q_d, t_25_23, s_25_23, t_31_26, s_31_26, checked_of hf]
  · simpa [helmBytes, bitOf_eq, z0] using hb

theorem qPopr (d : GReg) : Statement (.qPopr d) := by
  refine ⟨fun w hf hw => ?_, fun w _ hw => by simp [strandWord] at hw⟩
  simp only [helmWord, Option.some.injEq] at hw
  obtain ⟨b_x, s_31_27, s_26_24, s_31_29, s_25_24, s_28_26, s_30_24, s_27_24, s_31_25⟩ : 0 < 2 ^ 8 ∧ bitsOf (0) 7 3 = 0 ∧ bitsOf (0) 2 0 = 0 ∧ bitsOf (0) 7 5 = 0 ∧ bitsOf (0) 1 0 = 0 ∧ bitsOf (0) 4 2 = 0 ∧ bitsOf (0) 6 0 = 0 ∧ bitsOf (0) 3 0 = 0 ∧ bitsOf (0) 7 1 = 0 := by
    decide
  obtain ⟨z0, q_m, q_x, q_sub, q_a, q_d, hb⟩ := packHS_fields (show (0x30 : Nat) < 2 ^ 7 by decide) (show (0 : Nat) < 2 ^ 8 by decide) (show (0 : Nat) < 2 ^ 4 by decide) (show (0 : Nat) < 2 ^ 6 by decide) d.isLt
  rw [hw] at z0 q_m q_x q_sub q_a q_d hb
  have t_31_27 : bitsOf w 31 27 = 0 := by rw [← bitsOf_bitsOf w 31 24 7 3 (by decide), q_x]; exact s_31_27
  have t_26_24 : bitsOf w 26 24 = 0 := by rw [← bitsOf_bitsOf w 31 24 2 0 (by decide), q_x]; exact s_26_24
  have t_31_29 : bitsOf w 31 29 = 0 := by rw [← bitsOf_bitsOf w 31 24 7 5 (by decide), q_x]; exact s_31_29
  have t_25_24 : bitsOf w 25 24 = 0 := by rw [← bitsOf_bitsOf w 31 24 1 0 (by decide), q_x]; exact s_25_24
  have t_28_26 : bitsOf w 28 26 = 0 := by rw [← bitsOf_bitsOf w 31 24 4 2 (by decide), q_x]; exact s_28_26
  have t_30_24 : bitsOf w 30 24 = 0 := by rw [← bitsOf_bitsOf w 31 24 6 0 (by decide), q_x]; exact s_30_24
  have t_27_24 : bitsOf w 27 24 = 0 := by rw [← bitsOf_bitsOf w 31 24 3 0 (by decide), q_x]; exact s_27_24
  have t_31_25 : bitsOf w 31 25 = 0 := by rw [← bitsOf_bitsOf w 31 24 7 1 (by decide), q_x]; exact s_31_25
  refine ⟨?_, ?_⟩
  · simp [decodeHelmWord, decodeShort, decodeSelector, wMajor, wD, wA, wB, wFn, wSub, wX, wImm, zeroThen, bitsOf_bitsOf, bitOf_eq, z0, q_m, q_x, q_sub, q_a, q_d, t_31_27, s_31_27, t_26_24, s_26_24, t_31_29, s_31_29, t_25_24, s_25_24, t_28_26, s_28_26, t_30_24, s_30_24, t_27_24, s_27_24, t_31_25, s_31_25, checked_of hf]
  · simpa [helmBytes, bitOf_eq, z0] using hb

theorem qPeek (d : GReg) : Statement (.qPeek d) := by
  refine ⟨fun w hf hw => ?_, fun w _ hw => by simp [strandWord] at hw⟩
  simp only [helmWord, Option.some.injEq] at hw
  obtain ⟨b_x, s_31_27, s_26_24, s_31_29, s_25_24, s_28_26, s_30_24, s_27_24, s_31_25⟩ : 0 < 2 ^ 8 ∧ bitsOf (0) 7 3 = 0 ∧ bitsOf (0) 2 0 = 0 ∧ bitsOf (0) 7 5 = 0 ∧ bitsOf (0) 1 0 = 0 ∧ bitsOf (0) 4 2 = 0 ∧ bitsOf (0) 6 0 = 0 ∧ bitsOf (0) 3 0 = 0 ∧ bitsOf (0) 7 1 = 0 := by
    decide
  obtain ⟨z0, q_m, q_x, q_sub, q_a, q_d, hb⟩ := packHS_fields (show (0x31 : Nat) < 2 ^ 7 by decide) (show (0 : Nat) < 2 ^ 8 by decide) (show (0 : Nat) < 2 ^ 4 by decide) (show (0 : Nat) < 2 ^ 6 by decide) d.isLt
  rw [hw] at z0 q_m q_x q_sub q_a q_d hb
  have t_31_27 : bitsOf w 31 27 = 0 := by rw [← bitsOf_bitsOf w 31 24 7 3 (by decide), q_x]; exact s_31_27
  have t_26_24 : bitsOf w 26 24 = 0 := by rw [← bitsOf_bitsOf w 31 24 2 0 (by decide), q_x]; exact s_26_24
  have t_31_29 : bitsOf w 31 29 = 0 := by rw [← bitsOf_bitsOf w 31 24 7 5 (by decide), q_x]; exact s_31_29
  have t_25_24 : bitsOf w 25 24 = 0 := by rw [← bitsOf_bitsOf w 31 24 1 0 (by decide), q_x]; exact s_25_24
  have t_28_26 : bitsOf w 28 26 = 0 := by rw [← bitsOf_bitsOf w 31 24 4 2 (by decide), q_x]; exact s_28_26
  have t_30_24 : bitsOf w 30 24 = 0 := by rw [← bitsOf_bitsOf w 31 24 6 0 (by decide), q_x]; exact s_30_24
  have t_27_24 : bitsOf w 27 24 = 0 := by rw [← bitsOf_bitsOf w 31 24 3 0 (by decide), q_x]; exact s_27_24
  have t_31_25 : bitsOf w 31 25 = 0 := by rw [← bitsOf_bitsOf w 31 24 7 1 (by decide), q_x]; exact s_31_25
  refine ⟨?_, ?_⟩
  · simp [decodeHelmWord, decodeShort, decodeSelector, wMajor, wD, wA, wB, wFn, wSub, wX, wImm, zeroThen, bitsOf_bitsOf, bitOf_eq, z0, q_m, q_x, q_sub, q_a, q_d, t_31_27, s_31_27, t_26_24, s_26_24, t_31_29, s_31_29, t_25_24, s_25_24, t_28_26, s_28_26, t_30_24, s_30_24, t_27_24, s_27_24, t_31_25, s_31_25, checked_of hf]
  · simpa [helmBytes, bitOf_eq, z0] using hb

theorem qOccCq (d : GReg) : Statement (.qOccCq d) := by
  refine ⟨fun w hf hw => ?_, fun w _ hw => by simp [strandWord] at hw⟩
  simp only [helmWord, Option.some.injEq] at hw
  obtain ⟨b_x, s_31_27, s_26_24, s_31_29, s_25_24, s_28_26, s_30_24, s_27_24, s_31_25⟩ : 0 < 2 ^ 8 ∧ bitsOf (0) 7 3 = 0 ∧ bitsOf (0) 2 0 = 0 ∧ bitsOf (0) 7 5 = 0 ∧ bitsOf (0) 1 0 = 0 ∧ bitsOf (0) 4 2 = 0 ∧ bitsOf (0) 6 0 = 0 ∧ bitsOf (0) 3 0 = 0 ∧ bitsOf (0) 7 1 = 0 := by
    decide
  obtain ⟨z0, q_m, q_x, q_sub, q_a, q_d, hb⟩ := packHS_fields (show (0x32 : Nat) < 2 ^ 7 by decide) (show (0 : Nat) < 2 ^ 8 by decide) (show (0 : Nat) < 2 ^ 4 by decide) (show (0 : Nat) < 2 ^ 6 by decide) d.isLt
  rw [hw] at z0 q_m q_x q_sub q_a q_d hb
  have t_31_27 : bitsOf w 31 27 = 0 := by rw [← bitsOf_bitsOf w 31 24 7 3 (by decide), q_x]; exact s_31_27
  have t_26_24 : bitsOf w 26 24 = 0 := by rw [← bitsOf_bitsOf w 31 24 2 0 (by decide), q_x]; exact s_26_24
  have t_31_29 : bitsOf w 31 29 = 0 := by rw [← bitsOf_bitsOf w 31 24 7 5 (by decide), q_x]; exact s_31_29
  have t_25_24 : bitsOf w 25 24 = 0 := by rw [← bitsOf_bitsOf w 31 24 1 0 (by decide), q_x]; exact s_25_24
  have t_28_26 : bitsOf w 28 26 = 0 := by rw [← bitsOf_bitsOf w 31 24 4 2 (by decide), q_x]; exact s_28_26
  have t_30_24 : bitsOf w 30 24 = 0 := by rw [← bitsOf_bitsOf w 31 24 6 0 (by decide), q_x]; exact s_30_24
  have t_27_24 : bitsOf w 27 24 = 0 := by rw [← bitsOf_bitsOf w 31 24 3 0 (by decide), q_x]; exact s_27_24
  have t_31_25 : bitsOf w 31 25 = 0 := by rw [← bitsOf_bitsOf w 31 24 7 1 (by decide), q_x]; exact s_31_25
  refine ⟨?_, ?_⟩
  · simp [decodeHelmWord, decodeShort, decodeSelector, wMajor, wD, wA, wB, wFn, wSub, wX, wImm, zeroThen, bitsOf_bitsOf, bitOf_eq, z0, q_m, q_x, q_sub, q_a, q_d, t_31_27, s_31_27, t_26_24, s_26_24, t_31_29, s_31_29, t_25_24, s_25_24, t_28_26, s_28_26, t_30_24, s_30_24, t_27_24, s_27_24, t_31_25, s_31_25, checked_of hf]
  · simpa [helmBytes, bitOf_eq, z0] using hb

theorem qOccRq (d : GReg) : Statement (.qOccRq d) := by
  refine ⟨fun w hf hw => ?_, fun w _ hw => by simp [strandWord] at hw⟩
  simp only [helmWord, Option.some.injEq] at hw
  obtain ⟨b_x, s_31_27, s_26_24, s_31_29, s_25_24, s_28_26, s_30_24, s_27_24, s_31_25⟩ : 0 < 2 ^ 8 ∧ bitsOf (0) 7 3 = 0 ∧ bitsOf (0) 2 0 = 0 ∧ bitsOf (0) 7 5 = 0 ∧ bitsOf (0) 1 0 = 0 ∧ bitsOf (0) 4 2 = 0 ∧ bitsOf (0) 6 0 = 0 ∧ bitsOf (0) 3 0 = 0 ∧ bitsOf (0) 7 1 = 0 := by
    decide
  obtain ⟨z0, q_m, q_x, q_sub, q_a, q_d, hb⟩ := packHS_fields (show (0x32 : Nat) < 2 ^ 7 by decide) (show (0 : Nat) < 2 ^ 8 by decide) (show (1 : Nat) < 2 ^ 4 by decide) (show (0 : Nat) < 2 ^ 6 by decide) d.isLt
  rw [hw] at z0 q_m q_x q_sub q_a q_d hb
  have t_31_27 : bitsOf w 31 27 = 0 := by rw [← bitsOf_bitsOf w 31 24 7 3 (by decide), q_x]; exact s_31_27
  have t_26_24 : bitsOf w 26 24 = 0 := by rw [← bitsOf_bitsOf w 31 24 2 0 (by decide), q_x]; exact s_26_24
  have t_31_29 : bitsOf w 31 29 = 0 := by rw [← bitsOf_bitsOf w 31 24 7 5 (by decide), q_x]; exact s_31_29
  have t_25_24 : bitsOf w 25 24 = 0 := by rw [← bitsOf_bitsOf w 31 24 1 0 (by decide), q_x]; exact s_25_24
  have t_28_26 : bitsOf w 28 26 = 0 := by rw [← bitsOf_bitsOf w 31 24 4 2 (by decide), q_x]; exact s_28_26
  have t_30_24 : bitsOf w 30 24 = 0 := by rw [← bitsOf_bitsOf w 31 24 6 0 (by decide), q_x]; exact s_30_24
  have t_27_24 : bitsOf w 27 24 = 0 := by rw [← bitsOf_bitsOf w 31 24 3 0 (by decide), q_x]; exact s_27_24
  have t_31_25 : bitsOf w 31 25 = 0 := by rw [← bitsOf_bitsOf w 31 24 7 1 (by decide), q_x]; exact s_31_25
  refine ⟨?_, ?_⟩
  · simp [decodeHelmWord, decodeShort, decodeSelector, wMajor, wD, wA, wB, wFn, wSub, wX, wImm, zeroThen, bitsOf_bitsOf, bitOf_eq, z0, q_m, q_x, q_sub, q_a, q_d, t_31_27, s_31_27, t_26_24, s_26_24, t_31_29, s_31_29, t_25_24, s_25_24, t_28_26, s_28_26, t_30_24, s_30_24, t_27_24, s_27_24, t_31_25, s_31_25, checked_of hf]
  · simpa [helmBytes, bitOf_eq, z0] using hb

theorem qJoin (a : GReg) : Statement (.qJoin a) := by
  refine ⟨fun w hf hw => ?_, fun w _ hw => by simp [strandWord] at hw⟩
  simp only [helmWord, Option.some.injEq] at hw
  obtain ⟨b_x, s_31_27, s_26_24, s_31_29, s_25_24, s_28_26, s_30_24, s_27_24, s_31_25⟩ : 0 < 2 ^ 8 ∧ bitsOf (0) 7 3 = 0 ∧ bitsOf (0) 2 0 = 0 ∧ bitsOf (0) 7 5 = 0 ∧ bitsOf (0) 1 0 = 0 ∧ bitsOf (0) 4 2 = 0 ∧ bitsOf (0) 6 0 = 0 ∧ bitsOf (0) 3 0 = 0 ∧ bitsOf (0) 7 1 = 0 := by
    decide
  obtain ⟨z0, q_m, q_x, q_sub, q_a, q_d, hb⟩ := packHS_fields (show (0x33 : Nat) < 2 ^ 7 by decide) (show (0 : Nat) < 2 ^ 8 by decide) (show (0 : Nat) < 2 ^ 4 by decide) a.isLt (show (0 : Nat) < 2 ^ 6 by decide)
  rw [hw] at z0 q_m q_x q_sub q_a q_d hb
  have t_31_27 : bitsOf w 31 27 = 0 := by rw [← bitsOf_bitsOf w 31 24 7 3 (by decide), q_x]; exact s_31_27
  have t_26_24 : bitsOf w 26 24 = 0 := by rw [← bitsOf_bitsOf w 31 24 2 0 (by decide), q_x]; exact s_26_24
  have t_31_29 : bitsOf w 31 29 = 0 := by rw [← bitsOf_bitsOf w 31 24 7 5 (by decide), q_x]; exact s_31_29
  have t_25_24 : bitsOf w 25 24 = 0 := by rw [← bitsOf_bitsOf w 31 24 1 0 (by decide), q_x]; exact s_25_24
  have t_28_26 : bitsOf w 28 26 = 0 := by rw [← bitsOf_bitsOf w 31 24 4 2 (by decide), q_x]; exact s_28_26
  have t_30_24 : bitsOf w 30 24 = 0 := by rw [← bitsOf_bitsOf w 31 24 6 0 (by decide), q_x]; exact s_30_24
  have t_27_24 : bitsOf w 27 24 = 0 := by rw [← bitsOf_bitsOf w 31 24 3 0 (by decide), q_x]; exact s_27_24
  have t_31_25 : bitsOf w 31 25 = 0 := by rw [← bitsOf_bitsOf w 31 24 7 1 (by decide), q_x]; exact s_31_25
  refine ⟨?_, ?_⟩
  · simp [decodeHelmWord, decodeShort, decodeSelector, wMajor, wD, wA, wB, wFn, wSub, wX, wImm, zeroThen, bitsOf_bitsOf, bitOf_eq, z0, q_m, q_x, q_sub, q_a, q_d, t_31_27, s_31_27, t_26_24, s_26_24, t_31_29, s_31_29, t_25_24, s_25_24, t_28_26, s_28_26, t_30_24, s_30_24, t_27_24, s_27_24, t_31_25, s_31_25, checked_of hf]
  · simpa [helmBytes, bitOf_eq, z0] using hb

theorem qMark (d : GReg) (a : GReg) : Statement (.qMark d a) := by
  refine ⟨fun w hf hw => ?_, fun w _ hw => by simp [strandWord] at hw⟩
  simp only [helmWord, Option.some.injEq] at hw
  obtain ⟨b_x, s_31_27, s_26_24, s_31_29, s_25_24, s_28_26, s_30_24, s_27_24, s_31_25⟩ : 0 < 2 ^ 8 ∧ bitsOf (0) 7 3 = 0 ∧ bitsOf (0) 2 0 = 0 ∧ bitsOf (0) 7 5 = 0 ∧ bitsOf (0) 1 0 = 0 ∧ bitsOf (0) 4 2 = 0 ∧ bitsOf (0) 6 0 = 0 ∧ bitsOf (0) 3 0 = 0 ∧ bitsOf (0) 7 1 = 0 := by
    decide
  obtain ⟨z0, q_m, q_x, q_sub, q_a, q_d, hb⟩ := packHS_fields (show (0x34 : Nat) < 2 ^ 7 by decide) (show (0 : Nat) < 2 ^ 8 by decide) (show (0 : Nat) < 2 ^ 4 by decide) a.isLt d.isLt
  rw [hw] at z0 q_m q_x q_sub q_a q_d hb
  have t_31_27 : bitsOf w 31 27 = 0 := by rw [← bitsOf_bitsOf w 31 24 7 3 (by decide), q_x]; exact s_31_27
  have t_26_24 : bitsOf w 26 24 = 0 := by rw [← bitsOf_bitsOf w 31 24 2 0 (by decide), q_x]; exact s_26_24
  have t_31_29 : bitsOf w 31 29 = 0 := by rw [← bitsOf_bitsOf w 31 24 7 5 (by decide), q_x]; exact s_31_29
  have t_25_24 : bitsOf w 25 24 = 0 := by rw [← bitsOf_bitsOf w 31 24 1 0 (by decide), q_x]; exact s_25_24
  have t_28_26 : bitsOf w 28 26 = 0 := by rw [← bitsOf_bitsOf w 31 24 4 2 (by decide), q_x]; exact s_28_26
  have t_30_24 : bitsOf w 30 24 = 0 := by rw [← bitsOf_bitsOf w 31 24 6 0 (by decide), q_x]; exact s_30_24
  have t_27_24 : bitsOf w 27 24 = 0 := by rw [← bitsOf_bitsOf w 31 24 3 0 (by decide), q_x]; exact s_27_24
  have t_31_25 : bitsOf w 31 25 = 0 := by rw [← bitsOf_bitsOf w 31 24 7 1 (by decide), q_x]; exact s_31_25
  refine ⟨?_, ?_⟩
  · simp [decodeHelmWord, decodeShort, decodeSelector, wMajor, wD, wA, wB, wFn, wSub, wX, wImm, zeroThen, bitsOf_bitsOf, bitOf_eq, z0, q_m, q_x, q_sub, q_a, q_d, t_31_27, s_31_27, t_26_24, s_26_24, t_31_29, s_31_29, t_25_24, s_25_24, t_28_26, s_28_26, t_30_24, s_30_24, t_27_24, s_27_24, t_31_25, s_31_25, checked_of hf]
  · simpa [helmBytes, bitOf_eq, z0] using hb

theorem shpGet (d : GReg) (sh : BitVec 3) (item : BitVec 4) : Statement (.shpGet d sh item) := by
  refine ⟨fun w hf hw => ?_, fun w _ hw => by simp [strandWord] at hw⟩
  simp only [helmWord, Option.some.injEq] at hw
  obtain ⟨b_x, s_31_27, s_26_24, s_31_29, s_30_24, s_27_24⟩ : sh.toNat < 2 ^ 8 ∧ bitsOf (sh.toNat) 7 3 = 0 ∧ bitsOf (sh.toNat) 2 0 = sh.toNat ∧ bitsOf (sh.toNat) 7 5 = 0 ∧ bitsOf (sh.toNat) 6 0 = sh.toNat ∧ bitsOf (sh.toNat) 3 0 = sh.toNat := by
    have hn0 : sh.toNat < 8 := sh.isLt
    clear hw hf
    generalize sh.toNat = n0 at hn0 ⊢
    simp only [bitsOf]
    exact ⟨by omega, by omega, by omega, by omega, by omega, by omega⟩
  obtain ⟨z0, q_m, q_x, q_sub, q_a, q_d, hb⟩ := packHS_fields (show (0x35 : Nat) < 2 ^ 7 by decide) (Nat.lt_of_lt_of_le sh.isLt (by decide)) item.isLt (show (0 : Nat) < 2 ^ 6 by decide) d.isLt
  rw [hw] at z0 q_m q_x q_sub q_a q_d hb
  have t_31_27 : bitsOf w 31 27 = 0 := by rw [← bitsOf_bitsOf w 31 24 7 3 (by decide), q_x]; exact s_31_27
  have t_26_24 : bitsOf w 26 24 = sh.toNat := by rw [← bitsOf_bitsOf w 31 24 2 0 (by decide), q_x]; exact s_26_24
  have t_31_29 : bitsOf w 31 29 = 0 := by rw [← bitsOf_bitsOf w 31 24 7 5 (by decide), q_x]; exact s_31_29
  have t_30_24 : bitsOf w 30 24 = sh.toNat := by rw [← bitsOf_bitsOf w 31 24 6 0 (by decide), q_x]; exact s_30_24
  have t_27_24 : bitsOf w 27 24 = sh.toNat := by rw [← bitsOf_bitsOf w 31 24 3 0 (by decide), q_x]; exact s_27_24
  refine ⟨?_, ?_⟩
  · simp [decodeHelmWord, decodeShort, decodeSelector, wMajor, wD, wA, wB, wFn, wSub, wX, wImm, zeroThen, bitsOf_bitsOf, bitOf_eq, z0, q_m, q_x, q_sub, q_a, q_d, t_31_27, s_31_27, t_26_24, s_26_24, t_31_29, s_31_29, t_30_24, s_30_24, t_27_24, s_27_24, checked_of hf]
  · simpa [helmBytes, bitOf_eq, z0] using hb

theorem shpTail (d : GReg) (a : GReg) (sh : BitVec 3) : Statement (.shpTail d a sh) := by
  refine ⟨fun w hf hw => ?_, fun w _ hw => by simp [strandWord] at hw⟩
  simp only [helmWord, Option.some.injEq] at hw
  obtain ⟨b_x, s_31_27, s_26_24, s_31_29, s_30_24, s_27_24⟩ : sh.toNat < 2 ^ 8 ∧ bitsOf (sh.toNat) 7 3 = 0 ∧ bitsOf (sh.toNat) 2 0 = sh.toNat ∧ bitsOf (sh.toNat) 7 5 = 0 ∧ bitsOf (sh.toNat) 6 0 = sh.toNat ∧ bitsOf (sh.toNat) 3 0 = sh.toNat := by
    have hn0 : sh.toNat < 8 := sh.isLt
    clear hw hf
    generalize sh.toNat = n0 at hn0 ⊢
    simp only [bitsOf]
    exact ⟨by omega, by omega, by omega, by omega, by omega, by omega⟩
  obtain ⟨z0, q_m, q_x, q_sub, q_a, q_d, hb⟩ := packHS_fields (show (0x36 : Nat) < 2 ^ 7 by decide) (Nat.lt_of_lt_of_le sh.isLt (by decide)) (show (0 : Nat) < 2 ^ 4 by decide) a.isLt d.isLt
  rw [hw] at z0 q_m q_x q_sub q_a q_d hb
  have t_31_27 : bitsOf w 31 27 = 0 := by rw [← bitsOf_bitsOf w 31 24 7 3 (by decide), q_x]; exact s_31_27
  have t_26_24 : bitsOf w 26 24 = sh.toNat := by rw [← bitsOf_bitsOf w 31 24 2 0 (by decide), q_x]; exact s_26_24
  have t_31_29 : bitsOf w 31 29 = 0 := by rw [← bitsOf_bitsOf w 31 24 7 5 (by decide), q_x]; exact s_31_29
  have t_30_24 : bitsOf w 30 24 = sh.toNat := by rw [← bitsOf_bitsOf w 31 24 6 0 (by decide), q_x]; exact s_30_24
  have t_27_24 : bitsOf w 27 24 = sh.toNat := by rw [← bitsOf_bitsOf w 31 24 3 0 (by decide), q_x]; exact s_27_24
  refine ⟨?_, ?_⟩
  · simp [decodeHelmWord, decodeShort, decodeSelector, wMajor, wD, wA, wB, wFn, wSub, wX, wImm, zeroThen, bitsOf_bitsOf, bitOf_eq, z0, q_m, q_x, q_sub, q_a, q_d, t_31_27, s_31_27, t_26_24, s_26_24, t_31_29, s_31_29, t_30_24, s_30_24, t_27_24, s_27_24, checked_of hf]
  · simpa [helmBytes, bitOf_eq, z0] using hb

theorem rgClaim (d : GReg) (ring : BitVec 4) (scope : BitVec 3) : Statement (.rgClaim d ring scope) := by
  refine ⟨fun w hf hw => ?_, fun w _ hw => by simp [strandWord] at hw⟩
  simp only [helmWord, Option.some.injEq] at hw
  obtain ⟨b_x, s_27_24, s_30_28, s_31_31⟩ : (ring.toNat + scope.toNat * 2 ^ 4) < 2 ^ 8 ∧ bitsOf ((ring.toNat + scope.toNat * 2 ^ 4)) 3 0 = ring.toNat ∧ bitsOf ((ring.toNat + scope.toNat * 2 ^ 4)) 6 4 = scope.toNat ∧ bitsOf ((ring.toNat + scope.toNat * 2 ^ 4)) 7 7 = 0 := by
    have hn0 : ring.toNat < 16 := ring.isLt
    have hn1 : scope.toNat < 8 := scope.isLt
    clear hw hf
    generalize ring.toNat = n0 at hn0 ⊢
    generalize scope.toNat = n1 at hn1 ⊢
    simp only [bitsOf]
    exact ⟨by omega, by omega, by omega, by omega⟩
  obtain ⟨z0, q_m, q_x, q_sub, q_a, q_d, hb⟩ := packHS_fields (show (0x37 : Nat) < 2 ^ 7 by decide) b_x (show (0 : Nat) < 2 ^ 4 by decide) (show (0 : Nat) < 2 ^ 6 by decide) d.isLt
  rw [hw] at z0 q_m q_x q_sub q_a q_d hb
  have t_27_24 : bitsOf w 27 24 = ring.toNat := by rw [← bitsOf_bitsOf w 31 24 3 0 (by decide), q_x]; exact s_27_24
  have t_30_28 : bitsOf w 30 28 = scope.toNat := by rw [← bitsOf_bitsOf w 31 24 6 4 (by decide), q_x]; exact s_30_28
  have t_31_31 : bitsOf w 31 31 = 0 := by rw [← bitsOf_bitsOf w 31 24 7 7 (by decide), q_x]; exact s_31_31
  refine ⟨?_, ?_⟩
  · simp [decodeHelmWord, decodeShort, decodeRing, wMajor, wD, wA, wB, wFn, wSub, wX, wImm, zeroThen, bitsOf_bitsOf, bitOf_eq, z0, q_m, q_x, q_sub, q_a, q_d, t_27_24, s_27_24, t_30_28, s_30_28, t_31_31, s_31_31, checked_of hf]
  · simpa [helmBytes, bitOf_eq, z0] using hb

theorem rgCommit (a : GReg) (ring : BitVec 4) (scope : BitVec 3) : Statement (.rgCommit a ring scope) := by
  refine ⟨fun w hf hw => ?_, fun w _ hw => by simp [strandWord] at hw⟩
  simp only [helmWord, Option.some.injEq] at hw
  obtain ⟨b_x, s_27_24, s_30_28, s_31_31⟩ : (ring.toNat + scope.toNat * 2 ^ 4) < 2 ^ 8 ∧ bitsOf ((ring.toNat + scope.toNat * 2 ^ 4)) 3 0 = ring.toNat ∧ bitsOf ((ring.toNat + scope.toNat * 2 ^ 4)) 6 4 = scope.toNat ∧ bitsOf ((ring.toNat + scope.toNat * 2 ^ 4)) 7 7 = 0 := by
    have hn0 : ring.toNat < 16 := ring.isLt
    have hn1 : scope.toNat < 8 := scope.isLt
    clear hw hf
    generalize ring.toNat = n0 at hn0 ⊢
    generalize scope.toNat = n1 at hn1 ⊢
    simp only [bitsOf]
    exact ⟨by omega, by omega, by omega, by omega⟩
  obtain ⟨z0, q_m, q_x, q_sub, q_a, q_d, hb⟩ := packHS_fields (show (0x37 : Nat) < 2 ^ 7 by decide) b_x (show (1 : Nat) < 2 ^ 4 by decide) a.isLt (show (0 : Nat) < 2 ^ 6 by decide)
  rw [hw] at z0 q_m q_x q_sub q_a q_d hb
  have t_27_24 : bitsOf w 27 24 = ring.toNat := by rw [← bitsOf_bitsOf w 31 24 3 0 (by decide), q_x]; exact s_27_24
  have t_30_28 : bitsOf w 30 28 = scope.toNat := by rw [← bitsOf_bitsOf w 31 24 6 4 (by decide), q_x]; exact s_30_28
  have t_31_31 : bitsOf w 31 31 = 0 := by rw [← bitsOf_bitsOf w 31 24 7 7 (by decide), q_x]; exact s_31_31
  refine ⟨?_, ?_⟩
  · simp [decodeHelmWord, decodeShort, decodeRing, wMajor, wD, wA, wB, wFn, wSub, wX, wImm, zeroThen, bitsOf_bitsOf, bitOf_eq, z0, q_m, q_x, q_sub, q_a, q_d, t_27_24, s_27_24, t_30_28, s_30_28, t_31_31, s_31_31, checked_of hf]
  · simpa [helmBytes, bitOf_eq, z0] using hb

theorem rgWfill (d : GReg) (ring : BitVec 4) (scope : BitVec 3) : Statement (.rgWfill d ring scope) := by
  refine ⟨fun w hf hw => ?_, fun w _ hw => by simp [strandWord] at hw⟩
  simp only [helmWord, Option.some.injEq] at hw
  obtain ⟨b_x, s_27_24, s_30_28, s_31_31⟩ : (ring.toNat + scope.toNat * 2 ^ 4) < 2 ^ 8 ∧ bitsOf ((ring.toNat + scope.toNat * 2 ^ 4)) 3 0 = ring.toNat ∧ bitsOf ((ring.toNat + scope.toNat * 2 ^ 4)) 6 4 = scope.toNat ∧ bitsOf ((ring.toNat + scope.toNat * 2 ^ 4)) 7 7 = 0 := by
    have hn0 : ring.toNat < 16 := ring.isLt
    have hn1 : scope.toNat < 8 := scope.isLt
    clear hw hf
    generalize ring.toNat = n0 at hn0 ⊢
    generalize scope.toNat = n1 at hn1 ⊢
    simp only [bitsOf]
    exact ⟨by omega, by omega, by omega, by omega⟩
  obtain ⟨z0, q_m, q_x, q_sub, q_a, q_d, hb⟩ := packHS_fields (show (0x37 : Nat) < 2 ^ 7 by decide) b_x (show (2 : Nat) < 2 ^ 4 by decide) (show (0 : Nat) < 2 ^ 6 by decide) d.isLt
  rw [hw] at z0 q_m q_x q_sub q_a q_d hb
  have t_27_24 : bitsOf w 27 24 = ring.toNat := by rw [← bitsOf_bitsOf w 31 24 3 0 (by decide), q_x]; exact s_27_24
  have t_30_28 : bitsOf w 30 28 = scope.toNat := by rw [← bitsOf_bitsOf w 31 24 6 4 (by decide), q_x]; exact s_30_28
  have t_31_31 : bitsOf w 31 31 = 0 := by rw [← bitsOf_bitsOf w 31 24 7 7 (by decide), q_x]; exact s_31_31
  refine ⟨?_, ?_⟩
  · simp [decodeHelmWord, decodeShort, decodeRing, wMajor, wD, wA, wB, wFn, wSub, wX, wImm, zeroThen, bitsOf_bitsOf, bitOf_eq, z0, q_m, q_x, q_sub, q_a, q_d, t_27_24, s_27_24, t_30_28, s_30_28, t_31_31, s_31_31, checked_of hf]
  · simpa [helmBytes, bitOf_eq, z0] using hb

theorem rgRelease (a : GReg) (ring : BitVec 4) (scope : BitVec 3) : Statement (.rgRelease a ring scope) := by
  refine ⟨fun w hf hw => ?_, fun w _ hw => by simp [strandWord] at hw⟩
  simp only [helmWord, Option.some.injEq] at hw
  obtain ⟨b_x, s_27_24, s_30_28, s_31_31⟩ : (ring.toNat + scope.toNat * 2 ^ 4) < 2 ^ 8 ∧ bitsOf ((ring.toNat + scope.toNat * 2 ^ 4)) 3 0 = ring.toNat ∧ bitsOf ((ring.toNat + scope.toNat * 2 ^ 4)) 6 4 = scope.toNat ∧ bitsOf ((ring.toNat + scope.toNat * 2 ^ 4)) 7 7 = 0 := by
    have hn0 : ring.toNat < 16 := ring.isLt
    have hn1 : scope.toNat < 8 := scope.isLt
    clear hw hf
    generalize ring.toNat = n0 at hn0 ⊢
    generalize scope.toNat = n1 at hn1 ⊢
    simp only [bitsOf]
    exact ⟨by omega, by omega, by omega, by omega⟩
  obtain ⟨z0, q_m, q_x, q_sub, q_a, q_d, hb⟩ := packHS_fields (show (0x37 : Nat) < 2 ^ 7 by decide) b_x (show (3 : Nat) < 2 ^ 4 by decide) a.isLt (show (0 : Nat) < 2 ^ 6 by decide)
  rw [hw] at z0 q_m q_x q_sub q_a q_d hb
  have t_27_24 : bitsOf w 27 24 = ring.toNat := by rw [← bitsOf_bitsOf w 31 24 3 0 (by decide), q_x]; exact s_27_24
  have t_30_28 : bitsOf w 30 28 = scope.toNat := by rw [← bitsOf_bitsOf w 31 24 6 4 (by decide), q_x]; exact s_30_28
  have t_31_31 : bitsOf w 31 31 = 0 := by rw [← bitsOf_bitsOf w 31 24 7 7 (by decide), q_x]; exact s_31_31
  refine ⟨?_, ?_⟩
  · simp [decodeHelmWord, decodeShort, decodeRing, wMajor, wD, wA, wB, wFn, wSub, wX, wImm, zeroThen, bitsOf_bitsOf, bitOf_eq, z0, q_m, q_x, q_sub, q_a, q_d, t_27_24, s_27_24, t_30_28, s_30_28, t_31_31, s_31_31, checked_of hf]
  · simpa [helmBytes, bitOf_eq, z0] using hb

theorem rgEos (ring : BitVec 4) (scope : BitVec 3) : Statement (.rgEos ring scope) := by
  refine ⟨fun w hf hw => ?_, fun w _ hw => by simp [strandWord] at hw⟩
  simp only [helmWord, Option.some.injEq] at hw
  obtain ⟨b_x, s_27_24, s_30_28, s_31_31⟩ : (ring.toNat + scope.toNat * 2 ^ 4) < 2 ^ 8 ∧ bitsOf ((ring.toNat + scope.toNat * 2 ^ 4)) 3 0 = ring.toNat ∧ bitsOf ((ring.toNat + scope.toNat * 2 ^ 4)) 6 4 = scope.toNat ∧ bitsOf ((ring.toNat + scope.toNat * 2 ^ 4)) 7 7 = 0 := by
    have hn0 : ring.toNat < 16 := ring.isLt
    have hn1 : scope.toNat < 8 := scope.isLt
    clear hw hf
    generalize ring.toNat = n0 at hn0 ⊢
    generalize scope.toNat = n1 at hn1 ⊢
    simp only [bitsOf]
    exact ⟨by omega, by omega, by omega, by omega⟩
  obtain ⟨z0, q_m, q_x, q_sub, q_a, q_d, hb⟩ := packHS_fields (show (0x37 : Nat) < 2 ^ 7 by decide) b_x (show (4 : Nat) < 2 ^ 4 by decide) (show (0 : Nat) < 2 ^ 6 by decide) (show (0 : Nat) < 2 ^ 6 by decide)
  rw [hw] at z0 q_m q_x q_sub q_a q_d hb
  have t_27_24 : bitsOf w 27 24 = ring.toNat := by rw [← bitsOf_bitsOf w 31 24 3 0 (by decide), q_x]; exact s_27_24
  have t_30_28 : bitsOf w 30 28 = scope.toNat := by rw [← bitsOf_bitsOf w 31 24 6 4 (by decide), q_x]; exact s_30_28
  have t_31_31 : bitsOf w 31 31 = 0 := by rw [← bitsOf_bitsOf w 31 24 7 7 (by decide), q_x]; exact s_31_31
  refine ⟨?_, ?_⟩
  · simp [decodeHelmWord, decodeShort, decodeRing, wMajor, wD, wA, wB, wFn, wSub, wX, wImm, zeroThen, bitsOf_bitsOf, bitOf_eq, z0, q_m, q_x, q_sub, q_a, q_d, t_27_24, s_27_24, t_30_28, s_30_28, t_31_31, s_31_31, checked_of hf]
  · simpa [helmBytes, bitOf_eq, z0] using hb

theorem rgAbort (ring : BitVec 4) : Statement (.rgAbort ring) := by
  refine ⟨fun w hf hw => ?_, fun w _ hw => by simp [strandWord] at hw⟩
  simp only [helmWord, Option.some.injEq] at hw
  obtain ⟨b_x, s_27_24, s_30_28, s_31_31⟩ : ring.toNat < 2 ^ 8 ∧ bitsOf (ring.toNat) 3 0 = ring.toNat ∧ bitsOf (ring.toNat) 6 4 = 0 ∧ bitsOf (ring.toNat) 7 7 = 0 := by
    have hn0 : ring.toNat < 16 := ring.isLt
    clear hw hf
    generalize ring.toNat = n0 at hn0 ⊢
    simp only [bitsOf]
    exact ⟨by omega, by omega, by omega, by omega⟩
  obtain ⟨z0, q_m, q_x, q_sub, q_a, q_d, hb⟩ := packHS_fields (show (0x37 : Nat) < 2 ^ 7 by decide) (Nat.lt_of_lt_of_le ring.isLt (by decide)) (show (5 : Nat) < 2 ^ 4 by decide) (show (0 : Nat) < 2 ^ 6 by decide) (show (0 : Nat) < 2 ^ 6 by decide)
  rw [hw] at z0 q_m q_x q_sub q_a q_d hb
  have t_27_24 : bitsOf w 27 24 = ring.toNat := by rw [← bitsOf_bitsOf w 31 24 3 0 (by decide), q_x]; exact s_27_24
  have t_30_28 : bitsOf w 30 28 = 0 := by rw [← bitsOf_bitsOf w 31 24 6 4 (by decide), q_x]; exact s_30_28
  have t_31_31 : bitsOf w 31 31 = 0 := by rw [← bitsOf_bitsOf w 31 24 7 7 (by decide), q_x]; exact s_31_31
  refine ⟨?_, ?_⟩
  · simp [decodeHelmWord, decodeShort, decodeRing, wMajor, wD, wA, wB, wFn, wSub, wX, wImm, zeroThen, bitsOf_bitsOf, bitOf_eq, z0, q_m, q_x, q_sub, q_a, q_d, t_27_24, s_27_24, t_30_28, s_30_28, t_31_31, s_31_31, checked_of hf]
  · simpa [helmBytes, bitOf_eq, z0] using hb

theorem rgStat (d : GReg) (ring : BitVec 4) : Statement (.rgStat d ring) := by
  refine ⟨fun w hf hw => ?_, fun w _ hw => by simp [strandWord] at hw⟩
  simp only [helmWord, Option.some.injEq] at hw
  obtain ⟨b_x, s_27_24, s_30_28, s_31_31⟩ : ring.toNat < 2 ^ 8 ∧ bitsOf (ring.toNat) 3 0 = ring.toNat ∧ bitsOf (ring.toNat) 6 4 = 0 ∧ bitsOf (ring.toNat) 7 7 = 0 := by
    have hn0 : ring.toNat < 16 := ring.isLt
    clear hw hf
    generalize ring.toNat = n0 at hn0 ⊢
    simp only [bitsOf]
    exact ⟨by omega, by omega, by omega, by omega⟩
  obtain ⟨z0, q_m, q_x, q_sub, q_a, q_d, hb⟩ := packHS_fields (show (0x37 : Nat) < 2 ^ 7 by decide) (Nat.lt_of_lt_of_le ring.isLt (by decide)) (show (6 : Nat) < 2 ^ 4 by decide) (show (0 : Nat) < 2 ^ 6 by decide) d.isLt
  rw [hw] at z0 q_m q_x q_sub q_a q_d hb
  have t_27_24 : bitsOf w 27 24 = ring.toNat := by rw [← bitsOf_bitsOf w 31 24 3 0 (by decide), q_x]; exact s_27_24
  have t_30_28 : bitsOf w 30 28 = 0 := by rw [← bitsOf_bitsOf w 31 24 6 4 (by decide), q_x]; exact s_30_28
  have t_31_31 : bitsOf w 31 31 = 0 := by rw [← bitsOf_bitsOf w 31 24 7 7 (by decide), q_x]; exact s_31_31
  refine ⟨?_, ?_⟩
  · simp [decodeHelmWord, decodeShort, decodeRing, wMajor, wD, wA, wB, wFn, wSub, wX, wImm, zeroThen, bitsOf_bitsOf, bitOf_eq, z0, q_m, q_x, q_sub, q_a, q_d, t_27_24, s_27_24, t_30_28, s_30_28, t_31_31, s_31_31, checked_of hf]
  · simpa [helmBytes, bitOf_eq, z0] using hb

theorem wpArrive (d : GReg) (a : GReg) (ord : BitVec 2) (scope : BitVec 3) : Statement (.wpArrive d a ord scope) := by
  refine ⟨fun w hf hw => ?_, fun w _ hw => by simp [strandWord] at hw⟩
  simp only [helmWord, Option.some.injEq] at hw
  obtain ⟨b_x, s_25_24, s_28_26, s_31_29⟩ : (ord.toNat + scope.toNat * 2 ^ 2) < 2 ^ 8 ∧ bitsOf ((ord.toNat + scope.toNat * 2 ^ 2)) 1 0 = ord.toNat ∧ bitsOf ((ord.toNat + scope.toNat * 2 ^ 2)) 4 2 = scope.toNat ∧ bitsOf ((ord.toNat + scope.toNat * 2 ^ 2)) 7 5 = 0 := by
    have hn0 : ord.toNat < 4 := ord.isLt
    have hn1 : scope.toNat < 8 := scope.isLt
    have hn3 : d.toNat < 64 := d.isLt
    clear hw hf
    generalize ord.toNat = n0 at hn0 ⊢
    generalize scope.toNat = n1 at hn1 ⊢
    generalize d.toNat = n3 at hn3 ⊢
    simp only [bitsOf]
    exact ⟨by omega, by omega, by omega, by omega⟩
  obtain ⟨z0, q_m, q_x, q_sub, q_a, q_d, hb⟩ := packHS_fields (show (0x38 : Nat) < 2 ^ 7 by decide) b_x (show (0 : Nat) < 2 ^ 4 by decide) a.isLt d.isLt
  rw [hw] at z0 q_m q_x q_sub q_a q_d hb
  have t_25_24 : bitsOf w 25 24 = ord.toNat := by rw [← bitsOf_bitsOf w 31 24 1 0 (by decide), q_x]; exact s_25_24
  have t_28_26 : bitsOf w 28 26 = scope.toNat := by rw [← bitsOf_bitsOf w 31 24 4 2 (by decide), q_x]; exact s_28_26
  have t_31_29 : bitsOf w 31 29 = 0 := by rw [← bitsOf_bitsOf w 31 24 7 5 (by decide), q_x]; exact s_31_29
  refine ⟨?_, ?_⟩
  · simp [decodeHelmWord, decodeShort, decodeWaypoint, wMajor, wD, wA, wB, wFn, wSub, wX, wImm, zeroThen, bitsOf_bitsOf, bitOf_eq, z0, q_m, q_x, q_sub, q_a, q_d, t_25_24, s_25_24, t_28_26, s_28_26, t_31_29, s_31_29, checked_of hf]
  · simpa [helmBytes, bitOf_eq, z0] using hb

theorem wpExpect (d : GReg) (a : GReg) : Statement (.wpExpect d a) := by
  refine ⟨fun w hf hw => ?_, fun w _ hw => by simp [strandWord] at hw⟩
  simp only [helmWord, Option.some.injEq] at hw
  obtain ⟨b_x, s_25_24, s_28_26, s_31_29⟩ : 0 < 2 ^ 8 ∧ bitsOf (0) 1 0 = 0 ∧ bitsOf (0) 4 2 = 0 ∧ bitsOf (0) 7 5 = 0 := by
    decide
  obtain ⟨z0, q_m, q_x, q_sub, q_a, q_d, hb⟩ := packHS_fields (show (0x38 : Nat) < 2 ^ 7 by decide) (show (0 : Nat) < 2 ^ 8 by decide) (show (1 : Nat) < 2 ^ 4 by decide) a.isLt d.isLt
  rw [hw] at z0 q_m q_x q_sub q_a q_d hb
  have t_25_24 : bitsOf w 25 24 = 0 := by rw [← bitsOf_bitsOf w 31 24 1 0 (by decide), q_x]; exact s_25_24
  have t_28_26 : bitsOf w 28 26 = 0 := by rw [← bitsOf_bitsOf w 31 24 4 2 (by decide), q_x]; exact s_28_26
  have t_31_29 : bitsOf w 31 29 = 0 := by rw [← bitsOf_bitsOf w 31 24 7 5 (by decide), q_x]; exact s_31_29
  refine ⟨?_, ?_⟩
  · simp [decodeHelmWord, decodeShort, decodeWaypoint, wMajor, wD, wA, wB, wFn, wSub, wX, wImm, zeroThen, bitsOf_bitsOf, bitOf_eq, z0, q_m, q_x, q_sub, q_a, q_d, t_25_24, s_25_24, t_28_26, s_28_26, t_31_29, s_31_29, checked_of hf]
  · simpa [helmBytes, bitOf_eq, z0] using hb

theorem wpWait (d : GReg) (a : GReg) (ord : BitVec 2) (scope : BitVec 3) : Statement (.wpWait d a ord scope) := by
  refine ⟨fun w hf hw => ?_, fun w _ hw => by simp [strandWord] at hw⟩
  simp only [helmWord, Option.some.injEq] at hw
  obtain ⟨b_x, s_25_24, s_28_26, s_31_29⟩ : (ord.toNat + scope.toNat * 2 ^ 2) < 2 ^ 8 ∧ bitsOf ((ord.toNat + scope.toNat * 2 ^ 2)) 1 0 = ord.toNat ∧ bitsOf ((ord.toNat + scope.toNat * 2 ^ 2)) 4 2 = scope.toNat ∧ bitsOf ((ord.toNat + scope.toNat * 2 ^ 2)) 7 5 = 0 := by
    have hn0 : ord.toNat < 4 := ord.isLt
    have hn1 : scope.toNat < 8 := scope.isLt
    have hn3 : d.toNat < 64 := d.isLt
    clear hw hf
    generalize ord.toNat = n0 at hn0 ⊢
    generalize scope.toNat = n1 at hn1 ⊢
    generalize d.toNat = n3 at hn3 ⊢
    simp only [bitsOf]
    exact ⟨by omega, by omega, by omega, by omega⟩
  obtain ⟨z0, q_m, q_x, q_sub, q_a, q_d, hb⟩ := packHS_fields (show (0x38 : Nat) < 2 ^ 7 by decide) b_x (show (2 : Nat) < 2 ^ 4 by decide) a.isLt d.isLt
  rw [hw] at z0 q_m q_x q_sub q_a q_d hb
  have t_25_24 : bitsOf w 25 24 = ord.toNat := by rw [← bitsOf_bitsOf w 31 24 1 0 (by decide), q_x]; exact s_25_24
  have t_28_26 : bitsOf w 28 26 = scope.toNat := by rw [← bitsOf_bitsOf w 31 24 4 2 (by decide), q_x]; exact s_28_26
  have t_31_29 : bitsOf w 31 29 = 0 := by rw [← bitsOf_bitsOf w 31 24 7 5 (by decide), q_x]; exact s_31_29
  refine ⟨?_, ?_⟩
  · simp [decodeHelmWord, decodeShort, decodeWaypoint, wMajor, wD, wA, wB, wFn, wSub, wX, wImm, zeroThen, bitsOf_bitsOf, bitOf_eq, z0, q_m, q_x, q_sub, q_a, q_d, t_25_24, s_25_24, t_28_26, s_28_26, t_31_29, s_31_29, checked_of hf]
  · simpa [helmBytes, bitOf_eq, z0] using hb

theorem wpTest (d : GReg) (a : GReg) (ord : BitVec 2) (scope : BitVec 3) : Statement (.wpTest d a ord scope) := by
  refine ⟨fun w hf hw => ?_, fun w _ hw => by simp [strandWord] at hw⟩
  simp only [helmWord, Option.some.injEq] at hw
  obtain ⟨b_x, s_25_24, s_28_26, s_31_29⟩ : (ord.toNat + scope.toNat * 2 ^ 2) < 2 ^ 8 ∧ bitsOf ((ord.toNat + scope.toNat * 2 ^ 2)) 1 0 = ord.toNat ∧ bitsOf ((ord.toNat + scope.toNat * 2 ^ 2)) 4 2 = scope.toNat ∧ bitsOf ((ord.toNat + scope.toNat * 2 ^ 2)) 7 5 = 0 := by
    have hn0 : ord.toNat < 4 := ord.isLt
    have hn1 : scope.toNat < 8 := scope.isLt
    have hn3 : d.toNat < 64 := d.isLt
    clear hw hf
    generalize ord.toNat = n0 at hn0 ⊢
    generalize scope.toNat = n1 at hn1 ⊢
    generalize d.toNat = n3 at hn3 ⊢
    simp only [bitsOf]
    exact ⟨by omega, by omega, by omega, by omega⟩
  obtain ⟨z0, q_m, q_x, q_sub, q_a, q_d, hb⟩ := packHS_fields (show (0x38 : Nat) < 2 ^ 7 by decide) b_x (show (3 : Nat) < 2 ^ 4 by decide) a.isLt d.isLt
  rw [hw] at z0 q_m q_x q_sub q_a q_d hb
  have t_25_24 : bitsOf w 25 24 = ord.toNat := by rw [← bitsOf_bitsOf w 31 24 1 0 (by decide), q_x]; exact s_25_24
  have t_28_26 : bitsOf w 28 26 = scope.toNat := by rw [← bitsOf_bitsOf w 31 24 4 2 (by decide), q_x]; exact s_28_26
  have t_31_29 : bitsOf w 31 29 = 0 := by rw [← bitsOf_bitsOf w 31 24 7 5 (by decide), q_x]; exact s_31_29
  refine ⟨?_, ?_⟩
  · simp [decodeHelmWord, decodeShort, decodeWaypoint, wMajor, wD, wA, wB, wFn, wSub, wX, wImm, zeroThen, bitsOf_bitsOf, bitOf_eq, z0, q_m, q_x, q_sub, q_a, q_d, t_25_24, s_25_24, t_28_26, s_28_26, t_31_29, s_31_29, checked_of hf]
  · simpa [helmBytes, bitOf_eq, z0] using hb

theorem wpStat (d : GReg) (a : GReg) : Statement (.wpStat d a) := by
  refine ⟨fun w hf hw => ?_, fun w _ hw => by simp [strandWord] at hw⟩
  simp only [helmWord, Option.some.injEq] at hw
  obtain ⟨b_x, s_25_24, s_28_26, s_31_29⟩ : 0 < 2 ^ 8 ∧ bitsOf (0) 1 0 = 0 ∧ bitsOf (0) 4 2 = 0 ∧ bitsOf (0) 7 5 = 0 := by
    decide
  obtain ⟨z0, q_m, q_x, q_sub, q_a, q_d, hb⟩ := packHS_fields (show (0x38 : Nat) < 2 ^ 7 by decide) (show (0 : Nat) < 2 ^ 8 by decide) (show (4 : Nat) < 2 ^ 4 by decide) a.isLt d.isLt
  rw [hw] at z0 q_m q_x q_sub q_a q_d hb
  have t_25_24 : bitsOf w 25 24 = 0 := by rw [← bitsOf_bitsOf w 31 24 1 0 (by decide), q_x]; exact s_25_24
  have t_28_26 : bitsOf w 28 26 = 0 := by rw [← bitsOf_bitsOf w 31 24 4 2 (by decide), q_x]; exact s_28_26
  have t_31_29 : bitsOf w 31 29 = 0 := by rw [← bitsOf_bitsOf w 31 24 7 5 (by decide), q_x]; exact s_31_29
  refine ⟨?_, ?_⟩
  · simp [decodeHelmWord, decodeShort, decodeWaypoint, wMajor, wD, wA, wB, wFn, wSub, wX, wImm, zeroThen, bitsOf_bitsOf, bitOf_eq, z0, q_m, q_x, q_sub, q_a, q_d, t_25_24, s_25_24, t_28_26, s_28_26, t_31_29, s_31_29, checked_of hf]
  · simpa [helmBytes, bitOf_eq, z0] using hb

theorem atAdd (d : GReg) (a : GReg) (dbl : Bool) (ord : BitVec 2) (scope : BitVec 3) : Statement (.atAdd d a dbl ord scope) := by
  refine ⟨fun w hf hw => ?_, fun w _ hw => by simp [strandWord] at hw⟩
  simp only [helmWord, Option.some.injEq] at hw
  obtain ⟨b_x, s_25_24, s_28_26, s_30_30, s_31_31, s_29_29⟩ : (ord.toNat + scope.toNat * 2 ^ 2 + 0 * 2 ^ 6) < 2 ^ 8 ∧ bitsOf ((ord.toNat + scope.toNat * 2 ^ 2 + 0 * 2 ^ 6)) 1 0 = ord.toNat ∧ bitsOf ((ord.toNat + scope.toNat * 2 ^ 2 + 0 * 2 ^ 6)) 4 2 = scope.toNat ∧ bitsOf ((ord.toNat + scope.toNat * 2 ^ 2 + 0 * 2 ^ 6)) 6 6 = 0 ∧ bitsOf ((ord.toNat + scope.toNat * 2 ^ 2 + 0 * 2 ^ 6)) 7 7 = 0 ∧ bitsOf ((ord.toNat + scope.toNat * 2 ^ 2 + 0 * 2 ^ 6)) 5 5 = 0 := by
    have hn0 : ord.toNat < 4 := ord.isLt
    have hn1 : scope.toNat < 8 := scope.isLt
    have hn4 : d.toNat < 64 := d.isLt
    clear hw hf
    generalize ord.toNat = n0 at hn0 ⊢
    generalize scope.toNat = n1 at hn1 ⊢
    generalize d.toNat = n4 at hn4 ⊢
    simp only [bitsOf]
    exact ⟨by omega, by omega, by omega, by omega, by omega, by omega⟩
  obtain ⟨b_sub, s_23_23, s_22_20⟩ : (0 + b2n dbl * 2 ^ 3) < 2 ^ 4 ∧ bitsOf ((0 + b2n dbl * 2 ^ 3)) 3 3 = b2n dbl ∧ bitsOf ((0 + b2n dbl * 2 ^ 3)) 2 0 = 0 := by
    have hn2 : b2n dbl < 2 := b2n_lt _
    clear hw hf
    generalize b2n dbl = n2 at hn2 ⊢
    simp only [bitsOf]
    exact ⟨by omega, by omega, by omega⟩
  obtain ⟨z0, q_m, q_x, q_sub, q_a, q_d, hb⟩ := packHS_fields (show (0x39 : Nat) < 2 ^ 7 by decide) b_x b_sub a.isLt d.isLt
  rw [hw] at z0 q_m q_x q_sub q_a q_d hb
  have t_25_24 : bitsOf w 25 24 = ord.toNat := by rw [← bitsOf_bitsOf w 31 24 1 0 (by decide), q_x]; exact s_25_24
  have t_28_26 : bitsOf w 28 26 = scope.toNat := by rw [← bitsOf_bitsOf w 31 24 4 2 (by decide), q_x]; exact s_28_26
  have t_23_23 : bitsOf w 23 23 = b2n dbl := by rw [← bitsOf_bitsOf w 23 20 3 3 (by decide), q_sub]; exact s_23_23
  have t_30_30 : bitsOf w 30 30 = 0 := by rw [← bitsOf_bitsOf w 31 24 6 6 (by decide), q_x]; exact s_30_30
  have t_31_31 : bitsOf w 31 31 = 0 := by rw [← bitsOf_bitsOf w 31 24 7 7 (by decide), q_x]; exact s_31_31
  have t_29_29 : bitsOf w 29 29 = 0 := by rw [← bitsOf_bitsOf w 31 24 5 5 (by decide), q_x]; exact s_29_29
  have t_22_20 : bitsOf w 22 20 = 0 := by rw [← bitsOf_bitsOf w 23 20 2 0 (by decide), q_sub]; exact s_22_20
  have u_25_24 : bitsOf ((ord.toNat + scope.toNat * 2 ^ 2)) 1 0 = ord.toNat := by simpa only [Nat.zero_mul, Nat.add_zero] using s_25_24
  have u_28_26 : bitsOf ((ord.toNat + scope.toNat * 2 ^ 2)) 4 2 = scope.toNat := by simpa only [Nat.zero_mul, Nat.add_zero] using s_28_26
  have u_30_30 : bitsOf ((ord.toNat + scope.toNat * 2 ^ 2)) 6 6 = 0 := by simpa only [Nat.zero_mul, Nat.add_zero] using s_30_30
  have u_31_31 : bitsOf ((ord.toNat + scope.toNat * 2 ^ 2)) 7 7 = 0 := by simpa only [Nat.zero_mul, Nat.add_zero] using s_31_31
  have u_29_29 : bitsOf ((ord.toNat + scope.toNat * 2 ^ 2)) 5 5 = 0 := by simpa only [Nat.zero_mul, Nat.add_zero] using s_29_29
  refine ⟨?_, ?_⟩
  · simp [decodeHelmWord, decodeShort, decodeAtomic, wMajor, wD, wA, wB, wFn, wSub, wX, wImm, zeroThen, bitsOf_bitsOf, bitOf_eq, z0, q_m, q_x, q_sub, q_a, q_d, t_25_24, s_25_24, t_28_26, s_28_26, t_23_23, s_23_23, t_30_30, s_30_30, t_31_31, s_31_31, t_29_29, s_29_29, t_22_20, s_22_20, u_25_24, u_28_26, u_30_30, u_31_31, u_29_29, checked_of hf]
  · simpa [helmBytes, bitOf_eq, z0] using hb

theorem atAnd (d : GReg) (a : GReg) (dbl : Bool) (ord : BitVec 2) (scope : BitVec 3) : Statement (.atAnd d a dbl ord scope) := by
  refine ⟨fun w hf hw => ?_, fun w _ hw => by simp [strandWord] at hw⟩
  simp only [helmWord, Option.some.injEq] at hw
  obtain ⟨b_x, s_25_24, s_28_26, s_30_30, s_31_31, s_29_29⟩ : (ord.toNat + scope.toNat * 2 ^ 2 + 0 * 2 ^ 6) < 2 ^ 8 ∧ bitsOf ((ord.toNat + scope.toNat * 2 ^ 2 + 0 * 2 ^ 6)) 1 0 = ord.toNat ∧ bitsOf ((ord.toNat + scope.toNat * 2 ^ 2 + 0 * 2 ^ 6)) 4 2 = scope.toNat ∧ bitsOf ((ord.toNat + scope.toNat * 2 ^ 2 + 0 * 2 ^ 6)) 6 6 = 0 ∧ bitsOf ((ord.toNat + scope.toNat * 2 ^ 2 + 0 * 2 ^ 6)) 7 7 = 0 ∧ bitsOf ((ord.toNat + scope.toNat * 2 ^ 2 + 0 * 2 ^ 6)) 5 5 = 0 := by
    have hn0 : ord.toNat < 4 := ord.isLt
    have hn1 : scope.toNat < 8 := scope.isLt
    have hn4 : d.toNat < 64 := d.isLt
    clear hw hf
    generalize ord.toNat = n0 at hn0 ⊢
    generalize scope.toNat = n1 at hn1 ⊢
    generalize d.toNat = n4 at hn4 ⊢
    simp only [bitsOf]
    exact ⟨by omega, by omega, by omega, by omega, by omega, by omega⟩
  obtain ⟨b_sub, s_23_23, s_22_20⟩ : (1 + b2n dbl * 2 ^ 3) < 2 ^ 4 ∧ bitsOf ((1 + b2n dbl * 2 ^ 3)) 3 3 = b2n dbl ∧ bitsOf ((1 + b2n dbl * 2 ^ 3)) 2 0 = 1 := by
    have hn2 : b2n dbl < 2 := b2n_lt _
    clear hw hf
    generalize b2n dbl = n2 at hn2 ⊢
    simp only [bitsOf]
    exact ⟨by omega, by omega, by omega⟩
  obtain ⟨z0, q_m, q_x, q_sub, q_a, q_d, hb⟩ := packHS_fields (show (0x39 : Nat) < 2 ^ 7 by decide) b_x b_sub a.isLt d.isLt
  rw [hw] at z0 q_m q_x q_sub q_a q_d hb
  have t_25_24 : bitsOf w 25 24 = ord.toNat := by rw [← bitsOf_bitsOf w 31 24 1 0 (by decide), q_x]; exact s_25_24
  have t_28_26 : bitsOf w 28 26 = scope.toNat := by rw [← bitsOf_bitsOf w 31 24 4 2 (by decide), q_x]; exact s_28_26
  have t_23_23 : bitsOf w 23 23 = b2n dbl := by rw [← bitsOf_bitsOf w 23 20 3 3 (by decide), q_sub]; exact s_23_23
  have t_30_30 : bitsOf w 30 30 = 0 := by rw [← bitsOf_bitsOf w 31 24 6 6 (by decide), q_x]; exact s_30_30
  have t_31_31 : bitsOf w 31 31 = 0 := by rw [← bitsOf_bitsOf w 31 24 7 7 (by decide), q_x]; exact s_31_31
  have t_29_29 : bitsOf w 29 29 = 0 := by rw [← bitsOf_bitsOf w 31 24 5 5 (by decide), q_x]; exact s_29_29
  have t_22_20 : bitsOf w 22 20 = 1 := by rw [← bitsOf_bitsOf w 23 20 2 0 (by decide), q_sub]; exact s_22_20
  have u_25_24 : bitsOf ((ord.toNat + scope.toNat * 2 ^ 2)) 1 0 = ord.toNat := by simpa only [Nat.zero_mul, Nat.add_zero] using s_25_24
  have u_28_26 : bitsOf ((ord.toNat + scope.toNat * 2 ^ 2)) 4 2 = scope.toNat := by simpa only [Nat.zero_mul, Nat.add_zero] using s_28_26
  have u_30_30 : bitsOf ((ord.toNat + scope.toNat * 2 ^ 2)) 6 6 = 0 := by simpa only [Nat.zero_mul, Nat.add_zero] using s_30_30
  have u_31_31 : bitsOf ((ord.toNat + scope.toNat * 2 ^ 2)) 7 7 = 0 := by simpa only [Nat.zero_mul, Nat.add_zero] using s_31_31
  have u_29_29 : bitsOf ((ord.toNat + scope.toNat * 2 ^ 2)) 5 5 = 0 := by simpa only [Nat.zero_mul, Nat.add_zero] using s_29_29
  refine ⟨?_, ?_⟩
  · simp [decodeHelmWord, decodeShort, decodeAtomic, wMajor, wD, wA, wB, wFn, wSub, wX, wImm, zeroThen, bitsOf_bitsOf, bitOf_eq, z0, q_m, q_x, q_sub, q_a, q_d, t_25_24, s_25_24, t_28_26, s_28_26, t_23_23, s_23_23, t_30_30, s_30_30, t_31_31, s_31_31, t_29_29, s_29_29, t_22_20, s_22_20, u_25_24, u_28_26, u_30_30, u_31_31, u_29_29, checked_of hf]
  · simpa [helmBytes, bitOf_eq, z0] using hb

theorem atOr (d : GReg) (a : GReg) (dbl : Bool) (ord : BitVec 2) (scope : BitVec 3) : Statement (.atOr d a dbl ord scope) := by
  refine ⟨fun w hf hw => ?_, fun w _ hw => by simp [strandWord] at hw⟩
  simp only [helmWord, Option.some.injEq] at hw
  obtain ⟨b_x, s_25_24, s_28_26, s_30_30, s_31_31, s_29_29⟩ : (ord.toNat + scope.toNat * 2 ^ 2 + 0 * 2 ^ 6) < 2 ^ 8 ∧ bitsOf ((ord.toNat + scope.toNat * 2 ^ 2 + 0 * 2 ^ 6)) 1 0 = ord.toNat ∧ bitsOf ((ord.toNat + scope.toNat * 2 ^ 2 + 0 * 2 ^ 6)) 4 2 = scope.toNat ∧ bitsOf ((ord.toNat + scope.toNat * 2 ^ 2 + 0 * 2 ^ 6)) 6 6 = 0 ∧ bitsOf ((ord.toNat + scope.toNat * 2 ^ 2 + 0 * 2 ^ 6)) 7 7 = 0 ∧ bitsOf ((ord.toNat + scope.toNat * 2 ^ 2 + 0 * 2 ^ 6)) 5 5 = 0 := by
    have hn0 : ord.toNat < 4 := ord.isLt
    have hn1 : scope.toNat < 8 := scope.isLt
    have hn4 : d.toNat < 64 := d.isLt
    clear hw hf
    generalize ord.toNat = n0 at hn0 ⊢
    generalize scope.toNat = n1 at hn1 ⊢
    generalize d.toNat = n4 at hn4 ⊢
    simp only [bitsOf]
    exact ⟨by omega, by omega, by omega, by omega, by omega, by omega⟩
  obtain ⟨b_sub, s_23_23, s_22_20⟩ : (2 + b2n dbl * 2 ^ 3) < 2 ^ 4 ∧ bitsOf ((2 + b2n dbl * 2 ^ 3)) 3 3 = b2n dbl ∧ bitsOf ((2 + b2n dbl * 2 ^ 3)) 2 0 = 2 := by
    have hn2 : b2n dbl < 2 := b2n_lt _
    clear hw hf
    generalize b2n dbl = n2 at hn2 ⊢
    simp only [bitsOf]
    exact ⟨by omega, by omega, by omega⟩
  obtain ⟨z0, q_m, q_x, q_sub, q_a, q_d, hb⟩ := packHS_fields (show (0x39 : Nat) < 2 ^ 7 by decide) b_x b_sub a.isLt d.isLt
  rw [hw] at z0 q_m q_x q_sub q_a q_d hb
  have t_25_24 : bitsOf w 25 24 = ord.toNat := by rw [← bitsOf_bitsOf w 31 24 1 0 (by decide), q_x]; exact s_25_24
  have t_28_26 : bitsOf w 28 26 = scope.toNat := by rw [← bitsOf_bitsOf w 31 24 4 2 (by decide), q_x]; exact s_28_26
  have t_23_23 : bitsOf w 23 23 = b2n dbl := by rw [← bitsOf_bitsOf w 23 20 3 3 (by decide), q_sub]; exact s_23_23
  have t_30_30 : bitsOf w 30 30 = 0 := by rw [← bitsOf_bitsOf w 31 24 6 6 (by decide), q_x]; exact s_30_30
  have t_31_31 : bitsOf w 31 31 = 0 := by rw [← bitsOf_bitsOf w 31 24 7 7 (by decide), q_x]; exact s_31_31
  have t_29_29 : bitsOf w 29 29 = 0 := by rw [← bitsOf_bitsOf w 31 24 5 5 (by decide), q_x]; exact s_29_29
  have t_22_20 : bitsOf w 22 20 = 2 := by rw [← bitsOf_bitsOf w 23 20 2 0 (by decide), q_sub]; exact s_22_20
  have u_25_24 : bitsOf ((ord.toNat + scope.toNat * 2 ^ 2)) 1 0 = ord.toNat := by simpa only [Nat.zero_mul, Nat.add_zero] using s_25_24
  have u_28_26 : bitsOf ((ord.toNat + scope.toNat * 2 ^ 2)) 4 2 = scope.toNat := by simpa only [Nat.zero_mul, Nat.add_zero] using s_28_26
  have u_30_30 : bitsOf ((ord.toNat + scope.toNat * 2 ^ 2)) 6 6 = 0 := by simpa only [Nat.zero_mul, Nat.add_zero] using s_30_30
  have u_31_31 : bitsOf ((ord.toNat + scope.toNat * 2 ^ 2)) 7 7 = 0 := by simpa only [Nat.zero_mul, Nat.add_zero] using s_31_31
  have u_29_29 : bitsOf ((ord.toNat + scope.toNat * 2 ^ 2)) 5 5 = 0 := by simpa only [Nat.zero_mul, Nat.add_zero] using s_29_29
  refine ⟨?_, ?_⟩
  · simp [decodeHelmWord, decodeShort, decodeAtomic, wMajor, wD, wA, wB, wFn, wSub, wX, wImm, zeroThen, bitsOf_bitsOf, bitOf_eq, z0, q_m, q_x, q_sub, q_a, q_d, t_25_24, s_25_24, t_28_26, s_28_26, t_23_23, s_23_23, t_30_30, s_30_30, t_31_31, s_31_31, t_29_29, s_29_29, t_22_20, s_22_20, u_25_24, u_28_26, u_30_30, u_31_31, u_29_29, checked_of hf]
  · simpa [helmBytes, bitOf_eq, z0] using hb

theorem atXor (d : GReg) (a : GReg) (dbl : Bool) (ord : BitVec 2) (scope : BitVec 3) : Statement (.atXor d a dbl ord scope) := by
  refine ⟨fun w hf hw => ?_, fun w _ hw => by simp [strandWord] at hw⟩
  simp only [helmWord, Option.some.injEq] at hw
  obtain ⟨b_x, s_25_24, s_28_26, s_30_30, s_31_31, s_29_29⟩ : (ord.toNat + scope.toNat * 2 ^ 2 + 0 * 2 ^ 6) < 2 ^ 8 ∧ bitsOf ((ord.toNat + scope.toNat * 2 ^ 2 + 0 * 2 ^ 6)) 1 0 = ord.toNat ∧ bitsOf ((ord.toNat + scope.toNat * 2 ^ 2 + 0 * 2 ^ 6)) 4 2 = scope.toNat ∧ bitsOf ((ord.toNat + scope.toNat * 2 ^ 2 + 0 * 2 ^ 6)) 6 6 = 0 ∧ bitsOf ((ord.toNat + scope.toNat * 2 ^ 2 + 0 * 2 ^ 6)) 7 7 = 0 ∧ bitsOf ((ord.toNat + scope.toNat * 2 ^ 2 + 0 * 2 ^ 6)) 5 5 = 0 := by
    have hn0 : ord.toNat < 4 := ord.isLt
    have hn1 : scope.toNat < 8 := scope.isLt
    have hn4 : d.toNat < 64 := d.isLt
    clear hw hf
    generalize ord.toNat = n0 at hn0 ⊢
    generalize scope.toNat = n1 at hn1 ⊢
    generalize d.toNat = n4 at hn4 ⊢
    simp only [bitsOf]
    exact ⟨by omega, by omega, by omega, by omega, by omega, by omega⟩
  obtain ⟨b_sub, s_23_23, s_22_20⟩ : (3 + b2n dbl * 2 ^ 3) < 2 ^ 4 ∧ bitsOf ((3 + b2n dbl * 2 ^ 3)) 3 3 = b2n dbl ∧ bitsOf ((3 + b2n dbl * 2 ^ 3)) 2 0 = 3 := by
    have hn2 : b2n dbl < 2 := b2n_lt _
    clear hw hf
    generalize b2n dbl = n2 at hn2 ⊢
    simp only [bitsOf]
    exact ⟨by omega, by omega, by omega⟩
  obtain ⟨z0, q_m, q_x, q_sub, q_a, q_d, hb⟩ := packHS_fields (show (0x39 : Nat) < 2 ^ 7 by decide) b_x b_sub a.isLt d.isLt
  rw [hw] at z0 q_m q_x q_sub q_a q_d hb
  have t_25_24 : bitsOf w 25 24 = ord.toNat := by rw [← bitsOf_bitsOf w 31 24 1 0 (by decide), q_x]; exact s_25_24
  have t_28_26 : bitsOf w 28 26 = scope.toNat := by rw [← bitsOf_bitsOf w 31 24 4 2 (by decide), q_x]; exact s_28_26
  have t_23_23 : bitsOf w 23 23 = b2n dbl := by rw [← bitsOf_bitsOf w 23 20 3 3 (by decide), q_sub]; exact s_23_23
  have t_30_30 : bitsOf w 30 30 = 0 := by rw [← bitsOf_bitsOf w 31 24 6 6 (by decide), q_x]; exact s_30_30
  have t_31_31 : bitsOf w 31 31 = 0 := by rw [← bitsOf_bitsOf w 31 24 7 7 (by decide), q_x]; exact s_31_31
  have t_29_29 : bitsOf w 29 29 = 0 := by rw [← bitsOf_bitsOf w 31 24 5 5 (by decide), q_x]; exact s_29_29
  have t_22_20 : bitsOf w 22 20 = 3 := by rw [← bitsOf_bitsOf w 23 20 2 0 (by decide), q_sub]; exact s_22_20
  have u_25_24 : bitsOf ((ord.toNat + scope.toNat * 2 ^ 2)) 1 0 = ord.toNat := by simpa only [Nat.zero_mul, Nat.add_zero] using s_25_24
  have u_28_26 : bitsOf ((ord.toNat + scope.toNat * 2 ^ 2)) 4 2 = scope.toNat := by simpa only [Nat.zero_mul, Nat.add_zero] using s_28_26
  have u_30_30 : bitsOf ((ord.toNat + scope.toNat * 2 ^ 2)) 6 6 = 0 := by simpa only [Nat.zero_mul, Nat.add_zero] using s_30_30
  have u_31_31 : bitsOf ((ord.toNat + scope.toNat * 2 ^ 2)) 7 7 = 0 := by simpa only [Nat.zero_mul, Nat.add_zero] using s_31_31
  have u_29_29 : bitsOf ((ord.toNat + scope.toNat * 2 ^ 2)) 5 5 = 0 := by simpa only [Nat.zero_mul, Nat.add_zero] using s_29_29
  refine ⟨?_, ?_⟩
  · simp [decodeHelmWord, decodeShort, decodeAtomic, wMajor, wD, wA, wB, wFn, wSub, wX, wImm, zeroThen, bitsOf_bitsOf, bitOf_eq, z0, q_m, q_x, q_sub, q_a, q_d, t_25_24, s_25_24, t_28_26, s_28_26, t_23_23, s_23_23, t_30_30, s_30_30, t_31_31, s_31_31, t_29_29, s_29_29, t_22_20, s_22_20, u_25_24, u_28_26, u_30_30, u_31_31, u_29_29, checked_of hf]
  · simpa [helmBytes, bitOf_eq, z0] using hb

theorem atMin (d : GReg) (a : GReg) (dbl : Bool) (ord : BitVec 2) (scope : BitVec 3) : Statement (.atMin d a dbl ord scope) := by
  refine ⟨fun w hf hw => ?_, fun w _ hw => by simp [strandWord] at hw⟩
  simp only [helmWord, Option.some.injEq] at hw
  obtain ⟨b_x, s_25_24, s_28_26, s_30_30, s_31_31, s_29_29⟩ : (ord.toNat + scope.toNat * 2 ^ 2 + 0 * 2 ^ 6) < 2 ^ 8 ∧ bitsOf ((ord.toNat + scope.toNat * 2 ^ 2 + 0 * 2 ^ 6)) 1 0 = ord.toNat ∧ bitsOf ((ord.toNat + scope.toNat * 2 ^ 2 + 0 * 2 ^ 6)) 4 2 = scope.toNat ∧ bitsOf ((ord.toNat + scope.toNat * 2 ^ 2 + 0 * 2 ^ 6)) 6 6 = 0 ∧ bitsOf ((ord.toNat + scope.toNat * 2 ^ 2 + 0 * 2 ^ 6)) 7 7 = 0 ∧ bitsOf ((ord.toNat + scope.toNat * 2 ^ 2 + 0 * 2 ^ 6)) 5 5 = 0 := by
    have hn0 : ord.toNat < 4 := ord.isLt
    have hn1 : scope.toNat < 8 := scope.isLt
    have hn4 : d.toNat < 64 := d.isLt
    clear hw hf
    generalize ord.toNat = n0 at hn0 ⊢
    generalize scope.toNat = n1 at hn1 ⊢
    generalize d.toNat = n4 at hn4 ⊢
    simp only [bitsOf]
    exact ⟨by omega, by omega, by omega, by omega, by omega, by omega⟩
  obtain ⟨b_sub, s_23_23, s_22_20⟩ : (4 + b2n dbl * 2 ^ 3) < 2 ^ 4 ∧ bitsOf ((4 + b2n dbl * 2 ^ 3)) 3 3 = b2n dbl ∧ bitsOf ((4 + b2n dbl * 2 ^ 3)) 2 0 = 4 := by
    have hn2 : b2n dbl < 2 := b2n_lt _
    clear hw hf
    generalize b2n dbl = n2 at hn2 ⊢
    simp only [bitsOf]
    exact ⟨by omega, by omega, by omega⟩
  obtain ⟨z0, q_m, q_x, q_sub, q_a, q_d, hb⟩ := packHS_fields (show (0x39 : Nat) < 2 ^ 7 by decide) b_x b_sub a.isLt d.isLt
  rw [hw] at z0 q_m q_x q_sub q_a q_d hb
  have t_25_24 : bitsOf w 25 24 = ord.toNat := by rw [← bitsOf_bitsOf w 31 24 1 0 (by decide), q_x]; exact s_25_24
  have t_28_26 : bitsOf w 28 26 = scope.toNat := by rw [← bitsOf_bitsOf w 31 24 4 2 (by decide), q_x]; exact s_28_26
  have t_23_23 : bitsOf w 23 23 = b2n dbl := by rw [← bitsOf_bitsOf w 23 20 3 3 (by decide), q_sub]; exact s_23_23
  have t_30_30 : bitsOf w 30 30 = 0 := by rw [← bitsOf_bitsOf w 31 24 6 6 (by decide), q_x]; exact s_30_30
  have t_31_31 : bitsOf w 31 31 = 0 := by rw [← bitsOf_bitsOf w 31 24 7 7 (by decide), q_x]; exact s_31_31
  have t_29_29 : bitsOf w 29 29 = 0 := by rw [← bitsOf_bitsOf w 31 24 5 5 (by decide), q_x]; exact s_29_29
  have t_22_20 : bitsOf w 22 20 = 4 := by rw [← bitsOf_bitsOf w 23 20 2 0 (by decide), q_sub]; exact s_22_20
  have u_25_24 : bitsOf ((ord.toNat + scope.toNat * 2 ^ 2)) 1 0 = ord.toNat := by simpa only [Nat.zero_mul, Nat.add_zero] using s_25_24
  have u_28_26 : bitsOf ((ord.toNat + scope.toNat * 2 ^ 2)) 4 2 = scope.toNat := by simpa only [Nat.zero_mul, Nat.add_zero] using s_28_26
  have u_30_30 : bitsOf ((ord.toNat + scope.toNat * 2 ^ 2)) 6 6 = 0 := by simpa only [Nat.zero_mul, Nat.add_zero] using s_30_30
  have u_31_31 : bitsOf ((ord.toNat + scope.toNat * 2 ^ 2)) 7 7 = 0 := by simpa only [Nat.zero_mul, Nat.add_zero] using s_31_31
  have u_29_29 : bitsOf ((ord.toNat + scope.toNat * 2 ^ 2)) 5 5 = 0 := by simpa only [Nat.zero_mul, Nat.add_zero] using s_29_29
  refine ⟨?_, ?_⟩
  · simp [decodeHelmWord, decodeShort, decodeAtomic, wMajor, wD, wA, wB, wFn, wSub, wX, wImm, zeroThen, bitsOf_bitsOf, bitOf_eq, z0, q_m, q_x, q_sub, q_a, q_d, t_25_24, s_25_24, t_28_26, s_28_26, t_23_23, s_23_23, t_30_30, s_30_30, t_31_31, s_31_31, t_29_29, s_29_29, t_22_20, s_22_20, u_25_24, u_28_26, u_30_30, u_31_31, u_29_29, checked_of hf]
  · simpa [helmBytes, bitOf_eq, z0] using hb

theorem atMax (d : GReg) (a : GReg) (dbl : Bool) (ord : BitVec 2) (scope : BitVec 3) : Statement (.atMax d a dbl ord scope) := by
  refine ⟨fun w hf hw => ?_, fun w _ hw => by simp [strandWord] at hw⟩
  simp only [helmWord, Option.some.injEq] at hw
  obtain ⟨b_x, s_25_24, s_28_26, s_30_30, s_31_31, s_29_29⟩ : (ord.toNat + scope.toNat * 2 ^ 2 + 0 * 2 ^ 6) < 2 ^ 8 ∧ bitsOf ((ord.toNat + scope.toNat * 2 ^ 2 + 0 * 2 ^ 6)) 1 0 = ord.toNat ∧ bitsOf ((ord.toNat + scope.toNat * 2 ^ 2 + 0 * 2 ^ 6)) 4 2 = scope.toNat ∧ bitsOf ((ord.toNat + scope.toNat * 2 ^ 2 + 0 * 2 ^ 6)) 6 6 = 0 ∧ bitsOf ((ord.toNat + scope.toNat * 2 ^ 2 + 0 * 2 ^ 6)) 7 7 = 0 ∧ bitsOf ((ord.toNat + scope.toNat * 2 ^ 2 + 0 * 2 ^ 6)) 5 5 = 0 := by
    have hn0 : ord.toNat < 4 := ord.isLt
    have hn1 : scope.toNat < 8 := scope.isLt
    have hn4 : d.toNat < 64 := d.isLt
    clear hw hf
    generalize ord.toNat = n0 at hn0 ⊢
    generalize scope.toNat = n1 at hn1 ⊢
    generalize d.toNat = n4 at hn4 ⊢
    simp only [bitsOf]
    exact ⟨by omega, by omega, by omega, by omega, by omega, by omega⟩
  obtain ⟨b_sub, s_23_23, s_22_20⟩ : (5 + b2n dbl * 2 ^ 3) < 2 ^ 4 ∧ bitsOf ((5 + b2n dbl * 2 ^ 3)) 3 3 = b2n dbl ∧ bitsOf ((5 + b2n dbl * 2 ^ 3)) 2 0 = 5 := by
    have hn2 : b2n dbl < 2 := b2n_lt _
    clear hw hf
    generalize b2n dbl = n2 at hn2 ⊢
    simp only [bitsOf]
    exact ⟨by omega, by omega, by omega⟩
  obtain ⟨z0, q_m, q_x, q_sub, q_a, q_d, hb⟩ := packHS_fields (show (0x39 : Nat) < 2 ^ 7 by decide) b_x b_sub a.isLt d.isLt
  rw [hw] at z0 q_m q_x q_sub q_a q_d hb
  have t_25_24 : bitsOf w 25 24 = ord.toNat := by rw [← bitsOf_bitsOf w 31 24 1 0 (by decide), q_x]; exact s_25_24
  have t_28_26 : bitsOf w 28 26 = scope.toNat := by rw [← bitsOf_bitsOf w 31 24 4 2 (by decide), q_x]; exact s_28_26
  have t_23_23 : bitsOf w 23 23 = b2n dbl := by rw [← bitsOf_bitsOf w 23 20 3 3 (by decide), q_sub]; exact s_23_23
  have t_30_30 : bitsOf w 30 30 = 0 := by rw [← bitsOf_bitsOf w 31 24 6 6 (by decide), q_x]; exact s_30_30
  have t_31_31 : bitsOf w 31 31 = 0 := by rw [← bitsOf_bitsOf w 31 24 7 7 (by decide), q_x]; exact s_31_31
  have t_29_29 : bitsOf w 29 29 = 0 := by rw [← bitsOf_bitsOf w 31 24 5 5 (by decide), q_x]; exact s_29_29
  have t_22_20 : bitsOf w 22 20 = 5 := by rw [← bitsOf_bitsOf w 23 20 2 0 (by decide), q_sub]; exact s_22_20
  have u_25_24 : bitsOf ((ord.toNat + scope.toNat * 2 ^ 2)) 1 0 = ord.toNat := by simpa only [Nat.zero_mul, Nat.add_zero] using s_25_24
  have u_28_26 : bitsOf ((ord.toNat + scope.toNat * 2 ^ 2)) 4 2 = scope.toNat := by simpa only [Nat.zero_mul, Nat.add_zero] using s_28_26
  have u_30_30 : bitsOf ((ord.toNat + scope.toNat * 2 ^ 2)) 6 6 = 0 := by simpa only [Nat.zero_mul, Nat.add_zero] using s_30_30
  have u_31_31 : bitsOf ((ord.toNat + scope.toNat * 2 ^ 2)) 7 7 = 0 := by simpa only [Nat.zero_mul, Nat.add_zero] using s_31_31
  have u_29_29 : bitsOf ((ord.toNat + scope.toNat * 2 ^ 2)) 5 5 = 0 := by simpa only [Nat.zero_mul, Nat.add_zero] using s_29_29
  refine ⟨?_, ?_⟩
  · simp [decodeHelmWord, decodeShort, decodeAtomic, wMajor, wD, wA, wB, wFn, wSub, wX, wImm, zeroThen, bitsOf_bitsOf, bitOf_eq, z0, q_m, q_x, q_sub, q_a, q_d, t_25_24, s_25_24, t_28_26, s_28_26, t_23_23, s_23_23, t_30_30, s_30_30, t_31_31, s_31_31, t_29_29, s_29_29, t_22_20, s_22_20, u_25_24, u_28_26, u_30_30, u_31_31, u_29_29, checked_of hf]
  · simpa [helmBytes, bitOf_eq, z0] using hb

theorem atMinu (d : GReg) (a : GReg) (dbl : Bool) (ord : BitVec 2) (scope : BitVec 3) : Statement (.atMinu d a dbl ord scope) := by
  refine ⟨fun w hf hw => ?_, fun w _ hw => by simp [strandWord] at hw⟩
  simp only [helmWord, Option.some.injEq] at hw
  obtain ⟨b_x, s_25_24, s_28_26, s_30_30, s_31_31, s_29_29⟩ : (ord.toNat + scope.toNat * 2 ^ 2 + 1 * 2 ^ 6) < 2 ^ 8 ∧ bitsOf ((ord.toNat + scope.toNat * 2 ^ 2 + 1 * 2 ^ 6)) 1 0 = ord.toNat ∧ bitsOf ((ord.toNat + scope.toNat * 2 ^ 2 + 1 * 2 ^ 6)) 4 2 = scope.toNat ∧ bitsOf ((ord.toNat + scope.toNat * 2 ^ 2 + 1 * 2 ^ 6)) 6 6 = 1 ∧ bitsOf ((ord.toNat + scope.toNat * 2 ^ 2 + 1 * 2 ^ 6)) 7 7 = 0 ∧ bitsOf ((ord.toNat + scope.toNat * 2 ^ 2 + 1 * 2 ^ 6)) 5 5 = 0 := by
    have hn0 : ord.toNat < 4 := ord.isLt
    have hn1 : scope.toNat < 8 := scope.isLt
    have hn4 : d.toNat < 64 := d.isLt
    clear hw hf
    generalize ord.toNat = n0 at hn0 ⊢
    generalize scope.toNat = n1 at hn1 ⊢
    generalize d.toNat = n4 at hn4 ⊢
    simp only [bitsOf]
    exact ⟨by omega, by omega, by omega, by omega, by omega, by omega⟩
  obtain ⟨b_sub, s_23_23, s_22_20⟩ : (4 + b2n dbl * 2 ^ 3) < 2 ^ 4 ∧ bitsOf ((4 + b2n dbl * 2 ^ 3)) 3 3 = b2n dbl ∧ bitsOf ((4 + b2n dbl * 2 ^ 3)) 2 0 = 4 := by
    have hn2 : b2n dbl < 2 := b2n_lt _
    clear hw hf
    generalize b2n dbl = n2 at hn2 ⊢
    simp only [bitsOf]
    exact ⟨by omega, by omega, by omega⟩
  obtain ⟨z0, q_m, q_x, q_sub, q_a, q_d, hb⟩ := packHS_fields (show (0x39 : Nat) < 2 ^ 7 by decide) b_x b_sub a.isLt d.isLt
  rw [hw] at z0 q_m q_x q_sub q_a q_d hb
  have t_25_24 : bitsOf w 25 24 = ord.toNat := by rw [← bitsOf_bitsOf w 31 24 1 0 (by decide), q_x]; exact s_25_24
  have t_28_26 : bitsOf w 28 26 = scope.toNat := by rw [← bitsOf_bitsOf w 31 24 4 2 (by decide), q_x]; exact s_28_26
  have t_23_23 : bitsOf w 23 23 = b2n dbl := by rw [← bitsOf_bitsOf w 23 20 3 3 (by decide), q_sub]; exact s_23_23
  have t_30_30 : bitsOf w 30 30 = 1 := by rw [← bitsOf_bitsOf w 31 24 6 6 (by decide), q_x]; exact s_30_30
  have t_31_31 : bitsOf w 31 31 = 0 := by rw [← bitsOf_bitsOf w 31 24 7 7 (by decide), q_x]; exact s_31_31
  have t_29_29 : bitsOf w 29 29 = 0 := by rw [← bitsOf_bitsOf w 31 24 5 5 (by decide), q_x]; exact s_29_29
  have t_22_20 : bitsOf w 22 20 = 4 := by rw [← bitsOf_bitsOf w 23 20 2 0 (by decide), q_sub]; exact s_22_20
  refine ⟨?_, ?_⟩
  · simp [decodeHelmWord, decodeShort, decodeAtomic, wMajor, wD, wA, wB, wFn, wSub, wX, wImm, zeroThen, bitsOf_bitsOf, bitOf_eq, z0, q_m, q_x, q_sub, q_a, q_d, t_25_24, s_25_24, t_28_26, s_28_26, t_23_23, s_23_23, t_30_30, s_30_30, t_31_31, s_31_31, t_29_29, s_29_29, t_22_20, s_22_20, checked_of hf]
  · simpa [helmBytes, bitOf_eq, z0] using hb

theorem atMaxu (d : GReg) (a : GReg) (dbl : Bool) (ord : BitVec 2) (scope : BitVec 3) : Statement (.atMaxu d a dbl ord scope) := by
  refine ⟨fun w hf hw => ?_, fun w _ hw => by simp [strandWord] at hw⟩
  simp only [helmWord, Option.some.injEq] at hw
  obtain ⟨b_x, s_25_24, s_28_26, s_30_30, s_31_31, s_29_29⟩ : (ord.toNat + scope.toNat * 2 ^ 2 + 1 * 2 ^ 6) < 2 ^ 8 ∧ bitsOf ((ord.toNat + scope.toNat * 2 ^ 2 + 1 * 2 ^ 6)) 1 0 = ord.toNat ∧ bitsOf ((ord.toNat + scope.toNat * 2 ^ 2 + 1 * 2 ^ 6)) 4 2 = scope.toNat ∧ bitsOf ((ord.toNat + scope.toNat * 2 ^ 2 + 1 * 2 ^ 6)) 6 6 = 1 ∧ bitsOf ((ord.toNat + scope.toNat * 2 ^ 2 + 1 * 2 ^ 6)) 7 7 = 0 ∧ bitsOf ((ord.toNat + scope.toNat * 2 ^ 2 + 1 * 2 ^ 6)) 5 5 = 0 := by
    have hn0 : ord.toNat < 4 := ord.isLt
    have hn1 : scope.toNat < 8 := scope.isLt
    have hn4 : d.toNat < 64 := d.isLt
    clear hw hf
    generalize ord.toNat = n0 at hn0 ⊢
    generalize scope.toNat = n1 at hn1 ⊢
    generalize d.toNat = n4 at hn4 ⊢
    simp only [bitsOf]
    exact ⟨by omega, by omega, by omega, by omega, by omega, by omega⟩
  obtain ⟨b_sub, s_23_23, s_22_20⟩ : (5 + b2n dbl * 2 ^ 3) < 2 ^ 4 ∧ bitsOf ((5 + b2n dbl * 2 ^ 3)) 3 3 = b2n dbl ∧ bitsOf ((5 + b2n dbl * 2 ^ 3)) 2 0 = 5 := by
    have hn2 : b2n dbl < 2 := b2n_lt _
    clear hw hf
    generalize b2n dbl = n2 at hn2 ⊢
    simp only [bitsOf]
    exact ⟨by omega, by omega, by omega⟩
  obtain ⟨z0, q_m, q_x, q_sub, q_a, q_d, hb⟩ := packHS_fields (show (0x39 : Nat) < 2 ^ 7 by decide) b_x b_sub a.isLt d.isLt
  rw [hw] at z0 q_m q_x q_sub q_a q_d hb
  have t_25_24 : bitsOf w 25 24 = ord.toNat := by rw [← bitsOf_bitsOf w 31 24 1 0 (by decide), q_x]; exact s_25_24
  have t_28_26 : bitsOf w 28 26 = scope.toNat := by rw [← bitsOf_bitsOf w 31 24 4 2 (by decide), q_x]; exact s_28_26
  have t_23_23 : bitsOf w 23 23 = b2n dbl := by rw [← bitsOf_bitsOf w 23 20 3 3 (by decide), q_sub]; exact s_23_23
  have t_30_30 : bitsOf w 30 30 = 1 := by rw [← bitsOf_bitsOf w 31 24 6 6 (by decide), q_x]; exact s_30_30
  have t_31_31 : bitsOf w 31 31 = 0 := by rw [← bitsOf_bitsOf w 31 24 7 7 (by decide), q_x]; exact s_31_31
  have t_29_29 : bitsOf w 29 29 = 0 := by rw [← bitsOf_bitsOf w 31 24 5 5 (by decide), q_x]; exact s_29_29
  have t_22_20 : bitsOf w 22 20 = 5 := by rw [← bitsOf_bitsOf w 23 20 2 0 (by decide), q_sub]; exact s_22_20
  refine ⟨?_, ?_⟩
  · simp [decodeHelmWord, decodeShort, decodeAtomic, wMajor, wD, wA, wB, wFn, wSub, wX, wImm, zeroThen, bitsOf_bitsOf, bitOf_eq, z0, q_m, q_x, q_sub, q_a, q_d, t_25_24, s_25_24, t_28_26, s_28_26, t_23_23, s_23_23, t_30_30, s_30_30, t_31_31, s_31_31, t_29_29, s_29_29, t_22_20, s_22_20, checked_of hf]
  · simpa [helmBytes, bitOf_eq, z0] using hb

theorem atXchg (d : GReg) (a : GReg) (dbl : Bool) (ord : BitVec 2) (scope : BitVec 3) : Statement (.atXchg d a dbl ord scope) := by
  refine ⟨fun w hf hw => ?_, fun w _ hw => by simp [strandWord] at hw⟩
  simp only [helmWord, Option.some.injEq] at hw
  obtain ⟨b_x, s_25_24, s_28_26, s_30_30, s_31_31, s_29_29⟩ : (ord.toNat + scope.toNat * 2 ^ 2 + 0 * 2 ^ 6) < 2 ^ 8 ∧ bitsOf ((ord.toNat + scope.toNat * 2 ^ 2 + 0 * 2 ^ 6)) 1 0 = ord.toNat ∧ bitsOf ((ord.toNat + scope.toNat * 2 ^ 2 + 0 * 2 ^ 6)) 4 2 = scope.toNat ∧ bitsOf ((ord.toNat + scope.toNat * 2 ^ 2 + 0 * 2 ^ 6)) 6 6 = 0 ∧ bitsOf ((ord.toNat + scope.toNat * 2 ^ 2 + 0 * 2 ^ 6)) 7 7 = 0 ∧ bitsOf ((ord.toNat + scope.toNat * 2 ^ 2 + 0 * 2 ^ 6)) 5 5 = 0 := by
    have hn0 : ord.toNat < 4 := ord.isLt
    have hn1 : scope.toNat < 8 := scope.isLt
    have hn4 : d.toNat < 64 := d.isLt
    clear hw hf
    generalize ord.toNat = n0 at hn0 ⊢
    generalize scope.toNat = n1 at hn1 ⊢
    generalize d.toNat = n4 at hn4 ⊢
    simp only [bitsOf]
    exact ⟨by omega, by omega, by omega, by omega, by omega, by omega⟩
  obtain ⟨b_sub, s_23_23, s_22_20⟩ : (6 + b2n dbl * 2 ^ 3) < 2 ^ 4 ∧ bitsOf ((6 + b2n dbl * 2 ^ 3)) 3 3 = b2n dbl ∧ bitsOf ((6 + b2n dbl * 2 ^ 3)) 2 0 = 6 := by
    have hn2 : b2n dbl < 2 := b2n_lt _
    clear hw hf
    generalize b2n dbl = n2 at hn2 ⊢
    simp only [bitsOf]
    exact ⟨by omega, by omega, by omega⟩
  obtain ⟨z0, q_m, q_x, q_sub, q_a, q_d, hb⟩ := packHS_fields (show (0x39 : Nat) < 2 ^ 7 by decide) b_x b_sub a.isLt d.isLt
  rw [hw] at z0 q_m q_x q_sub q_a q_d hb
  have t_25_24 : bitsOf w 25 24 = ord.toNat := by rw [← bitsOf_bitsOf w 31 24 1 0 (by decide), q_x]; exact s_25_24
  have t_28_26 : bitsOf w 28 26 = scope.toNat := by rw [← bitsOf_bitsOf w 31 24 4 2 (by decide), q_x]; exact s_28_26
  have t_23_23 : bitsOf w 23 23 = b2n dbl := by rw [← bitsOf_bitsOf w 23 20 3 3 (by decide), q_sub]; exact s_23_23
  have t_30_30 : bitsOf w 30 30 = 0 := by rw [← bitsOf_bitsOf w 31 24 6 6 (by decide), q_x]; exact s_30_30
  have t_31_31 : bitsOf w 31 31 = 0 := by rw [← bitsOf_bitsOf w 31 24 7 7 (by decide), q_x]; exact s_31_31
  have t_29_29 : bitsOf w 29 29 = 0 := by rw [← bitsOf_bitsOf w 31 24 5 5 (by decide), q_x]; exact s_29_29
  have t_22_20 : bitsOf w 22 20 = 6 := by rw [← bitsOf_bitsOf w 23 20 2 0 (by decide), q_sub]; exact s_22_20
  have u_25_24 : bitsOf ((ord.toNat + scope.toNat * 2 ^ 2)) 1 0 = ord.toNat := by simpa only [Nat.zero_mul, Nat.add_zero] using s_25_24
  have u_28_26 : bitsOf ((ord.toNat + scope.toNat * 2 ^ 2)) 4 2 = scope.toNat := by simpa only [Nat.zero_mul, Nat.add_zero] using s_28_26
  have u_30_30 : bitsOf ((ord.toNat + scope.toNat * 2 ^ 2)) 6 6 = 0 := by simpa only [Nat.zero_mul, Nat.add_zero] using s_30_30
  have u_31_31 : bitsOf ((ord.toNat + scope.toNat * 2 ^ 2)) 7 7 = 0 := by simpa only [Nat.zero_mul, Nat.add_zero] using s_31_31
  have u_29_29 : bitsOf ((ord.toNat + scope.toNat * 2 ^ 2)) 5 5 = 0 := by simpa only [Nat.zero_mul, Nat.add_zero] using s_29_29
  refine ⟨?_, ?_⟩
  · simp [decodeHelmWord, decodeShort, decodeAtomic, wMajor, wD, wA, wB, wFn, wSub, wX, wImm, zeroThen, bitsOf_bitsOf, bitOf_eq, z0, q_m, q_x, q_sub, q_a, q_d, t_25_24, s_25_24, t_28_26, s_28_26, t_23_23, s_23_23, t_30_30, s_30_30, t_31_31, s_31_31, t_29_29, s_29_29, t_22_20, s_22_20, u_25_24, u_28_26, u_30_30, u_31_31, u_29_29, checked_of hf]
  · simpa [helmBytes, bitOf_eq, z0] using hb

theorem atCas (d : GReg) (a : GReg) (dbl : Bool) (ord : BitVec 2) (scope : BitVec 3) : Statement (.atCas d a dbl ord scope) := by
  refine ⟨fun w hf hw => ?_, fun w _ hw => by simp [strandWord] at hw⟩
  simp only [helmWord, Option.some.injEq] at hw
  obtain ⟨b_x, s_25_24, s_28_26, s_30_30, s_31_31, s_29_29⟩ : (ord.toNat + scope.toNat * 2 ^ 2 + 0 * 2 ^ 6) < 2 ^ 8 ∧ bitsOf ((ord.toNat + scope.toNat * 2 ^ 2 + 0 * 2 ^ 6)) 1 0 = ord.toNat ∧ bitsOf ((ord.toNat + scope.toNat * 2 ^ 2 + 0 * 2 ^ 6)) 4 2 = scope.toNat ∧ bitsOf ((ord.toNat + scope.toNat * 2 ^ 2 + 0 * 2 ^ 6)) 6 6 = 0 ∧ bitsOf ((ord.toNat + scope.toNat * 2 ^ 2 + 0 * 2 ^ 6)) 7 7 = 0 ∧ bitsOf ((ord.toNat + scope.toNat * 2 ^ 2 + 0 * 2 ^ 6)) 5 5 = 0 := by
    have hn0 : ord.toNat < 4 := ord.isLt
    have hn1 : scope.toNat < 8 := scope.isLt
    have hn4 : d.toNat < 64 := d.isLt
    clear hw hf
    generalize ord.toNat = n0 at hn0 ⊢
    generalize scope.toNat = n1 at hn1 ⊢
    generalize d.toNat = n4 at hn4 ⊢
    simp only [bitsOf]
    exact ⟨by omega, by omega, by omega, by omega, by omega, by omega⟩
  obtain ⟨b_sub, s_23_23, s_22_20⟩ : (7 + b2n dbl * 2 ^ 3) < 2 ^ 4 ∧ bitsOf ((7 + b2n dbl * 2 ^ 3)) 3 3 = b2n dbl ∧ bitsOf ((7 + b2n dbl * 2 ^ 3)) 2 0 = 7 := by
    have hn2 : b2n dbl < 2 := b2n_lt _
    clear hw hf
    generalize b2n dbl = n2 at hn2 ⊢
    simp only [bitsOf]
    exact ⟨by omega, by omega, by omega⟩
  obtain ⟨z0, q_m, q_x, q_sub, q_a, q_d, hb⟩ := packHS_fields (show (0x39 : Nat) < 2 ^ 7 by decide) b_x b_sub a.isLt d.isLt
  rw [hw] at z0 q_m q_x q_sub q_a q_d hb
  have t_25_24 : bitsOf w 25 24 = ord.toNat := by rw [← bitsOf_bitsOf w 31 24 1 0 (by decide), q_x]; exact s_25_24
  have t_28_26 : bitsOf w 28 26 = scope.toNat := by rw [← bitsOf_bitsOf w 31 24 4 2 (by decide), q_x]; exact s_28_26
  have t_23_23 : bitsOf w 23 23 = b2n dbl := by rw [← bitsOf_bitsOf w 23 20 3 3 (by decide), q_sub]; exact s_23_23
  have t_30_30 : bitsOf w 30 30 = 0 := by rw [← bitsOf_bitsOf w 31 24 6 6 (by decide), q_x]; exact s_30_30
  have t_31_31 : bitsOf w 31 31 = 0 := by rw [← bitsOf_bitsOf w 31 24 7 7 (by decide), q_x]; exact s_31_31
  have t_29_29 : bitsOf w 29 29 = 0 := by rw [← bitsOf_bitsOf w 31 24 5 5 (by decide), q_x]; exact s_29_29
  have t_22_20 : bitsOf w 22 20 = 7 := by rw [← bitsOf_bitsOf w 23 20 2 0 (by decide), q_sub]; exact s_22_20
  have u_25_24 : bitsOf ((ord.toNat + scope.toNat * 2 ^ 2)) 1 0 = ord.toNat := by simpa only [Nat.zero_mul, Nat.add_zero] using s_25_24
  have u_28_26 : bitsOf ((ord.toNat + scope.toNat * 2 ^ 2)) 4 2 = scope.toNat := by simpa only [Nat.zero_mul, Nat.add_zero] using s_28_26
  have u_30_30 : bitsOf ((ord.toNat + scope.toNat * 2 ^ 2)) 6 6 = 0 := by simpa only [Nat.zero_mul, Nat.add_zero] using s_30_30
  have u_31_31 : bitsOf ((ord.toNat + scope.toNat * 2 ^ 2)) 7 7 = 0 := by simpa only [Nat.zero_mul, Nat.add_zero] using s_31_31
  have u_29_29 : bitsOf ((ord.toNat + scope.toNat * 2 ^ 2)) 5 5 = 0 := by simpa only [Nat.zero_mul, Nat.add_zero] using s_29_29
  refine ⟨?_, ?_⟩
  · simp [decodeHelmWord, decodeShort, decodeAtomic, wMajor, wD, wA, wB, wFn, wSub, wX, wImm, zeroThen, bitsOf_bitsOf, bitOf_eq, z0, q_m, q_x, q_sub, q_a, q_d, t_25_24, s_25_24, t_28_26, s_28_26, t_23_23, s_23_23, t_30_30, s_30_30, t_31_31, s_31_31, t_29_29, s_29_29, t_22_20, s_22_20, u_25_24, u_28_26, u_30_30, u_31_31, u_29_29, checked_of hf]
  · simpa [helmBytes, bitOf_eq, z0] using hb

theorem atRed (op : BitVec 3) (natural : Bool) (d : GReg) (a : GReg) (dbl : Bool) (ord : BitVec 2) (scope : BitVec 3) : Statement (.atRed op natural d a dbl ord scope) := by
  refine ⟨fun w hf hw => ?_, fun w _ hw => by simp [strandWord] at hw⟩
  simp only [helmWord, Option.some.injEq] at hw
  obtain ⟨b_x, s_25_24, s_28_26, s_30_30, s_31_31, s_29_29⟩ : (ord.toNat + scope.toNat * 2 ^ 2 + 2 ^ 5 + b2n natural * 2 ^ 6) < 2 ^ 8 ∧ bitsOf ((ord.toNat + scope.toNat * 2 ^ 2 + 2 ^ 5 + b2n natural * 2 ^ 6)) 1 0 = ord.toNat ∧ bitsOf ((ord.toNat + scope.toNat * 2 ^ 2 + 2 ^ 5 + b2n natural * 2 ^ 6)) 4 2 = scope.toNat ∧ bitsOf ((ord.toNat + scope.toNat * 2 ^ 2 + 2 ^ 5 + b2n natural * 2 ^ 6)) 6 6 = b2n natural ∧ bitsOf ((ord.toNat + scope.toNat * 2 ^ 2 + 2 ^ 5 + b2n natural * 2 ^ 6)) 7 7 = 0 ∧ bitsOf ((ord.toNat + scope.toNat * 2 ^ 2 + 2 ^ 5 + b2n natural * 2 ^ 6)) 5 5 = 1 := by
    have hn0 : ord.toNat < 4 := ord.isLt
    have hn1 : scope.toNat < 8 := scope.isLt
    have hn2 : b2n natural < 2 := b2n_lt _
    have hn6 : d.toNat < 64 := d.isLt
    clear hw hf
    generalize ord.toNat = n0 at hn0 ⊢
    generalize scope.toNat = n1 at hn1 ⊢
    generalize b2n natural = n2 at hn2 ⊢
    generalize d.toNat = n6 at hn6 ⊢
    simp only [bitsOf]
    exact ⟨by omega, by omega, by omega, by omega, by omega, by omega⟩
  obtain ⟨b_sub, s_23_23, s_22_20⟩ : (op.toNat + b2n dbl * 2 ^ 3) < 2 ^ 4 ∧ bitsOf ((op.toNat + b2n dbl * 2 ^ 3)) 3 3 = b2n dbl ∧ bitsOf ((op.toNat + b2n dbl * 2 ^ 3)) 2 0 = op.toNat := by
    have hn3 : op.toNat < 8 := op.isLt
    have hn4 : b2n dbl < 2 := b2n_lt _
    clear hw hf
    generalize op.toNat = n3 at hn3 ⊢
    generalize b2n dbl = n4 at hn4 ⊢
    simp only [bitsOf]
    exact ⟨by omega, by omega, by omega⟩
  obtain ⟨z0, q_m, q_x, q_sub, q_a, q_d, hb⟩ := packHS_fields (show (0x39 : Nat) < 2 ^ 7 by decide) b_x b_sub a.isLt d.isLt
  rw [hw] at z0 q_m q_x q_sub q_a q_d hb
  have t_25_24 : bitsOf w 25 24 = ord.toNat := by rw [← bitsOf_bitsOf w 31 24 1 0 (by decide), q_x]; exact s_25_24
  have t_28_26 : bitsOf w 28 26 = scope.toNat := by rw [← bitsOf_bitsOf w 31 24 4 2 (by decide), q_x]; exact s_28_26
  have t_23_23 : bitsOf w 23 23 = b2n dbl := by rw [← bitsOf_bitsOf w 23 20 3 3 (by decide), q_sub]; exact s_23_23
  have t_30_30 : bitsOf w 30 30 = b2n natural := by rw [← bitsOf_bitsOf w 31 24 6 6 (by decide), q_x]; exact s_30_30
  have t_31_31 : bitsOf w 31 31 = 0 := by rw [← bitsOf_bitsOf w 31 24 7 7 (by decide), q_x]; exact s_31_31
  have t_29_29 : bitsOf w 29 29 = 1 := by rw [← bitsOf_bitsOf w 31 24 5 5 (by decide), q_x]; exact s_29_29
  have t_22_20 : bitsOf w 22 20 = op.toNat := by rw [← bitsOf_bitsOf w 23 20 2 0 (by decide), q_sub]; exact s_22_20
  refine ⟨?_, ?_⟩
  · simp [decodeHelmWord, decodeShort, decodeAtomic, wMajor, wD, wA, wB, wFn, wSub, wX, wImm, zeroThen, bitsOf_bitsOf, bitOf_eq, z0, q_m, q_x, q_sub, q_a, q_d, t_25_24, s_25_24, t_28_26, s_28_26, t_23_23, s_23_23, t_30_30, s_30_30, t_31_31, s_31_31, t_29_29, s_29_29, t_22_20, s_22_20, checked_of hf]
  · simpa [helmBytes, bitOf_eq, z0] using hb

theorem fence (ord : BitVec 2) (scope : BitVec 3) : Statement (.fence ord scope) := by
  refine ⟨fun w hf hw => ?_, fun w _ hw => by simp [strandWord] at hw⟩
  simp only [helmWord, Option.some.injEq] at hw
  obtain ⟨b_x, s_31_29, s_25_24, s_28_26, s_30_24⟩ : (ord.toNat + scope.toNat * 2 ^ 2) < 2 ^ 8 ∧ bitsOf ((ord.toNat + scope.toNat * 2 ^ 2)) 7 5 = 0 ∧ bitsOf ((ord.toNat + scope.toNat * 2 ^ 2)) 1 0 = ord.toNat ∧ bitsOf ((ord.toNat + scope.toNat * 2 ^ 2)) 4 2 = scope.toNat ∧ bitsOf ((ord.toNat + scope.toNat * 2 ^ 2)) 6 0 = ord.toNat + scope.toNat * 4 := by
    have hn0 : ord.toNat < 4 := ord.isLt
    have hn1 : scope.toNat < 8 := scope.isLt
    clear hw hf
    generalize ord.toNat = n0 at hn0 ⊢
    generalize scope.toNat = n1 at hn1 ⊢
    simp only [bitsOf]
    exact ⟨by omega, by omega, by omega, by omega, by omega⟩
  obtain ⟨z0, q_m, q_x, q_sub, q_a, q_d, hb⟩ := packHS_fields (show (0x3A : Nat) < 2 ^ 7 by decide) b_x (show (0 : Nat) < 2 ^ 4 by decide) (show (0 : Nat) < 2 ^ 6 by decide) (show (0 : Nat) < 2 ^ 6 by decide)
  rw [hw] at z0 q_m q_x q_sub q_a q_d hb
  have t_31_29 : bitsOf w 31 29 = 0 := by rw [← bitsOf_bitsOf w 31 24 7 5 (by decide), q_x]; exact s_31_29
  have t_25_24 : bitsOf w 25 24 = ord.toNat := by rw [← bitsOf_bitsOf w 31 24 1 0 (by decide), q_x]; exact s_25_24
  have t_28_26 : bitsOf w 28 26 = scope.toNat := by rw [← bitsOf_bitsOf w 31 24 4 2 (by decide), q_x]; exact s_28_26
  have t_30_24 : bitsOf w 30 24 = ord.toNat + scope.toNat * 4 := by rw [← bitsOf_bitsOf w 31 24 6 0 (by decide), q_x]; exact s_30_24
  simp only [Nat.reducePow, Nat.reduceMul, Nat.zero_mul, Nat.add_zero] at *
  refine ⟨?_, ?_⟩
  · simp [decodeHelmWord, decodeShort, decodeSelector, wMajor, wD, wA, wB, wFn, wSub, wX, wImm, zeroThen, bitsOf_bitsOf, bitOf_eq, z0, q_m, q_x, q_sub, q_a, q_d, t_31_29, s_31_29, t_25_24, s_25_24, t_28_26, s_28_26, t_30_24, s_30_24, checked_of hf]
  · simpa [helmBytes, bitOf_eq, z0] using hb

theorem fenceSc  : Statement (.fenceSc) := by
  refine ⟨fun w hf hw => ?_, fun w _ hw => by simp [strandWord] at hw⟩
  simp only [helmWord, Option.some.injEq] at hw
  obtain ⟨b_x, s_31_27, s_26_24, s_31_29, s_25_24, s_28_26, s_30_24, s_27_24, s_31_25⟩ : 0x17 < 2 ^ 8 ∧ bitsOf (0x17) 7 3 = 2 ∧ bitsOf (0x17) 2 0 = 7 ∧ bitsOf (0x17) 7 5 = 0 ∧ bitsOf (0x17) 1 0 = 3 ∧ bitsOf (0x17) 4 2 = 5 ∧ bitsOf (0x17) 6 0 = 23 ∧ bitsOf (0x17) 3 0 = 7 ∧ bitsOf (0x17) 7 1 = 11 := by
    decide
  obtain ⟨z0, q_m, q_x, q_sub, q_a, q_d, hb⟩ := packHS_fields (show (0x3A : Nat) < 2 ^ 7 by decide) (show (0x17 : Nat) < 2 ^ 8 by decide) (show (1 : Nat) < 2 ^ 4 by decide) (show (0 : Nat) < 2 ^ 6 by decide) (show (0 : Nat) < 2 ^ 6 by decide)
  rw [hw] at z0 q_m q_x q_sub q_a q_d hb
  have t_31_27 : bitsOf w 31 27 = 2 := by rw [← bitsOf_bitsOf w 31 24 7 3 (by decide), q_x]; exact s_31_27
  have t_26_24 : bitsOf w 26 24 = 7 := by rw [← bitsOf_bitsOf w 31 24 2 0 (by decide), q_x]; exact s_26_24
  have t_31_29 : bitsOf w 31 29 = 0 := by rw [← bitsOf_bitsOf w 31 24 7 5 (by decide), q_x]; exact s_31_29
  have t_25_24 : bitsOf w 25 24 = 3 := by rw [← bitsOf_bitsOf w 31 24 1 0 (by decide), q_x]; exact s_25_24
  have t_28_26 : bitsOf w 28 26 = 5 := by rw [← bitsOf_bitsOf w 31 24 4 2 (by decide), q_x]; exact s_28_26
  have t_30_24 : bitsOf w 30 24 = 23 := by rw [← bitsOf_bitsOf w 31 24 6 0 (by decide), q_x]; exact s_30_24
  have t_27_24 : bitsOf w 27 24 = 7 := by rw [← bitsOf_bitsOf w 31 24 3 0 (by decide), q_x]; exact s_27_24
  have t_31_25 : bitsOf w 31 25 = 11 := by rw [← bitsOf_bitsOf w 31 24 7 1 (by decide), q_x]; exact s_31_25
  refine ⟨?_, ?_⟩
  · simp [decodeHelmWord, decodeShort, decodeSelector, wMajor, wD, wA, wB, wFn, wSub, wX, wImm, zeroThen, bitsOf_bitsOf, bitOf_eq, z0, q_m, q_x, q_sub, q_a, q_d, t_31_27, s_31_27, t_26_24, s_26_24, t_31_29, s_31_29, t_25_24, s_25_24, t_28_26, s_28_26, t_30_24, s_30_24, t_27_24, s_27_24, t_31_25, s_31_25, checked_of hf]
  · simpa [helmBytes, bitOf_eq, z0] using hb

theorem rbSurr (a : GReg) (mask : BitVec 7) : Statement (.rbSurr a mask) := by
  refine ⟨fun w hf hw => ?_, fun w _ hw => by simp [strandWord] at hw⟩
  simp only [helmWord, Option.some.injEq] at hw
  obtain ⟨b_x, s_30_24⟩ : mask.toNat < 2 ^ 8 ∧ bitsOf (mask.toNat) 6 0 = mask.toNat := by
    have hn0 : mask.toNat < 128 := mask.isLt
    clear hw hf
    generalize mask.toNat = n0 at hn0 ⊢
    simp only [bitsOf]
    exact ⟨by omega, by omega⟩
  obtain ⟨z0, q_m, q_x, q_sub, q_a, q_d, hb⟩ := packHS_fields (show (0x3B : Nat) < 2 ^ 7 by decide) (Nat.lt_of_lt_of_le mask.isLt (by decide)) (show (0 : Nat) < 2 ^ 4 by decide) a.isLt (show (0 : Nat) < 2 ^ 6 by decide)
  rw [hw] at z0 q_m q_x q_sub q_a q_d hb
  have t_30_24 : bitsOf w 30 24 = mask.toNat := by rw [← bitsOf_bitsOf w 31 24 6 0 (by decide), q_x]; exact s_30_24
  have ln0 : mask.toNat < 128 := mask.isLt
  have r0 : mask.toNat < 128 := by omega
  refine ⟨?_, ?_⟩
  · simp [decodeHelmWord, decodeShort, decodeSelector, wMajor, wD, wA, wB, wFn, wSub, wX, wImm, zeroThen, bitsOf_bitsOf, bitOf_eq, z0, q_m, q_x, q_sub, q_a, q_d, t_30_24, s_30_24, r0, checked_of hf]
  · simpa [helmBytes, bitOf_eq, z0] using hb

theorem rbClaim (a : GReg) (mask : BitVec 7) : Statement (.rbClaim a mask) := by
  refine ⟨fun w hf hw => ?_, fun w _ hw => by simp [strandWord] at hw⟩
  simp only [helmWord, Option.some.injEq] at hw
  obtain ⟨b_x, s_30_24⟩ : mask.toNat < 2 ^ 8 ∧ bitsOf (mask.toNat) 6 0 = mask.toNat := by
    have hn0 : mask.toNat < 128 := mask.isLt
    clear hw hf
    generalize mask.toNat = n0 at hn0 ⊢
    simp only [bitsOf]
    exact ⟨by omega, by omega⟩
  obtain ⟨z0, q_m, q_x, q_sub, q_a, q_d, hb⟩ := packHS_fields (show (0x3B : Nat) < 2 ^ 7 by decide) (Nat.lt_of_lt_of_le mask.isLt (by decide)) (show (1 : Nat) < 2 ^ 4 by decide) a.isLt (show (0 : Nat) < 2 ^ 6 by decide)
  rw [hw] at z0 q_m q_x q_sub q_a q_d hb
  have t_30_24 : bitsOf w 30 24 = mask.toNat := by rw [← bitsOf_bitsOf w 31 24 6 0 (by decide), q_x]; exact s_30_24
  have ln0 : mask.toNat < 128 := mask.isLt
  have r0 : mask.toNat < 128 := by omega
  refine ⟨?_, ?_⟩
  · simp [decodeHelmWord, decodeShort, decodeSelector, wMajor, wD, wA, wB, wFn, wSub, wX, wImm, zeroThen, bitsOf_bitsOf, bitOf_eq, z0, q_m, q_x, q_sub, q_a, q_d, t_30_24, s_30_24, r0, checked_of hf]
  · simpa [helmBytes, bitOf_eq, z0] using hb

theorem yield  : Statement (.yield) := by
  refine ⟨fun w hf hw => ?_, fun w _ hw => by simp [strandWord] at hw⟩
  simp only [helmWord, Option.some.injEq] at hw
  obtain ⟨b_x, s_31_27, s_26_24, s_31_29, s_25_24, s_28_26, s_30_24, s_27_24, s_31_25⟩ : 0 < 2 ^ 8 ∧ bitsOf (0) 7 3 = 0 ∧ bitsOf (0) 2 0 = 0 ∧ bitsOf (0) 7 5 = 0 ∧ bitsOf (0) 1 0 = 0 ∧ bitsOf (0) 4 2 = 0 ∧ bitsOf (0) 6 0 = 0 ∧ bitsOf (0) 3 0 = 0 ∧ bitsOf (0) 7 1 = 0 := by
    decide
  obtain ⟨z0, q_m, q_x, q_sub, q_a, q_d, hb⟩ := packHS_fields (show (0x3C : Nat) < 2 ^ 7 by decide) (show (0 : Nat) < 2 ^ 8 by decide) (show (0 : Nat) < 2 ^ 4 by decide) (show (0 : Nat) < 2 ^ 6 by decide) (show (0 : Nat) < 2 ^ 6 by decide)
  rw [hw] at z0 q_m q_x q_sub q_a q_d hb
  have t_31_27 : bitsOf w 31 27 = 0 := by rw [← bitsOf_bitsOf w 31 24 7 3 (by decide), q_x]; exact s_31_27
  have t_26_24 : bitsOf w 26 24 = 0 := by rw [← bitsOf_bitsOf w 31 24 2 0 (by decide), q_x]; exact s_26_24
  have t_31_29 : bitsOf w 31 29 = 0 := by rw [← bitsOf_bitsOf w 31 24 7 5 (by decide), q_x]; exact s_31_29
  have t_25_24 : bitsOf w 25 24 = 0 := by rw [← bitsOf_bitsOf w 31 24 1 0 (by decide), q_x]; exact s_25_24
  have t_28_26 : bitsOf w 28 26 = 0 := by rw [← bitsOf_bitsOf w 31 24 4 2 (by decide), q_x]; exact s_28_26
  have t_30_24 : bitsOf w 30 24 = 0 := by rw [← bitsOf_bitsOf w 31 24 6 0 (by decide), q_x]; exact s_30_24
  have t_27_24 : bitsOf w 27 24 = 0 := by rw [← bitsOf_bitsOf w 31 24 3 0 (by decide), q_x]; exact s_27_24
  have t_31_25 : bitsOf w 31 25 = 0 := by rw [← bitsOf_bitsOf w 31 24 7 1 (by decide), q_x]; exact s_31_25
  have r0 : 0 < 16 := by omega
  refine ⟨?_, ?_⟩
  · simp [decodeHelmWord, decodeShort, decodeSelector, wMajor, wD, wA, wB, wFn, wSub, wX, wImm, zeroThen, bitsOf_bitsOf, bitOf_eq, z0, q_m, q_x, q_sub, q_a, q_d, t_31_27, s_31_27, t_26_24, s_26_24, t_31_29, s_31_29, t_25_24, s_25_24, t_28_26, s_28_26, t_30_24, s_30_24, t_27_24, s_27_24, t_31_25, s_31_25, r0, checked_of hf]
  · simpa [helmBytes, bitOf_eq, z0] using hb

theorem teamExit  : Statement (.teamExit) := by
  refine ⟨fun w hf hw => ?_, fun w _ hw => by simp [strandWord] at hw⟩
  simp only [helmWord, Option.some.injEq] at hw
  obtain ⟨b_x, s_31_27, s_26_24, s_31_29, s_25_24, s_28_26, s_30_24, s_27_24, s_31_25⟩ : 0 < 2 ^ 8 ∧ bitsOf (0) 7 3 = 0 ∧ bitsOf (0) 2 0 = 0 ∧ bitsOf (0) 7 5 = 0 ∧ bitsOf (0) 1 0 = 0 ∧ bitsOf (0) 4 2 = 0 ∧ bitsOf (0) 6 0 = 0 ∧ bitsOf (0) 3 0 = 0 ∧ bitsOf (0) 7 1 = 0 := by
    decide
  obtain ⟨z0, q_m, q_x, q_sub, q_a, q_d, hb⟩ := packHS_fields (show (0x3C : Nat) < 2 ^ 7 by decide) (show (0 : Nat) < 2 ^ 8 by decide) (show (1 : Nat) < 2 ^ 4 by decide) (show (0 : Nat) < 2 ^ 6 by decide) (show (0 : Nat) < 2 ^ 6 by decide)
  rw [hw] at z0 q_m q_x q_sub q_a q_d hb
  have t_31_27 : bitsOf w 31 27 = 0 := by rw [← bitsOf_bitsOf w 31 24 7 3 (by decide), q_x]; exact s_31_27
  have t_26_24 : bitsOf w 26 24 = 0 := by rw [← bitsOf_bitsOf w 31 24 2 0 (by decide), q_x]; exact s_26_24
  have t_31_29 : bitsOf w 31 29 = 0 := by rw [← bitsOf_bitsOf w 31 24 7 5 (by decide), q_x]; exact s_31_29
  have t_25_24 : bitsOf w 25 24 = 0 := by rw [← bitsOf_bitsOf w 31 24 1 0 (by decide), q_x]; exact s_25_24
  have t_28_26 : bitsOf w 28 26 = 0 := by rw [← bitsOf_bitsOf w 31 24 4 2 (by decide), q_x]; exact s_28_26
  have t_30_24 : bitsOf w 30 24 = 0 := by rw [← bitsOf_bitsOf w 31 24 6 0 (by decide), q_x]; exact s_30_24
  have t_27_24 : bitsOf w 27 24 = 0 := by rw [← bitsOf_bitsOf w 31 24 3 0 (by decide), q_x]; exact s_27_24
  have t_31_25 : bitsOf w 31 25 = 0 := by rw [← bitsOf_bitsOf w 31 24 7 1 (by decide), q_x]; exact s_31_25
  have r0 : 0 < 16 := by omega
  refine ⟨?_, ?_⟩
  · simp [decodeHelmWord, decodeShort, decodeSelector, wMajor, wD, wA, wB, wFn, wSub, wX, wImm, zeroThen, bitsOf_bitsOf, bitOf_eq, z0, q_m, q_x, q_sub, q_a, q_d, t_31_27, s_31_27, t_26_24, s_26_24, t_31_29, s_31_29, t_25_24, s_25_24, t_28_26, s_28_26, t_30_24, s_30_24, t_27_24, s_27_24, t_31_25, s_31_25, r0, checked_of hf]
  · simpa [helmBytes, bitOf_eq, z0] using hb

theorem teamInfo (d : GReg) (item : BitVec 4) : Statement (.teamInfo d item) := by
  refine ⟨fun w hf hw => ?_, fun w _ hw => by simp [strandWord] at hw⟩
  simp only [helmWord, Option.some.injEq] at hw
  obtain ⟨b_x, s_31_29, s_30_24, s_27_24⟩ : item.toNat < 2 ^ 8 ∧ bitsOf (item.toNat) 7 5 = 0 ∧ bitsOf (item.toNat) 6 0 = item.toNat ∧ bitsOf (item.toNat) 3 0 = item.toNat := by
    have hn0 : item.toNat < 16 := item.isLt
    clear hw hf
    generalize item.toNat = n0 at hn0 ⊢
    simp only [bitsOf]
    exact ⟨by omega, by omega, by omega, by omega⟩
  obtain ⟨z0, q_m, q_x, q_sub, q_a, q_d, hb⟩ := packHS_fields (show (0x3C : Nat) < 2 ^ 7 by decide) (Nat.lt_of_lt_of_le item.isLt (by decide)) (show (2 : Nat) < 2 ^ 4 by decide) (show (0 : Nat) < 2 ^ 6 by decide) d.isLt
  rw [hw] at z0 q_m q_x q_sub q_a q_d hb
  have t_31_29 : bitsOf w 31 29 = 0 := by rw [← bitsOf_bitsOf w 31 24 7 5 (by decide), q_x]; exact s_31_29
  have t_30_24 : bitsOf w 30 24 = item.toNat := by rw [← bitsOf_bitsOf w 31 24 6 0 (by decide), q_x]; exact s_30_24
  have t_27_24 : bitsOf w 27 24 = item.toNat := by rw [← bitsOf_bitsOf w 31 24 3 0 (by decide), q_x]; exact s_27_24
  have ln0 : item.toNat < 16 := item.isLt
  have r0 : item.toNat < 16 := by omega
  refine ⟨?_, ?_⟩
  · simp [decodeHelmWord, decodeShort, decodeSelector, wMajor, wD, wA, wB, wFn, wSub, wX, wImm, zeroThen, bitsOf_bitsOf, bitOf_eq, z0, q_m, q_x, q_sub, q_a, q_d, t_31_29, s_31_29, t_30_24, s_30_24, t_27_24, s_27_24, r0, checked_of hf]
  · simpa [helmBytes, bitOf_eq, z0] using hb

theorem join (d : GReg) : Statement (.join d) := by
  refine ⟨fun w hf hw => ?_, fun w _ hw => by simp [strandWord] at hw⟩
  simp only [helmWord, Option.some.injEq] at hw
  obtain ⟨b_x, s_31_27, s_26_24, s_31_29, s_25_24, s_28_26, s_30_24, s_27_24, s_31_25⟩ : 0 < 2 ^ 8 ∧ bitsOf (0) 7 3 = 0 ∧ bitsOf (0) 2 0 = 0 ∧ bitsOf (0) 7 5 = 0 ∧ bitsOf (0) 1 0 = 0 ∧ bitsOf (0) 4 2 = 0 ∧ bitsOf (0) 6 0 = 0 ∧ bitsOf (0) 3 0 = 0 ∧ bitsOf (0) 7 1 = 0 := by
    decide
  obtain ⟨z0, q_m, q_x, q_sub, q_a, q_d, hb⟩ := packHS_fields (show (0x3C : Nat) < 2 ^ 7 by decide) (show (0 : Nat) < 2 ^ 8 by decide) (show (3 : Nat) < 2 ^ 4 by decide) (show (0 : Nat) < 2 ^ 6 by decide) d.isLt
  rw [hw] at z0 q_m q_x q_sub q_a q_d hb
  have t_31_27 : bitsOf w 31 27 = 0 := by rw [← bitsOf_bitsOf w 31 24 7 3 (by decide), q_x]; exact s_31_27
  have t_26_24 : bitsOf w 26 24 = 0 := by rw [← bitsOf_bitsOf w 31 24 2 0 (by decide), q_x]; exact s_26_24
  have t_31_29 : bitsOf w 31 29 = 0 := by rw [← bitsOf_bitsOf w 31 24 7 5 (by decide), q_x]; exact s_31_29
  have t_25_24 : bitsOf w 25 24 = 0 := by rw [← bitsOf_bitsOf w 31 24 1 0 (by decide), q_x]; exact s_25_24
  have t_28_26 : bitsOf w 28 26 = 0 := by rw [← bitsOf_bitsOf w 31 24 4 2 (by decide), q_x]; exact s_28_26
  have t_30_24 : bitsOf w 30 24 = 0 := by rw [← bitsOf_bitsOf w 31 24 6 0 (by decide), q_x]; exact s_30_24
  have t_27_24 : bitsOf w 27 24 = 0 := by rw [← bitsOf_bitsOf w 31 24 3 0 (by decide), q_x]; exact s_27_24
  have t_31_25 : bitsOf w 31 25 = 0 := by rw [← bitsOf_bitsOf w 31 24 7 1 (by decide), q_x]; exact s_31_25
  have r0 : 0 < 16 := by omega
  refine ⟨?_, ?_⟩
  · simp [decodeHelmWord, decodeShort, decodeSelector, wMajor, wD, wA, wB, wFn, wSub, wX, wImm, zeroThen, bitsOf_bitsOf, bitOf_eq, z0, q_m, q_x, q_sub, q_a, q_d, t_31_27, s_31_27, t_26_24, s_26_24, t_31_29, s_31_29, t_25_24, s_25_24, t_28_26, s_28_26, t_30_24, s_30_24, t_27_24, s_27_24, t_31_25, s_31_25, r0, checked_of hf]
  · simpa [helmBytes, bitOf_eq, z0] using hb

theorem sysRd (d : GReg) (num : BitVec 8) : Statement (.sysRd d num) := by
  refine ⟨fun w hf hw => ?_, fun w _ hw => by simp [strandWord] at hw⟩
  simp only [helmWord, Option.some.injEq] at hw
  obtain ⟨z0, q_m, q_x, q_sub, q_a, q_d, hb⟩ := packHS_fields (show (0x3D : Nat) < 2 ^ 7 by decide) num.isLt (show (0 : Nat) < 2 ^ 4 by decide) (show (0 : Nat) < 2 ^ 6 by decide) d.isLt
  rw [hw] at z0 q_m q_x q_sub q_a q_d hb
  refine ⟨?_, ?_⟩
  · simp [decodeHelmWord, decodeShort, decodeSelector, wMajor, wD, wA, wB, wFn, wSub, wX, wImm, zeroThen, bitsOf_bitsOf, bitOf_eq, z0, q_m, q_x, q_sub, q_a, q_d, checked_of hf]
  · simpa [helmBytes, bitOf_eq, z0] using hb

theorem sysWr (a : GReg) (num : BitVec 8) : Statement (.sysWr a num) := by
  refine ⟨fun w hf hw => ?_, fun w _ hw => by simp [strandWord] at hw⟩
  simp only [helmWord, Option.some.injEq] at hw
  obtain ⟨z0, q_m, q_x, q_sub, q_a, q_d, hb⟩ := packHS_fields (show (0x3D : Nat) < 2 ^ 7 by decide) num.isLt (show (1 : Nat) < 2 ^ 4 by decide) a.isLt (show (0 : Nat) < 2 ^ 6 by decide)
  rw [hw] at z0 q_m q_x q_sub q_a q_d hb
  refine ⟨?_, ?_⟩
  · simp [decodeHelmWord, decodeShort, decodeSelector, wMajor, wD, wA, wB, wFn, wSub, wX, wImm, zeroThen, bitsOf_bitsOf, bitOf_eq, z0, q_m, q_x, q_sub, q_a, q_d, checked_of hf]
  · simpa [helmBytes, bitOf_eq, z0] using hb

theorem trap (n : BitVec 8) : Statement (.trap n) := by
  refine ⟨fun w hf hw => ?_, fun w _ hw => by simp [strandWord] at hw⟩
  simp only [helmWord, Option.some.injEq] at hw
  obtain ⟨z0, q_m, q_x, q_sub, q_a, q_d, hb⟩ := packHS_fields (show (0x3D : Nat) < 2 ^ 7 by decide) n.isLt (show (2 : Nat) < 2 ^ 4 by decide) (show (0 : Nat) < 2 ^ 6 by decide) (show (0 : Nat) < 2 ^ 6 by decide)
  rw [hw] at z0 q_m q_x q_sub q_a q_d hb
  refine ⟨?_, ?_⟩
  · simp [decodeHelmWord, decodeShort, decodeSelector, wMajor, wD, wA, wB, wFn, wSub, wX, wImm, zeroThen, bitsOf_bitsOf, bitOf_eq, z0, q_m, q_x, q_sub, q_a, q_d, checked_of hf]
  · simpa [helmBytes, bitOf_eq, z0] using hb

theorem eret  : Statement (.eret) := by
  refine ⟨fun w hf hw => ?_, fun w _ hw => by simp [strandWord] at hw⟩
  simp only [helmWord, Option.some.injEq] at hw
  obtain ⟨b_x, s_31_27, s_26_24, s_31_29, s_25_24, s_28_26, s_30_24, s_27_24, s_31_25⟩ : 0 < 2 ^ 8 ∧ bitsOf (0) 7 3 = 0 ∧ bitsOf (0) 2 0 = 0 ∧ bitsOf (0) 7 5 = 0 ∧ bitsOf (0) 1 0 = 0 ∧ bitsOf (0) 4 2 = 0 ∧ bitsOf (0) 6 0 = 0 ∧ bitsOf (0) 3 0 = 0 ∧ bitsOf (0) 7 1 = 0 := by
    decide
  obtain ⟨z0, q_m, q_x, q_sub, q_a, q_d, hb⟩ := packHS_fields (show (0x3D : Nat) < 2 ^ 7 by decide) (show (0 : Nat) < 2 ^ 8 by decide) (show (3 : Nat) < 2 ^ 4 by decide) (show (0 : Nat) < 2 ^ 6 by decide) (show (0 : Nat) < 2 ^ 6 by decide)
  rw [hw] at z0 q_m q_x q_sub q_a q_d hb
  have t_31_27 : bitsOf w 31 27 = 0 := by rw [← bitsOf_bitsOf w 31 24 7 3 (by decide), q_x]; exact s_31_27
  have t_26_24 : bitsOf w 26 24 = 0 := by rw [← bitsOf_bitsOf w 31 24 2 0 (by decide), q_x]; exact s_26_24
  have t_31_29 : bitsOf w 31 29 = 0 := by rw [← bitsOf_bitsOf w 31 24 7 5 (by decide), q_x]; exact s_31_29
  have t_25_24 : bitsOf w 25 24 = 0 := by rw [← bitsOf_bitsOf w 31 24 1 0 (by decide), q_x]; exact s_25_24
  have t_28_26 : bitsOf w 28 26 = 0 := by rw [← bitsOf_bitsOf w 31 24 4 2 (by decide), q_x]; exact s_28_26
  have t_30_24 : bitsOf w 30 24 = 0 := by rw [← bitsOf_bitsOf w 31 24 6 0 (by decide), q_x]; exact s_30_24
  have t_27_24 : bitsOf w 27 24 = 0 := by rw [← bitsOf_bitsOf w 31 24 3 0 (by decide), q_x]; exact s_27_24
  have t_31_25 : bitsOf w 31 25 = 0 := by rw [← bitsOf_bitsOf w 31 24 7 1 (by decide), q_x]; exact s_31_25
  refine ⟨?_, ?_⟩
  · simp [decodeHelmWord, decodeShort, decodeSelector, wMajor, wD, wA, wB, wFn, wSub, wX, wImm, zeroThen, bitsOf_bitsOf, bitOf_eq, z0, q_m, q_x, q_sub, q_a, q_d, t_31_27, s_31_27, t_26_24, s_26_24, t_31_29, s_31_29, t_25_24, s_25_24, t_28_26, s_28_26, t_30_24, s_30_24, t_27_24, s_27_24, t_31_25, s_31_25, checked_of hf]
  · simpa [helmBytes, bitOf_eq, z0] using hb

theorem brk (n : BitVec 8) : Statement (.brk n) := by
  refine ⟨fun w hf hw => ?_, fun w _ hw => by simp [strandWord] at hw⟩
  simp only [helmWord, Option.some.injEq] at hw
  obtain ⟨z0, q_m, q_x, q_sub, q_a, q_d, hb⟩ := packHS_fields (show (0x3D : Nat) < 2 ^ 7 by decide) n.isLt (show (4 : Nat) < 2 ^ 4 by decide) (show (0 : Nat) < 2 ^ 6 by decide) (show (0 : Nat) < 2 ^ 6 by decide)
  rw [hw] at z0 q_m q_x q_sub q_a q_d hb
  refine ⟨?_, ?_⟩
  · simp [decodeHelmWord, decodeShort, decodeSelector, wMajor, wD, wA, wB, wFn, wSub, wX, wImm, zeroThen, bitsOf_bitsOf, bitOf_eq, z0, q_m, q_x, q_sub, q_a, q_d, checked_of hf]
  · simpa [helmBytes, bitOf_eq, z0] using hb

theorem halt (a : GReg) : Statement (.halt a) := by
  refine ⟨fun w hf hw => ?_, fun w _ hw => by simp [strandWord] at hw⟩
  simp only [helmWord, Option.some.injEq] at hw
  obtain ⟨b_x, s_31_27, s_26_24, s_31_29, s_25_24, s_28_26, s_30_24, s_27_24, s_31_25⟩ : 0 < 2 ^ 8 ∧ bitsOf (0) 7 3 = 0 ∧ bitsOf (0) 2 0 = 0 ∧ bitsOf (0) 7 5 = 0 ∧ bitsOf (0) 1 0 = 0 ∧ bitsOf (0) 4 2 = 0 ∧ bitsOf (0) 6 0 = 0 ∧ bitsOf (0) 3 0 = 0 ∧ bitsOf (0) 7 1 = 0 := by
    decide
  obtain ⟨z0, q_m, q_x, q_sub, q_a, q_d, hb⟩ := packHS_fields (show (0x3D : Nat) < 2 ^ 7 by decide) (show (0 : Nat) < 2 ^ 8 by decide) (show (5 : Nat) < 2 ^ 4 by decide) a.isLt (show (0 : Nat) < 2 ^ 6 by decide)
  rw [hw] at z0 q_m q_x q_sub q_a q_d hb
  have t_31_27 : bitsOf w 31 27 = 0 := by rw [← bitsOf_bitsOf w 31 24 7 3 (by decide), q_x]; exact s_31_27
  have t_26_24 : bitsOf w 26 24 = 0 := by rw [← bitsOf_bitsOf w 31 24 2 0 (by decide), q_x]; exact s_26_24
  have t_31_29 : bitsOf w 31 29 = 0 := by rw [← bitsOf_bitsOf w 31 24 7 5 (by decide), q_x]; exact s_31_29
  have t_25_24 : bitsOf w 25 24 = 0 := by rw [← bitsOf_bitsOf w 31 24 1 0 (by decide), q_x]; exact s_25_24
  have t_28_26 : bitsOf w 28 26 = 0 := by rw [← bitsOf_bitsOf w 31 24 4 2 (by decide), q_x]; exact s_28_26
  have t_30_24 : bitsOf w 30 24 = 0 := by rw [← bitsOf_bitsOf w 31 24 6 0 (by decide), q_x]; exact s_30_24
  have t_27_24 : bitsOf w 27 24 = 0 := by rw [← bitsOf_bitsOf w 31 24 3 0 (by decide), q_x]; exact s_27_24
  have t_31_25 : bitsOf w 31 25 = 0 := by rw [← bitsOf_bitsOf w 31 24 7 1 (by decide), q_x]; exact s_31_25
  refine ⟨?_, ?_⟩
  · simp [decodeHelmWord, decodeShort, decodeSelector, wMajor, wD, wA, wB, wFn, wSub, wX, wImm, zeroThen, bitsOf_bitsOf, bitOf_eq, z0, q_m, q_x, q_sub, q_a, q_d, t_31_27, s_31_27, t_26_24, s_26_24, t_31_29, s_31_29, t_25_24, s_25_24, t_28_26, s_28_26, t_30_24, s_30_24, t_27_24, s_27_24, t_31_25, s_31_25, checked_of hf]
  · simpa [helmBytes, bitOf_eq, z0] using hb

theorem tlbInv (a : GReg) : Statement (.tlbInv a) := by
  refine ⟨fun w hf hw => ?_, fun w _ hw => by simp [strandWord] at hw⟩
  simp only [helmWord, Option.some.injEq] at hw
  obtain ⟨b_x, s_31_27, s_26_24, s_31_29, s_25_24, s_28_26, s_30_24, s_27_24, s_31_25⟩ : 0 < 2 ^ 8 ∧ bitsOf (0) 7 3 = 0 ∧ bitsOf (0) 2 0 = 0 ∧ bitsOf (0) 7 5 = 0 ∧ bitsOf (0) 1 0 = 0 ∧ bitsOf (0) 4 2 = 0 ∧ bitsOf (0) 6 0 = 0 ∧ bitsOf (0) 3 0 = 0 ∧ bitsOf (0) 7 1 = 0 := by
    decide
  obtain ⟨z0, q_m, q_x, q_sub, q_a, q_d, hb⟩ := packHS_fields (show (0x3E : Nat) < 2 ^ 7 by decide) (show (0 : Nat) < 2 ^ 8 by decide) (show (0 : Nat) < 2 ^ 4 by decide) a.isLt (show (0 : Nat) < 2 ^ 6 by decide)
  rw [hw] at z0 q_m q_x q_sub q_a q_d hb
  have t_31_27 : bitsOf w 31 27 = 0 := by rw [← bitsOf_bitsOf w 31 24 7 3 (by decide), q_x]; exact s_31_27
  have t_26_24 : bitsOf w 26 24 = 0 := by rw [← bitsOf_bitsOf w 31 24 2 0 (by decide), q_x]; exact s_26_24
  have t_31_29 : bitsOf w 31 29 = 0 := by rw [← bitsOf_bitsOf w 31 24 7 5 (by decide), q_x]; exact s_31_29
  have t_25_24 : bitsOf w 25 24 = 0 := by rw [← bitsOf_bitsOf w 31 24 1 0 (by decide), q_x]; exact s_25_24
  have t_28_26 : bitsOf w 28 26 = 0 := by rw [← bitsOf_bitsOf w 31 24 4 2 (by decide), q_x]; exact s_28_26
  have t_30_24 : bitsOf w 30 24 = 0 := by rw [← bitsOf_bitsOf w 31 24 6 0 (by decide), q_x]; exact s_30_24
  have t_27_24 : bitsOf w 27 24 = 0 := by rw [← bitsOf_bitsOf w 31 24 3 0 (by decide), q_x]; exact s_27_24
  have t_31_25 : bitsOf w 31 25 = 0 := by rw [← bitsOf_bitsOf w 31 24 7 1 (by decide), q_x]; exact s_31_25
  refine ⟨?_, ?_⟩
  · simp [decodeHelmWord, decodeShort, decodeSelector, wMajor, wD, wA, wB, wFn, wSub, wX, wImm, zeroThen, bitsOf_bitsOf, bitOf_eq, z0, q_m, q_x, q_sub, q_a, q_d, t_31_27, s_31_27, t_26_24, s_26_24, t_31_29, s_31_29, t_25_24, s_25_24, t_28_26, s_28_26, t_30_24, s_30_24, t_27_24, s_27_24, t_31_25, s_31_25, checked_of hf]
  · simpa [helmBytes, bitOf_eq, z0] using hb

theorem tlbInvAll  : Statement (.tlbInvAll) := by
  refine ⟨fun w hf hw => ?_, fun w _ hw => by simp [strandWord] at hw⟩
  simp only [helmWord, Option.some.injEq] at hw
  obtain ⟨b_x, s_31_27, s_26_24, s_31_29, s_25_24, s_28_26, s_30_24, s_27_24, s_31_25⟩ : 1 < 2 ^ 8 ∧ bitsOf (1) 7 3 = 0 ∧ bitsOf (1) 2 0 = 1 ∧ bitsOf (1) 7 5 = 0 ∧ bitsOf (1) 1 0 = 1 ∧ bitsOf (1) 4 2 = 0 ∧ bitsOf (1) 6 0 = 1 ∧ bitsOf (1) 3 0 = 1 ∧ bitsOf (1) 7 1 = 0 := by
    decide
  obtain ⟨z0, q_m, q_x, q_sub, q_a, q_d, hb⟩ := packHS_fields (show (0x3E : Nat) < 2 ^ 7 by decide) (show (1 : Nat) < 2 ^ 8 by decide) (show (0 : Nat) < 2 ^ 4 by decide) (show (0 : Nat) < 2 ^ 6 by decide) (show (0 : Nat) < 2 ^ 6 by decide)
  rw [hw] at z0 q_m q_x q_sub q_a q_d hb
  have t_31_27 : bitsOf w 31 27 = 0 := by rw [← bitsOf_bitsOf w 31 24 7 3 (by decide), q_x]; exact s_31_27
  have t_26_24 : bitsOf w 26 24 = 1 := by rw [← bitsOf_bitsOf w 31 24 2 0 (by decide), q_x]; exact s_26_24
  have t_31_29 : bitsOf w 31 29 = 0 := by rw [← bitsOf_bitsOf w 31 24 7 5 (by decide), q_x]; exact s_31_29
  have t_25_24 : bitsOf w 25 24 = 1 := by rw [← bitsOf_bitsOf w 31 24 1 0 (by decide), q_x]; exact s_25_24
  have t_28_26 : bitsOf w 28 26 = 0 := by rw [← bitsOf_bitsOf w 31 24 4 2 (by decide), q_x]; exact s_28_26
  have t_30_24 : bitsOf w 30 24 = 1 := by rw [← bitsOf_bitsOf w 31 24 6 0 (by decide), q_x]; exact s_30_24
  have t_27_24 : bitsOf w 27 24 = 1 := by rw [← bitsOf_bitsOf w 31 24 3 0 (by decide), q_x]; exact s_27_24
  have t_31_25 : bitsOf w 31 25 = 0 := by rw [← bitsOf_bitsOf w 31 24 7 1 (by decide), q_x]; exact s_31_25
  refine ⟨?_, ?_⟩
  · simp [decodeHelmWord, decodeShort, decodeSelector, wMajor, wD, wA, wB, wFn, wSub, wX, wImm, zeroThen, bitsOf_bitsOf, bitOf_eq, z0, q_m, q_x, q_sub, q_a, q_d, t_31_27, s_31_27, t_26_24, s_26_24, t_31_29, s_31_29, t_25_24, s_25_24, t_28_26, s_28_26, t_30_24, s_30_24, t_27_24, s_27_24, t_31_25, s_31_25, checked_of hf]
  · simpa [helmBytes, bitOf_eq, z0] using hb

theorem pgProbe (d : GReg) (a : GReg) : Statement (.pgProbe d a) := by
  refine ⟨fun w hf hw => ?_, fun w _ hw => by simp [strandWord] at hw⟩
  simp only [helmWord, Option.some.injEq] at hw
  obtain ⟨b_x, s_31_27, s_26_24, s_31_29, s_25_24, s_28_26, s_30_24, s_27_24, s_31_25⟩ : 0 < 2 ^ 8 ∧ bitsOf (0) 7 3 = 0 ∧ bitsOf (0) 2 0 = 0 ∧ bitsOf (0) 7 5 = 0 ∧ bitsOf (0) 1 0 = 0 ∧ bitsOf (0) 4 2 = 0 ∧ bitsOf (0) 6 0 = 0 ∧ bitsOf (0) 3 0 = 0 ∧ bitsOf (0) 7 1 = 0 := by
    decide
  obtain ⟨z0, q_m, q_x, q_sub, q_a, q_d, hb⟩ := packHS_fields (show (0x3E : Nat) < 2 ^ 7 by decide) (show (0 : Nat) < 2 ^ 8 by decide) (show (1 : Nat) < 2 ^ 4 by decide) a.isLt d.isLt
  rw [hw] at z0 q_m q_x q_sub q_a q_d hb
  have t_31_27 : bitsOf w 31 27 = 0 := by rw [← bitsOf_bitsOf w 31 24 7 3 (by decide), q_x]; exact s_31_27
  have t_26_24 : bitsOf w 26 24 = 0 := by rw [← bitsOf_bitsOf w 31 24 2 0 (by decide), q_x]; exact s_26_24
  have t_31_29 : bitsOf w 31 29 = 0 := by rw [← bitsOf_bitsOf w 31 24 7 5 (by decide), q_x]; exact s_31_29
  have t_25_24 : bitsOf w 25 24 = 0 := by rw [← bitsOf_bitsOf w 31 24 1 0 (by decide), q_x]; exact s_25_24
  have t_28_26 : bitsOf w 28 26 = 0 := by rw [← bitsOf_bitsOf w 31 24 4 2 (by decide), q_x]; exact s_28_26
  have t_30_24 : bitsOf w 30 24 = 0 := by rw [← bitsOf_bitsOf w 31 24 6 0 (by decide), q_x]; exact s_30_24
  have t_27_24 : bitsOf w 27 24 = 0 := by rw [← bitsOf_bitsOf w 31 24 3 0 (by decide), q_x]; exact s_27_24
  have t_31_25 : bitsOf w 31 25 = 0 := by rw [← bitsOf_bitsOf w 31 24 7 1 (by decide), q_x]; exact s_31_25
  refine ⟨?_, ?_⟩
  · simp [decodeHelmWord, decodeShort, decodeSelector, wMajor, wD, wA, wB, wFn, wSub, wX, wImm, zeroThen, bitsOf_bitsOf, bitOf_eq, z0, q_m, q_x, q_sub, q_a, q_d, t_31_27, s_31_27, t_26_24, s_26_24, t_31_29, s_31_29, t_25_24, s_25_24, t_28_26, s_28_26, t_30_24, s_30_24, t_27_24, s_27_24, t_31_25, s_31_25, checked_of hf]
  · simpa [helmBytes, bitOf_eq, z0] using hb

theorem li (d : GReg) (imm : W32) : Statement (.li d imm) := by
  refine ⟨fun w hf hw => ?_, fun w _ hw => by simp [strandWord] at hw⟩
  simp only [helmWord, Option.some.injEq] at hw
  obtain ⟨z0, q_m, q_imm, q_fn8, q_seg, q_a, q_d, hb⟩ := packL_fields (show (0x01 : Nat) < 2 ^ 7 by decide) imm.isLt (show (0 : Nat) < 2 ^ 8 by decide) (show (0 : Nat) < 2 ^ 4 by decide) (show (0 : Nat) < 2 ^ 6 by decide) d.isLt
  rw [hw] at z0 q_m q_imm q_fn8 q_seg q_a q_d hb
  refine ⟨?_, ?_⟩
  · simp [decodeHelmWord, decodeLong, wMajor, wD, wA, wB, wFn, wSub, wX, wImm, zeroThen, bitsOf_bitsOf, bitOf_eq, z0, q_m, q_imm, q_fn8, q_seg, q_a, q_d, checked_of hf]
  · simpa [helmBytes, bitOf_eq, z0] using hb

theorem liHi (d : GReg) (imm : W32) : Statement (.liHi d imm) := by
  refine ⟨fun w hf hw => ?_, fun w _ hw => by simp [strandWord] at hw⟩
  simp only [helmWord, Option.some.injEq] at hw
  obtain ⟨z0, q_m, q_imm, q_fn8, q_seg, q_a, q_d, hb⟩ := packL_fields (show (0x01 : Nat) < 2 ^ 7 by decide) imm.isLt (show (1 : Nat) < 2 ^ 8 by decide) (show (0 : Nat) < 2 ^ 4 by decide) (show (0 : Nat) < 2 ^ 6 by decide) d.isLt
  rw [hw] at z0 q_m q_imm q_fn8 q_seg q_a q_d hb
  refine ⟨?_, ?_⟩
  · simp [decodeHelmWord, decodeLong, wMajor, wD, wA, wB, wFn, wSub, wX, wImm, zeroThen, bitsOf_bitsOf, bitOf_eq, z0, q_m, q_imm, q_fn8, q_seg, q_a, q_d, checked_of hf]
  · simpa [helmBytes, bitOf_eq, z0] using hb

theorem lea (d : GReg) (a : GReg) (seg : BitVec 4) (imm : W32) : Statement (.lea d a seg imm) := by
  refine ⟨fun w hf hw => ?_, fun w _ hw => by simp [strandWord] at hw⟩
  simp only [helmWord, Option.some.injEq] at hw
  obtain ⟨z0, q_m, q_imm, q_fn8, q_seg, q_a, q_d, hb⟩ := packL_fields (show (0x02 : Nat) < 2 ^ 7 by decide) imm.isLt (show (0 : Nat) < 2 ^ 8 by decide) seg.isLt a.isLt d.isLt
  rw [hw] at z0 q_m q_imm q_fn8 q_seg q_a q_d hb
  refine ⟨?_, ?_⟩
  · simp [decodeHelmWord, decodeLong, wMajor, wD, wA, wB, wFn, wSub, wX, wImm, zeroThen, bitsOf_bitsOf, bitOf_eq, z0, q_m, q_imm, q_fn8, q_seg, q_a, q_d, checked_of hf]
  · simpa [helmBytes, bitOf_eq, z0] using hb

theorem lds (d : GReg) (a : GReg) (seg : BitVec 4) (size : BitVec 3) (imm : W32) : Statement (.lds d a seg size imm) := by
  refine ⟨fun w hf hw => ?_, fun w _ hw => by simp [strandWord] at hw⟩
  simp only [helmWord, Option.some.injEq] at hw
  obtain ⟨b_fn8, s_26_24⟩ : size.toNat < 2 ^ 8 ∧ bitsOf (size.toNat) 2 0 = size.toNat := by
    have hn1 : size.toNat < 8 := size.isLt
    clear hw hf
    generalize size.toNat = n1 at hn1 ⊢
    simp only [bitsOf]
    exact ⟨by omega, by omega⟩
  obtain ⟨z0, q_m, q_imm, q_fn8, q_seg, q_a, q_d, hb⟩ := packL_fields (show (0x03 : Nat) < 2 ^ 7 by decide) imm.isLt (Nat.lt_of_lt_of_le size.isLt (by decide)) seg.isLt a.isLt d.isLt
  rw [hw] at z0 q_m q_imm q_fn8 q_seg q_a q_d hb
  have t_26_24 : bitsOf w 26 24 = size.toNat := by rw [← bitsOf_bitsOf w 31 24 2 0 (by decide), q_fn8]; exact s_26_24
  have ln1 : size.toNat < 8 := size.isLt
  have r0 : size.toNat < 8 := by omega
  refine ⟨?_, ?_⟩
  · simp [decodeHelmWord, decodeLong, wMajor, wD, wA, wB, wFn, wSub, wX, wImm, zeroThen, bitsOf_bitsOf, bitOf_eq, z0, q_m, q_imm, q_fn8, q_seg, q_a, q_d, t_26_24, s_26_24, r0, checked_of hf]
  · simpa [helmBytes, bitOf_eq, z0] using hb

theorem sts (g : GReg) (a : GReg) (seg : BitVec 4) (size : BitVec 3) (imm : W32) : Statement (.sts g a seg size imm) := by
  refine ⟨fun w hf hw => ?_, fun w _ hw => by simp [strandWord] at hw⟩
  simp only [helmWord, Option.some.injEq] at hw
  obtain ⟨b_fn8, s_26_24⟩ : size.toNat < 2 ^ 8 ∧ bitsOf (size.toNat) 2 0 = size.toNat := by
    have hn1 : size.toNat < 8 := size.isLt
    clear hw hf
    generalize size.toNat = n1 at hn1 ⊢
    simp only [bitsOf]
    exact ⟨by omega, by omega⟩
  obtain ⟨z0, q_m, q_imm, q_fn8, q_seg, q_a, q_d, hb⟩ := packL_fields (show (0x04 : Nat) < 2 ^ 7 by decide) imm.isLt (Nat.lt_of_lt_of_le size.isLt (by decide)) seg.isLt a.isLt g.isLt
  rw [hw] at z0 q_m q_imm q_fn8 q_seg q_a q_d hb
  have t_26_24 : bitsOf w 26 24 = size.toNat := by rw [← bitsOf_bitsOf w 31 24 2 0 (by decide), q_fn8]; exact s_26_24
  have ln1 : size.toNat < 8 := size.isLt
  have r0 : size.toNat < 8 := by omega
  refine ⟨?_, ?_⟩
  · simp [decodeHelmWord, decodeLong, wMajor, wD, wA, wB, wFn, wSub, wX, wImm, zeroThen, bitsOf_bitsOf, bitOf_eq, z0, q_m, q_imm, q_fn8, q_seg, q_a, q_d, t_26_24, s_26_24, r0, checked_of hf]
  · simpa [helmBytes, bitOf_eq, z0] using hb

theorem fma (p : Bool) (rnd : BitVec 3) (d : GReg) (a : GReg) (b : GReg) (c : GReg) : Statement (.fma p rnd d a b c) := by
  refine ⟨fun w hf hw => ?_, fun w _ hw => by simp [strandWord] at hw⟩
  simp only [helmWord, Option.some.injEq] at hw
  obtain ⟨b_imm, s_47_47, s_46_44, s_37_32, s_43_38, s_63_50, s_49_48⟩ : (b.toNat + c.toNat * 2 ^ 6 + rnd.toNat * 2 ^ 12 + b2n p * 2 ^ 15 + 0 * 2 ^ 16) < 2 ^ 32 ∧ bitsOf ((b.toNat + c.toNat * 2 ^ 6 + rnd.toNat * 2 ^ 12 + b2n p * 2 ^ 15 + 0 * 2 ^ 16)) 15 15 = b2n p ∧ bitsOf ((b.toNat + c.toNat * 2 ^ 6 + rnd.toNat * 2 ^ 12 + b2n p * 2 ^ 15 + 0 * 2 ^ 16)) 14 12 = rnd.toNat ∧ bitsOf ((b.toNat + c.toNat * 2 ^ 6 + rnd.toNat * 2 ^ 12 + b2n p * 2 ^ 15 + 0 * 2 ^ 16)) 5 0 = b.toNat ∧ bitsOf ((b.toNat + c.toNat * 2 ^ 6 + rnd.toNat * 2 ^ 12 + b2n p * 2 ^ 15 + 0 * 2 ^ 16)) 11 6 = c.toNat ∧ bitsOf ((b.toNat + c.toNat * 2 ^ 6 + rnd.toNat * 2 ^ 12 + b2n p * 2 ^ 15 + 0 * 2 ^ 16)) 31 18 = 0 ∧ bitsOf ((b.toNat + c.toNat * 2 ^ 6 + rnd.toNat * 2 ^ 12 + b2n p * 2 ^ 15 + 0 * 2 ^ 16)) 17 16 = 0 := by
    have hn0 : b.toNat < 64 := b.isLt
    have hn1 : c.toNat < 64 := c.isLt
    have hn2 : rnd.toNat < 8 := rnd.isLt
    have hn3 : b2n p < 2 := b2n_lt _
    have hn5 : d.toNat < 64 := d.isLt
    clear hw hf
    generalize b.toNat = n0 at hn0 ⊢
    generalize c.toNat = n1 at hn1 ⊢
    generalize rnd.toNat = n2 at hn2 ⊢
    generalize b2n p = n3 at hn3 ⊢
    generalize d.toNat = n5 at hn5 ⊢
    simp only [bitsOf]
    exact ⟨by omega, by omega, by omega, by omega, by omega, by omega, by omega⟩
  obtain ⟨z0, q_m, q_imm, q_fn8, q_seg, q_a, q_d, hb⟩ := packL_fields (show (0x05 : Nat) < 2 ^ 7 by decide) b_imm (show (0 : Nat) < 2 ^ 8 by decide) (show (0 : Nat) < 2 ^ 4 by decide) a.isLt d.isLt
  rw [hw] at z0 q_m q_imm q_fn8 q_seg q_a q_d hb
  have t_47_47 : bitsOf w 47 47 = b2n p := by rw [← bitsOf_bitsOf w 63 32 15 15 (by decide), q_imm]; exact s_47_47
  have t_46_44 : bitsOf w 46 44 = rnd.toNat := by rw [← bitsOf_bitsOf w 63 32 14 12 (by decide), q_imm]; exact s_46_44
  have t_37_32 : bitsOf w 37 32 = b.toNat := by rw [← bitsOf_bitsOf w 63 32 5 0 (by decide), q_imm]; exact s_37_32
  have t_43_38 : bitsOf w 43 38 = c.toNat := by rw [← bitsOf_bitsOf w 63 32 11 6 (by decide), q_imm]; exact s_43_38
  have t_63_50 : bitsOf w 63 50 = 0 := by rw [← bitsOf_bitsOf w 63 32 31 18 (by decide), q_imm]; exact s_63_50
  have t_49_48 : bitsOf w 49 48 = 0 := by rw [← bitsOf_bitsOf w 63 32 17 16 (by decide), q_imm]; exact s_49_48
  have u_47_47 : bitsOf ((b.toNat + c.toNat * 2 ^ 6 + rnd.toNat * 2 ^ 12 + b2n p * 2 ^ 15)) 15 15 = b2n p := by simpa only [Nat.zero_mul, Nat.add_zero] using s_47_47
  have u_46_44 : bitsOf ((b.toNat + c.toNat * 2 ^ 6 + rnd.toNat * 2 ^ 12 + b2n p * 2 ^ 15)) 14 12 = rnd.toNat := by simpa only [Nat.zero_mul, Nat.add_zero] using s_46_44
  have u_37_32 : bitsOf ((b.toNat + c.toNat * 2 ^ 6 + rnd.toNat * 2 ^ 12 + b2n p * 2 ^ 15)) 5 0 = b.toNat := by simpa only [Nat.zero_mul, Nat.add_zero] using s_37_32
  have u_43_38 : bitsOf ((b.toNat + c.toNat * 2 ^ 6 + rnd.toNat * 2 ^ 12 + b2n p * 2 ^ 15)) 11 6 = c.toNat := by simpa only [Nat.zero_mul, Nat.add_zero] using s_43_38
  have u_63_50 : bitsOf ((b.toNat + c.toNat * 2 ^ 6 + rnd.toNat * 2 ^ 12 + b2n p * 2 ^ 15)) 31 18 = 0 := by simpa only [Nat.zero_mul, Nat.add_zero] using s_63_50
  have u_49_48 : bitsOf ((b.toNat + c.toNat * 2 ^ 6 + rnd.toNat * 2 ^ 12 + b2n p * 2 ^ 15)) 17 16 = 0 := by simpa only [Nat.zero_mul, Nat.add_zero] using s_49_48
  simp only [Nat.reducePow, Nat.reduceMul, Nat.zero_mul, Nat.add_zero] at *
  refine ⟨?_, ?_⟩
  · simp [decodeHelmWord, decodeLong, wMajor, wD, wA, wB, wFn, wSub, wX, wImm, zeroThen, bitsOf_bitsOf, bitOf_eq, z0, q_m, q_imm, q_fn8, q_seg, q_a, q_d, t_47_47, s_47_47, t_46_44, s_46_44, t_37_32, s_37_32, t_43_38, s_43_38, t_63_50, s_63_50, t_49_48, s_49_48, u_47_47, u_46_44, u_37_32, u_43_38, u_63_50, u_49_48, checked_of hf]
  · simpa [helmBytes, bitOf_eq, z0] using hb

theorem fms (p : Bool) (rnd : BitVec 3) (d : GReg) (a : GReg) (b : GReg) (c : GReg) : Statement (.fms p rnd d a b c) := by
  refine ⟨fun w hf hw => ?_, fun w _ hw => by simp [strandWord] at hw⟩
  simp only [helmWord, Option.some.injEq] at hw
  obtain ⟨b_imm, s_47_47, s_46_44, s_37_32, s_43_38, s_63_50, s_49_48⟩ : (b.toNat + c.toNat * 2 ^ 6 + rnd.toNat * 2 ^ 12 + b2n p * 2 ^ 15 + 1 * 2 ^ 16) < 2 ^ 32 ∧ bitsOf ((b.toNat + c.toNat * 2 ^ 6 + rnd.toNat * 2 ^ 12 + b2n p * 2 ^ 15 + 1 * 2 ^ 16)) 15 15 = b2n p ∧ bitsOf ((b.toNat + c.toNat * 2 ^ 6 + rnd.toNat * 2 ^ 12 + b2n p * 2 ^ 15 + 1 * 2 ^ 16)) 14 12 = rnd.toNat ∧ bitsOf ((b.toNat + c.toNat * 2 ^ 6 + rnd.toNat * 2 ^ 12 + b2n p * 2 ^ 15 + 1 * 2 ^ 16)) 5 0 = b.toNat ∧ bitsOf ((b.toNat + c.toNat * 2 ^ 6 + rnd.toNat * 2 ^ 12 + b2n p * 2 ^ 15 + 1 * 2 ^ 16)) 11 6 = c.toNat ∧ bitsOf ((b.toNat + c.toNat * 2 ^ 6 + rnd.toNat * 2 ^ 12 + b2n p * 2 ^ 15 + 1 * 2 ^ 16)) 31 18 = 0 ∧ bitsOf ((b.toNat + c.toNat * 2 ^ 6 + rnd.toNat * 2 ^ 12 + b2n p * 2 ^ 15 + 1 * 2 ^ 16)) 17 16 = 1 := by
    have hn0 : b.toNat < 64 := b.isLt
    have hn1 : c.toNat < 64 := c.isLt
    have hn2 : rnd.toNat < 8 := rnd.isLt
    have hn3 : b2n p < 2 := b2n_lt _
    have hn5 : d.toNat < 64 := d.isLt
    clear hw hf
    generalize b.toNat = n0 at hn0 ⊢
    generalize c.toNat = n1 at hn1 ⊢
    generalize rnd.toNat = n2 at hn2 ⊢
    generalize b2n p = n3 at hn3 ⊢
    generalize d.toNat = n5 at hn5 ⊢
    simp only [bitsOf]
    exact ⟨by omega, by omega, by omega, by omega, by omega, by omega, by omega⟩
  obtain ⟨z0, q_m, q_imm, q_fn8, q_seg, q_a, q_d, hb⟩ := packL_fields (show (0x05 : Nat) < 2 ^ 7 by decide) b_imm (show (0 : Nat) < 2 ^ 8 by decide) (show (0 : Nat) < 2 ^ 4 by decide) a.isLt d.isLt
  rw [hw] at z0 q_m q_imm q_fn8 q_seg q_a q_d hb
  have t_47_47 : bitsOf w 47 47 = b2n p := by rw [← bitsOf_bitsOf w 63 32 15 15 (by decide), q_imm]; exact s_47_47
  have t_46_44 : bitsOf w 46 44 = rnd.toNat := by rw [← bitsOf_bitsOf w 63 32 14 12 (by decide), q_imm]; exact s_46_44
  have t_37_32 : bitsOf w 37 32 = b.toNat := by rw [← bitsOf_bitsOf w 63 32 5 0 (by decide), q_imm]; exact s_37_32
  have t_43_38 : bitsOf w 43 38 = c.toNat := by rw [← bitsOf_bitsOf w 63 32 11 6 (by decide), q_imm]; exact s_43_38
  have t_63_50 : bitsOf w 63 50 = 0 := by rw [← bitsOf_bitsOf w 63 32 31 18 (by decide), q_imm]; exact s_63_50
  have t_49_48 : bitsOf w 49 48 = 1 := by rw [← bitsOf_bitsOf w 63 32 17 16 (by decide), q_imm]; exact s_49_48
  simp only [Nat.reducePow, Nat.reduceMul, Nat.zero_mul, Nat.add_zero] at *
  refine ⟨?_, ?_⟩
  · simp [decodeHelmWord, decodeLong, wMajor, wD, wA, wB, wFn, wSub, wX, wImm, zeroThen, bitsOf_bitsOf, bitOf_eq, z0, q_m, q_imm, q_fn8, q_seg, q_a, q_d, t_47_47, s_47_47, t_46_44, s_46_44, t_37_32, s_37_32, t_43_38, s_43_38, t_63_50, s_63_50, t_49_48, s_49_48, checked_of hf]
  · simpa [helmBytes, bitOf_eq, z0] using hb

theorem fnma (p : Bool) (rnd : BitVec 3) (d : GReg) (a : GReg) (b : GReg) (c : GReg) : Statement (.fnma p rnd d a b c) := by
  refine ⟨fun w hf hw => ?_, fun w _ hw => by simp [strandWord] at hw⟩
  simp only [helmWord, Option.some.injEq] at hw
  obtain ⟨b_imm, s_47_47, s_46_44, s_37_32, s_43_38, s_63_50, s_49_48⟩ : (b.toNat + c.toNat * 2 ^ 6 + rnd.toNat * 2 ^ 12 + b2n p * 2 ^ 15 + 2 * 2 ^ 16) < 2 ^ 32 ∧ bitsOf ((b.toNat + c.toNat * 2 ^ 6 + rnd.toNat * 2 ^ 12 + b2n p * 2 ^ 15 + 2 * 2 ^ 16)) 15 15 = b2n p ∧ bitsOf ((b.toNat + c.toNat * 2 ^ 6 + rnd.toNat * 2 ^ 12 + b2n p * 2 ^ 15 + 2 * 2 ^ 16)) 14 12 = rnd.toNat ∧ bitsOf ((b.toNat + c.toNat * 2 ^ 6 + rnd.toNat * 2 ^ 12 + b2n p * 2 ^ 15 + 2 * 2 ^ 16)) 5 0 = b.toNat ∧ bitsOf ((b.toNat + c.toNat * 2 ^ 6 + rnd.toNat * 2 ^ 12 + b2n p * 2 ^ 15 + 2 * 2 ^ 16)) 11 6 = c.toNat ∧ bitsOf ((b.toNat + c.toNat * 2 ^ 6 + rnd.toNat * 2 ^ 12 + b2n p * 2 ^ 15 + 2 * 2 ^ 16)) 31 18 = 0 ∧ bitsOf ((b.toNat + c.toNat * 2 ^ 6 + rnd.toNat * 2 ^ 12 + b2n p * 2 ^ 15 + 2 * 2 ^ 16)) 17 16 = 2 := by
    have hn0 : b.toNat < 64 := b.isLt
    have hn1 : c.toNat < 64 := c.isLt
    have hn2 : rnd.toNat < 8 := rnd.isLt
    have hn3 : b2n p < 2 := b2n_lt _
    have hn5 : d.toNat < 64 := d.isLt
    clear hw hf
    generalize b.toNat = n0 at hn0 ⊢
    generalize c.toNat = n1 at hn1 ⊢
    generalize rnd.toNat = n2 at hn2 ⊢
    generalize b2n p = n3 at hn3 ⊢
    generalize d.toNat = n5 at hn5 ⊢
    simp only [bitsOf]
    exact ⟨by omega, by omega, by omega, by omega, by omega, by omega, by omega⟩
  obtain ⟨z0, q_m, q_imm, q_fn8, q_seg, q_a, q_d, hb⟩ := packL_fields (show (0x05 : Nat) < 2 ^ 7 by decide) b_imm (show (0 : Nat) < 2 ^ 8 by decide) (show (0 : Nat) < 2 ^ 4 by decide) a.isLt d.isLt
  rw [hw] at z0 q_m q_imm q_fn8 q_seg q_a q_d hb
  have t_47_47 : bitsOf w 47 47 = b2n p := by rw [← bitsOf_bitsOf w 63 32 15 15 (by decide), q_imm]; exact s_47_47
  have t_46_44 : bitsOf w 46 44 = rnd.toNat := by rw [← bitsOf_bitsOf w 63 32 14 12 (by decide), q_imm]; exact s_46_44
  have t_37_32 : bitsOf w 37 32 = b.toNat := by rw [← bitsOf_bitsOf w 63 32 5 0 (by decide), q_imm]; exact s_37_32
  have t_43_38 : bitsOf w 43 38 = c.toNat := by rw [← bitsOf_bitsOf w 63 32 11 6 (by decide), q_imm]; exact s_43_38
  have t_63_50 : bitsOf w 63 50 = 0 := by rw [← bitsOf_bitsOf w 63 32 31 18 (by decide), q_imm]; exact s_63_50
  have t_49_48 : bitsOf w 49 48 = 2 := by rw [← bitsOf_bitsOf w 63 32 17 16 (by decide), q_imm]; exact s_49_48
  simp only [Nat.reducePow, Nat.reduceMul, Nat.zero_mul, Nat.add_zero] at *
  refine ⟨?_, ?_⟩
  · simp [decodeHelmWord, decodeLong, wMajor, wD, wA, wB, wFn, wSub, wX, wImm, zeroThen, bitsOf_bitsOf, bitOf_eq, z0, q_m, q_imm, q_fn8, q_seg, q_a, q_d, t_47_47, s_47_47, t_46_44, s_46_44, t_37_32, s_37_32, t_43_38, s_43_38, t_63_50, s_63_50, t_49_48, s_49_48, checked_of hf]
  · simpa [helmBytes, bitOf_eq, z0] using hb

theorem fnms (p : Bool) (rnd : BitVec 3) (d : GReg) (a : GReg) (b : GReg) (c : GReg) : Statement (.fnms p rnd d a b c) := by
  refine ⟨fun w hf hw => ?_, fun w _ hw => by simp [strandWord] at hw⟩
  simp only [helmWord, Option.some.injEq] at hw
  obtain ⟨b_imm, s_47_47, s_46_44, s_37_32, s_43_38, s_63_50, s_49_48⟩ : (b.toNat + c.toNat * 2 ^ 6 + rnd.toNat * 2 ^ 12 + b2n p * 2 ^ 15 + 3 * 2 ^ 16) < 2 ^ 32 ∧ bitsOf ((b.toNat + c.toNat * 2 ^ 6 + rnd.toNat * 2 ^ 12 + b2n p * 2 ^ 15 + 3 * 2 ^ 16)) 15 15 = b2n p ∧ bitsOf ((b.toNat + c.toNat * 2 ^ 6 + rnd.toNat * 2 ^ 12 + b2n p * 2 ^ 15 + 3 * 2 ^ 16)) 14 12 = rnd.toNat ∧ bitsOf ((b.toNat + c.toNat * 2 ^ 6 + rnd.toNat * 2 ^ 12 + b2n p * 2 ^ 15 + 3 * 2 ^ 16)) 5 0 = b.toNat ∧ bitsOf ((b.toNat + c.toNat * 2 ^ 6 + rnd.toNat * 2 ^ 12 + b2n p * 2 ^ 15 + 3 * 2 ^ 16)) 11 6 = c.toNat ∧ bitsOf ((b.toNat + c.toNat * 2 ^ 6 + rnd.toNat * 2 ^ 12 + b2n p * 2 ^ 15 + 3 * 2 ^ 16)) 31 18 = 0 ∧ bitsOf ((b.toNat + c.toNat * 2 ^ 6 + rnd.toNat * 2 ^ 12 + b2n p * 2 ^ 15 + 3 * 2 ^ 16)) 17 16 = 3 := by
    have hn0 : b.toNat < 64 := b.isLt
    have hn1 : c.toNat < 64 := c.isLt
    have hn2 : rnd.toNat < 8 := rnd.isLt
    have hn3 : b2n p < 2 := b2n_lt _
    have hn5 : d.toNat < 64 := d.isLt
    clear hw hf
    generalize b.toNat = n0 at hn0 ⊢
    generalize c.toNat = n1 at hn1 ⊢
    generalize rnd.toNat = n2 at hn2 ⊢
    generalize b2n p = n3 at hn3 ⊢
    generalize d.toNat = n5 at hn5 ⊢
    simp only [bitsOf]
    exact ⟨by omega, by omega, by omega, by omega, by omega, by omega, by omega⟩
  obtain ⟨z0, q_m, q_imm, q_fn8, q_seg, q_a, q_d, hb⟩ := packL_fields (show (0x05 : Nat) < 2 ^ 7 by decide) b_imm (show (0 : Nat) < 2 ^ 8 by decide) (show (0 : Nat) < 2 ^ 4 by decide) a.isLt d.isLt
  rw [hw] at z0 q_m q_imm q_fn8 q_seg q_a q_d hb
  have t_47_47 : bitsOf w 47 47 = b2n p := by rw [← bitsOf_bitsOf w 63 32 15 15 (by decide), q_imm]; exact s_47_47
  have t_46_44 : bitsOf w 46 44 = rnd.toNat := by rw [← bitsOf_bitsOf w 63 32 14 12 (by decide), q_imm]; exact s_46_44
  have t_37_32 : bitsOf w 37 32 = b.toNat := by rw [← bitsOf_bitsOf w 63 32 5 0 (by decide), q_imm]; exact s_37_32
  have t_43_38 : bitsOf w 43 38 = c.toNat := by rw [← bitsOf_bitsOf w 63 32 11 6 (by decide), q_imm]; exact s_43_38
  have t_63_50 : bitsOf w 63 50 = 0 := by rw [← bitsOf_bitsOf w 63 32 31 18 (by decide), q_imm]; exact s_63_50
  have t_49_48 : bitsOf w 49 48 = 3 := by rw [← bitsOf_bitsOf w 63 32 17 16 (by decide), q_imm]; exact s_49_48
  simp only [Nat.reducePow, Nat.reduceMul, Nat.zero_mul, Nat.add_zero] at *
  refine ⟨?_, ?_⟩
  · simp [decodeHelmWord, decodeLong, wMajor, wD, wA, wB, wFn, wSub, wX, wImm, zeroThen, bitsOf_bitsOf, bitOf_eq, z0, q_m, q_imm, q_fn8, q_seg, q_a, q_d, t_47_47, s_47_47, t_46_44, s_46_44, t_37_32, s_37_32, t_43_38, s_43_38, t_63_50, s_63_50, t_49_48, s_49_48, checked_of hf]
  · simpa [helmBytes, bitOf_eq, z0] using hb

theorem qPush (d : GReg) (a : GReg) (f : PushFields) : Statement (.qPush d a f) := by
  refine ⟨fun w hf hw => ?_, fun w _ hw => by simp [strandWord] at hw⟩
  simp only [helmWord, Option.some.injEq] at hw
  obtain ⟨b_imm, s_63_59, s_58_57, s_47_32, s_51_48, s_52_52, s_53_53, s_56_54⟩ : (packPush 0 f) < 2 ^ 32 ∧ bitsOf ((packPush 0 f)) 31 27 = 0 ∧ bitsOf ((packPush 0 f)) 26 25 = 0 ∧ bitsOf ((packPush 0 f)) 15 0 = f.block.toNat ∧ bitsOf ((packPush 0 f)) 19 16 = f.lay.toNat ∧ bitsOf ((packPush 0 f)) 20 20 = b2n f.lfix ∧ bitsOf ((packPush 0 f)) 21 21 = b2n f.rel ∧ bitsOf ((packPush 0 f)) 24 22 = f.rscope.toNat := by
    have hn0 : f.block.toNat < 65536 := f.block.isLt
    have hn1 : f.lay.toNat < 16 := f.lay.isLt
    have hn2 : b2n f.lfix < 2 := b2n_lt _
    have hn3 : b2n f.rel < 2 := b2n_lt _
    have hn4 : f.rscope.toNat < 8 := f.rscope.isLt
    unfold packPush
    clear hw hf
    generalize f.block.toNat = n0 at hn0 ⊢
    generalize f.lay.toNat = n1 at hn1 ⊢
    generalize b2n f.lfix = n2 at hn2 ⊢
    generalize b2n f.rel = n3 at hn3 ⊢
    generalize f.rscope.toNat = n4 at hn4 ⊢
    simp only [bitsOf]
    exact ⟨by omega, by omega, by omega, by omega, by omega, by omega, by omega, by omega⟩
  obtain ⟨z0, q_m, q_imm, q_fn8, q_seg, q_a, q_d, hb⟩ := packL_fields (show (0x06 : Nat) < 2 ^ 7 by decide) b_imm f.gsel.isLt (show (0 : Nat) < 2 ^ 4 by decide) a.isLt d.isLt
  rw [hw] at z0 q_m q_imm q_fn8 q_seg q_a q_d hb
  have t_63_59 : bitsOf w 63 59 = 0 := by rw [← bitsOf_bitsOf w 63 32 31 27 (by decide), q_imm]; exact s_63_59
  have t_58_57 : bitsOf w 58 57 = 0 := by rw [← bitsOf_bitsOf w 63 32 26 25 (by decide), q_imm]; exact s_58_57
  have t_47_32 : bitsOf w 47 32 = f.block.toNat := by rw [← bitsOf_bitsOf w 63 32 15 0 (by decide), q_imm]; exact s_47_32
  have t_51_48 : bitsOf w 51 48 = f.lay.toNat := by rw [← bitsOf_bitsOf w 63 32 19 16 (by decide), q_imm]; exact s_51_48
  have t_52_52 : bitsOf w 52 52 = b2n f.lfix := by rw [← bitsOf_bitsOf w 63 32 20 20 (by decide), q_imm]; exact s_52_52
  have t_53_53 : bitsOf w 53 53 = b2n f.rel := by rw [← bitsOf_bitsOf w 63 32 21 21 (by decide), q_imm]; exact s_53_53
  have t_56_54 : bitsOf w 56 54 = f.rscope.toNat := by rw [← bitsOf_bitsOf w 63 32 24 22 (by decide), q_imm]; exact s_56_54
  refine ⟨?_, ?_⟩
  · simp [decodeHelmWord, decodeLong, pushFieldsOf, wMajor, wD, wA, wB, wFn, wSub, wX, wImm, zeroThen, bitsOf_bitsOf, bitOf_eq, z0, q_m, q_imm, q_fn8, q_seg, q_a, q_d, t_63_59, s_63_59, t_58_57, s_58_57, t_47_32, s_47_32, t_51_48, s_51_48, t_52_52, s_52_52, t_53_53, s_53_53, t_56_54, s_56_54, checked_of hf]
  · simpa [helmBytes, bitOf_eq, z0] using hb

theorem qPushEos (d : GReg) (a : GReg) (f : PushFields) : Statement (.qPushEos d a f) := by
  refine ⟨fun w hf hw => ?_, fun w _ hw => by simp [strandWord] at hw⟩
  simp only [helmWord, Option.some.injEq] at hw
  obtain ⟨b_imm, s_63_59, s_58_57, s_47_32, s_51_48, s_52_52, s_53_53, s_56_54⟩ : (packPush 1 f) < 2 ^ 32 ∧ bitsOf ((packPush 1 f)) 31 27 = 0 ∧ bitsOf ((packPush 1 f)) 26 25 = 1 ∧ bitsOf ((packPush 1 f)) 15 0 = f.block.toNat ∧ bitsOf ((packPush 1 f)) 19 16 = f.lay.toNat ∧ bitsOf ((packPush 1 f)) 20 20 = b2n f.lfix ∧ bitsOf ((packPush 1 f)) 21 21 = b2n f.rel ∧ bitsOf ((packPush 1 f)) 24 22 = f.rscope.toNat := by
    have hn0 : f.block.toNat < 65536 := f.block.isLt
    have hn1 : f.lay.toNat < 16 := f.lay.isLt
    have hn2 : b2n f.lfix < 2 := b2n_lt _
    have hn3 : b2n f.rel < 2 := b2n_lt _
    have hn4 : f.rscope.toNat < 8 := f.rscope.isLt
    unfold packPush
    clear hw hf
    generalize f.block.toNat = n0 at hn0 ⊢
    generalize f.lay.toNat = n1 at hn1 ⊢
    generalize b2n f.lfix = n2 at hn2 ⊢
    generalize b2n f.rel = n3 at hn3 ⊢
    generalize f.rscope.toNat = n4 at hn4 ⊢
    simp only [bitsOf]
    exact ⟨by omega, by omega, by omega, by omega, by omega, by omega, by omega, by omega⟩
  obtain ⟨z0, q_m, q_imm, q_fn8, q_seg, q_a, q_d, hb⟩ := packL_fields (show (0x06 : Nat) < 2 ^ 7 by decide) b_imm f.gsel.isLt (show (0 : Nat) < 2 ^ 4 by decide) a.isLt d.isLt
  rw [hw] at z0 q_m q_imm q_fn8 q_seg q_a q_d hb
  have t_63_59 : bitsOf w 63 59 = 0 := by rw [← bitsOf_bitsOf w 63 32 31 27 (by decide), q_imm]; exact s_63_59
  have t_58_57 : bitsOf w 58 57 = 1 := by rw [← bitsOf_bitsOf w 63 32 26 25 (by decide), q_imm]; exact s_58_57
  have t_47_32 : bitsOf w 47 32 = f.block.toNat := by rw [← bitsOf_bitsOf w 63 32 15 0 (by decide), q_imm]; exact s_47_32
  have t_51_48 : bitsOf w 51 48 = f.lay.toNat := by rw [← bitsOf_bitsOf w 63 32 19 16 (by decide), q_imm]; exact s_51_48
  have t_52_52 : bitsOf w 52 52 = b2n f.lfix := by rw [← bitsOf_bitsOf w 63 32 20 20 (by decide), q_imm]; exact s_52_52
  have t_53_53 : bitsOf w 53 53 = b2n f.rel := by rw [← bitsOf_bitsOf w 63 32 21 21 (by decide), q_imm]; exact s_53_53
  have t_56_54 : bitsOf w 56 54 = f.rscope.toNat := by rw [← bitsOf_bitsOf w 63 32 24 22 (by decide), q_imm]; exact s_56_54
  refine ⟨?_, ?_⟩
  · simp [decodeHelmWord, decodeLong, pushFieldsOf, wMajor, wD, wA, wB, wFn, wSub, wX, wImm, zeroThen, bitsOf_bitsOf, bitOf_eq, z0, q_m, q_imm, q_fn8, q_seg, q_a, q_d, t_63_59, s_63_59, t_58_57, s_58_57, t_47_32, s_47_32, t_51_48, s_51_48, t_52_52, s_52_52, t_53_53, s_53_53, t_56_54, s_56_54, checked_of hf]
  · simpa [helmBytes, bitOf_eq, z0] using hb

theorem qPushNop (d : GReg) (a : GReg) (f : PushFields) : Statement (.qPushNop d a f) := by
  refine ⟨fun w hf hw => ?_, fun w _ hw => by simp [strandWord] at hw⟩
  simp only [helmWord, Option.some.injEq] at hw
  obtain ⟨b_imm, s_63_59, s_58_57, s_47_32, s_51_48, s_52_52, s_53_53, s_56_54⟩ : (packPush 2 f) < 2 ^ 32 ∧ bitsOf ((packPush 2 f)) 31 27 = 0 ∧ bitsOf ((packPush 2 f)) 26 25 = 2 ∧ bitsOf ((packPush 2 f)) 15 0 = f.block.toNat ∧ bitsOf ((packPush 2 f)) 19 16 = f.lay.toNat ∧ bitsOf ((packPush 2 f)) 20 20 = b2n f.lfix ∧ bitsOf ((packPush 2 f)) 21 21 = b2n f.rel ∧ bitsOf ((packPush 2 f)) 24 22 = f.rscope.toNat := by
    have hn0 : f.block.toNat < 65536 := f.block.isLt
    have hn1 : f.lay.toNat < 16 := f.lay.isLt
    have hn2 : b2n f.lfix < 2 := b2n_lt _
    have hn3 : b2n f.rel < 2 := b2n_lt _
    have hn4 : f.rscope.toNat < 8 := f.rscope.isLt
    unfold packPush
    clear hw hf
    generalize f.block.toNat = n0 at hn0 ⊢
    generalize f.lay.toNat = n1 at hn1 ⊢
    generalize b2n f.lfix = n2 at hn2 ⊢
    generalize b2n f.rel = n3 at hn3 ⊢
    generalize f.rscope.toNat = n4 at hn4 ⊢
    simp only [bitsOf]
    exact ⟨by omega, by omega, by omega, by omega, by omega, by omega, by omega, by omega⟩
  obtain ⟨z0, q_m, q_imm, q_fn8, q_seg, q_a, q_d, hb⟩ := packL_fields (show (0x06 : Nat) < 2 ^ 7 by decide) b_imm f.gsel.isLt (show (0 : Nat) < 2 ^ 4 by decide) a.isLt d.isLt
  rw [hw] at z0 q_m q_imm q_fn8 q_seg q_a q_d hb
  have t_63_59 : bitsOf w 63 59 = 0 := by rw [← bitsOf_bitsOf w 63 32 31 27 (by decide), q_imm]; exact s_63_59
  have t_58_57 : bitsOf w 58 57 = 2 := by rw [← bitsOf_bitsOf w 63 32 26 25 (by decide), q_imm]; exact s_58_57
  have t_47_32 : bitsOf w 47 32 = f.block.toNat := by rw [← bitsOf_bitsOf w 63 32 15 0 (by decide), q_imm]; exact s_47_32
  have t_51_48 : bitsOf w 51 48 = f.lay.toNat := by rw [← bitsOf_bitsOf w 63 32 19 16 (by decide), q_imm]; exact s_51_48
  have t_52_52 : bitsOf w 52 52 = b2n f.lfix := by rw [← bitsOf_bitsOf w 63 32 20 20 (by decide), q_imm]; exact s_52_52
  have t_53_53 : bitsOf w 53 53 = b2n f.rel := by rw [← bitsOf_bitsOf w 63 32 21 21 (by decide), q_imm]; exact s_53_53
  have t_56_54 : bitsOf w 56 54 = f.rscope.toNat := by rw [← bitsOf_bitsOf w 63 32 24 22 (by decide), q_imm]; exact s_56_54
  refine ⟨?_, ?_⟩
  · simp [decodeHelmWord, decodeLong, pushFieldsOf, wMajor, wD, wA, wB, wFn, wSub, wX, wImm, zeroThen, bitsOf_bitsOf, bitOf_eq, z0, q_m, q_imm, q_fn8, q_seg, q_a, q_d, t_63_59, s_63_59, t_58_57, s_58_57, t_47_32, s_47_32, t_51_48, s_51_48, t_52_52, s_52_52, t_53_53, s_53_53, t_56_54, s_56_54, checked_of hf]
  · simpa [helmBytes, bitOf_eq, z0] using hb

theorem qSplit (d : GReg) (a : GReg) (f : PushFields) : Statement (.qSplit d a f) := by
  refine ⟨fun w hf hw => ?_, fun w _ hw => by simp [strandWord] at hw⟩
  simp only [helmWord, Option.some.injEq] at hw
  obtain ⟨b_imm, s_63_57, s_47_32, s_51_48, s_52_52, s_53_53, s_56_54⟩ : (packPush 0 f) < 2 ^ 32 ∧ bitsOf ((packPush 0 f)) 31 25 = 0 ∧ bitsOf ((packPush 0 f)) 15 0 = f.block.toNat ∧ bitsOf ((packPush 0 f)) 19 16 = f.lay.toNat ∧ bitsOf ((packPush 0 f)) 20 20 = b2n f.lfix ∧ bitsOf ((packPush 0 f)) 21 21 = b2n f.rel ∧ bitsOf ((packPush 0 f)) 24 22 = f.rscope.toNat := by
    have hn0 : f.block.toNat < 65536 := f.block.isLt
    have hn1 : f.lay.toNat < 16 := f.lay.isLt
    have hn2 : b2n f.lfix < 2 := b2n_lt _
    have hn3 : b2n f.rel < 2 := b2n_lt _
    have hn4 : f.rscope.toNat < 8 := f.rscope.isLt
    unfold packPush
    clear hw hf
    generalize f.block.toNat = n0 at hn0 ⊢
    generalize f.lay.toNat = n1 at hn1 ⊢
    generalize b2n f.lfix = n2 at hn2 ⊢
    generalize b2n f.rel = n3 at hn3 ⊢
    generalize f.rscope.toNat = n4 at hn4 ⊢
    simp only [bitsOf]
    exact ⟨by omega, by omega, by omega, by omega, by omega, by omega, by omega⟩
  obtain ⟨z0, q_m, q_imm, q_fn8, q_seg, q_a, q_d, hb⟩ := packL_fields (show (0x07 : Nat) < 2 ^ 7 by decide) b_imm f.gsel.isLt (show (0 : Nat) < 2 ^ 4 by decide) a.isLt d.isLt
  rw [hw] at z0 q_m q_imm q_fn8 q_seg q_a q_d hb
  have t_63_57 : bitsOf w 63 57 = 0 := by rw [← bitsOf_bitsOf w 63 32 31 25 (by decide), q_imm]; exact s_63_57
  have t_47_32 : bitsOf w 47 32 = f.block.toNat := by rw [← bitsOf_bitsOf w 63 32 15 0 (by decide), q_imm]; exact s_47_32
  have t_51_48 : bitsOf w 51 48 = f.lay.toNat := by rw [← bitsOf_bitsOf w 63 32 19 16 (by decide), q_imm]; exact s_51_48
  have t_52_52 : bitsOf w 52 52 = b2n f.lfix := by rw [← bitsOf_bitsOf w 63 32 20 20 (by decide), q_imm]; exact s_52_52
  have t_53_53 : bitsOf w 53 53 = b2n f.rel := by rw [← bitsOf_bitsOf w 63 32 21 21 (by decide), q_imm]; exact s_53_53
  have t_56_54 : bitsOf w 56 54 = f.rscope.toNat := by rw [← bitsOf_bitsOf w 63 32 24 22 (by decide), q_imm]; exact s_56_54
  refine ⟨?_, ?_⟩
  · simp [decodeHelmWord, decodeLong, pushFieldsOf, wMajor, wD, wA, wB, wFn, wSub, wX, wImm, zeroThen, bitsOf_bitsOf, bitOf_eq, z0, q_m, q_imm, q_fn8, q_seg, q_a, q_d, t_63_57, s_63_57, t_47_32, s_47_32, t_51_48, s_51_48, t_52_52, s_52_52, t_53_53, s_53_53, t_56_54, s_56_54, checked_of hf]
  · simpa [helmBytes, bitOf_eq, z0] using hb

theorem qWin (n : W32) : Statement (.qWin n) := by
  refine ⟨fun w hf hw => ?_, fun w _ hw => by simp [strandWord] at hw⟩
  simp only [helmWord, Option.some.injEq] at hw
  obtain ⟨z0, q_m, q_imm, q_fn8, q_seg, q_a, q_d, hb⟩ := packL_fields (show (0x08 : Nat) < 2 ^ 7 by decide) n.isLt (show (0 : Nat) < 2 ^ 8 by decide) (show (0 : Nat) < 2 ^ 4 by decide) (show (0 : Nat) < 2 ^ 6 by decide) (show (0 : Nat) < 2 ^ 6 by decide)
  rw [hw] at z0 q_m q_imm q_fn8 q_seg q_a q_d hb
  refine ⟨?_, ?_⟩
  · simp [decodeHelmWord, decodeLong, wMajor, wD, wA, wB, wFn, wSub, wX, wImm, zeroThen, bitsOf_bitsOf, bitOf_eq, z0, q_m, q_imm, q_fn8, q_seg, q_a, q_d, checked_of hf]
  · simpa [helmBytes, bitOf_eq, z0] using hb

theorem qWinReg (a : GReg) : Statement (.qWinReg a) := by
  refine ⟨fun w hf hw => ?_, fun w _ hw => by simp [strandWord] at hw⟩
  simp only [helmWord, Option.some.injEq] at hw
  obtain ⟨z0, q_m, q_imm, q_fn8, q_seg, q_a, q_d, hb⟩ := packL_fields (show (0x08 : Nat) < 2 ^ 7 by decide) (show (0 : Nat) < 2 ^ 32 by decide) (show (1 : Nat) < 2 ^ 8 by decide) (show (0 : Nat) < 2 ^ 4 by decide) a.isLt (show (0 : Nat) < 2 ^ 6 by decide)
  rw [hw] at z0 q_m q_imm q_fn8 q_seg q_a q_d hb
  refine ⟨?_, ?_⟩
  · simp [decodeHelmWord, decodeLong, wMajor, wD, wA, wB, wFn, wSub, wX, wImm, zeroThen, bitsOf_bitsOf, bitOf_eq, z0, q_m, q_imm, q_fn8, q_seg, q_a, q_d, checked_of hf]
  · simpa [helmBytes, bitOf_eq, z0] using hb

theorem shpReq (d : GReg) (a : GReg) (sh : BitVec 3) (pol : BitVec 2) (td : BitVec 2) (fmt : BitVec 5) : Statement (.shpReq d a sh pol td fmt) := by
  refine ⟨fun w hf hw => ?_, fun w _ hw => by simp [strandWord] at hw⟩
  simp only [helmWord, Option.some.injEq] at hw
  obtain ⟨b_imm, s_36_32, s_63_37⟩ : fmt.toNat < 2 ^ 32 ∧ bitsOf (fmt.toNat) 4 0 = fmt.toNat ∧ bitsOf (fmt.toNat) 31 5 = 0 := by
    have hn0 : fmt.toNat < 32 := fmt.isLt
    clear hw hf
    generalize fmt.toNat = n0 at hn0 ⊢
    simp only [bitsOf]
    exact ⟨by omega, by omega, by omega⟩
  obtain ⟨b_fn8, s_26_24, s_28_27, s_31_30, s_29_29⟩ : (sh.toNat + pol.toNat * 2 ^ 3 + 0 * 2 ^ 5 + td.toNat * 2 ^ 6) < 2 ^ 8 ∧ bitsOf ((sh.toNat + pol.toNat * 2 ^ 3 + 0 * 2 ^ 5 + td.toNat * 2 ^ 6)) 2 0 = sh.toNat ∧ bitsOf ((sh.toNat + pol.toNat * 2 ^ 3 + 0 * 2 ^ 5 + td.toNat * 2 ^ 6)) 4 3 = pol.toNat ∧ bitsOf ((sh.toNat + pol.toNat * 2 ^ 3 + 0 * 2 ^ 5 + td.toNat * 2 ^ 6)) 7 6 = td.toNat ∧ bitsOf ((sh.toNat + pol.toNat * 2 ^ 3 + 0 * 2 ^ 5 + td.toNat * 2 ^ 6)) 5 5 = 0 := by
    have hn1 : sh.toNat < 8 := sh.isLt
    have hn2 : pol.toNat < 4 := pol.isLt
    have hn3 : td.toNat < 4 := td.isLt
    have hn5 : d.toNat < 64 := d.isLt
    clear hw hf
    generalize sh.toNat = n1 at hn1 ⊢
    generalize pol.toNat = n2 at hn2 ⊢
    generalize td.toNat = n3 at hn3 ⊢
    generalize d.toNat = n5 at hn5 ⊢
    simp only [bitsOf]
    exact ⟨by omega, by omega, by omega, by omega, by omega⟩
  obtain ⟨z0, q_m, q_imm, q_fn8, q_seg, q_a, q_d, hb⟩ := packL_fields (show (0x09 : Nat) < 2 ^ 7 by decide) (Nat.lt_of_lt_of_le fmt.isLt (by decide)) b_fn8 (show (0 : Nat) < 2 ^ 4 by decide) a.isLt d.isLt
  rw [hw] at z0 q_m q_imm q_fn8 q_seg q_a q_d hb
  have t_26_24 : bitsOf w 26 24 = sh.toNat := by rw [← bitsOf_bitsOf w 31 24 2 0 (by decide), q_fn8]; exact s_26_24
  have t_28_27 : bitsOf w 28 27 = pol.toNat := by rw [← bitsOf_bitsOf w 31 24 4 3 (by decide), q_fn8]; exact s_28_27
  have t_31_30 : bitsOf w 31 30 = td.toNat := by rw [← bitsOf_bitsOf w 31 24 7 6 (by decide), q_fn8]; exact s_31_30
  have t_29_29 : bitsOf w 29 29 = 0 := by rw [← bitsOf_bitsOf w 31 24 5 5 (by decide), q_fn8]; exact s_29_29
  have t_36_32 : bitsOf w 36 32 = fmt.toNat := by rw [← bitsOf_bitsOf w 63 32 4 0 (by decide), q_imm]; exact s_36_32
  have t_63_37 : bitsOf w 63 37 = 0 := by rw [← bitsOf_bitsOf w 63 32 31 5 (by decide), q_imm]; exact s_63_37
  have u_26_24 : bitsOf ((sh.toNat + pol.toNat * 2 ^ 3 + td.toNat * 2 ^ 6)) 2 0 = sh.toNat := by simpa only [Nat.zero_mul, Nat.add_zero] using s_26_24
  have u_28_27 : bitsOf ((sh.toNat + pol.toNat * 2 ^ 3 + td.toNat * 2 ^ 6)) 4 3 = pol.toNat := by simpa only [Nat.zero_mul, Nat.add_zero] using s_28_27
  have u_31_30 : bitsOf ((sh.toNat + pol.toNat * 2 ^ 3 + td.toNat * 2 ^ 6)) 7 6 = td.toNat := by simpa only [Nat.zero_mul, Nat.add_zero] using s_31_30
  have u_29_29 : bitsOf ((sh.toNat + pol.toNat * 2 ^ 3 + td.toNat * 2 ^ 6)) 5 5 = 0 := by simpa only [Nat.zero_mul, Nat.add_zero] using s_29_29
  simp only [Nat.reducePow, Nat.reduceMul, Nat.zero_mul, Nat.add_zero] at *
  refine ⟨?_, ?_⟩
  · simp [decodeHelmWord, decodeLong, wMajor, wD, wA, wB, wFn, wSub, wX, wImm, zeroThen, bitsOf_bitsOf, bitOf_eq, z0, q_m, q_imm, q_fn8, q_seg, q_a, q_d, t_26_24, s_26_24, t_28_27, s_28_27, t_31_30, s_31_30, t_29_29, s_29_29, t_36_32, s_36_32, t_63_37, s_63_37, u_26_24, u_28_27, u_31_30, u_29_29, checked_of hf]
  · simpa [helmBytes, bitOf_eq, z0] using hb

theorem shpReqV (d : GReg) (a : GReg) (sh : BitVec 3) (pol : BitVec 2) (td : BitVec 2) (fmt : BitVec 5) : Statement (.shpReqV d a sh pol td fmt) := by
  refine ⟨fun w hf hw => ?_, fun w _ hw => by simp [strandWord] at hw⟩
  simp only [helmWord, Option.some.injEq] at hw
  obtain ⟨b_imm, s_36_32, s_63_37⟩ : fmt.toNat < 2 ^ 32 ∧ bitsOf (fmt.toNat) 4 0 = fmt.toNat ∧ bitsOf (fmt.toNat) 31 5 = 0 := by
    have hn0 : fmt.toNat < 32 := fmt.isLt
    clear hw hf
    generalize fmt.toNat = n0 at hn0 ⊢
    simp only [bitsOf]
    exact ⟨by omega, by omega, by omega⟩
  obtain ⟨b_fn8, s_26_24, s_28_27, s_31_30, s_29_29⟩ : (sh.toNat + pol.toNat * 2 ^ 3 + 1 * 2 ^ 5 + td.toNat * 2 ^ 6) < 2 ^ 8 ∧ bitsOf ((sh.toNat + pol.toNat * 2 ^ 3 + 1 * 2 ^ 5 + td.toNat * 2 ^ 6)) 2 0 = sh.toNat ∧ bitsOf ((sh.toNat + pol.toNat * 2 ^ 3 + 1 * 2 ^ 5 + td.toNat * 2 ^ 6)) 4 3 = pol.toNat ∧ bitsOf ((sh.toNat + pol.toNat * 2 ^ 3 + 1 * 2 ^ 5 + td.toNat * 2 ^ 6)) 7 6 = td.toNat ∧ bitsOf ((sh.toNat + pol.toNat * 2 ^ 3 + 1 * 2 ^ 5 + td.toNat * 2 ^ 6)) 5 5 = 1 := by
    have hn1 : sh.toNat < 8 := sh.isLt
    have hn2 : pol.toNat < 4 := pol.isLt
    have hn3 : td.toNat < 4 := td.isLt
    have hn5 : d.toNat < 64 := d.isLt
    clear hw hf
    generalize sh.toNat = n1 at hn1 ⊢
    generalize pol.toNat = n2 at hn2 ⊢
    generalize td.toNat = n3 at hn3 ⊢
    generalize d.toNat = n5 at hn5 ⊢
    simp only [bitsOf]
    exact ⟨by omega, by omega, by omega, by omega, by omega⟩
  obtain ⟨z0, q_m, q_imm, q_fn8, q_seg, q_a, q_d, hb⟩ := packL_fields (show (0x09 : Nat) < 2 ^ 7 by decide) (Nat.lt_of_lt_of_le fmt.isLt (by decide)) b_fn8 (show (0 : Nat) < 2 ^ 4 by decide) a.isLt d.isLt
  rw [hw] at z0 q_m q_imm q_fn8 q_seg q_a q_d hb
  have t_26_24 : bitsOf w 26 24 = sh.toNat := by rw [← bitsOf_bitsOf w 31 24 2 0 (by decide), q_fn8]; exact s_26_24
  have t_28_27 : bitsOf w 28 27 = pol.toNat := by rw [← bitsOf_bitsOf w 31 24 4 3 (by decide), q_fn8]; exact s_28_27
  have t_31_30 : bitsOf w 31 30 = td.toNat := by rw [← bitsOf_bitsOf w 31 24 7 6 (by decide), q_fn8]; exact s_31_30
  have t_29_29 : bitsOf w 29 29 = 1 := by rw [← bitsOf_bitsOf w 31 24 5 5 (by decide), q_fn8]; exact s_29_29
  have t_36_32 : bitsOf w 36 32 = fmt.toNat := by rw [← bitsOf_bitsOf w 63 32 4 0 (by decide), q_imm]; exact s_36_32
  have t_63_37 : bitsOf w 63 37 = 0 := by rw [← bitsOf_bitsOf w 63 32 31 5 (by decide), q_imm]; exact s_63_37
  simp only [Nat.reducePow, Nat.reduceMul, Nat.zero_mul, Nat.add_zero] at *
  refine ⟨?_, ?_⟩
  · simp [decodeHelmWord, decodeLong, wMajor, wD, wA, wB, wFn, wSub, wX, wImm, zeroThen, bitsOf_bitsOf, bitOf_eq, z0, q_m, q_imm, q_fn8, q_seg, q_a, q_d, t_26_24, s_26_24, t_28_27, s_28_27, t_31_30, s_31_30, t_29_29, s_29_29, t_36_32, s_36_32, t_63_37, s_63_37, checked_of hf]
  · simpa [helmBytes, bitOf_eq, z0] using hb

theorem shpSetCopy (dst : BitVec 3) (src : BitVec 3) : Statement (.shpSetCopy dst src) := by
  refine ⟨fun w hf hw => ?_, fun w _ hw => by simp [strandWord] at hw⟩
  simp only [helmWord, Option.some.injEq] at hw
  obtain ⟨b_fn8, s_26_24, s_29_27, s_31_30⟩ : (dst.toNat + src.toNat * 2 ^ 3) < 2 ^ 8 ∧ bitsOf ((dst.toNat + src.toNat * 2 ^ 3)) 2 0 = dst.toNat ∧ bitsOf ((dst.toNat + src.toNat * 2 ^ 3)) 5 3 = src.toNat ∧ bitsOf ((dst.toNat + src.toNat * 2 ^ 3)) 7 6 = 0 := by
    have hn0 : dst.toNat < 8 := dst.isLt
    have hn1 : src.toNat < 8 := src.isLt
    clear hw hf
    generalize dst.toNat = n0 at hn0 ⊢
    generalize src.toNat = n1 at hn1 ⊢
    simp only [bitsOf]
    exact ⟨by omega, by omega, by omega, by omega⟩
  obtain ⟨z0, q_m, q_imm, q_fn8, q_seg, q_a, q_d, hb⟩ := packL_fields (show (0x0A : Nat) < 2 ^ 7 by decide) (show (0 : Nat) < 2 ^ 32 by decide) b_fn8 (show (0 : Nat) < 2 ^ 4 by decide) (show (0 : Nat) < 2 ^ 6 by decide) (show (0 : Nat) < 2 ^ 6 by decide)
  rw [hw] at z0 q_m q_imm q_fn8 q_seg q_a q_d hb
  have t_26_24 : bitsOf w 26 24 = dst.toNat := by rw [← bitsOf_bitsOf w 31 24 2 0 (by decide), q_fn8]; exact s_26_24
  have t_29_27 : bitsOf w 29 27 = src.toNat := by rw [← bitsOf_bitsOf w 31 24 5 3 (by decide), q_fn8]; exact s_29_27
  have t_31_30 : bitsOf w 31 30 = 0 := by rw [← bitsOf_bitsOf w 31 24 7 6 (by decide), q_fn8]; exact s_31_30
  simp only [Nat.reducePow, Nat.reduceMul, Nat.zero_mul, Nat.add_zero] at *
  refine ⟨?_, ?_⟩
  · simp [decodeHelmWord, decodeLong, wMajor, wD, wA, wB, wFn, wSub, wX, wImm, zeroThen, bitsOf_bitsOf, bitOf_eq, z0, q_m, q_imm, q_fn8, q_seg, q_a, q_d, t_26_24, s_26_24, t_29_27, s_29_27, t_31_30, s_31_30, checked_of hf]
  · simpa [helmBytes, bitOf_eq, z0] using hb

theorem shpSetClr (dst : BitVec 3) : Statement (.shpSetClr dst) := by
  refine ⟨fun w hf hw => ?_, fun w _ hw => by simp [strandWord] at hw⟩
  simp only [helmWord, Option.some.injEq] at hw
  obtain ⟨b_fn8, s_26_24, s_29_27, s_31_30⟩ : (dst.toNat + 1 * 2 ^ 6) < 2 ^ 8 ∧ bitsOf ((dst.toNat + 1 * 2 ^ 6)) 2 0 = dst.toNat ∧ bitsOf ((dst.toNat + 1 * 2 ^ 6)) 5 3 = 0 ∧ bitsOf ((dst.toNat + 1 * 2 ^ 6)) 7 6 = 1 := by
    have hn0 : dst.toNat < 8 := dst.isLt
    clear hw hf
    generalize dst.toNat = n0 at hn0 ⊢
    simp only [bitsOf]
    exact ⟨by omega, by omega, by omega, by omega⟩
  obtain ⟨z0, q_m, q_imm, q_fn8, q_seg, q_a, q_d, hb⟩ := packL_fields (show (0x0A : Nat) < 2 ^ 7 by decide) (show (0 : Nat) < 2 ^ 32 by decide) b_fn8 (show (0 : Nat) < 2 ^ 4 by decide) (show (0 : Nat) < 2 ^ 6 by decide) (show (0 : Nat) < 2 ^ 6 by decide)
  rw [hw] at z0 q_m q_imm q_fn8 q_seg q_a q_d hb
  have t_26_24 : bitsOf w 26 24 = dst.toNat := by rw [← bitsOf_bitsOf w 31 24 2 0 (by decide), q_fn8]; exact s_26_24
  have t_29_27 : bitsOf w 29 27 = 0 := by rw [← bitsOf_bitsOf w 31 24 5 3 (by decide), q_fn8]; exact s_29_27
  have t_31_30 : bitsOf w 31 30 = 1 := by rw [← bitsOf_bitsOf w 31 24 7 6 (by decide), q_fn8]; exact s_31_30
  simp only [Nat.reducePow, Nat.reduceMul, Nat.zero_mul, Nat.add_zero] at *
  refine ⟨?_, ?_⟩
  · simp [decodeHelmWord, decodeLong, wMajor, wD, wA, wB, wFn, wSub, wX, wImm, zeroThen, bitsOf_bitsOf, bitOf_eq, z0, q_m, q_imm, q_fn8, q_seg, q_a, q_d, t_26_24, s_26_24, t_29_27, s_29_27, t_31_30, s_31_30, checked_of hf]
  · simpa [helmBytes, bitOf_eq, z0] using hb

theorem shpSetLd (dst : BitVec 3) (a : GReg) : Statement (.shpSetLd dst a) := by
  refine ⟨fun w hf hw => ?_, fun w _ hw => by simp [strandWord] at hw⟩
  simp only [helmWord, Option.some.injEq] at hw
  obtain ⟨b_fn8, s_26_24, s_29_27, s_31_30⟩ : (dst.toNat + 2 * 2 ^ 6) < 2 ^ 8 ∧ bitsOf ((dst.toNat + 2 * 2 ^ 6)) 2 0 = dst.toNat ∧ bitsOf ((dst.toNat + 2 * 2 ^ 6)) 5 3 = 0 ∧ bitsOf ((dst.toNat + 2 * 2 ^ 6)) 7 6 = 2 := by
    have hn0 : dst.toNat < 8 := dst.isLt
    clear hw hf
    generalize dst.toNat = n0 at hn0 ⊢
    simp only [bitsOf]
    exact ⟨by omega, by omega, by omega, by omega⟩
  obtain ⟨z0, q_m, q_imm, q_fn8, q_seg, q_a, q_d, hb⟩ := packL_fields (show (0x0A : Nat) < 2 ^ 7 by decide) (show (0 : Nat) < 2 ^ 32 by decide) b_fn8 (show (0 : Nat) < 2 ^ 4 by decide) a.isLt (show (0 : Nat) < 2 ^ 6 by decide)
  rw [hw] at z0 q_m q_imm q_fn8 q_seg q_a q_d hb
  have t_26_24 : bitsOf w 26 24 = dst.toNat := by rw [← bitsOf_bitsOf w 31 24 2 0 (by decide), q_fn8]; exact s_26_24
  have t_29_27 : bitsOf w 29 27 = 0 := by rw [← bitsOf_bitsOf w 31 24 5 3 (by decide), q_fn8]; exact s_29_27
  have t_31_30 : bitsOf w 31 30 = 2 := by rw [← bitsOf_bitsOf w 31 24 7 6 (by decide), q_fn8]; exact s_31_30
  simp only [Nat.reducePow, Nat.reduceMul, Nat.zero_mul, Nat.add_zero] at *
  refine ⟨?_, ?_⟩
  · simp [decodeHelmWord, decodeLong, wMajor, wD, wA, wB, wFn, wSub, wX, wImm, zeroThen, bitsOf_bitsOf, bitOf_eq, z0, q_m, q_imm, q_fn8, q_seg, q_a, q_d, t_26_24, s_26_24, t_29_27, s_29_27, t_31_30, s_31_30, checked_of hf]
  · simpa [helmBytes, bitOf_eq, z0] using hb

theorem shpSetTail (dst : BitVec 3) (imm : W32) : Statement (.shpSetTail dst imm) := by
  refine ⟨fun w hf hw => ?_, fun w _ hw => by simp [strandWord] at hw⟩
  simp only [helmWord, Option.some.injEq] at hw
  obtain ⟨b_fn8, s_26_24, s_29_27, s_31_30⟩ : (dst.toNat + 3 * 2 ^ 6) < 2 ^ 8 ∧ bitsOf ((dst.toNat + 3 * 2 ^ 6)) 2 0 = dst.toNat ∧ bitsOf ((dst.toNat + 3 * 2 ^ 6)) 5 3 = 0 ∧ bitsOf ((dst.toNat + 3 * 2 ^ 6)) 7 6 = 3 := by
    have hn1 : dst.toNat < 8 := dst.isLt
    clear hw hf
    generalize dst.toNat = n1 at hn1 ⊢
    simp only [bitsOf]
    exact ⟨by omega, by omega, by omega, by omega⟩
  obtain ⟨z0, q_m, q_imm, q_fn8, q_seg, q_a, q_d, hb⟩ := packL_fields (show (0x0A : Nat) < 2 ^ 7 by decide) imm.isLt b_fn8 (show (0 : Nat) < 2 ^ 4 by decide) (show (0 : Nat) < 2 ^ 6 by decide) (show (0 : Nat) < 2 ^ 6 by decide)
  rw [hw] at z0 q_m q_imm q_fn8 q_seg q_a q_d hb
  have t_26_24 : bitsOf w 26 24 = dst.toNat := by rw [← bitsOf_bitsOf w 31 24 2 0 (by decide), q_fn8]; exact s_26_24
  have t_29_27 : bitsOf w 29 27 = 0 := by rw [← bitsOf_bitsOf w 31 24 5 3 (by decide), q_fn8]; exact s_29_27
  have t_31_30 : bitsOf w 31 30 = 3 := by rw [← bitsOf_bitsOf w 31 24 7 6 (by decide), q_fn8]; exact s_31_30
  simp only [Nat.reducePow, Nat.reduceMul, Nat.zero_mul, Nat.add_zero] at *
  refine ⟨?_, ?_⟩
  · simp [decodeHelmWord, decodeLong, wMajor, wD, wA, wB, wFn, wSub, wX, wImm, zeroThen, bitsOf_bitsOf, bitOf_eq, z0, q_m, q_imm, q_fn8, q_seg, q_a, q_d, t_26_24, s_26_24, t_29_27, s_29_27, t_31_30, s_31_30, checked_of hf]
  · simpa [helmBytes, bitOf_eq, z0] using hb

theorem cpCopy (d : GReg) (a : GReg) (ch : BitVec 2) (ord : BitVec 2) (seg : BitVec 4) (imm : W32) : Statement (.cpCopy d a ch ord seg imm) := by
  refine ⟨fun w hf hw => ?_, fun w _ hw => by simp [strandWord] at hw⟩
  simp only [helmWord, Option.some.injEq] at hw
  obtain ⟨b_fn8, s_31_30, s_29_28, s_27_24⟩ : (0 + ord.toNat * 2 ^ 4 + ch.toNat * 2 ^ 6) < 2 ^ 8 ∧ bitsOf ((0 + ord.toNat * 2 ^ 4 + ch.toNat * 2 ^ 6)) 7 6 = ch.toNat ∧ bitsOf ((0 + ord.toNat * 2 ^ 4 + ch.toNat * 2 ^ 6)) 5 4 = ord.toNat ∧ bitsOf ((0 + ord.toNat * 2 ^ 4 + ch.toNat * 2 ^ 6)) 3 0 = 0 := by
    have hn1 : ord.toNat < 4 := ord.isLt
    have hn2 : ch.toNat < 4 := ch.isLt
    have hn5 : d.toNat < 64 := d.isLt
    clear hw hf
    generalize ord.toNat = n1 at hn1 ⊢
    generalize ch.toNat = n2 at hn2 ⊢
    generalize d.toNat = n5 at hn5 ⊢
    simp only [bitsOf]
    exact ⟨by omega, by omega, by omega, by omega⟩
  obtain ⟨z0, q_m, q_imm, q_fn8, q_seg, q_a, q_d, hb⟩ := packL_fields (show (0x0B : Nat) < 2 ^ 7 by decide) imm.isLt b_fn8 seg.isLt a.isLt d.isLt
  rw [hw] at z0 q_m q_imm q_fn8 q_seg q_a q_d hb
  have t_31_30 : bitsOf w 31 30 = ch.toNat := by rw [← bitsOf_bitsOf w 31 24 7 6 (by decide), q_fn8]; exact s_31_30
  have t_29_28 : bitsOf w 29 28 = ord.toNat := by rw [← bitsOf_bitsOf w 31 24 5 4 (by decide), q_fn8]; exact s_29_28
  have t_27_24 : bitsOf w 27 24 = 0 := by rw [← bitsOf_bitsOf w 31 24 3 0 (by decide), q_fn8]; exact s_27_24
  refine ⟨?_, ?_⟩
  · simp [decodeHelmWord, decodeLong, decodeCopy, wMajor, wD, wA, wB, wFn, wSub, wX, wImm, zeroThen, bitsOf_bitsOf, bitOf_eq, z0, q_m, q_imm, q_fn8, q_seg, q_a, q_d, t_31_30, s_31_30, t_29_28, s_29_28, t_27_24, s_27_24, checked_of hf]
  · simpa [helmBytes, bitOf_eq, z0] using hb

theorem cpGath (d : GReg) (a : GReg) (ch : BitVec 2) (ord : BitVec 2) (seg : BitVec 4) (imm : W32) : Statement (.cpGath d a ch ord seg imm) := by
  refine ⟨fun w hf hw => ?_, fun w _ hw => by simp [strandWord] at hw⟩
  simp only [helmWord, Option.some.injEq] at hw
  obtain ⟨b_fn8, s_31_30, s_29_28, s_27_24⟩ : (1 + ord.toNat * 2 ^ 4 + ch.toNat * 2 ^ 6) < 2 ^ 8 ∧ bitsOf ((1 + ord.toNat * 2 ^ 4 + ch.toNat * 2 ^ 6)) 7 6 = ch.toNat ∧ bitsOf ((1 + ord.toNat * 2 ^ 4 + ch.toNat * 2 ^ 6)) 5 4 = ord.toNat ∧ bitsOf ((1 + ord.toNat * 2 ^ 4 + ch.toNat * 2 ^ 6)) 3 0 = 1 := by
    have hn1 : ord.toNat < 4 := ord.isLt
    have hn2 : ch.toNat < 4 := ch.isLt
    have hn5 : d.toNat < 64 := d.isLt
    clear hw hf
    generalize ord.toNat = n1 at hn1 ⊢
    generalize ch.toNat = n2 at hn2 ⊢
    generalize d.toNat = n5 at hn5 ⊢
    simp only [bitsOf]
    exact ⟨by omega, by omega, by omega, by omega⟩
  obtain ⟨z0, q_m, q_imm, q_fn8, q_seg, q_a, q_d, hb⟩ := packL_fields (show (0x0B : Nat) < 2 ^ 7 by decide) imm.isLt b_fn8 seg.isLt a.isLt d.isLt
  rw [hw] at z0 q_m q_imm q_fn8 q_seg q_a q_d hb
  have t_31_30 : bitsOf w 31 30 = ch.toNat := by rw [← bitsOf_bitsOf w 31 24 7 6 (by decide), q_fn8]; exact s_31_30
  have t_29_28 : bitsOf w 29 28 = ord.toNat := by rw [← bitsOf_bitsOf w 31 24 5 4 (by decide), q_fn8]; exact s_29_28
  have t_27_24 : bitsOf w 27 24 = 1 := by rw [← bitsOf_bitsOf w 31 24 3 0 (by decide), q_fn8]; exact s_27_24
  refine ⟨?_, ?_⟩
  · simp [decodeHelmWord, decodeLong, decodeCopy, wMajor, wD, wA, wB, wFn, wSub, wX, wImm, zeroThen, bitsOf_bitsOf, bitOf_eq, z0, q_m, q_imm, q_fn8, q_seg, q_a, q_d, t_31_30, s_31_30, t_29_28, s_29_28, t_27_24, s_27_24, checked_of hf]
  · simpa [helmBytes, bitOf_eq, z0] using hb

theorem cpScat (d : GReg) (a : GReg) (ch : BitVec 2) (ord : BitVec 2) (seg : BitVec 4) (imm : W32) : Statement (.cpScat d a ch ord seg imm) := by
  refine ⟨fun w hf hw => ?_, fun w _ hw => by simp [strandWord] at hw⟩
  simp only [helmWord, Option.some.injEq] at hw
  obtain ⟨b_fn8, s_31_30, s_29_28, s_27_24⟩ : (2 + ord.toNat * 2 ^ 4 + ch.toNat * 2 ^ 6) < 2 ^ 8 ∧ bitsOf ((2 + ord.toNat * 2 ^ 4 + ch.toNat * 2 ^ 6)) 7 6 = ch.toNat ∧ bitsOf ((2 + ord.toNat * 2 ^ 4 + ch.toNat * 2 ^ 6)) 5 4 = ord.toNat ∧ bitsOf ((2 + ord.toNat * 2 ^ 4 + ch.toNat * 2 ^ 6)) 3 0 = 2 := by
    have hn1 : ord.toNat < 4 := ord.isLt
    have hn2 : ch.toNat < 4 := ch.isLt
    have hn5 : d.toNat < 64 := d.isLt
    clear hw hf
    generalize ord.toNat = n1 at hn1 ⊢
    generalize ch.toNat = n2 at hn2 ⊢
    generalize d.toNat = n5 at hn5 ⊢
    simp only [bitsOf]
    exact ⟨by omega, by omega, by omega, by omega⟩
  obtain ⟨z0, q_m, q_imm, q_fn8, q_seg, q_a, q_d, hb⟩ := packL_fields (show (0x0B : Nat) < 2 ^ 7 by decide) imm.isLt b_fn8 seg.isLt a.isLt d.isLt
  rw [hw] at z0 q_m q_imm q_fn8 q_seg q_a q_d hb
  have t_31_30 : bitsOf w 31 30 = ch.toNat := by rw [← bitsOf_bitsOf w 31 24 7 6 (by decide), q_fn8]; exact s_31_30
  have t_29_28 : bitsOf w 29 28 = ord.toNat := by rw [← bitsOf_bitsOf w 31 24 5 4 (by decide), q_fn8]; exact s_29_28
  have t_27_24 : bitsOf w 27 24 = 2 := by rw [← bitsOf_bitsOf w 31 24 3 0 (by decide), q_fn8]; exact s_27_24
  refine ⟨?_, ?_⟩
  · simp [decodeHelmWord, decodeLong, decodeCopy, wMajor, wD, wA, wB, wFn, wSub, wX, wImm, zeroThen, bitsOf_bitsOf, bitOf_eq, z0, q_m, q_imm, q_fn8, q_seg, q_a, q_d, t_31_30, s_31_30, t_29_28, s_29_28, t_27_24, s_27_24, checked_of hf]
  · simpa [helmBytes, bitOf_eq, z0] using hb

theorem cpFill (d : GReg) (a : GReg) (ch : BitVec 2) (ord : BitVec 2) (seg : BitVec 4) (imm : W32) : Statement (.cpFill d a ch ord seg imm) := by
  refine ⟨fun w hf hw => ?_, fun w _ hw => by simp [strandWord] at hw⟩
  simp only [helmWord, Option.some.injEq] at hw
  obtain ⟨b_fn8, s_31_30, s_29_28, s_27_24⟩ : (3 + ord.toNat * 2 ^ 4 + ch.toNat * 2 ^ 6) < 2 ^ 8 ∧ bitsOf ((3 + ord.toNat * 2 ^ 4 + ch.toNat * 2 ^ 6)) 7 6 = ch.toNat ∧ bitsOf ((3 + ord.toNat * 2 ^ 4 + ch.toNat * 2 ^ 6)) 5 4 = ord.toNat ∧ bitsOf ((3 + ord.toNat * 2 ^ 4 + ch.toNat * 2 ^ 6)) 3 0 = 3 := by
    have hn1 : ord.toNat < 4 := ord.isLt
    have hn2 : ch.toNat < 4 := ch.isLt
    have hn5 : d.toNat < 64 := d.isLt
    clear hw hf
    generalize ord.toNat = n1 at hn1 ⊢
    generalize ch.toNat = n2 at hn2 ⊢
    generalize d.toNat = n5 at hn5 ⊢
    simp only [bitsOf]
    exact ⟨by omega, by omega, by omega, by omega⟩
  obtain ⟨z0, q_m, q_imm, q_fn8, q_seg, q_a, q_d, hb⟩ := packL_fields (show (0x0B : Nat) < 2 ^ 7 by decide) imm.isLt b_fn8 seg.isLt a.isLt d.isLt
  rw [hw] at z0 q_m q_imm q_fn8 q_seg q_a q_d hb
  have t_31_30 : bitsOf w 31 30 = ch.toNat := by rw [← bitsOf_bitsOf w 31 24 7 6 (by decide), q_fn8]; exact s_31_30
  have t_29_28 : bitsOf w 29 28 = ord.toNat := by rw [← bitsOf_bitsOf w 31 24 5 4 (by decide), q_fn8]; exact s_29_28
  have t_27_24 : bitsOf w 27 24 = 3 := by rw [← bitsOf_bitsOf w 31 24 3 0 (by decide), q_fn8]; exact s_27_24
  refine ⟨?_, ?_⟩
  · simp [decodeHelmWord, decodeLong, decodeCopy, wMajor, wD, wA, wB, wFn, wSub, wX, wImm, zeroThen, bitsOf_bitsOf, bitOf_eq, z0, q_m, q_imm, q_fn8, q_seg, q_a, q_d, t_31_30, s_31_30, t_29_28, s_29_28, t_27_24, s_27_24, checked_of hf]
  · simpa [helmBytes, bitOf_eq, z0] using hb

theorem cpScale (d : GReg) (a : GReg) (ch : BitVec 2) (ord : BitVec 2) (seg : BitVec 4) (imm : W32) : Statement (.cpScale d a ch ord seg imm) := by
  refine ⟨fun w hf hw => ?_, fun w _ hw => by simp [strandWord] at hw⟩
  simp only [helmWord, Option.some.injEq] at hw
  obtain ⟨b_fn8, s_31_30, s_29_28, s_27_24⟩ : (4 + ord.toNat * 2 ^ 4 + ch.toNat * 2 ^ 6) < 2 ^ 8 ∧ bitsOf ((4 + ord.toNat * 2 ^ 4 + ch.toNat * 2 ^ 6)) 7 6 = ch.toNat ∧ bitsOf ((4 + ord.toNat * 2 ^ 4 + ch.toNat * 2 ^ 6)) 5 4 = ord.toNat ∧ bitsOf ((4 + ord.toNat * 2 ^ 4 + ch.toNat * 2 ^ 6)) 3 0 = 4 := by
    have hn1 : ord.toNat < 4 := ord.isLt
    have hn2 : ch.toNat < 4 := ch.isLt
    have hn5 : d.toNat < 64 := d.isLt
    clear hw hf
    generalize ord.toNat = n1 at hn1 ⊢
    generalize ch.toNat = n2 at hn2 ⊢
    generalize d.toNat = n5 at hn5 ⊢
    simp only [bitsOf]
    exact ⟨by omega, by omega, by omega, by omega⟩
  obtain ⟨z0, q_m, q_imm, q_fn8, q_seg, q_a, q_d, hb⟩ := packL_fields (show (0x0B : Nat) < 2 ^ 7 by decide) imm.isLt b_fn8 seg.isLt a.isLt d.isLt
  rw [hw] at z0 q_m q_imm q_fn8 q_seg q_a q_d hb
  have t_31_30 : bitsOf w 31 30 = ch.toNat := by rw [← bitsOf_bitsOf w 31 24 7 6 (by decide), q_fn8]; exact s_31_30
  have t_29_28 : bitsOf w 29 28 = ord.toNat := by rw [← bitsOf_bitsOf w 31 24 5 4 (by decide), q_fn8]; exact s_29_28
  have t_27_24 : bitsOf w 27 24 = 4 := by rw [← bitsOf_bitsOf w 31 24 3 0 (by decide), q_fn8]; exact s_27_24
  refine ⟨?_, ?_⟩
  · simp [decodeHelmWord, decodeLong, decodeCopy, wMajor, wD, wA, wB, wFn, wSub, wX, wImm, zeroThen, bitsOf_bitsOf, bitOf_eq, z0, q_m, q_imm, q_fn8, q_seg, q_a, q_d, t_31_30, s_31_30, t_29_28, s_29_28, t_27_24, s_27_24, checked_of hf]
  · simpa [helmBytes, bitOf_eq, z0] using hb

theorem cpColl (d : GReg) (a : GReg) (ch : BitVec 2) (ord : BitVec 2) (seg : BitVec 4) (imm : W32) : Statement (.cpColl d a ch ord seg imm) := by
  refine ⟨fun w hf hw => ?_, fun w _ hw => by simp [strandWord] at hw⟩
  simp only [helmWord, Option.some.injEq] at hw
  obtain ⟨b_fn8, s_31_30, s_29_28, s_27_24⟩ : (5 + ord.toNat * 2 ^ 4 + ch.toNat * 2 ^ 6) < 2 ^ 8 ∧ bitsOf ((5 + ord.toNat * 2 ^ 4 + ch.toNat * 2 ^ 6)) 7 6 = ch.toNat ∧ bitsOf ((5 + ord.toNat * 2 ^ 4 + ch.toNat * 2 ^ 6)) 5 4 = ord.toNat ∧ bitsOf ((5 + ord.toNat * 2 ^ 4 + ch.toNat * 2 ^ 6)) 3 0 = 5 := by
    have hn1 : ord.toNat < 4 := ord.isLt
    have hn2 : ch.toNat < 4 := ch.isLt
    have hn5 : d.toNat < 64 := d.isLt
    clear hw hf
    generalize ord.toNat = n1 at hn1 ⊢
    generalize ch.toNat = n2 at hn2 ⊢
    generalize d.toNat = n5 at hn5 ⊢
    simp only [bitsOf]
    exact ⟨by omega, by omega, by omega, by omega⟩
  obtain ⟨z0, q_m, q_imm, q_fn8, q_seg, q_a, q_d, hb⟩ := packL_fields (show (0x0B : Nat) < 2 ^ 7 by decide) imm.isLt b_fn8 seg.isLt a.isLt d.isLt
  rw [hw] at z0 q_m q_imm q_fn8 q_seg q_a q_d hb
  have t_31_30 : bitsOf w 31 30 = ch.toNat := by rw [← bitsOf_bitsOf w 31 24 7 6 (by decide), q_fn8]; exact s_31_30
  have t_29_28 : bitsOf w 29 28 = ord.toNat := by rw [← bitsOf_bitsOf w 31 24 5 4 (by decide), q_fn8]; exact s_29_28
  have t_27_24 : bitsOf w 27 24 = 5 := by rw [← bitsOf_bitsOf w 31 24 3 0 (by decide), q_fn8]; exact s_27_24
  refine ⟨?_, ?_⟩
  · simp [decodeHelmWord, decodeLong, decodeCopy, wMajor, wD, wA, wB, wFn, wSub, wX, wImm, zeroThen, bitsOf_bitsOf, bitOf_eq, z0, q_m, q_imm, q_fn8, q_seg, q_a, q_d, t_31_30, s_31_30, t_29_28, s_29_28, t_27_24, s_27_24, checked_of hf]
  · simpa [helmBytes, bitOf_eq, z0] using hb

theorem cpDisp (d : GReg) (a : GReg) (ch : BitVec 2) (ord : BitVec 2) (seg : BitVec 4) (imm : W32) : Statement (.cpDisp d a ch ord seg imm) := by
  refine ⟨fun w hf hw => ?_, fun w _ hw => by simp [strandWord] at hw⟩
  simp only [helmWord, Option.some.injEq] at hw
  obtain ⟨b_fn8, s_31_30, s_29_28, s_27_24⟩ : (6 + ord.toNat * 2 ^ 4 + ch.toNat * 2 ^ 6) < 2 ^ 8 ∧ bitsOf ((6 + ord.toNat * 2 ^ 4 + ch.toNat * 2 ^ 6)) 7 6 = ch.toNat ∧ bitsOf ((6 + ord.toNat * 2 ^ 4 + ch.toNat * 2 ^ 6)) 5 4 = ord.toNat ∧ bitsOf ((6 + ord.toNat * 2 ^ 4 + ch.toNat * 2 ^ 6)) 3 0 = 6 := by
    have hn1 : ord.toNat < 4 := ord.isLt
    have hn2 : ch.toNat < 4 := ch.isLt
    have hn5 : d.toNat < 64 := d.isLt
    clear hw hf
    generalize ord.toNat = n1 at hn1 ⊢
    generalize ch.toNat = n2 at hn2 ⊢
    generalize d.toNat = n5 at hn5 ⊢
    simp only [bitsOf]
    exact ⟨by omega, by omega, by omega, by omega⟩
  obtain ⟨z0, q_m, q_imm, q_fn8, q_seg, q_a, q_d, hb⟩ := packL_fields (show (0x0B : Nat) < 2 ^ 7 by decide) imm.isLt b_fn8 seg.isLt a.isLt d.isLt
  rw [hw] at z0 q_m q_imm q_fn8 q_seg q_a q_d hb
  have t_31_30 : bitsOf w 31 30 = ch.toNat := by rw [← bitsOf_bitsOf w 31 24 7 6 (by decide), q_fn8]; exact s_31_30
  have t_29_28 : bitsOf w 29 28 = ord.toNat := by rw [← bitsOf_bitsOf w 31 24 5 4 (by decide), q_fn8]; exact s_29_28
  have t_27_24 : bitsOf w 27 24 = 6 := by rw [← bitsOf_bitsOf w 31 24 3 0 (by decide), q_fn8]; exact s_27_24
  refine ⟨?_, ?_⟩
  · simp [decodeHelmWord, decodeLong, decodeCopy, wMajor, wD, wA, wB, wFn, wSub, wX, wImm, zeroThen, bitsOf_bitsOf, bitOf_eq, z0, q_m, q_imm, q_fn8, q_seg, q_a, q_d, t_31_30, s_31_30, t_29_28, s_29_28, t_27_24, s_27_24, checked_of hf]
  · simpa [helmBytes, bitOf_eq, z0] using hb

theorem cpReplay (d : GReg) (a : GReg) : Statement (.cpReplay d a) := by
  refine ⟨fun w hf hw => ?_, fun w _ hw => by simp [strandWord] at hw⟩
  simp only [helmWord, Option.some.injEq] at hw
  obtain ⟨b_fn8, s_31_30, s_29_28, s_27_24, s_31_31, s_30_30⟩ : 7 < 2 ^ 8 ∧ bitsOf (7) 7 6 = 0 ∧ bitsOf (7) 5 4 = 0 ∧ bitsOf (7) 3 0 = 7 ∧ bitsOf (7) 7 7 = 0 ∧ bitsOf (7) 6 6 = 0 := by
    decide
  obtain ⟨z0, q_m, q_imm, q_fn8, q_seg, q_a, q_d, hb⟩ := packL_fields (show (0x0B : Nat) < 2 ^ 7 by decide) (show (0 : Nat) < 2 ^ 32 by decide) (show (7 : Nat) < 2 ^ 8 by decide) (show (0 : Nat) < 2 ^ 4 by decide) a.isLt d.isLt
  rw [hw] at z0 q_m q_imm q_fn8 q_seg q_a q_d hb
  have t_31_30 : bitsOf w 31 30 = 0 := by rw [← bitsOf_bitsOf w 31 24 7 6 (by decide), q_fn8]; exact s_31_30
  have t_29_28 : bitsOf w 29 28 = 0 := by rw [← bitsOf_bitsOf w 31 24 5 4 (by decide), q_fn8]; exact s_29_28
  have t_27_24 : bitsOf w 27 24 = 7 := by rw [← bitsOf_bitsOf w 31 24 3 0 (by decide), q_fn8]; exact s_27_24
  have t_31_31 : bitsOf w 31 31 = 0 := by rw [← bitsOf_bitsOf w 31 24 7 7 (by decide), q_fn8]; exact s_31_31
  have t_30_30 : bitsOf w 30 30 = 0 := by rw [← bitsOf_bitsOf w 31 24 6 6 (by decide), q_fn8]; exact s_30_30
  refine ⟨?_, ?_⟩
  · simp [decodeHelmWord, decodeLong, decodeCopy, wMajor, wD, wA, wB, wFn, wSub, wX, wImm, zeroThen, bitsOf_bitsOf, bitOf_eq, z0, q_m, q_imm, q_fn8, q_seg, q_a, q_d, t_31_30, s_31_30, t_29_28, s_29_28, t_27_24, s_27_24, t_31_31, s_31_31, t_30_30, s_30_30, checked_of hf]
  · simpa [helmBytes, bitOf_eq, z0] using hb

theorem cpReplayDiscard (d : GReg) (a : GReg) : Statement (.cpReplayDiscard d a) := by
  refine ⟨fun w hf hw => ?_, fun w _ hw => by simp [strandWord] at hw⟩
  simp only [helmWord, Option.some.injEq] at hw
  obtain ⟨b_fn8, s_31_30, s_29_28, s_27_24, s_31_31, s_30_30⟩ : 0x47 < 2 ^ 8 ∧ bitsOf (0x47) 7 6 = 1 ∧ bitsOf (0x47) 5 4 = 0 ∧ bitsOf (0x47) 3 0 = 7 ∧ bitsOf (0x47) 7 7 = 0 ∧ bitsOf (0x47) 6 6 = 1 := by
    decide
  obtain ⟨z0, q_m, q_imm, q_fn8, q_seg, q_a, q_d, hb⟩ := packL_fields (show (0x0B : Nat) < 2 ^ 7 by decide) (show (0 : Nat) < 2 ^ 32 by decide) (show (0x47 : Nat) < 2 ^ 8 by decide) (show (0 : Nat) < 2 ^ 4 by decide) a.isLt d.isLt
  rw [hw] at z0 q_m q_imm q_fn8 q_seg q_a q_d hb
  have t_31_30 : bitsOf w 31 30 = 1 := by rw [← bitsOf_bitsOf w 31 24 7 6 (by decide), q_fn8]; exact s_31_30
  have t_29_28 : bitsOf w 29 28 = 0 := by rw [← bitsOf_bitsOf w 31 24 5 4 (by decide), q_fn8]; exact s_29_28
  have t_27_24 : bitsOf w 27 24 = 7 := by rw [← bitsOf_bitsOf w 31 24 3 0 (by decide), q_fn8]; exact s_27_24
  have t_31_31 : bitsOf w 31 31 = 0 := by rw [← bitsOf_bitsOf w 31 24 7 7 (by decide), q_fn8]; exact s_31_31
  have t_30_30 : bitsOf w 30 30 = 1 := by rw [← bitsOf_bitsOf w 31 24 6 6 (by decide), q_fn8]; exact s_30_30
  refine ⟨?_, ?_⟩
  · simp [decodeHelmWord, decodeLong, decodeCopy, wMajor, wD, wA, wB, wFn, wSub, wX, wImm, zeroThen, bitsOf_bitsOf, bitOf_eq, z0, q_m, q_imm, q_fn8, q_seg, q_a, q_d, t_31_30, s_31_30, t_29_28, s_29_28, t_27_24, s_27_24, t_31_31, s_31_31, t_30_30, s_30_30, checked_of hf]
  · simpa [helmBytes, bitOf_eq, z0] using hb

theorem cpStat (d : GReg) (a : GReg) (ch : BitVec 2) : Statement (.cpStat d a ch) := by
  refine ⟨fun w hf hw => ?_, fun w _ hw => by simp [strandWord] at hw⟩
  simp only [helmWord, Option.some.injEq] at hw
  obtain ⟨b_fn8, s_31_30, s_29_28, s_27_24⟩ : (8 + ch.toNat * 2 ^ 6) < 2 ^ 8 ∧ bitsOf ((8 + ch.toNat * 2 ^ 6)) 7 6 = ch.toNat ∧ bitsOf ((8 + ch.toNat * 2 ^ 6)) 5 4 = 0 ∧ bitsOf ((8 + ch.toNat * 2 ^ 6)) 3 0 = 8 := by
    have hn0 : ch.toNat < 4 := ch.isLt
    clear hw hf
    generalize ch.toNat = n0 at hn0 ⊢
    simp only [bitsOf]
    exact ⟨by omega, by omega, by omega, by omega⟩
  obtain ⟨z0, q_m, q_imm, q_fn8, q_seg, q_a, q_d, hb⟩ := packL_fields (show (0x0B : Nat) < 2 ^ 7 by decide) (show (0 : Nat) < 2 ^ 32 by decide) b_fn8 (show (0 : Nat) < 2 ^ 4 by decide) a.isLt d.isLt
  rw [hw] at z0 q_m q_imm q_fn8 q_seg q_a q_d hb
  have t_31_30 : bitsOf w 31 30 = ch.toNat := by rw [← bitsOf_bitsOf w 31 24 7 6 (by decide), q_fn8]; exact s_31_30
  have t_29_28 : bitsOf w 29 28 = 0 := by rw [← bitsOf_bitsOf w 31 24 5 4 (by decide), q_fn8]; exact s_29_28
  have t_27_24 : bitsOf w 27 24 = 8 := by rw [← bitsOf_bitsOf w 31 24 3 0 (by decide), q_fn8]; exact s_27_24
  refine ⟨?_, ?_⟩
  · simp [decodeHelmWord, decodeLong, decodeCopy, wMajor, wD, wA, wB, wFn, wSub, wX, wImm, zeroThen, bitsOf_bitsOf, bitOf_eq, z0, q_m, q_imm, q_fn8, q_seg, q_a, q_d, t_31_30, s_31_30, t_29_28, s_29_28, t_27_24, s_27_24, checked_of hf]
  · simpa [helmBytes, bitOf_eq, z0] using hb

theorem nestLaunch (d : GReg) (a : GReg) (flag : Bool) (queue : BitVec 6) (seg : BitVec 4) (imm : W32) : Statement (.nestLaunch d a flag queue seg imm) := by
  refine ⟨fun w hf hw => ?_, fun w _ hw => by simp [strandWord] at hw⟩
  simp only [helmWord, Option.some.injEq] at hw
  obtain ⟨b_fn8, s_31_31, s_30_30, s_29_24⟩ : (queue.toNat + b2n flag * 2 ^ 6) < 2 ^ 8 ∧ bitsOf ((queue.toNat + b2n flag * 2 ^ 6)) 7 7 = 0 ∧ bitsOf ((queue.toNat + b2n flag * 2 ^ 6)) 6 6 = b2n flag ∧ bitsOf ((queue.toNat + b2n flag * 2 ^ 6)) 5 0 = queue.toNat := by
    have hn1 : queue.toNat < 64 := queue.isLt
    have hn2 : b2n flag < 2 := b2n_lt _
    clear hw hf
    generalize queue.toNat = n1 at hn1 ⊢
    generalize b2n flag = n2 at hn2 ⊢
    simp only [bitsOf]
    exact ⟨by omega, by omega, by omega, by omega⟩
  obtain ⟨z0, q_m, q_imm, q_fn8, q_seg, q_a, q_d, hb⟩ := packL_fields (show (0x0C : Nat) < 2 ^ 7 by decide) imm.isLt b_fn8 seg.isLt a.isLt d.isLt
  rw [hw] at z0 q_m q_imm q_fn8 q_seg q_a q_d hb
  have t_31_31 : bitsOf w 31 31 = 0 := by rw [← bitsOf_bitsOf w 31 24 7 7 (by decide), q_fn8]; exact s_31_31
  have t_30_30 : bitsOf w 30 30 = b2n flag := by rw [← bitsOf_bitsOf w 31 24 6 6 (by decide), q_fn8]; exact s_30_30
  have t_29_24 : bitsOf w 29 24 = queue.toNat := by rw [← bitsOf_bitsOf w 31 24 5 0 (by decide), q_fn8]; exact s_29_24
  simp only [Nat.reducePow, Nat.reduceMul, Nat.zero_mul, Nat.add_zero] at *
  refine ⟨?_, ?_⟩
  · simp [decodeHelmWord, decodeLong, wMajor, wD, wA, wB, wFn, wSub, wX, wImm, zeroThen, bitsOf_bitsOf, bitOf_eq, z0, q_m, q_imm, q_fn8, q_seg, q_a, q_d, t_31_31, s_31_31, t_30_30, s_30_30, t_29_24, s_29_24, checked_of hf]
  · simpa [helmBytes, bitOf_eq, z0] using hb

theorem fork (d : GReg) (a : GReg) (flag : Bool) (queue : BitVec 6) (seg : BitVec 4) (imm : W32) : Statement (.fork d a flag queue seg imm) := by
  refine ⟨fun w hf hw => ?_, fun w _ hw => by simp [strandWord] at hw⟩
  simp only [helmWord, Option.some.injEq] at hw
  obtain ⟨b_fn8, s_31_31, s_30_30, s_29_24⟩ : (queue.toNat + b2n flag * 2 ^ 7) < 2 ^ 8 ∧ bitsOf ((queue.toNat + b2n flag * 2 ^ 7)) 7 7 = b2n flag ∧ bitsOf ((queue.toNat + b2n flag * 2 ^ 7)) 6 6 = 0 ∧ bitsOf ((queue.toNat + b2n flag * 2 ^ 7)) 5 0 = queue.toNat := by
    have hn1 : queue.toNat < 64 := queue.isLt
    have hn2 : b2n flag < 2 := b2n_lt _
    clear hw hf
    generalize queue.toNat = n1 at hn1 ⊢
    generalize b2n flag = n2 at hn2 ⊢
    simp only [bitsOf]
    exact ⟨by omega, by omega, by omega, by omega⟩
  obtain ⟨z0, q_m, q_imm, q_fn8, q_seg, q_a, q_d, hb⟩ := packL_fields (show (0x0D : Nat) < 2 ^ 7 by decide) imm.isLt b_fn8 seg.isLt a.isLt d.isLt
  rw [hw] at z0 q_m q_imm q_fn8 q_seg q_a q_d hb
  have t_31_31 : bitsOf w 31 31 = b2n flag := by rw [← bitsOf_bitsOf w 31 24 7 7 (by decide), q_fn8]; exact s_31_31
  have t_30_30 : bitsOf w 30 30 = 0 := by rw [← bitsOf_bitsOf w 31 24 6 6 (by decide), q_fn8]; exact s_30_30
  have t_29_24 : bitsOf w 29 24 = queue.toNat := by rw [← bitsOf_bitsOf w 31 24 5 0 (by decide), q_fn8]; exact s_29_24
  simp only [Nat.reducePow, Nat.reduceMul, Nat.zero_mul, Nat.add_zero] at *
  refine ⟨?_, ?_⟩
  · simp [decodeHelmWord, decodeLong, wMajor, wD, wA, wB, wFn, wSub, wX, wImm, zeroThen, bitsOf_bitsOf, bitOf_eq, z0, q_m, q_imm, q_fn8, q_seg, q_a, q_d, t_31_31, s_31_31, t_30_30, s_30_30, t_29_24, s_29_24, checked_of hf]
  · simpa [helmBytes, bitOf_eq, z0] using hb

theorem fmtSet (a : GReg) (n : BitVec 4) : Statement (.fmtSet a n) := by
  refine ⟨fun w hf hw => ?_, fun w _ hw => by simp [strandWord] at hw⟩
  simp only [helmWord, Option.some.injEq] at hw
  obtain ⟨b_fn8, s_27_24⟩ : n.toNat < 2 ^ 8 ∧ bitsOf (n.toNat) 3 0 = n.toNat := by
    have hn0 : n.toNat < 16 := n.isLt
    clear hw hf
    generalize n.toNat = n0 at hn0 ⊢
    simp only [bitsOf]
    exact ⟨by omega, by omega⟩
  obtain ⟨z0, q_m, q_imm, q_fn8, q_seg, q_a, q_d, hb⟩ := packL_fields (show (0x0E : Nat) < 2 ^ 7 by decide) (show (0 : Nat) < 2 ^ 32 by decide) (Nat.lt_of_lt_of_le n.isLt (by decide)) (show (0 : Nat) < 2 ^ 4 by decide) a.isLt (show (0 : Nat) < 2 ^ 6 by decide)
  rw [hw] at z0 q_m q_imm q_fn8 q_seg q_a q_d hb
  have t_27_24 : bitsOf w 27 24 = n.toNat := by rw [← bitsOf_bitsOf w 31 24 3 0 (by decide), q_fn8]; exact s_27_24
  have ln0 : n.toNat < 16 := n.isLt
  have r0 : n.toNat < 16 := by omega
  refine ⟨?_, ?_⟩
  · simp [decodeHelmWord, decodeLong, wMajor, wD, wA, wB, wFn, wSub, wX, wImm, zeroThen, bitsOf_bitsOf, bitOf_eq, z0, q_m, q_imm, q_fn8, q_seg, q_a, q_d, t_27_24, s_27_24, r0, checked_of hf]
  · simpa [helmBytes, bitOf_eq, z0] using hb

theorem rgInit (a : GReg) (ring : BitVec 4) (space : BitVec 2) (seg : BitVec 4) (base : W32) : Statement (.rgInit a ring space seg base) := by
  refine ⟨fun w hf hw => ?_, fun w _ hw => by simp [strandWord] at hw⟩
  simp only [helmWord, Option.some.injEq] at hw
  obtain ⟨b_fn8, s_27_24, s_29_28⟩ : (ring.toNat + space.toNat * 2 ^ 4) < 2 ^ 8 ∧ bitsOf ((ring.toNat + space.toNat * 2 ^ 4)) 3 0 = ring.toNat ∧ bitsOf ((ring.toNat + space.toNat * 2 ^ 4)) 5 4 = space.toNat := by
    have hn1 : ring.toNat < 16 := ring.isLt
    have hn2 : space.toNat < 4 := space.isLt
    clear hw hf
    generalize ring.toNat = n1 at hn1 ⊢
    generalize space.toNat = n2 at hn2 ⊢
    simp only [bitsOf]
    exact ⟨by omega, by omega, by omega⟩
  obtain ⟨z0, q_m, q_imm, q_fn8, q_seg, q_a, q_d, hb⟩ := packL_fields (show (0x0F : Nat) < 2 ^ 7 by decide) base.isLt b_fn8 seg.isLt a.isLt (show (0 : Nat) < 2 ^ 6 by decide)
  rw [hw] at z0 q_m q_imm q_fn8 q_seg q_a q_d hb
  have t_27_24 : bitsOf w 27 24 = ring.toNat := by rw [← bitsOf_bitsOf w 31 24 3 0 (by decide), q_fn8]; exact s_27_24
  have t_29_28 : bitsOf w 29 28 = space.toNat := by rw [← bitsOf_bitsOf w 31 24 5 4 (by decide), q_fn8]; exact s_29_28
  have ln1 : ring.toNat < 16 := ring.isLt
  have ln2 : space.toNat < 4 := space.isLt
  have r0 : (ring.toNat + space.toNat * 2 ^ 4) < 64 := by omega
  simp only [Nat.reducePow, Nat.reduceMul, Nat.zero_mul, Nat.add_zero] at *
  refine ⟨?_, ?_⟩
  · simp [decodeHelmWord, decodeLong, wMajor, wD, wA, wB, wFn, wSub, wX, wImm, zeroThen, bitsOf_bitsOf, bitOf_eq, z0, q_m, q_imm, q_fn8, q_seg, q_a, q_d, t_27_24, s_27_24, t_29_28, s_29_28, r0, checked_of hf]
  · simpa [helmBytes, bitOf_eq, z0] using hb

theorem wpInitAlloc (d : GReg) (a : GReg) (life : BitVec 4) (aexp : W16) (die : BitVec 2) (here : Bool) : Statement (.wpInitAlloc d a life aexp die here) := by
  refine ⟨fun w hf hw => ?_, fun w _ hw => by simp [strandWord] at hw⟩
  simp only [helmWord, Option.some.injEq] at hw
  obtain ⟨b_imm, s_47_32, s_63_51, s_49_48, s_50_50, s_63_48⟩ : (aexp.toNat + die.toNat * 2 ^ 16 + b2n here * 2 ^ 18) < 2 ^ 32 ∧ bitsOf ((aexp.toNat + die.toNat * 2 ^ 16 + b2n here * 2 ^ 18)) 15 0 = aexp.toNat ∧ bitsOf ((aexp.toNat + die.toNat * 2 ^ 16 + b2n here * 2 ^ 18)) 31 19 = 0 ∧ bitsOf ((aexp.toNat + die.toNat * 2 ^ 16 + b2n here * 2 ^ 18)) 17 16 = die.toNat ∧ bitsOf ((aexp.toNat + die.toNat * 2 ^ 16 + b2n here * 2 ^ 18)) 18 18 = b2n here ∧ bitsOf ((aexp.toNat + die.toNat * 2 ^ 16 + b2n here * 2 ^ 18)) 31 16 = die.toNat + b2n here * 4 := by
    have hn0 : aexp.toNat < 65536 := aexp.isLt
    have hn1 : die.toNat < 4 := die.isLt
    have hn2 : b2n here < 2 := b2n_lt _
    clear hw hf
    generalize aexp.toNat = n0 at hn0 ⊢
    generalize die.toNat = n1 at hn1 ⊢
    generalize b2n here = n2 at hn2 ⊢
    simp only [bitsOf]
    exact ⟨by omega, by omega, by omega, by omega, by omega, by omega⟩
  obtain ⟨z0, q_m, q_imm, q_fn8, q_seg, q_a, q_d, hb⟩ := packL_fields (show (0x10 : Nat) < 2 ^ 7 by decide) b_imm (show (0 : Nat) < 2 ^ 8 by decide) life.isLt a.isLt d.isLt
  rw [hw] at z0 q_m q_imm q_fn8 q_seg q_a q_d hb
  have t_47_32 : bitsOf w 47 32 = aexp.toNat := by rw [← bitsOf_bitsOf w 63 32 15 0 (by decide), q_imm]; exact s_47_32
  have t_63_51 : bitsOf w 63 51 = 0 := by rw [← bitsOf_bitsOf w 63 32 31 19 (by decide), q_imm]; exact s_63_51
  have t_49_48 : bitsOf w 49 48 = die.toNat := by rw [← bitsOf_bitsOf w 63 32 17 16 (by decide), q_imm]; exact s_49_48
  have t_50_50 : bitsOf w 50 50 = b2n here := by rw [← bitsOf_bitsOf w 63 32 18 18 (by decide), q_imm]; exact s_50_50
  have t_63_48 : bitsOf w 63 48 = die.toNat + b2n here * 4 := by rw [← bitsOf_bitsOf w 63 32 31 16 (by decide), q_imm]; exact s_63_48
  simp only [Nat.reducePow, Nat.reduceMul, Nat.zero_mul, Nat.add_zero] at *
  refine ⟨?_, ?_⟩
  · simp [decodeHelmWord, decodeLong, wMajor, wD, wA, wB, wFn, wSub, wX, wImm, zeroThen, bitsOf_bitsOf, bitOf_eq, z0, q_m, q_imm, q_fn8, q_seg, q_a, q_d, t_47_32, s_47_32, t_63_51, s_63_51, t_49_48, s_49_48, t_50_50, s_50_50, t_63_48, s_63_48, checked_of hf]
  · simpa [helmBytes, bitOf_eq, z0] using hb

theorem wpInitReset (d : GReg) (a : GReg) (aexp : W16) : Statement (.wpInitReset d a aexp) := by
  refine ⟨fun w hf hw => ?_, fun w _ hw => by simp [strandWord] at hw⟩
  simp only [helmWord, Option.some.injEq] at hw
  obtain ⟨b_imm, s_47_32, s_63_51, s_49_48, s_50_50, s_63_48⟩ : aexp.toNat < 2 ^ 32 ∧ bitsOf (aexp.toNat) 15 0 = aexp.toNat ∧ bitsOf (aexp.toNat) 31 19 = 0 ∧ bitsOf (aexp.toNat) 17 16 = 0 ∧ bitsOf (aexp.toNat) 18 18 = 0 ∧ bitsOf (aexp.toNat) 31 16 = 0 := by
    have hn0 : aexp.toNat < 65536 := aexp.isLt
    clear hw hf
    generalize aexp.toNat = n0 at hn0 ⊢
    simp only [bitsOf]
    exact ⟨by omega, by omega, by omega, by omega, by omega, by omega⟩
  obtain ⟨z0, q_m, q_imm, q_fn8, q_seg, q_a, q_d, hb⟩ := packL_fields (show (0x10 : Nat) < 2 ^ 7 by decide) (Nat.lt_of_lt_of_le aexp.isLt (by decide)) (show (1 : Nat) < 2 ^ 8 by decide) (show (0 : Nat) < 2 ^ 4 by decide) a.isLt d.isLt
  rw [hw] at z0 q_m q_imm q_fn8 q_seg q_a q_d hb
  have t_47_32 : bitsOf w 47 32 = aexp.toNat := by rw [← bitsOf_bitsOf w 63 32 15 0 (by decide), q_imm]; exact s_47_32
  have t_63_51 : bitsOf w 63 51 = 0 := by rw [← bitsOf_bitsOf w 63 32 31 19 (by decide), q_imm]; exact s_63_51
  have t_49_48 : bitsOf w 49 48 = 0 := by rw [← bitsOf_bitsOf w 63 32 17 16 (by decide), q_imm]; exact s_49_48
  have t_50_50 : bitsOf w 50 50 = 0 := by rw [← bitsOf_bitsOf w 63 32 18 18 (by decide), q_imm]; exact s_50_50
  have t_63_48 : bitsOf w 63 48 = 0 := by rw [← bitsOf_bitsOf w 63 32 31 16 (by decide), q_imm]; exact s_63_48
  refine ⟨?_, ?_⟩
  · simp [decodeHelmWord, decodeLong, wMajor, wD, wA, wB, wFn, wSub, wX, wImm, zeroThen, bitsOf_bitsOf, bitOf_eq, z0, q_m, q_imm, q_fn8, q_seg, q_a, q_d, t_47_32, s_47_32, t_63_51, s_63_51, t_49_48, s_49_48, t_50_50, s_50_50, t_63_48, s_63_48, checked_of hf]
  · simpa [helmBytes, bitOf_eq, z0] using hb

theorem wpInitFree (d : GReg) : Statement (.wpInitFree d) := by
  refine ⟨fun w hf hw => ?_, fun w _ hw => by simp [strandWord] at hw⟩
  simp only [helmWord, Option.some.injEq] at hw
  obtain ⟨b_imm, s_47_32, s_63_51, s_49_48, s_50_50, s_63_48⟩ : 0 < 2 ^ 32 ∧ bitsOf (0) 15 0 = 0 ∧ bitsOf (0) 31 19 = 0 ∧ bitsOf (0) 17 16 = 0 ∧ bitsOf (0) 18 18 = 0 ∧ bitsOf (0) 31 16 = 0 := by
    decide
  obtain ⟨z0, q_m, q_imm, q_fn8, q_seg, q_a, q_d, hb⟩ := packL_fields (show (0x10 : Nat) < 2 ^ 7 by decide) (show (0 : Nat) < 2 ^ 32 by decide) (show (2 : Nat) < 2 ^ 8 by decide) (show (0 : Nat) < 2 ^ 4 by decide) (show (0 : Nat) < 2 ^ 6 by decide) d.isLt
  rw [hw] at z0 q_m q_imm q_fn8 q_seg q_a q_d hb
  have t_47_32 : bitsOf w 47 32 = 0 := by rw [← bitsOf_bitsOf w 63 32 15 0 (by decide), q_imm]; exact s_47_32
  have t_63_51 : bitsOf w 63 51 = 0 := by rw [← bitsOf_bitsOf w 63 32 31 19 (by decide), q_imm]; exact s_63_51
  have t_49_48 : bitsOf w 49 48 = 0 := by rw [← bitsOf_bitsOf w 63 32 17 16 (by decide), q_imm]; exact s_49_48
  have t_50_50 : bitsOf w 50 50 = 0 := by rw [← bitsOf_bitsOf w 63 32 18 18 (by decide), q_imm]; exact s_50_50
  have t_63_48 : bitsOf w 63 48 = 0 := by rw [← bitsOf_bitsOf w 63 32 31 16 (by decide), q_imm]; exact s_63_48
  refine ⟨?_, ?_⟩
  · simp [decodeHelmWord, decodeLong, wMajor, wD, wA, wB, wFn, wSub, wX, wImm, zeroThen, bitsOf_bitsOf, bitOf_eq, z0, q_m, q_imm, q_fn8, q_seg, q_a, q_d, t_47_32, s_47_32, t_63_51, s_63_51, t_49_48, s_49_48, t_50_50, s_50_50, t_63_48, s_63_48, checked_of hf]
  · simpa [helmBytes, bitOf_eq, z0] using hb

theorem segBindLd (n : BitVec 4) (a : GReg) : Statement (.segBindLd n a) := by
  refine ⟨fun w hf hw => ?_, fun w _ hw => by simp [strandWord] at hw⟩
  simp only [helmWord, Option.some.injEq] at hw
  obtain ⟨b_imm, s_63_35, s_34_32⟩ : 0 < 2 ^ 32 ∧ bitsOf (0) 31 3 = 0 ∧ bitsOf (0) 2 0 = 0 := by
    decide
  obtain ⟨b_fn8, s_29_26, s_31_30, s_25_24⟩ : 0 < 2 ^ 8 ∧ bitsOf (0) 5 2 = 0 ∧ bitsOf (0) 7 6 = 0 ∧ bitsOf (0) 1 0 = 0 := by
    decide
  obtain ⟨z0, q_m, q_imm, q_fn8, q_seg, q_a, q_d, hb⟩ := packL_fields (show (0x11 : Nat) < 2 ^ 7 by decide) (show (0 : Nat) < 2 ^ 32 by decide) (show (0 : Nat) < 2 ^ 8 by decide) n.isLt a.isLt (show (0 : Nat) < 2 ^ 6 by decide)
  rw [hw] at z0 q_m q_imm q_fn8 q_seg q_a q_d hb
  have t_29_26 : bitsOf w 29 26 = 0 := by rw [← bitsOf_bitsOf w 31 24 5 2 (by decide), q_fn8]; exact s_29_26
  have t_31_30 : bitsOf w 31 30 = 0 := by rw [← bitsOf_bitsOf w 31 24 7 6 (by decide), q_fn8]; exact s_31_30
  have t_25_24 : bitsOf w 25 24 = 0 := by rw [← bitsOf_bitsOf w 31 24 1 0 (by decide), q_fn8]; exact s_25_24
  have t_63_35 : bitsOf w 63 35 = 0 := by rw [← bitsOf_bitsOf w 63 32 31 3 (by decide), q_imm]; exact s_63_35
  have t_34_32 : bitsOf w 34 32 = 0 := by rw [← bitsOf_bitsOf w 63 32 2 0 (by decide), q_imm]; exact s_34_32
  refine ⟨?_, ?_⟩
  · simp [decodeHelmWord, decodeLong, wMajor, wD, wA, wB, wFn, wSub, wX, wImm, zeroThen, bitsOf_bitsOf, bitOf_eq, z0, q_m, q_imm, q_fn8, q_seg, q_a, q_d, t_29_26, s_29_26, t_31_30, s_31_30, t_25_24, s_25_24, t_63_35, s_63_35, t_34_32, s_34_32, checked_of hf]
  · simpa [helmBytes, bitOf_eq, z0] using hb

theorem segBindNarrow (n : BitVec 4) (src : BitVec 4) (a : GReg) (keep : BitVec 3) : Statement (.segBindNarrow n src a keep) := by
  refine ⟨fun w hf hw => ?_, fun w _ hw => by simp [strandWord] at hw⟩
  simp only [helmWord, Option.some.injEq] at hw
  obtain ⟨b_imm, s_63_35, s_34_32⟩ : keep.toNat < 2 ^ 32 ∧ bitsOf (keep.toNat) 31 3 = 0 ∧ bitsOf (keep.toNat) 2 0 = keep.toNat := by
    have hn0 : keep.toNat < 8 := keep.isLt
    clear hw hf
    generalize keep.toNat = n0 at hn0 ⊢
    simp only [bitsOf]
    exact ⟨by omega, by omega, by omega⟩
  obtain ⟨b_fn8, s_29_26, s_31_30, s_25_24⟩ : (1 + src.toNat * 2 ^ 2) < 2 ^ 8 ∧ bitsOf ((1 + src.toNat * 2 ^ 2)) 5 2 = src.toNat ∧ bitsOf ((1 + src.toNat * 2 ^ 2)) 7 6 = 0 ∧ bitsOf ((1 + src.toNat * 2 ^ 2)) 1 0 = 1 := by
    have hn1 : src.toNat < 16 := src.isLt
    clear hw hf
    generalize src.toNat = n1 at hn1 ⊢
    simp only [bitsOf]
    exact ⟨by omega, by omega, by omega, by omega⟩
  obtain ⟨z0, q_m, q_imm, q_fn8, q_seg, q_a, q_d, hb⟩ := packL_fields (show (0x11 : Nat) < 2 ^ 7 by decide) (Nat.lt_of_lt_of_le keep.isLt (by decide)) b_fn8 n.isLt a.isLt (show (0 : Nat) < 2 ^ 6 by decide)
  rw [hw] at z0 q_m q_imm q_fn8 q_seg q_a q_d hb
  have t_29_26 : bitsOf w 29 26 = src.toNat := by rw [← bitsOf_bitsOf w 31 24 5 2 (by decide), q_fn8]; exact s_29_26
  have t_31_30 : bitsOf w 31 30 = 0 := by rw [← bitsOf_bitsOf w 31 24 7 6 (by decide), q_fn8]; exact s_31_30
  have t_25_24 : bitsOf w 25 24 = 1 := by rw [← bitsOf_bitsOf w 31 24 1 0 (by decide), q_fn8]; exact s_25_24
  have t_63_35 : bitsOf w 63 35 = 0 := by rw [← bitsOf_bitsOf w 63 32 31 3 (by decide), q_imm]; exact s_63_35
  have t_34_32 : bitsOf w 34 32 = keep.toNat := by rw [← bitsOf_bitsOf w 63 32 2 0 (by decide), q_imm]; exact s_34_32
  simp only [Nat.reducePow, Nat.reduceMul, Nat.zero_mul, Nat.add_zero] at *
  refine ⟨?_, ?_⟩
  · simp [decodeHelmWord, decodeLong, wMajor, wD, wA, wB, wFn, wSub, wX, wImm, zeroThen, bitsOf_bitsOf, bitOf_eq, z0, q_m, q_imm, q_fn8, q_seg, q_a, q_d, t_29_26, s_29_26, t_31_30, s_31_30, t_25_24, s_25_24, t_63_35, s_63_35, t_34_32, s_34_32, checked_of hf]
  · simpa [helmBytes, bitOf_eq, z0] using hb

theorem pgMap (d : GReg) (a : GReg) (dmask : BitVec 4) (large : Bool) : Statement (.pgMap d a dmask large) := by
  refine ⟨fun w hf hw => ?_, fun w _ hw => by simp [strandWord] at hw⟩
  simp only [helmWord, Option.some.injEq] at hw
  obtain ⟨b_fn8, s_27_24, s_28_28⟩ : (dmask.toNat + b2n large * 2 ^ 4) < 2 ^ 8 ∧ bitsOf ((dmask.toNat + b2n large * 2 ^ 4)) 3 0 = dmask.toNat ∧ bitsOf ((dmask.toNat + b2n large * 2 ^ 4)) 4 4 = b2n large := by
    have hn0 : dmask.toNat < 16 := dmask.isLt
    have hn1 : b2n large < 2 := b2n_lt _
    clear hw hf
    generalize dmask.toNat = n0 at hn0 ⊢
    generalize b2n large = n1 at hn1 ⊢
    simp only [bitsOf]
    exact ⟨by omega, by omega, by omega⟩
  obtain ⟨z0, q_m, q_imm, q_fn8, q_seg, q_a, q_d, hb⟩ := packL_fields (show (0x12 : Nat) < 2 ^ 7 by decide) (show (0 : Nat) < 2 ^ 32 by decide) b_fn8 (show (0 : Nat) < 2 ^ 4 by decide) a.isLt d.isLt
  rw [hw] at z0 q_m q_imm q_fn8 q_seg q_a q_d hb
  have t_27_24 : bitsOf w 27 24 = dmask.toNat := by rw [← bitsOf_bitsOf w 31 24 3 0 (by decide), q_fn8]; exact s_27_24
  have t_28_28 : bitsOf w 28 28 = b2n large := by rw [← bitsOf_bitsOf w 31 24 4 4 (by decide), q_fn8]; exact s_28_28
  have ln0 : dmask.toNat < 16 := dmask.isLt
  have ln1 : b2n large < 2 := b2n_lt _
  have r0 : (dmask.toNat + b2n large * 2 ^ 4) < 32 := by omega
  simp only [Nat.reducePow, Nat.reduceMul, Nat.zero_mul, Nat.add_zero] at *
  refine ⟨?_, ?_⟩
  · simp [decodeHelmWord, decodeLong, wMajor, wD, wA, wB, wFn, wSub, wX, wImm, zeroThen, bitsOf_bitsOf, bitOf_eq, z0, q_m, q_imm, q_fn8, q_seg, q_a, q_d, t_27_24, s_27_24, t_28_28, s_28_28, r0, checked_of hf]
  · simpa [helmBytes, bitOf_eq, z0] using hb

theorem callx (d : GReg) (idx : W32) : Statement (.callx d idx) := by
  refine ⟨fun w hf hw => ?_, fun w _ hw => by simp [strandWord] at hw⟩
  simp only [helmWord, Option.some.injEq] at hw
  obtain ⟨z0, q_m, q_imm, q_fn8, q_seg, q_a, q_d, hb⟩ := packL_fields (show (0x13 : Nat) < 2 ^ 7 by decide) idx.isLt (show (0 : Nat) < 2 ^ 8 by decide) (show (0 : Nat) < 2 ^ 4 by decide) (show (0 : Nat) < 2 ^ 6 by decide) d.isLt
  rw [hw] at z0 q_m q_imm q_fn8 q_seg q_a q_d hb
  refine ⟨?_, ?_⟩
  · simp [decodeHelmWord, decodeLong, wMajor, wD, wA, wB, wFn, wSub, wX, wImm, zeroThen, bitsOf_bitsOf, bitOf_eq, z0, q_m, q_imm, q_fn8, q_seg, q_a, q_d, checked_of hf]
  · simpa [helmBytes, bitOf_eq, z0] using hb

theorem lnkSet (a : GReg) (idx : W32) : Statement (.lnkSet a idx) := by
  refine ⟨fun w hf hw => ?_, fun w _ hw => by simp [strandWord] at hw⟩
  simp only [helmWord, Option.some.injEq] at hw
  obtain ⟨z0, q_m, q_imm, q_fn8, q_seg, q_a, q_d, hb⟩ := packL_fields (show (0x14 : Nat) < 2 ^ 7 by decide) idx.isLt (show (0 : Nat) < 2 ^ 8 by decide) (show (0 : Nat) < 2 ^ 4 by decide) a.isLt (show (0 : Nat) < 2 ^ 6 by decide)
  rw [hw] at z0 q_m q_imm q_fn8 q_seg q_a q_d hb
  refine ⟨?_, ?_⟩
  · simp [decodeHelmWord, decodeLong, wMajor, wD, wA, wB, wFn, wSub, wX, wImm, zeroThen, bitsOf_bitsOf, bitOf_eq, z0, q_m, q_imm, q_fn8, q_seg, q_a, q_d, checked_of hf]
  · simpa [helmBytes, bitOf_eq, z0] using hb

theorem fenceMk (cq : Bool) (ce : Bool) (mx : Bool) (done : Bool) (scope : BitVec 3) : Statement (.fenceMk cq ce mx done scope) := by
  refine ⟨fun w hf hw => ?_, fun w _ hw => by simp [strandWord] at hw⟩
  simp only [helmWord, Option.some.injEq] at hw
  obtain ⟨b_fn8, s_24_24, s_25_25, s_26_26, s_27_27, s_30_28, s_31_31⟩ : (b2n cq + b2n ce * 2 + b2n mx * 2 ^ 2 + b2n done * 2 ^ 3 + scope.toNat * 2 ^ 4) < 2 ^ 8 ∧ bitsOf ((b2n cq + b2n ce * 2 + b2n mx * 2 ^ 2 + b2n done * 2 ^ 3 + scope.toNat * 2 ^ 4)) 0 0 = b2n cq ∧ bitsOf ((b2n cq + b2n ce * 2 + b2n mx * 2 ^ 2 + b2n done * 2 ^ 3 + scope.toNat * 2 ^ 4)) 1 1 = b2n ce ∧ bitsOf ((b2n cq + b2n ce * 2 + b2n mx * 2 ^ 2 + b2n done * 2 ^ 3 + scope.toNat * 2 ^ 4)) 2 2 = b2n mx ∧ bitsOf ((b2n cq + b2n ce * 2 + b2n mx * 2 ^ 2 + b2n done * 2 ^ 3 + scope.toNat * 2 ^ 4)) 3 3 = b2n done ∧ bitsOf ((b2n cq + b2n ce * 2 + b2n mx * 2 ^ 2 + b2n done * 2 ^ 3 + scope.toNat * 2 ^ 4)) 6 4 = scope.toNat ∧ bitsOf ((b2n cq + b2n ce * 2 + b2n mx * 2 ^ 2 + b2n done * 2 ^ 3 + scope.toNat * 2 ^ 4)) 7 7 = 0 := by
    have hn0 : b2n cq < 2 := b2n_lt _
    have hn1 : b2n ce < 2 := b2n_lt _
    have hn2 : b2n mx < 2 := b2n_lt _
    have hn3 : b2n done < 2 := b2n_lt _
    have hn4 : scope.toNat < 8 := scope.isLt
    clear hw hf
    generalize b2n cq = n0 at hn0 ⊢
    generalize b2n ce = n1 at hn1 ⊢
    generalize b2n mx = n2 at hn2 ⊢
    generalize b2n done = n3 at hn3 ⊢
    generalize scope.toNat = n4 at hn4 ⊢
    simp only [bitsOf]
    exact ⟨by omega, by omega, by omega, by omega, by omega, by omega, by omega⟩
  obtain ⟨z0, q_m, q_imm, q_fn8, q_seg, q_a, q_d, hb⟩ := packL_fields (show (0x15 : Nat) < 2 ^ 7 by decide) (show (0 : Nat) < 2 ^ 32 by decide) b_fn8 (show (0 : Nat) < 2 ^ 4 by decide) (show (0 : Nat) < 2 ^ 6 by decide) (show (0 : Nat) < 2 ^ 6 by decide)
  rw [hw] at z0 q_m q_imm q_fn8 q_seg q_a q_d hb
  have t_24_24 : bitsOf w 24 24 = b2n cq := by rw [← bitsOf_bitsOf w 31 24 0 0 (by decide), q_fn8]; exact s_24_24
  have t_25_25 : bitsOf w 25 25 = b2n ce := by rw [← bitsOf_bitsOf w 31 24 1 1 (by decide), q_fn8]; exact s_25_25
  have t_26_26 : bitsOf w 26 26 = b2n mx := by rw [← bitsOf_bitsOf w 31 24 2 2 (by decide), q_fn8]; exact s_26_26
  have t_27_27 : bitsOf w 27 27 = b2n done := by rw [← bitsOf_bitsOf w 31 24 3 3 (by decide), q_fn8]; exact s_27_27
  have t_30_28 : bitsOf w 30 28 = scope.toNat := by rw [← bitsOf_bitsOf w 31 24 6 4 (by decide), q_fn8]; exact s_30_28
  have t_31_31 : bitsOf w 31 31 = 0 := by rw [← bitsOf_bitsOf w 31 24 7 7 (by decide), q_fn8]; exact s_31_31
  simp only [Nat.reducePow, Nat.reduceMul, Nat.zero_mul, Nat.add_zero] at *
  refine ⟨?_, ?_⟩
  · simp [decodeHelmWord, decodeLong, wMajor, wD, wA, wB, wFn, wSub, wX, wImm, zeroThen, bitsOf_bitsOf, bitOf_eq, z0, q_m, q_imm, q_fn8, q_seg, q_a, q_d, t_24_24, s_24_24, t_25_25, s_25_25, t_26_26, s_26_26, t_27_27, s_27_27, t_30_28, s_30_28, t_31_31, s_31_31, checked_of hf]
  · simpa [helmBytes, bitOf_eq, z0] using hb

theorem lLd (w : SW) : Statement (.lLd w) := strand (tag := 0) (op := 0x01) rfl rfl (by decide) (by decide) fun h => checked_of h

theorem lLdg (w : SW) : Statement (.lLdg w) := strand (tag := 0) (op := 0x02) rfl rfl (by decide) (by decide) fun h => checked_of h

theorem lGath (w : SW) : Statement (.lGath w) := strand (tag := 0) (op := 0x03) rfl rfl (by decide) (by decide) fun h => checked_of h

theorem lIcw (w : SW) : Statement (.lIcw w) := strand (tag := 0) (op := 0x08) rfl rfl (by decide) (by decide) fun h => checked_of h

theorem lRgWfill (w : SW) : Statement (.lRgWfill w) := strand (tag := 0) (op := 0x10) rfl rfl (by decide) (by decide) fun h => checked_of h

theorem lRgRelease (w : SW) : Statement (.lRgRelease w) := strand (tag := 0) (op := 0x11) rfl rfl (by decide) (by decide) fun h => checked_of h

theorem lRgStat (w : SW) : Statement (.lRgStat w) := strand (tag := 0) (op := 0x12) rfl rfl (by decide) (by decide) fun h => checked_of h

theorem sSt (w : SW) : Statement (.sSt w) := strand (tag := 2) (op := 0x01) rfl rfl (by decide) (by decide) fun h => checked_of h

theorem sStg (w : SW) : Statement (.sStg w) := strand (tag := 2) (op := 0x02) rfl rfl (by decide) (by decide) fun h => checked_of h

theorem sScat (w : SW) : Statement (.sScat w) := strand (tag := 2) (op := 0x03) rfl rfl (by decide) (by decide) fun h => checked_of h

theorem sIcw (w : SW) : Statement (.sIcw w) := strand (tag := 2) (op := 0x08) rfl rfl (by decide) (by decide) fun h => checked_of h

theorem sRgClaim (w : SW) : Statement (.sRgClaim w) := strand (tag := 2) (op := 0x10) rfl rfl (by decide) (by decide) fun h => checked_of h

theorem sRgCommit (w : SW) : Statement (.sRgCommit w) := strand (tag := 2) (op := 0x11) rfl rfl (by decide) (by decide) fun h => checked_of h

theorem sRgRelease (w : SW) : Statement (.sRgRelease w) := strand (tag := 2) (op := 0x12) rfl rfl (by decide) (by decide) fun h => checked_of h

theorem sRgEos (w : SW) : Statement (.sRgEos w) := strand (tag := 2) (op := 0x13) rfl rfl (by decide) (by decide) fun h => checked_of h

theorem sRgAbort (w : SW) : Statement (.sRgAbort w) := strand (tag := 2) (op := 0x14) rfl rfl (by decide) (by decide) fun h => checked_of h

theorem sRgStat (w : SW) : Statement (.sRgStat w) := strand (tag := 2) (op := 0x15) rfl rfl (by decide) (by decide) fun h => checked_of h

theorem vadd (w : SW) : Statement (.vadd w) := strand (tag := 1) (op := 0x00) rfl rfl (by decide) (by decide) fun h => checked_of h

theorem vsub (w : SW) : Statement (.vsub w) := strand (tag := 1) (op := 0x01) rfl rfl (by decide) (by decide) fun h => checked_of h

theorem vmul (w : SW) : Statement (.vmul w) := strand (tag := 1) (op := 0x02) rfl rfl (by decide) (by decide) fun h => checked_of h

theorem vmulh (w : SW) : Statement (.vmulh w) := strand (tag := 1) (op := 0x03) rfl rfl (by decide) (by decide) fun h => checked_of h

theorem vmad (w : SW) : Statement (.vmad w) := strand (tag := 1) (op := 0x04) rfl rfl (by decide) (by decide) fun h => checked_of h

theorem vand (w : SW) : Statement (.vand w) := strand (tag := 1) (op := 0x05) rfl rfl (by decide) (by decide) fun h => checked_of h

theorem vor (w : SW) : Statement (.vor w) := strand (tag := 1) (op := 0x06) rfl rfl (by decide) (by decide) fun h => checked_of h

theorem vxor (w : SW) : Statement (.vxor w) := strand (tag := 1) (op := 0x07) rfl rfl (by decide) (by decide) fun h => checked_of h

theorem vshl (w : SW) : Statement (.vshl w) := strand (tag := 1) (op := 0x08) rfl rfl (by decide) (by decide) fun h => checked_of h

theorem vshr (w : SW) : Statement (.vshr w) := strand (tag := 1) (op := 0x09) rfl rfl (by decide) (by decide) fun h => checked_of h

theorem vsha (w : SW) : Statement (.vsha w) := strand (tag := 1) (op := 0x0A) rfl rfl (by decide) (by decide) fun h => checked_of h

theorem vmin (w : SW) : Statement (.vmin w) := strand (tag := 1) (op := 0x0B) rfl rfl (by decide) (by decide) fun h => checked_of h

theorem vmax (w : SW) : Statement (.vmax w) := strand (tag := 1) (op := 0x0C) rfl rfl (by decide) (by decide) fun h => checked_of h

theorem vsel (w : SW) : Statement (.vsel w) := strand (tag := 1) (op := 0x0D) rfl rfl (by decide) (by decide) fun h => checked_of h

theorem vmov (w : SW) : Statement (.vmov w) := strand (tag := 1) (op := 0x0E) rfl rfl (by decide) (by decide) fun h => by
  have k : (w.b.toNat == 0 : Bool) = true := by
    have k := h
    simp only [Instr.wellFormed, Instr.illFormed, vmovIllFormed, Option.isNone_iff_eq_none, Option.or_eq_none_iff, need_eq_none] at k
    simpa using k.1.1.1
  simp only [strandOp, eq_of_beq k]
  exact checked_of h

theorem vmovI (w : SW) : Statement (.vmovI w) := strand (tag := 1) (op := 0x0E) rfl rfl (by decide) (by decide) fun h => by
  have k : (w.b.toNat == 1 : Bool) = true := by
    have k := h
    simp only [Instr.wellFormed, Instr.illFormed, vmovIllFormed, Option.isNone_iff_eq_none, Option.or_eq_none_iff, need_eq_none] at k
    simpa using k.1.1.1
  simp only [strandOp, eq_of_beq k]
  exact checked_of h

theorem vmovH (w : SW) : Statement (.vmovH w) := strand (tag := 1) (op := 0x0E) rfl rfl (by decide) (by decide) fun h => by
  have k : (w.b.toNat == 2 : Bool) = true := by
    have k := h
    simp only [Instr.wellFormed, Instr.illFormed, vmovIllFormed, Option.isNone_iff_eq_none, Option.or_eq_none_iff, need_eq_none] at k
    simpa using k.1.1.1
  simp only [strandOp, eq_of_beq k]
  exact checked_of h

theorem vmovL (w : SW) : Statement (.vmovL w) := strand (tag := 1) (op := 0x0E) rfl rfl (by decide) (by decide) fun h => by
  have k : (w.b.toNat == 3 : Bool) = true := by
    have k := h
    simp only [Instr.wellFormed, Instr.illFormed, vmovIllFormed, Option.isNone_iff_eq_none, Option.or_eq_none_iff, need_eq_none] at k
    simpa using k.1.1.1
  simp only [strandOp, eq_of_beq k]
  exact checked_of h

theorem vicmp (w : SW) : Statement (.vicmp w) := strand (tag := 1) (op := 0x0F) rfl rfl (by decide) (by decide) fun h => checked_of h

theorem vfadd (w : SW) : Statement (.vfadd w) := strand (tag := 1) (op := 0x10) rfl rfl (by decide) (by decide) fun h => checked_of h

theorem vfsub (w : SW) : Statement (.vfsub w) := strand (tag := 1) (op := 0x11) rfl rfl (by decide) (by decide) fun h => checked_of h

theorem vfmul (w : SW) : Statement (.vfmul w) := strand (tag := 1) (op := 0x12) rfl rfl (by decide) (by decide) fun h => checked_of h

theorem vfma (w : SW) : Statement (.vfma w) := strand (tag := 1) (op := 0x13) rfl rfl (by decide) (by decide) fun h => checked_of h

theorem vfmin (w : SW) : Statement (.vfmin w) := strand (tag := 1) (op := 0x14) rfl rfl (by decide) (by decide) fun h => checked_of h

theorem vfmax (w : SW) : Statement (.vfmax w) := strand (tag := 1) (op := 0x15) rfl rfl (by decide) (by decide) fun h => checked_of h

theorem vfrcp (w : SW) : Statement (.vfrcp w) := strand (tag := 1) (op := 0x16) rfl rfl (by decide) (by decide) fun h => checked_of h

theorem vfrsq (w : SW) : Statement (.vfrsq w) := strand (tag := 1) (op := 0x17) rfl rfl (by decide) (by decide) fun h => checked_of h

theorem vfexp2 (w : SW) : Statement (.vfexp2 w) := strand (tag := 1) (op := 0x18) rfl rfl (by decide) (by decide) fun h => checked_of h

theorem vflog2 (w : SW) : Statement (.vflog2 w) := strand (tag := 1) (op := 0x19) rfl rfl (by decide) (by decide) fun h => checked_of h

theorem vfcmp (w : SW) : Statement (.vfcmp w) := strand (tag := 1) (op := 0x1A) rfl rfl (by decide) (by decide) fun h => checked_of h

theorem vcvt (w : SW) : Statement (.vcvt w) := strand (tag := 1) (op := 0x1B) rfl rfl (by decide) (by decide) fun h => by
  have k : (!w.ext.isSome : Bool) = true := by
    have k := h
    simp only [Instr.wellFormed, Instr.illFormed, vcvtShortIllFormed, Option.isNone_iff_eq_none, Option.or_eq_none_iff, need_eq_none] at k
    have := k.1; simp at this; simp [this]
  simp only [strandOp, show w.ext.isSome = false by simpa using k, Bool.false_eq_true, if_false]
  exact checked_of h

theorem vcvtLong (w : SW) : Statement (.vcvtLong w) := strand (tag := 1) (op := 0x1B) rfl rfl (by decide) (by decide) fun h => by
  have k : (w.ext.isSome : Bool) = true := by
    have k := h
    simp only [Instr.wellFormed, Instr.illFormed, vcvtLongIllFormed, Option.isNone_iff_eq_none, Option.or_eq_none_iff, need_eq_none] at k
    simpa using k.1.1.1.1
  simp only [strandOp, k, if_true]
  exact checked_of h

theorem vpack (w : SW) : Statement (.vpack w) := strand (tag := 1) (op := 0x1C) rfl rfl (by decide) (by decide) fun h => checked_of h

theorem vunpk (w : SW) : Statement (.vunpk w) := strand (tag := 1) (op := 0x1D) rfl rfl (by decide) (by decide) fun h => checked_of h

theorem vshuf (w : SW) : Statement (.vshuf w) := strand (tag := 1) (op := 0x1E) rfl rfl (by decide) (by decide) fun h => by
  have k : (bitsOf w.imm.toNat 7 6 == 0 : Bool) = true := by
    have k := h
    simp only [Instr.wellFormed, Instr.illFormed, vshufIllFormed, Option.isNone_iff_eq_none, Option.or_eq_none_iff, need_eq_none] at k
    simpa using k.1.1.1
  simp only [strandOp, eq_of_beq k]
  exact checked_of h

theorem vshufXor (w : SW) : Statement (.vshufXor w) := strand (tag := 1) (op := 0x1E) rfl rfl (by decide) (by decide) fun h => by
  have k : (bitsOf w.imm.toNat 7 6 == 1 : Bool) = true := by
    have k := h
    simp only [Instr.wellFormed, Instr.illFormed, vshufIllFormed, Option.isNone_iff_eq_none, Option.or_eq_none_iff, need_eq_none] at k
    simpa using k.1.1.1
  simp only [strandOp, eq_of_beq k]
  exact checked_of h

theorem vshufRot (w : SW) : Statement (.vshufRot w) := strand (tag := 1) (op := 0x1E) rfl rfl (by decide) (by decide) fun h => by
  have k : (bitsOf w.imm.toNat 7 6 == 2 : Bool) = true := by
    have k := h
    simp only [Instr.wellFormed, Instr.illFormed, vshufIllFormed, Option.isNone_iff_eq_none, Option.or_eq_none_iff, need_eq_none] at k
    simpa using k.1.1.1
  simp only [strandOp, eq_of_beq k]
  exact checked_of h

theorem vbcast (w : SW) : Statement (.vbcast w) := strand (tag := 1) (op := 0x1F) rfl rfl (by decide) (by decide) fun h => by
  have k : (decide (w.b.toNat ≤ 63) : Bool) = true := by
    have k := h
    simp only [Instr.wellFormed, Instr.illFormed, vbcastIllFormed, Option.isNone_iff_eq_none, Option.or_eq_none_iff, need_eq_none] at k
    simpa using k.1.1.1
  simp only [strandOp, of_decide_eq_true k, if_true]
  exact checked_of h

theorem vbcastY (w : SW) : Statement (.vbcastY w) := strand (tag := 1) (op := 0x1F) rfl rfl (by decide) (by decide) fun h => by
  have k : (decide (¬ w.b.toNat ≤ 63) : Bool) = true := by
    have k := h
    simp only [Instr.wellFormed, Instr.illFormed, vbcastIllFormed, Option.isNone_iff_eq_none, Option.or_eq_none_iff, need_eq_none] at k
    have := k.1; simp at this; simp; omega
  simp only [strandOp, if_neg (of_decide_eq_true k)]
  exact checked_of h

theorem vred (w : SW) : Statement (.vred w) := strand (tag := 1) (op := 0x20) rfl rfl (by decide) (by decide) fun h => checked_of h

theorem vscan (w : SW) : Statement (.vscan w) := strand (tag := 1) (op := 0x21) rfl rfl (by decide) (by decide) fun h => checked_of h

theorem vballot (w : SW) : Statement (.vballot w) := strand (tag := 1) (op := 0x22) rfl rfl (by decide) (by decide) fun h => checked_of h

theorem vkey (w : SW) : Statement (.vkey w) := strand (tag := 1) (op := 0x23) rfl rfl (by decide) (by decide) fun h => checked_of h

theorem mop (w : SW) : Statement (.mop w) := strand (tag := 1) (op := 0x24) rfl rfl (by decide) (by decide) fun h => checked_of h

theorem cPsend (w : SW) : Statement (.cPsend w) := strand (tag := 1) (op := 0x28) rfl rfl (by decide) (by decide) fun h => checked_of h

theorem mxGang (w : SW) : Statement (.mxGang w) := strand (tag := 1) (op := 0x30) rfl rfl (by decide) (by decide) fun h => checked_of h

theorem mxLdb (w : SW) : Statement (.mxLdb w) := strand (tag := 1) (op := 0x31) rfl rfl (by decide) (by decide) fun h => checked_of h

theorem mxMma (w : SW) : Statement (.mxMma w) := strand (tag := 1) (op := 0x32) rfl rfl (by decide) (by decide) fun h => checked_of h

theorem mxMmas (w : SW) : Statement (.mxMmas w) := strand (tag := 1) (op := 0x33) rfl rfl (by decide) (by decide) fun h => checked_of h

theorem mxGmma (w : SW) : Statement (.mxGmma w) := strand (tag := 1) (op := 0x34) rfl rfl (by decide) (by decide) fun h => checked_of h

theorem mxZero (w : SW) : Statement (.mxZero w) := strand (tag := 1) (op := 0x35) rfl rfl (by decide) (by decide) fun h => checked_of h

theorem mxLdacc (w : SW) : Statement (.mxLdacc w) := strand (tag := 1) (op := 0x36) rfl rfl (by decide) (by decide) fun h => checked_of h

theorem mxStacc (w : SW) : Statement (.mxStacc w) := strand (tag := 1) (op := 0x37) rfl rfl (by decide) (by decide) fun h => checked_of h

theorem mxRstep (w : SW) : Statement (.mxRstep w) := strand (tag := 1) (op := 0x38) rfl rfl (by decide) (by decide) fun h => checked_of h

theorem mxRsave (w : SW) : Statement (.mxRsave w) := strand (tag := 1) (op := 0x39) rfl rfl (by decide) (by decide) fun h => checked_of h

theorem mxRload (w : SW) : Statement (.mxRload w) := strand (tag := 1) (op := 0x3A) rfl rfl (by decide) (by decide) fun h => checked_of h

theorem xNop (w : SW) : Statement (.xNop w) := strand (tag := 3) (op := 0x00) rfl rfl (by decide) (by decide) fun h => checked_of h

theorem xSync (w : SW) : Statement (.xSync w) := strand (tag := 3) (op := 0x01) rfl rfl (by decide) (by decide) fun h => checked_of h

theorem xEnd (w : SW) : Statement (.xEnd w) := strand (tag := 3) (op := 0x02) rfl rfl (by decide) (by decide) fun h => checked_of h

theorem xWparr (w : SW) : Statement (.xWparr w) := strand (tag := 3) (op := 0x03) rfl rfl (by decide) (by decide) fun h => checked_of h

theorem xWpwait (w : SW) : Statement (.xWpwait w) := strand (tag := 3) (op := 0x04) rfl rfl (by decide) (by decide) fun h => checked_of h

theorem unassignedHelmWord : Statement (.unassignedHelmWord) := noWord rfl rfl

theorem unassignedStrandWord (beyond : Bool) : Statement (.unassignedStrandWord beyond) := noWord rfl rfl

theorem cqEntryStart (team : Nat) (grp : Nat) (eng : Eng) : Statement (.cqEntryStart team grp eng) := noWord rfl rfl

theorem cqEntryRetire (team : Nat) : Statement (.cqEntryRetire team) := noWord rfl rfl

theorem eosPost (team : Nat) (grp : Nat) : Statement (.eosPost team grp) := noWord rfl rfl

theorem markPost (team : Nat) (grp : Nat) : Statement (.markPost team grp) := noWord rfl rfl

theorem splitClose (team : Nat) (grp : Nat) : Statement (.splitClose team grp) := noWord rfl rfl

theorem groupDeadlock (team : Nat) (grp : Nat) : Statement (.groupDeadlock team grp) := noWord rfl rfl

theorem engineHalt (team : Nat) (grp : Nat) (eng : Eng) : Statement (.engineHalt team grp eng) := noWord rfl rfl

theorem vectorEntry (team : Nat) : Statement (.vectorEntry team) := noWord rfl rfl

theorem copyCommandStart (bay : Nat) (ch : Nat) : Statement (.copyCommandStart bay ch) := noWord rfl rfl

theorem copySectorComplete (bay : Nat) (ch : Nat) (sector : Nat) : Statement (.copySectorComplete bay ch sector) := noWord rfl rfl

theorem expertCountHalving (die : Nat) : Statement (.expertCountHalving die) := noWord rfl rfl

theorem copyCommandEnd (bay : Nat) (ch : Nat) : Statement (.copyCommandEnd bay ch) := noWord rfl rfl

theorem collPhaseWaitEnd (bay : Nat) (ch : Nat) : Statement (.collPhaseWaitEnd bay ch) := noWord rfl rfl

theorem gangRendezvous (team : Nat) (grp : Nat) : Statement (.gangRendezvous team grp) := noWord rfl rfl

theorem matrixOpStart (bay : Nat) : Statement (.matrixOpStart bay) := noWord rfl rfl

theorem matrixOpComplete (bay : Nat) : Statement (.matrixOpComplete bay) := noWord rfl rfl

theorem waypointArrival (n : Nat) : Statement (.waypointArrival n) := noWord rfl rfl

theorem waiterRetest (die : Nat) : Statement (.waiterRetest die) := noWord rfl rfl

theorem writeTokenTransfer (block : Nat) (holder : TokenHolder) : Statement (.writeTokenTransfer block holder) := noWord rfl rfl

theorem fenceScGrant (team : Nat) : Statement (.fenceScGrant team) := noWord rfl rfl

theorem poolFill (n : Nat) : Statement (.poolFill n) := noWord rfl rfl

theorem tlbPrefetch (die : Nat) (dctx : Nat) (va : Nat) : Statement (.tlbPrefetch die dctx va) := noWord rfl rfl

theorem nestDispatch (queue : Nat) : Statement (.nestDispatch queue) := noWord rfl rfl

theorem teamPlacement : Statement (.teamPlacement) := noWord rfl rfl

theorem teamDeschedule (team : Nat) : Statement (.teamDeschedule team) := noWord rfl rfl

theorem teamResume (team : Nat) : Statement (.teamResume team) := noWord rfl rfl

theorem preemptionRequest (team : Nat) : Statement (.preemptionRequest team) := noWord rfl rfl

theorem nodeSwapOut (team : Nat) : Statement (.nodeSwapOut team) := noWord rfl rfl

theorem preemptionDeadline (team : Nat) : Statement (.preemptionDeadline team) := noWord rfl rfl

theorem nestCompletion (nid : Nat) : Statement (.nestCompletion nid) := noWord rfl rfl

theorem bayRetirement (bay : Nat) : Statement (.bayRetirement bay) := noWord rfl rfl

theorem faultRecordPost : Statement (.faultRecordPost) := noWord rfl rfl

theorem mboxStatus : Statement (.mboxStatus) := noWord rfl rfl

theorem mboxRetest (r : BringUp) : Statement (.mboxRetest r) := noWord rfl rfl

theorem mboxRouteSet : Statement (.mboxRouteSet) := noWord rfl rfl

theorem mboxRouteGet : Statement (.mboxRouteGet) := noWord rfl rfl

theorem mboxTeamEnd : Statement (.mboxTeamEnd) := noWord rfl rfl

theorem reldbWrite (dctx : Nat) (tid : W64) : Statement (.reldbWrite dctx tid) := noWord rfl rfl

theorem poolpushWrite (die : Nat) (pa : W64) : Statement (.poolpushWrite die pa) := noWord rfl rfl

theorem fqconsWrite (v : W64) : Statement (.fqconsWrite v) := noWord rfl rfl

theorem lqpriWrite (queue : Nat) (v : W64) : Statement (.lqpriWrite queue v) := noWord rfl rfl

theorem dctbaseWrite (v : W64) : Statement (.dctbaseWrite v) := noWord rfl rfl

theorem secfgWrite (firmware : Bool) (die : Nat) (v : W64) : Statement (.secfgWrite firmware die v) := noWord rfl rfl

theorem registerWrite (host : Bool) (off : Nat) (v : W64) : Statement (.registerWrite host off v) := noWord rfl rfl

theorem moduleReset (r : BringUp) : Statement (.moduleReset r) := noWord rfl rfl

theorem hostCxlMemAccess (write : Bool) (sync : Bool) (pa : Nat) (data : List Byte) : Statement (.hostCxlMemAccess write sync pa data) := noWord rfl rfl

theorem cxlCacheSnoop (write : Bool) (sync : Bool) (pa : Nat) (data : List Byte) : Statement (.cxlCacheSnoop write sync pa data) := noWord rfl rfl

theorem peerRequest (node : Nat) (write : Bool) (pa : Nat) (data : List Byte) : Statement (.peerRequest node write pa data) := noWord rfl rfl

theorem rhumbFlitReceive (link : Nat) (flit : List Byte) : Statement (.rhumbFlitReceive link flit) := noWord rfl rfl

theorem linkDown (link : Nat) : Statement (.linkDown link) := noWord rfl rfl

theorem laneSpareSwitch (link : Nat) (lane : Nat) : Statement (.laneSpareSwitch link lane) := noWord rfl rfl

theorem linkRetrainComplete (link : Nat) : Statement (.linkRetrainComplete link) := noWord rfl rfl

theorem peerResponseTimeout (node : Nat) : Statement (.peerResponseTimeout node) := noWord rfl rfl

theorem monitorReport (e : HealthEntry) : Statement (.monitorReport e) := noWord rfl rfl

theorem thresholdCrossing (e : HealthEntry) (unit : RepairUnit) : Statement (.thresholdCrossing e unit) := noWord rfl rfl

theorem dieDegradeOut (die : Nat) : Statement (.dieDegradeOut die) := noWord rfl rfl

theorem dieEdgeFailure (edge : Nat) : Statement (.dieEdgeFailure edge) := noWord rfl rfl

theorem thermalClockStep (bay : Nat) (temp : Nat) : Statement (.thermalClockStep bay temp) := noWord rfl rfl

theorem thermalStop : Statement (.thermalStop) := noWord rfl rfl

theorem accessPerformed (team : Nat) (grp : Nat) (path : BitVec 2) (lanes : W64) : Statement (.accessPerformed team grp path lanes) := noWord rfl rfl

theorem contextDestruction (dctx : Nat) : Statement (.contextDestruction dctx) := noWord rfl rfl

theorem doeSpdmRequest (msg : List Byte) : Statement (.doeSpdmRequest msg) := noWord rfl rfl

theorem junctionCooling (bay : Nat) (temp : Nat) : Statement (.junctionCooling bay temp) := noWord rfl rfl

end Sys2Proof.Laws.RoundTrip
end

