-- ==== Sys2Proof/Machine/Loader.lean ====
section
/-! DEFINITION. Object files and the portable form: what the loader and Binnacle check, the relocation of text, the entry an object
gets in the object table, and what a hyperblock of Zwibel text computes (16_code.md R413 to R425). The part runs none of this: it is
the software through which text reaches it. -/

namespace Sys2Proof.Machine

/-! ### The file (R413) -/

/-- Why the loader rejects an object (R416, R425). -/
inductive LoadError where
  /-- A section reaches beyond the file. -/
  | truncated
  | magic
  | version
  | reservedBit
  | revision
  | need
  | noKernelNeeds
  /-- NBLK or ENTRYOFF outside the range of R413. -/
  | kernelFields
  /-- Helm text off offset 0, or strand text off a multiple of 64. -/
  | placement
  | format
  | blockTable
  | relocation
  | segmentNumber
  /-- Zwibel text that Binnacle rejects (R423). -/
  | zwibel
deriving DecidableEq, Repr

def loadNeed (ok : Bool) (e : LoadError) : Except LoadError Unit := if ok then .ok () else .error e

/-- The 64-byte header. -/
structure SkoHeader where
  magic : Nat
  version : Nat
  mmrev : Nat
  wcode : Nat
  nblk : Nat
  tiles : Nat
  scratch : Nat
  landing : Nat
  cellar : Nat
  reqfmt : Nat
  entryOff : Nat
  /-- Every must-be-0 bit is 0. -/
  zeros : Bool
deriving DecidableEq, Repr

def skoHeader (w : Nat) : SkoHeader :=
  { magic := bitsOf w 31 0, version := bitsOf w 47 32, mmrev := bitsOf w 51 48, wcode := bitsOf w 53 52, nblk := bitsOf w 56 54
    tiles := bitsOf w 60 57, scratch := bitsOf w 71 64, landing := bitsOf w 76 72, cellar := bitsOf w 88 80, reqfmt := bitsOf w 127 96
    entryOff := bitsOf w 191 160
    zeros := bitsOf w 511 192 == 0 && bitsOf w 159 128 == 0 && bitsOf w 95 89 == 0 && bitsOf w 79 77 == 0 && bitsOf w 63 61 == 0 }

/-- R64, R220, R246, R413 and R416: the checks on the header. -/
def SkoHeader.check (h : SkoHeader) : Except LoadError Unit := do
  loadNeed (h.magic == 0x534B4F00) .magic
  loadNeed (h.version == 1) .version
  loadNeed h.zeros .reservedBit
  loadNeed (decide (h.mmrev ≤ 1)) .revision
  loadNeed (decide (h.scratch + h.landing ≤ 48) && decide (h.landing ≤ 16) && decide (h.cellar ≤ 256) && h.tiles % 2 == 0 &&
    decide (h.tiles ≤ 8)) .need
  loadNeed (h.wcode != 3 || (h.tiles == 0 && h.scratch == 0 && h.landing == 0 && h.cellar == 0)) .noKernelNeeds
  loadNeed (!bitOf h.reqfmt 0x0F && bitsOf h.reqfmt 0x1F 0x13 == 0) .format

/-- R413: the ranges of the kernel's fields. -/
def SkoHeader.formed (h : SkoHeader) : Bool :=
  if h.wcode = 3 then h.nblk == 0 && h.entryOff == 0 else decide (1 ≤ h.nblk) && decide (h.nblk ≤ 7)

/-- An entry of the section directory, with its bytes. -/
structure Section where
  bytes : List Byte
  /-- Offset in the segment image that receives it. -/
  at' : Nat
deriving DecidableEq, Repr

def skoSection (file : List Byte) (i : Nat) : Except LoadError Section :=
  let e := leNat ((file.drop (64 + 16 * i)).take 16)
  let bs := (file.drop (bitsOf e 63 0)).take (bitsOf e 95 64)
  if bs.length = bitsOf e 95 64 then .ok { bytes := bs, at' := bitsOf e 127 96 } else .error .truncated

/-- The section's bytes as records of `n` bytes. -/
def records (n : Nat) (bs : List Byte) : List Nat :=
  (List.range (bs.length / n)).map fun i => leNat ((bs.drop (n * i)).take n)

/-- Offsets of the heads of words, from `off` on, in `bs`; `len` gives the length of the word at the front. -/
def headsFrom (len : List Byte → Nat) : Nat → Nat → List Byte → List Nat
  | 0, _, _ => []
  | _, _, [] => []
  | fuel + 1, off, bs => off :: headsFrom len fuel (off + len bs) (bs.drop (len bs))

def helmHeads (bs : List Byte) : List Nat := headsFrom (fun x => helmBytes (leNat (x.take 4))) bs.length 0 bs
def strandHeads (s : Section) : List Nat := headsFrom (fun x => strandBytes (leNat (x.take 6))) s.bytes.length s.at' s.bytes

/-! ### Block table, declarations and relocations (R414, R415) -/

/-- R414, R416: an entry names the head of a strand word. -/
def blockEntryOk (strand : Section) (e : Nat) : Bool :=
  bitsOf e 63 33 == 0 && (strandHeads strand).contains (bitsOf e 31 0)

/-- A block-table entry: the seg0 offset of the block's first word, and SPLIT. -/
def blockRecord (e : Nat) : Nat × Bool := (bitsOf e 31 0, bitOf e 32)

/-- R414: what a symbol names. -/
inductive SymbolKind where
  | helmFunction
  | block
  | data
  | kernel
deriving DecidableEq, Repr

/-- R414: a symbol; its value is an offset in its segment. -/
structure Symbol where
  name : List Byte
  value : Nat
  kind : SymbolKind
  isGlobal : Bool
deriving DecidableEq, Repr

/-- The NUL-terminated name at an offset of a section. -/
def nameAt (bs : List Byte) (off : Nat) : List Byte := (bs.drop off).takeWhile fun b => b != 0

def symbolKind (k : Nat) : Option SymbolKind :=
  match k with
  | 0 => some .helmFunction
  | 1 => some .block
  | 2 => some .data
  | 3 => some .kernel
  | _ => none

def symbolOf (bs : List Byte) (e : Nat) : Except LoadError Symbol :=
  match symbolKind (bitsOf e 71 64) with
  | some k => if bitsOf e 127 73 = 0 then .ok { name := nameAt bs (bitsOf e 31 0), value := bitsOf e 63 32, kind := k, isGlobal := bitOf e 72 }
              else .error .reservedBit
  | none => .error .reservedBit

/-- R414: a call word, the frame size of its function, and the saved registers s0 to s19 as a mask. -/
structure CallSite where
  off : Nat
  frame : Nat
  saved : BitVec 20
deriving DecidableEq, Repr

def callSiteOf (e : Nat) : Except LoadError CallSite :=
  if bitsOf e 127 84 = 0 then .ok { off := bitsOf e 31 0, frame := bitsOf e 63 32, saved := BitVec.ofNat 20 (bitsOf e 83 64) }
  else .error .reservedBit

/-- R415: an import, by its name. -/
def importOf (bs : List Byte) (e : Nat) : Except LoadError (List Byte) :=
  if bitsOf e 127 32 = 0 then .ok (nameAt bs (bitsOf e 31 0)) else .error .reservedBit

/-- R415: a segment declaration; the number is none for the loader's choice. -/
structure SegDecl where
  name : List Byte
  number : Option Nat
  size : Nat
deriving DecidableEq, Repr

def segDecl (bs : List Byte) (e : Nat) : Except LoadError SegDecl := do
  loadNeed (bitsOf e 127 96 == 0 && bitsOf e 63 40 == 0) .reservedBit
  let n := bitsOf e 39 32
  loadNeed (n == 0xFF || (decide (5 ≤ n) && decide (n ≤ 14))) .segmentNumber
  pure { name := nameAt bs (bitsOf e 31 0), number := if n = 0xFF then none else some n, size := bitsOf e 95 64 }

/-- The numbers of the declared segments: fixed ones as declared, the others the lowest numbers from 5 to 14 that are free. -/
def segNumbers (fixed : List Nat) : List (Option Nat) → Nat → List Nat
  | [], _ => []
  | some n :: ds, used => n :: segNumbers fixed ds used
  | none :: ds, used =>
    let free := (List.range 15).filter fun n => decide (5 ≤ n) && !fixed.contains n
    free.getD used 0 :: segNumbers fixed ds (used + 1)

structure Reloc where
  index : Nat
  ext : Bool
  cls : Nat
  off : Nat
deriving DecidableEq, Repr

def relocOf (e : Nat) : Except LoadError Reloc := do
  loadNeed (bitsOf e 47 35 == 0 && decide (bitsOf e 33 32 ≤ 1)) .relocation
  pure { index := bitsOf e 63 48, ext := bitOf e 34, cls := bitsOf e 33 32, off := bitsOf e 31 0 }

/-- R56, R416: the record names a word of the kind its class writes, and an index within its table. -/
def Reloc.ok (r : Reloc) (helm strand : Section) (imports decls : Nat) : Bool :=
  let w := leNat ((helm.bytes.drop r.off).take 8)
  let long := (helmHeads helm.bytes).contains r.off && bitOf w 0
  if r.cls = 0 then !r.ext && long && (wMajor w == 0x13 || wMajor w == 0x14) && decide (r.index < imports)
  else decide (r.index < decls) &&
    (if r.ext then
      -- the word before it is the head of a long word
      decide (strand.at' + 6 ≤ r.off) && (strandHeads strand).contains (r.off - 6) && !(strandHeads strand).contains r.off &&
        decide (r.off + 6 ≤ strand.at' + strand.bytes.length)
    else long)

/-- The bytes with the field [hi:lo] of the `n`-byte word at `off` set. -/
def putField (bs : List Byte) (off n hi lo v : Nat) : List Byte :=
  let w := leNat ((bs.drop off).take n)
  let w' := w - bitsOf w hi lo * 2 ^ lo + v % 2 ^ (hi + 1 - lo) * 2 ^ lo
  bs.take off ++ leBytes n w' ++ bs.drop (off + n)

/-- R415: the field that the loader writes. -/
def Reloc.write (r : Reloc) (numbers : List Nat) (x : Section × Section) : Section × Section :=
  let n := numbers.getD r.index 0
  if r.cls = 0 then ({ x.1 with bytes := putField x.1.bytes r.off 8 63 32 r.index }, x.2)
  else if r.ext then (x.1, { x.2 with bytes := putField x.2.bytes (r.off - x.2.at') 6 19 16 n })
  else ({ x.1 with bytes := putField x.1.bytes r.off 8 23 20 n }, x.2)

/-! ### Loading an object -/

/-- What the loader makes of a file: the text with its relocations written, the read-only image, what the records say. -/
structure LoadedObject where
  header : SkoHeader
  helm : Section
  strand : Section
  blocks : Section
  rodata : Section
  callSites : Section
  /-- By index, `.block` order: offset in seg0 and SPLIT. -/
  table : List (Nat × Bool)
  symbols : List Symbol
  calls : List CallSite
  /-- The name of each import; its index is its place in the object's link table. -/
  imports : List (List Byte)
  /-- Name, number and image size of each declared segment. -/
  segs : List (List Byte × Nat × Nat)
deriving DecidableEq, Repr

/-- Writes a section's bytes into the image of its segment. -/
def Section.place (image : List Byte) (s : Section) : List Byte :=
  if s.bytes.isEmpty then image
  else (image ++ List.replicate (s.at' - image.length) 0).take s.at' ++ s.bytes ++ image.drop (s.at' + s.bytes.length)

/-- R413: what the loader writes at the base of seg0, and at that of seg1. -/
def LoadedObject.codeImage (o : LoadedObject) : List Byte := [o.helm, o.strand, o.blocks].foldl Section.place []
def LoadedObject.rodImage (o : LoadedObject) : List Byte := [o.rodata, o.callSites].foldl Section.place []

/-- The header of a file, and its sections by number. -/
def openSko (file : List Byte) : Except LoadError (SkoHeader × (Nat → Except LoadError Section)) := do
  loadNeed (decide (64 + 12 * 16 ≤ file.length)) .truncated
  pure (skoHeader (leNat (file.take 64)), skoSection file)

/-- R413 to R416: checks and loads an object of a header and sections. DESIGN CHOICE (log 86): one that breaks the format of R413 or R414 in
a point that R416 does not list is rejected as well. -/
def loadParts (h : SkoHeader) (sec : Nat → Except LoadError Section) : Except LoadError LoadedObject := do
  h.check
  loadNeed h.formed .kernelFields
  let helm ← sec 0
  let strand ← sec 1
  let blocks ← sec 2
  let rodata ← sec 3
  let symbols ← sec 4
  let callSites ← sec 5
  let relocs ← sec 6
  let decls ← sec 7
  let imports ← sec 8
  let ten ← sec 10
  let eleven ← sec 11
  loadNeed (ten.bytes.isEmpty && eleven.bytes.isEmpty) .reservedBit
  loadNeed ((helm.at' == 0 || helm.bytes.isEmpty) && (strand.at' % 64 == 0 || strand.bytes.isEmpty)) .placement
  loadNeed ((records 8 blocks.bytes).all (blockEntryOk strand)) .blockTable
  let syms ← (records 16 symbols.bytes).mapM (symbolOf symbols.bytes)
  let calls ← (records 16 callSites.bytes).mapM callSiteOf
  let names ← (records 16 imports.bytes).mapM (importOf symbols.bytes)
  let ds ← (records 16 decls.bytes).mapM (segDecl symbols.bytes)
  let fixed := ds.filterMap (·.number)
  loadNeed (decide fixed.Nodup && decide (ds.length ≤ 10)) .segmentNumber
  let rs ← (records 8 relocs.bytes).mapM relocOf
  loadNeed (rs.all fun r => r.ok helm strand names.length ds.length) .relocation
  let numbers := segNumbers fixed (ds.map (·.number)) 0
  let (helm, strand) := rs.foldl (fun x r => r.write numbers x) (helm, strand)
  pure { header := h, helm := helm, strand := strand, blocks := blocks, rodata := rodata, callSites := callSites
         table := (records 8 blocks.bytes).map blockRecord, symbols := syms, calls := calls, imports := names
         segs := (numbers.zip ds).map fun x => (x.2.name, x.1, x.2.size) }

/-- R413 to R416: checks and loads the native text of an object file. -/
def loadSko (file : List Byte) : Except LoadError LoadedObject := do
  let (h, sec) ← openSko file
  loadParts h sec

/-- R417: the object-table entry, with REFS 0, of an object whose segments are placed at `code` and `rod`; HDR and the needs are the
header's. -/
def LoadedObject.entry (o : LoadedObject) (code rod : W128) (lkOff state : Nat) : Nat :=
  state + o.header.tiles * 2 ^ 94 + o.header.cellar * 2 ^ 98 + o.header.landing * 2 ^ 107 + o.header.scratch * 2 ^ 112 +
  (o.header.wcode + o.header.nblk * 4) * 2 ^ 120 + o.blocks.at' * 2 ^ 128 + o.blocks.bytes.length / 8 * 2 ^ 160 +
  o.imports.length * 2 ^ 176 + lkOff * 2 ^ 192 + rod.toNat * 2 ^ 256 + code.toNat * 2 ^ 384

/-! ### Zwibel hyperblocks (R422) -/

/-- An operation of a hyperblock. -/
structure ZOp where
  imm : Nat
  a : Nat
  b : Nat
  c : Nat
  gref : Nat
  gsense : Nat
  opc : Nat
  zeros : Bool
deriving DecidableEq, Repr

def zOp (w : Nat) : ZOp :=
  { imm := bitsOf w 63 48, c := bitsOf w 47 40, b := bitsOf w 39 32, a := bitsOf w 31 24, gref := bitsOf w 23 16, gsense := bitsOf w 15 14
    opc := bitsOf w 7 0, zeros := bitsOf w 13 8 == 0 }

structure ZBlock where
  strand : Bool
  liveIn : List Nat
  /-- Register and value reference. -/
  liveOut : List (Nat × Nat)
  ops : List ZOp
  zeros : Bool
deriving DecidableEq, Repr

def pad8 (n : Nat) : Nat := (n + 7) / 8 * 8

/-- The block at the front, and the bytes after it. -/
def zBlock (bs : List Byte) : Except LoadError (ZBlock × List Byte) :=
  let h := leNat (bs.take 16)
  let nops := bitsOf h 6 0 + 1
  let nin := bitsOf h 15 8
  let nout := bitsOf h 23 16
  let ins := (bs.drop 16).take (pad8 nin)
  let outs := (bs.drop (16 + pad8 nin)).take (pad8 (2 * nout))
  let rest := bs.drop (16 + pad8 nin + pad8 (2 * nout))
  if rest.length < 8 * nops ∨ 32 < nin ∨ 32 < nout then .error .zwibel
  else .ok ({ strand := bitOf h 7
              liveIn := (ins.take nin).map (·.toNat)
              liveOut := (records 2 (outs.take (2 * nout))).map fun e => (bitsOf e 7 0, bitsOf e 15 8)
              ops := (records 8 (rest.take (8 * nops))).map zOp
              zeros := bitsOf h 127 24 == 0 && (ins.drop nin).all (· == 0) && (outs.drop (2 * nout)).all (· == 0) }, rest.drop (8 * nops))

/-- How many operands the operation reads, in the order A, B, C (R193 to R215, R423); none where no operation of the block's kind has the
code. Where the form of a lane operation decides it, the lane modifier in IMM gives the form. -/
def zReads (strand : Bool) (o : ZOp) : Option Nat :=
  if o.opc = 0x42 ∨ o.opc = 0x43 then some 0
  else if o.opc = 0x44 then some 1
  else if strand then
    if o.opc = 0xC1 then some 1
    else if o.opc = 0xC2 then some 2
    else if 0x80 ≤ o.opc ∧ o.opc ≤ 0xA4 then
      let bu := bitOf o.imm 15
      match o.opc - 0x80 with
      | 0x04 | 0x13 => some (if bu then 2 else 3)
      | 0x0D => some ((if bitOf o.imm 13 then 2 else 3) - b2n bu)
      | 0x0E | 0x16 | 0x17 | 0x18 | 0x19 | 0x1B | 0x1C | 0x1D | 0x1F | 0x20 | 0x21 | 0x22 => some 1
      | 0x1E => some (if bitsOf o.imm 7 6 = 0 then 2 else 1)
      | 0x23 => some (if bitsOf o.imm 4 0 = 0 then 1 else 2)
      | _ => some (if bu then 1 else 2)
    else none
  else
    if o.opc ≤ 0x14 then some 2
    else if o.opc = 0x15 ∨ o.opc = 0x16 then some 1
    else if o.opc = 0x17 then some 2
    else if o.opc = 0x18 then some 3
    else if 0x20 ≤ o.opc ∧ o.opc ≤ 0x34 then
      match o.opc - 0x20 with
      | 0x04 | 0x07 | 0x10 | 0x11 | 0x12 | 0x13 | 0x14 => some 1
      | 0x0C | 0x0D | 0x0E | 0x0F => none
      | _ => some 2
    else if o.opc = 0x40 then some 1
    else if o.opc = 0x41 then some 2
    else none

/-- R422: a reference to an earlier operation or to a live-in. -/
def zRefOk (below nin r : Nat) : Bool := (decide (r < 0x80) && decide (r < below)) || (decide (0x80 ≤ r) && decide (r < 0xA0) && decide (r - 0x80 < nin))

/-- Operands lie in A, B, C; with BU, the second is y and the third moves no place. -/
def ZOp.operands (strand : Bool) (o : ZOp) : List (Nat × Bool) :=
  let n := (zReads strand o).getD 0
  let bu := strand && bitOf o.imm 15 && decide (0x80 ≤ o.opc) && decide (o.opc ≤ 0xA4)
  if bu && n == 2 then [(o.a, true), (o.b, false), (o.c, true)]
  else [(o.a, decide (1 ≤ n)), (o.b, decide (2 ≤ n)), (o.c, decide (3 ≤ n))]

/-- R422 and R423: the checks on operation `k` of a block in a section of `blocks` blocks. -/
def ZOp.ok (b : ZBlock) (blocks k : Nat) (o : ZOp) : Bool :=
  o.zeros && (zReads b.strand o).isSome &&
  ((o.operands b.strand).all fun x => if x.2 then zRefOk k b.liveIn.length x.1 else x.1 == 0xFF) &&
  (match o.gsense with
   | 0 => o.gref == 0xFF
   | 1 | 2 => zRefOk k b.liveIn.length o.gref
   | _ => false) &&
  (o.opc != 0x42 || decide (o.imm < blocks)) &&
  (k + 1 != b.ops.length || (o.opc == 0x42 && o.gsense == 0))

/-- R422 and R423: the checks on a block. -/
def ZBlock.ok (b : ZBlock) (blocks : Nat) : Bool :=
  b.zeros && (b.ops.zipIdx.all fun x => x.1.ok b blocks x.2) &&
  (b.liveOut.all fun x => zRefOk b.ops.length b.liveIn.length x.2)

/-- The blocks of the section, in the order of their indices. -/
def zBlocks : Nat → List Byte → Except LoadError (List ZBlock)
  | 0, _ => .ok []
  | _, [] => .ok []
  | fuel + 1, bs => do
    let (b, rest) ← zBlock bs
    let more ← zBlocks fuel rest
    pure (b :: more)

/-- R423: what Binnacle accepts. -/
def loadZwibel (file : List Byte) : Except LoadError (List ZBlock) := do
  let s ← skoSection file 9
  let bs ← zBlocks s.bytes.length s.bytes
  loadNeed (bs.all fun b => b.ok bs.length) .zwibel
  pure bs

/-! ### What an operation computes (R422, R423)

A value is a list of lanes: one lane of 64 bits in a helm block, the lanes of a group, of 32 bits each, in a strand block. -/

/-- The value of a word of major 0x01 or 0x08 on operands in t1, t2 and, for `bins`, t0: the value that its meaning writes (R423). -/
def zValue (major fn : Nat) (a b c : W64) : Option W64 :=
  let unary := (major == 1 && (fn == 0x15 || fn == 0x16)) || (major == 8 && (fn % 32 == 0x04 || fn % 32 == 0x07 || decide (0x10 ≤ fn % 32)))
  match decodeShort (packHR major fn (if unary then 0 else 14) 13 12) with
  | .ok i =>
    let t := { fetchTeam with g := ((fetchTeam.g.set 12 c).set 13 a).set 14 b }
    (match exec i { State.reset with cur := some (.helm t.key), teams := [t] } with
     | .next s => (s.team? t.key).map (·.reg 12)
     | _ => none)
  | .error _ => none

/-- An operation of a helm block on its three operands; for `bins`, whose assembly order is gd, ga, gb, operand A is the field's old word. -/
def ZOp.helmValue (o : ZOp) (a b c : W64) : Option W64 :=
  if o.opc = 0x18 then zValue 1 0x18 b c a
  else if o.opc ≤ 0x17 then zValue 1 o.opc a b 0
  else zValue 8 (o.opc - 0x20 + 32 * b2n (bitOf o.imm 15)) a b 0

/-- The fields of the C word of a lane operation on operands in registers `a`, `b` and `c`, with its result in `d`, m1 or y4; it runs under m7,
the lanes in which its guard holds. What the operation does not give is left to Config (log 86): vd[6:3] of a comparison or `mop`, [47:41] of a
fold, a ballot or a pack. Under BU the word names y0. -/
def ZOp.laneFields (o : ZOp) (k d a b c : Nat) : SW :=
  let op := o.opc - 0x80
  let free := Config.zwibelField o.opc k
  let bu := bitOf o.imm 15
  let mask := op == 0x0F || op == 0x1A || op == 0x24
  let reads := decide ((zReads true o).getD 0 ≥ 2) && !bu
  { tok := 0, rep := 0, step := 0, msk := if o.gsense = 0 then 0 else 7
    vd := BitVec.ofNat 7 (if mask then 1 + 8 * (free % 16) else if op = 0x20 then 4 else if op = 0x22 then 1 else d)
    va := BitVec.ofNat 7 a
    b := BitVec.ofNat 7 (if op = 0x1C ∨ op = 0x1D ∨ op = 0x1F ∨ op = 0x20 ∨ op = 0x21 ∨ op = 0x22 then free else if reads then b else 0)
    ext := some { imm := BitVec.ofNat 16 o.imm, ubase := 0, vc := BitVec.ofNat 7 (if bitOf o.imm 14 then c else 0), seg := 0, fmt := 0, sh := 0
                  acc := 0 } }

/-- That word with its destination in v1 and its operands in v2, v3 and v4, of `mop` in m2 and m3. -/
def ZOp.laneWord (o : ZOp) (k : Nat) : Nat := packStrand 1 (o.opc - 0x80) (o.laneFields k 1 2 3 4)

/-- A vector as the lanes of a register write. -/
def zLanes (xs : List W64) : List (Nat × W32) := xs.zipIdx.map fun x => (x.2, x.1.setWidth 32)

/-- A lane of a vector as bit 0 of a mask register's lane. -/
def zBits (xs : List W64) : List (Nat × W32) := xs.zipIdx.map fun x => (x.2, if x.1 = 0 then 0 else 1)

/-- A lane operation on its three operands in the lanes `on`, by the meaning of its word (R423). A third operand that comes from vd lies in v1. DESIGN CHOICE
(log 86): the value of a word that writes a mask is 1 in its lanes and 0 in the others, that of a fold its result in every lane. -/
def ZOp.laneValue (o : ZOp) (k : Nat) (on : List Bool) (a b c : List W64) : Option (List W64) :=
  let op := o.opc - 0x80
  match decodeStrandWord (o.laneWord k) with
  | .error _ => none
  | .ok i =>
    let t := fetchStrandTeam
    let full (g : Group) : Group := g.mapPath 0 fun p => { p with m0 := BitVec.ofNat 64 (2 ^ a.length - 1)
                                                                  c := { p.c with y := p.c.y.set 0 (BitVec.ofNat 32 (Config.zwibelField o.opc k)) } }
    let put (g : Group) : Group :=
      (((((((full g).writeReg (.c 0) (regV 1) (zLanes c)).writeReg (.c 0) (regV 2) (zLanes a)).writeReg (.c 0) (regV 3) (zLanes b)).writeReg
        (.c 0) (regV 4) (zLanes c)).writeReg (.c 0) (regM 2) (zBits a)).writeReg (.c 0) (regM 3) (zBits b)).writeReg (.c 0) (regM 7)
          (on.zipIdx.map fun x => (x.2, if x.1 then 1 else 0))
    let s := placeWord State.reset 96 0
    -- the word latches its operands in one step and performs its repetition in the next
    let run (s : State) : Option State := match exec i s with | .next s => some s | _ => none
    match (run { s with cur := some (.engine 1 0 0 .c), teams := [{ t with kernel := { t.kernel with width := a.length }, groups := t.groups.map put }] }).bind run with
    | some s => do
      let t ← s.team? 1
      let g ← t.group? 0
      let read (reg lane : Nat) : W64 := ((g.regOptions reg lane (g.eng (.c 0)).vc).getD 0 0).setWidth 64
      if t.trap.isSome || (g.eng (.c 0)).waitFor.isSome then none
      else pure ((List.range a.length).map fun lane =>
        if op = 0x0F ∨ op = 0x1A ∨ op = 0x22 ∨ op = 0x24 then read (regM 1) lane % 2 else if op = 0x20 then read (regY 4) 0 else read (regV 1) lane)
    | none => none

/-- The bytes that a size code moves, and a loaded value widened (R32). -/
def zBytes (size : Nat) : Nat := 2 ^ (size % 4)
def zWiden (size : Nat) (v : W64) : W64 :=
  if 4 ≤ size then BitVec.ofInt 64 (signedOf (8 * zBytes size) v.toNat) else BitVec.ofNat 64 (v.toNat % 2 ^ (8 * zBytes size))

/-! ### How a hyperblock runs (R422, R424) -/

/-- An access of a hyperblock in the lanes in which its guard holds: the space, gbl for a helm block, the bytes of a lane, and for each
lane the address and a store's value. -/
structure ZAccess where
  space : Nat
  bytes : Nat
  lanes : List (Option (W64 × W64))
deriving DecidableEq, Repr

/-- What a block has done so far: the result of each operation, what has been committed, for a strand block the predicates that its exits have
posted, and the exit taken. -/
structure ZRun where
  vals : List (Nat × List W64)
  stores : List ZAccess
  outs : List (Nat × List W64)
  posts : List W64
  exit : Option Nat
deriving DecidableEq, Repr

def ZRun.start : ZRun := { vals := [], stores := [], outs := [], posts := [], exit := none }

/-- The words of a translated block, each by what it does: R424, steps 2 to 4. -/
inductive ZWord where
  | op (k : Nat)
  /-- The value by which later operations refer to a store: its operand A (R422). -/
  | keep (k : Nat)
  | store (k : Nat)
  | out (n : Nat)
  | exit (k : Nat)
deriving DecidableEq, Repr

/-- R424: every operation other than stores and exits, with the values of the stores among them, the stores in index order, the live-outs, the
exits. -/
def ZBlock.words (b : ZBlock) : List ZWord :=
  let ks := List.range b.ops.length
  let opc (k : Nat) : Nat := (b.ops[k]?.map (·.opc)).getD 0
  let store (k : Nat) : Bool := opc k == (if b.strand then 0xC2 else 0x41)
  ((ks.filter fun k => opc k != 0x42).map fun k => if store k then .keep k else .op k) ++ ((ks.filter store).map .store) ++
  ((List.range b.liveOut.length).map .out) ++ ((ks.filter fun k => opc k == 0x42).map .exit)

/-- The value that a reference names; no value is 0. -/
def ZRun.value (r : ZRun) (ins : List (List W64)) (n ref : Nat) : List W64 :=
  if ref = 0xFF then List.replicate n 0
  else if ref < 0x80 then ((r.vals.find? fun v => v.1 == ref).map (·.2)).getD (List.replicate n 0)
  else ins.getD (ref - 0x80) (List.replicate n 0)

/-- The lanes in which an operation's guard holds. -/
def ZRun.holds (r : ZRun) (ins : List (List W64)) (n : Nat) (o : ZOp) : List Bool :=
  match o.gsense with
  | 0 => List.replicate n true
  | 1 => (r.value ins n o.gref).map (· != 0)
  | _ => (r.value ins n o.gref).map (· == 0)

/-- The access of a load or store. A strand lane access moves one element of 4 bytes (DESIGN CHOICE, log 86). -/
def ZOp.access (o : ZOp) (strand : Bool) (on : List Bool) (a v : List W64) : ZAccess :=
  { space := if strand then o.imm % 4 else 3, bytes := if strand then 4 else zBytes o.imm
    lanes := (on.zip (a.zip v)).map fun x => if x.1 then some x.2 else none }

/-- The result of an operation that is neither store nor exit, in `n` lanes; `load` gives what a load finds, and none where it traps. Where
the guard fails the result is operand A, or 0; an operation whose guard fails in every lane performs nothing. -/
def ZRun.result (r : ZRun) (load : ZAccess → Option (List W64)) (strand : Bool) (ins : List (List W64)) (n k : Nat) (o : ZOp) :
    Option (List W64) :=
  let v := r.value ins n
  let on := r.holds ins n o
  let pass := v o.a
  let merge (xs : List W64) : List W64 := (on.zip (xs.zip pass)).map fun x => if x.1 then x.2.1 else x.2.2
  if !on.any id then some pass
  else if o.opc = 0x43 then
    some (merge (List.replicate n (if strand then (BitVec.ofInt 32 (signedOf 16 o.imm)).setWidth 64 else BitVec.ofInt 64 (signedOf 16 o.imm))))
  else if o.opc = 0x44 then some pass
  else if o.opc = 0xC1 then (load (o.access true on (v o.a) (v o.a))).map merge
  else if o.opc = 0x40 then (load (o.access false on (v o.a) (v o.a))).map fun xs => merge (xs.map (zWiden (o.imm % 8)))
  else if strand then (o.laneValue k on (v o.a) (v o.b) (v o.c)).map merge
  else (o.helmValue ((v o.a).getD 0 0) ((v o.b).getD 0 0) ((v o.c).getD 0 0)).map fun x => merge [x]

/-- One word of a translated block; none where it traps, with nothing done. `mayStore` says that a store does not trap. An exit of a strand
block posts its guard value's nonzero lanes (R167), and holds by any lane (DESIGN CHOICE, log 86). -/
def ZRun.word (r : ZRun) (load : ZAccess → Option (List W64)) (mayStore : ZAccess → Bool) (b : ZBlock) (ins : List (List W64)) (n : Nat) :
    ZWord → Option ZRun
  | .op k => do
    let o ← b.ops[k]?
    let x ← r.result load b.strand ins n k o
    pure { r with vals := r.vals ++ [(k, x)] }
  | .keep k => do
    let o ← b.ops[k]?
    pure { r with vals := r.vals ++ [(k, r.value ins n o.a)] }
  | .store k => do
    let o ← b.ops[k]?
    let x := o.access b.strand (r.holds ins n o) (r.value ins n o.a) (r.value ins n o.b)
    if !(x.lanes.any (·.isSome)) then pure r
    else if mayStore x then pure { r with stores := r.stores ++ [x] } else none
  | .out i => do
    let x ← b.liveOut[i]?
    pure { r with outs := r.outs ++ [(x.1, r.value ins n x.2)] }
  | .exit k => do
    let o ← b.ops[k]?
    let g := r.value ins n o.gref
    let holds := match o.gsense with | 0 => true | 1 => g.any (· != 0) | _ => !g.any (· != 0)
    let post := maskBits n fun i => g.getD i 0 != 0
    pure { r with exit := r.exit.or (if holds then some o.imm else none), posts := if b.strand && o.gsense != 0 then r.posts ++ [post] else r.posts }

/-- Performs words up to the first that traps: what has been done, and the words left, at whose head a resume goes on. A trap before the
stores leaves live-ins and memory as they were; one within them is precise (R424). -/
def ZRun.go (load : ZAccess → Option (List W64)) (mayStore : ZAccess → Bool) (b : ZBlock) (ins : List (List W64)) (n : Nat) :
    List ZWord → ZRun → ZRun × List ZWord
  | [], r => (r, [])
  | w :: ws, r =>
    match r.word load mayStore b ins n w with
    | some r => ZRun.go load mayStore b ins n ws r
    | none => (r, w :: ws)

/-- A block on its live-ins, in `n` lanes: one in a helm block. -/
def ZBlock.run (b : ZBlock) (load : ZAccess → Option (List W64)) (mayStore : ZAccess → Bool) (ins : List (List W64)) (n : Nat) :
    ZRun × List ZWord := ZRun.go load mayStore b ins n b.words .start

end Sys2Proof.Machine
end

