-- ==== Sys2Proof/Machine/Binnacle.lean ====
section
/-! DEFINITION. Binnacle: the native text that it makes of a section of hyperblocks, and the object that is loaded from it
(16_code.md R424, R425). What R424 leaves to it, such as which register holds a value, is log 86's. -/

namespace Sys2Proof.Machine

/-! ### Values and their places (R424) -/

/-- A store or an exit: an operation of the commit, which computes no value. -/
def ZBlock.commits (b : ZBlock) (k : Nat) : Bool :=
  let opc := (b.ops[k]?.map (·.opc)).getD 0
  opc == 0x42 || opc == (if b.strand then 0xC2 else 0x41)

/-- The reference that names the value: one to a store or an exit names its operand A (R422); `fuel` bounds the length of the chain. -/
def ZBlock.root (b : ZBlock) : Nat → Nat → Nat
  | 0, r => r
  | fuel + 1, r => if decide (r < 0x80) && b.commits r then b.root fuel ((b.ops[r]?.map (·.a)).getD 0xFF) else r

def ZBlock.rootOf (b : ZBlock) (r : Nat) : Nat := b.root b.ops.length r

/-- The operations that compute a value, in index order. -/
def ZBlock.valued (b : ZBlock) : List Nat := (List.range b.ops.length).filter fun k => !b.commits k

/-- The exits that have a guard, and all of them, in index order. -/
def ZBlock.exits (b : ZBlock) : List ZOp := b.ops.filter fun o => o.opc == 0x42
def ZBlock.guardedExits (b : ZBlock) : List ZOp := b.exits.filter fun o => o.gsense != 0

/-- The live-ins that the live-outs or the guards of the exits name: their registers may change before they are read, so they are copied
ahead of the commit. -/
def ZBlock.captured (b : ZBlock) : List Nat :=
  ((b.liveOut.map fun x => b.rootOf x.2) ++ (b.guardedExits.map fun o => b.rootOf o.gref)).eraseDups.filter fun r => decide (0x80 ≤ r) && r != 0xFF

/-- The registers that the tables of the section's helm or strand blocks name: no value of a block may lie there. -/
def namedRegs (strand : Bool) (bs : List ZBlock) : List Nat :=
  (bs.filter fun b => b.strand == strand).flatMap fun b => b.liveIn ++ b.liveOut.map (·.1)

/-! ### Helm blocks (R424) -/

/-- A piece of helm text: words, or a jump to a block, where the register's test holds (sense 0: always, 1: nonzero, 2: zero). -/
inductive ZHelm where
  | code (bs : List Byte)
  | exit (sense reg block : Nat)
deriving DecidableEq, Repr

def ZHelm.bytes : ZHelm → Nat
  | .code bs => bs.length
  | .exit sense _ _ => if sense = 0 then 4 else 8

def helmSize (xs : List ZHelm) : Nat := (xs.map ZHelm.bytes).sum

def zReg (n : Nat) : GReg := BitVec.ofNat 6 n

/-- The words of an instruction. -/
def zIns (i : Instr) : ZHelm := .code (encode i)

/-- `gd := ga`. -/
def zMove (d a : Nat) : ZHelm := zIns (.add (zReg d) (zReg a) 0)

/-- A branch over `body`, taken where the test fails: a guard's `b.eq` or `b.ne` (R424). -/
def skipUnless (sense reg : Nat) (body : List Byte) : List Byte :=
  let off := BitVec.ofNat 12 (body.length / 4 + 1)
  encode (if sense = 2 then .bNe (zReg reg) 0 off else .bEq (zReg reg) 0 off) ++ body

/-- Where a value lies: in a register, or in its slot of 8 bytes below sp in seg3. -/
inductive ZPlace where
  | reg (n : Nat)
  | slot (i : Nat)
deriving DecidableEq, Repr

/-- Four registers of the pool that hold no value where values are spilled, and in a stub: a copy of sp, and three for operands. -/
structure ZScratch where
  sp : Nat
  s0 : Nat
  s1 : Nat
  s2 : Nat
deriving DecidableEq, Repr

def slotOff (i : Nat) : W32 := BitVec.ofInt 32 (-(8 * (i + 1) : Int))

/-- The words that bring a value into a register, `s` where it was spilled, and that register. -/
def ZScratch.fetch (x : ZScratch) (p : ZPlace) (s : Nat) : List Byte × Nat :=
  match p with
  | .reg n => ([], n)
  | .slot i => (encode (.lds (zReg s) (zReg x.sp) 3 3 (slotOff i)), s)

/-- The words that bring a value into register `d`. -/
def ZScratch.into (x : ZScratch) (p : ZPlace) (d : Nat) : List Byte :=
  match p with
  | .reg n => encode (.add (zReg d) (zReg n) 0)
  | .slot i => encode (.lds (zReg d) (zReg x.sp) 3 3 (slotOff i))

/-- Values of a block in order, each with its place: t registers while they last, then slots. -/
structure ZHelmPlaces where
  scratch : ZScratch
  spills : Bool
  /-- Places by the reference that names the value; a captured live-in has one too. -/
  at' : List (Nat × ZPlace)
deriving DecidableEq, Repr

/-- t0 to t15 less the registers that the section names hold the values; where they do not suffice, four of them serve as scratch. -/
def ZBlock.helmPlaces (b : ZBlock) (pool : List Nat) : Except LoadError ZHelmPlaces :=
  let keys := b.valued ++ b.captured
  let x : ZScratch := { sp := pool.getD 0 0, s0 := pool.getD 1 0, s1 := pool.getD 2 0, s2 := pool.getD 3 0 }
  if keys.length ≤ pool.length then .ok { scratch := x, spills := false, at' := keys.zip (pool.map .reg) }
  else if pool.length < 4 then .error .zwibel
  else .ok { scratch := x, spills := true, at' := keys.zip ((pool.drop 4).map .reg ++ (List.range keys.length).map .slot) }

/-- The place of a reference's value: before the commit a live-in lies in its own register. -/
def ZBlock.helmPlace (b : ZBlock) (ps : ZHelmPlaces) (late : Bool) (ref : Nat) : ZPlace :=
  let r := b.rootOf ref
  if r = 0xFF then .reg 0
  else match if late || decide (r < 0x80) then ps.at'.find? (·.1 == r) else none with
    | some (_, p) => p
    | none => .reg (b.liveIn.getD (r - 0x80) 0)

/-- The words of an operation, from its operands into register `d`. -/
def ZOp.helmCode (o : ZOp) (x : ZScratch) (a b c : ZPlace) (d : Nat) : List Byte :=
  let (la, ra) := x.fetch a x.s0
  let (lb, rb) := x.fetch b x.s1
  let (lc, rc) := x.fetch c x.s2
  if o.opc = 0x18 then x.into a d ++ lb ++ lc ++ leBytes 4 (packHR 1 0x18 rc rb d)
  else if o.opc = 0x15 ∨ o.opc = 0x16 then la ++ leBytes 4 (packHR 1 o.opc 0 ra d)
  else if o.opc ≤ 0x17 then la ++ lb ++ leBytes 4 (packHR 1 o.opc rb ra d)
  else if o.opc = 0x40 then la ++ leBytes 4 (packHM 0x20 0 (o.imm % 8) ra d)
  else if o.opc = 0x43 then encode (.li (zReg d) (BitVec.ofInt 32 (signedOf 16 o.imm)))
  else if o.opc = 0x44 then x.into a d
  else
    let unary := zReads false o == some 1
    la ++ (if unary then [] else lb) ++ leBytes 4 (packHR 8 (o.opc - 0x20 + 32 * b2n (bitOf o.imm 15)) (if unary then 0 else rb) ra d)

/-- R424, step 2: an operation under its guard, with its pass-through value on the skipped path. -/
def ZBlock.helmOp (b : ZBlock) (ps : ZHelmPlaces) (k : Nat) (o : ZOp) : List Byte :=
  let x := ps.scratch
  let p := b.helmPlace ps false
  let dst := b.helmPlace ps true k
  let d := match dst with | .reg n => n | .slot _ => x.s0
  let body := o.helmCode x (p o.a) (p o.b) (p o.c) d
  let guarded :=
    if o.gsense = 0 then body
    else
      let (lg, g) := x.fetch (p o.gref) x.s0
      let pass := x.into (p o.a) d
      lg ++ skipUnless o.gsense g (body ++ encode (.j (BitVec.ofNat 18 (pass.length / 4 + 1)))) ++ pass
  guarded ++ (match dst with
    | .reg _ => []
    | .slot i => encode (.sts (zReg d) (zReg x.sp) 3 3 (slotOff i)))

/-- R424, step 3: a store under its guard. -/
def ZBlock.helmStore (b : ZBlock) (ps : ZHelmPlaces) (o : ZOp) : List Byte :=
  let x := ps.scratch
  let p := b.helmPlace ps false
  let (la, ra) := x.fetch (p o.a) x.s0
  let (lb, rb) := x.fetch (p o.b) x.s1
  let body := la ++ lb ++ leBytes 4 (packHM 0x21 0 (o.imm % 8) ra rb)
  if o.gsense = 0 then body
  else
    let (lg, g) := x.fetch (p o.gref) x.s0
    lg ++ skipUnless o.gsense g body

/-- R424: the text of a helm block. -/
def ZBlock.helmText (b : ZBlock) (pool : List Nat) : Except LoadError (List ZHelm) := do
  let ps ← b.helmPlaces pool
  let x := ps.scratch
  let ops (ks : List Nat) (f : Nat → ZOp → List Byte) : List ZHelm := ks.filterMap fun k => (b.ops[k]?).map fun o => .code (f k o)
  let stores := (List.range b.ops.length).filter fun k => (b.ops[k]?.map (·.opc)) == some 0x41
  let capture (r : Nat) : ZHelm :=
    let live := b.liveIn.getD (r - 0x80) 0
    match b.helmPlace ps true r with
    | .reg n => zMove n live
    | .slot i => zIns (.sts (zReg live) (zReg x.sp) 3 3 (slotOff i))
  let exit (o : ZOp) : List ZHelm :=
    if o.gsense = 0 then [.exit 0 0 o.imm]
    else
      let (l, g) := x.fetch (b.helmPlace ps true o.gref) x.s0
      [.code l, .exit o.gsense g o.imm]
  pure ((if ps.spills then [zMove x.sp 2] else []) ++ ops b.valued (b.helmOp ps) ++ b.captured.map capture ++ ops stores (fun _ o => b.helmStore ps o) ++
    (b.liveOut.map fun w => .code (x.into (b.helmPlace ps true w.2) w.1)) ++ b.exits.flatMap exit)

/-- R424: the helm code for a strand block: it pushes the block, pops what its exits have posted and a MARK after them, and goes to the block of
the first exit that holds. -/
def ZBlock.stubText (b : ZBlock) (pool : List Nat) (j : Nat) : Except LoadError (List ZHelm) := do
  let p ← match pool.find? fun n => pool.contains (n + 1) with
    | some p => .ok p
    | none => .error .zwibel
  let rest := pool.filter fun n => n != p && n != p + 1
  loadNeed (decide (2 ≤ rest.length)) .zwibel
  let sel := rest.getD 0 0
  let t := rest.getD 1 0
  let li (d n : Nat) : List Byte := encode (.li (zReg d) (BitVec.ofNat 32 n))
  let exits := b.guardedExits.zipIdx
  let record (x : ZOp × Nat) : ZHelm :=
    .code (encode (.qPopr (zReg p)) ++ skipUnless 2 sel (skipUnless x.1.gsense p (li sel (x.2 + 1))))
  let go (x : ZOp × Nat) : List ZHelm := [.code (li t (x.2 + 1) ++ encode (.sub (zReg t) (zReg sel) (zReg t))), .exit 2 t x.1.imm]
  let last := (b.ops.getLast?.map (·.imm)).getD 0
  pure ([.code (li t 1 ++ li sel 0 ++
      encode (.qPush 0 (zReg t) { gsel := 0, block := BitVec.ofNat 16 j, lay := 0, lfix := false, rel := true, rscope := 1 }) ++ encode (.qMark 0 0))] ++
    exits.map record ++ [zIns (.qPopr (zReg p))] ++ exits.flatMap go ++ [.exit 0 0 last])

/-- The text with its jumps to the labels of the blocks written; `at'` is the offset of the piece at the front. -/
def linkHelm (labels : List Nat) : Nat → List ZHelm → Except LoadError (List Byte)
  | _, [] => .ok []
  | at', x :: xs => do
    let bs ← match x with
      | .code bs => Except.ok bs
      | .exit sense reg block =>
        let here := if sense = 0 then at' else at' + 4
        let off : Int := ((labels.getD block 0 : Int) - here) / 4
        let jump := encode (.j (BitVec.ofInt 18 off))
        if -(2 ^ 17) ≤ off ∧ off < 2 ^ 17 then .ok (if sense = 0 then jump else skipUnless sense reg jump) else .error .zwibel
    let more ← linkHelm labels (at' + x.bytes) xs
    pure (bs ++ more)

/-! ### Strand blocks (R424) -/

/-- A strand word before its tokens; `pops` says that its operand comes through lq. -/
structure ZLine where
  tag : Nat
  op : Nat
  w : SW
  pops : Bool := false
deriving DecidableEq, Repr

def zSw (msk vd va b : Nat) (imm : Option Nat) : SW :=
  { tok := 0, rep := 0, step := 0, msk := BitVec.ofNat 3 msk, vd := BitVec.ofNat 7 vd, va := BitVec.ofNat 7 va, b := BitVec.ofNat 7 b
    ext := imm.map fun n => { imm := BitVec.ofNat 16 n, ubase := 0, vc := 0, seg := 0, fmt := 0, sh := 0, acc := 0 } }

def cLine (op : Nat) (w : SW) : ZLine := { tag := 1, op := op, w := w }

def vMove (d a : Nat) : ZLine := cLine 0x0E (zSw 0 d a 0 none)
def vConst (d imm : Nat) : ZLine := cLine 0x0E (zSw 0 d 0 1 (some imm))

/-- Mask `m` := the lanes in which `v` is nonzero: `vicmp.ne` against v116. -/
def maskNonzero (m v : Nat) : ZLine := cLine 0x0F (zSw 0 (m + 8) v 116 none)

/-- `d := mask m ? a : b`: the `vsel` of a pass-through value. -/
def vPick (m d a b : Nat) : ZLine := cLine 0x0D (zSw 0 d a b (some (2 ^ 13 + m)))

/-- m7 := the lanes in which the guard in `v` holds. -/
def guardLines (sense v : Nat) : List ZLine :=
  if sense = 0 then [] else maskNonzero 7 v :: (if sense = 2 then [cLine 0x24 (zSw 0 (7 + 8) 7 0 none)] else [])

/-- The words of a lane operation, its operands in `a`, `b`, `c`, its result in `d`; `q` is a run of eight registers for `vpack` and `vunpk`. -/
def ZOp.laneLines (o : ZOp) (k d a b c q : Nat) : List ZLine :=
  let op := o.opc - 0x80
  let third := (op == 0x04 || op == 0x13 || (op == 0x0D && !bitOf o.imm 13)) && !bitOf o.imm 14
  let pre :=
    if op = 0x24 then [maskNonzero 2 a, maskNonzero 3 b]
    else if op = 0x1C then vMove q a :: (List.range 7).map fun j => vConst (q + 1 + j) 0
    else if third then [vMove d c] else []
  let word := cLine op (o.laneFields k (if op = 0x1D then q else d) (if op = 0x1C then q else if op = 0x24 then 2 else a) (if op = 0x24 then 3 else b) c)
  let post :=
    if op = 0x0F ∨ op = 0x1A ∨ op = 0x22 ∨ op = 0x24 then [vConst d 1, vPick 1 d d 116]
    else if op = 0x20 then [cLine 0x1F (zSw 0 d 0 68 none)]
    else if op = 0x1D then [vMove d q] else []
  pre ++ [word] ++ post

/-- The operands of an operation and its guard, by the values that they name. -/
def ZBlock.uses (b : ZBlock) (o : ZOp) : List Nat :=
  (((o.operands b.strand).filter (·.2)).map fun x => b.rootOf x.1) ++ (if o.gsense = 0 then [] else [b.rootOf o.gref])

/-- The values that the commit reads: they keep their registers to the end. -/
def ZBlock.atEnd (b : ZBlock) : List Nat :=
  (b.liveOut.map fun x => b.rootOf x.2) ++ ((b.ops.zipIdx.filter fun x => b.commits x.2).flatMap fun x => b.uses x.1)

/-- The last operation that reads value `v`. -/
def ZBlock.lastUse (b : ZBlock) (v : Nat) : Nat :=
  if b.atEnd.contains v then b.ops.length
  else (b.ops.zipIdx.filter fun x => (b.uses x.1).contains v).foldl (fun m x => max m x.2) v

/-- Registers for the values of `ks`, in order: the first of the pool that no value still read holds. `held` gives key, register, and last
use. -/
def ZBlock.vPlaces (b : ZBlock) (pool : List Nat) : List Nat → List (Nat × Nat × Nat) → Except LoadError (List (Nat × Nat × Nat))
  | [], held => .ok held
  | k :: ks, held =>
    match pool.find? fun r => held.all fun h => h.2.1 != r || decide (h.2.2 < k) with
    | some r => b.vPlaces pool ks (held ++ [(k, r, b.lastUse k)])
    | none => .error .zwibel

/-- R424: a load whose result exactly one lane operation reads, with no other load between them. -/
def ZBlock.queued (b : ZBlock) (k : Nat) : Bool :=
  match b.ops.zipIdx.filter fun x => (b.uses x.1).contains k with
  | [(o, j)] =>
    decide (0x80 ≤ o.opc) && decide (o.opc ≤ 0xA4) && (o.gsense == 0 || b.rootOf o.gref != k) && !(b.liveOut.any fun x => b.rootOf x.2 == k) &&
    !(b.ops.zipIdx.any fun x => decide (k < x.2) && decide (x.2 < j) && x.1.opc == 0xC1)
  | _ => false

/-- The words of a strand block, in one order for its three engines. -/
def ZBlock.strandLines (b : ZBlock) (pool : List Nat) : Except LoadError (List ZLine) := do
  let packs := b.ops.any fun o => o.opc == 0x80 + 0x1C || o.opc == 0x80 + 0x1D
  let q := ((pool.find? fun r => (List.range 8).all fun j => pool.contains (r + j)).map fun r => r).getD 0
  loadNeed (!packs || (List.range 8).all fun j => pool.contains (q + j)) .zwibel
  let free := if packs then pool.filter fun r => decide (r < q) || decide (q + 8 ≤ r) else pool
  let caps := b.captured
  loadNeed (decide (caps.length ≤ free.length)) .zwibel
  let held ← b.vPlaces (free.drop caps.length) b.valued []
  let reg (late : Bool) (ref : Nat) : Nat :=
    let r := b.rootOf ref
    if r = 0xFF then 116
    else if r < 0x80 then ((held.find? (·.1 == r)).map (·.2.1)).getD 116
    else if late then ((caps.zip free).find? (·.1 == r)).map (·.2) |>.getD 116
    else b.liveIn.getD (r - 0x80) 116
  let word (k : Nat) (o : ZOp) : List ZLine :=
    let d := reg false k
    let msk := if o.gsense = 0 then 0 else 7
    let base :=
      if o.opc = 0xC1 then
        let load (vd : Nat) : ZLine := { tag := 0, op := 1, w := zSw msk vd (reg false o.a) (o.imm % 4 + 64) none }
        if b.queued k then [load 113, { vMove d 112 with pops := true }] else [load d]
      else if o.opc = 0x43 then [vConst d o.imm]
      else if o.opc = 0x44 then [vMove d (reg false o.a)]
      else o.laneLines k d (reg false o.a) (reg false o.b) (reg false o.c) q
    guardLines o.gsense (reg false o.gref) ++ base ++ (if o.gsense = 0 then [] else [vPick 7 d d (reg false o.a)])
  let store (o : ZOp) : List ZLine := guardLines o.gsense (reg false o.gref) ++
    [{ tag := 2, op := 1, w := zSw (if o.gsense = 0 then 0 else 7) (reg false o.b) (reg false o.a) (o.imm % 4 + 64) none }]
  pure ((b.valued.flatMap fun k => ((b.ops[k]?).map (word k)).getD []) ++ (caps.map fun r => vMove (reg true r) (reg false r)) ++
    ((b.ops.filter fun o => o.opc == 0xC2).flatMap store) ++ (b.liveOut.map fun x => vMove x.1 (reg true x.2)) ++
    (b.guardedExits.map fun o => cLine 0x28 (zSw 0 0 (reg true o.gref) 0 none)) ++
    [{ tag := 3, op := 1, w := zSw 0 0 0 0 none }, { tag := 3, op := 2, w := zSw 0 0 0 0 none }])

/-- A C word between every L word and S word that stand side by side: no token passes between those two engines (R172). -/
def relayed : List ZLine → List ZLine
  | x :: y :: rest =>
    let more := relayed (y :: rest)
    if (x.tag = 0 ∧ y.tag = 2) ∨ (x.tag = 2 ∧ y.tag = 0) then x :: cLine 0x24 (zSw 0 1 1 0 none) :: more else x :: more
  | xs => xs

/-- Whether a token hands over from a word to the next: the engines differ, both have tokens, and lq does not do it. -/
def handsOver (x y : ZLine) : Bool := x.tag != y.tag && y.tag != 3 && x.tag != 3 && !(y.pops && x.tag == 0)

/-- The text of the words, each with the push of its token to the next engine and the wait for the one before (R172). -/
def linkStrand : Option ZLine → List ZLine → List Byte
  | _, [] => []
  | prev, x :: rest =>
    let push := match rest.head? with
      | some y => if handsOver x y then (if x.tag = 2 ∨ (x.tag = 1 ∧ y.tag = 0) then 4 else 1) else 0
      | none => 0
    let wait := match prev with
      | some p => if handsOver p x then (if x.tag = 0 ∨ (x.tag = 1 ∧ p.tag = 2) then 8 else 2) else 0
      | none => 0
    leBytes (if x.w.ext.isSome then 12 else 6) (packStrand x.tag x.op { x.w with tok := BitVec.ofNat 4 (push + wait) }) ++ linkStrand (some x) rest

/-- R424: the text of a strand block. -/
def ZBlock.strandText (b : ZBlock) (pool : List Nat) : Except LoadError (List Byte) := do
  let xs ← b.strandLines pool
  pure (linkStrand none (relayed xs))

/-! ### The translated object (R425) -/

/-- Offsets of pieces of the given sizes, one after the other from `at'` on. -/
def offsetsFrom (at' : Nat) : List Nat → List Nat
  | [] => []
  | n :: ns => at' :: offsetsFrom (at' + n) ns

def roundUp (n a : Nat) : Nat := (n + a - 1) / a * a

/-- Helm text, strand text and block table made of the hyperblocks. An entry of the table has the index of its hyperblock; that of a helm block
names the one word `x.end` at the head of the text. -/
def translateZwibel (nblk : Nat) (bs : List ZBlock) : Except LoadError (Section × Section × Section) := do
  let helmRegs := namedRegs false bs
  let strandRegs := namedRegs true bs
  loadNeed (helmRegs.all (fun r => decide (r < 64)) && strandRegs.all (fun r => decide (r < 128))) .zwibel
  let tPool := ((List.range 16).map (· + 12)).filter fun r => !helmRegs.contains r
  let vPool := (List.range (16 * (if nblk = 0 then 1 else nblk))).filter fun r => !strandRegs.contains r
  let pieces ← bs.zipIdx.mapM fun x => if x.1.strand then x.1.stubText tPool x.2 else x.1.helmText tPool
  let labels := offsetsFrom 0 (pieces.map helmSize)
  let helm ← linkHelm labels 0 pieces.flatten
  let texts ← (bs.filter (·.strand)).mapM fun b => b.strandText vPool
  let base := roundUp helm.length 64
  let idle := leBytes 6 (packStrand 3 2 (zSw 0 0 0 0 none))
  let starts := offsetsFrom (base + idle.length) (texts.map List.length)
  let strand := idle ++ texts.flatten
  let entries := bs.zipIdx.map fun x => if x.1.strand then starts.getD ((bs.take x.2).countP (·.strand)) base else base
  pure ({ bytes := helm, at' := 0 }, { bytes := strand, at' := base },
    { bytes := entries.flatMap (leBytes 8), at' := roundUp (base + strand.length) 8 })

/-- R425: an object is its native text where section 0 or 1 is present, and what Binnacle makes of its hyperblocks where both are absent; either
passes the checks of R416, the version among them. The entry of a translated kernel is its block 0. -/
def loadObject (file : List Byte) : Except LoadError LoadedObject := do
  let (h, sec) ← openSko file
  h.check
  let helm ← sec 0
  let strand ← sec 1
  let zwibel ← sec 9
  if !helm.bytes.isEmpty || !strand.bytes.isEmpty || zwibel.bytes.isEmpty then loadParts h sec
  else do
    let bs ← loadZwibel file
    let (helm, strand, table) ← translateZwibel h.nblk bs
    loadParts { h with entryOff := 0 } fun i => match i with
      | 0 => .ok helm
      | 1 => .ok strand
      | 2 => .ok table
      | _ => sec i

end Sys2Proof.Machine
end

