-- ==== Sys2Proof/Tests/Slice0.lean ====
section
/-! SUPPORT. Tests of this model: the checks of well-formedness, words written out from the spec's encodings, single steps on small states,
and for each statement of the certificate a state and operands that meet its hypotheses. -/

set_option Elab.async false

namespace Sys2Proof.Tests

open Sys2Proof Sys2Proof.Machine Sys2Proof.Spec

/-! ### Small machines -/

/-- A team at user privilege on bay 0, its page 0 of global memory mapped, seg4 over all of it, with some registers set. -/
def helmTeam (gs : List (Nat × W64)) : Team :=
  { fetchTeam with
    segs := fetchTeam.segs.set 4 (mkSeg 0 (2 ^ 57) 0 false true true 0)
    g := gs.foldl (fun g x => g.set x.1 x.2) (List.replicate 64 0) }

/-- A machine in which the helm of the team is to execute. -/
def helmState (t : Team) : State := { placeWord State.reset 32 0x4 with agenda := [], cur := some (.helm 1), teams := [t] }

/-- A machine with no team. -/
def idleState : State := { helmState (helmTeam []) with teams := [], cur := none }

theorem turn {s : State} {t : Team} (hc : s.cur = some (.helm 1)) (ht : s.teams = [t]) (hk : t.key = 1) (hr : t.helmMayRun = true) :
    HelmTurn s t :=
  ⟨by rw [hk]; exact hc, by simp [State.team?, ht], hr⟩

theorem helm_turn (t : Team) (hk : t.key = 1) (hr : t.helmMayRun = true) : HelmTurn (helmState t) t := turn rfl rfl hk hr

/-- An operation of the machine that answers. -/
def answers {α : Type} (x : Except Stop (α × State)) : Bool := match x with | .ok _ => true | .error _ => false

theorem answer {α : Type} {x : Except Stop (α × State)} (h : answers x = true) : ∃ a s, x = .ok (a, s) := by
  cases x with
  | error e => simp [answers] at h
  | ok p => exact ⟨p.1, p.2, rfl⟩

theorem answer_unit {x : Except Stop (Unit × State)} (h : answers x = true) : ∃ s, x = .ok ((), s) := by
  cases x with
  | error e => simp [answers] at h
  | ok p => exact ⟨p.2, rfl⟩

/-- The machine after a step that gives one. -/
def after (o : Out) : Option State := match o with | .next s => some s | _ => none

/-- Two operations that answer one after the other. -/
theorem answer_both {α β : Type} {m : M α} {f : α → M β} {s : State} (h : answers ((m >>= f) s) = true) :
    ∃ a s1 b s2, m s = .ok (a, s1) ∧ f a s1 = .ok (b, s2) := by
  obtain ⟨b, s2, h⟩ := answer h
  obtain ⟨a, s1, h1, h2⟩ := M.bind_eq_ok.1 h
  exact ⟨a, s1, b, s2, h1, h2⟩

/-- An operation that answers something with the property. -/
def okAnd {ε α : Type} (x : Except ε α) (p : α → Bool) : Bool := match x with | .ok a => p a | .error _ => false

theorem okAnd_ex {ε α : Type} {x : Except ε α} {p : α → Bool} (h : okAnd x p = true) : ∃ a, x = .ok a ∧ p a = true := by
  cases x with
  | error e => simp [okAnd] at h
  | ok a => exact ⟨a, rfl, h⟩

/-- An operation that stops with something. -/
def stopAnd {ε α : Type} (x : Except ε α) (p : ε → Bool) : Bool := match x with | .ok _ => false | .error e => p e

theorem stopAnd_ex {ε α : Type} {x : Except ε α} {p : ε → Bool} (h : stopAnd x p = true) : ∃ e, x = .error e ∧ p e = true := by
  cases x with
  | error e => exact ⟨e, rfl, h⟩
  | ok a => simp [stopAnd] at h

theorem someAnd_ex {α : Type} {x : Option α} {p : α → Bool} (h : x.any p = true) : ∃ a, x = some a ∧ p a = true := by
  cases x with
  | none => simp at h
  | some a => exact ⟨a, rfl, h⟩

theorem okIs {ε α : Type} [DecidableEq α] {x : Except ε α} {a : α} (h : okAnd x (fun b => decide (b = a)) = true) : x = .ok a := by
  obtain ⟨b, h1, h2⟩ := okAnd_ex h
  rw [h1, of_decide_eq_true h2]

theorem stopIs {ε α : Type} [DecidableEq ε] {x : Except ε α} {e : ε} (h : stopAnd x (fun b => decide (b = e)) = true) : x = .error e := by
  obtain ⟨b, h1, h2⟩ := stopAnd_ex h
  rw [h1, of_decide_eq_true h2]

theorem goes_on {o : Out} (h : (after o).isSome = true) : ∃ s, o = .next s := by
  cases o with
  | next s => exact ⟨s, rfl⟩
  | fault f => simp [after] at h
  | refused r => simp [after] at h

/-- The team after a step. -/
def teamAfter (o : Out) : Option Team := (after o).bind (·.team? 1)

def regAfter (o : Out) (r : GReg) : Option W64 := (teamAfter o).map (·.reg r)

/-- The cause of the trap that a step raised. -/
def trapAfter (o : Out) : Option Nat := (teamAfter o).bind fun t => t.trap.map (·.cause)

/-! ### Ill-formed terms, one for each check (R29 to R54, R44) -/

theorem test_wf_helm_operands :
    (Instr.fcvtLP true 5 1 2).illFormed = some .rounding ∧ (Instr.call 0 1).illFormed = some .operand ∧
    (Instr.hloop 1 1).illFormed = some .operand ∧ (Instr.ld 1 2 7 0).illFormed = some .size ∧ (Instr.st 1 2 4 0).illFormed = some .size ∧
    (Instr.ldAcq 1 2 3 6).illFormed = some .scope ∧ (Instr.qPopr 63).illFormed = some .operand ∧ (Instr.qPeek 0).illFormed = some .operand ∧
    (Instr.shpGet 1 0 7).illFormed = some .function ∧ (Instr.shpTail 62 1 0).illFormed = some .operand ∧
    (Instr.wpArrive 1 2 1 0).illFormed = some .ordering ∧ (Instr.wpWait 1 2 2 0).illFormed = some .ordering ∧
    (Instr.wpStat 63 1).illFormed = some .operand ∧ (Instr.atCas 0 1 true 0 0).illFormed = some .operand ∧
    (Instr.atRed 6 false 1 2 true 0 0).illFormed = some .function ∧ (Instr.atRed 0 true 1 2 true 0 0).illFormed = some .reserved ∧
    (Instr.fence 0 1).illFormed = some .ordering ∧ (Instr.rbSurr 1 0).illFormed = some .operand ∧
    (Instr.teamInfo 1 8).illFormed = some .function ∧ (Instr.sysRd 1 5).illFormed = some .systemRegister := by decide

theorem test_wf_helm_long_words :
    (Instr.sts 1 2 4 4 0).illFormed = some .size ∧ (Instr.fma true 7 1 2 3 4).illFormed = some .rounding ∧
    (Instr.qPush 1 2 ⟨0x20, 0, 0, false, false, 0⟩).illFormed = some .operand ∧
    (Instr.qPush 1 2 ⟨0, 0, 0, false, true, 6⟩).illFormed = some .scope ∧
    (Instr.qPush 1 2 ⟨0, 0, 0, false, false, 1⟩).illFormed = some .reserved ∧
    (Instr.qPush 62 2 ⟨0, 0, 0, false, false, 0⟩).illFormed = some .operand ∧
    (Instr.qSplit 0 2 ⟨0, 0, 0, false, false, 0⟩).illFormed = some .operand ∧ (Instr.qWin 65).illFormed = some .operand ∧
    (Instr.shpReq 1 2 0 3 0 0).illFormed = some .function ∧ (Instr.shpReqV 1 2 0 0 1 0).illFormed = some .function ∧
    (Instr.shpSetLd 0 63).illFormed = some .operand ∧ (Instr.cpCopy 1 61 0 0 4 0).illFormed = some .operand ∧
    (Instr.cpCopy 1 4 0 0 0 8).illFormed = some .reserved ∧ (Instr.cpGath 1 4 0 0 0 8).illFormed = some .operand ∧
    (Instr.nestLaunch 1 4 false 5 0 0).illFormed = some .operand ∧ (Instr.rgInit 1 0 0 4 0).illFormed = some .reserved ∧
    (Instr.wpInitAlloc 1 2 3 0 0 true).illFormed = some .function ∧ (Instr.wpInitAlloc 1 2 0 0 1 true).illFormed = some .reserved ∧
    (Instr.segBindLd 1 4).illFormed = some .operand ∧ (Instr.pgMap 1 4 0 false).illFormed = some .operand ∧
    (Instr.lnkSet 0 0).illFormed = some .operand ∧ (Instr.fenceMk false false false false 0).illFormed = some .function ∧
    (Instr.fenceMk true false false false 1).illFormed = some .scope := by decide

/-- A lane word of one repetition: vd 1, va 2, vb 3. -/
def laneWord : SW := ⟨0, 0, 0, 0, 1, 2, 3, none⟩

def longExt : SExt := { imm := 0, ubase := 0, vc := 0, seg := 0, fmt := 0, sh := 0, acc := 0 }

theorem test_wf_lane_words :
    (Instr.vand { laneWord with step := 0x40 }).illFormed = some .reserved ∧
    (Instr.vand { laneWord with ext := some { longExt with imm := 0x1000 } }).illFormed = some .reserved ∧
    (Instr.vfadd { laneWord with ext := some { longExt with imm := 0x0500 } }).illFormed = some .rounding ∧
    (Instr.vadd { laneWord with ext := some { longExt with imm := 0x0001 } }).illFormed = some .reserved ∧
    (Instr.vadd { laneWord with ext := some { longExt with seg := 1 } }).illFormed = some .reserved ∧
    (Instr.vadd { laneWord with ext := some { longExt with imm := 0x8000 } }).illFormed = some .reserved ∧
    (Instr.vadd { laneWord with b := 113 }).illFormed = some .laneRegister ∧
    (Instr.vadd { laneWord with rep := 31, step := 0x30, vd := 100 }).illFormed = some .laneRegister ∧
    (Instr.vicmp { laneWord with vd := 0x51 }).illFormed = some .operand ∧
    (Instr.vmad { laneWord with vd := 113 }).illFormed = some .laneRegister ∧
    (Instr.vfrcp laneWord).illFormed = some .reserved ∧ (Instr.vcvt { laneWord with b := 12 }).illFormed = some .function ∧
    (Instr.vcvtLong laneWord).illFormed = some .form ∧ (Instr.vpack { laneWord with b := 3 }).illFormed = some .function ∧
    (Instr.vunpk { laneWord with vd := 113, b := 0 }).illFormed = some .laneRegister ∧
    (Instr.vmovI { laneWord with b := 0 }).illFormed = some .function ∧
    (Instr.vshufXor { laneWord with b := 0 }).illFormed = some .function ∧
    (Instr.vbcastY { laneWord with va := 0, b := 72 }).illFormed = some .function ∧
    (Instr.vred { laneWord with b := 0, vd := 1 }).illFormed = some .operand ∧ (Instr.vscan { laneWord with b := 11 }).illFormed = some .function ∧
    (Instr.vballot { laneWord with vd := 0 }).illFormed = some .operand ∧
    (Instr.vkey { laneWord with ext := some { longExt with imm := 17 } }).illFormed = some .function ∧
    (Instr.mop { laneWord with vd := 0x41 }).illFormed = some .function := by decide

theorem test_wf_data_words :
    (Instr.lLd { laneWord with tok := 1, b := 0 }).illFormed = none ∧ (Instr.lLd { laneWord with tok := 2, b := 0 }).illFormed = some .tokens ∧
    (Instr.sSt { laneWord with tok := 1, b := 0 }).illFormed = some .tokens ∧ (Instr.lLd { laneWord with b := 4 }).illFormed = some .space ∧
    (Instr.lGath { laneWord with step := 1, b := 0 }).illFormed = some .reserved ∧
    (Instr.sSt { laneWord with b := 0, ext := some { longExt with fmt := 2 } }).illFormed = some .size ∧
    (Instr.lLd { laneWord with b := 0, ext := some { longExt with seg := 1 } }).illFormed = some .reserved ∧
    (Instr.lLd { laneWord with b := 0, va := 112 }).illFormed = some .laneRegister ∧
    (Instr.lIcw { laneWord with b := 0, vd := 0, va := 0, ext := some longExt }).illFormed = some .form ∧
    (Instr.lRgWfill { laneWord with b := 0, vd := 0, va := 0x60 }).illFormed = some .scope ∧
    (Instr.sRgEos { laneWord with b := 0, vd := 1, va := 0 }).illFormed = some .reserved ∧
    (Instr.cPsend { laneWord with b := 1, vd := 0 }).illFormed = some .reserved := by decide

theorem test_wf_matrix_and_x_words :
    (Instr.mxGang { laneWord with vd := 0, va := 0, b := 0 }).illFormed = some .form ∧
    (Instr.mxGang { laneWord with vd := 0, va := 0, b := 0, ext := some { longExt with ubase := 1 } }).illFormed = some .operand ∧
    (Instr.mxMma { laneWord with vd := 1, b := 0, ext := some longExt }).illFormed = some .reserved ∧
    (Instr.mxMma { laneWord with vd := 0, b := 0, va := 117, ext := some longExt }).illFormed = some .laneRegister ∧
    (Instr.mxLdb { laneWord with vd := 0, b := 0, ext := some { longExt with acc := 1 } }).illFormed = some .reserved ∧
    (Instr.xNop { laneWord with tok := 1 }).illFormed = some .tokens ∧ (Instr.xEnd laneWord).illFormed = some .reserved ∧
    (Instr.xWparr { laneWord with b := 4 }).illFormed = some .ordering ∧ (Instr.xWpwait { laneWord with b := 0x60 }).illFormed = some .scope ∧
    (Instr.xWparr { laneWord with b := 3 }).illFormed = some .reserved ∧
    (Instr.xWparr { laneWord with b := 0, ext := some longExt }).illFormed = none ∧
    (Instr.xWparr { laneWord with b := 0, ext := some { longExt with imm := 1 } }).illFormed = some .reserved ∧
    (Instr.mxLdb { laneWord with vd := 0, b := 0, va := 113, ext := some longExt }).illFormed = some .laneRegister := by decide


/-! ### Words written out from the encodings -/

/-- The helm words of R35's example, by offset: `addi t0, zero, 0`, `b.eq a0, zero, +4`, `add t0, t0, a0`, `addi a0, a0, -1`, `j -3`, `addi a0, t0, 0`,
`ret ra` (02_encoding.md). -/
theorem test_decode_tri :
    decodeTableWord 32 0x00000C04 = some (.addi 12 0 0) ∧ decodeTableWord 32 0x00400420 = some (.bEq 4 0 4) ∧
    decodeTableWord 32 0x00430C02 = some (.add 12 12 4) ∧ decodeTableWord 32 0xFFF10404 = some (.addi 4 4 (-1)) ∧
    decodeTableWord 32 0xFFFF4030 = some (.j (-3)) ∧ decodeTableWord 32 0x00030404 = some (.addi 4 12 0) ∧
    decodeTableWord 32 0x04004034 = some (.ret 1) := by decide

/-- The long words of the chapters' examples: `li a0, 0x12345678`; `shp.req.floor t0, sh1, a0, f16`; `q.push.rel.team t5, t4, 3, all`;
`rg.init ring3, pad, a0, 0x4000`; `cp.copy.ar t0, a0, ce1, seg1:0x200`; `cp.replay k3, k2` (R31, R142, R159, R237, R281, R298). -/
theorem test_decode_long_words :
    decodeTableWord 64 0x1234567800000403 = some (.li 4 0x12345678) ∧
    decodeTableWord 64 0x0000000209010C13 = some (.shpReq 12 4 1 1 0 2) ∧
    decodeTableWord 64 0x00600003FF04110D = some (.qPush 17 16 ⟨0xFF, 3, 0, false, true, 1⟩) ∧
    decodeTableWord 64 0x000040000301001F = some (.rgInit 4 3 0 0 0x4000) ∧
    decodeTableWord 64 0x0000020070110C17 = some (.cpCopy 12 4 1 3 1 0x200) ∧
    decodeTableWord 64 0x00000000070EBB17 = some (.cpReplay 59 58) := by decide

/-- `fence.mk.done.team ce, mx`; `seg.bind.narrow seg7, seg4, a2, rw`; `pg.map t0, a0, 0xF`; `nest.launch t0, a0, q5, seg2:0x40`; `lnk.set 5, a2`
(R349, R356, R365, R377, R420). -/
theorem test_decode_system_long_words :
    decodeTableWord 64 0x000000001E00002B = some (.fenceMk false true true true 1) ∧
    decodeTableWord 64 0x0000000311718023 = some (.segBindNarrow 7 4 6 3) ∧
    decodeTableWord 64 0x000000000F010C25 = some (.pgMap 12 4 0xF false) ∧
    decodeTableWord 64 0x0000004005210C19 = some (.nestLaunch 12 4 false 5 2 0x40) ∧
    decodeTableWord 64 0x0000000500018029 = some (.lnkSet 6 5) := by decide

/-- `at.cas.d.ar.dev t0, seg4:[a0]`, `team.exit`, `team.info t0, 2`, `tlb.inv a0`, `tlb.inv.all`, `pg.probe t1, a0` (R345, R389, R363, R364). -/
theorem test_decode_helm_words :
    decodeTableWord 32 0x13F10C72 = some (.atCas 12 4 true 3 4) ∧ decodeTableWord 32 0x00100078 = some .teamExit ∧
    decodeTableWord 32 0x02200C78 = some (.teamInfo 12 2) ∧ decodeTableWord 32 0x0001007C = some (.tlbInv 4) ∧
    decodeTableWord 32 0x0100007C = some .tlbInvAll ∧ decodeTableWord 32 0x00110D7C = some (.pgProbe 13 4) := by decide

/-- HM and HS words, field by field (R38, R41): `ld.u64 g5, [g6 + 16]`, `q.popr g1`, `rg.claim.team g3, ring2`, `wp.wait.acq.dev g4, g5`,
`fence.ar.sys`, `rb.claim g2, b0 b6`, `sys.rd g9, 0x10`, `trap 7`. -/
theorem test_decode_fields :
    decodeTableWord 32 (0x20 * 2 + 5 * 2 ^ 8 + 6 * 2 ^ 14 + 3 * 2 ^ 20 + 2 * 2 ^ 23) = some (.ld 5 6 3 2) ∧
    decodeTableWord 32 (0x30 * 2 + 1 * 2 ^ 8) = some (.qPopr 1) ∧
    decodeTableWord 32 (0x37 * 2 + 3 * 2 ^ 8 + 2 * 2 ^ 24 + 1 * 2 ^ 28) = some (.rgClaim 3 2 1) ∧
    decodeTableWord 32 (0x38 * 2 + 4 * 2 ^ 8 + 5 * 2 ^ 14 + 2 * 2 ^ 20 + 1 * 2 ^ 24 + 4 * 2 ^ 26) = some (.wpWait 4 5 1 4) ∧
    decodeTableWord 32 (0x3A * 2 + 3 * 2 ^ 24 + 5 * 2 ^ 26) = some (.fence 3 5) ∧
    decodeTableWord 32 (0x3B * 2 + 2 * 2 ^ 14 + 1 * 2 ^ 20 + 0x41 * 2 ^ 24) = some (.rbClaim 2 0x41) ∧
    decodeTableWord 32 (0x3D * 2 + 9 * 2 ^ 8 + 0x10 * 2 ^ 24) = some (.sysRd 9 0x10) ∧
    decodeTableWord 32 (0x3D * 2 + 2 * 2 ^ 20 + 7 * 2 ^ 24) = some (.trap 7) := by decide

/-- The strand words of the chapters' examples: `l.ld v8, pad:[y1+v0] rep=16 step=1 >n`; `vfma v16, v0, v32 rep=8 adv=1.1.0`;
`s.rg.commit.team y2, ring3`; `x.wparr.s.rel.die y1, y2`; `mx.mma` of 09_matrix.md with v24, acc1, sh1, fmt 1 and y2 (R48, R55, R195, R243, R340,
R254). -/
theorem test_decode_strand_words :
    decodeTableWord 48 0x10004002F044 = some (.lLd ⟨1, 15, 1, 0, 8, 0, 8, none⟩) ∧
    decodeTableWord 48 0x4000802874C1 = some (.vfma ⟨0, 7, 0x14, 0, 16, 0, 32, none⟩) ∧
    decodeTableWord 48 0x004C10000442 = some (.sRgCommit ⟨0, 0, 0, 0, 2, 0x13, 0, none⟩) ∧
    decodeTableWord 48 0x7404500000C3 = some (.xWparr ⟨0, 0, 0, 0, 0xA, 1, 0x3A, none⟩) ∧
    decodeTableWord 96 (0x006000000FC1 + 0x000010001272 * 2 ^ 48) =
      some (.mxMma ⟨0, 0, 0, 0, 0, 24, 0, some ⟨0, 2, 0, 0, 1, 1, 1⟩⟩) := by decide

/-- Majors, numbers and fields that are not assigned are no instruction (R44, R54). -/
theorem test_decode_refuses :
    decodeTableWord 32 (0x7F * 2) = none ∧ decodeTableWord 32 (0x01 * 2 + 0x3F * 2 ^ 26) = none ∧
    decodeTableWord 32 (0x3D * 2 + 9 * 2 ^ 8 + 5 * 2 ^ 24) = none ∧ decodeTableWord 32 (0x10000078 + 1 * 2 ^ 20) = none ∧
    decodeTableWord 48 (0 + 0x3E * 2 ^ 6) = none := by decide

/-! ### Single steps of the helm -/

/-- `tri` of R35's example: each of its words in turn, on a0 = 3. -/
theorem test_integer_words :
    regAfter (exec (.add 12 12 4) (helmState (helmTeam [(12, 0xFFFFFFFFFFFFFFFF), (4, 3)]))) 12 = some 2 ∧
    regAfter (exec (.addi 4 4 (-1)) (helmState (helmTeam [(4, 0)]))) 4 = some 0xFFFFFFFFFFFFFFFF ∧
    regAfter (exec (.sub 3 1 2) (helmState (helmTeam [(1, 5), (2, 7)]))) 3 = some 0xFFFFFFFFFFFFFFFE ∧
    regAfter (exec (.mulh 3 1 2) (helmState (helmTeam [(1, 0xFFFFFFFFFFFFFFFF), (2, 2)]))) 3 = some 0xFFFFFFFFFFFFFFFF ∧
    regAfter (exec (.mulhu 3 1 2) (helmState (helmTeam [(1, 0xFFFFFFFFFFFFFFFF), (2, 2)]))) 3 = some 1 ∧
    regAfter (exec (.sha 3 1 2) (helmState (helmTeam [(1, 0x8000000000000000), (2, 65)]))) 3 = some 0xC000000000000000 := by decide

/-- R106's table. -/
theorem test_division :
    regAfter (exec (.div 3 1 2) (helmState (helmTeam [(1, 5)]))) 3 = some 0xFFFFFFFFFFFFFFFF ∧
    regAfter (exec (.rem 3 1 2) (helmState (helmTeam [(1, 5)]))) 3 = some 5 ∧
    regAfter (exec (.div 3 1 2) (helmState (helmTeam [(1, 0x8000000000000000), (2, 0xFFFFFFFFFFFFFFFF)]))) 3 = some 0x8000000000000000 ∧
    regAfter (exec (.rem 3 1 2) (helmState (helmTeam [(1, 0xFFFFFFFFFFFFFFF9), (2, 2)]))) 3 = some 0xFFFFFFFFFFFFFFFF := by decide

/-- R97 to R99: g0, and k0 at user privilege. -/
theorem test_registers :
    regAfter (exec (.addi 0 0 5) (helmState (helmTeam []))) 0 = some 0 ∧
    trapAfter (exec (.addi 56 0 5) (helmState (helmTeam []))) = some 0x03 ∧
    regAfter (exec (.addi 56 0 5) (helmState { helmTeam [] with super := true })) 56 = some 5 := by decide

/-- R110: 1 + 2^−53 in f64 rounds to even; 1 / 3 in f32. -/
theorem test_float_words :
    regAfter (exec (.fadd true 3 1 2) (helmState (helmTeam [(1, 0x3FF0000000000000), (2, 0x3CA0000000000000)]))) 3 = some 0x3FF0000000000000 ∧
    regAfter (exec (.fdiv false 3 1 2) (helmState (helmTeam [(1, 0x3F800000), (2, 0x40400000)]))) 3 = some 0x3EAAAAAB := by decide

/-- R122, R123, R129, R130: a taken branch, a call's link, the start of a loop and the end of a pass. -/
theorem test_control :
    (teamAfter (exec (.bEq 4 0 4) (helmState (helmTeam [])))).map (·.pc) = some 16 ∧
    (teamAfter (exec (.bEq 4 0 4) (helmState (helmTeam [(4, 1)])))).map (·.pc) = some 4 ∧
    regAfter (exec (.call 1 4) (helmState (helmTeam []))) 1 = some 0x0001000000000004 ∧
    (teamAfter (exec (.hloop 1 3) (helmState (helmTeam [(1, 2)])))).map (fun t => (t.loop.lcnt, t.loop.lbeg, t.loop.lend, t.pc)) = some (2, 4, 12, 4) ∧
    (teamAfter (exec (.addi 2 2 1) (helmState { helmTeam [] with
      pc := 8, loop := { lc := 0, lcnt := 2, lbeg := 4, lend := 12, lobj := 1 } }))).map (fun t => (t.loop.lc, t.pc)) = some (1, 4) := by decide

/-- R118, R119: limits, alignment, and a store read back in little-endian order with sign extension. -/
theorem test_memory :
    trapAfter (exec (.lds 3 0 0 2 0xFFFE) (helmState (helmTeam []))) = some 0x04 ∧
    trapAfter (exec (.sts 3 0 0 2 0xFFF0) (helmState (helmTeam []))) = some 0x05 ∧
    trapAfter (exec (.lds 3 0 4 2 0x102) (helmState (helmTeam []))) = some 0x08 ∧
    ((after (exec (.sts 1 0 4 1 0x100) (helmState (helmTeam [(1, 0x1234F2F1)])))).map fun s =>
      (s.byteAt 0x200100, s.byteAt 0x200101, s.byteAt 0x200102)) = some (0xF1, 0xF2, 0) ∧
    regAfter (match exec (.sts 1 0 4 1 0x100) (helmState (helmTeam [(1, 0x1234F2F1)])) with | .next s => exec (.lds 3 0 4 5 0x100) s | o => o) 3 =
      some 0xFFFFFFFFFFFFF2F1 := by decide +kernel

/-- R142's example: 100 × 100 × 40 of f16 on a Class A bay. -/
theorem test_shape_request :
    regAfter (exec (.shpReq 12 4 1 1 0 2) (helmState (helmTeam [(4, 0x0028000064000064)]))) 12 = some 0x0020000040000040 ∧
    (teamAfter (exec (.shpReq 12 4 1 1 0 2) (helmState (helmTeam [(4, 0x0028000064000064)])))).map (fun t => (t.shape 1).valid) = some true := by
  decide

/-- R401, R402: system registers, and the trap word. -/
theorem test_system :
    regAfter (exec (.sysRd 3 0x11) (helmState { helmTeam [] with loop := { lc := 0, lcnt := 9, lbeg := 0, lend := 0, lobj := 0 } })) 3 = some 9 ∧
    trapAfter (exec (.sysWr 3 0x01) (helmState (helmTeam [(3, 1)]))) = some 0x03 ∧
    trapAfter (exec (.trap 7) (helmState (helmTeam []))) = some 0x0F ∧
    (teamAfter (exec (.trap 7) (helmState (helmTeam [])))).map (·.phase) = some .freezing := by decide

/-! ### States and operands that meet the hypotheses of the statements -/

theorem witness_IntegerWords : ∃ s t i d v, HelmTurn s t ∧ t.mayWrite d = true ∧ intValue t.reg i = some (d, v) :=
  ⟨helmState (helmTeam []), helmTeam [], .add 3 1 2, 3, _, helm_turn _ rfl rfl, rfl, rfl⟩

theorem witness_DivisionCorners :
    (∃ s t, HelmTurn s t ∧ t.mayWrite 3 = true ∧ t.reg 2 = 0) ∧
    (∃ s t, HelmTurn s t ∧ t.mayWrite 3 = true ∧ t.reg 1 = 0x8000000000000000 ∧ t.reg 2 = 0xFFFFFFFFFFFFFFFF) :=
  ⟨⟨_, helmTeam [], helm_turn _ rfl rfl, rfl, rfl⟩,
   ⟨_, helmTeam [(1, 0x8000000000000000), (2, 0xFFFFFFFFFFFFFFFF)], helm_turn _ rfl rfl, rfl, rfl, rfl⟩⟩

theorem witness_BitFieldAndConstantWords : ∃ s t, HelmTurn s t ∧ t.mayWrite 55 = true ∧ (t.reg 1).toNat = 0xFFF :=
  ⟨_, helmTeam [(1, 0xFFF)], helm_turn _ rfl rfl, rfl, rfl⟩

theorem witness_FloatingWords :
    (∃ s t len v, HelmTurn s t ∧ t.mayWrite 3 = true ∧ floatValue t.reg (fun p => helmOrigin p t) (.fadd true 3 1 2) = some (len, 3, v)) ∧
    (∃ s t v, HelmTurn s t ∧ t.mayWrite 3 = true ∧ orderValue t.reg (.fmin true 3 1 2) = some (3, v)) :=
  ⟨⟨_, helmTeam [], 4, _, helm_turn _ rfl rfl, rfl, rfl⟩, ⟨_, helmTeam [], _, helm_turn _ rfl rfl, rfl, rfl⟩⟩

/-- 1 + 2^−53 in f64; a conversion of 1.5 to an integer; 1.5 of f32 and its infinity, to e4m3. -/
theorem witness_FloatingWords_rounding :
    (∃ s t f x neg, HelmTurn s t ∧ t.mayWrite 3 = true ∧ exactResult t.reg (.fadd true 3 1 2) 4 3 f 0 x neg) ∧
    (∃ s t f x neg, HelmTurn s t ∧ t.mayWrite 3 = true ∧ exactResult t.reg (.fma false 4 3 1 2 2) 8 3 f 4 x neg) ∧
    (∃ s t, HelmTurn s t ∧ t.mayWrite 3 = true ∧ CodeFinite (fpOf true) (fpCode true (t.reg 1))) ∧
    (fmtKind 0 = .float fp32 ∧ fmtKind 4 = .float fpE4m3 ∧ CodeFinite fp32 0x3FC00000 ∧ fp32.hasInf = true) := by
  have h : CodeFinite (fpOf true) (fpCode true ((helmTeam [(1, 0x3FF8000000000000), (2, 0x3CA0000000000000)]).reg 1)) := by unfold CodeFinite; decide +kernel
  have h2 : CodeFinite (fpOf true) (fpCode true ((helmTeam [(1, 0x3FF8000000000000), (2, 0x3CA0000000000000)]).reg 2)) := by unfold CodeFinite; decide +kernel
  have h3 : CodeFinite (fpOf false) (fpCode false ((helmTeam [(1, 0x3FC00000), (2, 0x3FC00000)]).reg 1)) := by unfold CodeFinite; decide +kernel
  have h4 : CodeFinite (fpOf false) (fpCode false ((helmTeam [(1, 0x3FC00000), (2, 0x3FC00000)]).reg 2)) := by unfold CodeFinite; decide +kernel
  exact ⟨⟨_, helmTeam [(1, 0x3FF8000000000000), (2, 0x3CA0000000000000)], _, _, _, helm_turn _ rfl rfl, rfl, rfl, rfl, rfl, rfl, h, h2, rfl, rfl⟩,
    ⟨_, helmTeam [(1, 0x3FC00000), (2, 0x3FC00000)], _, _, _, helm_turn _ rfl rfl, rfl, rfl, rfl, rfl, rfl, h3, h4, h4, rfl, rfl⟩,
    ⟨_, helmTeam [(1, 0x3FF8000000000000), (2, 0x3CA0000000000000)], helm_turn _ rfl rfl, rfl, h⟩, rfl, rfl, by unfold CodeFinite; decide, rfl⟩

theorem witness_ValueWordsFrame : ∃ s t, HelmTurn s t ∧ t.mayWrite 3 = true ∧ valueWord (.li 3 5) = some (8, 3) ∧ ∃ s', exec (.li 3 5) s = .next s' :=
  ⟨_, helmTeam [], helm_turn _ rfl rfl, rfl, rfl, goes_on (by decide)⟩

theorem witness_HelmRegisters :
    (∃ s t, HelmTurn s t ∧ valueWord (.add 0 1 2) = some (4, 0)) ∧
    (∃ s t, HelmTurn s t ∧ valueWord (.add 56 1 2) = some (4, 56) ∧ isKReg 56 = true ∧ t.super = false) ∧
    (∃ s t, HelmTurn s t ∧ valueWord (.add 61 1 2) = some (4, 61) ∧ isKReg 61 = true ∧ t.super = true) :=
  ⟨⟨_, helmTeam [], helm_turn _ rfl rfl, rfl⟩, ⟨_, helmTeam [], helm_turn _ rfl rfl, rfl, rfl, rfl⟩,
   ⟨_, { helmTeam [] with super := true }, helm_turn _ rfl rfl, rfl, rfl, rfl⟩⟩

theorem witness_HardwareLoops :
    (∃ s t, HelmTurn s t ∧ t.phase ≠ .stepping ∧ t.mayWrite 3 = true ∧ valueWord (.li 3 5) = some (8, 3) ∧ t.loop.lcnt ≠ 0) ∧
    (∃ s t, HelmTurn s t ∧ t.phase ≠ .stepping ∧ t.loop.lcnt = 0 ∧ t.reg 1 = 0) ∧
    (∃ s t, HelmTurn s t ∧ t.phase ≠ .stepping ∧ t.loop.lcnt = 0 ∧ t.reg 1 ≠ 0) :=
  ⟨⟨_, { helmTeam [] with loop := { lc := 0, lcnt := 1, lbeg := 0, lend := 8, lobj := 1 } }, helm_turn _ rfl rfl, nofun, rfl, rfl, nofun⟩,
   ⟨_, helmTeam [], helm_turn _ rfl rfl, nofun, rfl, rfl⟩, ⟨_, helmTeam [(1, 1)], helm_turn _ rfl rfl, nofun, rfl, by decide⟩⟩

theorem witness_BranchWords : ∃ s t taken off, HelmTurn s t ∧ t.phase ≠ .stepping ∧ branchWord t.reg (.bLt 1 2 (-1)) = some (taken, off) :=
  ⟨_, helmTeam [(1, 0xFFFFFFFFFFFFFFFF)], true, -1, helm_turn _ rfl rfl, nofun, rfl⟩

/-- A team whose object table maps entry 1, at 0x20_0040 of HBM, with the state given. -/
def tableState (t : Team) (st : Nat) : State :=
  let s := helmState t
  { s with mem := memSetList s.mem 0x200040 (leBytes 64 (st + 2 ^ 512 / 2)) }

def linkTeam (gs : List (Nat × W64)) : Team :=
  let t := helmTeam gs
  { t with curObj := 2, segs := t.segs.set 15 (mkSeg 0 0x1000 0 false false true 0x8000) }

theorem link_turn (t : Team) (st : Nat) (hk : t.key = 1) (hr : t.helmMayRun = true) : HelmTurn (tableState t st) t :=
  turn rfl rfl hk hr

theorem witness_CallAndReturnWords :
    (∃ s t, HelmTurn s t ∧ t.phase ≠ .stepping ∧ t.mayWrite 1 = true) ∧
    (∃ s t, HelmTurn s t ∧ (t.reg 2).toNat / 2 ^ 48 = 0) ∧
    (∃ s t, HelmTurn s t ∧ (t.reg 2).toNat / 2 ^ 48 ≠ t.curObj ∧ (t.reg 2).toNat % 4 = 0 ∧ t.mayWrite 1 = true ∧
      ∃ s2, switchObject t.key (t.reg 2) ((t.reg 2).toNat / 2 ^ 48) s = .ok ((), s2)) ∧
    (∃ s t, HelmTurn s t ∧ t.reg 2 = 0) ∧
    (∃ s t, HelmTurn s t ∧ t.reg 2 ≠ 0 ∧ (t.reg 2).toNat % 4 = 0 ∧ (t.reg 2).toNat / 2 ^ 48 = t.curObj ∧ t.phase ≠ .stepping) :=
  ⟨⟨_, helmTeam [], helm_turn _ rfl rfl, nofun, rfl⟩, ⟨_, helmTeam [(2, 0x1000)], helm_turn _ rfl rfl, rfl⟩,
   ⟨_, linkTeam [(2, 0x0001000000000400)], link_turn _ 2 rfl rfl, by decide, rfl, rfl, answer_unit (by decide +kernel)⟩,
   ⟨_, helmTeam [], helm_turn _ rfl rfl, rfl⟩, ⟨_, helmTeam [(2, 0x0001000000000400)], helm_turn _ rfl rfl, by decide, rfl, rfl, nofun⟩⟩

theorem witness_ObjectSwitch :
    (∃ (s s1 : State) (t : Team) (loc : Nat), s.team? t.key = some t ∧ s.objLoc t 1 = some (loc, s1) ∧ readValue (s1.atomicRead t.place loc 64).1 % 4 < 2) ∧
    (∃ (s s1 : State) (t : Team) (loc : Nat), s.team? t.key = some t ∧ s.objLoc t 1 = some (loc, s1) ∧ 2 ≤ readValue (s1.atomicRead t.place loc 64).1 % 4 ∧
      t.pins.length < 32 ∧ t.segs.length = 16 ∧ t.g.length = 64) := by
  constructor
  · have h : ((tableState (linkTeam []) 1).objLoc (linkTeam []) 1).any (fun x =>
        decide (readValue (x.2.atomicRead (linkTeam []).place x.1 64).1 % 4 < 2)) = true := by decide +kernel
    obtain ⟨⟨loc, s1⟩, h1, h2⟩ := someAnd_ex h
    exact ⟨_, s1, linkTeam [], loc, rfl, h1, of_decide_eq_true h2⟩
  · have h : ((tableState (linkTeam []) 2).objLoc (linkTeam []) 1).any (fun x =>
        decide (2 ≤ readValue (x.2.atomicRead (linkTeam []).place x.1 64).1 % 4)) = true := by decide +kernel
    obtain ⟨⟨loc, s1⟩, h1, h2⟩ := someAnd_ex h
    exact ⟨_, s1, linkTeam [], loc, rfl, h1, of_decide_eq_true h2, by decide, rfl, rfl⟩

/-- A machine whose next move is the helm's, or an engine's, at a word that `withFetchWord` has placed. -/
theorem witness_StepRunsTheDecodedWord :
    (let s := State.reset.withFetchWord 32 0x00430C02
     let s1 : State := { s with agenda := [] }
     s.agenda = [.helm 0 0] ∧ s.mgmt.thermal = false ∧ HelmReady s1 fetchTeam ∧
       (∃ a s2, fetchUnit fetchTeam fetchTeam.pc.toNat { s1 with cur := some (.helm 1) } = .ok (a, s2)) ∧ fetchTeam.watchWord 1 0 = none ∧
       decodeHelm (leBytes 4 0x00430C02) = .ok (.add 12 12 4, [])) ∧
    (let s := State.reset.withFetchWord 48 0x4000802874C1
     s.agenda = [.engine 1 0 (.c 0)] ∧ ∃ g e, fetchStrandTeam.group? 0 = some g ∧ fetchStrandTeam.entryAt 0 = some e ∧
       EngineReady { s with agenda := [] } fetchStrandTeam g (.c 0) e ∧ (g.eng (.c 0)).off + 6 ≤ s.strandLimit 0 e.view) ∧
    (∃ (s : State) (i : Instr), s.agenda = [.event i] ∧ isWord i = false ∧ s.mgmt.thermal = false) := by
  refine ⟨⟨rfl, rfl, ⟨by decide +kernel, by decide, by decide +kernel⟩, answer (by decide +kernel), by decide, by rfl⟩,
    ⟨by decide, _, _, rfl, rfl, ⟨by decide +kernel, rfl, rfl, by decide, by decide, by decide⟩, by decide +kernel⟩,
    ⟨{ State.reset with agenda := [.event .thermalStop] }, .thermalStop, rfl, rfl, rfl⟩⟩

theorem witness_round_trips :
    ((Instr.add 12 12 4).wellFormed = true ∧ ∃ w, helmWord (.add 12 12 4) = some w) ∧
    ((Instr.vadd laneWord).wellFormed = true ∧ ∃ w, strandWord (.vadd laneWord) = some w) :=
  ⟨⟨by decide, _, rfl⟩, ⟨by decide, _, rfl⟩⟩

/-- The read, write and stop cases of an address of seg4, and one of the lock table at supervisor privilege. -/
theorem witness_AddressesAndTranslation :
    (let t := helmTeam []
     let s := helmState t
     let sg := t.seg 4
     (segLimit sg : Int) = 2 ^ 57 ∧ segPermits sg .read = true ∧ segPermits sg .fetch = false ∧ segSpace sg = 0 ∧
       (∃ loc s', translate t.dct.roots t.dct.aspace t.dctx 0 true false .read (segBase sg + 0x108) s = .ok (loc, s')) ∧
       s.leavesFor (t.dct.roots.getD 0 0) 0 0 true 0x10000 = [none] ∧
       ∃ leaf, s.leavesFor (t.dct.roots.getD 0 0) 0 0 true 0xFFFF = [some (false, leaf)] ∧ leafMode leaf ≠ 2 ∧ leafTgt leaf = 0 ∧
         leafSup leaf = false ∧ leafPermits leaf .read = true ∧ s.dieUp (dieOfPa (offsetOf (leafLoc false leaf 0xFFFF))) = true ∧
         ∃ s', checkHealth (leafLoc false leaf 0xFFFF) 0xFFFF false (s.enterUse (t.dct.roots.getD 0 0) 0 0xFFFF false leaf) = .ok ((), s')) ∧
    (let sg := mkSeg 4 0x20000 0 false true true 0
     segSpace sg = 4 ∧ segPermits sg .write = true ∧ (helmState (helmTeam [])).dieUp (0x7FF8 / 0x8000) = true) := by
  refine ⟨⟨rfl, rfl, rfl, rfl, answer (by decide +kernel), by decide +kernel, 2 ^ 63 + 2 ^ 60 + 2 ^ 57 + 2 ^ 56 + 2 ^ 55 + 0x200000,
    by decide +kernel, by decide, by decide, by decide, by decide, by decide +kernel, answer_unit (by decide +kernel)⟩, by decide⟩

theorem witness_LoadWords :
    (∃ s t d sg off size acq c, HelmTurn s t ∧ loadWord t (.ld 3 1 3 0) = some (4, d, sg, off, size, acq) ∧
      helmAddress t sg off (bytesOf size) .read s = .error (.trap c)) ∧
    (∃ s t d sg off size L s1 x s2, HelmTurn s t ∧ loadWord t (.ldAcq 3 1 3 5) = some (4, d, sg, off, size, some 5) ∧
      helmAddress t sg off (bytesOf size) .read s = .ok (L, s1) ∧ readHelm t L (bytesOf size) s1 = .ok (x, s2) ∧ t.mayWrite d = true) ∧
    (∃ s t d sg off size acq L s1, HelmTurn s t ∧ loadWord t (.ld 56 1 3 0) = some (4, d, sg, off, size, acq) ∧
      helmAddress t sg off (bytesOf size) .read s = .ok (L, s1) ∧ t.mayWrite d = false) := by
  refine ⟨⟨_, helmTeam [(1, 1)], 3, _, _, _, _, _, helm_turn _ rfl rfl, rfl, by rfl⟩, ?_⟩
  let t := helmTeam [(1, 0x108)]
  have h : answers ((helmAddress t (t.seg 4) 0x108 8 .read >>= fun L => readHelm t L 8) (helmState t)) = true := by decide +kernel
  obtain ⟨L, s1, x, s2, h1, h2⟩ := answer_both h
  exact ⟨⟨_, t, 3, _, 0x108, 3, L, s1, x, s2, helm_turn _ rfl rfl, rfl, h1, h2, rfl⟩, _, t, 56, _, 0x108, 3, none, L, s1, helm_turn _ rfl rfl, rfl, h1, rfl⟩

theorem witness_StoreWords :
    (∃ s t g sg off size rel c, HelmTurn s t ∧ Memory.wf s.mem = true ∧ storeWord t (.st 3 1 3 0) = some (4, g, sg, off, size, rel) ∧
      helmAddress t sg off (bytesOf size) .write s = .error (.trap c)) ∧
    (∃ s t g sg off size, HelmTurn s t ∧ storeWord t (.stRel 3 1 0 4) = some (4, g, sg, off, size, some 4) ∧
      ∃ L s1, helmAddress t sg off (bytesOf size) .write s = .ok (L, s1)) :=
  ⟨⟨_, helmTeam [(1, 4)], 3, _, _, _, _, _, helm_turn _ rfl rfl, by decide +kernel, rfl, by rfl⟩,
   ⟨_, helmTeam [(1, 0xFFFF)], 3, _, 0xFFFF, 0, helm_turn _ rfl rfl, rfl, answer (by decide +kernel)⟩⟩

/-- A location with one write that the reader does not know. -/
def writtenState : State := (helmState (helmTeam [])).writeAs hostPlace none 0x200108 [7, 9]

theorem witness_ReadValues :
    ((∀ w ∈ writtenState.writes, w.id < writtenState.nextWrite) ∧ (∀ id ∈ (writtenState.knowOf .host).known, id < writtenState.nextWrite) ∧
      ∀ w ∈ writtenState.writes, w.covers 0x200108 = true → w.bottom = true ∨ w.id ∈ (writtenState.knowOf .host).known) ∧
    scopeRace writtenState.writes [] [] 0x200108 = false ∧ (candidates writtenState.writes [] 0x200108).isEmpty = false := by decide +kernel

theorem witness_ShapeWords :
    (∃ s t, HelmTurn s t ∧ t.mayWrite 12 = true ∧ ¬acceptedFormat false 0x0B ∧ acceptedFormat true 0x0B ∧ acceptedFormat false 0x12 ∧
      t.mayWrite (12 + 1) = true ∧ t.mayWrite (12 + 2) = true ∧ (t.shape 0).valid = false) ∧
    (∃ s t, HelmTurn s t ∧ (t.shape 1).valid = true ∧ 0 < (t.shape 1).extent ∧ (64 : W32).toNat ≤ (t.shape 1).extent) ∧
    (∃ s t, HelmTurn s t ∧ t.super = true) := by
  refine ⟨⟨_, helmTeam [], helm_turn _ rfl rfl, by unfold acceptedFormat; decide⟩,
    ⟨_, { helmTeam [] with shapes := List.replicate 8 { Shape.zero with valid := true, grm := 64, grn := 64, grk := 32 } }, helm_turn _ rfl rfl, by decide⟩,
    ⟨_, { helmTeam [] with super := true }, helm_turn _ rfl rfl, rfl⟩⟩

/-- A team with one lane group of 16 lanes and the text of one block. -/
def laneTeam (gs : List (Nat × W64)) : Team :=
  let t := helmTeam gs
  let t : Team := { t with kernel := { KernelInfo.zero with obj := 1, width := 16, blocks := 7, text := t.seg 0, blkOff := 0x100, nblk := 1 } }
  { t with groups := [freshGroup 0 0 7 0] }

def pushOf (gsel : BitVec 8) (block : W16) : PushFields := { gsel := gsel, block := block, lay := 0, lfix := false, rel := false, rscope := 0 }

/-- A team whose cq and rq are full and whose one group waits to post in its oldest entry. -/
def stuckTeam : Team :=
  let g := freshGroup 0 0 7 0
  { laneTeam [] with
    cq := (List.range 64).map fun n => { fetchEntry (helmTeam []) with n := n }, nextPush := 64
    rq := List.replicate 16 { flags := 0, predv := 0, block := 0, grp := 0, seq := 0, release := none }
    groups := [{ g with paths := g.paths.map fun p => { p with c := { p.c with running := true, entry := 0, waitFor := some .rqFull } } }] }

theorem witness_CommandQueuePushes :
    (∃ s t, HelmTurn s t ∧ t.inVector = false ∧ t.cqOccupancy ≤ 62 ∧ groupsExist t 0 ∧ ¬someSplit t 0 ∧ ¬everySplit t 0 ∧ 0 < t.kernel.nblk ∧
      ¬groupsExist t 1) ∧
    (∃ s t, HelmTurn s t ∧ t.inVector = false ∧ groupsExist t 0xFF ∧ everySplit t 0xFF) ∧
    (∃ s t, HelmTurn s t ∧ t.inVector = false ∧ 63 < t.cqOccupancy ∧ ¬pushStuck t) ∧
    (∃ s t, HelmTurn s t ∧ t.inVector = false ∧ 63 < t.cqOccupancy ∧ pushStuck t ∧ groupsExist t 0 ∧ ¬everySplit t 0) ∧
    (∃ s t, HelmTurn s t ∧ t.inVector = false ∧ t.cqOccupancy = 63 ∧ ¬pushStuck t) := by
  refine ⟨⟨_, laneTeam [], helm_turn _ rfl rfl, rfl, by unfold groupsExist someSplit everySplit; decide⟩,
    ⟨_, { laneTeam [] with groups := [{ freshGroup 0 0 7 0 with pushSplit := true }] }, helm_turn _ rfl rfl, rfl, by unfold groupsExist everySplit; decide⟩,
    ⟨_, { laneTeam [] with cq := List.replicate 64 (fetchEntry (helmTeam [])), nextPush := 64 }, helm_turn _ rfl rfl, rfl, by decide, ?_⟩,
    ⟨_, stuckTeam, helm_turn _ rfl rfl, rfl, by decide +kernel, ⟨by decide +kernel, by decide +kernel, ?_⟩, by unfold groupsExist; decide +kernel, by unfold everySplit; decide +kernel⟩,
    ⟨_, { stuckTeam with nextPush := 63, rq := [] }, helm_turn _ rfl rfl, rfl, by decide +kernel, ?_⟩⟩
  · rintro ⟨h, -⟩
    exact absurd h (by decide)
  · intro e he
    have h0 : stuckTeam.cq.head? = some { fetchEntry (helmTeam []) with n := 0 } := by decide +kernel
    rw [h0] at he
    cases he
    exact ⟨stuckTeam.groups.head (by decide), by decide +kernel, by decide +kernel, by decide +kernel⟩
  · rintro ⟨h, -⟩
    exact absurd h (by decide)

theorem witness_RecordQueueWords :
    (∃ s t, HelmTurn s t ∧ t.mayWrite 54 = true ∧ t.mayWrite (54 + 1) = true ∧ t.rq = [] ∧ (∀ g ∈ t.groups, g.canPost s t = false) ∧
      ∀ e ∈ t.cq, e.kind ≠ .mark ∧ e.kind ≠ .eos) ∧
    (∃ s t e rest r, HelmTurn s t ∧ t.rq = e :: rest ∧ e.release = some r ∧
      ∃ s1, helmAcquire t 1 none [r] (s.mapTeam t.key fun u => { u with rq := rest }) = .ok ((), s1)) ∧
    (∃ s t, HelmTurn s t ∧ t.rq = [] ∧ ∃ e ∈ t.cq, e.kind = .mark ∨ e.kind = .eos) ∧
    (∃ s t g off s1, HelmTurn s t ∧ t.inVector = true ∧ t.service = none ∧ t.cause.toNat / 2 ^ 16 % 32 = 0 ∧ t.group? 0 = some g ∧ 0 < t.curNblk ∧
      (t.reg 1).toNat % 2 ^ 24 ≠ 0 ∧ startOff t g (fetchEntry t) s = .ok (off, s1) ∧ t.phase ≠ .stepping) := by
  refine ⟨⟨_, helmTeam [], helm_turn _ rfl rfl, rfl, rfl, rfl, by decide, by decide⟩,
    ⟨_, { helmTeam [] with rq := [{ flags := 0, predv := 1, block := 0, grp := 0, seq := 0, release := some Release.none }] }, _, [], Release.none,
      helm_turn _ rfl rfl, rfl, rfl, answer_unit (by decide +kernel)⟩,
    ⟨_, { helmTeam [] with cq := [{ fetchEntry (helmTeam []) with kind := .mark }] }, helm_turn _ rfl rfl, rfl, by decide⟩, ?_⟩
  let t : Team := { laneTeam [(1, 1)] with inVector := true, super := true, curNblk := 1 }
  have h : ∃ g, t.group? 0 = some g ∧ answers (startOff t g (fetchEntry t) (helmState t)) = true := ⟨_, rfl, by decide +kernel⟩
  obtain ⟨g, hg, h⟩ := h
  obtain ⟨off, s1, h⟩ := answer h
  exact ⟨_, t, g, off, s1, helm_turn _ rfl rfl, rfl, rfl, by decide, hg, by decide, by decide, h, nofun⟩

/-- A team in its vector at supervisor privilege; its block is at address 0 of seg4, so that its save area and watch table are mapped. -/
def vectorTeam (gs : List (Nat × W64)) : Team :=
  { linkTeam gs with curObj := 1, super := true, inVector := true, epc := 0x0001000000000400 }

/-- `tableState` with a device context whose entry is valid, admits queue 0, and has its vector in object 1. -/
def dctState (t : Team) (st : Nat) : State :=
  let s := tableState t st
  { s with mem := memSetList s.mem 0 (leBytes 96 (1 + 2 ^ 32 + 2 ^ 64 + 0x100000 * (2 ^ 128 + 2 ^ 192 + 2 ^ 256 + 2 ^ 320) + 2 ^ 432 +
      0x400 * 2 ^ 384 + 4096 * 2 ^ 704)) }

theorem witness_SystemRegisters :
    (∃ s t v, HelmTurn s t ∧ t.mayWrite 3 = true ∧ (0x00, v) ∈ systemTable s t) ∧ (∃ s t b, HelmTurn s t ∧ s.bay? t.bay = some b) ∧
    (∃ s t old, HelmTurn s t ∧ (0x00, old) ∈ systemTable s t ∧ t.super = false ∧ changesSv old (t.reg 1) 0x00) ∧
    (∃ s t old, HelmTurn s t ∧ (0x00, old) ∈ systemTable s t ∧ t.super = true) ∧
    (∃ s t, HelmTurn s t ∧ ¬changesSv t.mmcfg (t.reg 1) 0x08 ∧ (t.reg 1).getLsbD 0 = false) := by
  refine ⟨⟨_, helmTeam [], _, helm_turn _ rfl rfl, rfl, List.mem_cons_self ..⟩, ⟨_, helmTeam [], _, helm_turn _ rfl rfl, rfl⟩,
    ⟨_, helmTeam [(1, 4)], _, helm_turn _ rfl rfl, List.mem_cons_self .., rfl, ⟨2, by decide, by unfold svBit; decide, by decide⟩⟩,
    ⟨_, { helmTeam [] with super := true }, _, helm_turn _ rfl rfl, List.mem_cons_self .., rfl⟩,
    ⟨_, helmTeam [], helm_turn _ rfl rfl, fun ⟨_, _, _, h⟩ => h (by simp [helmTeam, fetchTeam, Team.fresh, Team.reg]), rfl⟩⟩

theorem witness_TrapsAndDoubles :
    (∃ s t, HelmTurn s t ∧ t.inVector = false ∧ t.phase = .running) ∧ (∃ s t, HelmTurn s t ∧ t.inVector = true) :=
  ⟨⟨_, helmTeam [], helm_turn _ rfl rfl, rfl, rfl⟩, ⟨_, vectorTeam [], helm_turn _ rfl rfl, rfl⟩⟩

/-- A team that has raised `trap 7`, its block at the address given. -/
def freezingTeam (block : Nat) : Team :=
  { linkTeam [] with curObj := 1, block := block, phase := .freezing, trap := some (helmTrapOf 0x0F 7) }

/-- The entry of the team's vector for a trap that is in place: with a save area that is mapped, and with one that is not. -/
theorem witness_VectorEntry :
    (∃ s1 d loc s2' s3, let t := freezingTeam 0
      let tr := helmTrapOf 0x0F 7
      let s := dctState t 2
      let u := trapRegisters tr d t
      let s2 := (s1.leaveRings t.key).mapTeam t.key (trapRegisters tr d)
      s.team? t.key = some t ∧ t.phase = .freezing ∧ s.drained t = true ∧ t.trap = some tr ∧ readDct t.place t.dctx s = .ok (d, s1) ∧
      t.resident = true ∧ s2.partAddr u (t.block + 0xE000) .write = .ok (loc, s2') ∧ d.vector.toNat % 4 = 0 ∧
      switchObject t.key d.vector (d.vector.toNat / 2 ^ 48) ((s2'.writeAs t.place none loc (areaOf t)).mapTeam t.key inItsVector) = .ok ((), s3)) ∧
    (∃ s1 d c, let t := freezingTeam 0x10000
      let tr := helmTrapOf 0x0F 7
      let s := dctState t 2
      s.team? t.key = some t ∧ t.phase = .freezing ∧ t.resident = true ∧ s.drained t = true ∧ t.trap = some tr ∧ readDct t.place t.dctx s = .ok (d, s1) ∧
      ((s1.leaveRings t.key).mapTeam t.key (trapRegisters tr d)).partAddr (trapRegisters tr d t) (t.block + 0xE000) .write = .error c) := by
  constructor
  · have h : okAnd (readDct (freezingTeam 0).place 0 (dctState (freezingTeam 0) 2)) (fun x =>
        let t := freezingTeam 0
        let s2 := (x.2.leaveRings t.key).mapTeam t.key (trapRegisters (helmTrapOf 0x0F 7) x.1)
        decide (x.1.vector.toNat % 4 = 0) && okAnd (s2.partAddr (trapRegisters (helmTrapOf 0x0F 7) x.1 t) (t.block + 0xE000) .write) fun y =>
          okAnd (switchObject t.key x.1.vector (x.1.vector.toNat / 2 ^ 48)
            ((y.2.writeAs t.place none y.1 (areaOf t)).mapTeam t.key inItsVector)) fun _ => true) = true := by decide +kernel
    obtain ⟨⟨d, s1⟩, h1, h⟩ := okAnd_ex h
    have h2 := of_decide_eq_true (Bool.and_eq_true_iff.1 h).1
    obtain ⟨⟨loc, s2'⟩, h3, h⟩ := okAnd_ex (Bool.and_eq_true_iff.1 h).2
    obtain ⟨⟨⟨⟩, s3⟩, h4, -⟩ := okAnd_ex h
    exact ⟨s1, d, loc, s2', s3, rfl, rfl, rfl, rfl, h1, rfl, h3, h2, h4⟩
  · have h : okAnd (readDct (freezingTeam 0x10000).place 0 (dctState (freezingTeam 0x10000) 2)) (fun x =>
        let t := freezingTeam 0x10000
        stopAnd (((x.2.leaveRings t.key).mapTeam t.key (trapRegisters (helmTrapOf 0x0F 7) x.1)).partAddr (trapRegisters (helmTrapOf 0x0F 7) x.1 t)
          (t.block + 0xE000) .write) fun _ => true) = true := by decide +kernel
    obtain ⟨⟨d, s1⟩, h1, h⟩ := okAnd_ex h
    obtain ⟨c, h2, -⟩ := stopAnd_ex h
    exact ⟨s1, d, c, rfl, rfl, rfl, rfl, rfl, h1, h2⟩

/-- What `areaOf` of the team says, at the mapped save area. -/
def savedState (t : Team) : State :=
  let s := tableState t 2
  { s with mem := memSetList s.mem 0x20E000 (areaOf t) }

theorem saved_turn (t : Team) (hk : t.key = 1) (hr : t.helmMayRun = true) : HelmTurn (savedState t) t := turn rfl rfl hk hr

theorem witness_ReturnsFromTheVector :
    (∃ (t : Team) (u : List Nat), t.segs.length = 16 ∧ t.curObj < 2 ^ 16 ∧ t.loop.lbeg.toNat % 4 = 0 ∧ t.loop.lend.toNat % 4 = 0 ∧
      ∀ i, i < 38 → u.getD i 0 = leNat (((areaOf t).drop (8 * i)).take 8)) ∧
    (∃ s t, HelmTurn s t ∧ t.super = false) ∧ (∃ s t, HelmTurn s t ∧ t.super = true ∧ t.inVector = false) ∧
    (∃ s t, HelmTurn s t ∧ t.super = true ∧ t.inVector = true ∧ t.service.isSome = true) ∧
    (∃ s t c, HelmTurn s t ∧ t.super = true ∧ t.inVector = true ∧ t.service = none ∧ s.partAddr t (t.block + 0xE000) = .error c) ∧
    (∃ s t loc u s0 s1 r ws s4, HelmTurn s t ∧ t.super = true ∧ t.inVector = true ∧ t.service = none ∧ s.partAddr t (t.block + 0xE000) = .ok (loc, s0) ∧
      readUnits t.place loc 38 s0 = .ok (u, s1) ∧ t.stepmask.getLsbD 8 = false ∧ t.epc.toNat / 2 ^ 48 = u.getD 32 0 % 2 ^ 16 ∧
      t.epc.toNat / 2 ^ 48 ≠ 0 ∧ t.epc.toNat % 4 = 0 ∧ (s1.mapTeam t.key (·.restoreArea u)).team? t.key = some r ∧
      readWatches t (s1.mapTeam t.key (·.restoreArea u)) = .ok (ws, s4) ∧ t.step = false) ∧
    (∃ s t loc u s0 s1 s3, HelmTurn s t ∧ t.super = true ∧ t.inVector = true ∧ t.service = none ∧ s.partAddr t (t.block + 0xE000) = .ok (loc, s0) ∧
      readUnits t.place loc 38 s0 = .ok (u, s1) ∧ t.epc.toNat / 2 ^ 48 ≠ u.getD 32 0 % 2 ^ 16 ∧
      switchObject t.key t.epc (t.epc.toNat / 2 ^ 48) (s1.mapTeam t.key (·.restoreArea u)) = .ok ((), s3) ∧ t.epc.toNat % 4 = 0 ∧ t.step = true) := by
  refine ⟨⟨vectorTeam [], (List.range 38).map fun i => leNat (((areaOf (vectorTeam [])).drop (8 * i)).take 8), by decide +kernel⟩,
    ⟨_, helmTeam [], helm_turn _ rfl rfl, rfl⟩, ⟨_, { helmTeam [] with super := true }, helm_turn _ rfl rfl, rfl, rfl⟩,
    ⟨_, { vectorTeam [] with service := some (fetchEntry (vectorTeam [])) }, helm_turn _ rfl rfl, rfl, rfl, rfl⟩,
    ?_, ?_, ?_⟩
  · let t : Team := { vectorTeam [] with block := 0x10000 }
    obtain ⟨c, h, -⟩ := stopAnd_ex (x := (helmState t).partAddr t (t.block + 0xE000)) (p := fun c => decide (c.code = 0x06)) (by decide +kernel)
    exact ⟨_, t, c, helm_turn _ rfl rfl, rfl, rfl, rfl, h⟩
  · let t := vectorTeam []
    have h : okAnd ((savedState t).partAddr t (t.block + 0xE000)) (fun z => okAnd (readUnits t.place z.1 38 z.2) fun x =>
        decide (t.epc.toNat / 2 ^ 48 = x.1.getD 32 0 % 2 ^ 16) &&
        okAnd (readWatches t (x.2.mapTeam t.key (·.restoreArea x.1))) fun _ => ((x.2.mapTeam t.key (·.restoreArea x.1)).team? t.key).isSome) = true := by
      decide +kernel
    obtain ⟨⟨loc, s0⟩, h0, h⟩ := okAnd_ex h
    obtain ⟨⟨u, s1⟩, h1, h⟩ := okAnd_ex h
    have h2 := of_decide_eq_true (Bool.and_eq_true_iff.1 h).1
    obtain ⟨⟨ws, s4⟩, h3, h⟩ := okAnd_ex (Bool.and_eq_true_iff.1 h).2
    obtain ⟨r, h4⟩ := Option.isSome_iff_exists.1 h
    exact ⟨_, t, loc, u, s0, s1, r, ws, s4, saved_turn _ rfl rfl, rfl, rfl, rfl, h0, h1, by decide, h2, by decide, by decide, h4, h3, rfl⟩
  · let t : Team := { vectorTeam [] with curObj := 3, step := true }
    have h : okAnd ((savedState t).partAddr t (t.block + 0xE000)) (fun z => okAnd (readUnits t.place z.1 38 z.2) fun x =>
        decide (t.epc.toNat / 2 ^ 48 ≠ x.1.getD 32 0 % 2 ^ 16) &&
        okAnd (switchObject t.key t.epc (t.epc.toNat / 2 ^ 48) (x.2.mapTeam t.key (·.restoreArea x.1))) fun _ => true) = true := by
      decide +kernel
    obtain ⟨⟨loc, s0⟩, h0, h⟩ := okAnd_ex h
    obtain ⟨⟨u, s1⟩, h1, h⟩ := okAnd_ex h
    have h2 := of_decide_eq_true (Bool.and_eq_true_iff.1 h).1
    obtain ⟨⟨⟨⟩, s3⟩, h3, -⟩ := okAnd_ex (Bool.and_eq_true_iff.1 h).2
    exact ⟨_, t, loc, u, s0, s1, s3, saved_turn _ rfl rfl, rfl, rfl, rfl, h0, h1, h2, h3, by decide, rfl⟩

theorem witness_HaltEnds :
    (∃ s t, HelmTurn s t ∧ t.super = true ∧ t.inVector = true ∧ s.calm t = true ∧ (t.reg 1).toNat = 0) ∧
    (∃ s t, HelmTurn s t ∧ t.super = true ∧ t.inVector = true ∧ s.calm t = true ∧ (t.reg 1).toNat % 4096 ≠ 0) ∧
    (∃ s t, HelmTurn s t ∧ t.super = true ∧ t.inVector = true ∧ s.calm t = true ∧ (t.reg 1).toNat ≠ 0 ∧ (t.reg 1).toNat % 4096 = 0 ∧
      ∃ x, (s.writeDump t (t.reg 1).toNat 0 (2 ^ 57) (s.teamClass t)).fail = some x) := by
  refine ⟨⟨_, vectorTeam [], helm_turn _ rfl rfl, rfl, rfl, rfl, rfl⟩, ⟨_, vectorTeam [(1, 8)], helm_turn _ rfl rfl, rfl, rfl, rfl, by decide⟩,
    ⟨_, vectorTeam [(1, 0x10000)], helm_turn _ rfl rfl, rfl, rfl, rfl, by decide, by decide, ?_⟩⟩
  exact Option.isSome_iff_exists.1 (by decide +kernel)

/-- A machine in which the helm's word is at a node boundary, with the team's nest. -/
def nodeState (t : Team) : State :=
  { helmState t with
    records := [{ dctx := 0, obj := 1, nodes := [0], shapes := [], fmts := [], strandEnd := 0 }]
    nests := [{ nid := 0, queue := 0, dctx := 0, dct := (helmTeam []).dct, record := nestRecordOf 0 none, launchWord := 0, order := false, launcher := hostPlace, seg2 := 0,
                regions := none, release := Release.none, parent := none, dispatched := true, started := true, total := 1, nextOrd := 1, aspace := 0,
                teams := [1], done := [], finished := false, cellar := [], stackUsed := [0] }] }

/-- The same with a second team that waits for a bay. -/
def rivalState (t : Team) : State :=
  let s := nodeState t
  { s with teams := [t, { Team.fresh 2 0 1 with nid := 0, ready := .now, kernel := { KernelInfo.zero with width := 16 } }] }

theorem witness_TeamWords :
    (∃ s t, HelmTurn s t ∧ t.mayWrite 3 = true ∧ s.workDone t = true) ∧
    (∃ s t, HelmTurn s t ∧ s.workDone t = false ∧ t.super = false ∧ s.atNode t = false) ∧
    (∃ s t, HelmTurn s t ∧ t.super = false ∧ s.atNode t = true ∧ s.yieldsTo t = false) ∧
    (∃ s t n, HelmTurn s t ∧ t.super = false ∧ s.atNode t = true ∧ s.yieldsTo t = true ∧ s.quiet t = true ∧ t.phase = .running ∧ t.g.length = 64 ∧
      s.nest? t.nid = some n) ∧
    (∃ s t, HelmTurn s t ∧ t.super = true ∧ s.still t = true ∧ ∃ u, (s.fullSave t .release).team? t.key = some u ∧ u.resident = true) := by
  refine ⟨⟨_, helmTeam [], helm_turn _ rfl rfl, rfl, rfl⟩,
    ⟨_, { helmTeam [] with cq := [fetchEntry (helmTeam [])] }, helm_turn _ rfl rfl, rfl, rfl, by decide⟩,
    ⟨nodeState (helmTeam []), helmTeam [], turn rfl rfl rfl rfl, rfl, by decide, by decide⟩,
    ⟨rivalState (helmTeam []), helmTeam [], _, ⟨rfl, rfl, rfl⟩, rfl, by decide, by decide +kernel, rfl, rfl, rfl, rfl⟩,
    ⟨helmState (vectorTeam []), vectorTeam [], helm_turn _ rfl rfl, rfl, rfl, ?_⟩⟩
  have h : ((((helmState (vectorTeam [])).fullSave (vectorTeam []) .release).team? 1).map (·.resident)) = some true := by decide +kernel
  obtain ⟨u, h1, h2⟩ := Option.map_eq_some_iff.1 h
  exact ⟨u, h1, h2⟩

/-- A launch record of one dimension with one team, at 0x400 of seg4, in a context that admits it. -/
def launchState (t : Team) : State :=
  let s := dctState t 2
  { s with
    mem := memSetList s.mem 0x200400 (leBytes 128 (2 ^ 752 + 2 ^ 768 + 16 * 2 ^ 384 + 2 ^ 448))
    records := (nodeState t).records }

theorem launch_turn (t : Team) (hk : t.key = 1) (hr : t.helmMayRun = true) : HelmTurn (launchState t) t := turn rfl rfl hk hr

theorem witness_LaunchAndJoinWords :
    (∃ s t s1 s2 dct us, HelmTurn s t ∧ s.atNode t = true ∧ t.joining = false ∧ readDct t.place t.dctx s = .ok (dct, s1) ∧ launchAllowed dct 0 ∧
      t.mayWrite 3 = true ∧ 0x400 + 128 ≤ segLimit (t.seg 4) ∧ recordLoc t (t.seg 4) 0x400 2 s1 = .ok (us, s2) ∧
      field (unitsValue us) 575 512 = 0 ∧ LaunchAccepted (unitsValue us) none (launchEntry s2 { t with dct := dct } (unitsValue us)) ∧
      field (unitsValue us) 703 640 + field (unitsValue us) 447 416 ≤ 2 ^ 57 ∧
      field (unitsValue us) 639 576 + field (unitsValue us) 463 448 * field (unitsValue us) 415 384 ≤ 2 ^ 57 ∧
      (s2.nests.countP fun n => n.queue == 0) < 1024) ∧
    (∃ s t d s1, HelmTurn s t ∧ readDct t.place t.dctx s = .ok (d, s1) ∧ ¬launchAllowed d 1) ∧
    (∃ s t, HelmTurn s t ∧ s.atNode t = false) ∧
    (∃ s t, HelmTurn s t ∧ s.atNode t = true ∧ t.mayWrite 3 = true ∧ t.children = 0 ∧ t.g.length = 64 ∧ t.phase ≠ .stepping) ∧
    (∃ s t, HelmTurn s t ∧ s.atNode t = true ∧ t.mayWrite 3 = true ∧ t.children ≠ 0 ∧ s.quiet t = true ∧ t.phase = .running) ∧
    (∃ s t, HelmTurn s t ∧ s.atNode t = true ∧ t.mayWrite 3 = true ∧ t.children ≠ 0 ∧ s.quiet t = false) ∧
    (∃ s t, HelmTurn s t ∧ s.atNode t = true ∧ t.joining = true ∧ t.mayWrite 3 = true ∧ t.children = 0 ∧ t.g.length = 64) ∧
    ∃ s t, HelmTurn s t ∧ t.joining = true := by
  refine ⟨?_, ?_, ⟨_, helmTeam [], helm_turn _ rfl rfl, by decide⟩, ⟨nodeState (helmTeam []), helmTeam [], turn rfl rfl rfl rfl, by decide, rfl, rfl, rfl, nofun⟩,
    ⟨nodeState { helmTeam [] with children := 1 }, { helmTeam [] with children := 1 }, turn rfl rfl rfl rfl, by decide, rfl, nofun, rfl, rfl⟩,
    ⟨nodeState { helmTeam [] with children := 1, cq := [fetchEntry (helmTeam [])] }, { helmTeam [] with children := 1, cq := [fetchEntry (helmTeam [])] },
      turn rfl rfl rfl rfl, by decide, rfl, nofun, rfl⟩,
    ⟨nodeState { helmTeam [] with joining := true }, { helmTeam [] with joining := true }, turn rfl rfl rfl rfl, by decide, rfl, rfl, rfl, rfl⟩,
    ⟨_, { helmTeam [] with joining := true }, helm_turn _ rfl rfl, rfl⟩⟩
  · let t := helmTeam []
    have h : okAnd (readDct t.place t.dctx (launchState t)) (fun x => x.1.valid && !x.1.bad && decide (x.1.saveStride = 4096) && decide (x.1.nteam = 1) &&
        decide (x.1.qmask = 1) && okAnd (recordLoc t (t.seg 4) 0x400 2 x.2) fun y =>
          decide (unitsValue y.1 = 2 ^ 752 + 2 ^ 768 + 16 * 2 ^ 384 + 2 ^ 448) &&
          decide (launchEntry y.2 { t with dct := x.1 } (2 ^ 752 + 2 ^ 768 + 16 * 2 ^ 384 + 2 ^ 448) = some (2 + 2 ^ 511)) && y.2.nests.isEmpty) = true := by
      decide +kernel
    obtain ⟨⟨d, s1⟩, h1, h⟩ := okAnd_ex h
    simp only [Bool.and_eq_true, decide_eq_true_eq, Bool.not_eq_true'] at h
    obtain ⟨⟨⟨⟨⟨hv, hb⟩, hs⟩, hn⟩, hq⟩, h⟩ := h
    obtain ⟨⟨us, s2⟩, h2, h⟩ := okAnd_ex h
    simp only [Bool.and_eq_true, decide_eq_true_eq, List.isEmpty_iff] at h
    obtain ⟨⟨hu, he⟩, hl⟩ := h
    refine ⟨_, t, s1, s2, d, us, launch_turn _ rfl rfl, by decide, rfl, h1, ⟨hv, hb, by omega, by omega, by omega, by rw [hq]; decide⟩, rfl, by decide +kernel, h2, ?_⟩
    rw [hu, hl, he]
    refine ⟨by decide +kernel, ⟨by decide +kernel, by decide +kernel, ⟨_, rfl, by decide +kernel⟩, by decide +kernel, by decide +kernel, by decide +kernel,
      by decide +kernel, by decide +kernel, by decide +kernel, nofun⟩, by decide +kernel, by decide +kernel, by decide⟩
  · let t := helmTeam []
    have h : okAnd (readDct t.place t.dctx (launchState t)) (fun x => decide (x.1.qmask = 1)) = true := by decide +kernel
    obtain ⟨⟨d, s1⟩, h1, h⟩ := okAnd_ex h
    refine ⟨_, t, d, s1, launch_turn _ rfl rfl, h1, fun hh => ?_⟩
    rw [launchAllowed, of_decide_eq_true h] at hh
    exact absurd hh.2.2.2.2.2 (by decide)

/-- Bind, narrow and link at their bounds; a map of the page that is there. -/
theorem witness_SegmentAndPageWords :
    (∃ s t, HelmTurn s t ∧ t.super = false) ∧
    (∃ s t, HelmTurn s t ∧ t.super = true ∧ descriptorBad ((t.reg 1).toNat + (t.reg 2).toNat * 2 ^ 64)) ∧
    (∃ s t, HelmTurn s t ∧ t.super = true ∧ ¬descriptorBad ((t.reg 1).toNat + (t.reg 2).toNat * 2 ^ 64) ∧
      field ((t.reg 1).toNat + (t.reg 2).toNat * 2 ^ 64) 56 0 + field ((t.reg 1).toNat + (t.reg 2).toNat * 2 ^ 64) 121 64 =
        sizeOfSpace ((t.reg 1).toNat + (t.reg 2).toNat * 2 ^ 64)) ∧
    (∃ s t, HelmTurn s t ∧ (t.reg 1).toNat + (t.reg 2).toNat = field (t.seg 4).toNat 121 64) ∧
    (∃ s t, HelmTurn s t ∧ field (t.seg 4).toNat 121 64 < (t.reg 1).toNat + (t.reg 2).toNat) ∧
    (∃ s t L s1, HelmTurn s t ∧ t.super = true ∧ helmAddress t (t.seg 15) ((t.reg 63).toInt + 16 * 1) 16 .read s = .ok (L, s1) ∧ linkValue (t.reg 1) = 0) ∧
    (∃ s t L s1 e u, HelmTurn s t ∧ t.super = true ∧ helmAddress t (t.seg 15) ((t.reg 63).toInt + 16 * 1) 16 .read s = .ok (L, s1) ∧
      linkValue (t.reg 1) / 2 ^ 48 = 1 ∧ s1.objLoc t 1 = some (e, u) ∧ 2 ≤ readValue (u.atomicRead t.place e 64).1 % 4 ∧ linkValue (t.reg 1) % 4 = 0) ∧
    (∃ s t, HelmTurn s t ∧ t.super = true ∧ s.flightThrough t.die t.dct.aspace none false = false) ∧
    (∃ s t, HelmTurn s t ∧ t.mayWrite 3 = true ∧ (t.reg 1).toNat < 2 ^ 57 ∧ t.super = true ∧ field (t.reg 2).toNat 63 63 = 1 ∧
      leafMalformed 0 (t.reg 2).toNat = false ∧ (s.walkFrom (t.reg 1).toNat 0 3 (t.dct.roots.getD 0 0)).level = 0 ∧
      s.flightThrough 0 t.dct.aspace (some ((t.reg 1).toNat / 2 ^ 16)) false = false ∧ s.dieUp 0 = true) := by
  refine ⟨⟨_, helmTeam [], helm_turn _ rfl rfl, rfl⟩,
    ⟨_, { helmTeam [(2, 2 ^ 61)] with super := true }, helm_turn _ rfl rfl, rfl, by unfold descriptorBad; decide +kernel⟩,
    ⟨_, { helmTeam [(2, 0x20000 + 2 ^ 60)] with super := true }, helm_turn _ rfl rfl, rfl, by unfold descriptorBad; decide +kernel, by decide +kernel⟩,
    ⟨_, helmTeam [(1, 2 ^ 56), (2, 2 ^ 56)], helm_turn _ rfl rfl, by decide +kernel⟩,
    ⟨_, helmTeam [(1, 2 ^ 56), (2, 2 ^ 56 + 1)], helm_turn _ rfl rfl, by decide +kernel⟩, ?_, ?_,
    ⟨_, { helmTeam [] with super := true }, helm_turn _ rfl rfl, rfl, rfl⟩,
    ⟨_, { helmTeam [(2, 2 ^ 63 + 2 ^ 60 + 2 ^ 57 + 2 ^ 56 + 2 ^ 55 + 0x300000)] with super := true }, helm_turn _ rfl rfl, rfl, by decide +kernel, rfl, by decide +kernel, by decide +kernel,
      by decide +kernel, by decide +kernel, by decide +kernel⟩⟩
  · let t : Team := { linkTeam [] with super := true }
    have h : answers (helmAddress t (t.seg 15) ((t.reg 63).toInt + 16 * 1) 16 .read (tableState t 2)) = true := by decide +kernel
    obtain ⟨L, s1, h⟩ := answer h
    exact ⟨_, t, L, s1, link_turn _ 2 rfl rfl, rfl, h, by decide +kernel⟩
  · let t : Team := { linkTeam [(1, 0x0001000000000400)] with super := true }
    have h : okAnd (helmAddress t (t.seg 15) ((t.reg 63).toInt + 16 * 1) 16 .read (tableState t 2)) (fun x =>
        (x.2.objLoc t 1).any fun y => decide (2 ≤ readValue (y.2.atomicRead t.place y.1 64).1 % 4)) = true := by decide +kernel
    obtain ⟨⟨L, s1⟩, h, h2⟩ := okAnd_ex h
    obtain ⟨⟨e, u⟩, h2, h3⟩ := someAnd_ex h2
    exact ⟨_, t, L, s1, e, u, link_turn _ 2 rfl rfl, rfl, h, by decide +kernel, h2, of_decide_eq_true h3, by decide +kernel⟩

/-- A group whose map has blocks 0 to 2, and a pool of the blocks given. -/
def poolTeam (n : Nat) : Team := { laneTeam [] with pool := n }

theorem witness_BlockWords :
    (∃ s t, HelmTurn s t ∧ t.phase ≠ .stepping ∧ groupsExist t 0 ∧
      ∀ g b, blockSelected t 0 g → b < 7 → (4 : BitVec 7).getLsbD b = true → (g.mapAt t.nextPush).getLsbD b = true ∧ ¬surrendering t g.num b) ∧
    (∃ s t, HelmTurn s t ∧ t.phase ≠ .stepping ∧ groupsExist t 0 ∧ (∀ g b, blockSelected t 0 g → b < 7 → (4 : BitVec 7).getLsbD b = true →
      (g.mapAt t.nextPush).getLsbD b = false ∧ ¬surrendering t g.num b) ∧ t.settle.pool = 1) ∧
    (∃ s t, HelmTurn s t ∧ t.phase ≠ .stepping ∧ ¬groupsExist t 0x1F) := by
  refine ⟨⟨_, poolTeam 0, helm_turn _ rfl rfl, nofun, by unfold groupsExist; decide, ?_⟩,
    ⟨_, { poolTeam 1 with groups := [freshGroup 0 0 2 0] }, helm_turn _ rfl rfl, nofun, by unfold groupsExist; decide, ?_, rfl⟩,
    ⟨_, poolTeam 0, helm_turn _ rfl rfl, nofun, by unfold groupsExist; decide⟩⟩
  all_goals
    rintro g b ⟨hg, -⟩ hb h
    obtain rfl := List.mem_singleton.1 hg
    have : b = 2 := by revert h; revert b; decide
    subst this
    exact ⟨by decide, fun ⟨_, hx, _⟩ => absurd hx (by simp [poolTeam, laneTeam, helmTeam, fetchTeam, Team.fresh])⟩

/-- A ring of two slots of 64 bytes in the scratch, on descriptor 0 of bay 0, with the counts and slots given. -/
def ringWith (head taken claimed : Nat) (slots : List Nat) : Ring :=
  { freshRing 0 0 0 1 0x40 1 0 0 1 [] with head := head, taken := taken, claimed := claimed, slots := slots }

def ringTeam (gs : List (Nat × W64)) : Team :=
  let t := helmTeam gs
  { t with rings := t.rings.set 0 (some { bay := 0, desc := 0, gen := 0 }) }

def ringState (t : Team) (r : Ring) : State := { helmState t with rings := [r] }

theorem ring_turn (t : Team) (r : Ring) (hk : t.key = 1) (hr : t.helmMayRun = true) : HelmTurn (ringState t r) t := turn rfl rfl hk hr

theorem witness_HelmRings :
    (∃ s t, HelmTurn s t ∧ t.mayWrite 3 = true ∧ s.ringOf t 0 = none) ∧
    (∃ s t r s1, HelmTurn s t ∧ s.ringOf t 0 = some r ∧ waitEnded r (.helm t.key) = none ∧ r.abort = false ∧ r.eos = false ∧ countsApart r.claimed r.tail < ringCount r ∧ firstInLine r (.helm t.key) true ∧
      helmAcquire t 0 none ((r.frees[r.claimed % ringCount r]?).join).toList
        ((s.setRing { ringLeft r (.helm t.key) with slots := r.slots.set 0 1, claimed := (r.claimed + 1) % 2 ^ 32 }).wakeRing (ringLeft r (.helm t.key))) =
        .ok ((), s1)) ∧
    (∃ s t r, HelmTurn s t ∧ s.ringOf t 0 = some r ∧ waitEnded r (.helm t.key) = none ∧ r.abort = false ∧ r.eos = false ∧ countsApart r.claimed r.tail = ringCount r) ∧
    (∃ s t r, HelmTurn s t ∧ s.ringOf t 0 = some r ∧ waitEnded r (.helm t.key) = none ∧ r.abort = false ∧ r.taken ≠ r.head ∧ firstInLine r (.helm t.key) false) ∧
    (∃ s t r, HelmTurn s t ∧ s.ringOf t 0 = some r ∧ waitEnded r (.helm t.key) = none ∧ r.abort = false ∧ r.taken = r.head ∧ r.eos = true ∧ r.head = r.claimed) ∧
    (∃ s t r, HelmTurn s t ∧ s.ringOf t 0 = some r ∧ waitEnded r (.helm t.key) = none ∧ r.abort = true) ∧
    (∀ how, ∃ s t r, HelmTurn s t ∧ s.ringOf t 0 = some r ∧ waitEnded r (.helm t.key) = some how) ∧
    (∃ s t r, HelmTurn s t ∧ s.ringOf t 0 = some r ∧ r.abort = false ∧ namesSlot r ((t.reg 1).toNat % 2 ^ 32) 1 ∧ r.slots.getD 1 0 = 1 ∧ r.head < 2 ^ 32 ∧
      r.claimed < 2 ^ 32 ∧ countsApart r.claimed r.head ≤ 256) ∧
    (∃ s t r, HelmTurn s t ∧ s.ringOf t 0 = some r ∧ r.abort = false ∧ namesSlot r ((t.reg 1).toNat % 2 ^ 32) 0 ∧ r.slots.getD 0 0 = 3 ∧ r.tail < 2 ^ 32 ∧
      r.taken < 2 ^ 32 ∧ countsApart r.taken r.tail ≤ 256) ∧
    (∃ s t, HelmTurn s t ∧ (t.reg 1).toNat = 16 * 1 + 0 ∧ s.ringOf t 0 = none ∧ (∀ r, s.ringAt t.bay 0 = some r → r.valid = false) ∧
      s.localLoc t t.bay (1 + 1) 0x40 128 = none) ∧
    (∃ s t, HelmTurn s t ∧ (t.reg 1).toNat = 16 * 1 + 0 ∧ s.ringOf t 0 = none ∧ (∀ r, s.ringAt t.bay 0 = some r → r.valid = false) ∧
      0x40 + 128 ≤ segLimit (t.seg 4)) := by
  have slot (n : Nat) (r : Ring) (h : r = ringWith 0 0 2 [2, 1] ∨ r = ringWith 2 2 2 [3, 3]) (hn : n < 2) : namesSlot r (0x40 + n * 64) n := by
    unfold namesSlot
    rcases h with rfl | rfl <;> (revert n; decide)
  refine ⟨⟨_, helmTeam [], helm_turn _ rfl rfl, rfl, rfl⟩, ?_,
    ⟨_, ringTeam [], ringWith 0 0 2 [1, 1], ring_turn _ (ringWith 0 0 2 [1, 1]) rfl rfl, rfl, rfl, rfl, rfl, rfl⟩,
    ⟨_, ringTeam [], ringWith 1 0 1 [2, 0], ring_turn _ (ringWith 1 0 1 [2, 0]) rfl rfl, rfl, rfl, rfl, by decide, nofun⟩,
    ⟨_, ringTeam [], { ringWith 1 1 1 [3, 0] with eos := true }, ring_turn _ ({ ringWith 1 1 1 [3, 0] with eos := true }) rfl rfl, rfl, rfl, rfl, rfl, rfl, rfl⟩,
    ⟨_, ringTeam [], { ringWith 0 0 0 [0, 0] with abort := true }, ring_turn _ ({ ringWith 0 0 0 [0, 0] with abort := true }) rfl rfl, rfl, rfl, rfl⟩,
    fun how => ⟨_, ringTeam [], { ringWith 0 0 0 [0, 0] with ended := [(.helm 1, how)] }, ring_turn _ { ringWith 0 0 0 [0, 0] with ended := [(.helm 1, how)] } rfl rfl, rfl, rfl⟩,
    ⟨_, ringTeam [(1, 0x80)], ringWith 0 0 2 [2, 1], ring_turn _ (ringWith 0 0 2 [2, 1]) rfl rfl, rfl, rfl, slot 1 _ (.inl rfl) (by decide), rfl, by decide, by decide, by decide⟩,
    ⟨_, ringTeam [(1, 0x40)], ringWith 2 2 2 [3, 3], ring_turn _ (ringWith 2 2 2 [3, 3]) rfl rfl, rfl, rfl, slot 0 _ (.inr rfl) (by decide), rfl, by decide, by decide, by decide⟩,
    ⟨_, helmTeam [(1, 16)], helm_turn _ rfl rfl, rfl, rfl, nofun, by decide +kernel⟩,
    ⟨_, helmTeam [(1, 16)], helm_turn _ rfl rfl, rfl, rfl, nofun, by decide⟩⟩
  obtain ⟨s1, h⟩ := answer_unit (x := helmAcquire (ringTeam []) 0 none [] (((ringState (ringTeam []) (ringWith 0 0 0 [0, 0])).setRing
    { ringLeft (ringWith 0 0 0 [0, 0]) (.helm 1) with slots := [1, 0], claimed := 1 }).wakeRing (ringLeft (ringWith 0 0 0 [0, 0]) (.helm 1)))) (by decide +kernel)
  exact ⟨_, ringTeam [], ringWith 0 0 0 [0, 0], s1, ring_turn _ (ringWith 0 0 0 [0, 0]) rfl rfl, rfl, rfl, rfl, rfl, by decide, nofun, h⟩

/-- The record of handle 0x0100_0005 on die 0, in phase 3. -/
def aWaypoint : Waypoint := { freshWaypoint (helmTeam []) 0 5 1 0 1 0 with phase := 3 }
def waypointState (t : Team) (w : Waypoint) : State := { helmState t with waypoints := [w] }

theorem waypoint_turn (t : Team) (w : Waypoint) (hk : t.key = 1) (hr : t.helmMayRun = true) : HelmTurn (waypointState t w) t := turn rfl rfl hk hr

theorem witness_Waypoints :
    (∃ (s : State) (w : Waypoint), s.waypoints.find? (fun x => x.die == w.die && x.index == w.index) = some w) ∧
    (∃ s t, HelmTurn s t ∧ t.mayWrite 3 = true ∧ t.mayWrite (3 + 1) = true ∧ s.waypoint? 0x01000005 t.dct.aspace = some aWaypoint ∧
      (t.reg 1).toNat % 2 ^ 32 = 0x01000005 ∧ phaseDone aWaypoint ((t.reg 1).toNat / 2 ^ 32) ∧
      ∃ s1, helmAcquire t 0 none (phaseReleases aWaypoint ((t.reg 1).toNat / 2 ^ 32)) s = .ok ((), s1)) ∧
    ¬phaseDone aWaypoint 3 ∧ phaseDone { aWaypoint with phase := 0x80000000 } 0 ∧ ¬phaseDone { aWaypoint with phase := 0x80000001 } 0 ∧
    (∃ s t, HelmTurn s t ∧ s.waypoint? ((t.reg 3).toNat % 2 ^ 32) t.dct.aspace = some aWaypoint ∧ mayFree t aWaypoint ∧ aWaypoint.waiting = []) ∧
    (∃ s t w, HelmTurn s t ∧ s.waypoint? ((t.reg 3).toNat % 2 ^ 32) t.dct.aspace = some w ∧ ¬mayFree t w) ∧
    (∃ s t, HelmTurn s t ∧ s.waypoint? 0 t.dct.aspace = none ∧ s.dieUp t.die = true ∧ 0 < waypointIndices s t.die ∧
      ¬∃ w ∈ s.waypoints, w.die = t.die ∧ w.valid = true ∧ w.index = 0) ∧
    (∃ s t g, HelmTurn s t ∧ (t.granted.filter fun g => g.handle == (t.reg 1).toNat % 2 ^ 32 && g.waited == (t.reg 1).toNat / 2 ^ 32) = some g ∧
      s.waypoint? ((t.reg 1).toNat % 2 ^ 32) t.dct.aspace = none) ∧
    (∃ s t, HelmTurn s t ∧ s.dieUp 3 = false) ∧
    (∃ s t, HelmTurn s t ∧ (t.reg 1).toNat / 2 ^ 32 = 0 ∧ s.waypoint? ((t.reg 1).toNat % 2 ^ 32) t.dct.aspace = some aWaypoint ∧
      (t.reg 3).toNat < 2 ^ 56 ∧ aWaypoint.aexp + (t.reg 3).toNat % 2 ^ 16 = 65535 ∧ aWaypoint.bexp + (t.reg 3).toNat / 2 ^ 16 < 2 ^ 40) := by
  refine ⟨⟨waypointState (helmTeam []) aWaypoint, aWaypoint, rfl⟩,
    ⟨_, helmTeam [(1, 0x0000000201000005)], waypoint_turn _ aWaypoint rfl rfl, rfl, rfl, by decide +kernel, by decide, by unfold phaseDone; decide,
      answer_unit (by decide +kernel)⟩,
    by unfold phaseDone; decide, by unfold phaseDone; decide, by unfold phaseDone; decide,
    ⟨_, helmTeam [(3, 0x01000005)], waypoint_turn _ aWaypoint rfl rfl, by decide +kernel, by unfold mayFree; decide, by decide⟩,
    ⟨_, helmTeam [(3, 0x01000005)], { aWaypoint with owner := 9 }, waypoint_turn _ { aWaypoint with owner := 9 } rfl rfl, by decide +kernel, by unfold mayFree; decide⟩,
    ⟨_, helmTeam [], helm_turn _ rfl rfl, by decide +kernel, by decide, by decide +kernel, by decide⟩,
    ⟨_, { helmTeam [(1, 5)] with granted := some { handle := 5, waited := 0, phase := 1, releases := [] } }, _, helm_turn _ rfl rfl, rfl, by decide +kernel⟩,
    ⟨_, helmTeam [], helm_turn _ rfl rfl, by decide⟩,
    ⟨_, helmTeam [(1, 0x01000005), (3, 0xFFFE)], waypoint_turn _ aWaypoint rfl rfl, by decide, by decide +kernel, by decide, by decide, by decide⟩⟩

theorem witness_AtomicsAndFences :
    (∃ s t f, HelmTurn s t ∧ atomicForm (.atAdd 3 1 true 1 4) = some f ∧ t.mayWrite f.d = true ∧ ∃ L s1 s3,
      helmAddress t (t.seg 4) (t.reg f.a).toInt 8 .atomic s = .ok (L, s1) ∧ ¬outside L.loc ∧ s1.leased t.key L.loc 8 = false ∧
      helmAcquire t f.scope.toNat L.va (readHeads (s1.atomicReadIn t.place t.regionsNow L.va L.loc 8).1)
        (s1.atomicReadIn t.place t.regionsNow L.va L.loc 8).2 = .ok ((), s3)) ∧
    (∃ s t c, HelmTurn s t ∧ helmAddress t (t.seg 4) (t.reg 1).toInt 8 .atomic s = .error (.trap c)) ∧
    (∃ s t, HelmTurn s t ∧ (∃ s1, helmAcquire t 4 none [] (s.fenceAcquire t.place 4) = .ok ((), s1)) ∧ t.scGrant = false) ∧
    (∃ s t, HelmTurn s t ∧ t.scGrant = true ∧
      ∃ s1, helmAcquire t 5 none [] (((s.drainParty t.place.party).fenceScJoin t.place).fenceAcquire t.place 5) = .ok ((), s1)) ∧
    (∃ (s : State) (u : Team), s.team? 1 = some u ∧ u.scWait = true ∧ u.scGrant = false) ∧
    (∃ s t, HelmTurn s t ∧ let m := t.marks.getD (placedMarks s t true true true)
      cqMet s t m true ∧ ceMet s m true ∧ mxMet s m true) ∧
    (∃ s t, HelmTurn s t ∧ let m := t.marks.getD (placedMarks s t true false false)
      ¬cqMet s t m false ∧ ¬(16 ≤ t.rq.length)) := by
  refine ⟨?_, ⟨_, helmTeam [(1, 4)], _, helm_turn _ rfl rfl, by rfl⟩,
    ⟨_, helmTeam [], helm_turn _ rfl rfl, answer_unit (by decide +kernel), rfl⟩,
    ⟨_, { helmTeam [] with scGrant := true }, helm_turn _ rfl rfl, rfl, answer_unit (by decide +kernel)⟩,
    ⟨helmState { helmTeam [] with scWait := true }, _, rfl, rfl, rfl⟩,
    ⟨_, helmTeam [], helm_turn _ rfl rfl, ?_⟩, ⟨_, { laneTeam [] with cq := [fetchEntry (laneTeam [])], nextPush := 1 }, helm_turn _ rfl rfl, ?_, by decide⟩⟩
  · let t := helmTeam [(1, 0x108)]
    have h : okAnd (helmAddress t (t.seg 4) 0x108 8 .atomic (helmState t)) (fun x =>
        decide (x.1.loc = 0x200108) && !x.2.leased t.key x.1.loc 8 &&
        answers (helmAcquire t 4 x.1.va (readHeads (x.2.atomicReadIn t.place t.regionsNow x.1.va x.1.loc 8).1)
          (x.2.atomicReadIn t.place t.regionsNow x.1.va x.1.loc 8).2)) = true := by decide +kernel
    obtain ⟨⟨L, s1⟩, h, h2⟩ := okAnd_ex h
    obtain ⟨h2, h3⟩ := Bool.and_eq_true_iff.1 h2
    obtain ⟨h2, h4⟩ := Bool.and_eq_true_iff.1 h2
    obtain ⟨s3, h5⟩ := answer_unit h3
    have hl := of_decide_eq_true h2
    exact ⟨_, t, _, helm_turn _ rfl rfl, rfl, rfl, L, s1, s3, h, by rw [hl]; unfold outside; decide, by simpa using h4, h5⟩
  · have h : placedMarks (helmState (helmTeam [])) (helmTeam []) true true true = { cq := some 0, ce := [], mx := [] } := by decide +kernel
    rw [show (helmTeam []).marks = none from rfl, Option.getD_none, h]
    simp [cqMet, ceMet, mxMet, helmTeam, fetchTeam, Team.fresh, helmState, placeWord, State.reset]
  · intro h
    have h := (h 1 rfl).2 _ (List.mem_singleton.2 rfl) (by decide) _ (List.mem_singleton.2 rfl) rfl
    have h2 : ∀ who ∈ (freshGroup 0 0 7 0).engines,
        ¬(0 < ((freshGroup 0 0 7 0).eng who).entry ∨ ((freshGroup 0 0 7 0).eng who).entry = 0 ∧ ((freshGroup 0 0 7 0).eng who).running = true) := by decide
    rcases h with ⟨p, hp, h⟩ | h
    · exact h2 (.c p) (by revert hp p; decide) h
    · exact h2 .l (by decide) (h .l (by decide))

/-- A 16-byte fill of seg4 at the offset given: channel 0, unordered, no record and no waypoint. -/
def fillTeam (offset : W64) (reserved : W64) : Team := helmTeam [(5, (4 : W64) <<< 60 ||| offset), (6, 16 ||| reserved)]

def fillCommand (t : Team) : CopyCmd :=
  { bay := 0, ch := 0, seq := 0, team := 1, state := .queued, cmd := 3, ord := 0, tag := 0, obj := 1, word := 0
    ops := [t.reg 4, t.reg 5, t.reg 6, t.reg 7], record := none, segs := t.segs, count := 16, scope := 0, ft := false, wv := false, handle := 0
    super := false, vector := false, nsec := 1, complete := [], prior := [], tried := [], failed := [], doneBytes := 0, runBytes := 0, run := 0
    replay := false, coll := .go, granted := none, past := Past.none, made := [], second := false, first := [], pushed := none, place := hostPlace, known := [], lifted := [], regions := []
    entries := [], lost := [], slot := 0, bmerr := false, stalled := false }

/-- A held command of the team, as a record of 64 bytes at 0x400 of seg4 names it. -/
def heldState (t : Team) : State :=
  let s := helmState t
  { s with
    mem := memSetList s.mem 0x200400 (leBytes 64 0)
    cmds := [{ fillCommand t with state := .held }] }

theorem witness_CopyWordsAndReplays :
    (∃ s t, HelmTurn s t ∧ copyForm (.cpFill 3 4 0 0 0 0) = some (3, 3, 4, 0, 0, 0, 0) ∧ t.mayWrite 3 = true ∧
      IssuedCopy s t 3 4 0 0 none (fillCommand t) ∧ ¬CopyRefused (fillCommand t) ∧
      (∀ x ∈ (fillCommand t).sides, runsFault s t t.bay ((fillCommand t).seg x.1) x.2.1 x.2.2 = none) ∧ inChannel s t.bay 0 < 16) ∧
    (∃ s t side, HelmTurn s t ∧ IssuedCopy s t 3 4 0 0 none (fillCommand t) ∧ ¬CopyRefused (fillCommand t) ∧ (fillCommand t).sides[0]? = some side ∧
      runsFault s t t.bay ((fillCommand t).seg side.1) side.2.1 side.2.2 = some (0x10000, 0x04)) ∧
    (∃ s t, HelmTurn s t ∧ IssuedCopy s t 3 4 0 0 none (fillCommand t) ∧ CopyRefused (fillCommand t)) ∧
    (∃ s t r s1 c u, HelmTurn s t ∧ t.mayWrite 3 = true ∧ readRecord t (t.seg 4) (t.reg 4).toInt s = .ok (r, s1) ∧
      (field r 159 152 = t.bay ∧ field r 151 150 = t.ctx) ∧ s1.cmds.find? (heldBy s1 r) = some c ∧ s1.team? c.team = some u ∧
      inChannel s1 c.bay c.ch < 16) ∧
    (∃ s t c, HelmTurn s t ∧ readRecord t (t.seg 4) (t.reg 4).toInt s = .error (.trap c)) ∧
    (∃ s t, HelmTurn s t ∧ copyForm (.cpFill 56 4 0 0 0 0) = some (3, 56, 4, 0, 0, 0, 0) ∧ t.mayWrite 56 = false) := by
  refine ⟨⟨_, fillTeam 0x400 0, helm_turn _ rfl rfl, rfl, rfl, by unfold IssuedCopy; decide +kernel, by simp only [CopyRefused, operandBad, fillCommand]; decide +kernel,
      by decide +kernel, by decide +kernel⟩,
    ⟨_, { fillTeam 0xFFFC 0 with segs := (helmTeam []).segs.set 4 (mkSeg 0 0x10000 0 false true true 0) }, _, helm_turn _ rfl rfl, by unfold IssuedCopy; decide +kernel, by simp only [CopyRefused, operandBad, fillCommand]; decide +kernel, rfl,
      by decide +kernel⟩,
    ⟨_, fillTeam 0x400 (2 ^ 44), helm_turn _ rfl rfl, by unfold IssuedCopy; decide +kernel, by simp only [CopyRefused, operandBad, fillCommand]; decide +kernel⟩, ?_,
    ⟨_, helmTeam [(4, 0x20)], _, helm_turn _ rfl rfl, by rfl⟩, ⟨_, helmTeam [], helm_turn _ rfl rfl, rfl, rfl⟩⟩
  let t := helmTeam [(4, 0x400)]
  have h : okAnd (readRecord t (t.seg 4) (t.reg 4).toInt (heldState t)) (fun x =>
      decide (x.1 = 0) && decide (x.2.cmds.find? (heldBy x.2 0) = some { fillCommand t with state := .held }) && (x.2.team? 1).isSome &&
      decide (inChannel x.2 0 0 < 16)) = true := by decide +kernel
  obtain ⟨⟨r, s1⟩, h, h2⟩ := okAnd_ex h
  simp only [Bool.and_eq_true, decide_eq_true_eq] at h2
  obtain ⟨⟨⟨rfl, h3⟩, h4⟩, h5⟩ := h2
  obtain ⟨u, h4⟩ := Option.isSome_iff_exists.1 h4
  exact ⟨heldState t, t, 0, s1, _, u, turn rfl rfl rfl rfl, rfl, h, ⟨rfl, rfl⟩, h3, h4, h5⟩

/-! ### Lane words -/

/-- A team of one group of 16 lanes, one engine of which has been changed. -/
def engineTeam (who : Eng) (f : Engine → Engine) (h : Group → Group) : Team :=
  { fetchStrandTeam with
    segs := (helmTeam []).segs, cq := [fetchEntry (helmTeam [])], groups := fetchStrandTeam.groups.map fun g => h (g.mapEng who f) }

/-- An engine that has begun its word with the lanes given. -/
def begun (mask : W64) (e : Engine) : Engine := { e with latch := some { mask := mask, base := none, toks := [] } }

def engineState (who : Eng) (t : Team) : State :=
  { placeWord State.reset 48 0 with
    agenda := [], teams := [t]
    cur := some (.engine 1 0 (match who with | .c p => p | _ => 0) (engKind who)) }

def lnAt (who : Eng) (t : Team) : Ln :=
  match engineOf (engineState who t) with
  | some (t, g, w, e) => lnOf t g w e
  | none => lnOf t (freshGroup 0 0 7 0) who (fetchEntry t)

theorem engine_turn (who : Eng) (t : Team) (h : (engineOf (engineState who t)).isSome = true) : EngineTurn (engineState who t) (lnAt who t) := by
  obtain ⟨⟨u, g, w, e⟩, h⟩ := Option.isSome_iff_exists.1 h
  exact ⟨u, g, w, e, h, by simp [lnAt, h]⟩

/-- The C engine of path 0 in a word that it has begun with every lane. -/
def cTeam : Team := engineTeam (.c 0) (begun 0xFFFF) id

theorem c_turn : EngineTurn (engineState (.c 0) cTeam) (lnAt (.c 0) cTeam) := engine_turn _ _ (by decide +kernel)

theorem witness_LaneWords :
    ∃ s l f s1 us s2 xs s3, EngineTurn s l ∧ laneForm (.vadd laneWord) = some f ∧ RepetitionReady s l f.fields s ∧ EffectMask l.mask f.pairs l.mask ∧
      l.sources (some (SW.dAt f.w l.e.rep)) (f.regs l.e.rep) s = .ok (xs, s1) ∧ readUniforms l f.uniforms s1 = .ok (us, s2) ∧
      Ln.deliver { l with mask := l.mask } (SW.dAt f.w l.e.rep) ((List.range l.width).map (f.value l.width l.hash l.mask xs us)) s2 = .ok ((), s3) := by
  let l := lnAt (.c 0) cTeam
  have hf : ∃ f, laneForm (.vadd laneWord) = some f ∧ okAnd (l.sources (some (SW.dAt f.w l.e.rep)) (f.regs l.e.rep) (engineState (.c 0) cTeam)) (fun x =>
      okAnd (readUniforms l f.uniforms x.2) fun y =>
        answers (Ln.deliver { l with mask := l.mask } (SW.dAt f.w l.e.rep) ((List.range l.width).map (f.value l.width l.hash l.mask x.1 y.1)) y.2)) = true ∧
      RepetitionReady (engineState (.c 0) cTeam) l f.fields (engineState (.c 0) cTeam) ∧ f.pairs = false :=
    ⟨_, rfl, by decide +kernel, ⟨by decide +kernel, by decide +kernel, .inl ⟨by decide +kernel, rfl⟩⟩, rfl⟩
  obtain ⟨f, hf, h, hr, hp⟩ := hf
  obtain ⟨⟨xs, s1⟩, h1, h⟩ := okAnd_ex h
  obtain ⟨⟨us, s2⟩, h2, h⟩ := okAnd_ex h
  obtain ⟨s3, h3⟩ := answer_unit h
  exact ⟨_, l, f, s1, us, s2, xs, s3, c_turn, hf, hr, by simp [EffectMask, hp], h1, h2, h3⟩

theorem c_ready (fields : List VField) (h : (fields.any fun f => f.reg == 112) = false) :
    RepetitionReady (engineState (.c 0) cTeam) (lnAt (.c 0) cTeam) fields (engineState (.c 0) cTeam) :=
  ⟨by decide +kernel, by decide +kernel, .inl ⟨by rw [h, Bool.and_false], rfl⟩⟩

theorem witness_LaneMasksAndFolds :
    (∃ s l w pairs bit xs s1 us s2, EngineTurn s l ∧ compareForm (.vicmp { laneWord with vd := 9 }) = some (w, pairs, bit) ∧
      RepetitionReady s l ([fieldA w] ++ (if w.bu then [] else [fieldB w]) ++ if w.useVc then [fieldC w] else []) s ∧ EffectMask l.mask pairs l.mask ∧
      l.sources none (SW.aAt w l.e.rep :: if w.bu then [] else [SW.bAt w l.e.rep]) s = .ok (xs, s1) ∧ readUniforms l (baseRegs w) s1 = .ok (us, s2)) ∧
    (∃ s l w xs s1 us s2 c s3 s4, EngineTurn s l ∧ w = { laneWord with ext := some { longExt with imm := 0x2000 } } ∧ w.ms = true ∧
      RepetitionReady s l ([fieldD w, fieldA w] ++ (if w.bu then [] else [fieldB w]) ++ if w.useVc then [fieldC w] else []) s ∧
      l.sources (some (SW.dAt w l.e.rep)) (SW.aAt w l.e.rep :: if w.bu then [] else [SW.bAt w l.e.rep]) s = .ok (xs, s1) ∧
      readUniforms l (baseRegs w) s1 = .ok (us, s2) ∧ l.maskNo (w.k % 8) s2 = .ok (c, s3) ∧
      l.deliver (SW.dAt w l.e.rep) ((List.range l.width).map fun i => if c.getLsbD i then laneOf xs 0 i else laneB w xs us i) s3 = .ok ((), s4)) ∧
    (∃ s l xs s1, EngineTurn s l ∧ RepetitionReady s l [{ reg := 2, adv := 0, span := 1 }] s ∧ l.sources none [2] s = .ok (xs, s1)) ∧
    (∃ s l a s1 b s2, EngineTurn s l ∧ RepetitionReady s l [] s ∧ l.maskNo 1 s = .ok (a, s1) ∧ l.maskNo 2 s1 = .ok (b, s2)) ∧
    (∃ s l xs s1 g, EngineTurn s l ∧ RepetitionReady s l [fieldA laneWord] s ∧ l.sources none [SW.aAt laneWord l.e.rep] s = .ok (xs, s1) ∧
      l.group s1 = .ok (g, s1) ∧ l.e.rep = 0 ∧ l.e.rep + 1 = laneWord.count) := by
  let l := lnAt (.c 0) cTeam
  let s := engineState (.c 0) cTeam
  refine ⟨?_, ?_, ?_, ?_, ?_⟩
  · let w : SW := { laneWord with vd := 9 }
    have h : okAnd (l.sources none (SW.aAt w l.e.rep :: if w.bu then [] else [SW.bAt w l.e.rep]) s) (fun x => answers (readUniforms l (baseRegs w) x.2)) = true := by decide +kernel
    obtain ⟨⟨xs, s1⟩, h1, h⟩ := okAnd_ex h
    obtain ⟨us, s2, h2⟩ := answer h
    exact ⟨_, l, w, _, _, xs, s1, us, s2, c_turn, rfl, c_ready _ (by decide), by simp [EffectMask], h1, h2⟩
  · let w : SW := { laneWord with ext := some { longExt with imm := 0x2000 } }
    have h : okAnd (l.sources (some (SW.dAt w l.e.rep)) (SW.aAt w l.e.rep :: if w.bu then [] else [SW.bAt w l.e.rep]) s) (fun x => okAnd (readUniforms l (baseRegs w) x.2) fun y =>
        okAnd (l.maskNo (w.k % 8) y.2) fun z => answers (l.deliver (SW.dAt w l.e.rep)
          ((List.range l.width).map fun i => if z.1.getLsbD i then laneOf x.1 0 i else laneB w x.1 y.1 i) z.2)) = true := by decide +kernel
    obtain ⟨⟨xs, s1⟩, h1, h⟩ := okAnd_ex h
    obtain ⟨⟨us, s2⟩, h2, h⟩ := okAnd_ex h
    obtain ⟨⟨c, s3⟩, h3, h⟩ := okAnd_ex h
    obtain ⟨s4, h4⟩ := answer_unit h
    exact ⟨_, l, w, xs, s1, us, s2, c, s3, s4, c_turn, rfl, by decide, c_ready _ (by decide), h1, h2, h3, h4⟩
  · obtain ⟨xs, s1, h⟩ := answer (x := l.sources none [2] s) (by decide +kernel)
    exact ⟨_, l, xs, s1, c_turn, c_ready _ rfl, h⟩
  · obtain ⟨a, s1, b, s2, h1, h2⟩ := answer_both (m := l.maskNo 1) (f := fun _ => l.maskNo 2) (s := s) (by decide +kernel)
    exact ⟨_, l, a, s1, b, s2, c_turn, c_ready _ rfl, h1, h2⟩
  · have h : okAnd (l.sources none [SW.aAt laneWord l.e.rep] s) (fun x => okAnd (l.group x.2) fun y => decide (y.2 = x.2)) = true := by decide +kernel
    obtain ⟨⟨xs, s1⟩, h1, h⟩ := okAnd_ex h
    obtain ⟨⟨g, s2⟩, h2, h⟩ := okAnd_ex h
    obtain rfl : s2 = s1 := of_decide_eq_true h
    exact ⟨_, l, xs, s2, g, c_turn, c_ready _ rfl, h1, h2, by decide +kernel, by decide +kernel⟩

theorem witness_ConversionWords :
    (∃ s l w src dst mode xs s1 s2, EngineTurn s l ∧ conversionForm (.vcvt { laneWord with b := 0 }) = some (w, src, dst, mode) ∧
      RepetitionReady s l [fieldD w, fieldA w] s ∧ l.sources (some (SW.dAt w l.e.rep)) [SW.aAt w l.e.rep] s = .ok (xs, s1) ∧
      EffectMask l.mask (src == 1 || dst == 1) l.mask ∧
      Ln.deliver { l with mask := l.mask } (SW.dAt w l.e.rep) ((List.range l.width).map (convertedLane src dst mode w.sat (laneOf xs 0))) s1 = .ok ((), s2)) ∧
    (∃ s l w xs s1, EngineTurn s l ∧ w = { laneWord with b := 0 } ∧ RepetitionReady s l [{ fieldD w with span := 32 / packWidth w }, fieldA w] s ∧
      l.sources none [SW.aAt w l.e.rep] s = .ok (xs, s1)) := by
  let l := lnAt (.c 0) cTeam
  let w : SW := { laneWord with b := 0 }
  refine ⟨?_, ?_⟩
  · have h : okAnd (l.sources (some (SW.dAt w l.e.rep)) [SW.aAt w l.e.rep] (engineState (.c 0) cTeam)) (fun x =>
        answers (Ln.deliver { l with mask := l.mask } (SW.dAt w l.e.rep) ((List.range l.width).map (convertedLane 0 0x0B 0 w.sat (laneOf x.1 0))) x.2)) = true := by
      decide +kernel
    obtain ⟨⟨xs, s1⟩, h1, h⟩ := okAnd_ex h
    obtain ⟨s2, h2⟩ := answer_unit h
    exact ⟨_, l, w, 0, 0x0B, 0, xs, s1, s2, c_turn, rfl, c_ready _ rfl, h1, rfl, h2⟩
  · obtain ⟨xs, s1, h⟩ := answer (x := l.sources none [SW.aAt w l.e.rep] (engineState (.c 0) cTeam)) (by decide +kernel)
    exact ⟨_, l, w, xs, s1, c_turn, rfl, c_ready _ rfl, h⟩

/-- The C engine before a word; with a token on counter 0; and past its last repetition. -/
def freshC : Team := engineTeam (.c 0) id id
def doneC : Team := engineTeam (.c 0) (fun e => { begun 0xFFFF e with issued := true }) id

theorem witness_WordPhasesAndTokens :
    (∃ s l i w fields base toks s1, EngineTurn s l ∧ latchForm i = some (w, fields, base) ∧ l.e.issued = false ∧ l.e.latch = none ∧ operandsLegal l i ∧
      FieldsMapped l fields w.count ∧ ServiceAllows l w fields ∧ l.t.phase ≠ .stepping ∧ w.msk = 0 ∧ 8 ≤ base ∧
      whole (l.eachToken l.waitToken (waitCounters l.who w)) s = .ok (toks, s1)) ∧
    (∃ s l i w fields base, EngineTurn s l ∧ latchForm i = some (w, fields, base) ∧ l.e.issued = false ∧ l.e.latch = none ∧ ¬FieldsMapped l fields w.count) ∧
    (∃ s l w s1 xs, EngineTurn s l ∧ l.e.issued = true ∧ w = { laneWord with tok := 1 } ∧ pushCounters l.who w ≠ [] ∧ l.g.flight = [] ∧
      l.eachToken (fun c => do l.pushToken c; pure []) (pushCounters l.who w) s = .ok (xs, s1)) ∧
    (∃ s l, EngineTurn s l ∧ Whole l ∧ (l.g.pathAt l.root).counter 0 = []) ∧
    (∃ s l k, EngineTurn s l ∧ Whole l ∧ (l.g.pathAt l.root).counter 0 = [k]) := by
  have turn (t : Team) (h : (engineOf (engineState (.c 0) t)).isSome = true) : EngineTurn (engineState (.c 0) t) (lnAt (.c 0) t) := engine_turn _ _ h
  refine ⟨?_, ?_, ?_, ⟨_, lnAt (.c 0) freshC, turn freshC (by decide +kernel), by unfold Whole; decide +kernel, by decide +kernel⟩, ?_⟩
  · obtain ⟨toks, s1, h⟩ := answer (x := whole ((lnAt (.c 0) freshC).eachToken (lnAt (.c 0) freshC).waitToken []) (engineState (.c 0) freshC)) (by decide +kernel)
    refine ⟨_, lnAt (.c 0) freshC, .vadd laneWord, laneWord, _, 8, toks, s1, turn freshC (by decide +kernel), rfl, by decide +kernel, by decide +kernel, trivial, ?_, ?_,
      by decide +kernel, rfl, by decide, h⟩
    · have h : ∀ f ∈ [fieldD laneWord, fieldA laneWord, fieldB laneWord], f.reg < 112 → ∀ r, r < 1 → ∀ j, j < f.span →
          ((lnAt (.c 0) freshC).g.mapAt (lnAt (.c 0) freshC).entry.n).getLsbD ((f.reg + r * f.adv + j) / 16) = true := by decide +kernel
      exact fun f hf h2 r j hr hj => h f hf h2 r hr j hj
    · intro h
      exact absurd h (by decide +kernel)
  · let t : Team := engineTeam (.c 0) id fun g => { g with blocks := [{ start := 0, map := 0 }] }
    refine ⟨_, lnAt (.c 0) t, .vadd laneWord, laneWord, _, 8, turn t (by decide +kernel), rfl, by decide +kernel, by decide +kernel, fun h => ?_⟩
    exact absurd (h (fieldA laneWord) (by decide) (by decide) 0 0 (by decide) (by decide)) (by decide +kernel)
  · obtain ⟨xs, s1, h⟩ := answer (x := (lnAt (.c 0) doneC).eachToken (fun c => do (lnAt (.c 0) doneC).pushToken c; pure [])
      (pushCounters (.c 0) { laneWord with tok := 1 }) (engineState (.c 0) doneC)) (by decide +kernel)
    exact ⟨_, lnAt (.c 0) doneC, _, s1, xs, turn doneC (by decide +kernel), by decide +kernel, rfl, by decide +kernel, by decide +kernel, h⟩
  · let k : Tok := { known := [], lifted := [], vc := [] }
    let t : Team := engineTeam (.c 0) id fun g => g.mapPath 0 fun p => p.setCounter 0 [k]
    exact ⟨_, lnAt (.c 0) t, k, turn t (by decide +kernel), by unfold Whole; decide +kernel, by decide +kernel⟩

/-- The C engine after a write of its own to v3. -/
def writtenTeam : Team := engineTeam (.c 0) (begun 0xFFFF) fun g => g.writeReg (.c 0) 3 [(0, 7)]

theorem witness_LaneRegisters :
    (∃ s l, EngineTurn s l ∧ l.g.regOptions 2 0 l.e.vc ≠ []) ∧
    (∃ (s : State) (l : Ln) (lanes : List (Nat × W32)), EngineTurn s l ∧ (0, 5) ∈ lanes ∧ (∀ x, (0, x) ∈ lanes → x = 5) ∧
      (∀ p, l.who = .c p → p < l.g.paths.length) ∧ l.g.rlog.length = 1 ∧
      ∀ w ∈ l.g.rlog, w.inClock l.e.vc = true ∧ w.vc.getD l.e.clk 0 ≤ l.e.vc.getD l.e.clk 0) := by
  refine ⟨⟨_, lnAt (.c 0) cTeam, c_turn, by decide +kernel⟩, ⟨_, lnAt (.c 0) writtenTeam, [(0, 5)], engine_turn _ _ (by decide +kernel), by decide, by simp, ?_, by decide +kernel,
    by decide +kernel⟩⟩
  have h : (lnAt (.c 0) writtenTeam).who = .c 0 := by decide +kernel
  intro p hp
  rw [h] at hp
  cases hp
  decide +kernel

/-- The L engine that has begun a load of lane 0 through global space, and a load of it that is under way. -/
def lTeam : Team := engineTeam .l (begun 1) id
def loadWord : SW := { laneWord with b := 67 }

def aLoad (dest : Option LoadDest) (store : Bool) : Access :=
  { done := false, eng := .l, path := 0, word := 0, space := 0, store := store, size := 0, ldg := false, dest := dest
    lanes := [{ lane := 0, loc := 0x200108, addr := 0x108, value := 7 }], known := [], lifted := [], vc := [0, 0, 0, 0, 0, 0], regions := [], pages := [(0, 0, false)], die := 0
    origin := (freshGroup 0 0 7 0).l, popped := none }

theorem witness_LaneAccessWords :
    (∃ s l xs s2 addr val s1, EngineTurn s l ∧ dataForm (.lLd loadWord) = some (loadWord, false, false, false) ∧ l.who = .l ∧ l.e.issued = false ∧
      l.e.latch.isSome = true ∧ ¬nullBase l loadWord ∧ MayIssue s l loadWord false false (lanesIn l l.mask) ∧
      OperandsRead s l loadWord false false addr val s1 ∧ lanesAddressed l loadWord false false addr (lanesIn l l.mask) s1 = .ok (xs, s2)) ∧
    (∃ s l addr val s1 c after, EngineTurn s l ∧ dataForm (.lLd loadWord) = some (loadWord, false, false, false) ∧ l.who = .l ∧ l.e.issued = false ∧
      l.e.latch.isSome = true ∧ ¬nullBase l loadWord ∧ MayIssue s l loadWord false false (lanesIn l l.mask) ∧
      OperandsRead s l loadWord false false addr val s1 ∧ lanesIn l l.mask = 0 :: after ∧
      laneAddress l loadWord false (offsetAt l loadWord false (addr 0)) s1 = .error (.trap c) ∧
      (∀ j ∈ after, ∃ e, laneAddress l loadWord false (offsetAt l loadWord false (addr j)) s1 = .error (.trap e))) ∧
    (∃ s l, EngineTurn s l ∧ l.e.issued = false ∧ l.e.latch.isSome = true ∧ s.pathCount l.t.key l.g 0 ≤ baseOf l) ∧
    (∃ s l, EngineTurn s l ∧ l.e.issued = false ∧ l.e.latch.isSome = true ∧ baseOf l < s.pathCount l.t.key l.g 0) := by
  have read (t : Team) (h1 : (engineOf (engineState .l t)).isSome = true) (h2 : okAnd ((lnAt .l t).vector 2 (engineState .l t)) (fun _ => true) = true)
      (h3 : (lnAt .l t).e.rep = 0) :
      ∃ a s1, (lnAt .l t).vector 2 (engineState .l t) = .ok (a, s1) ∧
        OperandsRead (engineState .l t) (lnAt .l t) loadWord false false (a.getD · 0) (([] : List W32).getD · 0) s1 := by
    obtain ⟨⟨a, s1⟩, h, -⟩ := okAnd_ex h2
    exact ⟨a, s1, h, [], _, a, s1, [], .inl ⟨by decide, rfl, rfl⟩, by simpa [loadWord, laneWord, addressReg] using h, ⟨rfl, rfl⟩, rfl, rfl⟩
  have may (t : Team) (h1 : (lnAt .l t).g.flight = []) (h2 : (engineState .l t).pathCount (lnAt .l t).t.key (lnAt .l t).g 3 < 63) (ls : List Nat) :
      MayIssue (engineState .l t) (lnAt .l t) loadWord false false ls := ⟨by simp [h1], fun _ h => absurd h (by decide), fun _ => h2⟩
  have null (t : Team) : ¬nullBase (lnAt .l t) loadWord := fun h => absurd h.1 (by decide)
  refine ⟨?_, ?_, ⟨_, lnAt .l lTeam, engine_turn _ _ (by decide +kernel), by decide +kernel, by decide +kernel, by decide +kernel⟩, ?_⟩
  · let l := lnAt .l lTeam
    have h : okAnd (l.vector 2 (engineState .l lTeam)) (fun x => answers (lanesAddressed l loadWord false false (x.1.getD · 0) (lanesIn l l.mask) x.2)) = true := by
      decide +kernel
    obtain ⟨a, s1, h1, h2⟩ := read lTeam (by decide +kernel) (by decide +kernel) (by decide +kernel)
    rw [show l.vector 2 (engineState .l lTeam) = _ from h1] at h
    simp only [okAnd] at h
    obtain ⟨xs, s2, h3⟩ := answer h
    exact ⟨_, l, xs, s2, _, _, s1, engine_turn _ _ (by decide +kernel), rfl, by decide +kernel, by decide +kernel, by decide +kernel, null _,
      may _ (by decide +kernel) (by decide +kernel) _, h2, h3⟩
  · let t : Team := { lTeam with cq := [fetchEntry fetchTeam] }
    let l := lnAt .l t
    have h : okAnd (l.vector 2 (engineState .l t)) (fun x => (List.range 1).all fun i => stopAnd (laneAddress l loadWord false (offsetAt l loadWord false (x.1.getD i 0)) x.2)
        fun e => match e with | .trap _ => true | _ => false) = true := by decide +kernel
    obtain ⟨a, s1, h1, h2⟩ := read t (by decide +kernel) (by decide +kernel) (by decide +kernel)
    rw [show l.vector 2 (engineState .l t) = _ from h1] at h
    have stops (i : Nat) (hi : i < 1) : ∃ c, laneAddress l loadWord false (offsetAt l loadWord false (a.getD i 0)) s1 = .error (.trap c) := by
      obtain ⟨e, he, hm⟩ := stopAnd_ex (List.all_eq_true.1 h i (List.mem_range.2 hi))
      cases e with
      | trap c => exact ⟨c, he⟩
      | wait k s' => simp at hm
      | fault f => simp at hm
    obtain ⟨c, hc⟩ := stops 0 (by decide)
    have hl : lanesIn l l.mask = 0 :: (List.range 1).tail := by decide +kernel
    exact ⟨_, l, _, _, s1, c, (List.range 1).tail, engine_turn _ _ (by decide +kernel), rfl, by decide +kernel, by decide +kernel, by decide +kernel, null _,
      may _ (by decide +kernel) (by decide +kernel) _, h2, hl, hc, fun j hj => stops j (List.mem_range.1 (List.mem_of_mem_tail hj))⟩
  · let t : Team := engineTeam .l (begun 0xFFFF) fun g => { g with flight := [aLoad none false] }
    exact ⟨_, lnAt .l t, engine_turn _ _ (by decide +kernel), by decide +kernel, by decide +kernel, by decide +kernel⟩

theorem witness_AccessesPerform :
    (∃ (s : State) (t : Team) (g : Group), s.team? 1 = some t ∧ t.group? 0 = some g ∧ performable s t g 0 = []) ∧
    (∃ (s : State) (t : Team) (g : Group) (a : Access), s.team? 1 = some t ∧ t.group? 0 = some g ∧ (performable s t g 0)[pickOf 1 s.tick]? = some a ∧
      (performable s t g 0).length = 1 ∧ a.store = false ∧ a.dest = some (.reg 1)) ∧
    (∃ (s : State) (t : Team) (g : Group) (a : Access), s.team? 1 = some t ∧ t.group? 0 = some g ∧ (performable s t g 0)[pickOf 1 s.tick]? = some a ∧
      (performable s t g 0).length = 1 ∧ a.store = true ∧ a.dest = none) ∧
    (∃ (s : State) (t : Team) (g : Group) (a : Access), s.team? 1 = some t ∧ t.group? 0 = some g ∧ (performable s t g 0)[pickOf 1 s.tick]? = some a ∧
      (performable s t g 0).length = 1 ∧ a.store = false ∧ a.dest = some (.lq 0)) := by
  let t (d : Option LoadDest) (st : Bool) : Team := engineTeam .l id fun g => { g with flight := [aLoad d st] }
  have w (d : Option LoadDest) (st : Bool)
      (h : ((t d st).group? 0).map (fun g => decide (performable (engineState .l (t d st)) (t d st) g 0 = [aLoad d st])) = some true) :
      ∃ (s : State) (t : Team) (g : Group) (a : Access), s.team? 1 = some t ∧ t.group? 0 = some g ∧ (performable s t g 0)[pickOf 1 s.tick]? = some a ∧
        (performable s t g 0).length = 1 ∧ a.store = st ∧ a.dest = d := by
    obtain ⟨g, hg, h⟩ := Option.map_eq_some_iff.1 h
    have h := of_decide_eq_true h
    exact ⟨engineState .l (t d st), t d st, g, aLoad d st, rfl, hg, by rw [h]; simp [pickOf], by rw [h]; rfl, rfl, rfl⟩
  have none_ : ((engineTeam .l id id).group? 0).map (fun g => decide (performable (engineState .l (engineTeam .l id id)) (engineTeam .l id id) g 0 = [])) =
      some true := by decide +kernel
  obtain ⟨g, hg, h⟩ := Option.map_eq_some_iff.1 none_
  refine ⟨⟨engineState .l (engineTeam .l id id), engineTeam .l id id, g, rfl, hg, of_decide_eq_true h⟩,
    w (some (.reg 1)) false (by decide +kernel), w none true (by decide +kernel), w (some (.lq 0)) false (by decide +kernel)⟩

/-- The S engine in a ring word that it has begun, with the ring of its map entry 0 and y0 as given. -/
def sRingTeam (y : W32) : Team :=
  let t := engineTeam .s (fun e => { begun 0xFFFF e with y := [y, 0, 0, 0] }) id
  { t with rings := t.rings.set 0 (some { bay := 0, desc := 0, gen := 0 }) }

def sRingState (y : W32) (r : Ring) : State := { engineState .s (sRingTeam y) with rings := [r] }

def sRingLane (y : W32) (r : Ring) : Ln :=
  match engineOf (sRingState y r) with
  | some (t, g, w, e) => lnOf t g w e
  | none => lnAt .s (sRingTeam y)

theorem sRing_turn (y : W32) (r : Ring) (h : (engineOf (sRingState y r)).isSome = true) : EngineTurn (sRingState y r) (sRingLane y r) := by
  obtain ⟨⟨u, g, w, e⟩, h⟩ := Option.isSome_iff_exists.1 h
  exact ⟨u, g, w, e, h, by simp [sRingLane, h]⟩

def ringWord : SW := { laneWord with vd := 0, va := 0, b := 0 }

theorem witness_StrandRingWords :
    (∃ s l, EngineTurn s l ∧ l.e.issued = false ∧ l.e.latch.isSome = true ∧ s.ringOf l.t (ringWord.va.toNat % 16) = none) ∧
    (∃ s l r, EngineTurn s l ∧ l.e.issued = false ∧ l.e.latch.isSome = true ∧ s.ringOf l.t (ringWord.va.toNat % 16) = some r ∧ r.abort = false ∧
      r.eos = false ∧ countsApart r.claimed r.tail < ringCount r ∧ waitEnded r (waiterOf l.t.key l.g.num l.who) = none ∧
      firstInLine r (waiterOf l.t.key l.g.num l.who) true) ∧
    (∃ s l r, EngineTurn s l ∧ l.e.issued = false ∧ l.e.latch.isSome = true ∧ s.ringOf l.t (ringWord.va.toNat % 16) = some r ∧ r.abort = true) ∧
    (∃ s l r v s1, EngineTurn s l ∧ l.e.issued = false ∧ l.e.latch.isSome = true ∧ s.ringOf l.t (ringWord.va.toNat % 16) = some r ∧ ¬OwnPending s l ∧
      l.uniform (ringWord.vd.toNat % 8) (s.drainParty l.place.party) = .ok (v, s1) ∧ v ≠ 0xFFFFFFFF ∧ r.abort = false ∧ namesSlot r v.toNat 1 ∧
      r.slots.getD 1 0 = 1 ∧ r.head < 2 ^ 32 ∧
      r.claimed < 2 ^ 32 ∧ countsApart r.claimed r.head ≤ 256) ∧
    (∃ s l r v s1, EngineTurn s l ∧ l.e.issued = false ∧ l.e.latch.isSome = true ∧ s.ringOf l.t (ringWord.va.toNat % 16) = some r ∧ ¬OwnPending s l ∧
      l.uniform (ringWord.vd.toNat % 8) (s.drainParty l.place.party) = .ok (v, s1) ∧ v = 0xFFFFFFFF) := by
  have quiet (y : W32) (r : Ring) (h : (sRingLane y r).g.flight = []) (h2 : (sRingState y r).mqueue = []) : ¬OwnPending (sRingState y r) (sRingLane y r) := by
    rintro (⟨a, ha, -⟩ | ⟨-, m, hm, -⟩)
    · simp [h] at ha
    · simp [h2] at hm
  refine ⟨⟨_, lnAt .s (engineTeam .s (begun 0xFFFF) id), engine_turn _ _ (by decide +kernel), by decide +kernel, by decide +kernel, by decide +kernel⟩, ?_,
    ⟨_, sRingLane 0 { ringWith 0 0 0 [0, 0] with abort := true }, { ringWith 0 0 0 [0, 0] with abort := true }, sRing_turn _ _ (by decide +kernel),
      by decide +kernel, by decide +kernel, by decide +kernel, rfl⟩, ?_, ?_⟩
  · let r := ringWith 0 0 0 [0, 0]
    let l := sRingLane 0 r
    exact ⟨_, l, r, sRing_turn _ _ (by decide +kernel), by decide +kernel, by decide +kernel, by decide +kernel, rfl, rfl, by decide, rfl, nofun⟩
  · let r := ringWith 0 0 2 [2, 1]
    let l := sRingLane 0x80 r
    have h : okAnd (l.uniform 0 ((sRingState 0x80 r).drainParty l.place.party)) (fun x => decide (x.1 = 0x80)) = true := by decide +kernel
    obtain ⟨⟨v, s1⟩, h, hv⟩ := okAnd_ex h
    obtain rfl : v = 0x80 := of_decide_eq_true hv
    exact ⟨_, l, r, 0x80, s1, sRing_turn _ _ (by decide +kernel), by decide +kernel, by decide +kernel, by decide +kernel, quiet _ _ (by decide +kernel) rfl, h,
      by decide, rfl, by unfold namesSlot; decide, rfl, by decide, by decide, by decide⟩
  · let r := ringWith 0 0 2 [2, 1]
    let l := sRingLane 0xFFFFFFFF r
    have h : okAnd (l.uniform 0 ((sRingState 0xFFFFFFFF r).drainParty l.place.party)) (fun x => decide (x.1 = 0xFFFFFFFF)) = true := by decide +kernel
    obtain ⟨⟨v, s1⟩, h, hv⟩ := okAnd_ex h
    exact ⟨_, l, r, v, s1, sRing_turn _ _ (by decide +kernel), by decide +kernel, by decide +kernel, by decide +kernel, quiet _ _ (by decide +kernel) rfl, h,
      of_decide_eq_true hv⟩

/-- The L and S engines past the entry's only trip. -/
def aheadC (h : Group → Group) : Team :=
  engineTeam .l (fun e => { e with entry := 1, running := false }) fun g => h (g.mapEng .s fun e => { e with entry := 1, running := false })

/-- A service entry that the C engine ends last, with what L and S were before it. -/
def serviceTeam : Team :=
  let t := fetchStrandTeam
  let e : CqEntry := { fetchEntry t with view := { (fetchEntry t).view with service := true } }
  let g := freshGroup 0 0 7 0
  { t with
    inVector := true, super := true, service := some e
    groups := [{ (g.mapPath 4 fun p => { p with live := true, root := 4, c := p.c.atTrip e 0 0 }) with savedL := some g.l, savedS := some g.s }] }

theorem atEnd (l : Ln) (h : (match l.who with
    | .c p => (l.g.siblings (l.g.pathAt p).root).all fun q => q == p
    | _ => true) = true) : allAtEnd l := by
  unfold allAtEnd
  split
  · next p hp =>
    rw [hp] at h
    exact fun q hq => .inl (eq_of_beq (List.all_eq_true.1 h q hq))
  · trivial

theorem witness_StrandControl :
    (∃ s l, EngineTurn s l ∧ l.g.met (l.t.phase == .stepping) l.who = false) ∧
    (∃ s l, EngineTurn s l ∧ l.g.met false l.who = true ∧ s.groupQuiet l.t.key l.g = true ∧ l.t.phase ≠ .stepping ∧
      (∀ p, l.g.siblings p = [p] ∨ l.g.siblings p = []) ∧ ∀ p ∈ l.g.liveSlots, (l.g.pathAt p).root = p) ∧
    (∃ s l g1, EngineTurn s l ∧ allAtEnd l ∧ settledEnd l ∧ l.group (pastEnd s l { laneWord with vd := 0, va := 0, b := 0 }) =
      .ok (g1, pastEnd s l { laneWord with vd := 0, va := 0, b := 0 }) ∧ l.entry.trips ≤ (g1.eng (endsIn l)).trip + 1 ∧ l.entry.view.service = false) ∧
    (∃ s0 l xs s1, EngineTurn s0 l ∧ RepetitionReady s0 l [{ reg := 2, adv := 0, span := 1 }] s0 ∧ l.group s0 = .ok (l.g, s0) ∧ earlierPassed l ∧
      (¬((∃ a ∈ l.g.flight, a.done = false ∧ a.path = l.root ∧ strandBefore a.origin l.e) ∨
        ∃ m ∈ s0.mqueue, m.team = l.t.key ∧ m.grp = l.g.num ∧ m.path = l.g.slotOf l.who ∧ m.counted = true)) ∧ l.t.rq.length < 16 ∧ l.sources none [2] s0 = .ok (xs, s1)) := by
  have eq_group (l : Ln) (s : State) (h : okAnd (l.group s) (fun x => decide (x.2 = s)) = true) : ∃ g1, l.group s = .ok (g1, s) := by
    obtain ⟨⟨g1, s1⟩, h1, h2⟩ := okAnd_ex h
    obtain rfl : s1 = s := of_decide_eq_true h2
    exact ⟨g1, h1⟩
  refine ⟨⟨_, lnAt (.c 0) cTeam, c_turn, by decide +kernel⟩, ?_, ?_, ?_⟩
  · refine ⟨_, lnAt (.c 0) (aheadC id), engine_turn _ _ (by decide +kernel), by decide +kernel, by decide +kernel, by decide +kernel, ?_,
      by decide +kernel⟩
    have h : (lnAt (.c 0) (aheadC id)).g.liveSlots = [0] ∧ ((lnAt (.c 0) (aheadC id)).g.pathAt 0).root = 0 := by decide +kernel
    intro p
    unfold Group.siblings
    rw [h.1, List.filter_cons, h.2, List.filter_nil]
    split
    · next hp => exact .inl (by rw [show p = 0 from (eq_of_beq hp).symm])
    · exact .inr rfl
  · let l := lnAt (.c 0) cTeam
    obtain ⟨g1, h⟩ := eq_group l (pastEnd (engineState (.c 0) cTeam) l { laneWord with vd := 0, va := 0, b := 0 }) (by decide +kernel)
    refine ⟨_, l, g1, c_turn, atEnd l (by decide +kernel), fun h => absurd (show l.who = .c 0 by decide +kernel) (h 0), h, ?_, by decide +kernel⟩
    exact Nat.le_trans (show l.entry.trips ≤ 1 by decide +kernel) (Nat.le_add_left ..)
  · let t := aheadC fun g => g.mapEng (.c 0) (begun 0xFFFF)
    let l := lnAt (.c 0) t
    have hg : okAnd (l.group (engineState (.c 0) t)) (fun x => decide (x.1 = l.g) && decide (x.2 = engineState (.c 0) t)) = true := by decide +kernel
    obtain ⟨⟨g1, s1⟩, h1, h2⟩ := okAnd_ex hg
    obtain ⟨h2, h3⟩ := Bool.and_eq_true_iff.1 h2
    obtain rfl : s1 = engineState (.c 0) t := of_decide_eq_true h3
    obtain rfl : g1 = l.g := of_decide_eq_true h2
    obtain ⟨xs, s1, h⟩ := answer (x := l.sources none [2] (engineState (.c 0) t)) (by decide +kernel)
    refine ⟨_, l, xs, s1, engine_turn _ _ (by decide +kernel), ⟨by decide +kernel, by decide +kernel, .inl ⟨by decide +kernel, rfl⟩⟩, h1, ?_, ?_, by decide +kernel, h⟩
    have hl : l.e.entry < l.g.l.entry ∧ l.e.entry < l.g.s.entry := by decide +kernel
    · rintro x (rfl | rfl)
      · exact .inl hl.1
      · exact .inl hl.2
    · have hq : l.g.flight = [] ∧ (engineState (.c 0) t).mqueue = [] := by decide +kernel
      rintro (⟨a, ha, -⟩ | ⟨m, hm, -⟩)
      · simp [hq.1] at ha
      · simp [hq.2] at hm

/-- The last word of a service entry. -/
theorem witness_service_end :
    ∃ s l g1 a b w, EngineTurn s l ∧ allAtEnd l ∧ settledEnd l ∧ l.entry.trips ≤ (g1.eng (endsIn l)).trip + 1 ∧ l.group (pastEnd s l w) = .ok (g1, pastEnd s l w) ∧ l.entry.view.service = true ∧ l.t.phase ≠ .stepping ∧
      g1.savedL = some a ∧ g1.savedS = some b ∧ (∀ x ∈ [Eng.l, .s, .c 4], x ≠ endsIn l → (g1.eng x).running = false) ∧ 4 < g1.paths.length := by
  let l := lnAt (.c 4) serviceTeam
  let w : SW := { laneWord with vd := 0, va := 0, b := 0 }
  have h : okAnd (l.group (pastEnd (engineState (.c 4) serviceTeam) l w)) (fun x => decide (x.2 = pastEnd (engineState (.c 4) serviceTeam) l w) &&
      decide (x.1.savedL.isSome ∧ x.1.savedS.isSome ∧ (∀ y ∈ [Eng.l, .s, .c 4], y ≠ endsIn l → (x.1.eng y).running = false) ∧ 4 < x.1.paths.length)) = true := by
    decide +kernel
  obtain ⟨⟨g1, s1⟩, h, h2⟩ := okAnd_ex h
  obtain ⟨h2, h3⟩ := Bool.and_eq_true_iff.1 h2
  obtain rfl : s1 = pastEnd (engineState (.c 4) serviceTeam) l w := of_decide_eq_true h2
  obtain ⟨ha, hb, hr, hp⟩ := of_decide_eq_true h3
  obtain ⟨a, ha⟩ := Option.isSome_iff_exists.1 ha
  obtain ⟨b, hb⟩ := Option.isSome_iff_exists.1 hb
  exact ⟨_, l, g1, a, b, w, engine_turn _ _ (by decide +kernel), atEnd l (by decide +kernel), fun h => absurd (show l.who = .c 4 by decide +kernel) (h 4),
    Nat.le_trans (show l.entry.trips ≤ 1 by decide +kernel) (Nat.le_add_left ..), h, by decide +kernel, by decide +kernel, ha, hb, hr, hp⟩

/-- The C engine at a waypoint word whose handle is in y0 and whose phase is in y1. -/
def waypointLane (h p : W32) : Team := engineTeam (.c 0) (fun e => { begun 0xFFFF e with y := [h, p, 0, 0] }) id

def strandWaypoint (h p : W32) : State := { engineState (.c 0) (waypointLane h p) with waypoints := [aWaypoint], arrivals := [relaxedArrival (fillCommand (helmTeam [])) 0 1 0] }

def strandWaypointLn (h p : W32) : Ln :=
  match engineOf (strandWaypoint h p) with
  | some (t, g, w, e) => lnOf t g w e
  | none => lnAt (.c 0) (waypointLane h p)

theorem strandWaypoint_turn (h p : W32) (hh : (engineOf (strandWaypoint h p)).isSome = true) : EngineTurn (strandWaypoint h p) (strandWaypointLn h p) := by
  obtain ⟨⟨u, g, w, e⟩, h⟩ := Option.isSome_iff_exists.1 hh
  exact ⟨u, g, w, e, h, by simp [strandWaypointLn, h]⟩

theorem witness_StrandArrivals :
    (∃ s l w, EngineTurn s l ∧ ¬namesEngine l w) ∧
    (∃ s l w h ph s1 x, EngineTurn s l ∧ namesEngine l w ∧ Whole l ∧ l.uniform (w.va.toNat % 8) s = .ok (h, s) ∧
      s.waypoint? h.toNat l.t.dct.aspace = some x ∧ l.uniform (w.vd.toNat % 8) s = .ok (ph, s1) ∧ s1.waypoint? h.toNat l.t.dct.aspace = some x ∧
      phaseDone x ph.toNat ∧ l.e.granted = none ∧ ¬OwnPending s l) ∧
    (∃ s l w h ph x, EngineTurn s l ∧ namesEngine l w ∧ Whole l ∧ l.uniform (w.va.toNat % 8) s = .ok (h, s) ∧
      l.uniform (w.vd.toNat % 8) s = .ok (ph, s) ∧ s.waypoint? h.toNat l.t.dct.aspace = some x ∧ ¬phaseDone x ph.toNat ∧ l.e.granted = none ∧
      s.waiterRoom x = true) ∧
    (∃ s l w h ph g, EngineTurn s l ∧ namesEngine l w ∧ Whole l ∧ l.uniform (w.va.toNat % 8) s = .ok (h, s) ∧ l.uniform (w.vd.toNat % 8) s = .ok (ph, s) ∧
      (l.e.granted.filter fun g => g.handle == h.toNat && g.waited == ph.toNat) = some g) ∧
    (∃ s l w h, EngineTurn s l ∧ namesEngine l w ∧ Whole l ∧ l.uniform (w.va.toNat % 8) s = .ok (h, s) ∧ s.waypoint? h.toNat l.t.dct.aspace = none) ∧
    (∃ (s : State) (a : Arrival), s.arrivals[0]? = some a) ∧ ∃ s : State, s.arrivals[0]? = none := by
  let w : SW := { laneWord with vd := 1, va := 0, b := 1 }
  have named (h p : W32) (hw : (strandWaypointLn h p).who = .c 0) : namesEngine (strandWaypointLn h p) w := by unfold namesEngine; rw [hw]; decide
  refine ⟨⟨_, lnAt (.c 0) cTeam, { w with b := 2 }, c_turn, by unfold namesEngine; decide +kernel⟩, ?_, ?_, ?_, ?_,
    ⟨strandWaypoint 0 0, _, rfl⟩, ⟨engineState (.c 0) cTeam, rfl⟩⟩
  · let l := strandWaypointLn 0x01000005 2
    let s := strandWaypoint 0x01000005 2
    have hq : l.g.flight = [] ∧ s.mqueue = [] := by decide +kernel
    refine ⟨s, l, w, 0x01000005, 2, s, aWaypoint, strandWaypoint_turn _ _ (by decide +kernel), named _ _ (by decide +kernel), by unfold Whole; decide +kernel,
      okIs (by decide +kernel), by decide +kernel, okIs (by decide +kernel), by decide +kernel, by unfold phaseDone; decide, by decide +kernel, ?_⟩
    rintro (⟨a, ha, -⟩ | ⟨-, m, hm, -⟩)
    · simp [hq.1] at ha
    · simp [hq.2] at hm
  · exact ⟨strandWaypoint 0x01000005 3, strandWaypointLn 0x01000005 3, w, 0x01000005, 3, aWaypoint, strandWaypoint_turn _ _ (by decide +kernel), named _ _ (by decide +kernel),
      by unfold Whole; decide +kernel, okIs (by decide +kernel), okIs (by decide +kernel), by decide +kernel, by unfold phaseDone; decide, by decide +kernel,
      by decide +kernel⟩
  · let t : Team := engineTeam (.c 0) (fun e => { begun 0xFFFF e with y := [0x01000005, 2, 0, 0], granted := some { handle := 0x01000005, waited := 2, phase := 3, releases := [] } }) id
    have hw : (lnAt (.c 0) t).who = .c 0 := by decide +kernel
    exact ⟨engineState (.c 0) t, lnAt (.c 0) t, w, 0x01000005, 2, { handle := 0x01000005, waited := 2, phase := 3, releases := [] }, engine_turn _ _ (by decide +kernel), by unfold namesEngine; rw [hw]; decide,
      by unfold Whole; decide +kernel, okIs (by decide +kernel), okIs (by decide +kernel), by decide +kernel⟩
  · exact ⟨strandWaypoint 0x02000005 2, strandWaypointLn 0x02000005 2, w, 0x02000005, strandWaypoint_turn _ _ (by decide +kernel), named _ _ (by decide +kernel),
      by unfold Whole; decide +kernel, okIs (by decide +kernel), by decide +kernel⟩


/-- A team with a granted shape of 4 × 4 × 8 in shape 0, f32 throughout, and two tiles; its C engine in a word that it has begun. -/
def matrixTeam (h : Group → Group) : Team :=
  let t := engineTeam (.c 0) (begun 0xFFFF) h
  let sh := List.replicate 8 { Shape.zero with valid := true, reqm := 4, reqn := 4, reqk := 8, grm := 4, grn := 4, grk := 8 }
  { t with
    shapes := sh, kernel := { t.kernel with tiles := 2 }
    cq := [{ fetchEntry (helmTeam []) with view := { (fetchEntry (helmTeam [])).view with shapes := sh } }] }

def matrixWord : SW := { laneWord with vd := 0, va := 0, b := 0, ext := some longExt }

/-- Two groups of a gang, quarters 0 and 1 of B from the first, 2 and 3 from the second, both at a load of B. -/
def gangTeam : Team :=
  let t := matrixTeam fun g =>
    { g.mapEng (.c 0) (fun e => { e with arrived := true }) with gang := (2 : W64) <<< 60 ||| 0x60460, meet := some (.ldb, matrixWord) }
  { t with groups := t.groups ++ t.groups.map fun g => { g with num := 1 } }

/-- An operation of the team that a bay is to start, or has begun. -/
def zeroOp (begun : Bool) : MatrixOp :=
  { num := 0, bay := 0, team := 1, grp := 0, path := 0, place := hostPlace, kind := .zero, word := 0, head := 0, obj := 1, tag := 0, acc := 0, fmt := 0
    grk := 8, grn := 4, me := 4, ne := 4, ke := 8, b := none, lnd := false, offset := 0, stride := 0, all := true, counted := false, jobs := [], su := none
    scaleRec := 0, g0 := 0, row0 := 0, col0 := 0, imgRows := 0, imgCols := 0, sid := 0, steps := 0, leases := [], begun := begun, imaged := [], known := [], lifted := []
    toks := [] }

def tilesState (m : MatrixOp) : State :=
  { engineState (.c 0) (matrixTeam id) with
    mqueue := [m]
    tiles := [{ bay := 0, team := 1, acc := 0, elems := [(0, 5)], steps := 3 }, { bay := 0, team := 1, acc := 1, elems := [], steps := 0 }] }

/-- A team with a shape of 4 × 4 × 16 over 16-bit formats, four tiles and 64 KiB of pad; its uniform registers are 0, but y1 and y2, 0x200. -/
def kindTeam : Team :=
  let fmts : List W64 := List.replicate 16 0x210000000
  let t := engineTeam (.c 0) (fun e => { begun 0xFFFF e with y := [0, 0x200, 0x200, 0] }) id
  let sh := List.replicate 8 { Shape.zero with valid := true, reqm := 4, reqn := 4, reqk := 16, grm := 4, grn := 4, grk := 16 }
  { t with
    shapes := sh, fmts := fmts, kernel := { t.kernel with tiles := 4 }, pad := 0x1000
    cq := [{ fetchEntry (helmTeam []) with view := { (fetchEntry (helmTeam [])).view with shapes := sh, fmts := fmts } }] }

/-- Its machine, with B of that shape pinned and the header of an image of 4 rows and columns at offset 0 of the pad. -/
def kindState : State :=
  { engineState (.c 0) kindTeam with
    allots := [{ tag := 0x1000, size := 0x10000 }]
    mem := memSetList (engineState (.c 0) kindTeam).mem (locOf 0x1000 6) [3, 3]
    slots := [{ bay := 0, team := 1, scale := [], images := [], pinned := true, grk := 16, grn := 4, bf := 2, b := [] }] }

def kindLn : Ln := match engineOf kindState with | some (t, g, w, e) => lnOf t g w e | none => lnAt (.c 0) kindTeam

/-- The ten words: the first of each kind's forms that needs no more than the registers above. -/
def kindWord : MatrixKind → Instr × SW
  | .ldb => (.mxLdb matrixWord, matrixWord) | .mma => (.mxMma matrixWord, matrixWord) | .mmas => (.mxMmas matrixWord, matrixWord)
  | .gmma => let w := { matrixWord with ext := some { longExt with imm := 0x0440 } }; (.mxGmma w, w)
  | .zero => (.mxZero matrixWord, matrixWord) | .ldacc => (.mxLdacc matrixWord, matrixWord) | .stacc => (.mxStacc matrixWord, matrixWord)
  | .rstep => (.mxRstep matrixWord, matrixWord) | .rsave => (.mxRsave matrixWord, matrixWord) | .rload => (.mxRload matrixWord, matrixWord)


theorem kind_turn : EngineTurn kindState kindLn := by
  have h : (engineOf kindState).isSome = true := by decide +kernel
  obtain ⟨⟨u, g, w, e⟩, h⟩ := Option.isSome_iff_exists.1 h
  exact ⟨u, g, w, e, h, by simp [kindLn, h]⟩

theorem kind_loc {s : State} (hl : s.allots = kindState.allots) (off n : Nat) (hn : off + n ≤ 0x10000) :
    s.localLoc kindLn.t kindLn.g.bay 1 off n = some (locOf 0x1000 off) := by
  have hp : kindLn.t.pad = 0x1000 ∧ kindLn.g.bay = kindLn.t.bay := by decide +kernel
  simp only [State.localLoc, hp.1, hp.2, State.allotSize, hl]
  simp [kindState]
  omega

theorem map_range_succ {α : Type} (n : Nat) (f : Nat → α) : (List.range (n + 1)).map f = f 0 :: (List.range n).map fun i => f (i + 1) := by
  rw [List.range_succ_eq_map, List.map_cons, List.map_map]
  rfl

/-- What a read of the engine's pad gives where there is no write record. -/
theorem kind_bytes (n : Nat) : ∀ {s : State} (off : Nat), s.writes = [] → s.allots = kindState.allots → off + n ≤ 0x10000 →
    ∃ s1 : State, s1.writes = [] ∧ s1.allots = kindState.allots ∧ s1.mem = s.mem ∧
      kindLn.mxBytes false off n s = .ok ((List.range n).map fun i => memGet s.mem (locOf 0x1000 off + i), s1) := by
  induction n with
  | zero => exact fun {s} off hw hl _ => ⟨s, hw, hl, rfl, rfl⟩
  | succ n ih =>
    intro s off hw hl hn
    obtain ⟨k, h1⟩ := readSpace_unwritten hw kindLn.place [] { loc := locOf 0x1000 off, va := none, large := false } 1
    obtain ⟨s1, h2, h3, h4, h5⟩ := ih (s := s.setKnow k) (off + 1) hw hl (by omega)
    have e : kindLn.mxBytes false off (n + 1) s = (readSpace kindLn.place [] { loc := (s.localLoc kindLn.t kindLn.g.bay 1 off 1).getD 0, va := none, large := false } 1 >>=
      fun b => kindLn.mxBytes false (off + 1) n >>= fun rest => pure (b.map (·.value) ++ rest)) s := rfl
    refine ⟨s1, h2, h3, h4, ?_⟩
    rw [e, kind_loc hl off 1 (by omega), Option.getD_some, M.bind_ok h1, M.bind_ok h5, M.pure_run, map_range_succ n]
    refine congrArg (fun x => Except.ok (_ :: x, s1)) (List.map_congr_left fun i _ => ?_)
    exact congrArg (memGet s.mem) (by simp only [locOf]; omega)

theorem kind_list (n : Nat) : ∀ {s : State} (off : Nat), s.writes = [] → s.allots = kindState.allots → off + 2 * n ≤ 0x10000 →
    ∃ s1 : State, s1.writes = [] ∧ s1.allots = kindState.allots ∧ s1.mem = s.mem ∧
      kindLn.mxList false off n s = .ok ((List.range n).map fun i => leNat [memGet s.mem (locOf 0x1000 off + 2 * i), memGet s.mem (locOf 0x1000 off + 2 * i + 1)], s1) := by
  induction n with
  | zero => exact fun {s} off hw hl _ => ⟨s, hw, hl, rfl, rfl⟩
  | succ n ih =>
    intro s off hw hl hn
    obtain ⟨k, h1⟩ := readSpace_unwritten hw kindLn.place [] { loc := locOf 0x1000 off, va := none, large := false } 2
    obtain ⟨s1, h2, h3, h4, h5⟩ := ih (s := s.setKnow k) (off + 2) hw hl (by omega)
    have e : kindLn.mxList false off (n + 1) s = (readSpace kindLn.place [] { loc := (s.localLoc kindLn.t kindLn.g.bay 1 off 2).getD 0, va := none, large := false } 2 >>=
      fun b => kindLn.mxList false (off + 2) n >>= fun rest => pure (readValue b :: rest)) s := rfl
    refine ⟨s1, h2, h3, h4, ?_⟩
    rw [e, kind_loc hl off 2 (by omega), Option.getD_some, M.bind_ok h1, M.bind_ok h5, M.pure_run, map_range_succ n]
    refine congrArg (fun x => Except.ok (_ :: x, s1)) (List.map_congr_left fun i _ => ?_)
    have h (j : Nat) : locOf 0x1000 (off + 2) + 2 * i + j = locOf 0x1000 off + 2 * (i + 1) + j := by simp only [locOf]; omega
    exact congrArg₂ (fun a b => leNat [memGet s.mem a, memGet s.mem b]) (h 0) (h 1)

/-- Values of the shared uniform registers that a read may give the engine: y4 to y7 are 0. -/
theorem kind_y (n : Nat) (v : W32) (h : mayReadY kindLn n v) : v = if n = 1 ∨ n = 2 then 0x200 else 0 := by
  unfold mayReadY at h
  split at h
  · next hn =>
    have hy : kindLn.e.y = [0, 0x200, 0x200, 0] := by decide +kernel
    rw [h, hy]
    obtain rfl | rfl | rfl | rfl : n = 0 ∨ n = 1 ∨ n = 2 ∨ n = 3 := by omega
    all_goals rfl
  · next hn =>
    have ho (m : Nat) : kindLn.g.regOptions (regY m) 0 kindLn.e.vc = [0] ∨ kindLn.g.regOptions (regY m) 0 kindLn.e.vc = [] := by
      have hb : kindLn.g.rlog = [] ∧ kindLn.g.base = [] := by decide +kernel
      exact .inl (by simp [Group.regOptions, hb.1, hb.2, List.eraseDups, List.eraseDupsBy, List.eraseDupsBy.loop])
    rw [if_neg (by omega)]
    rcases ho n with ho | ho
    · simpa [ho] using h
    · simpa [ho] using h

def kinds : List MatrixKind := [.ldb, .mma, .mmas, .gmma, .zero, .ldacc, .stacc, .rstep, .rsave, .rload]

theorem kind_part (w : SW) (x : Nat × Nat) (hw : w.imm.getLsbD 0 = false) (h : x.1 + x.2 ≤ 0x10000) : InPart kindState kindLn w x := by
  refine .inr ?_
  rw [hw, if_neg Bool.false_ne_true, kind_loc rfl x.1 x.2 h]
  rfl

theorem kind_scale (k : MatrixKind) (rows : List Nat) (hk : k ∈ kinds) : ScaleGood kindState kindLn k (kindWord k).2 rows := by
  have h : ∀ k ∈ kinds, mxSu (kindWord k).2 = none ∧ fmtSCL (kindLn.mxFmt (kindWord k).2).toNat = false := by decide +kernel
  unfold ScaleGood
  dsimp only
  rw [(h k hk).1, (h k hk).2]
  split
  · exact fun _ _ h => absurd h (by simp)
  · exact ⟨rfl, fun _ _ _ h => absurd h (by simp)⟩

/-- Any rows that are not past 1023, at the words' own offset. -/
theorem kind_jobs (k : MatrixKind) (jobs : List (Nat × Nat)) (hk : k ∈ [MatrixKind.mma, .mmas, .gmma, .rstep])
    (hj : ∀ j ∈ jobs, j.1 < 4 ∧ j.2 < 4) : JobsGood kindState kindLn k (kindWord k).2 jobs := by
  have hi : ∀ k ∈ [MatrixKind.mma, .mmas, .gmma, .rstep], k ∈ kinds ∧ (kindWord k).2.imm.getLsbD 0 = false ∧ (kindWord k).2.ubase = 0 ∧
      ∀ a < 4, ∀ r ∈ rowRanges k (fmtBits (fmtAF (kindLn.mxFmt (kindWord k).2).toNat)) (kindLn.mxShape (kindWord k).2).grk
        (kindLn.extents (kindLn.mxShape (kindWord k).2)).2.2 0 a, r.1 + r.2 ≤ 0x10000 := by decide +kernel
  obtain ⟨hk, h0, hu, hr⟩ := hi k hk
  refine ⟨fun j hm => ⟨?_, fun y hy r hr2 => ?_⟩, kind_scale k _ hk⟩
  · have := (hj j (List.mem_filter.1 hm).1).2
    omega
  · rw [hu] at hy
    obtain rfl := kind_y 0 y hy
    exact kind_part _ _ h0 (hr _ (hj j (List.mem_filter.1 hm).1).1 r hr2)

theorem kind_product (k : MatrixKind) (hk : k ∈ [MatrixKind.mma, .mmas, .rstep]) :
    (∀ y, mayReadY kindLn (kindWord k).2.ubase y → y.toNat % 16 = 0) ∧
      JobsGood kindState kindLn k (kindWord k).2 ((List.range (kindLn.extents (kindLn.mxShape (kindWord k).2)).1).map fun r => (r, r)) := by
  have h : ∀ k ∈ [MatrixKind.mma, .mmas, .rstep], k ∈ [MatrixKind.mma, .mmas, .gmma, .rstep] ∧ (kindWord k).2.ubase = 0 ∧
      ∀ j ∈ (List.range (kindLn.extents (kindLn.mxShape (kindWord k).2)).1).map fun r => (r, r), j.1 < 4 ∧ j.2 < 4 := by decide +kernel
  obtain ⟨h1, h2, h3⟩ := h k hk
  rw [h2]
  exact ⟨fun y hy => by rw [kind_y 0 y hy]; rfl, kind_jobs k _ h1 h3⟩

theorem kind_region (k : MatrixKind) (hk : k = .ldacc ∨ k = .stacc) (e : Nat) (he : e = 4) :
    let x := kindLn.extents (kindLn.mxShape (kindWord k).2)
    let w := (kindWord k).2
    let stride := if field w.imm.toNat 15 2 = 0 then (x.2.1 * e + 3) / 4 * 4 else 4 * field w.imm.toNat 15 2
    ∀ y, mayReadY kindLn w.ubase y → y.toNat % e = 0 ∧ ∀ r, r < x.1 → InPart kindState kindLn w (y.toNat + r * stride, x.2.1 * e) := by
  subst he
  have h : ∀ k ∈ [MatrixKind.ldacc, .stacc], (kindWord k).2 = matrixWord := by decide
  dsimp only
  rw [h k (by simpa using hk)]
  intro y hy
  have hx : kindLn.extents (kindLn.mxShape matrixWord) = (4, 4, 16) := by decide +kernel
  rw [kind_y 0 y hy, hx]
  refine ⟨rfl, fun r hr => kind_part _ _ (by decide) ?_⟩
  have hs : field matrixWord.imm.toNat 15 2 = 0 := by decide
  simp [hs]
  omega

theorem kind_image (k : MatrixKind) (hk : k = .rsave ∨ k = .rload) : ImageGood kindState kindLn k (kindWord k).2 := by
  have h : ∀ k ∈ [MatrixKind.rsave, .rload], (kindWord k).2 = matrixWord := by decide
  rw [h k (by simpa using hk)]
  have hx : kindLn.extents (kindLn.mxShape matrixWord) = (4, 4, 16) := by decide +kernel
  refine ⟨by decide +kernel, by decide +kernel, by decide +kernel, fun u y hu hy => ?_⟩
  obtain rfl : u = none := by
    rcases hu with h | ⟨n, v, h, -⟩
    · exact h.2
    · exact absurd ((show mxSu matrixWord = none from rfl).symm.trans h) nofun
  obtain rfl := kind_y 0 y hy
  rw [hx]
  refine ⟨by decide, by decide, by decide, ?_, fun _ => ⟨?_, ?_⟩⟩
  · have : ∀ r ∈ imageRanges (fmtCOMP (kindLn.mxFmt matrixWord).toNat) 0 0 0 4 4 4, r.1 + r.2 ≤ 0x10000 := by decide +kernel
    exact fun r hr => kind_part _ _ (by decide) (this r hr)
  · intro m hm
    exact absurd hm (by rw [show kindState.mqueue = [] from rfl]; simp)
  · intro tick bs s' hb
    obtain ⟨s1, -, -, -, h1⟩ := kind_bytes 64 (s := { kindState with tick := tick }) 0 rfl rfl (by decide)
    have hb : kindLn.mxBytes false 0 64 { kindState with tick := tick } = .ok (bs, s') := hb
    rw [h1] at hb
    cases hb
    have : ((List.range 64).map fun i => memGet kindState.mem (locOf 0x1000 0 + i)) = [0, 0, 0, 0, 0, 0, 3, 3] ++ List.replicate 56 0 := by decide +kernel
    dsimp only
    rw [this]
    decide +kernel

theorem kind_lists : ∀ (tick : Nat) (rows : List Nat) (s1 : State) (tos : List Nat) (s2 : State),
    kindLn.mxList false 0x200 4 { kindState with tick := tick } = .ok (rows, s1) → kindLn.mxList false 0x200 4 s1 = .ok (tos, s2) →
    ∀ j ∈ rows.zip tos, j.1 < 4 ∧ j.2 < 4 := by
  intro tick rows s1 tos s2 ha hb
  obtain ⟨x, h1, h2, h3, h4⟩ := kind_list 4 (s := { kindState with tick := tick }) 0x200 rfl rfl (by decide)
  rw [h4] at ha
  cases ha
  obtain ⟨z, -, -, -, h5⟩ := kind_list 4 (s := s1) 0x200 h1 h2 (by decide)
  rw [h5] at hb
  cases hb
  rw [h3]
  dsimp only
  decide +kernel

theorem kind_good : ∀ k ∈ kinds, OperandsGood kindState kindLn k (kindWord k).2 := by
  intro k hk
  have hx : kindLn.extents (kindLn.mxShape matrixWord) = (4, 4, 16) := by decide +kernel
  cases k
  · trivial
  · exact kind_product .mma (by decide)
  · exact kind_product .mmas (by decide)
  · have hx : kindLn.extents (kindLn.mxShape (kindWord .gmma).2) = (4, 4, 16) := by decide +kernel
    refine ⟨fun y hy => by rw [kind_y 0 y hy]; rfl, fun m hm => absurd hm (by rw [show kindState.mqueue = [] from rfl]; simp), fun yr yt hr ht => ?_⟩
    rw [kind_y 1 yr hr, kind_y 1 yt ht, hx]
    refine ⟨kind_part _ _ (by decide) (by decide), by decide, kind_part _ _ (by decide) (by decide), by decide, fun tick rows s1 tos s2 ha hb => ?_⟩
    exact kind_jobs .gmma _ (by decide) (kind_lists tick rows s1 tos s2 ha hb)
  · trivial
  · exact kind_region .ldacc (.inl rfl) _ (by decide +kernel)
  · exact kind_region .stacc (.inr rfl) _ (by decide +kernel)
  · exact kind_product .rstep (by decide)
  · exact kind_image .rsave (.inl rfl)
  · exact kind_image .rload (.inr rfl)

theorem witness_MatrixKinds : ∀ k ∈ kinds, ∃ s l i w, EngineTurn s l ∧ matrixForm i = some (k, w) ∧ l.who = .c 0 ∧ l.e.latch.isSome = true ∧
    l.g.liveSlots.length ≤ 1 ∧ l.g.gang = 0 ∧ l.g.meet = none ∧ WordLegal l k w ∧ ShapeLegal s l k w ∧ FormatLegal s l k w ∧ OperandsGood s l k w ∧
    s.pathCount l.t.key l.g 0 < 63 ∧ s.pathCount l.t.key l.g 1 < 63 ∧ (s.mqueue.filter fun m => m.bay == l.g.bay).length < 4 := by
  intro k hk
  have hform : matrixForm (kindWord k).1 = some (k, (kindWord k).2) := by cases k <;> rfl
  refine ⟨kindState, kindLn, (kindWord k).1, (kindWord k).2, kind_turn, hform, by decide +kernel, by decide +kernel, by decide +kernel, by decide +kernel, by decide +kernel,
    ?_, ?_, ?_, kind_good k hk, by decide +kernel, by decide +kernel, by decide +kernel⟩
  · cases k <;> exact ⟨by decide +kernel, fun _ _ _ _ => by decide +kernel⟩
  · cases k <;> exact ⟨by decide +kernel, by decide +kernel, by decide +kernel, fun _ => ⟨2, by decide +kernel⟩⟩
  · have hp : kindState.pinnedShape kindLn.g.bay kindLn.t.key = some (16, 4, 2) := by decide +kernel
    have hf (k : MatrixKind) (hk : k ∈ kinds) : fmtBF (kindLn.mxFmt (kindWord k).2).toNat = 2 := by
      revert k; decide +kernel
    have pinned : pinnedUse k (kindWord k).2 → ∀ a b c, kindState.pinnedShape kindLn.g.bay kindLn.t.key = some (a, b, c) →
        c = fmtBF (kindLn.mxFmt (kindWord k).2).toNat := by
      intro _ a b c h
      rw [hp] at h
      rw [hf k hk]
      cases h
      rfl
    cases k <;> exact ⟨by decide +kernel, by decide +kernel, pinned, by decide +kernel, by decide +kernel⟩

theorem some_getD {α : Type} {x : Option α} (d : α) (h : x.isSome = true) : x = some (x.getD d) := by cases x <;> simp_all

theorem witness_MatrixWordsAndGangs :
    (∃ s l o s1, EngineTurn s l ∧ matrixForm (.mxZero matrixWord) = some (.zero, matrixWord) ∧ l.who = .c 0 ∧ l.e.latch.isSome = true ∧
      l.g.liveSlots.length ≤ 1 ∧ l.g.meet = none ∧ WordLegal l .zero matrixWord ∧ ShapeLegal s l .zero matrixWord ∧ FormatLegal s l .zero matrixWord ∧
      operandChecks l .zero matrixWord s = .ok (o, s1) ∧ (s.mqueue.filter fun m => m.bay == l.g.bay).length < 4 ∧ ¬takesRegisters .zero matrixWord) ∧
    (∃ s l qs s2, EngineTurn s l ∧ matrixForm (.mxLdb matrixWord) = some (.ldb, matrixWord) ∧ l.who = .c 0 ∧ l.g.gang = 0 ∧
      takesRegisters .ldb matrixWord ∧ readQuarters [{ g := l.g, path := 0, w := matrixWord, quarters := 15 }] l.width
        (quarterSize l (l.mxShape matrixWord) (l.mxFmt matrixWord).toNat) 4 s = .ok (qs, s2)) ∧
    (∃ s l, EngineTurn s l ∧ gangedKind .ldb ∧ l.g.gang ≠ 0 ∧ l.t.phase ≠ .stepping ∧ l.g.liveSlots.length ≤ 1) ∧
    (∃ s l, EngineTurn s l ∧ ¬ShapeLegal s l .zero matrixWord) ∧
    (∃ s l lo s1 hi s2, EngineTurn s l ∧ l.e.issued = false ∧ l.e.latch.isSome = true ∧ l.g.liveSlots.length ≤ 1 ∧ l.uniform 0 s = .ok (lo, s1) ∧
      l.uniform 1 s1 = .ok (hi, s2) ∧ GangLegal l.t l.g (hi.toNat * 2 ^ 32 + lo.toNat)) ∧
    (∃ s l, EngineTurn s l ∧ l.e.issued = false ∧ l.e.latch.isSome = true ∧ l.g.liveSlots.length ≤ 1 ∧ (∀ v, mayReadY l matrixWord.ubase v → v = 0) ∧
      (∀ v, mayReadY l (matrixWord.ubase + 1) v → v = 0) ∧ GangLegal l.t l.g (0 * 2 ^ 32 + 0)) ∧
    (∃ (s : State) (t : Team) (g : Group) (entry : CqEntry) (ms : List Member) (s' : State), s.team? t.key = some t ∧ t.group? g.num = some g ∧
      g.meet = some (.ldb, matrixWord) ∧ g.liveSlots.head? = some 0 ∧ t.entryAt (g.eng (.c 0)).entry = some entry ∧ gangMeeting t g = some ms ∧
      t.phase = .running ∧ g.gang ≠ 0 ∧ field g.gang.toNat 4 0 = g.num ∧ mxMeet (lnOf t g (.c 0) entry) .ldb matrixWord ms s = .ok ((), s') ∧
      GangWord (lnOf t g (.c 0) entry) .ldb matrixWord ms ∧ ShapeLegal s (lnOf t g (.c 0) entry) .ldb matrixWord ∧
      FormatLegal s (lnOf t g (.c 0) entry) .ldb matrixWord ∧ OperandsGood s (lnOf t g (.c 0) entry) .ldb matrixWord ∧
      (s.mqueue.filter fun m => m.bay == g.bay).length < 4 ∧ (ms.map fun m => m.g.num).Nodup ∧ ∀ m ∈ ms, m.path < m.g.paths.length) := by
  have hm : (engineOf (engineState (.c 0) (matrixTeam id))).isSome = true := by decide +kernel
  let l := lnAt (.c 0) (matrixTeam id)
  refine ⟨?_, ?_, ⟨_, lnAt (.c 0) gangTeam, engine_turn _ _ (by decide +kernel), .inl rfl, by decide +kernel, by decide +kernel, by decide +kernel⟩,
    ⟨_, lnAt (.c 0) cTeam, c_turn, fun h => absurd h.1 (by decide +kernel)⟩, ?_,
    ⟨_, l, engine_turn _ _ hm, by decide +kernel, by decide +kernel, by decide +kernel, fun v h => h.trans (by decide +kernel), fun v h => h.trans (by decide +kernel),
      .inl ⟨by decide, rfl⟩⟩, ?_⟩
  · obtain ⟨o, s1, h⟩ := answer (x := operandChecks l .zero matrixWord (engineState (.c 0) (matrixTeam id))) rfl
    refine ⟨_, l, o, s1, engine_turn _ _ hm, rfl, by decide +kernel, by decide +kernel, by decide +kernel, by decide +kernel,
      ⟨.inr (by decide +kernel), fun h => absurd h.1 (by unfold gangedKind; decide)⟩, ⟨by decide +kernel, by decide +kernel, fun h => ?_, fun h => ?_⟩,
      ⟨by decide +kernel, fun h => ?_, fun h => ?_, nofun, nofun⟩, h, by decide +kernel, fun h => absurd h.1 (by unfold gangedKind; decide)⟩
    · exact absurd h (by decide)
    · exact absurd h (by unfold pinnedUse; decide)
    · exact absurd h (by decide +kernel)
    · exact absurd h (by unfold pinnedUse; decide)
  · obtain ⟨qs, s2, h⟩ := answer (x := readQuarters [{ g := l.g, path := 0, w := matrixWord, quarters := 15 }] l.width
      (quarterSize l (l.mxShape matrixWord) (l.mxFmt matrixWord).toNat) 4 (engineState (.c 0) (matrixTeam id))) (by decide +kernel)
    exact ⟨_, l, qs, s2, engine_turn _ _ hm, rfl, by decide +kernel, by decide +kernel, by unfold takesRegisters gangedKind pinnedUse; decide, h⟩
  · have h : okAnd (l.uniform 0 (engineState (.c 0) (matrixTeam id))) (fun x => okAnd (l.uniform 1 x.2) fun y =>
        decide (y.1.toNat * 2 ^ 32 + x.1.toNat = 0)) = true := by decide +kernel
    obtain ⟨⟨lo, s1⟩, h1, h⟩ := okAnd_ex h
    obtain ⟨⟨hi, s2⟩, h2, h⟩ := okAnd_ex h
    refine ⟨_, l, lo, s1, hi, s2, engine_turn _ _ hm, by decide +kernel, by decide +kernel, by decide +kernel, h1, h2, ?_⟩
    rw [show hi.toNat * 2 ^ 32 + lo.toNat = 0 from of_decide_eq_true h]
    exact .inl ⟨by decide, rfl⟩
  · let g := gangTeam.groups.headD (freshGroup 0 0 7 0)
    let e := (gangTeam.entryAt (g.eng (.c 0)).entry).getD (fetchEntry gangTeam)
    let ms := (gangMeeting gangTeam g).getD []
    let l := lnOf gangTeam g (.c 0) e
    obtain ⟨s', h⟩ := answer_unit (x := mxMeet l .ldb matrixWord ms (engineState (.c 0) gangTeam)) (by decide +kernel)
    have hms : ∀ m ∈ ms, (m.g.gang = l.g.gang ∧ m.w.accNo = matrixWord.accNo ∧ m.w.shNo = matrixWord.shNo ∧ m.w.fmtNo = matrixWord.fmtNo ∧ m.w.imm = matrixWord.imm ∧
        m.g.meet = some (.ldb, matrixWord)) ∧ (let n := (List.range 4).countP (m.quarters / 2 ^ · % 2 == 1) * quarterSize l (l.mxShape matrixWord) (l.mxFmt matrixWord).toNat
          m.w.va.toNat + n ≤ 112 ∧ ∀ j, j < n → (m.g.mapAt (m.g.eng (.c m.path)).entry).getLsbD ((m.w.va.toNat + j) / 16) = true) := by decide +kernel
    refine ⟨engineState (.c 0) gangTeam, gangTeam, g, e, ms, s', by decide +kernel, by decide +kernel, by decide +kernel, by decide +kernel, by decide +kernel,
      some_getD [] (by decide +kernel), by decide +kernel, by decide +kernel, by decide +kernel, h, ⟨fun m hm => ?_, .inl rfl, fun _ _ _ m hm => .inr (hms m hm).2⟩,
      ⟨by decide +kernel, by decide +kernel, by decide, fun h => ?_⟩, ⟨by decide +kernel, by decide +kernel, fun h => ?_, nofun, nofun⟩, trivial, by decide +kernel, by decide +kernel,
      by decide +kernel⟩
    · obtain ⟨h1, h2, h3, h4, h5, h6⟩ := (hms m hm).1
      exact ⟨h1, h2, h3, h4, h5, _, h6⟩
    · exact absurd h (by unfold pinnedUse; decide)
    · exact absurd h (by unfold pinnedUse; decide)

theorem witness_MatrixOperations :
    (∃ (s : State) (m : MatrixOp), (s.mqueue.filter fun m => m.bay == 0).any (·.begun) = false ∧ (s.mqueue.filter fun m => m.bay == 0).head? = some m ∧
      (match s.team? m.team with | some t => t.resident && t.phase == .running | none => false) = true) ∧
    (∃ (s : State) (m : MatrixOp) (t : Team), (s.mqueue.filter fun m => m.bay == 0).find? (·.begun) = some m ∧ s.team? m.team = some t ∧
      (s.tile? m.bay m.team m.acc).isSome = true ∧ (s.tile? m.bay m.team (m.acc + 1)).isSome = true ∧ Memory.wf s.mem = true ∧
      (∀ x ∈ s.tiles, (x.elems.map (·.1)).Pairwise (· < ·)) ∧ m.kind = .zero) ∧
    (∃ s : State, (s.mqueue.filter fun m => m.bay == 0) = []) := by
  refine ⟨⟨tilesState (zeroOp false), zeroOp false, by decide +kernel, by decide +kernel, by decide +kernel⟩,
    ⟨tilesState (zeroOp true), zeroOp true, matrixTeam id, by decide +kernel, by decide +kernel, by decide +kernel, by decide +kernel, by decide +kernel, by decide +kernel, rfl⟩,
    ⟨idleState, rfl⟩⟩

/-- An operation of one k with the format-table entry given. -/
def oneK (f : W64) : MatrixOp := { zeroOp true with fmt := f, ke := 1 }

/-- R265's example, and R261's for the same values in f32. -/
theorem test_matrix_sums :
    updateElem { zeroOp true with fmt := 0x210000000, ke := 16 } [] none (List.replicate 16 (some 0x0C00)) (List.replicate 16 0x0800) 0 [0x3F800000] = [0x3F800004] ∧
    updateElem { zeroOp true with fmt := 0, ke := 16 } [] none (List.replicate 16 (some 0x39800000)) (List.replicate 16 0x39000000) 0 [0x3F800000] = [0x3F800000] := by
  decide +kernel

/-- Elements and what they enter, of each form: f16 in chunks, and on the pair with a decay; f32 one by one; i8 whole; ai8 by groups. -/
theorem witness_MatrixSums :
    (∃ (m : MatrixOp) (x d : Nat), let f := m.fmt.toNat
      fmtEntryValid f = true ∧ m.ke = 1 ∧ ElementFinite (fmtAF f) x ∧ ElementFinite (fmtBF f) x ∧ fmtACCF f ≠ 0x0B ∧ fmtCOMP f = true ∧ fmtSCL f = false ∧
      1 < fmtAF f ∧ CodeFinite fp32 d ∧ fmtACCF f = 0) ∧
    (∃ (m : MatrixOp) (x : Nat), let f := m.fmt.toNat
      fmtEntryValid f = true ∧ ElementFinite (fmtAF f) x ∧ ElementFinite (fmtBF f) x ∧ fmtACCF f ≠ 0x0B ∧ fmtCOMP f = false ∧ fmtSCL f = false ∧ fmtAF f ≤ 1) ∧
    (∃ (m : MatrixOp) (x : Nat), let f := m.fmt.toNat
      fmtEntryValid f = true ∧ ElementFinite (fmtAF f) x ∧ ElementFinite (fmtBF f) x ∧ fmtACCF f = 0x0B) ∧
    (∃ (m : MatrixOp) (x sc : Nat), let f := m.fmt.toNat
      fmtEntryValid f = true ∧ ElementFinite (fmtAF f) x ∧ ElementFinite (fmtBF f) x ∧ fmtACCF f ≠ 0x0B ∧ fmtSCL f = true ∧
      1 = (m.ke + 32 * 2 ^ fmtGSIZE f - 1) / (32 * 2 ^ fmtGSIZE f) ∧ CodeFinite fp16 sc) :=
  ⟨⟨oneK 0x80000210000000, 0x0C00, 0x3F000000, by decide, rfl, by show CodeFinite fp16 _; unfold CodeFinite; decide, by show CodeFinite fp16 _; unfold CodeFinite; decide,
      by decide, by decide, by decide, by decide, by unfold CodeFinite; decide, by decide⟩,
   ⟨oneK 0, 0x3F800000, by decide, by show CodeFinite fp32 _; unfold CodeFinite; decide, by show CodeFinite fp32 _; unfold CodeFinite; decide, by decide, by decide, by decide, by decide⟩,
   ⟨oneK (BitVec.ofNat 64 (6 * 2 ^ 27 + 6 * 2 ^ 32 + 0xB * 2 ^ 37 + 0xB * 2 ^ 42)), 0xFF, by decide, by show 0xFF < 2 ^ 8; decide, by show 0xFF < 2 ^ 8; decide, by decide⟩,
   ⟨oneK (BitVec.ofNat 64 (7 * 2 ^ 27 + 6 * 2 ^ 32 + 2 ^ 49 + 2 ^ 50)), 0xF, 0x3C00, by decide, by show 0xF < 2 ^ 8; decide, by show 0xF < 2 ^ 8; decide, by decide, by decide, by decide,
      by show CodeFinite fp16 0x3C00; unfold CodeFinite; decide⟩⟩


/-! ### Events -/

/-- The team of a fill with the command in the state given, its memory mapped. -/
def copyState (c : CopyCmd) : State := { helmState (fillTeam 0x400 0) with cmds := [c] }

def runningFill (complete tried : List Nat) (failed : List (Nat × Nat × Nat)) : CopyCmd :=
  { fillCommand (fillTeam 0x400 0) with state := .running, complete := complete, tried := tried, failed := failed }

theorem witness_CopyEvents :
    (∃ (s : State) (c : CopyCmd) (t : Team), s.runningCmd 0 0 = none ∧ nextCommand s 0 0 = some c ∧ s.team? c.team = some t) ∧
    (∃ (s : State) (c : CopyCmd) (t : Team) (gs : List (Except Cause Gran)) (s1 : State), s.runningCmd 0 0 = some c ∧ s.team? c.team = some t ∧ sectorDue c 0 ∧ c.cmd < 4 ∧ sectorGrans t c .all 0 s = .ok (gs, s1) ∧
      Memory.wf s1.mem = true ∧ failedCauses gs = []) ∧
    (∃ (s : State) (c : CopyCmd) (t : Team) (gs : List (Except Cause Gran)) (s1 : State) (e : Cause), s.runningCmd 0 0 = some c ∧ s.team? c.team = some t ∧ sectorDue c 0 ∧ c.cmd < 4 ∧ sectorGrans t c .all 0 s = .ok (gs, s1) ∧
      Memory.wf s1.mem = true ∧ (failedCauses gs).head? = some e) ∧
    (∃ (s : State) (c : CopyCmd) (t : Team), s.runningCmd 0 0 = some c ∧ s.team? c.team = some t ∧ c.coll = .wait false 2 ∧ s.waypoint? c.cwph t.dct.aspace = none) ∧
    (∃ (s : State) (c : CopyCmd) (t : Team), s.runningCmd 0 0 = some c ∧ s.team? c.team = some t ∧ c.coll = .go ∧ (∀ i, i < c.nsec → i ∈ c.complete ∨ i ∈ c.tried) ∧ c.failed = []) ∧
    (∃ (s : State) (c : CopyCmd) (t : Team), s.runningCmd 0 0 = some c ∧ s.team? c.team = some t ∧ c.coll = .go ∧ (∀ i, i < c.nsec → i ∈ c.complete ∨ i ∈ c.tried) ∧ c.failed ≠ [] ∧
      0 ∉ (s.cmds.filter fun x => x.team == c.team && x.state == .held).map (·.slot)) ∧
    (∃ (s : State) (d : Die), s.die? 0 = some d ∧ 65536 ≤ d.lookups) := by
  have due (c : CopyCmd) (h1 : c.coll = .go) (h2 : c.nsec = 1) (h3 : c.complete = []) (h4 : c.tried = []) (h5 : c.cmd = 3) : sectorDue c 0 :=
    ⟨h1, by omega, by simp [h3], by simp [h4], fun h => by omega⟩
  have grans (f : List (Except Cause Gran) → Bool) (c : CopyCmd)
      (h : okAnd (sectorGrans (fillTeam 0x400 0) c .all 0 (copyState c)) (fun x => decide (Memory.wf x.2.mem = true) && f x.1) = true) :
      ∃ gs s1, sectorGrans (fillTeam 0x400 0) c .all 0 (copyState c) = .ok (gs, s1) ∧ Memory.wf s1.mem = true ∧ f gs = true := by
    obtain ⟨⟨gs, s1⟩, h1, h2⟩ := okAnd_ex h
    obtain ⟨h2, h3⟩ := Bool.and_eq_true_iff.1 h2
    exact ⟨gs, s1, h1, of_decide_eq_true h2, h3⟩
  refine ⟨⟨copyState (fillCommand (fillTeam 0x400 0)), _, fillTeam 0x400 0, rfl, rfl, rfl⟩, ?_, ?_,
    ⟨copyState { runningFill [] [] [] with cmd := 5, coll := .wait false 2 }, _, fillTeam 0x400 0, rfl, rfl, rfl, by decide +kernel⟩,
    ⟨copyState (runningFill [0] [0] []), _, fillTeam 0x400 0, rfl, rfl, rfl, by decide, rfl⟩,
    ⟨copyState (runningFill [] [0] [(0, 6, 0x400)]), _, fillTeam 0x400 0, rfl, rfl, rfl, by decide, nofun, by decide⟩,
    ⟨{ idleState with dies := [{ num := 0, inService := true, secfg := 0, pool := [], push := 0, lookups := 65536, stops := [] }] }, _, rfl, by decide⟩⟩
  · obtain ⟨gs, s1, h1, h2, h3⟩ := grans (fun gs => (failedCauses gs).isEmpty) (runningFill [] [] []) (by decide +kernel)
    refine ⟨copyState (runningFill [] [] []), _, fillTeam 0x400 0, gs, s1, rfl, rfl, due _ rfl rfl rfl rfl rfl, by decide, h1, h2, List.isEmpty_iff.1 h3⟩
  · let c : CopyCmd := { runningFill [] [] [] with ops := [0, (4 : W64) <<< 60 ||| 0x10000, 16, 0] }
    obtain ⟨gs, s1, h1, h2, h3⟩ := grans (fun gs => (failedCauses gs).head?.isSome) c (by decide +kernel)
    obtain ⟨e, h3⟩ := Option.isSome_iff_exists.1 h3
    exact ⟨copyState c, c, fillTeam 0x400 0, gs, s1, e, rfl, rfl, due _ rfl rfl rfl rfl rfl, by decide, h1, h2, h3⟩

/-- A team of one group with the entry given, no engine running. -/
def queueTeam (e : CqEntry) (h : Group → Group) : Team :=
  { fetchStrandTeam with segs := (helmTeam []).segs, cq := [e], groups := [h (freshGroup 0 0 7 0)] }

def queueState (t : Team) : State := { engineState .l t with cur := none }

def entryOf (k : EntryKind) : CqEntry := { fetchEntry (helmTeam []) with kind := k }

/-- A group in a split of paths 0 and 1. -/
def splitGroup (g : Group) : Group := { g.mapPath 1 fun p => { p with live := true, root := 1 } with split := some (0, 1) }

theorem witness_EntriesAndEngines :
    (∃ (s : State) (t : Team) (g : Group) (e : CqEntry) (s1 : State) (off : Nat) (s2 : State), s.team? t.key = some t ∧ t.group? g.num = some g ∧
      (t.engineMayRun g .l = true ∧ (g.eng .l).running = false ∧ t.phase ≠ .vector ∧ t.phase ≠ .freezing) ∧ t.nextEntry g.num (g.eng .l) = some e ∧
      e.kind = .run ∧ e.trips ≠ 0 ∧ acquireEntry t g .l e s = .ok ((), s1) ∧ startOff t g e s1 = .ok (off, s2)) ∧
    (∃ (s : State) (t : Team) (g : Group) (e f : CqEntry) (s' : State), s.team? t.key = some t ∧ t.group? g.num = some g ∧
      t.engineMayRun g (.c 0) = true ∧ (g.eng (.c 0)).running = false ∧ t.nextEntry g.num (g.eng (.c 0)) = some e ∧ e.kind = .splitA ∧ g.split = none ∧
      t.entryAt (e.n + 1) = some f ∧ (g.pathAt 0).live = true ∧ (g.pathAt 1).live = false ∧ openSplit t g 0 e s = .ok ((), s')) ∧
    (∃ (s : State) (t : Team) (g : Group) (e : CqEntry) (s' : State), s.team? t.key = some t ∧ t.group? g.num = some g ∧
      t.engineMayRun g .l = true ∧ t.nextEntry g.num (g.eng .l) = some e ∧ e.kind = .splitA ∧ g.split = some (0, 1) ∧ entryStart t.key g.num .l s = .ok ((), s')) ∧
    (∃ (s : State) (t : Team) (e : CqEntry), s.team? t.key = some t ∧ t.cq = [e] ∧
      (∀ g ∈ t.groups, e.selects g.num = true → ∀ who ∈ g.engines, e.n < (g.eng who).entry) ∧ t.surrenders = []) ∧
    (∀ k ∈ [EntryKind.eos, .mark], ∃ (s : State) (t : Team) (g : Group) (e : CqEntry), s.team? t.key = some t ∧ t.group? g.num = some g ∧
      t.nextEntry g.num g.l = some e ∧ e.kind = k ∧ g.allAt t e.n = true ∧ t.phase = .running ∧ t.rq.length < 16) ∧
    (∃ (s : State) (t : Team) (g : Group) (e : CqEntry), s.team? t.key = some t ∧ t.group? g.num = some g ∧ t.nextEntry g.num g.l = some e ∧
      e.kind = .join ∧ g.allAt t e.n = true ∧ t.phase = .running ∧ g.split = some (0, 1) ∧ 1 < g.paths.length ∧ 0 ∈ g.liveSlots) ∧
    (∃ (s : State) (t : Team) (g : Group), s.team? t.key = some t ∧ t.group? g.num = some g ∧ t.phase = .running ∧ s.groupQuiet t.key g = true ∧
      g.liveSlots.head? = some 0 ∧ ∀ who ∈ g.engines, (g.eng who).running = true ∧ (g.eng who).waitFor = some .token) ∧
    (∃ (s : State) (t : Team) (g : Group), s.team? t.key = some t ∧ t.group? g.num = some g ∧ t.phase = .freezing ∧ .c 0 ∈ g.engines ∧
      (g.eng (.c 0)).halted = false ∧ 0 < g.paths.length) := by
  let q := queueTeam (entryOf .run) id
  refine ⟨?_, ?_, ?_, ⟨queueState (queueTeam (entryOf .run) fun g => g.allTo 1), queueTeam (entryOf .run) fun g => g.allTo 1, _, rfl, rfl, by decide +kernel, rfl⟩, ?_,
    ⟨queueState (queueTeam (entryOf .join) splitGroup), queueTeam (entryOf .join) splitGroup, splitGroup (freshGroup 0 0 7 0), entryOf .join,
      by decide +kernel, by decide +kernel, by decide +kernel, rfl, by decide +kernel, rfl, rfl, by decide, by decide +kernel⟩,
    ?_, ?_⟩
  · have h : okAnd (acquireEntry q (freshGroup 0 0 7 0) .l (entryOf .run) (queueState q)) (fun x =>
        answers (startOff q (freshGroup 0 0 7 0) (entryOf .run) x.2)) = true := by decide +kernel
    obtain ⟨⟨⟨⟩, s1⟩, h1, h⟩ := okAnd_ex h
    obtain ⟨off, s2, h2⟩ := answer h
    exact ⟨queueState q, q, freshGroup 0 0 7 0, entryOf .run, s1, off, s2, rfl, rfl, by decide +kernel, by decide +kernel, rfl, by decide, h1, h2⟩
  · let t : Team := { queueTeam (entryOf .splitA) id with cq := [entryOf .splitA, { entryOf .splitB with n := 1 }] }
    obtain ⟨s', h⟩ := answer_unit (x := openSplit t (freshGroup 0 0 7 0) 0 (entryOf .splitA) (queueState t)) (by decide +kernel)
    exact ⟨queueState t, t, freshGroup 0 0 7 0, entryOf .splitA, { entryOf .splitB with n := 1 }, s', rfl, rfl, by decide +kernel, by decide +kernel,
      by decide +kernel, rfl, rfl, by decide +kernel, by decide +kernel, by decide +kernel, h⟩
  · let t : Team := { queueTeam (entryOf .splitA) splitGroup with cq := [entryOf .splitA, { entryOf .splitB with n := 1 }] }
    obtain ⟨s', h⟩ := answer_unit (x := entryStart t.key 0 .l (queueState t)) (by decide +kernel)
    exact ⟨queueState t, t, splitGroup (freshGroup 0 0 7 0), entryOf .splitA, s', rfl, by decide +kernel, by decide +kernel, by decide +kernel, rfl, rfl, h⟩
  · have at_ (k : EntryKind) (h : (freshGroup 0 0 7 0).allAt (queueTeam (entryOf k) id) 0 = true)
        (h2 : (queueTeam (entryOf k) id).nextEntry 0 (freshGroup 0 0 7 0).l = some (entryOf k)) :
        ∃ (s : State) (t : Team) (g : Group) (e : CqEntry), s.team? t.key = some t ∧ t.group? g.num = some g ∧
          t.nextEntry g.num g.l = some e ∧ e.kind = k ∧ g.allAt t e.n = true ∧ t.phase = .running ∧ t.rq.length < 16 :=
      ⟨queueState (queueTeam (entryOf k) id), queueTeam (entryOf k) id, freshGroup 0 0 7 0, entryOf k, rfl, rfl, h2, rfl, h, rfl, Nat.zero_lt_succ 15⟩
    intro k hk
    simp only [List.mem_cons, List.not_mem_nil, or_false] at hk
    rcases hk with rfl | rfl
    · exact at_ .eos (by decide +kernel) (by decide +kernel)
    · exact at_ .mark (by decide +kernel) (by decide +kernel)
  · let g : Group := [Eng.l, .s, .c 0].foldl (fun g w => g.mapEng w fun e => { e with running := true, waitFor := some .token }) (freshGroup 0 0 7 0)
    exact ⟨queueState (queueTeam (entryOf .run) fun _ => g), queueTeam (entryOf .run) fun _ => g, g, rfl, rfl, rfl, by decide +kernel, by decide +kernel, by decide +kernel⟩
  · exact ⟨queueState { q with phase := .freezing }, { q with phase := .freezing }, freshGroup 0 0 7 0, rfl, rfl, rfl, by decide +kernel, by decide +kernel, by decide⟩

/-- The team freezes while a store of S to a byte that a queued operation leases is in flight. -/
def heldTeam : Team :=
  { queueTeam (entryOf .run) fun g => { g with flight := [{ aLoad none true with eng := .s, origin := { (freshGroup 0 0 7 0).s with rep := 2 } }] } with phase := .freezing }

def heldStoreState : State := { queueState heldTeam with mqueue := [{ zeroOp false with leases := [{ loc := 0x200108, len := 4 }] }] }

/-- A split whose path A was not opened, its lanes' path parked in slot 1. -/
def parkedGroup : Group := { splitGroup (freshGroup 0 0 7 0) with parked := some (1, (freshGroup 0 0 7 0).pathAt 0) }

/-- A group whose four path slots are all held. -/
def fullGroup : Group :=
  [1, 2, 3].foldl (fun g p => g.mapPath p fun x => { x with live := true, root := p }) (freshGroup 0 0 7 0)

theorem witness_EntriesAndEngines_more :
    (∃ (s : State) (t : Team) (g : Group) (a : Access), s.team? t.key = some t ∧ t.group? g.num = some g ∧ t.phase = .freezing ∧ .s ∈ g.engines ∧
      (g.eng .s).halted = false ∧ s.heldStore t g .s = some a) ∧
    (∃ (s : State) (t : Team) (g : Group) (e : CqEntry) (x : Path), s.team? t.key = some t ∧ t.group? g.num = some g ∧ t.nextEntry g.num g.l = some e ∧
      e.kind = .join ∧ g.allAt t e.n = true ∧ t.phase = .running ∧ g.split = some (0, 1) ∧ 1 < g.paths.length ∧ g.parked = some (1, x)) ∧
    (∃ (s : State) (t : Team) (g : Group) (e f : CqEntry), s.team? t.key = some t ∧ t.group? g.num = some g ∧
      t.engineMayRun g (.c 0) = true ∧ (g.eng (.c 0)).running = false ∧ t.nextEntry g.num (g.eng (.c 0)) = some e ∧ e.kind = .splitA ∧ g.split = none ∧
      t.entryAt (e.n + 1) = some f ∧ ∀ q, q < 4 → (g.pathAt q).live = true) ∧
    (∃ (s : State) (t : Team) (g : Group) (e : CqEntry), s.team? t.key = some t ∧ t.group? g.num = some g ∧
      t.engineMayRun g (.c 0) = true ∧ (g.eng (.c 0)).running = false ∧ t.nextEntry g.num (g.eng (.c 0)) = some e ∧ e.kind = .nop) := by
  refine ⟨?_, ?_, ?_, ?_⟩
  · have h : ((heldTeam.group? 0).bind fun g => heldStoreState.heldStore heldTeam g .s).isSome = true := by decide +kernel
    obtain ⟨a, h⟩ := Option.isSome_iff_exists.1 h
    exact ⟨heldStoreState, heldTeam, _, a, rfl, rfl, rfl, by decide +kernel, by decide +kernel, h⟩
  · exact ⟨queueState (queueTeam (entryOf .join) fun _ => parkedGroup), queueTeam (entryOf .join) fun _ => parkedGroup, parkedGroup, entryOf .join, _,
      by decide +kernel, by decide +kernel, by decide +kernel, rfl, by decide +kernel, rfl, rfl, by decide, rfl⟩
  · let t : Team := { queueTeam (entryOf .splitA) fun _ => fullGroup with cq := [entryOf .splitA, { entryOf .splitB with n := 1 }] }
    exact ⟨queueState t, t, fullGroup, entryOf .splitA, { entryOf .splitB with n := 1 }, by decide +kernel, by decide +kernel, by decide +kernel, by decide +kernel,
      by decide +kernel, rfl, rfl, by decide +kernel, by decide +kernel⟩
  · exact ⟨queueState (queueTeam (entryOf .nop) id), queueTeam (entryOf .nop) id, freshGroup 0 0 7 0, entryOf .nop, rfl, rfl, by decide +kernel, by decide +kernel,
      by decide +kernel, rfl⟩

/-- A launch of one iteration, its object the mapped one, its bound waypoint as given. -/
def aNest (bwp bph : Nat) : Nest :=
  { nid := 0, queue := 0, dctx := 0, dct := (helmTeam []).dct, launchWord := 0, order := false, launcher := hostPlace, seg2 := 0, regions := none, release := Release.none
    record := { nestRecordOf (2 ^ 752 + 2 ^ 768 + 16 * 2 ^ 384 + 2 ^ 448) none with code := 0x0001000000000000, bwp := bwp, bph := bph }
    parent := none, dispatched := false, started := false, total := 0, nextOrd := 0, aspace := 0, teams := [], done := [], finished := false
    cellar := [], stackUsed := [] }

/-- A context with that nest and no team. -/
def nestState (n : Nest) : State := { dctState (helmTeam []) 2 with teams := [], cur := none, nests := [n], waypoints := [aWaypoint] }

theorem witness_NestEvents :
    (∃ (s : State) (before after : List Nest) (n : Nest) (cs : List Nat) (s1 : State), s.nests = before ++ n :: after ∧ n.queue = 0 ∧
      n.started = false ∧ n.finished = false ∧ (∀ m ∈ before, m.queue = 0 → m.started = true ∨ m.finished = true) ∧ n.dispatched = false ∧
      n.record.bwp = 0 ∧ (∀ i, i < n.record.depth → n.record.memMask.testBit i = false) ∧
      readCounts n n.reader [] [] n.record.depth s = .ok (cs, s1) ∧ cs.foldl (· * ·) 1 = 1) ∧
    (∃ (s : State) (n : Nest) (w : Waypoint), s.nests = [n] ∧ n.record.bwp ≠ 0 ∧ s.waypoint? n.record.bwp n.aspace = some w ∧ phaseDone w n.record.bph) ∧
    (∃ (s : State) (n : Nest) (w : Waypoint), s.nests = [n] ∧ n.record.bwp ≠ 0 ∧ s.waypoint? n.record.bwp n.aspace = some w ∧ ¬phaseDone w n.record.bph) ∧
    (∃ (s : State) (n : Nest), s.nests = [n] ∧ n.record.bwp ≠ 0 ∧ s.waypoint? n.record.bwp n.aspace = none) ∧
    (∃ (s : State) (n : Nest), s.nests = [n] ∧ n.finished = true) := by
  refine ⟨?_, ⟨nestState (aNest 0x01000005 2), _, aWaypoint, rfl, by decide, by decide +kernel, by unfold phaseDone; decide⟩,
    ⟨nestState (aNest 0x01000005 3), _, aWaypoint, rfl, by decide, by decide +kernel, by unfold phaseDone; decide⟩,
    ⟨nestState (aNest 0x02000005 3), _, rfl, by decide, by decide +kernel⟩, ⟨nestState { aNest 0 0 with finished := true }, _, rfl, rfl⟩⟩
  let n := aNest 0 0
  have h : okAnd (readCounts n n.reader [] [] n.record.depth (nestState n)) (fun y =>
      decide (y.1.foldl (· * ·) 1 = 1)) = true := by decide +kernel
  obtain ⟨⟨cs, s1⟩, h2, h⟩ := okAnd_ex h
  exact ⟨nestState n, [], [], n, cs, s1, rfl, by decide +kernel, by decide +kernel, by decide +kernel, by simp, by decide +kernel,
    by decide +kernel, by decide +kernel, h2, of_decide_eq_true h⟩

theorem witness_TeamPlacements :
    (∃ (s : State) (c : Cand) (n : Nest) (w : Want) (loc : Nat) (d : Dct) (s0 s1 : State), s.classless = none ∧ s.chosen.find? (fun c => c.team.isNone) = some c ∧
      s.nest? c.nid = some n ∧ c.want = some w ∧ s.fitsAt w 0 = true ∧ readDct (sePlace s.lowestDie) n.dctx s = .ok (d, s0) ∧
      s0.objLoc { s.ghost n.dctx with dct := d } (n.record.code.toNat / 2 ^ 48) = some (loc, s1) ∧ n.freeSlots ≠ [] ∧ 1 ≤ d.nteam ∧ s.teams = [] ∧ n.record.depth ≤ n.record.counts.length) ∧
    (∃ (s : State) (c : Cand) (n : Nest), s.classless = none ∧ s.chosen.find? (fun c => c.team.isNone) = some c ∧ s.nest? c.nid = some n ∧ c.want = none) ∧
    (∃ (s : State) (t : Team), s.classless = some t) := by
  let n : Nest := { aNest 0 0 with dispatched := true, total := 1 }
  refine ⟨?_, ?_, ⟨{ idleState with teams := [{ helmTeam [] with resident := false, ready := .now, frozenClass := some 2 }] },
      { helmTeam [] with resident := false, ready := .now, frozenClass := some 2 }, by decide +kernel⟩⟩
  · have h : ((nestState n).chosen.find? (fun c => c.team.isNone)).map (fun c => decide (c.nid = 0) && (match c.want with
        | some w => (nestState n).fitsAt w 0
        | none => false)) = some true := by decide +kernel
    obtain ⟨c, hc, h⟩ := Option.map_eq_some_iff.1 h
    obtain ⟨h1, h2⟩ := Bool.and_eq_true_iff.1 h
    have hw : ∃ w, c.want = some w ∧ (nestState n).fitsAt w 0 = true := by
      cases hw : c.want with
      | none => simp [hw] at h2
      | some w => exact ⟨w, rfl, by simpa [hw] using h2⟩
    obtain ⟨w, hw, hf⟩ := hw
    have hd : okAnd (readDct (sePlace (nestState n).lowestDie) 0 (nestState n)) (fun x => decide (1 ≤ x.1.nteam) &&
        (x.2.objLoc { (nestState n).ghost n.dctx with dct := x.1 } (n.record.code.toNat / 2 ^ 48)).any fun _ => true) = true := by decide +kernel
    obtain ⟨⟨d, s0⟩, hd, hn⟩ := okAnd_ex hd
    obtain ⟨hn, ho⟩ := Bool.and_eq_true_iff.1 hn
    obtain ⟨⟨loc, s1⟩, ho, -⟩ := someAnd_ex ho
    exact ⟨nestState n, c, n, w, loc, d, s0, s1, by decide +kernel, hc, by rw [of_decide_eq_true h1]; rfl, hw, hf, hd, ho, by decide +kernel,
      of_decide_eq_true hn, rfl, by decide +kernel⟩
  · let s : State := { dctState (helmTeam []) 0 with teams := [], cur := none, nests := [n] }
    have h : (s.chosen.find? (fun c => c.team.isNone)).map (fun c => decide (c.nid = 0) && c.want.isNone) = some true := by decide +kernel
    obtain ⟨c, hc, h⟩ := Option.map_eq_some_iff.1 h
    obtain ⟨h1, h2⟩ := Bool.and_eq_true_iff.1 h
    exact ⟨s, c, n, by decide +kernel, hc, by rw [of_decide_eq_true h1]; rfl, by simpa using h2⟩

/-- A context whose save area is at 0x1000 of the mapped page, 16 KiB a team. -/
def saveState (t : Team) : State :=
  let s := dctState t 2
  { s with mem := memSetList s.mem 0 (leBytes 96 (1 + 2 ^ 32 + 2 ^ 64 + 0x100000 * (2 ^ 128 + 2 ^ 192 + 2 ^ 256 + 2 ^ 320) + 2 ^ 432 +
      0x400 * 2 ^ 384 + 0x1000 * 2 ^ 640 + 16384 * 2 ^ 704)) }

def savedMem : List Host.Cell := (saveState (helmTeam [])).mem

/-- Memory below the save area is as it was, by writes that do not reach it. -/
def SaveIntact (s : State) : Prop :=
  Memory.wf s.mem = true ∧ (∀ a, a < 0x201000 → memGet s.mem a = memGet savedMem a) ∧ s.dies = (saveState (helmTeam [])).dies ∧ s.health = [] ∧
    ∀ w ∈ s.writes, w.bottom = true ∨ 0x201000 ≤ w.loc

theorem takeToken_writes (s : State) (p : Place) (loc : Nat) : (s.takeToken p loc).writes = s.writes ∧ (s.takeToken p loc).health = s.health := by
  unfold State.takeToken
  repeat' (first | exact ⟨rfl, rfl⟩ | split | dsimp only)

theorem bottomsFor_bottom (s : State) (loc n : Nat) : ∀ w ∈ bottomsFor s loc n, w.bottom = true := by
  induction n with
  | zero => simp [bottomsFor]
  | succ n ih =>
    simp only [bottomsFor]
    split
    · exact ih
    · intro w hw
      rcases List.mem_cons.1 hw with rfl | hw
      · rfl
      · exact ih w hw

theorem writeWith_writes (s : State) (p : Place) (known lifted : List Nat) (heads : List Release) (loc : Nat) (bs : List Byte) :
    (s.writeWith p known lifted heads loc bs).2.health = s.health ∧
    ∀ w ∈ (s.writeWith p known lifted heads loc bs).2.writes, w ∈ s.writes ∨ w.bottom = true ∨ w.loc = loc := by
  obtain ⟨h1, h2⟩ := takeToken_writes s p loc
  have key : ∀ w ∈ ((s.takeToken p loc).addWrite p known lifted false (List.replicate bs.length heads) loc bs).2.writes,
      w ∈ s.writes ∨ w.bottom = true ∨ w.loc = loc := by
    intro w hw
    simp only [State.addWrite, List.mem_append, List.mem_singleton, h1] at hw
    rcases hw with (hw | hw) | rfl
    · exact .inl hw
    · exact .inr (.inl (bottomsFor_bottom _ _ _ w hw))
    · exact .inr (.inr rfl)
  simp only [State.writeWith]
  split <;> exact ⟨h2, key⟩

/-- Bytes that no write but initial ones covers have the one value. -/
theorem entryHistory_quiet {s : State} {loc floor : Nat} (h : ∀ w ∈ s.writes, w.bottom = true ∨ loc + 8 ≤ w.loc) :
    s.entryHistory loc floor = [s.entryAt loc] := by
  have e : (s.writes.filter fun w => !w.bottom && ((List.range 8).map fun i => loc + i).any w.covers) = [] := by
    rw [List.filter_eq_nil_iff]
    intro w hw
    rcases h w hw with h | h
    · simp [h]
    · simp only [Bool.and_eq_true, List.any_eq_true, List.mem_map, List.mem_range, Write.covers, decide_eq_true_eq, not_and]
      rintro - ⟨_, ⟨i, hi, rfl⟩, h1, -⟩
      omega
  simp only [State.entryHistory, e, List.any_nil, Bool.false_eq_true, if_false, List.foldl_nil, List.isEmpty_nil, if_true, State.entryAt,
    List.cons.injEq, and_true]
  rfl

theorem enterUse_keeps (s : State) (root dctx va : Nat) (large : Bool) (leaf : Nat) :
    (s.enterUse root dctx va large leaf).mem = s.mem ∧ (s.enterUse root dctx va large leaf).dies = s.dies ∧
    (s.enterUse root dctx va large leaf).health = s.health ∧ (s.enterUse root dctx va large leaf).writes = s.writes := by
  unfold State.enterUse
  dsimp only
  repeat' (first | exact ⟨rfl, rfl, rfl, rfl⟩ | split)

theorem checkHealth_none {s : State} {loc va : Nat} (hp : storageOf loc = hbmTag) (h : s.health = []) : checkHealth loc va true s = .ok ((), s) := by
  unfold checkHealth
  rw [M.bind_ok (M.get_run s)]
  simp [hp, h]

/-- An address with the one leaf given, of HBM that can be had. -/
theorem partTranslate_one {s : State} {t : Team} {x l : Nat} (hx : x < 2 ^ 57)
    (ho : ((s.walks (t.dct.roots.getD t.die 0) t.dct.aspace t.die x).map fun w => w.leaf.map fun l => (w.large, l)).eraseDups = [some (false, l)])
    (lm : leafMode l = 0) (lt : leafTgt l = 0) (lp : leafPermits l .write = true) (hu : s.dieUp (dieOfPa (offsetOf (leafLoc false l x))) = true)
    (hc : checkHealth (leafLoc false l x) x true (s.enterUse (t.dct.roots.getD t.die 0) t.dctx x false l) =
      .ok ((), s.enterUse (t.dct.roots.getD t.die 0) t.dctx x false l)) :
    partTranslate t x .write s = .ok (leafLoc false l x, s.enterUse (t.dct.roots.getD t.die 0) t.dctx x false l) := by
  have h1 : chooseLeaf t.dct.roots t.dct.aspace t.dctx t.die true .write x [some (false, l)] s =
      .ok ((false, l), s.enterUse (t.dct.roots.getD t.die 0) t.dctx x false l) := by
    unfold chooseLeaf
    rw [M.bind_ok (show choose [some (false, l)].length s = .ok (0, s) from rfl)]
    simp only [List.getElem?_cons_zero, Option.join_some]
    rw [M.bind_ok (M.get_run s)]
    simp [lm, lt, lp, hu]
    rfl
  have h2 : reachLeaf .write x false l (s.enterUse (t.dct.roots.getD t.die 0) t.dctx x false l) =
      .ok (leafLoc false l x, s.enterUse (t.dct.roots.getD t.die 0) t.dctx x false l) := by
    unfold reachLeaf
    simp only [show ((AccessKind.write == .atomic) : Bool) = false from rfl, Bool.false_and, Bool.not_false, if_true, beq_self_eq_true]
    rw [M.bind_ok hc]
    rfl
  unfold partTranslate
  rw [if_neg (by omega)]
  simp only
  rw [M.bind_ok (M.get_run s), ho, M.bind_ok h1]
  exact h2

theorem save_area (t : Team) (hr : t.dct.roots = [0x100000, 0x100000, 0x100000, 0x100000]) (hb : t.die = 0) :
    SaveArea SaveIntact t 0x1000 0x201000 0xF000 := by
  refine ⟨fun s p known lifted loc bs hs h1 h2 => ⟨?_, fun a ha => ?_, ?_, ?_, ?_⟩, fun s hs x h1 h2 => ?_⟩
  · rw [State.writeWith_mem]
    exact Memory.wf_memSetList hs.1 _ _
  · rw [State.writeWith_mem, memGet_memSetList_outside hs.1 _ (by omega)]
    exact hs.2.1 a ha
  · rw [State.writeWith_dies]
    exact hs.2.2.1
  · rw [(writeWith_writes ..).1]
    exact hs.2.2.2.1
  · intro w hw
    rcases (writeWith_writes ..).2 w hw with h | h | h
    · exact hs.2.2.2.2 w h
    · exact .inl h
    · exact .inr (by omega)
  · let at_ (loc : Nat) : Nat := leNat (memGetList savedMem loc 8)
    have e (loc : Nat) (hl : loc + 8 ≤ 0x201000) : s.entryAt loc = at_ loc := by
      simp only [State.entryAt, memGetList, at_]
      repeat rw [hs.2.1 _ (by omega)]
    have eh (loc floor : Nat) (hl : loc + 8 ≤ 0x201000) : s.entryHistory loc floor = [at_ loc] := by
      rw [entryHistory_quiet fun w hw => (hs.2.2.2.2 w hw).imp_right fun h => by omega, e loc hl]
    have hi (k : Nat) : levelIndex k x = 0 := by
      unfold levelIndex
      split <;> simp only [bitsOf] <;> omega
    have hl (table k : Nat) (ht : table < 2 ^ 64) : entryLoc table k x = table := by
      rw [entryLoc, hi, Nat.mul_zero, Nat.add_zero, Nat.mod_eq_of_lt ht]
      simp [locOf, hbmTag]
    have step (k table next : Nat) (ht : table + 8 ≤ 0x201000) (h1 : (decide (k = 0) && leafV (at_ table) && bitOf (at_ table) 60) = false)
        (h2 : tableValid (at_ table) = true) (h3 : bitsOf (at_ table) 51 8 * 256 = next) : s.walkFrom x 0 (k + 1) table = s.walkFrom x 0 k next ∧
          ∀ a b, s.walksFrom x a b (k + 1) table = s.walksFrom x a b k next := by
      refine ⟨by rw [State.walkFrom, hl table _ (by omega), e table ht, if_neg (Nat.succ_ne_zero k), if_neg (by simpa using h1), if_pos h2, h3],
        fun a b => ?_⟩
      have h0 : (if k = 0 then [at_ table].filter (fun e => decide (k = 0) && leafV e && bitOf e 60) else []) = [] := by
        split
        · simp only [List.filter_cons, h1, Bool.false_eq_true, if_false, List.filter_nil]
        · rfl
      have h4 : [at_ table].filter (fun e => !(decide (k = 0) && leafV e && bitOf e 60)) = [at_ table] := by
        simp only [List.filter_cons, h1, Bool.not_false, if_true, List.filter_nil]
      have hk : (k == 0) = decide (k = 0) := by cases k <;> rfl
      rw [State.walksFrom, hl table _ (by omega), eh table _ ht, eh table _ ht]
      simp only [hk, h0, h4, List.map_nil, List.nil_append, List.flatMap_cons, List.flatMap_nil, List.append_nil, h2, if_true, h3]
    have leaf : ∃ l, at_ 0x131000 = l ∧ leafV l = true ∧ leafMalformed 0 l = false ∧ leafMode l = 0 ∧ leafTgt l = 0 ∧ leafPermits l .write = true ∧ leafFrame l = 0x20 := by
      exact ⟨2 ^ 63 + 2 ^ 60 + 2 ^ 57 + 2 ^ 56 + 2 ^ 55 + 0x200000, by decide +kernel, by decide, by decide, by decide, by decide, by decide, by decide⟩
    obtain ⟨l, leaf, lv, lf, lm, lt, lp, lr⟩ := leaf
    have s2 := step 2 0x100000 0x120000 (by decide) (by decide +kernel) (by decide +kernel) (by decide +kernel)
    have s1 := step 1 0x120000 0x130000 (by decide) (by decide +kernel) (by decide +kernel) (by decide +kernel)
    have s0 := step 0 0x130000 0x131000 (by decide) (by decide +kernel) (by decide +kernel) (by decide +kernel)
    have hw : s.walk 0x100000 x = { level := 0, loc := 0x131000, leaf := some l } := by
      rw [State.walk, s2.1, s1.1, s0.1, State.walkFrom, hl _ _ (by decide), e _ (by decide), leaf]
      simp [lv, lf]
    have hws (a b : Nat) : s.walksFrom x a b 3 0x100000 = [{ level := 0, loc := 0x131000, leaf := some l }] := by
      rw [s2.2, s1.2, s0.2, State.walksFrom, hl _ _ (by decide), eh _ _ (by decide), leaf]
      simp [lv, lf]
    have ho : ((s.walks 0x100000 t.dct.aspace 0 x).map fun w => w.leaf.map fun l => (w.large, l)).eraseDups = [some (false, l)] := by
      have he : [some (false, l)].eraseDups = [some (false, l)] := by rw [List.eraseDups_cons]; rfl
      rw [State.walks, hw, hws]
      simpa [Walk.large] using he
    have hf : leafLoc false l x = 0x201000 + (x - 0x1000) := by
      unfold leafLoc
      rw [lt, lr, if_neg Bool.false_ne_true]
      simp only [locOf, hbmTag]
      omega
    have hu : s.dieUp (dieOfPa (offsetOf (0x201000 + (x - 0x1000)))) = true := by
      have : dieOfPa (offsetOf (0x201000 + (x - 0x1000))) = 0 := by simp only [dieOfPa, bitsOf, offsetOf, storageSize]; omega
      rw [this, State.dieUp, State.die?, hs.2.2.1]
      decide +kernel
    have hp : storageOf (0x201000 + (x - 0x1000)) = hbmTag := by simp only [storageOf, storageSize, hbmTag]; omega
    obtain ⟨u1, u2, u3, u4⟩ := enterUse_keeps s 0x100000 t.dctx x false l
    have h57 : x < 2 ^ 57 := by omega
    have hc := partTranslate_one (t := t) (x := x) (l := l) (s := s) h57 (by rw [hr, hb]; exact ho) lm lt lp (by rw [hf]; exact hu)
      (by rw [hf, hr, hb]; exact checkHealth_none hp (u3.trans hs.2.2.2.1))
    refine ⟨s.enterUse 0x100000 t.dctx x false l, ?_, by rw [u1]; exact hs.1, fun a ha => by rw [u1]; exact hs.2.1 a ha, u2.trans hs.2.2.1,
      u3.trans hs.2.2.2.1, fun w hw => hs.2.2.2.2 w (by rwa [u4] at hw)⟩
    rw [hf, hr, hb] at hc
    simp [State.partAddr, hc]

def okOr {α : Type} (x : Except Stop (α × State)) (d : α × State) : α × State := match x with | .ok y => y | .error _ => d

theorem okOr_eq {α : Type} {x : Except Stop (α × State)} (d : α × State) (h : answers x = true) : x = .ok ((okOr x d).1, (okOr x d).2) := by
  cases x with
  | ok y => rfl
  | error e => simp [answers] at h

def saveTeam : Team := { helmTeam [] with preempt := true }

/-- The machine that saves, and what it reads first: its team's context, and the bay's clock. -/
def stoppedState : State := (saveState saveTeam).stopEngines saveTeam.key
def stoppedTeam : Team := (stoppedState.team? saveTeam.key).getD saveTeam
def saveRead : Dct × State := okOr (readDct stoppedTeam.place stoppedTeam.dctx stoppedState) (Dct.zero, stoppedState)
def savedTeam : Team := { stoppedTeam with dct := saveRead.1 }
def readState : State := saveRead.2.mapTeam savedTeam.key fun t => { t with dct := saveRead.1 }
def saveClock : W64 × State := okOr (readClock savedTeam.bay readState) (0, readState)
def saveSections : List (List Byte) × State := dumpSections saveClock.2 savedTeam saveClock.1

theorem save_plan : saveRead.1.saveStride = 16384 ∧ saveRead.1.imageOf savedTeam.tid = 0x1000 ∧ saveSections.2.mem = savedMem ∧
    savedTeam.dct.roots = [0x100000, 0x100000, 0x100000, 0x100000] ∧ savedTeam.die = 0 := by decide +kernel


theorem save_read : readDct stoppedTeam.place stoppedTeam.dctx stoppedState = .ok (saveRead.1, saveRead.2) := by
  unfold saveRead
  exact okOr_eq _ (by decide +kernel)
theorem save_clock : readClock savedTeam.bay readState = .ok (saveClock.1, saveClock.2) := by
  unfold saveClock
  exact okOr_eq _ (by decide +kernel)
theorem save_sections : dumpSections saveClock.2 savedTeam saveClock.1 = (saveSections.1, saveSections.2) := by
  show saveSections = _
  rw [Prod.eta]
theorem saveFailure_eq (s : State) (t : Team) : saveFailure s t = ((s.stopEngines t.key).saveImage (((s.stopEngines t.key).team? t.key).getD t)).fail := rfl
theorem save_e : ((saveState saveTeam).stopEngines saveTeam.key).saveImage ((((saveState saveTeam).stopEngines saveTeam.key).team? saveTeam.key).getD saveTeam) =
    stoppedState.saveImage stoppedTeam := rfl
theorem save_u : { stoppedTeam with dct := saveRead.1 } = savedTeam := by unfold savedTeam; rfl
theorem save_m : saveRead.2.mapTeam savedTeam.key (fun t => { t with dct := saveRead.1 }) = readState := by unfold readState; rfl

theorem save_fits : ∀ y ∈ saveSections.1.zip (sectionPlaces 512 saveSections.1), saveRead.1.imageOf stoppedTeam.tid + y.2.1 + y.1.length + 8 ≤ 0x1000 + 0xF000 ∧
      saveRead.1.imageOf stoppedTeam.tid + y.2.1 + y.1.length ≤ min (saveRead.1.imageOf stoppedTeam.tid + saveRead.1.saveStride) (2 ^ 57) := by decide +kernel
theorem save_intact : SaveIntact saveSections.2 := by
  obtain ⟨h1, h2, h3, h4, h5⟩ := save_plan
  exact ⟨by rw [h3]; decide +kernel, fun a _ => by rw [h3], by decide +kernel⟩
theorem save_i : saveRead.1.imageOf stoppedTeam.tid = 0x1000 ∧ saveRead.1.saveStride = 16384 := by decide +kernel

/-- A full save that succeeds. -/
theorem save_whole : saveFailure (saveState saveTeam) saveTeam = none := by
  obtain ⟨h1, h2, h3, h4, h5⟩ := save_plan
  rw [saveFailure_eq, save_e]
  refine State.saveImage_whole (s := stoppedState) (t := stoppedTeam) (u := savedTeam) (s2 := readState) (secs := saveSections.1) (s4 := saveSections.2) save_u
    (save_area savedTeam h4 h5) save_read ?_ ?_ save_m save_clock save_sections save_intact
    ?_ save_fits ?_ ?_ <;> simp only [save_i.1, save_i.2] <;> decide

/-- A supervisor that dumps its team to 0x1000. -/
def dumpTeam : Team := { vectorTeam [(1, 0x1000)] with dct := { Dct.zero with roots := [0x100000, 0x100000, 0x100000, 0x100000] } }
def dumpClock : W64 × State := okOr (readClock dumpTeam.bay (saveState dumpTeam)) (0, saveState dumpTeam)
def dumpParts : List (List Byte) × State := dumpSections dumpClock.2 dumpTeam dumpClock.1

theorem dump_clock : readClock dumpTeam.bay (saveState dumpTeam) = .ok (dumpClock.1, dumpClock.2) := by
  unfold dumpClock
  exact okOr_eq _ (by decide +kernel)
theorem dump_mem : dumpParts.2.mem = savedMem := by decide +kernel
theorem dump_dies : dumpParts.2.dies = (saveState (helmTeam [])).dies := by decide +kernel
theorem dump_fits : ∀ y ∈ dumpParts.1.zip (sectionPlaces 512 dumpParts.1), 0x1000 + y.2.1 + y.1.length + 8 ≤ 0x1000 + 0xF000 ∧
    0x1000 + y.2.1 + y.1.length ≤ min (2 ^ 57) (2 ^ 57) := by decide +kernel

/-- A dump that succeeds, and a full fault queue. -/
theorem witness_HaltEnds_dump :
    (∃ s t, HelmTurn s t ∧ t.super = true ∧ t.inVector = true ∧ s.calm t = true ∧ s.queueFull = false ∧ (t.reg 1).toNat ≠ 0 ∧ (t.reg 1).toNat % 4096 = 0 ∧
      (s.writeDump t (t.reg 1).toNat 0 (2 ^ 57) (s.teamClass t)).fail = none) ∧
    (∃ s t, HelmTurn s t ∧ t.super = true ∧ t.inVector = true ∧ s.calm t = true ∧ s.queueFull = true) := by
  refine ⟨⟨saveState dumpTeam, dumpTeam, turn rfl rfl rfl rfl, rfl, rfl, by decide +kernel, by decide +kernel, by decide, by decide, ?_⟩,
    ⟨{ helmState (vectorTeam []) with mgmt := { Mgmt.reset with fqProd := 4096 } }, vectorTeam [], turn rfl rfl rfl rfl, rfl, rfl, rfl, by decide⟩⟩
  have hd : (dumpTeam.reg 1).toNat = 0x1000 := by decide
  rw [hd]
  exact State.writeDump_whole (s2 := dumpParts.2) (secs := dumpParts.1) (save_area dumpTeam rfl rfl) dump_clock (by show dumpParts = _; rw [Prod.eta])
    ⟨by rw [dump_mem]; decide +kernel, fun a _ => by rw [dump_mem], dump_dies, by decide +kernel, by decide +kernel⟩ (by decide) dump_fits (by decide) (by decide)

/-- A waiting team whose scratch fills its bay, and a second that needs as much. -/
def fullTeam : Team :=
  { helmTeam [] with waitFor := some (.waypoint 5 0), kernel := { KernelInfo.zero with width := 16, scratch := 48 } }

def otherTeam : Team := { Team.fresh 2 0 1 with ready := .now, kernel := fullTeam.kernel }

theorem witness_TeamMoves :
    (∃ (s : State) (t : Team), s.team? t.key = some t ∧ t.resident = true ∧ t.phase = .running ∧ t.preempt = true ∧ s.atNode t = true ∧ s.quiet t = true) ∧
    (∃ (s : State) (t : Team) (f : Nat × Nat × Nat), s.team? t.key = some t ∧ t.resident = true ∧ t.phase = .running ∧ t.preempt = true ∧ s.still t = true ∧
      saveFailure s t = some f) ∧
    (∃ (s : State) (t : Team), s.team? t.key = some t ∧ t.resident = true ∧ t.phase = .running ∧ t.preempt = true ∧ s.still t = true ∧ saveFailure s t = none) ∧
    (∃ (s : State) (t : Team), s.team? t.key = some t ∧ t.waitFor = some (.waypoint 5 0) ∧ t.waitsVisibly = true ∧ s.stands t = true ∧ s.atNode t = true ∧
      s.quiet t = true) ∧
    (∃ (s : State) (t : Team), s.team? t.key = some t ∧ t.waitFor = some (.waypoint 5 0) ∧ t.waitsVisibly = true ∧ s.stands t = true ∧ s.atNode t = false ∧
      s.still t = true) ∧
    (∃ (s : State) (t : Team), s.team? t.key = some t ∧ (s.cmds.filter fun c => c.team == t.key && (c.state == .held || c.state == .posting)).length = 1 ∧
      4096 < (s.mgmt.fqProd + 2 ^ 32 - s.mgmt.fqCons % 2 ^ 32) % 2 ^ 32 + s.posts.length + 1) ∧
    (∃ (s : State) (t : Team) (c : Cand) (w : Want), s.team? t.key = some t ∧ s.chosen.find? (fun c => c.team == some t.key) = some c ∧ c.want = some w ∧
      s.fitsAt w 0 = true ∧ t.image = 0 ∧ t.frozenClass = none) ∧
    (∃ (s : State) (t : Team) (c : Cand) (w : Want), s.team? t.key = some t ∧ s.chosen.find? (fun c => c.team == some t.key) = some c ∧ c.want = some w ∧
      s.fitsAt w 0 = true ∧ t.frozenClass = some 0) := by
  have back (t : Team) (h : ((({ idleState with teams := [t] } : State).chosen.find? (fun c => c.team == some t.key)).map fun c => (match c.want with
      | some w => ({ idleState with teams := [t] } : State).fitsAt w 0
      | none => false)) = some true) : ∃ (c : Cand) (w : Want), ({ idleState with teams := [t] } : State).chosen.find? (fun c => c.team == some t.key) = some c ∧
        c.want = some w ∧ ({ idleState with teams := [t] } : State).fitsAt w 0 = true := by
    obtain ⟨c, hc, h⟩ := Option.map_eq_some_iff.1 h
    cases hw : c.want with
    | none => simp [hw] at h
    | some w => exact ⟨c, w, hc, hw, by simpa [hw] using h⟩
  refine ⟨⟨nodeState { helmTeam [] with preempt := true }, { helmTeam [] with preempt := true }, rfl, rfl, rfl, rfl, by decide, rfl⟩, ?_,
    ⟨saveState saveTeam, saveTeam, rfl, rfl, rfl, rfl, rfl, save_whole⟩,
    ⟨{ nodeState fullTeam with teams := [fullTeam, otherTeam] }, fullTeam, rfl, rfl, rfl, by decide +kernel, by decide, rfl⟩,
    ⟨{ helmState fullTeam with teams := [fullTeam, otherTeam] }, fullTeam, rfl, rfl, rfl, by decide +kernel, by decide +kernel, by decide +kernel⟩,
    ⟨{ copyState { fillCommand (fillTeam 0x400 0) with state := .held } with mgmt := { Mgmt.reset with fqProd := 4096 } }, fillTeam 0x400 0, rfl, by decide +kernel,
      by decide +kernel⟩, ?_, ?_⟩
  · have h : (saveFailure (helmState { helmTeam [] with preempt := true }) { helmTeam [] with preempt := true }).isSome = true := by decide +kernel
    obtain ⟨f, h⟩ := Option.isSome_iff_exists.1 h
    exact ⟨helmState { helmTeam [] with preempt := true }, { helmTeam [] with preempt := true }, f, rfl, rfl, rfl, rfl, rfl, h⟩
  · obtain ⟨c, w, h⟩ := back otherTeam (by decide +kernel)
    exact ⟨{ idleState with teams := [otherTeam] }, otherTeam, c, w, rfl, h.1, h.2.1, h.2.2, rfl, rfl⟩
  · obtain ⟨c, w, h⟩ := back { otherTeam with frozenClass := some 0 } (by decide +kernel)
    exact ⟨{ idleState with teams := [{ otherTeam with frozenClass := some 0 }] }, { otherTeam with frozenClass := some 0 }, c, w, rfl, h.1, h.2.1, h.2.2, rfl⟩

theorem witness_TeamMoves_frozen :
    ∃ (s : State) (t : Team) (f : Nat × Nat × Nat), s.team? t.key = some t ∧ t.resident = true ∧ t.phase = .vector ∧ t.preempt = true ∧ s.still t = true ∧
      saveFailure s t = some f := by
  have h : (saveFailure (helmState { helmTeam [] with preempt := true, phase := .vector }) { helmTeam [] with preempt := true, phase := .vector }).isSome = true := by
    decide +kernel
  obtain ⟨f, h⟩ := Option.isSome_iff_exists.1 h
  exact ⟨_, _, f, rfl, rfl, rfl, rfl, by decide +kernel, h⟩

/-- A page of va 0x1_0000 to be filled from die 0's pool, with the pool given. -/
def poolLeaf : Nat := 2 ^ 63 + 2 ^ 60 + 2 ^ 59 + 2 ^ 57 + 2 ^ 56
def fillState (pool : List Nat) : State :=
  let s := dctState (helmTeam []) 2
  { s with
    mem := memSetList s.mem 0x131008 (leBytes 8 poolLeaf)
    dies := [{ num := 0, inService := true, secfg := 0, pool := pool, push := 0, lookups := 0, stops := [] }]
    fills := [{ dctx := 0, aspace := 0, va := 0x10000, home := 0, leaf := poolLeaf, roots := [0x100000, 0x100000, 0x100000, 0x100000] }] }

theorem witness_PageEvents :
    (∃ (s : State) (f : Fill) (x : Die) (pa : Nat) (rest : List Nat), s.fills[0]? = some f ∧
      let s2 := { s with fills := s.fills.erase f }.wakeFills
      s2.die? f.home = some x ∧ x.pool = pa :: rest ∧ 0 ∈ ((List.range 4).filter fun i => s2.dieUp i) ∧
      (s2.walk (f.roots.getD 0 0) f.va).level = 0 ∧ (s2.walk (f.roots.getD 0 0) f.va).leaf = some f.leaf) ∧
    (∃ (s : State) (f : Fill) (x : Die), s.fills[0]? = some f ∧ { s with fills := s.fills.erase f }.wakeFills.die? f.home = some x ∧ x.pool = []) ∧
    (∃ (s : State) (f : Fill), s.fills[0]? = some f ∧ let s2 := { s with fills := s.fills.erase f }.wakeFills
      ∀ i ∈ (List.range 4).filter (fun i => s2.dieUp i), (s2.walk (f.roots.getD i 0) f.va).level = 0 → (s2.walk (f.roots.getD i 0) f.va).leaf ≠ some f.leaf) ∧
    (∃ s : State, s.fills.length ≤ 0) ∧
    (∃ (s : State) (t : Team) (leaf : Nat), s.teams.find? (fun u => u.resident && u.dctx == 0 && u.die == 0) = some t ∧
      (s.walk (t.dct.roots.getD 0 0) 0x100).leaf = some leaf) ∧
    (∃ (s : State), s.dieUp (dieOfPa (0x1FFFF * 4096)) = true ∧ 0x1FFFF < 2 ^ 27) ∧
    (∃ (s : State), ¬s.dieUp (dieOfPa ((2 ^ 27 - 1) * 4096)) = true) := by
  refine ⟨⟨fillState [0x300000], _, { num := 0, inService := true, secfg := 0, pool := [0x300000], push := 0, lookups := 0, stops := [] }, 0x300000, [], rfl, ?_⟩,
    ⟨fillState [], _, { num := 0, inService := true, secfg := 0, pool := [], push := 0, lookups := 0, stops := [] }, rfl, ?_⟩,
    ⟨{ fillState [0x300000] with mem := [] }, _, rfl, ?_⟩, ⟨idleState, Nat.le_refl 0⟩,
    ⟨helmState (helmTeam []), helmTeam [], 2 ^ 63 + 2 ^ 60 + 2 ^ 57 + 2 ^ 56 + 2 ^ 55 + 0x200000, by decide +kernel, by decide +kernel⟩,
    ⟨idleState, by decide +kernel, by decide⟩, ⟨idleState, by decide +kernel⟩⟩
  · decide +kernel
  · decide +kernel
  · decide +kernel

/-- A machine that runs, its mailbox as given. -/
def mailState (cmd : W64) : State :=
  { idleState with mgmt := { Mgmt.reset with state := 1, mboxCmd := cmd } }

theorem witness_ManagementRegisters :
    (∃ s : State, s.nests = [] ∧ ∀ t ∈ s.teams, t.resident = false) ∧ (∃ s : State, ¬(s.nests = [] ∧ ∀ t ∈ s.teams, t.resident = false)) ∧
    (∃ s : State, s.mgmt.fqProd < 2 ^ 32 ∧ s.mgmt.fqCons ≤ s.mgmt.fqProd ∧ s.mgmt.fqProd = 7 ∧ s.mgmt.fqCons = 3) ∧
    (∃ (s : State) (d : Die) (v : W64), s.die? 0 = some d ∧ d.inService = true ∧ d.pool.length < 65536 ∧ v.toNat % 2 ^ 16 = 0 ∧ v.toNat < 2 ^ 39 ∧ v.toNat / 2 ^ 37 = 0) ∧
    (∃ (s : State) (t : Team) (v : W64), v ≠ 0 ∧ v.toNat < 2 ^ 16 ∧ s.team? (0 * 2 ^ 16 + v.toNat) = some t ∧ t.phase = .stopped ∧ t.inVector = false ∧ t.overdue = false) ∧
    (∃ (s : State) (t : Team) (v : W64), v ≠ 0 ∧ v.toNat < 2 ^ 16 ∧ s.team? (0 * 2 ^ 16 + v.toNat) = some t ∧ t.phase = .running ∧ t.resident = false ∧ t.ready = .release) ∧
    ∃ s : State, s.mgmt.mboxData.length = 256 :=
  ⟨⟨idleState, rfl, by decide⟩, ⟨helmState (helmTeam []), by decide +kernel⟩,
   ⟨{ idleState with mgmt := { Mgmt.reset with fqProd := 7, fqCons := 3 } }, by decide⟩,
   ⟨idleState, _, 0x1FFFFF0000, rfl, rfl, by decide, by decide, by decide, by decide⟩,
   ⟨helmState { helmTeam [] with phase := .stopped }, _, 1, by decide, by decide, rfl, rfl, rfl, rfl⟩,
   ⟨{ helmState (helmTeam []) with teams := [{ helmTeam [] with resident := false, ready := .release }] }, _, 1, by decide, by decide, rfl, rfl, rfl, rfl⟩,
   ⟨State.reset, by decide +kernel⟩⟩

theorem witness_MailboxCommands :
    (∀ code ∈ [(0x1 : W64), 0x10, 0x11, 0x20], ∃ s : State, 2 ^ 63 ≤ s.mgmt.mboxCmd.toNat ∧ s.mgmt.mboxCmd.toNat % 2 ^ 16 = code.toNat ∧ s.mgmt.state = 1) ∧
    (∃ s : State, s.mgmt.mboxCmd.toNat = 2 ^ 63 + 3 ∧ s.mgmt.state = 2) ∧
    (∃ s : State, s.mgmt.mboxCmd.toNat < 2 ^ 63) ∧
    (∃ (s : State) (t : Team), s.mgmt.mboxCmd.toNat = 2 ^ 63 + 0x20 ∧ s.mgmt.state = 1 ∧
      s.team? (leNat (s.mgmt.mboxData.take 8) % 256 * 2 ^ 16 + leNat (s.mgmt.mboxData.take 8) / 2 ^ 16 % 2 ^ 16) = some t ∧ t.phase = .stopped) := by
  refine ⟨fun code hc => ⟨mailState (0x8000000000000000 ||| code), ?_⟩, ⟨{ idleState with mgmt := { Mgmt.reset with state := 2, mboxCmd := 0x8000000000000003 } }, rfl, rfl⟩,
    ⟨mailState 0, by decide⟩, ?_⟩
  · simp only [List.mem_cons, List.not_mem_nil, or_false] at hc
    rcases hc with rfl | rfl | rfl | rfl <;> decide
  · let t : Team := { helmTeam [] with phase := .stopped }
    let m : Mgmt := { Mgmt.reset with state := 1, mboxCmd := 0x8000000000000020, mboxData := leBytes 8 0x10000 ++ List.replicate 248 0 }
    exact ⟨{ helmState t with mgmt := m }, t, rfl, rfl, by decide +kernel, rfl⟩

theorem witness_OutsideEvents :
    (∃ (s : State) (data : List Byte), Memory.wf s.mem = true ∧ Reachable s 0x3F ∧ OneLine 0x3F data ∧ s.timeouts = []) ∧
    (∃ (s : State) (r : Post), Memory.wf s.mem = true ∧ s.posts = [r] ∧ s.mgmt.fqProd = 4095 ∧ s.mgmt.fqCons = 0) ∧
    (∃ (s : State) (r : Post), Memory.wf s.mem = true ∧ s.posts = [r] ∧ s.mgmt.fqProd = 4096 ∧ s.mgmt.fqCons = 0) :=
  ⟨⟨mailState 0, [1], by decide +kernel, ⟨.inl rfl, by decide, by decide +kernel, by decide⟩, by unfold OneLine; decide, rfl⟩,
   ⟨{ idleState with posts := [{ record := 0, release := Release.none }], mgmt := { Mgmt.reset with fqProd := 4095 } }, _, by decide +kernel, rfl, rfl, rfl⟩,
   ⟨{ idleState with posts := [{ record := 0, release := Release.none }], mgmt := { Mgmt.reset with fqProd := 4096 } }, _, by decide +kernel, rfl, rfl, rfl⟩⟩

/-- Bay 0 as given, with one spare stop or none. -/
def bayState (b : Bay) (stops : List Nat) : State :=
  { idleState with bays := [b], dies := [{ num := 0, inService := true, secfg := 0, pool := [], push := 0, lookups := 0, stops := stops }] }

def aBay (quads : Nat) (retiring : Bool) : Bay :=
  { num := 0, stop := 0, quads := quads, presented := 0, retiring := retiring, spare := none, inService := true, clock := 0, temp := 25, mhz := 1750 }

def aReading (kind : Byte) (unit : BitVec 12) : HealthEntry := { eold := 100, conf := 0, value := 0, kind := kind, site := 0, unit := unit, time := 0 }

theorem witness_HealthEvents :
    (∀ u ∈ [RepairUnit.bay 0, .quadrant 0], ∃ (s : State) (b : Bay), ReadingOf s (aReading 0 0) u ∧ s.bay? 0 = some b ∧ b.inService = true ∧ b.quads = 4) ∧
    (∃ s : State, ReadingOf s (aReading 3 33) (.channel 1 1)) ∧ (∃ s : State, ReadingOf s (aReading 4 18) (.lane 1 2)) ∧
    (∃ s : State, ¬ReadingOf s (aReading 3 33) (.bay 0)) ∧
    (∃ (s : State) (b : Bay) (rest : List Nat), ReadingOf s (aReading 0 0) (.bay 0) ∧ s.bay? 0 = some b ∧ b.inService = true ∧ b.quads ≠ 0 ∧ NoOtherWants s 0 ∧
      b.spare = none ∧ s.freeSpares (0 / 48) = 48 :: rest) ∧
    (∃ (s : State) (b : Bay), s.bay? 0 = some b ∧ b.retiring = true ∧ b.inService = true ∧ s.onBay 0 = [] ∧ b.num = 0 ∧ b.spare = some 48) ∧
    (∃ (s : State) (b : Bay), s.bay? 0 = some b ∧ b.retiring = true ∧ b.inService = true ∧ s.onBay 0 = [] ∧ b.num = 0 ∧ b.spare = none ∧
      (s.mapBay 0 fun b => { b with inService := false, retiring := false }).enabledBays (0 / 48) < 40 ∧
      (s.mapBay 0 fun b => { b with inService := false, retiring := false }).dieUp (0 / 48) = true) ∧
    (∃ (s : State) (b : Bay), s.bay? 0 = some b ∧ b.retiring = true ∧ b.inService = true ∧ s.onBay 0 = [] ∧ b.num = 0 ∧ b.spare = none ∧
      40 ≤ (s.mapBay 0 fun b => { b with inService := false, retiring := false }).enabledBays (0 / 48)) ∧
    (∃ s : State, ∃ t ∈ s.teams, s.dieUp 0 = true ∧ t.resident = true ∧ t.die = 0) ∧ (∃ s : State, s.edges.getD 0 false = true) ∧ (∃ s : State, ∃ h ∈ s.health, h.stack = 0 ∧ h.ch = 0) :=
  have read : ∃ b, (bayState (aBay 4 false) (List.replicate 48 0 ++ [4])).bay? 0 = some b ∧ b.stop = (aReading 0 0).unit.toNat := ⟨_, rfl, rfl⟩
  have alone : NoOtherWants (bayState (aBay 4 false) (List.replicate 48 0 ++ [4])) 0 := fun m b hm _ hb => by
    rw [show (bayState (aBay 4 false) (List.replicate 48 0 ++ [4])).bay? m = none by
      simp [State.bay?, bayState, aBay, Ne.symm hm]] at hb
    cases hb
  ⟨by
     intro u hu
     simp only [List.mem_cons, List.not_mem_nil, or_false] at hu
     rcases hu with rfl | rfl <;> exact ⟨bayState (aBay 4 false) (List.replicate 48 0 ++ [4]), _, ⟨by decide, rfl, read⟩, rfl, rfl, rfl⟩,
   ⟨idleState, rfl, by decide, by decide, rfl⟩, ⟨idleState, rfl, by decide, by decide, rfl⟩, ⟨idleState, fun h => absurd h.1 (by decide)⟩,
   ⟨bayState (aBay 4 false) (List.replicate 48 0 ++ [4]), _, [], ⟨by decide, rfl, read⟩, rfl, rfl, by decide, alone, rfl, by decide +kernel⟩,
   ⟨bayState { aBay 1 true with spare := some 48 } [], _, rfl, rfl, rfl, by decide +kernel, rfl, rfl⟩,
   ⟨bayState (aBay 1 true) [], aBay 1 true, rfl, rfl, rfl, by decide +kernel, rfl, rfl, by decide +kernel, by decide +kernel⟩,
   ⟨{ bayState (aBay 1 true) [] with bays := (List.range 41).map fun i => { aBay 1 true with num := i } }, aBay 1 true, rfl, rfl, rfl, by decide +kernel, rfl, rfl,
      by decide +kernel⟩,
   ⟨helmState (helmTeam []), _, List.mem_singleton.2 rfl, by decide +kernel, rfl, by decide +kernel⟩, ⟨{ idleState with edges := [true] }, rfl⟩,
   ⟨{ idleState with health := [{ stack := 0, ch := 0, retired := false }] }, _, List.mem_singleton.2 rfl, rfl, rfl⟩⟩

/-- A reading of no repaired unit; a bay that fails its test; a channel with an uncorrectable error, and one that has had one. -/
theorem witness_HealthEvents_more :
    (∃ s : State, ReadingOf s (aReading 2 0) .none) ∧
    (∃ (s : State) (b : Bay), s.bay? 0 = some b ∧ b.inService = true ∧ b.quads ≠ 0) ∧
    (∃ s : State, 7 < 8 ∧ 31 < 32 ∧ ∀ h ∈ s.health, ¬(h.stack = 7 ∧ h.ch = 31)) ∧
    (∃ s : State, s.bay? 0 = none) ∧ (∃ (s : State) (b : Bay), s.bay? 0 = some b ∧ 20 < b.temp) :=
  ⟨⟨idleState, by unfold ReadingOf RepairedUnit; decide +kernel⟩, ⟨bayState (aBay 4 false) [], _, rfl, rfl, by decide⟩, ⟨idleState, by decide, by decide, by decide⟩,
   ⟨bayState { aBay 4 false with num := 1 } [], rfl⟩, ⟨bayState (aBay 4 false) [], _, rfl, by decide⟩⟩

theorem leNat_leBytes (n v : Nat) : leNat (leBytes n v) = v % 2 ^ (8 * n) := by
  induction n generalizing v with
  | zero => simp [leBytes, leNat, Nat.mod_one]
  | succ n ih =>
    simp only [leBytes, leNat, ih, BitVec.toNat_ofNat]
    rw [show 8 * (n + 1) = 8 + 8 * n by omega, Nat.pow_add, Nat.mod_mul]

def aLink (retries rxSeq : Nat) (failed : List Nat) : Link :=
  { num := 0, up := true, failedLanes := failed, retraining := false, txSeq := 0, rxSeq := rxSeq, replay := [], held := [], sent := none, txRetries := retries,
    rxRetries := 0 }

def linkState (l : Link) : State := { idleState with links := [l] }

/-- The first 248 bytes of a flit of sequence number 0, of the type given, its header and payload else 0. -/
def body248 (type : Byte) : List Byte := [0, 0, type] ++ List.replicate 245 0

theorem body248_length (type : Byte) : (body248 type).length = 248 := by
  rw [body248, List.length_append, List.length_replicate]
  rfl

/-- That flit with the CRC of its first 248 bytes, plus `n`. -/
def typedFlit (type : Byte) (n : Nat) : List Byte := body248 type ++ leBytes 8 ((Config.crc64 (body248 type)).toNat + n)

theorem flit_tail (type : Byte) (n : Nat) : Config.crc64 ((typedFlit type n).take 248) = Config.crc64 (body248 type) ∧
    leNat ((typedFlit type n).drop 248) = ((Config.crc64 (body248 type)).toNat + n) % 2 ^ 64 := by
  unfold typedFlit
  rw [List.take_left' (body248_length type), List.drop_left' (body248_length type), leNat_leBytes]
  exact ⟨rfl, rfl⟩

theorem flit_sound (type : Byte) : Config.crc64 ((typedFlit type 0).take 248) = BitVec.ofNat 64 (leNat ((typedFlit type 0).drop 248)) := by
  rw [(flit_tail type 0).1, (flit_tail type 0).2]
  generalize Config.crc64 (body248 type) = x
  bv_omega

theorem flit_bad (type : Byte) : Config.crc64 ((typedFlit type 1).take 248) ≠ BitVec.ofNat 64 (leNat ((typedFlit type 1).drop 248)) := by
  rw [(flit_tail type 1).1, (flit_tail type 1).2]
  generalize Config.crc64 (body248 type) = x
  bv_omega

theorem typedFlit_length (type : Byte) (n : Nat) : (typedFlit type n).length = 256 := by
  rw [typedFlit, List.length_append, body248_length, leBytes_length]

/-- The one link of a machine hears a flit. -/
def HearsOne (s : State) (l : Link) (flit : List Byte) : Prop :=
  s.links.find? (fun x => x.num == l.num) = some l ∧ s.links.countP (fun x => x.num == l.num) = 1 ∧ l.up = true ∧ l.retraining = false ∧ flit.length = 256

theorem witness_HeatAndLinks :
    (∃ (s : State) (l : Link) (flit : List Byte), HearsOne s l flit ∧ Config.crc64 (flit.take 248) = BitVec.ofNat 64 (leNat (flit.drop 248)) ∧
      leNat (flit.take 2) = l.rxSeq ∧ flit.getD 2 0 ≠ 3) ∧
    (∃ (s : State) (l : Link) (flit : List Byte), HearsOne s l flit ∧ Config.crc64 (flit.take 248) = BitVec.ofNat 64 (leNat (flit.drop 248)) ∧
      leNat (flit.take 2) ≠ l.rxSeq) ∧
    (∃ (s : State) (l : Link) (flit : List Byte) (x : Nat × List Byte), HearsOne s l flit ∧
      Config.crc64 (flit.take 248) = BitVec.ofNat 64 (leNat (flit.drop 248)) ∧ leNat (flit.take 2) = l.rxSeq ∧ flit.getD 2 0 = 3 ∧ l.txRetries = 15 ∧ l.replay = [x]) ∧
    (∃ (s : State) (l : Link) (flit : List Byte), HearsOne s l flit ∧
      Config.crc64 (flit.take 248) = BitVec.ofNat 64 (leNat (flit.drop 248)) ∧ leNat (flit.take 2) = l.rxSeq ∧ flit.getD 2 0 = 3 ∧ l.txRetries = 15 ∧ l.replay = []) ∧
    (∃ (s : State) (l : Link) (flit : List Byte), HearsOne s l flit ∧
      Config.crc64 (flit.take 248) = BitVec.ofNat 64 (leNat (flit.drop 248)) ∧ leNat (flit.take 2) = l.rxSeq ∧ flit.getD 2 0 = 3 ∧ l.txRetries = 16) ∧
    (∃ (s : State) (l : Link) (flit : List Byte), HearsOne s l flit ∧ Config.crc64 (flit.take 248) ≠ BitVec.ofNat 64 (leNat (flit.drop 248)) ∧ l.rxRetries = 15 ∧
      l.txSeq < 2 ^ 16) ∧
    (∃ (s : State) (l : Link) (flit : List Byte), HearsOne s l flit ∧ Config.crc64 (flit.take 248) ≠ BitVec.ofNat 64 (leNat (flit.drop 248)) ∧ l.rxRetries = 16) ∧
    (∃ (s : State) (l : Link), s.links.find? (fun x => x.num == l.num) = some l ∧ s.links.countP (fun x => x.num == l.num) = 1 ∧ l.up = true ∧ 16 ≤ l.txRetries) ∧
    (∃ (s : State) (l : Link), s.links.find? (fun x => x.num == l.num) = some l ∧ s.links.countP (fun x => x.num == l.num) = 1 ∧ l.up = true ∧ l.failedLanes = []) ∧
    (∃ (s : State) (l : Link), s.links.find? (fun x => x.num == l.num) = some l ∧ s.links.countP (fun x => x.num == l.num) = 1 ∧ l.up = true ∧ l.failedLanes = [8]) ∧
    (∃ (s : State) (l : Link), s.links.find? (fun x => x.num == l.num) = some l ∧ s.links.countP (fun x => x.num == l.num) = 1 ∧ l.retraining = true) := by
  have hears (l : Link) (type : Byte) (n : Nat) (h0 : l.num = 0) (h1 : l.up = true) (h2 : l.retraining = false) : HearsOne (linkState l) l (typedFlit type n) :=
    ⟨by simp [linkState], by simp [linkState], h1, h2, typedFlit_length type n⟩
  exact ⟨⟨linkState (aLink 0 0 []), _, _, hears _ 1 0 rfl rfl rfl, flit_sound 1, rfl, by show (1 : Byte) ≠ 3; decide⟩,
    ⟨linkState (aLink 0 1 []), _, _, hears _ 1 0 rfl rfl rfl, flit_sound 1, by show 0 ≠ 1; decide⟩,
    ⟨linkState { aLink 15 0 [] with replay := [(0, [])] }, _, _, (0, []), hears _ 3 0 rfl rfl rfl, flit_sound 3, rfl, rfl, rfl, rfl⟩,
    ⟨linkState (aLink 15 0 []), _, _, hears _ 3 0 rfl rfl rfl, flit_sound 3, rfl, rfl, rfl, rfl⟩,
    ⟨linkState (aLink 16 0 []), _, _, hears _ 3 0 rfl rfl rfl, flit_sound 3, rfl, rfl, rfl⟩,
    ⟨linkState { aLink 0 0 [] with rxRetries := 15 }, _, _, hears _ 1 1 rfl rfl rfl, flit_bad 1, rfl, by decide⟩,
    ⟨linkState { aLink 0 0 [] with rxRetries := 16 }, _, _, hears _ 1 1 rfl rfl rfl, flit_bad 1, rfl⟩,
    ⟨linkState (aLink 16 0 []), aLink 16 0 [], rfl, rfl, rfl, Nat.le_refl 16⟩, ⟨linkState (aLink 0 0 []), aLink 0 0 [], rfl, rfl, rfl, rfl⟩,
    ⟨linkState (aLink 0 0 [8]), aLink 0 0 [8], rfl, rfl, rfl, rfl⟩,
    ⟨linkState { aLink 0 0 [0] with retraining := true }, { aLink 0 0 [0] with retraining := true }, rfl, rfl, rfl⟩⟩

/-- A bring-up in which everything passes but for what is given. -/
def allGood (dies edges links : List Bool) (quad : Nat) : BringUp :=
  { selfTest := true, rsaOk := true, slhOk := true, dies := dies, quads := List.replicate 4 (List.replicate 52 quad), chans := List.replicate 8 0xF, edges := edges
    links := links, lanes := List.replicate 16 0, secfg := List.replicate 4 0 }

def yes (n : Nat) : List Bool := List.replicate n true

/-- A link as bring-up leaves it (R433). -/
def upLink (r : BringUp) (i : Nat) : Bool := r.links.getD i false && decide ((setBits (r.lanes.getD i 0) 9).length ≤ 1)

theorem witness_ModuleResets :
    (∀ d, d < 4 → (yes 4).getD d false = true) ∧
    (let r := allGood (yes 4) (yes 4) (yes 16) 4
     (∀ st, st < 8 → (setBits (r.chans.getD st 0) 32).length ≤ 4) ∧
       (∀ d, d < 4 → 40 ≤ ((bringUpBays d (r.quads.getD d [])).filter (·.inService)).length) ∧
       ((List.range 4).filter fun i => !r.edges.getD i false).length < 2 ∧ ((List.range 16).filter fun i => !upLink r i).length ≤ 8) ∧
    (let r := allGood (yes 4) (yes 4) (yes 16) 1
     ((bringUpBays 0 (r.quads.getD 0 [])).filter (·.inService)).length < 40) ∧
    (let r := { allGood (yes 4) (yes 4) (yes 16) 4 with chans := List.replicate 7 0xF ++ [0x1F] }
     4 < (setBits (r.chans.getD 7 0) 32).length ∧ ∀ x, x < 7 → (setBits (r.chans.getD x 0) 32).length ≤ 4) ∧
    (2 ≤ ((List.range 4).filter fun i => !(yes 2).getD i false).length) ∧
    (let r := { allGood (yes 4) (yes 4) (yes 16) 4 with lanes := List.replicate 9 0x101 ++ List.replicate 7 0 }
     8 < ((List.range 16).filter fun i => !upLink r i).length) ∧
    (∃ r : BringUp, r.selfTest = false) ∧ (∃ r : BringUp, r.selfTest = true ∧ r.rsaOk = false ∧ r.slhOk = true) ∧
    (∃ r : BringUp, r.selfTest = true ∧ r.rsaOk = true ∧ r.slhOk = false) ∧ (∃ r : BringUp, r.selfTest = true ∧ r.rsaOk = false ∧ r.slhOk = false) ∧
    (∃ r : BringUp, r.dies.getD 3 false = false ∧ ∀ e, e < 3 → r.dies.getD e false = true) ∧
    (∃ s : State, s.mgmt.thermal = true) ∧ (∃ s : State, s.mgmt.thermal = false ∧ Memory.wf s.mem = true) := by
  let r := allGood (yes 4) (yes 4) (yes 16) 4
  exact ⟨by decide, by decide +kernel, by decide +kernel, by decide +kernel, by decide, by decide +kernel, ⟨{ r with selfTest := false }, rfl⟩,
    ⟨{ r with rsaOk := false }, rfl, rfl, rfl⟩, ⟨{ r with slhOk := false }, rfl, rfl, rfl⟩, ⟨{ r with rsaOk := false, slhOk := false }, rfl, rfl, rfl⟩,
    ⟨allGood (yes 3) (yes 4) (yes 16) 4, by decide, by decide⟩, ⟨{ State.reset with mgmt := { Mgmt.reset with thermal := true } }, rfl⟩,
    ⟨State.reset, rfl, by decide⟩⟩

theorem witness_MemoryStaysCanonical : ∃ s s', Memory.wf s.mem = true ∧ step s = .next s' := by
  obtain ⟨s', h⟩ := goes_on (o := step (State.reset.withFetchWord 32 0x00430C02)) (by decide +kernel)
  exact ⟨_, s', by decide +kernel, h⟩

/-! ### Object files and hyperblocks (R413 to R424) -/

/-- A file of 354 bytes: `callx g1` and a no-op of helm text, one `x.end` at offset 64, one block, one LTX record, four imports. -/
def skoFile (wcode block : Nat) : List Byte :=
  let dir (off size place : Nat) := leBytes 16 (off + size * 2 ^ 64 + place * 2 ^ 96)
  leBytes 64 (0x534B4F00 + 2 ^ 32 + 2 ^ 48 + wcode * 2 ^ 52 + 2 * 2 ^ 54 + 2 ^ 64) ++
  dir 256 12 0 ++ dir 268 6 64 ++ dir 274 8 128 ++ dir 0 0 0 ++ dir 0 0 0 ++ dir 0 0 0 ++ dir 282 8 0 ++ dir 0 0 0 ++ dir 290 64 0 ++
  dir 0 0 0 ++ dir 0 0 0 ++ dir 0 0 0 ++
  (leBytes 8 0x127 ++ leBytes 4 4) ++ leBytes 6 0x83 ++ leBytes 8 block ++ leBytes 8 (3 * 2 ^ 48) ++ leBytes 64 0

/-- R415: the loader writes index 3 into imm32 of the `callx`. -/
theorem test_loader_writes_link_index :
    (match loadSko (skoFile 0 64) with | .ok o => o.helm.bytes.take 8 == leBytes 8 (0x127 + 3 * 2 ^ 32) | .error _ => false) = true := by
  decide +kernel

/-- R416: a block that starts beyond strand text; an object without a kernel that has needs. -/
theorem test_loader_rejects : loadSko (skoFile 0 70) = .error .blockTable ∧ loadSko (skoFile 3 64) = .error .noKernelNeeds := by
  decide +kernel

/-- A block of live-ins a0 and a1: their sum, its product with a0 where a0 is not zero, a store of it at a1, and an exit. -/
def zFile : List Byte :=
  let op (opc a b gref gs imm : Nat) := leBytes 8 (opc + gs * 2 ^ 14 + gref * 2 ^ 16 + a * 2 ^ 24 + b * 2 ^ 32 + 0xFF * 2 ^ 40 + imm * 2 ^ 48)
  leBytes 16 (3 + 2 * 2 ^ 8 + 2 ^ 16) ++ [4, 5, 0, 0, 0, 0, 0, 0] ++ [28, 1, 0, 0, 0, 0, 0, 0] ++ op 0 0x80 0x81 0xFF 0 0 ++
    op 8 0 0x80 0x80 1 0 ++ op 0x41 0x81 1 0xFF 0 3 ++ op 0x42 0xFF 0xFF 0xFF 0 0

/-- R422: with 5 and 7 the product is 60; with 0 the guard fails and the sum passes through. -/
theorem test_hyperblock :
    (match zBlock zFile with
     | .ok (b, _) =>
       let ran (a : W64) := (b.run (fun _ => none) (fun _ => true) [[a], [7]] 1).1
       b.ok 1 && (ran 5).stores.map (·.lanes) == [[some (7, 60)]] && (ran 5).outs == [(28, [60])] && (ran 5).exit == some 0 &&
         (ran 0).stores.map (·.lanes) == [[some (7, 7)]] && (ran 0).outs == [(28, [7])]
     | .error _ => false) = true := by
  decide +kernel

/-- The helm text begins with the instructions. -/
def decodesTo (bs : List Byte) : List Instr → Bool
  | [] => true
  | i :: is => match decodeHelm bs with
    | .ok (j, rest) => decide (j = i) && decodesTo rest is
    | .error _ => false

/-- R424: Binnacle's words for that block; the guard of the product becomes a branch past it, and what it passes through a move. -/
theorem test_binnacle :
    (match zBlock zFile with
     | .ok (b, _) => (match translateZwibel 1 [b] with
       | .ok (h, _) => decodesTo h.bytes [.add 12 4 5, .bEq 4 0 3, .mul 13 12 4, .j 2, .add 13 12 0, .st 13 5 3 0]
       | .error _ => false)
     | .error _ => false) = true := by
  decide +kernel

end Sys2Proof.Tests
end

section
/-! What a repair, a trap, a copy sector or a waypoint leaves as it was: the management registers, which bays and dies are in service, and where
every team stands. -/

namespace Sys2Proof.Machine

/-- What of a team a fault record of its loss names, and where it is placed. -/
structure Standing where
  key : Nat
  resident : Bool
  bay : Nat
  ctx : Nat
  pc : W64
  curObj : Nat

def Team.standing (t : Team) : Standing :=
  { key := t.key, resident := t.resident, bay := t.bay, ctx := t.ctx, pc := t.pc, curObj := t.curObj }

/-- The management registers, the bays and dies with their service, and the teams' standing. -/
structure Footing where
  mgmt : Mgmt
  bays : List (Nat × Bool)
  dies : List (Nat × Bool)
  teams : List Standing

def State.footing (s : State) : Footing :=
  { mgmt := s.mgmt, bays := s.bays.map fun b => (b.num, b.inService), dies := s.dies.map fun d => (d.num, d.inService)
    teams := s.teams.map Team.standing }

/-- Home and index of the waypoint records that are valid (R333). -/
def State.alive (s : State) : List (Nat × Nat) := (s.waypoints.filter (·.valid)).map fun w => (w.die, w.index)

theorem State.mem_alive (s : State) {w : Waypoint} (h : w ∈ s.waypoints) (hv : w.valid = true) : (w.die, w.index) ∈ s.alive :=
  List.mem_map.2 ⟨w, List.mem_filter.2 ⟨h, hv⟩, rfl⟩

/-- The footing is as it was, no posted record is lost, and no waypoint has become valid. -/
structure Steady (s s' : State) : Prop where
  footing : s'.footing = s.footing
  posts : s.posts ⊆ s'.posts
  alive : s'.alive ⊆ s.alive

namespace Steady

theorem refl (s : State) : Steady s s := ⟨rfl, List.Subset.refl _, List.Subset.refl _⟩

theorem trans {s t u : State} (h : Steady s t) (h' : Steady t u) : Steady s u :=
  ⟨h'.footing.trans h.footing, List.Subset.trans h.posts h'.posts, List.Subset.trans h'.alive h.alive⟩

/-- An update that touches no field of the footing, no post and no waypoint. -/
theorem of_eq {s s' : State} (hf : s'.footing = s.footing) (hp : s'.posts = s.posts) (hw : s'.waypoints = s.waypoints) : Steady s s' :=
  ⟨hf, fun _ h => hp ▸ h, fun _ h => by rwa [State.alive, hw] at h⟩

theorem foldl {α : Type} {f : State → α → State} (h : ∀ s x, Steady s (f s x)) (l : List α) (s : State) : Steady s (l.foldl f s) := by
  induction l generalizing s with
  | nil => exact refl s
  | cons x l ih => exact (h s x).trans (ih _)

theorem ite {c : Prop} {_ : Decidable c} {s a b : State} (ha : Steady s a) (hb : Steady s b) : Steady s (if c then a else b) := by
  split
  · exact ha
  · exact hb

end Steady

/-! ### Updates of the state -/

theorem map_eq_of_image {α β : Type} {f : α → α} {g : α → β} (h : ∀ a, g (f a) = g a) (l : List α) : (l.map f).map g = l.map g := by
  rw [List.map_map]
  exact List.map_congr_left fun a _ => h a

/-- An update of teams that leaves every team where it stands. -/
theorem State.mapTeams_steady (s : State) (f : Team → Team) (h : ∀ t, (f t).standing = t.standing) :
    Steady s { s with teams := s.teams.map f } :=
  .of_eq (by simp only [State.footing, map_eq_of_image h]) rfl rfl

theorem State.mapTeam_steady (s : State) (k : Nat) (f : Team → Team) (h : ∀ t, (f t).standing = t.standing) : Steady s (s.mapTeam k f) :=
  s.mapTeams_steady _ fun t => by
    split
    · exact h t
    · rfl

theorem State.mapGroup_steady (s : State) (k g : Nat) (f : Group → Group) : Steady s (s.mapGroup k g f) :=
  s.mapTeam_steady k _ fun _ => rfl

theorem State.mapDie_steady (s : State) (n : Nat) (f : Die → Die) (h : ∀ d, ((f d).num, (f d).inService) = (d.num, d.inService)) :
    Steady s (s.mapDie n f) := by
  refine .of_eq ?_ rfl rfl
  simp only [State.footing, State.mapDie]
  rw [map_eq_of_image fun d => ?_]
  split
  · exact h d
  · rfl

theorem State.settleBays_steady (s : State) : Steady s s.settleBays := by
  refine .of_eq ?_ rfl rfl
  simp only [State.footing, State.settleBays]
  rw [map_eq_of_image fun b => ?_]
  split <;> rfl

theorem State.mapCmd_steady (s : State) (bay ch seq : Nat) (f : CopyCmd → CopyCmd) : Steady s (s.mapCmd bay ch seq f) := .of_eq rfl rfl rfl
theorem State.drainParty_steady (s : State) (p : Party) : Steady s (s.drainParty p) := .of_eq rfl rfl rfl
theorem State.learn_steady (s : State) (p : Party) (i : Nat) : Steady s (s.learn p i) := .of_eq rfl rfl rfl
theorem State.answered_steady (s : State) (c : Nat) : Steady s (s.answered c) := .of_eq rfl rfl rfl
theorem State.leaveRings_steady (s : State) (k : Nat) : Steady s (s.leaveRings k) := .of_eq rfl rfl rfl
theorem State.returnRings_steady (s : State) (k : Nat) : Steady s (s.returnRings k) := .of_eq rfl rfl rfl

/-- A waiter entry given back leaves its record as valid as it was. -/
theorem State.unregister_steady (s : State) (f : Party → Bool) : Steady s (s.unregister f) := by
  refine ⟨rfl, List.Subset.refl _, fun x hx => ?_⟩
  obtain ⟨w', hw', rfl⟩ := List.mem_map.1 hx
  obtain ⟨hm, hv⟩ := List.mem_filter.1 hw'
  obtain ⟨w, hw, rfl⟩ := List.mem_map.1 hm
  exact s.mem_alive (w := w) hw hv

theorem State.forget_steady (s : State) (k : Nat) : Steady s (s.forget k) := by
  unfold State.forget
  exact s.unregister_steady _

theorem State.mapNest_steady (s : State) (n : Nat) (f : Nest → Nest) : Steady s (s.mapNest n f) := .of_eq rfl rfl rfl

theorem State.readWith_steady (s : State) (p : Place) (known lifted : List Nat) (rs : List Region) (va : Option Nat) (loc n : Nat) :
    Steady s (s.readWith p known lifted rs va loc n).2 := .of_eq rfl rfl rfl

/-- A record posted joins those that are there. -/
theorem State.post_steady (s : State) (p : Place) (r : RecordFields) : Steady s (s.post p r) := ⟨rfl, List.subset_append_left _ _, List.Subset.refl _⟩

theorem State.mem_posts_post (s : State) (p : Place) (r : RecordFields) : ∃ x ∈ (s.post p r).posts, x.record = r.image :=
  ⟨_, List.mem_append_right _ (List.mem_singleton.2 rfl), rfl⟩

theorem State.dropStorage_steady (s : State) (tag : Nat) : Steady s (s.dropStorage tag) := by
  unfold State.dropStorage
  split
  · exact .refl s
  · exact .of_eq rfl rfl rfl

theorem State.fillTlb_steady (s : State) (bay : Nat) (helm : Bool) (aspace va : Nat) (large : Bool) (leaf : Nat) :
    Steady s (s.fillTlb bay helm aspace va large leaf) := by
  unfold State.fillTlb
  exact .ite (.refl s) (.of_eq rfl rfl rfl)

theorem State.enterUse_steady (s : State) (root dctx va : Nat) (large : Bool) (leaf : Nat) : Steady s (s.enterUse root dctx va large leaf) := by
  unfold State.enterUse
  exact .ite (.refl s) (.ite (.refl s) (.of_eq rfl rfl rfl))

theorem State.sendFlit_steady (s : State) (type node : Nat) : Steady s (s.sendFlit type node) := by
  unfold State.sendFlit
  simp only []
  split
  · exact .refl s
  · exact .of_eq rfl rfl rfl

/-! ### Writes -/

theorem State.takeToken_steady (s : State) (p : Place) (loc : Nat) : Steady s (s.takeToken p loc) := by
  unfold State.takeToken
  split
  · exact .refl s
  · extract_lets block holder
    split
    · exact .ite (.refl s) (.of_eq rfl rfl rfl)
    · exact .of_eq rfl rfl rfl

theorem State.writeWith_steady (s : State) (p : Place) (known lifted : List Nat) (heads : List Release) (loc : Nat) (bs : List Byte) :
    Steady s (s.writeWith p known lifted heads loc bs).2 := by
  refine (s.takeToken_steady p loc).trans ?_
  simp only [State.writeWith]
  split <;> exact .of_eq rfl rfl rfl

theorem State.writeAs_steady (s : State) (p : Place) (rel : Option Nat) (loc : Nat) (bs : List Byte) : Steady s (s.writeAs p rel loc bs) :=
  (s.writeWith_steady p _ _ _ loc bs).trans (State.learn_steady _ _ _)

/-! ### Waypoints -/

theorem State.spill_steady (s : State) (die index : Nat) : Steady s (s.spill die index) := by
  unfold State.spill
  split
  · exact .refl s
  · split
    · exact .refl s
    · exact s.writeAs_steady _ _ _ _

/-- An update of a record that makes none valid. -/
theorem State.mapWaypoint_steady (s : State) (w : Waypoint) (f : Waypoint → Waypoint)
    (h : ∀ x ∈ s.waypoints, (f x).valid = true → ((f x).die, (f x).index) ∈ s.alive) : Steady s (s.mapWaypoint w f) := by
  refine Steady.trans ?_ (State.spill_steady _ _ _)
  refine ⟨rfl, List.Subset.refl _, fun y hy => ?_⟩
  obtain ⟨z, hz, rfl⟩ := List.mem_map.1 hy
  obtain ⟨hm, hv⟩ := List.mem_filter.1 hz
  obtain ⟨x, hx, rfl⟩ := List.mem_map.1 hm
  by_cases hk : (x.die == w.die && x.index == w.index) = true
  · rw [if_pos hk] at hv ⊢
    exact h x hx hv
  · rw [if_neg hk] at hv ⊢
    exact s.mem_alive hx hv

theorem State.endWait_steady (s : State) (p : Party) (handle : Nat) (g : Option Grant) : Steady s (s.endWait p handle g) := by
  unfold State.endWait
  split
  · exact s.mapTeam_steady _ _ fun _ => rfl
  · exact s.mapGroup_steady _ _ _
  · exact .of_eq rfl rfl rfl
  · exact .refl s

theorem State.endWaits_steady (s : State) (w : Waypoint) : Steady s (s.endWaits w) := by
  refine Steady.trans ?_ (.foldl (fun s _ => s.endWait_steady _ _ _) _ _)
  exact s.mapWaypoint_steady w _ fun x hx hv => s.mem_alive (w := x) hx hv

theorem State.testWaypoint_steady (s : State) (w : Waypoint) (arrival : Bool) : Steady s (s.testWaypoint w arrival) := by
  unfold State.testWaypoint
  split
  · exact .refl s
  · next x hx =>
    have hx := List.mem_of_find?_eq_some hx
    refine .ite (.trans ?_ (State.endWaits_steady _ _)) (.ite ?_ (.refl s))
    · exact s.mapWaypoint_steady w _ fun _ _ hv => s.mem_alive (w := x) hx hv
    · exact s.mapWaypoint_steady w _ fun y hy hv => s.mem_alive (w := y) hy hv

theorem State.arrive_steady (s : State) (w : Waypoint) (n bytes lost : Nat) (fault : Bool) (rel : Option Release) :
    Steady s (s.arrive w n bytes lost fault rel) := by
  refine Steady.trans ?_ (State.testWaypoint_steady _ _ _)
  exact s.mapWaypoint_steady w _ fun x hx hv => s.mem_alive (w := x) hx hv

theorem State.reclaim_steady (s : State) (f : Waypoint → Bool) : Steady s (s.reclaim f) := by
  refine .foldl (fun s w => .trans ?_ (.foldl (fun s _ => s.endWait_steady _ _ _) _ _)) _ _
  exact s.mapWaypoint_steady w _ fun _ _ hv => nomatch hv

/-! ### Traps -/

theorem State.double_steady (s : State) (k : Nat) (c : Cause) (sec src : Nat) : Steady s (s.double k c sec src) := by
  unfold State.double
  split
  · exact .refl s
  · refine Steady.trans ?_ (State.post_steady _ _ _)
    refine Steady.trans ?_ (State.mapTeam_steady _ k _ fun _ => rfl)
    exact (s.answered_steady _).trans ((State.unregister_steady _ _).trans (State.leaveRings_steady _ k))

theorem State.freeze_steady (s : State) (k : Nat) (tr : Trap) : Steady s (s.freeze k tr) := by
  unfold State.freeze
  refine (State.unregister_steady s _).trans ((State.answered_steady _ _).trans (State.mapTeam_steady _ k _ fun t => ?_))
  simp only []
  repeat' split
  all_goals rfl

theorem State.laneTrap_steady (s : State) (k grp : Nat) (who : Eng) (service : Bool) (c : Cause) : Steady s (s.laneTrap k grp who service c) := by
  unfold State.laneTrap
  split
  · exact .refl s
  split
  · exact .refl s
  next g _ =>
  extract_lets e root u v
  have hu : Steady s u := .ite (s.mapGroup_steady k grp _) (.refl s)
  have hv : Steady s v := hu.trans ((State.unregister_steady _ _).trans (State.mapGroup_steady _ k grp _))
  have hf (tr : Trap) (f : Group → Group) : Steady v ((v.mapGroup k grp f).freeze k tr) := (v.mapGroup_steady k grp f).trans (State.freeze_steady _ _ _)
  exact hv.trans <| .ite (v.double_steady _ _ _ _) (.ite (v.mapGroup_steady _ _ _) (hf _ _))

theorem State.faultInFlight_steady (s : State) (k grp : Nat) (a : Access) (fva : Nat) (lanes : W64) : Steady s (s.faultInFlight k grp a fva lanes) :=
  (s.mapGroup_steady k grp _).trans (State.laneTrap_steady _ _ _ _ _ _)

theorem State.loseAccess_steady (s : State) (die k grp : Nat) (a : Access) : Steady s (s.loseAccess die k grp a) := by
  unfold State.loseAccess
  simp only []
  split
  · split
    · exact s.faultInFlight_steady _ _ _ _ _
    · exact .refl s
  · exact .refl s

end Sys2Proof.Machine
end

section
/-! The accesses of a copy sector leave the footing as it was (R285 to R297). -/

namespace Sys2Proof.Machine

/-- The state that a meaning ends or waits in has the footing of `s`. -/
def Steady.Through {α : Type} (s : State) : Except Stop (α × State) → Prop
  | .ok (_, s') => Steady s s'
  | .error (.wait _ s') => Steady s s'
  | .error _ => True

theorem Steady.Through.before {α : Type} {s t : State} (h : Steady s t) {r : Except Stop (α × State)} (hr : Through t r) : Through s r :=
  match r, hr with
  | .ok _, hr => h.trans hr
  | .error (.wait _ _), hr => h.trans hr
  | .error (.trap _), _ => trivial
  | .error (.fault _), _ => trivial

/-- A meaning that leaves the footing as it was, where it ends and where it waits. -/
def M.Keeps {α : Type} (m : M α) : Prop := ∀ s, Steady.Through s (m s)

namespace M.Keeps

theorem pure {α : Type} (a : α) : M.Keeps (pure a : M α) := fun s => .refl s
theorem get : M.Keeps (get : M State) := fun s => .refl s
theorem modify {f : State → State} (h : ∀ s, Steady s (f s)) : M.Keeps (modify f : M PUnit) := h
theorem raise {α : Type} (code fva info : Nat) (write fetch : Bool) : M.Keeps (raise code fva info write fetch : M α) := fun _ => trivial

theorem bind {α β : Type} {m : M α} {f : α → M β} (hm : m.Keeps) (hf : ∀ a, (f a).Keeps) : (m >>= f).Keeps := by
  intro s
  have hs := hm s
  cases h : m s with
  | ok p =>
    rw [M.bind_ok h]
    rw [h] at hs
    exact .before hs (hf p.1 p.2)
  | error x =>
    rw [M.bind_error h]
    rw [h] at hs
    cases x with
    | wait w u => exact hs
    | trap c => trivial
    | fault e => trivial

/-- Nothing follows a trap. -/
theorem raise_bind {α β : Type} (code fva info : Nat) (write fetch : Bool) {f : α → M β} :
    ((Machine.raise code fva info write fetch : M α) >>= f).Keeps :=
  fun _ => trivial

/-- Nothing follows a wait. -/
theorem wait_bind {α β : Type} {w : WaitFor} {f : State → State} {k : α → M β} (h : ∀ s, Steady s (f s)) :
    ((fun s => .error (.wait w (f s)) : M α) >>= k).Keeps := h

theorem ite {α : Type} {c : Prop} {_ : Decidable c} {m n : M α} (hm : m.Keeps) (hn : n.Keeps) : (if c then m else n).Keeps := by
  split
  · exact hm
  · exact hn

/-- A step that is made only where the condition holds, and what follows it. -/
theorem guard {α : Type} {c : Prop} {_ : Decidable c} {m : M Unit} {f : Unit → M α} (hm : m.Keeps) (hf : ∀ a, (f a).Keeps) :
    (if c then m >>= f else f ()).Keeps := .ite (.bind hm hf) (hf ())

theorem need (b : Bool) (code fva : Nat) : (need b code fva).Keeps := by
  intro s
  cases b with
  | true => exact .refl s
  | false => trivial

theorem choose (n : Nat) : (choose n).Keeps := fun s => Steady.ite (.refl s) (.of_eq rfl rfl rfl)

theorem attempt {α : Type} {m : M α} (h : m.Keeps) : (attempt m).Keeps := by
  intro s
  have hs := h s
  unfold Machine.attempt
  split
  · next e => rwa [e] at hs
  · exact .refl s
  · next x _ e =>
    rw [e] at hs
    cases x with
    | wait w u => exact hs
    | trap c => trivial
    | fault e => trivial

end M.Keeps

/-! ### Translation -/

theorem checkHealth_keeps (loc fva : Nat) (write : Bool) : (checkHealth loc fva write).Keeps := by
  unfold checkHealth
  refine .bind .get fun s => .ite ?_ ?_
  · split
    split
    · exact .ite (.pure _) (.ite (.raise _ _ _ _ _) (.bind (.choose 2) fun _ => .need _ _ _))
    · exact .pure _
  · split
    · exact .guard (.raise _ _ _ _ _) fun _ => .modify fun s => s.sendFlit_steady _ _
    · exact .pure _

theorem chooseLeaf_keeps (roots : List Nat) (aspace dctx die : Nat) (super : Bool) (k : AccessKind) (va : Nat) (opts : List (Option (Bool × Nat))) :
    (chooseLeaf roots aspace dctx die super k va opts).Keeps := by
  unfold chooseLeaf
  refine .bind (.choose _) fun i => ?_
  split
  · exact .raise _ _ _ _ _
  · refine .bind .get fun s => ?_
    refine .ite (.ite (.wait_bind .refl) (.ite (.wait_bind fun _ => .of_eq rfl rfl rfl) (.raise_bind _ _ _ _ _))) ?_
    refine .ite (.ite (.bind (.choose 2) fun _ => .raise_bind _ _ _ _ _) (.bind (.pure 0) fun _ => .raise_bind _ _ _ _ _)) ?_
    exact .ite (.raise_bind _ _ _ _ _) (.bind (.modify fun s => s.enterUse_steady _ _ _ _ _) fun _ => .pure _)

theorem reachLeaf_keeps (k : AccessKind) (va : Nat) (large : Bool) (leaf : Nat) : (reachLeaf k va large leaf).Keeps := by
  unfold reachLeaf
  exact .guard (checkHealth_keeps _ _ _) fun _ => .pure _

theorem translate_keeps (roots : List Nat) (aspace dctx bay : Nat) (helm super : Bool) (k : AccessKind) (va : Nat) :
    (translate roots aspace dctx bay helm super k va).Keeps := by
  unfold translate
  refine .guard (.raise _ _ _ _ _) fun _ => .bind .get fun s => .bind (chooseLeaf_keeps _ _ _ _ _ _ _ _) fun x => ?_
  exact .guard (.modify fun s => s.fillTlb_steady _ _ _ _ _ _) fun _ => .bind (reachLeaf_keeps _ _ _ _) fun _ => .pure _

end Sys2Proof.Machine
end

section

namespace Sys2Proof.Machine

/-! ### The units of a sector -/

section
variable (t : Team) (c : CopyCmd)

theorem copyLoc_keeps (sg : W128) (o : Int) (n : Nat) (write : Bool) : (copyLoc t c sg o n write).Keeps := by
  unfold copyLoc
  refine .bind .get fun s => ?_
  extract_lets tc a
  split
  · exact .raise _ _ _ _ _
  · split
    · exact .bind (translate_keeps _ _ _ _ _ _ _ _) fun _ => .pure _
    · exact .pure _
    · exact .pure _

theorem copyRead_keeps (l : Located) (n : Nat) : (copyRead c l n).Keeps := fun s => s.readWith_steady _ _ _ _ _ _ _

theorem copyValue_keeps (sg : W128) (n : Nat) (o : Int) : (copyValue t c sg o n).Keeps := by
  induction n generalizing o with
  | zero => exact .pure 0
  | succ n ih => exact .bind (copyLoc_keeps t c _ _ _ _) fun _ => .bind (copyRead_keeps c _ _) fun _ => .bind (ih _) fun _ => .pure _

theorem entryOnce_keeps (key : Nat) {read : M Nat} (h : read.Keeps) : (entryOnce c key read).Keeps := by
  unfold entryOnce
  refine .bind .get fun s => ?_
  split
  · exact .pure _
  · exact .bind h fun _ => .bind (.modify fun s => s.mapCmd_steady _ _ _ _) fun _ => .pure _

theorem granDst_keeps (sg : W128) (o : Int) (first n : Nat) : (granDst t c sg o first n).Keeps := by
  unfold granDst
  refine .bind (.attempt (copyLoc_keeps t c _ _ _ _)) fun x => ?_
  cases x with
  | ok l => exact .pure _
  | error x => exact .bind .get fun s => .pure _

theorem listEntry_keeps (j : Nat) : (listEntry t c j).Keeps := entryOnce_keeps c j (copyValue_keeps t c _ _ _)

theorem rowEnds_keeps (row : Nat) : (rowEnds t c row).Keeps := by
  unfold rowEnds
  split
  · exact .bind (listEntry_keeps t c _) fun _ => .pure _
  · exact .bind (listEntry_keeps t c _) fun _ => .ite (.pure _) (.pure _)
  · exact .pure _
  · exact .pure _

theorem unitDue_keeps (part : CollPart) (i p n : Nat) : (unitDue c part i p n).Keeps := by
  unfold unitDue
  exact .ite (.pure _) (.ite (.bind (.choose 2) fun _ => .pure _) (.pure _))

/-- Where a unit is due it is one that may fail by itself. -/
theorem dueUnit_keeps {α : Type} {due : Bool} {m : M α} (h : m.Keeps) :
    M.Keeps (if due then do let g ← attempt m; pure [g] else pure []) := .ite (.bind (.attempt h) fun _ => .pure _) (.pure _)

theorem plainGrans_keeps (i fuel p e : Nat) : (plainGrans t c i fuel p e).Keeps := by
  induction fuel generalizing p with
  | zero => exact .pure _
  | succ fuel ih =>
    unfold plainGrans
    refine .ite (.pure _) (.bind (.attempt (rowEnds_keeps t c _)) fun x => ?_)
    split
    · exact .bind (ih _) fun _ => .pure _
    · exact ih _
    · extract_lets ss ds
      split
      refine .bind (unitDue_keeps c _ _ _ _) fun _ => .bind (dueUnit_keeps (.bind ?_ fun _ => .bind (granDst_keeps t c _ _ _ _) fun _ => .pure _))
        fun _ => .bind (ih _) fun _ => .pure _
      split
      · exact .bind (copyLoc_keeps t c _ _ _ _) fun _ => .pure _
      · exact .pure _

theorem scaleGrans_keeps (n p : Nat) : (scaleGrans t c n p).Keeps := by
  induction n generalizing p with
  | zero => exact .pure _
  | succ n ih =>
    refine .bind (.attempt (.bind ?_ fun _ => .pure _)) fun _ => .bind (ih _) fun _ => .pure _
    split
    · exact .pure _
    · exact .bind (copyLoc_keeps t c _ _ _ _) fun _ => .pure _

theorem rankBuffer_keeps (j part : Nat) : (rankBuffer t c j part).Keeps :=
  .ite (.pure _) (entryOnce_keeps c _ (copyValue_keeps t c _ _ _))

theorem rankSources_keeps (n j : Nat) : (rankSources t c n j).Keeps := by
  induction n generalizing j with
  | zero => exact .pure _
  | succ n ih => exact .bind (rankBuffer_keeps t c _ _) fun _ => .bind (ih _) fun _ => .pure _

theorem rankPieces_keeps (sg : W128) (o d : Int) (hi fuel x : Nat) : (rankPieces t c sg o d hi fuel x).Keeps := by
  induction fuel generalizing x with
  | zero => exact .pure _
  | succ fuel ih =>
    unfold rankPieces
    refine .ite (.pure _) ?_
    split
    exact .bind (copyLoc_keeps t c _ _ _ _) fun _ => .bind (ih _) fun _ => .pure _

theorem rankReads_keeps (d : Int) (lo hi : Nat) (as : List Nat) : (rankReads t c d lo hi as).Keeps := by
  induction as with
  | nil => exact .pure _
  | cons a as ih => exact .bind (rankPieces_keeps t c _ _ _ _ _ _) fun _ => .bind ih fun _ => .pure _

theorem collGrans_keeps (part : CollPart) (i fuel p e : Nat) : (collGrans t c part i fuel p e).Keeps := by
  induction fuel generalizing p with
  | zero => exact .pure _
  | succ fuel ih =>
    unfold collGrans
    refine .ite (.pure _) ?_
    extract_lets ds j own i0 d0 dst
    refine .ite (.ite (ih _) (.bind (.attempt (rankSources_keeps t c _ _)) fun x => ?_))
      (.ite (ih _) (.bind (.attempt (rankBuffer_keeps t c _ _)) fun x => ?_))
    · split
      · exact .bind (ih _) fun _ => .pure _
      · split
        exact .bind (unitDue_keeps c _ _ _ _) fun _ =>
          .bind (dueUnit_keeps (.bind (rankReads_keeps t c _ _ _ _) fun _ => .bind (granDst_keeps t c _ _ _ _) fun _ => .pure _))
            fun _ => .bind (ih _) fun _ => .pure _
    · split
      · exact .bind (ih _) fun _ => .pure _
      · extract_lets so
        split
        exact .bind (unitDue_keeps c _ _ _ _) fun _ =>
          .bind (dueUnit_keeps (.bind (copyLoc_keeps t c _ _ _ _) fun _ => .bind (granDst_keeps t c _ _ _ _) fun _ => .pure _))
            fun _ => .bind (ih _) fun _ => .pure _

theorem routeEntry_keeps (row : Nat) : (routeEntry t c row).Keeps := entryOnce_keeps c _ (copyValue_keeps t c _ _ _)

theorem idsBelow_keeps (n : Nat) : (idsBelow t c n).Keeps := by
  induction n with
  | zero => exact .pure _
  | succ n ih => exact .bind ih fun _ => .bind (routeEntry_keeps t c _) fun _ => .pure _

theorem dirEntry_keeps (x : Nat) : (dirEntry t c x).Keeps :=
  .bind (copyValue_keeps t c _ _ _) fun _ => .bind (copyValue_keeps t c _ _ _) fun _ => .pure _

theorem expertLookup_keeps (x : Nat) : (expertLookup t c x).Keeps := by
  unfold expertLookup
  refine .bind (.modify fun s => s.mapDie_steady _ _ fun _ => rfl) fun _ => .bind .get fun s => ?_
  split
  · refine .bind (.modify fun s => .of_eq rfl rfl rfl) fun _ => .bind (.attempt (dirEntry_keeps t c _)) fun d => ?_
    split
    · exact .pure _
    · exact .ite (.pure _) (.bind (.choose 2) fun _ => .pure _)
  · exact .bind (dirEntry_keeps t c _) fun _ => .bind (.modify fun s => .of_eq rfl rfl rfl) fun _ => .pure _

theorem rowListings_keeps (below xs : List Nat) : (rowListings t c below xs).Keeps := by
  induction xs generalizing below with
  | nil => exact .pure _
  | cons x xs ih =>
    unfold rowListings
    exact .guard (.raise _ _ _ _ _) fun _ => .bind (expertLookup_keeps t c _) fun _ => .bind (ih _) fun _ => .pure _

theorem rowGrans_outs_keeps (q : Nat) (xs : List ((Nat × Int) × Nat × Nat)) : (rowGrans.outs t c q xs).Keeps := by
  induction xs with
  | nil => exact .pure _
  | cons x xs ih => exact .bind (granDst_keeps t c _ _ _ _) fun _ => .bind ih fun _ => .pure _

theorem rowGrans_keeps (so : Int) (ds : List (Nat × Int)) (fuel q : Nat) : (rowGrans t c so ds fuel q).Keeps := by
  induction fuel generalizing q with
  | zero => exact .pure _
  | succ fuel ih =>
    unfold rowGrans
    exact .ite (.pure _) (.bind (.attempt (.bind (copyLoc_keeps t c _ _ _ _) fun _ => .bind (rowGrans_outs_keeps t c _ _) fun _ => .pure _))
      fun _ => .bind (ih _) fun _ => .pure _)

theorem dispGrans_keeps (n row : Nat) : (dispGrans t c n row).Keeps := by
  induction n generalizing row with
  | zero => exact .pure _
  | succ n ih =>
    unfold dispGrans
    refine .bind (.attempt (.bind (idsBelow_keeps t c _) fun _ => .bind (routeEntry_keeps t c _) fun _ => rowListings_keeps t c _ _)) fun x => ?_
    split
    · exact .bind (ih _) fun _ => .pure _
    · refine .bind .get fun s => .bind (rowGrans_keeps t c _ _ _ _) fun _ => .bind (.ite (.pure _) ?_) fun _ => .bind (ih _) fun _ => .pure _
      exact .bind (.modify fun s => s.mapCmd_steady _ _ _ _) fun _ => .bind .get fun s =>
        .bind (.attempt (.bind (granDst_keeps t c _ _ _ _) fun _ => .pure _)) fun _ => .pure _

theorem sectorGrans_keeps (part : CollPart) (i : Nat) : (sectorGrans t c part i).Keeps := by
  unfold sectorGrans
  split
  split
  · exact scaleGrans_keeps t c _ _
  · exact collGrans_keeps t c _ _ _ _ _
  · exact dispGrans_keeps t c _ _
  · exact plainGrans_keeps t c _ _ _ _

end

/-! ### Performing a sector -/

theorem CopyCmd.readOne_steady (c : CopyCmd) (s : State) (l : Located) (n : Nat) : Steady s (c.readOne s l n).2 := s.readWith_steady _ _ _ _ _ _ _

theorem Performed.rankRead_steady (w : Performed) (c : CopyCmd) (rank : Nat) (l : Located) (n : Nat) : Steady w.state (w.rankRead c rank l n).2.state := by
  unfold Performed.rankRead
  split
  · exact .refl _
  · exact c.readOne_steady _ _ _

/-- A fold over what has been performed, each step of which leaves the footing as it was. -/
theorem Steady.foldl_of {α β : Type} (state : β → State) {f : β → α → β} (h : ∀ b x, Steady (state b) (state (f b x))) (l : List α) (b : β) :
    Steady (state b) (state (l.foldl f b)) := by
  induction l generalizing b with
  | nil => exact refl _
  | cons x l ih => exact (h b x).trans (ih _)

theorem granValue_steady (c : CopyCmd) (src : GranSrc) (w : Performed) : Steady w.state (granValue c src w).2.2.state := by
  cases src with
  | bytes b => exact .refl _
  | read l n => exact c.readOne_steady _ _ _
  | orBits l b => exact c.readOne_steady w.state l 1
  | reduce ls len first n =>
    refine Steady.foldl_of (fun a : List (List Byte) × Performed => a.2.state) (fun a r =>
      Steady.foldl_of (fun b : List Byte × Performed => b.2.state) (fun b l => ?_) r.1.2 ([], a.2)) ls.zipIdx ([], w)
    exact b.2.rankRead_steady c r.2 l.1 l.2

theorem writeUnit_steady (c : CopyCmd) (d : Spot) (bs : List Byte) (w : Performed) : Steady w.state (writeUnit c d bs w).state := by
  cases d with
  | scale o => exact .of_eq rfl rfl rfl
  | mem l => exact w.state.writeWith_steady _ _ _ _ _ _

theorem writeGran_steady (c : CopyCmd) (bs : List Byte) (ds : List GranDst) (w : Performed) : Steady w.state (writeGran c bs ds w).state :=
  .foldl_of Performed.state (fun w _ => writeUnit_steady c _ _ w) ds w

theorem writeSome_steady (c : CopyCmd) (bs : List Byte) (ds : List GranDst) (w : Performed) : Steady w.state (writeSome c bs ds w).state := by
  refine .foldl_of Performed.state (fun w x => ?_) _ w
  extract_lets u
  have hu : Steady w.state u.state := by
    unfold u
    split
    · exact .refl _
    · exact writeUnit_steady c _ _ w
  exact hu.trans (.of_eq rfl rfl rfl)

theorem Team.standing_nanorigin (t : Team) (v : W64) : ({ t with nanorigin := v } : Team).standing = t.standing := rfl

theorem Team.offerOrigin_standing (t : Team) (fmt : Nat) (helm : Bool) (lane grp hash : Nat) :
    (t.offerOrigin fmt helm lane grp hash).standing = t.standing := by
  unfold Team.offerOrigin
  split
  · rfl
  · exact t.standing_nanorigin _

theorem performGrans_steady (c : CopyCmd) (whole : Bool) (gs : List (Except Cause Gran)) (s : State) : Steady s (performGrans c whole gs s).2 := by
  refine Steady.foldl_of Performed.state (fun w g => ?_) gs { ids := [], cache := [], state := s }
  cases g with
  | error x => exact .refl _
  | ok g =>
    have hv := granValue_steady c g.src w
    dsimp -zeta only
    generalize granValue c g.src w = x at hv ⊢
    obtain ⟨bs, offers, v⟩ := x
    extract_lets u
    have hu : Steady v.state u.state := .foldl (fun s o => s.mapTeam_steady _ _ fun t => t.offerOrigin_standing _ _ _ _ _) _ _
    refine hv.trans (hu.trans ?_)
    cases whole with
    | true => exact writeGran_steady c bs g.dsts u
    | false => exact writeSome_steady c bs _ u

theorem State.collArrive_steady (s : State) (c : CopyCmd) (aspace : Nat) (second : Bool) : Steady s (s.collArrive c aspace second).2 := by
  unfold State.collArrive
  split
  · exact .refl s
  · next w _ =>
    extract_lets u v d
    have hv : Steady s v := (s.drainParty_steady _).trans (State.arrive_steady _ _ _ _ _ _ _)
    split
    · exact hv
    · exact hv.trans (.ite (.refl _) (v.mapWaypoint_steady _ _ fun x hx hv => v.mem_alive (w := x) hx hv))

theorem State.attemptSector_steady (s : State) (t : Team) (c : CopyCmd) (i : Nat) (lost : Option Nat) : Steady s (s.attemptSector t c i lost) := by
  unfold State.attemptSector
  extract_lets part
  have hs := sectorGrans_keeps t c part i s
  split
  · next e => rwa [e] at hs
  · exact .refl s
  · next gs u e =>
    rw [e] at hs
    refine .ite (.refl s) (Steady.trans hs ?_)
    extract_lets _ gs' bad whole
    have hp := performGrans_steady c bad.isEmpty gs' u
    generalize performGrans c bad.isEmpty gs' u = x at hp
    obtain ⟨ids, s0⟩ := x
    refine hp.trans ?_
    dsimp -zeta only
    extract_lets s1 own add s2 s3 s4
    have h1 : Steady s0 s1 := .ite (.foldl (fun s id => s.learn_steady _ _) _ _) (.refl _)
    have h2 : Steady s1 s2 := s1.mapCmd_steady _ _ _ _
    have h3 : Steady s2 s3 := .ite (s2.mapTeam_steady _ _ fun _ => rfl) (.refl _)
    have h4 : Steady s3 s4 := .ite (.of_eq rfl rfl rfl) (.refl _)
    refine (h1.trans (h2.trans (h3.trans h4))).trans ?_
    split
    · exact .refl s4
    · next d _ => exact .ite ((s4.collArrive_steady _ _ _).trans (State.mapCmd_steady _ _ _ _ _)) (.refl s4)

end Sys2Proof.Machine
end

section
/-! The health log (R436), and the loss of a die (R20, R438). -/

namespace Sys2Proof.Machine

open Sys2Proof.Spec

/-! ### The health log -/

/-- An entry of the log moves the management registers only, and of them not the module's state. -/
theorem State.logHealth_eq (s : State) (e : HealthEntry) : ∃ m : Mgmt, s.logHealth e = { s with mgmt := m } ∧ m.state = s.mgmt.state := by
  unfold State.logHealth
  extract_lets m i u
  split
  · exact ⟨_, rfl, rfl⟩
  · exact ⟨_, rfl, rfl⟩

/-- R436: the log after an entry. -/
theorem logged_logHealth (s : State) (e : HealthEntry) : Logged s (s.logHealth e) e := by
  unfold Logged State.logHealth
  extract_lets i m i' u
  have hu : u.mgmt.hlog.find? (fun x => x.1 == i) = some (i, healthImage e) := by simp [u, i', i, m]
  have ho : ∀ j, j ≠ i → u.mgmt.hlog.find? (fun x => x.1 == j) = s.mgmt.hlog.find? (fun x => x.1 == j) := fun j hj => by
    have hij : (i == j) = false := by simpa using Ne.symm hj
    show ((i, healthImage e) :: s.mgmt.hlog.filter fun x => x.1 != i).find? (fun x => x.1 == j) = _
    rw [List.find?_cons_of_neg (by simp [Ne.symm hj]), List.find?_filter]
    congr 1
    funext x
    by_cases hx : x.1 = j
    · simp [hx, hj]
    · simp [hx]
  split
  · exact ⟨rfl, hu, ho, rfl⟩
  · exact ⟨rfl, hu, ho, (List.append_nil _).symm⟩

/-- What is logged is told by the log's registers. -/
theorem logged_congr {s s' t t' : State} {e : HealthEntry} (h : Logged s s' e) (hp : t.mgmt.hlProd = s.mgmt.hlProd) (hl : t.mgmt.hlog = s.mgmt.hlog)
    (hm : t.mgmt.msix = s.mgmt.msix) (h' : t'.mgmt = s'.mgmt) : Logged t t' e := by
  unfold Logged at h ⊢
  rwa [h', hp, hl, hm]

/-- The same log before and after. -/
theorem loggedEvent_congr {s s' t t' : State} {kind site : Nat} (h : LoggedEvent s s' kind site) (hp : t.mgmt.hlProd = s.mgmt.hlProd)
    (hl : t.mgmt.hlog = s.mgmt.hlog) (hm : t.mgmt.msix = s.mgmt.msix) (h' : t'.mgmt = s'.mgmt) : LoggedEvent t t' kind site := by
  obtain ⟨e, h1, h2, h3, h4⟩ := h
  exact ⟨e, h1, h2, h3, logged_congr h4 hp hl hm h'⟩

/-- The entry that the part makes of an event of its own (log 36). -/
def State.ownEntry (s : State) (kind site : Nat) (unit : Option Nat) : HealthEntry :=
  { eold := 0xFFFFFF, conf := (Config.healthReading s.tick).1, value := (Config.healthReading s.tick).2.1, kind := BitVec.ofNat 8 kind
    site := BitVec.ofNat 4 site, unit := (unit.map (BitVec.ofNat 12)).getD (Config.healthReading s.tick).2.2
    time := BitVec.ofNat 40 (s.mgmt.seconds + Config.secondsPassed s.tick) }

theorem State.logEvent_eq (s : State) (kind site : Nat) (unit : Option Nat) :
    ∃ (m : Mgmt) (tick : Nat), s.logEvent kind site unit = { s with mgmt := m, tick := tick } ∧ m.state = s.mgmt.state := by
  obtain ⟨m, h, hs⟩ := State.logHealth_eq { s with tick := s.tick + 1 } (s.ownEntry kind site unit)
  exact ⟨m, s.tick + 1, h, hs⟩

/-- An event of the part's own is logged with its kind and its site. -/
theorem loggedEvent_logEvent (s : State) (kind site : Nat) (unit : Option Nat) :
    LoggedEvent s (s.logEvent kind site unit) (kind % 2 ^ 8) (site % 2 ^ 4) :=
  ⟨s.ownEntry kind site unit, rfl, BitVec.toNat_ofNat _ _, BitVec.toNat_ofNat _ _, logged_congr (logged_logHealth _ _) rfl rfl rfl rfl⟩

/-! ### The teams of a lost die -/

theorem State.loseSectors_steady (s : State) (die : Nat) : Steady s (s.loseSectors die) := by
  refine .foldl (fun s c => .foldl (fun s i => ?_) _ _) _ _
  split
  · next d t _ _ =>
    refine .ite (.trans ?_ (.ite (.refl _) (State.attemptSector_steady _ t d i _))) (.refl s)
    exact .of_eq rfl rfl rfl
  · exact .refl s

theorem State.dropTeam_footing (s : State) (k : Nat) :
    (s.dropTeam k).footing = { s.footing with teams := s.footing.teams.filter fun t => t.key != k } := by
  simp only [State.footing, State.dropTeam, List.filter_map]
  rfl

/-- Of a team that is dropped it does not matter how it stood. -/
theorem State.dropTeam_mapTeam_footing (s : State) (k : Nat) (f : Team → Team) (hf : ∀ t, (f t).key = t.key) :
    ((s.mapTeam k f).dropTeam k).footing = (s.dropTeam k).footing := by
  have h : ((s.mapTeam k f).dropTeam k).teams = (s.dropTeam k).teams := by
    simp only [State.dropTeam, State.mapTeam]
    induction s.teams with
    | nil => rfl
    | cons t ts ih =>
      by_cases hk : t.key = k
      · simpa [hk, hf t] using ih
      · simpa [hk] using ih
  simp only [State.footing, h]
  rfl

/-- The record of a team's loss (R438). -/
def Standing.lossRecord (x : Standing) : RecordFields :=
  { RecordFields.zero with seq := 0xFFFFFFFF, tag := x.pc.toNat, bay := x.bay, ctx := x.ctx, cmd := 0xB, cause := cECC_UNCORR, dst := x.curObj * 2 ^ 48 }

/-- The teams of the key are gone, and nothing else of the footing changes. -/
structure Gone (key : Nat) (s s' : State) : Prop where
  footing : s'.footing = { s.footing with teams := s.footing.teams.filter fun t => t.key != key }
  posts : s.posts ⊆ s'.posts
  alive : s'.alive ⊆ s.alive

theorem Steady.gone {k : Nat} {s t u : State} (h : Steady s t) (h' : Gone k t u) : Gone k s u :=
  ⟨by rw [h'.footing, h.footing], List.Subset.trans h.posts h'.posts, List.Subset.trans h'.alive h.alive⟩

theorem Gone.steady {k : Nat} {s t u : State} (h : Gone k s t) (h' : Steady t u) : Gone k s u :=
  ⟨by rw [h'.footing, h.footing], List.Subset.trans h.posts h'.posts, List.Subset.trans h'.alive h.alive⟩

/-- A team that is dropped leaves its bays to present their own class. -/
theorem State.vacate_gone (s : State) (k : Nat) (f : Team → Team) (hf : ∀ t, (f t).key = t.key) : Gone k s ((s.mapTeam k f).settleBays.dropTeam k) := by
  refine ⟨?_, fun _ h => h, fun _ h => h⟩
  rw [State.dropTeam_footing, (State.settleBays_steady _).footing, ← State.dropTeam_footing, State.dropTeam_mapTeam_footing s k f hf,
    State.dropTeam_footing]

theorem State.freeBays_dropTeam_gone (s : State) (t : Team) : Gone t.key s ((s.freeBays t).dropTeam t.key) := by
  unfold State.freeBays
  extract_lets u v w
  have hu : Steady s u := .foldl (fun s _ => s.dropStorage_steady _) _ _
  have hv : Steady u v := (u.returnRings_steady t.key).trans (State.leaveRings_steady _ t.key)
  have hw : Steady v w := .of_eq rfl rfl rfl
  exact (hu.trans (hv.trans hw)).gone (w.vacate_gone t.key _ fun _ => rfl)

/-- A lost team is gone, with the record of its loss posted (R438). -/
theorem State.loseTeam_gone (s : State) (t : Team) :
    Gone t.key s (s.loseTeam t) ∧ ∃ p ∈ (s.loseTeam t).posts, p.record = t.standing.lossRecord.image := by
  unfold State.loseTeam
  extract_lets zero u v w x
  have hu : Steady s u := s.post_steady _ _
  have hv : Steady u v := u.reclaim_steady _
  have hw : Gone t.key v w := (v.forget_steady t.key).gone (State.freeBays_dropTeam_gone _ t)
  have hx : Steady w x := .of_eq rfl rfl rfl
  have h (f : Nest → Nest) : Gone t.key u (x.mapNest t.nid f) := (hv.gone hw).steady (hx.trans (x.mapNest_steady _ f))
  obtain ⟨p, hp, hr⟩ := s.mem_posts_post (sePlace s.lowestDie) t.standing.lossRecord
  exact ⟨hu.gone (h _), p, (h _).posts hp, hr⟩

/-- The footing without the teams that are lost with a die (R438). -/
def Footing.without (f : Footing) (ts : List Team) : Footing := { f with teams := f.teams.filter fun t => ts.all fun u => t.key != u.key }

/-- Several teams lost one after another. -/
theorem State.loseTeams_gone (ts : List Team) (s : State) :
    (ts.foldl State.loseTeam s).footing = s.footing.without ts ∧ s.posts ⊆ (ts.foldl State.loseTeam s).posts ∧
      (ts.foldl State.loseTeam s).alive ⊆ s.alive ∧ ∀ t ∈ ts, ∃ p ∈ (ts.foldl State.loseTeam s).posts, p.record = t.standing.lossRecord.image := by
  induction ts generalizing s with
  | nil => exact ⟨by simp [Footing.without], List.Subset.refl _, List.Subset.refl _, fun _ h => absurd h List.not_mem_nil⟩
  | cons t ts ih =>
    obtain ⟨⟨hf, hp, ha⟩, p, hm, hr⟩ := s.loseTeam_gone t
    obtain ⟨if_, ip, ia, ir⟩ := ih (s.loseTeam t)
    refine ⟨?_, List.Subset.trans hp ip, List.Subset.trans ia ha, List.forall_mem_cons.2 ⟨⟨p, ip hm, hr⟩, ir⟩⟩
    rw [List.foldl_cons, if_, hf]
    simp [Footing.without, List.filter_filter, Bool.and_comm]

/-! ### The waypoints of a lost die -/

theorem State.mapWaypoint_not_alive (s : State) (w : Waypoint) (f : Waypoint → Waypoint) (hf : ∀ x, (f x).valid = false) :
    (w.die, w.index) ∉ (s.mapWaypoint w f).alive := by
  intro h
  have h := (State.spill_steady _ _ _).alive h
  obtain ⟨y, hy, he⟩ := List.mem_map.1 h
  obtain ⟨hm, hv⟩ := List.mem_filter.1 hy
  obtain ⟨x, -, rfl⟩ := List.mem_map.1 hm
  by_cases hk : (x.die == w.die && x.index == w.index) = true
  · rw [if_pos hk, hf] at hv
    cases hv
  · rw [if_neg hk] at he
    obtain ⟨h1, h2⟩ := Prod.mk.inj he
    exact hk (by simp [h1, h2])

/-- Records reclaimed one after another. -/
theorem not_alive_foldl {f : State → Waypoint → State} (hs : ∀ s w, Steady s (f s w)) (hf : ∀ s w, (w.die, w.index) ∉ (f s w).alive)
    (ws : List Waypoint) (s : State) : ∀ w ∈ ws, (w.die, w.index) ∉ (ws.foldl f s).alive := by
  induction ws generalizing s with
  | nil => exact fun _ h => absurd h List.not_mem_nil
  | cons w ws ih =>
    exact List.forall_mem_cons.2 ⟨fun h => hf s w ((Steady.foldl hs ws _).alive h), ih _⟩

/-- R438: no waypoint homed on a lost die stays valid. -/
theorem State.reclaim_die (s : State) (die : Nat) : ∀ p ∈ (s.reclaim fun w => w.die == die).alive, p.1 ≠ die := by
  intro p hp hd
  obtain ⟨w, hw, rfl⟩ := List.mem_map.1 ((s.reclaim_steady _).alive hp)
  obtain ⟨hm, hv⟩ := List.mem_filter.1 hw
  refine not_alive_foldl (fun s w => ?_) (fun s w h => ?_) _ s w (List.mem_filter.2 ⟨hm, by simpa using ⟨hv, hd⟩⟩) hp
  · refine Steady.trans ?_ (.foldl (fun s _ => s.endWait_steady _ _ _) _ _)
    exact s.mapWaypoint_steady w _ fun _ _ hv => nomatch hv
  · exact s.mapWaypoint_not_alive w _ (fun _ => rfl) ((Steady.foldl (fun s _ => s.endWait_steady _ _ _) _ _).alive h)

/-! ### Everything homed on a die -/

/-- The die and its bays are out of service, and the module is degraded (R20, R438). -/
def Footing.dieOut (f : Footing) (die : Nat) : Footing :=
  { f with mgmt := { f.mgmt with state := 3 }
           bays := f.bays.map fun b => if dieOfBay b.1 == die then (b.1, false) else b
           dies := f.dies.map fun d => if d.1 == die then (d.1, false) else d }

/-- What the loss of a die leaves, with the teams lost. -/
structure DieLost (die : Nat) (s s' : State) (ts : List Team) : Prop where
  logged : LoggedEvent s s' 5 (die % 16)
  lost : ts.map Team.standing = s.footing.teams.filter fun x => x.resident && dieOfBay x.bay == die
  footing : s'.footing = { (s.footing.dieOut die).without ts with mgmt := s'.mgmt }
  state : s'.mgmt.state = 3
  posts : ∀ t ∈ ts, ∃ p ∈ s'.posts, p.record = t.standing.lossRecord.image
  alive : ∀ p ∈ s'.alive, p.1 ≠ die
  mem : ∀ c ∈ s'.mem, lostLoc die c.1 = false

/-- The bays and dies of a machine, over a map of them that keeps their numbers. -/
theorem map_num_service {α : Type} (num : α → Nat) (service : α → Bool) (out : Nat → Bool) (f : α → α)
    (hf : ∀ x, (num (f x), service (f x)) = if out (num x) then (num x, false) else (num x, service x)) (l : List α) :
    ((l.map f).map fun x => (num x, service x)) = (l.map fun x => (num x, service x)).map fun p => if out p.1 then (p.1, false) else p := by
  simp only [List.map_map]
  exact List.map_congr_left fun x _ => hf x

theorem State.loseDie_lost (s : State) (die : Nat) : ∃ ts, DieLost die s (s.loseDie die) ts := by
  unfold State.loseDie
  extract_lets s1 s2 s3 m s4 s5 s6 s7 s8 tags s9
  have h2 : Steady s s2 := (s.loseSectors_steady die).trans (s1.mapTeams_steady _ fun _ => rfl)
  have h4 : s4.footing = s.footing.dieOut die := by
    rw [← h2.footing]
    exact congr (congrArg₂ (Footing.mk { s2.mgmt with state := 3 })
      (map_num_service Bay.num Bay.inService (fun n => dieOfBay n == die) _ (fun b => by split <;> rfl) s2.bays)
      (map_num_service Die.num Die.inService (fun n => n == die) _ (fun d => by split <;> rfl) s2.dies)) rfl
  clear_value s4
  have hts : (s4.teams.filter fun t => t.resident && t.die == die).map Team.standing =
      s.footing.teams.filter fun x => x.resident && dieOfBay x.bay == die := by
    rw [show s.footing.teams = s4.teams.map Team.standing from (congrArg Footing.teams h4).symm, List.filter_map]
    rfl
  obtain ⟨f5, -, -, r5⟩ := s4.loseTeams_gone (s4.teams.filter fun t => t.resident && t.die == die)
  change s5.footing = _ at f5
  change ∀ t ∈ _, ∃ p ∈ s5.posts, _ at r5
  clear_value s5
  generalize (s4.teams.filter fun t => t.resident && t.die == die) = ts at hts f5 r5
  have h6 : Steady s5 s6 := s5.reclaim_steady _
  have a6 : ∀ p ∈ s6.alive, p.1 ≠ die := s5.reclaim_die die
  clear_value s6
  have h7 : Steady s6 s7 := .foldl (fun s x => s.loseAccess_steady _ _ _ _) _ _
  clear_value s7
  have f7 : s7.footing = (s.footing.dieOut die).without ts := by rw [(h6.trans h7).footing, f5, h4]
  have m7 : s7.mgmt = { s.mgmt with state := 3 } := congrArg Footing.mgmt f7
  have l8 : LoggedEvent s7 s8 5 (die % 16) := loggedEvent_logEvent s7 5 die none
  obtain ⟨m8, tick, h8, hm8⟩ : ∃ m8 tick, s8 = { s7 with mgmt := m8, tick := tick } ∧ m8.state = s7.mgmt.state := s7.logEvent_eq 5 die none
  clear_value s8
  have h9 : Steady s8 s9 := .foldl (fun s _ => s.dropStorage_steady _) _ _
  clear_value s9
  have m9 : s9.mgmt = m8 := by rw [show s9.mgmt = s8.mgmt from congrArg Footing.mgmt h9.footing, h8]
  refine ⟨ts, ?_, hts, ?_, ?_, fun t ht => ?_, fun p hp => ?_, fun c hc => ?_⟩
  · exact loggedEvent_congr l8 (by rw [m7]) (by rw [m7]) (by rw [m7]) (by rw [h8]; exact m9)
  · show s9.footing = { (s.footing.dieOut die).without ts with mgmt := s9.mgmt }
    rw [h9.footing, m9, h8, ← f7]
    rfl
  · show s9.mgmt.state = 3
    rw [m9, hm8, m7]
  · obtain ⟨p, hp, hr⟩ := r5 t ht
    have hp : p ∈ s8.posts := by rw [h8]; exact (h6.trans h7).posts hp
    exact ⟨p, h9.posts hp, hr⟩
  · have hp : p ∈ s8.alive := h9.alive hp
    rw [h8] at hp
    exact a6 p (h7.alive hp)
  · simpa using (List.mem_filter.1 hc).2

end Sys2Proof.Machine
end

section
/-! Monitors, repairs, and the loss of bays and dies (R18 to R20, R140, R436 to R438). -/

namespace Sys2Proof.Machine

open Sys2Proof.Spec

/-! ### A die that is lost -/

theorem State.dieUp_footing (s : State) (n : Nat) : s.dieUp n = (s.footing.dies.find? fun d => d.1 == n).any (·.2) := by
  have h : s.footing.dies.find? (fun d => d.1 == n) = (s.die? n).map fun d => (d.num, d.inService) := List.find?_map ..
  rw [h]
  unfold State.dieUp
  cases s.die? n <;> rfl

namespace DieLost

variable {die : Nat} {s s' : State} {ts : List Team}

theorem dieUp_find (h : DieLost die s s' ts) (d : Nat) :
    s'.dieUp d = ((s.footing.dies.find? fun x => x.1 == d).map fun x => if x.1 == die then (x.1, false) else x).any (·.2) := by
  have hf : s'.footing.dies = s.footing.dies.map fun x => if x.1 == die then (x.1, false) else x := congrArg Footing.dies h.footing
  rw [State.dieUp_footing, hf, List.find?_map]
  congr 3
  funext x
  simp only [Function.comp]
  split <;> rfl

theorem dieUp_self (h : DieLost die s s' ts) : s'.dieUp die = false := by
  rw [h.dieUp_find]
  cases hx : s.footing.dies.find? fun x => x.1 == die with
  | none => rfl
  | some x =>
    have hn := List.find?_some hx
    rw [Option.map_some, if_pos hn]
    rfl

theorem dieUp_other (h : DieLost die s s' ts) {d : Nat} (hd : d ≠ die) : s'.dieUp d = s.dieUp d := by
  rw [h.dieUp_find, State.dieUp_footing]
  cases hx : s.footing.dies.find? fun x => x.1 == d with
  | none => rfl
  | some x =>
    have hn : x.1 = d := by simpa using List.find?_some hx
    rw [Option.map_some, if_neg (by simpa [hn] using hd)]

theorem bays_out (h : DieLost die s s' ts) : ∀ b ∈ s'.bays, b.num / 48 = die → b.inService = false := by
  intro b hb hn
  have hf : s'.footing.bays = s.footing.bays.map fun x => if dieOfBay x.1 == die then (x.1, false) else x := congrArg Footing.bays h.footing
  have hm : (b.num, b.inService) ∈ s'.footing.bays := List.mem_map_of_mem hb
  rw [hf] at hm
  obtain ⟨x, -, hx⟩ := List.mem_map.1 hm
  split at hx
  · exact (Prod.mk.inj hx).2.symm
  · next hc =>
    subst hx
    exact absurd (beq_iff_eq.2 hn) hc

/-- A team that was resident on the die is among those lost. -/
theorem mem_lost (h : DieLost die s s' ts) {x : Standing} (hx : x ∈ s.footing.teams) (hr : x.resident = true) (hd : x.bay / 48 = die) :
    ∃ t ∈ ts, t.standing = x :=
  List.mem_map.1 (h.lost ▸ List.mem_filter.2 ⟨hx, by simp [hr, dieOfBay, hd]⟩)

theorem teams_gone (h : DieLost die s s' ts) : ∀ t ∈ s'.teams, t.resident = true → t.die ≠ die := by
  intro t ht hr hd
  have hf : s'.footing.teams = s.footing.teams.filter fun x => ts.all fun u => x.key != u.key := congrArg Footing.teams h.footing
  have hm : t.standing ∈ s'.footing.teams := List.mem_map_of_mem ht
  rw [hf] at hm
  obtain ⟨hx, hk⟩ := List.mem_filter.1 hm
  obtain ⟨u, hu, hs⟩ := h.mem_lost hx hr hd
  have hne : t.standing.key ≠ u.key := by simpa using List.all_eq_true.1 hk u hu
  exact hne (congrArg Standing.key hs).symm

theorem waypoints_invalid (h : DieLost die s s' ts) : ∀ w ∈ s'.waypoints, w.die = die → w.valid = false := by
  intro w hw hd
  by_contra hv
  exact h.alive _ (s'.mem_alive hw (by simpa using hv)) hd

theorem frames_lost (h : DieLost die s s' ts) : ∀ c ∈ s'.mem, c.1 / 2 ^ 64 = hbmTag → c.1 / 2 ^ 37 % 4 ≠ die := by
  intro c hc ht hd
  have hl := h.mem c hc
  simp only [lostLoc, storageOf, offsetOf, storageSize, dieOfPa, bitsOf, Bool.or_eq_false_iff, Bool.and_eq_false_iff, beq_eq_false_iff_ne] at hl
  rw [hbmTag] at ht hl
  omega

theorem records_posted (h : DieLost die s s' ts) : ∀ t ∈ s.teams, t.resident = true → t.die = die → ∃ p ∈ s'.posts, p.record =
    RecordFields.image { RecordFields.zero with
      seq := 0xFFFFFFFF, tag := t.pc.toNat, bay := t.bay, ctx := t.ctx, cmd := 0xB, cause := 0x0C, dst := t.curObj * 2 ^ 48 } := by
  intro t ht hr hd
  obtain ⟨u, hu, hs⟩ := h.mem_lost (x := t.standing) (List.mem_map_of_mem ht) hr hd
  obtain ⟨p, hp, hi⟩ := h.posts u hu
  exact ⟨p, hp, by rw [hi, hs]; rfl⟩

end DieLost

/-! ### Bays by their number -/

/-- The bay of a number after an update of bays that keeps their numbers. -/
theorem find_bay_map {f : Bay → Bay} (hf : ∀ b, (f b).num = b.num) (bs : List Bay) (n : Nat) :
    (bs.map f).find? (fun b => b.num == n) = (bs.find? fun b => b.num == n).map f := by
  rw [List.find?_map]
  congr 2
  funext b
  simp [hf]

theorem State.bay?_mapBay (s : State) (n : Nat) (f : Bay → Bay) (hf : ∀ b, (f b).num = b.num) (m : Nat) :
    (s.mapBay n f).bay? m = (s.bay? m).map fun b => if b.num == n then f b else b :=
  find_bay_map (fun b => by split <;> simp [hf]) s.bays m

theorem State.num_of_bay? {s : State} {n : Nat} {b : Bay} (h : s.bay? n = some b) : b.num = n := by
  simpa using List.find?_some h

theorem State.bay?_mapBay_self {s : State} {n : Nat} {b : Bay} (h : s.bay? n = some b) (f : Bay → Bay) (hf : ∀ b, (f b).num = b.num) :
    (s.mapBay n f).bay? n = some (f b) := by
  rw [s.bay?_mapBay n f hf, h, Option.map_some, if_pos (by simp [State.num_of_bay? h])]

theorem State.die?_mapDie_self (s : State) (n : Nat) (f : Die → Die) (hf : ∀ d, (f d).num = d.num) : (s.mapDie n f).die? n = (s.die? n).map f := by
  have hnum : ((fun d : Die => d.num == n) ∘ fun d => if d.num == n then f d else d) = fun d => d.num == n := by
    funext d
    by_cases h : d.num = n <;> simp [h, hf]
  show (s.dies.map fun d => if d.num == n then f d else d).find? _ = _
  rw [List.find?_map, hnum]
  unfold State.die?
  cases h : s.dies.find? fun d => d.num == n with
  | none => rfl
  | some d => rw [Option.map_some, Option.map_some, if_pos (List.find?_some h)]

/-! ### Repairs of bays -/

theorem State.bay?_chooseRetire {s : State} {n : Nat} {b : Bay} (h : s.bay? n = some b) :
    (s.chooseRetire n).bay? n = some { b with retiring := true } :=
  State.bay?_mapBay_self h (fun b => { b with retiring := true }) fun _ => rfl

/-- What the choice of bays to retire, and of their spares, leaves as it was (R18, R19). -/
structure Choosing (s s' : State) : Prop where
  mgmt : s'.mgmt = s.mgmt
  leaving : ∀ n, Leaving s n → Leaving s' n
  bay : ∀ n b, s.bay? n = some b → ∃ b', s'.bay? n = some b' ∧ b'.quads = b.quads ∧ b'.presented = b.presented ∧ b'.inService = b.inService ∧
    (b.retiring = true → b'.retiring = true)

namespace Choosing

theorem refl (s : State) : Choosing s s := ⟨rfl, fun _ h => h, fun _ b h => ⟨b, h, rfl, rfl, rfl, id⟩⟩

theorem trans {s t u : State} (h : Choosing s t) (h' : Choosing t u) : Choosing s u := by
  refine ⟨h'.mgmt.trans h.mgmt, fun n hn => h'.leaving n (h.leaving n hn), fun n b hb => ?_⟩
  obtain ⟨b1, hb1, hq1, hp1, hi1, hr1⟩ := h.bay n b hb
  obtain ⟨b2, hb2, hq2, hp2, hi2, hr2⟩ := h'.bay n b1 hb1
  exact ⟨b2, hb2, hq2.trans hq1, hp2.trans hp1, hi2.trans hi1, hr2 ∘ hr1⟩

theorem foldl {α : Type} {f : State → α → State} (h : ∀ s x, Choosing s (f s x)) (l : List α) (s : State) : Choosing s (l.foldl f s) := by
  induction l generalizing s with
  | nil => exact refl s
  | cons x l ih => exact (h s x).trans (ih _)

end Choosing

/-- Every team resident on the bay is asked to leave it (R19, R386). -/
theorem leaving_preempt (s : State) (bay n : Nat) (h : Leaving s n ∨ n = bay) :
    Leaving { s with teams := s.teams.map fun t => if t.resident && t.bays.contains bay then { t with preempt := true } else t } n := by
  intro t ht hr hn
  obtain ⟨u, hu, rfl⟩ := List.mem_map.1 ht
  by_cases hc : (u.resident && u.bays.contains bay) = true
  · rw [if_pos hc]
  · rw [if_neg hc] at hr hn ⊢
    rcases h with h | rfl
    · exact h u hu hr hn
    · exact absurd (by simpa [hr] using hn) hc

theorem State.mapBay_choosing (s : State) (n : Nat) (f : Bay → Bay)
    (hf : ∀ b, (f b).num = b.num ∧ (f b).quads = b.quads ∧ (f b).presented = b.presented ∧ (f b).inService = b.inService ∧
      (b.retiring = true → (f b).retiring = true)) : Choosing s (s.mapBay n f) := by
  refine ⟨rfl, fun _ h => h, fun m b hb => ⟨_, by rw [s.bay?_mapBay n f fun b => (hf b).1, hb]; rfl, ?_⟩⟩
  dsimp only
  split
  · exact (hf b).2
  · exact ⟨rfl, rfl, rfl, id⟩

theorem State.chooseRetire_choosing (s : State) (n : Nat) : Choosing s (s.chooseRetire n) :=
  .trans (t := s.mapBay n fun b => { b with retiring := true }) (s.mapBay_choosing n _ fun _ => ⟨rfl, rfl, rfl, rfl, fun _ => rfl⟩)
    ⟨rfl, fun m h => leaving_preempt _ n m (.inl h), fun _ b h => ⟨b, h, rfl, rfl, rfl, id⟩⟩

theorem State.assignSpares_choosing (s : State) (die : Nat) : Choosing s (s.assignSpares die) := by
  refine .foldl (fun s (x : Nat × Nat) => .trans ?_ (State.chooseRetire_choosing _ x.1)) _ s
  exact s.mapBay_choosing x.1 _ fun _ => ⟨rfl, rfl, rfl, rfl, id⟩

theorem State.setQuads_eq {s : State} {n : Nat} {b : Bay} (h : s.bay? n = some b) (q : Nat) :
    s.setQuads n q = (s.mapDie (dieOfBay n) fun d => { d with stops := d.stops.set b.stop q }).mapBay n fun b => { b with quads := q } := by
  unfold State.setQuads
  rw [h]

theorem State.bay?_settleBays (s : State) (n : Nat) :
    s.settleBays.bay? n = (s.bay? n).map fun b => if (s.onBay b.num).isEmpty then { b with presented := classOfQuads b.quads } else b :=
  find_bay_map (fun b => by split <;> rfl) s.bays n

/-- The bay with its stop's quadrants counted anew (R140). -/
theorem State.bay?_setQuads {s : State} {n : Nat} {b : Bay} (h : s.bay? n = some b) (q : Nat) :
    ∃ b', (s.setQuads n q).settleBays.bay? n = some b' ∧ b'.quads = q ∧ b'.inService = b.inService ∧ b'.spare = b.spare ∧
      (s.onBay n = [] → b'.presented = quadClass q) := by
  have hb : (s.setQuads n q).bay? n = some { b with quads := q } := by
    rw [State.setQuads_eq h]
    exact State.bay?_mapBay_self (s := s.mapDie _ _) h _ fun _ => rfl
  have ho : (s.setQuads n q).onBay n = s.onBay n := by rw [State.setQuads_eq h]; rfl
  rw [State.bay?_settleBays, hb, Option.map_some]
  refine ⟨_, rfl, ?_⟩
  dsimp only
  rw [State.num_of_bay? h, ho]
  split
  · exact ⟨rfl, rfl, rfl, fun _ => rfl⟩
  · next he => exact ⟨rfl, rfl, rfl, fun hn => absurd (List.isEmpty_iff.2 hn) he⟩

theorem State.setQuads_mgmt (s : State) (n q : Nat) : (s.setQuads n q).mgmt = s.mgmt := by
  unfold State.setQuads
  split <;> rfl

/-- A repair of a bay before its spares are assigned: residents leave, and with fewer than two quadrants it is to retire. -/
theorem State.repairBay_eq (s : State) (n q : Nat) : ∃ v, s.repairBay n q = (v.assignSpares (dieOfBay n)).logRepair n ∧
    Choosing (s.setQuads n q).settleBays v ∧ Leaving v n ∧ (q < 2 → v = (s.setQuads n q).settleBays.chooseRetire n) := by
  unfold State.repairBay
  extract_lets u v
  refine ⟨v, rfl, ?_, ?_, fun hq => if_pos hq⟩ <;> unfold v <;> split
  · exact u.chooseRetire_choosing n
  · exact ⟨rfl, fun m h => leaving_preempt _ n m (.inl h), fun _ b h => ⟨b, h, rfl, rfl, rfl, id⟩⟩
  · exact leaving_preempt _ n n (.inr rfl)
  · exact leaving_preempt _ n n (.inr rfl)

theorem State.logRepair_eq {s : State} {n : Nat} {b : Bay} (h : s.bay? n = some b) : s.logRepair n = s.logEvent 5 (dieOfBay n) (some b.stop) := by
  unfold State.logRepair
  rw [h]

/-- R18, R19, R140, R436: a repair of a bay. -/
theorem State.repairBay_repaired {s : State} {n : Nat} {b : Bay} (h : s.bay? n = some b) (q : Nat) :
    ∃ b', (s.repairBay n q).bay? n = some b' ∧ b'.quads = q ∧ b'.inService = b.inService ∧ (q < 2 → b'.retiring = true) ∧
      (s.onBay n = [] → b'.presented = quadClass q) ∧ Leaving (s.repairBay n q) n ∧ LoggedEvent s (s.repairBay n q) 5 (n / 48 % 16) := by
  obtain ⟨b1, hb1, hq1, hi1, -, hp1⟩ := State.bay?_setQuads h q
  obtain ⟨v, he, hv, hl, hr⟩ := s.repairBay_eq n q
  obtain ⟨b2, hb2, hq2, hp2, hi2, -⟩ := hv.bay n b1 hb1
  have hr2 : q < 2 → b2.retiring = true := fun hq => by
    have hb : v.bay? n = some { b1 with retiring := true } := by
      rw [hr hq]
      exact State.bay?_chooseRetire hb1
    rw [hb] at hb2
    cases hb2
    rfl
  have hc := v.assignSpares_choosing (dieOfBay n)
  obtain ⟨b3, hb3, hq3, hp3, hi3, hr3⟩ := hc.bay n b2 hb2
  obtain ⟨m, tick, hm, -⟩ := (v.assignSpares (dieOfBay n)).logEvent_eq 5 (dieOfBay n) (some b3.stop)
  have hs : s.repairBay n q = (v.assignSpares (dieOfBay n)).logEvent 5 (dieOfBay n) (some b3.stop) := he.trans (State.logRepair_eq hb3)
  have hg : (v.assignSpares (dieOfBay n)).mgmt = s.mgmt := hc.mgmt.trans (hv.mgmt.trans (s.setQuads_mgmt n q))
  refine ⟨b3, ?_, by rw [hq3, hq2, hq1], by rw [hi3, hi2, hi1], hr3 ∘ hr2, fun ho => by rw [hp3, hp2, hp1 ho], ?_, ?_⟩
  · rw [hs, hm]
    exact hb3
  · rw [hs, hm]
    exact hc.leaving n hl
  · rw [hs]
    exact loggedEvent_congr (loggedEvent_logEvent _ 5 (dieOfBay n) _) (by rw [hg]) (by rw [hg]) (by rw [hg]) rfl

/-! ### The spare of a failed bay (R18) -/

/-- The bays of a die by their numbers. -/
theorem range_die_nodup (die : Nat) : ((List.range 48).map fun i => die * 48 + i).Nodup :=
  List.nodup_range.map fun _ _ h => Nat.add_left_cancel h

theorem filterMap_one {l : List Nat} (hl : l.Nodup) {n : Nat} (hn : n ∈ l) : (l.filterMap fun m => if m = n then some n else none) = [n] := by
  have h : (l.filterMap fun m => if m = n then some n else none) = l.filter fun m => m == n := by
    rw [← List.filterMap_eq_filter]
    congr 1
    funext m
    by_cases hm : m = n <;> simp [Option.guard, hm]
  rw [h, List.filter_beq, List.count_eq_one_of_mem hl hn]
  rfl

section
variable {s : State} {n : Nat} {b : Bay} (h : s.bay? n = some b) (hi : b.inService = true) (hs : b.spare = none) (alone : NoOtherWants s n)
include h hi hs alone

/-- Where no other bay of the die wants a spare, a choice among its bays takes bay `n` or none. -/
theorem State.filter_bay?_alone {f : Nat → Bool} (hf : ∀ q, f q = true → q < 4) {m : Nat} (hd : m / 48 = n / 48) :
    ((s.bay? m).filter fun b => b.inService && b.spare.isNone && f b.quads).map (·.num) =
      if m = n then (if f b.quads then some n else none) else none := by
  split
  · next hm =>
    rw [hm, h, Option.filter_some]
    simp [hi, hs, State.num_of_bay? h]
  · next hm =>
    cases hc : s.bay? m with
    | none => rfl
    | some c =>
      rw [Option.filter_some, if_neg]
      · rfl
      · intro hall
        simp only [Bool.and_eq_true, Option.isNone_iff_eq_none] at hall
        obtain ⟨⟨hci, hcs⟩, hcf⟩ := hall
        rcases alone m c hm hd hc with hw | hw | hw
        · simp [hw] at hci
        · exact hw hcs
        · exact absurd (hf _ hcf) (Nat.not_lt.2 hw)

theorem State.pick_alone (f : Nat → Bool) (hf : ∀ q, f q = true → q < 4) :
    (((((List.range 48).map fun i => n / 48 * 48 + i).filterMap s.bay?).filter fun b => b.inService && b.spare.isNone && f b.quads).map (·.num)) =
      if f b.quads then [n] else [] := by
  have hm : n ∈ (List.range 48).map fun i => n / 48 * 48 + i := List.mem_map.2 ⟨n % 48, List.mem_range.2 (by omega), by omega⟩
  have hdie : ∀ m ∈ (List.range 48).map fun i => n / 48 * 48 + i, m / 48 = n / 48 := fun m hm => by
    obtain ⟨i, hi, rfl⟩ := List.mem_map.1 hm
    have := List.mem_range.1 hi
    omega
  rw [List.filter_filterMap, List.map_filterMap, List.filterMap_congr fun m hm => State.filter_bay?_alone h hi hs alone hf (hdie m hm)]
  by_cases hfb : f b.quads = true
  · simp only [if_pos hfb]
    exact filterMap_one (range_die_nodup _) hm
  · simp [hfb]

/-- A bay with fewer than two quadrants gets the next spare where no other bay of the die wants one. -/
theorem State.needSpares_alone (hq : b.quads < 2) : s.needSpares (n / 48) = [n] := by
  have pick := State.pick_alone h hi hs alone
  unfold State.needSpares
  dsimp only
  rw [pick (fun q => decide (q < 2)) fun q h => by simp at h; omega, pick (· == 2) fun q h => by simp at h; omega,
    pick (· == 3) fun q h => by simp at h; omega]
  simp only [beq_iff_eq, decide_eq_true_eq, if_pos hq, if_neg (show b.quads ≠ 2 by omega), if_neg (show b.quads ≠ 3 by omega), List.append_nil]

end

/-- What a repair of bay `n` leaves of a bay before spares are assigned: where it stands, the spare it has and whether it is in service. -/
structure KeepsSlot (n : Nat) (x y : Bay) : Prop where
  num : y.num = x.num
  stop : y.stop = x.stop
  spare : y.spare = x.spare
  service : y.inService = x.inService
  quads : x.num ≠ n → y.quads = x.quads

theorem KeepsSlot.trans {n : Nat} {x y z : Bay} (h : KeepsSlot n x y) (h' : KeepsSlot n y z) : KeepsSlot n x z :=
  ⟨h'.num.trans h.num, h'.stop.trans h.stop, h'.spare.trans h.spare, h'.service.trans h.service,
    fun hx => (h'.quads (h.num ▸ hx)).trans (h.quads hx)⟩

/-- The bays before and after, bay by bay. -/
def KeepsSlots (n : Nat) (s s' : State) : Prop := ∃ g : Bay → Bay, s'.bays = s.bays.map g ∧ ∀ x, KeepsSlot n x (g x)

theorem KeepsSlots.trans {n : Nat} {s t u : State} (h : KeepsSlots n s t) (h' : KeepsSlots n t u) : KeepsSlots n s u := by
  obtain ⟨g, hg, hx⟩ := h
  obtain ⟨g', hg', hx'⟩ := h'
  exact ⟨g' ∘ g, by rw [hg', hg, List.map_map], fun x => (hx x).trans (hx' _)⟩

theorem State.mapBay_keepsSlots (s : State) (n : Nat) (f : Bay → Bay)
    (hf : ∀ b, (f b).num = b.num ∧ (f b).stop = b.stop ∧ (f b).spare = b.spare ∧ (f b).inService = b.inService) : KeepsSlots n s (s.mapBay n f) := by
  refine ⟨_, rfl, fun x => ?_⟩
  split
  · next hx =>
    obtain ⟨h1, h2, h3, h4⟩ := hf x
    exact ⟨h1, h2, h3, h4, fun hn => absurd (beq_iff_eq.1 hx) hn⟩
  · exact ⟨rfl, rfl, rfl, rfl, fun _ => rfl⟩

theorem State.settleBays_keepsSlots (s : State) (n : Nat) : KeepsSlots n s s.settleBays :=
  ⟨_, rfl, fun x => by split <;> exact ⟨rfl, rfl, rfl, rfl, fun _ => rfl⟩⟩

theorem State.repair_keepsSlots {s : State} {n : Nat} {b : Bay} (h : s.bay? n = some b) (q : Nat) :
    KeepsSlots n s ((s.setQuads n q).settleBays.chooseRetire n) := by
  have hq : KeepsSlots n s (s.setQuads n q) := by
    rw [State.setQuads_eq h]
    exact State.mapBay_keepsSlots (s.mapDie _ _) n (fun b => { b with quads := q }) fun _ => ⟨rfl, rfl, rfl, rfl⟩
  have hr (t : State) : KeepsSlots n t (t.chooseRetire n) := t.mapBay_keepsSlots n (fun b => { b with retiring := true }) fun _ => ⟨rfl, rfl, rfl, rfl⟩
  exact hq.trans ((State.settleBays_keepsSlots _ n).trans (hr _))

theorem KeepsSlots.noOtherWants {n : Nat} {s s' : State} (h : KeepsSlots n s s') (alone : NoOtherWants s n) : NoOtherWants s' n := by
  obtain ⟨g, hg, hx⟩ := h
  intro m b hm hd hb
  have hbm : s'.bay? m = (s.bay? m).map g := by
    unfold State.bay?
    rw [hg]
    exact find_bay_map (fun b => (hx b).num) _ _
  rw [hbm] at hb
  obtain ⟨c, hc, rfl⟩ := Option.map_eq_some_iff.1 hb
  rw [(hx c).service, (hx c).spare, (hx c).quads (by rw [State.num_of_bay? hc]; exact hm)]
  exact alone m c hm hd hc

/-- A repaired bay's stop stays in use, so the free spares are as they were. -/
theorem State.freeSpares_repair {s : State} {n : Nat} {b : Bay} (h : s.bay? n = some b) (q : Nat) :
    ((s.setQuads n q).settleBays.chooseRetire n).freeSpares (n / 48) = s.freeSpares (n / 48) := by
  obtain ⟨g, hg, hb⟩ := State.repair_keepsSlots h q
  have hdie : ((s.setQuads n q).settleBays.chooseRetire n).die? (n / 48) =
      (s.die? (n / 48)).map fun d => { d with stops := d.stops.set b.stop q } := by
    have hd : ((s.setQuads n q).settleBays.chooseRetire n).dies = (s.setQuads n q).dies := rfl
    rw [State.setQuads_eq h] at hd ⊢
    exact (congrArg (List.find? fun d => d.num == n / 48) hd).trans
      (s.die?_mapDie_self (n / 48) (fun d => { d with stops := d.stops.set b.stop q }) fun _ => rfl)
  have hmine : ((s.setQuads n q).settleBays.chooseRetire n).bays.filter (fun b => dieOfBay b.num == n / 48) =
      (s.bays.filter fun b => dieOfBay b.num == n / 48).map g := by
    rw [hg, List.filter_map]
    congr 2
    funext x
    simp [(hb x).num]
  have hmem : b ∈ s.bays.filter fun b => dieOfBay b.num == n / 48 :=
    List.mem_filter.2 ⟨List.mem_of_find?_eq_some h, by simp [dieOfBay, State.num_of_bay? h]⟩
  have hstops (l : List Bay) : (l.map g).map (·.stop) = l.map (·.stop) := by
    rw [List.map_map]
    exact List.map_congr_left fun x _ => (hb x).stop
  have hspares (l : List Bay) : (l.map g).filterMap (·.spare) = l.filterMap (·.spare) := by
    rw [List.filterMap_map]
    exact List.filterMap_congr fun x _ => (hb x).spare
  unfold State.freeSpares
  dsimp only
  rw [hdie, hmine, hstops, hspares]
  cases s.die? (n / 48) with
  | none => rfl
  | some d =>
    dsimp only [Option.map_some]
    rw [List.length_set]
    refine List.filter_congr fun i _ => ?_
    by_cases hi : b.stop = i
    · have hu : i ∈ (s.bays.filter fun b => dieOfBay b.num == n / 48).map (·.stop) := List.mem_map.2 ⟨b, hmem, hi⟩
      simp [hu]
    · simp [List.getD_eq_getElem?_getD, List.getElem?_set_ne hi]

/-- R18: the failed bay gets the lowest free spare of its die where no other bay wants one. -/
theorem State.repairBay_spare {s : State} {n : Nat} {b : Bay} (h : s.bay? n = some b) (hi : b.inService = true) (hs : b.spare = none) {q : Nat} (hq : q < 2)
    (alone : NoOtherWants s n) {stop : Nat} {rest : List Nat} (hf : s.freeSpares (n / 48) = stop :: rest) :
    ∃ b', (s.repairBay n q).bay? n = some b' ∧ b'.spare = some stop := by
  obtain ⟨v, he, -, -, hv⟩ := s.repairBay_eq n q
  have hv := hv hq
  obtain ⟨b1, hb1, hq1, hi1, hs1, -⟩ := State.bay?_setQuads h q
  have hb2 : v.bay? n = some { b1 with retiring := true } := by
    rw [hv]
    exact State.bay?_chooseRetire hb1
  have hneed : v.needSpares (n / 48) = [n] :=
    State.needSpares_alone hb2 (hi1.trans hi) (hs1.trans hs) (hv ▸ (State.repair_keepsSlots h q).noOtherWants alone) (by rw [← hq1] at hq; exact hq)
  have hassign : v.assignSpares (dieOfBay n) = (v.mapBay n fun b => { b with spare := some stop }).chooseRetire n := by
    unfold State.assignSpares
    rw [show dieOfBay n = n / 48 from rfl, hneed, hv, State.freeSpares_repair h, hf]
    rfl
  have hb3 : (v.assignSpares (dieOfBay n)).bay? n = some { b1 with retiring := true, spare := some stop } := by
    rw [hassign]
    exact State.bay?_chooseRetire (State.bay?_mapBay_self hb2 (fun b => { b with spare := some stop }) fun _ => rfl)
  obtain ⟨m, tick, hm, -⟩ := (v.assignSpares (dieOfBay n)).logEvent_eq 5 (dieOfBay n) (some b1.stop)
  refine ⟨{ b1 with retiring := true, spare := some stop }, ?_, rfl⟩
  rw [he, State.logRepair_eq hb3, hm]
  exact hb3

end Sys2Proof.Machine
end

section
/-! The events of monitors, repairs and losses (R18 to R20, R140, R436 to R438), which settle O57. -/

namespace Sys2Proof.Machine

open Sys2Proof.Spec

/-! ### The events by name -/

theorem exec_monitorReport (e : HealthEntry) (s : State) : exec (.monitorReport e) s = .next (s.logHealth e) := rfl

theorem exec_thresholdCrossing (e : HealthEntry) (u : RepairUnit) (s : State) : exec (.thresholdCrossing e u) s = execThresholdCrossing e u s := rfl

theorem exec_bayRetirement (n : Nat) (s : State) : exec (.bayRetirement n) s = execBayRetirement n s := rfl

theorem exec_dieEdgeFailure (edge : Nat) (s : State) : exec (.dieEdgeFailure edge) s = execDieEdgeFailure edge s := rfl

theorem exec_laneSpareSwitch (link lane : Nat) (s : State) : exec (.laneSpareSwitch link lane) s = .next ((s.failLane link lane).getD s) := rfl

theorem exec_dieDegradeOut (die : Nat) (s : State) : exec (.dieDegradeOut die) s = .next (if s.dieUp die = true then s.loseDie die else s) := by
  show execDieDegradeOut die s = _
  unfold execDieDegradeOut
  split
  · next h => exact runEvent_some (if_pos h)
  · next h => exact runEvent_none (if_neg h)

/-! ### What a crossing is a reading of (R436, R437) -/

theorem readsStop_iff (s : State) (e : HealthEntry) (n : Nat) :
    ((e.kind == 0 || e.kind == 1) && e.site.toNat == dieOfBay n && (s.bay? n).any fun b => b.stop == e.unit.toNat) = true ↔
      e.kind.toNat < 2 ∧ e.site.toNat = n / 48 ∧ ∃ b, s.bay? n = some b ∧ b.stop = e.unit.toNat := by
  have hk : (e.kind = 0 ∨ e.kind = 1) ↔ e.kind.toNat < 2 := by bv_omega
  simp only [Bool.and_eq_true, Bool.or_eq_true, beq_iff_eq, Option.any_eq_true, hk, dieOfBay, and_assoc]

theorem hasRepair_iff (s : State) (e : HealthEntry) : hasRepair s e = true ↔ RepairedUnit s e := by
  have hk : (e.kind = 0 ∨ e.kind = 1) ↔ e.kind.toNat < 2 := by bv_omega
  unfold hasRepair RepairedUnit
  rw [← hk]
  split
  · next h =>
    have h3 : e.kind ≠ 3 := by rcases h with h | h <;> rw [h] <;> decide
    have h4 : e.kind ≠ 4 := by rcases h with h | h <;> rw [h] <;> decide
    simp only [h, h3, h4, true_and, false_and, or_false, List.any_eq_true, Bool.and_eq_true, beq_iff_eq, dieOfBay, and_assoc]
  · next h =>
    split
    · next h3 => simp [h3]
    · next h3 =>
      split
      · next h4 => simp [h4]
      · next h4 => simp only [h, h3, h4, false_and, or_false, Bool.false_eq_true]

theorem readBy_iff (u : RepairUnit) (s : State) (e : HealthEntry) : readBy u s e = true ↔ ReadingOf s e u := by
  cases u with
  | bay n => exact readsStop_iff s e n
  | quadrant n => exact readsStop_iff s e n
  | channel st ch => simp [readBy, ReadingOf, and_assoc]
  | lane l n => simp [readBy, ReadingOf, and_assoc]
  | failedTest n => simp [readBy, ReadingOf]
  | uncorrectable st ch => simp [readBy, ReadingOf]
  | none => simp [readBy, ReadingOf, ← hasRepair_iff]

/-- A quadrant of a bay in service is fused out (R140). -/
def State.fuseQuadrant (s : State) (n : Nat) : State :=
  match s.bay? n with
  | some b => if b.inService && decide (0 < b.quads) then s.repairBay n (b.quads - 1) else s
  | none => s

/-- The repair of a unit (R437). -/
def State.repairUnit (s : State) : RepairUnit → State
  | .bay n => s.failBay n
  | .failedTest n => s.failBay n
  | .uncorrectable st ch => s.failChannel st ch
  | .quadrant n => s.fuseQuadrant n
  | .channel st ch => s.failChannel st ch
  | .lane l n => (s.failLane l n).getD s
  | .none => s

/-- A reading that is not one of the unit crosses no threshold of it. -/
theorem crossing_of_not_reading {s : State} {e : HealthEntry} {u : RepairUnit} (h : ¬ReadingOf s e u) : exec (.thresholdCrossing e u) s = .next s := by
  have hr : readBy u s e = false := Bool.eq_false_iff.2 fun hr => h ((readBy_iff u s e).1 hr)
  rw [exec_thresholdCrossing, execThresholdCrossing]
  exact runEvent_none (by rw [hr]; rfl)

/-- A reading is logged, and its unit is repaired (R436, R437). -/
theorem crossing_of_reading {s : State} {e : HealthEntry} {u : RepairUnit} (h : ReadingOf s e u) (hu : Spec.RepairUnit.isReading u) :
    exec (.thresholdCrossing e u) s = .next ((s.logHealth e).repairUnit u) := by
  have hr := (readBy_iff u s e).2 h
  rw [exec_thresholdCrossing, execThresholdCrossing]
  refine runEvent_some ?_
  rw [hr]
  cases u with
  | failedTest n => exact absurd hu id
  | uncorrectable st ch => exact absurd hu id
  | _ => rfl

/-- A trigger that is no reading starts its repair, and logs none (R437). -/
theorem crossing_of_trigger {s : State} {e : HealthEntry} {u : RepairUnit} (hu : ¬Spec.RepairUnit.isReading u) (h : ReadingOf s e u) :
    exec (.thresholdCrossing e u) s = .next (s.repairUnit u) := by
  have hr := (readBy_iff u s e).2 h
  rw [exec_thresholdCrossing, execThresholdCrossing]
  refine runEvent_some ?_
  rw [hr]
  cases u with
  | failedTest n => rfl
  | uncorrectable st ch => rfl
  | _ => exact absurd trivial hu

/-! ### The repairs that a crossing starts -/

/-- A health entry is logged, and leaves teams, bays, dies and channels as they were. -/
theorem State.logHealth_frame (s : State) (e : HealthEntry) :
    Logged s (s.logHealth e) e ∧ (s.logHealth e).teams = s.teams ∧ (s.logHealth e).bays = s.bays ∧ (s.logHealth e).dies = s.dies ∧
      (s.logHealth e).health = s.health := by
  obtain ⟨m, hm, -⟩ := s.logHealth_eq e
  refine ⟨logged_logHealth s e, ?_⟩
  rw [hm]
  exact ⟨rfl, rfl, rfl, rfl⟩

theorem State.logHealth_bay? (s : State) (e : HealthEntry) (n : Nat) : (s.logHealth e).bay? n = s.bay? n := by
  obtain ⟨-, -, hb, -, -⟩ := s.logHealth_frame e
  unfold State.bay?
  rw [hb]

theorem State.failBay_idle {s : State} {n : Nat} {b : Bay} (h : s.bay? n = some b) (hb : b.inService = false ∨ b.quads = 0) : s.failBay n = s := by
  unfold State.failBay
  rw [h]
  exact if_neg (by rcases hb with hb | hb <;> simp [hb])

theorem State.failBay_repair {s : State} {n : Nat} {b : Bay} (h : s.bay? n = some b) (hi : b.inService = true) (hq : b.quads ≠ 0) :
    s.failBay n = s.repairBay n 0 := by
  unfold State.failBay
  rw [h]
  exact if_pos (by simp [hi, hq])

theorem State.fuseQuadrant_idle {s : State} {n : Nat} {b : Bay} (h : s.bay? n = some b) (hb : b.inService = false ∨ b.quads = 0) :
    s.fuseQuadrant n = s := by
  unfold State.fuseQuadrant
  rw [h]
  exact if_neg (by rcases hb with hb | hb <;> simp [hb])

theorem State.fuseQuadrant_repair {s : State} {n : Nat} {b : Bay} (h : s.bay? n = some b) (hi : b.inService = true) (hq : 0 < b.quads) :
    s.fuseQuadrant n = s.repairBay n (b.quads - 1) := by
  unfold State.fuseQuadrant
  rw [h]
  exact if_pos (by simp [hi, hq])

/-- R18, R19, R437: a failed bay retires, and its residents are to leave it. -/
theorem State.failBay_repaired {s : State} {n : Nat} {b : Bay} (h : s.bay? n = some b) (hi : b.inService = true) (hq : b.quads ≠ 0) :
    ∃ b', (s.failBay n).bay? n = some b' ∧ b'.quads = 0 ∧ b'.retiring = true ∧ b'.inService = true ∧ Leaving (s.failBay n) n ∧
      LoggedEvent s (s.failBay n) 5 (n / 48 % 16) ∧
      (∀ stop rest, NoOtherWants s n → b.spare = none → s.freeSpares (n / 48) = stop :: rest → b'.spare = some stop) := by
  rw [State.failBay_repair h hi hq]
  obtain ⟨b', hb', hq', hi', hr, -, hl, hlog⟩ := State.repairBay_repaired h 0
  refine ⟨b', hb', hq', hr (by decide), hi'.trans hi, hl, hlog, fun stop rest alone hs hf => ?_⟩
  obtain ⟨b2, hb2, hs2⟩ := State.repairBay_spare h hi hs (q := 0) (by decide) alone hf
  rw [hb'] at hb2
  cases hb2
  exact hs2

/-- The channel is marked retiring. -/
def State.markChannel (s : State) (st ch : Nat) : State := { s with health := s.health ++ [{ stack := st, ch := ch, retired := false }] }

/-- The first crossing of a channel (log 40). -/
theorem State.failChannel_new {s : State} {st ch : Nat} (hst : st < 8) (h : ∀ x ∈ s.health, ¬(x.stack = st ∧ x.ch = ch)) :
    (s.failChannel st ch).health = s.health ++ [{ stack := st, ch := ch, retired := false }] ∧ LoggedEvent s (s.failChannel st ch) 5 (st / 2) := by
  have hf : s.health.find? (fun x => x.stack == st && x.ch == ch) = none := List.find?_eq_none.2 fun x hx => by simpa using h x hx
  have he : s.failChannel st ch = (s.markChannel st ch).logEvent 5 (st / 2) (some (st * 32 + ch)) := by
    unfold State.failChannel
    rw [hf]
    rfl
  obtain ⟨m, tick, hm, -⟩ := (s.markChannel st ch).logEvent_eq 5 (st / 2) (some (st * 32 + ch))
  have hl := loggedEvent_logEvent (s.markChannel st ch) 5 (st / 2) (some (st * 32 + ch))
  rw [Nat.mod_eq_of_lt (show st / 2 < 2 ^ 4 by omega)] at hl
  rw [he]
  exact ⟨by rw [hm]; rfl, loggedEvent_congr hl rfl rfl rfl rfl⟩

/-- The second crossing of a channel (log 40). -/
theorem State.failChannel_again {s : State} {st ch : Nat} (h : ∃ x ∈ s.health, x.stack = st ∧ x.ch = ch) :
    s.failChannel st ch = { s with health := s.health.map fun x => if x.stack = st ∧ x.ch = ch then { x with retired := true } else x } := by
  obtain ⟨x, hx, hk⟩ := h
  have hf : (s.health.find? fun x => x.stack == st && x.ch == ch).isSome := List.find?_isSome.2 ⟨x, hx, by simpa using hk⟩
  obtain ⟨y, hy⟩ := Option.isSome_iff_exists.1 hf
  unfold State.failChannel
  rw [hy]
  simp only [Bool.and_eq_true, beq_iff_eq]

/-! ### The clauses -/

/-- R437: a crossing by a bay's reading. -/
theorem crossing_bay {s : State} {e : HealthEntry} {n : Nat} {b : Bay} (hr : ReadingOf s e (.bay n)) (h : s.bay? n = some b) :
    (b.inService = false ∨ b.quads = 0 → exec (.thresholdCrossing e (.bay n)) s = .next (s.logHealth e)) ∧
    (b.inService = true → b.quads ≠ 0 →
      ∃ s' b', exec (.thresholdCrossing e (.bay n)) s = .next s' ∧ s'.bay? n = some b' ∧ b'.quads = 0 ∧ b'.retiring = true ∧ b'.inService = true ∧
        Leaving s' n ∧ LoggedEvent (s.logHealth e) s' 5 (n / 48 % 16) ∧
        (∀ stop rest, NoOtherWants s n → b.spare = none → s.freeSpares (n / 48) = stop :: rest → b'.spare = some stop)) := by
  have h1 : (s.logHealth e).bay? n = some b := (s.logHealth_bay? e n).trans h
  refine ⟨fun hb => ?_, fun hi hq => ?_⟩
  · exact (crossing_of_reading hr trivial).trans (congrArg Host.Outcome.next (State.failBay_idle h1 hb))
  · obtain ⟨b', hb', hq', hr', hi', hl, hlog, hs⟩ := State.failBay_repaired h1 hi hq
    refine ⟨_, b', crossing_of_reading hr trivial, hb', hq', hr', hi', hl, hlog, fun stop rest alone => ?_⟩
    obtain ⟨m, hm, -⟩ := s.logHealth_eq e
    rw [hm] at hs
    exact hs stop rest alone

/-- R140, R437: a crossing by a quadrant's reading. -/
theorem crossing_quadrant {s : State} {e : HealthEntry} {n : Nat} {b : Bay} (hr : ReadingOf s e (.quadrant n)) (h : s.bay? n = some b) :
    (b.inService = false ∨ b.quads = 0 → exec (.thresholdCrossing e (.quadrant n)) s = .next (s.logHealth e)) ∧
    (b.inService = true → 0 < b.quads →
      ∃ s' b', exec (.thresholdCrossing e (.quadrant n)) s = .next s' ∧ s'.bay? n = some b' ∧ b'.quads = b.quads - 1 ∧ b'.inService = true ∧
        (b'.quads < 2 → b'.retiring = true) ∧ (s.onBay n = [] → b'.presented = quadClass b'.quads) ∧ Leaving s' n ∧
        LoggedEvent (s.logHealth e) s' 5 (n / 48 % 16)) := by
  have h1 : (s.logHealth e).bay? n = some b := (s.logHealth_bay? e n).trans h
  refine ⟨fun hb => ?_, fun hi hq => ?_⟩
  · exact (crossing_of_reading hr trivial).trans (congrArg Host.Outcome.next (State.fuseQuadrant_idle h1 hb))
  · obtain ⟨b', hb', hq', hi', hr', hp, hl, hlog⟩ := State.repairBay_repaired h1 (b.quads - 1)
    have ho : (s.logHealth e).onBay n = s.onBay n := by
      obtain ⟨m, hm, -⟩ := s.logHealth_eq e
      rw [hm]
      rfl
    have hx := (crossing_of_reading hr trivial).trans (congrArg Host.Outcome.next (State.fuseQuadrant_repair h1 hi hq))
    refine ⟨_, b', hx, hb', hq', hi'.trans hi, ?_, ?_, hl, hlog⟩
    · rw [hq']
      exact hr'
    · rw [hq', ← ho]
      exact hp

/-- R437, log 40: a crossing by a channel's reading. -/
theorem crossing_channel {s : State} {e : HealthEntry} {st ch : Nat} (hr : ReadingOf s e (.channel st ch)) :
    ((∀ h ∈ s.health, ¬(h.stack = st ∧ h.ch = ch)) →
      ∃ s', exec (.thresholdCrossing e (.channel st ch)) s = .next s' ∧ s'.health = s.health ++ [{ stack := st, ch := ch, retired := false }] ∧
        LoggedEvent (s.logHealth e) s' 5 (st / 2)) ∧
    ((∃ h ∈ s.health, h.stack = st ∧ h.ch = ch) → exec (.thresholdCrossing e (.channel st ch)) s = .next { s.logHealth e with
      health := s.health.map fun h => if h.stack = st ∧ h.ch = ch then { h with retired := true } else h }) := by
  obtain ⟨-, -, -, -, hh⟩ := s.logHealth_frame e
  have hx := crossing_of_reading hr trivial
  obtain ⟨-, hst, -, -⟩ := hr
  refine ⟨fun hn => ?_, fun ha => ?_⟩
  · obtain ⟨h1, h2⟩ := State.failChannel_new (s := s.logHealth e) hst (hh.symm ▸ hn)
    exact ⟨_, hx, hh ▸ h1, h2⟩
  · rw [hx, ← hh]
    exact congrArg Host.Outcome.next (State.failChannel_again (hh.symm ▸ ha))

/-- R437: a bay's failed test. -/
theorem crossing_failedTest {s : State} {e : HealthEntry} {n : Nat} {b : Bay} (h : s.bay? n = some b) :
    (b.inService = false ∨ b.quads = 0 → exec (.thresholdCrossing e (.failedTest n)) s = .next s) ∧
    (b.inService = true → b.quads ≠ 0 → ∃ s' b', exec (.thresholdCrossing e (.failedTest n)) s = .next s' ∧ s'.bay? n = some b' ∧ b'.quads = 0 ∧
      b'.retiring = true ∧ b'.inService = true ∧ Leaving s' n ∧ LoggedEvent s s' 5 (n / 48 % 16)) := by
  have hx : exec (.thresholdCrossing e (.failedTest n)) s = .next (s.failBay n) := crossing_of_trigger (u := .failedTest n) id trivial
  refine ⟨fun hb => hx.trans (congrArg Host.Outcome.next (State.failBay_idle h hb)), fun hi hq => ?_⟩
  obtain ⟨b', hb', hq', hr', hi', hl, hlog, -⟩ := State.failBay_repaired h hi hq
  exact ⟨_, b', hx, hb', hq', hr', hi', hl, hlog⟩

/-- R437: an uncorrectable error of a channel. -/
theorem crossing_uncorrectable {s : State} {e : HealthEntry} {st ch : Nat} (hst : st < 8) (hch : ch < 32)
    (h : ∀ x ∈ s.health, ¬(x.stack = st ∧ x.ch = ch)) :
    ∃ s', exec (.thresholdCrossing e (.uncorrectable st ch)) s = .next s' ∧
      s'.health = s.health ++ [{ stack := st, ch := ch, retired := false }] ∧ LoggedEvent s s' 5 (st / 2) := by
  obtain ⟨h1, h2⟩ := State.failChannel_new hst h
  exact ⟨_, crossing_of_trigger (u := .uncorrectable st ch) id ⟨hst, hch⟩, h1, h2⟩

/-- A bay that its last team has left (R18, R19). -/
def Left (s : State) (n : Nat) (b : Bay) : Prop := s.bay? n = some b ∧ b.retiring = true ∧ b.inService = true ∧ s.onBay n = []

theorem bayRetirement_idle {s : State} {n : Nat} (h : ∀ b, ¬Left s n b) : exec (.bayRetirement n) s = .next s := by
  rw [exec_bayRetirement, execBayRetirement]
  refine runEvent_none ?_
  cases hb : s.bay? n with
  | none => rfl
  | some b =>
    refine if_neg fun hl => h b ⟨hb, ?_⟩
    simpa [and_assoc] using hl

theorem bayRetirement_left {s : State} {n : Nat} {b : Bay} (h : Left s n b) : exec (.bayRetirement n) s = .next (s.retireBay b) := by
  obtain ⟨hb, hr, hi, ho⟩ := h
  rw [exec_bayRetirement, execBayRetirement]
  refine runEvent_some ?_
  rw [hb]
  exact if_pos (by simp [hr, hi, ho])

/-- R13, R18, log 51: the spare takes the retired bay's index. -/
theorem State.retireBay_spare {s : State} {n : Nat} {b : Bay} (h : s.bay? n = some b) {stop : Nat} (hs : b.spare = some stop) :
    (s.retireBay b).bay? n = some (freshBay n stop 4 true) ∧ (s.retireBay b).teams = s.teams := by
  have hn := State.num_of_bay? h
  unfold State.retireBay
  rw [hs]
  extract_lets die u v
  have hv : v.bay? n = some b := h
  have ht : v.teams = s.teams := rfl
  clear_value v
  rw [hn]
  exact ⟨(State.bay?_mapBay_self hv (fun b => freshBay b.num stop 4 true) fun _ => rfl).trans (by rw [hn]), ht⟩

theorem State.retireBay_none {s : State} {n : Nat} {b : Bay} (h : s.bay? n = some b) (hs : b.spare = none) :
    s.retireBay b = if (s.mapBay n fun b => { b with inService := false, retiring := false }).enabledBays (n / 48) < 40
      then (s.mapBay n fun b => { b with inService := false, retiring := false }).loseDie (n / 48)
      else s.mapBay n fun b => { b with inService := false, retiring := false } := by
  unfold State.retireBay
  rw [hs, State.num_of_bay? h]
  rfl

theorem bayRetirement_spare {s : State} {n : Nat} {b : Bay} (h : Left s n b) {stop : Nat} (hs : b.spare = some stop) :
    ∃ s' b', exec (.bayRetirement n) s = .next s' ∧ s'.bay? n = some b' ∧ b'.stop = stop ∧ b'.quads = 4 ∧
      b'.presented = 0 ∧ b'.inService = true ∧ b'.retiring = false ∧ b'.spare = none ∧ s'.teams = s.teams := by
  obtain ⟨hb, ht⟩ := State.retireBay_spare h.1 hs
  exact ⟨_, _, bayRetirement_left h, hb, rfl, rfl, rfl, rfl, rfl, rfl, ht⟩

/-- R18, R437: with no spare the index is vacant, and a die with fewer than 40 bays is lost. -/
theorem bayRetirement_none {s : State} {n : Nat} {b : Bay} (h : Left s n b) (hs : b.spare = none) :
    let out := s.mapBay n fun b => { b with inService := false, retiring := false }
    (40 ≤ out.enabledBays (n / 48) → exec (.bayRetirement n) s = .next out) ∧
    (out.enabledBays (n / 48) < 40 → out.dieUp (n / 48) = true → exec (.bayRetirement n) s = exec (.dieDegradeOut (n / 48)) out) := by
  intro out
  rw [bayRetirement_left h, State.retireBay_none h.1 hs, exec_dieDegradeOut]
  exact ⟨fun hc => by rw [if_neg (Nat.not_lt.2 hc)], fun hc hu => by rw [if_pos hc, if_pos hu]⟩

/-- R20, R438: the loss of a die. -/
theorem dieDegradeOut_lost {s : State} {die : Nat} (h : s.dieUp die = true) :
    ∃ s', exec (.dieDegradeOut die) s = .next s' ∧ s'.mgmt.state = 3 ∧ s'.dieUp die = false ∧ LoggedEvent s s' 5 (die % 16) ∧
      (∀ d, d ≠ die → s'.dieUp d = s.dieUp d) ∧ (∀ b ∈ s'.bays, b.num / 48 = die → b.inService = false) ∧
      (∀ t ∈ s'.teams, t.resident = true → t.die ≠ die) ∧ (∀ w ∈ s'.waypoints, w.die = die → w.valid = false) ∧
      (∀ c ∈ s'.mem, c.1 / 2 ^ 64 = hbmTag → c.1 / 2 ^ 37 % 4 ≠ die) ∧
      (∀ t ∈ s.teams, t.resident = true → t.die = die → ∃ p ∈ s'.posts, p.record =
        RecordFields.image { RecordFields.zero with
          seq := 0xFFFFFFFF, tag := t.pc.toNat, bay := t.bay, ctx := t.ctx, cmd := 0xB, cause := 0x0C, dst := t.curObj * 2 ^ 48 }) := by
  obtain ⟨ts, hl⟩ := s.loseDie_lost die
  exact ⟨_, by rw [exec_dieDegradeOut, if_pos h], hl.state, hl.dieUp_self, hl.logged, fun _ hd => hl.dieUp_other hd, hl.bays_out, hl.teams_gone,
    hl.waypoints_invalid, hl.frames_lost, hl.records_posted⟩

/-- R10, log 96: an edge that fails is out of service, which only the log shows. -/
theorem dieEdgeFailure_up {s : State} {edge : Nat} (h : s.edges.getD edge false = true) :
    ∃ s', exec (.dieEdgeFailure edge) s = .next s' ∧ s'.edges = s.edges.set edge false ∧ LoggedEvent s s' 5 (edge % 16) ∧
      State.SameMemory s s' ∧ s'.teams = s.teams := by
  obtain ⟨m, tick, hm, -⟩ := State.logEvent_eq { s with edges := s.edges.set edge false } 5 edge none
  refine ⟨{ s with edges := s.edges.set edge false }.logEvent 5 edge none, ?_, by rw [hm], ?_, ?_, by rw [hm]⟩
  · rw [exec_dieEdgeFailure, execDieEdgeFailure]
    exact runEvent_some (if_pos h)
  · exact loggedEvent_congr (loggedEvent_logEvent _ 5 edge none) rfl rfl rfl rfl
  · rw [hm]
    exact SameMemory.of_eq rfl rfl ⟨[], rfl⟩

theorem dieEdgeFailure_down {s : State} {edge : Nat} (h : s.edges.getD edge false = false) : exec (.dieEdgeFailure edge) s = .next s := by
  rw [exec_dieEdgeFailure, execDieEdgeFailure]
  exact runEvent_none (if_neg (by rw [h]; decide))

/-- Settles O57: a crossing is the log's entry and then its unit's repair; the loss of a die is told by the footing that its passes over
teams, waypoints and accesses keep. -/
theorem healthEvents : Obligations.HealthEvents := by
  unfold Obligations.HealthEvents
  intro s e
  obtain ⟨hlog, hteams, hbays, hdies, hhealth⟩ := s.logHealth_frame e
  refine ⟨⟨s.logHealth e, exec_monitorReport e s, hlog, hteams, hbays, hdies, hhealth, fun u => crossing_of_not_reading,
      fun h => crossing_of_reading h trivial, fun n b => crossing_bay, fun n b => crossing_quadrant, fun st ch => crossing_channel, fun link lane hr => ?_⟩,
    fun n b => crossing_failedTest, fun st ch => crossing_uncorrectable, fun n => ⟨bayRetirement_idle, fun b hl _ => ?_⟩,
    fun die => ⟨fun hd => ?_, dieDegradeOut_lost⟩, fun edge => ⟨dieEdgeFailure_down, dieEdgeFailure_up⟩⟩
  · exact (crossing_of_reading hr trivial).trans (exec_laneSpareSwitch link lane _).symm
  · exact ⟨fun stop => bayRetirement_spare hl, bayRetirement_none hl⟩
  · rw [exec_dieDegradeOut, hd]
    rfl

end Sys2Proof.Machine
end

section
/-! The bytes of helm and strand words (R29, R47): their round trip, and the words written out from the encodings. -/

namespace Sys2Proof.Laws.RoundTrip

/-- Every instruction's word, where it has one, decodes to it. -/
theorem statement_of (i : Instr) : Statement i :=
  Instr.casesOn (motive := Statement) i
    add sub and_ or_ xor shl shr sha mul mulh mulhu div divu rem remu min minu max maxu slt sltu clz popc bext bins addi andi ori xori slti shli shri
    shai fadd fsub fmul fdiv fsqrt fmin fmax fclass fcmpEq fcmpLt fcmpLe fcmpUn fcvtLP fcvtNP fcvtPL fcvtPN fcvtSD fcvtDS bEq bNe bLt bGe bLtu bGeu
    j call callr ret hloop ld st ldAcq stRel qPopr qPeek qOccCq qOccRq qJoin qMark shpGet shpTail rgClaim rgCommit rgWfill rgRelease rgEos rgAbort
    rgStat wpArrive wpExpect wpWait wpTest wpStat atAdd atAnd atOr atXor atMin atMax atMinu atMaxu atXchg atCas atRed fence fenceSc rbSurr rbClaim
    yield teamExit teamInfo join sysRd sysWr trap eret brk halt tlbInv tlbInvAll pgProbe li liHi lea lds sts fma fms fnma fnms qPush qPushEos
    qPushNop qSplit qWin qWinReg shpReq shpReqV shpSetCopy shpSetClr shpSetLd shpSetTail cpCopy cpGath cpScat cpFill cpScale cpColl cpDisp cpReplay
    cpReplayDiscard cpStat nestLaunch fork fmtSet rgInit wpInitAlloc wpInitReset wpInitFree segBindLd segBindNarrow pgMap callx lnkSet fenceMk lLd
    lLdg lGath lIcw lRgWfill lRgRelease lRgStat sSt sStg sScat sIcw sRgClaim sRgCommit sRgRelease sRgEos sRgAbort sRgStat vadd vsub vmul vmulh vmad
    vand vor vxor vshl vshr vsha vmin vmax vsel vmov vmovI vmovH vmovL vicmp vfadd vfsub vfmul vfma vfmin vfmax vfrcp vfrsq vfexp2 vflog2 vfcmp vcvt
    vcvtLong vpack vunpk vshuf vshufXor vshufRot vbcast vbcastY vred vscan vballot vkey mop cPsend mxGang mxLdb mxMma mxMmas mxGmma mxZero mxLdacc
    mxStacc mxRstep mxRsave mxRload xNop xSync xEnd xWparr xWpwait unassignedHelmWord unassignedStrandWord cqEntryStart cqEntryRetire eosPost
    markPost splitClose groupDeadlock engineHalt vectorEntry copyCommandStart copySectorComplete expertCountHalving copyCommandEnd collPhaseWaitEnd
    gangRendezvous matrixOpStart matrixOpComplete waypointArrival waiterRetest writeTokenTransfer fenceScGrant poolFill tlbPrefetch nestDispatch
    teamPlacement teamDeschedule teamResume preemptionRequest nodeSwapOut preemptionDeadline nestCompletion bayRetirement faultRecordPost mboxStatus
    mboxRetest mboxRouteSet mboxRouteGet mboxTeamEnd reldbWrite poolpushWrite fqconsWrite lqpriWrite dctbaseWrite secfgWrite registerWrite
    moduleReset hostCxlMemAccess cxlCacheSnoop peerRequest rhumbFlitReceive linkDown laneSpareSwitch linkRetrainComplete peerResponseTimeout
    monitorReport thresholdCrossing dieDegradeOut dieEdgeFailure thermalClockStep thermalStop accessPerformed contextDestruction doeSpdmRequest
    junctionCooling
/-! ### Bytes (R2) -/

/-- The number in the low bytes of a number's bytes. -/
theorem leNat_take_leBytes (k n v : Nat) (more : List Byte) (h : k ≤ n) : leNat ((leBytes n v ++ more).take k) = v % 2 ^ (8 * k) := by
  induction k generalizing n v with
  | zero => simp [leNat, Nat.mod_one]
  | succ k ih =>
    obtain ⟨n, rfl⟩ : ∃ m, n = m + 1 := ⟨n - 1, by omega⟩
    simp only [leBytes, List.cons_append, List.take_succ_cons, leNat, BitVec.toNat_ofNat, ih n (v / 256) (by omega)]
    rw [show 8 * (k + 1) = 8 + 8 * k by omega, Nat.pow_add, Nat.mod_mul]

theorem mod_two_pow_eq_bitsOf (w n : Nat) : w % 2 ^ (n + 1) = bitsOf w n 0 := by simp [bitsOf]

/-- The length of a helm word stands in its first unit (R29), and that of a strand word in its head (R47). -/
theorem helmBytes_low (w : Nat) : helmBytes (w % 2 ^ 32) = helmBytes w := by
  simp only [helmBytes, bitOf_eq, mod_two_pow_eq_bitsOf w 31, bitsOf_bitsOf w 31 0 0 0 (by decide)]

theorem strandBytes_low (w : Nat) : strandBytes (w % 2 ^ 48) = strandBytes w := by
  simp only [strandBytes, mod_two_pow_eq_bitsOf w 47, bitsOf_bitsOf w 47 0 11 6 (by decide)]

theorem helmBytes_le (w : Nat) : 4 ≤ helmBytes w := by unfold helmBytes; split <;> decide

theorem strandBytes_le (w : Nat) : 6 ≤ strandBytes w := by unfold strandBytes; split <;> decide

/-! ### Words at the head of bytes -/

theorem decodeHelm_word {i : Instr} {w : Nat} (more : List Byte) (hd : decodeHelmWord w = .ok i) (hw : w < 2 ^ (8 * helmBytes w)) :
    decodeHelm (leBytes (helmBytes w) w ++ more) = .ok (i, more) := by
  have hn : helmBytes (leNat ((leBytes (helmBytes w) w ++ more).take 4)) = helmBytes w := by
    rw [leNat_take_leBytes 4 _ w more (helmBytes_le w)]
    exact helmBytes_low w
  have hl : (leBytes (helmBytes w) w ++ more).length = helmBytes w + more.length := by simp [Machine.leBytes_length]
  have h4 := helmBytes_le w
  unfold decodeHelm
  simp only [hn, hl, leNat_take_leBytes _ _ w more (Nat.le_refl _), Nat.mod_eq_of_lt hw, hd]
  rw [if_neg (by omega), List.drop_left' (Machine.leBytes_length _ w)]
  rfl

theorem decodeStrand_word {i : Instr} {w : Nat} (more : List Byte) (hd : decodeStrandWord w = .ok i) (hw : w < 2 ^ (8 * strandBytes w)) :
    decodeStrand (leBytes (strandBytes w) w ++ more) = .ok (i, more) := by
  have hn : strandBytes (leNat ((leBytes (strandBytes w) w ++ more).take 6)) = strandBytes w := by
    rw [leNat_take_leBytes 6 _ w more (strandBytes_le w)]
    exact strandBytes_low w
  have hl : (leBytes (strandBytes w) w ++ more).length = strandBytes w + more.length := by simp [Machine.leBytes_length]
  have h6 := strandBytes_le w
  unfold decodeStrand
  simp only [hn, hl, leNat_take_leBytes _ _ w more (Nat.le_refl _), Nat.mod_eq_of_lt hw, hd]
  rw [if_neg (by omega), List.drop_left' (Machine.leBytes_length _ w)]
  rfl

/-! ### The bytes of an instruction -/

theorem encode_helm {i : Instr} {w : Nat} (h : helmWord i = some w) : encode i = leBytes (helmBytes w) w := by
  unfold encode
  rw [h]

/-- No instruction is both a helm word and a strand word. -/
theorem helmWord_none {i : Instr} {w : Nat} (h : strandWord i = some w) : helmWord i = none := by
  cases i <;> simp [helmWord, strandWord] at h ⊢

theorem encode_strand {i : Instr} {w : Nat} (h : strandWord i = some w) : encode i = leBytes (strandBytes w) w := by
  unfold encode
  rw [helmWord_none h, h]

/-- Settles O4: the word decodes as a number by its constructor's lemma, and its bytes hold that number. -/
theorem helmRoundTrip : Obligations.HelmRoundTrip := by
  unfold Obligations.HelmRoundTrip
  intro i w more hf hw
  obtain ⟨hd, hb⟩ := (statement_of i).1 w hf hw
  rw [encode_helm hw]
  exact decodeHelm_word more hd hb

/-- Settles O5, as O4. -/
theorem strandRoundTrip : Obligations.StrandRoundTrip := by
  unfold Obligations.StrandRoundTrip
  intro i w more hf hw
  obtain ⟨hd, hb⟩ := (statement_of i).2 w hf hw
  rw [encode_strand hw]
  exact decodeStrand_word more hd hb

/-- Settles O3: the decoder is run on the seven words. -/
theorem decodedWords : Obligations.DecodedWords := by
  unfold Obligations.DecodedWords
  exact ⟨rfl, rfl, rfl, rfl, rfl, rfl, rfl⟩

end Sys2Proof.Laws.RoundTrip
end

section
/-! The word that a step runs (R29, R44, R45, R55, R96, R155), which settles O2. -/

namespace Sys2Proof.Machine

/-! ### The move that a step makes -/

theorem step_of_run {s u : State} {i : Instr} (h : pickMove s = .run i u) : step s = exec i u := by
  unfold step
  rw [h]

theorem step_of_idle {s u : State} (h : pickMove s = .idle u) : step s = .next u := by
  unfold step
  rw [h]

theorem pickMove_agenda {s : State} {m : Move} {rest : List Move} (h : s.agenda = m :: rest) : pickMove s = pickWith m { s with agenda := rest } := by
  unfold pickMove
  rw [h]

theorem pickWith_helm {s : State} (h : s.mgmt.thermal = false) (bay ctx : Nat) : pickWith (.helm bay ctx) s = pickHelm bay ctx s := by
  unfold pickWith
  rw [h]
  rfl

theorem pickWith_engine {s : State} (h : s.mgmt.thermal = false) (team grp : Nat) (who : Eng) :
    pickWith (.engine team grp who) s = pickEngine team grp who s := by
  unfold pickWith
  rw [h]
  rfl

theorem pickWith_event {s : State} {i : Instr} (hw : isWord i = false) (h : s.mgmt.thermal = true → onBayClock i = false) :
    pickWith (.event i) s = .run i { s with cur := none } := by
  have hb : (s.mgmt.thermal && onBayClock i) = false := by
    cases ht : s.mgmt.thermal with
    | false => rfl
    | true => exact h ht
  simp only [pickWith, hb, hw, Bool.false_eq_true, if_false]

/-! ### The helm's word (R29, R44, R96) -/

/-- What the bytes of a helm word name: words that no instruction has are ILLEGAL (R44). -/
def helmInstr (bytes : List Byte) : Instr :=
  match decodeHelm bytes with
  | .ok (i, _) => i
  | .error _ => .unassignedHelmWord

/-- A helm's fetch decodes its text. -/
theorem fetchHelm_text {t : Team} {s s' : State} {bytes : List Byte} (h : HelmText t s bytes s') : fetchHelm t s = .ok (helmInstr bytes, s') := by
  obtain ⟨a, s1, ha, hb⟩ := h
  unfold fetchHelm helmInstr
  rw [M.bind_ok ha]
  obtain ⟨h0, rfl, rfl⟩ | ⟨h1, b, hb, rfl⟩ := hb
  · rw [h0, if_neg Bool.false_ne_true, M.bind_ok (M.pure_run [] s'), List.append_nil]
    cases decodeHelm bytes <;> rfl
  · rw [h1, if_pos rfl, M.bind_ok hb]
    cases decodeHelm (a ++ b) <;> rfl

/-- A helm context that is ready, at no watched word, runs what its text names. -/
theorem pickHelm_text {s s' : State} {t : Team} {bytes : List Byte} (hr : HelmReady s t)
    (ht : HelmText t { s with cur := some (.helm t.key) } bytes s') (hw : t.watchWord t.curObj t.pc.toNat = none) :
    pickHelm t.bay t.ctx s = .run (helmInstr bytes) s' := by
  obtain ⟨hat, hmay, hnode⟩ := hr
  unfold pickHelm
  simp only [hat, hnode, hmay, fetchHelm_text ht, hw, Bool.false_eq_true, if_false, if_true]

theorem step_helm_text {s s' : State} {rest : List Move} {t : Team} {bytes : List Byte} (ha : s.agenda = .helm t.bay t.ctx :: rest)
    (hth : s.mgmt.thermal = false) (hr : HelmReady { s with agenda := rest } t)
    (ht : HelmText t { s with agenda := rest, cur := some (.helm t.key) } bytes s') (hw : t.watchWord t.curObj t.pc.toNat = none) :
    step s = exec (helmInstr bytes) s' :=
  step_of_run ((pickMove_agenda ha).trans ((pickWith_helm (s := { s with agenda := rest }) hth _ _).trans (pickHelm_text hr ht hw)))

/-! ### The engine's word (R47, R55, R155) -/

theorem State.mapGroup_congr {s : State} {key grp : Nat} {f g : Group → Group} (h : ∀ x, x.num = grp → f x = g x) :
    s.mapGroup key grp f = s.mapGroup key grp g := by
  refine State.mapTeam_congr s key _ _ fun t _ _ => ?_
  congr 1
  refine List.map_congr_left fun x _ => ?_
  by_cases hk : (x.num == grp) = true
  · rw [if_pos hk, if_pos hk, h x (beq_iff_eq.1 hk)]
  · rw [if_neg hk, if_neg hk]

/-- The note that L and S leave at a word that may post, as the statements give it. -/
theorem State.passWord_eq (s : State) (t : Team) (g : Group) (who : Eng) (entry : CqEntry) (head : Nat) :
    s.passWord t.key g.num who entry head = s.mapGroup t.key g.num fun g => { (g.stirred.mapEng who fun e =>
      { e.pass (strandBytes head) with passed := if entry.view.service then e.passed else e.passed + 1 }) with
      passMarks := g.passMarks ++ passNote s t g who head } := by
  refine State.mapGroup_congr fun x hx => ?_
  rw [← hx]
  have hm : (mayPost head && engKind who != .c) = true ↔
      head % 4 = 1 ∧ (head / 64 % 64 = 0x28 ∨ head / 64 % 64 = 0x3F) ∧ engKind who ≠ .c := by
    simp [mayPost, bitsOf, and_assoc]
  simp only [passNote, hm]

/-- Where the engine's word begins, in a single step (R406). -/
theorem State.noteStep_eq (s : State) (t : Team) (g : Group) :
    (s.mapTeam t.key fun u => { u with stepBase := if u.phase == .stepping && u.stepBase.isNone then some (g, u.rq) else u.stepBase }) =
      s.noteStep t g :=
  State.mapTeam_congr s t.key _ _ fun u _ _ => by simp

theorem headAt_text {t : Team} {g : Group} {entry : CqEntry} {e : Engine} {s s' : State} {head : List Byte}
    (h : fetchText t g.bay entry.view e.off 6 s = .ok (head, s')) : headAt t g entry e s = .ok (leNat head, s') := by
  unfold headAt
  rw [M.bind_ok h]
  rfl

/-- The slip window does not hold an engine that is ready (R173). -/
theorem not_held {service slips : Bool} (h : (service || !slips) = true) (first : Bool) : (first && !service && slips) = false := by
  revert service slips first
  decide

section
variable {s s2 : State} {t : Team} {g : Group} {who : Eng} {entry : CqEntry} {head : List Byte}

/-- An engine passes a word of another engine's tag. -/
theorem pickEngine_foreign (hr : EngineReady s t g who entry) (hl : (g.eng who).off + 6 ≤ s.strandLimit t.dctx entry.view)
    (hh : fetchText t g.bay entry.view (g.eng who).off 6 (s.asEngine t g who) = .ok (head, s2)) (ho : leNat head % 4 ≠ ownTag who)
    (hx : leNat head % 4 ≠ 3) : pickEngine t.key g.num who s = .idle (s2.passWord t.key g.num who entry (leNat head)) := by
  obtain ⟨hteam, hgroup, hentry, hmay, hrun, hslip⟩ := hr
  have hslip' := not_held hslip
  have hhead := headAt_text hh
  unfold State.asEngine at hhead
  unfold pickEngine
  simp only [hteam, hgroup, hentry, hmay, hrun, hhead, Bool.not_true, Bool.and_false, Bool.false_and, Bool.and_true, hslip', Bool.false_eq_true, if_false,
    if_neg (Nat.not_lt.2 hl), bne_iff_ne, ho, hx, ne_eq, not_false_eq_true, and_true, if_true, Bool.and_eq_true]

/-- An engine at a word of its own tag, or an X word, that no watch names runs the instruction that the word's bytes decode to. -/
theorem pickEngine_own {s3 : State} {bytes : List Byte} {i : Instr} {more : List Byte} (hr : EngineReady s t g who entry)
    (hl : (g.eng who).off + 6 ≤ s.strandLimit t.dctx entry.view)
    (hh : fetchText t g.bay entry.view (g.eng who).off 6 (s.asEngine t g who) = .ok (head, s2))
    (ho : leNat head % 4 = ownTag who ∨ leNat head % 4 = 3) (hw : t.strandWatch (g.eng who) entry = none)
    (hlong : strandBytes (leNat head) = 12 → (g.eng who).off + 12 ≤ s.strandLimit t.dctx entry.view)
    (hb : fetchText t g.bay entry.view (g.eng who).off (strandBytes (leNat head)) (s.asEngine t g who) = .ok (bytes, s3))
    (hd : decodeStrand bytes = .ok (i, more)) : pickEngine t.key g.num who s = .run i (s3.noteStep t g) := by
  obtain ⟨hteam, hgroup, hentry, hmay, hrun, hslip⟩ := hr
  have hslip' := not_held hslip
  have hhead := headAt_text hh
  have hforeign : (leNat head % 4 != ownTag who && leNat head % 4 != 3) = false := by rcases ho with ho | ho <;> simp [ho]
  have hfits : (decide (strandBytes (leNat head) = 12) && decide ((g.eng who).off + 12 > s.strandLimit t.dctx entry.view)) = false := by
    simpa using hlong
  unfold State.asEngine at hhead hb
  unfold Team.strandWatch Engine.atWord at hw
  rw [← State.noteStep_eq]
  unfold pickEngine
  simp only [hteam, hgroup, hentry, hmay, hrun, hhead, hb, hd, hw, Bool.not_true, Bool.and_false, Bool.false_and, Bool.and_true, hslip', Bool.false_eq_true, if_false,
    if_neg (Nat.not_lt.2 hl), hforeign, hfits]
end

/-- Settles O2: a step makes the agenda's first move, which fetches the text of its agent and decodes it. -/
theorem stepRunsTheDecodedWord : Obligations.StepRunsTheDecodedWord := by
  unfold Obligations.StepRunsTheDecodedWord
  refine ⟨fun s rest t bytes s' ha hth hr ht hw => ?_, fun s rest t g who entry head s2 ha hth hr hl hh => ?_, fun s rest i ha hi hth => ?_⟩
  · have hstep := step_helm_text ha hth hr ht hw
    unfold helmInstr at hstep
    refine ⟨fun i more hd => ?_, fun e hd => ?_⟩
    · rw [hd] at hstep
      exact hstep
    · rw [hd] at hstep
      exact hstep
  · have hpick := (pickMove_agenda ha).trans (pickWith_engine (s := { s with agenda := rest }) hth t.key g.num who)
    refine ⟨fun ho hx => ?_, fun bytes s3 i more ho hw hlong hb hd => ?_⟩
    · rw [step_of_idle (hpick.trans (pickEngine_foreign hr hl hh ho hx)), State.passWord_eq]
    · exact step_of_run (hpick.trans (pickEngine_own hr hl hh ho hw hlong hb hd))
  · exact step_of_run ((pickMove_agenda ha).trans (pickWith_event hi hth))

end Sys2Proof.Machine
end

section
/-! Words that trap by their nature: `trap`, `brk` and words that are no instruction (R44, R398, R399, R402), which settle O24. -/

namespace Sys2Proof.Machine

open Sys2Proof.Spec

/-! ### What the words raise -/

/-- A helm word that only raises a trap, of a code other than ECC_UNCORR. -/
theorem runHelm_raise {s : State} {t : Team} (h : HelmTurn s t) (len code info : Nat) (hc : code ≠ cECC_UNCORR) :
    runHelm len (fun _ => raise code 0 info) s = .next (s.helmTrap t.key { plainCause code with info := info }) := by
  obtain ⟨hcur, hteam, hmay⟩ := h
  exact runHelm_trap hcur hteam hmay len rfl fun hl => hc hl.1

theorem exec_trap {s : State} {t : Team} (h : HelmTurn s t) (n : BitVec 8) :
    exec (.trap n) s = .next (s.helmTrap t.key { plainCause 0x0F with info := n.toNat }) := runHelm_raise h 4 cSVC n.toNat (by decide)

theorem exec_brk {s : State} {t : Team} (h : HelmTurn s t) (n : BitVec 8) :
    exec (.brk n) s = .next (s.helmTrap t.key { plainCause 0x0D with info := n.toNat }) := runHelm_raise h 4 cBREAK n.toNat (by decide)

theorem exec_unassignedHelmWord {s : State} {t : Team} (h : HelmTurn s t) :
    exec .unassignedHelmWord s = .next (s.helmTrap t.key { plainCause 0x01 with info := 0 }) := runHelm_raise h 4 cILLEGAL 0 (by decide)

/-! ### Outside a vector -/

theorem State.helmTrap_outside {s : State} {t : Team} (h : s.team? t.key = some t) (hv : t.inVector = false) (c : Cause) :
    s.helmTrap t.key c = s.freeze t.key c.helmTrap := by
  unfold State.helmTrap
  simp only [h, hv, Bool.false_eq_true, if_false]

/-- A team that runs, frozen by a trap (R178). -/
def Team.frozenBy (t : Team) (tr : Trap) : Team :=
  { t with phase := .freezing, trap := some tr, waitFor := none, granted := none, scWait := false, scGrant := false, marks := none, late := [] }

theorem State.freeze_running {s : State} {t : Team} (h : s.team? t.key = some t) (hp : t.phase = .running) (tr : Trap) :
    (s.freeze t.key tr).team? t.key = some (t.frozenBy tr) := by
  unfold State.freeze
  refine (State.team?_mapTeam_some (u := t) h _ fun u => ?_).trans ?_
  · dsimp only
    repeat' split
    all_goals rfl
  · simp [hp, Team.frozenBy]

/-- A trap outside a vector freezes its team, and changes nothing else. -/
theorem State.helmTrap_freezes {s : State} {t : Team} (h : s.team? t.key = some t) (hv : t.inVector = false) (hp : t.phase = .running) (c : Cause) :
    State.SameMemory s (s.helmTrap t.key c) ∧ State.SameOthers s (s.helmTrap t.key c) t.key ∧
      (s.helmTrap t.key c).team? t.key = some (t.frozenBy c.helmTrap) := by
  rw [State.helmTrap_outside h hv]
  exact ⟨SameMemory.of_eq (State.freeze_mem ..) (State.freeze_writes ..) ⟨[], State.freeze_entered ..⟩, fun j hj => State.freeze_other hj _,
    State.freeze_running h hp _⟩

/-! ### In a vector -/

theorem State.helmTrap_inside {s : State} {t : Team} (h : s.team? t.key = some t) (hv : t.inVector = true) (c : Cause) :
    s.helmTrap t.key c = s.double t.key c := by
  unfold State.helmTrap
  simp only [h, hv, if_true]

/-- The stop of a context by a DOUBLE. -/
def Team.doubled (t : Team) : Team := { t with phase := .stopped, waitFor := none, granted := none }

theorem State.post_posts (s : State) (p : Place) (r : RecordFields) :
    (s.post p r).posts = s.posts ++ [{ record := r.image, release := (s.drainParty p.party).releaseOf p 5 }] := rfl

@[simp] theorem State.answered_mem (s : State) (code : Nat) : (s.answered code).mem = s.mem := rfl
@[simp] theorem State.answered_posts (s : State) (code : Nat) : (s.answered code).posts = s.posts := rfl
@[simp] theorem State.unregister_mem (s : State) (f : Party → Bool) : (s.unregister f).mem = s.mem := rfl
@[simp] theorem State.unregister_posts (s : State) (f : Party → Bool) : (s.unregister f).posts = s.posts := rfl
@[simp] theorem State.leaveRings_mem (s : State) (key : Nat) : (s.leaveRings key).mem = s.mem := rfl
@[simp] theorem State.leaveRings_posts (s : State) (key : Nat) : (s.leaveRings key).posts = s.posts := rfl

/-- The machine with a context that a DOUBLE stops, before the record is posted (R398). -/
def State.doubling (s : State) (key code : Nat) : State :=
  (((s.answered code).unregister (· == .helm key)).leaveRings key).mapTeam key Team.doubled

theorem State.doubling_teams (s : State) (key code : Nat) : (s.doubling key code).teams = (s.mapTeam key Team.doubled).teams := rfl

theorem State.doubling_mem (s : State) (key code : Nat) : (s.doubling key code).mem = s.mem := by
  unfold State.doubling
  rw [State.mapTeam_mem, State.leaveRings_mem, State.unregister_mem, State.answered_mem]

theorem State.doubling_posts (s : State) (key code : Nat) : (s.doubling key code).posts = s.posts := by
  unfold State.doubling
  rw [State.mapTeam_posts, State.leaveRings_posts, State.unregister_posts, State.answered_posts]

/-- The DOUBLE of a helm word with no address posts the record of R399. -/
theorem State.double_eq {s : State} {t : Team} (h : s.team? t.key = some t) (code info : Nat) :
    s.double t.key { plainCause code with info := info } = (s.doubling t.key code).post t.place (doubleRecord t code) := by
  unfold State.double
  rw [h]
  exact congrArg ((s.doubling t.key code).post t.place) (by simp [doubleRecord, plainCause, RecordFields.zero, b2n, cDOUBLE])

/-- A trap in a vector stops the context and posts a DOUBLE record; registers and memory stand (R398, R399). -/
theorem State.helmTrap_doubles {s : State} {t : Team} (h : s.team? t.key = some t) (hv : t.inVector = true) (code info : Nat) :
    let s' := s.helmTrap t.key { plainCause code with info := info }
    ∃ p, s'.posts = s.posts ++ [p] ∧ p.record = (doubleRecord t code).image ∧ s'.mem = s.mem ∧ State.SameOthers s s' t.key ∧
      s'.team? t.key = some t.doubled := by
  intro s'
  have he : s' = (s.doubling t.key code).post t.place (doubleRecord t code) := (State.helmTrap_inside h hv _).trans (State.double_eq h code info)
  have hteam (j : Nat) : s'.team? j = (s.mapTeam t.key Team.doubled).team? j := by
    unfold State.team?
    rw [he, State.post_teams, State.doubling_teams]
  refine ⟨{ record := (doubleRecord t code).image, release := ((s.doubling t.key code).drainParty t.place.party).releaseOf t.place 5 }, ?_, rfl, ?_,
    fun j hj => ?_, ?_⟩
  · rw [he, State.post_posts, State.doubling_posts]
  · rw [he, State.post_mem, State.doubling_mem]
  · exact (hteam j).trans (State.team?_mapTeam_other s t.key j hj _ fun _ hu => hu)
  · exact (hteam t.key).trans (State.team?_mapTeam_some h _ fun _ => rfl)

/-- Settles O24: each word raises its trap, which freezes its team outside a vector and is a DOUBLE in one. -/
theorem trapsAndDoubles : Obligations.TrapsAndDoubles := by
  unfold Obligations.TrapsAndDoubles
  refine ⟨fun s t i n tr ht hv hp hi => ?_, fun s t i n code ht hv hi => ?_⟩
  · obtain ⟨-, hteam, -⟩ := id ht
    rcases hi with ⟨rfl, rfl⟩ | ⟨rfl, rfl⟩ | ⟨rfl, rfl⟩
    · exact ⟨_, exec_trap ht n, State.helmTrap_freezes hteam hv hp _⟩
    · exact ⟨_, exec_brk ht n, State.helmTrap_freezes hteam hv hp _⟩
    · exact ⟨_, exec_unassignedHelmWord ht, State.helmTrap_freezes hteam hv hp _⟩
  · obtain ⟨-, hteam, -⟩ := id ht
    have post {info : Nat} (h : exec i s = .next (s.helmTrap t.key { plainCause code with info := info })) :
        ∃ s' p, exec i s = .next s' ∧ s'.posts = s.posts ++ [p] ∧ p.record = (doubleRecord t code).image ∧ s'.mem = s.mem ∧
          State.SameOthers s s' t.key ∧ s'.team? t.key = some t.doubled := by
      obtain ⟨p, hp⟩ := State.helmTrap_doubles hteam hv code info
      exact ⟨_, p, h, hp⟩
    rcases hi with ⟨rfl, rfl⟩ | ⟨rfl, rfl⟩ | ⟨rfl, rfl⟩
    · exact post (exec_trap ht n)
    · exact post (exec_brk ht n)
    · exact post (exec_unassignedHelmWord ht)

end Sys2Proof.Machine
end

section
/-! Where an engine stands while a word of its own begins (R155, R172, R191), and how the runs of its words end. -/

namespace Sys2Proof.Machine

/-! ### The engine's turn -/

theorem Team.num_of_group? {t : Team} {n : Nat} {g : Group} (h : t.group? n = some g) : g.num = n := by
  have := List.find?_some h
  simpa using this

theorem engineOf_holds {s : State} {t : Team} {g : Group} {who : Eng} {entry : CqEntry} (h : engineOf s = some (t, g, who, entry)) :
    s.team? t.key = some t ∧ t.group? g.num = some g := by
  unfold engineOf at h
  split at h
  · simp only [Option.bind_eq_some_iff] at h
    obtain ⟨t', ht, g', hg, x, -, hx⟩ := h
    obtain ⟨-, rfl, rfl, -⟩ : _ ∧ t' = t ∧ g' = g ∧ _ := by simpa using hx
    exact ⟨(State.key_of_team? ht).symm ▸ ht, (Team.num_of_group? hg).symm ▸ hg⟩
  · cases h

section
variable {s s' : State} {l : Ln} {body : Ln → M Bool}

theorem EngineTurn.team (h : EngineTurn s l) : s.team? l.t.key = some l.t := by
  obtain ⟨t, g, who, entry, he, rfl⟩ := h
  exact (engineOf_holds he).1

theorem EngineTurn.group (h : EngineTurn s l) : l.t.group? l.g.num = some l.g := by
  obtain ⟨t, g, who, entry, he, rfl⟩ := h
  exact (engineOf_holds he).2

theorem EngineTurn.engine (h : EngineTurn s l) : l.e = l.g.eng l.who := by
  obtain ⟨t, g, who, entry, -, rfl⟩ := h
  rfl

/-- A word reads its group as the turn found it. -/
theorem EngineTurn.group_run (h : EngineTurn s l) : l.group s = .ok (l.g, s) := by
  unfold Ln.group groupOf
  rw [M.bind_ok (teamOf_ok h.team), h.group]
  rfl

/-! ### What an engine's word comes to -/

theorem EngineTurn.run_done (h : EngineTurn s l) (hb : body l s = .ok (true, s')) :
    runEngine body s = .next (s'.stepDone l.t.key (advBit l.who)) := by
  obtain ⟨t, g, who, entry, he, rfl⟩ := h
  rw [runEngine_run he, hb]
  rfl

theorem EngineTurn.run_more (h : EngineTurn s l) (hb : body l s = .ok (false, s')) :
    runEngine body s = .next (s'.unbase l.t.key l.g.num l.who l.e) := by
  obtain ⟨t, g, who, entry, he, rfl⟩ := h
  rw [runEngine_run he, hb]
  rfl

theorem EngineTurn.run_wait (h : EngineTurn s l) {k : WaitFor} (hb : body l s = .error (.wait k s')) :
    runEngine body s = .next (s'.laneWait l.t.key l.g.num l.who k) := by
  obtain ⟨t, g, who, entry, he, rfl⟩ := h
  rw [runEngine_run he, hb]
  rfl

theorem EngineTurn.run_trap (h : EngineTurn s l) {c : Cause} (hc : ¬(c.code = cECC_UNCORR ∧ c.write = true)) (hb : body l s = .error (.trap c)) :
    runEngine body s = .next (s.laneTrap l.t.key l.g.num l.who l.entry.view.service c) := by
  obtain ⟨t, g, who, entry, he, rfl⟩ := h
  rw [runEngine_run he, hb]
  simp only [State.mayLand_eq hc]
  rfl

end

/-! ### Groups by their number -/

/-- A group of a team updated. -/
def Team.mapGroupNo (t : Team) (n : Nat) (f : Group → Group) : Team := { t with groups := t.groups.map fun g => if g.num == n then f g else g }

theorem State.mapGroup_eq (s : State) (key n : Nat) (f : Group → Group) : s.mapGroup key n f = s.mapTeam key (·.mapGroupNo n f) := rfl

theorem Team.group?_mapGroupNo (t : Team) (n : Nat) (f : Group → Group) (hf : ∀ g, (f g).num = g.num) :
    (t.mapGroupNo n f).group? n = (t.group? n).map f := by
  have hp : ((fun g : Group => g.num == n) ∘ fun g => if g.num == n then f g else g) = fun g => g.num == n := by
    funext g
    dsimp only [Function.comp]
    split
    · rw [hf]
    · rfl
  unfold Team.mapGroupNo Team.group?
  rw [List.find?_map, hp]
  cases h : t.groups.find? fun g => g.num == n with
  | none => rfl
  | some g => exact congrArg some (if_pos (List.find?_some h))

/-- The group of a team, where both are there. -/
def State.groupAt (s : State) (key n : Nat) : Option Group := (s.team? key).bind (·.group? n)

theorem State.groupAt_mapGroup (s : State) (key n : Nat) (f : Group → Group) (hf : ∀ g, (f g).num = g.num) :
    (s.mapGroup key n f).groupAt key n = (s.groupAt key n).map f := by
  unfold State.groupAt
  rw [State.mapGroup_eq, State.team?_mapTeam s key (·.mapGroupNo n f) fun _ h => h]
  cases s.team? key with
  | none => rfl
  | some t => exact t.group?_mapGroupNo n f hf

/-! ### Engines under updates of a path -/

theorem Group.pathAt_mapPath (g : Group) (p q : Nat) (f : Path → Path) (h : ∀ x, (f x).c = x.c) :
    ((g.mapPath p f).pathAt q).c = (g.pathAt q).c := by
  unfold Group.mapPath Group.setPath Group.pathAt
  simp only [List.getD_eq_getElem?_getD, List.getElem?_set]
  split
  · next hpq =>
    subst hpq
    split
    · exact h _
    · next hlen => rw [List.getElem?_eq_none (Nat.not_lt.1 hlen)]
  · rfl

/-- An update of a path that leaves its C engine alone moves no engine. -/
theorem Group.eng_mapPath (g : Group) (p : Nat) (f : Path → Path) (h : ∀ x, (f x).c = x.c) (who : Eng) : (g.mapPath p f).eng who = g.eng who := by
  cases who with
  | l => rfl
  | s => rfl
  | c q => exact g.pathAt_mapPath p q f h

theorem Path.setCounter_c (p : Path) (c : Nat) (x : List Tok) : (p.setCounter c x).c = p.c := by
  unfold Path.setCounter
  split <;> rfl

/-- One owed push made, where its counter has room. -/
def Group.payOne (g : Group) (x : Nat × Nat × Tok) : Group :=
  if decide (((g.pathAt x.1).counter x.2.1).length ≥ 15) then { g with owed := g.owed ++ [x] }
  else g.mapPath x.1 fun p => p.setCounter x.2.1 (p.counter x.2.1 ++ [x.2.2])

theorem Group.payOwed_eq (g : Group) : g.payOwed = g.owed.foldl Group.payOne { g with owed := [] } := rfl

theorem Group.eng_owed (g : Group) (xs : List (Nat × Nat × Tok)) (who : Eng) : ({ g with owed := xs } : Group).eng who = g.eng who := by
  cases who <;> rfl

theorem Group.payOne_eng (g : Group) (x : Nat × Nat × Tok) (who : Eng) : (g.payOne x).num = g.num ∧ (g.payOne x).eng who = g.eng who := by
  unfold Group.payOne
  split
  · exact ⟨rfl, g.eng_owed _ who⟩
  · exact ⟨rfl, g.eng_mapPath _ _ (fun p => p.setCounter_c _ _) who⟩

theorem Group.payAll_eng (xs : List (Nat × Nat × Tok)) (who : Eng) (g : Group) :
    (xs.foldl Group.payOne g).num = g.num ∧ (xs.foldl Group.payOne g).eng who = g.eng who := by
  induction xs generalizing g with
  | nil => exact ⟨rfl, rfl⟩
  | cons x xs ih =>
    obtain ⟨hn, he⟩ := g.payOne_eng x who
    exact ⟨(ih _).1.trans hn, (ih _).2.trans he⟩

/-- The payment of owed pushes moves no engine. -/
theorem Group.payOwed_eng (g : Group) (who : Eng) : g.payOwed.num = g.num ∧ g.payOwed.eng who = g.eng who := by
  obtain ⟨hn, he⟩ := Group.payAll_eng g.owed who { g with owed := [] }
  rw [Group.payOwed_eq]
  exact ⟨hn, he.trans (g.eng_owed [] who)⟩

end Sys2Proof.Machine
end

section
/-! An engine stays where it stands while it takes tokens and reads masks and uniform registers (R155, R172, R191). -/

namespace Sys2Proof.Machine

/-- Where an engine stands in strand order. -/
def Engine.at (e : Engine) : Nat × Nat × Nat := (e.entry, e.trip, e.off)

/-- The engine of the turn, where the state still has it, stands where it stood. -/
def Stands (s : State) (l : Ln) : Prop := ∀ g, s.groupAt l.t.key l.g.num = some g → (g.eng l.who).at = l.e.at

section
variable {s : State} {l : Ln}

theorem EngineTurn.stands (h : EngineTurn s l) : Stands s l := by
  intro g hg
  have hs : s.groupAt l.t.key l.g.num = some l.g := by
    unfold State.groupAt
    rw [h.team]
    exact h.group
  rw [hs] at hg
  cases hg
  rw [h.engine]

theorem Stands.of_teams {s' : State} (h : Stands s l) (ht : s'.teams = s.teams) : Stands s' l := by
  unfold Stands State.groupAt State.team? at *
  rwa [ht]

theorem Stands.mapGroup (h : Stands s l) {f : Group → Group} (hn : ∀ g, (f g).num = g.num) (hf : ∀ g, ((f g).eng l.who).at = (g.eng l.who).at) :
    Stands (s.mapGroup l.t.key l.g.num f) l := by
  intro g hg
  rw [State.groupAt_mapGroup s _ _ f hn] at hg
  obtain ⟨g0, h0, rfl⟩ := Option.map_eq_some_iff.1 hg
  exact (hf g0).trans (h g0 h0)

theorem Stands.mapPath (h : Stands s l) (p : Nat) {f : Path → Path} (hf : ∀ x, (f x).c = x.c) :
    Stands (s.mapGroup l.t.key l.g.num fun g => g.mapPath p f) l :=
  h.mapGroup (fun _ => rfl) fun g => congrArg Engine.at (g.eng_mapPath p f hf l.who)

/-- A step of an engine that stands is not at an earlier word's end. -/
theorem Stands.unbase (h : Stands s l) : s.unbase l.t.key l.g.num l.who l.e = s := by
  unfold State.unbase
  split
  · next g hg =>
    obtain ⟨he, ht, ho⟩ : _ = _ ∧ _ = _ ∧ _ = _ := by simpa [Engine.at] using h g hg
    exact if_pos (by simp [he, ht, ho])
  · rfl

end

theorem Group.num_mapEng (g : Group) (who : Eng) (f : Engine → Engine) : (g.mapEng who f).num = g.num := by cases who <;> rfl

/-- An engine after an update of it: updated, or as it was where its path does not exist. -/
theorem Group.eng_mapEng (g : Group) (who : Eng) (f : Engine → Engine) : (g.mapEng who f).eng who = f (g.eng who) ∨ (g.mapEng who f).eng who = g.eng who := by
  cases who with
  | l => exact .inl rfl
  | s => exact .inl rfl
  | c p =>
    show ((g.mapPath p fun x => { x with c := f (g.pathAt p).c }).pathAt p).c = _ ∨ ((g.mapPath p fun x => { x with c := f (g.pathAt p).c }).pathAt p).c = _
    unfold Group.mapPath Group.setPath Group.pathAt
    simp only [List.getD_eq_getElem?_getD, List.getElem?_set, if_true]
    by_cases hp : p < g.paths.length
    · exact .inl (by rw [if_pos hp]; rfl)
    · refine .inr ?_
      rw [if_neg hp]
      exact congrArg Path.c (List.getD_eq_default _ _ (Nat.not_lt.1 hp)).symm

theorem Stands.mapEng {s : State} {l : Ln} (h : Stands s l) {f : Engine → Engine} (hf : ∀ e, (f e).at = e.at) :
    Stands (s.mapGroup l.t.key l.g.num fun g => g.mapEng l.who f) l := by
  refine h.mapGroup (fun g => g.num_mapEng l.who f) fun g => ?_
  obtain he | he := g.eng_mapEng l.who f
  · rw [he, hf]
  · rw [he]

/-! ### Meanings that leave the engine where it stands -/

/-- Where it answers, the engine stands. -/
def M.Stays {α : Type} (l : Ln) (m : M α) : Prop := ∀ s a s', m s = .ok (a, s') → Stands s l → Stands s' l

namespace M.Stays
variable {l : Ln}

theorem pure {α : Type} (a : α) : M.Stays l (Pure.pure a : M α) := by
  intro s b s' h hs
  cases h
  exact hs

theorem error {α : Type} (e : State → Stop) : M.Stays l (fun s => .error (e s) : M α) := by
  intro s b s' h
  cases h

theorem bind {α β : Type} {m : M α} {f : α → M β} (hm : M.Stays l m) (hf : ∀ a, M.Stays l (f a)) : M.Stays l (m >>= f) := by
  intro s b s' h hs
  obtain ⟨a, t, ha, hb⟩ := M.bind_eq_ok.1 h
  exact hf a t b s' hb (hm s a t ha hs)

theorem ite {α : Type} {c : Prop} {_ : Decidable c} {m n : M α} (hm : M.Stays l m) (hn : M.Stays l n) : M.Stays l (if c then m else n) := by
  split
  · exact hm
  · exact hn

theorem modify {f : State → State} (hf : ∀ s, Stands s l → Stands (f s) l) : M.Stays l (modify f : M PUnit) := by
  intro s b s' h hs
  cases h
  exact hf s hs

theorem mapGroup {f : Group → Group} (hn : ∀ g, (f g).num = g.num) (hf : ∀ g, ((f g).eng l.who).at = (g.eng l.who).at) : M.Stays l (l.mapGroup f) :=
  .modify fun _ hs => hs.mapGroup hn hf

theorem mapPath (p : Nat) {f : Path → Path} (hf : ∀ x, (f x).c = x.c) : M.Stays l (l.mapGroup fun g => g.mapPath p f) :=
  .modify fun _ hs => hs.mapPath p hf

theorem mapEng {f : Engine → Engine} (hf : ∀ e, (f e).at = e.at) : M.Stays l (l.mapEng f) := .modify fun _ hs => hs.mapEng hf

theorem group : M.Stays l l.group := by
  unfold Ln.group groupOf
  refine .bind (fun s t s' h hs => ?_) fun t => ?_
  · unfold teamOf at h
    split at h
    · cases h
      exact hs
    · cases h
  · split
    · exact .pure _
    · exact .error fun _ => .fault .wrongParty

end M.Stays

/-! ### Tokens -/

theorem Ln.takeTok_stays (l : Ln) (k : Tok) : M.Stays l (l.takeTok k) :=
  .bind (.modify fun _ hs => hs.of_teams rfl) fun _ => .mapEng fun _ => rfl

theorem Ln.waitToken_stays (l : Ln) (c : Nat) : M.Stays l (l.waitToken c) := by
  unfold Ln.waitToken
  refine .bind .group fun g => ?_
  have bump : M.Stays l (l.mapGroup fun g => g.mapPath (l.g.slotOf l.who) fun x =>
      if c = 0 then { x with tookL := x.tookL + 1 } else { x with tookS := x.tookS + 1 }) := .mapPath _ fun x => by split <;> rfl
  refine .ite (.bind (.ite bump (.pure _)) fun _ => .bind (l.takeTok_stays _) fun _ => .pure _) ?_
  split
  · exact .error fun s => .wait .token s
  · next k rest _ =>
    refine .bind (.mapPath _ fun x => ?_) fun _ => .bind ?_ fun _ => .bind (.ite bump (.pure _)) fun _ => .bind (l.takeTok_stays k) fun _ => .pure _
    · dsimp only
      repeat' split
      all_goals exact x.setCounter_c c rest
    · exact .mapGroup (fun g => (g.payOwed_eng l.who).1) fun g => congrArg Engine.at (g.payOwed_eng l.who).2

theorem Ln.eachToken_stays {l : Ln} {f : Nat → M (List (Nat × Tok))} (h : ∀ c, M.Stays l (f c)) (cs : List Nat) : M.Stays l (l.eachToken f cs) := by
  induction cs with
  | nil => exact .pure _
  | cons c cs ih => exact .bind (h c) fun _ => .bind ih fun _ => .pure _

/-! ### Masks and uniform registers -/

theorem readLane_stays (l : Ln) (g : Group) (reg lane : Nat) (vc : List Nat) : M.Stays l (readLane g reg lane vc) := by
  refine .bind (fun s i s' h hs => ?_) fun _ => .pure _
  unfold choose at h
  cases h
  refine hs.of_teams ?_
  split <;> rfl

theorem readLanes_stays (l : Ln) (g : Group) (reg : Nat) (vc : List Nat) (n : Nat) : M.Stays l (readLanes g reg vc n) := by
  induction n with
  | zero => exact .pure _
  | succ n ih => exact .bind ih fun _ => .bind (readLane_stays l g reg n vc) fun _ => .pure _

theorem Ln.maskReg_stays (l : Ln) (k : Nat) : M.Stays l (l.maskReg k) := .bind .group fun _ => .bind (readLanes_stays l _ _ _ _) fun _ => .pure _

theorem Ln.uniform_stays (l : Ln) (n : Nat) : M.Stays l (l.uniform n) := .bind .group fun _ => .ite (.pure _) (readLane_stays l _ _ _ _)

end Sys2Proof.Machine
end

section
/-! How an engine begins and ends a word of its own, and the tokens of its path (R155, R172, R186, R189, R191, R368). -/

namespace Sys2Proof.Machine

open Sys2Proof.Spec

/-! ### The checks of a word's registers (R186, R368) -/

theorem fieldsMapped_iff {l : Ln} {fields : List VField} {n : Nat} :
    (fields.all fun f => l.g.fieldMapped l.entry.n n f) = true ↔ FieldsMapped l fields n := by
  simp only [FieldsMapped, Group.fieldMapped, List.all_eq_true, Bool.or_eq_true, decide_eq_true_eq, List.mem_range]
  refine forall₂_congr fun f _ => ⟨fun h hf r j hr hj => (h.resolve_left (Nat.not_le.2 hf)) r hr j hj, fun h => ?_⟩
  by_cases hf : f.reg < 112
  · exact .inr fun r hr j hj => h hf r j hr hj
  · exact .inl (Nat.not_lt.1 hf)

theorem serviceAllows_iff {l : Ln} {w : SW} {fields : List VField} :
    (!l.entry.view.service || (w.tok == 0 && !(fields.any fun f => f.reg == 112 || f.reg == 113))) = true ↔ ServiceAllows l w fields := by
  unfold ServiceAllows
  cases l.entry.view.service <;> simp

/-! ### The beginning of a word -/

theorem whole_ok {α : Type} {m : M α} {s s' : State} {a : α} (h : m s = .ok (a, s')) : whole m s = .ok (a, s') := by
  unfold whole
  rw [h]

theorem whole_wait {α : Type} {m : M α} {s s' : State} {k : WaitFor} (h : m s = .error (.wait k s')) : whole m s = .error (.wait k s) := by
  unfold whole
  rw [h]

/-- A meaning done whole waits in the state in which it began. -/
theorem wait_of_whole {α : Type} {m : M α} {s s' : State} {k : WaitFor} (h : whole m s = .error (.wait k s')) : s' = s := by
  unfold whole at h
  split at h
  · cases h
    rfl
  · next hne => exact absurd h (hne k s')

/-- Tokens, mask and uniform base, taken once for all repetitions of a word (R172, R191). -/
def Ln.takeLatch (l : Ln) (w : SW) (base : Nat) : M Unit := do
  let toks ← whole (l.eachToken l.waitToken (waitCounters l.who w))
  let mk ← (if w.msk.toNat = 0 then pure (fullMask l.width) else l.maskReg w.msk.toNat)
  let u ← (if base < 8 then do let u ← l.uniform base; pure (some u) else pure none)
  let quiet := !(l.g.inFlight.any fun a => a.eng == engKind l.who)
  l.mapEng fun e => { e with latch := some { mask := l.m0 &&& mk, base := u, toks := toks }, spent := (if quiet then [] else e.spent) ++ toks }

section
variable {s s1 s2 s3 : State} {l : Ln} {w : SW} {fields : List VField} {base : Nat}

theorem Ln.begin_refused (h : FieldsMapped l fields w.count → ¬ServiceAllows l w fields) :
    l.begin w fields base s = .error (.trap (plainCause 0x02)) := by
  unfold Ln.begin
  by_cases hm : FieldsMapped l fields w.count
  · rw [M.bind_ok (need_true (fieldsMapped_iff.2 hm) cSTRAND_ILLEGAL 0 s)]
    exact M.bind_error (need_false (Bool.eq_false_iff.2 fun ha => h hm (serviceAllows_iff.1 ha)) cSTRAND_ILLEGAL 0 s)
  · exact M.bind_error (need_false (Bool.eq_false_iff.2 fun ha => hm (fieldsMapped_iff.1 ha)) cSTRAND_ILLEGAL 0 s)

/-- Outside a single step, a word whose registers are in order goes on to take its latch. -/
theorem Ln.begin_allowed (hm : FieldsMapped l fields w.count) (ha : ServiceAllows l w fields) (hp : l.t.phase ≠ .stepping) :
    l.begin w fields base s = l.takeLatch w base s := by
  unfold Ln.begin
  rw [M.bind_ok (need_true (fieldsMapped_iff.2 hm) cSTRAND_ILLEGAL 0 s), M.bind_ok (need_true (serviceAllows_iff.2 ha) cSTRAND_ILLEGAL 0 s),
    if_neg hp]
  rfl

/-- The engine with the latch of its word. -/
def latched (s : State) (l : Ln) (la : Latch) : State := s.mapGroup l.t.key l.g.num fun g => g.mapEng l.who fun e => { e with
  latch := some la, spent := (if l.g.flight.any fun a => !a.done && a.eng == engKind l.who then e.spent else []) ++ la.toks }

theorem Ln.takeLatch_wait {k : WaitFor} (h : whole (l.eachToken l.waitToken (waitCounters l.who w)) s = .error (.wait k s1)) :
    l.takeLatch w base s = .error (.wait k s) := by
  obtain rfl := wait_of_whole h
  exact M.bind_error h

theorem inFlight_any (g : Group) (k : EngKind) : (g.inFlight.any fun a => a.eng == k) = g.flight.any fun a => !a.done && a.eng == k := by
  unfold Group.inFlight
  exact List.any_filter

theorem Ln.takeLatch_ok {toks : List (Nat × Tok)} {mk : W64} {u : Option W32}
    (ht : l.eachToken l.waitToken (waitCounters l.who w) s = .ok (toks, s1))
    (hk : w.msk = 0 ∧ mk = fullMask l.width ∧ s2 = s1 ∨ w.msk ≠ 0 ∧ l.maskReg w.msk.toNat s1 = .ok (mk, s2))
    (hu : 8 ≤ base ∧ u = none ∧ s3 = s2 ∨ base < 8 ∧ ∃ v, u = some v ∧ l.uniform base s2 = .ok (v, s3)) :
    l.takeLatch w base s = .ok ((), latched s3 l { mask := l.m0 &&& mk, base := u, toks := toks }) := by
  have hmask : (if w.msk.toNat = 0 then pure (fullMask l.width) else l.maskReg w.msk.toNat : M W64) s1 = .ok (mk, s2) := by
    obtain ⟨h0, rfl, rfl⟩ | ⟨h0, hr⟩ := hk
    · rw [h0]
      rfl
    · rw [if_neg fun h : w.msk.toNat = 0 => h0 (BitVec.eq_of_toNat_eq h)]
      exact hr
  have hbase : (if base < 8 then do let u ← l.uniform base; pure (some u) else pure none : M (Option W32)) s2 = .ok (u, s3) := by
    obtain ⟨h8, rfl, rfl⟩ | ⟨h8, v, rfl, hv⟩ := hu
    · rw [if_neg (Nat.not_lt.2 h8)]
      rfl
    · rw [if_pos h8, M.bind_ok hv]
      rfl
  unfold Ln.takeLatch
  rw [M.bind_ok (whole_ok ht), M.bind_ok hmask, M.bind_ok hbase]
  have hq (xs : List (Nat × Tok)) : (if (!(l.g.inFlight.any fun a => a.eng == engKind l.who)) = true then [] else xs) =
      if (l.g.flight.any fun a => !a.done && a.eng == engKind l.who) = true then xs else [] := by
    rw [inFlight_any]
    cases l.g.flight.any fun a => !a.done && a.eng == engKind l.who <;> rfl
  unfold Ln.mapEng Ln.mapGroup latched
  rw [mapGroupM_run]
  simp only [hq]

/-- With its latch the engine stands where it stood. -/
theorem Ln.takeLatch_stays (l : Ln) (w : SW) (base : Nat) : M.Stays l (l.takeLatch w base) := by
  unfold Ln.takeLatch
  refine .bind (fun s a s' h hs => ?_) fun _ => .bind (.ite (.pure _) (l.maskReg_stays _)) fun _ =>
    .bind (.ite (.bind (l.uniform_stays _) fun _ => .pure _) (.pure _)) fun _ => .mapEng fun _ => rfl
  refine Ln.eachToken_stays l.waitToken_stays (waitCounters l.who w) s a s' ?_ hs
  unfold whole at h
  split at h
  · cases h
  · exact h

end

/-! ### The tokens of a path (R172) -/

section
variable {s : State} {l : Ln} {c : Nat}

/-- Where no miss split is open, an engine takes and gives tokens alone. -/
theorem whole_alone (h : Whole l) (b : Bool) : (b && decide ((l.g.siblings l.root).length > 1)) = false := by
  rw [decide_eq_false (Nat.not_lt.2 h), Bool.and_false]

theorem Ln.waitToken_none (ht : EngineTurn s l) (hw : Whole l) (hq : (l.g.pathAt l.root).counter c = []) :
    l.waitToken c s = .error (.wait .token s) := by
  unfold Ln.waitToken
  rw [M.bind_ok ht.group_run]
  simp only [whole_alone hw, Bool.false_and, Bool.false_eq_true, if_false, hq, waitOn_run]

/-- What the engine that takes a token acquires of its pusher (R172). -/
def acquired (s : State) (l : Ln) (k : Tok) : State :=
  let me := s.knowOf l.place.party
  (s.setKnow { me with known := unionIds me.known k.known, lifted := unionIds me.lifted k.lifted }).mapGroup l.t.key l.g.num fun g =>
    g.mapEng l.who fun e => { e with vc := joinClock e.vc k.vc }

theorem Ln.waitToken_oldest (ht : EngineTurn s l) (hw : Whole l) {k : Tok} {rest : List Tok} (hq : (l.g.pathAt l.root).counter c = k :: rest) :
    l.waitToken c s = .ok ([(c, k)], acquired ((counterSet s l c fun _ => rest).mapGroup l.t.key l.g.num Group.payOwed) l k) := by
  unfold Ln.waitToken
  rw [M.bind_ok ht.group_run]
  simp only [whole_alone hw, Bool.false_and, Bool.false_eq_true, if_false, hq]
  rfl

theorem Ln.token_run (ht : EngineTurn s l) :
    l.token s = .ok ({ known := (s.knowOf l.place.party).known, lifted := (s.knowOf l.place.party).lifted, vc := l.e.vc }, s) := by
  unfold Ln.token
  rw [M.bind_ok (M.get_run s), M.bind_ok ht.group_run, ht.engine]
  rfl

theorem Ln.pushToken_full (ht : EngineTurn s l) (hw : Whole l) (hq : 15 ≤ ((l.g.pathAt l.root).counter c).length) :
    l.pushToken c s = .error (.wait .token s) := by
  unfold Ln.pushToken
  rw [M.bind_ok (Ln.token_run ht), M.bind_ok ht.group_run]
  simp only [whole_alone hw, Bool.false_eq_true, if_false]
  rw [if_pos hq]
  rfl

theorem Ln.pushToken_room (ht : EngineTurn s l) (hw : Whole l) (hq : ((l.g.pathAt l.root).counter c).length < 15) :
    l.pushToken c s = .ok ((), counterSet s l c
      (· ++ [{ known := (s.knowOf l.place.party).known, lifted := (s.knowOf l.place.party).lifted, vc := l.e.vc }])) := by
  unfold Ln.pushToken
  rw [M.bind_ok (Ln.token_run ht), M.bind_ok ht.group_run]
  simp only [whole_alone hw, Bool.false_eq_true, if_false]
  rw [if_neg (Nat.not_le.2 hq)]
  rfl

end

/-- The counters that an engine's words take from and give to. -/
theorem waitCounters_mem (who : Eng) (w : SW) : ∀ n ∈ waitCounters who w, n ∈ (match who with | .l => [1] | .c _ => [0, 3] | .s => [2]) := by
  cases who <;> cases h : w.waitP <;> cases h' : w.waitN <;> simp [waitCounters, h, h']

theorem pushCounters_mem (who : Eng) (w : SW) : ∀ n ∈ pushCounters who w, n ∈ (match who with | .l => [0] | .c _ => [2, 1] | .s => [3]) := by
  cases who <;> cases h : w.pushP <;> cases h' : w.pushN <;> simp [pushCounters, h, h']

end Sys2Proof.Machine
end

section
/-! The end of a word: its earlier accesses, its pushes, and its passing (R155, R172, R302; log 22). -/

namespace Sys2Proof.Machine

open Sys2Proof.Spec

section
variable {s s1 : State} {l : Ln} {w : SW}

/-! ### What is still to be performed -/

theorem inStrand_iff {a : Access} {slot : Nat} : l.g.inStrand l.t a slot = true ↔ ofStrand l a slot := by
  unfold Group.inStrand ofStrand
  rw [Bool.or_eq_true, beq_iff_eq]
  refine or_congr_right ?_
  cases l.g.split with
  | none => simp
  | some xy =>
    obtain ⟨x, y⟩ := xy
    simp only [Bool.and_eq_true, beq_iff_eq, Option.all_eq_true, bne_iff_ne, Option.some.injEq, Prod.mk.injEq]
    constructor
    · rintro ⟨⟨rfl, rfl⟩, h⟩
      exact ⟨_, ⟨rfl, rfl⟩, rfl, h⟩
    · rintro ⟨_, ⟨rfl, rfl⟩, rfl, h⟩
      exact ⟨⟨rfl, rfl⟩, h⟩

theorem ownInFlight_iff : (l.g.inFlight.any fun a => a.eng == engKind l.who && l.g.inStrand l.t a (l.g.slotOf l.who)) = true ↔ OwnInFlight l := by
  unfold Group.inFlight OwnInFlight
  simp only [List.any_eq_true, List.mem_filter, Bool.and_eq_true, Bool.not_eq_true', beq_iff_eq, inStrand_iff, and_assoc]

theorem matrixPending_iff :
    (engKind l.who == .c && s.mqueue.any fun m => m.inStrand l.t.key l.g.num (l.g.slotOf l.who) && m.counted) = true ↔
      engKind l.who = .c ∧
        ∃ m ∈ s.mqueue, m.team = l.t.key ∧ m.grp = l.g.num ∧ (m.path = 4 ↔ l.g.slotOf l.who = 4) ∧ m.counted = true := by
  have same (p q : Bool) : (p == q) = true ↔ (p = true ↔ q = true) := by cases p <;> cases q <;> decide
  simp only [MatrixOp.inStrand, Bool.and_eq_true, List.any_eq_true, same, beq_iff_eq, and_assoc]

/-- Whether the engine's earlier accesses are performed, as the state stands. -/
theorem performed_run (ht : EngineTurn s l) : ∃ b, l.performed s = .ok (b, s) ∧ (b = true ↔ ¬OwnPending s l) := by
  unfold Ln.performed
  rw [M.bind_ok ht.group_run, M.bind_ok (M.get_run s)]
  refine ⟨_, rfl, ?_⟩
  rw [OwnPending, ← ownInFlight_iff, ← matrixPending_iff, Bool.and_eq_true, Bool.not_eq_true', Bool.not_eq_true', not_or, Bool.not_eq_true, Bool.not_eq_true]

/-! ### The end of a word -/

/-- The pushes of a word, made in turn (R172). -/
def Ln.pushes (l : Ln) (w : SW) : M (List (Nat × Tok)) := l.eachToken (fun c => do l.pushToken c; pure []) (pushCounters l.who w)

theorem Ln.finish_pending (ht : EngineTurn s l) (hc : pushCounters l.who w ≠ []) (hp : OwnPending s l) :
    l.finish w s = .error (.wait .accesses s) := by
  obtain ⟨b, hb, hd⟩ := performed_run ht
  have hf : b = false := Bool.eq_false_iff.2 fun h => hd.1 h hp
  unfold Ln.finish
  simp only [List.isEmpty_eq_false_iff.2 hc, Bool.not_false, if_true]
  rw [M.bind_ok hb, hf]
  rfl

/-- A word without pushes is passed; one with pushes makes them first, whole. -/
theorem Ln.finish_eq (ht : EngineTurn s l) (hp : ¬OwnPending s l) : l.finish w s = (do let _ ← whole (l.pushes w); l.pass (swBytes w) : M Unit) s := by
  obtain ⟨b, hb, hd⟩ := performed_run ht
  unfold Ln.finish Ln.pushes
  cases hc : pushCounters l.who w with
  | nil => rfl
  | cons c cs =>
    simp only [List.isEmpty_cons, Bool.not_false, if_true]
    rw [M.bind_ok hb, hd.2 hp]
    rfl

theorem Ln.finish_pushed (ht : EngineTurn s l) (hp : ¬OwnPending s l) {xs : List (Nat × Tok)} (h : l.pushes w s = .ok (xs, s1)) :
    l.finish w s = .ok ((), passedBy s1 l (swBytes w)) := by
  rw [Ln.finish_eq ht hp, M.bind_ok (whole_ok h)]
  rfl

theorem Ln.finish_full (ht : EngineTurn s l) (hp : ¬OwnPending s l) {k : WaitFor} (h : l.pushes w s = .error (.wait k s1)) :
    l.finish w s = .error (.wait k s) := by
  rw [Ln.finish_eq ht hp, M.bind_error (whole_wait h)]

end
end Sys2Proof.Machine
end

section
/-! The words that run by repetitions, each with the register fields and the uniform base code of its form (R155, R186, R193). -/

namespace Sys2Proof.Machine

open Sys2Proof.Spec

/-- What a word checks of its own operands before its registers: legal operands pass, and what is refused is STRAND_ILLEGAL, but for illegal
operands of a word whose registers are mapped. -/
structure ChecksOperands (i : Instr) (w : SW) (fields : List VField) (check : Ln → M Unit) : Prop where
  pass : ∀ l s, operandsLegal l i → FieldsMapped l fields w.count → check l s = .ok ((), s)
  refuse : ∀ l s, check l s = .ok ((), s) ∨ check l s = .error (.trap (plainCause 0x02)) ∨ ¬operandsLegal l i ∧ FieldsMapped l fields w.count

theorem checksOperands_none (i : Instr) (w : SW) (fields : List VField) : ChecksOperands i w fields fun _ => pure () :=
  ⟨fun _ _ _ _ => rfl, fun _ _ => .inl rfl⟩

/-- The word runs by repetitions, with these register fields and this uniform base code. -/
def Runs (i : Instr) (w : SW) (fields : List VField) (base : Nat) : Prop :=
  ∃ check rep, (∀ s, exec i s = runWord w fields base check rep s) ∧ ChecksOperands i w fields check

theorem runs_plain {i : Instr} {w : SW} {fields : List VField} {base : Nat} {rep : Ln → Nat → M Unit}
    (h : ∀ s, exec i s = runWord w fields base (fun _ => pure ()) rep s) : Runs i w fields base := ⟨_, rep, h, checksOperands_none i w fields⟩

theorem runs_fields {i : Instr} {w : SW} {fields fields' : List VField} {base : Nat} {rep : Ln → Nat → M Unit} (hf : fields' = fields)
    (h : ∀ s, exec i s = runWord w fields' base (fun _ => pure ()) rep s) : Runs i w fields base := hf ▸ runs_plain h

/-! ### Register fields -/

theorem laneFields_eq (mask : Bool) (w : SW) : laneFields mask true w = (if mask then [] else [fieldD w]) ++ [fieldA w] ++
    (if w.bu then [] else [fieldB w]) ++ if w.useVc then [fieldC w] else [] := by
  unfold laneFields
  cases w.bu <;> rfl

theorem laneFields_unary (w : SW) (h : w.useVc = false) : laneFields false false w = [fieldD w, fieldA w] := by
  unfold laneFields
  rw [h]
  rfl

/-! ### The shapes of the words -/

section
variable {i : Instr} {w : SW}

/-- The fields of a word of operands a, b and c. -/
def operandFields (w : SW) : List VField := [fieldD w, fieldA w] ++ (if w.bu then [] else [fieldB w]) ++ if w.useVc then [fieldC w] else []

theorem runs_operands {rep : Ln → Nat → M Unit} (h : ∀ s, exec i s = runWord w (laneFields false true w) 8 (fun _ => pure ()) rep s) :
    Runs i w (operandFields w) 8 := runs_fields (laneFields_eq false w) h

theorem runs_laneWord {third : Bool} {f : Ln → Nat → W32 → W32 → W32 → W32} (h : ∀ s, exec i s = laneWord true third f w s) :
    Runs i w (operandFields w) 8 := runs_operands h

theorem runs_intWord {third : Bool} {f : Int → Int → Int → Int} (h : ∀ s, exec i s = intWord third f w s) : Runs i w (operandFields w) 8 :=
  runs_laneWord h

theorem runs_floatWord {third : Bool} {f : Fp → Nat → Nat → Nat → Nat → Nat} (h : ∀ s, exec i s = floatWord true third f w s) :
    Runs i w (operandFields w) 8 := runs_operands h

/-- A function of one operand in f32, without D and VC (R201). -/
theorem runs_floatUnary {f : Fp → Nat → Nat → Nat → Nat → Nat} (hc : ¬(w.dbl || w.useVc) = true) (h : ∀ s, exec i s = floatWord false false f w s) :
    Runs i w [fieldD w, fieldA w] 8 := by
  have hv : w.useVc = false := by simp_all
  exact runs_fields (laneFields_unary w hv) h

theorem runs_maskWord {f : Ln → Nat → List W32 → List W32 → Bool} {narrow : W64 → W64} (h : ∀ s, exec i s = maskWord f narrow w s) :
    Runs i w ([fieldA w] ++ (if w.bu then [] else [fieldB w]) ++ if w.useVc then [fieldC w] else []) 8 := runs_fields (laneFields_eq true w) h

theorem runs_unaryWord {f : Ln → List W32 → Nat → W32} (h : ∀ s, exec i s = unaryWord f w s) : Runs i w [fieldD w, fieldA w] 8 := runs_plain h

theorem runs_constWord {f : Ln → M W32} (h : ∀ s, exec i s = constWord f w s) : Runs i w [fieldD w] 8 := runs_plain h

theorem runs_dataWord {store gath ldg : Bool} (h : ∀ s, exec i s = dataWord store gath ldg w s) :
    Runs i w [{ reg := w.vd.toNat, adv := 1, span := 1 }, { reg := w.va.toNat, adv := if gath then 1 else 0, span := 1 }] (w.b.toNat / 8) :=
  runs_plain h

theorem runs_icwWord (h : ∀ s, exec i s = icwWord w s) : Runs i w [] (w.b.toNat / 8) := runs_plain h

theorem runs_strandRing {body : Ln → Ring → M Unit} (h : ∀ s, exec i s = strandRing w body s) : Runs i w [] 8 := runs_plain h

theorem runs_strandTicket {op : Party → Ring → M (Ticket × List Release)} (h : ∀ s, exec i s = strandTicket op w s) : Runs i w [] 8 :=
  runs_strandRing h

theorem runs_strandRelease {op : Ln → Ring → Release → M Unit} (h : ∀ s, exec i s = strandRelease w op s) : Runs i w [] 8 := runs_strandRing h

theorem runs_releaseSlot (h : ∀ s, exec i s = releaseSlot w s) : Runs i w [] 8 := runs_strandRelease h

theorem runs_statWord (h : ∀ s, exec i s = statWord w s) : Runs i w [] 8 := runs_strandRing h

end

/-! ### The words with a check of their own -/

theorem runs_vbcast (w : SW) : Runs (.vbcast w) w [fieldD w, fieldA w] 8 := by
  refine ⟨fun l => need (decide (w.b.toNat < l.width)) cSTRAND_ILLEGAL, ?_, fun s => ?_, fun l s h _ => ?_, fun l s => ?_⟩
  rotate_left
  · delta exec
    rfl
  · exact need_true (decide_eq_true (show w.b.toNat < l.width from h)) cSTRAND_ILLEGAL 0 s
  by_cases h : w.b.toNat < l.width
  · exact .inl (need_true (decide_eq_true h) cSTRAND_ILLEGAL 0 s)
  · exact .inr (.inl (need_false (decide_eq_false h) cSTRAND_ILLEGAL 0 s))

theorem packBits_eq (w : SW) : packBits w = packWidth w := rfl

theorem runs_vpack (w : SW) : Runs (.vpack w) w [fieldD w, { fieldA w with span := 32 / packWidth w }] 8 := by
  apply runs_fields (fields' := [fieldD w, { fieldA w with span := 32 / packBits w }]) (by rw [packBits_eq])
  intro s
  show execVpack w s = _
  unfold execVpack
  rfl

theorem runs_vunpk (w : SW) : Runs (.vunpk w) w [{ fieldD w with span := 32 / packWidth w }, fieldA w] 8 := by
  apply runs_fields (fields' := [{ fieldD w with span := 32 / packBits w }, fieldA w]) (by rw [packBits_eq])
  intro s
  show execVunpk w s = _
  unfold execVunpk
  rfl

/-- A key of no replaced bits reads no second operand (R214). -/
theorem runs_vkey (w : SW) : Runs (.vkey w) w ([fieldD w, fieldA w] ++ if decide (field w.imm.toNat 4 0 = 0) then [] else [fieldB w]) 8 := by
  apply runs_fields (fields' := [fieldD w, fieldA w] ++ if bitsOf w.imm.toNat 4 0 = 0 then [] else [fieldB w])
    (by simp only [decide_eq_true_eq]; rfl)
  intro s
  show execVkey w s = _
  unfold execVkey
  rfl

theorem runs_vsel (w : SW) : Runs (.vsel w) w (operandFields w) 8 := runs_operands fun s => by delta exec; rfl

/-- A conversion checks its registers, and then its formats (R204). -/
theorem runs_conversion {i : Instr} {w : SW} {src dst mode : Nat} (hi : ∀ s, exec i s = convertWord src dst mode w s)
    (hl : ∀ l, operandsLegal l i → (convertible false src && convertible true dst) = true) : Runs i w [fieldD w, fieldA w] 8 := by
  refine ⟨_, _, hi, fun l s h hm => ?_, fun l s => ?_⟩
  · rw [M.bind_ok (need_true (fieldsMapped_iff.2 hm) cSTRAND_ILLEGAL 0 s)]
    exact need_true (hl l h) cFORMAT 0 s
  · by_cases hm : FieldsMapped l [fieldD w, fieldA w] w.count
    · by_cases hc : (convertible false src && convertible true dst) = true
      · refine .inl ?_
        rw [M.bind_ok (need_true (fieldsMapped_iff.2 hm) cSTRAND_ILLEGAL 0 s)]
        exact need_true hc cFORMAT 0 s
      · exact .inr (.inr ⟨fun h => hc (hl l h), hm⟩)
    · exact .inr (.inl (M.bind_error (need_false (Bool.eq_false_iff.2 fun ha => hm (fieldsMapped_iff.1 ha)) cSTRAND_ILLEGAL 0 s)))

/-- The formats of the short codes convert (R205). -/
theorem shortConversion_convertible (code : Nat) :
    (convertible false (shortConversion code).1 && convertible true (shortConversion code).2) = true := by
  unfold shortConversion
  split <;> decide

theorem convertible_of_legal {l : Ln} {w : SW} (h : operandsLegal l (.vcvtLong w)) :
    (convertible false (bitsOf w.imm.toNat 4 0) && convertible true (bitsOf w.imm.toNat 9 5)) = true := by
  dsimp only [operandsLegal] at h
  obtain ⟨hs, hd⟩ := h
  rw [Bool.and_eq_true]
  unfold convertible
  constructor
  · split <;> simp_all [field, bitsOf]
  · split <;> simp_all [field, bitsOf]

/-! ### Every word of repetitions -/

theorem runs_of_laneForm {i : Instr} {f : LaneForm} (h : laneForm i = some f) : Runs i f.w f.fields 8 := by
  cases i
  case vadd | vsub | vmul | vmulh | vmad | vmin | vmax =>
    cases h
    exact runs_intWord fun s => by delta exec; rfl
  case vand | vor | vxor | vshl | vshr | vsha =>
    cases h
    exact runs_laneWord fun s => by delta exec; rfl
  case vfadd | vfsub | vfmul | vfma | vfmin | vfmax =>
    cases h
    exact runs_floatWord fun s => by delta exec; rfl
  case vfrcp w | vfrsq w | vfexp2 w | vflog2 w =>
    change (if (w.dbl || w.useVc) = true then none else some (floatUnary w _)) = some f at h
    split at h
    · cases h
    · next hc =>
      cases h
      exact runs_floatUnary hc fun s => by delta exec; rfl
  case vmov | vmovL | vshufXor | vshufRot =>
    cases h
    exact runs_unaryWord fun s => by delta exec; rfl
  case vmovI | vmovH | vbcastY =>
    cases h
    exact runs_constWord fun s => by delta exec; rfl
  case vshuf | vscan =>
    cases h
    exact runs_plain fun s => by delta exec; rfl
  case vbcast w =>
    cases h
    exact runs_vbcast w
  case vpack w =>
    cases h
    exact runs_vpack w
  case vkey w =>
    cases h
    exact runs_vkey w
  case vsel w =>
    change (if w.ms = true then none else some (binaryForm w true false _)) = some f at h
    split at h
    · cases h
    · cases h
      exact runs_vsel w
  all_goals cases h

theorem runs_of_compareForm {i : Instr} {w : SW} {pairs : Bool} {bit : (Nat → W32) → (Nat → W32) → Nat → Bool}
    (h : compareForm i = some (w, pairs, bit)) :
    Runs i w ([fieldA w] ++ (if w.bu then [] else [fieldB w]) ++ if w.useVc then [fieldC w] else []) 8 := by
  cases i
  case vicmp v =>
    change (if 10 ≤ field v.vd.toNat 6 3 then none else some (v, false, _)) = some (w, pairs, bit) at h
    split at h
    · cases h
    · cases h
      exact runs_maskWord fun s => by delta exec; rfl
  case vfcmp =>
    cases h
    exact runs_maskWord fun s => by delta exec; rfl
  all_goals cases h

theorem runs_of_conversionForm {i : Instr} {w : SW} {src dst mode : Nat} (h : conversionForm i = some (w, src, dst, mode)) :
    Runs i w [fieldD w, fieldA w] 8 := by
  cases i
  case vcvt w =>
    cases h
    exact runs_conversion (fun _ => rfl) fun _ _ => shortConversion_convertible w.b.toNat
  case vcvtLong =>
    cases h
    exact runs_conversion (fun _ => rfl) fun _ => convertible_of_legal
  all_goals cases h

theorem runs_of_dataForm {i : Instr} {w : SW} {store gather ldg : Bool} (h : dataForm i = some (w, store, gather, ldg)) :
    Runs i w [{ reg := w.vd.toNat, adv := 1, span := 1 }, { reg := w.va.toNat, adv := if gather then 1 else 0, span := 1 }] (w.b.toNat / 8) := by
  cases i
  case lLd | lLdg | lGath | sSt | sStg | sScat =>
    cases h
    exact runs_dataWord fun s => by delta exec; rfl
  all_goals cases h

theorem runs_of_ringForm {i : Instr} {w : SW} (h : ringForm i = some w) : Runs i w [] 8 := by
  cases i
  case lRgWfill | sRgClaim =>
    cases h
    exact runs_strandTicket fun s => by delta exec; rfl
  case sRgCommit | sRgEos =>
    cases h
    exact runs_strandRelease fun s => by delta exec; rfl
  case lRgRelease | sRgRelease =>
    cases h
    exact runs_releaseSlot fun s => by delta exec; rfl
  case lRgStat | sRgStat =>
    cases h
    exact runs_statWord fun s => by delta exec; rfl
  case sRgAbort =>
    cases h
    exact runs_strandRing fun s => by delta exec; rfl
  all_goals cases h

/-- Every word that runs by repetitions does so with the fields and the base code of its form. -/
theorem runs_of_repForm {i : Instr} {w : SW} {fields : List VField} {base : Nat} (h : repForm i = some (w, fields, base)) : Runs i w fields base := by
  unfold repForm at h
  split at h
  · next f hf =>
    cases h
    exact runs_of_laneForm hf
  · next hf _ =>
    cases h
    exact runs_of_compareForm hf
  · next hf _ _ =>
    cases h
    exact runs_of_conversionForm hf
  · next hf _ _ _ =>
    cases h
    exact runs_of_dataForm hf
  · next hf _ _ _ _ =>
    cases h
    exact runs_of_ringForm hf
  · cases i
    case vsel =>
      cases h
      exact runs_vsel _
    case vunpk =>
      cases h
      exact runs_vunpk _
    case lIcw | sIcw =>
      cases h
      exact runs_icwWord fun s => by delta exec; rfl
    case vballot | mop | vred | cPsend | mxGang =>
      cases h
      exact runs_plain fun s => by delta exec; rfl
    all_goals cases h

end Sys2Proof.Machine
end

section
/-! The phases of an engine's words and the token counters (R54, R155, R172, R186, R189, R191, R368), which settle O39. -/

namespace Sys2Proof.Machine

open Sys2Proof.Spec

/-! ### Beginning and ending, of any word -/

/-- Before its first repetition the word checks its operands, and then begins with these register fields and this uniform base code. -/
def Begins (i : Instr) (w : SW) (fields : List VField) (base : Nat) : Prop :=
  ∃ check body, (∀ s, exec i s = runEngine body s) ∧ ChecksOperands i w fields check ∧
    ∀ l s, l.e.issued = false → l.e.latch = none → body l s = (do check l; l.begin w fields base; pure false : M Bool) s

/-- After its last repetition the word makes its pushes and is passed. -/
def Ends (i : Instr) (w : SW) : Prop :=
  ∃ body, (∀ s, exec i s = runEngine body s) ∧ ∀ l s, l.e.issued = true → body l s = (do l.finish w; pure true : M Bool) s

theorem Runs.begins {i : Instr} {w : SW} {fields : List VField} {base : Nat} (h : Runs i w fields base) : Begins i w fields base := by
  obtain ⟨check, rep, hx, hc⟩ := h
  refine ⟨check, _, hx, hc, fun l s hi hl => ?_⟩
  rw [hi, hl]
  rfl

theorem Runs.ends {i : Instr} {w : SW} {fields : List VField} {base : Nat} (h : Runs i w fields base) : Ends i w := by
  obtain ⟨check, rep, hx, -⟩ := h
  refine ⟨_, hx, fun l s hi => ?_⟩
  rw [hi]
  rfl

/-- A word of a matrix operation names no lane register (R252). -/
theorem begins_mxWord {i : Instr} {w : SW} {kind : MatrixKind} (h : ∀ s, exec i s = mxWord kind w s) : Begins i w [] 8 := by
  refine ⟨fun _ => pure (), _, h, checksOperands_none i w [], fun l s _ hl => ?_⟩
  rw [hl]
  rfl

theorem begins_of_matrixWord {i : Instr} {w : SW} (h : matrixWordOf i = some w) : Begins i w [] 8 := by
  cases i
  case mxLdb | mxMma | mxMmas | mxGmma | mxZero | mxLdacc | mxStacc | mxRstep | mxRsave | mxRload =>
    cases h
    exact begins_mxWord fun s => by delta exec; rfl
  all_goals cases h

theorem begins_of_latchForm {i : Instr} {w : SW} {fields : List VField} {base : Nat} (h : latchForm i = some (w, fields, base)) :
    Begins i w fields base := by
  unfold latchForm at h
  split at h
  · next hw =>
    cases h
    exact begins_of_matrixWord hw
  · exact (runs_of_repForm h).begins

/-! ### What the beginning comes to -/

section
variable {s s1 s2 s3 : State} {l : Ln} {i : Instr} {w : SW} {fields : List VField} {base : Nat}

/-- Registers that are not mapped, or that a service entry may not use, are STRAND_ILLEGAL (R186, R368). -/
theorem Begins.refused (hb : Begins i w fields base) (ht : EngineTurn s l) (hi : l.e.issued = false) (hl : l.e.latch = none)
    (h : operandsLegal l i ∨ ¬FieldsMapped l fields w.count) (hr : FieldsMapped l fields w.count → ¬ServiceAllows l w fields) :
    exec i s = .next (s.laneTrap l.t.key l.g.num l.who l.entry.view.service (plainCause 0x02)) := by
  obtain ⟨check, body, hx, hc, hbody⟩ := hb
  rw [hx]
  refine ht.run_trap (by decide) ?_
  rw [hbody l s hi hl]
  obtain hp | he | ⟨hn, hm⟩ := hc.refuse l s
  · rw [M.bind_ok hp, M.bind_error (Ln.begin_refused hr)]
  · rw [M.bind_error he]
  · exact absurd h (not_or.2 ⟨hn, not_not.2 hm⟩)

/-- A word in order takes its latch. -/
theorem Begins.runs (hb : Begins i w fields base) (hi : l.e.issued = false) (hl : l.e.latch = none) (ho : operandsLegal l i)
    (hm : FieldsMapped l fields w.count) (ha : ServiceAllows l w fields) (hp : l.t.phase ≠ .stepping) :
    ∃ body, (∀ s, exec i s = runEngine body s) ∧ ∀ s, body l s = (do l.takeLatch w base; pure false : M Bool) s := by
  obtain ⟨check, body, hx, hc, hbody⟩ := hb
  refine ⟨body, hx, fun s => ?_⟩
  rw [hbody l s hi hl, M.bind_ok (hc.pass l s ho hm)]
  show (l.begin w fields base s >>= _) = (l.takeLatch w base s >>= _)
  rw [Ln.begin_allowed hm ha hp]

end

/-- Settles O39: every word begins and ends by the operations of its repetitions, and an engine that latches stands where it stood. -/
theorem wordPhasesAndTokens : Obligations.WordPhasesAndTokens := by
  unfold Obligations.WordPhasesAndTokens
  refine ⟨fun s l i w fields base ht hf => ⟨fun hi hl => ?_, fun hi hr => ?_⟩, fun s l c ht hw => ?_⟩
  · have hb := begins_of_latchForm hf
    refine ⟨fun hm => hb.refused ht hi hl (.inr hm) fun h => absurd h hm, fun ho ha => hb.refused ht hi hl (.inl ho) fun _ => ha,
      fun ho hm ha hp => ?_⟩
    obtain ⟨body, hx, hbody⟩ := hb.runs hi hl ho hm ha hp
    rw [hx]
    refine ⟨fun k s' hk => ht.run_wait ?_, fun toks s1 mk s2 u s3 hk hmask hbase => ?_⟩
    · rw [hbody, M.bind_error (Ln.takeLatch_wait hk)]
    · have hlatch := Ln.takeLatch_ok hk hmask hbase
      have hstands := l.takeLatch_stays w base _ _ _ hlatch ht.stands
      rw [ht.run_more ((hbody s).trans (M.bind_ok hlatch)), hstands.unbase]
      rfl
  · obtain ⟨body, hx, hbody⟩ := (runs_of_repForm hr).ends
    rw [hx]
    refine ⟨fun hc hp => ht.run_wait ?_, fun hp => ⟨fun s1 xs hk => ht.run_done ?_, fun k s' hk => ht.run_wait ?_⟩⟩
    · rw [hbody l s hi, M.bind_error (Ln.finish_pending ht hc hp)]
    · rw [hbody l s hi, M.bind_ok (Ln.finish_pushed ht hp hk)]
      rfl
    · rw [hbody l s hi, M.bind_error (Ln.finish_full ht hp hk)]
  · exact ⟨Ln.waitToken_none ht hw, fun k rest => Ln.waitToken_oldest ht hw, Ln.pushToken_full ht hw, Ln.pushToken_room ht hw,
      fun w => ⟨waitCounters_mem l.who w, pushCounters_mem l.who w⟩⟩

end Sys2Proof.Machine
end

section
/-! The helm's integer, bit-field and constant words (R105 to R108, R115, R116), which settle O6, O7 and O8; what every word that computes one
register leaves alone, and the writes of g0 and of k0 to k5 (R97 to R99), which settle O10 and O11. -/

namespace Sys2Proof.Machine

open Sys2Proof.Spec

/-! ### Words that compute one register -/

/-- A word that computes g(d) and may write it, when the step is its team's. -/
theorem helmValue_turn {s : State} {t : Team} (h : HelmTurn s t) {d : GReg} (hp : t.mayWrite d = true) (len : Nat) (f : Team → W64) :
    helmValue len d f s = .next (s.afterValue t len d (f t)) := by
  obtain ⟨hcur, hteam, hmay⟩ := h
  exact helmValue_next hcur hteam hmay len d f hp

/-- The same of a word by its meaning and its value. -/
theorem exec_value {s : State} {t : Team} {i : Instr} {len : Nat} {d : GReg} {f : Team → W64} {v : W64} (h : HelmTurn s t)
    (hp : t.mayWrite d = true) (he : exec i s = helmValue len d f s) (hv : f t = v) : exec i s = .next (s.afterValue t len d v) := by
  rw [he, helmValue_turn h hp, hv]

theorem intValue_exec {g : GReg → W64} {i : Instr} {x : GReg × W64} (h : intValue g i = some x) :
    ∃ f, ∀ s, exec i s = helmValue 4 x.1 f s := by
  unfold intValue at h
  split at h <;> cases h <;> exact ⟨_, fun _ => rfl⟩

theorem floatValue_exec {g : GReg → W64} {o : Bool → Nat} {i : Instr} {x : Nat × GReg × W64} (h : floatValue g o i = some x) :
    ∃ f, ∀ s, exec i s = helmValue x.1 x.2.1 f s := by
  unfold floatValue at h
  split at h <;> cases h <;> exact ⟨_, fun _ => rfl⟩

theorem orderValue_exec {g : GReg → W64} {i : Instr} {x : GReg × W64} (h : orderValue g i = some x) :
    ∃ f, ∀ s, exec i s = helmValue 4 x.1 f s := by
  unfold orderValue at h
  split at h <;> cases h <;> exact ⟨_, fun _ => rfl⟩

/-- Each word that computes one register does that and nothing else. -/
theorem valueWord_exec {i : Instr} {len : Nat} {d : GReg} (h : valueWord i = some (len, d)) : ∃ f, ∀ s, exec i s = helmValue len d f s := by
  unfold valueWord at h
  split at h
  case h_1 | h_2 | h_3 | h_4 | h_5 => cases h; exact ⟨_, fun _ => rfl⟩
  case h_6 =>
    split at h
    · next x hx => cases h; exact intValue_exec hx
    · split at h
      · next x hx => cases h; exact floatValue_exec hx
      · obtain ⟨x, hx, hd⟩ := Option.map_eq_some_iff.1 h
        cases hd
        exact orderValue_exec hx

/-! ### The values of integer words (R105, R106, R108) -/

theorem ofNat_toNat_add (a b : W64) : BitVec.ofNat 64 (a.toNat + b.toNat) = a + b := rfl
theorem ofInt_toInt_sub (a b : W64) : BitVec.ofInt 64 (a.toInt - b.toInt) = a - b :=
  BitVec.eq_of_toInt_eq (by simp [BitVec.toInt_sub])
theorem ofNat_toNat_mul (a b : W64) : BitVec.ofNat 64 (a.toNat * b.toNat) = a * b := by simp [BitVec.ofNat_mul]

theorem ofNat_mul_two_pow (a : W64) (k : Nat) : BitVec.ofNat 64 (a.toNat * 2 ^ k) = a <<< k :=
  BitVec.eq_of_toNat_eq (by simp [Nat.shiftLeft_eq])

theorem ofNat_div_two_pow (a : W64) (k : Nat) : BitVec.ofNat 64 (a.toNat / 2 ^ k) = a >>> k := by
  rw [← Nat.shiftRight_eq_div_pow, ← BitVec.toNat_ushiftRight, BitVec.ofNat_toNat, BitVec.setWidth_eq]

theorem ofInt_div_two_pow (a : W64) (k : Nat) : BitVec.ofInt 64 (a.toInt / 2 ^ k) = a.sshiftRight k := by
  have h : a.toInt / 2 ^ k = (a.sshiftRight k).toInt := by simp [BitVec.toInt_sshiftRight, Int.shiftRight_eq_div_pow]
  rw [h, BitVec.ofInt_toInt]

theorem ofNat_div_toNat (a b : W64) : BitVec.ofNat 64 (a.toNat / b.toNat) = a / b := by
  rw [← BitVec.toNat_udiv, BitVec.ofNat_toNat, BitVec.setWidth_eq]

theorem ofNat_mod_toNat (a b : W64) : BitVec.ofNat 64 (a.toNat % b.toNat) = a % b := by
  rw [← BitVec.toNat_umod, BitVec.ofNat_toNat, BitVec.setWidth_eq]

/-- The signed minimum does not depend on which of two equal operands is taken. -/
theorem ite_slt_eq_ite_le (a b : W64) : (if a.slt b then a else b) = if a.toInt ≤ b.toInt then a else b := by
  rcases lt_trichotomy a.toInt b.toInt with h | h | h
  · rw [if_pos (by simpa [BitVec.slt] using h), if_pos h.le]
  · simp [BitVec.eq_of_toInt_eq h]
  · rw [if_neg (by simpa [BitVec.slt] using h.le), if_neg (by omega)]

theorem ite_slt_eq_ite_le_swap (a b : W64) : (if a.slt b then b else a) = if a.toInt ≤ b.toInt then b else a := by
  rcases lt_trichotomy a.toInt b.toInt with h | h | h
  · rw [if_pos (by simpa [BitVec.slt] using h), if_pos h.le]
  · simp [BitVec.eq_of_toInt_eq h]
  · rw [if_neg (by simpa [BitVec.slt] using h.le), if_neg (by omega)]

theorem ite_ult_eq_ite_le (a b : W64) : (if a.ult b then a else b) = if a.toNat ≤ b.toNat then a else b := by
  rcases lt_trichotomy a.toNat b.toNat with h | h | h
  · rw [if_pos (by simpa [BitVec.ult] using h), if_pos h.le]
  · simp [BitVec.eq_of_toNat_eq h]
  · rw [if_neg (by simpa [BitVec.ult] using h.le), if_neg (by omega)]

theorem ite_ult_eq_ite_le_swap (a b : W64) : (if a.ult b then b else a) = if a.toNat ≤ b.toNat then b else a := by
  rcases lt_trichotomy a.toNat b.toNat with h | h | h
  · rw [if_pos (by simpa [BitVec.ult] using h), if_pos h.le]
  · simp [BitVec.eq_of_toNat_eq h]
  · rw [if_neg (by simpa [BitVec.ult] using h.le), if_neg (by omega)]

theorem boolWord_slt (a b : W64) : boolWord (a.slt b) = if a.toInt < b.toInt then 1 else 0 := by simp [boolWord, BitVec.slt]
theorem boolWord_ult (a b : W64) : boolWord (a.ult b) = if a.toNat < b.toNat then 1 else 0 := by simp [boolWord, BitVec.ult]

theorem countOnes_eq (a n : Nat) : countOnes a n = (List.range n).countP fun i => a.testBit i := by
  induction n with
  | zero => rfl
  | succ n ih =>
    have hb : a / 2 ^ n % 2 = if a.testBit n then 1 else 0 := by
      rw [Nat.testBit_eq_decide_div_mod_eq]
      rcases Nat.mod_two_eq_zero_or_one (a / 2 ^ n) with h | h <;> simp [h]
    rw [countOnes, ih, hb, List.range_succ, List.countP_append, List.countP_singleton, Nat.add_comm]

/-- A field mask has its bits from its low end over its width (R107). -/
theorem fieldMask_getLsbD (b : W64) {j : Nat} (hj : j < 64) :
    (fieldMask b).getLsbD j = (decide (b.toNat % 64 ≤ j) && decide (j < b.toNat % 64 + (b.toNat / 64 % 64 + 1))) := by
  simp only [fieldMask, BitVec.getLsbD_ofNat, hj, decide_true, Bool.true_and, Nat.testBit_mul_two_pow, Nat.testBit_two_pow_sub_one]
  by_cases h : b.toNat % 64 ≤ j <;> simp [h]
  omega

/-- The field that `bext` takes, bit by bit (R107). -/
theorem bext_getLsbD (a b : W64) (j : Nat) : ((a &&& fieldMask b) >>> (b.toNat % 64)).getLsbD j =
    (decide (j < b.toNat / 64 % 64 + 1) && a.getLsbD (b.toNat % 64 + j)) := by
  rw [BitVec.getLsbD_ushiftRight, BitVec.getLsbD_and]
  by_cases h : b.toNat % 64 + j < 64
  · rw [fieldMask_getLsbD b h, Bool.and_comm]
    simp
  · rw [BitVec.getLsbD_of_ge a _ (by omega)]
    simp

theorem bext_eq (a b : W64) : (a &&& fieldMask b) >>> (b.toNat % 64) =
    BitVec.ofNat 64 (a.toNat / 2 ^ (b.toNat % 64) % 2 ^ (b.toNat / 64 % 64 + 1)) := by
  apply BitVec.eq_of_getLsbD_eq
  intro j hj
  rw [bext_getLsbD a b j, BitVec.getLsbD_ofNat, Nat.testBit_mod_two_pow, Nat.testBit_div_two_pow, decide_eq_true hj, Bool.true_and,
    BitVec.testBit_toNat, Nat.add_comm j]

/-- The value of an integer word, by its meaning, is the one of R105 to R108. -/
theorem intValue_run {g : GReg → W64} {i : Instr} {d : GReg} {v : W64} (h : intValue g i = some (d, v)) :
    ∃ f, (∀ s, exec i s = helmValue 4 d f s) ∧ ∀ t : Team, t.reg = g → f t = v := by
  unfold intValue at h
  split at h <;> cases h <;> refine ⟨_, fun _ => rfl, ?_⟩ <;> rintro t rfl
  case h_1 d a b => exact (ofNat_toNat_add _ _).symm
  case h_2 d a b => exact (ofInt_toInt_sub _ _).symm
  case h_3 | h_4 | h_5 => rfl
  case h_6 d a b => exact (ofNat_mul_two_pow _ _).symm
  case h_7 d a b => exact (ofNat_div_two_pow _ _).symm
  case h_8 d a b => exact (ofInt_div_two_pow _ _).symm
  case h_9 d a b => exact (ofNat_toNat_mul _ _).symm
  case h_10 | h_11 | h_12 | h_14 => rfl
  case h_13 d a b => simp only [divNatural, ofNat_div_toNat]
  case h_15 d a b => simp only [remNatural, ofNat_mod_toNat]
  case h_16 d a b => exact ite_slt_eq_ite_le _ _
  case h_17 d a b => exact ite_ult_eq_ite_le _ _
  case h_18 d a b => exact ite_slt_eq_ite_le_swap _ _
  case h_19 d a b => exact ite_ult_eq_ite_le_swap _ _
  case h_20 d a b => exact boolWord_slt _ _
  case h_21 d a b => exact boolWord_ult _ _
  case h_22 d a => simp only [countOnes_eq]; rfl
  case h_23 d a b => exact bext_eq _ _
  case h_24 d a imm => simp [imm12, BitVec.signExtend, BitVec.ofInt_add]
  case h_25 | h_26 | h_27 => rfl
  case h_28 d a imm => simp only [boolWord_slt, imm12]; rw [BitVec.toInt_signExtend_of_le (by decide)]
  case h_29 d a n => exact (ofNat_mul_two_pow _ _).symm
  case h_30 d a n => exact (ofNat_div_two_pow _ _).symm
  case h_31 d a n => exact (ofInt_div_two_pow _ _).symm

/-- Settles O6: each integer word is the one computation of R105 to R108. -/
theorem integerWords : Obligations.IntegerWords := by
  unfold Obligations.IntegerWords
  intro s t i d v h hp hv
  obtain ⟨f, he, hf⟩ := intValue_run hv
  exact exec_value h hp (he s) (hf t rfl)

/-- Settles O7: the corners of R106 are read off the values of O6. -/
theorem divisionCorners : Obligations.DivisionCorners := by
  unfold Obligations.DivisionCorners
  intro s t d a b h hp
  refine ⟨fun hb => ⟨?_, ?_, ?_, ?_⟩, fun ha hb => ⟨?_, ?_⟩⟩
  · exact exec_value h hp rfl (by simp only [divSigned, hb, if_true]; rfl)
  · exact exec_value h hp rfl (by simp only [divNatural, hb, if_true]; rfl)
  · exact exec_value h hp rfl (by simp only [remSigned, hb, if_true])
  · exact exec_value h hp rfl (by simp only [remNatural, hb, if_true])
  · exact exec_value h hp rfl (by simp only [divSigned, ha, hb]; decide)
  · exact exec_value h hp rfl (by simp only [remSigned, ha, hb]; decide)

/-! ### Bit fields, constants and addresses (R105, R107, R115, R116) -/

/-- The powers of 2 below 2^n that exceed a number are those from its length in bits on. -/
theorem countP_lt_two_pow {a : Nat} (ha : a ≠ 0) (n : Nat) :
    ((List.range n).countP fun i => decide (a < 2 ^ i)) = n - (Nat.log2 a + 1) := by
  induction n with
  | zero => simp
  | succ n ih =>
    have hlog : a < 2 ^ n ↔ Nat.log2 a < n := (Nat.log2_lt ha).symm
    rw [List.range_succ, List.countP_append, ih, List.countP_singleton]
    by_cases h : a < 2 ^ n
    · rw [if_pos (by simpa using h)]
      have := hlog.1 h
      omega
    · rw [if_neg (by simpa using h)]
      have : ¬Nat.log2 a < n := fun hl => h (hlog.2 hl)
      omega

theorem leadingZeros_eq (a : W64) : leadingZeros a = (List.range 64).countP fun i => decide (a.toNat < 2 ^ i) := by
  unfold leadingZeros
  split
  · next h => subst h; decide
  · next h =>
    have ha : a.toNat ≠ 0 := fun h0 => h (BitVec.eq_of_toNat_eq h0)
    rw [countP_lt_two_pow ha]
    omega

/-- The register with a field put in, bit by bit (R107). -/
theorem bins_getLsbD (a b d : W64) {j : Nat} (hj : j < 64) :
    ((d &&& ~~~(fieldMask b)) ||| ((a <<< (b.toNat % 64)) &&& fieldMask b)).getLsbD j =
      if b.toNat % 64 ≤ j ∧ j < b.toNat % 64 + (b.toNat / 64 % 64 + 1) then a.getLsbD (j - b.toNat % 64) else d.getLsbD j := by
  simp only [BitVec.getLsbD_or, BitVec.getLsbD_and, BitVec.getLsbD_not, BitVec.getLsbD_shiftLeft, fieldMask_getLsbD b hj, hj, decide_true,
    Bool.true_and]
  by_cases hlo : b.toNat % 64 ≤ j <;> by_cases hhi : j < b.toNat % 64 + (b.toNat / 64 % 64 + 1) <;> simp [hlo, hhi]

/-- The base of a descriptor is its low 57 bits (R352). -/
theorem segBase_eq (sg : W128) : segBase sg = sg.toNat % 2 ^ 57 := by simp [segBase, bitsOf]

/-- Settles O8: each word by its value. -/
theorem bitFieldAndConstantWords : Obligations.BitFieldAndConstantWords := by
  unfold Obligations.BitFieldAndConstantWords
  refine ⟨fun s t d a b h hp => ⟨?_, ?_, ?_⟩, fun s t d a seg imm h hp => ⟨?_, ?_, ?_⟩⟩
  · exact exec_value h hp rfl (congrArg (BitVec.ofNat 64) (leadingZeros_eq (t.reg a)))
  · exact ⟨_, exec_value h hp rfl rfl, fun j _ => bext_getLsbD _ _ j⟩
  · exact ⟨_, exec_value h hp rfl rfl, fun j hj => bins_getLsbD _ _ _ hj⟩
  · exact exec_value h hp rfl rfl
  · exact exec_value h hp rfl (congrArg (BitVec.ofNat 64) (Nat.add_comm _ _))
  · exact exec_value h hp rfl (by
      have hseg : ((t.seg seg.toNat).toNat : Int) % 2 ^ 57 = (((t.seg seg.toNat).toNat % 2 ^ 57 : Nat) : Int) := by push_cast; rfl
      rw [segBase_eq, hseg, BitVec.ofInt_add, BitVec.ofInt_add, BitVec.ofInt_natCast, BitVec.ofInt_natCast, BitVec.ofNat_toNat,
        BitVec.setWidth_eq]
      rfl)

/-! ### What the words that compute one register leave alone (R97 to R99) -/

/-- Memory, its write records and the entries of pages are as they were. -/
def State.MemoryStands (s s' : State) : Prop := s'.mem = s.mem ∧ s'.writes = s.writes ∧ s'.entered = s.entered

theorem State.MemoryStands.sameMemory {s s' : State} (h : s.MemoryStands s') : State.SameMemory s s' :=
  SameMemory.of_eq h.1 h.2.1 ⟨[], h.2.2⟩

/-- The machine after such a word: memory, the other teams, and all of its own team but g(d) and how it goes on. -/
theorem State.afterValue_frame {s : State} {t w : Team} (h : s.team? t.key = some w) (len : Nat) (d : GReg) (v : W64) :
    s.MemoryStands (s.afterValue t len d v) ∧ State.SameOthers s (s.afterValue t len d v) t.key ∧
      ∃ u, (s.afterValue t len d v).team? t.key = some u ∧ w.SameRegsBut u d ∧ w.SameSpecial u := by
  have hset : (s.mapTeam t.key (·.setReg d v)).team? t.key = some (w.setReg d v) :=
    State.team?_mapTeam_some h _ fun _ => Team.setReg_key _ _ _
  obtain ⟨hmem, hwrites, -, hent, hothers, u, hu, hg, hspecial⟩ := State.retire_frame hset len .seq
  refine ⟨⟨hmem, hwrites, hent⟩, fun j hj => (hothers j hj).trans ?_, u, hu, fun r hr => ?_, ?_⟩
  · exact State.team?_mapTeam_other s t.key j hj _ fun _ hk => (Team.setReg_key _ _ _).trans hk
  · rw [← Team.reg_setReg_other w d r v hr, Team.reg, Team.reg, hg]
  · exact .trans (by simp [Team.SameSpecial]) hspecial

/-- Settles O10: a value word is one write of its register. -/
theorem valueWordsFrame : Obligations.ValueWordsFrame := by
  unfold Obligations.ValueWordsFrame
  intro s s' t i len d h hp hi hx
  obtain ⟨f, he⟩ := valueWord_exec hi
  rw [he, helmValue_turn h hp] at hx
  cases hx
  obtain ⟨-, hteam, -⟩ := h
  obtain ⟨hmem, hothers, hown⟩ := State.afterValue_frame hteam len d (f t)
  exact ⟨hmem.sameMemory, hothers, hown⟩

theorem State.mapTeam_id (s : State) (k : Nat) {f : Team → Team} (h : ∀ t, f t = t) : s.mapTeam k f = s := by
  simp [State.mapTeam, h]

/-- Settles O11: a write of g0 is none, and the privilege test of R99 decides the writes of k0 to k5. -/
theorem helmRegisters : Obligations.HelmRegisters := by
  unfold Obligations.HelmRegisters
  refine ⟨⟨Team.reg_zero, fun s t i len h hi => ?_⟩, fun s t i len d h hi hk => ⟨fun hs => ?_, fun hs => ?_⟩⟩
  · obtain ⟨f, he⟩ := valueWord_exec hi
    rw [he, helmValue_turn h (by simp [Team.mayWrite, isKReg]), State.afterValue, State.mapTeam_id s t.key fun u => u.setReg_zero _]
  · obtain ⟨f, he⟩ := valueWord_exec hi
    obtain ⟨hcur, hteam, hmay⟩ := h
    exact (he s).trans (helmValue_priv hcur hteam hmay len d f (by simp [hs, hk]))
  · obtain ⟨f, he⟩ := valueWord_exec hi
    exact ⟨f t, (he s).trans (helmValue_turn h (by simp [Team.mayWrite, hs]) len f)⟩

end Sys2Proof.Machine
end

section
/-! What an access changes beside what it reads or writes (R118, R119, R350, R359 to R362): choices taken, leaves cached, pages entered, requests
sent and fills asked for. -/

namespace Sys2Proof.Machine

/-! ### How a meaning ends -/

/-- A relation that holds across nothing, and across two steps where it holds across each. -/
structure Frame (R : State → State → Prop) : Prop where
  refl : ∀ s, R s s
  trans : ∀ {a b c}, R a b → R b c → R a c

/-- The state that a meaning ends or waits in is related to `s`, and what it traps with satisfies `T`. -/
def Within (R : State → State → Prop) (T : Cause → Prop) (s : State) {α : Type} : Except Stop (α × State) → Prop
  | .ok (_, s') => R s s'
  | .error (.wait _ s') => R s s'
  | .error (.trap c) => T c
  | .error (.fault _) => True

/-- A meaning that ends so from every state. -/
def M.Within {α : Type} (R : State → State → Prop) (T : Cause → Prop) (m : M α) : Prop := ∀ s, Machine.Within R T s (m s)

namespace M.Within

variable {R : State → State → Prop} {T : Cause → Prop} {α β : Type}

theorem ok {m : M α} (h : m.Within R T) {s s' : State} {a : α} (e : m s = .ok (a, s')) : R s s' := by have := h s; rwa [e] at this
theorem wait {m : M α} (h : m.Within R T) {s s' : State} {w : WaitFor} (e : m s = .error (.wait w s')) : R s s' := by have := h s; rwa [e] at this
theorem trap {m : M α} (h : m.Within R T) {s : State} {c : Cause} (e : m s = .error (.trap c)) : T c := by have := h s; rwa [e] at this

theorem pure (hR : Frame R) (a : α) : M.Within R T (pure a : M α) := hR.refl
theorem get (hR : Frame R) : M.Within R T (get : M State) := hR.refl
theorem modify {f : State → State} (h : ∀ s, R s (f s)) : M.Within R T (modify f : M PUnit) := h
theorem mapTeamM {k : Nat} {f : Team → Team} (h : ∀ s, R s (s.mapTeam k f)) : M.Within R T (mapTeamM k f) := h

theorem raise {code fva info : Nat} {write fetch : Bool}
    (h : T { code := code, fva := fva % 2 ^ 64, info := info, write := write, fetch := fetch, mask := none }) :
    M.Within R T (raise code fva info write fetch : M α) := fun _ => h

theorem bind (hR : Frame R) {m : M α} {f : α → M β} (hm : m.Within R T) (hf : ∀ a, (f a).Within R T) : (m >>= f).Within R T := by
  intro s
  have hs := hm s
  cases h : m s with
  | error x =>
    rw [M.bind_error h]
    rw [h] at hs
    cases x <;> exact hs
  | ok p =>
    obtain ⟨a, u⟩ := p
    rw [M.bind_ok h]
    rw [h] at hs
    have hu := hf a u
    revert hu
    cases f a u with
    | ok q => exact hR.trans hs
    | error x =>
      cases x with
      | wait w v => exact hR.trans hs
      | trap c => exact id
      | fault e => exact id

theorem ite {c : Prop} {_ : Decidable c} {m n : M α} (hm : m.Within R T) (hn : n.Within R T) : (if c then m else n).Within R T := by
  split
  · exact hm
  · exact hn

/-- A step that is made only where the condition holds, and what follows it. -/
theorem guard (hR : Frame R) {c : Prop} {_ : Decidable c} {m : M Unit} {f : Unit → M α} (hm : m.Within R T) (hf : ∀ a, (f a).Within R T) :
    (if c then m >>= f else f ()).Within R T := .ite (.bind hR hm hf) (hf ())

theorem need (hR : Frame R) {b : Bool} {code fva : Nat}
    (h : T { code := code, fva := fva % 2 ^ 64, info := 0, write := false, fetch := false, mask := none }) : (need b code fva).Within R T := by
  intro s
  cases b with
  | true => exact hR.refl s
  | false => exact h

/-- A trap ends the sequence. -/
theorem raise_bind {code fva info : Nat} {write fetch : Bool} {f : α → M β}
    (h : T { code := code, fva := fva % 2 ^ 64, info := info, write := write, fetch := fetch, mask := none }) :
    ((Machine.raise code fva info write fetch : M α) >>= f).Within R T := fun _ => h

/-- A wait ends the sequence. -/
theorem wait_bind {w : WaitFor} {f : State → State} {k : α → M β} (h : ∀ s, R s (f s)) :
    ((fun s => .error (.wait w (f s)) : M α) >>= k).Within R T := h

/-- The same with nothing said of its traps. -/
theorem anyTrap {m : M α} (h : m.Within R T) : m.Within R fun _ => True := by
  intro s
  have hs := h s
  revert hs
  cases m s with
  | ok p => exact id
  | error x =>
    cases x with
    | wait w u => exact id
    | trap c => exact fun _ => trivial
    | fault e => exact id

end M.Within

/-! ### What an access may change -/

/-- The machine after an access: choices have been taken, leaves cached, pages have entered contexts, links have sent requests, and a fill may be
asked for. All else stands. -/
def State.Reached (s s' : State) : Prop :=
  ∃ tick tlb new links fills, s' = { s with tick := tick, tlb := tlb, entered := new ++ s.entered, links := links, fills := fills }

theorem State.Reached.frame : Frame State.Reached where
  refl s := ⟨s.tick, s.tlb, [], s.links, s.fills, rfl⟩
  trans := by
    rintro a _ _ ⟨_, _, new, _, _, rfl⟩ ⟨tick, tlb, new', links, fills, rfl⟩
    exact ⟨tick, tlb, new' ++ new, links, fills, by simp⟩

namespace State.Reached

theorem ite {c : Prop} {_ : Decidable c} {s a b : State} (ha : s.Reached a) (hb : s.Reached b) : s.Reached (if c then a else b) := by
  split
  · exact ha
  · exact hb

variable {s s' : State} (h : s.Reached s')
include h

theorem teams : s'.teams = s.teams := by obtain ⟨_, _, _, _, _, rfl⟩ := h; rfl
theorem mem : s'.mem = s.mem := by obtain ⟨_, _, _, _, _, rfl⟩ := h; rfl
theorem writes : s'.writes = s.writes := by obtain ⟨_, _, _, _, _, rfl⟩ := h; rfl
theorem nests : s'.nests = s.nests := by obtain ⟨_, _, _, _, _, rfl⟩ := h; rfl
theorem lastQueues : s'.lastQueues = s.lastQueues := by obtain ⟨_, _, _, _, _, rfl⟩ := h; rfl
theorem mgmt : s'.mgmt = s.mgmt := by obtain ⟨_, _, _, _, _, rfl⟩ := h; rfl
theorem enters : State.Enters s s' := by obtain ⟨_, _, new, _, _, rfl⟩ := h; exact ⟨new, rfl⟩
theorem team? (k : Nat) : s'.team? k = s.team? k := by rw [State.team?, State.team?, h.teams]
theorem sameMemory : State.SameMemory s s' := SameMemory.of_eq h.mem h.writes h.enters

end State.Reached

theorem State.reached_tick (s : State) (n : Nat) : s.Reached { s with tick := n } := ⟨n, s.tlb, [], s.links, s.fills, rfl⟩
theorem State.reached_fill (s : State) (f : Fill) : s.Reached { s with fills := s.fills ++ [f] } := ⟨s.tick, s.tlb, [], s.links, s.fills ++ [f], rfl⟩

theorem State.fillTlb_reached (s : State) (bay : Nat) (helm : Bool) (aspace va : Nat) (large : Bool) (leaf : Nat) :
    s.Reached (s.fillTlb bay helm aspace va large leaf) := by
  unfold State.fillTlb
  exact .ite (State.Reached.frame.refl s) ⟨s.tick, _, [], s.links, s.fills, rfl⟩

theorem State.enterUse_reached (s : State) (root dctx va : Nat) (large : Bool) (leaf : Nat) : s.Reached (s.enterUse root dctx va large leaf) := by
  unfold State.enterUse
  exact .ite (State.Reached.frame.refl s) (.ite (State.Reached.frame.refl s) ⟨s.tick, s.tlb, [_], s.links, s.fills, rfl⟩)

theorem State.sendFlit_reached (s : State) (type node : Nat) : s.Reached (s.sendFlit type node) := by
  unfold State.sendFlit
  dsimp only
  split
  · exact State.Reached.frame.refl s
  · exact ⟨s.tick + 1, s.tlb, [], _, s.fills, rfl⟩

/-! ### The parts of an access -/

/-- A trap says that a write failed only where the access writes. -/
def Cause.WriteOf (k : AccessKind) (c : Cause) : Prop := c.write = true → (k == .write || k == .atomic) = true


theorem choose_within {T : Cause → Prop} (n : Nat) : (choose n).Within State.Reached T := by
  intro s
  unfold choose
  show s.Reached (if n ≤ 1 then s else _)
  exact .ite (State.Reached.frame.refl s) (s.reached_tick _)

theorem checkHealth_within {k : AccessKind} {write : Bool} (hw : write = true → (k == .write || k == .atomic) = true) (loc fva : Nat) :
    (checkHealth loc fva write).Within State.Reached (Cause.WriteOf k) := by
  unfold checkHealth
  refine .bind State.Reached.frame (.get State.Reached.frame) fun s => .ite ?_ ?_
  · split
    split
    · exact .ite (.pure State.Reached.frame _) (.ite (.raise nofun) (.bind State.Reached.frame (choose_within 2) fun _ => .need State.Reached.frame nofun))
    · exact .pure State.Reached.frame _
  · split
    · exact .guard State.Reached.frame (.raise hw) fun _ => .modify fun s => s.sendFlit_reached _ _
    · exact .pure State.Reached.frame _

theorem chooseLeaf_within (roots : List Nat) (aspace dctx die : Nat) (super : Bool) (k : AccessKind) (va : Nat) (opts : List (Option (Bool × Nat))) :
    (chooseLeaf roots aspace dctx die super k va opts).Within State.Reached (Cause.WriteOf k) := by
  unfold chooseLeaf
  refine .bind State.Reached.frame (choose_within _) fun i => ?_
  split
  · exact .raise id
  · refine .bind State.Reached.frame (.get State.Reached.frame) fun s => ?_
    refine .ite (.ite (.wait_bind State.Reached.frame.refl) (.ite (.wait_bind fun s => s.reached_fill _) (.raise_bind id))) ?_
    refine .ite (.ite (.bind State.Reached.frame (choose_within 2) fun _ => .raise_bind id) (.bind State.Reached.frame (.pure State.Reached.frame 0) fun _ => .raise_bind id)) ?_
    exact .ite (.raise_bind id) (.bind State.Reached.frame (.modify fun s => s.enterUse_reached _ _ _ _ _) fun _ => .pure State.Reached.frame _)

theorem reachLeaf_within (k : AccessKind) (va : Nat) (large : Bool) (leaf : Nat) : (reachLeaf k va large leaf).Within State.Reached (Cause.WriteOf k) := by
  unfold reachLeaf
  exact .guard State.Reached.frame (checkHealth_within (fun h => by simp [h]) _ _) fun _ => .pure State.Reached.frame _

theorem translate_within (roots : List Nat) (aspace dctx bay : Nat) (helm super : Bool) (k : AccessKind) (va : Nat) :
    (translate roots aspace dctx bay helm super k va).Within State.Reached (Cause.WriteOf k) := by
  unfold translate
  refine .guard State.Reached.frame (.raise id) fun _ => .bind State.Reached.frame (.get State.Reached.frame) fun s => .bind State.Reached.frame (chooseLeaf_within _ _ _ _ _ _ _ _) fun x => ?_
  exact .guard State.Reached.frame (.modify fun s => s.fillTlb_reached _ _ _ _ _ _) fun _ => .bind State.Reached.frame (reachLeaf_within _ _ _ _) fun _ => .pure State.Reached.frame _

theorem partTranslate_within (t : Team) (va : Nat) (k : AccessKind) : (partTranslate t va k).Within State.Reached fun _ => True := by
  unfold partTranslate
  refine .guard State.Reached.frame (.raise trivial) fun _ => .bind State.Reached.frame (.get State.Reached.frame) fun s => .bind State.Reached.frame (chooseLeaf_within _ _ _ _ _ _ _ _).anyTrap fun x => ?_
  exact (reachLeaf_within _ _ _ _).anyTrap

theorem address_within (t : Team) (bay : Nat) (helm super : Bool) (sg : W128) (off : Int) (n : Nat) (k : AccessKind) :
    (address t bay helm super sg off n k).Within State.Reached (Cause.WriteOf k) := by
  unfold address
  refine .guard State.Reached.frame (.raise id) fun _ => .guard State.Reached.frame (.raise id) fun _ => .guard State.Reached.frame (.raise id) fun _ => .guard State.Reached.frame (.raise id) fun _ => ?_
  refine .bind State.Reached.frame (.get State.Reached.frame) fun s => ?_
  split
  · exact .ite (.pure State.Reached.frame _) (.bind State.Reached.frame (translate_within _ _ _ _ _ _ _ _) fun _ => .pure State.Reached.frame _)
  · exact .ite (.pure State.Reached.frame _) (.raise id)
  · split
    · exact .pure State.Reached.frame _
    · exact .raise id

theorem watchAccess_within {k : AccessKind} (t : Team) (l : Located) (n : Nat) (r : Bool) {w : Bool}
    (hw : w = true → (k == .write || k == .atomic) = true) : (watchAccess t l n r w).Within State.Reached (Cause.WriteOf k) := by
  unfold watchAccess
  split
  · exact .pure State.Reached.frame _
  · split
    · exact .raise hw
    · exact .pure State.Reached.frame _

/-- The address of a helm access, but for a fetch, which the helm makes in another way. -/
theorem helmAddress_within (t : Team) (sg : W128) (off : Int) (n : Nat) {k : AccessKind} (hk : k ≠ .fetch) :
    (helmAddress t sg off n k).Within State.Reached (Cause.WriteOf k) := by
  unfold helmAddress
  refine .bind State.Reached.frame (address_within _ _ _ _ _ _ _ _) fun l => .bind State.Reached.frame (watchAccess_within _ _ _ _ fun h => ?_) fun _ => .pure State.Reached.frame _
  cases k <;> simp_all

end Sys2Proof.Machine
end

section
/-! The part's own accesses (R360, R366; log 17), and the object switch (R124, R417, R418, R420), which settles O15. -/

namespace Sys2Proof.Machine

open Sys2Proof.Spec

/-! ### What serving an access leaves of the teams -/

/-- What a team keeps while the part serves accesses and acquires for it: all but its waits, its realisation and its watches. -/
def Team.core (t : Team) : Team := { t with waitFor := none, groups := [], mmcfg := 0, regions := [], watches := [] }

/-- The core of a team, and how many groups it has. -/
def Team.stem (t : Team) : Team × Nat := (t.core, t.groups.length)

/-- A field of the core is the same in teams of one stem. -/
theorem Team.of_stem {β : Type} {t u : Team} (h : u.stem = t.stem) (f : Team → β) (hf : ∀ t : Team, f t.core = f t) : f u = f t := by
  rw [← hf u, ← hf t]
  exact congrArg (fun x => f x.1) h

/-- The teams agree in a property, one by one. -/
def State.SameTeams {β : Type} (π : Team → β) (s s' : State) : Prop := s'.teams.map π = s.teams.map π

theorem State.SameTeams.frame {β : Type} (π : Team → β) : Frame (State.SameTeams π) := ⟨fun _ => rfl, fun h h' => h'.trans h⟩

theorem State.SameTeams.of_factor {β γ : Type} {π : Team → β} {s s' : State} (h : s.SameTeams π s') (f : β → γ) : s.SameTeams (f ∘ π) s' := by
  have := congrArg (List.map f) h
  simpa [State.SameTeams, List.map_map] using this

theorem State.mapTeam_sameTeams {β : Type} {π : Team → β} (s : State) (k : Nat) (f : Team → Team) (h : ∀ t, π (f t) = π t) :
    s.SameTeams π (s.mapTeam k f) := by
  unfold State.SameTeams State.mapTeam
  refine map_eq_of_image (fun t => ?_) s.teams
  split
  · exact h t
  · rfl

/-- The team of a key under a property that tells the key. -/
theorem State.SameTeams.team? {β : Type} {π : Team → β} {s s' : State} (h : s.SameTeams π s') (hk : ∀ t u, π t = π u → t.key = u.key) {k : Nat}
    {t : Team} (ht : s.team? k = some t) : ∃ u, s'.team? k = some u ∧ π u = π t := by
  have hfind (l l' : List Team) (hl : l'.map π = l.map π) (hlt : (l.find? fun t => t.key == k) = some t) :
      ∃ u, (l'.find? fun t => t.key == k) = some u ∧ π u = π t := by
    induction l generalizing l' with
    | nil => simp at hlt
    | cons a l ih =>
      obtain ⟨b, l', rfl, hb, hl⟩ := List.map_eq_cons_iff.1 hl
      have hkey := hk b a hb
      rw [List.find?_cons] at hlt ⊢
      rw [hkey]
      split at hlt
      · cases hlt
        exact ⟨b, rfl, hb⟩
      · exact ih l' hl hlt
  exact hfind s.teams s'.teams h ht

/-- The machine after the part has served accesses and acquires: every team keeps its stem, and the nests, the walkers' pointers and the management
registers stand. -/
structure State.Served (s s' : State) : Prop where
  teams : s.SameTeams Team.stem s'
  nests : s'.nests = s.nests
  lastQueues : s'.lastQueues = s.lastQueues
  mgmt : s'.mgmt = s.mgmt

namespace State.Served

theorem frame : Frame State.Served where
  refl _ := ⟨rfl, rfl, rfl, rfl⟩
  trans h h' := ⟨h'.teams.trans h.teams, h'.nests.trans h.nests, h'.lastQueues.trans h.lastQueues, h'.mgmt.trans h.mgmt⟩

theorem of_eq {s s' : State} (ht : s'.teams = s.teams) (hn : s'.nests = s.nests) (hq : s'.lastQueues = s.lastQueues) (hm : s'.mgmt = s.mgmt) :
    s.Served s' := ⟨congrArg _ ht, hn, hq, hm⟩

theorem of_reached {s s' : State} (h : s.Reached s') : s.Served s' := of_eq h.teams h.nests h.lastQueues h.mgmt

theorem ite {c : Prop} {_ : Decidable c} {s a b : State} (ha : s.Served a) (hb : s.Served b) : s.Served (if c then a else b) := by
  split
  · exact ha
  · exact hb

theorem foldl {α : Type} {f : State → α → State} {s a : State} (ha : s.Served a) (h : ∀ s x, State.Served s (f s x)) (l : List α) :
    s.Served (l.foldl f a) := by
  induction l generalizing a with
  | nil => exact ha
  | cons x l ih => exact ih (frame.trans ha (h a x))

theorem team? {s s' : State} (h : s.Served s') {k : Nat} {t : Team} (ht : s.team? k = some t) : ∃ u, s'.team? k = some u ∧ u.stem = t.stem :=
  h.teams.team? (fun _ _ e => congrArg (fun x => x.1.key) e) ht

end State.Served

theorem State.mapTeam_served (s : State) (k : Nat) (f : Team → Team) (h : ∀ t, (f t).stem = t.stem) : s.Served (s.mapTeam k f) :=
  ⟨s.mapTeam_sameTeams k f h, rfl, rfl, rfl⟩

/-! ### Serving an access -/

theorem State.wakeFills_served (s : State) : s.Served s.wakeFills :=
  ⟨map_eq_of_image (fun t => by simp [Team.stem, Team.core]) s.teams, rfl, rfl, rfl⟩

theorem State.atomicRead_served (s : State) (p : Place) (loc n : Nat) : s.Served (s.atomicRead p loc n).2 := .of_eq rfl rfl rfl rfl

theorem State.invalidate_served (s : State) (die aspace : Nat) (va : Option Nat) (large : Bool) : s.Served (s.invalidate die aspace va large) :=
  .of_eq rfl rfl rfl rfl

theorem State.readAs_served (s : State) (p : Place) (rs : List Region) (va : Option Nat) (loc n : Nat) : s.Served (s.readAs p rs va loc n).2 :=
  .of_eq rfl rfl rfl rfl

theorem State.takeToken_served (s : State) (p : Place) (loc : Nat) : s.Served (s.takeToken p loc) := by
  unfold State.takeToken
  split
  · exact State.Served.frame.refl s
  · extract_lets block holder
    split
    · exact .ite (State.Served.frame.refl s) (.of_eq rfl rfl rfl rfl)
    · exact .of_eq rfl rfl rfl rfl

theorem State.writeAs_served (s : State) (p : Place) (rel : Option Nat) (loc : Nat) (bs : List Byte) : s.Served (s.writeAs p rel loc bs) := by
  have hwrite (known lifted : List Nat) (heads : List Release) : s.Served (s.writeWith p known lifted heads loc bs).2 := by
    refine State.Served.frame.trans (s.takeToken_served p loc) ?_
    simp only [State.writeWith]
    split <;> exact .of_eq rfl rfl rfl rfl
  exact State.Served.frame.trans (hwrite _ _ _) (.of_eq rfl rfl rfl rfl)

/-- The page sequencer changes no team but in its waits. -/
theorem State.fillPage_served (s : State) (f : Fill) : s.Served (s.fillPage f) := by
  unfold State.fillPage
  extract_lets u walks paths
  have hu : s.Served u := State.Served.frame.trans (b := { s with fills := s.fills.erase f }) (.of_eq rfl rfl rfl rfl) (State.wakeFills_served _)
  split
  · exact hu
  · refine .ite hu (.foldl (.foldl ?_ (fun s x => ?_) _) (fun s _ => s.invalidate_served _ _ _ _) _)
    · exact State.Served.frame.trans hu (.of_eq rfl rfl rfl rfl)
    · exact .of_eq rfl rfl rfl rfl

theorem State.partAddr_served {s s' : State} {t : Team} {va loc : Nat} {k : AccessKind} (h : s.partAddr t va k = .ok (loc, s')) : s.Served s' := by
  have hpart : ∀ (u : State) {x : Nat} {u' : State}, partTranslate t va k u = .ok (x, u') → u.Served u' :=
    fun u _ _ e => .of_reached ((partTranslate_within t va k).ok e)
  unfold State.partAddr at h
  cases e : partTranslate t va k s with
  | ok p => rw [e] at h; cases h; exact hpart s e
  | error x =>
    rw [e] at h
    cases x with
    | trap c => cases h
    | fault f => cases h
    | wait w u =>
      dsimp only at h
      cases hf : u.fills.find? fun (f : Fill) => f.aspace == t.dct.aspace && f.va == va / 2 ^ 16 * 2 ^ 16 with
      | none => rw [hf] at h; cases h
      | some f =>
        rw [hf] at h
        dsimp only at h
        cases e' : partTranslate t va k (u.fillPage f) with
        | error x => rw [e'] at h; cases x <;> cases h
        | ok p =>
          rw [e'] at h
          cases h
          exact State.Served.frame.trans (.of_reached ((partTranslate_within t va k).wait e)) (State.Served.frame.trans (u.fillPage_served f) (hpart _ e'))

theorem State.objLoc_served {s s' : State} {t : Team} {obj loc : Nat} (h : s.objLoc t obj = some (loc, s')) : s.Served s' := by
  unfold State.objLoc at h
  cases e : s.partAddr t (t.dct.otBase + 64 * obj) with
  | ok p => rw [e] at h; cases h; exact State.partAddr_served e
  | error c => rw [e] at h; cases h

theorem State.partWrite_served (s : State) (t : Team) (va : Nat) (bs : List Byte) : s.Served (s.partWrite t va bs) := by
  unfold State.partWrite
  split
  · next e => exact State.Served.frame.trans (State.partAddr_served e) (State.writeAs_served _ _ _ _ _)
  · exact State.Served.frame.refl s

theorem State.addRefs_served (s : State) (p : Place) (loc : Nat) (d : Int) : s.Served (s.addRefs p loc d) := by
  unfold State.addRefs
  exact .ite (.of_eq rfl rfl rfl rfl) (.of_eq rfl rfl rfl rfl)

/-! ### The acquire side of a helm word (R310, R314, R317, R318) -/

/-- The machine with some version counters, which an acquire counts up. -/
def State.withCaches (s : State) (cs : List CacheCounters) : State := { s with caches := cs }

/-- SWEPT set (R318). -/
def Team.sweep (t : Team) : Team := { t with mmcfg := t.mmcfg ||| 4 }

theorem State.bumpCounter_eq (s : State) (c : CacheId) (scope : Nat) : ∃ swept cs, s.bumpCounter c scope = (swept, s.withCaches cs) := by
  unfold State.bumpCounter
  split
  · exact ⟨false, s.caches, rfl⟩
  · exact ⟨_, _, rfl⟩

/-- An acquire always ends: it adds to what the helm knows, counts, and may set SWEPT of its team. -/
theorem helmAcquire_run (t : Team) (scope : Nat) (va : Option Nat) (heads : List Release) (s : State) :
    ∃ cs f, (f = id ∨ f = Team.sweep) ∧ helmAcquire t scope va heads s =
      .ok ((), ((s.acquire t.place (widen t.regionsNow scope va) heads).withCaches cs).mapTeam t.key f) := by
  let u := s.acquire t.place (widen t.regionsNow scope va) heads
  have hu : helmAcquire t scope va heads s = (if !bitOf t.mmcfg.toNat 0 then (do
      let s ← get
      let (swept, s) := s.bumpCounter (.helm t.bay) scope
      set s
      if swept then mapTeamM t.key Team.sweep) else pure () : M Unit) u := rfl
  rw [hu]
  by_cases hm : bitOf t.mmcfg.toNat 0 = true
  · refine ⟨u.caches, id, .inl rfl, ?_⟩
    rw [State.mapTeam_id _ _ (f := id) fun _ => rfl, hm]
    rfl
  · obtain ⟨swept, cs, e⟩ := u.bumpCounter_eq (.helm t.bay) scope
    rw [if_pos (by simpa using hm), M.bind_ok (M.get_run u), e]
    cases swept with
    | true => exact ⟨cs, Team.sweep, .inr rfl, rfl⟩
    | false =>
      refine ⟨cs, id, .inl rfl, ?_⟩
      rw [State.mapTeam_id _ _ (f := id) fun _ => rfl]
      rfl

theorem helmAcquire_served {t : Team} {scope : Nat} {va : Option Nat} {heads : List Release} (s : State) :
    ∃ s', helmAcquire t scope va heads s = .ok ((), s') ∧ s.Served s' := by
  obtain ⟨cs, f, hf, h⟩ := helmAcquire_run t scope va heads s
  refine ⟨_, h, State.Served.frame.trans (b := (s.acquire t.place _ heads).withCaches cs) (.of_eq rfl rfl rfl rfl) (State.mapTeam_served _ _ _ ?_)⟩
  rcases hf with rfl | rfl <;> exact fun _ => rfl

/-! ### The object switch (R124, R417, R418, R420) -/

/-- The team with an object pinned and entry `e` bound: the object is current, seg0 and seg1 are its code and its read-only data, and lk holds
its link-table offset. -/
def Team.bound (t : Team) (obj e : Nat) : Team :=
  { t with curObj := obj, curBlkOff := bitsOf e 159 128, curNblk := bitsOf e 175 160
           segs := (t.segs.set 0 (BitVec.ofNat 128 (bitsOf e 511 384))).set 1 (BitVec.ofNat 128 (bitsOf e 383 256))
           g := t.g.set 63 (BitVec.ofNat 64 (bitsOf e 223 192)) }

/-- The pin list with an object (R418). -/
def Team.pinned (t : Team) (obj : Nat) : Team := { t with pins := if t.pins.contains obj then t.pins else t.pins ++ [obj] }

theorem Team.stem_pin {t u : Team} (h : u.stem = t.stem) (obj : Nat) :
    ({ u with pins := u.pins ++ [obj] } : Team).stem = ({ t with pins := t.pins ++ [obj] } : Team).stem :=
  congrArg (fun x : Team × Nat => (({ x.1 with pins := x.1.pins ++ [obj] } : Team), x.2)) h

/-- The switch from the bytes of its entry on: the residency test, the acquire, the pin, and the binding (R124, R417, R418). -/
def switchFrom (t : Team) (key : Nat) (desc : W64) (obj loc : Nat) (bs : List ByteRead) : M Unit := do
  need (decide (2 ≤ entryState (readValue bs))) cSEG_PERM desc.toNat
  helmAcquire t 5 none (readHeads bs)
  if !t.pins.contains obj then do
    need (decide (t.pins.length < 32)) cSEG_PERM desc.toNat
    modify fun s => s.addRefs t.place loc 1
    mapTeamM key fun t => { t with pins := t.pins ++ [obj] }
    modify fun s => s.partWrite t (t.block + 0xD000 + 2 * t.pins.length) (leBytes 2 obj)
  mapTeamM key (·.bound obj (readValue bs))

section
variable {s s1 : State} {key obj loc : Nat} {t : Team} {desc : W64} (ht : s.team? key = some t) (ho : 0 < obj) (hl : s.objLoc t obj = some (loc, s1))
include ht ho hl

/-- The switch reads its entry in the state that the search for it leaves. -/
theorem switchObject_eq : switchObject key desc obj s =
    switchFrom t key desc obj loc (s1.atomicRead t.place loc 64).1 (s1.atomicRead t.place loc 64).2 := by
  unfold switchObject
  rw [M.bind_ok (teamOf_ok ht), M.bind_ok (M.get_run s), if_neg (by omega), hl]
  rfl

theorem switchObject_nonresident (he : readValue (s1.atomicRead t.place loc 64).1 % 4 < 2) :
    switchObject key desc obj s = .error (.trap (plainCause 0x05 desc.toNat)) := by
  rw [switchObject_eq ht ho hl]
  unfold switchFrom
  refine (M.bind_error (need_false (decide_eq_false ?_) _ _ _)).trans ?_
  · simp [entryState, bitsOf]
    omega
  · simp [plainCause, cSEG_PERM, Nat.mod_eq_of_lt desc.isLt]

theorem switchObject_resident (he : 2 ≤ readValue (s1.atomicRead t.place loc 64).1 % 4) (hp : t.pins.contains obj = true ∨ t.pins.length < 32) :
    ∃ (x : State) (u : Team), switchObject key desc obj s = .ok ((), x.mapTeam key (·.bound obj (readValue (s1.atomicRead t.place loc 64).1))) ∧
      x.team? key = some u ∧ u.stem = (t.pinned obj).stem := by
  obtain ⟨x, hx, hserved⟩ := helmAcquire_served (t := t) (scope := 5) (va := none) (heads := readHeads (s1.atomicRead t.place loc 64).1)
    (s1.atomicRead t.place loc 64).2
  obtain ⟨u, hu, hstem⟩ := (State.Served.frame.trans (State.objLoc_served hl) (State.Served.frame.trans (s1.atomicRead_served t.place loc 64) hserved)).team? ht
  rw [switchObject_eq ht ho hl]
  unfold switchFrom
  rw [M.bind_ok (need_true (decide_eq_true (by simpa [entryState, bitsOf] using he)) _ _ _), M.bind_ok hx]
  by_cases hc : t.pins.contains obj = true
  · rw [if_neg (by simpa using hc)]
    exact ⟨x, u, rfl, hu, by rw [hstem, Team.pinned, if_pos hc]⟩
  · rw [if_pos (by simpa using hc), M.bind_ok (need_true (decide_eq_true (hp.resolve_left hc)) _ _ _)]
    obtain ⟨v, hv, hvstem⟩ := (x.addRefs_served t.place loc 1).team? hu
    have hpin := State.team?_mapTeam_some hv (fun t => { t with pins := t.pins ++ [obj] }) fun _ => rfl
    obtain ⟨w, hw, hwstem⟩ := (State.partWrite_served _ t (t.block + 0xD000 + 2 * t.pins.length) (leBytes 2 obj)).team? hpin
    refine ⟨_, w, rfl, hw, ?_⟩
    rw [hwstem, Team.stem_pin (hvstem.trans hstem) obj, Team.pinned, if_neg hc]

end

theorem Team.pinned_contains (t : Team) (obj : Nat) : (t.pinned obj).pins.contains obj = true := by
  unfold Team.pinned
  split
  · next h => simpa using h
  · simp

/-- A field as a word of its own width. -/
theorem ofNat_bitsOf (e : Nat) {hi lo w : Nat} (h : hi + 1 - lo = w) : BitVec.ofNat w (bitsOf e hi lo) = BitVec.ofNat w (e / 2 ^ lo) :=
  BitVec.eq_of_toNat_eq (by simp [bitsOf, h])

theorem Team.bound_seg_zero {t : Team} (h : t.segs.length = 16) (obj e : Nat) : (t.bound obj e).seg 0 = BitVec.ofNat 128 (e / 2 ^ 384) := by
  rw [← ofNat_bitsOf e (hi := 511) (lo := 384) rfl]
  simp only [Team.bound, Team.seg, List.getD]
  rw [List.getElem?_set_ne (by decide), List.getElem?_set_self (by omega)]
  rfl

theorem Team.bound_seg_one {t : Team} (h : t.segs.length = 16) (obj e : Nat) : (t.bound obj e).seg 1 = BitVec.ofNat 128 (e / 2 ^ 256) := by
  rw [← ofNat_bitsOf e (hi := 383) (lo := 256) rfl]
  simp only [Team.bound, Team.seg, List.getD]
  rw [List.getElem?_set_self (by rw [List.length_set]; omega)]
  rfl

theorem Team.bound_seg_other (t : Team) (obj e : Nat) {n : Nat} (hn : 2 ≤ n) : (t.bound obj e).seg n = t.seg n := by
  simp only [Team.bound, Team.seg, List.getD]
  rw [List.getElem?_set_ne (by omega), List.getElem?_set_ne (by omega)]

theorem Team.bound_reg_lk {t : Team} (h : t.g.length = 64) (obj e : Nat) : (t.bound obj e).reg 63 = BitVec.ofNat 64 (e / 2 ^ 192 % 2 ^ 32) := by
  have hlk : 63 < t.g.length := by omega
  have hget := List.getElem?_set_self (a := BitVec.ofNat 64 (bitsOf e 223 192)) hlk
  exact congrArg (·.getD 0) hget

theorem Team.bound_reg_other (t : Team) (obj e : Nat) {r : GReg} (hr : r ≠ 63) : (t.bound obj e).reg r = t.reg r := by
  have : 63 ≠ r.toNat := fun h => hr (BitVec.eq_of_toNat_eq h.symm)
  simp only [Team.bound, Team.reg, List.getD]
  rw [List.getElem?_set_ne this]

/-- Settles O15: the switch ends with the entry bound in a team that otherwise keeps its stem. -/
theorem objectSwitch : Obligations.ObjectSwitch := by
  unfold Obligations.ObjectSwitch
  intro s s1 t desc obj loc ht ho hl
  refine ⟨switchObject_nonresident ht ho hl, fun he hp hsegs hregs => ?_⟩
  obtain ⟨x, u, hx, hu, hstem⟩ := switchObject_resident (desc := desc) ht ho hl he hp
  have hseg := Team.of_stem hstem Team.segs fun _ => rfl
  have hg := Team.of_stem hstem Team.g fun _ => rfl
  have hseg' (n : Nat) : u.seg n = t.seg n := by simp only [Team.seg, hseg]; rfl
  have hreg' (r : GReg) : u.reg r = t.reg r := by simp only [Team.reg, hg]; rfl
  refine ⟨_, _, hx, State.team?_mapTeam_some hu _ fun _ => rfl, rfl, ?_, ?_, ?_, ?_, ?_, ?_, ?_, ?_⟩
  · exact (congrArg (·.contains obj) (Team.of_stem hstem Team.pins fun _ => rfl)).trans (t.pinned_contains obj)
  · exact Team.bound_seg_zero ((congrArg List.length hseg).trans hsegs) obj _
  · exact Team.bound_seg_one ((congrArg List.length hseg).trans hsegs) obj _
  · exact fun n hn => (u.bound_seg_other obj _ hn).trans (hseg' n)
  · exact Team.bound_reg_lk ((congrArg List.length hg).trans hregs) obj _
  · exact fun r hr => (u.bound_reg_other obj _ hr).trans (hreg' r)
  · exact Team.of_stem hstem Team.pc fun _ => rfl
  · exact Team.of_stem hstem Team.loop fun _ => rfl

end Sys2Proof.Machine
end

section
/-! Where the helm goes on: the hardware loop (R128 to R130), branches and jumps (R122, R123), calls and returns (R123 to R126), which settle O12,
O13 and O14. -/

namespace Sys2Proof.Machine

open Sys2Proof.Spec

theorem branchTarget_eq (t : Team) (units : Int) : branchTarget t.pc units = wordsAway t units := rfl

/-- A helm word that reads the state only through its team goes on as it says. -/
theorem HelmTurn.goTo {s : State} {t : Team} (h : HelmTurn s t) (hp : t.phase ≠ .stepping) (len : Nat) {n : Next} (hn : n ≠ .gone) :
    s.retire t len n = s.goTo t (nextPc t t len n) := State.retire_goTo h.2.1 hp len hn

/-! ### The loop (R128 to R130) -/

/-- A word that ends with g(d) written goes on at the next word, or where the loop that ends there says. -/
theorem State.setReg_retire {s : State} {t : Team} (h : s.team? t.key = some t) (hp : t.phase ≠ .stepping) (len : Nat) (d : GReg) (v : W64)
    {n : Next} (hn : n ≠ .gone) :
    (s.mapTeam t.key (·.setReg d v)).retire t len n = (s.mapTeam t.key (·.setReg d v)).goTo t (nextPc t (t.setReg d v) len n) :=
  State.retire_goTo (State.team?_mapTeam_some h _ fun _ => Team.setReg_key _ _ _) (by rwa [Team.setReg_phase]) len hn

/-- Going on sets the loop registers, whatever they were. -/
theorem State.goTo_mapLoop (s : State) (t : Team) (l : LoopRegs) (x : W64 × LoopRegs) :
    (s.mapTeam t.key fun u => { u with loop := l }).goTo t x = s.goTo t x :=
  State.mapTeam_mapTeam s t.key (fun u => { u with loop := l }) _ fun _ h => h

/-- The fields of the word of an `hloop` with `b` where its field is 0 (R30). -/
theorem decodeHelmWord_hloop (a b : BitVec 6) (off : BitVec 12) :
    decodeHelmWord (off.toNat * 2 ^ 20 + b.toNat * 2 ^ 14 + a.toNat * 2 ^ 8 + 0x1B * 2) = zeroThen (b == 0) (.hloop a off) := by
  have hw : off.toNat * 2 ^ 20 + b.toNat * 2 ^ 14 + a.toNat * 2 ^ 8 + 0x1B * 2 = packHI 0x1B off.toNat b.toNat a.toNat := by
    unfold packHI
    omega
  obtain ⟨hshort, hmajor, hoff, ha, hd, -⟩ := packHI_fields (show 0x1B < 2 ^ 7 by decide) off.isLt b.isLt a.isLt
  rw [hw]
  simp [decodeHelmWord, decodeShort, wMajor, wD, wA, bitOf_eq, hshort, hmajor, hoff, ha, hd]

theorem illFormed_hloop (a : GReg) (off : BitVec 12) : (Instr.hloop a off).illFormed = Sys2Proof.need (decide (2 ≤ off.toInt)) .operand := rfl

/-- A word of `hloop` names an instruction just where its unused field is 0 and the loop ends at least two words on (R44, R129). -/
theorem decode_hloop (a b : BitVec 6) (off : BitVec 12) :
    let word := off.toNat * 2 ^ 20 + b.toNat * 2 ^ 14 + a.toNat * 2 ^ 8 + 0x1B * 2
    (b = 0 → 2 ≤ off.toInt → decodeHelmWord word = .ok (.hloop a off)) ∧ (b ≠ 0 ∨ off.toInt < 2 → ∃ e, decodeHelmWord word = .error e) := by
  intro word
  have hword : decodeHelmWord word = zeroThen (b == 0) (.hloop a off) := decodeHelmWord_hloop a b off
  rw [hword]
  by_cases hb : b = 0
  · have hz : zeroThen (b == 0) (.hloop a off) = checked (.hloop a off) := by simp [zeroThen, hb]
    rw [hz]
    refine ⟨fun _ hoff => ?_, fun h => ⟨.operand, ?_⟩⟩
    · simp [checked, illFormed_hloop, Sys2Proof.need, hoff]
    · have hoff : ¬2 ≤ off.toInt := by have := h.resolve_left (absurd hb); omega
      simp [checked, illFormed_hloop, Sys2Proof.need, hoff]
  · exact ⟨fun h => absurd h hb, fun _ => ⟨.reserved, if_neg (by simpa using hb)⟩⟩

section
variable {s : State} {t : Team} (h : HelmTurn s t) (a : GReg) (off : BitVec 12)
include h

theorem hloop_nested (hl : t.loop.lcnt ≠ 0) : exec (.hloop a off) s = .next (s.helmTrap t.key (plainCause 0x01)) := by
  obtain ⟨hcur, hteam, hmay⟩ := h
  exact runHelm_trap hcur hteam hmay 4 (M.bind_error (need_false (by simpa using hl) _ _ _)) fun hc => absurd hc.1 (by decide)

theorem hloop_skips (hp : t.phase ≠ .stepping) (hl : t.loop.lcnt = 0) (ha : t.reg a = 0) :
    exec (.hloop a off) s = .next (s.goTo t (BitVec.ofNat 64 (wordsAway t off.toInt), t.loop)) := by
  have hturn := h.goTo hp 4 (n := .far (wordsAway t off.toInt)) nofun
  obtain ⟨hcur, hteam, hmay⟩ := h
  refine (runHelm_next hcur hteam hmay 4 ?_).trans (congrArg _ hturn)
  rw [M.bind_ok (need_true (by simp [hl]) _ _ _), if_pos ha]
  rfl

theorem hloop_starts (hp : t.phase ≠ .stepping) (hl : t.loop.lcnt = 0) (ha : t.reg a ≠ 0) :
    exec (.hloop a off) s = .next (s.goTo t (BitVec.ofNat 64 (wordsAway t 1),
      { lc := 0, lcnt := t.reg a, lbeg := BitVec.ofNat 64 (wordsAway t 1), lend := BitVec.ofNat 64 (wordsAway t off.toInt)
        lobj := BitVec.ofNat 64 t.curObj })) := by
  obtain ⟨hcur, hteam, hmay⟩ := h
  let l : LoopRegs := { lc := 0, lcnt := t.reg a, lbeg := BitVec.ofNat 64 (wordsAway t 1), lend := BitVec.ofNat 64 (wordsAway t off.toInt)
                        lobj := BitVec.ofNat 64 t.curObj }
  have hmap := State.team?_mapTeam_some hteam (fun u => { u with loop := l }) fun _ => rfl
  have hret := State.retire_goTo hmap hp 4 (n := .far (wordsAway t 1)) nofun
  refine (runHelm_next hcur hteam hmay 4 ?_).trans (congrArg _ (hret.trans (s.goTo_mapLoop t l _)))
  rw [M.bind_ok (need_true (by simp [hl]) _ _ _), if_neg ha]
  rfl

end

/-- Settles O12: the loop check is that of every retirement, and `hloop` has its three cases. -/
theorem hardwareLoops : Obligations.HardwareLoops := by
  unfold Obligations.HardwareLoops
  refine ⟨fun s t i len d h hp hd hi => ?_, fun s t a off h hp => ⟨fun b => decode_hloop a b off, hloop_nested h a off, hloop_skips h a off hp,
    hloop_starts h a off hp⟩⟩
  obtain ⟨f, he⟩ := valueWord_exec hi
  refine ⟨f t, ?_⟩
  rw [he, helmValue_turn h hd, State.afterValue, State.setReg_retire h.2.1 hp len d (f t) (n := .seq) nofun, nextPc_seq t _ len (Team.setReg_loop ..)]

/-! ### Branches and jumps (R122, R123) -/

theorem branch_turn {s : State} {t : Team} (h : HelmTurn s t) (hp : t.phase ≠ .stepping) (cc : Nat) (a b : GReg) (off : BitVec 12) :
    branch cc a b off s = .next (s.goTo t (if relation cc (t.reg a) (t.reg b) = true then takenTo t (wordsAway t off.toInt) else nextWord t 4)) := by
  have hturn (n : Next) (hn : n ≠ .gone) := h.goTo hp 4 hn
  obtain ⟨hcur, hteam, hmay⟩ := h
  unfold branch
  rw [runHelm_pure hcur hteam hmay 4 fun t => if relation cc (t.reg a) (t.reg b) then .jump (branchTarget t.pc off.toInt) else .seq]
  split
  · rw [hturn (.jump _) nofun, nextPc_jump, branchTarget_eq]
  · rw [hturn .seq nofun, nextPc_seq t t 4 rfl]

theorem relation_eq (a b : W64) : relation 0 a b = decide (a = b) := by simp [relation, Bool.beq_eq_decide_eq]
theorem relation_ne (a b : W64) : relation 1 a b = decide (a ≠ b) := by simp [relation, bne, Bool.beq_eq_decide_eq]
theorem relation_lt (a b : W64) : relation 2 a b = decide (a.toInt < b.toInt) := by simp [relation, BitVec.slt]
theorem relation_ge (a b : W64) : relation 3 a b = decide (b.toInt ≤ a.toInt) := by simp [relation, BitVec.slt, ← decide_not]
theorem relation_ltu (a b : W64) : relation 4 a b = decide (a.toNat < b.toNat) := by simp [relation, BitVec.ult]
theorem relation_geu (a b : W64) : relation 5 a b = decide (b.toNat ≤ a.toNat) := by simp [relation, BitVec.ult, ← decide_not]

/-- Settles O13: each branch by its relation, and `j`, which is always taken. -/
theorem branchWords : Obligations.BranchWords := by
  unfold Obligations.BranchWords
  intro s t i taken off h hp hi
  unfold branchWord at hi
  split at hi <;> cases hi
  case h_1 a b off => exact relation_eq _ _ ▸ branch_turn h hp 0 a b off
  case h_2 a b off => exact relation_ne _ _ ▸ branch_turn h hp 1 a b off
  case h_3 a b off => exact relation_lt _ _ ▸ branch_turn h hp 2 a b off
  case h_4 a b off => exact relation_ge _ _ ▸ branch_turn h hp 3 a b off
  case h_5 a b off => exact relation_ltu _ _ ▸ branch_turn h hp 4 a b off
  case h_6 a b off => exact relation_geu _ _ ▸ branch_turn h hp 5 a b off
  case h_7 off =>
    have hturn := h.goTo hp 4 (n := .jump (wordsAway t off.toInt)) nofun
    obtain ⟨hcur, hteam, hmay⟩ := h
    rw [if_pos rfl, ← nextPc_jump t 4, ← hturn]
    exact runHelm_pure hcur hteam hmay 4 fun t => .jump (branchTarget t.pc off.toInt)

/-! ### Calls (R123, R124, R126) -/

theorem call_turn {s : State} {t : Team} (h : HelmTurn s t) (hp : t.phase ≠ .stepping) {d : GReg} (hd : t.mayWrite d = true) (off : BitVec 18) :
    exec (.call d off) s =
      .next ((s.mapTeam t.key (·.setReg d (linkAfter t 4))).goTo t (BitVec.ofNat 64 (wordsAway t off.toInt), t.loop)) := by
  obtain ⟨hcur, hteam, hmay⟩ := h
  have hret := State.setReg_retire hteam hp 4 d (linkAfter t 4) (n := .far (wordsAway t off.toInt)) nofun
  have hloop : nextPc t (t.setReg d (linkAfter t 4)) 4 (.far (wordsAway t off.toInt)) = (BitVec.ofNat 64 (wordsAway t off.toInt), t.loop) :=
    congrArg (Prod.mk _) (Team.setReg_loop ..)
  rw [hloop] at hret
  exact (runHelm_next hcur hteam hmay 4 (M.bind_ok (setG_ok hteam d _ hd))).trans (congrArg _ hret)

/-- Of the entry 0, no object switch is made. -/
theorem switchObject_zero {s : State} {k : Nat} {t : Team} (ht : s.team? k = some t) (desc : W64) :
    switchObject k desc 0 s = .error (.trap (plainCause 0x05 desc.toNat)) := by
  unfold switchObject
  rw [M.bind_ok (teamOf_ok ht), M.bind_ok (M.get_run s), if_pos rfl]
  simp [plainCause, cSEG_PERM, Nat.mod_eq_of_lt desc.isLt]

/-- Key and privilege of a team. -/
def Team.standsAs (t : Team) : Nat × Bool := (t.key, t.super)

theorem State.Served.standsAs {s s' : State} (h : s.Served s') : s.SameTeams Team.standsAs s' := h.teams.of_factor fun x => (x.1.key, x.1.super)

theorem helmAcquire_standsAs (t : Team) (scope : Nat) (va : Option Nat) (heads : List Release) :
    (helmAcquire t scope va heads).Within (State.SameTeams Team.standsAs) fun _ => True := by
  intro s
  obtain ⟨s', hs', hserved⟩ := helmAcquire_served (t := t) (scope := scope) (va := va) (heads := heads) s
  rw [hs']
  exact hserved.standsAs

theorem switchFrom_standsAs (t : Team) (key : Nat) (desc : W64) (obj loc : Nat) (bs : List ByteRead) :
    (switchFrom t key desc obj loc bs).Within (State.SameTeams Team.standsAs) fun _ => True := by
  have frame := State.SameTeams.frame Team.standsAs
  have hneed (b : Bool) : (need b cSEG_PERM desc.toNat).Within (State.SameTeams Team.standsAs) fun _ => True := .need frame trivial
  unfold switchFrom
  refine .bind frame (hneed _) fun _ => .bind frame (helmAcquire_standsAs t 5 none _) fun _ => ?_
  have hbind : (mapTeamM key (·.bound obj (readValue bs))).Within (State.SameTeams Team.standsAs) fun _ => True :=
    .mapTeamM fun s => s.mapTeam_sameTeams _ _ fun _ => rfl
  refine .ite (.bind frame (hneed _) fun _ => .bind frame (.modify fun s => (s.addRefs_served _ _ _).standsAs) fun _ => ?_) hbind
  exact .bind frame (.mapTeamM fun s => s.mapTeam_sameTeams _ _ fun _ => rfl) fun _ =>
    .bind frame (.modify fun s => (s.partWrite_served _ _ _).standsAs) fun _ => hbind

/-- An object switch takes neither privilege nor key. -/
theorem switchObject_privilege {s s' : State} {t : Team} {desc : W64} {obj : Nat} (ht : s.team? t.key = some t)
    (h : switchObject t.key desc obj s = .ok ((), s')) : ∃ u, s'.team? t.key = some u ∧ u.super = t.super := by
  have frame := State.SameTeams.frame Team.standsAs
  by_cases ho : obj = 0
  · rw [ho, switchObject_zero ht] at h
    cases h
  cases hl : s.objLoc t obj with
  | none =>
    unfold switchObject at h
    rw [M.bind_ok (teamOf_ok ht), M.bind_ok (M.get_run s), if_neg ho, hl] at h
    cases h
  | some p =>
    obtain ⟨loc, s1⟩ := p
    rw [switchObject_eq ht (by omega) hl] at h
    have hrest := (switchFrom_standsAs t t.key desc obj loc _).ok h
    have hall := frame.trans (frame.trans (State.objLoc_served hl).standsAs (s1.atomicRead_served t.place loc 64).standsAs) hrest
    obtain ⟨u, hu, hstands⟩ := hall.team? (fun _ _ e => congrArg Prod.fst e) ht
    exact ⟨u, hu, congrArg Prod.snd hstands⟩

/-- The transfer of a call by a descriptor, from the state `s0` in which its word has the descriptor. -/
theorem callBy_word {s s0 : State} {t : Team} {i : Instr} {len : Nat} {d : GReg} {desc : W64} {body : Team → M Next} (h : HelmTurn s t)
    (h0 : s0.team? t.key = some t) (he : exec i s = runHelm len body s) (hb : body t s = callBy t len d desc s0) :
    (desc.toNat / 2 ^ 48 = 0 → exec i s = .next (s.helmTrap t.key (plainCause 0x05 desc.toNat))) ∧
    (∀ s2, switchObject t.key desc (desc.toNat / 2 ^ 48) s0 = .ok ((), s2) →
      (desc.toNat % 4 ≠ 0 → exec i s = .next (s.helmTrap t.key (plainCause 0x08 desc.toNat))) ∧
      (desc.toNat % 4 = 0 → t.mayWrite d = true →
        exec i s = .next ((s2.mapTeam t.key (·.setReg d (linkAfter t len))).retire t len (.far (desc.toNat % 2 ^ 32))))) := by
  obtain ⟨hcur, hteam, hmay⟩ := h
  refine ⟨fun ho => ?_, fun s2 hs2 => ⟨fun hal => ?_, fun hal hd => ?_⟩⟩
  · rw [he, runHelm_trap hcur hteam hmay len (hb.trans (M.bind_error (ho ▸ switchObject_zero h0 desc))) fun hc => absurd hc.1 (show 0x05 ≠ 0x0C by decide)]
  · have hneed := need_false (b := desc.toNat % 4 == 0) (by simpa using hal) cMISALIGN desc.toNat s2
    rw [Nat.mod_eq_of_lt desc.isLt] at hneed
    have hbody : body t s = .error (.trap (plainCause 0x08 desc.toNat)) := by
      rw [hb, callBy, M.bind_ok hs2, M.bind_error hneed]
      rfl
    rw [he, runHelm_trap hcur hteam hmay len hbody fun hc => absurd hc.1 (show 0x08 ≠ 0x0C by decide)]
  · obtain ⟨u, hu, hsuper⟩ := switchObject_privilege h0 hs2
    have hbody : body t s = .ok (.far (desc.toNat % 2 ^ 32), s2.mapTeam t.key (·.setReg d (linkAfter t len))) := by
      rw [hb, callBy, M.bind_ok hs2, M.bind_ok (need_true (by simpa using hal) _ _ _), M.bind_ok (setG_ok hu d _ (by rwa [hsuper]))]
      rfl
    rw [he, runHelm_next hcur hteam hmay len hbody]

/-! ### Returns (R125) -/

/-- Two bodies of a helm word that are the same for the team that runs it make the same word. -/
theorem runHelm_congr {s : State} {t : Team} (h : HelmTurn s t) (len : Nat) {body body' : Team → M Next} (hb : body t = body' t) :
    runHelm len body s = runHelm len body' s := by
  obtain ⟨hcur, hteam, hmay⟩ := h
  rw [runHelm_run hcur hteam hmay, runHelm_run hcur hteam hmay, hb]

theorem ret_turn {s : State} {t : Team} (h : HelmTurn s t) (a : GReg) :
    let ends : Prop := (t.reg a).toNat / 2 ^ 48 = 0 ∧ (t.reg a).toNat % 2 ^ 32 = 0
    (ends → exec (.ret a) s = exec .teamExit s) ∧
    (¬ends → (t.reg a).toNat % 4 = 0 → (t.reg a).toNat / 2 ^ 48 = t.curObj → t.phase ≠ .stepping →
      exec (.ret a) s = .next (s.goTo t (takenTo t ((t.reg a).toNat % 2 ^ 32)))) ∧
    (∀ s2, ¬ends → (t.reg a).toNat % 4 = 0 → (t.reg a).toNat / 2 ^ 48 ≠ t.curObj →
      switchObject t.key (t.reg a) ((t.reg a).toNat / 2 ^ 48) s = .ok ((), s2) →
      exec (.ret a) s = .next (s2.retire t 4 (.jump ((t.reg a).toNat % 2 ^ 32)))) := by
  intro ends
  refine ⟨fun he => runHelm_congr h 4 (if_pos he), fun he hal ho hp => ?_, fun s2 he hal ho hs2 => ?_⟩
  · have hturn := h.goTo hp 4 (n := .jump ((t.reg a).toNat % 2 ^ 32)) nofun
    rw [nextPc_jump] at hturn
    obtain ⟨hcur, hteam, hmay⟩ := h
    refine (runHelm_next hcur hteam hmay 4 ?_).trans (congrArg _ hturn)
    rw [if_neg he, if_neg (by simpa using ho)]
    exact M.bind_ok (need_true (by simpa using hal) _ _ _)
  · obtain ⟨hcur, hteam, hmay⟩ := h
    refine runHelm_next hcur hteam hmay 4 ?_
    rw [if_neg he, if_pos (by simpa using ho), M.bind_ok hs2]
    exact M.bind_ok (need_true (by simpa using hal) _ _ _)

/-- Settles O14: `call`, the two calls by a descriptor, and `ret`. -/
theorem callAndReturnWords : Obligations.CallAndReturnWords := by
  unfold Obligations.CallAndReturnWords
  refine ⟨fun s t d off h hp hd => call_turn h hp hd off, fun s s0 t i len d desc h h0 hi => ?_, fun s t a h => ret_turn h a⟩
  obtain ⟨-, hteam0, -⟩ := h0
  rcases hi with ⟨a, rfl, rfl, rfl, rfl⟩ | ⟨idx, L, bs, s1, rfl, rfl, haddr, hread, rfl⟩
  · exact callBy_word h hteam0 rfl rfl
  · exact callBy_word h hteam0 rfl ((M.bind_ok haddr).trans (M.bind_ok hread))

end Sys2Proof.Machine
end

section
/-! The checks of an address in their order, and its translation by the one leaf that it has (R118, R345, R350, R353, R359, R360, R431), which
settle O16. -/

namespace Sys2Proof.Machine

open Sys2Proof.Spec

/-! ### The checks of R118 and R353 -/

/-- The address of an access, as a trap reports it. -/
theorem accessFva_eq (sg : W128) (off : Int) :
    wrapOf 64 ((segBase sg : Int) + off) % 2 ^ 64 = (((sg.toNat % 2 ^ 57 : Nat) + off) % 2 ^ 64).toNat := by
  rw [segBase_eq]
  unfold wrapOf
  omega

theorem raise_access {α : Type} (code : Nat) (sg : W128) (off : Int) (k : AccessKind) (s : State) :
    (raise code (wrapOf 64 ((segBase sg : Int) + off)) 0 (k == .write || k == .atomic) (k == .fetch) : M α) s =
      .error (.trap (accessCause code sg off k)) := by
  rw [raise_run, accessFva_eq]
  rfl

section
variable {s : State} {t : Team} {bay n : Nat} {helm super : Bool} {sg : W128} {off : Int} {k : AccessKind}

/-- Address(N, o, n, kind) of R118, behind its checks: in the space that the segment names. -/
def addressIn (t : Team) (bay : Nat) (helm super : Bool) (sg : W128) (off : Int) (n : Nat) (k : AccessKind) : M Located := do
  let a := segBase sg + off.toNat
  let s ← get
  match segSpace sg with
  | 0 =>
    if helm && super && t.inWindow a && (k == .read || k == .write) then
      pure { loc := locOf mgmtTag (a - t.dct.mgmtBase), va := some a, large := false }
    else do
    let (loc, large) ← translate t.dct.roots t.dct.aspace t.dctx bay helm super k a
    pure { loc := loc, va := some a, large := large }
  | 4 =>
    if s.dieUp (a / 0x8000) then pure { loc := locOf (lockTag (a / 0x8000)) (a % 0x8000), va := none, large := false }
    else raise cSEG_PERM (wrapOf 64 ((segBase sg : Int) + off)) 0 (k == .write || k == .atomic)
  | sp => match s.localLoc t bay sp a n with
    | some loc => pure { loc := loc, va := none, large := false }
    | none => raise cSEG_LIMIT (wrapOf 64 ((segBase sg : Int) + off)) 0 (k == .write || k == .atomic)

theorem address_limit (h : off < 0 ∨ (segLimit sg : Int) < off + n) :
    address t bay helm super sg off n k s = .error (.trap (accessCause 0x04 sg off k)) := by
  unfold address
  rw [if_pos (by simpa using h)]
  exact M.bind_error (raise_access _ _ _ _ _)

variable (h0 : 0 ≤ off) (hl : off + n ≤ segLimit sg)
include h0 hl

theorem address_permission (hp : segPermits sg k = false) :
    address t bay helm super sg off n k s = .error (.trap (accessCause 0x05 sg off k)) := by
  unfold address
  rw [if_neg (by simp; omega)]
  dsimp only
  rw [if_pos (by simp [hp])]
  exact M.bind_error (raise_access _ _ _ _ _)

variable (hp : segPermits sg k = true)
include hp

theorem address_lock (h4 : segSpace sg = 4) (hs : super = false) (hk : k ≠ .fetch) :
    address t bay helm super sg off n k s = .error (.trap (accessCause 0x05 sg off k)) := by
  have hf : (k == .fetch) = false := by simpa using hk
  unfold address
  rw [if_neg (by simp; omega)]
  dsimp only
  rw [if_neg (by simp [hp])]
  rw [if_pos (by simp [h4, hs])]
  exact M.bind_error (by rw [← hf]; exact raise_access _ _ _ _ _)

variable (hs : segSpace sg ≠ 4 ∨ super = true)
include hs

theorem address_misaligned (ha : off % n ≠ 0) : address t bay helm super sg off n k s = .error (.trap (accessCause 0x08 sg off k)) := by
  have hlock : ¬(segSpace sg = 4 && !super) = true := by rcases hs with h | h <;> simp [h]
  unfold address
  rw [if_neg (by simp; omega)]
  dsimp only
  rw [if_neg (by simp [hp])]
  rw [if_neg (by simpa using hlock)]
  rw [if_pos (by simpa using ha)]
  exact M.bind_error (raise_access _ _ _ _ _)

/-- Behind the checks. -/
theorem address_passed (ha : off % n = 0) : address t bay helm super sg off n k s = addressIn t bay helm super sg off n k s := by
  have hlock : ¬(segSpace sg = 4 && !super) = true := by rcases hs with h | h <;> simp [h]
  unfold address
  rw [if_neg (by simp; omega)]
  dsimp only
  rw [if_neg (by simp [hp])]
  rw [if_neg (by simpa using hlock)]
  rw [if_neg (by simpa using ha)]
  rfl

end

section
variable {s : State} {t : Team} {bay n : Nat} {helm super : Bool} {sg : W128} {off : Int} {k : AccessKind}

/-- In the global space, outside the management window. -/
theorem addressIn_global (h0 : segSpace sg = 0)
    (hw : (helm && super && t.inWindow (segBase sg + off.toNat) && (k == .read || k == .write)) = false) {loc : Nat} {large : Bool} {s' : State}
    (htr : translate t.dct.roots t.dct.aspace t.dctx bay helm super k (segBase sg + off.toNat) s = .ok ((loc, large), s')) :
    addressIn t bay helm super sg off n k s = .ok ({ loc := loc, va := some (segBase sg + off.toNat), large := large }, s') := by
  unfold addressIn
  rw [M.bind_ok (M.get_run s), h0]
  dsimp only
  rw [if_neg (by simpa using hw)]
  exact M.bind_ok htr

/-- In the lock space, of a die in service. -/
theorem addressIn_lock (h4 : segSpace sg = 4) (hd : s.dieUp ((segBase sg + off.toNat) / 0x8000) = true) :
    addressIn t bay helm super sg off n k s =
      .ok ({ loc := locOf (lockTag ((segBase sg + off.toNat) / 0x8000)) ((segBase sg + off.toNat) % 0x8000), va := none, large := false }, s) := by
  unfold addressIn
  rw [M.bind_ok (M.get_run s), h4]
  dsimp only
  rw [if_pos hd]
  rfl

/-- In a local space. -/
theorem addressIn_local (h0 : segSpace sg ≠ 0) (h4 : segSpace sg ≠ 4) {loc : Nat}
    (hloc : s.localLoc t bay (segSpace sg) (segBase sg + off.toNat) n = some loc) :
    addressIn t bay helm super sg off n k s = .ok ({ loc := loc, va := none, large := false }, s) := by
  unfold addressIn
  rw [M.bind_ok (M.get_run s)]
  generalize segSpace sg = sp at h0 h4 hloc ⊢
  match sp, h0, h4 with
  | 0, h0, _ => exact absurd rfl h0
  | 4, _, h4 => exact absurd rfl h4
  | 1, _, _ | 2, _, _ | 3, _, _ | sp + 5, _, _ => simp [hloc]

/-- In a local space beyond its allotment. -/
theorem addressIn_unallotted (h0 : segSpace sg ≠ 0) (h4 : segSpace sg ≠ 4)
    (hloc : s.localLoc t bay (segSpace sg) (segBase sg + off.toNat) n = none) :
    addressIn t bay helm super sg off n k s =
      (raise cSEG_LIMIT (wrapOf 64 ((segBase sg : Int) + off)) 0 (k == .write || k == .atomic) : M Located) s := by
  unfold addressIn
  rw [M.bind_ok (M.get_run s)]
  generalize segSpace sg = sp at h0 h4 hloc ⊢
  match sp, h0, h4 with
  | 0, h0, _ => exact absurd rfl h0
  | 4, _, h4 => exact absurd rfl h4
  | 1, _, _ | 2, _, _ | 3, _, _ | sp + 5, _, _ => simp [hloc]

end

/-! ### The one leaf of an address (R350, R359, R360) -/

section
variable {s : State} {roots : List Nat} {aspace dctx bay va : Nat} {helm super : Bool} {k : AccessKind}

/-- The trap of an address with what the access was. -/
def translationCause (va : Nat) (k : AccessKind) (c : Nat) : Cause :=
  { code := c, fva := va % 2 ^ 64, info := 0, write := k == .write || k == .atomic, fetch := k == .fetch, mask := none }

theorem translate_beyond (h : 2 ^ 57 ≤ va) :
    translate roots aspace dctx bay helm super k va s = .error (.trap (translationCause va k 0x04)) := by
  unfold translate
  rw [if_pos h]
  rfl

variable (hva : va < 2 ^ 57)
include hva

/-- An address of the space that has one leaf takes that leaf. -/
theorem translate_one {opt : Option (Bool × Nat)} (hopts : s.leavesFor (roots.getD (dieOfBay bay) 0) aspace bay helm va = [opt]) :
    translate roots aspace dctx bay helm super k va s = ((do
      let (large, leaf) ← chooseLeaf roots aspace dctx (dieOfBay bay) super k va [opt]
      if helm then modify fun s => s.fillTlb bay true aspace va large leaf
      let loc ← reachLeaf k va large leaf
      pure (loc, large) : M (Nat × Bool)) s) := by
  unfold translate
  rw [if_neg (by omega), ← hopts]
  rfl

theorem translate_absent (hopts : s.leavesFor (roots.getD (dieOfBay bay) 0) aspace bay helm va = [none]) :
    translate roots aspace dctx bay helm super k va s = .error (.trap (translationCause va k 0x06)) := by
  rw [translate_one hva hopts]
  exact M.bind_error rfl

variable {large : Bool} {leaf : Nat} (hopts : s.leavesFor (roots.getD (dieOfBay bay) 0) aspace bay helm va = [some (large, leaf)])
  (hmode : leafMode leaf ≠ 2)
include hopts hmode

/-- Its frame lies on a die that is out of service (R438). -/
def State.leafLost (s : State) (large : Bool) (leaf va : Nat) : Prop :=
  leafTgt leaf = 0 ∧ s.dieUp (dieOfPa (offsetOf (leafLoc large leaf va))) = false

theorem translate_lost (hlost : s.leafLost large leaf va) (hflight : s.inFlightTo (dieOfPa (offsetOf (leafLoc large leaf va))) = false) :
    translate roots aspace dctx bay helm super k va s = .error (.trap (translationCause va k 0x06)) := by
  rw [translate_one hva hopts]
  refine M.bind_error ?_
  unfold chooseLeaf
  rw [M.bind_ok (show choose _ s = .ok (0, s) from rfl)]
  refine (M.bind_ok (M.get_run s)).trans ?_
  rw [if_neg hmode]
  dsimp only
  rw [if_pos (by simpa [State.leafLost] using hlost), if_neg (by simp [hflight])]
  rfl

variable (hfound : ¬s.leafLost large leaf va)
include hfound

theorem translate_forbidden (hperm : leafSup leaf = true ∧ super = false ∨ leafPermits leaf k = false) :
    translate roots aspace dctx bay helm super k va s = .error (.trap (translationCause va k 0x07)) := by
  rw [translate_one hva hopts]
  refine M.bind_error ?_
  unfold chooseLeaf
  rw [M.bind_ok (show choose _ s = .ok (0, s) from rfl)]
  refine (M.bind_ok (M.get_run s)).trans ?_
  rw [if_neg hmode]
  dsimp only
  rw [if_neg (by simpa [State.leafLost] using hfound), if_pos (by simpa using hperm)]
  rfl

/-- The machine once the leaf is taken: its page is known to have entered the context, and the helm keeps the leaf. -/
def State.takeLeaf (s : State) (root aspace dctx bay va : Nat) (helm large : Bool) (leaf : Nat) : State :=
  let s1 := s.enterUse root dctx va large leaf
  if helm then s1.fillTlb bay true aspace va large leaf else s1

theorem translate_takes (hsup : leafSup leaf = false ∨ super = true) (hperm : leafPermits leaf k = true) :
    translate roots aspace dctx bay helm super k va s = ((do
      let loc ← reachLeaf k va large leaf
      pure (loc, large) : M (Nat × Bool)) (s.takeLeaf (roots.getD (dieOfBay bay) 0) aspace dctx bay va helm large leaf)) := by
  rw [translate_one hva hopts]
  have hchoose : chooseLeaf roots aspace dctx (dieOfBay bay) super k va [some (large, leaf)] s =
      .ok ((large, leaf), s.enterUse (roots.getD (dieOfBay bay) 0) dctx va large leaf) := by
    unfold chooseLeaf
    rw [M.bind_ok (show choose _ s = .ok (0, s) from rfl)]
    refine (M.bind_ok (M.get_run s)).trans ?_
    rw [if_neg hmode]
    dsimp only
    rw [if_neg (by simpa [State.leafLost] using hfound), if_neg (by rcases hsup with h | h <;> simp [hperm, h])]
    rfl
  rw [M.bind_ok hchoose]
  cases helm <;> rfl

/-- Of peer memory an atomic makes no access (R345). -/
theorem translate_peerAtomic (hsup : leafSup leaf = false ∨ super = true) (hperm : leafPermits leaf k = true) (hk : k = .atomic)
    (hpeer : (peerOf (leafLoc large leaf va)).isSome = true) :
    translate roots aspace dctx bay helm super k va s =
      .ok ((leafLoc large leaf va, large), s.takeLeaf (roots.getD (dieOfBay bay) 0) aspace dctx bay va helm large leaf) := by
  rw [translate_takes hva hopts hmode hfound hsup hperm]
  refine M.bind_ok ?_
  unfold reachLeaf
  rw [if_neg (by simp [hk, hpeer])]
  rfl

/-- Every other access asks for its data. -/
theorem translate_asks (hsup : leafSup leaf = false ∨ super = true) (hperm : leafPermits leaf k = true)
    (hk : ¬(k = .atomic ∧ (peerOf (leafLoc large leaf va)).isSome = true)) :
    translate roots aspace dctx bay helm super k va s = ((do
      checkHealth (leafLoc large leaf va) va (k == .write)
      pure (leafLoc large leaf va, large) : M (Nat × Bool)) (s.takeLeaf (roots.getD (dieOfBay bay) 0) aspace dctx bay va helm large leaf)) := by
  rw [translate_takes hva hopts hmode hfound hsup hperm]
  unfold reachLeaf
  rw [if_pos (by simpa [imp_iff_not_or] using hk)]
  cases hc : checkHealth (leafLoc large leaf va) va (k == .write) (s.takeLeaf (roots.getD (dieOfBay bay) 0) aspace dctx bay va helm large leaf) with
  | ok p => rw [M.bind_ok hc]; exact M.bind_ok (M.bind_ok hc)
  | error x => rw [M.bind_error hc]; exact M.bind_error (M.bind_error hc)

end

/-- Settles O16: the checks in their order, then the leaf. -/
theorem addressesAndTranslation : Obligations.AddressesAndTranslation := by
  unfold Obligations.AddressesAndTranslation
  refine ⟨fun s t bay n helm super sg off k => ⟨address_limit, address_permission, address_lock, address_misaligned, ?_, ?_, ?_⟩,
    fun s roots aspace dctx bay va helm super k => ⟨translate_beyond, translate_absent, fun large leaf hva hopts hmode => ⟨?_, ?_, ?_⟩⟩⟩
  · intro h0 hl hp hglobal ha hw loc large s' htr
    rw [address_passed h0 hl hp (.inl (by omega)) ha]
    exact addressIn_global hglobal hw htr
  · intro h0 hl hp h4 hs ha hd
    rw [address_passed h0 hl hp (.inr hs) ha]
    exact addressIn_lock h4 hd
  · intro h0 hl hp hn0 hn4 ha loc hloc
    rw [address_passed h0 hl hp (.inl hn4) ha]
    exact addressIn_local hn0 hn4 hloc
  · exact translate_lost hva hopts hmode
  · exact translate_forbidden hva hopts hmode
  · intro hfound hsup hperm
    refine ⟨translate_peerAtomic hva hopts hmode hfound hsup hperm, fun hk => ⟨fun s' hc => ?_, fun c hc => ?_⟩⟩
    · rw [translate_asks hva hopts hmode hfound hsup hperm hk]
      exact M.bind_ok hc
    · rw [translate_asks hva hopts hmode hfound hsup hperm hk]
      exact M.bind_error hc

end Sys2Proof.Machine
end

section
/-! Helm loads (R99, R117 to R120): what they read, what an acquire adds, their traps and waits, and what they leave alone, which settle O17. -/

namespace Sys2Proof.Machine

open Sys2Proof.Spec

/-! ### What a trap and a wait of the helm leave alone -/

/-- Registers and special registers of a team stand, and every other team. -/
def State.TeamStands (s s' : State) (t : Team) : Prop :=
  State.SameOthers s s' t.key ∧ ∃ u, s'.team? t.key = some u ∧ u.g = t.g ∧ t.SameSpecial u

theorem State.MemoryStands.trans {s s1 s' : State} (h : s.MemoryStands s1) (h' : s1.MemoryStands s') : s.MemoryStands s' :=
  ⟨h'.1.trans h.1, h'.2.1.trans h.2.1, h'.2.2.trans h.2.2⟩

theorem State.answered_writes (s : State) (code : Nat) : (s.answered code).writes = s.writes := rfl
theorem State.unregister_writes (s : State) (f : Party → Bool) : (s.unregister f).writes = s.writes := rfl
theorem State.leaveRings_writes (s : State) (key : Nat) : (s.leaveRings key).writes = s.writes := rfl
theorem State.answered_entered (s : State) (code : Nat) : (s.answered code).entered = s.entered := rfl
theorem State.unregister_entered (s : State) (f : Party → Bool) : (s.unregister f).entered = s.entered := rfl
theorem State.leaveRings_entered (s : State) (key : Nat) : (s.leaveRings key).entered = s.entered := rfl

theorem State.doubling_writes (s : State) (key code : Nat) : (s.doubling key code).writes = s.writes := by
  unfold State.doubling
  rw [State.mapTeam_writes, State.leaveRings_writes, State.unregister_writes, State.answered_writes]

theorem State.doubling_entered (s : State) (key code : Nat) : (s.doubling key code).entered = s.entered := by
  unfold State.doubling
  rw [State.mapTeam_entered, State.leaveRings_entered, State.unregister_entered, State.answered_entered]

theorem State.post_writes (s : State) (p : Place) (r : RecordFields) : (s.post p r).writes = s.writes := rfl
theorem State.post_entered (s : State) (p : Place) (r : RecordFields) : (s.post p r).entered = s.entered := rfl

section
variable {s : State} {t : Team} (h : s.team? t.key = some t)
include h

/-- A DOUBLE stops its context and posts a record (R398). -/
theorem State.double_posts (c : Cause) (sec src : Nat) : ∃ r, s.double t.key c sec src = (s.doubling t.key c.code).post t.place r := by
  unfold State.double
  simp only [h]
  exact ⟨_, rfl⟩

theorem State.double_stands (c : Cause) (sec src : Nat) : s.MemoryStands (s.double t.key c sec src) ∧ s.TeamStands (s.double t.key c sec src) t := by
  obtain ⟨r, hr⟩ := State.double_posts h c sec src
  have hteam (j : Nat) : (s.double t.key c sec src).team? j = (s.mapTeam t.key Team.doubled).team? j := by
    unfold State.team?
    rw [hr, State.post_teams, State.doubling_teams]
  refine ⟨?_, fun j hj => (hteam j).trans (State.team?_mapTeam_other s t.key j hj _ fun _ hu => hu), t.doubled, ?_, rfl, ?_⟩
  · rw [hr, State.MemoryStands, State.post_mem, State.post_writes, State.post_entered]
    exact ⟨State.doubling_mem .., State.doubling_writes .., State.doubling_entered ..⟩
  · exact (hteam t.key).trans (State.team?_mapTeam_some h _ fun _ => rfl)
  · simp [Team.SameSpecial, Team.doubled]

theorem State.helmTrap_stands (c : Cause) : s.MemoryStands (s.helmTrap t.key c) ∧ s.TeamStands (s.helmTrap t.key c) t := by
  by_cases hv : t.inVector = true
  · rw [State.helmTrap_inside h hv]
    exact State.double_stands h c _ _
  · rw [State.helmTrap_outside h (by simpa using hv)]
    exact ⟨⟨State.freeze_mem .., State.freeze_writes .., State.freeze_entered ..⟩, fun j hj => State.freeze_other hj _, State.freeze_team h _⟩

theorem State.helmWait_stands (w : WaitFor) : s.MemoryStands (s.helmWait t.key w) ∧ s.TeamStands (s.helmWait t.key w) t := by
  unfold State.helmWait
  have hmap := State.team?_mapTeam_some h (fun t => { t with waitFor := some w }) fun _ => rfl
  obtain ⟨u, hu, hg, hspecial⟩ := State.stepDone_team hmap 0
  refine ⟨⟨State.stepDone_mem .., State.stepDone_writes .., State.stepDone_entered ..⟩, fun j hj => ?_, u, hu, hg, hspecial⟩
  rw [State.stepDone_other hj]
  exact State.team?_mapTeam_other s t.key j hj _ fun _ hk => hk

end

theorem State.TeamStands.of_reached {s s1 s' : State} {t : Team} (hr : s.Reached s1) (h : s1.TeamStands s' t) : s.TeamStands s' t := by
  obtain ⟨hothers, hteam⟩ := h
  exact ⟨fun j hj => (hothers j hj).trans (hr.team? j), hteam⟩

theorem State.Reached.sameMemory_then {s s1 s' : State} (hr : s.Reached s1) (h : s1.MemoryStands s') : State.SameMemory s s' := by
  obtain ⟨new, hnew⟩ := hr.enters
  obtain ⟨hmem, hwrites, hent⟩ := h
  exact SameMemory.of_eq (hmem.trans hr.mem) (hwrites.trans hr.writes) ⟨new, hent.trans hnew⟩

/-! ### The bytes that a load reads -/

theorem leNat_lt (bs : List Byte) : leNat bs < 2 ^ (8 * bs.length) := by
  induction bs with
  | nil => simp [leNat]
  | cons b bs ih =>
    have hb := b.isLt
    rw [leNat, List.length_cons, show 8 * (bs.length + 1) = 8 + 8 * bs.length by omega, Nat.pow_add]
    omega

theorem unitOptions_length (s : State) (p : Place) (known lifted : List Nat) (rs : List Region) (va : Option Nat) (a n : Nat) :
    (unitOptions s p known lifted rs va a n).length = n := by
  induction n generalizing va a with
  | zero => rfl
  | succ n ih => rw [unitOptions, List.length_cons, ih]

theorem readUnitBytes_length (s : State) (os : List (Nat × List Write)) (chosen : List ByteRead) (tick : Nat) :
    (readUnitBytes s os chosen tick).1.length = chosen.length + os.length := by
  induction os generalizing chosen tick with
  | nil => rfl
  | cons o os ih =>
    obtain ⟨a, ws⟩ := o
    rw [readUnitBytes]
    dsimp only
    split <;> rw [ih] <;> simp <;> omega

/-- A read of `n` bytes has a value of `n` bytes. -/
theorem State.readAs_value_lt (s : State) (p : Place) (rs : List Region) (va : Option Nat) (loc n : Nat) :
    readValue (s.readAs p rs va loc n).1 < 2 ^ (8 * n) := by
  have hlen : (s.readAs p rs va loc n).1.length = n := by
    refine (readUnitBytes_length s _ [] s.tick).trans ?_
    rw [unitOptions_length, List.length_nil, Nat.zero_add]
  have := leNat_lt ((s.readAs p rs va loc n).1.map (·.value))
  rwa [List.length_map, hlen] at this

/-- The machine after a read and an acquire of a helm word: memory and its records stand, and so do all teams but for the SWEPT bit of its own. -/
structure State.ReadOut (s s' : State) (key : Nat) (f : Team → Team) : Prop where
  memory : s.MemoryStands s'
  teams : s'.teams = (s.mapTeam key f).teams

/-- A helm read always ends, with a value of its size. -/
theorem readHelm_run (t : Team) (L : Located) (n : Nat) (s : State) :
    ∃ v heads s', readHelm t L n s = .ok ((v, heads), s') ∧ v < 2 ^ (8 * n) ∧ s.ReadOut s' t.key id := by
  have hid : (s.mapTeam t.key id).teams = s.teams := by rw [State.mapTeam_id s _ (f := id) fun _ => rfl]
  unfold readHelm
  by_cases hm : storageOf L.loc = mgmtTag
  · rw [if_pos hm]
    exact ⟨_, _, _, rfl, Nat.mod_lt _ (Nat.two_pow_pos _), ⟨rfl, rfl, rfl⟩, hid.symm⟩
  · rw [if_neg hm]
    exact ⟨_, _, _, rfl, s.readAs_value_lt _ _ _ _ _, ⟨rfl, rfl, rfl⟩, hid.symm⟩

theorem helmAcquire_readOut (t : Team) (scope : Nat) (va : Option Nat) (heads : List Release) (s : State) :
    ∃ s' f, helmAcquire t scope va heads s = .ok ((), s') ∧ (f = id ∨ f = Team.sweep) ∧ s.ReadOut s' t.key f := by
  obtain ⟨cs, f, hf, h⟩ := helmAcquire_run t scope va heads s
  exact ⟨_, f, h, hf, ⟨rfl, rfl, rfl⟩, rfl⟩

/-! ### A load -/

/-- The widening of a loaded value by its size code (R32). -/
theorem widenLoad_eq (size : BitVec 3) {v : Nat} (h : v < 2 ^ (8 * bytesOf size)) : widenLoad size v = widened size v := by
  have hbytes : 8 * bytesOf size ≠ 0 := by simp [bytesOf]
  have hpow : 2 ^ (8 * bytesOf size) = 2 * 2 ^ (8 * bytesOf size - 1) := by rw [← Nat.pow_succ', Nat.succ_eq_add_one, Nat.sub_add_cancel (Nat.one_le_iff_ne_zero.2 hbytes)]
  have hsigned : signedOf (8 * bytesOf size) v = if v < 2 ^ (8 * bytesOf size - 1) then (v : Int) else (v : Int) - 2 ^ (8 * bytesOf size) := by
    unfold signedOf
    rw [Nat.mod_eq_of_lt h]
    push_cast
    congr 1
    exact propext (by omega)
  show (if size.toNat < 4 then BitVec.ofNat 64 v else BitVec.ofInt 64 (signedOf (8 * bytesOf size) v)) = _
  rw [hsigned]
  unfold widened
  split
  · rfl
  · split <;> rfl

/-- What the loads have in common, from the segment, the offset, the size and the scope of an acquire. -/
def loadBody (t : Team) (d : GReg) (sg : W128) (off : Int) (size : BitVec 3) (acq : Option Nat) : M Next := do
  let l ← helmAddress t sg off (bytesOf size) .read
  let v ← readHelm t l (bytesOf size)
  match acq with
  | none => pure ()
  | some scope => helmAcquire t scope l.va v.2
  setG t.key d (widenLoad size v.1)
  pure .seq

section
variable {s : State} {t : Team} {i : Instr} {len : Nat} {d : GReg} {sg : W128} {off : Int} {size : BitVec 3} {acq : Option Nat}

theorem loadWord_exec (h : HelmTurn s t) (hi : loadWord t i = some (len, d, sg, off, size, acq)) :
    exec i s = runHelm len (fun _ => loadBody t d sg off size acq) s := by
  unfold loadWord at hi
  split at hi <;> cases hi <;> exact runHelm_congr h _ rfl

/-- From the address on: what is read, what an acquire adds, and the write of the register. -/
theorem loadBody_reads {L : Located} {s1 : State} (ha : helmAddress t sg off (bytesOf size) .read s = .ok (L, s1)) :
    ∃ v heads s2 s3 f, readHelm t L (bytesOf size) s1 = .ok ((v, heads), s2) ∧ v < 2 ^ (8 * bytesOf size) ∧ (acq = none → s3 = s2) ∧
      (∀ scope, acq = some scope → helmAcquire t scope L.va heads s2 = .ok ((), s3)) ∧
      loadBody t d sg off size acq s = (setG t.key d (widened size v) >>= fun _ => pure .seq) s3 ∧
      (f = id ∨ acq ≠ none ∧ f = Team.sweep) ∧ s1.ReadOut s3 t.key f := by
  obtain ⟨v, heads, s2, hread, hv, h2⟩ := readHelm_run t L (bytesOf size) s1
  cases acq with
  | none =>
    refine ⟨v, heads, s2, s2, id, hread, hv, fun _ => rfl, nofun, ?_, .inl rfl, h2⟩
    unfold loadBody
    rw [← widenLoad_eq size hv, M.bind_ok ha, M.bind_ok hread]
  | some scope =>
    obtain ⟨s3, f, hacq, hf, hmem, hteams⟩ := helmAcquire_readOut t scope L.va heads s2
    refine ⟨v, heads, s2, s3, f, hread, hv, nofun, fun x hx => by cases hx; exact hacq, ?_, hf.imp id fun h => ⟨nofun, h⟩, ?_, ?_⟩
    · unfold loadBody
      rw [← widenLoad_eq size hv, M.bind_ok ha, M.bind_ok hread]
      exact M.bind_ok hacq
    · exact h2.memory.trans hmem
    · have hid : (s1.mapTeam t.key id).teams = s1.teams := by rw [State.mapTeam_id s1 _ (f := id) fun _ => rfl]
      rw [hteams, State.mapTeam, State.mapTeam, h2.teams, hid]

/-- The team in a state so read. -/
theorem State.ReadOut.team? {f : Team → Team} {s' : State} {w : Team} (h : s.ReadOut s' t.key f) (hf : ∀ t, (f t).key = t.key)
    (ht : s.team? t.key = some w) : s'.team? t.key = some (f w) := by
  rw [State.team?, h.teams]
  exact State.team?_mapTeam_some ht f hf

theorem State.ReadOut.sameOthers {f : Team → Team} {s' : State} (h : s.ReadOut s' t.key f) (hf : ∀ t, (f t).key = t.key) :
    State.SameOthers s s' t.key := by
  intro j hj
  rw [State.team?, h.teams]
  exact State.team?_mapTeam_other s t.key j hj f fun u hu => (hf u).trans hu

variable (h : HelmTurn s t) (hi : loadWord t i = some (len, d, sg, off, size, acq))
include h hi

/-- An address that is refused. -/
theorem load_refused {c : Cause} (ha : helmAddress t sg off (bytesOf size) .read s = .error (.trap c)) :
    exec i s = .next (s.helmTrap t.key c) := by
  have hw := (helmAddress_within t sg off (bytesOf size) (k := .read) nofun).trap ha
  have he := loadWord_exec h hi
  obtain ⟨hcur, hteam, hmay⟩ := h
  exact he.trans (runHelm_trap hcur hteam hmay len (M.bind_error ha) fun hc => nomatch hw hc.2)

/-- An address that waits. -/
theorem load_waits {w : WaitFor} {s1 : State} (ha : helmAddress t sg off (bytesOf size) .read s = .error (.wait w s1)) :
    exec i s = .next (s1.helmWait t.key w) := by
  have he := loadWord_exec h hi
  obtain ⟨hcur, hteam, hmay⟩ := h
  exact he.trans (runHelm_wait hcur hteam hmay len (M.bind_error ha))

variable {L : Located} {s1 : State} (ha : helmAddress t sg off (bytesOf size) .read s = .ok (L, s1))
include ha

/-- A destination that privilege forbids. -/
theorem load_priv (hd : t.mayWrite d = false) : exec i s = .next (s.helmTrap t.key (plainCause 0x03)) := by
  obtain ⟨v, heads, s2, s3, f, -, -, -, -, hbody, hf, hout⟩ := loadBody_reads (d := d) (acq := acq) ha
  have he := loadWord_exec h hi
  obtain ⟨hcur, hteam, hmay⟩ := h
  have hsuper : (f t).super = t.super := by rcases hf with rfl | ⟨-, rfl⟩ <;> rfl
  have hteam3 : s3.team? t.key = some (f t) := hout.team? (by rcases hf with rfl | ⟨-, rfl⟩ <;> exact fun _ => rfl)
    (((helmAddress_within t sg off (bytesOf size) (k := .read) nofun).ok ha).team? t.key ▸ hteam)
  refine he.trans (runHelm_trap hcur hteam hmay len ?_ fun hc => absurd hc.1 (show 0x03 ≠ 0x0C by decide))
  exact hbody.trans (M.bind_error (setG_priv hteam3 d _ (by rwa [hsuper])))

/-- What the load reads, and the write of its register. -/
theorem load_writes (hd : t.mayWrite d = true) :
    ∃ v heads s2 s3 f, readHelm t L (bytesOf size) s1 = .ok ((v, heads), s2) ∧ (acq = none → s3 = s2) ∧
      (∀ scope, acq = some scope → helmAcquire t scope L.va heads s2 = .ok ((), s3)) ∧
      exec i s = .next (s3.afterValue t len d (widened size v)) ∧
      (f = id ∨ acq ≠ none ∧ f = Team.sweep) ∧ s1.ReadOut s3 t.key f := by
  obtain ⟨v, heads, s2, s3, f, hread, -, hnone, hsome, hbody, hf, hout⟩ := loadBody_reads (d := d) (acq := acq) ha
  have he := loadWord_exec h hi
  obtain ⟨hcur, hteam, hmay⟩ := h
  have hsuper : (f t).super = t.super := by rcases hf with rfl | ⟨-, rfl⟩ <;> rfl
  have hteam3 : s3.team? t.key = some (f t) := hout.team? (by rcases hf with rfl | ⟨-, rfl⟩ <;> exact fun _ => rfl)
    (((helmAddress_within t sg off (bytesOf size) (k := .read) nofun).ok ha).team? t.key ▸ hteam)
  refine ⟨v, heads, s2, s3, f, hread, hnone, hsome, he.trans (runHelm_next hcur hteam hmay len ?_), hf, hout⟩
  exact hbody.trans (M.bind_ok (setG_ok hteam3 d _ (by rwa [hsuper])))

end

/-- What a team keeps across a load. -/
def Team.LoadKeeps (t u : Team) (d : GReg) (acq : Option Nat) : Prop :=
  t.SameRegsBut u d ∧ (acq = none → t.SameSpecial u) ∧ u.segs = t.segs ∧ u.cause = t.cause ∧ u.epc = t.epc ∧ u.faultva = t.faultva ∧
    (u.mmcfg = t.mmcfg ∨ u.mmcfg = t.mmcfg ||| 4)

theorem Team.LoadKeeps.of_special {t u : Team} {d : GReg} {acq : Option Nat} (hr : t.SameRegsBut u d) (hs : t.SameSpecial u) :
    t.LoadKeeps u d acq := by
  obtain ⟨hsegs, -, -, -, -, -, hcause, hepc, hfva, hmmcfg, -⟩ := id hs
  exact ⟨hr, fun _ => hs, hsegs, hcause, hepc, hfva, .inl hmmcfg⟩

theorem Team.LoadKeeps.of_sweep {t u : Team} {d : GReg} {acq : Option Nat} (ha : acq ≠ none) (hr : t.SameRegsBut u d) (hs : t.sweep.SameSpecial u) :
    t.LoadKeeps u d acq := by
  obtain ⟨hsegs, -, -, -, -, -, hcause, hepc, hfva, hmmcfg, -⟩ := hs
  exact ⟨hr, fun hn => absurd hn ha, hsegs, hcause, hepc, hfva, .inr hmmcfg⟩

theorem Team.sameRegsBut_of_g {t u : Team} (h : u.g = t.g) (d : GReg) : t.SameRegsBut u d := fun r _ => by rw [Team.reg, Team.reg, h]

/-- What a load leaves alone, however it ends. -/
theorem load_frame {s s' : State} {t : Team} {i : Instr} {len : Nat} {d : GReg} {sg : W128} {off : Int} {size : BitVec 3} {acq : Option Nat}
    (h : HelmTurn s t) (hi : loadWord t i = some (len, d, sg, off, size, acq)) (hx : exec i s = .next s') :
    State.SameMemory s s' ∧ State.SameOthers s s' t.key ∧ ∃ u, s'.team? t.key = some u ∧ t.LoadKeeps u d acq := by
  have hteam := h.2.1
  have stands {s1 : State} (hr : s.Reached s1) (hs : s1.MemoryStands s' ∧ s1.TeamStands s' t) :
      State.SameMemory s s' ∧ State.SameOthers s s' t.key ∧ ∃ u, s'.team? t.key = some u ∧ t.LoadKeeps u d acq := by
    obtain ⟨hothers, u, hu, hg, hspecial⟩ := State.TeamStands.of_reached hr hs.2
    exact ⟨hr.sameMemory_then hs.1, hothers, u, hu, .of_special (Team.sameRegsBut_of_g hg d) hspecial⟩
  cases ha : helmAddress t sg off (bytesOf size) .read s with
  | error x =>
    cases x with
    | trap c =>
      cases (load_refused h hi ha).symm.trans hx
      exact stands (State.Reached.frame.refl s) (State.helmTrap_stands hteam c)
    | wait w s1 =>
      cases (load_waits h hi ha).symm.trans hx
      have hr := (helmAddress_within t sg off (bytesOf size) (k := .read) nofun).wait ha
      exact stands hr (State.helmWait_stands (hr.team? t.key ▸ hteam) w)
    | fault f =>
      have he := loadWord_exec h hi
      obtain ⟨hcur, -, hmay⟩ := h
      rw [he, runHelm_run hcur hteam hmay, show loadBody t d sg off size acq s = .error (.fault f) from M.bind_error ha] at hx
      cases hx
  | ok p =>
    obtain ⟨L, s1⟩ := p
    have hr := (helmAddress_within t sg off (bytesOf size) (k := .read) nofun).ok ha
    cases hd : t.mayWrite d with
    | false =>
      cases (load_priv h hi ha hd).symm.trans hx
      exact stands (State.Reached.frame.refl s) (State.helmTrap_stands hteam _)
    | true =>
      obtain ⟨v, heads, s2, s3, f, -, -, -, he, hf, hout⟩ := load_writes h hi ha hd
      cases he.symm.trans hx
      have hkey : ∀ t, (f t).key = t.key := by rcases hf with rfl | ⟨-, rfl⟩ <;> exact fun _ => rfl
      have hteam3 := hout.team? hkey (hr.team? t.key ▸ hteam)
      obtain ⟨hmem, hothers, u, hu, hregs, hspecial⟩ := State.afterValue_frame hteam3 len d (widened size v)
      refine ⟨hr.sameMemory_then (hout.memory.trans hmem), fun j hj => ?_, u, hu, ?_⟩
      · exact (hothers j hj).trans ((hout.sameOthers hkey j hj).trans (hr.team? j))
      · rcases hf with rfl | ⟨hacq, rfl⟩
        · exact .of_special hregs hspecial
        · exact .of_sweep hacq hregs hspecial

/-- Settles O17: a load by its address, what it reads, and its frame. -/
theorem loadWords : Obligations.LoadWords := by
  unfold Obligations.LoadWords
  refine ⟨fun s t i len d sg off size acq h hi => ⟨fun c => load_refused h hi, fun L s1 => load_priv h hi, fun L s1 ha hd => ?_⟩,
    fun s s' t i len d sg off size acq => load_frame⟩
  obtain ⟨v, heads, s2, s3, f, hread, hnone, hsome, he, -, -⟩ := load_writes h hi ha hd
  exact ⟨v, heads, s2, s3, hread, hnone, hsome, he⟩

end Sys2Proof.Machine
end

section
/-! Helm stores (R117 to R120, R259, R427, R431): the bytes that they write, their waits and traps, what may reach a peer that does not answer, and
what they leave alone, which settle O18. -/

namespace Sys2Proof.Machine

open Sys2Proof.Spec

/-! ### Bytes outside a write (R301, R306) -/

/-- What a byte's reader may find depends on the writes that cover the byte. -/
theorem candidates_congr {ws ws' : List Write} {a : Nat} (h : ws'.filter (·.covers a) = ws.filter (·.covers a)) (known : List Nat) :
    candidates ws' known a = candidates ws known a := by
  unfold candidates
  dsimp only
  rw [h]

theorem scopeRace_eq (ws : List Write) (known lifted : List Nat) (a : Nat) :
    scopeRace ws known lifted a = (ws.filter (·.covers a)).any fun w => !w.inKnown known && lifted.contains w.id := by
  simp only [scopeRace, List.any_filter, Bool.and_assoc]

theorem scopeRace_congr {ws ws' : List Write} {a : Nat} (h : ws'.filter (·.covers a) = ws.filter (·.covers a)) (known lifted : List Nat) :
    scopeRace ws' known lifted a = scopeRace ws known lifted a := by rw [scopeRace_eq, scopeRace_eq, h]

theorem regionRace_congr {ws ws' : List Write} {a : Nat} (h : ws'.filter (·.covers a) = ws.filter (·.covers a)) (p : Place) (known : List Nat)
    (rs : List Region) (va : Option Nat) : regionRace ws' p known rs va a = regionRace ws p known rs va a := by
  unfold regionRace
  simp only [candidates_congr h]

/-- So do the writes that a context has at a byte. -/
theorem State.writesFor_filter {s s' : State} {a : Nat} (h : s'.writes.filter (·.covers a) = s.writes.filter (·.covers a)) (hh : s'.home = s.home)
    (he : s'.entered = s.entered) (p : Place) : (s'.writesFor p a).filter (·.covers a) = (s.writesFor p a).filter (·.covers a) := by
  unfold State.writesFor State.enteredAt
  rw [he]
  split
  · exact h
  · dsimp only
    rw [h, hh]

theorem unitOptions_congr {s s' : State} {a : Nat} (h : s'.writes.filter (·.covers a) = s.writes.filter (·.covers a)) (hh : s'.home = s.home)
    (he : s'.entered = s.entered) (p : Place) (known lifted : List Nat) (rs : List Region) (va : Option Nat) :
    unitOptions s' p known lifted rs va a 1 = unitOptions s p known lifted rs va a 1 := by
  have hf := State.writesFor_filter h hh he p
  simp only [unitOptions]
  rw [regionRace_congr hf, scopeRace_congr hf, candidates_congr hf, hf]

/-- A byte that memory and the writes over it hold as before reads as before. -/
theorem State.sameByte_of_filter {s s' : State} {a : Nat} (hw : s'.writes.filter (·.covers a) = s.writes.filter (·.covers a))
    (hm : memGet s'.mem a = memGet s.mem a) : State.SameByte s s' a := by
  intro p known lifted rs va tick
  have ho := unitOptions_congr (s := { s with tick := tick }) (s' := { s' with tick := tick, entered := s.entered, home := s.home }) hw rfl rfl p
    known lifted rs va
  unfold State.readWith
  rw [ho]
  simp only [unitOptions, readUnitBytes, hm]

/-- Writes added over some bytes, which hold the bytes given, leave every other byte alone. -/
theorem State.sameOutside_of_writes {s s' : State} (hwf : Memory.wf s.mem = true) {loc : Nat} {bs : List Byte} {extra : List Write}
    (hm : s'.mem = memSetList s.mem loc bs) (hw : s'.writes = s.writes ++ extra)
    (hx : ∀ w ∈ extra, ∀ a, w.covers a = true → loc ≤ a ∧ a < loc + bs.length) (he : State.Enters s s') :
    State.SameOutside s s' loc bs.length := by
  refine ⟨fun a ha => ?_, he⟩
  have hmem : memGet s'.mem a = memGet s.mem a := by rw [hm]; exact memGet_memSetList_outside hwf bs ha
  refine ⟨State.sameByte_of_filter ?_ hmem, hmem⟩
  rw [hw, List.filter_append, List.filter_eq_nil_iff.2 fun w hmw hc => ha (hx w hmw a hc), List.append_nil]

theorem bottomsFor_covers (s : State) (loc n : Nat) : ∀ w ∈ bottomsFor s loc n, ∀ a, w.covers a = true → loc ≤ a ∧ a < loc + n := by
  induction n with
  | zero => simp [bottomsFor]
  | succ n ih =>
    intro w hw a ha
    rw [bottomsFor] at hw
    split at hw
    · have := ih w hw a ha
      omega
    · rcases List.mem_cons.1 hw with rfl | hw
      · simp only [Write.covers, List.length_singleton, Bool.and_eq_true, decide_eq_true_eq] at ha
        omega
      · have := ih w hw a ha
        omega

/-- The records that a write adds cover its own bytes only. -/
theorem State.writeIn_writes (s : State) (p : Place) (rs : List Region) (va rel : Option Nat) (loc : Nat) (bs : List Byte) :
    ∃ extra, (s.writeIn p rs va rel loc bs).writes = s.writes ++ extra ∧
      ∀ w ∈ extra, ∀ a, w.covers a = true → loc ≤ a ∧ a < loc + bs.length := by
  have hwrite (known lifted : List Nat) (heads : List Release) : ∃ extra, (s.writeWith p known lifted heads loc bs).2.writes = s.writes ++ extra ∧
      ∀ w ∈ extra, ∀ a, w.covers a = true → loc ≤ a ∧ a < loc + bs.length := by
    have hadd : ∃ w : Write, w.loc = loc ∧ w.bytes = bs ∧ (s.writeWith p known lifted heads loc bs).2.writes =
        s.writes ++ (bottomsFor (s.takeToken p loc) loc bs.length ++ [w]) := by
      simp only [← State.takeToken_writes s p loc, ← List.append_assoc, State.writeWith]
      split <;> exact ⟨_, rfl, rfl, rfl⟩
    obtain ⟨w, hloc, hbytes, he⟩ := hadd
    refine ⟨_, he, fun x hx a ha => ?_⟩
    rcases List.mem_append.1 hx with hx | hx
    · exact bottomsFor_covers _ loc bs.length x hx a ha
    · obtain rfl := List.mem_singleton.1 hx
      simpa [Write.covers, hloc, hbytes] using ha
  exact hwrite _ _ _

theorem State.takeToken_entered (s : State) (p : Place) (loc : Nat) : (s.takeToken p loc).entered = s.entered := by
  unfold State.takeToken
  split
  · rfl
  · extract_lets block holder
    split
    · split <;> rfl
    · rfl

theorem State.writeIn_entered (s : State) (p : Place) (rs : List Region) (va rel : Option Nat) (loc : Nat) (bs : List Byte) :
    (s.writeIn p rs va rel loc bs).entered = s.entered := by
  have hwrite (known lifted : List Nat) (heads : List Release) : (s.writeWith p known lifted heads loc bs).2.entered = s.entered := by
    rw [← State.takeToken_entered s p loc]
    simp only [State.writeWith]
    split <;> rfl
  exact hwrite _ _ _

/-! ### Where an access may want a peer's answer (R360, R431) -/

theorem locOf_storage {tag off : Nat} (h : off < 2 ^ 64) : storageOf (locOf tag off) = tag := by
  unfold storageOf locOf storageSize
  omega

/-- No leaf leads to the management registers. -/
theorem leafLoc_storage (large : Bool) (leaf va : Nat) : storageOf (leafLoc large leaf va) ≠ mgmtTag := by
  have hpa : (if large = true then bitsOf leaf 51 21 * 2 ^ 21 + va % 2 ^ 21 else leafFrame leaf * 2 ^ 16 + va % 2 ^ 16) < 2 ^ 64 := by
    unfold leafFrame bitsOf
    split <;> omega
  have hnode : leafNode leaf < 256 := Nat.mod_lt _ (by decide)
  unfold leafLoc
  dsimp only
  split
  · rw [locOf_storage hpa]; decide
  · rw [locOf_storage hpa]; decide
  · rw [locOf_storage hpa]
    simp only [peerTag, mgmtTag]
    omega

/-- A translation ends under some leaf. -/
theorem translate_loc {roots : List Nat} {aspace dctx bay va loc : Nat} {helm super large : Bool} {k : AccessKind} {s s' : State}
    (h : translate roots aspace dctx bay helm super k va s = .ok ((loc, large), s')) : ∃ leaf, loc = leafLoc large leaf va := by
  have hreach {large' : Bool} {leaf : Nat} {u u' : State} {loc' : Nat} (hr : reachLeaf k va large' leaf u = .ok (loc', u')) :
      loc' = leafLoc large' leaf va := by
    unfold reachLeaf at hr
    dsimp only at hr
    split at hr
    · obtain ⟨-, v, -, hr⟩ := M.bind_eq_ok.1 hr
      cases hr
      rfl
    · cases hr
      rfl
  unfold translate at h
  split at h
  · cases h
  · obtain ⟨u, s1, -, h⟩ := M.bind_eq_ok.1 h
    obtain ⟨⟨large', leaf⟩, s2, -, h⟩ := M.bind_eq_ok.1 h
    have hlast {s3 : State} (h : (reachLeaf k va large' leaf >>= fun loc => pure (loc, large')) s3 = .ok ((loc, large), s')) :
        ∃ leaf, loc = leafLoc large leaf va := by
      obtain ⟨l, s4, hr, h⟩ := M.bind_eq_ok.1 h
      cases h
      exact ⟨leaf, hreach hr⟩
    dsimp only at h
    split at h
    · obtain ⟨-, s3, -, h⟩ := M.bind_eq_ok.1 h
      exact hlast h
    · exact hlast h

section
variable {t : Team} {bay n : Nat} {helm super : Bool} {sg : W128} {off : Int} {k : AccessKind}

/-- Behind the checks, only an access to the global space outside the management window may find its data wanting: in another state too it leads
to memory. -/
theorem addressIn_wanting {s s2 s2' : State} {c : Cause} {L : Located} (h : addressIn t bay helm super sg off n k s = .error (.trap c))
    (hc : c.code = 0x0C) (h2 : addressIn t bay helm super sg off n k s2 = .ok (L, s2')) : storageOf L.loc ≠ mgmtTag := by
  by_cases h0 : segSpace sg = 0
  · unfold addressIn at h h2
    rw [M.bind_ok (M.get_run _), h0] at h h2
    dsimp only at h h2
    by_cases hw : (helm && super && t.inWindow (segBase sg + off.toNat) && (k == .read || k == .write)) = true
    · rw [if_pos hw] at h
      cases h
    · rw [if_neg hw] at h2
      obtain ⟨⟨loc, large⟩, s3, htr, h2⟩ := M.bind_eq_ok.1 h2
      cases h2
      obtain ⟨leaf, rfl⟩ := translate_loc htr
      exact leafLoc_storage large leaf _
  by_cases h4 : segSpace sg = 4
  · unfold addressIn at h
    rw [M.bind_ok (M.get_run _), h4] at h
    dsimp only at h
    by_cases hd : s.dieUp ((segBase sg + off.toNat) / 0x8000) = true
    · rw [if_pos hd] at h
      cases h
    · rw [if_neg hd] at h
      cases h
      exact absurd hc (show 0x05 ≠ 0x0C by decide)
  · cases hloc : s.localLoc t bay (segSpace sg) (segBase sg + off.toNat) n with
    | some loc =>
      rw [addressIn_local h0 h4 hloc] at h
      cases h
    | none =>
      rw [addressIn_unallotted h0 h4 hloc] at h
      cases h
      exact absurd hc (show 0x04 ≠ 0x0C by decide)

theorem address_wanting (hk : k ≠ .fetch) {s s2 s2' : State} {c : Cause} {L : Located} (h : address t bay helm super sg off n k s = .error (.trap c))
    (hc : c.code = 0x0C) (h2 : address t bay helm super sg off n k s2 = .ok (L, s2')) : storageOf L.loc ≠ mgmtTag := by
  have hcode {code : Nat} (he : address t bay helm super sg off n k s = .error (.trap (accessCause code sg off k))) : code = 0x0C := by
    cases h.symm.trans he
    exact hc
  by_cases hl : off < 0 ∨ (segLimit sg : Int) < off + n
  · exact absurd (hcode (address_limit hl)) (by decide)
  have h0 : 0 ≤ off := by omega
  have hin : off + n ≤ segLimit sg := by omega
  cases hp : segPermits sg k with
  | false => exact absurd (hcode (address_permission h0 hin hp)) (by decide)
  | true =>
    by_cases hs : segSpace sg ≠ 4 ∨ super = true
    · by_cases ha : off % n = 0
      · rw [address_passed h0 hin hp hs ha] at h h2
        exact addressIn_wanting h hc h2
      · exact absurd (hcode (address_misaligned h0 hin hp hs ha)) (by decide)
    · obtain ⟨h4, hsuper⟩ := not_or.1 hs
      exact absurd (hcode (address_lock h0 hin hp (not_not.1 h4) (by simpa using hsuper) hk)) (by decide)

/-- The same of a helm access, whose watch test raises another trap. -/
theorem helmAddress_wanting (hk : k ≠ .fetch) {s s2 s2' : State} {c : Cause} {L : Located} (h : helmAddress t sg off n k s = .error (.trap c)) (hc : c.code = 0x0C)
    (h2 : helmAddress t sg off n k s2 = .ok (L, s2')) : storageOf L.loc ≠ mgmtTag := by
  unfold helmAddress at h h2
  obtain ⟨L', s3, ha2, h2⟩ := M.bind_eq_ok.1 h2
  obtain ⟨-, s4, -, h2⟩ := M.bind_eq_ok.1 h2
  cases h2
  cases ha : address t t.bay true t.super sg off n k s with
  | error x =>
    rw [M.bind_error ha] at h
    cases h
    exact address_wanting hk ha hc ha2
  | ok p =>
    obtain ⟨l, u⟩ := p
    rw [M.bind_ok ha] at h
    unfold watchAccess at h
    split at h
    · cases h
    · split at h
      · cases h
        exact absurd hc (show 0x0E ≠ 0x0C by decide)
      · cases h

end

/-! ### A store -/

/-- The bytes that a store writes. -/
def storeBytes (t : Team) (g : GReg) (size : BitVec 3) : List Byte := leBytes (bytesOf size) ((t.reg g).toNat % 2 ^ (8 * bytesOf size))

theorem storeBytes_length (t : Team) (g : GReg) (size : BitVec 3) : (storeBytes t g size).length = bytesOf size := leBytes_length _ _

/-- What a release brings to its homes first. -/
def State.homed (s : State) (t : Team) (rel : Option Nat) : State := if rel.isSome then s.drainParty t.place.party else s

/-- What the stores have in common, from the segment, the offset, the size and the scope of a release. -/
def storeBody (t : Team) (g : GReg) (sg : W128) (off : Int) (size : BitVec 3) (rel : Option Nat) : M Next := do
  let l ← helmAddress t sg off (bytesOf size) .write
  waitLease t l (bytesOf size)
  modify fun s => s.homed t rel
  writeHelm t rel l (storeBytes t g size)
  pure .seq

section
variable {s : State} {t : Team} {i : Instr} {len : Nat} {g : GReg} {sg : W128} {off : Int} {size : BitVec 3} {rel : Option Nat}

theorem storeWord_exec (h : HelmTurn s t) (hi : storeWord t i = some (len, g, sg, off, size, rel)) :
    exec i s = runHelm len (fun _ => storeBody t g sg off size rel) s := by
  unfold storeWord at hi
  split at hi <;> cases hi <;> exact runHelm_congr h _ rfl

/-- The memory that a store leaves. -/
def State.stored (s : State) (t : Team) (g : GReg) (size : BitVec 3) (rel : Option Nat) (L : Located) : State :=
  (s.homed t rel).writeIn t.place t.regionsNow L.va rel L.loc (storeBytes t g size)

variable {L : Located} {s0 s1 : State} (ha : helmAddress t sg off (bytesOf size) .write s0 = .ok (L, s1))
include ha

theorem storeBody_leased (hl : s1.leased t.key L.loc (bytesOf size) = true) :
    storeBody t g sg off size rel s0 = .error (.wait .matrix s1) := by
  unfold storeBody waitLease
  rw [M.bind_ok ha]
  refine M.bind_error ?_
  rw [M.bind_ok (M.get_run _), if_pos hl]
  rfl

theorem storeBody_free (hl : s1.leased t.key L.loc (bytesOf size) = false) :
    storeBody t g sg off size rel s0 = (writeHelm t rel L (storeBytes t g size) >>= fun _ => pure .seq) (s1.homed t rel) := by
  unfold storeBody waitLease
  rw [M.bind_ok ha]
  refine (M.bind_ok (a := ()) ?_).trans (M.bind_ok (M.modify_run _ _))
  rw [M.bind_ok (M.get_run _), if_neg (by simp [hl])]
  rfl

theorem storeBody_memory (hl : s1.leased t.key L.loc (bytesOf size) = false) (hm : storageOf L.loc ≠ mgmtTag) :
    storeBody t g sg off size rel s0 = .ok (.seq, s1.stored t g size rel L) := by
  rw [storeBody_free ha hl]
  refine M.bind_ok (a := ()) ?_
  unfold writeHelm
  rw [if_neg hm]
  rfl

/-- The whole register goes to a management register. -/
theorem storeBody_mgmt (hl : s1.leased t.key L.loc (bytesOf size) = false) (hm : storageOf L.loc = mgmtTag) (h8 : bytesOf size = 8) :
    storeBody t g sg off size rel s0 = .ok (.seq, (s1.homed t rel).mgmtWrite false (offsetOf L.loc) (t.reg g)) := by
  have hreg : BitVec.ofNat 64 (leNat (storeBytes t g size)) = t.reg g := by
    have hle := Laws.RoundTrip.leNat_take_leBytes 8 8 ((t.reg g).toNat % 2 ^ (8 * 8)) [] (Nat.le_refl 8)
    rw [List.append_nil, List.take_of_length_le (leBytes_length 8 _).le, Nat.mod_mod, Nat.mod_eq_of_lt (t.reg g).isLt] at hle
    rw [storeBytes, h8, Nat.mod_eq_of_lt (t.reg g).isLt, hle, BitVec.ofNat_toNat, BitVec.setWidth_eq]
  rw [storeBody_free ha hl]
  refine M.bind_ok (a := ()) ?_
  unfold writeHelm
  rw [if_pos hm, if_pos ((storeBytes_length t g size).trans h8), hreg]
  rfl

/-- A management register takes no other size. -/
theorem storeBody_mgmt_size (hl : s1.leased t.key L.loc (bytesOf size) = false) (hm : storageOf L.loc = mgmtTag) (h8 : bytesOf size ≠ 8) :
    storeBody t g sg off size rel s0 = .ok (.seq, s1.homed t rel) := by
  rw [storeBody_free ha hl]
  refine M.bind_ok (a := ()) ?_
  unfold writeHelm
  rw [if_pos hm, if_neg (by rwa [storeBytes_length])]
  rfl

omit ha in
/-- What the machine holds when a store's trap is raised: as it was, but where the store may have been performed at a peer. -/
theorem storeBody_landed {c : Cause} (hr : helmAddress t sg off (bytesOf size) .write s0 = .error (.trap c)) (hc : c.code = 0x0C) :
    let u := { s0 with tick := s0.tick + 1 }
    let v := State.landed (storeBody t g sg off size rel) u
    v = u ∨ ∃ L s1, helmAddress t sg off (bytesOf size) .write u.answering = .ok (L, s1) ∧ v = u.withMemory (s1.stored t g size rel L) := by
  intro u v
  cases hans : helmAddress t sg off (bytesOf size) .write u.answering with
  | error e =>
    refine .inl ?_
    show State.landed _ _ = _
    unfold State.landed
    rw [show storeBody t g sg off size rel u.answering = .error e from M.bind_error hans]
  | ok p =>
    obtain ⟨L, s1⟩ := p
    have hm := helmAddress_wanting (k := .write) nofun hr hc hans
    cases hl : s1.leased t.key L.loc (bytesOf size) with
    | true =>
      refine .inl ?_
      show State.landed _ _ = _
      unfold State.landed
      rw [storeBody_leased hans hl]
    | false =>
      refine .inr ⟨L, s1, rfl, ?_⟩
      show State.landed _ _ = _
      unfold State.landed
      rw [storeBody_memory hans hl hm]

end

section
variable {s : State} {t : Team} {i : Instr} {len : Nat} {g : GReg} {sg : W128} {off : Int} {size : BitVec 3} {rel : Option Nat}
variable (h : HelmTurn s t) (hi : storeWord t i = some (len, g, sg, off, size, rel))
include h hi

theorem store_refused {c : Cause} (ha : helmAddress t sg off (bytesOf size) .write s = .error (.trap c))
    (hc : ¬(c.code = 0x0C ∧ c.write = true)) : exec i s = .next (s.helmTrap t.key c) := by
  have he := storeWord_exec h hi
  obtain ⟨hcur, hteam, hmay⟩ := h
  exact he.trans (runHelm_trap hcur hteam hmay len (M.bind_error ha) hc)

theorem store_wanting {c : Cause} (ha : helmAddress t sg off (bytesOf size) .write s = .error (.trap c)) (hc : c.code = 0x0C)
    (hw : c.write = true) : ∃ u : State, exec i s = .next (u.helmTrap t.key c) ∧
      let s0 : State := { s with tick := s.tick + 1 }
      (u = s0 ∨ ∃ L s1, helmAddress t sg off (bytesOf size) .write s0.answering = .ok (L, s1) ∧
        u = s0.withMemory (s1.stored t g size rel L)) := by
  have he := storeWord_exec h hi
  have hlanded := storeBody_landed (g := g) (rel := rel) ha hc
  obtain ⟨hcur, hteam, hmay⟩ := h
  rw [runHelm_run hcur hteam hmay, show storeBody t g sg off size rel s = .error (.trap c) from M.bind_error ha] at he
  refine ⟨_, he, ?_⟩
  unfold State.mayLand
  rw [if_pos ⟨hc, hw⟩]
  dsimp only
  split
  · exact .inl rfl
  · exact hlanded

theorem store_waits {w : WaitFor} {s1 : State} (ha : helmAddress t sg off (bytesOf size) .write s = .error (.wait w s1)) :
    exec i s = .next (s1.helmWait t.key w) := by
  have he := storeWord_exec h hi
  obtain ⟨hcur, hteam, hmay⟩ := h
  exact he.trans (runHelm_wait hcur hteam hmay len (M.bind_error ha))

theorem store_leased {L : Located} {s1 : State} (ha : helmAddress t sg off (bytesOf size) .write s = .ok (L, s1))
    (hl : s1.leased t.key L.loc (bytesOf size) = true) : exec i s = .next (s1.helmWait t.key .matrix) := by
  have he := storeWord_exec h hi
  obtain ⟨hcur, hteam, hmay⟩ := h
  exact he.trans (runHelm_wait hcur hteam hmay len (storeBody_leased ha hl))

theorem store_next {s2 : State} (hb : storeBody t g sg off size rel s = .ok (.seq, s2)) : exec i s = .next (s2.retire t len .seq) := by
  have he := storeWord_exec h hi
  obtain ⟨hcur, hteam, hmay⟩ := h
  exact he.trans (runHelm_next hcur hteam hmay len hb)

end

/-! ### What a store leaves alone -/

theorem State.homed_writes (s : State) (t : Team) (rel : Option Nat) : (s.homed t rel).writes = s.writes := by cases rel <;> rfl
theorem State.homed_mem (s : State) (t : Team) (rel : Option Nat) : (s.homed t rel).mem = s.mem := by cases rel <;> rfl
theorem State.homed_entered (s : State) (t : Team) (rel : Option Nat) : (s.homed t rel).entered = s.entered := by cases rel <;> rfl
theorem State.homed_teams (s : State) (t : Team) (rel : Option Nat) : (s.homed t rel).teams = s.teams := by cases rel <;> rfl

theorem State.stored_teams (s : State) (t : Team) (g : GReg) (size : BitVec 3) (rel : Option Nat) (L : Located) :
    (s.stored t g size rel L).teams = s.teams := (State.writeIn_teams ..).trans (State.homed_teams ..)

/-- A state with the memory that a store leaves agrees with the one before outside the bytes stored. -/
theorem State.sameOutside_stored {s s1 s' : State} (hwf : Memory.wf s.mem = true) (t : Team) (g : GReg) (size : BitVec 3) (rel : Option Nat) (L : Located)
    (hm : s1.mem = s.mem) (hw : s1.writes = s.writes) (hm' : s'.mem = (s1.stored t g size rel L).mem)
    (hw' : s'.writes = (s1.stored t g size rel L).writes) (he : State.Enters s s') : State.SameOutside s s' L.loc (bytesOf size) := by
  obtain ⟨extra, hextra, hcovers⟩ := (s1.homed t rel).writeIn_writes t.place t.regionsNow L.va rel L.loc (storeBytes t g size)
  rw [← storeBytes_length t g size]
  refine State.sameOutside_of_writes hwf ?_ ?_ hcovers he
  · rw [hm', ← hm, ← s1.homed_mem t rel]
    exact State.writeIn_mem ..
  · rw [hw', ← hw, ← s1.homed_writes t rel]
    exact hextra

theorem State.SameMemory.sameOutside {s s' : State} (h : State.SameMemory s s') (loc n : Nat) : State.SameOutside s s' loc n :=
  ⟨fun a _ => h.1 a, h.2⟩

theorem State.Reached.answering_mem {s s' : State} (h : s.answering.Reached s') : s'.mem = s.mem ∧ s'.writes = s.writes := ⟨h.mem, h.writes⟩

/-- Helm stores that trap or wait at their address. -/
theorem store_frame_stopped {s s' : State} {t : Team} {i : Instr} {len : Nat} {g : GReg} {sg : W128} {off : Int} {size : BitVec 3} {rel : Option Nat}
    (h : HelmTurn s t) (hwf : Memory.wf s.mem = true) (hi : storeWord t i = some (len, g, sg, off, size, rel)) (hx : exec i s = .next s') {e : Stop}
    (ha : helmAddress t sg off (bytesOf size) .write s = .error e) :
    (State.SameMemory s s' ∨ (∃ c, e = .trap c ∧ c.code = 0x0C ∧ c.write = true) ∧
      ∃ L s1, helmAddress t sg off (bytesOf size) .write { s with tick := s.tick + 1 }.answering = .ok (L, s1) ∧
        State.SameOutside s s' L.loc (bytesOf size)) ∧ s.TeamStands s' t := by
  have hteam := h.2.1
  cases e with
  | wait w s1 =>
    cases (store_waits h hi ha).symm.trans hx
    have hr := (helmAddress_within t sg off (bytesOf size) (k := .write) nofun).wait ha
    obtain ⟨hmem, hstands⟩ := State.helmWait_stands (hr.team? t.key ▸ hteam) w
    exact ⟨.inl (hr.sameMemory_then hmem), hstands.of_reached hr⟩
  | fault f =>
    have he := storeWord_exec h hi
    obtain ⟨hcur, -, hmay⟩ := h
    rw [he, runHelm_run hcur hteam hmay, show storeBody t g sg off size rel s = .error (.fault f) from M.bind_error ha] at hx
    cases hx
  | trap c =>
    by_cases hc : c.code = 0x0C ∧ c.write = true
    · obtain ⟨hcode, hwrite⟩ := hc
      obtain ⟨u, hu, hcase⟩ := store_wanting h hi ha hcode hwrite
      cases hu.symm.trans hx
      have hteams : u.teams = s.teams := by
        rcases hcase with rfl | ⟨L, s1, -, rfl⟩ <;> rfl
      have hentered : u.entered = s.entered := by
        rcases hcase with rfl | ⟨L, s1, -, rfl⟩ <;> rfl
      have hlook (j : Nat) : u.team? j = s.team? j := by rw [State.team?, State.team?, hteams]
      obtain ⟨hmem, hothers, hown⟩ := State.helmTrap_stands ((hlook t.key).trans hteam) c
      refine ⟨?_, fun j hj => (hothers j hj).trans (hlook j), hown⟩
      obtain ⟨hm, hw, he⟩ := hmem
      have henters : State.Enters s (u.helmTrap t.key c) := ⟨[], he.trans hentered⟩
      rcases hcase with rfl | ⟨L, s1, hans, rfl⟩
      · exact .inl (SameMemory.of_eq hm hw henters)
      · obtain ⟨hm1, hw1⟩ := State.Reached.answering_mem ((helmAddress_within t sg off (bytesOf size) (k := .write) nofun).ok hans)
        exact .inr ⟨⟨c, rfl, hcode, hwrite⟩, L, s1, hans, State.sameOutside_stored hwf t g size rel L hm1 hw1 hm hw henters⟩
    · cases (store_refused h hi ha hc).symm.trans hx
      obtain ⟨hmem, hstands⟩ := State.helmTrap_stands hteam c
      exact ⟨.inl ((State.Reached.frame.refl s).sameMemory_then hmem), hstands⟩

/-- Helm stores to memory whose address is granted. -/
theorem store_frame_located {s s' : State} {t : Team} {i : Instr} {len : Nat} {g : GReg} {sg : W128} {off : Int} {size : BitVec 3} {rel : Option Nat}
    (h : HelmTurn s t) (hwf : Memory.wf s.mem = true) (hi : storeWord t i = some (len, g, sg, off, size, rel)) (hx : exec i s = .next s')
    {L : Located} {s1 : State} (ha : helmAddress t sg off (bytesOf size) .write s = .ok (L, s1)) (hm : storageOf L.loc ≠ mgmtTag) :
    State.SameOutside s s' L.loc (bytesOf size) ∧ s.TeamStands s' t := by
  have hr := (helmAddress_within t sg off (bytesOf size) (k := .write) nofun).ok ha
  have hteam : s1.team? t.key = some t := hr.team? t.key ▸ h.2.1
  cases hl : s1.leased t.key L.loc (bytesOf size) with
  | true =>
    cases (store_leased h hi ha hl).symm.trans hx
    obtain ⟨hmem, hstands⟩ := State.helmWait_stands hteam .matrix
    exact ⟨State.SameMemory.sameOutside (hr.sameMemory_then hmem) _ _, hstands.of_reached hr⟩
  | false =>
    cases (store_next h hi (storeBody_memory ha hl hm)).symm.trans hx
    have hlook (j : Nat) : (s1.stored t g size rel L).team? j = s1.team? j := by rw [State.team?, State.team?, State.stored_teams]
    obtain ⟨hmem, hwrites, -, hentered, hothers, hown⟩ := State.retire_frame ((hlook t.key).trans hteam) len .seq
    have henters : (s1.stored t g size rel L).entered = s1.entered := (State.writeIn_entered ..).trans (State.homed_entered ..)
    obtain ⟨new, hnew⟩ := hr.enters
    exact ⟨State.sameOutside_stored hwf t g size rel L hr.mem hr.writes hmem hwrites ⟨new, (hentered.trans henters).trans hnew⟩,
      State.TeamStands.of_reached hr ⟨fun j hj => (hothers j hj).trans (hlook j), hown⟩⟩

/-- Settles O18: a store by its address, what it writes, and its frame. -/
theorem storeWords : Obligations.StoreWords := by
  unfold Obligations.StoreWords
  refine ⟨fun s t i len g sg off size rel h hi => ⟨fun c ha => ⟨store_refused h hi ha, store_wanting h hi ha⟩, fun L s1 ha => ⟨store_leased h hi ha,
    fun hl hm => store_next h hi (storeBody_memory ha hl hm), fun hl hm h8 => store_next h hi (storeBody_mgmt ha hl hm h8),
    fun hl hm h8 => store_next h hi (storeBody_mgmt_size ha hl hm h8)⟩⟩, fun s s' t i len g sg off size rel h hwf hi hx => ⟨fun L s1 ha hm => ?_, fun e ha => ?_⟩⟩
  · exact store_frame_located h hwf hi hx ha hm
  · exact store_frame_stopped h hwf hi hx ha

end Sys2Proof.Machine
end

section
/-! System registers (R101 to R104, R128, R316, R401): what `sys.rd` reads and `sys.wr` leaves, which settle O23. -/

namespace Sys2Proof.Machine

open Sys2Proof.Spec

/-! ### What the registers read as -/

theorem statusOf_eq (s : State) (t : Team) : statusOf s t = statusValue s t := by
  unfold statusOf statusValue
  refine congrArg (BitVec.ofNat 64) ?_
  cases t.duplex <;> cases t.shapeChanged <;> cases t.step <;> simp only [b2n, Bool.false_eq_true, if_true, if_false] <;> omega

/-- A register of the table reads as the model says, and is not sys.clock. -/
theorem systemTable_value {s : State} {t : Team} {num : BitVec 8} {v : W64} (h : (num, v) ∈ systemTable s t) :
    t.sysValue s num.toNat = v ∧ num ≠ 0x18 := by
  simp only [systemTable, List.mem_cons, Prod.mk.injEq, List.not_mem_nil, or_false] at h
  rcases h with ⟨rfl, rfl⟩ | ⟨rfl, rfl⟩ | ⟨rfl, rfl⟩ | ⟨rfl, rfl⟩ | ⟨rfl, rfl⟩ | ⟨rfl, rfl⟩ | ⟨rfl, rfl⟩ | ⟨rfl, rfl⟩ | ⟨rfl, rfl⟩ | ⟨rfl, rfl⟩ |
    ⟨rfl, rfl⟩ | ⟨rfl, rfl⟩ | ⟨rfl, rfl⟩ | ⟨rfl, rfl⟩
  · exact ⟨statusOf_eq s t, by decide⟩
  all_goals exact ⟨rfl, by decide⟩

section
variable {s : State} {t : Team} (h : HelmTurn s t)
include h

theorem sysRd_register {d : GReg} (hd : t.mayWrite d = true) {num : BitVec 8} (hn : num ≠ 0x18) :
    exec (.sysRd d num) s = .next (s.afterValue t 4 d (t.sysValue s num.toNat)) := by
  obtain ⟨hcur, hteam, hmay⟩ := h
  refine runHelm_next (body := fun t => _) hcur hteam hmay 4 ?_
  rw [M.bind_ok (M.get_run _), if_neg hn, M.bind_ok (M.pure_run _ _), M.bind_ok (setG_ok hteam d _ hd)]
  rfl

/-- What sys.clock reads, and that it has been read. -/
theorem sysRd_clock {d : GReg} (hd : t.mayWrite d = true) {b : Bay} (hb : s.bay? t.bay = some b) :
    ∃ n : Nat, exec (.sysRd d 0x18) s = .next (({ s.mapBay t.bay fun x => { x with clock := b.clock + n } with tick := s.tick + 1 } : State).afterValue t 4 d
      (BitVec.ofNat 64 (b.clock + n))) := by
  obtain ⟨hcur, hteam, hmay⟩ := h
  refine ⟨Config.clockAdvance s.tick, runHelm_next (body := fun t => _) hcur hteam hmay 4 ?_⟩
  have hread : readClock t.bay s = .ok (BitVec.ofNat 64 (b.clock + Config.clockAdvance s.tick),
      { s.mapBay t.bay fun x => { x with clock := b.clock + Config.clockAdvance s.tick } with tick := s.tick + 1 }) := by
    unfold readClock
    rw [M.bind_ok (M.get_run _), hb]
    rfl
  rw [M.bind_ok (M.get_run _), if_pos rfl, M.bind_ok hread]
  have hteam' : ({ s.mapBay t.bay fun x => { x with clock := b.clock + Config.clockAdvance s.tick } with tick := s.tick + 1 } : State).team? t.key = some t := hteam
  rw [M.bind_ok (setG_ok hteam' d _ hd)]
  rfl

end

/-! ### Fields marked SV (R102) -/

/-- The mask of the SV fields has their bits. -/
theorem svMask_bit (num : BitVec 8) {j : Nat} (hj : j < 64) : (svMask num.toNat).getLsbD j = true ↔ svBit num j := by
  have hnum (n : BitVec 8) (m : W64) (p : Nat → Prop) [DecidablePred p] (hm : ∀ j < 64, m.getLsbD j = decide (p j)) (he : svMask n.toNat = m)
      (hs : svBit n j ↔ p j) : (svMask n.toNat).getLsbD j = true ↔ svBit n j := by
    rw [he, hm j hj, hs, decide_eq_true_iff]
  by_cases h0 : num = 0x00
  · exact hnum num 0x4 (· = 2) (by decide) (by rw [h0]; rfl) (by simp [svBit, h0])
  by_cases h1 : num = 0x01
  · exact hnum num 0xFFFFFFFFFFFFC0FF (fun j => j < 8 ∨ 14 ≤ j) (by decide) (by rw [h1]; rfl) (by simp [svBit, h1])
  by_cases h2 : num = 0x02
  · exact hnum num (BitVec.allOnes 64) (fun _ => True) (by decide) (by rw [h2]; rfl) (by simp [svBit, h2])
  by_cases h3 : num = 0x03
  · exact hnum num (BitVec.allOnes 64) (fun _ => True) (by decide) (by rw [h3]; rfl) (by simp [svBit, h3])
  by_cases h4 : num = 0x04
  · exact hnum num 0x1F013F (fun j => j < 4 ∨ j = 4 ∨ j = 5 ∨ j = 8 ∨ (16 ≤ j ∧ j ≤ 20)) (by decide) (by rw [h4]; rfl) (by simp [svBit, h4])
  by_cases h8 : num = 0x08
  · exact hnum num 0x01FFFFFFFFFFFC01 (fun j => j = 0 ∨ (10 ≤ j ∧ j ≤ 56)) (by decide) (by rw [h8]; rfl) (by simp [svBit, h8])
  have hother {n : Nat} (hn : n < 256) (hne : num ≠ BitVec.ofNat 8 n) : num.toNat ≠ n := fun he =>
    hne (BitVec.eq_of_toNat_eq (by rw [he, BitVec.toNat_ofNat, Nat.mod_eq_of_lt hn]))
  have hzero : svMask num.toNat = 0 := by
    have := hother (n := 0) (by decide) h0
    have := hother (n := 1) (by decide) h1
    have := hother (n := 2) (by decide) h2
    have := hother (n := 3) (by decide) h3
    have := hother (n := 4) (by decide) h4
    have := hother (n := 8) (by decide) h8
    unfold svMask
    split
    iterate 6 · contradiction
    · rfl
  exact hnum num 0 (fun _ => False) (by simp) hzero (by
    simp only [svBit, h0, h1, h2, h3, h4, h8, false_and, or_self])

/-- A write changes an SV field where it differs under the mask. -/
theorem changesSv_iff (old v : W64) (num : BitVec 8) : changesSv old v num ↔ (v ^^^ old) &&& svMask num.toNat ≠ 0 := by
  have hzero : (v ^^^ old) &&& svMask num.toNat = 0 ↔ ∀ j, j < 64 → svBit num j → v.getLsbD j = old.getLsbD j := by
    constructor
    · intro he j hj hs
      have := congrArg (·.getLsbD j) he
      simpa [(svMask_bit num hj).2 hs, bne_iff_ne] using this
    · intro hall
      refine BitVec.eq_of_getLsbD_eq fun j hj => ?_
      by_cases hs : svBit num j
      · simp [hall j hj hs]
      · simp [Bool.eq_false_iff.2 fun hm => hs ((svMask_bit num hj).1 hm)]
  rw [ne_eq, hzero]
  simp [changesSv]

/-! ### What a write leaves (R102) -/

theorem fields_mergeBits (old v : W64) {mask : W64} {w : Nat → Prop} [DecidablePred w] (hm : ∀ j < 64, mask.getLsbD j = decide (w j)) :
    Fields old v (mergeBits old mask v) w fun _ => False := by
  intro j hj
  simp only [mergeBits, BitVec.getLsbD_or, BitVec.getLsbD_and, BitVec.getLsbD_not, hm j hj, hj]
  by_cases hw : w j <;> simp [hw]

theorem fields_clearOnes (old v : W64) {mask : W64} {c : Nat → Prop} [DecidablePred c] (hm : ∀ j < 64, mask.getLsbD j = decide (c j)) :
    Fields old v (clearOnes old mask v) (fun _ => False) c := by
  intro j hj
  simp only [clearOnes, BitVec.getLsbD_and, BitVec.getLsbD_not, hm j hj, hj]
  by_cases hc : c j <;> simp [hc]

/-- Some fields written, and then others cleared. -/
theorem Fields.clear_merge (old v : W64) {mask ones : W64} {w c : Nat → Prop} [DecidablePred w] [DecidablePred c]
    (hm : ∀ j < 64, mask.getLsbD j = decide (w j)) (ho : ∀ j < 64, ones.getLsbD j = decide (c j)) :
    Fields old v (mergeBits (clearOnes old ones v) mask v) w c := by
  intro j hj
  rw [fields_mergeBits _ v hm j hj, fields_clearOnes old v ho j hj]
  by_cases hw : w j <;> simp [hw]

theorem fields_aligned (v : W64) : Fields 0 v (v &&& ~~~3) (fun j => 2 ≤ j) fun _ => False := by
  have hthree : ∀ j < 64, (3 : W64).getLsbD j = decide (¬2 ≤ j) := by decide
  intro j hj
  simp only [BitVec.getLsbD_and, BitVec.getLsbD_not, hthree j hj, hj]
  by_cases h : 2 ≤ j <;> simp [h]

theorem winOf_eq (v : Nat) : winOf v = windowOf v := by
  unfold winOf windowOf
  split
  · rfl
  · split <;> omega

/-- A write to a register of the table, or to sys.clock, gives its fields what their access codes allow. -/
theorem setSys_written {s : State} {t : Team} {num : BitVec 8} {old : W64} (h : (num, old) ∈ systemTable s t ∨ num = 0x18) (v : W64) :
    SystemWritten t num v (t.setSys num.toNat v) := by
  unfold SystemWritten
  rcases h with h | rfl
  · simp only [systemTable, List.mem_cons, Prod.mk.injEq, List.not_mem_nil, or_false] at h
    rcases h with ⟨rfl, -⟩ | ⟨rfl, -⟩ | ⟨rfl, -⟩ | ⟨rfl, -⟩ | ⟨rfl, -⟩ | ⟨rfl, -⟩ | ⟨rfl, -⟩ | ⟨rfl, -⟩ | ⟨rfl, -⟩ | ⟨rfl, -⟩ | ⟨rfl, -⟩ | ⟨rfl, -⟩ |
      ⟨rfl, -⟩ | ⟨rfl, -⟩
    · exact .inl ⟨rfl, rfl⟩
    · iterate 1 right
      exact .inl ⟨rfl, _, fields_mergeBits t.cause v (by decide), rfl⟩
    · iterate 2 right
      exact .inl ⟨rfl, rfl⟩
    · iterate 3 right
      exact .inl ⟨rfl, rfl⟩
    · iterate 4 right
      exact .inl ⟨rfl, _, fields_mergeBits t.stepmask v (by decide), rfl⟩
    · iterate 5 right
      exact .inl ⟨rfl, _, Fields.clear_merge t.mmcfg v (by decide) (by decide), rfl⟩
    · iterate 6 right
      exact .inl ⟨rfl, _, fields_clearOnes t.nanorigin v (by decide), rfl⟩
    · iterate 7 right
      exact .inl ⟨rfl, _, fields_clearOnes t.subst v (by decide), rfl⟩
    · iterate 8 right
      exact .inl ⟨rfl, by rw [← winOf_eq]; rfl⟩
    · iterate 9 right
      exact .inl ⟨rfl, rfl⟩
    · iterate 10 right
      exact .inl ⟨rfl, rfl⟩
    · iterate 11 right
      exact .inl ⟨rfl, _, fields_aligned v, rfl⟩
    · iterate 12 right
      exact .inl ⟨rfl, _, fields_aligned v, rfl⟩
    · iterate 13 right
      exact .inl ⟨rfl, rfl⟩
  · iterate 14 right
    exact ⟨rfl, rfl⟩

/-! ### The region table that a write of sys.mmcfg loads (R316, R320) -/

theorem readRegions_run (p : Place) (loc n : Nat) (s : State) : ∃ x s', readRegions p loc n s = .ok (x, s') ∧ s.Served s' := by
  induction n with
  | zero => exact ⟨_, _, rfl, State.Served.frame.refl s⟩
  | succ n ih =>
    obtain ⟨x, s1, h, hs⟩ := ih
    rw [readRegions, M.bind_ok h]
    dsimp only
    obtain ⟨bs, s2, hread⟩ : ∃ bs s2, s1.readAs p [] none (loc + 16 * n) 16 = (bs, s2) := ⟨_, _, rfl⟩
    have hs2 : s.Served s2 := State.Served.frame.trans hs (by have := s1.readAs_served p [] none (loc + 16 * n) 16; rwa [hread] at this)
    rw [M.bind_ok (congrArg Except.ok hread)]
    match regionOf (readValue bs) with
    | none => exact ⟨_, _, rfl, hs2⟩
    | some none => exact ⟨_, _, rfl, hs2⟩
    | some (some r) => exact ⟨_, _, rfl, hs2⟩

/-- A load of the region table ends, or traps on a read. -/
theorem loadRegions_ends {key : Nat} {s : State} {t : Team} (ht : s.team? key = some t) :
    (∃ c, loadRegions key s = .error (.trap c) ∧ c.write = false) ∨ ∃ s', loadRegions key s = .ok ((), s') ∧ s.Served s' := by
  unfold loadRegions
  rw [M.bind_ok (teamOf_ok ht)]
  by_cases hmode : bitOf t.mmcfg.toNat 0 = true
  · rw [if_pos hmode, M.bind_ok (M.get_run _)]
    dsimp only
    cases hp : s.partAddr t (bitsOf t.mmcfg.toNat 56 10 * 1024) with
    | error e => exact .inl ⟨_, rfl, rfl⟩
    | ok x =>
      obtain ⟨loc, u⟩ := x
      dsimp only
      obtain ⟨x, s1, hread, hs1⟩ := readRegions_run t.place loc regionCount u
      rw [M.bind_ok (M.set_run _ _), M.bind_ok hread]
      exact .inr ⟨_, rfl, State.Served.frame.trans (State.partAddr_served hp) (State.Served.frame.trans hs1 (s1.mapTeam_served _ _ fun _ => rfl))⟩
  · rw [if_neg hmode]
    exact .inr ⟨s, rfl, State.Served.frame.refl s⟩

theorem loadRegions_unknown {key : Nat} {s : State} (ht : s.team? key = none) : loadRegions key s = .error (.fault .wrongParty) :=
  M.bind_error (by simp [teamOf, ht])

/-- Nothing that a load of the region table traps on is a write. -/
theorem loadRegions_trap {key : Nat} {s : State} {c : Cause} (h : loadRegions key s = .error (.trap c)) : c.write = false := by
  cases ht : s.team? key with
  | none => cases h.symm.trans (loadRegions_unknown ht)
  | some t =>
    rcases loadRegions_ends ht with ⟨c', he, hw⟩ | ⟨s', he, -⟩
    · cases h.symm.trans he
      exact hw
    · cases h.symm.trans he

/-- Where sys.mmcfg leaves MODE clear no table is loaded. -/
theorem loadRegions_off {key : Nat} {s : State} {t : Team} (h : s.team? key = some t) (hm : t.mmcfg.getLsbD 0 = false) :
    loadRegions key s = .ok ((), s) := by
  unfold loadRegions
  rw [M.bind_ok (teamOf_ok h), if_neg (by simpa [bitOf, BitVec.getLsbD, Nat.testBit_zero] using hm)]
  rfl

/-- The loop check of a word that wrote sys.mmcfg is that of any word (R128). -/
theorem retire_seqLoop (s : State) (t : Team) (len : Nat) : s.retire t len (.seqLoop 0x08) = s.retire t len .seq := rfl

/-! ### `sys.wr` -/

/-- The meaning of `sys.wr`, of the team that runs it. -/
def sysWrBody (t : Team) (a : GReg) (num : BitVec 8) : M Next := do
  let s ← get
  let v := t.reg a
  need (t.super || (v ^^^ t.sysValue s num.toNat) &&& svMask num.toNat == 0) cPRIV
  mapTeamM t.key fun t => t.setSys num.toNat v
  if num = 0x08 then loadRegions t.key
  pure (.seqLoop num.toNat)

section
variable {s : State} {t : Team} (h : HelmTurn s t) (a : GReg) {num : BitVec 8}
include h

/-- The test of `sys.wr`, at user privilege. -/
theorem sysWr_priv {old : W64} (ho : t.sysValue s num.toNat = old) (hs : t.super = false) (hc : changesSv old (t.reg a) num) :
    exec (.sysWr a num) s = .next (s.helmTrap t.key (plainCause 0x03)) := by
  obtain ⟨hcur, hteam, hmay⟩ := h
  have hsv := (changesSv_iff old (t.reg a) num).1 hc
  refine runHelm_trap (body := fun t => _) hcur hteam hmay 4 ?_ fun hcode => absurd hcode.1 (by decide)
  rw [M.bind_ok (M.get_run _)]
  exact M.bind_error (need_false (by simpa [hs, ho] using hsv) cPRIV 0 s)

omit h in
/-- The write and, of sys.mmcfg, the load of the region table. -/
theorem sysWrBody_admitted {old : W64} (ho : t.sysValue s num.toNat = old ∨ num = 0x18) (hs : t.super = true ∨ ¬changesSv old (t.reg a) num) :
    sysWrBody t a num s = (do
      if num = 0x08 then loadRegions t.key
      pure (.seqLoop num.toNat) : M Next) (s.mapTeam t.key (·.setSys num.toNat (t.reg a))) := by
  have hadmit : (t.super || (t.reg a ^^^ t.sysValue s num.toNat) &&& svMask num.toNat == 0) = true := by
    rcases ho with rfl | rfl
    · rw [changesSv_iff] at hs
      simpa using hs
    · simp [svMask]
  unfold sysWrBody
  rw [M.bind_ok (M.get_run _)]
  dsimp only
  rw [M.bind_ok (need_true hadmit cPRIV 0 s)]
  rfl

theorem sysWr_register {old : W64} (ho : t.sysValue s num.toNat = old ∨ num = 0x18) (hs : t.super = true ∨ ¬changesSv old (t.reg a) num)
    (hn : num ≠ 0x08) : exec (.sysWr a num) s = .next ((s.mapTeam t.key (·.setSys num.toNat (t.reg a))).retire t 4 (.seqLoop num.toNat)) := by
  obtain ⟨hcur, hteam, hmay⟩ := h
  refine runHelm_next (body := (sysWrBody · a num)) hcur hteam hmay 4 ?_
  rw [sysWrBody_admitted a ho hs, if_neg hn]
  rfl

section
variable (hs : t.super = true ∨ ¬changesSv t.mmcfg (t.reg a) 0x08)
include hs

theorem sysWr_mmcfg_loaded {s1 : State} (hl : loadRegions t.key (s.mapTeam t.key (·.setSys 0x08 (t.reg a))) = .ok ((), s1)) :
    exec (.sysWr a 0x08) s = .next (s1.retire t 4 .seq) := by
  obtain ⟨hcur, hteam, hmay⟩ := h
  rw [← retire_seqLoop]
  refine runHelm_next (body := (sysWrBody · a 0x08)) hcur hteam hmay 4 ?_
  rw [sysWrBody_admitted a (.inl rfl) hs, if_pos rfl]
  exact M.bind_ok hl

theorem sysWr_mmcfg_trap {c : Cause} (hl : loadRegions t.key (s.mapTeam t.key (·.setSys 0x08 (t.reg a))) = .error (.trap c)) :
    exec (.sysWr a 0x08) s = .next (s.helmTrap t.key c) := by
  obtain ⟨hcur, hteam, hmay⟩ := h
  refine runHelm_trap (body := (sysWrBody · a 0x08)) hcur hteam hmay 4 ?_ fun hc => absurd hc.2 (by rw [loadRegions_trap hl]; decide)
  rw [sysWrBody_admitted a (.inl rfl) hs, if_pos rfl]
  exact M.bind_error hl

theorem sysWr_mmcfg_off (hm : (t.reg a).getLsbD 0 = false) :
    exec (.sysWr a 0x08) s = .next ((s.mapTeam t.key (·.setSys 0x08 (t.reg a))).retire t 4 .seq) := by
  refine sysWr_mmcfg_loaded h a hs (loadRegions_off (State.team?_mapTeam_some h.2.1 _ fun _ => rfl) ?_)
  have hmode : ((t.setSys 0x08 (t.reg a)).mmcfg).getLsbD 0 = (t.reg a).getLsbD 0 :=
    Fields.clear_merge t.mmcfg (t.reg a) (w := fun j => j = 0 ∨ (10 ≤ j ∧ j ≤ 56)) (c := fun j => j = 2 ∨ j = 3) (by decide) (by decide) 0 (by decide)
  rw [hmode, hm]

end

end

/-- Settles O23: the registers by their table. -/
theorem systemRegisters : Obligations.SystemRegisters := by
  unfold Obligations.SystemRegisters
  refine ⟨fun s t d h hd => ⟨fun num v hv => ?_, fun b hb => sysRd_clock h hd hb⟩, fun s t a num h => ⟨fun old ho => sysWr_priv h a (systemTable_value ho).1,
    fun old ho hs hn => ?_, ?_⟩⟩
  · obtain ⟨rfl, hnum⟩ := systemTable_value hv
    exact sysRd_register h hd hnum
  · exact ⟨_, setSys_written ho (t.reg a), sysWr_register h a (ho.imp_left fun hv => (systemTable_value hv).1) hs hn⟩
  · rintro rfl hs
    exact ⟨_, setSys_written (s := s) (old := t.mmcfg) (.inl (by simp [systemTable])) (t.reg a), sysWr_mmcfg_off h a hs, fun s1 => sysWr_mmcfg_loaded h a hs,
      fun c => sysWr_mmcfg_trap h a hs⟩

end Sys2Proof.Machine
end

section
/-! The walkers' placements (R100, R148, R376, R381, R382): what a placed team starts with, which settles O51. -/

namespace Sys2Proof.Machine

open Sys2Proof.Spec

/-! ### What the walkers' reads and acquires leave -/

/-- The machine after reads of the part's own: served, with the same dies. -/
def State.ReadBy (s s' : State) : Prop := s.Served s' ∧ s'.dies = s.dies

theorem State.readAs_readBy (s : State) (p : Place) (rs : List Region) (va : Option Nat) (loc n : Nat) : s.ReadBy (s.readAs p rs va loc n).2 :=
  ⟨s.readAs_served p rs va loc n, rfl⟩

/-- A read with what is made of it. -/
theorem readAs_then {β : Type} {s s' : State} {p : Place} {loc n : Nat} {f : List ByteRead → M β} {w : β} (hf : ∀ bs c, ∃ w, f bs c = .ok (w, c))
    (h : ((fun s => .ok (s.readAs p [] none loc n) : M (List ByteRead)) >>= f) s = .ok (w, s')) : s.ReadBy s' := by
  obtain ⟨bs, s1, hread, hnext⟩ := M.bind_eq_ok.1 h
  obtain ⟨w', hw⟩ := hf bs s1
  cases hw.symm.trans hnext
  have hr := s.readAs_readBy p [] none loc n
  rwa [Except.ok.inj hread] at hr

theorem readUnits_readBy {p : Place} {loc n : Nat} {s s' : State} {us : List Nat} (h : readUnits p loc n s = .ok (us, s')) : s.ReadBy s' := by
  induction n generalizing loc s us with
  | zero => cases h; exact ⟨State.Served.frame.refl _, rfl⟩
  | succ n ih =>
    rw [readUnits] at h
    obtain ⟨bs, s1, hread, hnext⟩ := M.bind_eq_ok.1 h
    obtain ⟨rest, s2, hrest, hlast⟩ := M.bind_eq_ok.1 hnext
    cases hlast
    have hr := s.readAs_readBy p [] none loc 8
    rw [Except.ok.inj hread] at hr
    obtain ⟨hs, hd⟩ := ih hrest
    exact ⟨State.Served.frame.trans hr.1 hs, hd.trans hr.2⟩

theorem readDct_readBy {p : Place} {c : Nat} {s s' : State} {d : Dct} (h : readDct p c s = .ok (d, s')) : s.ReadBy s' := by
  unfold readDct at h
  rw [M.bind_ok (M.get_run s)] at h
  obtain ⟨us, s1, hread, hlast⟩ := M.bind_eq_ok.1 h
  cases hlast
  exact readUnits_readBy hread

theorem State.lowestDie_congr {s s' : State} (h : s'.dies = s.dies) : s'.lowestDie = s.lowestDie := by
  unfold State.lowestDie State.dieUp State.die?
  rw [h]

theorem State.acquire_served (s : State) (p : Place) (scope : Nat) (rs : List Release) : s.Served (s.acquire p scope rs) := .of_eq rfl rfl rfl rfl

theorem loadRegions_served {key : Nat} {s s' : State} (h : loadRegions key s = .ok ((), s')) : s.Served s' := by
  cases ht : s.team? key with
  | none => cases h.symm.trans (loadRegions_unknown ht)
  | some t =>
    rcases loadRegions_ends ht with ⟨c, he, -⟩ | ⟨s1, he, hs1⟩
    · cases h.symm.trans he
    · cases h.symm.trans he
      exact hs1

theorem readWatches_served {t : Team} {s s' : State} {ws : List Watch} (h : readWatches t s = .ok (ws, s')) : s.Served s' := by
  unfold readWatches at h
  rw [M.bind_ok (M.get_run _)] at h
  cases hp : s.partAddr t (t.block + 0xF000) with
  | error e =>
    rw [hp] at h
    cases h
    exact State.Served.frame.refl s
  | ok x =>
    obtain ⟨loc, u⟩ := x
    rw [hp] at h
    dsimp only at h
    rw [M.bind_ok (M.set_run _ _)] at h
    have hentry (v i : Nat) (c : State) : ∃ w, (if bitsOf v 31 8 != 0 || bitsOf v 3 0 != 0 || !bitOf v 7 then pure none
        else pure (some { index := i, base := bitsOf v 127 64, len := bitsOf v 63 32, x := bitOf v 6, w := bitOf v 5, r := bitOf v 4 }) :
          M (Option Watch)) c = .ok (w, c) := by
      split <;> exact ⟨_, rfl⟩
    obtain ⟨w0, s0, h0, hn0⟩ := M.bind_eq_ok.1 h
    obtain ⟨w1, s1, h1, hn1⟩ := M.bind_eq_ok.1 hn0
    obtain ⟨w2, s2, h2, hn2⟩ := M.bind_eq_ok.1 hn1
    obtain ⟨w3, s3, h3, hn3⟩ := M.bind_eq_ok.1 hn2
    cases hn3
    exact State.Served.frame.trans (State.partAddr_served hp) (State.Served.frame.trans (readAs_then (fun _ => hentry _ _) h0).1
      (State.Served.frame.trans (readAs_then (fun _ => hentry _ _) h1).1
        (State.Served.frame.trans (readAs_then (fun _ => hentry _ _) h2).1 (readAs_then (fun _ => hentry _ _) h3).1)))

theorem State.writeBlock_served (s : State) (t : Team) : s.Served (s.writeBlock t) := by
  unfold State.writeBlock
  extract_lets bs u
  exact .ite (.of_eq rfl rfl rfl rfl) (State.Served.frame.trans (b := u) (.of_eq rfl rfl rfl rfl) (u.partWrite_served _ _ _))

theorem State.readTables_served (s : State) (key : Nat) : s.Served (s.readTables key) := by
  have hload {u : State} (h : loadRegions key s = .ok ((), u)) : s.Served u := loadRegions_served h
  have hread {t : Team} {u u' : State} {ws : List Watch} (h : readWatches t u = .ok (ws, u')) : u.Served u' := readWatches_served h
  unfold State.readTables
  generalize loadRegions key s = loaded at hload ⊢
  generalize readWatches = read at hread ⊢
  extract_lets u
  have hu : s.Served u := by
    cases loaded with
    | error e => exact State.Served.frame.refl s
    | ok p => exact hload rfl
  refine State.Served.frame.trans hu ?_
  clear_value u
  cases u.team? key with
  | none => exact State.Served.frame.refl u
  | some t =>
    dsimp only
    cases hw : read t u with
    | error e => exact State.Served.frame.refl u
    | ok p => exact State.Served.frame.trans (hread hw) (State.mapTeam_served _ _ _ fun _ => rfl)

/-! ### What a team starts with (R100, R382) -/

/-- Dimension `i` of an iteration, dimension 0 innermost (R376). -/
theorem indicesOf_getD (cs : List Nat) (k i : Nat) (h : i < cs.length) :
    (indicesOf cs k).getD i 0 = k / (cs.take i).foldl (· * ·) 1 % cs.getD i 0 := by
  have hfold (l : List Nat) (a b : Nat) : l.foldl (· * ·) (a * b) = a * l.foldl (· * ·) b := by
    induction l generalizing b with
    | nil => rfl
    | cons c l ih => rw [List.foldl_cons, List.foldl_cons, Nat.mul_assoc, ih]
  induction cs generalizing k i with
  | nil => cases h
  | cons c cs ih =>
    cases i with
    | zero => simp [indicesOf]
    | succ i =>
      have hi := ih (k / c) i (by simpa using h)
      rw [indicesOf, List.getD_cons_succ, hi, List.getD_cons_succ, List.take_succ_cons, List.foldl_cons, Nat.one_mul]
      have := hfold (cs.take i) c 1
      rw [Nat.mul_one] at this
      rw [this, Nat.div_div_eq_div_mul]

theorem indicesOf_length (cs : List Nat) (k : Nat) : (indicesOf cs k).length = cs.length := by
  induction cs generalizing k with
  | nil => rfl
  | cons c cs ih => rw [indicesOf, List.length_cons, ih, List.length_cons]

/-- A team that starts with iteration `nextOrd` of a nest, on a lead bay. -/
structure Nest.Starts (n : Nest) (d : Dct) (bay tid slot : Nat) (t : Team) : Prop where
  key : t.key = n.dctx * 2 ^ 16 + tid
  dctx : t.dctx = n.dctx
  number : t.tid = tid
  stackSlot : t.stackSlot = slot
  nid : t.nid = n.nid
  ordinal : t.ordinal = n.nextOrd
  queue : t.queue = n.queue
  resident : t.resident = true
  phase : t.phase = .running
  super : t.super = false
  seat : t.bay = bay
  duplex : t.duplex = n.record.duplex
  cq : t.cq = []
  rq : t.rq = []
  pc : t.pc = (n.record.code.setWidth 32).setWidth 64
  curObj : t.curObj = n.obj
  block : t.block = d.blockOf tid
  regs : ∃ lk, t.g = startRegs n n.nextOrd n.record.stack (d.blockOf tid) lk
  segs : ∃ e, t.segs = startSegs n e slot
  groups : t.groups.length = n.record.ngrp * (if n.record.duplex then 2 else 1)

namespace Nest.Starts

variable {n : Nest} {d : Dct} {bay tid slot : Nat} {t : Team}

theorem of_stem (h : n.Starts d bay tid slot t) {u : Team} (hu : u.stem = t.stem) : n.Starts d bay tid slot u where
  key := (Team.of_stem hu (·.key) fun _ => rfl).trans h.key
  dctx := (Team.of_stem hu (·.dctx) fun _ => rfl).trans h.dctx
  number := (Team.of_stem hu (·.tid) fun _ => rfl).trans h.number
  stackSlot := (Team.of_stem hu (·.stackSlot) fun _ => rfl).trans h.stackSlot
  nid := (Team.of_stem hu (·.nid) fun _ => rfl).trans h.nid
  ordinal := (Team.of_stem hu (·.ordinal) fun _ => rfl).trans h.ordinal
  queue := (Team.of_stem hu (·.queue) fun _ => rfl).trans h.queue
  resident := (Team.of_stem hu (·.resident) fun _ => rfl).trans h.resident
  phase := (Team.of_stem hu (·.phase) fun _ => rfl).trans h.phase
  super := (Team.of_stem hu (·.super) fun _ => rfl).trans h.super
  seat := (Team.of_stem hu (·.bay) fun _ => rfl).trans h.seat
  duplex := (Team.of_stem hu (·.duplex) fun _ => rfl).trans h.duplex
  cq := (Team.of_stem hu (·.cq) fun _ => rfl).trans h.cq
  rq := (Team.of_stem hu (·.rq) fun _ => rfl).trans h.rq
  pc := (Team.of_stem hu (·.pc) fun _ => rfl).trans h.pc
  curObj := (Team.of_stem hu (·.curObj) fun _ => rfl).trans h.curObj
  block := (Team.of_stem hu (·.block) fun _ => rfl).trans h.block
  regs := h.regs.imp fun _ hg => (Team.of_stem hu (·.g) fun _ => rfl).trans hg
  segs := h.segs.imp fun _ hs => (Team.of_stem hu (·.segs) fun _ => rfl).trans hs
  groups := (congrArg Prod.snd hu : u.groups.length = t.groups.length).trans h.groups

/-- Register `i` at the start. -/
theorem reg (h : n.Starts d bay tid slot t) {i : Nat} (h0 : 0 < i) (h63 : i < 63) : t.reg (BitVec.ofNat 6 i) =
    if i = 2 then BitVec.ofNat 64 (n.record.stack / 16 * 16)
    else if i = 4 then n.launchWord
    else if 48 ≤ i ∧ i ≤ 55 then BitVec.ofNat 64 ((indicesOf (n.record.counts.take n.record.depth) n.nextOrd).getD (i - 48) 0)
    else if i = 62 then BitVec.ofNat 64 (d.blockOf tid)
    else 0 := by
  obtain ⟨lk, hg⟩ := h.regs
  have hn : (BitVec.ofNat 6 i).toNat = i := by rw [BitVec.toNat_ofNat, Nat.mod_eq_of_lt (by omega)]
  have hz : BitVec.ofNat 6 i ≠ 0 := fun he => by
    rw [he] at hn
    exact absurd hn (by simp; omega)
  rw [Team.reg, if_neg hz, hn, hg]
  simp [startRegs, List.getD_eq_getElem?_getD, List.getElem?_range (show i < 64 by omega), show i ≠ 63 by omega]

/-- The index of dimension `i` (R376). -/
theorem index (h : n.Starts d bay tid slot t) (hdepth : n.record.depth ≤ n.record.counts.length) {i : Nat} (hi : i < n.record.depth) (h8 : i < 8) :
    t.reg (BitVec.ofNat 6 (48 + i)) = BitVec.ofNat 64 (n.nextOrd / (n.record.counts.take i).foldl (· * ·) 1 % n.record.counts.getD i 0) := by
  rw [h.reg (by omega) (by omega), if_neg (by omega), if_neg (by omega), if_pos (by omega), Nat.add_sub_cancel_left, indicesOf_getD _ _ _ (by simp; omega),
    List.take_take, Nat.min_eq_left hi.le]
  simp [List.getD_eq_getElem?_getD, hi]

theorem index_beyond (h : n.Starts d bay tid slot t) {i : Nat} (hi : n.record.depth ≤ i) (h8 : i < 8) : t.reg (BitVec.ofNat 6 (48 + i)) = 0 := by
  rw [h.reg (by omega) (by omega), if_neg (by omega), if_neg (by omega), if_pos (by omega), Nat.add_sub_cancel_left, List.getD_eq_default]
  · rfl
  · rw [indicesOf_length, List.length_take]
    omega

theorem argSeg (h : n.Starts d bay tid slot t) : t.seg 2 = mkSeg 0 n.record.argLen 0 false false true n.record.argBase := by
  obtain ⟨e, hs⟩ := h.segs
  rw [Team.seg, hs]
  rfl

theorem stackSeg (h : n.Starts d bay tid slot t) : t.seg 3 = mkSeg 0 n.record.stack 0 false true true (n.record.stkBase + slot * n.record.stack) := by
  obtain ⟨e, hs⟩ := h.segs
  rw [Team.seg, hs]
  rfl

end Nest.Starts

/-! ### The placement of a team (R382) -/

theorem pickOf_lt {n : Nat} (h : 0 < n) (tick : Nat) : pickOf n tick < n := by
  unfold pickOf
  split
  · exact h
  · exact Nat.mod_lt _ h

theorem getD_pick_mem {l : List Nat} (h : l ≠ []) (tick d : Nat) : l.getD (pickOf l.length tick) d ∈ l := by
  have hlt := pickOf_lt (List.length_pos_iff.2 h) tick
  rw [List.getD_eq_getElem _ _ hlt]
  exact List.getElem_mem hlt

theorem State.nest?_mapNest {s : State} {nid : Nat} {n : Nest} (h : s.nest? nid = some n) (f : Nest → Nest) (hf : ∀ m, (f m).nid = m.nid) :
    (s.mapNest nid f).nest? nid = some (f n) := by
  have hfind (l : List Nest) (hl : (l.find? fun m => m.nid == nid) = some n) :
      ((l.map fun m => if m.nid == nid then f m else m).find? fun m => m.nid == nid) = some (f n) := by
    induction l with
    | nil => cases hl
    | cons a l ih =>
      rw [List.map_cons, List.find?_cons]
      rw [List.find?_cons] at hl
      cases ha : a.nid == nid with
      | true =>
        rw [ha] at hl
        cases hl
        simp [hf, ha]
      | false =>
        rw [ha] at hl
        simpa [ha] using ih hl
  exact hfind s.nests h

/-- The machine while a team is made ready: the walkers' pointers and the management registers stand, and of the nest all but its cellar. -/
structure State.Readied (nid : Nat) (s s' : State) : Prop where
  lastQueues : s'.lastQueues = s.lastQueues
  mgmt : s'.mgmt = s.mgmt
  nest : ∀ n, s.nest? nid = some n → ∃ c, s'.nest? nid = some { n with cellar := c }

namespace State.Readied

theorem of_served {nid : Nat} {s s' : State} (h : s.Served s') : s.Readied nid s' :=
  ⟨h.lastQueues, h.mgmt, fun n hn => ⟨n.cellar, by rw [State.nest?, h.nests]; exact hn⟩⟩

theorem trans {nid : Nat} {s s1 s' : State} (h : s.Readied nid s1) (h' : s1.Readied nid s') : s.Readied nid s' := by
  refine ⟨h'.lastQueues.trans h.lastQueues, h'.mgmt.trans h.mgmt, fun n hn => ?_⟩
  obtain ⟨c, hc⟩ := h.nest n hn
  obtain ⟨c', hc'⟩ := h'.nest _ hc
  exact ⟨c', hc'⟩

end State.Readied

theorem State.newAllot_run (s : State) (size : Nat) : ∃ tag u, s.newAllot size = (tag, u) ∧ s.Served u := by
  unfold State.newAllot
  by_cases h : size = 0
  · rw [if_pos h]
    exact ⟨_, _, rfl, State.Served.frame.refl s⟩
  · rw [if_neg h]
    exact ⟨_, _, rfl, .of_eq rfl rfl rfl rfl⟩

theorem State.mapCellar_readied (s : State) (nid : Nat) (f : Nest → List (Nat × Nat)) :
    s.Readied nid (s.mapNest nid fun n => { n with cellar := f n }) :=
  ⟨rfl, rfl, fun n hn => ⟨f n, State.nest?_mapNest hn _ fun _ => rfl⟩⟩

theorem State.takeCellar_readied (s : State) (nid die units : Nat) : s.Readied nid (s.takeCellar nid die units) := by
  unfold State.takeCellar
  by_cases h : (units = 0 || s.cellarTag nid die != 0) = true
  · rw [if_pos h]
    exact .of_served (State.Served.frame.refl s)
  · rw [if_neg h]
    obtain ⟨tag, u, hu, hs⟩ := s.newAllot_run (units * 0x40000)
    rw [hu]
    exact .trans (.of_served hs) (u.mapCellar_readied _ _)

/-- The memories of a seated team. -/
theorem State.equip_served (s : State) (t : Team) :
    s.Served (s.equip t).2 ∧ ∃ a b c d, (s.equip t).1 = { t with pad := a, padPartner := b, lnd := c, lndPartner := d } := by
  have hallot (s : State) (size : Nat) : s.Served (s.newAllot size).2 := by
    obtain ⟨tag, u, hu, hs⟩ := s.newAllot_run size
    rw [hu]
    exact hs
  have hlast (u : State) (tiles : List Tile) (slots : List MatrixSlot) : u.Served { u with tiles := tiles, slots := slots } := .of_eq rfl rfl rfl rfl
  unfold State.equip
  extract_lets k
  dsimp only
  refine ⟨?_, _, _, _, _, rfl⟩
  exact State.Served.frame.trans (hallot _ _) (State.Served.frame.trans (hallot _ _) (State.Served.frame.trans (hallot _ _)
    (State.Served.frame.trans (hallot _ _) (hlast _ _ _))))

/-- A team is among those of a machine that has served accesses, by its stem. -/
theorem State.Served.mem {s s' : State} (h : s.Served s') {t : Team} (ht : t ∈ s.teams) : ∃ u ∈ s'.teams, u.stem = t.stem := by
  have hm : t.stem ∈ s'.teams.map Team.stem := by
    rw [show s'.teams.map Team.stem = s.teams.map Team.stem from h.teams]
    exact List.mem_map_of_mem ht
  exact List.mem_map.1 hm

theorem freshGroups_length (t : Team) (ngrp : Nat) : (freshGroups t ngrp).length = ngrp * (if t.duplex then 2 else 1) := by
  unfold freshGroups Team.bays
  cases t.duplex
  · simp [List.zipIdx]
  · simp [List.zipIdx]
    omega

theorem mem_tidsFree {s : State} {dctx nteam i : Nat} : i ∈ s.tidsFree dctx nteam ↔ 1 ≤ i ∧ i ≤ nteam ∧ ∀ u ∈ s.teams, u.dctx = dctx → u.tid ≠ i := by
  unfold State.tidsFree
  simp only [List.mem_filter, List.mem_map, List.mem_range, Bool.not_eq_true', List.contains_eq_mem, beq_iff_eq, decide_eq_false_iff_not, not_exists, not_and]
  constructor
  · rintro ⟨⟨j, hj, rfl⟩, hu⟩
    exact ⟨by omega, by omega, fun u hm hd => hu u ⟨hm, hd⟩⟩
  · rintro ⟨h1, hn, hu⟩
    exact ⟨⟨i - 1, by omega, by omega⟩, fun u hm => hu u hm.1 hm.2⟩

/-- Serving accesses leaves the TIDs that are free. -/
theorem State.Served.tidsFree {s s' : State} (h : s.Served s') (dctx nteam : Nat) : s'.tidsFree dctx nteam = s.tidsFree dctx nteam := by
  have hids : s'.teams.map (fun t => (t.dctx, t.tid)) = s.teams.map (fun t => (t.dctx, t.tid)) :=
    h.teams.of_factor fun x => (x.1.dctx, x.1.tid)
  have hused : ((s'.teams.filter fun t => t.dctx == dctx).map (·.tid)) = ((s.teams.filter fun t => t.dctx == dctx).map (·.tid)) := by
    have hcomp (l : List Team) : (l.filter fun t => t.dctx == dctx).map (·.tid) =
        ((l.map fun t => (t.dctx, t.tid)).filter fun x => x.1 == dctx).map (·.2) := by
      rw [List.filter_map, List.map_map]
      rfl
    rw [hcomp, hcomp, hids]
  unfold State.tidsFree
  rw [hused]

theorem State.turnQueue_nests (s : State) (queue : Nat) (new : Bool) : (s.turnQueue queue new).nests = s.nests := rfl
theorem State.turnQueue_lastQueues (s : State) (queue : Nat) :
    (s.turnQueue queue true).lastQueues = s.lastQueues.set (2 * s.priority queue + 1) queue := rfl

theorem State.priority_congr {s s' : State} (h : s'.mgmt = s.mgmt) (queue : Nat) : s'.priority queue = s.priority queue := by
  unfold State.priority
  rw [h]

/-- A placement: the team that starts, the nest that counts it, and the walkers' pointer. -/
theorem State.startTeam_places {s s0 s1 : State} {n : Nest} {bay loc : Nat} {d : Dct} (hn : s.nest? n.nid = some n)
    (hd : readDct (sePlace s.lowestDie) n.dctx s = .ok (d, s0))
    (ho : s0.objLoc { s.ghost n.dctx with dct := d } n.obj = some (loc, s1)) (ht : s.tidsFree n.dctx d.nteam ≠ []) (hf : n.freeSlots ≠ []) :
    ∃ tid ∈ s.tidsFree n.dctx d.nteam, ∃ slot ∈ n.freeSlots, ∃ t ∈ (s.startTeam n bay).teams, ∃ m, n.Starts d bay tid slot t ∧
      (s.startTeam n bay).nest? n.nid = some m ∧ (s.startTeam n bay).lastQueues = s.lastQueues.set (2 * s.priority n.queue + 1) n.queue ∧
      m.nextOrd = n.nextOrd + 1 ∧ m.started = true ∧ m.teams = n.teams ++ [t.key] ∧ m.stackUsed = n.stackUsed ++ [slot] := by
  obtain ⟨hserved0, hdies⟩ := readDct_readBy hd
  have hserved1 : s.Served s1 := State.Served.frame.trans hserved0 (State.objLoc_served ho)
  have hghost : ({ s0.ghost n.dctx with dct := d } : Team) = { s.ghost n.dctx with dct := d } := by
    unfold State.ghost
    rw [State.lowestDie_congr hdies]
  unfold State.startTeam
  rw [hd]
  dsimp -zeta only
  rw [hghost, ho]
  dsimp -zeta only
  rw [hserved1.tidsFree]
  extract_lets tids tid slot s2 key p e s3 k block code src t0 s4 t1 t2 s5 s6 s7 s8 s9 s10
  rw [if_neg (by simp [tids, ht, hf])]
  have hs3 : s.Served s3 := State.Served.frame.trans hserved1 (State.Served.frame.trans (b := s2) (.of_eq rfl rfl rfl rfl)
    (State.Served.frame.trans (s2.atomicRead_served p loc 64) (State.addRefs_served _ _ _ _)))
  clear_value e s3
  have hs5 : s.Readied n.nid s5 := .trans (.of_served (State.Served.frame.trans (c := s4) hs3 (.of_eq rfl rfl rfl rfl))) (s4.takeCellar_readied _ _ _)
  clear_value s5
  obtain ⟨hequip, pa, pb, pc, pd, hteam⟩ := s5.equip_served t2
  have hready : s.Readied n.nid (s5.equip t2).2 := .trans hs5 (.of_served hequip)
  have hstarts : n.Starts d bay tid slot (s5.equip t2).1 := by
    rw [hteam]
    exact { key := rfl, dctx := rfl, number := rfl, stackSlot := rfl, nid := rfl, ordinal := rfl, queue := rfl, resident := rfl, phase := rfl, super := rfl, seat := rfl,
            duplex := rfl, cq := rfl, rq := rfl, pc := rfl, curObj := rfl, block := rfl, regs := ⟨_, rfl⟩, segs := ⟨_, rfl⟩, groups := freshGroups_length t1 n.record.ngrp }
  obtain ⟨cellar, hcellar⟩ := hready.nest n hn
  have hserved : s7.Served ((s10.writeBlock (s5.equip t2).1).readTables key) := by
    refine State.Served.frame.trans (b := s10) ?_ (State.Served.frame.trans (State.writeBlock_served _ _) (State.readTables_served _ _))
    refine State.Served.frame.trans (b := s9) ?_ (State.partWrite_served _ _ _ _)
    exact .foldl (State.acquire_served _ _ _ _) (fun s g => .foldl (State.Served.frame.refl s) (fun s w => State.acquire_served _ _ _ _) _) _
  obtain ⟨u, hu, hstem⟩ := hserved.mem (t := (s5.equip t2).1) (List.mem_append_right _ (List.mem_singleton_self _))
  have hnest : s7.nest? n.nid = some _ := State.nest?_mapNest (s := s6) hcellar _ fun _ => rfl
  have hustarts := hstarts.of_stem hstem
  refine ⟨tid, getD_pick_mem ht _ _, slot, getD_pick_mem hf _ _, u, hu,
    { n with cellar := cellar, started := true, nextOrd := n.nextOrd + 1, teams := n.teams ++ [key], stackUsed := n.stackUsed ++ [slot] },
    hustarts, ?_, ?_, rfl, rfl, ?_, rfl⟩
  · rw [State.nest?, State.turnQueue_nests, hserved.nests]
    exact hnest
  · rw [State.turnQueue_lastQueues, State.priority_congr (hserved.mgmt.trans hready.mgmt), hserved.lastQueues]
    exact congrArg (List.set · _ _) hready.lastQueues
  · rw [hustarts.key]

/-! ### The event -/

theorem homeFor_eq {s : State} {w : Want} {bay : Nat} (hw : s.fitsAt w bay = true) (hb : bay < 192) (hl : ∀ b, b < bay → s.fitsAt w b = false) :
    s.homeFor w = some bay := by
  unfold State.homeFor
  rw [List.find?_range_eq_some]
  exact ⟨hw, List.mem_range.2 hb, fun b h => by simp [hl b h]⟩

section
variable {s : State}

theorem placement_parks {t : Team} (h : s.classless = some t) : exec .teamPlacement s = .next (s.park t) := by
  show execTeamPlacement s = _
  unfold execTeamPlacement runEvent
  simp only [h, Option.getD_some]

variable (h : s.classless = none)
include h

theorem placement_idle (hc : s.chosen.find? (fun c => c.team.isNone) = none) : exec .teamPlacement s = .next s := by
  show execTeamPlacement s = _
  unfold execTeamPlacement runEvent
  simp only [h, hc, Option.bind_eq_bind, Option.bind_none, Option.getD_none]

variable {c : Cand} {n : Nest} (hc : s.chosen.find? (fun c => c.team.isNone) = some c) (hn : s.nest? c.nid = some n)
include hc hn

theorem placement_fails (hw : c.want = none) :
    exec .teamPlacement s = .next { nestFails s n.nid 0x05 with lastQueues := s.lastQueues.set (2 * s.priority n.queue + 1) n.queue } := by
  show execTeamPlacement s = _
  unfold execTeamPlacement runEvent
  simp only [h, hc, hn, hw, Option.bind_eq_bind, Option.bind_some, Option.getD_some]
  rfl

theorem placement_starts {w : Want} {bay : Nat} (hw : c.want = some w) (hb : s.homeFor w = some bay) :
    exec .teamPlacement s = .next (s.startTeam n bay) := by
  show execTeamPlacement s = _
  unfold execTeamPlacement runEvent
  simp only [h, hc, hn, hw, hb, Option.bind_eq_bind, Option.bind_some, Option.map_some, Option.getD_some]

end

/-- Settles O51: what a placement parks, fails or starts. -/
theorem teamPlacements : Obligations.TeamPlacements := by
  unfold Obligations.TeamPlacements
  intro s
  refine ⟨fun t ht => placement_parks ht, fun h hc => placement_idle h ?_, fun c n h hc hn => ⟨placement_fails h hc hn, ?_⟩⟩
  · exact List.find?_eq_none.2 fun c hm => by simpa using hc c hm
  intro w bay loc d s0 s1 hw hfit hbay hlow hd ho hslots htid hdepth
  have hid : c.nid = n.nid := by
    have := List.find?_some hn
    exact (beq_iff_eq.1 this).symm
  have hn' : s.nest? n.nid = some n := hid ▸ hn
  have ht : s.tidsFree n.dctx d.nteam ≠ [] := by
    obtain ⟨i, h1, hi, hu⟩ := htid
    exact List.ne_nil_of_mem (mem_tidsFree.2 ⟨h1, hi, hu⟩)
  obtain ⟨tid, htid, slot, hslot, t, hmem, m, hs, hm, hq, hord, hstarted, hteams, hused⟩ := s.startTeam_places (bay := bay) hn' hd ho ht hslots
  obtain ⟨h1, hle, hfree⟩ := mem_tidsFree.1 htid
  obtain ⟨hslot, hunused⟩ := List.mem_filter.1 hslot
  refine ⟨_, t, m, placement_starts h hc hn hw (homeFor_eq hfit hbay hlow), hmem, hm, hq, hord, hstarted, hteams, ?_⟩
  rw [hs.number, hs.stackSlot, hs.duplex]
  refine ⟨hused, hs.key, hs.dctx, h1, hle, hfree, List.mem_range.1 hslot, by simpa using hunused, hs.nid, hs.ordinal, hs.queue, hs.resident, hs.phase, hs.super,
    hs.seat, rfl, hs.cq, hs.rq, hs.pc, hs.curObj, hs.block, hs.reg (i := 4) (by decide) (by decide), ?_, hs.reg (i := 2) (by decide) (by decide),
    fun i hi h8 => hs.index hdepth hi h8, fun i hi h8 => hs.index_beyond hi h8, hs.argSeg, hs.stackSeg, hs.groups⟩
  rw [hs.block]
  exact hs.reg (i := 62) (by decide) (by decide)

end Sys2Proof.Machine
end

section
/-! Rounding on a grid of reals (R79): the point below, the point above, and what each mode chooses between them. -/

namespace Sys2Proof.Machine

open Sys2Proof.Spec

/-- A value by its sign and its magnitude. -/
noncomputable def signedReal (neg : Bool) (y : ℝ) : ℝ := if neg then -y else y

@[simp] theorem signedReal_false (y : ℝ) : signedReal false y = y := rfl
@[simp] theorem signedReal_true (y : ℝ) : signedReal true y = -y := rfl

@[simp] theorem abs_signedReal (neg : Bool) (y : ℝ) : |signedReal neg y| = |y| := by cases neg <;> simp

/-- A point of the grid is chosen for itself. -/
theorem ModeChooses.exact {grid even : ℝ → Prop} {x : ℝ} (h : grid x) (mode : Nat) : ModeChooses grid even mode x x := by
  have hself (q : ℝ) : |x - x| = |x - q| → q = x := fun he => by
    rw [sub_self, abs_zero] at he
    exact (sub_eq_zero.1 (abs_eq_zero.1 he.symm)).symm
  refine ⟨h, fun _ q _ => ⟨by simp, fun he hq => absurd (hself q he) hq⟩, fun _ => ⟨mul_self_nonneg x, le_refl _, fun q _ hq => hq⟩,
    fun _ => ⟨le_refl _, fun q _ hq => hq⟩, fun _ => ⟨le_refl _, fun q _ hq => hq⟩, fun _ q _ => ⟨by simp, fun he => by rw [hself q he]⟩⟩

/-- Two neighbours of a symmetric grid about a magnitude, with what decides between them: the parity of the lower, where the magnitude lies against
their middle, and whether it is a point itself. -/
structure Brackets (grid even : ℝ → Prop) (y lo hi : ℝ) (odd : Bool) (half : Int) (inexact : Bool) : Prop where
  symm : ∀ p, grid p → grid (-p)
  evenSymm : ∀ p, even p → even (-p)
  lower : grid lo
  upper : grid hi
  nonneg : 0 ≤ lo
  le : lo ≤ y
  lt : y < hi
  gap : ∀ q, grid q → |q| ≤ lo ∨ hi ≤ |q|
  inexact_iff : inexact = true ↔ lo < y
  below : half < 0 → y - lo < hi - y
  middle : half = 0 → y - lo = hi - y
  above : 0 < half → hi - y < y - lo
  evenLower : odd = false → even lo
  evenUpper : odd = true → even hi

namespace Brackets

variable {grid even : ℝ → Prop} {y lo hi : ℝ} {odd : Bool} {half : Int} {inexact : Bool} (h : Brackets grid even y lo hi odd half inexact)
include h

theorem signed_grid {p : ℝ} (hp : grid p) (neg : Bool) : grid (signedReal neg p) := by
  cases neg
  · exact hp
  · exact h.symm p hp

theorem signed_even {p : ℝ} (hp : even p) (neg : Bool) : even (signedReal neg p) := by
  cases neg
  · exact hp
  · exact h.evenSymm p hp

/-- A point of the grid is as far from the magnitude as one of the two at least; where it is no farther than that one, it is that one. -/
theorem far {q : ℝ} (hq : grid q) : (|q| ≤ lo ∧ y - lo ≤ |y - q| ∧ (|y - q| ≤ y - lo → q = lo)) ∨
    (hi ≤ |q| ∧ hi - y ≤ |y - q| ∧ (0 < y → |y - q| ≤ hi - y → q = hi)) := by
  have hle := h.le
  have hlt := h.lt
  have hnonneg := h.nonneg
  rcases h.gap q hq with hin | hout
  · have hmag := abs_le.1 hin
    exact .inl ⟨hin, by linarith [le_abs_self (y - q)], fun hn => by linarith [le_abs_self (y - q)]⟩
  · refine .inr ⟨hout, ?_⟩
    rcases le_abs.1 hout with hpos | hneg
    · exact ⟨by linarith [neg_abs_le (y - q)], fun _ hn => by linarith [neg_abs_le (y - q)]⟩
    · exact ⟨by linarith [le_abs_self (y - q)], fun hy hn => by linarith [le_abs_self (y - q)]⟩

/-- The nearest points, for the grid seen from the magnitude. -/
theorem nearest_lower (hb : y - lo ≤ hi - y) {q : ℝ} (hq : grid q) : |y - lo| ≤ |y - q| := by
  rw [abs_of_nonneg (sub_nonneg.2 h.le)]
  rcases h.far hq with ⟨-, hd, -⟩ | ⟨-, hd, -⟩
  · exact hd
  · exact hb.trans hd

theorem nearest_upper (hb : hi - y ≤ y - lo) {q : ℝ} (hq : grid q) : |y - hi| ≤ |y - q| := by
  rw [abs_sub_comm, abs_of_nonneg (sub_nonneg.2 h.lt.le)]
  rcases h.far hq with ⟨-, hd, -⟩ | ⟨-, hd, -⟩
  · exact hb.trans hd
  · exact hd

/-- No other point is as near as one that is nearer than its neighbour. -/
theorem unique_lower (hb : y - lo < hi - y) {q : ℝ} (hq : grid q) (he : |y - lo| = |y - q|) : q = lo := by
  rw [abs_of_nonneg (sub_nonneg.2 h.le)] at he
  rcases h.far hq with ⟨-, -, hu⟩ | ⟨-, hd, -⟩
  · exact hu he.ge
  · linarith

theorem unique_upper (hb : hi - y < y - lo) {q : ℝ} (hq : grid q) (he : |y - hi| = |y - q|) : q = hi := by
  rw [abs_sub_comm, abs_of_nonneg (sub_nonneg.2 h.lt.le)] at he
  rcases h.far hq with ⟨-, hd, -⟩ | ⟨-, -, hu⟩
  · linarith
  · exact hu (by linarith [h.nonneg, h.lt]) he.ge

omit h in
/-- The distance from a signed magnitude is that of the magnitude from the point seen from there. -/
theorem dist_signed (neg : Bool) (q : ℝ) : |signedReal neg y - q| = |y - signedReal neg q| := by
  cases neg
  · rfl
  · rw [signedReal_true, signedReal_true, ← abs_neg]
    congr 1
    ring

/-- The nearest of the two, which a tie leaves open. -/
theorem nearest (up : Bool) (hup : up = true → hi - y ≤ y - lo) (hdown : up = false → y - lo ≤ hi - y) (neg : Bool) {q : ℝ} (hq : grid q) :
    |signedReal neg y - signedReal neg (if up then hi else lo)| ≤ |signedReal neg y - q| := by
  have hs : signedReal neg (signedReal neg (if up then hi else lo)) = if up then hi else lo := by cases neg <;> simp
  rw [dist_signed, hs, dist_signed]
  cases up
  · exact h.nearest_lower (hdown rfl) (h.signed_grid hq neg)
  · exact h.nearest_upper (hup rfl) (h.signed_grid hq neg)

/-- A point as near as the one chosen is that one, or the two neighbours are equally near. -/
theorem as_near (up : Bool) (hup : up = true → hi - y ≤ y - lo) (hdown : up = false → y - lo ≤ hi - y) (neg : Bool) {q : ℝ} (hq : grid q)
    (he : |signedReal neg y - signedReal neg (if up then hi else lo)| = |signedReal neg y - q|) :
    q = signedReal neg (if up then hi else lo) ∨ y - lo = hi - y := by
  have hs : signedReal neg (signedReal neg (if up then hi else lo)) = if up then hi else lo := by cases neg <;> simp
  have hback (p : ℝ) (e : signedReal neg q = p) : q = signedReal neg p := by rw [← e]; cases neg <;> simp
  rw [dist_signed, hs, dist_signed] at he
  cases up
  · rcases (hdown rfl).lt_or_eq with hlt | heq
    · exact .inl (hback _ (h.unique_lower hlt (h.signed_grid hq neg) he))
    · exact .inr heq
  · rcases (hup rfl).lt_or_eq with hlt | heq
    · exact .inl (hback _ (h.unique_upper hlt (h.signed_grid hq neg) he))
    · exact .inr heq.symm

theorem chosen_grid (up neg : Bool) : grid (signedReal neg (if up then hi else lo)) := by
  cases up
  · exact h.signed_grid h.lower neg
  · exact h.signed_grid h.upper neg

/-- To the nearest, a tie to the even point. -/
theorem mode0 (neg : Bool) :
    ModeChooses grid even 0 (signedReal neg y) (signedReal neg (if decide (half > 0) || (half == 0 && odd) then hi else lo)) := by
  have hup : (decide (half > 0) || (half == 0 && odd)) = true → hi - y ≤ y - lo := fun hu => by
    rcases lt_trichotomy half 0 with hb | hb | hb
    · simp [hb.ne] at hu
      omega
    · exact (h.middle hb).ge
    · exact (h.above hb).le
  have hdown : (decide (half > 0) || (half == 0 && odd)) = false → y - lo ≤ hi - y := fun hu => by
    rcases lt_trichotomy half 0 with hb | hb | hb
    · exact (h.below hb).le
    · exact (h.middle hb).le
    · simp [hb] at hu
  refine ⟨h.chosen_grid _ neg, fun _ q hq => ⟨h.nearest _ hup hdown neg hq, fun he hne => ?_⟩, nofun, nofun, nofun, nofun⟩
  rcases h.as_near _ hup hdown neg hq he with heq | htie
  · exact absurd heq hne
  · have hhalf : half = 0 := by
      rcases lt_trichotomy half 0 with hb | hb | hb
      · linarith [h.below hb]
      · exact hb
      · linarith [h.above hb]
    cases ho : odd
    · simpa [hhalf, ho] using h.signed_even (h.evenLower ho) neg
    · simpa [hhalf, ho] using h.signed_even (h.evenUpper ho) neg

/-- To the nearest, a tie away from zero. -/
theorem mode4 (neg : Bool) : ModeChooses grid even 4 (signedReal neg y) (signedReal neg (if decide (half ≥ 0) then hi else lo)) := by
  have hle := h.le
  have hlt := h.lt
  have hnonneg := h.nonneg
  have hup : decide (half ≥ 0) = true → hi - y ≤ y - lo := fun hu => by
    rcases (of_decide_eq_true hu).lt_or_eq with hb | hb
    · exact (h.above hb).le
    · exact (h.middle hb.symm).ge
  have hdown : decide (half ≥ 0) = false → y - lo < hi - y := fun hu => h.below (by simpa using hu)
  refine ⟨h.chosen_grid _ neg, nofun, nofun, nofun, nofun, fun _ q hq => ⟨h.nearest _ hup (fun hu => (hdown hu).le) neg hq, fun he => ?_⟩⟩
  rcases h.as_near _ hup (fun hu => (hdown hu).le) neg hq he with heq | htie
  · rw [heq]
  · have hu : decide (half ≥ 0) = true := by
      rcases Bool.eq_false_or_eq_true (decide (half ≥ 0)) with hu | hu
      · exact hu
      · linarith [hdown hu]
    rw [dist_signed, hu, if_pos rfl] at he
    rw [hu, if_pos rfl, abs_signedReal, abs_of_pos (show 0 < hi by linarith)]
    have hs : signedReal neg (signedReal neg hi) = hi := by cases neg <;> simp
    rw [dist_signed, hs, abs_sub_comm, abs_of_nonneg (show 0 ≤ hi - y by linarith)] at he
    have hq' : |q| = |signedReal neg q| := (abs_signedReal neg q).symm
    rw [hq']
    have h1 := abs_sub_abs_le_abs_sub (signedReal neg q) y
    rw [abs_of_nonneg (show 0 ≤ y by linarith), abs_sub_comm, ← he] at h1
    linarith

/-- Toward zero. -/
theorem mode1 (neg : Bool) : ModeChooses grid even 1 (signedReal neg y) (signedReal neg lo) := by
  have hle := h.le
  have hnonneg := h.nonneg
  refine ⟨h.signed_grid h.lower neg, nofun, fun _ => ⟨?_, ?_, fun q hq hqx => ?_⟩, nofun, nofun, nofun⟩
  · have : signedReal neg lo * signedReal neg y = lo * y := by cases neg <;> simp
    rw [this]
    exact mul_nonneg hnonneg (hnonneg.trans hle)
  · rw [abs_signedReal, abs_signedReal, abs_of_nonneg hnonneg, abs_of_nonneg (hnonneg.trans hle)]
    exact hle
  · rw [abs_signedReal, abs_of_nonneg (hnonneg.trans hle)] at hqx
    rw [abs_signedReal, abs_of_nonneg hnonneg]
    rcases h.gap q hq with hin | hout
    · exact hin
    · linarith [h.lt]

/-- The point above a magnitude, and the point below it. -/
theorem least_above : grid (if inexact then hi else lo) ∧ y ≤ (if inexact then hi else lo) ∧ ∀ q, grid q → y ≤ q → (if inexact then hi else lo) ≤ q := by
  have hle := h.le
  have hlt := h.lt
  have hnonneg := h.nonneg
  cases hi' : inexact with
  | true =>
    have hy := h.inexact_iff.1 hi'
    refine ⟨h.upper, hlt.le, fun q hq hyq => ?_⟩
    rcases h.gap q hq with hin | hout
    · have := le_abs_self q
      linarith
    · rwa [abs_of_nonneg (by linarith)] at hout
  | false =>
    have hy : y ≤ lo := not_lt.1 fun hlo => by simp [h.inexact_iff.2 hlo] at hi'
    exact ⟨h.lower, hy, fun q _ hyq => hle.trans hyq⟩

theorem greatest_below : ∀ q, grid q → q ≤ y → q ≤ lo := by
  intro q hq hqy
  rcases h.gap q hq with hin | hout
  · exact (le_abs_self q).trans hin
  · rcases le_abs.1 hout with hpos | hneg
    · linarith [h.lt]
    · linarith [h.le, h.lt, h.nonneg]

/-- Toward +∞. -/
theorem mode2 (neg : Bool) : ModeChooses grid even 2 (signedReal neg y) (signedReal neg (if inexact && !neg then hi else lo)) := by
  cases neg with
  | false =>
    obtain ⟨hg, hle, hleast⟩ := h.least_above
    simp only [Bool.not_false, Bool.and_true, signedReal_false]
    exact ⟨hg, nofun, nofun, fun _ => ⟨hle, hleast⟩, nofun, nofun⟩
  | true =>
    simp only [Bool.not_true, Bool.and_false, signedReal_true, Bool.false_eq_true, if_false]
    refine ⟨h.symm _ h.lower, nofun, nofun, fun _ => ⟨neg_le_neg h.le, fun q hq hqx => ?_⟩, nofun, nofun⟩
    linarith [h.greatest_below (-q) (h.symm q hq) (by linarith)]

/-- Toward -∞. -/
theorem mode3 (neg : Bool) : ModeChooses grid even 3 (signedReal neg y) (signedReal neg (if inexact && neg then hi else lo)) := by
  cases neg with
  | false =>
    simp only [Bool.and_false, signedReal_false, Bool.false_eq_true, if_false]
    exact ⟨h.lower, nofun, nofun, nofun, fun _ => ⟨h.le, h.greatest_below⟩, nofun⟩
  | true =>
    obtain ⟨hg, hle, hleast⟩ := h.least_above
    simp only [Bool.and_true, signedReal_true]
    refine ⟨h.symm _ hg, nofun, nofun, nofun, fun _ => ⟨neg_le_neg hle, fun q hq hqx => ?_⟩, nofun⟩
    linarith [hleast (-q) (h.symm q hq) (by linarith)]

/-- What a mode chooses for the magnitude with a sign (R79). -/
theorem modeChooses {mode : Nat} (hm : mode ≤ 4) (neg : Bool) :
    ModeChooses grid even mode (signedReal neg y) (signedReal neg (if roundsUp mode neg odd half inexact then hi else lo)) := by
  match mode, hm with
  | 0, _ => exact h.mode0 neg
  | 1, _ => exact h.mode1 neg
  | 2, _ => exact h.mode2 neg
  | 3, _ => exact h.mode3 neg
  | 4, _ => exact h.mode4 neg

end Brackets

end Sys2Proof.Machine
end

section
/-! The floating formats of R67: their grids, the values of their codes, and `RoundTo` (R79, R80). -/

namespace Sys2Proof.Machine

open Sys2Proof.Spec

/-! ### Rounding at a power of two -/

theorem two_zpow_pos (e : ℤ) : (0 : ℝ) < 2 ^ e := zpow_pos (by norm_num) e

theorem two_zpow_add (a b : ℤ) : (2 : ℝ) ^ (a + b) = 2 ^ a * 2 ^ b := zpow_add₀ (by norm_num) a b

/-- A power of two below another, as a count of it. -/
theorem two_zpow_toNat {a b : ℤ} (h : a ≤ b) : ((2 ^ (b - a).toNat : ℕ) : ℝ) * 2 ^ a = 2 ^ b := by
  rw [Nat.cast_pow, Nat.cast_ofNat, ← zpow_natCast, Int.toNat_of_nonneg (by omega), ← two_zpow_add]
  congr 1
  omega

/-- A grid about the points `t` and `t + 1` times a power of two. -/
structure GridCell (grid even : ℝ → Prop) (q : ℤ) (t : ℕ) : Prop where
  symm : ∀ p, grid p → grid (-p)
  evenSymm : ∀ p, even p → even (-p)
  lower : grid (t * 2 ^ q)
  upper : grid ((t + 1) * 2 ^ q)
  gap : ∀ p, grid p → |p| ≤ t * 2 ^ q ∨ (t + 1) * 2 ^ q ≤ |p|
  evenLower : t % 2 = 0 → even (t * 2 ^ q)
  evenUpper : t % 2 = 1 → even ((t + 1) * 2 ^ q)

/-- A magnitude that is a count of the power of two stays as it is. -/
theorem roundAt_exact {exp q : ℤ} (h : q ≤ exp) (mode : Nat) (neg : Bool) (num : Nat) (sticky : Bool) :
    (roundAt mode neg num exp q sticky : ℝ) * 2 ^ q = num * 2 ^ exp := by
  unfold roundAt
  rw [if_pos h, Nat.cast_mul, mul_assoc, two_zpow_toNat h]

/-- The magnitude that `num · 2^exp` stands for, a little more where `sticky`. -/
structure Magnitude (y : ℝ) (num : Nat) (exp : ℤ) (sticky : Bool) : Prop where
  le : num * 2 ^ exp ≤ y
  lt : y < (num + 1) * 2 ^ exp
  sticky_iff : sticky = true ↔ (num : ℝ) * 2 ^ exp < y

theorem Magnitude.of_exact (num : Nat) (exp : ℤ) : Magnitude (num * 2 ^ exp) num exp false where
  le := le_refl _
  lt := by linarith [two_zpow_pos exp]
  sticky_iff := by simp

/-- The bits that rounding discards decide where the magnitude lies between its two neighbours. -/
theorem Magnitude.brackets {y : ℝ} {num : Nat} {exp q : ℤ} {sticky : Bool} (h : Magnitude y num exp sticky) (hq : exp < q) {grid even : ℝ → Prop}
    (hc : GridCell grid even q (num / 2 ^ (q - exp).toNat)) :
    let sh := (q - exp).toNat
    let r := num % 2 ^ sh
    let t := num / 2 ^ sh
    Brackets grid even y (t * 2 ^ q) ((t + 1) * 2 ^ q) (t % 2 == 1)
      (if r < 2 ^ (sh - 1) then -1 else if r == 2 ^ (sh - 1) && !sticky then 0 else 1) (r != 0 || sticky) := by
  intro sh r t
  obtain ⟨hle, hlt, hsticky⟩ := h
  have hu := two_zpow_pos exp
  have hpow : ((2 ^ sh : ℕ) : ℝ) * 2 ^ exp = 2 ^ q := two_zpow_toNat hq.le
  have hhalf : 2 ^ sh = 2 * 2 ^ (sh - 1) := by rw [← Nat.pow_succ', Nat.succ_eq_add_one, Nat.sub_add_cancel (by omega)]
  have hr : r < 2 ^ sh := Nat.mod_lt _ (Nat.two_pow_pos _)
  have hnum : (num : ℝ) * 2 ^ exp = t * 2 ^ q + r * 2 ^ exp := by
    have : 2 ^ sh * t + r = num := Nat.div_add_mod num (2 ^ sh)
    rw [← this, ← hpow]
    push_cast
    ring
  have hq2 : (2 : ℝ) ^ q = 2 * (2 ^ (sh - 1) : ℕ) * 2 ^ exp := by
    rw [← hpow, hhalf]
    push_cast
    ring
  have hrnonneg : (0 : ℝ) ≤ r * 2 ^ exp := by positivity
  have hscale {a b : ℕ} (hab : a ≤ b) : (a : ℝ) * 2 ^ exp ≤ b * 2 ^ exp := mul_le_mul_of_nonneg_right (Nat.cast_le.2 hab) hu.le
  have htop : ((r + 1 : ℕ) : ℝ) * 2 ^ exp ≤ 2 ^ q := by
    rw [← hpow]
    exact hscale hr
  push_cast at htop
  refine { symm := hc.symm, evenSymm := hc.evenSymm, lower := hc.lower, upper := hc.upper, nonneg := by positivity, le := by linarith, lt := by linarith, gap := hc.gap
           inexact_iff := ?_, below := fun hb => ?_, middle := fun hb => ?_, above := fun hb => ?_, evenLower := fun ho => hc.evenLower ?_, evenUpper := fun ho => hc.evenUpper ?_ }
  · rw [Bool.or_eq_true, bne_iff_ne, hsticky]
    constructor
    · rintro (hne | hlt)
      · have := hscale (Nat.one_le_iff_ne_zero.2 hne)
        push_cast at this
        linarith
      · linarith
    · intro hy
      rcases Nat.eq_zero_or_pos r with hz | hp
      · refine .inr ?_
        rw [hz, Nat.cast_zero, zero_mul] at hnum
        linarith
      · exact .inl (by omega)
  · have hlow : r < 2 ^ (sh - 1) := by
      by_contra hn
      rw [if_neg hn] at hb
      split at hb <;> omega
    have := hscale (Nat.succ_le_of_lt hlow)
    push_cast at this hq2
    linarith
  · have hmid : r = 2 ^ (sh - 1) ∧ sticky = false := by
      split at hb
      · omega
      · split at hb
        · next hs => simpa using hs
        · omega
    obtain ⟨hreq, hs⟩ := hmid
    have hy : y ≤ num * 2 ^ exp := not_lt.1 fun hl => by simp [hsticky.2 hl] at hs
    rw [hreq] at hnum
    linarith
  · have hhigh : 2 ^ (sh - 1) ≤ r ∧ (r = 2 ^ (sh - 1) → sticky = true) := by
      split at hb
      · omega
      · next hn =>
        refine ⟨by omega, fun he => ?_⟩
        by_contra hs
        rw [if_pos (by simp [he, hs])] at hb
        omega
    obtain ⟨hge, hs⟩ := hhigh
    rcases hge.lt_or_eq with hgt | heq
    · have := hscale (Nat.succ_le_of_lt hgt)
      push_cast at this hq2
      linarith
    · have := hsticky.1 (hs heq.symm)
      rw [← heq] at hnum
      linarith
  · exact Nat.mod_two_ne_one.1 (by simpa using ho)
  · simpa using ho

/-- What the mode chooses is the truncated magnitude rounded. -/
theorem Magnitude.roundAt {y : ℝ} {num : Nat} {exp q : ℤ} {sticky : Bool} (h : Magnitude y num exp sticky) (hq : exp < q) {grid even : ℝ → Prop}
    (hc : GridCell grid even q (num / 2 ^ (q - exp).toNat)) {mode : Nat} (hm : mode ≤ 4) (neg : Bool) :
    ModeChooses grid even mode (signedReal neg y) (signedReal neg (roundAt mode neg num exp q sticky * 2 ^ q)) := by
  have hchoice := (h.brackets hq hc).modeChooses hm neg
  unfold Machine.roundAt
  rw [if_neg (by omega)]
  dsimp only at hchoice ⊢
  simpa only [Nat.cast_ite, ite_mul, Nat.cast_add, Nat.cast_one] using hchoice

/-! ### The grid of a format (R79) -/

/-- The exponent of the smallest value of a format. -/
def Fp.ulp (f : Fp) : ℤ := 1 - (f.bias : ℤ) - f.fracBits

theorem gridPoint_neg {f : Fp} {even : Bool} {p : ℝ} (h : GridPoint f even p) : GridPoint f even (-p) := by
  unfold GridPoint at h ⊢
  rwa [abs_neg]

/-- A count of a power of two within the format's precision is a point of its grid; so is the first count beyond. -/
theorem gridPoint_count {f : Fp} (hf : 1 ≤ f.fracBits) {n : ℕ} {q : ℤ} (hq : f.ulp ≤ q) (hn : n ≤ 2 ^ (f.fracBits + 1)) (hl : 2 ^ f.fracBits ≤ n ∨ q = f.ulp)
    {even : Bool} (he : even = true → n % 2 = 0) : GridPoint f even (n * 2 ^ q) := by
  have hpos : (0 : ℝ) ≤ n * 2 ^ q := by positivity
  rcases hn.lt_or_eq with hlt | heq
  · exact ⟨n, q, abs_of_nonneg hpos, hlt, hq, hl, he⟩
  · refine ⟨2 ^ f.fracBits, q + 1, ?_, Nat.pow_lt_pow_right (by decide) (by omega), by unfold Fp.ulp at hq; omega, .inl (le_refl _), fun _ => ?_⟩
    · rw [abs_of_nonneg hpos, heq, two_zpow_add]
      push_cast
      ring
    · obtain ⟨k, hk⟩ : ∃ k, f.fracBits = k + 1 := ⟨f.fracBits - 1, by omega⟩
      rw [hk, Nat.pow_succ, Nat.mul_mod_left]

theorem gridPoint_cell {f : Fp} (hf : 1 ≤ f.fracBits) {t : ℕ} {q : ℤ} (hq : f.ulp ≤ q) (ht : t < 2 ^ (f.fracBits + 1))
    (hl : 2 ^ f.fracBits ≤ t ∨ q = f.ulp) : GridCell (GridPoint f false) (GridPoint f true) q t where
  symm _ := gridPoint_neg
  evenSymm _ := gridPoint_neg
  lower := gridPoint_count hf hq ht.le hl nofun
  upper := by
    have := gridPoint_count hf (n := t + 1) (even := false) hq ht (hl.imp_left fun h => by omega) nofun
    rwa [Nat.cast_add, Nat.cast_one] at this
  gap p hp := by
    obtain ⟨n, e, hpe, hn, he, -, -⟩ := hp
    rw [hpe]
    by_cases hqe : q ≤ e
    · have hcount : (n : ℝ) * 2 ^ e = (n * 2 ^ (e - q).toNat : ℕ) * 2 ^ q := by rw [Nat.cast_mul, mul_assoc, two_zpow_toNat hqe]
      rw [hcount]
      rcases Nat.lt_or_ge t (n * 2 ^ (e - q).toNat) with h | h
      · refine .inr (mul_le_mul_of_nonneg_right ?_ (two_zpow_pos q).le)
        exact_mod_cast h
      · refine .inl (mul_le_mul_of_nonneg_right ?_ (two_zpow_pos q).le)
        exact_mod_cast h
    · refine .inl ?_
      have hlarge : 2 ^ f.fracBits ≤ t := hl.resolve_right fun h => by unfold Fp.ulp at h; omega
      have hsmall : (2 : ℝ) * 2 ^ e ≤ 2 ^ q := by
        rw [← zpow_one_add₀ (by norm_num : (2 : ℝ) ≠ 0)]
        exact zpow_le_zpow_right₀ (by norm_num) (by omega)
      calc (n : ℝ) * 2 ^ e ≤ (2 ^ (f.fracBits + 1) : ℕ) * 2 ^ e := mul_le_mul_of_nonneg_right (Nat.cast_le.2 hn.le) (two_zpow_pos e).le
        _ = (2 ^ f.fracBits : ℕ) * (2 * 2 ^ e) := by push_cast; ring
        _ ≤ (2 ^ f.fracBits : ℕ) * 2 ^ q := mul_le_mul_of_nonneg_left hsmall (Nat.cast_nonneg _)
        _ ≤ t * 2 ^ q := mul_le_mul_of_nonneg_right (Nat.cast_le.2 hlarge) (two_zpow_pos q).le
  evenLower h := gridPoint_count hf hq ht.le hl fun _ => h
  evenUpper h := by
    have := gridPoint_count hf (n := t + 1) (even := true) hq ht (hl.imp_left fun h => by omega) fun _ => by omega
    rwa [Nat.cast_add, Nat.cast_one] at this

/-! ### Codes without their sign (R68) -/

/-- What a code without sign stands for, its exponent field unbounded. -/
noncomputable def Fp.magnitude (f : Fp) (c : ℕ) : ℝ :=
  if c / 2 ^ f.fracBits = 0 then (c % 2 ^ f.fracBits : ℕ) * 2 ^ f.ulp
  else (2 ^ f.fracBits + c % 2 ^ f.fracBits : ℕ) * 2 ^ (f.ulp + (c / 2 ^ f.fracBits : ℕ) - 1)

/-- The code of `n` counts of a power of two: fraction and hidden bit add into the exponent field. -/
theorem Fp.magnitude_count (f : Fp) {k n : ℕ} (hn : n ≤ 2 ^ (f.fracBits + 1)) (hl : 2 ^ f.fracBits ≤ n ∨ k = 0) :
    f.magnitude (k * 2 ^ f.fracBits + n) = n * 2 ^ (f.ulp + k) := by
  have hp : 0 < 2 ^ f.fracBits := Nat.two_pow_pos _
  have hdiv : (k * 2 ^ f.fracBits + n) / 2 ^ f.fracBits = k + n / 2 ^ f.fracBits := by rw [Nat.add_comm, Nat.add_mul_div_right _ _ hp, Nat.add_comm]
  have hmod : (k * 2 ^ f.fracBits + n) % 2 ^ f.fracBits = n % 2 ^ f.fracBits := by rw [Nat.add_comm, Nat.add_mul_mod_self_right]
  rw [Nat.pow_succ] at hn
  unfold Fp.magnitude
  rw [hdiv, hmod]
  rcases Nat.lt_or_ge n (2 ^ f.fracBits) with hlt | hge
  · obtain rfl : k = 0 := hl.resolve_left (by omega)
    rw [Nat.div_eq_of_lt hlt, if_pos rfl, Nat.mod_eq_of_lt hlt]
    simp
  · rcases hn.lt_or_eq with hlt | heq
    · have hone : n / 2 ^ f.fracBits = 1 := Nat.div_eq_of_lt_le (by omega) (by omega)
      have hsum : 2 ^ f.fracBits + n % 2 ^ f.fracBits = n := by
        have := Nat.div_add_mod n (2 ^ f.fracBits)
        rw [hone, Nat.mul_one] at this
        exact this
      rw [hone, if_neg (by omega), hsum]
      congr 2
      push_cast
      ring
    · rw [heq, Nat.mul_div_cancel_left _ hp, Nat.mul_mod_right, if_neg (by omega)]
      rw [show f.ulp + ((k + 2 : ℕ) : ℤ) - 1 = f.ulp + k + 1 by push_cast; ring, two_zpow_add (f.ulp + k)]
      push_cast
      ring

/-- Codes without sign order as what they stand for. -/
theorem Fp.magnitude_strictMono (f : Fp) : StrictMono f.magnitude := by
  refine strictMono_nat_of_lt_succ fun c => ?_
  have hp : 0 < 2 ^ f.fracBits := Nat.two_pow_pos _
  obtain ⟨k, n, hc, hn, hl⟩ : ∃ k n, c = k * 2 ^ f.fracBits + n ∧ n < 2 ^ (f.fracBits + 1) ∧ (2 ^ f.fracBits ≤ n ∨ k = 0) := by
    have hdm := Nat.div_add_mod c (2 ^ f.fracBits)
    have hr := Nat.mod_lt c hp
    cases hk : c / 2 ^ f.fracBits with
    | zero => exact ⟨0, c % 2 ^ f.fracBits, by rw [hk] at hdm; omega, by rw [Nat.pow_succ]; omega, .inr rfl⟩
    | succ k =>
      refine ⟨k, 2 ^ f.fracBits + c % 2 ^ f.fracBits, ?_, by rw [Nat.pow_succ]; omega, .inl (by omega)⟩
      rw [hk, Nat.mul_comm, Nat.succ_mul] at hdm
      omega
  rw [hc, f.magnitude_count hn.le hl, Nat.add_assoc, f.magnitude_count (n := n + 1) hn (hl.imp_left fun h => by omega)]
  refine mul_lt_mul_of_pos_right ?_ (two_zpow_pos _)
  exact_mod_cast Nat.lt_succ_self n

/-! ### The formats -/

/-- What the floating formats of R65 have in common. -/
structure Fp.Standard (f : Fp) : Prop where
  frac : 1 ≤ f.fracBits
  exp : 2 ≤ f.expBits
  small : f.bits ≤ 64
  narrow : f.fracBits ≤ 60
  infinite : f.hasInf = true ∨ f = fpE4m3

theorem standard_of_kind {c : Nat} {f : Fp} (h : fmtKind c = .float f) : f.Standard := by
  unfold fmtKind at h
  split at h <;> cases h
  all_goals exact ⟨by decide, by decide, by decide, by decide, by decide⟩

theorem standard_fpOf (p : Bool) : (fpOf p).Standard := by
  cases p
  · exact standard_of_kind (c := 0) rfl
  · exact standard_of_kind (c := 1) rfl


/-! ### Codes with their sign -/

theorem Fp.signBit_eq (f : Fp) : f.signBit = 2 ^ f.expBits * 2 ^ f.fracBits := Nat.pow_add ..

theorem Fp.bits_pow (f : Fp) : 2 ^ f.bits = 2 * f.signBit := by
  unfold Fp.bits Fp.signBit
  rw [← Nat.pow_succ']
  congr 1
  omega

theorem Fp.signBit_pos (f : Fp) : 0 < f.signBit := Nat.two_pow_pos _

/-- A code is its sign and its bits below the sign. -/
structure Fp.Splits (f : Fp) (code : ℕ) (neg : Bool) (c : ℕ) : Prop where
  lt : c < f.signBit
  eq : code = f.signed neg c

namespace Fp.Splits

variable {f : Fp} {code c : ℕ} {neg : Bool} (h : f.Splits code neg c)
include h

theorem code_lt : code < 2 ^ f.bits := by
  obtain ⟨hlt, rfl⟩ := h
  rw [f.bits_pow]
  cases neg <;> simp [Fp.signed] <;> omega

theorem sign : code / f.signBit = if neg then 1 else 0 := by
  obtain ⟨hlt, rfl⟩ := h
  cases neg
  · exact Nat.div_eq_of_lt hlt
  · exact (Nat.add_div_left _ f.signBit_pos).trans (by rw [Nat.div_eq_of_lt hlt]; rfl)

theorem negative : f.signBit ≤ code ↔ neg = true := by
  obtain ⟨hlt, rfl⟩ := h
  cases neg
  · simpa [Fp.signed] using hlt
  · simp [Fp.signed]

theorem fraction : code % 2 ^ f.fracBits = c % 2 ^ f.fracBits := by
  obtain ⟨-, rfl⟩ := h
  cases neg
  · rfl
  · show (f.signBit + c) % _ = _
    rw [f.signBit_eq, Nat.add_comm, Nat.add_mul_mod_self_right]

theorem exponent : code / 2 ^ f.fracBits % 2 ^ f.expBits = c / 2 ^ f.fracBits := by
  obtain ⟨hlt, rfl⟩ := h
  have hc : c / 2 ^ f.fracBits < 2 ^ f.expBits := by
    rw [Nat.div_lt_iff_lt_mul (Nat.two_pow_pos _), ← f.signBit_eq]
    exact hlt
  cases neg
  · exact Nat.mod_eq_of_lt hc
  · show (f.signBit + c) / _ % _ = _
    rw [f.signBit_eq, Nat.add_comm, Nat.add_mul_div_right _ _ (Nat.two_pow_pos _), Nat.add_mod_right, Nat.mod_eq_of_lt hc]

theorem below : code % f.signBit = c := by
  obtain ⟨hlt, rfl⟩ := h
  cases neg
  · exact Nat.mod_eq_of_lt hlt
  · show (f.signBit + c) % _ = _
    rw [Nat.add_mod_left, Nat.mod_eq_of_lt hlt]

/-- The value of a code by its parts. -/
theorem value : (codeValue f code : ℝ) = signedReal neg (f.magnitude c) := by
  unfold codeValue Fp.magnitude Fp.ulp
  rw [h.exponent, h.fraction, h.sign]
  have hfrac : (2 : ℝ) ^ f.fracBits ≠ 0 := by positivity
  have hz : c / 2 ^ f.fracBits = 0 → ((((c % 2 ^ f.fracBits : ℕ) : ℚ) / 2 ^ f.fracBits * 2 ^ (1 - (f.bias : ℤ)) : ℚ) : ℝ) =
      (c % 2 ^ f.fracBits : ℕ) * 2 ^ (1 - (f.bias : ℤ) - f.fracBits) := fun _ => by
    rw [sub_eq_add_neg (1 - (f.bias : ℤ)), two_zpow_add, zpow_neg, zpow_natCast]
    push_cast
    field_simp
  have hn : (((1 + ((c % 2 ^ f.fracBits : ℕ) : ℚ) / 2 ^ f.fracBits) * 2 ^ (((c / 2 ^ f.fracBits : ℕ) : ℤ) - f.bias) : ℚ) : ℝ) =
      (2 ^ f.fracBits + c % 2 ^ f.fracBits : ℕ) * 2 ^ (1 - (f.bias : ℤ) - f.fracBits + (c / 2 ^ f.fracBits : ℕ) - 1) := by
    rw [show 1 - (f.bias : ℤ) - f.fracBits + (c / 2 ^ f.fracBits : ℕ) - 1 = (((c / 2 ^ f.fracBits : ℕ) : ℤ) - f.bias) + -(f.fracBits : ℤ) by ring, two_zpow_add,
      zpow_neg, zpow_natCast]
    push_cast
    field_simp
  cases neg
  · by_cases he : c / 2 ^ f.fracBits = 0
    · simpa [he] using hz he
    · simpa [he] using hn
  · by_cases he : c / 2 ^ f.fracBits = 0
    · simpa [he] using congrArg (-·) (hz he)
    · simpa [he] using congrArg (-·) hn

end Fp.Splits

theorem Fp.splits (f : Fp) {code : ℕ} (h : code < 2 ^ f.bits) : f.Splits code (decide (f.signBit ≤ code)) (code % f.signBit) := by
  have hp := f.signBit_pos
  rw [f.bits_pow] at h
  refine ⟨Nat.mod_lt _ hp, ?_⟩
  by_cases hs : f.signBit ≤ code
  · rw [decide_eq_true hs, Nat.mod_eq_sub_mod hs, Nat.mod_eq_of_lt (by omega)]
    simp [Fp.signed]
    omega
  · rw [decide_eq_false hs, Nat.mod_eq_of_lt (by omega)]
    rfl

/-! ### Finite codes -/

/-- Under the largest finite code lie no infinities and no NaNs. -/
theorem Fp.le_maxCode_iff (f : Fp) (he : 1 ≤ f.expBits) {c : ℕ} (hc : c < f.signBit) : c ≤ f.maxCode ↔
    (f.hasInf = true → c / 2 ^ f.fracBits ≠ 2 ^ f.expBits - 1) ∧ (f.hasInf = false → f.hasNaN = true → c ≠ f.signBit - 1) := by
  have hp : 0 < 2 ^ f.fracBits := Nat.two_pow_pos _
  have htwo : 2 ≤ 2 ^ f.expBits := by
    calc 2 = 2 ^ 1 := rfl
      _ ≤ 2 ^ f.expBits := Nat.pow_le_pow_right (by decide) he
  unfold Fp.maxCode
  cases hi : f.hasInf with
  | true =>
    have hexp : c / 2 ^ f.fracBits < 2 ^ f.expBits := by
      rw [Nat.div_lt_iff_lt_mul hp, ← f.signBit_eq]
      exact hc
    have hinf : 0 < f.infCode := Nat.mul_pos (by unfold Fp.expMax; omega) hp
    have hlt : c < f.infCode ↔ c / 2 ^ f.fracBits < 2 ^ f.expBits - 1 := (Nat.div_lt_iff_lt_mul hp).symm
    simp only [if_true, reduceCtorEq, false_implies, and_true, true_implies]
    omega
  | false =>
    cases hn : f.hasNaN with
    | true =>
      simp only [Bool.false_eq_true, if_false, if_true, false_implies, true_and, true_implies]
      have : 2 ≤ f.signBit := by
        rw [f.signBit_eq]
        exact htwo.trans (Nat.le_mul_of_pos_right _ hp)
      omega
    | false =>
      simp only [Bool.false_eq_true, if_false, false_implies, true_and, implies_true, iff_true]
      omega

theorem Fp.maxCode_lt (f : Fp) : f.maxCode < f.signBit := by
  have hp := f.signBit_pos
  unfold Fp.maxCode
  split
  · unfold Fp.infCode Fp.expMax
    have : (2 ^ f.expBits - 1) * 2 ^ f.fracBits ≤ f.signBit := by
      rw [f.signBit_eq]
      exact Nat.mul_le_mul_right _ (Nat.sub_le _ _)
    omega
  · split <;> omega

/-- A code is finite as its bits below the sign are. -/
theorem Fp.Splits.finite_iff {f : Fp} (he : 1 ≤ f.expBits) {code c : ℕ} {neg : Bool} (h : f.Splits code neg c) : CodeFinite f code ↔ c ≤ f.maxCode := by
  unfold CodeFinite
  rw [h.exponent, h.below, f.le_maxCode_iff he h.lt]
  exact and_iff_right h.code_lt

/-- A finite code as the model unpacks it. -/
theorem Fp.Splits.unpack {f : Fp} (he : 1 ≤ f.expBits) {code c : ℕ} {neg : Bool} (h : f.Splits code neg c) (hf : c ≤ f.maxCode) :
    ∃ n e, unpackFp f code = .fin neg n e ∧ (n : ℝ) * 2 ^ e = f.magnitude c ∧ n < 2 ^ (f.fracBits + 1) ∧ (n < 2 ^ f.fracBits ↔ c < 2 ^ f.fracBits) := by
  obtain ⟨hinf, hnan⟩ := (f.le_maxCode_iff he h.lt).1 hf
  have hr := Nat.mod_lt c (Nat.two_pow_pos f.fracBits)
  have hneg : decide (f.signBit ≤ code) = neg := by
    rw [Bool.eq_iff_iff, decide_eq_true_iff]
    exact h.negative
  have h1 : (f.hasInf && c / 2 ^ f.fracBits == f.expMax) = false := by
    cases hi : f.hasInf
    · rfl
    · simpa [Fp.expMax] using hinf hi
  have h2 : (f.hasNaN && !f.hasInf && c == f.signBit - 1) = false := by
    cases hi : f.hasInf <;> cases hn : f.hasNaN <;> simp
    exact hnan hi hn
  unfold unpackFp
  dsimp only
  rw [Nat.mod_eq_of_lt h.code_lt, h.exponent, h.fraction, h.below, hneg, h1, h2]
  simp only [Bool.false_eq_true, if_false, beq_iff_eq]
  unfold Fp.magnitude Fp.ulp
  have hsub : c / 2 ^ f.fracBits = 0 ↔ c < 2 ^ f.fracBits := Nat.div_eq_zero_iff_lt (Nat.two_pow_pos _)
  by_cases hz : c / 2 ^ f.fracBits = 0
  · rw [if_pos hz, if_pos hz]
    exact ⟨_, _, rfl, rfl, by rw [Nat.pow_succ]; omega, by simp [hr, hsub.1 hz]⟩
  · rw [if_neg hz, if_neg hz]
    exact ⟨_, _, rfl, rfl, by rw [Nat.pow_succ]; omega, by simp [← hsub, hz]⟩

/-- The value that a finite code holds, as the model unpacks it. -/
theorem unpack_of_finite {f : Fp} (he : 1 ≤ f.expBits) {code : ℕ} (h : CodeFinite f code) :
    ∃ neg n e, unpackFp f code = .fin neg n e ∧ (codeValue f code : ℝ) = signedReal neg (n * 2 ^ e) ∧ neg = decide (f.signBit ≤ code) ∧
      n < 2 ^ (f.fracBits + 1) := by
  have hs := f.splits h.1
  obtain ⟨n, e, hu, hv, hn, -⟩ := hs.unpack he ((hs.finite_iff he).1 h)
  exact ⟨_, n, e, hu, by rw [hs.value, hv], rfl, hn⟩

/-- The largest finite value is that of the largest finite code (R67). -/
theorem Fp.Standard.maxFinite {f : Fp} (h : f.Standard) : (maxFinite f : ℝ) = f.magnitude f.maxCode := by
  unfold Spec.maxFinite Fp.maxCode
  rcases h.infinite with hi | rfl
  · obtain ⟨a, ha⟩ : ∃ a, f.expBits = a + 2 := ⟨f.expBits - 2, by have := h.exp; omega⟩
    have hp : 0 < 2 ^ f.fracBits := Nat.two_pow_pos _
    have hbias : f.bias = 2 ^ (a + 1) - 1 := by unfold Fp.bias; rw [ha]; rfl
    have htwo : 2 ≤ 2 ^ (a + 1) := by rw [Nat.pow_succ]; have := Nat.two_pow_pos a; omega
    have hcode : f.infCode - 1 = (2 * f.bias - 1) * 2 ^ f.fracBits + (2 ^ (f.fracBits + 1) - 1) := by
      have hmax : f.expMax = 2 * f.bias - 1 + 2 := by
        unfold Fp.expMax
        rw [ha, hbias, Nat.pow_succ]
        omega
      unfold Fp.infCode
      rw [hmax, Nat.add_mul, Nat.pow_succ]
      omega
    rw [if_pos hi, if_pos hi, hcode, f.magnitude_count (Nat.sub_le _ _) (.inl (by rw [Nat.pow_succ]; omega)),
      show f.ulp + ((2 * f.bias - 1 : ℕ) : ℤ) = f.bias + -(f.fracBits : ℤ) by unfold Fp.ulp; omega, two_zpow_add, zpow_neg, zpow_natCast,
      Nat.cast_sub (Nat.two_pow_pos _)]
    push_cast
    simp only [zpow_natCast]
    field_simp
    ring
  · have hm : fpE4m3.magnitude 126 = 448 := by
      rw [show 126 = 14 * 2 ^ fpE4m3.fracBits + 14 by rfl, fpE4m3.magnitude_count (by decide) (.inl (by decide))]
      norm_num [Fp.ulp, Fp.bias, fpE4m3]
    have hc : (if fpE4m3.hasInf = true then fpE4m3.infCode - 1 else if fpE4m3.hasNaN = true then fpE4m3.signBit - 2 else fpE4m3.signBit - 1) = 126 := by decide
    rw [hc, hm]
    norm_num [fpE4m3]

/-! ### `RoundTo` (R79, R80) -/

theorem Fp.splits_signed {f : Fp} {c : ℕ} (h : c < f.signBit) (neg : Bool) : f.Splits (f.signed neg c) neg c := ⟨h, rfl⟩

/-- A code of a magnitude that is finite, with its sign. -/
theorem Fp.signed_finite {f : Fp} (he : 1 ≤ f.expBits) {c : ℕ} (hc : c ≤ f.maxCode) (neg : Bool) {minus : Prop} (hneg : neg = true ↔ minus) :
    CodeFinite f (f.signed neg c) ∧ (codeValue f (f.signed neg c) : ℝ) = signedReal neg (f.magnitude c) ∧ (f.signed neg c / f.signBit = 1 ↔ minus) := by
  have hs := f.splits_signed (hc.trans_lt f.maxCode_lt) neg
  refine ⟨(hs.finite_iff he).2 hc, hs.value, ?_⟩
  rw [hs.sign, ← hneg]
  cases neg <;> simp

theorem Fp.infCode_lt (f : Fp) : f.infCode < f.signBit := by
  rw [f.signBit_eq]
  exact Nat.mul_lt_mul_of_pos_right (by unfold Fp.expMax; have := Nat.two_pow_pos f.expBits; omega) (Nat.two_pow_pos _)

theorem infinityCode_eq (f : Fp) (neg : Bool) : infinityCode f neg = f.signed neg (if f.hasInf then f.infCode else f.signBit - 1) := by
  unfold Fp.signed infinityCode Fp.infCode Fp.expMax
  cases neg <;> simp [Nat.add_comm]

/-- The result of an overflow (R80). -/
theorem overflow_result {f : Fp} (hf : f.Standard) {mode : Nat} (hm : mode ≤ 4) (sat neg : Bool) {minus : Prop} (hneg : neg = true ↔ minus) :
    let toInf := sat = false ∧ (mode = 0 ∨ mode = 4 ∨ (mode = 2 ∧ ¬minus) ∨ (mode = 3 ∧ minus))
    (toInf → ∃ s : Bool, (s = true ↔ minus) ∧ overflowCode f mode sat neg = infinityCode f s) ∧
    (¬toInf → CodeFinite f (overflowCode f mode sat neg) ∧ |codeValue f (overflowCode f mode sat neg)| = maxFinite f ∧
      (overflowCode f mode sat neg / f.signBit = 1 ↔ minus)) := by
  intro toInf
  have hcode : (toInf → overflowCode f mode sat neg = infinityCode f neg) ∧ (¬toInf → overflowCode f mode sat neg = f.signed neg f.maxCode) := by
    have hminus : minus ↔ neg = true := hneg.symm
    rw [infinityCode_eq]
    simp only [toInf, hminus]
    cases sat
    · match mode, hm with
      | 0, _ => simp [overflowCode]
      | 1, _ => simp [overflowCode]
      | 2, _ => cases neg <;> simp [overflowCode]
      | 3, _ => cases neg <;> simp [overflowCode]
      | 4, _ => simp [overflowCode]
    · simp [overflowCode]
  obtain ⟨hfin, hval, hsign⟩ := Fp.signed_finite (by have := hf.exp; omega) (le_refl f.maxCode) neg hneg
  refine ⟨fun ht => ⟨neg, hneg, hcode.1 ht⟩, fun ht => ?_⟩
  rw [hcode.2 ht]
  refine ⟨hfin, ?_, hsign⟩
  have habs : |(codeValue f (f.signed neg f.maxCode) : ℝ)| = (maxFinite f : ℝ) := by
    rw [hval, abs_signedReal, hf.maxFinite, abs_of_nonneg]
    unfold Fp.magnitude
    split <;> positivity
  exact_mod_cast habs

/-- Counts of a power of two within a format's precision, and their code: finite up to the largest value, and an overflow above. -/
theorem count_roundsTo {f : Fp} (hf : f.Standard) {mode : Nat} (hm : mode ≤ 4) (sat neg : Bool) {x : ℝ} {n : ℕ} {q : ℤ} (hq : f.ulp ≤ q)
    (hn : n ≤ 2 ^ (f.fracBits + 1)) (hl : 2 ^ f.fracBits ≤ n ∨ q = f.ulp) (hx : neg = true ↔ x < 0 ∨ (x = 0 ∧ neg = true))
    (hp : ModeChooses (GridPoint f false) (GridPoint f true) mode x (signedReal neg (n * 2 ^ q))) :
    RoundsTo f mode sat neg x
      (let code : ℤ := (q - f.ulp) * (2 ^ f.fracBits : ℕ) + n
       if code ≤ (f.maxCode : ℤ) then f.signed neg code.toNat else overflowCode f mode sat neg) := by
  obtain ⟨k, hk⟩ : ∃ k : ℕ, q = f.ulp + k := ⟨(q - f.ulp).toNat, by omega⟩
  have hcode : (q - f.ulp) * (2 ^ f.fracBits : ℕ) + n = ((k * 2 ^ f.fracBits + n : ℕ) : ℤ) := by
    rw [hk]
    push_cast
    ring
  have hmag : f.magnitude (k * 2 ^ f.fracBits + n) = n * 2 ^ q := by
    rw [hk]
    exact f.magnitude_count hn (hl.imp_right fun h => by omega)
  have habs : |signedReal neg ((n : ℝ) * 2 ^ q)| = f.magnitude (k * 2 ^ f.fracBits + n) := by rw [abs_signedReal, hmag, abs_of_nonneg (by positivity)]
  refine ⟨_, hp, ?_⟩
  dsimp only
  rw [hcode, habs, hf.maxFinite, f.magnitude_strictMono.le_iff_le, f.magnitude_strictMono.lt_iff_lt]
  refine ⟨fun hle => ?_, fun hgt => ?_⟩
  · rw [if_pos (by exact_mod_cast hle), Int.toNat_natCast, ← hmag]
    exact Fp.signed_finite (by have := hf.exp; omega) hle neg hx
  · rw [if_neg (by exact_mod_cast hgt.not_ge)]
    exact overflow_result hf hm sat neg hx

/-- A magnitude that stands above a count of powers of two has its own power between two. -/
theorem Magnitude.pos {y : ℝ} {num : Nat} {exp : ℤ} {sticky : Bool} (h : Magnitude y num exp sticky) (hn : num ≠ 0) : 0 < y := by
  have : (0 : ℝ) < num * 2 ^ exp := mul_pos (by exact_mod_cast Nat.pos_of_ne_zero hn) (two_zpow_pos exp)
  linarith [h.le]

/-- The power of two that the last fraction bit of a magnitude counts (R79). -/
def Fp.scale (f : Fp) (num : Nat) (exp : ℤ) : ℤ :=
  (if exp + (Nat.log2 num : ℤ) < 1 - (f.bias : ℤ) then 1 - (f.bias : ℤ) else exp + (Nat.log2 num : ℤ)) - (f.fracBits : ℤ)

theorem roundAt_between {exp q : ℤ} (h : exp < q) (mode : Nat) (neg : Bool) (num : Nat) (sticky : Bool) :
    roundAt mode neg num exp q sticky = num / 2 ^ (q - exp).toNat ∨ roundAt mode neg num exp q sticky = num / 2 ^ (q - exp).toNat + 1 := by
  unfold roundAt
  rw [if_neg (by omega)]
  exact (ite_eq_or_eq _ _ _).symm

/-- The magnitude rounded to its scale: a count within the format's precision, as the mode chooses. -/
theorem roundAt_result {f : Fp} (hf : f.Standard) {mode : Nat} (hm : mode ≤ 4) (neg : Bool) {y : ℝ} {num : Nat} {exp : ℤ} {sticky : Bool}
    (hy : Magnitude y num exp sticky) (hnum : num ≠ 0) (hs : sticky = true → f.fracBits < Nat.log2 num) :
    let q := f.scale num exp
    let n := roundAt mode neg num exp q sticky
    f.ulp ≤ q ∧ (2 ^ f.fracBits ≤ n ∨ q = f.ulp) ∧
      ModeChooses (GridPoint f false) (GridPoint f true) mode (signedReal neg y) (signedReal neg (n * 2 ^ q)) ∧ n ≤ 2 ^ (f.fracBits + 1) := by
  intro q n
  have hlow : 2 ^ Nat.log2 num ≤ num := Nat.log2_self_le hnum
  have hhigh : num < 2 ^ (Nat.log2 num + 1) := Nat.lt_log2_self
  have hscale : f.ulp ≤ q ∧ exp + Nat.log2 num - f.fracBits ≤ q ∧ (q = f.ulp ∨ q = exp + Nat.log2 num - f.fracBits) := by
    show f.ulp ≤ f.scale num exp ∧ _ ≤ f.scale num exp ∧ (f.scale num exp = f.ulp ∨ f.scale num exp = _)
    unfold Fp.scale Fp.ulp
    split <;> omega
  clear_value q
  obtain ⟨hq, hfine, hcase⟩ := hscale
  rcases le_or_gt q exp with hle | hlt
  · have hst : sticky = false := Bool.eq_false_iff.2 fun h => by have := hs h; omega
    have hyx : y = num * 2 ^ exp := le_antisymm (not_lt.1 fun h => by simp [hy.sticky_iff.2 h] at hst) hy.le
    have hn : n = num * 2 ^ (exp - q).toNat := if_pos hle
    have hl : 2 ^ f.fracBits ≤ n ∨ q = f.ulp := by
      refine hcase.symm.imp_left fun he => ?_
      rw [hn, show f.fracBits = Nat.log2 num + (exp - q).toNat by omega, Nat.pow_add]
      exact Nat.mul_le_mul_right _ hlow
    have hbound : n ≤ 2 ^ (f.fracBits + 1) := by
      rw [hn]
      calc num * 2 ^ (exp - q).toNat ≤ 2 ^ (Nat.log2 num + 1) * 2 ^ (exp - q).toNat := Nat.mul_le_mul_right _ hhigh.le
        _ = 2 ^ (Nat.log2 num + 1 + (exp - q).toNat) := (Nat.pow_add ..).symm
        _ ≤ 2 ^ (f.fracBits + 1) := Nat.pow_le_pow_right (by decide) (by omega)
    refine ⟨hq, hl, ?_, hbound⟩
    rw [hyx, ← roundAt_exact hle mode neg num sticky]
    refine ModeChooses.exact ?_ mode
    have := gridPoint_count hf.frac hq hbound hl (even := false) nofun
    cases neg
    · exact this
    · exact gridPoint_neg this
  · have ht : num / 2 ^ (q - exp).toNat < 2 ^ (f.fracBits + 1) := by
      rw [Nat.div_lt_iff_lt_mul (Nat.two_pow_pos _), ← Nat.pow_add]
      exact hhigh.trans_le (Nat.pow_le_pow_right (by decide) (by omega))
    have hl : 2 ^ f.fracBits ≤ num / 2 ^ (q - exp).toNat ∨ q = f.ulp := by
      refine hcase.symm.imp_left fun he => ?_
      rw [Nat.le_div_iff_mul_le (Nat.two_pow_pos _), ← Nat.pow_add, show f.fracBits + (q - exp).toNat = Nat.log2 num by omega]
      exact hlow
    refine ⟨hq, ?_, hy.roundAt hlt (gridPoint_cell hf.frac hq ht hl) hm neg, ?_⟩
    · rcases roundAt_between hlt mode neg num sticky with h | h
      · exact hl.imp_left fun hl => hl.trans h.ge
      · exact hl.imp_left fun hl => hl.trans (by show _ ≤ roundAt _ _ _ _ _ _; omega)
    · rcases roundAt_between hlt mode neg num sticky with h | h
      · exact h.le.trans ht.le
      · exact h.le.trans ht

/-- `RoundTo` of a magnitude with a sign: the code that R79 and R80 call for. -/
theorem roundTo_roundsTo {f : Fp} (hf : f.Standard) {mode : Nat} (hm : mode ≤ 4) (sat neg : Bool) {y : ℝ} {num : Nat} {exp : ℤ} {sticky : Bool}
    (hy : Magnitude y num exp sticky) (hs : sticky = true → f.fracBits < Nat.log2 num) :
    RoundsTo f mode sat neg (signedReal neg y) (roundTo f mode sat neg num exp sticky) := by
  by_cases hnum : num = 0
  · subst hnum
    have hst : sticky = false := Bool.eq_false_iff.2 fun h => by have := hs h; simp at this
    have hzero : y = 0 := by
      have h1 := hy.le
      have h2 : ¬((0 : ℕ) : ℝ) * 2 ^ exp < y := fun h => by simp [hy.sticky_iff.2 h] at hst
      rw [Nat.cast_zero, zero_mul] at h1 h2
      linarith
    have hchoice : ModeChooses (GridPoint f false) (GridPoint f true) mode (signedReal neg y) (signedReal neg ((0 : ℕ) * 2 ^ f.ulp)) := by
      have hy0 : y = (0 : ℕ) * 2 ^ f.ulp := by simp [hzero]
      rw [hy0]
      refine ModeChooses.exact ?_ mode
      have := gridPoint_count hf.frac (n := 0) (q := f.ulp) (even := false) (le_refl _) (Nat.zero_le _) (.inr rfl) nofun
      cases neg
      · exact this
      · exact gridPoint_neg this
    have hround := count_roundsTo hf hm sat neg (le_refl _) (Nat.zero_le _) (.inr rfl) (by subst hzero; cases neg <;> simp) hchoice
    unfold roundTo
    simpa [hst] using hround
  · have hpos := hy.pos hnum
    have hneg : neg = true ↔ signedReal neg y < 0 ∨ (signedReal neg y = 0 ∧ neg = true) := by
      cases neg
      · simp [hpos.le]
      · simp [hpos]
    obtain ⟨hq, hl, hchoice, hn⟩ := roundAt_result hf hm neg hy hnum hs
    unfold roundTo
    rw [if_neg (by simpa using hnum)]
    have hround := count_roundsTo hf hm sat neg hq hn hl hneg hchoice
    dsimp only at hround ⊢
    rwa [show f.scale num exp - f.ulp = f.scale num exp + f.fracBits + f.bias - 1 by unfold Fp.ulp; ring] at hround

end Sys2Proof.Machine
end

section
/-! The floating-point words on finite operands (R110, R113, R114): sums, products, quotients, roots and conversions, rounded once. -/

namespace Sys2Proof.Machine

open Sys2Proof.Spec

/-! ### The sign of an exact zero, and the size of a code -/

/-- The sign given for a zero counts for a zero alone. -/
theorem roundsTo_of_sign {f : Fp} {mode : Nat} {sat neg neg' : Bool} {x : ℝ} {code : Nat} (h : RoundsTo f mode sat neg x code) (hn : x = 0 → neg = neg') :
    RoundsTo f mode sat neg' x code := by
  have hminus : (x < 0 ∨ (x = 0 ∧ neg = true)) ↔ (x < 0 ∨ (x = 0 ∧ neg' = true)) := or_congr_right (and_congr_right fun hx => by rw [hn hx])
  unfold RoundsTo at h ⊢
  simpa only [hminus] using h

theorem infinityCode_lt (f : Fp) (neg : Bool) : infinityCode f neg < 2 ^ f.bits := by
  rw [infinityCode_eq]
  refine (f.splits_signed ?_ neg).code_lt
  have := f.signBit_pos
  split
  · exact f.infCode_lt
  · omega

/-- A rounded result fits a register. -/
theorem roundsTo_toNat {f : Fp} (hf : f.Standard) {mode : Nat} {sat neg : Bool} {x : ℝ} {code : Nat} (h : RoundsTo f mode sat neg x code) :
    (BitVec.ofNat 64 code).toNat = code := by
  have hlt : code < 2 ^ f.bits := by
    obtain ⟨p, -, hfin, hover⟩ := h
    rcases le_or_gt |p| (maxFinite f : ℝ) with hle | hgt
    · exact (hfin hle).1.1
    · by_cases hi : sat = false ∧ (mode = 0 ∨ mode = 4 ∨ (mode = 2 ∧ ¬(x < 0 ∨ (x = 0 ∧ neg = true))) ∨ (mode = 3 ∧ (x < 0 ∨ (x = 0 ∧ neg = true))))
      · obtain ⟨s, -, rfl⟩ := (hover hgt).1 hi
        exact infinityCode_lt f s
      · exact ((hover hgt).2 hi).1.1
  rw [BitVec.toNat_ofNat, Nat.mod_eq_of_lt (hlt.trans_le (Nat.pow_le_pow_right (by decide) hf.small))]

/-! ### Exact binary fractions -/

/-- What an exact binary fraction stands for. -/
noncomputable def Dy.value (a : Dy) : ℝ := a.num * 2 ^ a.exp

theorem Dy.value_add (a b : Dy) : (a.add b).value = a.value + b.value := by
  unfold Dy.add Dy.align Dy.value
  dsimp only
  split
  · next h =>
    have ha := two_zpow_toNat (le_refl a.exp)
    have hb := two_zpow_toNat h
    push_cast at ha hb ⊢
    rw [add_mul, mul_assoc, mul_assoc, ha, hb]
  · next h =>
    have ha := two_zpow_toNat (not_le.1 h).le
    have hb := two_zpow_toNat (le_refl b.exp)
    push_cast at ha hb ⊢
    rw [add_mul, mul_assoc, mul_assoc, ha, hb]

theorem FVal.dy_value (neg : Bool) (n : Nat) (e : Int) : (FVal.fin neg n e).dy.value = signedReal neg (n * 2 ^ e) := by
  cases neg <;> simp [FVal.dy, Dy.value]

section
variable {f : Fp} (hf : f.Standard) {mode : Nat} (hm : mode ≤ 4)
include hf hm

/-- A value that is held exactly. -/
theorem fin_roundsTo (sat neg : Bool) (n : Nat) (e : Int) :
    RoundsTo f mode sat neg (signedReal neg (n * 2 ^ e)) (roundTo f mode sat neg n e false) :=
  roundTo_roundsTo hf hm sat neg (Magnitude.of_exact n e) nofun

theorem roundDy_roundsTo (sat zeroNeg : Bool) (a : Dy) : RoundsTo f mode sat zeroNeg a.value (roundDy f mode sat zeroNeg a) := by
  have hval (neg : Bool) (h : a.num = if neg then -(a.num.natAbs : Int) else a.num.natAbs) : a.value = signedReal neg (a.num.natAbs * 2 ^ a.exp) := by
    unfold Dy.value
    rw [h]
    cases neg <;> simp
  unfold roundDy
  by_cases hz : a.num = 0
  · rw [if_pos hz, hval zeroNeg (by simp [hz])]
    exact fin_roundsTo hf hm sat zeroNeg _ _
  · have hsign : a.value = 0 → decide (a.num < 0) = zeroNeg := fun h => by
      refine absurd h (mul_ne_zero ?_ (two_zpow_pos _).ne')
      exact_mod_cast hz
    rw [if_neg hz]
    refine roundsTo_of_sign ?_ hsign
    have hnum : a.num = if decide (a.num < 0) then -(a.num.natAbs : Int) else a.num.natAbs := by
      by_cases h : a.num < 0
      · rw [decide_eq_true h, if_pos rfl]
        omega
      · rw [decide_eq_false h, if_neg nofun]
        omega
    rw [hval _ hnum]
    exact fin_roundsTo hf hm sat _ _ _

/-- A sum of two finite values. -/
theorem addVal_roundsTo (sat : Bool) (origin : Nat) (s1 s2 : Bool) (n1 n2 : Nat) (e1 e2 : Int) :
    RoundsTo f mode sat (if s1 = s2 then s1 else decide (mode = 3)) (signedReal s1 (n1 * 2 ^ e1) + signedReal s2 (n2 * 2 ^ e2))
      (addVal f mode sat origin (.fin s1 n1 e1) (.fin s2 n2 e2)) := by
  have hsign : zeroSumSign mode [s1, s2] = (if s1 = s2 then s1 else decide (mode = 3)) := by
    cases s1 <;> cases s2 <;> simp [zeroSumSign, beq_eq_decide]
  have hsum := roundDy_roundsTo hf hm sat (zeroSumSign mode [s1, s2]) ((FVal.fin s1 n1 e1).dy.add (FVal.fin s2 n2 e2).dy)
  rw [Dy.value_add, FVal.dy_value, FVal.dy_value] at hsum
  exact roundsTo_of_sign hsum fun _ => hsign

end

/-! ### Quotients -/

/-- A quotient, truncated below many more bits than a format holds. -/
theorem quotient_magnitude {m n : Nat} (hn : n ≠ 0) (e g : ℤ) (k : Nat) :
    Magnitude ((m : ℝ) * 2 ^ e / (n * 2 ^ g)) (m * 2 ^ k / n) (e - g - k) (m * 2 ^ k % n != 0) := by
  have hn0 : (0 : ℝ) < n := by exact_mod_cast Nat.pos_of_ne_zero hn
  have hval : (m : ℝ) * 2 ^ e / (n * 2 ^ g) = (m * 2 ^ k : ℕ) / n * 2 ^ (e - g - k) := by
    rw [zpow_sub₀ (by norm_num), zpow_sub₀ (by norm_num), zpow_natCast]
    push_cast
    have := (two_zpow_pos g).ne'
    field_simp
  have hdm : ((m * 2 ^ k : ℕ) : ℝ) = n * (m * 2 ^ k / n : ℕ) + (m * 2 ^ k % n : ℕ) := by exact_mod_cast (Nat.div_add_mod (m * 2 ^ k) n).symm
  have hquot : ((m * 2 ^ k : ℕ) : ℝ) / n = (m * 2 ^ k / n : ℕ) + (m * 2 ^ k % n : ℕ) / n := by
    rw [hdm]
    field_simp
  have hmod : ((m * 2 ^ k % n : ℕ) : ℝ) / n < 1 := by
    rw [div_lt_one hn0]
    exact_mod_cast Nat.mod_lt _ (Nat.pos_of_ne_zero hn)
  have hmod0 : (0 : ℝ) ≤ (m * 2 ^ k % n : ℕ) / n := by positivity
  have hu := two_zpow_pos (e - g - k)
  rw [hval, hquot]
  refine ⟨mul_le_mul_of_nonneg_right (by linarith) hu.le, mul_lt_mul_of_pos_right (by linarith) hu, ?_⟩
  rw [mul_lt_mul_iff_left₀ hu, lt_add_iff_pos_right, bne_iff_ne]
  constructor
  · intro h
    exact div_pos (by exact_mod_cast Nat.pos_of_ne_zero h) hn0
  · intro h hz
    simp [hz] at h

/-! ### Square roots -/

theorem sqrtDigits_spec {n k r : Nat} (hle : r * r ≤ n) (hlt : n < (r + 2 ^ k) * (r + 2 ^ k)) :
    sqrtDigits n k r * sqrtDigits n k r ≤ n ∧ n < (sqrtDigits n k r + 1) * (sqrtDigits n k r + 1) := by
  induction k generalizing r with
  | zero => exact ⟨hle, hlt⟩
  | succ k ih =>
    have hpow : r + 2 ^ (k + 1) = r + 2 ^ k + 2 ^ k := by rw [Nat.pow_succ]; omega
    rw [hpow] at hlt
    rw [sqrtDigits]
    split
    · next h => exact ih h hlt
    · next h => exact ih hle (not_le.1 h)

/-- The model's integer square root is the library's. -/
theorem natSqrt_eq (n : Nat) : natSqrt n = Nat.sqrt n := by
  have hstart : n < (0 + 2 ^ (Nat.log2 n / 2 + 1)) * (0 + 2 ^ (Nat.log2 n / 2 + 1)) := by
    rw [Nat.zero_add, ← Nat.pow_add]
    exact Nat.lt_log2_self.trans_le (Nat.pow_le_pow_right (by decide) (by omega))
  obtain ⟨hle, hlt⟩ := sqrtDigits_spec (Nat.zero_le n) hstart
  exact Nat.eq_sqrt.2 ⟨hle, hlt⟩

/-- A value with the bits of its exponent that are not halved moved into its count. -/
theorem halved_exponent {e k : ℤ} {g : Nat} (h : e = 2 * k + g) (n : Nat) : (n : ℝ) * 2 ^ e = (n * 2 ^ g : ℕ) * (2 ^ k) ^ 2 := by
  rw [h, two_zpow_add, two_mul, two_zpow_add, zpow_natCast]
  push_cast
  ring

/-- A root, truncated below many more bits than a format holds, of a value with an even exponent. -/
theorem root_magnitude (n : Nat) (e : ℤ) : Magnitude (Real.sqrt (n * (2 ^ e) ^ 2)) (Nat.sqrt n) e (Nat.sqrt n * Nat.sqrt n != n) := by
  have hu := two_zpow_pos e
  have hval : Real.sqrt ((n : ℝ) * (2 ^ e) ^ 2) = Real.sqrt n * 2 ^ e := by rw [Real.sqrt_mul (Nat.cast_nonneg n), Real.sqrt_sq hu.le]
  have hle : ((Nat.sqrt n : ℕ) : ℝ) ≤ Real.sqrt n := Real.nat_sqrt_le_real_sqrt
  have hlt : Real.sqrt n < (Nat.sqrt n : ℕ) + 1 := by
    rw [Real.sqrt_lt' (by positivity)]
    exact_mod_cast Nat.lt_succ_sqrt' n
  rw [hval]
  refine ⟨mul_le_mul_of_nonneg_right hle hu.le, mul_lt_mul_of_pos_right hlt hu, ?_⟩
  rw [mul_lt_mul_iff_left₀ hu, bne_iff_ne, Real.lt_sqrt (Nat.cast_nonneg _)]
  have hsq : Nat.sqrt n ^ 2 ≤ n := Nat.sqrt_le' n
  constructor
  · intro h
    have : Nat.sqrt n ^ 2 < n := lt_of_le_of_ne hsq (by rwa [Nat.pow_two])
    exact_mod_cast this
  · intro h he
    rw [← Nat.pow_two] at he
    have : Nat.sqrt n ^ 2 < n := by exact_mod_cast h
    omega

/-- The count and the exponent from which the model takes a root. -/
theorem root_operands {n : Nat} (hn : n ≠ 0) (e : ℤ) : ∃ (m : Nat) (k : ℤ),
    n * 2 ^ (2 * guardBits) * (if (e % 2 != 0) = true then 2 else 1) = m ∧ (if (e % 2 != 0) = true then e - 1 else e) / 2 - guardBits = k ∧
      (n : ℝ) * 2 ^ e = m * (2 ^ k) ^ 2 ∧ 2 ^ (2 * guardBits) ≤ m := by
  have hbig : 2 ^ (2 * guardBits) ≤ n * 2 ^ (2 * guardBits) := Nat.le_mul_of_pos_left _ (Nat.pos_of_ne_zero hn)
  rcases Int.emod_two_eq_zero_or_one e with h | h
  · refine ⟨_, _, rfl, rfl, ?_, ?_⟩
    · simp only [h, bne_self_eq_false, Bool.false_eq_true, if_false, mul_one]
      exact halved_exponent (by push_cast; omega) n
    · simpa [h] using hbig
  · refine ⟨_, _, rfl, rfl, ?_, ?_⟩
    · simp only [h, show ((1 : ℤ) != 0) = true from rfl, if_true, mul_assoc, ← Nat.pow_succ]
      exact halved_exponent (by push_cast; omega) n
    · simp only [h, show ((1 : ℤ) != 0) = true from rfl, if_true]
      exact hbig.trans (Nat.le_mul_of_pos_right _ (by decide))

/-! ### The words on finite operands -/

/-- A finite operand: how the model unpacks it, and what it stands for. -/
structure Operand (f : Fp) (code : Nat) (neg : Bool) (n : Nat) (e : Int) : Prop where
  unpack : unpackFp f code = .fin neg n e
  value : (codeValue f code : ℝ) = signedReal neg (n * 2 ^ e)
  sign : neg = decide (f.signBit ≤ code)
  lt : n < 2 ^ (f.fracBits + 1)

theorem Fp.Standard.operand {f : Fp} (hf : f.Standard) {code : Nat} (h : CodeFinite f code) : ∃ neg n e, Operand f code neg n e := by
  obtain ⟨neg, n, e, hu, hv, hs, hn⟩ := unpack_of_finite (by have := hf.exp; omega) h
  exact ⟨neg, n, e, hu, hv, hs, hn⟩

theorem Operand.notNaN {f : Fp} {code n : Nat} {neg : Bool} {e : Int} (h : Operand f code neg n e) : isNaN f code = false := by
  unfold isNaN
  rw [h.unpack]
  rfl

/-- The sign of a zero sum (R69). -/
def zeroSum (mode : Nat) (s t : Bool) : Bool := if s = t then s else decide (mode = 3)

section
variable {f : Fp} (hf : f.Standard) {mode : Nat} (hm : mode ≤ 4) (sat : Bool) (origin : Nat)
variable {a b c : Nat} {s1 s2 s3 : Bool} {n1 n2 n3 : Nat} {e1 e2 e3 : Int} (ha : Operand f a s1 n1 e1)
include hf hm ha

theorem fSqrt_roundsTo (h0 : 0 ≤ (codeValue f a : ℝ)) :
    RoundsTo f mode sat s1 (Real.sqrt (codeValue f a)) (fSqrt f mode sat origin a) := by
  have hnan : firstNaN f [a] = none := by simp [firstNaN, ha.notNaN]
  unfold fSqrt
  rw [hnan]
  dsimp only
  rw [ha.unpack]
  dsimp only
  rw [ha.value] at h0 ⊢
  by_cases hn : n1 = 0
  · have hz := fin_roundsTo hf hm sat s1 0 0
    rw [hn]
    simpa [signedReal, roundTo] using hz
  · have hpos : (0 : ℝ) < n1 * 2 ^ e1 := mul_pos (by exact_mod_cast Nat.pos_of_ne_zero hn) (two_zpow_pos e1)
    obtain rfl : s1 = false := by
      cases s1
      · rfl
      · rw [signedReal_true] at h0
        linarith
    rw [if_neg (by simpa using hn), if_neg nofun, natSqrt_eq]
    obtain ⟨m, k, hm', hk, hval, hbig⟩ := root_operands hn e1
    rw [hm', hk]
    have hroot := root_magnitude m k
    rw [← hval] at hroot
    refine roundTo_roundsTo hf hm sat false hroot fun _ => ?_
    have hlarge : 2 ^ guardBits ≤ Nat.sqrt m := by
      rw [Nat.le_sqrt, ← Nat.pow_add]
      exact (Nat.pow_le_pow_right (by decide) (by omega)).trans hbig
    have hlog : guardBits ≤ Nat.log2 (Nat.sqrt m) := (Nat.le_log2 (by have := Nat.two_pow_pos guardBits; omega)).2 hlarge
    have := hf.narrow
    unfold guardBits at hlog
    omega

variable (hb : Operand f b s2 n2 e2)
include hb

theorem fAdd_roundsTo : RoundsTo f mode sat (zeroSum mode s1 s2) (codeValue f a + codeValue f b) (fAdd f mode sat origin a b) := by
  have hnan : firstNaN f [a, b] = none := by simp [firstNaN, ha.notNaN, hb.notNaN]
  unfold fAdd
  rw [hnan, ha.value, hb.value]
  dsimp only
  rw [ha.unpack, hb.unpack]
  exact addVal_roundsTo hf hm sat origin s1 s2 n1 n2 e1 e2

theorem fSub_roundsTo : RoundsTo f mode sat (zeroSum mode s1 !s2) (codeValue f a - codeValue f b) (fSub f mode sat origin a b) := by
  have hnan : firstNaN f [a, b] = none := by simp [firstNaN, ha.notNaN, hb.notNaN]
  have hneg : (codeValue f a : ℝ) - codeValue f b = signedReal s1 (n1 * 2 ^ e1) + signedReal (!s2) (n2 * 2 ^ e2) := by
    rw [ha.value, hb.value]
    cases s2 <;> simp [sub_eq_add_neg]
  unfold fSub
  rw [hnan, hneg]
  dsimp only
  rw [ha.unpack, hb.unpack]
  exact addVal_roundsTo hf hm sat origin s1 (!s2) n1 n2 e1 e2

omit hf hm in
/-- A product, exactly. -/
theorem product_value : mulVal (unpackFp f a) (unpackFp f b) = some (.fin (xor s1 s2) (n1 * n2) (e1 + e2)) ∧
    (codeValue f a : ℝ) * codeValue f b = signedReal (xor s1 s2) ((n1 * n2 : ℕ) * 2 ^ (e1 + e2)) := by
  rw [ha.unpack, hb.unpack, ha.value, hb.value, two_zpow_add]
  constructor
  · cases s1 <;> cases s2 <;> rfl
  · cases s1 <;> cases s2 <;> simp <;> ring

theorem fMul_roundsTo : RoundsTo f mode sat (xor s1 s2) (codeValue f a * codeValue f b) (fMul f mode sat origin a b) := by
  have hnan : firstNaN f [a, b] = none := by simp [firstNaN, ha.notNaN, hb.notNaN]
  obtain ⟨hmul, hval⟩ := product_value ha hb
  unfold fMul
  rw [hnan, hval]
  dsimp only
  rw [hmul]
  exact fin_roundsTo hf hm sat _ _ _

theorem fDiv_roundsTo (hb0 : (codeValue f b : ℝ) ≠ 0) :
    RoundsTo f mode sat (xor s1 s2) (codeValue f a / codeValue f b) (fDiv f mode sat origin a b) := by
  have hnan : firstNaN f [a, b] = none := by simp [firstNaN, ha.notNaN, hb.notNaN]
  have hn2 : n2 ≠ 0 := by
    rintro rfl
    rw [hb.value] at hb0
    exact hb0 (by cases s2 <;> simp)
  have hval : (codeValue f a : ℝ) / codeValue f b = signedReal (xor s1 s2) (n1 * 2 ^ e1 / (n2 * 2 ^ e2)) := by
    rw [ha.value, hb.value]
    cases s1 <;> cases s2 <;> simp [neg_div, div_neg]
  unfold fDiv
  rw [hnan, hval]
  dsimp only
  rw [ha.unpack, hb.unpack]
  dsimp only [FVal.negative]
  rw [if_neg (by simpa using hn2), show (s1 != s2) = xor s1 s2 by cases s1 <;> cases s2 <;> rfl]
  refine roundTo_roundsTo hf hm sat _ (quotient_magnitude hn2 e1 e2 guardBits) fun hs => ?_
  have hn1 : 1 ≤ n1 := by
    by_contra h
    simp [show n1 = 0 by omega] at hs
  have hbig : 2 ^ (f.fracBits + 1) ≤ n1 * 2 ^ guardBits / n2 := by
    rw [Nat.le_div_iff_mul_le (Nat.pos_of_ne_zero hn2)]
    calc 2 ^ (f.fracBits + 1) * n2 ≤ 2 ^ (f.fracBits + 1) * 2 ^ (f.fracBits + 1) := Nat.mul_le_mul_left _ hb.lt.le
      _ = 2 ^ (f.fracBits + 1 + (f.fracBits + 1)) := (Nat.pow_add ..).symm
      _ ≤ 2 ^ guardBits := Nat.pow_le_pow_right (by decide) (by have := hf.narrow; unfold guardBits; omega)
      _ ≤ n1 * 2 ^ guardBits := Nat.le_mul_of_pos_left _ hn1
  exact (Nat.le_log2 (by have := Nat.two_pow_pos (f.fracBits + 1); omega)).2 hbig

variable (hc : Operand f c s3 n3 e3)
include hc

theorem fFma_roundsTo (np nc : Bool) : RoundsTo f mode sat (zeroSum mode (xor np (xor s1 s2)) (xor nc s3))
    (signedReal np (codeValue f a * codeValue f b) + signedReal nc (codeValue f c)) (fFma f mode sat np nc origin a b c) := by
  have hnan : firstNaN f [a, b, c] = none := by simp [firstNaN, ha.notNaN, hb.notNaN, hc.notNaN]
  obtain ⟨hmul, hval⟩ := product_value ha hb
  have hsum := addVal_roundsTo hf hm sat origin (xor np (xor s1 s2)) (xor nc s3) (n1 * n2) n3 (e1 + e2) e3
  have hsigned (x s : Bool) (y : ℝ) : signedReal x (signedReal s y) = signedReal (xor x s) y := by cases x <;> cases s <;> simp
  unfold fFma
  rw [hnan, hval, hc.value, hsigned, hsigned]
  dsimp only
  rw [hmul, hc.unpack]
  cases np <;> cases nc
  · simpa [FVal.negate, zeroSum] using hsum
  · simpa [FVal.negate, zeroSum] using hsum
  · simpa [FVal.negate, zeroSum] using hsum
  · simpa [FVal.negate, zeroSum] using hsum

end

end Sys2Proof.Machine
end

section
/-! The conversions of the helm and of the formats of R67 (R81, R113, R114, R204): to integers, from integers, and between formats. -/

namespace Sys2Proof.Machine

open Sys2Proof.Spec

/-! ### Infinities and NaNs of a format that has infinities -/

namespace Fp.Splits

variable {f : Fp} {code c : ℕ} {neg : Bool} (h : f.Splits code neg c) (hi : f.hasInf = true)
include h hi

/-- A code from the infinity's on. -/
theorem unpack_top (hc : f.infCode ≤ c) : unpackFp f code = if c = f.infCode then .inf neg else .nan := by
  have hp : 0 < 2 ^ f.fracBits := Nat.two_pow_pos _
  have hexp : c / 2 ^ f.fracBits = f.expMax := by
    refine Nat.div_eq_of_lt_le hc ?_
    have := h.lt
    rw [f.signBit_eq] at this
    rwa [Fp.expMax, Nat.sub_add_cancel (Nat.two_pow_pos _)]
  have hdm := Nat.div_add_mod c (2 ^ f.fracBits)
  rw [hexp, Nat.mul_comm] at hdm
  have hfr : c % 2 ^ f.fracBits = 0 ↔ c = f.infCode := by
    unfold Fp.infCode
    omega
  have hneg : decide (f.signBit ≤ code) = neg := by
    rw [Bool.eq_iff_iff, decide_eq_true_iff]
    exact h.negative
  unfold unpackFp
  dsimp only
  rw [Nat.mod_eq_of_lt h.code_lt, h.exponent, h.fraction, hexp, hi, hneg]
  simp only [beq_self_eq_true, Bool.and_self, if_true, beq_iff_eq, hfr]

theorem unpack_inf (hc : c = f.infCode) : unpackFp f code = .inf neg := by rw [h.unpack_top hi hc.ge, if_pos hc]

theorem unpack_nan (hc : f.infCode < c) : unpackFp f code = .nan := by rw [h.unpack_top hi hc.le, if_neg hc.ne']

end Fp.Splits

/-! ### To an integer (R81) -/

def IntegerPoint (p : ℝ) : Prop := ∃ k : ℤ, p = k
def EvenPoint (p : ℝ) : Prop := ∃ k : ℤ, p = 2 * k

/-- The integers are a grid with the points of every count. -/
theorem integer_cell (t : ℕ) : GridCell IntegerPoint EvenPoint 0 t where
  symm := by
    rintro _ ⟨k, rfl⟩
    exact ⟨-k, by push_cast; rfl⟩
  evenSymm := by
    rintro _ ⟨k, rfl⟩
    exact ⟨-k, by push_cast; ring⟩
  lower := ⟨t, by simp⟩
  upper := ⟨t + 1, by simp⟩
  gap := by
    rintro _ ⟨k, rfl⟩
    rw [zpow_zero, mul_one, mul_one]
    have h : |k| ≤ t ∨ (t : ℤ) + 1 ≤ |k| := by omega
    exact_mod_cast h
  evenLower h := ⟨(t / 2 : ℕ), by
    have : t = 2 * (t / 2) := by omega
    rw [zpow_zero, mul_one]
    exact_mod_cast this⟩
  evenUpper h := ⟨((t + 1) / 2 : ℕ), by
    have : t + 1 = 2 * ((t + 1) / 2) := by omega
    rw [zpow_zero, mul_one]
    exact_mod_cast this⟩

/-- A value rounded to an integer, as the mode chooses among all integers. -/
theorem roundInt_chooses {mode : Nat} (hm : mode ≤ 4) (neg : Bool) (n : Nat) (e : Int) :
    ModeChooses IntegerPoint EvenPoint mode (signedReal neg (n * 2 ^ e)) (roundInt mode neg n e) := by
  have hcount : ((roundInt mode neg n e : ℤ) : ℝ) = signedReal neg (roundAt mode neg n e 0 false * 2 ^ (0 : ℤ)) := by
    unfold roundInt
    cases neg <;> simp
  rw [hcount]
  rcases le_or_gt 0 e with he | he
  · rw [← roundAt_exact he mode neg n false, ← hcount]
    exact ModeChooses.exact ⟨_, rfl⟩ mode
  · exact (Magnitude.of_exact n e).roundAt he (integer_cell _) hm neg

theorem clampInt_eq {lo hi : ℤ} (h : lo ≤ hi) (n : ℤ) : clampInt lo hi n = max lo (min hi n) := by
  unfold clampInt
  split
  · omega
  · split <;> omega

theorem ofNat_wrapOf (x : ℤ) : BitVec.ofNat 64 (wrapOf 64 x) = BitVec.ofInt 64 x := by
  apply BitVec.eq_of_toInt_eq
  rw [BitVec.toInt_ofNat', BitVec.toInt_ofInt, wrapOf, Int.toNat_of_nonneg (Int.emod_nonneg _ (by decide))]
  exact Int.emod_bmod x (2 ^ 64)

/-- A finite value converted to a 64-bit integer. -/
theorem toIntCode_roundsToInt (signed : Bool) {mode : Nat} (hm : mode ≤ 4) (neg : Bool) (n : Nat) (e : Int) :
    RoundsToInt signed mode (signedReal neg (n * 2 ^ e)) (BitVec.ofNat 64 (toIntCode signed 64 mode (.fin neg n e))) := by
  refine ⟨_, roundInt_chooses hm neg n e, ?_⟩
  unfold toIntCode intRange
  cases signed
  · simp only [Bool.false_eq_true, if_false]
    rw [ofNat_wrapOf, clampInt_eq (by decide)]
    norm_num
  · simp only [if_true]
    rw [ofNat_wrapOf, clampInt_eq (by decide)]
    norm_num

/-! ### Between formats (R204) -/

section
variable {src dst : Nat} {f d : Fp} (hs : fmtKind src = .float f) (hd : fmtKind dst = .float d) (hne : src ≠ dst) (mode : Nat) (sat : Bool) {code : Nat}
include hs hd hne

theorem convertFmt_fin {neg : Bool} {n : Nat} {e : Int} (hu : unpackFp f code = .fin neg n e) :
    convertFmt src dst mode sat code = (roundTo d mode sat neg n e false, none) := by
  unfold convertFmt
  rw [if_neg (by simpa using hne)]
  simp only [hs, hd, hu]

theorem convertFmt_inf {neg : Bool} (hu : unpackFp f code = .inf neg) : convertFmt src dst mode sat code = (convertInf d sat neg, none) := by
  unfold convertFmt
  rw [if_neg (by simpa using hne)]
  simp only [hs, hd, hu]

end

/-- The sign of a finite code. -/
theorem Operand.sign_div {f : Fp} {code n : Nat} {neg : Bool} {e : Int} (h : Operand f code neg n e) (hc : code < 2 ^ f.bits) :
    (code / f.signBit == 1) = neg := by
  rw [(f.splits hc).sign, ← h.sign]
  cases neg <;> rfl

theorem convertFmt_finite {src dst : Nat} {f d : Fp} (hs : fmtKind src = .float f) (hd : fmtKind dst = .float d) (hne : src ≠ dst) {mode : Nat}
    (hm : mode ≤ 4) (sat : Bool) {code : Nat} (hc : CodeFinite f code) :
    RoundsTo d mode sat (code / f.signBit == 1) (codeValue f code) (convertFmt src dst mode sat code).1 := by
  obtain ⟨neg, n, e, ho⟩ := (standard_of_kind hs).operand hc
  rw [convertFmt_fin hs hd hne mode sat ho.unpack, ho.value, ho.sign_div hc.1]
  exact fin_roundsTo (standard_of_kind hd) hm sat neg n e

theorem convertFmt_infinity {src dst : Nat} {f d : Fp} (hs : fmtKind src = .float f) (hd : fmtKind dst = .float d) (hne : src ≠ dst) (mode : Nat)
    (sat : Bool) (hi : f.hasInf = true) (neg : Bool) : (convertFmt src dst mode sat (infinityCode f neg)).1 = convertInf d sat neg := by
  have hu : unpackFp f (infinityCode f neg) = .inf neg := by
    rw [infinityCode_eq, if_pos hi]
    exact (f.splits_signed f.infCode_lt neg).unpack_inf hi rfl
  rw [convertFmt_inf hs hd hne mode sat hu]

/-- An infinity converted under the saturate bit is the largest finite value of its sign (R80). -/
theorem convertInf_saturated {d : Fp} (hd : d.Standard) (neg : Bool) :
    CodeFinite d (convertInf d true neg) ∧ codeValue d (convertInf d true neg) = if neg then -maxFinite d else maxFinite d := by
  obtain ⟨hfin, hval, -⟩ := Fp.signed_finite (by have := hd.exp; omega) (le_refl d.maxCode) neg (minus := neg = true) Iff.rfl
  refine ⟨hfin, ?_⟩
  rw [← hd.maxFinite] at hval
  have hreal : (codeValue d (convertInf d true neg) : ℝ) = ((if neg then -maxFinite d else maxFinite d : ℚ) : ℝ) := by
    refine hval.trans ?_
    cases neg <;> simp
  exact_mod_cast hreal

end Sys2Proof.Machine
end

section
/-! The helm's floating-point words: what they compute and round (R109, R110, R113, R114), and how they order, compare and classify (R111, R112). This
settles O9. -/

namespace Sys2Proof.Machine

open Sys2Proof.Spec

/-! ### The operands of a word (R109) -/

theorem fpCode_lt (p : Bool) (v : W64) : fpCode p v < 2 ^ (fpOf p).bits := by
  cases p
  · exact Nat.mod_lt _ (by decide)
  · exact v.isLt

theorem fpSign_eq (p : Bool) (v : W64) : fpSign p v = decide ((fpOf p).signBit ≤ fpCode p v) := by
  have hbit (n : Nat) : v.getLsbD n = decide (v.toNat / 2 ^ n % 2 = 1) := by rw [BitVec.getLsbD, Nat.testBit_eq_decide_div_mod_eq]
  have := v.isLt
  cases p
  · refine (hbit 31).trans (decide_eq_decide.2 ?_)
    show _ ↔ 2 ^ 31 ≤ v.toNat % 2 ^ 32
    omega
  · refine (hbit 63).trans (decide_eq_decide.2 ?_)
    show _ ↔ 2 ^ 63 ≤ v.toNat
    omega

theorem fpMagnitude_eq (p : Bool) (v : W64) : fpMagnitude p v = fpCode p v % (fpOf p).signBit := by
  cases p
  · show v.toNat % 2 ^ 31 = v.toNat % 2 ^ 32 % 2 ^ 31
    omega
  · rfl

/-- An operand by its sign and the bits below it. -/
theorem fp_splits (p : Bool) (v : W64) : (fpOf p).Splits (fpCode p v) (fpSign p v) (fpMagnitude p v) := by
  rw [fpSign_eq, fpMagnitude_eq]
  exact (fpOf p).splits (fpCode_lt p v)

theorem fp_operand {p : Bool} {v : W64} (h : CodeFinite (fpOf p) (fpCode p v)) : ∃ n e, Operand (fpOf p) (fpCode p v) (fpSign p v) n e := by
  obtain ⟨neg, n, e, ho⟩ := (standard_fpOf p).operand h
  rw [fpSign_eq, ← ho.sign]
  exact ⟨n, e, ho⟩

/-! ### The words that compute or convert (R110, R113, R114) -/

theorem floatValue_value {t : Team} {i : Instr} {len : Nat} {d : GReg} {v : W64} (h : floatValue t.reg (fun p => helmOrigin p t) i = some (len, d, v)) :
    ∃ f, (∀ s, exec i s = helmValue len d f s) ∧ f t = v := by
  unfold floatValue at h
  split at h <;> cases h <;> exact ⟨_, fun _ => rfl, rfl⟩

/-- An integer is itself as a binary fraction. -/
theorem Dy.value_ofInt (n : ℤ) : (Dy.ofInt n).value = n := by simp [Dy.value, Dy.ofInt]

/-- A fused product and sum, of each sign. -/
theorem fma_roundsTo {p : Bool} {mode : Nat} (hm : mode ≤ 4) (np nc : Bool) (origin : Nat) {a b c : W64} (ha : CodeFinite (fpOf p) (fpCode p a))
    (hb : CodeFinite (fpOf p) (fpCode p b)) (hc : CodeFinite (fpOf p) (fpCode p c)) :
    RoundsTo (fpOf p) mode false (zeroSum mode (xor np (xor (fpSign p a) (fpSign p b))) (xor nc (fpSign p c)))
      (signedReal np (codeValue (fpOf p) (fpCode p a) * codeValue (fpOf p) (fpCode p b)) + signedReal nc (codeValue (fpOf p) (fpCode p c)))
      (fFma (fpOf p) mode false np nc origin (fpArg p a) (fpArg p b) (fpArg p c)) := by
  obtain ⟨_, _, ha⟩ := fp_operand ha
  obtain ⟨_, _, hb⟩ := fp_operand hb
  obtain ⟨_, _, hc⟩ := fp_operand hc
  exact fFma_roundsTo (standard_fpOf p) hm false origin ha hb hc np nc

/-- What each word writes of its exact result. -/
theorem exactResult_roundsTo {g : GReg → W64} {i : Instr} {len : Nat} {d : GReg} {f : Fp} {mode : Nat} {x : ℝ} {neg : Bool}
    (h : exactResult g i len d f mode x neg) (hm : mode ≤ 4) (o : Bool → Nat) :
    f.Standard ∧ ∃ code, floatValue g o i = some (len, d, BitVec.ofNat 64 code) ∧ RoundsTo f mode false neg x code := by
  unfold exactResult at h
  split at h
  case h_1 p d' a b =>
    obtain ⟨rfl, rfl, rfl, rfl, ha, hb, rfl, rfl⟩ := h
    obtain ⟨_, _, ha⟩ := fp_operand ha
    obtain ⟨_, _, hb⟩ := fp_operand hb
    exact ⟨standard_fpOf p, _, rfl, fAdd_roundsTo (standard_fpOf p) hm false (o p) ha hb⟩
  case h_2 p d' a b =>
    obtain ⟨rfl, rfl, rfl, rfl, ha, hb, rfl, rfl⟩ := h
    obtain ⟨_, _, ha⟩ := fp_operand ha
    obtain ⟨_, _, hb⟩ := fp_operand hb
    exact ⟨standard_fpOf p, _, rfl, fSub_roundsTo (standard_fpOf p) hm false (o p) ha hb⟩
  case h_3 p d' a b =>
    obtain ⟨rfl, rfl, rfl, rfl, ha, hb, rfl, rfl⟩ := h
    obtain ⟨_, _, ha⟩ := fp_operand ha
    obtain ⟨_, _, hb⟩ := fp_operand hb
    exact ⟨standard_fpOf p, _, rfl, fMul_roundsTo (standard_fpOf p) hm false (o p) ha hb⟩
  case h_4 p d' a b =>
    obtain ⟨rfl, rfl, rfl, rfl, ha, hb, h0, rfl, rfl⟩ := h
    obtain ⟨_, _, ha⟩ := fp_operand ha
    obtain ⟨_, _, hb⟩ := fp_operand hb
    exact ⟨standard_fpOf p, _, rfl, fDiv_roundsTo (standard_fpOf p) hm false (o p) ha hb h0⟩
  case h_5 p d' a =>
    obtain ⟨rfl, rfl, rfl, rfl, ha, h0, rfl, rfl⟩ := h
    obtain ⟨_, _, ha⟩ := fp_operand ha
    exact ⟨standard_fpOf p, _, rfl, fSqrt_roundsTo (standard_fpOf p) hm false (o p) ha h0⟩
  case h_6 p r d' a b c =>
    obtain ⟨rfl, rfl, rfl, rfl, ha, hb, hc, rfl, rfl⟩ := h
    refine ⟨standard_fpOf p, _, rfl, ?_⟩
    simpa [zeroSum] using fma_roundsTo hm false false (o p) ha hb hc
  case h_7 p r d' a b c =>
    obtain ⟨rfl, rfl, rfl, rfl, ha, hb, hc, rfl, rfl⟩ := h
    refine ⟨standard_fpOf p, _, rfl, ?_⟩
    simpa [zeroSum, sub_eq_add_neg] using fma_roundsTo hm false true (o p) ha hb hc
  case h_8 p r d' a b c =>
    obtain ⟨rfl, rfl, rfl, rfl, ha, hb, hc, rfl, rfl⟩ := h
    refine ⟨standard_fpOf p, _, rfl, ?_⟩
    simpa [zeroSum] using fma_roundsTo hm true false (o p) ha hb hc
  case h_9 p r d' a b c =>
    obtain ⟨rfl, rfl, rfl, rfl, ha, hb, hc, rfl, rfl⟩ := h
    refine ⟨standard_fpOf p, _, rfl, ?_⟩
    simpa [zeroSum, sub_eq_add_neg] using fma_roundsTo hm true true (o p) ha hb hc
  case h_10 p r d' a =>
    obtain ⟨rfl, rfl, rfl, rfl, rfl, rfl⟩ := h
    refine ⟨standard_fpOf p, _, rfl, ?_⟩
    rw [← Dy.value_ofInt]
    exact roundDy_roundsTo (standard_fpOf p) hm false false _
  case h_11 p r d' a =>
    obtain ⟨rfl, rfl, rfl, rfl, rfl, rfl⟩ := h
    refine ⟨standard_fpOf p, _, rfl, ?_⟩
    rw [← Int.cast_natCast, ← Dy.value_ofInt]
    exact roundDy_roundsTo (standard_fpOf p) hm false false _
  case h_12 r d' a =>
    obtain ⟨rfl, rfl, rfl, rfl, ha, rfl, rfl⟩ := h
    obtain ⟨_, _, ho⟩ := fp_operand ha
    refine ⟨standard_fpOf false, _, rfl, ?_⟩
    show RoundsTo _ _ _ (fpSign _ (g a)) _ _
    rw [← ho.sign_div ha.1]
    exact convertFmt_finite (src := 1) (dst := 0) rfl rfl (by decide) hm false ha
  case h_13 r d' a =>
    obtain ⟨rfl, rfl, rfl, rfl, ha, rfl, rfl⟩ := h
    obtain ⟨_, _, ho⟩ := fp_operand ha
    refine ⟨standard_fpOf true, _, rfl, ?_⟩
    show RoundsTo _ _ _ (fpSign _ (g a)) _ _
    rw [← ho.sign_div ha.1]
    exact convertFmt_finite (src := 0) (dst := 1) rfl rfl (by decide) hm false ha
  case h_14 => exact h.elim

/-! ### The order of codes (R111, R112) -/

theorem Fp.magnitude_zero (f : Fp) : f.magnitude 0 = 0 := by simp [Fp.magnitude]

/-- Two fractions as counts of one power of two. -/
theorem Dy.align_value (a b : Dy) : ∃ e : ℤ, a.value = (a.align b).1 * 2 ^ e ∧ b.value = (a.align b).2.1 * 2 ^ e := by
  have hcount (x : Dy) {e : ℤ} (h : e ≤ x.exp) : x.value = ((x.num * (2 ^ (x.exp - e).toNat : ℕ) : ℤ) : ℝ) * 2 ^ e := by
    have := two_zpow_toNat h
    unfold Dy.value
    push_cast at this ⊢
    rw [mul_assoc, this]
  exact ⟨_, hcount a (by split <;> omega), hcount b (by split <;> omega)⟩

theorem Dy.lt_iff (a b : Dy) : a.lt b = true ↔ a.value < b.value := by
  obtain ⟨e, ha, hb⟩ := a.align_value b
  rw [ha, hb, mul_lt_mul_iff_left₀ (two_zpow_pos e), Int.cast_lt]
  exact decide_eq_true_iff

theorem Dy.eq_iff (a b : Dy) : a.eq b = true ↔ a.value = b.value := by
  obtain ⟨e, ha, hb⟩ := a.align_value b
  rw [ha, hb, mul_left_inj' (two_zpow_pos e).ne', Int.cast_inj]
  exact decide_eq_true_iff

/-- The order of a number by its sign and the bits below it; both zeros have the order 0. -/
def orderKey (neg : Bool) (c : Nat) : ℤ := if neg then -(c : ℤ) else c
/-- The same with −0 below +0. -/
def strictKey (neg : Bool) (c : Nat) : ℤ := if neg then -(c : ℤ) - 1 else c

@[simp] theorem orderKey_false (c : Nat) : orderKey false c = c := rfl
@[simp] theorem orderKey_true (c : Nat) : orderKey true c = -(c : ℤ) := rfl
@[simp] theorem strictKey_false (c : Nat) : strictKey false c = c := rfl
@[simp] theorem strictKey_true (c : Nat) : strictKey true c = -(c : ℤ) - 1 := rfl

/-- Values order as their codes do. -/
theorem Fp.signedReal_lt_iff (f : Fp) (s t : Bool) (a b : Nat) :
    signedReal s (f.magnitude a) < signedReal t (f.magnitude b) ↔ orderKey s a < orderKey t b := by
  have hmono := f.magnitude_strictMono
  have hnonneg (c : Nat) : 0 ≤ f.magnitude c := by
    rw [← f.magnitude_zero]
    exact hmono.monotone (Nat.zero_le c)
  have hpos (c : Nat) : 0 < f.magnitude c ↔ 0 < c := by
    rw [← f.magnitude_zero]
    exact hmono.lt_iff_lt
  have ha := hnonneg a
  have hb := hnonneg b
  cases s <;> cases t
  · simpa using hmono.lt_iff_lt
  · simp only [signedReal_false, signedReal_true, orderKey_false, orderKey_true]
    exact iff_of_false (by linarith) (by omega)
  · simp only [signedReal_false, signedReal_true, orderKey_false, orderKey_true]
    constructor
    · intro h
      by_contra hn
      obtain ⟨rfl, rfl⟩ : a = 0 ∧ b = 0 := by omega
      simp [f.magnitude_zero] at h
    · intro h
      rcases Nat.eq_zero_or_pos a with rfl | h0
      · linarith [(hpos b).2 (by omega)]
      · linarith [(hpos a).2 h0]
  · simpa using hmono.lt_iff_lt

/-- What a code of a format with infinities holds, by its bits below the sign. -/
theorem Fp.Splits.view {f : Fp} (hf : f.Standard) (hi : f.hasInf = true) {code c : Nat} {neg : Bool} (h : f.Splits code neg c) :
    (c < f.infCode ∧ ∃ n e, unpackFp f code = .fin neg n e ∧ (FVal.fin neg n e).dy.value = signedReal neg (f.magnitude c) ∧ (n = 0 ↔ c = 0) ∧
      (n < 2 ^ f.fracBits ↔ c < 2 ^ f.fracBits)) ∨
    (c = f.infCode ∧ unpackFp f code = .inf neg) ∨ (f.infCode < c ∧ unpackFp f code = .nan) := by
  rcases lt_trichotomy c f.infCode with hc | hc | hc
  · obtain ⟨n, e, hu, hv, -, hsub⟩ := h.unpack (by have := hf.exp; omega) (show c ≤ f.maxCode by unfold Fp.maxCode; rw [if_pos hi]; omega)
    refine .inl ⟨hc, n, e, hu, by rw [FVal.dy_value, hv], ?_, hsub⟩
    have hzero : f.magnitude c = 0 ↔ c = 0 := by rw [← f.magnitude_zero, f.magnitude_strictMono.injective.eq_iff]
    rw [← hzero, ← hv, mul_eq_zero, or_iff_left (two_zpow_pos e).ne', Nat.cast_eq_zero]
  · exact .inr (.inl ⟨hc, h.unpack_inf hi hc⟩)
  · exact .inr (.inr ⟨hc, h.unpack_nan hi hc⟩)

section
variable {f : Fp} (hf : f.Standard) (hi : f.hasInf = true) {a b ca cb : Nat} {s t : Bool} (ha : f.Splits a s ca) (hb : f.Splits b t cb)
include hf hi ha

theorem isNaN_eq : isNaN f a = decide (f.infCode < ca) := by
  unfold isNaN
  rcases ha.view hf hi with ⟨hc, n, e, hu, -⟩ | ⟨hc, hu⟩ | ⟨hc, hu⟩
  · rw [hu, decide_eq_false (by omega)]
    rfl
  · rw [hu, decide_eq_false (by omega)]
    rfl
  · rw [hu, decide_eq_true hc]
    rfl

include hb

/-- The order with −0 below +0, among numbers. -/
theorem fLess_eq (hca : ca ≤ f.infCode) (hcb : cb ≤ f.infCode) : fLess f a b = decide (strictKey s ca < strictKey t cb) := by
  unfold fLess
  rcases ha.view hf hi with ⟨ha, n, e, hua, hva, hza, -⟩ | ⟨ha, hua⟩ | ⟨ha, -⟩
  · rcases hb.view hf hi with ⟨hb, m, g, hub, hvb, hzb, -⟩ | ⟨hb, hub⟩ | ⟨hb, -⟩
    · have hlt : (FVal.fin s n e).dy.lt (FVal.fin t m g).dy = decide (orderKey s ca < orderKey t cb) := by
        rw [Bool.eq_iff_iff, Dy.lt_iff, hva, hvb, f.signedReal_lt_iff, decide_eq_true_iff]
      rw [hua, hub]
      dsimp only [FVal.isZero, FVal.negative]
      rw [hlt, Bool.eq_iff_iff]
      simp only [Bool.or_eq_true, Bool.and_eq_true, decide_eq_true_iff, beq_iff_eq, hza, hzb]
      cases s <;> cases t <;> simp <;> omega
    · rw [hua, hub, Bool.eq_iff_iff, decide_eq_true_iff]
      cases s <;> cases t <;> simp <;> omega
    · omega
  · rcases hb.view hf hi with ⟨hb, m, g, hub, -⟩ | ⟨hb, hub⟩ | ⟨hb, -⟩
    · rw [hua, hub, Bool.eq_iff_iff, decide_eq_true_iff]
      cases s <;> cases t <;> simp <;> omega
    · rw [hua, hub, Bool.eq_iff_iff, decide_eq_true_iff]
      cases s <;> cases t <;> simp <;> omega
    · omega
  · omega

/-- The comparison of two codes: none with a NaN, else by the order of the codes. -/
theorem fCompare_eq : fCompare f a b = if f.infCode < ca ∨ f.infCode < cb then none else
    some (if orderKey s ca < orderKey t cb then -1 else if orderKey s ca = orderKey t cb then 0 else 1) := by
  have hinf : 0 < f.infCode := Nat.mul_pos (by unfold Fp.expMax; have := Nat.pow_le_pow_right (show 0 < 2 by decide) hf.exp; omega) (Nat.two_pow_pos _)
  unfold fCompare
  rcases ha.view hf hi with ⟨ha, n, e, hua, hva, -⟩ | ⟨ha, hua⟩ | ⟨ha, hua⟩
  · rcases hb.view hf hi with ⟨hb, m, g, hub, hvb, -⟩ | ⟨hb, hub⟩ | ⟨hb, hub⟩
    · have hlt : (FVal.fin s n e).dy.lt (FVal.fin t m g).dy = decide (orderKey s ca < orderKey t cb) := by
        rw [Bool.eq_iff_iff, Dy.lt_iff, hva, hvb, f.signedReal_lt_iff, decide_eq_true_iff]
      have heq : (FVal.fin s n e).dy.eq (FVal.fin t m g).dy = decide (orderKey s ca = orderKey t cb) := by
        rw [Bool.eq_iff_iff, Dy.eq_iff, hva, hvb, le_antisymm_iff, ← not_lt, ← not_lt, f.signedReal_lt_iff, f.signedReal_lt_iff, decide_eq_true_iff]
        omega
      rw [hua, hub, if_neg (by omega)]
      dsimp only
      rw [hlt, heq]
      simp only [decide_eq_true_iff]
    · rw [hua, hub, if_neg (by omega)]
      cases s <;> cases t <;> simp <;> omega
    · rw [hua, hub, if_pos (.inr hb)]
  · rcases hb.view hf hi with ⟨hb, m, g, hub, -⟩ | ⟨hb, hub⟩ | ⟨hb, hub⟩
    · rw [hua, hub, if_neg (by omega)]
      cases s <;> cases t <;> simp <;> omega
    · rw [hua, hub, if_neg (by omega)]
      cases s <;> cases t <;> simp <;> omega
    · rw [hua, hub, if_pos (.inr hb)]
  · rw [hua, if_pos (.inl ha)]

end

/-! ### The words that order, compare and classify -/

theorem fpOf_hasInf (p : Bool) : (fpOf p).hasInf = true := by cases p <;> rfl
theorem fpInf_eq (p : Bool) : fpInf p = (fpOf p).infCode := by cases p <;> rfl

theorem isNaN_fpArg (p : Bool) (v : W64) : isNaN (fpOf p) (fpArg p v) = fpNan p v := by
  rw [fpNan, fpInf_eq]
  exact isNaN_eq (standard_fpOf p) (fpOf_hasInf p) (fp_splits p v)

theorem fpNan_eq_false {p : Bool} {v : W64} (h : fpNan p v = false) : fpMagnitude p v ≤ (fpOf p).infCode := by
  rw [← fpInf_eq]
  exact not_lt.1 (of_decide_eq_false h)

/-- The order of numbers with −0 below +0 (R111). -/
theorem fLess_fpArg {p : Bool} {a b : W64} (ha : fpNan p a = false) (hb : fpNan p b = false) :
    fLess (fpOf p) (fpArg p a) (fpArg p b) = decide (fpStrict p a < fpStrict p b) :=
  fLess_eq (standard_fpOf p) (fpOf_hasInf p) (fp_splits p a) (fp_splits p b) (fpNan_eq_false ha) (fpNan_eq_false hb)

/-- An operand as a register holds it. -/
theorem ofNat_fpArg (p : Bool) (v : W64) : BitVec.ofNat 64 (fpArg p v % 2 ^ (fpOf p).bits) = fpBits p v := by
  rw [show fpArg p v % 2 ^ (fpOf p).bits = fpArg p v from Nat.mod_eq_of_lt (fpCode_lt p v)]
  cases p
  · apply BitVec.eq_of_toNat_eq
    show v.toNat % 2 ^ 32 % 2 ^ 64 = v.toNat &&& (2 ^ 32 - 1)
    rw [Nat.and_two_pow_sub_one_eq_mod]
    omega
  · exact (BitVec.ofNat_toNat 64 v).trans (BitVec.setWidth_eq v)

/-- A NaN operand as it is propagated (R85, R111). -/
theorem ofNat_quieted (p : Bool) (v : W64) :
    BitVec.ofNat 64 (quieted (fpOf p) (fpArg p v)) = fpBits p v ||| (if p then 0x8000000000000 else 0x400000) := by
  unfold quieted
  rw [if_pos (fpOf_hasInf p), ← ofNat_fpArg]
  show BitVec.ofNat 64 (_ ||| _) = _
  rw [BitVec.ofNat_or]
  cases p <;> rfl

/-- `fmin` and `fmax`. -/
theorem fMinMax_word (p less : Bool) (a b : W64) : BitVec.ofNat 64 (fMinMax (fpOf p) less (fpArg p a) (fpArg p b)) =
    if fpNan p a && fpNan p b then fpBits p a ||| (if p then 0x8000000000000 else 0x400000)
    else if fpNan p a then fpBits p b else if fpNan p b then fpBits p a
    else if (if less then fpStrict p b < fpStrict p a else fpStrict p a < fpStrict p b) then fpBits p b else fpBits p a := by
  unfold fMinMax
  rw [isNaN_fpArg, isNaN_fpArg]
  cases ha : fpNan p a <;> cases hb : fpNan p b
  · rw [fLess_fpArg ha hb, fLess_fpArg hb ha]
    cases less <;> simp [apply_ite (BitVec.ofNat 64), ofNat_fpArg]
  · simp [ofNat_fpArg]
  · simp [ofNat_fpArg]
  · simp [ofNat_quieted]

/-- A relation by its number, of two orders. -/
def orderRelation : Nat → ℤ → ℤ → Bool
  | 0, x, y => decide (x = y)
  | 1, x, y => decide (x < y)
  | 2, x, y => decide (x ≤ y)
  | _, _, _ => false

/-- A comparison of two numbers, or of a NaN, by the order of the codes (R112). -/
theorem floatRelation_fpArg (p : Bool) (cc : Nat) (a b : W64) : floatRelation (fpOf p) cc (fpArg p a) (fpArg p b) =
    if fpNan p a || fpNan p b then cc == 3 else orderRelation cc (fpOrder p a) (fpOrder p b) := by
  have hnan : ((fpOf p).infCode < fpMagnitude p a ∨ (fpOf p).infCode < fpMagnitude p b) ↔ (fpNan p a || fpNan p b) = true := by
    simp [fpNan, fpInf_eq]
  have hcompare : fCompare (fpOf p) (fpArg p a) (fpArg p b) = _ :=
    fCompare_eq (standard_fpOf p) (fpOf_hasInf p) (fp_splits p a) (fp_splits p b)
  rw [if_congr hnan rfl rfl] at hcompare
  change _ = ite _ _ (some (if fpOrder p a < fpOrder p b then -1 else if fpOrder p a = fpOrder p b then 0 else 1)) at hcompare
  unfold floatRelation
  rw [hcompare]
  by_cases h : (fpNan p a || fpNan p b) = true
  · rw [if_pos h, if_pos h]
  · rw [if_neg h, if_neg h]
    rcases lt_trichotomy (fpOrder p a) (fpOrder p b) with ho | ho | ho
    · match cc with
      | 0 | 1 | 2 | _ + 3 => simp [orderRelation, ho, ho.ne, ho.le]
    · match cc with
      | 0 | 1 | 2 | _ + 3 => simp [orderRelation, ho]
    · match cc with
      | 0 | 1 | 2 | _ + 3 => simp [orderRelation, ho.not_gt, ho.ne', ho.not_ge]

/-- The quiet bit of a NaN tells its two classes apart. -/
theorem quietBit_fpArg {p : Bool} {v : W64} (h : fpInf p < fpMagnitude p v) :
    (Nat.land (fpArg p v) (fpOf p).quietBit == 0) = decide (fpMagnitude p v < fpInf p + (if p then 2 ^ 52 else 2 ^ 23) / 2) := by
  have hbit (c k : Nat) : (Nat.land c (2 ^ k) == 0) = decide (c / 2 ^ k % 2 = 0) := by
    rw [Bool.eq_iff_iff, beq_iff_eq, decide_eq_true_iff, show Nat.land c (2 ^ k) = c &&& 2 ^ k from rfl, Nat.and_two_pow, Nat.testBit_eq_decide_div_mod_eq]
    rcases Nat.mod_two_eq_zero_or_one (c / 2 ^ k) with hc | hc <;> simp [hc]
  cases p
  · have h : 0xFF * 2 ^ 23 < v.toNat % 2 ^ 31 := h
    refine (hbit _ 22).trans (decide_eq_decide.2 ?_)
    show v.toNat % 2 ^ 32 / 2 ^ 22 % 2 = 0 ↔ v.toNat % 2 ^ 31 < 0xFF * 2 ^ 23 + 2 ^ 23 / 2
    omega
  · have h : 0x7FF * 2 ^ 52 < v.toNat % 2 ^ 63 := h
    refine (hbit _ 51).trans (decide_eq_decide.2 ?_)
    show v.toNat / 2 ^ 51 % 2 = 0 ↔ v.toNat % 2 ^ 63 < 0x7FF * 2 ^ 52 + 2 ^ 52 / 2
    omega

/-- The class of a code (R112). -/
theorem fClassBit_fpArg (p : Bool) (v : W64) : fClassBit (fpOf p) (fpArg p v) = fpClass p v := by
  have hone : (if p then 2 ^ 52 else 2 ^ 23) = 2 ^ (fpOf p).fracBits := by cases p <;> rfl
  have hmod : fpArg p v % 2 ^ (fpOf p).bits = fpArg p v := Nat.mod_eq_of_lt (fpCode_lt p v)
  unfold fClassBit fpClass
  dsimp only
  rw [hmod]
  rcases (fp_splits p v).view (standard_fpOf p) (fpOf_hasInf p) with ⟨hc, n, e, hu, -, hz, hsub⟩ | ⟨hc, hu⟩ | ⟨hc, hu⟩ <;> rw [← fpInf_eq] at hc
  · rw [show unpackFp (fpOf p) (fpArg p v) = _ from hu, if_neg hc.not_gt, if_neg hc.ne, hone]
    simp only [beq_iff_eq, hz, hsub]
  · rw [show unpackFp (fpOf p) (fpArg p v) = _ from hu, if_neg hc.not_gt, if_pos hc]
  · rw [show unpackFp (fpOf p) (fpArg p v) = _ from hu, if_pos hc]
    dsimp only
    rw [quietBit_fpArg hc]
    simp only [decide_eq_true_iff]

theorem boolWord_relation {n : Bool} {q : Prop} [Decidable q] : boolWord (if n then false else decide q) = if n then 0 else if q then 1 else 0 := by
  cases n <;> simp [boolWord]

theorem orderValue_value {t : Team} {i : Instr} {d : GReg} {v : W64} (h : orderValue t.reg i = some (d, v)) :
    ∃ f, (∀ s, exec i s = helmValue 4 d f s) ∧ f t = v := by
  unfold orderValue at h
  split at h
  case h_1 => cases h; exact ⟨_, fun _ => rfl, fMinMax_word _ true _ _⟩
  case h_2 => cases h; exact ⟨_, fun _ => rfl, fMinMax_word _ false _ _⟩
  case h_3 => cases h; exact ⟨_, fun _ => rfl, by rw [fClassBit_fpArg]⟩
  case h_4 => cases h; exact ⟨_, fun _ => rfl, by rw [floatRelation_fpArg]; exact boolWord_relation⟩
  case h_5 => cases h; exact ⟨_, fun _ => rfl, by rw [floatRelation_fpArg]; exact boolWord_relation⟩
  case h_6 => cases h; exact ⟨_, fun _ => rfl, by rw [floatRelation_fpArg]; exact boolWord_relation⟩
  case h_7 => cases h; exact ⟨_, fun _ => rfl, by rw [floatRelation_fpArg]; simp [boolWord, orderRelation]⟩
  case h_8 => cases h

/-! ### The obligation -/

/-- Settles O9: each word's meaning is its value, and the value is rounded once (`exactResult_roundsTo`, `toIntCode_roundsToInt`, `convertFmt_finite`). -/
theorem floatingWords : Obligations.FloatingWords := by
  refine ⟨fun s t i len d v h hp hv => ?_, ⟨fun s t i len d f mode x neg h hp hx hm => ?_, fun s t p rnd d a h hp hm hc => ?_,
    fun src dst mode sat code f d hs hd hne hm => ⟨convertFmt_finite hs hd hne hm sat, fun neg hi hcode => ?_⟩⟩, fun s t i d v h hp hv => ?_⟩
  · obtain ⟨f, he, hf⟩ := floatValue_value hv
    exact exec_value h hp (he s) hf
  · obtain ⟨hf, code, hv, hr⟩ := exactResult_roundsTo hx hm fun p => helmOrigin p t
    obtain ⟨g, he, hg⟩ := floatValue_value hv
    exact ⟨_, exec_value h hp (he s) hg, by rwa [roundsTo_toNat hf hr]⟩
  · obtain ⟨n, e, ho⟩ := fp_operand hc
    have hu : unpackFp (fpOf p) (fpArg p (t.reg a)) = .fin (fpSign p (t.reg a)) n e := ho.unpack
    rw [ho.value]
    exact ⟨⟨_, exec_value h hp rfl (by rw [hu]), toIntCode_roundsToInt true hm _ n e⟩,
      ⟨_, exec_value h hp rfl (by rw [hu]), toIntCode_roundsToInt false hm _ n e⟩⟩
  · subst hcode
    rw [convertFmt_infinity hs hd hne mode sat hi neg]
    refine ⟨fun h => ?_, fun h => ?_⟩
    · rw [h, infinityCode_eq]
      rfl
    · rw [h]
      exact convertInf_saturated (standard_of_kind hd) neg
  · obtain ⟨f, he, hf⟩ := orderValue_value hv
    exact exec_value h hp (he s) hf

end Sys2Proof.Machine
end

section
/-! Shape registers (R134 to R150): lattices and grants, trips, requests, readings, tails and settings, which settle O20. -/

namespace Sys2Proof.Machine

open Sys2Proof.Spec

/-! ### Lattices and formats (R136, R137, R142) -/

theorem latticeMN_eq (cls : Nat) : latticeMN cls = extentsMN cls := by
  match cls with
  | 0 | 1 | _ + 2 => simp [latticeMN, extentsMN]

theorem requestFormat_iff (vector : Bool) (fmt : Nat) : requestFormat vector fmt = true ↔ acceptedFormat vector fmt := by
  by_cases h : fmt < 0x13
  · unfold acceptedFormat
    cases vector <;> interval_cases fmt <;> decide
  · have htile : tileBits fmt = 0 := by
      unfold tileBits
      split_ifs <;> omega
    have hassigned : fmtAssigned fmt = false := by simp [fmtAssigned]; omega
    have hlist : ¬acceptedFormat vector fmt := by
      simp only [acceptedFormat, List.mem_cons, List.not_mem_nil, or_false]
      omega
    cases vector <;> simp [requestFormat, htile, hassigned, hlist]

/-- The K lattice of a format with element bytes. -/
theorem latticeK_eq {fmt : Nat} (h : requestFormat false fmt = true) : latticeK fmt = extentsK fmt := by
  have h : tileBits fmt ≠ 0 := by simpa [requestFormat] using h
  unfold latticeK extentsK
  unfold tileBits at h ⊢
  split_ifs at h ⊢ <;> first | rfl | omega

/-! ### Grants (R138) -/

/-- Over a rising list, the last element up to `q` is the greatest of those. -/
theorem getLast?_filter_le {q r : Nat} {l : List Nat} (hl : l.Pairwise (· < ·)) (h : (l.filter (· ≤ q)).getLast? = some r) :
    r ∈ l ∧ r ≤ q ∧ ∀ x ∈ l, x ≤ q → x ≤ r := by
  obtain ⟨before, hb⟩ := List.getLast?_eq_some_iff.1 h
  have hr : r ∈ l.filter (· ≤ q) := by simp [hb]
  obtain ⟨hmem, hle⟩ := List.mem_filter.1 hr
  refine ⟨hmem, by simpa using hle, fun x hx hxq => ?_⟩
  have hsorted : (before ++ [r]).Pairwise (· < ·) := hb ▸ hl.filter _
  have hx : x ∈ before ++ [r] := hb ▸ List.mem_filter.2 ⟨hx, by simpa using hxq⟩
  rcases List.mem_append.1 hx with hx | hx
  · exact (List.pairwise_append.1 hsorted).2.2 x hx r (List.mem_singleton_self r) |>.le
  · exact (List.mem_singleton.1 hx).le

/-- Over a rising list, the first element from `q` on is the least of those. -/
theorem find?_le {q r : Nat} {l : List Nat} (hl : l.Pairwise (· < ·)) (h : l.find? (q ≤ ·) = some r) :
    r ∈ l ∧ q ≤ r ∧ ∀ x ∈ l, q ≤ x → r ≤ x := by
  obtain ⟨hr, before, after, rfl, hbefore⟩ := List.find?_eq_some_iff_append.1 h
  refine ⟨by simp, by simpa using hr, fun x hx hqx => ?_⟩
  rcases List.mem_append.1 hx with hx | hx
  · have := hbefore x hx
    simp at this
    omega
  · rcases List.mem_cons.1 hx with rfl | hx
    · exact le_rfl
    · exact (List.pairwise_cons.1 (List.pairwise_append.1 hl).2.1).1 x hx |>.le

/-- Grant(q, P, S) is what R138 says of it, over a rising lattice. -/
theorem grantOf_granted (q : Nat) (policy : Nat) {lat : List Nat} (hl : lat.Pairwise (· < ·)) (hne : lat ≠ []) :
    Granted q policy lat (grantOf q policy lat) := by
  unfold Granted grantOf
  split
  · rfl
  match policy with
  | 0 => simp
  | 1 =>
    cases h : (lat.filter (· ≤ q)).getLast? with
    | some r =>
      obtain ⟨hr, hle, hmax⟩ := getLast?_filter_le hl h
      exact ⟨hr, .inl ⟨hle, hmax⟩⟩
    | none =>
      obtain ⟨a, rest, rfl⟩ := List.exists_cons_of_ne_nil hne
      have hbelow : ∀ x ∈ a :: rest, q < x := by simpa [List.getLast?_eq_none_iff, List.filter_eq_nil_iff, and_comm] using h
      have hleast : ∀ x ∈ a :: rest, a ≤ x := fun x hx => (List.mem_cons.1 hx).elim ge_of_eq fun hx => ((List.pairwise_cons.1 hl).1 x hx).le
      exact ⟨List.mem_cons_self, .inr ⟨hbelow, hleast⟩⟩
  | n + 2 =>
    cases h : lat.find? (q ≤ ·) with
    | some r =>
      obtain ⟨hr, hle, hmin⟩ := find?_le hl h
      exact ⟨hr, .inl ⟨hle, hmin⟩⟩
    | none =>
      obtain ⟨before, a, rfl⟩ := (List.eq_nil_or_concat' lat).resolve_left hne
      have habove : ∀ x ∈ before ++ [a], x < q := fun x hx => by simpa using List.find?_eq_none.1 h x hx
      have hgreatest : ∀ x ∈ before ++ [a], x ≤ a := fun x hx => (List.mem_append.1 hx).elim
        (fun hx => ((List.pairwise_append.1 hl).2.2 x hx a (List.mem_singleton_self a)).le) fun hx => (List.mem_singleton.1 hx).le
      rw [Option.getD_none, List.getLastD_eq_getLast?, List.getLast?_append_cons, List.getLast?_singleton, Option.getD_some]
      exact ⟨by simp, .inr ⟨habove, hgreatest⟩⟩

theorem extentsMN_rising (cls : Nat) : (extentsMN cls).Pairwise (· < ·) ∧ extentsMN cls ≠ [] := by
  match cls with
  | 0 | 1 | _ + 2 => simp [extentsMN]

theorem extentsK_rising (fmt : Nat) : (extentsK fmt).Pairwise (· < ·) ∧ extentsK fmt ≠ [] := by
  unfold extentsK
  split_ifs <;> simp

/-! ### Trips (R144) -/

theorem tripsOf_trips (len : Nat) {ext : Nat} (h : 0 < ext) : Trips len ext (tripsOf len ext).1 (tripsOf len ext).2 := by
  unfold tripsOf
  by_cases hl : len = 0
  · exact ⟨fun _ => by simp [hl], fun hn => absurd hl hn⟩
  · rw [if_neg (by omega)]
    obtain ⟨trips, htrips⟩ : ∃ n, (len + ext - 1) / ext = n := ⟨_, rfl⟩
    have hlow : trips * ext ≤ len + ext - 1 := htrips ▸ Nat.div_mul_le_self _ _
    have hhigh : len + ext - 1 < trips * ext + ext := by
      rw [← htrips]
      simpa [Nat.add_mul] using Nat.lt_div_mul_add (a := len + ext - 1) h
    have hone : 1 ≤ trips := htrips ▸ (Nat.one_le_div_iff h).2 (by omega)
    have hless : (trips - 1) * ext + ext = trips * ext := by
      rw [← Nat.succ_mul]
      congr 1
      omega
    rw [htrips]
    exact ⟨fun h0 => absurd h0 hl, fun _ => ⟨by dsimp only; omega, hone, by dsimp only; omega, by dsimp only; omega⟩⟩

/-! ### Helm words with checks -/

section
variable {s : State} {t : Team} (h : HelmTurn s t)
include h

/-- A helm word whose meaning ends in a trap with no address. -/
theorem runHelm_cause {len code : Nat} {body : Team → M Next} (hb : body t s = .error (.trap (plainCause code))) :
    runHelm len body s = .next (s.helmTrap t.key (plainCause code)) := by
  obtain ⟨hcur, hteam, hmay⟩ := h
  exact runHelm_trap hcur hteam hmay len hb fun hl => Bool.false_ne_true hl.2

theorem runHelm_done {len : Nat} {body : Team → M Next} {n : Next} {s' : State} (hb : body t s = .ok (n, s')) :
    runHelm len body s = .next (s'.retire t len n) := by
  obtain ⟨hcur, hteam, hmay⟩ := h
  exact runHelm_next hcur hteam hmay len hb

end

theorem need_cause {b : Bool} (hb : b = false) (code : Nat) (s : State) : need b code 0 s = .error (.trap (plainCause code)) := need_false hb code 0 s

theorem needWritable_ok {t : Team} {d : GReg} (h : t.mayWrite d = true) (s : State) : needWritable t d s = .ok ((), s) := need_true h cPRIV 0 s

/-! ### Requests (R138, R142) -/

/-- The fields of a register that a request leaves. -/
theorem shapeRequest_spec (cls width reqm reqn reqk : Nat) (policy td fmt : Nat) (vector : Bool) (hf : requestFormat vector fmt = true) :
    ∃ m n k, Granted reqm policy (if vector then [width] else extentsMN cls) m ∧
      (if vector then n = 1 else Granted reqn policy (extentsMN cls) n) ∧ (if vector then k = 1 else Granted reqk policy (extentsK fmt) k) ∧
      let h := shapeRequest cls width reqm reqn reqk policy td fmt vector
      h.valid = decide (m ≠ 0 ∧ n ≠ 0 ∧ k ≠ 0) ∧
        (h.grm, h.grn, h.grk) = (if policy = 0 ∧ ¬(m ≠ 0 ∧ n ≠ 0 ∧ k ≠ 0) then (0, 0, 0) else (m, n, k)) := by
  have hfields (m n k : Nat) : (m != 0 && n != 0 && k != 0) = decide (m ≠ 0 ∧ n ≠ 0 ∧ k ≠ 0) := by
    rw [Bool.eq_iff_iff]
    simp [and_assoc]
  have hgrants (m n k : Nat) : ((if (policy == 0 && !(m != 0 && n != 0 && k != 0)) = true then 0 else m),
      (if (policy == 0 && !(m != 0 && n != 0 && k != 0)) = true then 0 else n),
      (if (policy == 0 && !(m != 0 && n != 0 && k != 0)) = true then 0 else k)) =
      if policy = 0 ∧ ¬(m ≠ 0 ∧ n ≠ 0 ∧ k ≠ 0) then (0, 0, 0) else (m, n, k) := by
    have hnone : (policy == 0 && !(m != 0 && n != 0 && k != 0)) = true ↔ policy = 0 ∧ ¬(m ≠ 0 ∧ n ≠ 0 ∧ k ≠ 0) := by
      rw [hfields, Bool.and_eq_true, beq_iff_eq, Bool.not_eq_true', decide_eq_false_iff_not]
    simp only [hnone]
    split_ifs <;> rfl
  obtain ⟨hmn, hmn0⟩ := extentsMN_rising cls
  cases vector with
  | true => exact ⟨_, 1, 1, grantOf_granted reqm policy (List.pairwise_singleton _ width) (by simp), rfl, rfl, hfields _ _ _, hgrants _ _ _⟩
  | false =>
    obtain ⟨hk, hk0⟩ := extentsK_rising fmt
    unfold shapeRequest
    rw [latticeMN_eq, latticeK_eq hf]
    exact ⟨_, _, _, grantOf_granted reqm policy hmn hmn0, grantOf_granted reqn policy hmn hmn0, grantOf_granted reqk policy hk hk0,
      hfields _ _ _, hgrants _ _ _⟩

section
variable {s : State} {t : Team} (h : HelmTurn s t) {d : GReg} (hd : t.mayWrite d = true) (a : GReg) (sh : BitVec 3) (pol td : BitVec 2) (fmt : BitVec 5)
  {vector : Bool}
include h hd

theorem requestShape_format (hf : requestFormat vector fmt.toNat = false) :
    requestShape d a sh pol td fmt vector s = .next (s.helmTrap t.key (plainCause 0x14)) := by
  refine runHelm_cause h ?_
  rw [M.bind_ok (needWritable_ok hd s), M.bind_error (need_cause hf cFORMAT s)]
  rfl

theorem requestShape_grants (hf : requestFormat vector fmt.toNat = true) :
    let x := shapeRequest (s.teamClass t) t.kernel.width (bitsOf (t.reg a).toNat 23 0) (bitsOf (t.reg a).toNat 47 24) (bitsOf (t.reg a).toNat 63 48)
      pol.toNat td.toNat fmt.toNat vector
    requestShape d a sh pol td fmt vector s = .next ((s.mapTeam t.key (·.setShape sh x)).afterValue t 8 d
      (if x.valid then BitVec.ofNat 64 (x.grk * 2 ^ 48 + x.grn * 2 ^ 24 + x.grm) else 0)) := by
  intro x
  obtain ⟨-, hteam, -⟩ := id h
  have hset : (s.mapTeam t.key (·.setShape sh x)).team? t.key = some (t.setShape sh x) := State.team?_mapTeam_some hteam _ fun _ => rfl
  refine runHelm_done h ?_
  rw [M.bind_ok (needWritable_ok hd s), M.bind_ok (need_true hf cFORMAT 0 s), M.bind_ok (M.get_run s), M.bind_ok (mapTeamM_run ..),
    M.bind_ok (setG_ok hset d _ hd)]
  rfl

end

/-! ### Tails (R144) -/

section
variable {s : State} {t : Team} (h : HelmTurn s t) {d : GReg} (hd : t.mayWrite d = true) (hd1 : t.mayWrite (d + 1) = true)
  (hd2 : t.mayWrite (d + 2) = true) (a : GReg) {sh : BitVec 3}
include h hd hd1 hd2

theorem shpTail_invalid (hv : (t.shape sh).valid = false) : exec (.shpTail d a sh) s = .next (s.helmTrap t.key (plainCause 0x0A)) := by
  refine runHelm_cause h ?_
  rw [M.bind_ok (needWritable_ok hd s), M.bind_ok (needWritable_ok hd1 s), M.bind_ok (needWritable_ok hd2 s),
    M.bind_error (need_cause hv cSHAPE_FAIL s)]
  rfl

theorem shpTail_valid (hv : (t.shape sh).valid = true) : exec (.shpTail d a sh) s =
    .next (s.afterTail t d sh (tripsOf (t.reg a).toNat (t.shape sh).extent).1 (tripsOf (t.reg a).toNat (t.shape sh).extent).2) := by
  obtain ⟨-, hteam, -⟩ := id h
  have hmask (tail : Nat) : (if tail ≥ 64 then 64 else tail) = min tail 64 := by split <;> omega
  refine runHelm_done h ?_
  rw [M.bind_ok (needWritable_ok hd s), M.bind_ok (needWritable_ok hd1 s), M.bind_ok (needWritable_ok hd2 s), M.bind_ok (need_true hv cSHAPE_FAIL 0 s)]
  obtain ⟨trips, tail⟩ := tripsOf (t.reg a).toNat (t.shape sh).extent
  have h0 := State.team?_mapTeam_some hteam (·.setShape sh { t.shape sh with tailc := tail }) fun _ => rfl
  have h1 := State.team?_mapTeam_some h0 (·.setReg d (BitVec.ofNat 64 trips)) fun _ => Team.setReg_key _ _ _
  have h2 := State.team?_mapTeam_some h1 (·.setReg (d + 1) (BitVec.ofNat 64 (2 ^ (min tail 64) - 1))) fun _ => Team.setReg_key _ _ _
  dsimp only
  rw [hmask, M.bind_ok (mapTeamM_run ..), M.bind_ok (setG_ok h0 d _ hd), M.bind_ok (setG_ok h1 (d + 1) _ (by rw [Team.setReg_super]; exact hd1)),
    M.bind_ok (setG_ok h2 (d + 2) _ (by rw [Team.setReg_super, Team.setReg_super]; exact hd2))]
  rfl

end

/-! ### Settings (R150) -/

section
variable {s : State} {t : Team} (h : HelmTurn s t) (dst : BitVec 3)
include h

theorem setShapeWord_sets {f : State → Team → M Shape} {x : Shape} (hf : f s t s = .ok (x, s)) :
    setShapeWord dst f s = .next ((s.mapTeam t.key (·.setShape dst x)).retire t 8 .seq) := by
  refine runHelm_done h ?_
  rw [M.bind_ok (M.get_run s), M.bind_ok hf, M.bind_ok (mapTeamM_run ..)]
  rfl

theorem setShapeWord_traps {f : State → Team → M Shape} {code : Nat} (hf : f s t s = .error (.trap (plainCause code))) :
    setShapeWord dst f s = .next (s.helmTrap t.key (plainCause code)) := by
  refine runHelm_cause h ?_
  rw [M.bind_ok (M.get_run s), M.bind_error hf]

theorem shpSetCopy_sets (src : BitVec 3) :
    exec (.shpSetCopy dst src) s = .next ((s.mapTeam t.key (·.setShape dst (t.shape src))).retire t 8 .seq) :=
  setShapeWord_sets (f := fun _ t => pure (t.shape src)) h dst rfl

theorem shpSetClr_sets : exec (.shpSetClr dst) s = .next ((s.mapTeam t.key (·.setShape dst
    { t.shape dst with grm := 0, grn := 0, grk := 0, tailc := 0, chg := false, valid := false })).retire t 8 .seq) :=
  setShapeWord_sets (f := fun _ t => pure { t.shape dst with grm := 0, grn := 0, grk := 0, tailc := 0, chg := false, valid := false }) h dst rfl

theorem shpSetTail_sets {imm : W32} (hv : (t.shape dst).valid = true) (hi : imm.toNat ≤ (t.shape dst).extent) :
    exec (.shpSetTail dst imm) s = .next ((s.mapTeam t.key (·.setShape dst { t.shape dst with tailc := imm.toNat })).retire t 8 .seq) := by
  refine setShapeWord_sets h dst ?_
  rw [M.bind_ok (need_true (by simp [hv, hi]) cSHAPE_FAIL 0 s)]
  rfl

theorem shpSetTail_fails {imm : W32} (hv : ¬((t.shape dst).valid = true ∧ imm.toNat ≤ (t.shape dst).extent)) :
    exec (.shpSetTail dst imm) s = .next (s.helmTrap t.key (plainCause 0x0A)) := by
  refine setShapeWord_traps h dst ?_
  rw [M.bind_error (need_cause (by simpa using hv) cSHAPE_FAIL s)]
  rfl

end

/-! ### The supervisor's setting (R150) -/

theorem Team.pair_toNat (t : Team) (a : GReg) : (t.pair a).toNat = (t.reg a).toNat + (t.reg (a + 1)).toNat * 2 ^ 64 := by
  have := (t.reg a).isLt
  have := (t.reg (a + 1)).isLt
  rw [Team.pair, BitVec.toNat_ofNat, Nat.mod_eq_of_lt]
  omega

/-- The bits of an image that R150 wants at 0, and its codes that are assigned. -/
def ShapeBits (x : Nat) : Prop :=
  let y := Shape.ofImage x
  x / 2 ^ 16 % 2 ^ 14 = 0 ∧ x / 2 ^ 5 % 2 ^ 4 = 0 ∧ y.policy ≠ 3 ∧ y.td ≠ 3 ∧ ¬(y.vector = true ∧ y.td ≠ 0)

/-- A register whose grants lie in the lattice of its team, and its tail in its extent. -/
def Shape.Fits (y : Shape) (cls width : Nat) : Prop :=
  (if y.valid then (if y.vector then y.grm = width ∧ y.grn = 1 ∧ y.grk = 1
      else y.grm ∈ extentsMN cls ∧ y.grn ∈ extentsMN cls ∧ y.grk ∈ extentsK y.fmt)
    else y.grm = 0 ∧ y.grn = 0 ∧ y.grk = 0) ∧ y.tailc ≤ y.extent

theorem shapeBits_iff (x : Nat) : (bitsOf x 29 16 == 0 && bitsOf x 8 5 == 0 && (Shape.ofImage x).policy != 3 && (Shape.ofImage x).td != 3 &&
    !((Shape.ofImage x).vector && (Shape.ofImage x).td != 0)) = true ↔ ShapeBits x := by
  simp [ShapeBits, bitsOf, and_assoc, imp_iff_not_or]

theorem Shape.fits_iff {y : Shape} (hf : requestFormat y.vector y.fmt = true) (cls width : Nat) :
    ((if y.valid then y.inLattice cls width else y.grm == 0 && y.grn == 0 && y.grk == 0) && decide (y.tailc ≤ y.extent)) = true ↔ y.Fits cls width := by
  rw [Shape.Fits, Bool.and_eq_true, decide_eq_true_iff, Shape.inLattice, latticeMN_eq]
  cases y.valid with
  | false => simp [and_assoc]
  | true =>
    cases hv : y.vector with
    | true => simp [and_assoc]
    | false => simp [and_assoc, latticeK_eq (hv ▸ hf)]

section
variable {s : State} {t : Team} (h : HelmTurn s t) (dst : BitVec 3) {a : GReg} {x : Nat} (hx : (t.pair a).toNat = x)
include h

theorem shpSetLd_user (hs : t.super = false) : exec (.shpSetLd dst a) s = .next (s.helmTrap t.key (plainCause 0x03)) := by
  refine setShapeWord_traps h dst ?_
  rw [M.bind_error (need_cause hs cPRIV s)]
  rfl

variable (hs : t.super = true)
include hx hs

theorem shpSetLd_illegal (hb : ¬ShapeBits x) : exec (.shpSetLd dst a) s = .next (s.helmTrap t.key (plainCause 0x01)) := by
  refine setShapeWord_traps h dst ?_
  rw [M.bind_ok (need_true hs cPRIV 0 s), hx, M.bind_error (need_cause (by rwa [← Bool.not_eq_true, shapeBits_iff]) cILLEGAL s)]
  rfl

variable (hb : ShapeBits x)
include hb

theorem shpSetLd_format (hf : ¬acceptedFormat (Shape.ofImage x).vector (Shape.ofImage x).fmt) :
    exec (.shpSetLd dst a) s = .next (s.helmTrap t.key (plainCause 0x14)) := by
  refine setShapeWord_traps h dst ?_
  rw [M.bind_ok (need_true hs cPRIV 0 s), hx, M.bind_ok (need_true ((shapeBits_iff x).2 hb) cILLEGAL 0 s),
    M.bind_error (need_cause (by rwa [← Bool.not_eq_true, requestFormat_iff]) cFORMAT s)]
  rfl

variable (hf : acceptedFormat (Shape.ofImage x).vector (Shape.ofImage x).fmt)
include hf

theorem shpSetLd_unfit (hn : ¬(Shape.ofImage x).Fits (s.teamClass t) t.kernel.width) :
    exec (.shpSetLd dst a) s = .next (s.helmTrap t.key (plainCause 0x0A)) := by
  have hr := (requestFormat_iff _ _).2 hf
  refine setShapeWord_traps h dst ?_
  rw [M.bind_ok (need_true hs cPRIV 0 s), hx, M.bind_ok (need_true ((shapeBits_iff x).2 hb) cILLEGAL 0 s), M.bind_ok (need_true hr cFORMAT 0 s),
    M.bind_error (need_cause (by rwa [← Bool.not_eq_true, Shape.fits_iff hr]) cSHAPE_FAIL s)]
  rfl

theorem shpSetLd_sets (hn : (Shape.ofImage x).Fits (s.teamClass t) t.kernel.width) :
    exec (.shpSetLd dst a) s = .next ((s.mapTeam t.key (·.setShape dst (Shape.ofImage x))).retire t 8 .seq) := by
  have hr := (requestFormat_iff _ _).2 hf
  refine setShapeWord_sets h dst ?_
  rw [M.bind_ok (need_true hs cPRIV 0 s), hx, M.bind_ok (need_true ((shapeBits_iff x).2 hb) cILLEGAL 0 s), M.bind_ok (need_true hr cFORMAT 0 s),
    M.bind_ok (need_true ((Shape.fits_iff hr _ _).2 hn) cSHAPE_FAIL 0 s)]
  rfl

end

/-! ### The obligation -/

/-- Settles O20: the requests grant what R138 says over the lattices, and every other word by its own checks in their order. -/
theorem shapeWords : Obligations.ShapeWords := by
  unfold Obligations.ShapeWords
  refine ⟨fun s t d a sh pol td fmt vector h hd hp => ?_, fun s t d a sh h hd => ⟨⟨?_, ?_, ?_, ?_, ?_, ?_, ?_⟩, fun hd1 hd2 =>
    ⟨shpTail_invalid h hd hd1 hd2 a, fun hv hx => ⟨_, _, tripsOf_trips _ hx, shpTail_valid h hd hd1 hd2 a hv⟩⟩⟩, fun s t dst src a imm h =>
    ⟨shpSetCopy_sets h dst src, shpSetClr_sets h dst, shpSetTail_sets h dst, shpSetTail_fails h dst, shpSetLd_user h dst,
      shpSetLd_illegal h dst (t.pair_toNat a), shpSetLd_format h dst (t.pair_toNat a), shpSetLd_unfit h dst (t.pair_toNat a),
      shpSetLd_sets h dst (t.pair_toNat a)⟩⟩
  · have hi : exec (if vector then .shpReqV d a sh pol td fmt else .shpReq d a sh pol td fmt) s = requestShape d a sh pol td fmt vector s := by
      cases vector <;> rfl
    intro i q
    refine ⟨fun hf => hi.trans (requestShape_format h hd a sh pol td fmt (by rwa [← Bool.not_eq_true, requestFormat_iff])), fun hf => ?_⟩
    have hf := (requestFormat_iff _ _).2 hf
    have hm : bitsOf q 23 0 = q % 2 ^ 24 := by simp [bitsOf]
    have hn : bitsOf q 47 24 = q / 2 ^ 24 % 2 ^ 24 := rfl
    have hk : bitsOf q 63 48 = q / 2 ^ 48 := by
      have : q < 2 ^ 64 := (t.reg a).isLt
      simp only [bitsOf]
      omega
    have hword := hi.trans (requestShape_grants h hd a sh pol td fmt hf)
    rw [show (t.reg a).toNat = q from rfl, hm, hn, hk] at hword
    obtain ⟨m, n, k, hgm, hgn, hgk, hvalid, hgrants⟩ :=
      shapeRequest_spec (s.teamClass t) t.kernel.width (q % 2 ^ 24) (q / 2 ^ 24 % 2 ^ 24) (q / 2 ^ 48) pol.toNat td.toNat fmt.toNat vector hf
    exact ⟨_, m, n, k, hgm, hgn, hgk, rfl, rfl, rfl, rfl, rfl, rfl, rfl, rfl, rfl, hvalid, hgrants, hword⟩
  all_goals exact exec_value h hd rfl rfl

end Sys2Proof.Machine
end

section
/-! What the part's own accesses leave of the teams, field by field (R360, R366; log 17), and what the writing and the reading back of an image leave
(R372, R409 to R412). -/

namespace Sys2Proof.Machine

/-! ### The end of a wait for a page fill (R366) -/

/-- A wait, ended where it is for a page fill. -/
def filledWait (w : Option WaitFor) : Option WaitFor := if w = some .poolFill then none else w

def Group.filled (g : Group) : Group :=
  { g with l := { g.l with waitFor := filledWait g.l.waitFor }, s := { g.s with waitFor := filledWait g.s.waitFor }
           paths := g.paths.map fun p => { p with c := { p.c with waitFor := filledWait p.c.waitFor } } }

/-- The team when the page fills that it waits for have been served. -/
def Team.filled (t : Team) : Team := { t with waitFor := filledWait t.waitFor, groups := t.groups.map Group.filled }

@[simp] theorem filledWait_filledWait (w : Option WaitFor) : filledWait (filledWait w) = filledWait w := by
  unfold filledWait
  split
  · rfl
  · next h => rfl

theorem Team.filled_filled (t : Team) : t.filled.filled = t.filled := by simp [Team.filled, Group.filled]

theorem State.wakeFills_teams (s : State) : s.wakeFills.teams = s.teams.map Team.filled := rfl

/-- The machine after accesses of the part's own: page fills may have been served, and nothing else has come to any team; nests, posted records,
the classes that bays present, the walkers' pointers and the management registers stand. -/
structure State.Attended (s s' : State) : Prop where
  teams : s'.teams = s.teams ∨ s'.teams = s.teams.map Team.filled
  classes : ∀ n, s'.classOf n = s.classOf n
  nests : s'.nests = s.nests
  posts : s'.posts = s.posts
  lastQueues : s'.lastQueues = s.lastQueues
  mgmt : s'.mgmt = s.mgmt

namespace State.Attended

theorem frame : Frame State.Attended where
  refl _ := ⟨.inl rfl, fun _ => rfl, rfl, rfl, rfl, rfl⟩
  trans h h' := by
    refine ⟨?_, fun n => (h'.classes n).trans (h.classes n), h'.nests.trans h.nests, h'.posts.trans h.posts, h'.lastQueues.trans h.lastQueues,
      h'.mgmt.trans h.mgmt⟩
    rcases h.teams with e | e <;> rcases h'.teams with e' | e' <;> rw [e', e]
    · exact .inl rfl
    · exact .inr rfl
    · exact .inr rfl
    · exact .inr (by simp [Function.comp_def, Team.filled_filled])

theorem trans {a b c : State} (h : a.Attended b) (h' : b.Attended c) : a.Attended c := frame.trans h h'

theorem of_eq {s s' : State} (ht : s'.teams = s.teams) (hb : s'.bays = s.bays) (hn : s'.nests = s.nests) (hp : s'.posts = s.posts)
    (hq : s'.lastQueues = s.lastQueues) (hm : s'.mgmt = s.mgmt) : s.Attended s' :=
  ⟨.inl ht, fun n => by rw [State.classOf, State.classOf, State.bay?, State.bay?, hb], hn, hp, hq, hm⟩

theorem of_reached {s s' : State} (h : s.Reached s') : s.Attended s' := by
  obtain ⟨_, _, _, _, _, rfl⟩ := h
  exact of_eq rfl rfl rfl rfl rfl rfl

theorem ite {c : Prop} {_ : Decidable c} {s a b : State} (ha : s.Attended a) (hb : s.Attended b) : s.Attended (if c then a else b) := by
  split
  · exact ha
  · exact hb

theorem foldl {α : Type} {f : State → α → State} {s a : State} (ha : s.Attended a) (h : ∀ s x, State.Attended s (f s x)) (l : List α) :
    s.Attended (l.foldl f a) := by
  induction l generalizing a with
  | nil => exact ha
  | cons x l ih => exact ih (ha.trans (h a x))

/-- A team is as it was, or its page fills have been served. -/
theorem team? {s s' : State} (h : s.Attended s') {k : Nat} {t : Team} (ht : s.team? k = some t) :
    ∃ u, s'.team? k = some u ∧ (u = t ∨ u = t.filled) := by
  rcases h.teams with e | e
  · exact ⟨t, by rw [State.team?, e]; exact ht, .inl rfl⟩
  · refine ⟨t.filled, ?_, .inr rfl⟩
    rw [State.team?, e, List.find?_map]
    exact congrArg (Option.map Team.filled) ht

end State.Attended

theorem State.wakeFills_attended (s : State) : s.Attended s.wakeFills := ⟨.inr rfl, fun _ => rfl, rfl, rfl, rfl, rfl⟩

/-! ### Reads and writes -/

theorem State.readWith_attended (s : State) (p : Place) (known lifted : List Nat) (rs : List Region) (va : Option Nat) (loc n : Nat) :
    s.Attended (s.readWith p known lifted rs va loc n).2 := .of_eq rfl rfl rfl rfl rfl rfl

theorem State.readAs_attended (s : State) (p : Place) (rs : List Region) (va : Option Nat) (loc n : Nat) : s.Attended (s.readAs p rs va loc n).2 :=
  .of_eq rfl rfl rfl rfl rfl rfl

theorem State.answered_attended (s : State) (c : Nat) : s.Attended (s.answered c) := .of_eq rfl rfl rfl rfl rfl rfl

theorem State.invalidate_attended (s : State) (die aspace : Nat) (va : Option Nat) (large : Bool) : s.Attended (s.invalidate die aspace va large) :=
  .of_eq rfl rfl rfl rfl rfl rfl

theorem State.takeToken_attended (s : State) (p : Place) (loc : Nat) : s.Attended (s.takeToken p loc) := by
  unfold State.takeToken
  split
  · exact State.Attended.frame.refl s
  · extract_lets block holder
    split
    · exact .ite (State.Attended.frame.refl s) (.of_eq rfl rfl rfl rfl rfl rfl)
    · exact .of_eq rfl rfl rfl rfl rfl rfl

theorem State.writeWith_attended (s : State) (p : Place) (known lifted : List Nat) (heads : List Release) (loc : Nat) (bs : List Byte) :
    s.Attended (s.writeWith p known lifted heads loc bs).2 := by
  refine (s.takeToken_attended p loc).trans ?_
  simp only [State.writeWith]
  split <;> exact .of_eq rfl rfl rfl rfl rfl rfl

theorem State.writeAs_attended (s : State) (p : Place) (rel : Option Nat) (loc : Nat) (bs : List Byte) : s.Attended (s.writeAs p rel loc bs) := by
  have hwrite (known lifted : List Nat) (heads : List Release) := s.writeWith_attended p known lifted heads loc bs
  exact (hwrite _ _ _).trans (.of_eq rfl rfl rfl rfl rfl rfl)

/-! ### Accesses through a context (R360) -/

theorem State.fillPage_attended (s : State) (f : Fill) : s.Attended (s.fillPage f) := by
  unfold State.fillPage
  extract_lets u walks paths
  have hu : s.Attended u := State.Attended.trans (b := { s with fills := s.fills.erase f }) (.of_eq rfl rfl rfl rfl rfl rfl) (State.wakeFills_attended _)
  split
  · exact hu
  · refine .ite hu (.foldl (.foldl ?_ (fun s x => ?_) _) (fun s _ => s.invalidate_attended _ _ _ _) _)
    · exact hu.trans (.of_eq rfl rfl rfl rfl rfl rfl)
    · exact .of_eq rfl rfl rfl rfl rfl rfl

theorem State.partAddr_attended {s s' : State} {t : Team} {va loc : Nat} {k : AccessKind} (h : s.partAddr t va k = .ok (loc, s')) : s.Attended s' := by
  have hpart (u : State) {x : Nat} {u' : State} (e : partTranslate t va k u = .ok (x, u')) : u.Attended u' :=
    .of_reached ((partTranslate_within t va k).ok e)
  unfold State.partAddr at h
  cases e : partTranslate t va k s with
  | ok p =>
    rw [e] at h
    cases h
    exact hpart s e
  | error x =>
    rw [e] at h
    cases x with
    | trap c => cases h
    | fault f => cases h
    | wait w u =>
      dsimp only at h
      cases hf : u.fills.find? fun (f : Fill) => f.aspace == t.dct.aspace && f.va == va / 2 ^ 16 * 2 ^ 16 with
      | none =>
        rw [hf] at h
        cases h
      | some f =>
        rw [hf] at h
        dsimp only at h
        cases e' : partTranslate t va k (u.fillPage f) with
        | error x =>
          rw [e'] at h
          cases x <;> cases h
        | ok p =>
          rw [e'] at h
          cases h
          exact State.Attended.trans (.of_reached ((partTranslate_within t va k).wait e)) ((u.fillPage_attended f).trans (hpart _ e'))

theorem State.partWrite_attended (s : State) (t : Team) (va : Nat) (bs : List Byte) : s.Attended (s.partWrite t va bs) := by
  unfold State.partWrite
  split
  · next e => exact (State.partAddr_attended e).trans (State.writeAs_attended _ _ _ _ _)
  · exact State.Attended.frame.refl s

theorem State.writeBlock_attended (s : State) (t : Team) : s.Attended (s.writeBlock t) := by
  unfold State.writeBlock
  extract_lets bs u
  exact .ite (.of_eq rfl rfl rfl rfl rfl rfl) (State.Attended.trans (b := u) (.of_eq rfl rfl rfl rfl rfl rfl) (u.partWrite_attended _ _ _))

theorem State.partLands_attended (s : State) (t : Team) (va : Nat) (c : Cause) (bs : List Byte) : s.Attended (s.partLands t va c bs) := by
  have htick (s : State) (n : Nat) : s.Attended { s with tick := n } := .of_eq rfl rfl rfl rfl rfl rfl
  unfold State.partLands State.mayLand
  extract_lets u
  refine .ite (.ite (htick s _) ?_) (State.Attended.frame.refl s)
  dsimp only
  split
  · exact (htick s _).trans (State.writeAs_attended _ _ _ _ _)
  · exact htick s _

theorem readUnits_within {T : Cause → Prop} (p : Place) (loc n : Nat) : (readUnits p loc n).Within State.Attended T := by
  induction n generalizing loc with
  | zero => exact .pure State.Attended.frame _
  | succ n ih =>
    exact .bind State.Attended.frame (fun s => s.readAs_attended p [] none loc 8) fun _ =>
      .bind State.Attended.frame (ih _) fun _ => .pure State.Attended.frame _

theorem readDct_attended {p : Place} {c : Nat} {s s' : State} {d : Dct} (h : readDct p c s = .ok (d, s')) : s.Attended s' := by
  unfold readDct at h
  rw [M.bind_ok (M.get_run s)] at h
  obtain ⟨us, s1, hread, hlast⟩ := M.bind_eq_ok.1 h
  cases hlast
  exact (readUnits_within (T := fun _ => True) _ _ _).ok hread

/-! ### The writer of images (R409, R412) -/

theorem Writer.words_attended (w : Writer) (o : WriterOf) (loc : Nat) (ps : List (List Byte)) : w.state.Attended (w.words o loc ps).state := by
  induction ps generalizing w loc with
  | nil => exact State.Attended.frame.refl _
  | cons bs ps ih => exact (w.state.writeWith_attended ..).trans (ih { w with state := _, ids := _ } _)

theorem Writer.part_attended (w : Writer) (o : WriterOf) (sec va : Nat) (bs : List Byte) : w.state.Attended (w.part o sec va bs).state := by
  unfold Writer.part
  split
  · exact State.Attended.frame.refl _
  split
  · exact State.Attended.frame.refl _
  split
  · exact (State.partLands_attended ..).trans (State.answered_attended _ _)
  · next s e => exact (State.partAddr_attended e).trans (Writer.words_attended { w with state := s } ..)

theorem Writer.parts_attended (w : Writer) (o : WriterOf) (sec n va : Nat) (bs : List Byte) : w.state.Attended (w.parts o sec n va bs).state := by
  induction n generalizing w va bs with
  | zero => exact State.Attended.frame.refl _
  | succ n ih => exact (w.part_attended ..).trans (ih _ _ _)

theorem Writer.run_attended (w : Writer) (o : WriterOf) (sec n va : Nat) (bs : List Byte) : w.state.Attended (w.run o sec n va bs).state := by
  induction n generalizing w va bs with
  | zero => exact State.Attended.frame.refl _
  | succ n ih =>
    unfold Writer.run
    split
    · exact State.Attended.frame.refl _
    · exact (w.parts_attended ..).trans (ih _ _ _)

theorem Writer.header_attended (w : Writer) (o : WriterOf) (d h n : Nat) : w.state.Attended (w.header o d h n).state := w.parts_attended ..

theorem Writer.sections_attended (w : Writer) (o : WriterOf) (d n h : Nat) (xs : List (List Byte)) (ps : List (Nat × Nat)) :
    w.state.Attended (w.sections o d n h xs ps).1.state := by
  induction xs generalizing w n h ps with
  | nil => exact State.Attended.frame.refl _
  | cons x xs ih =>
    cases ps with
    | nil => exact State.Attended.frame.refl _
    | cons p ps =>
      obtain ⟨off, m⟩ := p
      unfold Writer.sections
      split
      · exact State.Attended.frame.refl _
      split
      · exact ih w _ _ _
      extract_lets w1 h1
      have hrun : w.state.Attended w1.state := w.run_attended ..
      split
      · exact hrun
      · exact hrun.trans ((w1.header_attended ..).trans (ih _ _ _ _))

theorem Writer.truncate_attended (w : Writer) (o : WriterOf) (d h sec va cause start : Nat) :
    w.state.Attended (w.truncate o d h sec va cause start).state := by
  unfold Writer.truncate
  extract_lets h1 w1 w2
  exact (Writer.header_attended w1 o d h1 7).trans ((Writer.header_attended _ o d h1 8).trans (Writer.header_attended _ o d h1 9))

theorem State.readStorage_attended (s : State) (p : Place) (known lifted : List Nat) (tag n : Nat) :
    s.Attended (s.readStorage p known lifted tag n).2 := by
  induction n with
  | zero => exact State.Attended.frame.refl s
  | succ n ih =>
    show s.Attended ((s.readStorage p known lifted tag n).2.readWith p known lifted [] none (locOf tag n) 1).2
    exact ih.trans (State.readWith_attended ..)

theorem State.userSegs_attended (s : State) (t : Team) : s.Attended (s.userSegs t).2 := by
  unfold State.userSegs
  extract_lets own
  split
  · exact State.Attended.frame.refl s
  split
  · exact s.answered_attended _
  · next loc u e =>
    have hu := State.partAddr_attended e
    split
    · exact hu
    · next us v e' => exact hu.trans ((readUnits_within (T := fun _ => True) _ _ _).ok e')

theorem dumpSections_attended (s : State) (t : Team) (clock : W64) : s.Attended (dumpSections s t clock).2 := by
  unfold dumpSections
  extract_lets known lifted get
  have hget (s : State) (tag : Nat) : s.Attended (get s tag).2 := s.readStorage_attended ..
  have hlast (s : State) (n : Nat) : s.Attended { s with tick := s.tick + n } := .of_eq rfl rfl rfl rfl rfl rfl
  clear_value get
  dsimp only
  exact (hget _ _).trans ((hget _ _).trans ((hget _ _).trans ((hget _ _).trans ((State.userSegs_attended _ _).trans (hlast _ _)))))

theorem readClock_within {T : Cause → Prop} (bay : Nat) : (readClock bay).Within State.Attended T := by
  have hclock (s : State) (now n : Nat) : s.Attended { s.mapBay bay fun b => { b with clock := now } with tick := n } := by
    refine ⟨.inl rfl, fun m => ?_, rfl, rfl, rfl, rfl⟩
    have hb : State.bay? { s.mapBay bay fun b => { b with clock := now } with tick := n } m = (s.mapBay bay fun b => { b with clock := now }).bay? m := rfl
    rw [State.classOf, State.classOf, hb, State.bay?_mapBay s bay (fun b => { b with clock := now }) fun _ => rfl]
    cases s.bay? m with
    | none => rfl
    | some b =>
      rw [Option.map_some]
      cases b.num == bay <;> rfl
  exact fun s => hclock s _ _

theorem State.writeDump_attended (s : State) (t : Team) (d kind stop cls : Nat) : s.Attended (s.writeDump t d kind stop cls).state := by
  unfold State.writeDump
  cases hc : readClock t.bay s with
  | error e => exact State.Attended.frame.refl s
  | ok p =>
    obtain ⟨clock, u⟩ := p
    dsimp -zeta only
    have hu : s.Attended u := (readClock_within (T := fun _ => True) t.bay).ok hc
    have hsecs := dumpSections_attended u t clock
    generalize dumpSections u t clock = sections at hsecs ⊢
    obtain ⟨secs, v⟩ := sections
    dsimp -zeta only at hsecs ⊢
    extract_lets o places h w w1 h1 w2
    have hw2 : s.Attended w2.state := hu.trans (hsecs.trans ((w.parts_attended ..).trans (w1.header_attended ..)))
    clear_value h1 w2
    have hsections := w2.sections_attended o d 1 h1 secs places
    generalize w2.sections o d 1 h1 secs places = written at hsections ⊢
    obtain ⟨w3, h2⟩ := written
    dsimp only at hsections ⊢
    have hw3 := hw2.trans hsections
    split
    · exact hw3.trans (w3.header_attended ..)
    · exact hw3
    · exact hw3.trans (w3.truncate_attended ..)

end Sys2Proof.Machine
end

section
/-! What a team keeps while its engines are stopped and its image is written (R148, R179, R372, R386, R412). -/

namespace Sys2Proof.Machine

open Sys2Proof.Spec

/-! ### What a group holds -/

/-- A group's registers, queues and accesses in flight. -/
structure Contents where
  num : Nat
  base : List (Nat × W32)
  rlog : List RegWrite
  lq : List Slot
  sq : List Slot
  flight : List Access
  blocks : List BlockView

def Group.contents (g : Group) : Contents :=
  { num := g.num, base := g.base, rlog := g.rlog, lq := g.lq, sq := g.sq, flight := g.flight, blocks := g.blocks }

theorem sameContents_iff {g h : Group} : SameContents g h ↔ h.contents = g.contents := by simp [SameContents, Group.contents]

theorem Group.mapEng_contents (g : Group) (who : Eng) (f : Engine → Engine) : (g.mapEng who f).contents = g.contents := by cases who <;> rfl

theorem Group.filled_contents (g : Group) : g.filled.contents = g.contents := rfl

theorem Group.unlatch_contents (g : Group) (who : Eng) (root : Nat) : (g.unlatch who root).contents = g.contents := by
  have htokens (l : List (Nat × Tok)) (g : Group) :
      (l.foldl (fun g x => g.mapPath root fun p => p.setCounter x.1 (x.2 :: p.counter x.1)) g).contents = g.contents := by
    induction l generalizing g with
    | nil => rfl
    | cons x l ih => exact (ih _).trans rfl
  unfold Group.unlatch
  split
  · rfl
  · split
    · rfl
    · exact (Group.mapEng_contents _ _ _).trans (htokens _ g)

/-! ### What a team holds -/

/-- All of a team but its waits, its context as the walkers read it, and what its groups hold no part of. -/
def Team.holding (t : Team) : Team × List Contents :=
  ({ t with waitFor := none, groups := [], dct := Dct.zero }, t.groups.map Group.contents)

theorem Team.filled_holding (t : Team) : t.filled.holding = t.holding := by
  simp [Team.holding, Team.filled, Function.comp_def, Group.filled_contents]

/-- A field that a team holds is the same in teams that hold the same. -/
theorem Team.of_holding {β : Type} {t u : Team} (h : u.holding = t.holding) (f : Team → β)
    (hf : ∀ t : Team, f { t with waitFor := none, groups := [], dct := Dct.zero } = f t) : f u = f t := by
  rw [← hf u, ← hf t]
  exact congrArg (fun x => f x.1) h

theorem Team.sameContents_of_holding {t u : Team} (h : u.holding = t.holding) : List.Forall₂ SameContents t.groups u.groups := by
  have hmap : t.groups.map Group.contents = u.groups.map Group.contents := (congrArg Prod.snd h).symm
  have hall : List.Forall₂ (fun g h => Group.contents g = Group.contents h) t.groups u.groups := by
    rwa [← List.forall₂_map_left_iff (R := fun a h => a = Group.contents h) (f := Group.contents),
      ← List.forall₂_map_right_iff (R := fun a b => a = b) (f := Group.contents), List.forall₂_eq_eq_eq]
  exact hall.imp fun g h e => sameContents_iff.2 e.symm

/-- The machine while a team is being saved: no team loses anything that it holds, the bays present their classes, and no record is posted. -/
structure State.Saving (s s' : State) : Prop where
  teams : s.SameTeams Team.holding s'
  classes : ∀ n, s'.classOf n = s.classOf n
  posts : s'.posts = s.posts

namespace State.Saving

theorem frame : Frame State.Saving where
  refl _ := ⟨rfl, fun _ => rfl, rfl⟩
  trans h h' := ⟨h'.teams.trans h.teams, fun n => (h'.classes n).trans (h.classes n), h'.posts.trans h.posts⟩

theorem trans {a b c : State} (h : a.Saving b) (h' : b.Saving c) : a.Saving c := frame.trans h h'

theorem of_attended {s s' : State} (h : s.Attended s') : s.Saving s' := by
  refine ⟨?_, h.classes, h.posts⟩
  rcases h.teams with e | e
  · rw [State.SameTeams, e]
  · rw [State.SameTeams, e, map_eq_of_image Team.filled_holding]

theorem foldl {α : Type} {f : State → α → State} (l : List α) (h : ∀ s, ∀ x ∈ l, State.Saving s (f s x)) (s : State) :
    s.Saving (l.foldl f s) := by
  induction l generalizing s with
  | nil => exact frame.refl s
  | cons x l ih => exact (h s x List.mem_cons_self).trans (ih (fun s y hy => h s y (List.mem_cons_of_mem x hy)) _)

theorem mapTeam (s : State) (k : Nat) (f : Team → Team) (h : ∀ t, (f t).holding = t.holding) : s.Saving (s.mapTeam k f) :=
  ⟨s.mapTeam_sameTeams k f h, fun _ => rfl, rfl⟩

theorem mapGroup (s : State) (k n : Nat) (f : Group → Group) (h : ∀ g, (f g).contents = g.contents) : s.Saving (s.mapGroup k n f) := by
  refine mapTeam s k _ fun t => ?_
  rw [Team.holding, Team.holding, map_eq_of_image fun g => ?_]
  split
  · exact h g
  · rfl

theorem team? {s s' : State} (h : s.Saving s') {k : Nat} {t : Team} (ht : s.team? k = some t) : ∃ u, s'.team? k = some u ∧ u.holding = t.holding :=
  h.teams.team? (fun _ _ e => congrArg (fun x => x.1.key) e) ht

theorem teamClass {s s' : State} (h : s.Saving s') (t : Team) : s'.teamClass t = s.teamClass t := by
  unfold State.teamClass
  rw [funext h.classes]

end State.Saving

/-! ### Engines that stop (R179) -/

/-- A meaning ends in what a wider relation holds of too. -/
theorem M.Within.mono {α : Type} {R R' : State → State → Prop} {T : Cause → Prop} {m : M α} (h : m.Within R T) (hR : ∀ s s', R s s' → R' s s') :
    m.Within R' T := by
  intro s
  have hs := h s
  revert hs
  cases m s with
  | ok p => exact hR _ _
  | error x =>
    cases x with
    | wait w u => exact hR _ _
    | trap c => exact id
    | fault e => exact id

theorem fetchText_within (t : Team) (bay : Nat) (v : View) (off n : Nat) : (fetchText t bay v off n).Within State.Attended fun _ => True := by
  have hF := State.Attended.frame
  have htranslate (va : Nat) : (translate t.dct.roots t.dct.aspace t.dctx bay false v.service .fetch va).Within State.Attended fun _ => True :=
    (translate_within _ _ _ _ _ _ _ _).anyTrap.mono fun _ _ => .of_reached
  have hread (l : Located) (n : Nat) : (readText t.place l n).Within State.Attended fun _ => True := fun s => s.readWith_attended ..
  unfold fetchText
  exact .guard hF (.raise trivial) fun _ => .guard hF (.raise trivial) fun _ => .bind hF (htranslate _) fun x =>
    .bind hF (.ite (.pure hF _) (htranslate _)) fun y => .bind hF (hread _ _) fun _ => .bind hF (hread _ _) fun _ => .pure hF _

theorem headAt_attended {t : Team} {g : Group} {entry : CqEntry} {e : Engine} {s s' : State} {head : Nat} (h : headAt t g entry e s = .ok (head, s')) :
    s.Attended s' := by
  obtain ⟨bs, s1, hbs, hlast⟩ := M.bind_eq_ok.1 h
  cases hlast
  exact (fetchText_within _ _ _ _ _).ok hbs

theorem State.passWord_saving (s : State) (team grp : Nat) (who : Eng) (entry : CqEntry) (head : Nat) : s.Saving (s.passWord team grp who entry head) :=
  .mapGroup s team grp _ fun g => g.stirred.mapEng_contents _ _

theorem State.passForeign_saving (team grp : Nat) (who : Eng) (n : Nat) (s : State) : s.Saving (State.passForeign team grp who n s) := by
  induction n generalizing s with
  | zero => exact State.Saving.frame.refl s
  | succ n ih =>
    unfold State.passForeign
    split
    · exact State.Saving.frame.refl s
    · extract_lets e
      split
      · exact State.Saving.frame.refl s
      split
      · exact State.Saving.frame.refl s
      · next hhead =>
        split
        · exact State.Saving.frame.refl s
        · exact .trans (.of_attended (headAt_attended hhead)) ((State.passWord_saving ..).trans (ih _))

/-- With no access in flight no store is held back. -/
theorem State.heldStore_quiet (s : State) (t : Team) {g : Group} (h : g.inFlight = []) (who : Eng) : s.heldStore t g who = none := by
  simp [State.heldStore, h]

theorem State.stopEngine_saving (s : State) (t : Team) {g : Group} (h : g.inFlight = []) (who : Eng) : s.Saving (s.stopEngine t g who) := by
  unfold State.stopEngine
  extract_lets u e root
  have hu : s.Saving u := by
    cases who with
    | c p => exact State.passForeign_saving ..
    | l => exact State.Saving.frame.refl s
    | s =>
      show s.Saving (match s.heldStore t g .s with | some a => _ | none => s)
      rw [s.heldStore_quiet t h]
      exact State.Saving.frame.refl s
  have hunregister : u.Saving (u.unregister (· == waiterOf t.key g.num who)) := ⟨rfl, fun _ => rfl, rfl⟩
  refine hu.trans (hunregister.trans (.mapGroup _ _ _ _ fun g => ?_))
  extract_lets g1 g2
  have h1 : g1.contents = g.contents := by
    simp only [g1]
    split
    · exact g.unlatch_contents _ _
    · rfl
  have h2 : g2.contents = g1.contents := by cases who <;> rfl
  exact (Group.mapEng_contents _ _ _).trans (h2.trans h1)

theorem State.stopEngines_saving (s : State) {t : Team} (ht : s.team? t.key = some t) (h : ∀ g ∈ t.groups, g.inFlight = []) :
    s.Saving (s.stopEngines t.key) := by
  unfold State.stopEngines
  rw [ht]
  dsimp -zeta only
  extract_lets u
  have hu : s.Saving u := .foldl _ (fun s g hg => .foldl _ (fun s who _ => by
    split
    · exact State.Saving.frame.refl s
    · exact s.stopEngine_saving t (h g hg) who) s) s
  split
  · exact hu
  · refine hu.trans (.mapTeam _ _ _ fun t => ?_)
    have hgo (l : List Eng) (g : Group) : (l.foldl (fun g e => g.mapEng e fun e => { e with halted := false, waitFor := none }) g).contents = g.contents := by
      induction l generalizing g with
      | nil => rfl
      | cons e l ih => exact (ih _).trans (g.mapEng_contents _ _)
    rw [Team.holding, Team.holding, map_eq_of_image fun g => hgo _ g]

/-! ### The image (R372, R409, R412) -/

theorem State.saveImage_saving (s : State) (t : Team) : s.Saving (s.saveImage t).state := by
  unfold State.saveImage
  cases hd : readDct t.place t.dctx s with
  | error e => exact State.Saving.frame.refl s
  | ok p =>
    obtain ⟨d, u⟩ := p
    dsimp only
    have hu : s.Saving (u.mapTeam t.key fun t => { t with dct := d }) := .trans (.of_attended (readDct_attended hd)) (.mapTeam _ _ _ fun _ => rfl)
    split
    · exact hu
    · exact hu.trans (.of_attended (State.writeDump_attended ..))

end Sys2Proof.Machine
end

section
/-! How a team leaves its bay (R383, R385, R386, R390): swap-out at a node boundary, and the full save that succeeds or fails. -/

namespace Sys2Proof.Machine

open Sys2Proof.Spec

/-! ### What a bay gets back (R223, R236, R247) -/

theorem State.dropStorage_teams (s : State) (tag : Nat) : (s.dropStorage tag).teams = s.teams := by
  unfold State.dropStorage
  split <;> rfl

theorem State.dropStorage_allots (s : State) (tag : Nat) : (s.dropStorage tag).allots ⊆ s.allots ∧
    (tag ≠ 0 → ∀ a ∈ (s.dropStorage tag).allots, a.tag ≠ tag) := by
  unfold State.dropStorage
  split
  · exact ⟨List.Subset.refl _, fun h => absurd ‹_› h⟩
  · exact ⟨List.filter_subset_self _, fun _ a ha => by simpa using (List.mem_filter.1 ha).2⟩

theorem State.dropStorages_teams (tags : List Nat) (s : State) : (tags.foldl State.dropStorage s).teams = s.teams := by
  induction tags generalizing s with
  | nil => rfl
  | cons x tags ih => exact (ih _).trans (s.dropStorage_teams x)

theorem State.dropStorages_allots (tags : List Nat) (s : State) : (tags.foldl State.dropStorage s).allots ⊆ s.allots ∧
    ∀ x ∈ tags, x ≠ 0 → ∀ a ∈ (tags.foldl State.dropStorage s).allots, a.tag ≠ x := by
  induction tags generalizing s with
  | nil => exact ⟨List.Subset.refl _, by simp⟩
  | cons y tags ih =>
    obtain ⟨hsub, hgone⟩ := s.dropStorage_allots y
    obtain ⟨hsub', hgone'⟩ := ih (s.dropStorage y)
    refine ⟨List.Subset.trans hsub' hsub, fun x hx h0 a ha => ?_⟩
    rcases List.mem_cons.1 hx with rfl | hx
    · exact hgone h0 a (hsub' ha)
    · exact hgone' x hx h0 a ha

/-- A team's descriptors have returned to their bays. -/
theorem State.returnRings_gone (s : State) (key : Nat) : ∀ r ∈ ((s.returnRings key).leaveRings key).rings, r.valid = true → r.team ≠ key := by
  intro r hr hv
  obtain ⟨r1, hr1, rfl⟩ := List.mem_map.1 hr
  obtain ⟨r0, -, rfl⟩ := List.mem_map.1 hr1
  dsimp only at hv ⊢
  split at hv
  · cases hv
  · next h =>
    rw [if_neg h]
    rintro rfl
    exact h (by simpa using hv)

/-- The team without what it held on its bays. -/
def Team.freed (t : Team) : Team :=
  { t with resident := false, pad := 0, padPartner := 0, lnd := 0, lndPartner := 0, groups := [], surrenders := [], pool := 0, poolPartner := 0
           service := none, marks := none, scWait := false, scGrant := false }

theorem State.freeBays_team? {s : State} {t u : Team} (h : s.team? t.key = some u) : (s.freeBays t).team? t.key = some u.freed := by
  unfold State.freeBays
  extract_lets s1 s2 s3
  have h3 : s3.team? t.key = some u := by
    show s1.teams.find? _ = some u
    rw [show s1.teams = s.teams from State.dropStorages_teams _ s]
    exact h
  exact State.team?_mapTeam_some h3 Team.freed fun _ => rfl

/-- Nothing on the bays is the team's any more. -/
theorem State.freeBays_gone (s : State) (t : Team) :
    (∀ x ∈ (s.freeBays t).tiles, x.team ≠ t.key) ∧ (∀ x ∈ (s.freeBays t).slots, x.team ≠ t.key) ∧
    (∀ r ∈ (s.freeBays t).rings, r.valid = true → r.team ≠ t.key) ∧
    ∀ x ∈ [t.pad, t.padPartner, t.lnd, t.lndPartner], x ≠ 0 → ∀ a ∈ (s.freeBays t).allots, a.tag ≠ x := by
  have hgone := (State.dropStorages_allots [t.pad, t.padPartner, t.lnd, t.lndPartner] s).2
  unfold State.freeBays
  generalize [t.pad, t.padPartner, t.lnd, t.lndPartner].foldl State.dropStorage s = s1 at hgone ⊢
  refine ⟨fun x hx => ?_, fun x hx => ?_, State.returnRings_gone s1 t.key, hgone⟩
  · simpa using (List.mem_filter.1 hx).2
  · simpa using (List.mem_filter.1 hx).2

/-! ### At a node boundary (R385) -/

theorem keptReg_iff (live i : Nat) : keptReg live i = true ↔ keptAtNode live i := by
  unfold keptReg keptAtNode bitOf
  simp only [Bool.or_eq_true, Bool.and_eq_true, beq_iff_eq, decide_eq_true_eq]
  omega

theorem State.swapOut_left {s : State} {t : Team} (h : s.team? t.key = some t) (r : Ready) : LeftAtNode s (s.swapOut t.key r) t r := by
  unfold State.swapOut
  rw [h]
  dsimp -zeta only
  extract_lets live s1 s2
  obtain ⟨u, hu, hsame⟩ := (State.Saving.of_attended (s.writeBlock_attended t)).team? h
  have hteam := State.team?_mapTeam_some (State.freeBays_team? (t := t) hu) (fun t => { t with
    ready := r, preempt := false, frozenClass := none, waitFor := none, g := t.g.zipIdx.map fun x => if keptReg live x.2 then x.1 else 0 }) fun _ => rfl
  have hfield {β : Type} (f : Team → β) (hf : ∀ t : Team, f { t with waitFor := none, groups := [], dct := Dct.zero } = f t) : f u = f t :=
    Team.of_holding hsame f hf
  have hreg (i : Nat) : (u.freed.g.zipIdx.map fun x => if keptReg live x.2 then x.1 else 0).getD i 0 = if keptReg live i then t.g.getD i 0 else 0 := by
    rw [show u.freed.g = t.g from hfield (·.g) fun _ => rfl]
    simp only [List.getD_eq_getElem?_getD, List.getElem?_map, List.getElem?_zipIdx, Nat.zero_add]
    cases t.g[i]? <;> simp
  obtain ⟨htiles, hslots, hrings, hallots⟩ := State.freeBays_gone (s.writeBlock t) t
  exact ⟨_, hteam, rfl, rfl, rfl, rfl, rfl, rfl, hfield (·.pc) fun _ => rfl, hfield (·.curObj) fun _ => rfl, hfield (·.tid) fun _ => rfl,
    hfield (·.stackSlot) fun _ => rfl, hfield (·.block) fun _ => rfl, hfield (·.shapes) fun _ => rfl, hfield (·.fmts) fun _ => rfl,
    hfield (·.segs) fun _ => rfl, hfield (·.rq) fun _ => rfl, hfield (·.loop) fun _ => rfl, hfield (·.mmcfg) fun _ => rfl,
    hfield (·.nanorigin) fun _ => rfl, hfield (·.subst) fun _ => rfl, fun i hi => (hreg i).trans (if_pos ((keptReg_iff _ i).2 hi)),
    fun i hi => (hreg i).trans (if_neg fun hk => hi ((keptReg_iff _ i).1 hk)), htiles, hslots, hrings, hallots⟩

/-! ### By full save (R148, R372, R386, R412) -/

/-- The team after its engines have stopped. -/
def State.stoppedTeam (s : State) (t : Team) : Team := ((s.stopEngines t.key).team? t.key).getD t

/-- The writer of its image. -/
def State.fullImage (s : State) (t : Team) : Writer := (s.stopEngines t.key).saveImage (s.stoppedTeam t)

theorem State.fullSave_of_none {s : State} {t : Team} (hf : saveFailure s t = none) (r : Ready) :
    s.fullSave t r = (s.fullImage t).state.leaveSaved (s.stoppedTeam t) r := by
  unfold State.fullSave
  extract_lets u v w
  split
  · rfl
  · next hw => exact absurd (hw.symm.trans hf) nofun

theorem State.fullSave_of_some {s : State} {t : Team} {f : Nat × Nat × Nat} (hf : saveFailure s t = some f) (r : Ready) :
    ∃ x, s.fullSave t r = (((s.fullImage t).post (s.stoppedTeam t) x).leaveRings (s.stoppedTeam t).key).mapTeam (s.stoppedTeam t).key
      fun t => { t with phase := .stopped, overdue := true, waitFor := none } := by
  unfold State.fullSave
  extract_lets u v w
  split
  · next hw => exact absurd (hw.symm.trans hf) nofun
  · exact ⟨_, rfl⟩

theorem Writer.post_team? (w : Writer) (t : Team) (r : RecordFields) (key k : Nat) : ((w.post t r).leaveRings key).team? k = w.state.team? k := rfl

theorem Writer.post_posts (w : Writer) (t : Team) (r : RecordFields) (key : Nat) (f : Team → Team) :
    (((w.post t r).leaveRings key).mapTeam key f).posts.length = w.state.posts.length + 1 :=
  List.length_append

theorem State.leaveSaved_team? {s : State} {t u : Team} (h : s.team? t.key = some u) (r : Ready) : ∃ image rings, (s.leaveSaved t r).team? t.key = some
    { u with resident := false, ready := r, image := image, keptRings := rings, frozenClass := some (s.teamClass u), preempt := false, overdue := false,
             marks := none, scWait := false, scGrant := false } := by
  unfold State.leaveSaved
  extract_lets d rings s1 away s2
  have h2 : s2.team? t.key = some u := h
  exact ⟨_, _, State.team?_mapTeam_some h2 (fun t => { t with
    resident := false, ready := r, image := d.imageOf t.tid, keptRings := rings, frozenClass := some (s2.teamClass t)
    preempt := false, overdue := false, marks := none, scWait := false, scGrant := false }) fun _ => rfl⟩

theorem State.leaveSaved_gone (s : State) (t : Team) (r : Ready) : ∀ x ∈ (s.leaveSaved t r).rings, x.valid = true → x.team ≠ t.key :=
  s.returnRings_gone t.key

section
variable {s : State} {t : Team} (h : s.team? t.key = some t) (hs : s.still t = true)
include h hs

/-- Up to its end a full save only saves: the team is there with all that it held. -/
theorem State.fullImage_saving : s.Saving (s.fullImage t).state ∧ (s.stoppedTeam t).holding = t.holding := by
  have hquiet : ∀ g ∈ t.groups, g.inFlight = [] := by
    have hcalm : s.calm t = true := (Bool.and_eq_true_iff.1 hs).1
    unfold State.calm at hcalm
    simp only [Bool.and_eq_true, List.all_eq_true, List.isEmpty_iff] at hcalm
    exact hcalm.1.1
  have hstop := s.stopEngines_saving h hquiet
  obtain ⟨u, hu, hsame⟩ := hstop.team? h
  refine ⟨hstop.trans (State.saveImage_saving _ _), ?_⟩
  rw [State.stoppedTeam, hu]
  exact hsame

theorem State.fullSave_left (hf : saveFailure s t = none) (r : Ready) : LeftSaved s (s.fullSave t r) t r := by
  obtain ⟨hsaving, hstopped⟩ := State.fullImage_saving h hs
  have hkey : (s.stoppedTeam t).key = t.key := Team.of_holding hstopped (·.key) fun _ => rfl
  obtain ⟨u, hu, hsame⟩ := hsaving.team? h
  have hfield {β : Type} (f : Team → β) (hf : ∀ t : Team, f { t with waitFor := none, groups := [], dct := Dct.zero } = f t) : f u = f t :=
    Team.of_holding hsame f hf
  have hclass : (s.fullImage t).state.teamClass u = s.teamClass t :=
    (hsaving.teamClass u).trans (hfield s.teamClass fun _ => rfl)
  have hgroups : List.Forall₂ SameContents t.groups u.groups := Team.sameContents_of_holding hsame
  rw [State.fullSave_of_none hf]
  obtain ⟨image, rings, hteam⟩ := State.leaveSaved_team? (hkey ▸ hu : _ = some u) r
  rw [hkey] at hteam
  refine ⟨_, hteam, rfl, rfl, rfl, congrArg some hclass, hgroups, hfield (·.pc) fun _ => rfl, hfield (·.g) fun _ => rfl,
    hfield (·.cq) fun _ => rfl, hfield (·.rq) fun _ => rfl, hfield (·.segs) fun _ => rfl, hfield (·.shapes) fun _ => rfl, hfield (·.fmts) fun _ => rfl,
    hfield (·.pad) fun _ => rfl, hfield (·.lnd) fun _ => rfl, ?_⟩
  rw [← hkey]
  exact State.leaveSaved_gone _ _ _

theorem State.fullSave_frozen {f : Nat × Nat × Nat} (hf : saveFailure s t = some f) (r : Ready) : StaysFrozen s (s.fullSave t r) t := by
  obtain ⟨hsaving, hstopped⟩ := State.fullImage_saving h hs
  have hkey : (s.stoppedTeam t).key = t.key := Team.of_holding hstopped (·.key) fun _ => rfl
  obtain ⟨u, hu, hsame⟩ := hsaving.team? h
  have hfield {β : Type} (f : Team → β) (hf : ∀ t : Team, f { t with waitFor := none, groups := [], dct := Dct.zero } = f t) : f u = f t :=
    Team.of_holding hsame f hf
  have hgroups : List.Forall₂ SameContents t.groups u.groups := Team.sameContents_of_holding hsame
  obtain ⟨x, hx⟩ := State.fullSave_of_some hf r
  rw [hx, hkey]
  have hpost := ((s.fullImage t).post_team? (s.stoppedTeam t) x t.key t.key).trans hu
  refine ⟨_, State.team?_mapTeam_some hpost (fun t => { t with phase := .stopped, overdue := true, waitFor := none }) fun _ => rfl,
    hfield (·.resident) fun _ => rfl, rfl, rfl, hfield (·.pc) fun _ => rfl, hfield (·.g) fun _ => rfl, hgroups, ?_⟩
  rw [Writer.post_posts, hsaving.posts]

end

end Sys2Proof.Machine
end

section
/-! How a team comes back (R148, R149, R236, R276, R279, R370, R381, R386): its image is read back, its commands and its rings return, its tables are read,
and none of it moves the team or makes it wait. -/

namespace Sys2Proof.Machine

open Sys2Proof.Spec

/-! ### What a team keeps while it returns -/

/-- Where a team stands and what it runs as. -/
structure Berth where
  key : Nat
  resident : Bool
  ready : Ready
  bay : Nat
  pc : W64
  resumes : Nat
  tid : Nat
  stackSlot : Nat
  cls : Nat
  frozenClass : Option Nat
  groups : Nat

def Team.berth (t : Team) : Berth :=
  { key := t.key, resident := t.resident, ready := t.ready, bay := t.bay, pc := t.pc, resumes := t.resumes, tid := t.tid, stackSlot := t.stackSlot
    cls := t.cls, frozenClass := t.frozenClass, groups := t.groups.length }

/-- A team that waits for nothing still does not, in its berth, and the walkers' pointers and the management registers stand. -/
structure State.Berths (k : Nat) (s s' : State) : Prop where
  team : ∀ t, s.team? k = some t → t.waitFor = none → ∃ u, s'.team? k = some u ∧ u.berth = t.berth ∧ u.waitFor = none
  lastQueues : s'.lastQueues = s.lastQueues
  mgmt : s'.mgmt = s.mgmt

namespace State.Berths

variable {k : Nat}

theorem frame : Frame (State.Berths k) where
  refl _ := ⟨fun t ht hw => ⟨t, ht, rfl, hw⟩, rfl, rfl⟩
  trans h h' := by
    refine ⟨fun t ht hw => ?_, h'.lastQueues.trans h.lastQueues, h'.mgmt.trans h.mgmt⟩
    obtain ⟨u, hu, hb, hw⟩ := h.team t ht hw
    obtain ⟨v, hv, hb', hw⟩ := h'.team u hu hw
    exact ⟨v, hv, hb'.trans hb, hw⟩

theorem trans {a b c : State} (h : State.Berths k a b) (h' : State.Berths k b c) : State.Berths k a c := frame.trans h h'

theorem of_eq {s s' : State} (ht : s'.teams = s.teams) (hq : s'.lastQueues = s.lastQueues) (hm : s'.mgmt = s.mgmt) : State.Berths k s s' :=
  ⟨fun t h hw => ⟨t, by rw [State.team?, ht]; exact h, rfl, hw⟩, hq, hm⟩

theorem ite {c : Prop} {_ : Decidable c} {s a b : State} (ha : State.Berths k s a) (hb : State.Berths k s b) : State.Berths k s (if c then a else b) := by
  split
  · exact ha
  · exact hb

theorem foldl {α : Type} {f : State → α → State} {s a : State} (ha : State.Berths k s a) (h : ∀ s x, State.Berths k s (f s x)) (l : List α) :
    State.Berths k s (l.foldl f a) := by
  induction l generalizing a with
  | nil => exact ha
  | cons x l ih => exact ih (ha.trans (h a x))

theorem of_attended {s s' : State} (h : s.Attended s') : State.Berths k s s' := by
  refine ⟨fun t ht hw => ?_, h.lastQueues, h.mgmt⟩
  obtain ⟨u, hu, rfl | rfl⟩ := h.team? ht
  · exact ⟨_, hu, rfl, hw⟩
  · exact ⟨_, hu, by simp [Team.berth, Team.filled], by simp [Team.filled, filledWait, hw]⟩

theorem mapTeam (s : State) (n : Nat) (f : Team → Team) (h : ∀ t, t.waitFor = none → (f t).waitFor = none) (hf : ∀ t, (f t).berth = t.berth) :
    State.Berths k s (s.mapTeam n f) := by
  refine ⟨fun t ht hw => ?_, rfl, rfl⟩
  have hkey (t : Team) : (f t).key = t.key := congrArg Berth.key (hf t)
  by_cases hn : k = n
  · subst hn
    exact ⟨f t, State.team?_mapTeam_some ht f hkey, hf t, h t hw⟩
  · exact ⟨t, (State.team?_mapTeam_other s n k hn f fun t ht => (hkey t).trans ht).trans ht, rfl, hw⟩

end State.Berths

/-! ### The image (R276, R409, R411) -/

/-- A meaning that goes on from a state reached. -/
theorem M.Within.after {α : Type} {R : State → State → Prop} (hR : Frame R) {T : Cause → Prop} {m : M α}
    (h : m.Within R T) {s u : State} (hu : R s u) :
    Machine.Within R T s (m u) := by
  have hm := h u
  revert hm
  cases m u with
  | ok p => exact hR.trans hu
  | error x =>
    cases x with
    | wait w v => exact hR.trans hu
    | trap c => exact id
    | fault e => exact id

section
variable {T : Cause → Prop}

theorem readPart_within (t : Team) (va n : Nat) : (readPart t va n).Within State.Attended T := by
  have hF := State.Attended.frame
  have hread (loc : Nat) : (do
      let us ← readUnits t.place loc (n / 8)
      let last ← readSpace t.place [] { loc := loc + n / 8 * 8, va := none, large := false } (n % 8)
      pure (some (us.flatMap (leBytes 8) ++ last.map (·.value))) : M (Option (List Byte))).Within State.Attended T :=
    .bind hF (readUnits_within _ _ _) fun _ => .bind hF (fun s => s.readAs_attended ..) fun _ => .pure hF _
  intro s
  show Machine.Within _ _ _ ((match s.partAddr t va with | .error c => _ | .ok (loc, s) => _ : M (Option (List Byte))) s)
  cases h : s.partAddr t va with
  | error c => exact s.answered_attended _
  | ok p => exact (hread p.1).after hF (State.partAddr_attended h)

theorem readImage_within (t : Team) (n va : Nat) : (readImage t n va).Within State.Attended T := by
  have hF := State.Attended.frame
  induction n generalizing va with
  | zero => exact .pure hF _
  | succ n ih =>
    unfold readImage
    refine .bind hF (readPart_within _ _ _) fun us => ?_
    cases us with
    | none => exact .pure hF _
    | some us =>
      refine .bind hF (.ite (.pure hF _) (readPart_within _ _ _)) fun vs => ?_
      cases vs with
      | none => exact .pure hF _
      | some vs =>
        refine .bind hF (ih _) fun rest => ?_
        cases rest with
        | none => exact .pure hF _
        | some rest => exact .pure hF _

theorem readSection_within (t : Team) (d n : Nat) : (readSection t d n).Within State.Attended T := by
  have hF := State.Attended.frame
  unfold readSection
  refine .bind hF (readImage_within _ _ _) fun h => ?_
  cases h with
  | none => exact .pure hF _
  | some h =>
    refine .bind hF (readImage_within _ _ _) fun bs => ?_
    cases bs with
    | none => exact .pure hF _
    | some bs => exact .pure hF _

variable {k : Nat}

theorem withSection_within (t : Team) (n : Nat) {f : List Byte → M Unit} (h : ∀ bs, (f bs).Within (State.Berths k) T) :
    (withSection t n f).Within (State.Berths k) T := by
  unfold withSection
  refine .bind State.Berths.frame ((readSection_within t t.image n).mono fun _ _ => .of_attended) fun bs => ?_
  cases bs with
  | none => exact .pure State.Berths.frame _
  | some bs => exact h bs

/-- A change of the team alone, in its berth and without a wait. -/
theorem mapTeamM_within (n : Nat) {f : Team → Team} (h : ∀ t, (f t).waitFor = t.waitFor) (hf : ∀ t, (f t).berth = t.berth) :
    (mapTeamM n f).Within (State.Berths k) T :=
  .mapTeamM fun s => .mapTeam s n f (fun t hw => (h t).trans hw) hf

end

theorem loadBlocks_length (t : Team) (gs : List Group) (bs : List Byte) : (loadBlocks t gs bs).length = gs.length := by
  induction gs generalizing bs with
  | nil => rfl
  | cons g gs ih => exact congrArg (· + 1) (ih _)

theorem Team.loadContext_berth (t : Team) (s : State) (bs : List Byte) : (t.loadContext s bs).berth = t.berth := by
  unfold Team.loadContext
  extract_lets u
  split <;> rfl

theorem Team.loadContext_waitFor (t : Team) (s : State) (bs : List Byte) : (t.loadContext s bs).waitFor = t.waitFor := by
  unfold Team.loadContext
  extract_lets u
  split <;> rfl

theorem Team.loadQueues_berth (t : Team) (bs : List Byte) : (t.loadQueues bs).berth = t.berth := by
  simp [Team.berth, Team.loadQueues]

theorem State.fillStorage_berths {k : Nat} (s : State) (tag : Nat) (bs : List Byte) : State.Berths k s (s.fillStorage tag bs) := by
  unfold State.fillStorage
  exact .ite (State.Berths.frame.refl s) (.of_eq rfl rfl rfl)

theorem State.loadMatrix_berths {k : Nat} (t : Team) (bays : List Nat) (s : State) (bs : List Byte) : State.Berths k s (s.loadMatrix t bays bs) := by
  induction bays generalizing s bs with
  | nil => exact State.Berths.frame.refl s
  | cons b bays ih =>
    unfold State.loadMatrix
    extract_lets s1 bs1 fill bs2 ops s2
    have h1 : State.Berths k s s1 := by
      refine .foldl (State.Berths.frame.refl s) ?_ _
      exact fun _ _ => .of_eq rfl rfl rfl
    have h2 : State.Berths k s1 s2 := .of_eq rfl rfl rfl
    exact h1.trans (h2.trans (ih s2 _))

theorem loadImage_within {k : Nat} : (loadImage k).Within (State.Berths k) fun _ => True := by
  have hF := State.Berths.frame (k := k)
  have hteam : (teamOf k).Within (State.Berths k) fun _ => True := by
    intro s
    cases h : s.team? k with
    | none => simp [teamOf, h, Machine.Within]
    | some t => rw [teamOf_ok h]; exact hF.refl s
  unfold loadImage
  refine .bind hF hteam fun t => .ite ?_ (.pure hF _)
  refine .bind hF (withSection_within t 1 fun bs => mapTeamM_within k (fun _ => rfl) fun _ => rfl) fun _ => ?_
  refine .bind hF (withSection_within t 2 fun bs => .bind hF (.get hF) fun s =>
    mapTeamM_within k (fun t => t.loadContext_waitFor s bs) fun t => t.loadContext_berth s bs) fun _ => ?_
  refine .bind hF (withSection_within t 3 fun bs => mapTeamM_within k (fun _ => rfl) fun t => t.loadQueues_berth bs) fun _ => ?_
  refine .bind hF (withSection_within t 4 fun bs => mapTeamM_within k (fun _ => rfl) fun t => by
    simp [Team.berth, loadBlocks_length]) fun _ => ?_
  refine .bind hF (withSection_within t 5 fun bs => .modify fun s => (s.fillStorage_berths _ _).trans (State.fillStorage_berths _ _ _)) fun _ => ?_
  refine .bind hF (withSection_within t 6 fun bs => .modify fun s => (s.fillStorage_berths _ _).trans (State.fillStorage_berths _ _ _)) fun _ => ?_
  refine .bind hF (withSection_within t 7 fun bs => .modify fun s => s.loadMatrix_berths t t.bays bs) fun _ => ?_
  refine .bind hF (withSection_within t 9 fun bs => .modify fun s => .of_eq rfl rfl rfl) fun _ => ?_
  refine .bind hF (withSection_within t 10 fun bs => mapTeamM_within k (fun _ => rfl) fun _ => rfl) fun _ => ?_
  exact mapTeamM_within k (fun _ => rfl) fun _ => rfl

/-! ### Traps and records (R178, R279, R289, R398) -/

theorem State.post_berths {k : Nat} (s : State) (p : Place) (r : RecordFields) : State.Berths k s (s.post p r) := .of_eq rfl rfl rfl

theorem State.double_berths {k : Nat} (s : State) (key : Nat) (c : Cause) : State.Berths k s (s.double key c) := by
  unfold State.double
  split
  · exact State.Berths.frame.refl s
  · extract_lets u
    have hstop : State.Berths k s (((s.answered c.code).unregister (· == .helm key)).leaveRings key) := .of_eq rfl rfl rfl
    refine State.Berths.trans ?_ (u.post_berths _ _)
    refine hstop.trans ?_
    exact .mapTeam _ _ _ (fun _ _ => rfl) fun _ => rfl

theorem State.freeze_berths {k : Nat} (s : State) (key : Nat) (tr : Trap) : State.Berths k s (s.freeze key tr) := by
  unfold State.freeze
  extract_lets stepping u
  refine State.Berths.trans (b := u.answered tr.cause) (.of_eq rfl rfl rfl) (.mapTeam _ _ _ (fun t h => ?_) fun t => ?_)
  · cases hp : t.phase <;> simp [h]
  · cases hp : t.phase <;> simp [Team.berth]

theorem State.helmTrap_berths {k : Nat} (s : State) (key : Nat) (c : Cause) : State.Berths k s (s.helmTrap key c) := by
  unfold State.helmTrap
  split
  · exact State.Berths.frame.refl s
  · exact .ite (s.double_berths key c) (s.freeze_berths key _)

/-! ### Commands, rings and tables (R236, R279, R320, R407) -/

theorem State.returnCmds_berths {k : Nat} (key : Nat) (cs : List CopyCmd) (s : State) : State.Berths k s (s.returnCmds key cs) := by
  induction cs generalizing s with
  | nil => exact State.Berths.frame.refl s
  | cons c cs ih =>
    unfold State.returnCmds
    split
    · exact State.Berths.frame.refl s
    · extract_lets ch place c' s1 s2 r s3 s4
      have h2 : State.Berths k s s2 := .of_eq rfl rfl rfl
      have h3 : State.Berths k s2 s3 := .ite (s2.post_berths _ _) (State.Berths.frame.refl s2)
      have h4 : State.Berths k s3 s4 := .ite (s3.helmTrap_berths _ _) (State.Berths.frame.refl s3)
      exact h2.trans (h3.trans (h4.trans (ih s4)))

theorem State.returnDescs_berths {k : Nat} (t : Team) (rs : List (Nat × Ring)) (s : State) : State.Berths k s (s.returnDescs t rs) := by
  induction rs generalizing s with
  | nil => exact State.Berths.frame.refl s
  | cons r rs ih =>
    obtain ⟨i, r⟩ := r
    unfold State.returnDescs
    extract_lets free d gen old new s1 s2
    have h1 : State.Berths k s s1 := .of_eq rfl rfl rfl
    have h2 : State.Berths k s1 s2 := .mapTeam _ _ _ (fun _ h => h) fun _ => rfl
    exact h1.trans (h2.trans (ih s2))

theorem State.newAllot_berths {k : Nat} (s : State) (size : Nat) : State.Berths k s (s.newAllot size).2 := by
  unfold State.newAllot
  split <;> exact .of_eq rfl rfl rfl

theorem State.takeCellar_berths {k : Nat} (s : State) (nid die units : Nat) : State.Berths k s (s.takeCellar nid die units) := by
  unfold State.takeCellar
  split
  · exact State.Berths.frame.refl s
  · have h := s.newAllot_berths (k := k) (units * 0x40000)
    generalize s.newAllot (units * 0x40000) = made at h ⊢
    obtain ⟨tag, u⟩ := made
    exact h.trans (.of_eq rfl rfl rfl)

theorem readRegions_attended {T : Cause → Prop} (p : Place) (loc n : Nat) : (readRegions p loc n).Within State.Attended T := by
  have hF := State.Attended.frame
  induction n with
  | zero => exact .pure hF _
  | succ n ih =>
    unfold readRegions
    refine .bind hF ih fun x => .bind hF (fun s => s.readAs_attended p [] none (loc + 16 * n) 16) fun bs => ?_
    split <;> exact .pure hF _

theorem loadRegions_berths {k key : Nat} {s s' : State} (h : loadRegions key s = .ok ((), s')) : State.Berths k s s' := by
  cases ht : s.team? key with
  | none => cases h.symm.trans (loadRegions_unknown ht)
  | some t =>
    unfold loadRegions at h
    rw [M.bind_ok (teamOf_ok ht)] at h
    by_cases hmode : bitOf t.mmcfg.toNat 0 = true
    · rw [if_pos hmode, M.bind_ok (M.get_run _)] at h
      dsimp only at h
      cases hp : s.partAddr t (bitsOf t.mmcfg.toNat 56 10 * 1024) with
      | error e =>
        rw [hp] at h
        cases h
      | ok x =>
        rw [hp] at h
        dsimp only at h
        rw [M.bind_ok (M.set_run _ _)] at h
        obtain ⟨rs, s1, hread, hlast⟩ := M.bind_eq_ok.1 h
        cases hlast
        refine State.Berths.trans (.of_attended ((State.partAddr_attended hp).trans ((readRegions_attended (T := fun _ => True) _ _ _).ok hread))) ?_
        exact .mapTeam _ _ _ (fun _ h => h) fun _ => rfl
    · rw [if_neg hmode] at h
      cases h
      exact State.Berths.frame.refl s

theorem readWatches_attended {t : Team} {s s' : State} {ws : List Watch} (h : readWatches t s = .ok (ws, s')) : s.Attended s' := by
  have hF := State.Attended.frame
  have hwatch (loc i : Nat) : (do
      let bs ← (fun s => .ok (s.readAs t.place [] none (loc + 16 * i) 16) : M (List ByteRead))
      let v := readValue bs
      if bitsOf v 31 8 != 0 || bitsOf v 3 0 != 0 || !bitOf v 7 then pure none
      else pure (some { index := i, base := bitsOf v 127 64, len := bitsOf v 63 32, x := bitOf v 6, w := bitOf v 5, r := bitOf v 4 }) :
        M (Option Watch)).Within State.Attended fun _ => True :=
    .bind hF (fun s => s.readAs_attended t.place [] none (loc + 16 * i) 16) fun _ => .ite (.pure hF _) (.pure hF _)
  unfold readWatches at h
  rw [M.bind_ok (M.get_run s)] at h
  cases hp : s.partAddr t (t.block + 0xF000) with
  | error e =>
    rw [hp] at h
    cases h
    exact hF.refl s
  | ok x =>
    rw [hp] at h
    dsimp only at h
    rw [M.bind_ok (M.set_run _ _)] at h
    obtain ⟨w0, s0, h0, hn0⟩ := M.bind_eq_ok.1 h
    obtain ⟨w1, s1, h1, hn1⟩ := M.bind_eq_ok.1 hn0
    obtain ⟨w2, s2, h2, hn2⟩ := M.bind_eq_ok.1 hn1
    obtain ⟨w3, s3, h3, hn3⟩ := M.bind_eq_ok.1 hn2
    cases hn3
    exact (State.partAddr_attended hp).trans (((hwatch _ _).ok h0).trans (((hwatch _ _).ok h1).trans (((hwatch _ _).ok h2).trans ((hwatch _ _).ok h3))))

theorem State.readTables_berths {k : Nat} (s : State) (key : Nat) : State.Berths k s (s.readTables key) := by
  have hload {u : State} (h : loadRegions key s = .ok ((), u)) : State.Berths k s u := loadRegions_berths h
  have hread {t : Team} {u u' : State} {ws : List Watch} (h : readWatches t u = .ok (ws, u')) : State.Berths k u u' := .of_attended (readWatches_attended h)
  unfold State.readTables
  generalize loadRegions key s = loaded at hload ⊢
  generalize readWatches = read at hread ⊢
  extract_lets u
  have hu : State.Berths k s u := by
    cases loaded with
    | error e => exact State.Berths.frame.refl s
    | ok p => exact hload rfl
  refine hu.trans ?_
  clear_value u
  cases u.team? key with
  | none => exact State.Berths.frame.refl u
  | some t =>
    dsimp only
    cases hw : read t u with
    | error e => exact State.Berths.frame.refl u
    | ok p => exact (hread hw).trans (.mapTeam _ _ _ (fun _ h => h) fun _ => rfl)

end Sys2Proof.Machine
end

section
/-! The events that take teams off their bays and bring them back (R383, R385, R386, R390; R148, R149, R370, R381). -/

namespace Sys2Proof.Machine

open Sys2Proof.Spec

/-! ### A team that was saved (R148) -/

/-- What a restore leaves of the team: on its bay, with its program, under its frozen class where it has one. -/
structure Team.Restored (t : Team) (bay : Nat) (u : Team) : Prop where
  resident : u.resident = true
  ready : u.ready = .now
  waitFor : u.waitFor = none
  bay : u.bay = bay
  pc : u.pc = t.pc
  resumes : u.resumes = t.resumes + 1
  tid : u.tid = t.tid
  stackSlot : u.stackSlot = t.stackSlot
  cls : ∀ k, t.frozenClass = some k → u.cls = k
  frozenClass : u.frozenClass = none
  groups : u.groups.length = t.groups.length

theorem Team.Restored.of_berth {t u v : Team} {bay : Nat} (h : t.Restored bay u) (hb : v.berth = u.berth) (hw : v.waitFor = none) : t.Restored bay v :=
  { resident := (congrArg Berth.resident hb).trans h.resident, ready := (congrArg Berth.ready hb).trans h.ready, waitFor := hw
    bay := (congrArg Berth.bay hb).trans h.bay, pc := (congrArg Berth.pc hb).trans h.pc, resumes := (congrArg Berth.resumes hb).trans h.resumes
    tid := (congrArg Berth.tid hb).trans h.tid, stackSlot := (congrArg Berth.stackSlot hb).trans h.stackSlot
    cls := fun k hk => (congrArg Berth.cls hb).trans (h.cls k hk), frozenClass := (congrArg Berth.frozenClass hb).trans h.frozenClass
    groups := (congrArg Berth.groups hb).trans h.groups }

/-- The context and the image, read back. -/
theorem readBack_berths {k : Nat} {p : Place} {c : Nat} {s s' : State} {x : Unit}
    (h : (do let d ← readDct p c; mapTeamM k fun t => { t with dct := d }; loadImage k : M Unit) s = .ok (x, s')) : State.Berths k s s' := by
  obtain ⟨d, s1, hd, hrest⟩ := M.bind_eq_ok.1 h
  obtain ⟨_, s2, hmap, hload⟩ := M.bind_eq_ok.1 hrest
  have h2 : State.Berths k s1 s2 :=
    (mapTeamM_within (T := fun _ => True) (f := fun t => { t with dct := d }) k (fun _ => rfl) fun _ => rfl).ok hmap
  exact .trans (.of_attended (readDct_attended hd)) (h2.trans (loadImage_within.ok hload))

theorem State.restore_team {s : State} {t : Team} (h : s.team? t.key = some t) (bay : Nat) :
    (∃ u, (s.restore t bay).team? t.key = some u ∧ t.Restored bay u) ∧
      (s.restore t bay).lastQueues = s.lastQueues ∧ (s.restore t bay).mgmt = s.mgmt := by
  unfold State.restore
  extract_lets u0 u back s1 s2 s3 s4 s5
  have hu : s2.team? t.key = some u :=
    (State.team?_mapTeam s1 t.key (fun _ => u) fun _ _ => rfl).trans (congrArg (Option.map fun _ => u) h)
  have hrestored : t.Restored bay u := by
    refine ⟨rfl, rfl, rfl, rfl, rfl, rfl, rfl, rfl, fun k hk => ?_, rfl, List.length_map _⟩
    show t.frozenClass.getD _ = k
    rw [hk]
    rfl
  have hread : State.Berths t.key s2 s3 := by
    simp only [s3]
    split
    · next hrun => exact readBack_berths hrun
    · exact State.Berths.frame.refl s2
  have hq : s2.lastQueues = s.lastQueues ∧ s2.mgmt = s.mgmt := ⟨rfl, rfl⟩
  have hwait : u.waitFor = none := rfl
  clear_value s3 s2 u
  have hcmds : State.Berths t.key s3 s4 := State.returnCmds_berths _ _ s3
  clear_value s4
  have hdescs : State.Berths t.key s4 s5 := State.returnDescs_berths u _ s4
  clear_value s5
  have hback := hread.trans (hcmds.trans (hdescs.trans (s5.takeCellar_berths t.nid (dieOfBay bay) t.kernel.cellar)))
  obtain ⟨v, hv, hberth, hwait⟩ := hback.team u hu hwait
  exact ⟨⟨v, hv, hrestored.of_berth hberth hwait⟩, hback.lastQueues.trans hq.1, hback.mgmt.trans hq.2⟩

/-! ### A team that left at a node boundary (R149) -/

theorem Team.regrant_eq (t : Team) (cls : Nat) : t.regrant cls = { t with
    cls := cls, shapes := if cls = t.cls then t.shapes else t.shapes.map fun h => h.regrant cls t.kernel.width
    shapeChanged := if cls = t.cls then t.shapeChanged else true } := by
  unfold Team.regrant
  split
  · next h => subst h; rfl
  · rfl

/-- The team on its new bay, with its shapes granted there and `n` fresh groups for each of its bays. -/
def State.replaced (s : State) (t : Team) (bay n : Nat) : Team :=
  let u := s.seat t bay
  let u := { t.regrant u.cls with
    bay := bay, ctx := u.ctx, partnerCtx := u.partnerCtx, resident := true, ready := .now
    waitFor := none, resumes := t.resumes + 1 }
  { u with groups := freshGroups u n }

theorem State.takeCellar_teams (s : State) (nid die units : Nat) : (s.takeCellar nid die units).teams = s.teams := by
  unfold State.takeCellar
  split
  · rfl
  · have h : (s.newAllot (units * 0x40000)).2.teams = s.teams := by
      unfold State.newAllot
      split <;> rfl
    generalize s.newAllot (units * 0x40000) = made at h ⊢
    exact h

theorem readContext_team {k : Nat} {p : Place} {c : Nat} {s s' : State} {x : Unit} {u : Team} (hu : s.team? k = some u) (hw : u.waitFor = none)
    (h : (do let d ← readDct p c; mapTeamM k fun t => { t with dct := d } : M Unit) s = .ok (x, s')) :
    (∃ v d, s'.team? k = some v ∧ v.waitFor = none ∧ v.stem = { u with dct := d }.stem) ∧ s'.lastQueues = s.lastQueues ∧ s'.mgmt = s.mgmt := by
  obtain ⟨d, s1, hd, hmap⟩ := M.bind_eq_ok.1 h
  have hread : s.Attended s1 := readDct_attended hd
  cases hmap
  refine ⟨?_, hread.lastQueues, hread.mgmt⟩
  obtain ⟨v, hv, rfl | rfl⟩ := hread.team? hu
  · exact ⟨_, d, State.team?_mapTeam_some hv (fun t => { t with dct := d }) fun _ => rfl, hw, rfl⟩
  · refine ⟨_, d, State.team?_mapTeam_some hv (fun t => { t with dct := d }) fun _ => rfl, ?_, ?_⟩
    · simp [Team.filled, filledWait, hw]
    · simp [Team.stem, Team.core, Team.filled]

theorem State.resumeNode_team {s : State} {t : Team} (h : s.team? t.key = some t) (bay : Nat) :
    (∃ v rings pad padPartner lnd lndPartner dct, (s.resumeNode t bay).team? t.key = some v ∧ v.waitFor = none ∧ v.stem =
      { s.replaced t bay (s.groupsOf t.nid) with
        rings := rings, pad := pad, padPartner := padPartner, lnd := lnd, lndPartner := lndPartner, dct := dct }.stem) ∧
    (s.resumeNode t bay).lastQueues = s.lastQueues ∧ (s.resumeNode t bay).mgmt = s.mgmt := by
  unfold State.resumeNode
  extract_lets u0 u1 u2 u3 packet u4 s1
  have hkey : u4.key = t.key := by
    have h : (t.regrant u0.cls).key = t.key := by rw [t.regrant_eq u0.cls]
    exact h
  have ht1 : s1.team? t.key = some t := by
    rw [State.team?, show s1.teams = s.teams from State.takeCellar_teams _ _ _ _]
    exact h
  have hmade : s1.lastQueues = s.lastQueues ∧ s1.mgmt = s.mgmt := by
    have hr := State.takeCellar_readied { s with tick := s.tick + 1 } t.nid (dieOfBay bay) t.kernel.cellar
    exact ⟨hr.lastQueues, hr.mgmt⟩
  have hu4 : ∃ rings, u4 = { s.replaced t bay (s.groupsOf t.nid) with rings := rings } := ⟨_, rfl⟩
  clear_value s1 u4
  obtain ⟨hequip, a, b, c, d, hpads⟩ := s1.equip_served u4
  generalize s1.equip u4 = equipped at hequip hpads ⊢
  obtain ⟨u, s2⟩ := equipped
  dsimp -zeta only at hequip hpads ⊢
  extract_lets s3
  obtain ⟨rings, rfl⟩ := hu4
  obtain ⟨x, hx, -⟩ := hequip.team? ht1
  have hu : s3.team? t.key = some u :=
    (State.team?_mapTeam s2 t.key (fun _ => u) fun _ _ => by rw [hpads]; exact hkey).trans (congrArg (Option.map fun _ => u) hx)
  have hq : s3.lastQueues = s.lastQueues ∧ s3.mgmt = s.mgmt := ⟨hequip.lastQueues.trans hmade.1, hequip.mgmt.trans hmade.2⟩
  have hwait : u.waitFor = none := by rw [hpads]; rfl
  clear_value s3
  split
  · next s' hrun =>
    obtain ⟨⟨v, e, hv, hw, hstem⟩, hq', hm'⟩ := readContext_team hu hwait hrun
    refine ⟨⟨v, rings, a, b, c, d, e, hv, hw, ?_⟩, hq'.trans hq.1, hm'.trans hq.2⟩
    rw [hstem, hpads]
  · refine ⟨⟨u, rings, a, b, c, d, u.dct, hu, hwait, ?_⟩, hq⟩
    rw [hpads]

end Sys2Proof.Machine
end

section
/-! The events of O52 (R383, R385, R386, R390; R148, R149, R370, R381). -/

namespace Sys2Proof.Machine

open Sys2Proof.Spec

/-! ### The events that take a team off its bay -/

theorem due_getD {α : Type} (c : Prop) {_ : Decidable c} (a b : α) : (if c then some a else none).getD b = if c then a else b := by
  split <;> rfl

section
variable {s : State} {t : Team} (h : s.team? t.key = some t)
include h

theorem preemptionRequest_eq : exec (.preemptionRequest t.key) s =
    .next (if t.resident then s.mapTeam t.key fun u => { u with preempt := true } else s) := by
  show execPreemptionRequest t.key s = _
  unfold execPreemptionRequest runEvent
  simp only [h, Option.bind_eq_bind, Option.bind_some, due_getD]

theorem nodeSwapOut_eq : exec (.nodeSwapOut t.key) s =
    .next (if t.resident && t.phase == .running && t.preempt && s.atNode t && s.quiet t then s.swapOut t.key .now else s) := by
  show execNodeSwapOut t.key s = _
  unfold execNodeSwapOut runEvent
  simp only [h, Option.bind_eq_bind, Option.bind_some, due_getD]

theorem preemptionDeadline_eq : exec (.preemptionDeadline t.key) s =
    .next (if t.resident && t.preempt && s.still t then s.fullSave t .now else s) := by
  show execPreemptionDeadline t.key s = _
  unfold execPreemptionDeadline runEvent
  simp only [h, Option.bind_eq_bind, Option.bind_some, due_getD]

theorem teamDeschedule_idle (hw : t.waitFor = none ∨ t.waitsVisibly = false ∨ s.stands t = false) : exec (.teamDeschedule t.key) s = .next s := by
  show execTeamDeschedule t.key s = _
  unfold execTeamDeschedule
  refine runEvent_none ?_
  simp only [h, Option.bind_eq_bind, Option.bind_some]
  cases hwait : t.waitFor with
  | none => rfl
  | some w =>
    have hb : (!(t.waitsVisibly && s.stands t)) = true := by
      rcases hw with hn | hv | hs
      · cases hwait.symm.trans hn
      · rw [hv]; rfl
      · rw [hs, Bool.and_false]; rfl
    exact if_pos hb

theorem teamDeschedule_eq {w : WaitFor} (hw : t.waitFor = some w) (hv : t.waitsVisibly = true) (hs : s.stands t = true) :
    exec (.teamDeschedule t.key) s = .next (if t.phase == .running && s.atNode t then (if s.quiet t then s.swapOut t.key (.waits w) else s)
      else if s.still t then s.fullSave t (.waits w) else s) := by
  show execTeamDeschedule t.key s = _
  unfold execTeamDeschedule runEvent
  simp only [h, hw, hv, hs, Option.bind_eq_bind, Option.bind_some, Bool.and_self, Bool.not_true, Bool.false_eq_true, if_false,
    apply_ite fun o : Option State => o.getD s, Option.getD_some, Option.getD_none]

/-! ### The event that brings a team back -/

theorem teamResume_unchosen (hc : ∀ c ∈ s.chosen, c.team ≠ some t.key) : exec (.teamResume t.key) s = .next s := by
  show execTeamResume t.key s = _
  unfold execTeamResume
  refine runEvent_none ?_
  have hfind : s.chosen.find? (fun c => c.team == some t.key) = none := List.find?_eq_none.2 fun c hm => by simpa using hc c hm
  simp only [h, hfind, Option.bind_eq_bind, Option.bind_some, Option.bind_none]

theorem teamResume_unfit (hf : s.recordsFit t.key = false) : exec (.teamResume t.key) s = .next s := by
  show execTeamResume t.key s = _
  unfold execTeamResume
  refine runEvent_none ?_
  simp only [h, hf, Option.bind_eq_bind, Option.bind_some, Option.bind_eq_none_iff]
  exact fun _ _ _ _ _ _ => rfl

theorem teamResume_eq {c : Cand} {w : Want} {bay : Nat} (hc : s.chosen.find? (fun c => c.team == some t.key) = some c) (hw : c.want = some w)
    (hb : s.homeFor w = some bay) (hf : s.recordsFit t.key = true) : exec (.teamResume t.key) s =
    .next (((if t.image = 0 && t.frozenClass.isNone then s.resumeNode t bay else s.restore t bay).readTables t.key).turnQueue t.queue false) := by
  show execTeamResume t.key s = _
  unfold execTeamResume runEvent
  simp only [h, hc, hw, hb, hf, Option.bind_eq_bind, Option.bind_some, Bool.not_true, Bool.false_eq_true, if_false, Option.getD_some]

end

theorem recordsFit_iff (s : State) (key : Nat) : s.recordsFit key = true ↔
    (s.cmds.filter fun c => c.team == key && (c.state == .held || c.state == .posting)) = [] ∨
    (s.mgmt.fqProd + 2 ^ 32 - s.mgmt.fqCons % 2 ^ 32) % 2 ^ 32 + s.posts.length +
      (s.cmds.filter fun c => c.team == key && (c.state == .held || c.state == .posting)).length ≤ 4096 := by
  unfold State.recordsFit
  simp only [Bool.or_eq_true, beq_iff_eq, decide_eq_true_eq, List.length_eq_zero_iff]

/-! ### What a team is once its tables have been read -/

theorem State.readTables_restored {s : State} {t u : Team} {bay key : Nat} (h : s.team? key = some u) (hu : t.Restored bay u) :
    ∃ v, (s.readTables key).team? key = some v ∧ t.Restored bay v := by
  obtain ⟨v, hv, hberth, hwait⟩ := (s.readTables_berths (k := key) key).team u h hu.waitFor
  exact ⟨v, hv, hu.of_berth hberth hwait⟩

/-- What a node swap-out and the return leave of the team: its registers, segments and queues, fresh groups, and its shapes granted anew where its class
is another. -/
structure Team.Replaced (t : Team) (bay n : Nat) (u : Team) : Prop where
  resident : u.resident = true
  ready : u.ready = .now
  waitFor : u.waitFor = none
  bay : u.bay = bay
  pc : u.pc = t.pc
  resumes : u.resumes = t.resumes + 1
  tid : u.tid = t.tid
  stackSlot : u.stackSlot = t.stackSlot
  g : u.g = t.g
  segs : u.segs = t.segs
  fmts : u.fmts = t.fmts
  cq : u.cq = t.cq
  rq : u.rq = t.rq
  groups : u.groups.length = n * (if t.duplex then 2 else 1)
  kept : u.cls = t.cls → u.shapes = t.shapes
  granted : u.cls ≠ t.cls → u.shapeChanged = true ∧ u.shapes = t.shapes.map fun h => h.regrant u.cls t.kernel.width

theorem Team.Replaced.of_stem {s : State} {t v : Team} {bay n : Nat} {rings : List (Option RingRef)} {pad padPartner lnd lndPartner : Nat} {dct : Dct}
    (h : v.stem = { s.replaced t bay n with rings := rings, pad := pad, padPartner := padPartner, lnd := lnd, lndPartner := lndPartner, dct := dct }.stem)
    (hw : v.waitFor = none) : t.Replaced bay n v := by
  dsimp only [State.replaced] at h
  rw [Team.regrant_eq] at h
  generalize (s.seat t bay).cls = cls at h
  generalize (s.seat t bay).ctx = ctx at h
  generalize (s.seat t bay).partnerCtx = partnerCtx at h
  have hfield {β : Type} (f : Team → β) (hf : ∀ u : Team, f u.core = f u) := (hf v).symm.trans (congrArg (fun x => f x.1) h)
  have hcls : v.cls = cls := hfield (·.cls) fun _ => rfl
  have hshapes := hfield (·.shapes) fun _ => rfl
  have hchanged := hfield (·.shapeChanged) fun _ => rfl
  refine ⟨hfield (·.resident) fun _ => rfl, hfield (·.ready) fun _ => rfl, hw, hfield (·.bay) fun _ => rfl, hfield (·.pc) fun _ => rfl,
    hfield (·.resumes) fun _ => rfl, hfield (·.tid) fun _ => rfl, hfield (·.stackSlot) fun _ => rfl, hfield (·.g) fun _ => rfl,
    hfield (·.segs) fun _ => rfl, hfield (·.fmts) fun _ => rfl, hfield (·.cq) fun _ => rfl, hfield (·.rq) fun _ => rfl, ?_, fun hc => ?_, fun hc => ?_⟩
  · exact (congrArg Prod.snd h).trans (freshGroups_length _ _)
  · exact hshapes.trans (if_pos (hcls.symm.trans hc))
  · rw [hcls] at hc ⊢
    exact ⟨hchanged.trans (if_neg hc), hshapes.trans (if_neg hc)⟩

theorem State.resumeNode_replaced {s : State} {t : Team} (h : s.team? t.key = some t) (bay : Nat) :
    ∃ v, ((s.resumeNode t bay).readTables t.key).team? t.key = some v ∧ t.Replaced bay (s.groupsOf t.nid) v := by
  obtain ⟨⟨v, rings, a, b, c, d, e, hv, hwait, hstem⟩, -, -⟩ := s.resumeNode_team h bay
  obtain ⟨w, hw, hsame⟩ := ((s.resumeNode t bay).readTables_served t.key).team? hv
  obtain ⟨w', hw', -, hnone⟩ := ((s.resumeNode t bay).readTables_berths (k := t.key) t.key).team v hv hwait
  cases Option.some.inj (hw.symm.trans hw')
  exact ⟨w, hw, .of_stem (hsame.trans hstem) hnone⟩

theorem State.turnQueue_team? (s : State) (queue : Nat) (new : Bool) (k : Nat) : (s.turnQueue queue new).team? k = s.team? k := rfl

/-- The walkers' pointer after a resumption. -/
theorem State.turned_lastQueues {s u : State} (hq : u.lastQueues = s.lastQueues) (hm : u.mgmt = s.mgmt) (key queue : Nat) :
    ((u.readTables key).turnQueue queue false).lastQueues = s.lastQueues.set (2 * s.priority queue) queue := by
  have hread := u.readTables_berths (k := key) key
  show (u.readTables key).lastQueues.set (2 * (u.readTables key).priority queue + 0) queue = _
  rw [hread.lastQueues, hq, State.priority_congr (hread.mgmt.trans hm)]
  rfl

/-! ### The obligation -/

section
variable {s : State} {t : Team} (h : s.team? t.key = some t)
include h

/-- At a node boundary and at the deadline. -/
theorem teamMoves_asked :
    let boundary := exec (.nodeSwapOut t.key) s
    let deadline := exec (.preemptionDeadline t.key) s
    let asked := t.resident = true ∧ t.phase = .running ∧ t.preempt = true
    let atNode := s.atNode t = true ∧ s.quiet t = true
    (¬(asked ∧ atNode) → boundary = .next s) ∧
    (asked → atNode → ∃ s', boundary = .next s' ∧ LeftAtNode s s' t .now) ∧
    let pressed := t.resident = true ∧ t.preempt = true ∧ s.still t = true
    (¬pressed → deadline = .next s) ∧
    (pressed → saveFailure s t = none → ∃ s', deadline = .next s' ∧ LeftSaved s s' t .now) ∧
    (∀ f, pressed → saveFailure s t = some f → ∃ s', deadline = .next s' ∧ StaysFrozen s s' t) := by
  intro boundary deadline asked atNode
  have hboundary : (t.resident && t.phase == .running && t.preempt && s.atNode t && s.quiet t) = true ↔ asked ∧ atNode := by
    simp only [asked, atNode, Bool.and_eq_true, beq_iff_eq, and_assoc]
  refine ⟨fun hn => ?_, fun hasked hnode => ?_, ?_⟩
  · exact (nodeSwapOut_eq h).trans (congrArg _ (if_neg fun hb => hn (hboundary.1 hb)))
  · exact ⟨_, (nodeSwapOut_eq h).trans (congrArg _ (if_pos (hboundary.2 ⟨hasked, hnode⟩))), State.swapOut_left h _⟩
  intro pressed
  have hpressed : (t.resident && t.preempt && s.still t) = true ↔ pressed := by
    simp only [pressed, Bool.and_eq_true, and_assoc]
  refine ⟨fun hn => ?_, fun hp hf => ?_, fun f hp hf => ?_⟩
  · exact (preemptionDeadline_eq h).trans (congrArg _ (if_neg fun hb => hn (hpressed.1 hb)))
  · exact ⟨_, (preemptionDeadline_eq h).trans (congrArg _ (if_pos (hpressed.2 hp))), State.fullSave_left h hp.2.2 hf _⟩
  · exact ⟨_, (preemptionDeadline_eq h).trans (congrArg _ (if_pos (hpressed.2 hp))), State.fullSave_frozen h hp.2.2 hf _⟩

/-- A waiter in a candidate's way. -/
theorem teamMoves_waiter {w : WaitFor} (hw : t.waitFor = some w) (hv : t.waitsVisibly = true) (hs : s.stands t = true) :
    let leave := exec (.teamDeschedule t.key) s
    let atNode := t.phase = .running ∧ s.atNode t = true
    (atNode → s.quiet t = false → leave = .next s) ∧
    (atNode → s.quiet t = true → ∃ s', leave = .next s' ∧ LeftAtNode s s' t (.waits w)) ∧
    (¬atNode → s.still t = false → leave = .next s) ∧
    (¬atNode → s.still t = true → saveFailure s t = none → ∃ s', leave = .next s' ∧ LeftSaved s s' t (.waits w)) ∧
    (∀ f, ¬atNode → s.still t = true → saveFailure s t = some f → ∃ s', leave = .next s' ∧ StaysFrozen s s' t) := by
  intro leave atNode
  have hnode : (t.phase == .running && s.atNode t) = true ↔ atNode := by simp only [atNode, Bool.and_eq_true, beq_iff_eq]
  have hleave := teamDeschedule_eq h hw hv hs
  have hat (ha : atNode) : leave = .next (if s.quiet t then s.swapOut t.key (.waits w) else s) := hleave.trans (congrArg _ (if_pos (hnode.2 ha)))
  have hoff (ha : ¬atNode) : leave = .next (if s.still t then s.fullSave t (.waits w) else s) :=
    hleave.trans (congrArg _ (if_neg fun hb => ha (hnode.1 hb)))
  refine ⟨fun ha hq => ?_, fun ha hq => ?_, fun ha hq => ?_, fun ha hq hf => ?_, fun f ha hq hf => ?_⟩
  · exact (hat ha).trans (congrArg _ (if_neg (by simp [hq])))
  · exact ⟨_, (hat ha).trans (congrArg _ (if_pos hq)), State.swapOut_left h _⟩
  · exact (hoff ha).trans (congrArg _ (if_neg (by simp [hq])))
  · exact ⟨_, (hoff ha).trans (congrArg _ (if_pos hq)), State.fullSave_left h hq hf _⟩
  · exact ⟨_, (hoff ha).trans (congrArg _ (if_pos hq)), State.fullSave_frozen h hq hf _⟩

/-- A team that returns: anew where it left at a node boundary, as it was saved elsewhere. -/
theorem teamMoves_return {c : Cand} {w : Want} {bay : Nat} (hc : s.chosen.find? (fun c => c.team == some t.key) = some c) (hw : c.want = some w)
    (hb : s.homeFor w = some bay) (hf : s.recordsFit t.key = true) :
    ∃ s' u, exec (.teamResume t.key) s = .next s' ∧ s'.team? t.key = some u ∧ s'.lastQueues = s.lastQueues.set (2 * s.priority t.queue) t.queue ∧
      if t.image = 0 ∧ t.frozenClass = none then t.Replaced bay (s.groupsOf t.nid) u else t.Restored bay u := by
  have hrun := teamResume_eq h hc hw hb hf
  by_cases hnode : t.image = 0 ∧ t.frozenClass = none
  · rw [if_pos (by simp [hnode])] at hrun
    obtain ⟨u, hu, hreplaced⟩ := State.resumeNode_replaced h bay
    obtain ⟨-, hq, hm⟩ := State.resumeNode_team h bay
    exact ⟨_, u, hrun, (State.turnQueue_team? _ _ _ _).trans hu, State.turned_lastQueues hq hm _ _, by rw [if_pos hnode]; exact hreplaced⟩
  · rw [if_neg (by simpa using hnode)] at hrun
    obtain ⟨⟨u, hu, hrestored⟩, hq, hm⟩ := State.restore_team h bay
    obtain ⟨v, hv, hrestored⟩ := State.readTables_restored hu hrestored
    exact ⟨_, v, hrun, (State.turnQueue_team? _ _ _ _).trans hv, State.turned_lastQueues hq hm _ _, by rw [if_neg hnode]; exact hrestored⟩

end

/-- Settles O52: a team leaves its bay as the engines' stop, its image and the block allow it, and what a leave or a return touches of it is followed
through the part's own accesses. -/
theorem teamMoves : Obligations.TeamMoves := by
  unfold Obligations.TeamMoves
  refine ⟨fun s t h => ⟨fun hr => ?_, fun hr => ?_, teamMoves_asked h, teamDeschedule_idle h, fun w hw hv hs => teamMoves_waiter h hw hv hs⟩,
    fun s t h => ⟨teamResume_unchosen h, fun hheld hfull => ?_, fun c w bay hc hw hfit hbay hlow hroom => ?_⟩⟩
  · exact (preemptionRequest_eq h).trans (congrArg _ (if_neg (by simp [hr])))
  · exact (preemptionRequest_eq h).trans (congrArg _ (if_pos hr))
  · refine teamResume_unfit h (Bool.eq_false_iff.2 fun hfit => ?_)
    rcases (recordsFit_iff s t.key).1 hfit with hnone | hle
    · exact hheld hnone
    · exact absurd hle (not_le.2 hfull)
  · obtain ⟨s', u, hrun, hu, hq, hback⟩ := teamMoves_return h hc hw (homeFor_eq hfit hbay hlow) ((recordsFit_iff s t.key).2 hroom)
    refine ⟨s', u, hrun, hu, ?_⟩
    split at hback
    · next hnode =>
      exact ⟨hback.resident, hback.ready, hback.waitFor, hback.bay, hback.pc, hback.resumes, hback.tid, hback.stackSlot, hq,
        fun _ _ => ⟨hback.g, hback.segs, hback.fmts, hback.cq, hback.rq, hback.groups, hback.kept, hback.granted⟩,
        fun k hk => by cases hk.symm.trans hnode.2⟩
    · next hnode =>
      exact ⟨hback.resident, hback.ready, hback.waitFor, hback.bay, hback.pc, hback.resumes, hback.tid, hback.stackSlot, hq,
        fun hi hf => absurd ⟨hi, hf⟩ hnode, fun k hk => ⟨hback.cls k hk, hback.frozenClass, hback.groups⟩⟩

end Sys2Proof.Machine
end

section
/-! The checks of a matrix word at its meeting, in their order (R252, R256, R263, R266). -/

namespace Sys2Proof.Machine

open Sys2Proof.Spec

/-! ### Sequences of checks -/

section
variable {α : Type} {b c : Bool} {code fva : Nat} {f : Unit → M α} {s : State} {r : Except Stop (α × State)}

/-- What follows a check that holds. -/
theorem need_then (h : b = true) (hr : f () s = r) : (need b code fva >>= f) s = r := by
  rw [M.bind_ok (need_true h code fva s)]
  exact hr

/-- A check that fails ends the sequence. -/
theorem need_else (h : b = false) : (need b code >>= f) s = .error (.trap (plainCause code)) := M.bind_error (need_false h code 0 s)

/-- The same of a check that is made only under a condition. -/
theorem guarded_then (h : c = true → b = true) (hr : f () s = r) : (if c = true then need b code fva >>= f else f ()) s = r := by
  split
  · next hc => exact need_then (h hc) hr
  · exact hr

theorem guarded_else (hc : c = true) (h : b = false) : (if c = true then need b code >>= f else f ()) s = .error (.trap (plainCause code)) := by
  rw [if_pos hc]
  exact need_else h

end

section
variable {α β : Type} {c : Prop} {_ : Decidable c} {k : WaitFor} {f : Unit → M α} {s : State} {r : Except Stop (α × State)}

/-- A wait that is due ends the sequence. -/
theorem wait_due (h : c) : (if c then waitOn k >>= f else f ()) s = .error (.wait k s) := by
  rw [if_pos h]
  rfl

/-- What follows a wait that is not due. -/
theorem wait_past (h : ¬c) (hr : f () s = r) : (if c then waitOn k >>= f else f ()) s = r := by
  rw [if_neg h]
  exact hr

end

/-! ### The kinds of matrix words (R252, R254, R266) -/

theorem MatrixKind.ganged_iff (k : MatrixKind) : k.ganged = true ↔ gangedKind k := by
  simp [MatrixKind.ganged, gangedKind, or_assoc]

theorem MatrixKind.product_iff (k : MatrixKind) : k.product = true ↔ productKind k := by
  simp [MatrixKind.product, productKind, or_assoc]

theorem MatrixKind.pinned_iff (k : MatrixKind) (w : SW) : k.pinned w = true ↔ pinnedUse k w := by
  simp [MatrixKind.pinned, pinnedUse, mxPb, or_assoc]

theorem MatrixKind.image_iff (k : MatrixKind) : (k == .rsave || k == .rload) = true ↔ imageKind k := by
  simp [imageKind]

theorem MatrixKind.takes_iff (k : MatrixKind) (w : SW) : (k.ganged && !k.pinned w) = true ↔ takesRegisters k w := by
  rw [Bool.and_eq_true, k.ganged_iff, Bool.not_eq_true', ← Bool.not_eq_true, k.pinned_iff]
  rfl

theorem MatrixKind.counted_iff (k : MatrixKind) : (k.product || (k == .rsave || k == .rload) || k == .ldacc || k == .stacc) = true ↔
    k ≠ .ldb ∧ k ≠ .zero := by
  cases k <;> decide

/-! ### What each check asks -/

/-- A member stands at the anchor's word, in the anchor's gang (R252). -/
structure Agrees (l : Ln) (k : MatrixKind) (w : SW) (m : Member) : Prop where
  gang : m.g.gang = l.g.gang
  acc : m.w.accNo = w.accNo
  shape : m.w.shNo = w.shNo
  format : m.w.fmtNo = w.fmtNo
  fields : m.w.imm = w.imm
  kind : ∀ k' w', m.g.meet = some (k', w') → k' = k

/-- The tile is allotted, and each member's registers of B are mapped where it runs (R246, R252). -/
def MeetLegal (l : Ln) (k : MatrixKind) (w : SW) (ms : List Member) : Prop :=
  (k = .ldb ∨ w.accNo < l.t.kernel.tiles) ∧ (takesRegisters k w → (l.mxShape w).valid = true → fmtBits (fmtBF (l.mxFmt w).toNat) ≠ 0 →
    bMapped ms (quarterSize l (l.mxShape w) (l.mxFmt w).toNat) = true)

/-! ### What the meeting does once its checks have passed -/

/-- The queue of the word's space has no room for the accesses of one more operation (R257). -/
def AccessesFull (s : State) (l : Ln) (k : MatrixKind) (w : SW) : Prop :=
  k ≠ .ldb ∧ k ≠ .zero ∧ 63 ≤ s.pathCount l.t.key l.g (if w.imm.getLsbD 0 then 1 else 0)

/-- A member's group when its word is passed (R173, R252). -/
def Member.passed (m : Member) (l : Ln) (k : MatrixKind) (g : Group) : Group :=
  { g.stirred.mapEng (.c m.path) (fun e => { e.pass (swBytes m.w) with passed := if l.entry.view.service then e.passed else e.passed + 1 }) with
    ganged := if k.ganged then g.ganged + 1 else g.ganged, meet := none }

/-- The machine once an operation is queued and every member has passed its word. -/
def State.meets (s : State) (l : Ln) (k : MatrixKind) (w : SW) (ms : List Member) (op : MatrixOp) : State :=
  ms.foldl (fun s m => s.mapGroup l.t.key m.g.num (m.passed l k))
    ({ s with nextMx := s.nextMx + 1, mqueue := s.mqueue ++ [op] }.mapTeam l.t.key fun t => { t with subst := substSet k (l.mxFmt w).toNat t.subst })

theorem substSet_used {k : MatrixKind} (h : (k.product || k == .ldb) = true) (f : Nat) (old : W64) :
    substSet k f old = old ||| (if k == .ldb then 0 else substBit (fmtAF f)) ||| substBit (fmtBF f) := by
  by_cases hk : k = .ldb
  · subst hk
    exact congrArg (· ||| substBit (fmtBF f)) BitVec.or_zero.symm
  · have hp : productKind k := k.product_iff.1 (by simpa [hk] using h)
    rw [substSet, if_neg hk, if_pos hp, if_neg (by simpa using hk)]
    rfl

theorem substSet_unused {k : MatrixKind} (h : ¬(k.product || k == .ldb) = true) (f : Nat) (old : W64) : substSet k f old = old := by
  have hn : k.product = false ∧ k ≠ .ldb := by simpa using h
  rw [substSet, if_neg hn.2, if_neg fun hp => by rw [k.product_iff.2 hp] at hn; cases hn.1]

theorem State.mapTeam_self (s : State) (key : Nat) {f : Team → Team} (h : ∀ t, f t = t) : s.mapTeam key f = s := by
  unfold State.mapTeam
  simp [h]

section
variable {s : State} {l : Ln} {k : MatrixKind} {w : SW} {ms : List Member}

theorem tile_need : (k == .ldb || decide (w.accNo < l.t.kernel.tiles)) = true ↔ k = .ldb ∨ w.accNo < l.t.kernel.tiles := by simp

theorem mapped_need {valid b : Bool} {bits : Nat} : (!(k.ganged && !k.pinned w && valid && bits != 0) || b) = true ↔
    (takesRegisters k w → valid = true → bits ≠ 0 → b = true) := by
  rw [← k.takes_iff w]
  cases k.ganged && !k.pinned w <;> cases valid <;> cases b <;> simp

theorem lattice_need {bits grk : Nat} : (bits == 0 || [32, 64, 128].any fun b => grk * bits == 8 * b) = true ↔
    bits = 0 ∨ grk * bits = 256 ∨ grk * bits = 512 ∨ grk * bits = 1024 := by simp

theorem groups_need {f grk : Nat} : (!(k.product && scaledFmt (fmtAF f) && fmtGSIZE f != 3) || grk % groupSize f == 0) = true ↔
    (productKind k → scaledFmt (fmtAF f) = true → fmtGSIZE f ≠ 3 → grk % groupSize f = 0) := by
  rw [← k.product_iff]
  cases k.product <;> cases scaledFmt (fmtAF f) <;> simp [or_iff_not_imp_left]

theorem pair_need {f acc : Nat} : (!(mxPaired f && acc % 2 == 1 && k != .ldb)) = true ↔
    ((fmtACCF f = 1 ∨ fmtCOMP f = true) → k ≠ .ldb → acc % 2 = 0) := by
  rw [show (fmtACCF f = 1 ∨ fmtCOMP f = true) ↔ mxPaired f = true by simp [mxPaired]]
  have hodd : acc % 2 = 0 ↔ ¬acc % 2 = 1 := by omega
  rw [hodd]
  cases mxPaired f <;> cases k <;> simp

theorem pinned_need {pin : Option (Nat × Nat × Nat)} {grk grn : Nat} :
    (match pin with | some (a, b, _) => a == grk && b == grn | none => false) = true ↔ ∃ b, pin = some (grk, grn, b) := by
  rcases pin with - | ⟨a, b, c⟩
  · simp
  · simp

theorem pinnedFormat_need {pin : Option (Nat × Nat × Nat)} {bf : Nat} :
    (match pin with | some (_, _, b) => b == bf | none => false) = true ↔ ∃ a b, pin = some (a, b, bf) := by
  rcases pin with - | ⟨a, b, c⟩
  · simp
  · simp

theorem mmas_need {af : Nat} : (!(k == .mmas && decide (af ≤ 1))) = true ↔ (k = .mmas → 1 < af) := by
  cases k <;> simp

theorem rstep_need {f : Nat} : (!(k == .rstep && (fmtACCF f != 0 || fmtSCL f))) = true ↔ (k = .rstep → fmtACCF f = 0 ∧ fmtSCL f = false) := by
  cases k <;> simp

end

section
variable {s : State} {l : Ln} {k : MatrixKind} {w : SW} {ms : List Member} (ha : ∀ m ∈ ms, Agrees l k w m)
include ha

theorem agree_need : (ms.all fun m => m.g.gang == l.g.gang && m.w.accNo == w.accNo && m.w.shNo == w.shNo && m.w.fmtNo == w.fmtNo && m.w.imm == w.imm &&
    (match m.g.meet with | some (k', _) => k' == k | none => true)) = true := by
  refine List.all_eq_true.2 fun m hm => ?_
  obtain ⟨hg, hacc, hsh, hfmt, himm, hk⟩ := ha m hm
  simp only [hg, hacc, hsh, hfmt, himm, beq_self_eq_true, Bool.true_and]
  split
  · next k' w' h => exact beq_iff_eq.2 (hk k' w' h)
  · rfl

/-- STRAND_ILLEGAL comes first. -/
theorem mxMeet_word (hw : ¬MeetLegal l k w ms) : mxMeet l k w ms s = .error (.trap (plainCause 0x02)) := by
  by_cases ht : k = .ldb ∨ w.accNo < l.t.kernel.tiles
  · have hm := Bool.eq_false_iff.2 fun h => hw ⟨ht, mapped_need.1 h⟩
    exact need_then (agree_need ha) (need_then (tile_need.2 ht) (need_else hm))
  · have hm := Bool.eq_false_iff.2 fun h => ht (tile_need.1 h)
    exact need_then (agree_need ha) (need_else hm)

variable (hw : MeetLegal l k w ms)
include hw

/-- Then SHAPE_FAIL. -/
theorem mxMeet_shape (hs : ¬ShapeLegal s l k w) : mxMeet l k w ms s = .error (.trap (plainCause 0x0A)) := by
  have hword : mxMeet l k w ms s = _ := need_then (agree_need ha) (need_then (tile_need.2 hw.1) (need_then (mapped_need.2 hw.2) rfl))
  rw [hword]
  by_cases hv : (l.mxShape w).valid = true
  case neg => exact need_else (Bool.eq_false_iff.2 hv)
  refine need_then hv ?_
  by_cases hl : tileBits (fmtAF (l.mxFmt w).toNat) = 0 ∨ (l.mxShape w).grk * tileBits (fmtAF (l.mxFmt w).toNat) = 256 ∨
      (l.mxShape w).grk * tileBits (fmtAF (l.mxFmt w).toNat) = 512 ∨ (l.mxShape w).grk * tileBits (fmtAF (l.mxFmt w).toNat) = 1024
  case neg => exact need_else (Bool.eq_false_iff.2 fun h => hl (lattice_need.1 h))
  refine need_then (lattice_need.2 hl) ?_
  by_cases hg : productKind k → scaledFmt (fmtAF (l.mxFmt w).toNat) = true → fmtGSIZE (l.mxFmt w).toNat ≠ 3 →
      (l.mxShape w).grk % groupSize (l.mxFmt w).toNat = 0
  case neg => exact need_else (Bool.eq_false_iff.2 fun h => hg (groups_need.1 h))
  refine need_then (groups_need.2 hg) ?_
  rw [M.bind_ok (M.get_run s)]
  have hp : pinnedUse k w ∧ ¬∃ b, s.pinnedShape l.g.bay l.t.key = some ((l.mxShape w).grk, (l.mxShape w).grn, b) := by
    by_contra hn
    exact hs ⟨hv, hl, hg, fun hu => by_contra fun hb => hn ⟨hu, hb⟩⟩
  exact guarded_else ((k.pinned_iff w).2 hp.1) (Bool.eq_false_iff.2 fun h => hp.2 (pinned_need.1 h))

variable (hs : ShapeLegal s l k w)
include hs

/-- Then FORMAT, of every word but those of images. -/
theorem mxMeet_format (hi : ¬imageKind k) (hf : ¬FormatLegal s l k w) : mxMeet l k w ms s = .error (.trap (plainCause 0x14)) := by
  obtain ⟨hv, hl, hg, hp⟩ := hs
  refine need_then (agree_need ha) (need_then (tile_need.2 hw.1) (need_then (mapped_need.2 hw.2) (need_then hv (need_then (lattice_need.2 hl)
    (need_then (groups_need.2 hg) ((M.bind_ok (M.get_run s)).trans (guarded_then (fun hu => pinned_need.2 (hp ((k.pinned_iff w).1 hu))) ?_)))))))
  refine M.bind_error ?_
  rw [if_neg fun h => hi (k.image_iff.1 h)]
  by_cases he : fmtEntryValid (l.mxFmt w).toNat = true
  case neg => exact need_else (Bool.eq_false_iff.2 he)
  refine need_then he ?_
  by_cases hpair : (fmtACCF (l.mxFmt w).toNat = 1 ∨ fmtCOMP (l.mxFmt w).toNat = true) → k ≠ .ldb → w.accNo % 2 = 0
  case neg => exact need_else (Bool.eq_false_iff.2 fun h => hpair (pair_need.1 h))
  refine need_then (pair_need.2 hpair) ?_
  by_cases hpin : pinnedUse k w → ∃ a b, s.pinnedShape l.g.bay l.t.key = some (a, b, fmtBF (l.mxFmt w).toNat)
  case neg =>
    obtain ⟨hu, hn⟩ := Classical.not_imp.1 hpin
    exact guarded_else ((k.pinned_iff w).2 hu) (Bool.eq_false_iff.2 fun h => hn (pinnedFormat_need.1 h))
  refine guarded_then (fun hu => pinnedFormat_need.2 (hpin ((k.pinned_iff w).1 hu))) ?_
  by_cases hm : k = .mmas → 1 < fmtAF (l.mxFmt w).toNat
  case neg => exact need_else (Bool.eq_false_iff.2 fun h => hm (mmas_need.1 h))
  refine need_then (mmas_need.2 hm) ?_
  refine need_else (Bool.eq_false_iff.2 fun h => hf ⟨he, hpair, fun hu a b c hc => ?_, hm, rstep_need.1 h⟩)
  obtain ⟨a', b', h'⟩ := hpin hu
  rw [hc] at h'
  cases h'
  rfl

variable (hf : imageKind k ∨ FormatLegal s l k w) (hengine : l.e = l.g.eng l.who)
include hf hengine

/-- The operands' checks, and what follows them, all earlier checks having passed. -/
theorem mxMeet_operands : ∃ (m : M Operands) (rest : Operands → M Unit), mxMeet l k w ms s = (m >>= rest) s ∧ m s = operandChecks l k w s ∧
    ∀ o s1, (AccessesFull s l k w → rest o s1 = .error (.wait .accesses s1)) ∧
      (¬AccessesFull s l k w → 4 ≤ (s.mqueue.filter fun m => m.bay == l.g.bay).length → rest o s1 = .error (.wait .matrix s1)) ∧
      (¬AccessesFull s l k w → (s.mqueue.filter fun m => m.bay == l.g.bay).length < 4 → ∀ b s2 toks, BTaken l k w ms s1 b s2 →
        s2.nextMx = s.nextMx →
        l.memberTokens ms s2 = .ok (toks, s2) →
        rest o s1 = .ok ((), s2.meets l k w ms { queuedOp s s2 l k w o b with toks := toks.filter fun x => !x.counters.isEmpty })) := by
  obtain ⟨hv, hl, hg, hp⟩ := hs
  refine ⟨_, _, need_then (agree_need ha) (need_then (tile_need.2 hw.1) (need_then (mapped_need.2 hw.2) (need_then hv (need_then (lattice_need.2 hl)
    (need_then (groups_need.2 hg) ((M.bind_ok (M.get_run s)).trans (guarded_then (fun hu => pinned_need.2 (hp ((k.pinned_iff w).1 hu))) rfl))))))),
    ?_, fun o s1 => ?_⟩
  · rcases Classical.em (imageKind k) with hi | hi
    · rw [if_pos (k.image_iff.2 hi)]
      rcases hi with rfl | rfl <;> rfl
    · obtain ⟨he, hpair, hpin, hm, hr⟩ := hf.resolve_left hi
      rw [if_neg fun h => hi (k.image_iff.1 h)]
      refine need_then he (need_then (pair_need.2 hpair) (guarded_then (fun hu => ?_) (need_then (mmas_need.2 hm) (need_then (rstep_need.2 hr) ?_))))
      · obtain ⟨b, hb⟩ := hp ((k.pinned_iff w).1 hu)
        exact pinnedFormat_need.2 ⟨_, _, hb.trans (by rw [hpin ((k.pinned_iff w).1 hu) _ _ _ hb])⟩
      · cases k
        case rsave => exact absurd (.inl rfl) hi
        case rload => exact absurd (.inr rfl) hi
        all_goals rfl
  · have hfull : ((k.product || (k == .rsave || k == .rload) || k == .ldacc || k == .stacc) &&
        decide (s.pathCount l.t.key l.g (if mxLnd w then 1 else 0) ≥ 63)) = true ↔ AccessesFull s l k w := by
      rw [Bool.and_eq_true, k.counted_iff, decide_eq_true_iff, and_assoc]
      rfl
    refine ⟨fun h => wait_due (hfull.2 h), fun h hq => wait_past (fun hc => h (hfull.1 hc)) (wait_due (decide_eq_true hq)),
      fun h hq b s2 toks hb hn htoks => ?_⟩
    refine wait_past (fun hc => h (hfull.1 hc)) (wait_past (fun hc => absurd (of_decide_eq_true hc) (Nat.not_le.2 hq)) ?_)
    refine (M.bind_ok (a := b) (s' := s2) ?_).trans ((M.bind_ok (M.get_run s2)).trans ((M.bind_ok htoks).trans ((M.bind_ok (M.modify_run _ _)).trans ?_)))
    · rcases hb with ⟨ht, rfl, rfl⟩ | ⟨ht, qs, hqs, rfl⟩
      · exact congrFun (if_neg fun hc => ht ((k.takes_iff w).1 hc)) s2
      · exact (congrFun (if_pos ((k.takes_iff w).2 ht)) s1).trans ((M.bind_ok hqs).trans rfl)
    · have hcounted : (k.product || (k == .rsave || k == .rload) || k == .ldacc || k == .stacc) = !(k == .ldb || k == .zero) := by cases k <;> rfl
      rw [hcounted, BitVec.ofNat_toNat, BitVec.setWidth_eq, ← hn, ← hengine]
      by_cases hsub : (k.product || k == .ldb) = true
      · have hset : (fun t : Team => { t with
            subst := t.subst ||| (if k == .ldb then 0 else substBit (fmtAF (l.mxFmt w).toNat)) ||| substBit (fmtBF (l.mxFmt w).toNat) }) =
            fun t => { t with subst := substSet k (l.mxFmt w).toNat t.subst } := by
          funext t
          rw [substSet_used hsub]
        refine (congrFun (if_pos hsub) _).trans ?_
        rw [hset]
        rfl
      · refine (congrFun (if_neg hsub) _).trans ?_
        unfold State.meets
        rw [State.mapTeam_self _ _ fun t => by rw [substSet_unused hsub]]
        rfl

end

end Sys2Proof.Machine
end

section
/-! What the checks and reads of a matrix word leave, and what they raise (R190, R247, R252, R253, R256, R264, R269, R271, R275). -/

namespace Sys2Proof.Machine

open Sys2Proof.Spec

/-! ### States that differ by choices and by what has been seen -/

/-- The machine after reads: choices have been taken, and parties may know more. -/
def State.Looked (s s' : State) : Prop := ∃ tick know, s' = { s with tick := tick, know := know }

theorem State.Looked.frame : Frame State.Looked where
  refl s := ⟨s.tick, s.know, rfl⟩
  trans := by
    rintro a _ _ ⟨_, _, rfl⟩ ⟨tick, know, rfl⟩
    exact ⟨tick, know, rfl⟩

namespace State.Looked

theorem tick (s : State) (n : Nat) : s.Looked { s with tick := n } := ⟨n, s.know, rfl⟩

variable {s s' : State} (h : s.Looked s')
include h

theorem teams : s'.teams = s.teams := by obtain ⟨_, _, rfl⟩ := h; rfl
theorem mqueue : s'.mqueue = s.mqueue := by obtain ⟨_, _, rfl⟩ := h; rfl
theorem nextMx : s'.nextMx = s.nextMx := by obtain ⟨_, _, rfl⟩ := h; rfl
theorem localLoc (t : Team) (bay space o n : Nat) : s'.localLoc t bay space o n = s.localLoc t bay space o n := by obtain ⟨_, _, rfl⟩ := h; rfl
theorem team? (k : Nat) : s'.team? k = s.team? k := by rw [State.team?, State.team?, h.teams]

end State.Looked

theorem State.readAs_looked (s : State) (p : Place) (rs : List Region) (va : Option Nat) (loc n : Nat) : s.Looked (s.readAs p rs va loc n).2 :=
  ⟨_, _, rfl⟩

theorem State.scaleBytes_tick (x : MatrixSlot) (imaged : List Nat) (n off : Nat) (s : State) :
    ∃ tick, (s.scaleBytes x imaged off n).2 = { s with tick := tick } := by
  induction n generalizing s off with
  | zero => exact ⟨s.tick, rfl⟩
  | succ n ih => exact ih _ _

theorem State.scaleRead_tick (s : State) (bay team : Nat) (imaged : List Nat) (off n : Nat) :
    ∃ tick, (s.scaleRead bay team imaged off n).2 = { s with tick := tick } := by
  unfold State.scaleRead
  split
  · exact ⟨s.tick, rfl⟩
  · exact s.scaleBytes_tick _ _ _ _

/-! ### Meanings that only look -/

/-- A trap that is not of a store that an uncorrectable error has met. -/
abbrev Cause.OfChecks (c : Cause) : Prop := c.code ≠ cECC_UNCORR

/-- A meaning that only looks, and raises what its own checks raise. -/
abbrev M.Looks {α : Type} (m : M α) : Prop := m.Within State.Looked Cause.OfChecks

namespace M.Looks

variable {α β : Type}

theorem pure (a : α) : M.Looks (Pure.pure a : M α) := M.Within.pure State.Looked.frame a

theorem bind {m : M α} {f : α → M β} (hm : m.Looks) (hf : ∀ a, (f a).Looks) : (m >>= f).Looks := M.Within.bind State.Looked.frame hm hf

theorem ite {c : Prop} {_ : Decidable c} {m n : M α} (hm : m.Looks) (hn : n.Looks) : (if c then m else n).Looks := M.Within.ite hm hn

theorem need (b : Bool) {code fva : Nat} (h : code ≠ cECC_UNCORR) : (Machine.need b code fva).Looks := M.Within.need State.Looked.frame h

theorem raise {code fva info : Nat} {write fetch : Bool} (h : code ≠ cECC_UNCORR) : (Machine.raise code fva info write fetch : M α).Looks := fun _ => h

theorem waitOn (w : WaitFor) : (Machine.waitOn w : M α).Looks := fun s => State.Looked.frame.refl s

theorem getThen {f : State → M α} (h : ∀ s, Machine.Within State.Looked Cause.OfChecks s (f s s)) : (get >>= f).Looks := h

theorem get_bind {f : State → M α} (h : ∀ s, (f s).Looks) : (get >>= f).Looks := fun s => h s s

end M.Looks

theorem teamOf_looks (k : Nat) : (teamOf k).Looks := by
  intro s
  unfold teamOf
  split
  · exact State.Looked.frame.refl s
  · trivial

theorem Ln.group_looks (l : Ln) : l.group.Looks := by
  refine .bind (teamOf_looks _) fun t => ?_
  split
  · exact .pure _
  · exact fun _ => trivial

theorem choose_looks (n : Nat) : (choose n).Looks := by
  intro s
  show s.Looked (if n ≤ 1 then s else { s with tick := s.tick + 1 })
  split
  · exact State.Looked.frame.refl s
  · exact .tick s _

theorem readLane_looks (g : Group) (reg lane : Nat) (vc : List Nat) : (readLane g reg lane vc).Looks := .bind (choose_looks _) fun _ => .pure _

theorem readLanes_looks (g : Group) (reg : Nat) (vc : List Nat) (n : Nat) : (readLanes g reg vc n).Looks := by
  induction n with
  | zero => exact .pure _
  | succ n ih => exact .bind ih fun _ => .bind (readLane_looks _ _ _ _) fun _ => .pure _

theorem Ln.uniform_looks (l : Ln) (n : Nat) : (l.uniform n).Looks := .bind l.group_looks fun _ => .ite (.pure _) (readLane_looks _ _ _ _)

theorem Ln.mxLimit_looks (l : Ln) (lnd write : Bool) (off n : Nat) : (l.mxLimit lnd write off n).Looks :=
  .get_bind fun _ => .ite (.raise (by decide)) (.pure _)

theorem Ln.mxLimits_looks (l : Ln) (lnd write : Bool) (rs : List (Nat × Nat)) : (l.mxLimits lnd write rs).Looks := by
  induction rs with
  | nil => exact .pure _
  | cons r rs ih => exact .bind (l.mxLimit_looks _ _ _ _) fun _ => ih

theorem Ln.afterOwnWrites_looks (l : Ln) : l.afterOwnWrites.Looks := .get_bind fun _ => .ite (.waitOn _) (.pure _)

theorem readSpace_looks (p : Place) (rs : List Region) (x : Located) (n : Nat) : (readSpace p rs x n).Looks := fun s => s.readAs_looked p rs x.va x.loc n

theorem Ln.mxBytes_looks (l : Ln) (lnd : Bool) (n off : Nat) : (l.mxBytes lnd off n).Looks := by
  induction n generalizing off with
  | zero => exact .pure _
  | succ n ih => exact .get_bind fun _ => .bind (readSpace_looks _ _ _ _) fun _ => .bind (ih _) fun _ => .pure _

theorem Ln.mxList_looks (l : Ln) (lnd : Bool) (n off : Nat) : (l.mxList lnd off n).Looks := by
  induction n generalizing off with
  | zero => exact .pure _
  | succ n ih => exact .get_bind fun _ => .bind (readSpace_looks _ _ _ _) fun _ => .bind (ih _) fun _ => .pure _

theorem Ln.mxJobs_looks (l : Ln) (w : SW) (k : MatrixKind) (bits grk ke ya yt j : Nat) (xs : List (Nat × Nat)) :
    (l.mxJobs w k bits grk ke ya yt j xs).Looks := by
  induction xs generalizing j with
  | nil => exact .pure _
  | cons x xs ih =>
    obtain ⟨a, t⟩ := x
    unfold Ln.mxJobs
    exact .ite (.ite (.bind (.raise (by decide)) fun _ => .bind (l.mxLimits_looks _ _ _) fun _ => ih _) (.bind (l.mxLimits_looks _ _ _) fun _ => ih _)) (ih _)

theorem scaleLimit_looks (rs : List (Nat × Nat)) : (scaleLimit rs).Looks := by
  induction rs with
  | nil => exact .pure _
  | cons r rs ih =>
    obtain ⟨o, n⟩ := r
    exact .ite (.bind (.raise (by decide)) fun _ => ih) ih

theorem Ln.mxScale_looks (l : Ln) (w : SW) (f grk me : Nat) (gather : Bool) : (l.mxScale w f grk me gather).Looks := by
  refine .bind (.need _ (by decide)) fun _ => ?_
  split
  · exact .pure _
  · refine .bind (l.uniform_looks _) fun v => .getThen fun s => ?_
    obtain ⟨tick, ht⟩ := s.scaleRead_tick l.g.bay l.t.key (l.g.eng l.who).imaged (v.toNat % 2 ^ 16) 16
    generalize s.scaleRead l.g.bay l.t.key (l.g.eng l.who).imaged (v.toNat % 2 ^ 16) 16 = read at ht ⊢
    obtain ⟨lay, s1⟩ := read
    cases ht
    exact M.Within.after State.Looked.frame (M.Looks.bind (.need _ (by decide)) fun _ => .pure _) (.tick s tick)

theorem Ln.productOperands_looks (l : Ln) (k : MatrixKind) (w : SW) (f grk me ne ke : Nat) : (l.productOperands k w f grk me ne ke).Looks := by
  unfold Ln.productOperands
  refine .bind (l.uniform_looks _) fun y => .bind (.ite ?_ (l.mxScale_looks _ _ _ _ _)) fun su => ?_
  · split
    · exact .pure _
    · exact .bind (l.uniform_looks _) fun _ => .pure _
  obtain ⟨su, lay, g0⟩ := su
  refine .bind (.ite (l.uniform_looks _) (.pure _)) fun yr => .bind (.ite (l.uniform_looks _) (.pure _)) fun yt => .bind (.ite ?_ (.pure _)) fun jobs => ?_
  · exact .bind (l.mxLimit_looks _ _ _ _) fun _ => .bind (.need _ (by decide)) fun _ => .bind (l.mxLimit_looks _ _ _ _) fun _ =>
      .bind (.need _ (by decide)) fun _ => .bind l.afterOwnWrites_looks fun _ => .bind (l.mxList_looks _ _ _) fun _ =>
      .bind (l.mxList_looks _ _ _) fun _ => .pure _
  cases su with
  | none => exact .bind (l.mxJobs_looks _ _ _ _ _ _ _ _ _) fun _ => .bind (.need _ (by decide)) fun _ => .pure _
  | some o =>
    exact M.Within.guard State.Looked.frame (M.Looks.need _ (by decide)) fun _ => M.Looks.bind (scaleLimit_looks _) fun _ =>
      .bind (.need _ (by decide)) fun _ => .bind (l.mxJobs_looks _ _ _ _ _ _ _ _ _) fun _ => .bind (.need _ (by decide)) fun _ => .pure _

theorem Ln.imageOperands_looks (l : Ln) (k : MatrixKind) (w : SW) (f me ne : Nat) : (l.imageOperands k w f me ne).Looks := by
  unfold Ln.imageOperands
  refine .bind ?_ fun win => ?_
  · split
    · exact .bind (l.uniform_looks _) fun _ => .pure _
    · exact .pure _
  obtain ⟨row0, col0, rows, cols⟩ := win
  refine .bind (.need _ (by decide)) fun _ => .bind (.need _ (by decide)) fun _ => .bind (.need _ (by decide)) fun _ =>
    .bind (.need _ (by decide)) fun _ => .bind ?_ fun sid => .bind (l.uniform_looks _) fun y => .bind (l.mxLimits_looks _ _ _) fun _ =>
    .bind (.need _ (by decide)) fun _ => .bind (.ite ?_ (.pure _)) fun _ => .pure _
  · split
    · exact l.uniform_looks _
    · exact .pure _
  · refine .bind l.afterOwnWrites_looks fun _ => ?_
    have hread : ∀ n, (l.mxBytes (mxLnd w) y.toNat n).Looks := fun n => l.mxBytes_looks (mxLnd w) n y.toNat
    generalize l.mxBytes (mxLnd w) y.toNat = read at hread ⊢
    exact .bind (hread 64) fun _ => .bind (.need _ (by decide)) fun _ => .bind (.need _ (by decide)) fun _ => .pure _

theorem Ln.regionOperands_looks (l : Ln) (k : MatrixKind) (w : SW) (f me ne : Nat) : (l.regionOperands k w f me ne).Looks :=
  .bind (l.uniform_looks _) fun _ => .bind (l.mxLimits_looks _ _ _) fun _ => .bind (.ite (.pure _) (.raise (by decide))) fun _ => .pure _

/-- The checks of a word's operands only look. -/
theorem operandChecks_looks (l : Ln) (k : MatrixKind) (w : SW) : (operandChecks l k w).Looks := by
  cases k
  case ldb => exact .pure _
  case zero => exact .pure _
  case rsave => exact l.imageOperands_looks _ _ _ _ _
  case rload => exact l.imageOperands_looks _ _ _ _ _
  case ldacc => exact l.regionOperands_looks _ _ _ _ _
  case stacc => exact l.regionOperands_looks _ _ _ _ _
  all_goals exact l.productOperands_looks _ _ _ _ _ _ _

/-! ### B and the tokens (R253, R302) -/

theorem readStream_looks (g : Group) (vc : List Nat) (width n r : Nat) : (readStream g vc width r n).Looks := by
  induction n generalizing r with
  | zero => exact .pure _
  | succ n ih => exact .bind (readLanes_looks _ _ _ _) fun _ => .bind (ih _) fun _ => .pure _

theorem readQuarters_looks (ms : List Member) (width nr n : Nat) : (readQuarters ms width nr n).Looks := by
  induction n with
  | zero => exact .pure _
  | succ n ih =>
    refine .bind ih fun rest => ?_
    split
    · exact .pure _
    · exact .bind (readStream_looks _ _ _ _ _) fun _ => .pure _

/-- What was taken of B was taken in a look. -/
theorem bTaken_looked {l : Ln} {k : MatrixKind} {w : SW} {ms : List Member} {s1 s2 : State} {b : Option (List Nat)} (h : BTaken l k w ms s1 b s2) :
    s1.Looked s2 := by
  rcases h with ⟨-, -, rfl⟩ | ⟨-, qs, hqs, -⟩
  · exact State.Looked.frame.refl _
  · exact (readQuarters_looks _ _ _ _).ok hqs

end Sys2Proof.Machine
end

section
/-! Operands that are there, aligned and well-formed pass every check (R156, R190, R256, R257, R264, R267, R269, R271, R273, R275). -/

namespace Sys2Proof.Machine

open Sys2Proof.Spec

/-! ### Meanings that end -/

/-- The meaning ends from this state, in an answer and a state with this property. -/
def M.Gives {α : Type} (m : M α) (s : State) (P : α → State → Prop) : Prop := ∃ a s', m s = .ok (a, s') ∧ P a s'

namespace M.Gives

variable {α β : Type} {m : M α} {f : α → M β} {s : State} {P : α → State → Prop} {Q : β → State → Prop}
  {b c : Bool} {code fva : Nat} {g : Unit → M α}

theorem bind (hm : m.Gives s P) (hf : ∀ a s', P a s' → (f a).Gives s' Q) : (m >>= f).Gives s Q := by
  obtain ⟨a, s', h, hp⟩ := hm
  obtain ⟨x, u, hx, hq⟩ := hf a s' hp
  exact ⟨x, u, (M.bind_ok h).trans hx, hq⟩

theorem pure {a : α} (h : P a s) : M.Gives (Pure.pure a) s P := ⟨a, s, rfl, h⟩

theorem of_ok {a : α} {s' : State} (h : m s = .ok (a, s')) (hp : P a s') : m.Gives s P := ⟨a, s', h, hp⟩

theorem need_then (h : b = true) (hg : (g ()).Gives s P) : (Machine.need b code fva >>= g).Gives s P := by
  obtain ⟨x, u, hx, hp⟩ := hg
  exact ⟨x, u, Machine.need_then h hx, hp⟩

theorem guarded_then (h : c = true → b = true) (hg : (g ()).Gives s P) : (if c = true then Machine.need b code fva >>= g else g ()).Gives s P := by
  split
  · next hc => exact need_then (h hc) hg
  · exact hg

theorem get_then {f : State → M α} (h : (f s).Gives s P) : (get >>= f).Gives s P := h

theorem mono {P' : α → State → Prop} (h : m.Gives s P) (hp : ∀ a s', P a s' → P' a s') : m.Gives s P' := by
  obtain ⟨a, s', e, h⟩ := h
  exact ⟨a, s', e, hp a s' h⟩

end M.Gives

/-! ### An engine in its state -/

/-- The state holds the engine's team and group as the word looks at them. -/
structure Ln.Here (l : Ln) (s : State) : Prop where
  team : s.team? l.t.key = some l.t
  group : l.t.group? l.g.num = some l.g
  engine : l.e = l.g.eng l.who
  place : l.place = enginePlace l.t l.g l.who

theorem EngineTurn.here {s : State} {l : Ln} (h : EngineTurn s l) : l.Here s := by
  refine ⟨h.team, h.group, h.engine, ?_⟩
  obtain ⟨t, g, who, entry, -, rfl⟩ := h
  rfl

theorem lnOf_here {s : State} {t : Team} {g : Group} (ht : s.team? t.key = some t) (hg : t.group? g.num = some g) (who : Eng) (entry : CqEntry) :
    (lnOf t g who entry).Here s := ⟨ht, hg, rfl, rfl⟩

section
variable {s s' : State} {l : Ln}

theorem Ln.Here.looked (h : l.Here s) (hs : s.Looked s') : l.Here s' := ⟨(hs.team? _).trans h.team, h.group, h.engine, h.place⟩

theorem Ln.Here.group_run (h : l.Here s) : l.group s = .ok (l.g, s) := by
  unfold Ln.group groupOf
  rw [M.bind_ok (teamOf_ok h.team), h.group]
  rfl

/-- The state is `s` but for the choices taken. -/
def State.Ticked (s s' : State) : Prop := ∃ tick, s' = { s with tick := tick }

theorem State.Ticked.refl (s : State) : s.Ticked s := ⟨s.tick, rfl⟩

theorem State.Ticked.looked (h : s.Ticked s') : s.Looked s' := by
  obtain ⟨tick, rfl⟩ := h
  exact .tick s tick

theorem State.Ticked.trans {s'' : State} (h : s.Ticked s') (h' : s'.Ticked s'') : s.Ticked s'' := by
  obtain ⟨_, rfl⟩ := h
  obtain ⟨tick, rfl⟩ := h'
  exact ⟨tick, rfl⟩

/-- A uniform register gives a value that the engine may read (R156, R190). -/
theorem Ln.uniform_gives (h : l.Here s) (hs : s.Ticked s') (n : Nat) : (l.uniform n).Gives s' fun v u => mayReadY l n v ∧ s.Ticked u := by
  refine .bind (.of_ok (P := fun g u => g = l.g ∧ u = s') (h.looked hs.looked).group_run ⟨rfl, rfl⟩) fun g u hu => ?_
  obtain ⟨rfl, rfl⟩ := hu
  rw [← h.engine]
  by_cases hn : n < 4
  · rw [if_pos hn]
    exact .pure ⟨by rw [mayReadY, if_pos hn], hs⟩
  · rw [if_neg hn]
    refine .bind (P := fun i v => (0 < (l.g.regOptions (regY n) 0 l.e.vc).length → i < (l.g.regOptions (regY n) 0 l.e.vc).length) ∧ s.Ticked v)
      (.of_ok (s' := if (l.g.regOptions (regY n) 0 l.e.vc).length ≤ 1 then u else { u with tick := u.tick + 1 }) rfl ⟨fun h => pickOf_lt h _, ?_⟩)
      fun i v hi => .pure ⟨?_, hi.2⟩
    · split
      · exact hs
      · exact hs.trans ⟨_, rfl⟩
    · rw [mayReadY, if_neg hn]
      rcases Nat.eq_zero_or_pos (l.g.regOptions (regY n) 0 l.e.vc).length with h0 | h0
      · exact .inr ⟨List.length_eq_zero_iff.1 h0, List.getD_eq_default _ _ (h0.le.trans (Nat.zero_le i))⟩
      · exact .inl (by rw [List.getD_eq_getElem _ _ (hi.1 h0)]; exact List.getElem_mem _)

/-! ### Ranges of pad and lnd -/

variable {w : SW}

theorem Ln.mxLimit_passes (hs : s.Looked s') (write : Bool) {off n : Nat} (h : InPart s l w (off, n)) :
    l.mxLimit (mxLnd w) write off n s' = .ok ((), s') := by
  unfold Ln.mxLimit
  rw [M.bind_ok (M.get_run s')]
  dsimp only
  rw [hs.localLoc]
  refine congrFun (if_neg ?_) s'
  rcases h with h0 | hl
  · simp [show n = 0 from h0]
  · simp only [mxLnd, Bool.and_eq_true, not_and, Bool.not_eq_true, Option.isNone_eq_false_iff]
    exact fun _ => hl

theorem Ln.mxLimits_pass (hs : s.Looked s') (write : Bool) {rs : List (Nat × Nat)} (h : ∀ r ∈ rs, InPart s l w r) :
    l.mxLimits (mxLnd w) write rs s' = .ok ((), s') := by
  induction rs with
  | nil => rfl
  | cons r rs ih =>
    obtain ⟨o, n⟩ := r
    exact (M.bind_ok (Ln.mxLimit_passes hs write (h _ List.mem_cons_self))).trans (ih fun r hr => h r (List.mem_cons_of_mem _ hr))

/-- No wait for the engine's own writes (R257). -/
theorem Ln.afterOwnWrites_passes (hs : s.Looked s') (h : NoOwnWrites s l) : l.afterOwnWrites s' = .ok ((), s') := by
  unfold Ln.afterOwnWrites
  rw [M.bind_ok (M.get_run s'), hs.mqueue]
  refine congrFun (if_neg ?_) s'
  simp only [List.any_eq_true, Bool.and_eq_true, Bool.or_eq_true, beq_iff_eq, not_exists, not_and, not_or]
  exact h

theorem Ln.mxList_gives (l : Ln) (lnd : Bool) (n off : Nat) (s : State) : (l.mxList lnd off n).Gives s fun _ s' => s.Looked s' := by
  obtain ⟨rows, s', h⟩ : ∃ rows s', l.mxList lnd off n s = .ok (rows, s') := by
    induction n generalizing off s with
    | zero => exact ⟨_, _, rfl⟩
    | succ n ih =>
      obtain ⟨rows, s', h⟩ := ih (off + 2) (s.readAs l.place [] none ((s.localLoc l.t l.g.bay (if lnd then 2 else 1) off 2).getD 0) 2).2
      exact ⟨_, _, (M.bind_ok (M.get_run s)).trans ((M.bind_ok rfl).trans ((M.bind_ok h).trans rfl))⟩
  exact ⟨rows, s', h, (l.mxList_looks lnd n off).ok h⟩

theorem Ln.mxBytes_gives (l : Ln) (lnd : Bool) (n off : Nat) (s : State) : ∃ bs s', l.mxBytes lnd off n s = .ok (bs, s') := by
  induction n generalizing off s with
  | zero => exact ⟨_, _, rfl⟩
  | succ n ih =>
    obtain ⟨bs, s', h⟩ := ih (off + 1) (s.readAs l.place [] none ((s.localLoc l.t l.g.bay (if lnd then 2 else 1) off 1).getD 0) 1).2
    exact ⟨_, _, (M.bind_ok (M.get_run s)).trans ((M.bind_ok rfl).trans ((M.bind_ok h).trans rfl))⟩

/-! ### Products (R256, R264, R267, R269) -/

/-- What the scale operand of a product resolves to: where the record is, the record, the first group (R264, R273). -/
def ScaleOf (s : State) (l : Ln) (k : MatrixKind) (w : SW) (x : Option Nat × Nat × Nat) : Prop :=
  mxSu w = none ∧ x = (none, 0, 0) ∨ ∃ n v tick, mxSu w = some n ∧ mayReadY l n v ∧
    x = if k = .rstep then (some (v.toNat % 2 ^ 16), 0, 0) else
      (some (v.toNat % 2 ^ 16), (({ s with tick := tick } : State).scaleRead l.g.bay l.t.key l.e.imaged (v.toNat % 2 ^ 16) 16).1, v.toNat / 2 ^ 16)

theorem scaleLimit_passes {rs : List (Nat × Nat)} (h : ∀ r ∈ rs, r.1 + r.2 ≤ 0x10000) (s : State) : scaleLimit rs s = .ok ((), s) := by
  induction rs with
  | nil => rfl
  | cons r rs ih =>
    obtain ⟨o, n⟩ := r
    exact (congrFun (if_neg (Nat.not_lt.2 (h (o, n) List.mem_cons_self))) s).trans (ih fun r hr => h r (List.mem_cons_of_mem _ hr))

theorem Ln.mxJobs_pass {k : MatrixKind} {bits grk ke ya : Nat} (hs : s.Looked s') {jobs : List (Nat × Nat)}
    (h : ∀ j ∈ jobs.filter (fun j => j.1 != 0xFFFF && j.2 != 0xFFFF), j.2 < 128 ∧
      ∀ r ∈ rowRanges k bits grk ke ya j.1, InPart s l w r) (yt n : Nat) :
    l.mxJobs w k bits grk ke ya yt n jobs s' = .ok ((), s') := by
  induction jobs generalizing n with
  | nil => rfl
  | cons j jobs ih =>
    obtain ⟨a, t⟩ := j
    unfold Ln.mxJobs
    by_cases hj : (a != 0xFFFF && t != 0xFFFF) = true
    · rw [List.filter_cons_of_pos (by exact hj)] at h
      obtain ⟨ht, hr⟩ := h _ List.mem_cons_self
      rw [if_pos hj, if_neg (Nat.not_le.2 ht)]
      exact (M.bind_ok (Ln.mxLimits_pass hs false hr)).trans (ih (fun j hm => h j (List.mem_cons_of_mem _ hm)) _)
    · rw [List.filter_cons_of_neg (by exact hj)] at h
      rw [if_neg hj]
      exact ih h _

/-- The record of a product's scales is read, and is the format's (R264). -/
theorem Ln.mxScale_gives {k : MatrixKind} {rows : List Nat} (hl : l.Here s) (hs : s.Ticked s') (hk : k ≠ .rstep) (h : ScaleGood s l k w rows) :
    (l.mxScale w (l.mxFmt w).toNat (l.mxShape w).grk (l.extents (l.mxShape w)).1 (k == .gmma)).Gives s' fun x u => s.Ticked u ∧ ScaleOf s l k w x := by
  rw [ScaleGood, if_neg hk] at h
  obtain ⟨hsu, hrec⟩ := h
  unfold Ln.mxScale
  refine .need_then (beq_iff_eq.2 hsu) ?_
  cases hn : mxSu w with
  | none => exact .pure ⟨hs, .inl ⟨hn, rfl⟩⟩
  | some n =>
    refine .bind (Ln.uniform_gives hl hs n) fun v u hv => ?_
    obtain ⟨hv, tick, rfl⟩ := hv
    obtain ⟨-, -, hvalid, hfmt, hgs, hzp, hrows, hgroups, -⟩ := hrec n v tick hn hv
    refine .get_then ?_
    rw [← hl.engine]
    obtain ⟨tick', ht⟩ := ({ s with tick := tick } : State).scaleRead_tick l.g.bay l.t.key l.e.imaged (v.toNat % 2 ^ 16) 16
    generalize hread : ({ s with tick := tick } : State).scaleRead l.g.bay l.t.key l.e.imaged (v.toNat % 2 ^ 16) 16 = read
      at ht hvalid hfmt hgs hzp hrows hgroups
    obtain ⟨lay, s1⟩ := read
    cases ht
    have hneed : (decide (v.toNat % 2 ^ 16 + 16 > scalePart) || (scaleRecordValid lay && recFmt lay == fmtAF (l.mxFmt w).toNat &&
        recGsize lay == fmtGSIZE (l.mxFmt w).toNat && recZp lay == fmtZP (l.mxFmt w).toNat &&
        (k == .gmma || decide ((l.extents (l.mxShape w)).1 ≤ recRows lay)) &&
        decide (v.toNat / 2 ^ 16 + (l.mxShape w).grk / groupSize (l.mxFmt w).toNat ≤ recGroups lay))) = true := by
      simp only [Bool.or_eq_true, Bool.and_eq_true, beq_iff_eq, decide_eq_true_iff]
      exact .inr ⟨⟨⟨⟨⟨hvalid, hfmt⟩, hgs⟩, hzp⟩, hrows⟩, hgroups⟩
    refine .bind (P := fun _ u => u = { s with tick := tick' }) (.of_ok rfl rfl) fun _ u hu => ?_
    subst hu
    refine .need_then hneed (.pure ⟨⟨tick', rfl⟩, .inr ⟨n, v, tick, hn, hv, ?_⟩⟩)
    rw [if_neg hk, hread]

/-- The accesses of the scale operand lie in the scale part (R247, R264, R273). -/
theorem scaleGood_tail {k : MatrixKind} {rows : List Nat} {o lay g0 : Nat} (h : ScaleGood s l k w rows) (hx : ScaleOf s l k w (some o, lay, g0)) :
    o % 64 = 0 ∧ (k = .rstep → o + 4 * (l.extents (l.mxShape w)).2.1 ≤ 0x10000) ∧
    (k ≠ .rstep → o + 16 ≤ 0x10000 ∧ ∀ a ∈ rows, a < recRows lay ∧
      ∀ r ∈ scaleRanges lay o g0 (((l.extents (l.mxShape w)).2.2 + groupSize (l.mxFmt w).toNat - 1) / groupSize (l.mxFmt w).toNat) a,
        r.1 + r.2 ≤ 0x10000) := by
  obtain ⟨-, hx⟩ | ⟨n, v, tick, hn, hv, hx⟩ := hx
  · cases hx
  by_cases hk : k = .rstep
  · rw [if_pos hk] at hx
    cases hx
    rw [ScaleGood, if_pos hk] at h
    obtain ⟨hlim, hal⟩ := h n v hn hv
    exact ⟨by omega, fun _ => hlim, fun hne => absurd hk hne⟩
  · rw [if_neg hk] at hx
    cases hx
    rw [ScaleGood, if_neg hk] at h
    obtain ⟨hlim, hal, -, -, -, -, -, -, hrows⟩ := h.2 n v tick hn hv
    exact ⟨hal, fun he => absurd he hk, fun _ => ⟨hlim, hrows⟩⟩

/-- The gathered rows and targets of a product are read (R269). -/
theorem Ln.mxLists_give (l : Ln) (lnd : Bool) (n a b : Nat) (s : State) :
    ∃ rows s1 tos s2, l.mxList lnd a n s = .ok (rows, s1) ∧ l.mxList lnd b n s1 = .ok (tos, s2) ∧ s.Looked s2 := by
  obtain ⟨rows, s1, h1, hl1⟩ := l.mxList_gives lnd n a s
  obtain ⟨tos, s2, h2, hl2⟩ := l.mxList_gives lnd n b s1
  exact ⟨rows, s1, tos, s2, h1, h2, State.Looked.frame.trans hl1 hl2⟩

/-- What a gathering product names is there (R269). -/
def GatherGood (s : State) (l : Ln) (w : SW) : Prop :=
  NoOwnWrites s l ∧ ∀ yr yt, mayReadY l (field w.imm.toNat 8 6) yr → mayReadY l (field w.imm.toNat 11 9) yt →
    InPart s l w (yr.toNat, 2 * (l.extents (l.mxShape w)).1) ∧ yr.toNat % 2 = 0 ∧ InPart s l w (yt.toNat, 2 * (l.extents (l.mxShape w)).1) ∧
    yt.toNat % 2 = 0 ∧ ∀ tick rows s1 tos s2,
      l.mxList (w.imm.getLsbD 0) yr.toNat (l.extents (l.mxShape w)).1 { s with tick := tick } = .ok (rows, s1) →
      l.mxList (w.imm.getLsbD 0) yt.toNat (l.extents (l.mxShape w)).1 s1 = .ok (tos, s2) → JobsGood s l .gmma w (rows.zip tos)

/-- Whatever a gather reads, its scale operand is good. -/
theorem gatherGood_scale (hl : l.Here s) (h : GatherGood s l w) : ∃ rows, ScaleGood s l .gmma w rows := by
  obtain ⟨yr, -, -, hyr, -⟩ := Ln.uniform_gives hl (.refl s) (field w.imm.toNat 8 6)
  obtain ⟨yt, -, -, hyt, -⟩ := Ln.uniform_gives hl (.refl s) (field w.imm.toNat 11 9)
  obtain ⟨-, h⟩ := h
  obtain ⟨-, -, -, -, h⟩ := h yr yt hyr hyt
  obtain ⟨rows, s1, tos, s2, h1, h2, -⟩ := l.mxLists_give (w.imm.getLsbD 0) (l.extents (l.mxShape w)).1 yr.toNat yt.toNat s
  exact ⟨_, (h s.tick rows s1 tos s2 h1 h2).2⟩

/-- A product whose operands are there passes its checks. -/
theorem Ln.productOperands_gives {k : MatrixKind} (hl : l.Here s) (hy : ∀ y, mayReadY l w.ubase y → y.toNat % 16 = 0)
    (hg : k = .gmma → GatherGood s l w) (hj : k ≠ .gmma → JobsGood s l k w ((List.range (l.extents (l.mxShape w)).1).map fun r => (r, r))) :
    (l.productOperands k w (l.mxFmt w).toNat (l.mxShape w).grk (l.extents (l.mxShape w)).1 (l.extents (l.mxShape w)).2.1
      (l.extents (l.mxShape w)).2.2).Gives s fun _ _ => True := by
  have hscale : ∃ rows, ScaleGood s l k w rows := by
    by_cases hk : k = .gmma
    · subst hk
      exact gatherGood_scale hl (hg rfl)
    · exact ⟨_, (hj hk).2⟩
  obtain ⟨rows, hscale⟩ := hscale
  unfold Ln.productOperands
  refine .bind (Ln.uniform_gives hl (.refl s) w.ubase) fun y u hu => ?_
  obtain ⟨hya, hu⟩ := hu
  refine .bind (P := fun x v => s.Ticked v ∧ ScaleOf s l k w x) ?_ fun x v hv => ?_
  · by_cases hk : k = .rstep
    · rw [if_pos hk]
      cases hn : mxSu w with
      | none => exact .pure ⟨hu, .inl ⟨hn, rfl⟩⟩
      | some n => exact .bind (Ln.uniform_gives hl hu n) fun v _ hv => .pure ⟨hv.2, .inr ⟨n, v, 0, hn, hv.1, (if_pos hk).symm⟩⟩
    · rw [if_neg hk]
      exact Ln.mxScale_gives hl hu hk hscale
  obtain ⟨hu, hx⟩ := hv
  obtain ⟨su, lay, g0⟩ := x
  refine .bind (P := fun yr v => s.Ticked v ∧ (k = .gmma → mayReadY l (field w.imm.toNat 8 6) yr)) ?_ fun yr v hv => ?_
  · split
    · exact (Ln.uniform_gives hl hu _).mono fun _ _ h => ⟨h.2, fun _ => h.1⟩
    · next hn => exact .pure ⟨hu, fun hk => absurd (beq_iff_eq.2 hk) hn⟩
  obtain ⟨hu, hyr⟩ := hv
  refine .bind (P := fun yt v => s.Ticked v ∧ (k = .gmma → mayReadY l (field w.imm.toNat 11 9) yt)) ?_ fun yt v hv => ?_
  · split
    · exact (Ln.uniform_gives hl hu _).mono fun _ _ h => ⟨h.2, fun _ => h.1⟩
    · next hn => exact .pure ⟨hu, fun hk => absurd (beq_iff_eq.2 hk) hn⟩
  obtain ⟨hu, hyt⟩ := hv
  refine .bind (P := fun jobs v => s.Looked v ∧ JobsGood s l k w jobs) ?_ fun jobs v hv => ?_
  · by_cases hk : k = .gmma
    · rw [if_pos (beq_iff_eq.2 hk)]
      subst hk
      obtain ⟨hown, hlists⟩ := hg rfl
      obtain ⟨hpr, har, hpt, hat, hjobs⟩ := hlists yr yt (hyr rfl) (hyt rfl)
      obtain ⟨tick, rfl⟩ := hu
      obtain ⟨rows, s1, tos, s2, h1, h2, hl2⟩ := l.mxLists_give (w.imm.getLsbD 0) (l.extents (l.mxShape w)).1 yr.toNat yt.toNat { s with tick := tick }
      have hs : s.Looked { s with tick := tick } := .tick s tick
      refine .of_ok ((M.bind_ok (Ln.mxLimit_passes hs false hpr)).trans (need_then (beq_iff_eq.2 har) ((M.bind_ok (Ln.mxLimit_passes hs false hpt)).trans
        (need_then (beq_iff_eq.2 hat) ((M.bind_ok (Ln.afterOwnWrites_passes hs hown)).trans ((M.bind_ok h1).trans ((M.bind_ok h2).trans rfl)))))))
        ⟨State.Looked.frame.trans hs hl2, hjobs tick rows s1 tos s2 h1 h2⟩
    · rw [if_neg fun h => hk (beq_iff_eq.1 h)]
      exact .pure ⟨hu.looked, hj hk⟩
  obtain ⟨hs, hjobs⟩ := hv
  have hgood : ScaleGood s l k w ((jobs.filter fun j => j.1 != 0xFFFF && j.2 != 0xFFFF).map (·.1)) := hjobs.2
  obtain ⟨hjobs, -⟩ := hjobs
  have hpass : l.mxJobs w k (fmtBits (fmtAF (l.mxFmt w).toNat)) (l.mxShape w).grk (l.extents (l.mxShape w)).2.2 y.toNat yt.toNat 0 jobs v = .ok ((), v) :=
    Ln.mxJobs_pass hs (fun j hm => ⟨(hjobs j hm).1, (hjobs j hm).2 y hya⟩) yt.toNat 0
  have hend : ∀ o : Operands, (l.mxJobs w k (fmtBits (fmtAF (l.mxFmt w).toNat)) (l.mxShape w).grk (l.extents (l.mxShape w)).2.2 y.toNat yt.toNat 0 jobs >>=
      fun _ => Machine.need (y.toNat % 16 == 0) cMISALIGN y.toNat >>= fun _ => Pure.pure o : M Operands).Gives v fun _ _ => True := fun o =>
    .of_ok ((M.bind_ok hpass).trans (need_then (beq_iff_eq.2 (hy y hya)) rfl)) trivial
  cases su with
  | none => exact hend _
  | some o =>
    obtain ⟨hal, hstep, hrec⟩ := scaleGood_tail hgood hx
    refine .guarded_then (fun hk => ?_) ?_
    · obtain ⟨-, hr⟩ := hrec (bne_iff_ne.1 hk)
      refine Bool.or_eq_true_iff.2 (.inr (List.all_eq_true.2 fun j hm => decide_eq_true (hr _ (List.mem_map_of_mem hm)).1))
    · refine .bind (P := fun _ u => u = v) (.of_ok (scaleLimit_passes ?_ v) rfl) fun _ u hu => ?_
      · split
        · next hk => exact fun r hr => List.mem_singleton.1 hr ▸ hstep hk
        · next hk =>
          obtain ⟨hlim, hr⟩ := hrec hk
          intro r hm
          rcases List.mem_cons.1 hm with rfl | hm
          · exact hlim
          · obtain ⟨j, hj, hm⟩ := List.mem_flatMap.1 hm
            exact (hr _ (List.mem_map_of_mem hj)).2 r hm
      · subst hu
        exact .need_then (beq_iff_eq.2 hal) (hend _)

/-! ### Regions and images (R271, R275) -/

/-- What an element region of elements of `e` bytes asks (R271). -/
def RegionGood (s : State) (l : Ln) (w : SW) (e : Nat) : Prop :=
  let x := l.extents (l.mxShape w)
  let stride := if field w.imm.toNat 15 2 = 0 then (x.2.1 * e + 3) / 4 * 4 else 4 * field w.imm.toNat 15 2
  ∀ y, mayReadY l w.ubase y → y.toNat % e = 0 ∧ ∀ r, r < x.1 → InPart s l w (y.toNat + r * stride, x.2.1 * e)

theorem mxStride_zero_iff : mxStride w = 0 ↔ field w.imm.toNat 15 2 = 0 := by
  show 4 * field w.imm.toNat 15 2 = 0 ↔ _
  omega

/-- An element region that is there passes its checks. -/
theorem Ln.regionOperands_gives {k : MatrixKind} (hl : l.Here s)
    (h : RegionGood s l w (if k = .ldacc then (if fmtACCF (l.mxFmt w).toNat = 1 then 8 else 4) else fmtBits (fmtOUTF (l.mxFmt w).toNat) / 8)) :
    (l.regionOperands k w (l.mxFmt w).toNat (l.extents (l.mxShape w)).1 (l.extents (l.mxShape w)).2.1).Gives s fun _ _ => True := by
  refine .bind (Ln.uniform_gives hl (.refl s) w.ubase) fun y u hu => ?_
  obtain ⟨hy, hu⟩ := hu
  obtain ⟨hal, hrows⟩ := h y hy
  simp only [← mxStride_zero_iff (w := w)] at hrows
  refine .bind (P := fun _ v => v = u) (.of_ok (Ln.mxLimits_pass hu.looked (k == .stacc) ?_) rfl) fun _ v hv => ?_
  · intro r hr
    obtain ⟨i, hi, rfl⟩ := List.mem_map.1 hr
    exact hrows i (List.mem_range.1 hi)
  · subst hv
    refine .bind (P := fun _ u => u = v) (.of_ok (congrFun (if_pos (beq_iff_eq.2 hal)) v) rfl) fun _ u hu => ?_
    exact .pure trivial

/-- An image whose window and header are there passes its checks. -/
theorem Ln.imageOperands_gives {k : MatrixKind} (hl : l.Here s) (h : ImageGood s l k w) :
    (l.imageOperands k w (l.mxFmt w).toNat (l.extents (l.mxShape w)).1 (l.extents (l.mxShape w)).2.1).Gives s fun _ _ => True := by
  obtain ⟨hvalid, hpair, hacc, h⟩ := h
  refine .bind (P := fun win v => s.Ticked v ∧ ∃ u, (mxSu w = none ∧ u = none ∨ ∃ n v, mxSu w = some n ∧ mayReadY l n v ∧ u = some v) ∧
    win = imageWindow u (l.extents (l.mxShape w)).1 (l.extents (l.mxShape w)).2.1) ?_ fun win u hu => ?_
  · cases hn : mxSu w with
    | none => exact .pure ⟨.refl s, none, .inl ⟨rfl, rfl⟩, rfl⟩
    | some n => exact .bind (Ln.uniform_gives hl (.refl s) n) fun v _ hv => .pure ⟨hv.2, some v, .inr ⟨n, v, rfl, hv.1, rfl⟩, rfl⟩
  obtain ⟨hu, su, hsu, hwin⟩ := hu
  obtain ⟨row0, col0, rows, cols⟩ := win
  replace h := fun y hy => h su y hsu hy
  rw [← hwin] at h
  obtain ⟨y0, -, -, hy0, -⟩ := Ln.uniform_gives hl (.refl s) w.ubase
  obtain ⟨hr, hc, -⟩ := h y0 hy0
  have hodd : (!(mxPaired (l.mxFmt w).toNat && w.accNo % 2 == 1)) = true := by
    rw [mxPaired, show (fmtACCF (l.mxFmt w).toNat == 1) = false by rw [hacc]; rfl, Bool.false_or]
    cases hcomp : fmtCOMP (l.mxFmt w).toNat with
    | false => rfl
    | true => simp [hpair hcomp]
  refine .need_then (Bool.and_eq_true_iff.2 ⟨decide_eq_true hr, decide_eq_true hc⟩)
    (.need_then hvalid (.need_then hodd (.need_then (beq_iff_eq.2 hacc) ?_)))
  refine .bind (P := fun _ v => s.Ticked v) ?_ fun sid v hv => ?_
  · split
    · exact (Ln.uniform_gives hl hu _).mono fun _ _ h => h.2
    · exact .pure hu
  refine .bind (Ln.uniform_gives hl hv w.ubase) fun y u hu => ?_
  obtain ⟨hy, hu⟩ := hu
  obtain ⟨-, -, hal, hranges, hload⟩ := h y hy
  refine .bind (P := fun _ v => v = u) (.of_ok (Ln.mxLimits_pass hu.looked (k == .rsave) hranges) rfl) fun _ v hv => ?_
  subst hv
  refine .need_then (beq_iff_eq.2 hal) (.bind (P := fun _ _ => True) ?_ fun _ _ _ => .pure trivial)
  split
  · next hk =>
    obtain ⟨hown, hhead⟩ := hload hk
    obtain ⟨tick, rfl⟩ := hu
    refine .bind (P := fun _ v => v = { s with tick := tick }) (.of_ok (Ln.afterOwnWrites_passes (.tick s tick) hown) rfl) fun _ v hv => ?_
    subst hv
    replace hhead := hhead tick
    have hread : ∃ bs s', l.mxBytes (mxLnd w) y.toNat 64 { s with tick := tick } = .ok (bs, s') := l.mxBytes_gives _ _ _ _
    rw [show w.imm.getLsbD 0 = mxLnd w from rfl] at hhead
    generalize l.mxBytes (mxLnd w) y.toNat 64 = read at hhead hread ⊢
    obtain ⟨bs, s', hbs⟩ := hread
    obtain ⟨h1, h2, h3, h4, h5, h6, h7⟩ := hhead bs s' hbs
    refine .bind (P := fun x v => x = bs ∧ v = s') (.of_ok hbs ⟨rfl, rfl⟩) fun x v hv => ?_
    obtain ⟨rfl, rfl⟩ := hv
    have hcomp : (bitOf (leNat x) 8 == fmtCOMP (l.mxFmt w).toNat) = true :=
      beq_iff_eq.2 (Bool.eq_iff_iff.2 ((bitOf_eq (leNat x) 8 ▸ beq_iff_eq).trans h5))
    refine .need_then (Bool.and_eq_true_iff.2 ⟨?_, hcomp⟩) (.need_then ?_ (.pure trivial))
    · simp only [Bool.and_eq_true, beq_iff_eq]
      exact ⟨⟨⟨h1, h2⟩, h3⟩, h4⟩
    · exact Bool.and_eq_true_iff.2 ⟨beq_iff_eq.2 h6, beq_iff_eq.2 h7⟩
  · exact .pure trivial

/-- Operands that are there, aligned and well-formed pass the checks of their word. -/
theorem operandChecks_gives {k : MatrixKind} (hl : l.Here s) (h : OperandsGood s l k w) : (operandChecks l k w).Gives s fun _ _ => True := by
  cases k
  case ldb => exact .pure trivial
  case zero => exact .pure trivial
  case rsave => exact Ln.imageOperands_gives hl h
  case rload => exact Ln.imageOperands_gives hl h
  case ldacc => exact Ln.regionOperands_gives hl h
  case stacc => exact Ln.regionOperands_gives hl h
  case gmma => exact Ln.productOperands_gives hl h.1 (fun _ => h.2) fun hk => absurd rfl hk
  all_goals exact Ln.productOperands_gives hl h.1 (fun hk => by cases hk) fun _ => h.2

end

end Sys2Proof.Machine
end

section
/-! A meeting that goes through: B is taken, the tokens are noted, and one operation is queued (R252, R253, R257, R302). -/

namespace Sys2Proof.Machine

open Sys2Proof.Spec

/-! ### B (R253) -/

theorem readLanes_ends (g : Group) (reg : Nat) (vc : List Nat) (n : Nat) (s : State) : ∃ xs s', readLanes g reg vc n s = .ok (xs, s') := by
  induction n with
  | zero => exact ⟨_, _, rfl⟩
  | succ n ih =>
    obtain ⟨xs, s', h⟩ := ih
    exact ⟨_, _, (M.bind_ok h).trans rfl⟩

theorem readStream_ends (g : Group) (vc : List Nat) (width n r : Nat) (s : State) : ∃ xs s', readStream g vc width r n s = .ok (xs, s') := by
  induction n generalizing r s with
  | zero => exact ⟨_, _, rfl⟩
  | succ n ih =>
    obtain ⟨xs, s1, h1⟩ := readLanes_ends g (regV r) vc width s
    obtain ⟨ys, s2, h2⟩ := ih (r + 1) s1
    exact ⟨_, _, (M.bind_ok h1).trans ((M.bind_ok h2).trans rfl)⟩

theorem readQuarters_ends (ms : List Member) (width nr n : Nat) (s : State) : ∃ qs s', readQuarters ms width nr n s = .ok (qs, s') := by
  induction n with
  | zero => exact ⟨_, _, rfl⟩
  | succ n ih =>
    obtain ⟨qs, s1, h1⟩ := ih
    unfold readQuarters
    rw [M.bind_ok h1]
    cases ms.find? fun m => bitOf m.quarters n with
    | none => exact ⟨_, _, rfl⟩
    | some m =>
      obtain ⟨xs, s2, h2⟩ := readStream_ends m.g m.vc width nr (m.w.va.toNat + ((List.range n).filter fun j => bitOf m.quarters j).length * nr) s1
      exact ⟨_, _, (M.bind_ok h2).trans rfl⟩

/-- B can always be taken. -/
theorem bTaken_exists (l : Ln) (k : MatrixKind) (w : SW) (ms : List Member) (s1 : State) : ∃ b s2, BTaken l k w ms s1 b s2 := by
  by_cases h : takesRegisters k w
  · obtain ⟨qs, s2, hqs⟩ := readQuarters_ends ms l.width (quarterSize l (l.mxShape w) (l.mxFmt w).toNat) 4 s1
    exact ⟨_, s2, .inr ⟨h, qs, hqs, rfl⟩⟩
  · exact ⟨_, _, .inl ⟨h, rfl, rfl⟩⟩

/-! ### The tokens (R302) -/

section
variable {s : State} {l : Ln} {ms : List Member}

/-- What a member's pushes will release. -/
def Member.tokens (m : Member) (l : Ln) (s : State) (g : Group) : OpTokens :=
  let kn := s.knowOf (enginePlace l.t m.g (.c m.path)).party
  { grp := m.g.num, path := m.path, counters := pushCounters (.c m.path) m.w
    tok := { known := kn.known, lifted := kn.lifted, vc := (g.eng (.c m.path)).vc } }

theorem Ln.memberTokens_cons {m : Member} {g : Group} {toks : List OpTokens} (ht : s.team? l.t.key = some l.t) (hg : l.t.group? m.g.num = some g)
    (h : l.memberTokens ms s = .ok (toks, s)) : l.memberTokens (m :: ms) s = .ok (m.tokens l s g :: toks, s) := by
  have hgroup : (teamOf l.t.key >>= fun t => match t.group? m.g.num with | some g => Pure.pure g | none => fun _ => .error (.fault .wrongParty) : M Group) s =
      .ok (g, s) := by
    rw [M.bind_ok (teamOf_ok ht), hg]
    rfl
  refine (M.bind_ok (a := (m.tokens l s g).tok) (s' := s) ?_).trans ((M.bind_ok h).trans rfl)
  exact (M.bind_ok (M.get_run s)).trans ((M.bind_ok hgroup).trans rfl)

/-- The tokens of members whose groups the team has are always noted. -/
theorem Ln.memberTokens_ends (ht : s.team? l.t.key = some l.t) (hg : ∀ m ∈ ms, ∃ g, l.t.group? m.g.num = some g) :
    ∃ toks, l.memberTokens ms s = .ok (toks, s) := by
  induction ms with
  | nil => exact ⟨_, rfl⟩
  | cons m ms ih =>
    obtain ⟨toks, h⟩ := ih fun x hx => hg x (List.mem_cons_of_mem _ hx)
    obtain ⟨g, hm⟩ := hg m List.mem_cons_self
    exact ⟨_, Ln.memberTokens_cons ht hm h⟩

end

/-! ### The meeting -/

section
variable {s : State} {l : Ln} {k : MatrixKind} {w : SW} {ms : List Member} (hl : l.Here s) (ha : ∀ m ∈ ms, Agrees l k w m) (hw : MeetLegal l k w ms)
  (hs : ShapeLegal s l k w) (hf : imageKind k ∨ FormatLegal s l k w)
include hl ha hw hs hf

/-- An operand's check that fails is the meeting's answer. -/
theorem mxMeet_trap {c : Cause} (h : operandChecks l k w s = .error (.trap c)) : mxMeet l k w ms s = .error (.trap c) := by
  obtain ⟨m, rest, hmeet, hm, -⟩ := mxMeet_operands ha hw hs hf hl.engine
  exact hmeet.trans (M.bind_error (hm.trans h))

variable {o : Operands} {s1 : State} (ho : operandChecks l k w s = .ok (o, s1))
include ho

theorem mxMeet_accesses (hfull : AccessesFull s l k w) : mxMeet l k w ms s = .error (.wait .accesses s1) := by
  obtain ⟨m, rest, hmeet, hm, hrest⟩ := mxMeet_operands ha hw hs hf hl.engine
  exact hmeet.trans ((M.bind_ok (hm.trans ho)).trans ((hrest o s1).1 hfull))

variable (hfull : ¬AccessesFull s l k w)
include hfull

theorem mxMeet_queue (hq : 4 ≤ (s.mqueue.filter fun m => m.bay == l.g.bay).length) : mxMeet l k w ms s = .error (.wait .matrix s1) := by
  obtain ⟨m, rest, hmeet, hm, hrest⟩ := mxMeet_operands ha hw hs hf hl.engine
  exact hmeet.trans ((M.bind_ok (hm.trans ho)).trans ((hrest o s1).2.1 hfull hq))

variable (hq : (s.mqueue.filter fun m => m.bay == l.g.bay).length < 4) {b : Option (List Nat)} {s2 : State} (hb : BTaken l k w ms s1 b s2)
include hq hb

/-- Otherwise one operation is queued, and every member has passed its word. -/
theorem mxMeet_meets {toks : List OpTokens} (htoks : l.memberTokens ms s2 = .ok (toks, s2)) :
    mxMeet l k w ms s = .ok ((), s2.meets l k w ms { queuedOp s s2 l k w o b with toks := toks.filter fun x => !x.counters.isEmpty }) := by
  obtain ⟨m, rest, hmeet, hm, hrest⟩ := mxMeet_operands ha hw hs hf hl.engine
  have hlook : s.Looked s2 := State.Looked.frame.trans ((operandChecks_looks l k w).ok ho) (bTaken_looked hb)
  exact hmeet.trans ((M.bind_ok (hm.trans ho)).trans ((hrest o s1).2.2 hfull hq b s2 toks hb hlook.nextMx htoks))

end

end Sys2Proof.Machine
end

section
/-! A matrix word by itself: of a solo gang, or not ganged (R249, R252, R254, R256 to R259, R266). -/

namespace Sys2Proof.Machine

open Sys2Proof.Spec

theorem exec_matrixForm {i : Instr} {k : MatrixKind} {w : SW} (h : matrixForm i = some (k, w)) (s : State) : exec i s = mxWord k w s := by
  unfold matrixForm at h
  split at h <;> cases h <;> rfl

/-- The end of a single step leaves the matrix queues alone. -/
theorem State.stepDone_mqueue (s : State) (k : Nat) (adv : W64) : (s.stepDone k adv).mqueue = s.mqueue := by
  unfold State.stepDone
  split
  · split
    · simp only []
      split <;> rfl
    · rfl
  · rfl

/-- Two updates of one group are one. -/
theorem State.mapGroup_mapGroup (s : State) (key n : Nat) {f g : Group → Group} (hf : ∀ x, (f x).num = x.num) :
    (s.mapGroup key n f).mapGroup key n g = s.mapGroup key n fun x => g (f x) := by
  have hgroups : ∀ xs : List Group, (xs.map fun x => if x.num == n then f x else x).map (fun x => if x.num == n then g x else x) =
      xs.map fun x => if x.num == n then g (f x) else x := fun xs => by
    rw [List.map_map]
    refine List.map_congr_left fun x _ => ?_
    by_cases hx : (x.num == n) = true
    · simp only [Function.comp, if_pos hx, hf]
    · simp only [Function.comp, if_neg hx]
  unfold State.mapGroup State.mapTeam
  simp only [List.map_map]
  congr 1
  refine List.map_congr_left fun t _ => ?_
  by_cases ht : (t.key == key) = true
  · simp only [Function.comp, if_pos ht, hgroups]
  · simp only [Function.comp, if_neg ht]

section
variable {s : State} {l : Ln} {k : MatrixKind} {w : SW} {p : Nat}

theorem Team.entryAt_n {t : Team} {n : Nat} {entry : CqEntry} (h : t.entryAt n = some entry) : entry.n = n := by
  have hfind : (t.cq.find? fun e => e.n == n) = some entry → entry.n = n := fun h => by simpa using List.find?_some h
  unfold Team.entryAt at h
  split at h
  · split at h
    · next hn =>
      cases h
      exact hn
    · exact hfind h
  · exact hfind h

/-- The entry that the engine works on is the one that its group's maps are of (R152, R186). -/
theorem EngineTurn.entry_n (ht : EngineTurn s l) : l.entry.n = l.e.entry := by
  obtain ⟨t, g, who, entry, he, rfl⟩ := ht
  refine Team.entryAt_n (t := t) ?_
  unfold engineOf at he
  split at he
  · simp only [Option.bind_eq_some_iff] at he
    obtain ⟨t', -, g', -, x, hx, he⟩ := he
    obtain ⟨-, rfl, rfl, rfl, rfl⟩ : _ ∧ t' = t ∧ g' = g ∧ _ = who ∧ x = entry := by simpa using he
    exact hx
  · cases he

/-- The word's own group, as the one member of its meeting. -/
def Ln.self (l : Ln) (w : SW) (p : Nat) : Member := { g := l.g, path := p, w := w, quarters := 15 }

/-- The group's own registers of B, all four quarters of them. -/
theorem bMapped_self (ht : EngineTurn s l) (hp : l.who = .c p) (nr : Nat) : bMapped [l.self w p] nr = true ↔
    (4 * nr ≠ 0 → w.va.toNat + 4 * nr ≤ 112 ∧ ∀ j, j < 4 * nr → (l.g.mapAt l.entry.n).getLsbD ((w.va.toNat + j) / 16) = true) := by
  have hentry : (l.g.eng (.c p)).entry = l.entry.n := by rw [ht.entry_n, ht.engine, hp]
  have hfour : ((List.range 4).filter fun q => bitOf 15 q).length = 4 := by decide
  simp only [bMapped, Ln.self, hfour, hentry, List.all_cons, List.all_nil, Bool.and_true, Bool.or_eq_true, beq_iff_eq, Bool.and_eq_true,
    decide_eq_true_iff, List.all_eq_true, List.mem_range, or_iff_not_imp_left]

theorem meetLegal_self (ht : EngineTurn s l) (hp : l.who = .c p) : MeetLegal l k w [l.self w p] ↔ WordLegal l k w := by
  unfold MeetLegal WordLegal
  rw [bMapped_self ht hp]

theorem agrees_self (hm : ∀ k' w', l.g.meet = some (k', w') → k' = k) : ∀ m ∈ [l.self w p], Agrees l k w m := by
  intro m h
  cases List.mem_singleton.1 h
  exact ⟨rfl, rfl, rfl, rfl, rfl, hm⟩

/-- What the word's own pushes release is what its operation carries. -/
theorem memberTokens_self {s2 : State} (hl : l.Here s) (hs : s.Looked s2) (hp : l.who = .c p) {o : Operands} {b : Option (List Nat)} :
    ∃ toks, l.memberTokens [l.self w p] s2 = .ok (toks, s2) ∧
      { queuedOp s s2 l k w o b with toks := toks.filter fun x => !x.counters.isEmpty } = queuedOp s s2 l k w o b := by
  refine ⟨_, Ln.memberTokens_cons (m := l.self w p) ((hs.team? _).trans hl.team) hl.group rfl, ?_⟩
  have htok : (l.self w p).tokens l s2 l.g = OpTokens.mk l.g.num (l.g.slotOf l.who) (pushCounters l.who w)
      { known := (s2.knowOf l.place.party).known, lifted := (s2.knowOf l.place.party).lifted, vc := l.e.vc } := by
    rw [hl.place, hl.engine, hp]
    rfl
  rw [htok]
  unfold queuedOp
  cases pushCounters l.who w <;> rfl

/-- The machine once the word's operation is queued. -/
theorem meets_self (s2 : State) (hp : l.who = .c p) (op : MatrixOp) :
    s2.meets l k w [l.self w p] op =
      (passedBy (({ s2 with nextMx := s2.nextMx + 1, mqueue := s2.mqueue ++ [op] } : State).mapTeam l.t.key fun t =>
        { t with subst := substSet k (l.mxFmt w).toNat t.subst }) l (swBytes w)).mapGroup l.t.key l.g.num fun g =>
        { g with ganged := if gangedKind k then g.ganged + 1 else g.ganged, meet := none } := by
  unfold passedBy
  refine Eq.trans ?_ (State.mapGroup_mapGroup _ _ _ fun g => Group.num_mapEng g.stirred _ _).symm
  rw [hp]
  refine congrArg (State.mapGroup _ l.t.key l.g.num) (funext fun g => ?_)
  simp only [Member.passed, k.ganged_iff]
  rfl

end

section
variable {s : State} {l : Ln} {i : Instr} {k : MatrixKind} {w : SW} {p : Nat} (ht : EngineTurn s l) (hi : matrixForm i = some (k, w))
  (hlatch : l.e.latch.isSome = true)
include ht hi hlatch

/-- A matrix word belongs to a group of one live path (R249). -/
theorem exec_matrix_paths (h : ¬l.g.liveSlots.length ≤ 1) :
    exec i s = .next (s.laneTrap l.t.key l.g.num l.who l.entry.view.service (plainCause 0x02)) := by
  rw [exec_matrixForm hi]
  refine ht.run_trap (by decide) ?_
  rw [if_neg (by rw [Option.isNone_eq_false_iff.2 hlatch]; decide), M.bind_ok ht.group_run]
  exact need_else (decide_eq_false h)

variable (halone : l.g.liveSlots.length ≤ 1)
include halone

/-- A member of a gang stands at its word until the gang meets (R252). -/
theorem exec_matrix_stands (hk : gangedKind k) (hg : l.g.gang ≠ 0) (hph : l.t.phase ≠ .stepping) :
    exec i s = .next (waits (s.mapGroup l.t.key l.g.num fun g =>
      { g.mapEng l.who (fun e => { e with arrived := true }) with meet := some (k, w) }) l .matrix) := by
  rw [exec_matrixForm hi]
  refine ht.run_wait ?_
  rw [if_neg (by rw [Option.isNone_eq_false_iff.2 hlatch]; decide), M.bind_ok ht.group_run]
  refine need_then (decide_eq_true halone) ?_
  rw [if_pos (Bool.and_eq_true_iff.2 ⟨k.ganged_iff.2 hk, bne_iff_ne.2 hg⟩), if_pos (bne_iff_ne.2 hph)]
  rfl

variable (hgang : gangedKind k → l.g.gang = 0)
include hgang

/-- Of a solo gang, the word is its meeting. -/
theorem exec_matrix_solo (hp : l.who = .c p) : ∃ body : Ln → M Bool, exec i s = runEngine body s ∧
    body l s = (mxMeet l k w [l.self w p] >>= fun _ => pure true) s := by
  refine ⟨_, exec_matrixForm hi s, ?_⟩
  rw [if_neg (by rw [Option.isNone_eq_false_iff.2 hlatch]; decide), M.bind_ok ht.group_run]
  refine need_then (decide_eq_true halone) ?_
  rw [if_neg fun h => ?_, hp]
  · rfl
  · obtain ⟨hk, hg⟩ := Bool.and_eq_true_iff.1 h
    exact bne_iff_ne.1 hg (hgang (k.ganged_iff.1 hk))

variable (hp : l.who = .c p)
include hp

theorem exec_matrix_trap {c : Cause} (hc : c.OfChecks) (h : mxMeet l k w [l.self w p] s = .error (.trap c)) :
    exec i s = .next (s.laneTrap l.t.key l.g.num l.who l.entry.view.service c) := by
  obtain ⟨body, hexec, hbody⟩ := exec_matrix_solo ht hi hlatch halone hgang hp
  rw [hexec]
  exact ht.run_trap (fun hn => hc hn.1) (hbody.trans (M.bind_error h))

theorem exec_matrix_waits {c : WaitFor} {s1 : State} (h : mxMeet l k w [l.self w p] s = .error (.wait c s1)) : exec i s = .next (waits s1 l c) := by
  obtain ⟨body, hexec, hbody⟩ := exec_matrix_solo ht hi hlatch halone hgang hp
  rw [hexec]
  exact ht.run_wait (hbody.trans (M.bind_error h))

theorem exec_matrix_done {s1 : State} (h : mxMeet l k w [l.self w p] s = .ok ((), s1)) : exec i s = .next (s1.stepDone l.t.key (advBit l.who)) := by
  obtain ⟨body, hexec, hbody⟩ := exec_matrix_solo ht hi hlatch halone hgang hp
  rw [hexec]
  exact ht.run_done (hbody.trans ((M.bind_ok h).trans rfl))

/-! ### What each check, and the queue, answers -/

variable (hm : ∀ k' w', l.g.meet = some (k', w') → k' = k)
include hm

theorem exec_matrix_word (hw : ¬WordLegal l k w) : exec i s = .next (s.laneTrap l.t.key l.g.num l.who l.entry.view.service (plainCause 0x02)) :=
  exec_matrix_trap ht hi hlatch halone hgang hp (by decide) (mxMeet_word (agrees_self hm) fun h => hw ((meetLegal_self ht hp).1 h))

variable (hw : WordLegal l k w)
include hw

theorem exec_matrix_shape (hs : ¬ShapeLegal s l k w) : exec i s = .next (s.laneTrap l.t.key l.g.num l.who l.entry.view.service (plainCause 0x0A)) :=
  exec_matrix_trap ht hi hlatch halone hgang hp (by decide) (mxMeet_shape (agrees_self hm) ((meetLegal_self ht hp).2 hw) hs)

variable (hs : ShapeLegal s l k w)
include hs

theorem exec_matrix_format (hn : ¬imageKind k) (hf : ¬FormatLegal s l k w) :
    exec i s = .next (s.laneTrap l.t.key l.g.num l.who l.entry.view.service (plainCause 0x14)) :=
  exec_matrix_trap ht hi hlatch halone hgang hp (by decide) (mxMeet_format (agrees_self hm) ((meetLegal_self ht hp).2 hw) hs hn hf)

variable (hf : imageKind k ∨ FormatLegal s l k w)
include hf

theorem exec_matrix_operands {c : Cause} (h : operandChecks l k w s = .error (.trap c)) :
    exec i s = .next (s.laneTrap l.t.key l.g.num l.who l.entry.view.service c) :=
  exec_matrix_trap ht hi hlatch halone hgang hp ((operandChecks_looks l k w).trap h)
    (mxMeet_trap ht.here (agrees_self hm) ((meetLegal_self ht hp).2 hw) hs hf h)

variable {o : Operands} {s1 : State} (ho : operandChecks l k w s = .ok (o, s1))
include ho

theorem exec_matrix_accesses (hfull : AccessesFull s l k w) : exec i s = .next (waits s1 l .accesses) :=
  exec_matrix_waits ht hi hlatch halone hgang hp (mxMeet_accesses ht.here (agrees_self hm) ((meetLegal_self ht hp).2 hw) hs hf ho hfull)

variable (hfull : ¬AccessesFull s l k w)
include hfull

theorem exec_matrix_queue (hq : 4 ≤ (s.mqueue.filter fun m => m.bay == l.g.bay).length) : exec i s = .next (waits s1 l .matrix) :=
  exec_matrix_waits ht hi hlatch halone hgang hp (mxMeet_queue ht.here (agrees_self hm) ((meetLegal_self ht hp).2 hw) hs hf ho hfull hq)

/-- One operation is queued, and the word is passed. -/
theorem exec_matrix_meets (hq : (s.mqueue.filter fun m => m.bay == l.g.bay).length < 4) {b : Option (List Nat)} {s2 : State}
    (hb : BTaken l k w [l.self w p] s1 b s2) :
    exec i s = .next ((s2.meets l k w [l.self w p] (queuedOp s s2 l k w o b)).stepDone l.t.key (advBit l.who)) := by
  have hlook : s.Looked s2 := State.Looked.frame.trans ((operandChecks_looks l k w).ok ho) (bTaken_looked hb)
  obtain ⟨toks, htoks, hop⟩ := memberTokens_self (k := k) (w := w) (o := o) (b := b) ht.here hlook hp
  have hmeet := mxMeet_meets ht.here (agrees_self hm) ((meetLegal_self ht hp).2 hw) hs hf ho hfull hq hb htoks
  rw [hop] at hmeet
  exact exec_matrix_done ht hi hlatch halone hgang hp hmeet

end

end Sys2Proof.Machine
end

section
/-! `mx.gang`: the values that are legal for a group, and the word (R250, R251). -/

namespace Sys2Proof.Machine

open Sys2Proof.Spec

/-! ### Lists -/

theorem length_eraseDups_le {α : Type} [BEq α] (xs : List α) : xs.eraseDups.length ≤ xs.length := by
  induction hn : xs.length using Nat.strong_induction_on generalizing xs with
  | _ n ih =>
    subst hn
    cases xs with
    | nil => rw [List.eraseDups_nil]
    | cons a xs =>
      have hlen := List.length_filter_le (fun b => !b == a) xs
      rw [List.eraseDups_cons, List.length_cons, List.length_cons]
      exact Nat.succ_le_succ ((ih _ (Nat.lt_succ_of_le hlen) _ rfl).trans hlen)

/-- Nothing is dropped exactly where nothing is there twice. -/
theorem length_eraseDups_iff {α : Type} [BEq α] [LawfulBEq α] (xs : List α) : xs.eraseDups.length = xs.length ↔ xs.Nodup := by
  induction xs with
  | nil => simp
  | cons a xs ih =>
    have hkept := length_eraseDups_le (xs.filter fun b => !b == a)
    have hlen := List.length_filter_le (fun b => !b == a) xs
    rw [List.eraseDups_cons, List.length_cons, List.length_cons, List.nodup_cons]
    have hself : (xs.filter fun b => !b == a) = xs ↔ a ∉ xs := by
      rw [List.filter_eq_self]
      exact ⟨fun h ha => by simpa using h a ha, fun h b hb => by simpa using fun he : b = a => h (he ▸ hb)⟩
    constructor
    · intro h
      have hx : (xs.filter fun b => !b == a) = xs := List.filter_eq_self.2 (List.length_filter_eq_length_iff.1 (by omega))
      rw [hx] at h
      exact ⟨hself.1 hx, ih.1 (by omega)⟩
    · rintro ⟨ha, hn⟩
      rw [hself.2 ha, ih.2 hn]

theorem length_filter_eq_one_iff {α : Type} {xs : List α} (hn : xs.Nodup) (p : α → Bool) :
    (xs.filter p).length = 1 ↔ ∃ x ∈ xs, p x = true ∧ ∀ y ∈ xs, p y = true → y = x := by
  rw [List.length_eq_one_iff]
  constructor
  · rintro ⟨x, hx⟩
    have hmem : ∀ y, y ∈ xs ∧ p y = true ↔ y = x := fun y => by rw [← List.mem_filter, hx, List.mem_singleton]
    obtain ⟨hxs, hp⟩ := (hmem x).2 rfl
    exact ⟨x, hxs, hp, fun y hy hpy => (hmem y).1 ⟨hy, hpy⟩⟩
  · rintro ⟨x, hxs, hp, hu⟩
    refine ⟨x, List.perm_singleton.1 ((List.perm_ext_iff_of_nodup (hn.filter p) (List.nodup_singleton x)).2 fun y => ?_)⟩
    rw [List.mem_filter, List.mem_singleton]
    exact ⟨fun h => hu y h.1 h.2, fun h => h ▸ ⟨hxs, hp⟩⟩

/-! ### The fields of a gang value (R250) -/

section
variable (v : W64)

theorem gangMember_number (i : Nat) : gangMember v i % 32 = field v.toNat (10 * i + 4) (10 * i) := by
  rw [show (32 : Nat) = 2 ^ (4 + 1) from rfl, Laws.RoundTrip.mod_two_pow_eq_bitsOf, gangMember, bitsOf_bitsOf _ _ _ _ _ (by omega)]
  rfl

theorem gangMember_quarters (i : Nat) : bitsOf (gangMember v i) 8 5 = field v.toNat (10 * i + 8) (10 * i + 5) := by
  rw [gangMember, bitsOf_bitsOf _ _ _ _ _ (by omega)]
  rfl

theorem field_bit_iff (x i : Nat) : (!bitOf x i) = true ↔ field x i i = 0 := by
  have hlt : field x i i < 2 := by
    unfold field
    rw [Nat.add_sub_cancel_left]
    exact Nat.mod_lt _ (by decide)
  have hbit : bitOf x i = (field x i i == 1) := bitOf_eq x i
  rw [hbit, Bool.not_eq_true', beq_eq_false_iff_ne]
  omega

theorem gangMember_spare (i : Nat) : (!bitOf (gangMember v i) 9) = true ↔ field v.toNat (10 * i + 9) (10 * i + 9) = 0 := by
  rw [field_bit_iff]
  have h : field (gangMember v i) 9 9 = bitsOf (bitsOf v.toNat (10 * i + 9) (10 * i)) 9 9 := rfl
  rw [h, bitsOf_bitsOf _ _ _ _ _ (by omega)]
  rfl

theorem gangMembers_eq (h : gangCount v ≠ 0) (self : Nat) :
    gangMembers v self = (List.range (gangCount v)).map fun i => (field v.toNat (10 * i + 4) (10 * i), field v.toNat (10 * i + 8) (10 * i + 5)) := by
  rw [gangMembers, if_neg h]
  exact List.map_congr_left fun i _ => Prod.ext (gangMember_number v i) (gangMember_quarters v i)

theorem gangSpares_iff (h : gangCount v ≤ 6) :
    ((List.range 6).all fun i => if i < gangCount v then !bitOf (gangMember v i) 9 else gangMember v i == 0) = true ↔
      (∀ i, i < gangCount v → field v.toNat (10 * i + 9) (10 * i + 9) = 0) ∧
      ∀ i, gangCount v ≤ i → i < 6 → field v.toNat (10 * i + 9) (10 * i) = 0 := by
  simp only [List.all_eq_true, List.mem_range]
  constructor
  · refine fun hall => ⟨fun i hi => ?_, fun i hi h6 => ?_⟩
    · have hm := hall i (by omega)
      rw [if_pos hi] at hm
      exact (gangMember_spare v i).1 hm
    · have hm := hall i h6
      rw [if_neg (Nat.not_lt.2 hi)] at hm
      exact beq_iff_eq.1 hm
  · rintro ⟨hspare, hfree⟩ i h6
    split
    · next hi => exact (gangMember_spare v i).2 (hspare i hi)
    · next hi => exact beq_iff_eq.2 (hfree i (Nat.not_lt.1 hi) h6)

end

/-! ### The members of a gang value (R251) -/

section
variable {n : Nat} {num mask : Nat → Nat} {t : Team}

theorem gangNumbers_iff : ((((List.range n).map fun i => (num i, mask i)).map (·.1)).eraseDups.length == n) = true ↔
    ∀ i j, i < n → j < n → num i = num j → i = j := by
  have hlen : (((List.range n).map fun i => (num i, mask i)).map (·.1)).length = n := by simp
  have hnodup := length_eraseDups_iff (((List.range n).map fun i => (num i, mask i)).map (·.1))
  rw [hlen] at hnodup
  rw [beq_iff_eq, hnodup, List.map_map, List.nodup_map_iff_inj_on List.nodup_range]
  simp only [List.mem_range, Function.comp]
  exact ⟨fun h i j hi hj => h i hi j hj, fun h i hi j hj => h i j hi hj⟩

theorem gangSelf_iff {x : Nat} : (((List.range n).map fun i => (num i, mask i)).any fun m => m.1 == x) = true ↔ ∃ i, i < n ∧ num i = x := by
  simp

theorem gangGroups_iff : (((List.range n).map fun i => (num i, mask i)).all fun m => (t.group? m.1).isSome) = true ↔
    ∀ i, i < n → ∃ x, t.group? (num i) = some x := by
  simp [Option.isSome_iff_exists]

/-- Each quarter comes from one member. -/
theorem gangQuarters_iff :
    ((List.range 4).all fun q => (((List.range n).map fun i => (num i, mask i)).filter fun m => bitOf m.2 q).length == 1) = true ↔
    ∀ q, q < 4 → ∃ i, i < n ∧ mask i / 2 ^ q % 2 = 1 ∧ ∀ j, j < n → mask j / 2 ^ q % 2 = 1 → j = i := by
  have hone (q : Nat) := length_filter_eq_one_iff (List.nodup_range (n := n)) fun i => bitOf (mask i) q
  simp only [List.all_eq_true, List.mem_range, beq_iff_eq, List.filter_map, List.length_map] at hone ⊢
  refine forall_congr' fun q => imp_congr_right fun _ => (hone q).trans ?_
  simp only [bitOf, beq_iff_eq]

theorem gangBays_iff (hn : 0 < n) (hg : ∃ x, t.group? (num 0) = some x) :
    (match ((List.range n).map fun i => (num i, mask i)).head? with
      | none => false
      | some a => match t.group? a.1 with
        | none => false
        | some ga => decide ((((List.range n).map fun i => (num i, mask i)).filter fun m =>
            match t.group? m.1 with | some x => x.bay != ga.bay | none => false).length ≤ 2)) = true ↔
    ∀ a, t.group? (num 0) = some a →
      ((List.range n).filter fun i => match t.group? (num i) with | some x => x.bay != a.bay | none => false).length ≤ 2 := by
  obtain ⟨a, ha⟩ := hg
  have hhead : ((List.range n).map fun i => (num i, mask i)).head? = some (num 0, mask 0) := by
    rw [List.head?_map, List.head?_range, if_neg hn.ne']
    rfl
  rw [hhead]
  simp only [ha, Option.some.injEq, forall_eq', decide_eq_true_iff, List.filter_map, List.length_map]
  rfl

end

/-- The register takes exactly the values that R251 names. -/
theorem gangValid_iff (t : Team) (g : Group) (v : W64) : gangValid t g v = true ↔ GangLegal t g v.toNat := by
  have hlt : gangCount v < 8 := Nat.mod_lt _ (by decide)
  show (if gangCount v = 0 then _ else _) = true ↔ gangCount v = 0 ∧ v.toNat = 0 ∨ 2 ≤ gangCount v ∧ gangCount v ≤ 6 ∧ _
  by_cases hn : gangCount v = 0
  · simp [hn, ← BitVec.toNat_inj]
  rw [if_neg hn, gangMembers_eq v hn, or_iff_right fun h => hn h.1]
  simp only [Bool.and_eq_true, bne_iff_ne, field_bit_iff, gangNumbers_iff, gangSelf_iff, gangGroups_iff, gangQuarters_iff]
  have hbays' (hpos : 0 < gangCount v) (hgroups : ∀ i, i < gangCount v → ∃ x, t.group? (field v.toNat (10 * i + 4) (10 * i)) = some x) :=
    gangBays_iff (num := fun i => field v.toNat (10 * i + 4) (10 * i)) (mask := fun i => field v.toNat (10 * i + 8) (10 * i + 5)) hpos (hgroups 0 hpos)
  constructor
  · rintro ⟨⟨⟨⟨⟨⟨⟨⟨h63, h1⟩, h7⟩, hspare⟩, hnum⟩, hself⟩, hgroups⟩, hquarters⟩, hbays⟩
    obtain ⟨hfirst, hrest⟩ := (gangSpares_iff v (by omega)).1 hspare
    exact ⟨by omega, by omega, h63, hfirst, hrest, hnum, hself, hgroups, hquarters, (hbays' (by omega) hgroups).1 hbays⟩
  · rintro ⟨h2, h6, h63, hfirst, hrest, hnum, hself, hgroups, hquarters, hbays⟩
    exact ⟨⟨⟨⟨⟨⟨⟨⟨h63, by omega⟩, by omega⟩, (gangSpares_iff v h6).2 ⟨hfirst, hrest⟩⟩, hnum⟩, hself⟩, hgroups⟩, hquarters⟩,
      (hbays' (by omega) hgroups).2 hbays⟩

/-! ### The word -/

theorem Group.stirred_at (g : Group) (who : Eng) : (g.stirred.eng who).at = (g.eng who).at := by
  cases who with
  | l => rfl
  | s => rfl
  | c p =>
    show ((g.stirred.pathAt p).c).at = ((g.pathAt p).c).at
    unfold Group.stirred Group.pathAt
    rw [List.getD_eq_getElem?_getD, List.getD_eq_getElem?_getD, List.getElem?_map]
    cases g.paths[p]? <;> rfl

/-- What an engine does after a repetition's effect (R155, R172). -/
def Ln.afterRep (l : Ln) (w : SW) : M Bool := do
  l.mapGroup Group.stirred
  if l.e.rep + 1 < w.count then do
    l.mapEng fun e => { e with rep := e.rep + 1, waitFor := none }
    pure false
  else if (pushCounters l.who w).isEmpty then do
    l.finish w
    pure true
  else do
    l.mapEng fun e => { e with issued := true, waitFor := none }
    pure false

section
variable {s : State} {l : Ln} {w : SW} {check : Ln → M Unit} {rep : Ln → Nat → M Unit} {base : Nat} (ht : EngineTurn s l)
  (hissued : l.e.issued = false) (hlatch : l.e.latch.isSome = true)

/-- A word without pushes is passed at once. -/
theorem Ln.finish_unpushed (h : pushCounters l.who w = []) (s : State) : l.finish w s = .ok ((), passedBy s l (swBytes w)) := by
  unfold Ln.finish
  simp only [h]
  rfl

include hissued hlatch in
/-- Begun and not yet over, a word without register fields is its repetition. -/
theorem runWord_repetition : ∃ body : Ln → M Bool, runWord w [] base check rep s = runEngine body s ∧
    body l s = (rep l l.e.rep >>= fun _ => l.afterRep w) s := by
  refine ⟨_, rfl, ?_⟩
  rw [if_neg (by rw [hissued]; decide), if_neg (by rw [Option.isNone_eq_false_iff.2 hlatch]; decide)]
  simp only [List.any_nil, Bool.and_false]
  exact (M.bind_ok (a := false) (s' := s) rfl).trans rfl

include ht hissued hlatch

/-- A repetition that raises a trap. -/
theorem runWord_trap {c : Cause} (hc : c.OfChecks) (h : rep l l.e.rep s = .error (.trap c)) :
    runWord w [] base check rep s = .next (s.laneTrap l.t.key l.g.num l.who l.entry.view.service c) := by
  obtain ⟨body, hrun, hbody⟩ := runWord_repetition (s := s) (w := w) (check := check) (rep := rep) (base := base) hissued hlatch
  rw [hrun]
  exact ht.run_trap (fun hn => hc hn.1) (hbody.trans (M.bind_error h))

/-- A repetition that answers, and what follows it. -/
theorem runWord_afterRep {s1 : State} (h : rep l l.e.rep s = .ok ((), s1)) (hs : Stands s1 l) :
    runWord w [] base check rep s = .next (afterRep s1 l w) := by
  obtain ⟨body, hrun, hbody⟩ := runWord_repetition (s := s) (w := w) (check := check) (rep := rep) (base := base) hissued hlatch
  rw [hrun]
  replace hbody := hbody.trans (M.bind_ok h)
  have hstand : Stands (s1.mapGroup l.t.key l.g.num Group.stirred) l := hs.mapGroup (fun _ => rfl) fun g => g.stirred_at l.who
  unfold Spec.afterRep
  dsimp only
  by_cases hmore : l.e.rep + 1 < w.count
  · rw [if_pos hmore]
    refine (ht.run_more (hbody.trans ((M.bind_ok (M.modify_run _ s1)).trans (congrFun (if_pos hmore) _)))).trans ?_
    exact congrArg _ (hstand.mapEng (f := fun e => { e with rep := e.rep + 1, waitFor := none }) fun _ => rfl).unbase
  · rw [if_neg hmore]
    by_cases hpush : pushCounters l.who w = []
    · have hempty : (pushCounters l.who w).isEmpty = true := List.isEmpty_iff.2 hpush
      rw [if_pos hpush]
      refine ht.run_done (hbody.trans ((M.bind_ok (M.modify_run _ s1)).trans ?_))
      rw [if_neg hmore, if_pos hempty]
      exact (M.bind_ok (Ln.finish_unpushed hpush _)).trans rfl
    · have hempty : ¬(pushCounters l.who w).isEmpty = true := fun he => hpush (List.isEmpty_iff.1 he)
      rw [if_neg hpush]
      refine (ht.run_more (hbody.trans ((M.bind_ok (M.modify_run _ s1)).trans ?_))).trans (congrArg _ (hstand.mapEng (f := fun e =>
        { e with issued := true, waitFor := none }) fun _ => rfl).unbase)
      rw [if_neg hmore, if_neg hempty]
      rfl

end

/-- A group with its gang register set. -/
def Group.withGang (v : W64) (g : Group) : Group := { g with gang := v, ganged := 0 }

theorem Stands.withGang {s : State} {l : Ln} (h : Stands s l) (v : W64) : Stands (s.mapGroup l.t.key l.g.num (Group.withGang v)) l :=
  h.mapGroup (fun _ => rfl) fun g => by cases l.who <;> rfl

section
variable {s : State} {l : Ln} {w : SW} (ht : EngineTurn s l) (hissued : l.e.issued = false) (hlatch : l.e.latch.isSome = true)
include ht hissued hlatch

/-- `mx.gang` belongs to a group of one live path (R250). -/
theorem exec_mxGang_paths (h : 1 < l.g.liveSlots.length) :
    exec (.mxGang w) s = .next (s.laneTrap l.t.key l.g.num l.who l.entry.view.service (plainCause 0x02)) := by
  show execMxGang w s = _
  unfold execMxGang
  refine runWord_trap (base := 8) (c := plainCause 0x02) ht hissued hlatch (by decide) ?_
  rw [M.bind_ok ht.group_run]
  exact need_else (decide_eq_false (Nat.not_le.2 h))

variable (halone : l.g.liveSlots.length ≤ 1) {lo hi : W32} {s1 s2 : State} (hlo : l.uniform w.ubase s = .ok (lo, s1))
  (hhi : l.uniform (w.ubase + 1) s1 = .ok (hi, s2))
include halone hlo hhi

theorem exec_mxGang_refused (h : ¬GangLegal l.t l.g (hi.toNat * 2 ^ 32 + lo.toNat)) :
    exec (.mxGang w) s = .next (s.laneTrap l.t.key l.g.num l.who l.entry.view.service (plainCause 0x02)) := by
  show execMxGang w s = _
  unfold execMxGang
  refine runWord_trap (base := 8) (c := plainCause 0x02) ht hissued hlatch (by decide) ?_
  rw [M.bind_ok ht.group_run]
  refine need_then (decide_eq_true halone) ((M.bind_ok hlo).trans ((M.bind_ok hhi).trans (need_else (Bool.eq_false_iff.2 fun hv => h ?_))))
  rw [gangValid_iff, BitVec.toNat_ofNat, Nat.mod_eq_of_lt (by omega)] at hv
  exact hv

theorem exec_mxGang_set (hs : s.Looked s2) (h : GangLegal l.t l.g (hi.toNat * 2 ^ 32 + lo.toNat)) :
    exec (.mxGang w) s = .next (Spec.afterRep (s2.mapGroup l.t.key l.g.num (Group.withGang (BitVec.ofNat 64 (hi.toNat * 2 ^ 32 + lo.toNat)))) l w) := by
  show execMxGang w s = _
  unfold execMxGang
  refine runWord_afterRep (base := 8) ht hissued hlatch ?_ ((ht.stands.of_teams hs.teams).withGang _)
  rw [M.bind_ok ht.group_run]
  have hv : gangValid l.t l.g (BitVec.ofNat 64 (hi.toNat * 2 ^ 32 + lo.toNat)) = true := by
    rw [gangValid_iff, BitVec.toNat_ofNat, Nat.mod_eq_of_lt (by omega)]
    exact h
  refine need_then (decide_eq_true halone) ((M.bind_ok hlo).trans ((M.bind_ok hhi).trans ?_))
  generalize BitVec.ofNat 64 (hi.toNat * 2 ^ 32 + lo.toNat) = v at hv ⊢
  exact need_then hv rfl

end

/-- `mx.gang` reads its value, and sets the gang register where the value is legal (R250, R251). -/
theorem exec_mxGang_reads {s : State} {l : Ln} (ht : EngineTurn s l) (w : SW) : ∃ lo s1 hi s2, l.uniform w.ubase s = .ok (lo, s1) ∧
    l.uniform (w.ubase + 1) s1 = .ok (hi, s2) ∧ mayReadY l w.ubase lo ∧ mayReadY l (w.ubase + 1) hi ∧ s.Ticked s2 := by
  obtain ⟨lo, s1, hlo, hmlo, hs1⟩ := Ln.uniform_gives ht.here (.refl s) w.ubase
  obtain ⟨hi, s2, hhi, hmhi, hs2⟩ := Ln.uniform_gives ht.here hs1 (w.ubase + 1)
  exact ⟨lo, s1, hi, s2, hlo, hhi, hmlo, hmhi, hs2⟩

end Sys2Proof.Machine
end

section
/-! The rendezvous of a gang (R250, R252). -/

namespace Sys2Proof.Machine

open Sys2Proof.Spec

/-! ### The members -/

/-- The members that have come, or none. -/
def allCome : List (Option Member) → Option (List Member) :=
  List.foldr (fun a b => match a, b with | some x, some xs => some (x :: xs) | _, _ => none) (some [])

theorem mem_of_allCome {xs : List (Option Member)} {ms : List Member} (h : allCome xs = some ms) {m : Member} (hm : m ∈ ms) : some m ∈ xs := by
  induction xs generalizing ms with
  | nil =>
    cases h
    cases hm
  | cons x xs ih =>
    obtain ⟨y, ys, rfl, hys, rfl⟩ : ∃ y ys, x = some y ∧ allCome xs = some ys ∧ ms = y :: ys := by
      unfold allCome at h ⊢
      rw [List.foldr_cons] at h
      split at h
      · next y ys hys => exact ⟨y, ys, rfl, hys, (Option.some.inj h).symm⟩
      · cases h
    rcases List.mem_cons.1 hm with rfl | hm
    · exact List.mem_cons_self
    · exact List.mem_cons_of_mem _ (ih hys hm)

/-- A member of a meeting is a group of the team as it stands. -/
theorem group?_of_gangMeeting {t : Team} {g : Group} {ms : List Member} (h : gangMeeting t g = some ms) {m : Member} (hm : m ∈ ms) :
    t.group? m.g.num = some m.g := by
  obtain ⟨q, -, hq⟩ := List.mem_map.1 (mem_of_allCome (show allCome _ = some ms from h) hm)
  simp only [Option.bind_eq_bind, Option.bind_eq_some_iff] at hq
  obtain ⟨x, hx, _, -, p, -, hq⟩ := hq
  split at hq
  · cases hq
    exact (Team.num_of_group? hx).symm ▸ hx
  · cases hq

theorem meetLegal_of_gangWord {l : Ln} {k : MatrixKind} {w : SW} {ms : List Member} (h : GangWord l k w ms) : MeetLegal l k w ms := by
  obtain ⟨-, htile, hregs⟩ := h
  refine ⟨htile, fun ht hv hb => List.all_eq_true.2 fun m hm => ?_⟩
  have hn := hregs ht hv hb m hm
  rw [List.countP_eq_length_filter] at hn
  simp only [Bool.or_eq_true, beq_iff_eq, Bool.and_eq_true, decide_eq_true_iff, List.all_eq_true, List.mem_range]
  exact hn

theorem agrees_of_gangWord {l : Ln} {k : MatrixKind} {w : SW} {ms : List Member} (h : GangWord l k w ms) : ∀ m ∈ ms, Agrees l k w m := by
  intro m hm
  obtain ⟨hg, hacc, hsh, hfmt, himm, x, hmeet⟩ := h.1 m hm
  refine ⟨hg, hacc, hsh, hfmt, himm, fun k' w' h => ?_⟩
  rw [hmeet] at h
  cases h
  rfl

/-! ### The event -/

section
variable {s : State} {t : Team} {g : Group} {entry : CqEntry} {k : MatrixKind} {w : SW} {p : Nat} {ms : List Member}
  (ht : s.team? t.key = some t) (hg : t.group? g.num = some g) (hk : g.meet = some (k, w)) (hp : g.liveSlots.head? = some p)
  (he : t.entryAt (g.eng (.c p)).entry = some entry)

include ht hg hk in
theorem exec_gangRendezvous_apart (h : gangMeeting t g = none) : exec (.gangRendezvous t.key g.num) s = .next s := by
  show execGangRendezvous t.key g.num s = _
  unfold execGangRendezvous runEvent
  simp [ht, hg, hk, h]

include ht hg hk hp he

/-- What the checks of the meeting answer is the anchor's. -/
theorem exec_gangRendezvous (h : gangMeeting t g = some ms) : exec (.gangRendezvous t.key g.num) s =
    .next ((if t.phase == .running && g.gang != 0 && gangMember g.gang 0 % 32 == g.num then
      match mxMeet (lnOf t g (.c p) entry) k w ms s with
      | .ok (_, s') => some s'
      | .error (.trap c) => some (s.laneTrap t.key g.num (.c p) false c)
      | .error _ => none
    else none).getD s) := by
  show execGangRendezvous t.key g.num s = _
  unfold execGangRendezvous runEvent
  simp only [ht, hg, hk, h, hp, he, Option.bind_eq_bind, Option.bind_some] <;> rfl

variable (h : gangMeeting t g = some ms)
include h

/-- Before the anchor's turn, nothing is done. -/
theorem exec_gangRendezvous_early (hn : t.phase ≠ .running ∨ g.gang = 0 ∨ field g.gang.toNat 4 0 ≠ g.num) :
    exec (.gangRendezvous t.key g.num) s = .next s := by
  rw [exec_gangRendezvous ht hg hk hp he h, if_neg]
  · rfl
  · have hnum : gangMember g.gang 0 % 32 = field g.gang.toNat 4 0 := gangMember_number g.gang 0
    simp only [Bool.and_eq_true, beq_iff_eq, bne_iff_ne, hnum, and_assoc]
    rintro ⟨hrun, hgang, hanchor⟩
    exact hn.elim (absurd hrun) fun hn => hn.elim hgang (absurd hanchor)

variable (hrun : t.phase = .running) (hgang : g.gang ≠ 0) (hanchor : field g.gang.toNat 4 0 = g.num)
include hrun hgang hanchor

theorem exec_gangRendezvous_run : exec (.gangRendezvous t.key g.num) s =
    .next ((match mxMeet (lnOf t g (.c p) entry) k w ms s with
      | .ok (_, s') => some s'
      | .error (.trap c) => some (s.laneTrap t.key g.num (.c p) false c)
      | .error _ => none : Option State).getD s) := by
  rw [exec_gangRendezvous ht hg hk hp he h, if_pos]
  have hnum : gangMember g.gang 0 % 32 = field g.gang.toNat 4 0 := gangMember_number g.gang 0
  simp only [Bool.and_eq_true, beq_iff_eq, bne_iff_ne, hnum, and_assoc]
  exact ⟨hrun, hgang, hanchor⟩

theorem exec_gangRendezvous_trap {c : Cause} (hm : mxMeet (lnOf t g (.c p) entry) k w ms s = .error (.trap c)) :
    exec (.gangRendezvous t.key g.num) s = .next (s.laneTrap t.key g.num (.c p) false c) := by
  rw [exec_gangRendezvous_run ht hg hk hp he h hrun hgang hanchor, hm]
  rfl

theorem exec_gangRendezvous_wait {c : WaitFor} {s' : State} (hm : mxMeet (lnOf t g (.c p) entry) k w ms s = .error (.wait c s')) :
    exec (.gangRendezvous t.key g.num) s = .next s := by
  rw [exec_gangRendezvous_run ht hg hk hp he h hrun hgang hanchor, hm]
  rfl

theorem exec_gangRendezvous_meets {s' : State} (hm : mxMeet (lnOf t g (.c p) entry) k w ms s = .ok ((), s')) :
    exec (.gangRendezvous t.key g.num) s = .next s' := by
  rw [exec_gangRendezvous_run ht hg hk hp he h hrun hgang hanchor, hm]
  rfl

end

/-! ### The machine after the meeting -/

theorem Team.group?_mapGroupNo_other (t : Team) {n m : Nat} (h : m ≠ n) (f : Group → Group) (hf : ∀ g, (f g).num = g.num) :
    (t.mapGroupNo n f).group? m = t.group? m := by
  unfold Team.mapGroupNo Team.group?
  dsimp only
  induction t.groups with
  | nil => rfl
  | cons g gs ih =>
    by_cases hn : (g.num == n) = true
    · have hm : (g.num == m) = false := beq_eq_false_iff_ne.2 fun e => h (e.symm.trans (beq_iff_eq.1 hn))
      rw [List.map_cons, if_pos hn, List.find?_cons_of_neg (by rw [hf, hm]; decide), List.find?_cons_of_neg (by rw [hm]; decide), ih]
    · rw [List.map_cons, if_neg hn, List.find?_cons, List.find?_cons, ih]

/-- An engine of a path that is there, after an update of it. -/
theorem Group.eng_mapEng_path (g : Group) {p : Nat} (hp : p < g.paths.length) (f : Engine → Engine) :
    (g.mapEng (.c p) f).eng (.c p) = f (g.eng (.c p)) := by
  show ((g.mapPath p fun x => { x with c := f (g.pathAt p).c }).pathAt p).c = _
  unfold Group.mapPath Group.setPath Group.pathAt
  simp only [List.getD_eq_getElem?_getD, List.getElem?_set, if_true]
  rw [if_pos hp]
  rfl

section
variable {l : Ln} {k : MatrixKind} {w : SW}

theorem Member.passed_num (m : Member) (g : Group) : (m.passed l k g).num = g.num := by
  unfold Member.passed
  exact Group.num_mapEng _ _ _

theorem Member.passed_ganged {m : Member} (hk : gangedKind k) (g : Group) : (m.passed l k g).ganged = g.ganged + 1 := if_pos (k.ganged_iff.2 hk)

/-- A member that has passed its word stands behind it. -/
theorem Member.passed_eng {m : Member} (hp : m.path < m.g.paths.length) :
    ((m.passed l k m.g).eng (.c m.path)).off = (m.g.eng (.c m.path)).off + swBytes m.w ∧ ((m.passed l k m.g).eng (.c m.path)).arrived = false := by
  have hpath : m.path < m.g.stirred.paths.length := by
    unfold Group.stirred
    rw [List.length_map]
    exact hp
  have heng := m.g.stirred.eng_mapEng_path hpath fun e => { e.pass (swBytes m.w) with passed := if l.entry.view.service then e.passed else e.passed + 1 }
  have hoff : (m.g.stirred.eng (.c m.path)).off = (m.g.eng (.c m.path)).off := congrArg (·.2.2) (m.g.stirred_at (.c m.path))
  refine ⟨(congrArg Engine.off heng).trans ?_, congrArg Engine.arrived heng⟩
  rw [← hoff]
  rfl

/-- The team with its members past their words. -/
def Team.meets (t : Team) (l : Ln) (k : MatrixKind) (ms : List Member) : Team := ms.foldl (fun t m => t.mapGroupNo m.g.num (m.passed l k)) t

theorem Team.meets_subst (ms : List Member) (t : Team) : (t.meets l k ms).subst = t.subst := by
  induction ms generalizing t with
  | nil => rfl
  | cons m ms ih => exact ih _

theorem Team.meets_other {ms : List Member} {n : Nat} (h : n ∉ ms.map fun m => m.g.num) (t : Team) : (t.meets l k ms).group? n = t.group? n := by
  induction ms generalizing t with
  | nil => rfl
  | cons m ms ih =>
    obtain ⟨hn, hms⟩ : n ≠ m.g.num ∧ n ∉ ms.map fun m => m.g.num := by simpa using h
    exact (ih (by simpa using hms) _).trans (t.group?_mapGroupNo_other hn _ m.passed_num)

/-- Each of the members has passed its own word, and that alone. -/
theorem Team.meets_member {ms : List Member} (hn : (ms.map fun m => m.g.num).Nodup) {m : Member} (hm : m ∈ ms) (t : Team) :
    (t.meets l k ms).group? m.g.num = (t.group? m.g.num).map (m.passed l k) := by
  induction ms generalizing t with
  | nil => cases hm
  | cons x ms ih =>
    rw [List.map_cons, List.nodup_cons] at hn
    obtain ⟨hx, hn⟩ := hn
    rcases List.mem_cons.1 hm with rfl | hm
    · exact (Team.meets_other hx _).trans (t.group?_mapGroupNo _ _ m.passed_num)
    · have hne : m.g.num ≠ x.g.num := fun e => hx (e ▸ List.mem_map_of_mem hm)
      exact (ih hn hm _).trans (congrArg _ (t.group?_mapGroupNo_other hne _ x.passed_num))

theorem State.mapMembers_team? {ms : List Member} {s : State} {t : Team} (h : s.team? l.t.key = some t) :
    (ms.foldl (fun s m => s.mapGroup l.t.key m.g.num (m.passed l k)) s).team? l.t.key = some (t.meets l k ms) := by
  induction ms generalizing s t with
  | nil => exact h
  | cons m ms ih => exact ih (State.team?_mapTeam_some h (·.mapGroupNo m.g.num (m.passed l k)) fun _ => rfl)

theorem State.mapMembers_mqueue (ms : List Member) (s : State) :
    (ms.foldl (fun s m => s.mapGroup l.t.key m.g.num (m.passed l k)) s).mqueue = s.mqueue := by
  induction ms generalizing s with
  | nil => rfl
  | cons m ms ih => exact ih _

theorem State.meets_mqueue (s : State) (ms : List Member) (op : MatrixOp) : (s.meets l k w ms op).mqueue = s.mqueue ++ [op] := State.mapMembers_mqueue ms _

theorem State.meets_team? {s : State} (h : s.team? l.t.key = some l.t) (ms : List Member) (op : MatrixOp) :
    (s.meets l k w ms op).team? l.t.key = some (Team.meets { l.t with subst := substSet k (l.mxFmt w).toNat l.t.subst } l k ms) := by
  refine State.mapMembers_team? ?_
  exact State.team?_mapTeam_some (u := l.t) h (fun t => { t with subst := substSet k (l.mxFmt w).toNat t.subst }) fun _ => rfl

end

end Sys2Proof.Machine
end

section
/-! Matrix words, `mx.gang` and the rendezvous together (R245 to R276). -/

namespace Sys2Proof.Machine

open Sys2Proof.Spec

/-- A gang whose members' words agree, with operands that are there and room in the queue, meets (R252). -/
theorem gang_meets {s : State} {t : Team} {g : Group} {entry : CqEntry} {k : MatrixKind} {w : SW} {p : Nat} {ms : List Member}
    (ht : s.team? t.key = some t) (hg : t.group? g.num = some g) (h : gangMeeting t g = some ms) (hk : gangedKind k)
    (hw : GangWord (lnOf t g (.c p) entry) k w ms) (hs : ShapeLegal s (lnOf t g (.c p) entry) k w) (hf : FormatLegal s (lnOf t g (.c p) entry) k w)
    (hgood : OperandsGood s (lnOf t g (.c p) entry) k w) (hfull : ¬AccessesFull s (lnOf t g (.c p) entry) k w)
    (hq : (s.mqueue.filter fun m => m.bay == g.bay).length < 4) :
    ∃ o s1 b s2 s' op, operandChecks (lnOf t g (.c p) entry) k w s = .ok (o, s1) ∧ BTaken (lnOf t g (.c p) entry) k w ms s1 b s2 ∧
      mxMeet (lnOf t g (.c p) entry) k w ms s = .ok ((), s') ∧ s'.mqueue = s.mqueue ++ [op] ∧
      op = { queuedOp s s2 (lnOf t g (.c p) entry) k w o b with toks := op.toks } ∧
      ∃ u, s'.team? t.key = some u ∧ u.subst = substSet k ((lnOf t g (.c p) entry).mxFmt w).toNat t.subst ∧
        ((ms.map fun m => m.g.num).Nodup → ∀ m ∈ ms, m.path < m.g.paths.length → ∃ h, u.group? m.g.num = some h ∧ h.ganged = m.g.ganged + 1 ∧
          h.meet = none ∧ (h.eng (.c m.path)).off = (m.g.eng (.c m.path)).off + swBytes m.w ∧ (h.eng (.c m.path)).arrived = false) := by
  have hl : (lnOf t g (.c p) entry).Here s := lnOf_here ht hg _ _
  have hkey : (lnOf t g (.c p) entry).t = t := rfl
  have hbay : (lnOf t g (.c p) entry).g.bay = g.bay := rfl
  generalize lnOf t g (.c p) entry = l at hw hs hf hgood hfull hl hkey hbay ⊢
  obtain rfl := hkey
  rw [← hbay] at hq
  obtain ⟨o, s1, ho, -⟩ := operandChecks_gives hl hgood
  obtain ⟨b, s2, hb⟩ := bTaken_exists l k w ms s1
  have hlook : s.Looked s2 := State.Looked.frame.trans ((operandChecks_looks l k w).ok ho) (bTaken_looked hb)
  have hteam : s2.team? l.t.key = some l.t := (hlook.team? _).trans hl.team
  obtain ⟨toks, htoks⟩ := Ln.memberTokens_ends hteam fun m hm => ⟨m.g, group?_of_gangMeeting h hm⟩
  refine ⟨o, s1, b, s2, _, _, ho, hb, mxMeet_meets hl (agrees_of_gangWord hw) (meetLegal_of_gangWord hw) hs (.inr hf) ho hfull hq hb htoks,
    (State.meets_mqueue _ _ _).trans (by rw [hlook.mqueue]), rfl, _, State.meets_team? hteam ms _, Team.meets_subst ms _, fun hn m hm hp => ?_⟩
  obtain ⟨hoff, harrived⟩ := Member.passed_eng (l := l) (k := k) hp
  refine ⟨m.passed l k m.g, (Team.meets_member hn hm _).trans ?_, Member.passed_ganged hk _, rfl, hoff, harrived⟩
  exact congrArg (Option.map (m.passed l k)) (group?_of_gangMeeting h hm)

/-- Settles O46: a matrix word by itself is its meeting, check by check; `mx.gang` takes the values that R251 names; and a rendezvous answers what
the anchor's meeting answers. -/
theorem matrixWordsAndGangs : Obligations.MatrixWordsAndGangs := by
  unfold Obligations.MatrixWordsAndGangs
  refine ⟨fun s l i k w p ht hi hp hlatch => ?_, fun s l w ht hissued hlatch => ?_, fun s t g entry k w p ms ht hg hk hp he => ?_⟩
  · refine ⟨exec_matrix_paths ht hi hlatch, exec_matrix_stands ht hi hlatch, fun ha hgang hm => ?_⟩
    refine ⟨exec_matrix_word ht hi hlatch ha hgang hp hm, exec_matrix_shape ht hi hlatch ha hgang hp hm,
      exec_matrix_format ht hi hlatch ha hgang hp hm, fun hw hs hf => ?_⟩
    intro full queued goesOn me
    have meets {o : Operands} {s1 : State} (ho : operandChecks l k w s = .ok (o, s1)) (hfull : ¬full) (hq : queued < 4) {b : Option (List Nat)}
        {s2 : State} (hb : BTaken l k w me s1 b s2) : exec i s = .next (goesOn s2 o b) := by
      have hmeets := exec_matrix_meets ht hi hlatch ha hgang hp hm hw hs hf ho hfull hq hb
      rw [meets_self s2 hp] at hmeets
      exact hmeets
    refine ⟨fun c => exec_matrix_operands ht hi hlatch ha hgang hp hm hw hs hf, fun o s1 ho => ?_, fun hgood hfull hq => ?_⟩
    · exact ⟨exec_matrix_accesses ht hi hlatch ha hgang hp hm hw hs hf ho, exec_matrix_queue ht hi hlatch ha hgang hp hm hw hs hf ho,
        fun hfull hq b s2 hb => meets ho hfull hq hb⟩
    · obtain ⟨o, s1, ho, -⟩ := operandChecks_gives ht.here hgood
      obtain ⟨b, s2, hb⟩ := bTaken_exists l k w me s1
      have hlook : s.Looked s2 := State.Looked.frame.trans ((operandChecks_looks l k w).ok ho) (bTaken_looked hb)
      refine ⟨o, s1, b, s2, ho, hb, meets ho hfull hq hb, (State.stepDone_mqueue _ _ _).trans ?_⟩
      exact congrArg (· ++ [queuedOp s s2 l k w o b]) hlook.mqueue
  · refine ⟨exec_mxGang_paths ht hissued hlatch, fun ha => ?_, fun lo hi ha hlo hhi hlegal => ?_⟩
    · obtain ⟨lo, s1, hi, s2, h1, h2, hmlo, hmhi, hs⟩ := exec_mxGang_reads ht w
      exact ⟨lo, s1, hi, s2, h1, h2, hmlo, hmhi, exec_mxGang_refused ht hissued hlatch ha h1 h2, exec_mxGang_set ht hissued hlatch ha h1 h2 hs.looked⟩
    · obtain ⟨lo', s1, hi', s2, h1, h2, hmlo, hmhi, tick, rfl⟩ := exec_mxGang_reads ht w
      obtain rfl := hlo lo' hmlo
      obtain rfl := hhi hi' hmhi
      exact ⟨_, rfl, exec_mxGang_set ht hissued hlatch ha h1 h2 (.tick s tick) hlegal⟩
  · refine ⟨exec_gangRendezvous_apart ht hg hk, fun h => ⟨exec_gangRendezvous_early ht hg hk hp he h, fun hrun hgang hanchor => ?_⟩⟩
    refine ⟨fun c => exec_gangRendezvous_trap ht hg hk hp he h hrun hgang hanchor, fun x s' => exec_gangRendezvous_wait ht hg hk hp he h hrun hgang hanchor,
      fun hkind hw hs hf hgood hfull hq => ?_⟩
    obtain ⟨o, s1, b, s2, s', op, ho, hb, hmeet, hqueue, hop, hteam⟩ := gang_meets ht hg h hkind hw hs hf hgood hfull hq
    exact ⟨o, s1, b, s2, s', op, ho, hb, exec_gangRendezvous_meets ht hg hk hp he h hrun hgang hanchor hmeet, hqueue, hop, hteam⟩

end Sys2Proof.Machine
end
